-- ==== Sys2Proof/Word.lean ====
section
/-! DEFINITION. The word types of the Dalermya D9 (R1, R99) and sparse tables by key, and the fields of a node record (R237). -/
namespace Sys2Proof

/-- One byte of memory (R1). -/
abbrev Byte := BitVec 8
/-- A scalar token value: 8 bytes (R99). -/
abbrev W64 := BitVec 64
abbrev W32 := BitVec 32
/-- A token value as the model carries it: 64 bytes; a scalar value occupies the low 8 bytes (R99). -/
abbrev Val := BitVec 512

/-- A sparse table: keys strictly rising, an absent key standing for the reader's default. DESIGN CHOICE (log entry 65). -/
abbrev Tab (α : Type) := List (Nat × α)

/-- The gap rule of a port (R107); code 11 is no rule. -/
inductive GapRule where
  | refuse | hold | lerp
  deriving DecidableEq, Repr

/-- The predicate mode of a node (R237). -/
inductive PredMode where
  | none | onTrue | onFalse
  deriving DecidableEq, Repr

/-- A token port of a node (R99). -/
inductive PortName where
  | a | b | p
  deriving DecidableEq, Repr

/-- A destination (R241). -/
inductive Dest where
  /-- KIND 00. -/
  | none
  /-- KIND 01: the element at (X + DX, Y + DY). -/
  | relative (dx dy : BitVec 5) (node : BitVec 6) (port : PortName)
  /-- KIND 10: entry INDEX of the route table. -/
  | far (index : BitVec 10) (node : BitVec 6) (port : PortName)
  /-- KIND 11, CLASS 000: a stream port. -/
  | port (number : BitVec 8)
  deriving DecidableEq, Repr

/-- The fields of a node record beside its opcode (R237). -/
structure NodeRec where
  fmt  : BitVec 3
  gapA : GapRule
  gapB : GapRule
  pm   : PredMode
  aux  : BitVec 5
  lit  : Bool
  v    : Bool
  dst0 : Dest
  dst1 : Dest
  lit32 : W32
  deriving DecidableEq, Repr

end Sys2Proof
end

