-- ==== Sys2Proof/Config.lean ====
section
/-! DEFINITION. What an implementation fixes and what the spec leaves open: constants with no body. -/
namespace Sys2Proof

/-- A free value: what the spec does not fix about the `n`-th open choice. DESIGN CHOICE (log entry 2). -/
opaque Config.freeValue : Nat → BitVec 512
/-- A free choice among outcomes the spec allows, for the `n`-th open choice. DESIGN CHOICE (log entry 2). -/
opaque Config.freeChoice : Nat → Nat
/-- Tokens one router input holds beyond the first; the spec gives no depth (R98). DESIGN CHOICE (log entry 10). -/
opaque Config.routerDepth : Nat
/-- The scales and band of an array's row of a block format whose stream port brings none for a row of this length (R376): for the
bytes of the row's granules. DESIGN CHOICE (log entry 57). -/
opaque Config.rowScales : List Byte → List Byte
/-- The SHA-384 digest of a message (R48), not computed by the model. DESIGN CHOICE (log entry 11). -/
opaque Config.sha384 : List Byte → List Byte
/-- Whether an ECDSA P-384 signature of a digest verifies under a key: key, digest, signature (R48).
DESIGN CHOICE (log entry 11). -/
opaque Config.ecdsaVerifies : List Byte → List Byte → List Byte → Bool
/-- Whether an LMS signature of a message verifies under a key: key, message, signature (R48).
DESIGN CHOICE (log entry 11). -/
opaque Config.lmsVerifies : List Byte → List Byte → List Byte → Bool
/-- The alias public key derived from the identity key and the firmware measurement (R50).
DESIGN CHOICE (log entry 11). -/
opaque Config.aliasKey : List Byte → List Byte
/-- A signature made with the alias key of a firmware measurement over a message (R50).
DESIGN CHOICE (log entry 11). -/
opaque Config.aliasSign : List Byte → List Byte → List Byte
/-- The certificate of the `n`-th member of the chain of R50: root, intermediate, identity, alias.
DESIGN CHOICE (log entry 11). -/
opaque Config.certificate : Nat → List Byte → List Byte
/-- Whether a firmware command that blows the revocation fuse of a key slot carries a good signature: slot, signature (R50).
DESIGN CHOICE (log entry 11). -/
opaque Config.revocationSigned : Nat → List Byte → Bool
/-- The fabric microcode image that the firmware loads at the `n`-th open choice (R48): no rule says where it comes from.
DESIGN CHOICE (log entry 71). -/
opaque Config.microcodeImage : Nat → List Byte
/-- The digest of the on-package ROM (R51, measurement 1). DESIGN CHOICE (log entry 11). -/
opaque Config.romDigest : List Byte
/-- The bytes of a section of a save image, for the `n`-th image and the section's number: its encoding belongs to the implementation (R89, R435).
DESIGN CHOICE (log entry 44). -/
opaque Config.imageSection : Nat → Nat → List Byte
/-- The version that the header of RESYNC gives, and the states of the Lodge's cores (R68): the spec gives no values.
DESIGN CHOICE (log entry 12). -/
opaque Config.resyncVersion : Nat
/-- DESIGN CHOICE (log entry 12). -/
opaque Config.lodgeCores : List Nat
/-- How a RESYNC section whose layout the spec does not give lays its fields out: section offset, field values (R68, log
entry 12). DESIGN CHOICE (log entry 12); DEDUCED (log entry 84). -/
opaque Config.resyncLayout : Nat → List Nat → List Byte

end Sys2Proof
end

