-- ==== Sys2Proof/Syntax.lean ====
section
/-! DEFINITION. The instructions and steps of the opcode table: one constructor per row. A node form carries its record;
a step of the package carries nothing, its data being an input of the machine (Machine/Event.lean). -/
namespace Sys2Proof

/-- The instructions and steps of the D9. -/
inductive Instr where
  /-- Forwards operand A to both destinations (R307). -/
  | mov (r : NodeRec)
  /-- Sends A to one destination chosen by bit 0 of B and NULL to the other (R308). -/
  | steer (r : NodeRec)
  /-- Forwards the non-NULL one of A and B, or NULL (R309). -/
  | merge (r : NodeRec)
  /-- Forwards A once B has arrived over an overlapping interval (R307). -/
  | gate (r : NodeRec)
  /-- Accepts A and produces nothing (R307). -/
  | sink (r : NodeRec)
  /-- Fires a NULL token over each A token's interval (R307). -/
  | nullify (r : NodeRec)
  /-- Fires the expanded literal over A's interval (R307). -/
  | lite (r : NodeRec)
  /-- Chooses A or B lane by lane by the predicate on P (R310). -/
  | sel (r : NodeRec)
  /-- Fires pred 1 when A is NULL and 0 otherwise (R311). -/
  | isnull (r : NodeRec)
  /-- Votes three TMR copies per position and forwards an agreeing copy, or raises VOTE_NONE (R231). -/
  | vote3 (r : NodeRec)
  /-- Shifts A's interval by d (R314). -/
  | ishift (r : NodeRec)
  /-- Raises lo or lowers hi of A's interval to a limit (R314). -/
  | iclip (r : NodeRec)
  /-- Opens A's interval to infinity or extends hi by e (R314). -/
  | iwiden (r : NodeRec)
  /-- Cuts A's interval into up to 16 pieces of length l sent one per cycle (R315). -/
  | isplit (r : NodeRec)
  /-- Fires A's interval start as an n32 value (R316). -/
  | ilo (r : NodeRec)
  /-- Fires A's interval end as an n32 value (R316). -/
  | ihi (r : NodeRec)
  /-- Sends A over the interval given by B (R316). -/
  | istamp (r : NodeRec)
  /-- Forwards A and then a FRONT token at A.hi or closing the consumer (R317). -/
  | ifront (r : NodeRec)
  /-- Integer add modulo 2^w (R265). -/
  | add (r : NodeRec)
  /-- Integer subtract modulo 2^w (R265). -/
  | sub (r : NodeRec)
  /-- Low half of the integer product (R265). -/
  | mul (r : NodeRec)
  /-- High half of the exact integer product (R266). -/
  | mulh (r : NodeRec)
  /-- Integer multiply-add modulo 2^w (R265). -/
  | mad (r : NodeRec)
  /-- Integer divide toward zero in the divider (R269). -/
  | div (r : NodeRec)
  /-- Integer remainder with the dividend's sign (R269). -/
  | rem (r : NodeRec)
  /-- Integer negate modulo 2^w (R268). -/
  | neg (r : NodeRec)
  /-- Integer absolute value modulo 2^w (R268). -/
  | abs (r : NodeRec)
  /-- Integer minimum (R268). -/
  | min (r : NodeRec)
  /-- Integer maximum (R268). -/
  | max (r : NodeRec)
  /-- Saturating integer add (R267). -/
  | adds (r : NodeRec)
  /-- Saturating integer subtract (R267). -/
  | subs (r : NodeRec)
  /-- Bitwise AND (R270). -/
  | and (r : NodeRec)
  /-- Bitwise OR (R270). -/
  | or (r : NodeRec)
  /-- Bitwise XOR (R270). -/
  | xor (r : NodeRec)
  /-- A AND NOT B (R270). -/
  | andn (r : NodeRec)
  /-- Bitwise inversion of A (R270). -/
  | not (r : NodeRec)
  /-- Logical shift left per lane (R271). -/
  | shl (r : NodeRec)
  /-- Logical shift right per lane (R271). -/
  | shr (r : NodeRec)
  /-- Arithmetic shift right per lane (R271). -/
  | sar (r : NodeRec)
  /-- Rotate left per lane (R271). -/
  | rotl (r : NodeRec)
  /-- Count leading zeros per lane (R272). -/
  | clz (r : NodeRec)
  /-- Count trailing zeros per lane (R272). -/
  | ctz (r : NodeRec)
  /-- Population count per lane (R272). -/
  | popc (r : NodeRec)
  /-- Extracts a bit field per lane, sign- or zero-extended (R274). -/
  | bfx (r : NodeRec)
  /-- Inserts the low bits of P into a field of A per lane (R275). -/
  | bfi (r : NodeRec)
  /-- Reverses bit order per lane (R272). -/
  | brev (r : NodeRec)
  /-- Integer equality compare to pred (R277). -/
  | cmpeq (r : NodeRec)
  /-- Integer inequality compare to pred (R277). -/
  | cmpne (r : NodeRec)
  /-- Integer less-than compare by FMT signedness (R277). -/
  | cmplt (r : NodeRec)
  /-- Integer less-or-equal compare by FMT signedness (R277). -/
  | cmple (r : NodeRec)
  /-- Unsigned less-than compare (R277). -/
  | cmpltn (r : NodeRec)
  /-- Unsigned less-or-equal compare (R277). -/
  | cmplen (r : NodeRec)
  /-- Float equality compare to pred (R287). -/
  | fcmpeq (r : NodeRec)
  /-- Float inequality or unordered compare (R287). -/
  | fcmpne (r : NodeRec)
  /-- Float less-than compare (R287). -/
  | fcmplt (r : NodeRec)
  /-- Float less-or-equal compare (R287). -/
  | fcmple (r : NodeRec)
  /-- Float unordered compare (R287). -/
  | fcmpun (r : NodeRec)
  /-- Predicate AND per lane (R278). -/
  | pand (r : NodeRec)
  /-- Predicate OR per lane (R278). -/
  | por (r : NodeRec)
  /-- Predicate NOT per lane (R278). -/
  | pnot (r : NodeRec)
  /-- Scalar pred 1 when any lane is true (R279). -/
  | pany (r : NodeRec)
  /-- Scalar pred 1 when every lane is true (R279). -/
  | pall (r : NodeRec)
  /-- Float add rounded once (R282). -/
  | fadd (r : NodeRec)
  /-- Float subtract rounded once (R282). -/
  | fsub (r : NodeRec)
  /-- Float multiply rounded once (R282). -/
  | fmul (r : NodeRec)
  /-- Fused multiply-add x*y+z (R282). -/
  | fma (r : NodeRec)
  /-- Fused multiply-subtract x*y-z (R282). -/
  | fms (r : NodeRec)
  /-- Fused z-x*y (R282). -/
  | fnma (r : NodeRec)
  /-- Float minimum with NaN and zero rules (R283). -/
  | fmin (r : NodeRec)
  /-- Float maximum with NaN and zero rules (R283). -/
  | fmax (r : NodeRec)
  /-- Clears the sign bit (R284). -/
  | fabs (r : NodeRec)
  /-- Inverts the sign bit (R284). -/
  | fneg (r : NodeRec)
  /-- Gives A the sign of B (R284). -/
  | fsgn (r : NodeRec)
  /-- Writes a class number per lane (R285). -/
  | fclass (r : NodeRec)
  /-- Rounds to an integral value under RM (R286). -/
  | frnd (r : NodeRec)
  /-- Reciprocal within 1 ulp (R208). -/
  | frcp (r : NodeRec)
  /-- Reciprocal square root approximation (R288). -/
  | frsq (r : NodeRec)
  /-- Correctly rounded square root in the divider (R288). -/
  | fsqrt (r : NodeRec)
  /-- Correctly rounded division in the divider (R288). -/
  | fdiv (r : NodeRec)
  /-- Base-2 exponential approximation (R288). -/
  | fexp2 (r : NodeRec)
  /-- Base-2 logarithm approximation (R288). -/
  | flog2 (r : NodeRec)
  /-- Hyperbolic tangent approximation (R288). -/
  | ftanh (r : NodeRec)
  /-- Float-to-float conversion into a part (R291). -/
  | cvt (r : NodeRec)
  /-- Float-to-integer conversion, saturating (R292). -/
  | cvti (r : NodeRec)
  /-- Integer-to-float conversion (R293). -/
  | cvtf (r : NodeRec)
  /-- Largest magnitude of each block in f32 (R294). -/
  | qamax (r : NodeRec)
  /-- Turns amax values into MX or NB4 scale codes or band scales (R295). -/
  | qscale (r : NodeRec)
  /-- Divides by block scales and packs into a narrow format (R296). -/
  | qpack (r : NodeRec)
  /-- Expands scaled codes into a float format (R297). -/
  | qunpack (r : NodeRec)
  /-- Seeds the context's stochastic rounding generator (R298). -/
  | srseed (r : NodeRec)
  /-- Shuffles lanes by index vector (R300). -/
  | vshuf (r : NodeRec)
  /-- Broadcasts a scalar or lane to every lane (R300). -/
  | vbcast (r : NodeRec)
  /-- Extracts lane k as a scalar (R300). -/
  | vext (r : NodeRec)
  /-- Inserts a scalar into lane k (R300). -/
  | vins (r : NodeRec)
  /-- Pairwise-tree sum of lanes (R301). -/
  | vredadd (r : NodeRec)
  /-- Pairwise-tree maximum of lanes (R301). -/
  | vredmax (r : NodeRec)
  /-- Pairwise-tree minimum of lanes (R301). -/
  | vredmin (r : NodeRec)
  /-- Takes lanes below s from A and the rest from B (R300). -/
  | vpack (r : NodeRec)
  /-- Interleaves a half of A and B (R300). -/
  | vunpk (r : NodeRec)
  /-- Inclusive or exclusive running sums over lanes (R302). -/
  | vscan (r : NodeRec)
  /-- Slides lanes across A and B by k (R300). -/
  | vslide (r : NodeRec)
  /-- Rotates lanes by B (R300). -/
  | vrotl (r : NodeRec)
  /-- Scalar or 16-byte load (R337). -/
  | ld (r : NodeRec)
  /-- Scalar or 16-byte store (R337). -/
  | st (r : NodeRec)
  /-- 64-byte vector load (R337). -/
  | ldv (r : NodeRec)
  /-- 64-byte vector store (R337). -/
  | stv (r : NodeRec)
  /-- Block-format load decoded into float lanes (R339). -/
  | ldb (r : NodeRec)
  /-- Stores 64 bytes of block-format element codes (R340). -/
  | stb (r : NodeRec)
  /-- Prefetch that never traps (R338). -/
  | pref (r : NodeRec)
  /-- Atomic wrapping add returning the old value (R341). -/
  | amoadd (r : NodeRec)
  /-- Atomic f32 add per lane (R341). -/
  | amofadd (r : NodeRec)
  /-- Atomic signed minimum (R341). -/
  | amomin (r : NodeRec)
  /-- Atomic signed maximum (R341). -/
  | amomax (r : NodeRec)
  /-- Atomic AND (R341). -/
  | amoand (r : NodeRec)
  /-- Atomic OR (R341). -/
  | amoor (r : NodeRec)
  /-- Atomic XOR (R341). -/
  | amoxor (r : NodeRec)
  /-- Atomic swap (R341). -/
  | amoswp (r : NodeRec)
  /-- Atomic compare-and-swap (R341). -/
  | amocas (r : NodeRec)
  /-- Fence firing once its wired nodes meet the scope and class condition (R342). -/
  | joinf (r : NodeRec)
  /-- Reads a word and fires when it reaches a threshold, else watches it (R344). -/
  | waita (r : NodeRec)
  /-- Stores a word and ends every WAITA watching it (R347). -/
  | wakea (r : NodeRec)
  /-- Branches to the literal block address (R321). -/
  | br (r : NodeRec)
  /-- Branches to the block address in A (R321). -/
  | bri (r : NodeRec)
  /-- Pushes a return address and branches (R322). -/
  | call (r : NodeRec)
  /-- Pops the return stack and branches, or exits when empty (R322). -/
  | ret (r : NodeRec)
  /-- Reads a carry slot (R323). -/
  | rdc (r : NodeRec)
  /-- Writes a carry slot, accounted at commit (R320). -/
  | wrc (r : NodeRec)
  /-- Reserves a thread record and starts the thread at commit (R324). -/
  | spawn (r : NodeRec)
  /-- Ends the thread at commit (R325). -/
  | exit (r : NodeRec)
  /-- Joins a group at commit (R326). -/
  | join (r : NodeRec)
  /-- Leaves a group at commit (R326). -/
  | leave (r : NodeRec)
  /-- Arrives at a group barrier when oldest and fires the completed generation (R326). -/
  | gbar (r : NodeRec)
  /-- Pauses starting activations after commit (R327). -/
  | yield (r : NodeRec)
  /-- Checks a launch packet and hands a child launch over at commit (R328). -/
  | launch (r : NodeRec)
  /-- Sets the task's remaining-time estimate at commit (R329). -/
  | est (r : NodeRec)
  /-- Opens a stream binding from a pattern descriptor (R354). -/
  | sbind (r : NodeRec)
  /-- Releases the activation's bindings on a port (R358). -/
  | srel (r : NodeRec)
  /-- Fires the stream position of the oldest binding (R358). -/
  | spos (r : NodeRec)
  /-- Hands a copy descriptor to the copy engine (R359). -/
  | xcopy (r : NodeRec)
  /-- Sends an indexed-reduce command to an outer stack's adders (R362). -/
  | nmred (r : NodeRec)
  /-- Opens a Pergola row in row mode (R162). -/
  | rowact (r : NodeRec)
  /-- Moves the open row into the bed's banks or weight sets (R365). -/
  | rowcon (r : NodeRec)
  /-- Writes the open row from the bed's banks (R366). -/
  | rowput (r : NodeRec)
  /-- Closes an open row (R162). -/
  | rowpre (r : NodeRec)
  /-- Writes a launch into a device-memory queue, parking when full (R367). -/
  | qput (r : NodeRec)
  /-- Writes a launch into a queue, returning status 1 when full (R367). -/
  | qputNb (r : NodeRec)
  /-- Writes a node literal of its own plane and logs it (R368). -/
  | argw (r : NodeRec)
  /-- Loads a weight set into every array element from a stream port (R375). -/
  | mwload (r : NodeRec)
  /-- Queues an assignment of rows to a weight set (R376). -/
  | mmac (r : NodeRec)
  /-- Triggers the array drain, optionally keeping the accumulators (R377). -/
  | mdrain (r : NodeRec)
  /-- Writes one accumulator row from a token (R377). -/
  | macc (r : NodeRec)
  /-- Turns checksum protection on, or reads its status (R377). -/
  | mchk (r : NodeRec)
  /-- Zeroes the accumulators and checksum state (R132). -/
  | mrel (r : NodeRec)
  /-- Enters factorising mode on a bed's tile (R139). -/
  | fctb (r : NodeRec)
  /-- Steps the factorisation by n columns (R140). -/
  | fcts (r : NodeRec)
  /-- Joins beds into a negotiation group (R379). -/
  | fctn (r : NodeRec)
  /-- Returns the rename map, pivot history or growth (R144). -/
  | fctr (r : NodeRec)
  /-- Solves A x = b on a factorised bed (R144). -/
  | fctsv (r : NodeRec)
  /-- Leaves factorising mode (R145). -/
  | fcte (r : NodeRec)
  /-- Contributes a value to a router-tree round (R381). -/
  | redput (r : NodeRec)
  /-- Receives a router-tree round result (R382). -/
  | redwait (r : NodeRec)
  /-- Starts a participant's share of a collective (R384). -/
  | coll (r : NodeRec)
  /-- Waits for a collective round and fires its status (R387). -/
  | collw (r : NodeRec)
  /-- Reads a system or permitted management register (R390). -/
  | sysrd (r : NodeRec)
  /-- Writes a system register or a permitted GH_WAYPART (R390). -/
  | syswr (r : NodeRec)
  /-- Raises USER with the literal INFO (R389). -/
  | trap (r : NodeRec)
  /-- Resumes the trapped thread at commit (R216). -/
  | eret (r : NodeRec)
  /-- Raises BREAKPOINT (R389). -/
  | bkpt (r : NodeRec)
  /-- Fires the fabric-cycle count or package time (R393). -/
  | time (r : NodeRec)
  /-- Sets a Belvedere tap for the task's own ASID (R393). -/
  | tapset (r : NodeRec)
  /-- Ends the whole task at commit with a status (R393). -/
  | halt (r : NodeRec)
  /-- Package reset clears state to reset values and starts Lodge core 0 running from on-package ROM (R48). -/
  | packageReset
  /-- A host write of BOOT_PUSH with GO = 1 makes the ROM read the pushed image of length LEN from BAR2 offset 0 (R49). -/
  | bootPushGo
  /-- No GO within 60 s of reset or fall-back, or no boot file within 60 s of link-up, counts as source unreachable (CODE 6) (R49). -/
  | bootSourceTimeout
  /-- The network fetch over DHCP and HTTP completes and the fetched image is checked (R49). -/
  | bootNetworkFetchDone
  /-- No DHCPv6 server answers within 5 s and the ROM uses DHCPv4 instead (R49). -/
  | dhcpv6Timeout
  /-- SPDM GET_VERSION request answered by the responder (R51). -/
  | getVersion
  /-- SPDM GET_CAPABILITIES request answered (R51). -/
  | getCapabilities
  /-- SPDM NEGOTIATE_ALGORITHMS request, ECDSA P-384 and SHA-384 only (R51). -/
  | negotiateAlgorithms
  /-- SPDM GET_DIGESTS request answered (R51). -/
  | getDigests
  /-- SPDM GET_CERTIFICATE returns the root, intermediate, identity and alias chain (R51). -/
  | getCertificate
  /-- SPDM CHALLENGE answered with a signature made by the alias key (R51). -/
  | challenge
  /-- SPDM GET_MEASUREMENTS returns measurement indices 1 to 5 (R51). -/
  | getMeasurements
  /-- SPDM KEY_EXCHANGE opens a secured session, up to four at once (R51). -/
  | keyExchange
  /-- SPDM FINISH completes a session handshake (R51). -/
  | finish
  /-- SPDM END_SESSION closes a secured session (R51). -/
  | endSession
  /-- A BAR0 access of wrong size or alignment completes with Unsupported Request and has no effect (R45). -/
  | bar0UnsupportedAccess
  /-- A host write through BAR2 reaches local physical memory in arrival order as a PACKAGE-scope release, or completes with Unsupported Request when out of range (R47). -/
  | bar2Write
  /-- A host read through BAR2 acts as a plain PACKAGE load, or completes with Unsupported Request when any byte is out of range (R47). -/
  | bar2Read
  /-- The PCIe link completes training or retraining and HP_STAT takes the negotiated rate and width (R47). -/
  | pcieLinkTrained
  /-- A write to a management register without behaviour of its own sets its RW fields, clears W1C bits or is ignored (R46). -/
  | registerWrite
  /-- A write index reaches a queue's notify page and updates the slot's NOTIFY, or SHADOW and PEND when unmapped, with an overrun check (R53). -/
  | notifyWrite
  /-- A QS_MAP write with SET = 1 maps a queue into a free slot, loading NOTIFY and read position and clearing PEND (R54). -/
  | queueMap
  /-- A QS_MAP write with SET = 0 unmaps a slot after its current fetch, writing SHADOW and RDIDX back to the descriptor (R54). -/
  | queueUnmap
  /-- A slot of an enabled queue reads and checks the head launch entry, recording an error code on failure (R55). -/
  | slotFetch
  /-- A peer writes one or two entries of the UALink launch ring, which are marked written or dropped as malformed or overrun (R60). -/
  | rackRingWrite
  /-- A reliable ordered Ultra Ethernet launch message enters the Ethernet rack ring, or is rejected for a wrong length (R61). -/
  | rackEthernetLaunch
  /-- A complete rack-ring head launch is checked and offered, or consumed with a REJECTED report (R61). -/
  | rackLaunchConsume
  /-- Every 100 ns the queue scheduler moves the offered launch of highest priority, round-robin among equals, into the dispatcher (R71). -/
  | dispatchTick
  /-- The dispatcher reads a launch's semaphores on entry, after a write to a watched granule or every 100 µs, making it placeable once all are satisfied (R72). -/
  | semaphoreRead
  /-- Every 100 µs or on a retirement or freed region, the placer tries placeable launches in token order and may take a pre-emption decision (R74). -/
  | placerPass
  /-- A drained victim not retired within max(2 × rem, 100 µs) is decided again without row 1 (R85). -/
  | drainTimeout
  /-- A task's quantum runs out and it counts as past its quantum until the end of the next placer pass (R73). -/
  | quantumExpiry
  /-- A node receiving its first marker records its matching state, stops firing and forwards markers, then records later tokens as channel state (R87). -/
  | markerArrive
  /-- After 256 cycles without progress on a back-pressured edge, the marker is injected at the producer's output latch (R88). -/
  | markerLatchInject
  /-- Once every edge has carried a marker the save image is written to the pool, or the checkpoint turns into a kill (R89). -/
  | checkpointSave
  /-- A task whose last thread has exited and whose streams, copies and rounds are done retires, adding its value at COMPL (R325). -/
  | taskRetire
  /-- A plane drops into a free context of the region, evicting an idle plane when needed, and applies its argument map and rewrite log (R80). -/
  | planeDrop
  /-- An element accepts one token from its input latches, updates frontier, gaps and stored entries, finds firings and releases them (R105). -/
  | tokenAccept
  /-- A token moves one element along its X-then-Y route through the router (R98). -/
  | routerHop
  /-- A thread starts an activation with a free iteration tag and frames, delivering start tokens to entry nodes (R81). -/
  | activationStart
  /-- The oldest activation whose LSIDs, carry writes and one branch are accounted for commits (R320). -/
  | activationCommit
  /-- A held trap is taken when its activation becomes the oldest, discarding it and later activations (R212). -/
  | trapTake
  /-- The Lodge services a queued trap by resolving it with ERET, delivering it, or ending the task (R215). -/
  | lodgeTrapService
  /-- A unit blocked for ERR_PROBE.DELAY cycles sends a probe along each wait-for edge, and again every DELAY cycles (R119). -/
  | probeSend
  /-- A probe reaching a unit is dropped, forwarded, or raises DEADLOCK on return to its origin (R119). -/
  | probeArrive
  /-- After YIELD, 256 fabric cycles pass and the thread may start activations again (R327). -/
  | yieldExpiry
  /-- A corrected or uncorrected error in an element is counted in its window against ERR_THRESH (R219). -/
  | elementErrorEvent
  /-- An element that consumed an uncorrectable error rolls back and re-accepts its 16 history tokens (R223). -/
  | elementReplay
  /-- An element with a lasting fault is moved to its bed's idle spare (R226). -/
  | elementSparing
  /-- Every 100 µs all thermal sensors are sampled and judged as failure candidates (R16). -/
  | thermSample
  /-- A Pergola sensor at or above RETIRE for 100 samples retires its 16 banks and interrupts the Lodge (R20). -/
  | bankThermalRetire
  /-- Writing 1 to THERM_SENS.FAILED clears a failed mark so the sensor is judged afresh (R18). -/
  | thermSensFailedClear
  /-- A THERM_LIM write sets thresholds, clamping RETIRE to at least RESUME + 5 (R22). -/
  | thermLimWrite
  /-- Every 10 µs the package measures input power and updates PWR_NOW (R23). -/
  | powerSample
  /-- Every 100 µs the power controller takes one throttle or clock-step action from the capping table (R24). -/
  | powerPeriod
  /-- Power not at or below CAP within 1 ms of the condition arising sets PWR_STAT.OVER (R24). -/
  | powerOverDeadline
  /-- A PWR_CAP write takes effect at the next sample, clamped, and restarts the 1 ms deadline (R25). -/
  | pwrCapWrite
  /-- A PWR_WIN write sets the window, clamped, and restarts the mean from the latest sample (R23). -/
  | pwrWinWrite
  /-- A lane loses lock or contributes corrected or uncorrectable symbols in a codeword and the event is counted (R28). -/
  | laneErrorEvent
  /-- A lasting fault on an active lane moves its share onto L4 at an agreed flit without losing a request (R29). -/
  | laneSparing
  /-- A scale-up port with an unrecoverable lane fault or exhausted retry goes DOWN and is isolated (R30). -/
  | portDown
  /-- A scale-up port completes training with four active lanes and a trained spare and comes UP (R26). -/
  | portLinkUp
  /-- A request held behind an earlier request to the same granule on a no-longer-chosen port is sent once that request completes (R34). -/
  | remoteRequestWaitEnd
  /-- A request without completion within LK_TMO.TMO µs isolates its peer (R35). -/
  | requestTimeout
  /-- A peer's error completion isolates that peer (R35). -/
  | errorCompletionReceived
  /-- A peer's tray-drain notice makes this package stop sending and isolate the peer once its requests there complete (R39). -/
  | drainNoticeReceived
  /-- A true completion after a synthesised one is discarded and counted in LK_STAT.LATE (R37). -/
  | lateCompletion
  /-- A request from an isolated peer gets an error completion and is not performed (R37). -/
  | inboundFromIsolatedPeer
  /-- An inbound UALink request from a peer is performed by the local memory system (R27). -/
  | inboundRequest
  /-- LK_ISOLATE with KIND 00 and SET 1 isolates a peer (R35). -/
  | isolatePeer
  /-- LK_ISOLATE with KIND 01 and SET 1 isolates a scale-up port (R35). -/
  | isolatePort
  /-- LK_ISOLATE with KIND 00 and SET 0 returns a peer to use and stops its drop-log entry counting (R38). -/
  | returnPeer
  /-- LK_ISOLATE with KIND 01 and SET 0 retrains a port on all five lanes and clears SPARED (R38). -/
  | returnPort
  /-- An LK_PEERMAP write sets domain membership, isolating first a cleared peer with requests outstanding (R43). -/
  | lkPeermapWrite
  /-- An LK_CFG write sets SELF, ignored above 143 (R43). -/
  | lkCfgWrite
  /-- Writing 1 to a drop-log entry's VALID frees it (R38). -/
  | droplogFree
  /-- Writing LK_DRAIN.START in ACTIVE starts a tray drain in QUIESCE (R39). -/
  | lkDrainStart
  /-- QUIESCE ends when no outbound request is outstanding or LK_DRAINTMO expires, and the drain notice is sent (R39). -/
  | drainQuiesceEnd
  /-- NOTIFY ends when every peer has acknowledged or LK_DRAINTMO expires, and everything is isolated (R39). -/
  | drainNotifyEnd
  /-- Once lanes are powered down the drain reaches SAFE and sets DONE (R39). -/
  | drainSafe
  /-- When one Ethernet port goes down all its traffic moves to the other port (R41). -/
  | ethernetPortFailover
  /-- A QS_ADMDB write advances WR and the Lodge takes the commands up to it in ring order (R65). -/
  | adminDoorbell
  /-- A permitted QS_ADMQ or QS_ADMC write sets the ring and resets RDIDX, CWR and phase (R65). -/
  | adminRingSet
  /-- The Lodge writes a completion at CWR, advances CWR and sends the MSI-X vector (R65). -/
  | adminCompletion
  /-- An unassigned admin opcode completes with STATUS 1 (R64). -/
  | adminUnknownOpcode
  /-- Admin QUEUE_CREATE fills a queue descriptor or completes with STATUS 2 or 3 (R52). -/
  | queueCreate
  /-- Admin QUEUE_DESTROY disables and unmaps the queue, waits until none of its tasks is resident and frees it (R67). -/
  | queueDestroy
  /-- Admin QUEUE_RESET clears a queue's ERR and sets its RDIDX (R55). -/
  | queueReset
  /-- Admin RESYNC returns an 8 KiB summary and increments GEN (R68). -/
  | resync
  /-- Admin TRAY_DRAIN starts the drain of R39 and completes at SAFE (R64). -/
  | trayDrain
  /-- Admin PLANE_INSTALL checks and stores a plane image in device memory and every quarter's Orangery (R66). -/
  | planeInstall
  /-- Admin PLANE_REMOVE uninstalls a plane that is not resident (R66). -/
  | planeRemove
  /-- Admin ASID_CREATE allocates an ASID with an empty level-0 table (R67). -/
  | asidCreate
  /-- Admin ASID_DESTROY waits until no task of the ASID is resident, then unmaps and frees it (R67). -/
  | asidDestroy
  /-- Admin MAP enters pages in an ASID, allocating and zeroing them when asked, and invalidates (R67). -/
  | map
  /-- Admin UNMAP clears entries, invalidates and frees allocated pages (R67). -/
  | unmap
  /-- Admin COLL_GROUP checks and writes COLL_GRP[g] (R67). -/
  | collGroup
  /-- Admin SET_REG writes one of the listed Lodge-owned registers for the host (R67). -/
  | setReg
  /-- Writing PG_REMAP.START closes open rows and starts moving granules to the new live list (R161). -/
  | pgRemapStart
  /-- The remap ends: BUSY clears, NLIVE and PG_BANKMAP update and waiting accesses proceed (R161). -/
  | pgRemapDone
  /-- A write changing SPW or SPASID starts a scratchpad transition in DRAIN, or is refused with ERR (R159). -/
  | ghWaypartWrite
  /-- A slice transition's accepted accesses, copies and write-backs finish and the ZERO phase begins (R159). -/
  | ghDrainEnd
  /-- Zeroing of changed ways finishes and the slice becomes STABLE with the new partition (R159). -/
  | ghZeroEnd
  /-- A slice fills a line into an eligible way chosen by the pseudo-LRU tree, writing back a dirty victim (R432). -/
  | ghLineFill
  /-- TR_INV with KIND 0 invalidates every translation cache entry and sets DONE when complete (R170). -/
  | trInvAll
  /-- TR_INV with KIND 1 invalidates the entries of one ASID (R170). -/
  | trInvAsid
  /-- TR_INV with KIND 2 invalidates one page of one ASID (R170). -/
  | trInvPage
  /-- A translation miss walks up to four levels, setting A and D or raising a fault (R168). -/
  | pageWalk
  /-- A performed row command takes effect at the next row-clock edge by the bank state table (R162). -/
  | rowCommandEffect
  /-- A bank open at count a + 1,200 is force-closed (R162). -/
  | rowOpenTimeout
  /-- A bank's refresh counts begin and an open row is force-closed (R162). -/
  | rowRefresh
  /-- A bed's vertical bus tester runs a 2-cycle beat after the idle count, counting errors (R164). -/
  | busTesterBeat
  /-- A quarter with nothing to send announces its V[q] at least every 64 fabric cycles (R180). -/
  | vectorClockAnnounce
  /-- A held store or atomic performs once its activation becomes the oldest (R172). -/
  | storePerform
  /-- A watch re-reads its word after a write to its granule or every 1,024 cycles and fires when the threshold is reached (R344). -/
  | waitaReread
  /-- A WAITA exceeding WAIT_TMO fires the latest value read (R345). -/
  | waitaTimeout
  /-- A stream read granule returns and its token is delivered in binding order (R356). -/
  | streamGranuleReturn
  /-- A token reaching a write port writes the next position of the open binding (R355). -/
  | streamGranuleWrite
  /-- A binding reaches its end and writes FLAGVAL to FLAG as a release (R357). -/
  | streamBindingEnd
  /-- A fault on a granule stops the binding and is raised at the port's next user and recorded in XC_ERR (R357). -/
  | streamFault
  /-- The copy engine copies one granule of an accepted copy, carrying poison marks (R360). -/
  | copyGranule
  /-- After the last byte the engine writes CVAL to CW as a release (R360). -/
  | copyComplete
  /-- A copy meeting a fault or isolated peer stops and writes CVAL with bit 63 set and records XC_ERR (R361). -/
  | copyFault
  /-- An adder runs a queued indexed-reduce command, writes its result and then the flag (R165). -/
  | nearMemoryReduce
  /-- The array's west edge takes one whole row of A and it moves through the array to the accumulators (R127). -/
  | arrayRowTake
  /-- Each drain node emits one accumulator row token per cycle until the drain is complete (R130). -/
  | arrayDrainToken
  /-- An array element accepts a weight bus token addressed to it into a weight set (R125). -/
  | weightTokenLoad
  /-- A factorising step eliminates one column: pivot search, negotiation, exchange and trailing update (R140). -/
  | fctColumnStep
  /-- A tree node combines its contribution and its children's round-k partials and sends them on (R381). -/
  | reduceRoundCombine
  /-- The root converts round k and sends it to its destinations and back down to every REDWAIT (R382). -/
  | reduceRootResult
  /-- A round not completed within RTMO is abandoned and COLL_TIMEOUT raised at its waiters (R383). -/
  | reduceRoundAbandon
  /-- A collective round writes its DST at this rank and then FLAGVAL as a release (R386). -/
  | collRoundComplete
  /-- A round failed by a fault or isolation poisons DST and writes the flag with bit 63 set (R387). -/
  | collRoundFail
  /-- A round not ended CTMO µs after COLL performed is abandoned and waiting COLLWs raise COLL_TIMEOUT (R387). -/
  | collRoundTimeout
  /-- Writing 1 to ARM_RPT.VALID frees the report for the next failure (R259). -/
  | armRptClear
  /-- A UALink completion for an outstanding request to a peer arrives and completes that request, binding a load's value or an atomic's old value (R27). -/
  | remoteCompletionReceived
  /-- A memory node's access finishes at the place that holds its location (load value bound, store performed at its scope) and its result tokens leave once any JOINF condition holds (R334). -/
  | memoryAccessComplete
  /-- At a later row-clock edge a row command finishes: a bank becomes OPEN at a + 5, a row move completes at c + 1, or RT_PRE passes at p + 5, and the command's completion token leaves (R364). -/
  | rowCommandComplete
  deriving DecidableEq, Repr

end Sys2Proof
end

