-- ==== Sys2Proof/Decode.lean ====
section
/-! DEFINITION. The decoder of node records (R237 to R241, R248), total on any bytes, and the encoder. -/
namespace Sys2Proof

/-- Why bytes are no instruction. -/
inductive DecodeError where
  /-- Fewer than 12 bytes. -/
  | tooShort
  /-- All 96 bits zero: the empty node (R238). -/
  | emptyNode
  /-- OPC 0x00 in a non-zero record (R238). -/
  | zeroOpcode
  /-- An unassigned opcode (R248). -/
  | unassignedOpcode (opc : Nat)
  /-- A GAP code of 11 (R108, R237). -/
  | gapCode
  /-- A PM code of 11 (R237). -/
  | predCode
  /-- A destination that R241 rejects. -/
  | destination
  deriving DecidableEq, Repr

/-- The opcode and record of a node form; none for a step of the package (R248). -/
def Instr.node? : Instr → Option (Nat × NodeRec)
  | .mov r => some (0x01, r)
  | .steer r => some (0x02, r)
  | .merge r => some (0x03, r)
  | .gate r => some (0x04, r)
  | .sink r => some (0x05, r)
  | .nullify r => some (0x06, r)
  | .lite r => some (0x07, r)
  | .sel r => some (0x08, r)
  | .isnull r => some (0x09, r)
  | .vote3 r => some (0x0A, r)
  | .ishift r => some (0x10, r)
  | .iclip r => some (0x11, r)
  | .iwiden r => some (0x12, r)
  | .isplit r => some (0x13, r)
  | .ilo r => some (0x14, r)
  | .ihi r => some (0x15, r)
  | .istamp r => some (0x16, r)
  | .ifront r => some (0x17, r)
  | .add r => some (0x20, r)
  | .sub r => some (0x21, r)
  | .mul r => some (0x22, r)
  | .mulh r => some (0x23, r)
  | .mad r => some (0x24, r)
  | .div r => some (0x25, r)
  | .rem r => some (0x26, r)
  | .neg r => some (0x27, r)
  | .abs r => some (0x28, r)
  | .min r => some (0x29, r)
  | .max r => some (0x2A, r)
  | .adds r => some (0x2B, r)
  | .subs r => some (0x2C, r)
  | .and r => some (0x30, r)
  | .or r => some (0x31, r)
  | .xor r => some (0x32, r)
  | .andn r => some (0x33, r)
  | .not r => some (0x34, r)
  | .shl r => some (0x35, r)
  | .shr r => some (0x36, r)
  | .sar r => some (0x37, r)
  | .rotl r => some (0x38, r)
  | .clz r => some (0x39, r)
  | .ctz r => some (0x3A, r)
  | .popc r => some (0x3B, r)
  | .bfx r => some (0x3C, r)
  | .bfi r => some (0x3D, r)
  | .brev r => some (0x3E, r)
  | .cmpeq r => some (0x40, r)
  | .cmpne r => some (0x41, r)
  | .cmplt r => some (0x42, r)
  | .cmple r => some (0x43, r)
  | .cmpltn r => some (0x44, r)
  | .cmplen r => some (0x45, r)
  | .fcmpeq r => some (0x46, r)
  | .fcmpne r => some (0x47, r)
  | .fcmplt r => some (0x48, r)
  | .fcmple r => some (0x49, r)
  | .fcmpun r => some (0x4A, r)
  | .pand r => some (0x4B, r)
  | .por r => some (0x4C, r)
  | .pnot r => some (0x4D, r)
  | .pany r => some (0x4E, r)
  | .pall r => some (0x4F, r)
  | .fadd r => some (0x50, r)
  | .fsub r => some (0x51, r)
  | .fmul r => some (0x52, r)
  | .fma r => some (0x53, r)
  | .fms r => some (0x54, r)
  | .fnma r => some (0x55, r)
  | .fmin r => some (0x56, r)
  | .fmax r => some (0x57, r)
  | .fabs r => some (0x58, r)
  | .fneg r => some (0x59, r)
  | .fsgn r => some (0x5A, r)
  | .fclass r => some (0x5B, r)
  | .frnd r => some (0x5C, r)
  | .frcp r => some (0x60, r)
  | .frsq r => some (0x61, r)
  | .fsqrt r => some (0x62, r)
  | .fdiv r => some (0x63, r)
  | .fexp2 r => some (0x64, r)
  | .flog2 r => some (0x65, r)
  | .ftanh r => some (0x66, r)
  | .cvt r => some (0x70, r)
  | .cvti r => some (0x71, r)
  | .cvtf r => some (0x72, r)
  | .qamax r => some (0x73, r)
  | .qscale r => some (0x74, r)
  | .qpack r => some (0x75, r)
  | .qunpack r => some (0x76, r)
  | .srseed r => some (0x77, r)
  | .vshuf r => some (0x80, r)
  | .vbcast r => some (0x81, r)
  | .vext r => some (0x82, r)
  | .vins r => some (0x83, r)
  | .vredadd r => some (0x84, r)
  | .vredmax r => some (0x85, r)
  | .vredmin r => some (0x86, r)
  | .vpack r => some (0x87, r)
  | .vunpk r => some (0x88, r)
  | .vscan r => some (0x89, r)
  | .vslide r => some (0x8A, r)
  | .vrotl r => some (0x8B, r)
  | .ld r => some (0x90, r)
  | .st r => some (0x91, r)
  | .ldv r => some (0x92, r)
  | .stv r => some (0x93, r)
  | .ldb r => some (0x94, r)
  | .stb r => some (0x95, r)
  | .pref r => some (0x96, r)
  | .amoadd r => some (0xA0, r)
  | .amofadd r => some (0xA1, r)
  | .amomin r => some (0xA2, r)
  | .amomax r => some (0xA3, r)
  | .amoand r => some (0xA4, r)
  | .amoor r => some (0xA5, r)
  | .amoxor r => some (0xA6, r)
  | .amoswp r => some (0xA7, r)
  | .amocas r => some (0xA8, r)
  | .joinf r => some (0xA9, r)
  | .waita r => some (0xAA, r)
  | .wakea r => some (0xAB, r)
  | .br r => some (0xB0, r)
  | .bri r => some (0xB1, r)
  | .call r => some (0xB2, r)
  | .ret r => some (0xB3, r)
  | .rdc r => some (0xB4, r)
  | .wrc r => some (0xB5, r)
  | .spawn r => some (0xB6, r)
  | .exit r => some (0xB7, r)
  | .join r => some (0xB8, r)
  | .leave r => some (0xB9, r)
  | .gbar r => some (0xBA, r)
  | .yield r => some (0xBB, r)
  | .launch r => some (0xBC, r)
  | .est r => some (0xBD, r)
  | .sbind r => some (0xC0, r)
  | .srel r => some (0xC1, r)
  | .spos r => some (0xC2, r)
  | .xcopy r => some (0xC3, r)
  | .nmred r => some (0xC4, r)
  | .rowact r => some (0xC5, r)
  | .rowcon r => some (0xC6, r)
  | .rowput r => some (0xC7, r)
  | .rowpre r => some (0xC8, r)
  | .qput r => some (0xC9, r)
  | .qputNb r => some (0xC9, r)
  | .argw r => some (0xCA, r)
  | .mwload r => some (0xD0, r)
  | .mmac r => some (0xD1, r)
  | .mdrain r => some (0xD2, r)
  | .macc r => some (0xD3, r)
  | .mchk r => some (0xD4, r)
  | .mrel r => some (0xD5, r)
  | .fctb r => some (0xE0, r)
  | .fcts r => some (0xE1, r)
  | .fctn r => some (0xE2, r)
  | .fctr r => some (0xE3, r)
  | .fctsv r => some (0xE4, r)
  | .fcte r => some (0xE5, r)
  | .redput r => some (0xE6, r)
  | .redwait r => some (0xE7, r)
  | .coll r => some (0xE8, r)
  | .collw r => some (0xE9, r)
  | .sysrd r => some (0xF0, r)
  | .syswr r => some (0xF1, r)
  | .trap r => some (0xF2, r)
  | .eret r => some (0xF3, r)
  | .bkpt r => some (0xF4, r)
  | .time r => some (0xF5, r)
  | .tapset r => some (0xF6, r)
  | .halt r => some (0xF7, r)
  | .packageReset => none
  | .bootPushGo => none
  | .bootSourceTimeout => none
  | .bootNetworkFetchDone => none
  | .dhcpv6Timeout => none
  | .getVersion => none
  | .getCapabilities => none
  | .negotiateAlgorithms => none
  | .getDigests => none
  | .getCertificate => none
  | .challenge => none
  | .getMeasurements => none
  | .keyExchange => none
  | .finish => none
  | .endSession => none
  | .bar0UnsupportedAccess => none
  | .bar2Write => none
  | .bar2Read => none
  | .pcieLinkTrained => none
  | .registerWrite => none
  | .notifyWrite => none
  | .queueMap => none
  | .queueUnmap => none
  | .slotFetch => none
  | .rackRingWrite => none
  | .rackEthernetLaunch => none
  | .rackLaunchConsume => none
  | .dispatchTick => none
  | .semaphoreRead => none
  | .placerPass => none
  | .drainTimeout => none
  | .quantumExpiry => none
  | .markerArrive => none
  | .markerLatchInject => none
  | .checkpointSave => none
  | .taskRetire => none
  | .planeDrop => none
  | .tokenAccept => none
  | .routerHop => none
  | .activationStart => none
  | .activationCommit => none
  | .trapTake => none
  | .lodgeTrapService => none
  | .probeSend => none
  | .probeArrive => none
  | .yieldExpiry => none
  | .elementErrorEvent => none
  | .elementReplay => none
  | .elementSparing => none
  | .thermSample => none
  | .bankThermalRetire => none
  | .thermSensFailedClear => none
  | .thermLimWrite => none
  | .powerSample => none
  | .powerPeriod => none
  | .powerOverDeadline => none
  | .pwrCapWrite => none
  | .pwrWinWrite => none
  | .laneErrorEvent => none
  | .laneSparing => none
  | .portDown => none
  | .portLinkUp => none
  | .remoteRequestWaitEnd => none
  | .requestTimeout => none
  | .errorCompletionReceived => none
  | .drainNoticeReceived => none
  | .lateCompletion => none
  | .inboundFromIsolatedPeer => none
  | .inboundRequest => none
  | .isolatePeer => none
  | .isolatePort => none
  | .returnPeer => none
  | .returnPort => none
  | .lkPeermapWrite => none
  | .lkCfgWrite => none
  | .droplogFree => none
  | .lkDrainStart => none
  | .drainQuiesceEnd => none
  | .drainNotifyEnd => none
  | .drainSafe => none
  | .ethernetPortFailover => none
  | .adminDoorbell => none
  | .adminRingSet => none
  | .adminCompletion => none
  | .adminUnknownOpcode => none
  | .queueCreate => none
  | .queueDestroy => none
  | .queueReset => none
  | .resync => none
  | .trayDrain => none
  | .planeInstall => none
  | .planeRemove => none
  | .asidCreate => none
  | .asidDestroy => none
  | .map => none
  | .unmap => none
  | .collGroup => none
  | .setReg => none
  | .pgRemapStart => none
  | .pgRemapDone => none
  | .ghWaypartWrite => none
  | .ghDrainEnd => none
  | .ghZeroEnd => none
  | .ghLineFill => none
  | .trInvAll => none
  | .trInvAsid => none
  | .trInvPage => none
  | .pageWalk => none
  | .rowCommandEffect => none
  | .rowOpenTimeout => none
  | .rowRefresh => none
  | .busTesterBeat => none
  | .vectorClockAnnounce => none
  | .storePerform => none
  | .waitaReread => none
  | .waitaTimeout => none
  | .streamGranuleReturn => none
  | .streamGranuleWrite => none
  | .streamBindingEnd => none
  | .streamFault => none
  | .copyGranule => none
  | .copyComplete => none
  | .copyFault => none
  | .nearMemoryReduce => none
  | .arrayRowTake => none
  | .arrayDrainToken => none
  | .weightTokenLoad => none
  | .fctColumnStep => none
  | .reduceRoundCombine => none
  | .reduceRootResult => none
  | .reduceRoundAbandon => none
  | .collRoundComplete => none
  | .collRoundFail => none
  | .collRoundTimeout => none
  | .armRptClear => none
  | .remoteCompletionReceived => none
  | .memoryAccessComplete => none
  | .rowCommandComplete => none

/-- The node form of an assigned opcode; QPUT.NB is QPUT with FMT 001 (R248, R351). -/
def Instr.ofOpcode (opc : Nat) (r : NodeRec) : Option Instr :=
  match opc with
  | 0x01 => some (.mov r)
  | 0x02 => some (.steer r)
  | 0x03 => some (.merge r)
  | 0x04 => some (.gate r)
  | 0x05 => some (.sink r)
  | 0x06 => some (.nullify r)
  | 0x07 => some (.lite r)
  | 0x08 => some (.sel r)
  | 0x09 => some (.isnull r)
  | 0x0A => some (.vote3 r)
  | 0x10 => some (.ishift r)
  | 0x11 => some (.iclip r)
  | 0x12 => some (.iwiden r)
  | 0x13 => some (.isplit r)
  | 0x14 => some (.ilo r)
  | 0x15 => some (.ihi r)
  | 0x16 => some (.istamp r)
  | 0x17 => some (.ifront r)
  | 0x20 => some (.add r)
  | 0x21 => some (.sub r)
  | 0x22 => some (.mul r)
  | 0x23 => some (.mulh r)
  | 0x24 => some (.mad r)
  | 0x25 => some (.div r)
  | 0x26 => some (.rem r)
  | 0x27 => some (.neg r)
  | 0x28 => some (.abs r)
  | 0x29 => some (.min r)
  | 0x2A => some (.max r)
  | 0x2B => some (.adds r)
  | 0x2C => some (.subs r)
  | 0x30 => some (.and r)
  | 0x31 => some (.or r)
  | 0x32 => some (.xor r)
  | 0x33 => some (.andn r)
  | 0x34 => some (.not r)
  | 0x35 => some (.shl r)
  | 0x36 => some (.shr r)
  | 0x37 => some (.sar r)
  | 0x38 => some (.rotl r)
  | 0x39 => some (.clz r)
  | 0x3A => some (.ctz r)
  | 0x3B => some (.popc r)
  | 0x3C => some (.bfx r)
  | 0x3D => some (.bfi r)
  | 0x3E => some (.brev r)
  | 0x40 => some (.cmpeq r)
  | 0x41 => some (.cmpne r)
  | 0x42 => some (.cmplt r)
  | 0x43 => some (.cmple r)
  | 0x44 => some (.cmpltn r)
  | 0x45 => some (.cmplen r)
  | 0x46 => some (.fcmpeq r)
  | 0x47 => some (.fcmpne r)
  | 0x48 => some (.fcmplt r)
  | 0x49 => some (.fcmple r)
  | 0x4A => some (.fcmpun r)
  | 0x4B => some (.pand r)
  | 0x4C => some (.por r)
  | 0x4D => some (.pnot r)
  | 0x4E => some (.pany r)
  | 0x4F => some (.pall r)
  | 0x50 => some (.fadd r)
  | 0x51 => some (.fsub r)
  | 0x52 => some (.fmul r)
  | 0x53 => some (.fma r)
  | 0x54 => some (.fms r)
  | 0x55 => some (.fnma r)
  | 0x56 => some (.fmin r)
  | 0x57 => some (.fmax r)
  | 0x58 => some (.fabs r)
  | 0x59 => some (.fneg r)
  | 0x5A => some (.fsgn r)
  | 0x5B => some (.fclass r)
  | 0x5C => some (.frnd r)
  | 0x60 => some (.frcp r)
  | 0x61 => some (.frsq r)
  | 0x62 => some (.fsqrt r)
  | 0x63 => some (.fdiv r)
  | 0x64 => some (.fexp2 r)
  | 0x65 => some (.flog2 r)
  | 0x66 => some (.ftanh r)
  | 0x70 => some (.cvt r)
  | 0x71 => some (.cvti r)
  | 0x72 => some (.cvtf r)
  | 0x73 => some (.qamax r)
  | 0x74 => some (.qscale r)
  | 0x75 => some (.qpack r)
  | 0x76 => some (.qunpack r)
  | 0x77 => some (.srseed r)
  | 0x80 => some (.vshuf r)
  | 0x81 => some (.vbcast r)
  | 0x82 => some (.vext r)
  | 0x83 => some (.vins r)
  | 0x84 => some (.vredadd r)
  | 0x85 => some (.vredmax r)
  | 0x86 => some (.vredmin r)
  | 0x87 => some (.vpack r)
  | 0x88 => some (.vunpk r)
  | 0x89 => some (.vscan r)
  | 0x8A => some (.vslide r)
  | 0x8B => some (.vrotl r)
  | 0x90 => some (.ld r)
  | 0x91 => some (.st r)
  | 0x92 => some (.ldv r)
  | 0x93 => some (.stv r)
  | 0x94 => some (.ldb r)
  | 0x95 => some (.stb r)
  | 0x96 => some (.pref r)
  | 0xA0 => some (.amoadd r)
  | 0xA1 => some (.amofadd r)
  | 0xA2 => some (.amomin r)
  | 0xA3 => some (.amomax r)
  | 0xA4 => some (.amoand r)
  | 0xA5 => some (.amoor r)
  | 0xA6 => some (.amoxor r)
  | 0xA7 => some (.amoswp r)
  | 0xA8 => some (.amocas r)
  | 0xA9 => some (.joinf r)
  | 0xAA => some (.waita r)
  | 0xAB => some (.wakea r)
  | 0xB0 => some (.br r)
  | 0xB1 => some (.bri r)
  | 0xB2 => some (.call r)
  | 0xB3 => some (.ret r)
  | 0xB4 => some (.rdc r)
  | 0xB5 => some (.wrc r)
  | 0xB6 => some (.spawn r)
  | 0xB7 => some (.exit r)
  | 0xB8 => some (.join r)
  | 0xB9 => some (.leave r)
  | 0xBA => some (.gbar r)
  | 0xBB => some (.yield r)
  | 0xBC => some (.launch r)
  | 0xBD => some (.est r)
  | 0xC0 => some (.sbind r)
  | 0xC1 => some (.srel r)
  | 0xC2 => some (.spos r)
  | 0xC3 => some (.xcopy r)
  | 0xC4 => some (.nmred r)
  | 0xC5 => some (.rowact r)
  | 0xC6 => some (.rowcon r)
  | 0xC7 => some (.rowput r)
  | 0xC8 => some (.rowpre r)
  | 0xC9 => some (if r.fmt = 1#3 then .qputNb r else .qput r)
  | 0xCA => some (.argw r)
  | 0xD0 => some (.mwload r)
  | 0xD1 => some (.mmac r)
  | 0xD2 => some (.mdrain r)
  | 0xD3 => some (.macc r)
  | 0xD4 => some (.mchk r)
  | 0xD5 => some (.mrel r)
  | 0xE0 => some (.fctb r)
  | 0xE1 => some (.fcts r)
  | 0xE2 => some (.fctn r)
  | 0xE3 => some (.fctr r)
  | 0xE4 => some (.fctsv r)
  | 0xE5 => some (.fcte r)
  | 0xE6 => some (.redput r)
  | 0xE7 => some (.redwait r)
  | 0xE8 => some (.coll r)
  | 0xE9 => some (.collw r)
  | 0xF0 => some (.sysrd r)
  | 0xF1 => some (.syswr r)
  | 0xF2 => some (.trap r)
  | 0xF3 => some (.eret r)
  | 0xF4 => some (.bkpt r)
  | 0xF5 => some (.time r)
  | 0xF6 => some (.tapset r)
  | 0xF7 => some (.halt r)
  | _ => none

def GapRule.ofCode : Nat → Option GapRule
  | 0 => some .refuse
  | 1 => some .hold
  | 2 => some .lerp
  | _ => none

def GapRule.code : GapRule → Nat
  | .refuse => 0
  | .hold => 1
  | .lerp => 2

def PredMode.ofCode : Nat → Option PredMode
  | 0 => some .none
  | 1 => some .onTrue
  | 2 => some .onFalse
  | _ => Option.none

def PredMode.code : PredMode → Nat
  | .none => 0
  | .onTrue => 1
  | .onFalse => 2

def PortName.ofCode : Nat → Option PortName
  | 0 => some .a
  | 1 => some .b
  | 2 => some .p
  | _ => none

def PortName.code : PortName → Nat
  | .a => 0
  | .b => 1
  | .p => 2

/-- Decode a 20-bit destination (R241). -/
def Dest.ofCode (x : Nat) : Option Dest :=
  match field x 19 18 with
  | 0 => if x = 0 then some .none else Option.none
  | 1 => (PortName.ofCode (field x 1 0)).map fun q =>
      .relative (BitVec.ofNat 5 (field x 17 13)) (BitVec.ofNat 5 (field x 12 8)) (BitVec.ofNat 6 (field x 7 2)) q
  | 2 => (PortName.ofCode (field x 1 0)).map fun q =>
      .far (BitVec.ofNat 10 (field x 17 8)) (BitVec.ofNat 6 (field x 7 2)) q
  | _ => if field x 17 8 = 0 then some (.port (BitVec.ofNat 8 (field x 7 0))) else Option.none

/-- The 20 bits of a destination (R241). -/
def Dest.code : Dest → Nat
  | .none => 0
  | .relative dx dy n q => 0x40000 + dx.toNat * 0x2000 + dy.toNat * 0x100 + n.toNat * 4 + q.code
  | .far i n q => 0x80000 + i.toNat * 0x100 + n.toNat * 4 + q.code
  | .port n => 0xC0000 + n.toNat

/-- Decode the 96 bits of a record (R237). -/
def decodeRecord (w : Nat) : Except DecodeError Instr :=
  if w % 2 ^ 96 = 0 then .error .emptyNode
  else if field w 7 0 = 0 then .error .zeroOpcode
  else
    match GapRule.ofCode (field w 12 11), GapRule.ofCode (field w 14 13) with
    | some ga, some gb =>
      match PredMode.ofCode (field w 16 15) with
      | none => .error .predCode
      | some pm =>
        match Dest.ofCode (field w 43 24), Dest.ofCode (field w 63 44) with
        | some d0, some d1 =>
          match Instr.ofOpcode (field w 7 0)
            { fmt := BitVec.ofNat 3 (field w 10 8), gapA := ga, gapB := gb, pm := pm,
              aux := BitVec.ofNat 5 (field w 21 17), lit := bit w 22, v := bit w 23,
              dst0 := d0, dst1 := d1, lit32 := BitVec.ofNat 32 (field w 95 64) } with
          | some i => .ok i
          | none => .error (.unassignedOpcode (field w 7 0))
        | _, _ => .error .destination
    | _, _ => .error .gapCode

/-- Decode the bytes of a context store from a record's first byte (R96, R237). -/
def decode (bs : List Byte) : Except DecodeError Instr :=
  if bs.length < 12 then .error .tooShort else decodeRecord (ofBytes (bs.take 12))

/-- The 96 bits of a record (R237). -/
def NodeRec.word (opc : Nat) (r : NodeRec) : Nat :=
  opc + r.fmt.toNat * 2 ^ 8 + r.gapA.code * 2 ^ 11 + r.gapB.code * 2 ^ 13 + r.pm.code * 2 ^ 15
    + r.aux.toNat * 2 ^ 17 + b2n r.lit * 2 ^ 22 + b2n r.v * 2 ^ 23
    + r.dst0.code * 2 ^ 24 + r.dst1.code * 2 ^ 44 + r.lit32.toNat * 2 ^ 64

/-- The bytes of a node form's record; none for a step of the package, which has no encoding. -/
def encode (i : Instr) : Option (List Byte) :=
  i.node?.map fun (opc, r) => bytesOf 12 (r.word opc)

/-- The instruction read from the record whose low `nbits` bits are `w` and whose other bits are 0, laid out in the
context store as R237 says. DESIGN CHOICE (log entry 40). -/
def decodeTableWord (nbits w : Nat) : Option Instr :=
  (decode (bytesOf 12 (w % 2 ^ nbits))).toOption

end Sys2Proof
end

