-- ==== Sys2Proof/Machine/Forms.lean ====
section
/-! DEFINITION. The form of each opcode: its ports and types, the field values it permits (R237 to R249, R262, R280,
R299, R304, R305, R313, R318, R319, R332, R333, R351, R373, R374, R378, R380, R389), and its latency (R116). -/
namespace Sys2Proof

/-- The kind of a value on an edge (R249). -/
inductive Kind where
  /-- An integer format by its code (R197). -/
  | int (c : Nat)
  /-- A float format by its code (R192). -/
  | flt (c : Nat)
  /-- A size class by its code (R246). -/
  | size (c : Nat)
  | pred
  /-- A port that takes any type (R304). -/
  | any
  /-- STEER's port B: pred or an integer scalar (R305). -/
  | predOrInt
  /-- WRC's port A: any scalar of up to 8 bytes (R319). -/
  | scalar8
  deriving DecidableEq, Repr

/-- The type of a port or a result: a kind and V (R249). -/
structure Ty where
  kind : Kind
  v : Bool
  deriving DecidableEq, Repr

/-- How a form may use GAP. -/
inductive GapUse where
  /-- REFUSE or HOLD on used ports, LERP on ports of a float type, code 5 otherwise (R108, R239, R281, R304, R332). -/
  | byPort
  /-- GAP must be 0000, code 5 otherwise (R304). -/
  | zero
  /-- GAP must be 0000, code 2 otherwise (R318, R373). -/
  | zeroField
  /-- REFUSE or HOLD on used ports, code 2 otherwise (R351). -/
  | holdField
  deriving DecidableEq, Repr

/-- What an opcode's entry permits and uses, for one record. -/
structure Form where
  a : Option Ty := none
  b : Option Ty := none
  p : Option Ty := none
  res : Option Ty := none
  /-- FMT, AUX, V and LIT32 values are ones the entry permits. -/
  ok : Bool := true
  /-- LIT = 1 is permitted. -/
  litOk : Bool := false
  /-- LIT32 is a control, memory or fence literal rather than an operand. -/
  control : Bool := false
  /-- The third operand travels on port P and PM must be 00 (R239). -/
  three : Bool := false
  gap : GapUse := .byPort
  /-- Both destinations must be none (code 3). -/
  noDest : Bool := false
  /-- The memory or fence literal is permitted (code 7). -/
  memOk : Bool := true
  lat : Nat := 2
  deriving DecidableEq, Repr

/-- Width in bits of an integer format (R197). -/
def intWidth (c : Nat) : Nat := 8 * 2 ^ (c / 2)
/-- An n format is unsigned: an odd code (R197). -/
def intUnsigned (c : Nat) : Bool := c % 2 == 1
/-- Width in bits of a float format (R192). -/
def fltWidth : Nat → Nat
  | 0 => 32
  | 1 => 16
  | 2 => 16
  | 3 => 8
  | 4 => 8
  | _ => 4
/-- Size in bytes of a size class; 0 for the codes that are rejected (R246). -/
def sizeBytes : Nat → Nat
  | 0 => 1
  | 1 => 2
  | 2 => 4
  | 3 => 8
  | 4 => 16
  | 6 => 64
  | _ => 0

/-- Element width in bits of a kind; 0 where the kind fixes none. -/
def Kind.width : Kind → Nat
  | .int c => intWidth c
  | .flt c => fltWidth c
  | .size c => 8 * sizeBytes c
  | _ => 0

def NodeRec.f (r : NodeRec) : Nat := r.fmt.toNat
def NodeRec.x (r : NodeRec) : Nat := r.aux.toNat
def NodeRec.l (r : NodeRec) : Nat := r.lit32.toNat
/-- AUX bit 17 of groups 0x0, 0x1 and 0x8 (R246). -/
def NodeRec.t (r : NodeRec) : Bool := bit r.x 0
/-- The data type of groups 0x0, 0x1 and 0x8 (R304). -/
def NodeRec.data (r : NodeRec) : Kind := if r.t then .flt r.f else .int r.f
def NodeRec.dataOk (r : NodeRec) : Bool := !r.t || r.f ≤ 5
/-- A float literal's bits above its code must be zero (R244). DEDUCED (log entry 20). -/
def fltLitOk (c l : Nat) : Bool := l < 2 ^ fltWidth c

def NodeRec.offset (r : NodeRec) : Int := signed 24 r.l
def NodeRec.scope (r : NodeRec) : Nat := field r.l 26 24
def NodeRec.order (r : NodeRec) : Nat := field r.l 28 27
def NodeRec.space (r : NodeRec) : Nat := field r.l 31 29

/-- The completion type: a scalar pred (R334). -/
def completion : Option Ty := some ⟨.pred, false⟩

/-- The memory literal of a form that takes the order codes in `orders` (R175, R245). -/
def NodeRec.memLit (r : NodeRec) (orders : List Nat) (globalOnly : Bool) : Bool :=
  r.space ≤ 2 && (!globalOnly || r.space == 0) && r.scope ≤ 4 && orders.contains r.order
    && (r.order == 0 || r.scope != 4)

def b8 : Option Ty := some ⟨.size 3, false⟩
def anyTy : Option Ty := some ⟨.any, false⟩

/-- DEDUCED (log entry 19). -/
def formSteer (opc : Nat) (r : NodeRec) : Form :=
  let d : Option Ty := some ⟨r.data, r.v⟩
  let base := r.dataOk && r.x ≤ 1
  let bare := base && r.f == 0 && r.x == 0 && !r.v
  match opc with
  | 0x01 => { a := d, res := d, ok := base, gap := .zero }
  | 0x02 => { a := d, b := some ⟨.predOrInt, false⟩, res := d, ok := base }
  | 0x03 => { a := d, b := d, res := d, ok := base }
  | 0x04 => { a := d, b := anyTy, res := d, ok := base }
  | 0x05 => { a := anyTy, ok := bare, gap := .zero, noDest := true }
  | 0x06 => { a := anyTy, res := d, ok := base, gap := .zero }
  | 0x07 => { a := anyTy, res := d, ok := base && (!r.t || fltLitOk r.f r.l), control := true, gap := .zero }
  | 0x08 => { a := d, b := d, p := some ⟨.pred, r.v⟩, res := d, ok := base && (!r.lit || !r.t || fltLitOk r.f r.l), litOk := true,
              three := true }
  | 0x09 => { a := anyTy, res := completion, ok := base && !r.v, gap := .zero }
  | _ => { a := d, b := d, p := d, res := d, ok := base, three := true, gap := .zero }

def formInterval (opc : Nat) (r : NodeRec) : Form :=
  let d : Option Ty := some ⟨r.data, r.v⟩
  let base := r.dataOk && r.x ≤ 1
  let subop := r.dataOk && r.x ≤ 3
  let n32 := r.f == 5 && r.x == 0 && !r.v && r.l == 0
  match opc with
  | 0x10 => { a := d, res := d, ok := base, control := true, gap := .zero }
  | 0x11 => { a := d, res := d, ok := subop, control := true, gap := .zero }
  | 0x12 => { a := d, res := d, ok := subop && (bit r.x 1 || r.l == 0), control := true, gap := .zero }
  | 0x13 => { a := d, res := d, ok := base && 1 ≤ r.l && r.l ≤ 0xFFFFFFFE, control := true, gap := .zero }
  | 0x16 => { a := d, b := some ⟨.int 7, false⟩, res := d, ok := base && r.l == 0, control := true }
  | 0x17 => { a := d, res := d, ok := subop && r.l == 0, control := true, gap := .zero }
  | _ => { a := anyTy, res := some ⟨.int 5, false⟩, ok := n32, control := true, gap := .zero }

def formInt (opc : Nat) (r : NodeRec) : Form :=
  let d : Option Ty := some ⟨.int r.f, r.v⟩
  let desc : Option Ty := some ⟨.int 3, false⟩
  let ok := r.x == 0
  match opc with
  | 0x24 => { a := d, b := d, p := d, res := d, ok := ok, litOk := true, three := true }
  | 0x25 => { a := d, b := d, res := d, ok := ok, litOk := true, lat := 18 }
  | 0x26 => { a := d, b := d, res := d, ok := ok, litOk := true, lat := 18 }
  | 0x27 => { a := d, res := d, ok := ok }
  | 0x28 => { a := d, res := d, ok := ok && !intUnsigned r.f }
  | 0x34 => { a := d, res := d, ok := ok }
  | 0x39 => { a := d, res := d, ok := ok }
  | 0x3A => { a := d, res := d, ok := ok }
  | 0x3B => { a := d, res := d, ok := ok }
  | 0x3E => { a := d, res := d, ok := ok }
  | 0x3C => { a := d, b := desc, res := d, ok := ok && (!r.lit || field r.l 15 13 == 0), litOk := true }
  | 0x3D => { a := d, b := desc, p := d, res := d, ok := ok && (!r.lit || field r.l 15 13 == 0), litOk := true, three := true }
  | _ => { a := d, b := d, res := d, ok := ok, litOk := true }

def formCompare (opc : Nat) (r : NodeRec) : Form :=
  let i : Option Ty := some ⟨.int r.f, r.v⟩
  let fl : Option Ty := some ⟨.flt r.f, r.v⟩
  let pr : Option Ty := some ⟨.pred, r.v⟩
  let pok := r.f == 0 && r.x ≤ 3
  if opc ≤ 0x45 then { a := i, b := i, res := pr, ok := r.x == 0, litOk := true }
  else if opc ≤ 0x4A then
    { a := fl, b := fl, res := pr, ok := r.x == 0 && r.f ≤ 4 && (!r.lit || fltLitOk r.f r.l), litOk := true }
  else if opc ≤ 0x4C then { a := pr, b := pr, res := pr, ok := pok }
  else if opc == 0x4D then { a := pr, res := pr, ok := pok }
  else { a := pr, res := some ⟨.pred, false⟩, ok := pok }

/-- AUX of R200 with only the fields of `mask` in use; SR needs RM = 00. -/
def roundAux (x mask : Nat) : Bool :=
  x &&& mask == x && (!bit x 3 || x &&& 3 == 0)

def formFloat (opc : Nat) (r : NodeRec) : Form :=
  let d : Option Ty := some ⟨.flt r.f, r.v⟩
  let six := r.f ≤ 5
  let lit := !r.lit || fltLitOk r.f r.l
  let rmSat := roundAux r.x 7
  match opc with
  | 0x53 => { a := d, b := d, p := d, res := d, ok := six && lit && rmSat, litOk := true, three := true, lat := 4 }
  | 0x54 => { a := d, b := d, p := d, res := d, ok := six && lit && rmSat, litOk := true, three := true, lat := 4 }
  | 0x55 => { a := d, b := d, p := d, res := d, ok := six && lit && rmSat, litOk := true, three := true, lat := 4 }
  | 0x56 => { a := d, b := d, res := d, ok := six && lit && r.x == 0, litOk := true, lat := 4 }
  | 0x57 => { a := d, b := d, res := d, ok := six && lit && r.x == 0, litOk := true, lat := 4 }
  | 0x58 => { a := d, res := d, ok := six && r.x == 0 }
  | 0x59 => { a := d, res := d, ok := six && r.x == 0 }
  | 0x5A => { a := d, b := d, res := d, ok := six && lit && r.x == 0, litOk := true }
  | 0x5B => { a := d, res := some ⟨.int (if fltWidth r.f = 32 then 5 else if fltWidth r.f = 16 then 3 else 1), r.v⟩,
              ok := r.f ≤ 4 && r.x == 0 }
  | 0x5C => { a := d, res := d, ok := six && roundAux r.x 3, lat := 4 }
  | _ => { a := d, b := d, res := d, ok := six && lit && rmSat, litOk := true, lat := 4 }

/-- DEDUCED (log entry 19). -/
def formSpecial (opc : Nat) (r : NodeRec) : Form :=
  let d : Option Ty := some ⟨.flt r.f, r.v⟩
  let three := r.f ≤ 2
  match opc with
  | 0x62 => { a := d, res := d, ok := three && roundAux r.x 7, lat := 18 }
  | 0x63 => { a := d, b := d, res := d, ok := three && roundAux r.x 7 && (!r.lit || fltLitOk r.f r.l), litOk := true, lat := 18 }
  | _ => { a := d, res := d, ok := three && roundAux r.x 4, lat := 6 }

/-- OTHER, PART and NB of the conversion literal (R290). -/
def NodeRec.other (r : NodeRec) : Nat := field r.l 2 0
def NodeRec.part (r : NodeRec) : Nat := field r.l 5 3
def NodeRec.nb (r : NodeRec) : Bool := bit r.l 6

/-- The conversion literal is permitted for widths wa and wr (R290). -/
def convLit (r : NodeRec) (wa wr : Nat) (nbOk : Bool) : Bool :=
  r.l < 128 && (nbOk || !r.nb) && r.part < max wa wr / min wa wr && (r.v || r.part == 0)

def formConvert (opc : Nat) (r : NodeRec) : Form :=
  let o := r.other
  let fw := fltWidth r.f
  let other : Option Ty := some ⟨.flt o, r.v⟩
  let d : Option Ty := some ⟨.flt r.f, r.v⟩
  let n8 : Option Ty := some ⟨.int 1, r.v⟩
  let beta : Option Ty := if r.nb then some ⟨.flt 2, false⟩ else none
  let packed := 3 ≤ o && o ≤ 5 && (!r.nb || o == 5)
  match opc with
  | 0x70 => { a := other, res := d, ok := r.f ≤ 5 && o ≤ 5 && roundAux r.x 15 && convLit r (fltWidth o) fw false,
              control := true, lat := 4 }
  | 0x71 => { a := d, res := some ⟨.int o, r.v⟩, ok := r.f ≤ 5 && roundAux r.x 3 && convLit r fw (intWidth o) false,
              control := true, lat := 4 }
  | 0x72 => { a := some ⟨.int o, r.v⟩, res := d, ok := r.f ≤ 5 && roundAux r.x 15 && convLit r (intWidth o) fw false,
              control := true, lat := 4 }
  | 0x73 => { a := d, b := if bit r.l 2 then some ⟨.flt 0, r.v⟩ else none, res := some ⟨.flt 0, r.v⟩,
              ok := r.f ≤ 5 && r.x == 0 && r.l < 8 && field r.l 1 0 != 3, control := true, lat := 4 }
  | 0x74 => { a := some ⟨.flt 0, r.v⟩, b := if field r.l 1 0 = 1 then some ⟨.flt 2, false⟩ else none,
              res := if field r.l 1 0 = 2 then some ⟨.flt 2, r.v⟩ else n8,
              ok := r.f == 0 && r.x == 0 && r.l < 32 && field r.l 1 0 != 3
                && (if field r.l 1 0 = 0 then 3 ≤ field r.l 4 2 && field r.l 4 2 ≤ 5 else field r.l 4 2 == 0),
              control := true, lat := 4 }
  | 0x75 => { a := d, b := n8, p := beta, res := other, three := r.nb, control := true, lat := 4,
              ok := r.f ≤ 2 && packed && roundAux r.x 11 && convLit r fw (fltWidth o) true }
  | 0x76 => { a := other, b := n8, p := beta, res := d, three := r.nb, control := true, lat := 4,
              ok := r.f ≤ 2 && packed && roundAux r.x 7 && convLit r (fltWidth o) fw true }
  | _ => { a := if r.lit then anyTy else some ⟨.int 5, false⟩, res := completion,
           ok := r.f == 0 && r.x == 0 && !r.v, litOk := true }

/-- Lanes of a 64-byte value at width w (R261). -/
def lanesOf (w : Nat) : Nat := 512 / w

def formLane (opc : Nat) (r : NodeRec) : Form :=
  let d : Option Ty := some ⟨r.data, true⟩
  let s : Option Ty := some ⟨r.data, false⟩
  let w := r.data.width
  let nl := lanesOf w
  let base := r.v && (!r.t || r.f ≤ 4) && r.x ≤ 3
  let plain := base && r.x ≤ 1
  let lat := if r.t then 4 else 2
  let ncode := if w = 8 then 1 else if w = 16 then 3 else if w = 32 then 5 else 7
  match opc with
  | 0x80 => { a := d, b := some ⟨.int ncode, true⟩, res := d, ok := base && r.l == 0, control := true }
  | 0x81 => if bit r.x 1 then { a := d, res := d, ok := base && r.l < nl, control := true }
            else { a := s, res := d, ok := base && r.l == 0, control := true }
  | 0x82 => { a := d, res := s, ok := plain && r.l < nl, control := true }
  | 0x83 => { a := d, b := s, res := d, ok := plain && r.l < nl, control := true }
  | 0x84 => { a := d, res := s, ok := plain && r.l == 0, control := true, lat := lat }
  | 0x85 => { a := d, res := s, ok := plain && r.l == 0, control := true, lat := lat }
  | 0x86 => { a := d, res := s, ok := plain && r.l == 0, control := true, lat := lat }
  | 0x87 => { a := d, b := d, res := d, ok := plain && r.l ≤ nl, control := true }
  | 0x88 => { a := d, b := d, res := d, ok := base && r.l == 0, control := true }
  | 0x89 => { a := d, res := d, ok := base && r.l == 0, control := true, lat := lat }
  | 0x8A => { a := d, b := d, res := d, ok := plain && r.l ≤ nl, control := true }
  | _ => { a := d, b := some ⟨.int 5, false⟩, res := d, ok := plain, litOk := true }

def formMemory (opc : Nat) (r : NodeRec) : Form :=
  let d : Option Ty := some ⟨.size r.f, r.v⟩
  let scalar := r.f ≤ 3 && !r.v || r.f == 4 && r.v
  let vec := r.f == 6 && r.v
  let amo := (r.f == 2 || r.f == 3) && !r.v
  let amoW := amo || r.f == 4 && r.v
  let idx : Option Ty := some ⟨.int 7, false⟩
  match opc with
  | 0x90 => { a := b8, res := d, ok := scalar, control := true, memOk := r.memLit [0, 1] false }
  | 0x91 => { a := b8, b := d, res := completion, ok := scalar, control := true, memOk := r.memLit [0, 2] false }
  | 0x92 => { a := b8, res := d, ok := vec, control := true, memOk := r.memLit [0, 1] false }
  | 0x93 => { a := b8, b := d, res := completion, ok := vec, control := true, memOk := r.memLit [0, 2] false }
  | 0x94 => { a := b8, b := idx, res := some ⟨.flt r.f, true⟩, ok := r.f ≤ 2 && r.v, control := true,
              memOk := r.memLit [0, 1] true }
  | 0x95 => { a := b8, b := d, p := idx, res := completion, ok := vec, control := true, three := true,
              memOk := r.memLit [0, 2] true }
  | 0x96 => { a := b8, ok := r.f == 0 && !r.v, control := true, noDest := true, memOk := r.memLit [0] true }
  | 0xA1 => { a := b8, b := d, res := d, ok := r.f == 2 && !r.v || r.f == 4 && r.v, control := true,
              memOk := r.memLit [0, 1, 2, 3] false }
  | 0xA7 => { a := b8, b := d, res := d, ok := amoW, control := true, memOk := r.memLit [0, 1, 2, 3] false }
  | 0xA8 => { a := b8, b := d, p := d, res := d, ok := amoW, control := true, three := true,
              memOk := r.memLit [0, 1, 2, 3] false }
  | 0xA9 => { a := anyTy, b := anyTy, p := anyTy, res := completion, ok := r.f == 0 && !r.v && r.x == 0, control := true,
              three := true, memOk := field r.l 23 2 == 0 && r.scope ≤ 4 && field r.l 31 27 == 0 }
  | 0xAA => { a := b8, b := d, res := d, ok := amo, control := true, memOk := r.memLit [0, 1] false }
  | 0xAB => { a := b8, b := d, res := completion, ok := amo, control := true, memOk := r.memLit [0, 2] false }
  | _ => { a := b8, b := d, res := d, ok := amo, control := true, memOk := r.memLit [0, 1, 2, 3] false }

def formBlock (opc : Nat) (r : NodeRec) : Form :=
  let ok := r.f == 0 && r.x == 0 && !r.v
  let zero := ok && r.l == 0
  let n32 : Option Ty := some ⟨.int 5, false⟩
  let base : Form := { a := anyTy, control := true, gap := .zeroField, ok := ok }
  match opc with
  | 0xB0 => { base with ok := ok && r.l < 2 ^ 24, noDest := true }
  | 0xB1 => { base with a := n32, ok := zero, noDest := true }
  | 0xB2 => { base with a := n32, ok := ok && r.l < 2 ^ 24, noDest := true }
  | 0xB3 => { base with ok := zero, noDest := true }
  | 0xB7 => { base with ok := zero, noDest := true }
  | 0xB4 => { base with res := b8, ok := ok && r.l < 64 }
  | 0xB5 => { base with a := some ⟨.scalar8, false⟩, ok := ok && r.l < 64, noDest := true }
  | 0xB6 => { base with a := b8, res := n32, ok := ok && r.l < 2 ^ 24 }
  | 0xB8 => { base with res := completion, ok := ok && r.l < 256 }
  | 0xB9 => { base with res := completion, ok := ok && r.l < 256 }
  | 0xBA => { base with res := n32, ok := ok && r.l < 256 }
  | 0xBB => { base with ok := zero, noDest := true }
  | 0xBC => { base with a := some ⟨.int 7, false⟩, res := n32, ok := zero }
  | _ => { base with a := n32, ok := zero, noDest := true }

/-- DEDUCED (log entry 20). -/
def formEngine (opc : Nat) (r : NodeRec) : Form :=
  let base := r.f == 0 && !r.v
  let plain := base && r.x == 0
  let f : Form := { a := b8, res := completion, control := true, gap := .holdField, ok := plain }
  let n32 : Option Ty := some ⟨.int 5, false⟩
  match opc with
  | 0xC0 => { f with ok := plain && r.l < 512 }
  | 0xC1 => { f with a := anyTy, ok := plain && r.l < 256 }
  | 0xC2 => { f with a := anyTy, res := some ⟨.int 7, false⟩, ok := plain && r.l < 256 }
  | 0xC3 => { f with ok := base && r.l == 0 }
  | 0xC4 => { f with a := some ⟨.size 6, true⟩, b := b8, ok := base && 1 ≤ r.l && r.l ≤ 64 }
  | 0xC5 => { f with ok := plain && r.l == 0 }
  | 0xC6 => { f with ok := plain && r.l < 2 ^ 23
                && (if bit r.l 16 then field r.l 15 0 == 0 else field r.l 4 0 == 0 && field r.l 22 17 == 0) }
  | 0xC7 => { f with ok := base && r.l < 2 ^ 16 && field r.l 4 0 == 0 }
  | 0xC8 => { f with ok := plain && r.l == 0 }
  | 0xC9 => { f with res := n32, ok := r.f ≤ 1 && !r.v && r.l < 1024 }
  | _ => { f with a := some ⟨.size 2, false⟩, res := n32, ok := plain && r.l < 2 ^ 20 }

/-- The formats of an array (R123, R374). -/
inductive ArrFmt where
  | bf16 | e4m3 | e5m2 | e2m1 | i8 | n8 | mx8e4 | mx8e5 | mx4 | nb4
  deriving DecidableEq, Repr

/-- The array format of FMT with FK (R374). -/
def arrFmt (fmt aux : Nat) : Option ArrFmt :=
  if aux > 3 then none else
  match aux, fmt with
  | 0, 2 => some .bf16
  | 0, 3 => some .e4m3
  | 0, 4 => some .e5m2
  | 0, 5 => some .e2m1
  | 1, 0 => some .i8
  | 1, 1 => some .n8
  | 2, 3 => some .mx8e4
  | 2, 4 => some .mx8e5
  | 2, 5 => some .mx4
  | 3, 5 => some .nb4
  | _, _ => none

def formMatrix (opc : Nat) (r : NodeRec) : Form :=
  let f : Form := { a := anyTy, res := completion, control := true, gap := .zeroField }
  let plain := r.f == 0 && r.x == 0 && !r.v
  match opc with
  | 0xD0 => { f with ok := (arrFmt r.f r.x).isSome && !r.v && r.l < 1024 }
  | 0xD1 => { f with a := some ⟨.int 5, false⟩, ok := (arrFmt r.f r.x).isSome && !r.v && r.l < 256 }
  | 0xD2 => { f with res := some ⟨.size 6, true⟩, ok := r.f == 0 && r.x ≤ 1 && r.v && r.l == 0 }
  | 0xD3 => { f with a := some ⟨.size 6, true⟩, ok := plain && r.l < 32 }
  | 0xD4 => { f with res := if r.t then some ⟨.int 7, false⟩ else completion, ok := r.f == 0 && r.x ≤ 1 && !r.v && r.l == 0 }
  | _ => { f with ok := plain && r.l == 0 }

def formFactor (opc : Nat) (r : NodeRec) : Form :=
  let f : Form := { a := anyTy, res := completion, control := true, gap := .zeroField }
  let n32 : Option Ty := some ⟨.int 5, false⟩
  let plain := r.f == 0 && r.x == 0 && !r.v
  let contrib : Option Ty := some ⟨.flt r.f, r.v⟩
  match opc with
  | 0xE0 => { f with a := n32, ok := plain && r.l == 0 }
  | 0xE1 => { f with res := n32, ok := plain && 1 ≤ r.l && r.l ≤ 128 }
  | 0xE2 => { f with ok := plain && r.l < 256 && 2 ≤ field r.l 3 0 && field r.l 3 0 ≤ 8 }
  | 0xE3 => { f with res := if r.l = 0 then some ⟨.int 1, true⟩ else if r.l = 1 then some ⟨.int 3, true⟩ else some ⟨.flt 0, false⟩,
                     ok := r.f == 0 && r.x == 0 && r.l ≤ 2 && r.v == decide (r.l < 2) }
  | 0xE4 => { f with a := n32, ok := plain && r.l == 0 }
  | 0xE5 => { f with ok := plain && r.l == 0 }
  | 0xE6 => { f with a := contrib, b := if field r.l 7 4 = 0 then none else some ⟨.flt 0, r.v⟩, res := if bit r.l 8 then some ⟨.flt (field r.l 11 9), r.v⟩ else some ⟨.flt 0, r.v⟩,
                     ok := r.f ≤ 2 && r.x ≤ 2 && r.l < 2 ^ 12
                       && (if bit r.l 8 then field r.l 11 9 ≤ 2 else field r.l 11 9 == 0) }
  | 0xE7 => { f with res := contrib, ok := r.f ≤ 2 && r.x == 0 && r.l < 16 }
  | 0xE8 => { f with a := b8, res := n32, ok := plain && r.l == 0 }
  | _ => { f with a := n32, res := n32, ok := plain && r.l == 0 }

def formSystem (opc : Nat) (r : NodeRec) : Form :=
  let f : Form := { a := b8, res := completion, control := true, gap := .zeroField }
  let plain := r.f == 0 && r.x == 0 && !r.v
  let reg := plain && r.l < 2 ^ 25 && (bit r.l 24 || field r.l 23 0 < 0x10000)
  match opc with
  | 0xF0 => { f with res := b8, ok := reg }
  | 0xF1 => { f with ok := reg }
  | 0xF2 => { f with res := none, noDest := true, ok := plain }
  | 0xF3 => { f with a := anyTy, res := none, noDest := true, ok := plain && r.l == 0 }
  | 0xF4 => { f with res := none, noDest := true, ok := plain }
  | 0xF5 => { f with a := anyTy, res := some ⟨.int 7, false⟩, ok := r.f == 0 && r.x ≤ 1 && !r.v && r.l == 0 }
  | 0xF6 => { f with ok := plain && r.l < 8 }
  | _ => { f with a := anyTy, res := none, noDest := true, ok := plain }

/-- The form of an assigned opcode (R248). DEDUCED (log entry 19). -/
def formOf (opc : Nat) (r : NodeRec) : Form :=
  match opc / 16 with
  | 0x0 => formSteer opc r
  | 0x1 => formInterval opc r
  | 0x2 => formInt opc r
  | 0x3 => formInt opc r
  | 0x4 => formCompare opc r
  | 0x5 => formFloat opc r
  | 0x6 => formSpecial opc r
  | 0x7 => formConvert opc r
  | 0x8 => formLane opc r
  | 0x9 => formMemory opc r
  | 0xA => formMemory opc r
  | 0xB => formBlock opc r
  | 0xC => formEngine opc r
  | 0xD => formMatrix opc r
  | 0xE => formFactor opc r
  | _ => formSystem opc r

/-- Whether port B takes an edge: the form uses it and no literal stands in for it (R239). SRSEED's literal stands in
for the seed of port A instead (R298). -/
def Form.usesB (f : Form) (r : NodeRec) : Bool := f.b.isSome && !r.lit

/-- DEDUCED (log entry 20). -/
def gapPortOk (t : Option Ty) (g : GapRule) : Bool :=
  match g, t with
  | .refuse, _ => true
  | .hold, some _ => true
  | .lerp, some ⟨.flt _, _⟩ => true
  | _, _ => false

/-- The first arming code that a record's own fields raise (R258): 2 FIELD, 3 DEST (a destination where the form has
none), 5 GAP, 7 MEMLIT. DEDUCED (log entries 19, 20, 61). -/
def fieldCheck (opc : Nat) (r : NodeRec) : Option Nat :=
  let f := formOf opc r
  let fb := if r.lit then none else f.b
  let gapBad : Option Nat :=
    match f.gap with
    | .zeroField => if r.gapA = .refuse ∧ r.gapB = .refuse then none else some 2
    | .zero => if r.gapA = .refuse ∧ r.gapB = .refuse then none else some 5
    | .holdField =>
      if r.gapA ≠ .lerp ∧ r.gapB ≠ .lerp ∧ (f.b.isSome ∨ r.gapB = .refuse) then none else some 2
    | .byPort => if gapPortOk f.a r.gapA && gapPortOk fb r.gapB then none else some 5
  if !f.ok then some 2
  else if r.lit && !f.litOk then some 2
  else if !r.lit && !f.control && r.l != 0 then some 2
  else if f.three && r.pm != .none then some 2
  else if gapBad = some 2 then some 2
  else if f.noDest && (r.dst0 != .none || r.dst1 != .none) then some 3
  else if gapBad = some 5 then some 5
  else if !f.memOk then some 7
  else none

end Sys2Proof
end

