-- ==== Sys2Proof/Machine/Event.lean ====
section
/-! DEFINITION. The steps of the package with the data each brings: what it names, what the outside world supplies. -/
namespace Sys2Proof.Machine

/-- The two SPDM transports of R51: PCIe DOE and TCP on the management endpoint. -/
inductive Transport where
  | doe | tcp
  deriving DecidableEq, Repr

/-- Who writes a register from outside the fabric (R46): the host over PCIe, the rack controller over
management Ethernet, the Lodge. -/
inductive Agent where
  | host | rack | lodge
  deriving DecidableEq, Repr

/-- How an admin command reached the Lodge (R64): the `k`-th command taken from the ring, or a management message
carrying its tag. DESIGN CHOICE (log entry 4). -/
inductive Via where
  | ring (k : Nat)
  | eth (tag : W32)
  deriving DecidableEq, Repr

/-- The operands of QUEUE_CREATE (R52); `reserved` says that a reserved operand bit is set. DESIGN CHOICE (log entry 4). -/
structure QueueArgs where
  ring : W64
  log2sz : Nat
  loc : Bool
  prioMax : BitVec 3
  asid : Nat
  vec : Nat
  en : Bool
  reserved : Bool
  deriving DecidableEq, Repr

/-- Where MAP with ALLOC takes its pages: the Pergola, the outer stacks of a quarter, or either (R67). -/
inductive AllocFrom where
  | pergola
  | outer (quarter : Nat)
  | either
  deriving DecidableEq, Repr

/-- The operands of MAP (R67). `pages` are the pages the Lodge takes for ALLOC, `tables` the pages it takes for new
tables: its own choice among free memory. DESIGN CHOICE (log entry 4). -/
structure MapArgs where
  asid : Nat
  va : Nat
  psize : Nat
  count : Nat
  w : Bool
  fmta : BitVec 4
  geom : BitVec 3
  ad : Bool
  alloc : Bool
  from_ : AllocFrom
  pa : Nat
  pages : List Nat
  tables : List Nat
  deriving DecidableEq, Repr

/-- What a router moves next (R98, R117): the head of an output latch, or the `k`-th token in flight. -/
inductive HopSrc where
  | latch (elem ctx : Nat)
  | flight (k : Nat)
  deriving DecidableEq, Repr

/-- What the Lodge does with the trap at the head of its queue (R215). DESIGN CHOICE (log entry 4); DEDUCED (log entry 34). -/
inductive LodgeChoice where
  | resume | deliver | endTask
  deriving DecidableEq, Repr

/-- An error found in an element (R219, R224). DESIGN CHOICE (log entry 4). -/
inductive ElemError where
  /-- A single-bit error, corrected. -/
  | corrected
  /-- An uncorrectable error or residue mismatch that replay can rebuild. -/
  | uncorrected
  /-- A matching entry whose token has left the history. -/
  | entry (aid node port index : Nat)
  /-- A frame header of an activation. -/
  | frame (aid : Nat)
  /-- A context store record. -/
  | record (ctx : Nat)
  /-- A 64-byte line of the bank, by number. -/
  | bankLine (line : Nat)
  /-- An array element's datapath or weight set. -/
  | array (ctx : Nat)
  deriving DecidableEq, Repr

/-- One FEC codeword of a port (R28): the lanes that lose lock in it, the corrected symbols of each lane, whether it is uncorrectable and
then the symbol errors of each lane, and the link-level retries it causes (R26). DESIGN CHOICE (log entry 4). -/
structure Codeword where
  lost : List Nat
  corrected : List Nat
  bad : Bool
  errors : List Nat
  retries : Nat
  deriving DecidableEq, Repr

/-- An inbound UALink request (R27): addresses are this package's local physical addresses, `marks` the poison marks of a write's
16-byte parts. DESIGN CHOICE (log entry 4). -/
inductive InRequest where
  | read (pa size : Nat)
  | write (pa : Nat) (data : List Byte) (marks : List Bool)
  | atomic (op : Nat) (pa : Nat) (data data2 : List Byte)
  deriving DecidableEq, Repr

/-- One occurrence of a step of the package (95_what_each_step_holds.md), with its data. DESIGN CHOICE (log entry 4). -/
inductive Event where
  | packageReset
  | bootPushGo (len : W32)
  | bootSourceTimeout (linkUp : Nat)
  | bootNetworkFetchDone (addr img : List Byte)
  | dhcpv6Timeout
  | getVersion (t : Transport)
  | getCapabilities (t : Transport)
  | negotiateAlgorithms (t : Transport) (p384 sha384 : Bool)
  | getDigests (t : Transport)
  | getCertificate (t : Transport)
  | challenge (t : Transport) (nonce : List Byte)
  | getMeasurements (t : Transport) (index : Nat)
  | keyExchange (t : Transport) (psk : Bool)
  | finish (t : Transport) (sid : Nat)
  | endSession (t : Transport) (sid : Nat)
  | bar0UnsupportedAccess (off size : Nat)
  | bar2Write (off : Nat) (data : List Byte) (pois : Bool)
  | bar2Read (off size : Nat)
  | pcieLinkTrained (rate width : Nat)
  | registerWrite (agent : Agent) (off size : Nat) (val : W64)
  | notifyWrite (q : Nat) (wr : W32)
  | queueMap (q slot : Nat)
  | queueUnmap (slot : Nat)
  | slotFetch (slot : Nat) (bad : Bool)
  | rackRingWrite (peer off : Nat) (data : List Byte)
  | rackEthernetLaunch (msg : List Byte)
  | rackLaunchConsume (eth : Bool)
  | dispatchTick
  | semaphoreRead (lid : Nat)
  | placerPass
  | drainTimeout (tid : Nat)
  | quantumExpiry (tid : Nat)
  | markerArrive (k : Nat)
  | markerLatchInject (elem ctx : Nat)
  | checkpointSave (tid : Nat)
  | taskRetire (tid : Nat)
  | planeDrop (thread : Nat)
  | tokenAccept (elem : Nat)
  | routerHop (src : HopSrc)
  | activationStart (thread : Nat)
  | activationCommit (thread : Nat)
  | trapTake (thread : Nat)
  | lodgeTrapService (choice : LodgeChoice)
  | probeSend (unit : W32)
  | probeArrive (k : Nat)
  | yieldExpiry (thread : Nat)
  | elementErrorEvent (elem : Nat) (what : ElemError)
  | elementReplay (elem : Nat)
  | elementSparing (elem : Nat) (lost : List Nat)
  | thermSample (readings : List (Nat × Int)) (outOf : List Nat) (outer : List (Nat × Int))
  | bankThermalRetire (sensor : Nat)
  | thermSensFailedClear (sensor : Nat)
  | thermLimWrite (val : W32)
  | powerSample (watts : Nat)
  | powerPeriod
  | powerOverDeadline
  | pwrCapWrite (agent : Agent) (val : W32)
  | pwrWinWrite (val : W32)
  | laneErrorEvent (port : Nat) (word : Codeword)
  | laneSparing (port : Nat)
  | portDown (port : Nat) (exhausted : Bool)
  | portLinkUp (port lanes : Nat) (spareOk spareTrained : Bool)
  | remoteRequestWaitEnd (id : Nat)
  | requestTimeout (id : Nat)
  | errorCompletionReceived (id : Nat)
  | drainNoticeReceived (peer : Nat)
  | lateCompletion (id : Nat)
  | inboundFromIsolatedPeer (peer : Nat)
  | inboundRequest (peer : Nat) (req : InRequest)
  | isolatePeer (peer : Nat)
  | isolatePort (port : Nat)
  | returnPeer (peer : Nat)
  | returnPort (port : Nat)
  | lkPeermapWrite (word : Nat) (val : W64)
  | lkCfgWrite (val : W32)
  | droplogFree (entry : Nat)
  | lkDrainStart
  | drainQuiesceEnd
  | drainNotifyEnd (acked : Bool)
  | drainSafe
  | ethernetPortFailover (port : Nat)
  | adminDoorbell (wr : W32)
  | adminRingSet (compl : Bool) (val : W64)
  | adminCompletion
  | adminUnknownOpcode (via : Via) (op : Byte)
  | queueCreate (via : Via) (desc : QueueArgs)
  | queueDestroy (via : Via) (q : Nat)
  | queueReset (via : Via) (q : Nat) (rd : W32)
  | resync (via : Via) (dest first : Nat)
  | trayDrain (via : Via)
  | planeInstall (via : Via) (plane : Nat) (space addr len : Nat) (room : Bool)
  | planeRemove (via : Via) (plane : Nat)
  | asidCreate (via : Via) (root : Nat)
  | asidDestroy (via : Via) (asid : Nat)
  | map (via : Via) (m : MapArgs)
  | unmap (via : Via) (asid va psize count : Nat)
  | collGroup (via : Via) (g : Nat) (size : Nat) (scope asid : Nat) (members : BitVec 192) (valid : Bool)
  | setReg (via : Via) (off : Nat) (val : W64)
  | pgRemapStart (retire : List Nat)
  | pgRemapDone (unreadable : List Nat)
  | ghWaypartWrite (agent : Agent) (slice : Nat) (val : W64)
  | ghDrainEnd (slice : Nat)
  | ghZeroEnd (slice : Nat)
  | ghLineFill (pa : Nat)
  | trInvAll
  | trInvAsid (asid : Nat)
  | trInvPage (asid va : Nat)
  | pageWalk (port asid va : Nat) (write : Bool)
  | rowCommandEffect (id : Nat)
  | rowOpenTimeout (bank : Nat)
  | rowRefresh (bank : Nat)
  | busTesterBeat (bed : Nat) (err : Bool)
  | vectorClockAnnounce (quarter : Nat)
  | storePerform (id parts : Nat)
  | waitaReread (id : Nat)
  | waitaTimeout (id : Nat)
  | streamGranuleReturn (bid pos : Nat) (ecc : Bool)
  | streamGranuleWrite (bid : Nat)
  | streamBindingEnd (bid : Nat)
  | streamFault (bid : Nat)
  | copyGranule (cid : Nat) (fetch ecc : Bool)
  | copyComplete (cid : Nat)
  | copyFault (cid : Nat)
  | nearMemoryReduce (stack adder part : Nat) (ecc : Bool)
  | arrayRowTake (arr : Nat)
  | arrayDrainToken (arr col : Nat)
  | weightTokenLoad (arr : Nat)
  | fctColumnStep (bed : Nat)
  | reduceRoundCombine (node : Nat)
  | reduceRootResult (node : Nat)
  | reduceRoundAbandon (tid ctx tree : Nat)
  | collRoundComplete (rid : Nat) (remote : List (List Byte))
  | collRoundFail (rid : Nat)
  | collRoundTimeout (rid : Nat)
  | armRptClear
  | remoteCompletionReceived (id : Nat) (data : List Byte) (marks : List Bool)
  | memoryAccessComplete (id parts : Nat) (ecc : Bool)
  | rowCommandComplete (id : Nat)
  deriving DecidableEq, Repr

/-- The row of the table that an occurrence belongs to. DESIGN CHOICE (log entry 1). -/
def Event.instr : Event → Instr
  | .packageReset => .packageReset
  | .bootPushGo _ => .bootPushGo
  | .bootSourceTimeout _ => .bootSourceTimeout
  | .bootNetworkFetchDone _ _ => .bootNetworkFetchDone
  | .dhcpv6Timeout => .dhcpv6Timeout
  | .getVersion _ => .getVersion
  | .getCapabilities _ => .getCapabilities
  | .negotiateAlgorithms _ _ _ => .negotiateAlgorithms
  | .getDigests _ => .getDigests
  | .getCertificate _ => .getCertificate
  | .challenge _ _ => .challenge
  | .getMeasurements _ _ => .getMeasurements
  | .keyExchange _ _ => .keyExchange
  | .finish _ _ => .finish
  | .endSession _ _ => .endSession
  | .bar0UnsupportedAccess _ _ => .bar0UnsupportedAccess
  | .bar2Write _ _ _ => .bar2Write
  | .bar2Read _ _ => .bar2Read
  | .pcieLinkTrained _ _ => .pcieLinkTrained
  | .registerWrite _ _ _ _ => .registerWrite
  | .notifyWrite _ _ => .notifyWrite
  | .queueMap _ _ => .queueMap
  | .queueUnmap _ => .queueUnmap
  | .slotFetch _ _ => .slotFetch
  | .rackRingWrite _ _ _ => .rackRingWrite
  | .rackEthernetLaunch _ => .rackEthernetLaunch
  | .rackLaunchConsume _ => .rackLaunchConsume
  | .dispatchTick => .dispatchTick
  | .semaphoreRead _ => .semaphoreRead
  | .placerPass => .placerPass
  | .drainTimeout _ => .drainTimeout
  | .quantumExpiry _ => .quantumExpiry
  | .markerArrive _ => .markerArrive
  | .markerLatchInject _ _ => .markerLatchInject
  | .checkpointSave _ => .checkpointSave
  | .taskRetire _ => .taskRetire
  | .planeDrop _ => .planeDrop
  | .tokenAccept _ => .tokenAccept
  | .routerHop _ => .routerHop
  | .activationStart _ => .activationStart
  | .activationCommit _ => .activationCommit
  | .trapTake _ => .trapTake
  | .lodgeTrapService _ => .lodgeTrapService
  | .probeSend _ => .probeSend
  | .probeArrive _ => .probeArrive
  | .yieldExpiry _ => .yieldExpiry
  | .elementErrorEvent _ _ => .elementErrorEvent
  | .elementReplay _ => .elementReplay
  | .elementSparing _ _ => .elementSparing
  | .thermSample _ _ _ => .thermSample
  | .bankThermalRetire _ => .bankThermalRetire
  | .thermSensFailedClear _ => .thermSensFailedClear
  | .thermLimWrite _ => .thermLimWrite
  | .powerSample _ => .powerSample
  | .powerPeriod => .powerPeriod
  | .powerOverDeadline => .powerOverDeadline
  | .pwrCapWrite _ _ => .pwrCapWrite
  | .pwrWinWrite _ => .pwrWinWrite
  | .laneErrorEvent _ _ => .laneErrorEvent
  | .laneSparing _ => .laneSparing
  | .portDown _ _ => .portDown
  | .portLinkUp _ _ _ _ => .portLinkUp
  | .remoteRequestWaitEnd _ => .remoteRequestWaitEnd
  | .requestTimeout _ => .requestTimeout
  | .errorCompletionReceived _ => .errorCompletionReceived
  | .drainNoticeReceived _ => .drainNoticeReceived
  | .lateCompletion _ => .lateCompletion
  | .inboundFromIsolatedPeer _ => .inboundFromIsolatedPeer
  | .inboundRequest _ _ => .inboundRequest
  | .isolatePeer _ => .isolatePeer
  | .isolatePort _ => .isolatePort
  | .returnPeer _ => .returnPeer
  | .returnPort _ => .returnPort
  | .lkPeermapWrite _ _ => .lkPeermapWrite
  | .lkCfgWrite _ => .lkCfgWrite
  | .droplogFree _ => .droplogFree
  | .lkDrainStart => .lkDrainStart
  | .drainQuiesceEnd => .drainQuiesceEnd
  | .drainNotifyEnd _ => .drainNotifyEnd
  | .drainSafe => .drainSafe
  | .ethernetPortFailover _ => .ethernetPortFailover
  | .adminDoorbell _ => .adminDoorbell
  | .adminRingSet _ _ => .adminRingSet
  | .adminCompletion => .adminCompletion
  | .adminUnknownOpcode _ _ => .adminUnknownOpcode
  | .queueCreate _ _ => .queueCreate
  | .queueDestroy _ _ => .queueDestroy
  | .queueReset _ _ _ => .queueReset
  | .resync _ _ _ => .resync
  | .trayDrain _ => .trayDrain
  | .planeInstall _ _ _ _ _ _ => .planeInstall
  | .planeRemove _ _ => .planeRemove
  | .asidCreate _ _ => .asidCreate
  | .asidDestroy _ _ => .asidDestroy
  | .map _ _ => .map
  | .unmap _ _ _ _ _ => .unmap
  | .collGroup _ _ _ _ _ _ _ => .collGroup
  | .setReg _ _ _ => .setReg
  | .pgRemapStart _ => .pgRemapStart
  | .pgRemapDone _ => .pgRemapDone
  | .ghWaypartWrite _ _ _ => .ghWaypartWrite
  | .ghDrainEnd _ => .ghDrainEnd
  | .ghZeroEnd _ => .ghZeroEnd
  | .ghLineFill _ => .ghLineFill
  | .trInvAll => .trInvAll
  | .trInvAsid _ => .trInvAsid
  | .trInvPage _ _ => .trInvPage
  | .pageWalk _ _ _ _ => .pageWalk
  | .rowCommandEffect _ => .rowCommandEffect
  | .rowOpenTimeout _ => .rowOpenTimeout
  | .rowRefresh _ => .rowRefresh
  | .busTesterBeat _ _ => .busTesterBeat
  | .vectorClockAnnounce _ => .vectorClockAnnounce
  | .storePerform _ _ => .storePerform
  | .waitaReread _ => .waitaReread
  | .waitaTimeout _ => .waitaTimeout
  | .streamGranuleReturn _ _ _ => .streamGranuleReturn
  | .streamGranuleWrite _ => .streamGranuleWrite
  | .streamBindingEnd _ => .streamBindingEnd
  | .streamFault _ => .streamFault
  | .copyGranule _ _ _ => .copyGranule
  | .copyComplete _ => .copyComplete
  | .copyFault _ => .copyFault
  | .nearMemoryReduce _ _ _ _ => .nearMemoryReduce
  | .arrayRowTake _ => .arrayRowTake
  | .arrayDrainToken _ _ => .arrayDrainToken
  | .weightTokenLoad _ => .weightTokenLoad
  | .fctColumnStep _ => .fctColumnStep
  | .reduceRoundCombine _ => .reduceRoundCombine
  | .reduceRootResult _ => .reduceRootResult
  | .reduceRoundAbandon _ _ _ => .reduceRoundAbandon
  | .collRoundComplete _ _ => .collRoundComplete
  | .collRoundFail _ => .collRoundFail
  | .collRoundTimeout _ => .collRoundTimeout
  | .armRptClear => .armRptClear
  | .remoteCompletionReceived _ _ _ => .remoteCompletionReceived
  | .memoryAccessComplete _ _ _ => .memoryAccessComplete
  | .rowCommandComplete _ => .rowCommandComplete

end Sys2Proof.Machine
end

