-- ==== Sys2Proof/Machine/State.lean ====
section
/-! DEFINITION. The state of the package: everything the spec gives the machine, as plain data, and the state after
package reset. -/
namespace Sys2Proof.Machine

/-- Why the machine stops. DEDUCED (log entry 87). -/
inductive Fault where
  /-- Raised by `step` when a ready firing's record decodes to no instruction. Arming keeps such a record from a running
  context (R248), so the spec gives it no effect. Safe: the model stops where no device goes on. -/
  | undecodableRecord (elem ctx node : Nat)
  deriving DecidableEq, Repr

/-- Why an instruction has no meaning here. -/
inductive Refusal where
  /-- Raised only by an arm of `exec` whose meaning is not written yet. Safe. -/
  | notModelled (mnemonic : String)
  deriving DecidableEq, Repr

/-! ### Tokens and firings -/

/-- What a token carries beside its tag and interval (R99): value, VEC, NULL, POIS and PSRC. `paddr` is no part of the token: it traces the
address of the load that read the poison, which ADDR of a POISON record gives (R218). DEDUCED (log entry 96). -/
structure Pay where
  val : Val
  vec : Bool
  null : Bool
  pois : Bool
  psrc : BitVec 3
  paddr : W64 := 0
  deriving DecidableEq, Repr

/-- A token (R99). `src` names the edge by its producer. -/
structure Token where
  lo : Nat
  hi : Nat
  pay : Pay
  front : Bool
  iter : Nat
  ctx : Nat
  node : Nat
  port : PortName
  seq : BitVec 8
  src : Nat
  deriving DecidableEq, Repr

/-- A token between routers (R98): the element it is at, the side it entered by and its target; in the FIFO of a stream read port, the binding
that it belongs to (R153). -/
structure Flit where
  tok : Token
  at_ : Nat
  dir : Nat
  target : Nat
  moved : Nat
  bid : Option Nat := none
  deriving DecidableEq, Repr

/-- A token waiting in an input latch, with its arrival cycle (R113). -/
structure Latched where
  tok : Token
  since : Nat
  deriving DecidableEq, Repr

/-- The two ends and the span of a gap (R107); `lerp` tells LERP from HOLD. -/
structure Gap where
  lerp : Bool
  ak : Pay
  ak1 : Pay
  lo : Nat
  hi : Nat
  deriving DecidableEq, Repr

/-- A stored token or gap entry (R105, R107). -/
structure Entry where
  id : Nat
  lo : Nat
  hi : Nat
  pay : Pay
  gap : Option Gap
  deriving DecidableEq, Repr

/-- The firing-rule state of one port of one activation (R102 to R110). -/
structure PortSt where
  front : Nat
  ents : List Entry
  hold : Option Pay
  cover : Option Nat
  deriving DecidableEq, Repr

/-- A firing: a found overlap with its operands (R105). `alo` and `ahi` are the interval of operand A, `fl` the flags that
an interpolated operand sets (R108), `front` marks a voted FRONT token (R231). `pins` are the entries it pins; `trig`
numbers the acceptance that found it, `atok` that of operand A, and `since` is the cycle of its release; `again` marks a firing that element replay issues a
second time (R223). DEDUCED (log entries 16, 18, 49). -/
structure Firing where
  aid : Nat
  node : Nat
  lo : Nat
  hi : Nat
  alo : Nat
  ahi : Nat
  fl : Nat
  front : Bool
  a : Option Pay
  b : Option Pay
  p : Option Pay
  pins : List Nat
  trig : Nat
  since : Nat
  again : Bool
  atok : Nat := 0
  deriving DecidableEq, Repr

/-- One position of a VOTE3 node (R230 to R232). DEDUCED (log entry 30). -/
structure VotePos where
  pos : Nat
  copies : List (Nat × Token)
  fwd : Option Token
  deriving DecidableEq, Repr

/-- The firing-rule state of one node of one activation. -/
structure NodeSt where
  a : PortSt
  b : PortSt
  p : PortSt
  pend : List Firing
  votes : List VotePos
  vcnt : Tab Nat
  deriving DecidableEq, Repr

/-- One token leaving an output latch: its payload, interval and destinations. -/
structure Beat where
  pay : Pay
  lo : Nat
  hi : Nat
  front : Bool
  to0 : Bool
  to1 : Bool
  deriving DecidableEq, Repr

/-- A result on its way to the output latch of a context, or in it from `readyAt` on (R95, R116): beats still to leave, or the held
form that waits in the latch. `left` is the cycle in which the latest beat left (R315, R317). -/
structure OutLatch where
  aid : Nat
  node : Nat
  beats : List Beat
  readyAt : Nat
  waits : Bool
  left : Option Nat := none
  deriving DecidableEq, Repr

/-- One element context (R83, R95, R114, R204, R205). `latch` is the earliest result that has not left, `flow` those behind it
(R115, R116). DEDUCED (log entry 26). -/
structure CtxSt where
  owner : Option Nat
  plane : Nat
  armed : Bool
  ready : List Firing
  waiting : List Firing
  latch : Option OutLatch
  flow : List OutLatch
  credit : Nat
  fpStat : BitVec 6
  gen : W32
  lastSeed : W32
  deriving DecidableEq, Repr

/-- One token of the input-latch history with what its acceptance changed (R223). DESIGN CHOICE (log entry 49). -/
structure History where
  tok : Token
  num : Nat
  before : NodeSt
  aid : Nat
  gen : W32
  seqs : Tab (BitVec 8)
  deriving DecidableEq, Repr

/-- The element's error record (R219 to R223, R226, R227): times of its latest events; `replay` while it stops to replay. -/
structure ElemErr where
  corr : List Nat
  uncorr : List Nat
  lasting : Bool
  spared : Bool
  out : Bool
  replay : Bool
  deriving DecidableEq, Repr

/-- What holds a location (R147, R148). -/
inductive PlaceKind where
  | global | buffer | scratch | domain
  deriving DecidableEq, Repr

/-- The firing whose body runs (R261). -/
structure Issue where
  elem : Nat
  ctx : Nat
  f : Firing
  deriving DecidableEq, Repr

/-- A byte of memory that a later load of the thread has bound already, with its poison, where an access that comes before that load has
still to read it (R173, R335). -/
structure Snap where
  kind : PlaceKind
  addr : Nat
  byte : Byte
  pois : Bool
  deriving DecidableEq, Repr

/-- A form that has issued and waits to perform (R172, R335, R351, R373), or a memory node that waits for its translation (R161, R163,
R170). `packet` is what a parked QPUT has read, EXT and its entries, each with its poison (R93, R367); `snap` the bytes it is to read as a
later load bound them; `done` the cycle in which an ARGW has performed (R368). DEDUCED (log entries 41, 54, 92). -/
structure HeldOp where
  id : Nat
  instr : Instr
  iss : Issue
  since : Nat
  packet : Option (Nat × List (List Byte × Bool)) := none
  snap : List Snap := []
  done : Option Nat := none
  deriving DecidableEq, Repr

/-- The fabric: elements, routers and their errors. -/
structure Fabric where
  /-- Context stores, keyed elem * 4096 + ctx * 1024 + offset (R95, R96). -/
  store : List Host.Cell
  ctxs : Tab CtxSt
  nodes : Tab NodeSt
  latches : Tab Latched
  net : List Flit
  /-- Tokens of a restored cut, by target element, that their consumers take before any other token of their edge (R89, R90). -/
  chan : List (Nat × Token)
  hist : Tab (List History)
  /-- Firings that each element has issued since the oldest acceptance of its history, each with the count of acceptances then
  (R223). -/
  issued : Tab (List (Nat × Firing))
  /-- Cycles in which each element's datapath serves an array (R124, R127). -/
  serving : Tab (List Nat)
  lastServed : Tab Nat
  divBusy : Tab Nat
  seqOut : Tab (BitVec 8)
  seqIn : Tab (BitVec 8)
  held : List HeldOp
  /-- Frames in each element's bank as (activation, first 64-byte unit, units), in rising order (R150). -/
  frames : Tab (List (Nat × Nat × Nat))
  errs : Tab ElemErr
  spares : Tab (BitVec 2 × BitVec 6)
  spareErrs : Tab (List Nat)
  portOut : Tab Bool
  routeOwn : Tab Nat
  accepted : Nat
  deriving DecidableEq, Repr

/-! ### Tasks, threads and activations -/

/-- Where a launch came from (R70, R328, R435). -/
inductive Source where
  | slot (slot queue : Nat)
  | ualink (index : Nat)
  | ethernet (seq : Nat)
  | child (tid : Nat)
  deriving DecidableEq, Repr

/-- A launch as taken: its entries' bytes, source and clamped priority (R56, R61). -/
structure Launch where
  bytes : List Byte
  src : Source
  prio : Nat
  deriving DecidableEq, Repr

/-- A trap record (R217, R218), with the firing that raised it, if one did (R213). -/
structure TrapRec where
  tid : Nat
  code : Nat
  asid : Nat
  thread : Nat
  ctx : Nat
  iter : Nat
  node : Nat
  port : Nat
  lsid : Nat
  plane : Nat
  block : Nat
  elem : Nat
  addr : W64
  info : W64
  path : List W32
  cycle : Nat
  firing : Option Firing
  deriving DecidableEq, Repr

/-- What an activation's branch-class firing names (R321, R393). -/
inductive Branch where
  | block (plane block : Nat)
  | exit
  | eret
  | halt (status : W32)
  deriving DecidableEq, Repr

/-- What takes effect when an activation commits (R324 to R329). -/
inductive Effect where
  | spawn (thread plane block : Nat) (c0 : W64)
  | join (g : Nat)
  | leave (g : Nat)
  | yield
  | est (us : W32)
  | launch (l : Launch)
  deriving DecidableEq, Repr

/-- One performed store, atomic or writing form of an activation: LSID, node, first result, and the bytes it reached (R191). -/
structure Performed where
  lsid : Nat
  elem : Nat
  node : Nat
  result : Pay
  kind : PlaceKind
  parts : List (Nat × Nat)
  deriving DecidableEq, Repr

/-- One firing of a node of an activation (R320, R335, R336): the node as elem * 64 + node, whether it was non-NULL, and
the acceptance that triggered it. -/
structure Fired where
  node : Nat
  live : Bool
  trig : Nat
  deriving DecidableEq, Repr

/-- An activation (R81, R320). -/
structure Act where
  thread : Nat
  tid : Nat
  ctx : Nat
  plane : Nat
  block : Nat
  iter : Nat
  committed : Bool
  dead : Bool
  fired : List Fired
  carry : Tab (Option W64)
  /-- The thread's committed carry slots before this activation committed. -/
  base : Tab W64
  branch : Option Branch
  retStack : List (BitVec 24)
  trap : Option TrapRec
  effects : List Effect
  performed : List Performed
  kept : List Token
  handler : Bool
  deriving DecidableEq, Repr

/-- What is kept of a trapped activation until its trap is resolved (R133, R191, R216). DEDUCED (log entry 34). -/
structure Kept where
  iter : Nat
  ctx : Nat
  plane : Nat
  block : Nat
  performed : List Performed
  tokens : List Token
  deriving DecidableEq, Repr

/-- A thread record (R151, R217, R322). `next` is the block it starts next; `acts` its activations in flight, oldest
first. `kept` belongs to the trap that the handler serves, `lodgeKept` to the one that awaits the Lodge, `useKept` to the
activation that starts next; `acquired` says that an acquire of the thread has bound (R180). DEDUCED (log entry 34). -/
structure Thread where
  tid : Nat
  next : Option (Nat × Nat)
  started : Bool
  acts : List Nat
  carry : Tab W64
  retStack : List (BitVec 24)
  recs : Tab W64
  resume : BitVec 25
  inh : Bool
  lodge : Bool
  trapped : Option TrapRec
  kept : Option Kept
  lodgeKept : Option Kept
  useKept : Option Kept
  yieldUntil : Option Nat
  acquired : Bool
  deriving DecidableEq, Repr

/-- A group of threads (R82). `late` joined while the barrier was partly arrived; `arrived` are the threads counted, each with the held GBAR
that arrived for it; `leaving` the members whose LEAVE or EXIT has committed and does not count yet (R330). DEDUCED (log entry 31). -/
structure Group where
  members : List Nat
  late : List Nat
  arrived : List (Nat × Nat)
  leaving : List Nat
  gen : W32
  deriving DecidableEq, Repr

/-- An installed plane (R66, R255): its common part and element images. -/
structure Plane where
  common : List Byte
  images : List Byte
  deriving DecidableEq, Repr

/-- A resident plane of a task: number, context index, the last time it was branched to (R80), its rewrite log (R369) and the per-context
table of its headers, node list and routes, which stays when the plane leaves the Orangery (R255, R260). -/
structure Resident where
  plane : Nat
  ctx : Nat
  used : Nat
  log : List (Nat × W32)
  table : Plane
  deriving DecidableEq, Repr

/-- The cut of a checkpoint in progress (R86 to R88, R388). Edges are named by their producer; a marker in flight is an edge and
its consumer, as ctxKey * 64 + node; `frozen` are the nodes that have recorded; `begun` says that markers were injected; `late` are the tokens
recorded at their producer's latch, which follow those of their edge that are on their way.
DEDUCED (log entry 43). -/
structure Cut where
  begun : Bool
  markers : List (Nat × Nat)
  marked : List Nat
  frozen : List Nat
  channel : List (Nat × Token)
  late : List (Nat × Token) := []
  deriving DecidableEq, Repr

/-- What the scheduler is doing with a task (R84, R85). `halting` waits, after a HALT has committed, for the stores that have fired, with
the value and the report that then end the task (R59, R393). -/
inductive TaskPhase where
  | running
  | halting (v event : Nat)
  | draining (deadline : Option Nat) (lid : Nat)
  | cutting (c : Cut)
  deriving DecidableEq, Repr

/-- A task (R75 to R92). Origin and size are in beds; `logs` are the rewrite logs of planes that are not resident (R369); `owed` are the
requests to peers by which copies and streams that stopped had written, which its end waits for (R190). -/
structure Task where
  asid : Nat
  prio : Nat
  ox : Nat
  oy : Nat
  wb : Nat
  hb : Nat
  launchPlane : Nat
  planes : List Resident
  logs : Tab (List (Nat × W32))
  launch : Launch
  reserve : List Nat
  estUs : W32
  estAt : Nat
  /-- The estimate and its time before the EST that committed in cycle `estCyc` (R330). -/
  estWas : W32
  estWasAt : Nat
  estCyc : Nat
  placedAt : Nat
  quantumAt : Nat
  past : Bool
  phase : TaskPhase
  groups : Tab Group
  handler : BitVec 25
  deleg : W64
  waitTmo : W32
  xcErr : W64
  collTmo : W64
  useClock : Nat
  owed : List Nat := []
  deriving DecidableEq, Repr

/-- All tasks, threads and activations, by their numbers. -/
structure Tasks where
  tasks : Tab Task
  threads : Tab Thread
  acts : Tab Act
  nextTid : Nat
  nextAid : Nat
  lodgeQueue : List TrapRec
  deriving DecidableEq, Repr

/-! ### Memory -/

/-- Where an access goes once translated. The address is the key of the memory that holds it: a physical address, a
key of `Memory.bank`, a key of `Memory.scratch`, a domain address. -/
structure Place where
  kind : PlaceKind
  addr : Nat
  deriving DecidableEq, Repr

/-- A memory node's access between its firing and its result tokens (R172, R334, R335). `parts` are its pieces of one
aligned 16-byte part each, as address and length; `todo` is the mask of those not yet performed or bound, `got` what was
read, `snap` what a later load has bound of it. `attr` is FMTA + 16 * GEOM of a block access. `waits` when it occupies its
output latch (R335). DEDUCED (log entries 41, 42). -/
structure Access where
  id : Nat
  instr : Instr
  iss : Issue
  kind : PlaceKind
  parts : List (Nat × Nat)
  data : List Byte
  data2 : List Byte
  write : Bool
  todo : Nat
  result : Pay
  got : List (Nat × List Byte × Bool)
  attr : Nat
  since : Nat
  waits : Bool
  sent : Bool
  snap : List Snap := []
  deriving DecidableEq, Repr

/-- A watch set by WAITA in cycle `since` (R344): the value read last with its poison. What the cycle at hand brings it takes effect once
the cycle's writes are done (R348): `due` a read, `expired` its time, `woken` the value of a WAKEA. DEDUCED (log entry 85). -/
structure Watch where
  id : Nat
  instr : Instr
  iss : Issue
  place : Place
  size : Nat
  threshold : Nat
  last : Nat
  lastPois : Bool
  first : Nat
  since : Nat
  lastRead : Nat
  slot : Bool
  dirty : Bool
  due : Bool
  expired : Bool
  woken : Option Nat
  deriving DecidableEq, Repr

/-- The state of a Pergola bank (R162). -/
structure Bank where
  open_ : Bool
  row : Nat
  a : Nat
  p : Nat
  deriving DecidableEq, Repr

/-- A row command from its perform to its completion token (R162, R363, R364). -/
structure RowCmd where
  id : Nat
  instr : Instr
  iss : Issue
  bank : Nat
  row : Nat
  count : Nat
  doneAt : Option Nat
  deriving DecidableEq, Repr

/-- GH_WAYPART of a slice with the transition in progress (R158, R159). -/
structure WayPart where
  spw : BitVec 5
  spasid : BitVec 8
  taskWr : Bool
  phase : BitVec 2
  err : Bool
  wbcnt : BitVec 16
  spw1 : BitVec 5
  spasid1 : BitVec 8
  deriving DecidableEq, Repr

/-- One entry of a translation cache (R170): its ASID, virtual base, size, physical base and attributes. -/
structure Tlb where
  asid : Nat
  va : Nat
  size : Nat
  pa : Nat
  w : Bool
  d : Bool
  fmta : Nat
  geom : Nat
  deriving DecidableEq, Repr

/-- Memory as programs see it and the hardware under it. -/
structure Memory where
  /-- Data of the lines that the Glasshouse slices hold, keyed by physical address. -/
  main : List Host.Cell
  /-- What the DRAM banks and outer stacks hold, keyed by physical address. -/
  dram : List Host.Cell
  /-- Role areas of the element banks, keyed (elem * 4 + ctx) * 65536 + offset in the area (R152). -/
  bank : List Host.Cell
  /-- Scratchpads, keyed slice * 2^24 + offset. -/
  scratch : List Host.Cell
  /-- Host memory, keyed by bus address. -/
  host : List Host.Cell
  /-- The 16-byte parts of host memory whose reads come back as poisoned TLPs (R44). DESIGN CHOICE (log entry 73). -/
  hostPois : Tab Bool
  /-- Poison marks per 16-byte part (R228), keyed as the memory they belong to, divided by 16. -/
  mainPois : Tab Bool
  dramPois : Tab Bool
  bankPois : Tab Bool
  scratchPois : Tab Bool
  /-- Glasshouse lines, keyed (slice * 8192 + set) * 16 + way: line number and dirty bit. -/
  lines : Tab (Nat × Bool)
  plru : Tab (BitVec 16)
  wayPart : Tab WayPart
  /-- Region L1 lines, keyed ((tid * 4 + ctx) * 2^42 + line): bytes and use time. -/
  l1 : Tab (List Byte × Nat)
  l1Clock : Nat
  trRoot : Tab (Bool × W32)
  /-- The number of the first access that came after the latest invalidation of a translation (R170). -/
  trMark : Nat
  tlb : Tab (List Tlb)
  bankMap : Tab W64
  bankTherm : Tab W64
  liveMap : Tab W64
  remapBusy : Bool
  remapDone : BitVec 16
  remapPois : BitVec 32
  /-- The banks out of the live list of the placement that a remap in progress brings, and those that rejoin with it (R161). -/
  remapNew : Tab W64
  remapBack : Tab W64
  pgReturnBed : BitVec 8
  pgReturn : Tab W64
  banks : Tab Bank
  acts : Tab (List Nat)
  rowTaken : Tab Nat
  rowIdle : Tab Nat
  vbEn : Bool
  vbIdle : BitVec 8
  vbYields : BitVec 16
  vbErrs : BitVec 32
  vbRunning : Tab Bool
  vbErrTimes : Tab (List Nat)
  busOut : BitVec 256
  rowCmds : List RowCmd
  acc : List Access
  watches : List Watch
  vclock : Tab Nat
  aclock : Tab Nat
  /-- Per byte of local memory, the clock that its latest stamped write carries: dependency vector and own stamp (R180). -/
  wstamp : Tab (List Nat)
  deriving DecidableEq, Repr

/-! ### Engines -/

/-- A stream binding (R353 to R358). `got` holds granules returned and not yet delivered, with whether they are poisoned and the
source they then name (R228); `inputs` the tokens a write binding has taken; `stop` the position where a read binding ends early, and `relAt`
the cycle of its SREL (R357, R358, R370); `front` says that its CLOSE FRONT is due though it is released (R427); `tell` the SBIND of a binding that waits to open; `owed` the SBIND of a write binding wired to a
COPY-class JOINF (R182). DEDUCED (log entry 51). -/
structure Binding where
  bid : Nat
  tid : Nat
  aid : Nat
  ctx : Nat
  port : Nat
  write : Bool
  indexed : Bool
  base : Nat
  counts : List Nat
  strides : List Int
  idxBase : Nat
  flag : Nat
  flagVal : Nat
  t0 : Nat
  next : Nat
  got : List (Nat × List Byte × Bool × BitVec 3)
  inputs : List Token
  faulted : Bool
  released : Bool
  tell : Option (Issue × Instr)
  owed : Option (Issue × Instr)
  stop : Option Nat := none
  relAt : Nat := 0
  front : Bool := false
  deriving DecidableEq, Repr

/-- A fault of a stream waiting for the port's next user (R357). -/
structure StreamFlt where
  tid : Nat
  ctx : Nat
  port : Nat
  code : Nat
  addr : W64
  info : W64
  deriving DecidableEq, Repr

/-- A copy accepted by a copy engine (R359 to R361). `fetched` are the granules read and not yet written, none while a peer has not
answered; `stop` is the granule at which it failed, with the trap code; `done` says that its completion word is on its way. -/
structure Copy where
  cid : Nat
  tid : Nat
  elem : Nat
  ctx : Nat
  asid : Nat
  src : Nat
  dst : Nat
  len : Nat
  cw : Nat
  cval : W64
  sspace : Nat
  dspace : Nat
  cwHost : Bool
  fetched : List (Nat × Option (List Byte × List Bool))
  rd : Nat
  next : Nat
  tell : Option Issue
  instr : Instr
  done : Bool
  stop : Option (Nat × Nat)
  deriving DecidableEq, Repr

/-- A command queued at an outer stack (R165, R362). -/
structure NmCmd where
  num : Nat
  tid : Nat
  asid : Nat
  packet : Val
  base : Nat
  dest : Nat
  flag : Nat
  rowg : Nat
  tell : Option Issue
  instr : Instr
  got : Tab (List (List Byte × Bool)) := []
  deriving DecidableEq, Repr

/-- A weight set of one array element (R123, R125, R126). `arrived` masks what has come since it was last loaded: 32 half
tokens, then scale tokens, then in bit 63 whether any was poisoned. -/
structure WeightSet where
  bytes : List Byte
  scales : List Byte
  arrived : Nat
  loaded : Bool
  pois : Bool
  deriving DecidableEq, Repr

/-- An MWLOAD in progress (R375). -/
structure WLoad where
  port : Nat
  set : Bool
  bcast : Bool
  pos : Nat
  tell : Issue
  instr : Instr
  deriving DecidableEq, Repr

/-- An MMAC assignment (R376). -/
structure Assign where
  rows : Nat
  set : Bool
  port : Nat
  tell : Issue
  instr : Instr
  deriving DecidableEq, Repr

/-- One accumulator row of one column block (R128, R129, R134, R138): its values, contribution count, checksum and magnitude
sums, overflow and poison. DEDUCED (log entry 57). -/
structure AccRow where
  vals : List Nat
  count : Nat
  c : Nat
  s : Nat
  ovf : Bool
  pois : Bool
  deriving DecidableEq, Repr

/-- A drain in progress (R130, R131): tokens that each column sends, and how many it has sent. -/
structure Drain where
  lo : Nat
  rows : Nat
  keep : Bool
  aid : Nat
  next : List Nat
  deriving DecidableEq, Repr

/-- A systolic array of a plane (R122 to R138): weight sets keyed (i * 64 + j) * 2 + set, accumulator rows keyed r * 64 + j.
DEDUCED (log entry 57). -/
structure ArraySt where
  sets : Tab WeightSet
  loads : List WLoad
  assigns : List Assign
  taken : Nat
  closed : Bool
  drain : Option Drain
  acc : Tab AccRow
  checkOn : Bool
  checked : BitVec 16
  unchecked : BitVec 16
  failed : BitVec 16
  firstCol : BitVec 6
  deriving DecidableEq, Repr

/-- A factorising bed (R139 to R145). -/
structure FctBed where
  ctx : Nat
  base : Nat
  gmode : Bool
  smode : Bool
  glim : W32
  singtol : W32
  growth : W32
  next : Nat
  active : Bool
  gflag : Bool
  subst : Bool
  subcol : BitVec 7
  subcnt : BitVec 8
  gidx : BitVec 3
  group : Option (Nat × Nat)
  rename : List Nat
  history : Tab Nat
  amax : W32
  umax : W32
  begun : Bool
  step : Option (Nat × Issue)
  /-- While a column of the step is in progress, the cycle it ends in (R141). -/
  serve : Option Nat
  joining : Option (Nat × Nat × Issue)
  deriving DecidableEq, Repr

/-- A contribution or partial of one round at a tree node (R381): lanes as f32 codes; none for NULL. -/
structure Partial where
  round : Nat
  link : Nat
  val : Option (List Nat)
  vec : Bool
  pois : Bool
  psrc : BitVec 3
  iss : Option Issue
  since : Nat
  deriving DecidableEq, Repr

/-- A REDPUT node across the task (R381, R423): rounds performed, rounds combined, what it holds, and the partials on
their way to its parent. DEDUCED (log entry 58). -/
structure TreeNode where
  count : Nat
  combined : Nat
  inputs : List Partial
  sent : List Partial
  deriving DecidableEq, Repr

/-- A REDWAIT waiting for its round (R382). DEDUCED (log entry 58). -/
structure TreeWait where
  round : Nat
  instr : Instr
  iss : Issue
  deriving DecidableEq, Repr

/-- An A token of a REDWAIT, by its activation and the number of its acceptance, and the round that it pairs with (R382). -/
structure Paired where
  node : Nat
  aid : Nat
  tok : Nat
  round : Nat
  deriving DecidableEq, Repr

/-- The state of one tree (R380 to R383). `waitCount` is the round that the next A token of each REDWAIT takes, `back` the earlier ones that
tokens of discarded activations gave back. DEDUCED (log entry 58). -/
structure TreeSt where
  nodes : Tab TreeNode
  waitCount : Tab Nat
  waits : List TreeWait
  results : Tab (Option (List Nat) × Bool × Bool × BitVec 3)
  abandoned : List Nat
  begun : Tab Nat
  paired : List Paired := []
  back : Tab (List Nat) := []
  deriving DecidableEq, Repr

/-- A tree of a plane of a task that has left its context, as the plane's next drop finds it again (R80, R423). -/
structure Stash where
  tid : Nat
  plane : Nat
  tree : Nat
  st : TreeSt
  deriving DecidableEq, Repr

/-- One rank's share of a collective round (R384 to R387). `data` holds every rank's contribution with its poison marks once
the first rank completes; `broken` says that a participant has left. -/
structure CollRound where
  rid : Nat
  g : Nat
  tid : Nat
  thread : Nat
  elem : Nat
  asid : Nat
  round : Nat
  rank : Nat
  src : Nat
  dst : Nat
  len : Nat
  op : Nat
  rop : Nat
  type : Nat
  scope : Nat
  root : Nat
  flag : Nat
  flagVal : W64
  since : Nat
  status : Option Nat
  data : Option (List (List Byte × List Bool))
  broken : Bool
  waiters : List HeldOp
  deriving DecidableEq, Repr

/-- COLL_GRP[g] (R385). -/
structure CollGrp where
  size : BitVec 11
  scope : BitVec 3
  asid : BitVec 8
  valid : Bool
  members : BitVec 192
  deriving DecidableEq, Repr

/-- The engines beside the fabric. -/
structure Engines where
  bindings : List Binding
  faults : List StreamFlt
  fifo : Tab (List (List Byte × Bool × Nat))
  copies : List Copy
  copyTurn : Tab (Nat × Nat) := []
  nmQueue : Tab (List NmCmd)
  arrays : Tab ArraySt
  beds : Tab FctBed
  trees : Tab TreeSt
  stash : List Stash := []
  collGrp : Tab CollGrp
  rounds : List CollRound
  collCount : Tab Nat
  deriving DecidableEq, Repr

/-! ### Housekeeping, links, boot, queues -/

/-- Power capping (R23 to R25). `samples` are newest first; `sampleAt` and `periodAt` the times of the latest sample and period,
`overSince` when the samples went over the cap; `capPcie` and `capEth` the
cap writes that await the next sample, oldest first. -/
structure Power where
  cap : BitVec 16
  win : BitVec 20
  avg : BitVec 16
  inst : BitVec 16
  throttle : BitVec 3
  step : BitVec 3
  therm : Bool
  floor : Bool
  ovf : Bool
  clamp : Bool
  samples : List Nat
  capPcie : List (BitVec 32)
  capEth : List (BitVec 32)
  overSince : Option Nat
  sampleAt : Nat
  periodAt : Nat
  deriving DecidableEq, Repr

/-- One thermal sensor (R16 to R20): reading and report in 1/16 degree; `hot` counts the latest samples at or above RETIRE. -/
structure Sensor where
  raw : Int
  temp : BitVec 16
  failed : Bool
  cand : Bool
  candN : Nat
  hot : Nat
  deriving DecidableEq, Repr

/-- The sensors and their limits (R16 to R22): `lodgeIrq` are sensors whose retirement awaits the Lodge, `tripped` says that a
fabric sensor has reached TRIP since the latest period. -/
structure Thermal where
  retire : BitVec 8
  resume : BitVec 8
  trip : BitVec 8
  sens : Tab Sensor
  outer : Tab (BitVec 16)
  lodgeIrq : List Nat
  tripped : Bool
  sampleAt : Nat
  deriving DecidableEq, Repr

/-- A scale-up port (R28 to R30, R35, R42): per-lane event times and lasting faults; `iso` while it is isolated. -/
structure Port where
  state : BitVec 3
  iso : Bool
  spared : Bool
  laneMap : BitVec 3
  spareOk : Bool
  spareBad : Bool
  retry : BitVec 16
  laneErr : Tab (List Nat)
  lasting : BitVec 5
  lastingAt : Tab Nat
  deriving DecidableEq, Repr

/-- What a remote request is (R27, R36). `atomic` names its operation by the opcode of its form; `copyRead` and `copyWrite` are
traffic of the copy engines. -/
inductive ReqKind where
  | read | write | prefetch
  | atomic (op : Nat)
  | copyRead | copyWrite
  deriving DecidableEq, Repr

/-- A request to a peer (R27, R33, R34). `marks` are the poison marks of a write's 16-byte parts (R228); `waits` while R34 holds it
back; `tag` is the granule of a copy, `irq` the MSI-X vector sent once it completes (R59). -/
structure Req where
  id : Nat
  peer : Nat
  port : Nat
  kind : ReqKind
  pa : Nat
  size : Nat
  data : List Byte
  marks : List Bool
  acc : Option Nat
  asid : Nat
  tag : Nat
  sentAt : Nat
  waits : Bool
  irq : Option Nat := none
  deriving DecidableEq, Repr

/-- Who in the package reads through a request: a form that reads its descriptor or packet, position `pos` of a stream binding, a
queue slot, a held launch's semaphores, a rank's share of a collective. DESIGN CHOICE (log entry 39). -/
inductive Reader where
  | form (id : Nat) | stream (bid pos : Nat) | slot (k : Nat) | launch (lid : Nat) | round (rid : Nat)
  deriving DecidableEq, Repr

/-- One range that a reader asked a peer for: its request and, once that completes, the bytes with the source of their poison.
DESIGN CHOICE (log entry 39). -/
structure Fetch where
  reader : Reader
  req : Nat
  pa : Nat
  size : Nat
  ans : Option (List Byte × Option (BitVec 3))
  deriving DecidableEq, Repr

/-- An entry of LK_DROPLOG (R38, R42). -/
structure DropEntry where
  valid : Bool
  kind : BitVec 2
  opened : Bool
  obj : BitVec 8
  asid : BitVec 8
  count : W32
  first : BitVec 48
  reads : W32
  atomics : W32
  deriving DecidableEq, Repr

/-- Scale-up and Ethernet ports (R26 to R43). `pfc` are the traffic classes whose priority flow control an Ethernet port has on
(R40); `ethAddr` the MAC and IP address of an endpoint, keyed port * 2 + endpoint with 0 for management (R41).
DESIGN CHOICE (log entry 9). -/
structure Links where
  self : BitVec 8
  ports : Tab Port
  peerMap : BitVec 192
  peerIso : BitVec 192
  tmo : BitVec 16
  late : W32
  dlLost : W32
  drop : Tab DropEntry
  drain : BitVec 3
  drainTmo : BitVec 16
  drainAt : Nat
  reqs : List Req
  fetches : List Fetch
  synth : List Nat
  noticed : List Nat
  ethUp : Tab Bool
  pfc : Tab (BitVec 8)
  ethAddr : Tab (BitVec 48 × List Byte)
  deriving DecidableEq, Repr

/-- An SPDM session (R51). -/
structure Session where
  sid : Nat
  t : Transport
  finished : Bool
  deriving DecidableEq, Repr

/-- Boot, identity and SPDM (R48 to R51). -/
structure Boot where
  src : Bool
  state : BitVec 3
  code : BitVec 5
  svn : BitVec 8
  pushLen : W32
  trying : Bool
  fellBack : Bool
  since : Nat
  dhcpV4 : Bool
  firmware : List Byte
  microcode : List Byte
  /-- The microcode image has passed the checks of R48, so that planes may be armed. -/
  microOk : Bool
  spdm : List (Transport × Nat)
  sessions : List Session
  deriving DecidableEq, Repr

/-- The fuses of the package (R22, R48, R50, R51). DESIGN CHOICE (log entry 6). -/
structure Fuses where
  srcStrap : Bool
  slotDigests : Tab (List Byte × List Byte)
  revoked : BitVec 4
  svn : BitVec 8
  badBanks : Tab W64
  debugEnable : Bool
  deriving DecidableEq, Repr

/-- A hardware queue slot (R54, R55, R63, R70). `leaving` says that it has been unmapped and finishes the packet it has begun to fetch. -/
structure Slot where
  qid : BitVec 10
  valid : Bool
  prioMax : BitVec 3
  err : Bool
  code : BitVec 8
  notify : W32
  rd : W32
  offer : Option Launch
  leaving : Bool := false
  deriving DecidableEq, Repr

/-- An admin command taken from the ring and not completed, with its free-running number (R65). -/
structure Taken where
  num : Nat
  bytes : List Byte
  deriving DecidableEq, Repr

/-- A MAP or UNMAP that has written the tables and invalidated, and completes once DONE is set: its number, the request that came next at its
invalidation, and the pages of ALLOC, with their ASID, that are free then (R67, R170). -/
structure Inval where
  via : Via
  op : Nat
  mark : Nat
  pages : List (Nat × Nat)
  deriving DecidableEq, Repr

/-- Queues, rack rings and the admin interface (R52 to R68). `late` are the notifies, maps and unmaps that wait for the queue table, which a remap
or an open row is in the way of (R161, R163); they are tried again from cycle to cycle. DESIGN CHOICE (log entries 74, 82). -/
structure Queues where
  qtab : BitVec 48
  created : List Nat
  dying : List Nat
  wr : Tab W32
  slots : Tab Slot
  pend : BitVec 1024
  rackRd : BitVec 8
  rackDrops : BitVec 16
  rackBadw : BitVec 16
  rackRing : List Host.Cell
  rackWritten : BitVec 256
  rackOffer : Option Launch
  ethRing : List (Nat × List Byte)
  ethSeq : Nat
  ethOffer : Option Launch
  repAddr : BitVec 48
  repPeer : BitVec 8
  rackPrioMax : BitVec 3
  admqBase : BitVec 48
  admqLog : BitVec 4
  admcBase : BitVec 48
  admcLog : BitVec 4
  admcVec : BitVec 11
  admWr : W32
  admRd : W32
  admCwr : W32
  taken : List Taken
  completions : List (List Byte)
  invals : List Inval
  gen : W32
  planes : Tab Plane
  /-- Pages that ALLOC took, by physical base: size and ASID (R67). -/
  alloc : Tab (Nat × Nat)
  /-- Tables of address spaces, by physical base: size and ASID (R67). -/
  tables : Tab (Nat × Nat)
  late : List Event := []
  deriving DecidableEq, Repr

/-! ### The scheduler -/

/-- What a checkpoint saves (R89, R427 to R429), as it stood in the region that `task` names; the encoding within each section
belongs to the implementation (R435). `units` of 64 KiB from `base` hold it. `rem` is the remaining estimate.
DEDUCED (log entry 44). -/
structure Saved where
  base : Nat
  units : Nat
  rem : W32
  tid : Nat
  task : Task
  threads : List (Nat × Thread)
  acts : List (Nat × Act)
  nodes : List (Nat × NodeSt)
  ctxs : List (Nat × CtxSt)
  tokens : List (Nat × Token)
  bank : List (Nat × Byte)
  bankPois : List Nat
  held : List HeldOp
  acc : List Access
  bindings : List Binding
  fifo : List (Nat × List (List Byte × Bool × Nat))
  copies : List Copy
  arrays : List (Nat × ArraySt)
  beds : List (Nat × FctBed)
  trees : List (Nat × TreeSt)
  stash : List Stash := []
  rounds : List CollRound
  deriving DecidableEq, Repr

/-- A region reserved for a held launch by a DRAIN (R85): in beds, with the contexts reserved. DEDUCED (log entry 46). -/
structure Reserve where
  lid : Nat
  tid : Nat
  ox : Nat
  oy : Nat
  wb : Nat
  hb : Nat
  ctxs : List Nat
  deriving DecidableEq, Repr

/-- A launch held in the dispatcher (R72 to R74): its number, time it became placeable, its image when it resumes a checkpointed task,
and the cycle in which it entered with, for a child, the thread whose commit handed it over (R330). DEDUCED (log entry 85). -/
structure HeldLaunch where
  lid : Nat
  launch : Launch
  placeable : Option Nat
  lastRead : Nat
  dirty : Bool
  image : Option Saved
  entered : Nat × Nat
  deriving DecidableEq, Repr

/-- Scheduler registers (R94), the queue scheduler's place in its order (R71), the dispatcher's launches (R72) and what is
reserved for them (R85). DEDUCED (log entry 36). -/
structure Sched where
  placeEn : Bool
  quantum : BitVec 24
  drain : BitVec 16
  gapHi : BitVec 3
  killRun : BitVec 16
  saveBase : BitVec 48
  saveMib : W32
  drains : BitVec 16
  kills : BitVec 16
  ckpts : BitVec 16
  ckFail : BitVec 16
  lastSource : Nat
  lastTick : Nat
  lastPass : Nat
  passDue : Bool
  nextLid : Nat
  held : List HeldLaunch
  reserved : List Reserve
  deriving DecidableEq, Repr

/-- A probe on its way (R119): the descriptors of the unit that sent it and of the one it goes to, the path so far, and the cycle in which it
arrives. -/
structure Probe where
  origin : W32
  goal : W32
  path : List W32
  due : Nat
  deriving DecidableEq, Repr

/-- Error, trace and arming-report registers (R119, R120, R221, R232, R236, R259). `blockedFor` counts, per blocked unit, the cycles that it
has stayed blocked, since it last sent probes if it has. -/
structure Errors where
  delay : BitVec 20
  deadlocks : W32
  win : W32
  thresh : BitVec 4
  replays : BitVec 16
  sparings : BitVec 16
  poisoned : BitVec 16
  trapLost : BitVec 8
  lost : BitVec 8
  voteLog : Tab (BitVec 128)
  voteIdx : BitVec 5
  voteOver : BitVec 16
  voteRead : BitVec 32
  probes : List Probe
  blockedFor : Tab Nat
  armValid : Bool
  armCode : BitVec 6
  armPlane : BitVec 16
  armElem : BitVec 14
  armNode : BitVec 6
  armWhich : BitVec 2
  armIndex : BitVec 10
  armCount : W32
  /-- The cycle in which a failed drop removed a plane (R260). -/
  armAt : Tab Nat
  deriving DecidableEq, Repr

/-- Belvedere taps (R234 to R236). `buf` holds the records that the taps have copied and the ring has not, with their tap, in order of
acceptance (R235). -/
structure Taps where
  en : Bool
  ring : BitVec 48
  size : W32
  wp : W64
  rp : W64
  sel : Tab W64
  drops : Tab W32
  buf : List (Nat × List Byte)
  deriving DecidableEq, Repr

/-- What the package sends to the outside. DESIGN CHOICE (log entry 3). -/
inductive Output where
  | msix (vec : Nat)
  | report (peer : Option Nat) (addr : Nat) (bytes : List Byte)
  | adminReply (bytes : List Byte)
  | barRead (bytes : List Byte)
  | bar2Data (bytes : List Byte) (pois : Bool)
  | unsupportedRequest
  | poisonedTlp
  | ualinkRequest (id peer port pa size : Nat) (kind : ReqKind) (data : List Byte) (marks : List Bool)
  | ualinkReply (peer : Nat) (data : List Byte) (marks : List Bool)
  | ualinkError (peer : Nat)
  | drainNotice (peer port : Nat)
  | drainAck (peer : Nat)
  | spdm (t : Transport) (msg : String) (bytes : List Byte)
  | hostWrite (bus : Nat) (bytes : List Byte) (pois : Bool)
  deriving DecidableEq, Repr

/-- The next thing to come about, in the order the agenda gives: a fabric cycle passes, an element's issue slot comes, a step
of the package takes place, an agent reads a register (R45, R46), the host stores into its own memory, data of which it may not vouch for
(`pois`), a poisoned TLP writes BAR0 (R44), the firmware sets an Ethernet port's priority flow control (R40), or a signed firmware command
blows the revocation fuse of a key slot (R50).
DESIGN CHOICE (log entry 1). -/
inductive Stim where
  | cycle
  | issue (elem : Nat)
  | event (e : Event)
  | regRead (agent : Agent) (off size : Nat)
  | hostStore (bus : Nat) (bytes : List Byte) (pois : Bool)
  | poisonedBar0 (off : Nat)
  | pfc (port : Nat) (classes : BitVec 8)
  | revoke (slot : Nat) (signature : List Byte)
  deriving DecidableEq, Repr

/-- A write performed in the cycle at hand (R348): the space and range it reached, and its rank, which an element's form has by element,
context and node and any other agent above them all. A queue that a QPUT wrote is named the same way (R367). -/
structure Turn where
  space : Nat
  addr : Nat
  len : Nat
  rank : Nat
  deriving DecidableEq, Repr

/-- The package. DESIGN CHOICE (log entry 1). -/
structure State where
  agenda : List Stim
  inp : Option Event
  cur : Option Issue
  fresh : Nat
  cycles : Nat
  units : Nat
  busy : List Nat
  turns : List Turn
  fab : Fabric
  tsk : Tasks
  mem : Memory
  eng : Engines
  pow : Power
  thm : Thermal
  lnk : Links
  boot : Boot
  apBase : BitVec 17
  pcieRate : BitVec 4
  pcieWidth : BitVec 5
  fuse : Fuses
  que : Queues
  sch : Sched
  err : Errors
  tap : Taps
  out : List Output
  deriving DecidableEq, Repr

/-! ### Reset values -/

def PortSt.new : PortSt := { front := 0, ents := [], hold := none, cover := none }
def NodeSt.new : NodeSt :=
  { a := .new, b := .new, p := .new, pend := [], votes := [], vcnt := [] }
/-- A zeroed context (R69, R204, R205). -/
def CtxSt.new : CtxSt :=
  { owner := none, plane := 0, armed := false, ready := [], waiting := [], latch := none, flow := [], credit := 0, fpStat := 0,
    gen := 0x9E3779B9, lastSeed := 0x9E3779B9 }
def ElemErr.new : ElemErr := { corr := [], uncorr := [], lasting := false, spared := false, out := false, replay := false }
/-- DESIGN CHOICE (log entry 8). -/
def Fabric.reset : Fabric :=
  { store := [], ctxs := [], nodes := [], latches := [], net := [], chan := [], hist := [], issued := [], serving := [], lastServed := [], divBusy := [],
    seqOut := [], seqIn := [], held := [], frames := [], errs := [], spares := [], spareErrs := [], portOut := [], routeOwn := [],
    accepted := 0 }
/-- DESIGN CHOICE (log entry 8). -/
def Tasks.reset : Tasks :=
  { tasks := [], threads := [], acts := [], nextTid := 0, nextAid := 0, lodgeQueue := [] }
def WayPart.reset : WayPart :=
  { spw := 0, spasid := 0, taskWr := false, phase := 0, err := false, wbcnt := 0, spw1 := 0, spasid1 := 0 }
/-- DESIGN CHOICE (log entry 8). -/
def Bank.reset : Bank := { open_ := false, row := 0, a := 0, p := 0 }
/-- DESIGN CHOICE (log entry 8). -/
def Memory.reset (f : Fuses) : Memory :=
  { main := [], dram := [], bank := [], scratch := [], host := [], hostPois := [], mainPois := [], dramPois := [], bankPois := [],
    scratchPois := [], lines := [], plru := [], wayPart := [], l1 := [], l1Clock := 0, trRoot := [], trMark := 0,
    tlb := [], bankMap := f.badBanks, bankTherm := [], liveMap := f.badBanks, remapBusy := false, remapDone := 0,
    remapPois := 0, remapNew := [], remapBack := [], pgReturnBed := 0, pgReturn := [], banks := [], acts := [], rowTaken := [],
    rowIdle := [], vbEn := true, vbIdle := 64, vbYields := 0, vbErrs := 0, vbRunning := [], vbErrTimes := [], busOut := 0, rowCmds := [],
    acc := [], watches := [], vclock := [], aclock := [], wstamp := [] }
def ArraySt.new : ArraySt :=
  { sets := [], loads := [], assigns := [], taken := 0, closed := false, drain := none, acc := [], checkOn := false,
    checked := 0, unchecked := 0, failed := 0, firstCol := 0 }
/-- A bed's factorising registers at reset (R142, R430). -/
def FctBed.reset : FctBed :=
  { ctx := 0, base := 0, gmode := false, smode := false, glim := 0x4B800000, singtol := 0, growth := 0x3F800000,
    next := 0, active := false, gflag := false, subst := false, subcol := 0, subcnt := 0, gidx := 0, group := none,
    rename := [], history := [], amax := 0, umax := 0, begun := false, step := none, serve := none, joining := none }
def TreeNode.new : TreeNode := { count := 0, combined := 0, inputs := [], sent := [] }
def TreeSt.new : TreeSt := { nodes := [], waitCount := [], waits := [], results := [], abandoned := [], begun := [] }
def CollGrp.reset : CollGrp := { size := 0, scope := 0, asid := 0, valid := false, members := 0 }
/-- DESIGN CHOICE (log entry 8). -/
def Engines.reset : Engines :=
  { bindings := [], faults := [], fifo := [], copies := [], nmQueue := [], arrays := [], beds := [], trees := [],
    collGrp := [], rounds := [], collCount := [] }
/-- DESIGN CHOICE (log entry 8). -/
def Power.reset : Power :=
  { cap := 0x0FA0, win := 0x003E8, avg := 0, inst := 0, throttle := 0, step := 0, therm := false, floor := false,
    ovf := false, clamp := false, samples := [], capPcie := [], capEth := [], overSince := none,
    sampleAt := 0, periodAt := 0 }
def Sensor.reset : Sensor := { raw := 0, temp := 0, failed := false, cand := false, candN := 0, hot := 0 }
/-- DESIGN CHOICE (log entry 8). -/
def Thermal.reset : Thermal :=
  { retire := 105, resume := 85, trip := 110, sens := [], outer := [], lodgeIrq := [], tripped := false, sampleAt := 0 }
def Port.reset : Port :=
  { state := 0, iso := false, spared := false, laneMap := 0, spareOk := false, spareBad := false, retry := 0, laneErr := [],
    lasting := 0, lastingAt := [] }
def DropEntry.reset : DropEntry :=
  { valid := false, kind := 0, opened := false, obj := 0, asid := 0, count := 0, first := 0, reads := 0, atomics := 0 }
/-- DESIGN CHOICE (log entry 8); PRESUMED (log entry 9). -/
def Links.reset : Links :=
  { self := 0, ports := [], peerMap := 0, peerIso := 0, tmo := 0x03E8, late := 0, dlLost := 0, drop := [], drain := 0,
    drainTmo := 0x07D0, drainAt := 0, reqs := [], fetches := [], synth := [], noticed := [], ethUp := [], pfc := [], ethAddr := [] }
/-- DESIGN CHOICE (log entry 8). -/
def Boot.reset (f : Fuses) : Boot :=
  { src := f.srcStrap, state := 0, code := 0, svn := 0, pushLen := 0, trying := f.srcStrap, fellBack := false,
    since := 0, dhcpV4 := false, firmware := [], microcode := [], microOk := false, spdm := [], sessions := [] }
/-- DESIGN CHOICE (log entry 8). -/
def Slot.reset : Slot :=
  { qid := 0, valid := false, prioMax := 0, err := false, code := 0, notify := 0, rd := 0, offer := none }
/-- DESIGN CHOICE (log entry 8). -/
def Queues.reset : Queues :=
  { qtab := 0, created := [], dying := [], wr := [], slots := [], pend := 0, rackRd := 0, rackDrops := 0, rackBadw := 0,
    rackRing := [], rackWritten := 0, rackOffer := none, ethRing := [], ethSeq := 0, ethOffer := none, repAddr := 0,
    repPeer := 0, rackPrioMax := 7, admqBase := 0, admqLog := 4, admcBase := 0, admcLog := 4, admcVec := 0, admWr := 0,
    admRd := 0, admCwr := 0, taken := [], completions := [], invals := [], gen := 0, planes := [], alloc := [], tables := [] }
/-- DESIGN CHOICE (log entries 7, 8). -/
def Sched.reset : Sched :=
  { placeEn := true, quantum := 0x002710, drain := 0x00C8, gapHi := 4, killRun := 0x01F4, saveBase := 0, saveMib := 0,
    drains := 0, kills := 0, ckpts := 0, ckFail := 0, lastSource := 65, lastTick := 0, lastPass := 0, passDue := false,
    nextLid := 0, held := [], reserved := [] }
/-- DESIGN CHOICE (log entry 8). -/
def Errors.reset : Errors :=
  { delay := 0x01000, deadlocks := 0, win := 0x01000000, thresh := 3, replays := 0, sparings := 0, poisoned := 0,
    trapLost := 0, lost := 0, voteLog := [], voteIdx := 0, voteOver := 0, voteRead := 0, probes := [], blockedFor := [],
    armValid := false, armCode := 0, armPlane := 0, armElem := 0, armNode := 0, armWhich := 0, armIndex := 0,
    armCount := 0, armAt := [] }
/-- DESIGN CHOICE (log entry 8). -/
def Taps.reset : Taps := { en := false, ring := 0, size := 0, wp := 0, rp := 0, sel := [], drops := [], buf := [] }
/-- Fuses of an unprogrammed package: the spec fixes no fuse value. DESIGN CHOICE (log entry 6). -/
def Fuses.blank : Fuses :=
  { srcStrap := false, slotDigests := [], revoked := 0, svn := 0, badBanks := [], debugEnable := false }

/-- The package right after reset, for given fuses. DESIGN CHOICE (log entries 6, 70). -/
def State.resetOf (f : Fuses) : State :=
  { agenda := [], inp := none, cur := none, fresh := 0, cycles := 0, units := 0, busy := [], turns := [], fab := .reset, tsk := .reset,
    mem := .reset f, eng := .reset, pow := .reset, thm := .reset, lnk := .reset, boot := .reset f, apBase := 0,
    pcieRate := 0, pcieWidth := 0, fuse := f, que := .reset, sch := .reset, err := .reset, tap := .reset, out := [] }

/-- The package right after package reset (R4, R48), every field at the value the spec's maps give.
DESIGN CHOICE (log entries 5, 6). -/
def State.reset : State := State.resetOf Fuses.blank

end Sys2Proof.Machine
end

