-- ==== Sys2Proof/Machine/Ops.lean ====
section
/-! DEFINITION. The named operations over the state: time, elements, planes, memory with poison, tasks and activations,
raising a trap, taking it and returning from it, and sending result tokens. -/
namespace Sys2Proof.Machine

abbrev Out := Host.Outcome State Fault Refusal

/-! ### Time (R6, R24, R62, R161, R235) -/

/-- Elapsed units in one microsecond; a unit is 5 ns / 27,720, so that every clock step of R24 is a whole number.
DEDUCED (log entry 13). -/
def unitsPerUs : Nat := 5544000
/-- Units in one row-clock cycle of 300 MHz (R6). DEDUCED (log entry 13). -/
def unitsPerRow : Nat := 18480
/-- Units in one fabric cycle at clock step `st`: 2.4 GHz - st * 200 MHz (R24). DEDUCED (log entry 13). -/
def unitsPerCycle (st : Nat) : Nat := 27720 / (12 - st)
/-- Package time in microseconds (R62). DEDUCED (log entry 13). -/
def State.us (s : State) : Nat := s.units / unitsPerUs
/-- PG_ROWCLK.COUNT (R161). DEDUCED (log entry 13). -/
def State.rowClk (s : State) : Nat := s.units / unitsPerRow
/-- At least `n` microseconds have passed since elapsed time `t`. DESIGN CHOICE (log entry 14). -/
def State.passed (s : State) (t n : Nat) : Bool := t + n * unitsPerUs ≤ s.units
/-- The ROM takes the boot source that BOOT_CFG.SRC selects and begins to load (R48, R49). DEDUCED (log entry 71). -/
def Boot.enter (b : Boot) : Boot := if b.state = 0 then { b with state := 1, trying := b.src } else b
/-- One fabric cycle passes: the per-cycle limits of acceptance, issue and links start afresh (R98, R113, R115).
DEDUCED (log entry 13). -/
def State.tick (s : State) : State :=
  { s with boot := s.boot.enter, cycles := s.cycles + 1, units := s.units + unitsPerCycle s.pow.step.toNat, busy := [], turns := [] }

/-- Whether the per-cycle resource `k` is used in this cycle. -/
def State.isBusy (s : State) (k : Nat) : Bool := s.busy.contains k
def State.use (s : State) (k : Nat) : State := { s with busy := k :: s.busy }
def busyAccept (e : Nat) : Nat := e * 16
def busyIssue (e : Nat) : Nat := e * 16 + 1
def busyLink (e d : Nat) : Nat := e * 16 + 2 + d
/-- The drain node of an element has sent its token of the cycle (R130). -/
def busyDrain (e : Nat) : Nat := e * 16 + 8
/-- The west edge of an array has taken its row of the cycle (R127). -/
def busyRow (k : Nat) : Nat := 2 ^ 20 + k * 256
/-- Row bus or column bus `i` of an array has delivered its token of the cycle (R125). -/
def busyBus (k : Nat) (col : Bool) (i : Nat) : Nat := 2 ^ 20 + k * 256 + 1 + i + (if col then 64 else 0)

/-- The rank of a write: element, then context, then node; the package's own agents follow all elements (R348). -/
def Issue.rank (i : Issue) : Nat := i.elem * 4096 + i.ctx * 64 + i.f.node
def agentRank : Nat := 2 ^ 32
/-- One address space holds the local memory and the domain windows. -/
def PlaceKind.space : PlaceKind → Nat
  | .global | .domain => 0
  | .buffer => 1
  | .scratch => 2
/-- The space number under which `State.turns` names user queues. -/
def queueSpace : Nat := 3
/-- A write of rank `rank` takes place on a range in this cycle. -/
def State.noteTurn (s : State) (space a n rank : Nat) : State := { s with turns := { space := space, addr := a, len := n, rank := rank } :: s.turns }
/-- No write that follows one of rank `rank` has reached the range in this cycle (R348). -/
def State.turnOk (s : State) (space a n rank : Nat) : Bool :=
  s.turns.all fun t => t.space != space || decide (t.addr + t.len ≤ a) || decide (a + n ≤ t.addr) || decide (t.rank ≤ rank)

/-! ### Open values (log entry 2) -/

/-- The next free value, and the state with the counter advanced. DESIGN CHOICE (log entry 2). -/
def State.free (s : State) : Val × State := (Config.freeValue s.fresh, { s with fresh := s.fresh + 1 })
/-- The next free choice among `n` outcomes, and the state with the counter advanced. DESIGN CHOICE (log entry 2). -/
def State.choose (s : State) (n : Nat) : Nat × State := (Config.freeChoice s.fresh % n, { s with fresh := s.fresh + 1 })

/-- DESIGN CHOICE (log entries 3, 14). -/
def State.emitOut (s : State) (o : Output) : State := { s with out := s.out ++ [o] }

/-! ### Elements (R7, R11, R75) -/

/-- Package coordinates of an element (R75). -/
def elemX (e : Nat) : Nat := e % 64 + 64 * (e / 4096 % 2)
def elemY (e : Nat) : Nat := e / 64 % 64 + 64 * (e / 4096 / 2)
/-- The element at package coordinates (R7, R75). -/
def elemAt (x y : Nat) : Nat := (x / 64 + 2 * (y / 64)) * 4096 + y % 64 * 64 + x % 64
/-- The bed of an element, as q * 64 + b (R11). -/
def bedOf (e : Nat) : Nat := e / 4096 * 64 + e / 64 % 64 / 8 * 8 + e % 64 / 8
/-- The 64 elements of a bed in bed-local order ey * 8 + ex (R162). -/
def bedElems (bed : Nat) : List Nat :=
  (List.range 64).map fun i => bed / 64 * 4096 + (bed % 64 / 8 * 8 + i / 8) * 64 + bed % 8 * 8 + i % 8
/-- The 64-byte memory port of an element, as bed * 2 + port (R155). -/
def State.memPort (s : State) (e : Nat) : Nat :=
  let k := bedOf e * 2 + (if e % 8 < 4 then 0 else 1)
  if Tab.getD s.fab.portOut k false then bedOf e * 2 + (1 - k % 2) else k

/-- DESIGN CHOICE (log entry 65). -/
def ctxKey (e c : Nat) : Nat := e * 4 + c
/-- DESIGN CHOICE (log entry 65). -/
def nodeKey (aid e n : Nat) : Nat := (aid * 16384 + e) * 64 + n
def State.ctx (s : State) (e c : Nat) : CtxSt := Tab.getD s.fab.ctxs (ctxKey e c) .new
/-- The results of a context that have not left, the earliest first (R116). -/
def CtxSt.outs (x : CtxSt) : List OutLatch := x.latch.toList ++ x.flow
def CtxSt.withOuts (x : CtxSt) (ls : List OutLatch) : CtxSt := { x with latch := ls.head?, flow := ls.drop 1 }
/-- Insert a result behind those that are ready no later (R116). -/
def outIn (l : OutLatch) : List OutLatch → List OutLatch
  | [] => [l]
  | x :: r => if l.readyAt < x.readyAt then l :: x :: r else x :: outIn l r
/-- A result is under way to the output latch (R116). -/
def CtxSt.push (x : CtxSt) (l : OutLatch) : CtxSt := x.withOuts (outIn l x.outs)
/-- The results that `p` picks are gone. -/
def CtxSt.dropOuts (x : CtxSt) (p : OutLatch → Bool) : CtxSt := x.withOuts (x.outs.filter fun l => !p l)
/-- The output latch holds a result or a waiting form (R115). -/
def CtxSt.holds (x : CtxSt) (now : Nat) : Bool := x.outs.any fun l => l.waits || decide (l.readyAt ≤ now)
def State.setFab (s : State) (f : Fabric) : State := { s with fab := f }
def State.setTsk (s : State) (t : Tasks) : State := { s with tsk := t }
def State.setMem (s : State) (m : Memory) : State := { s with mem := m }
def State.setEng (s : State) (x : Engines) : State := { s with eng := x }
def State.setErr (s : State) (x : Errors) : State := { s with err := x }
def State.setLnk (s : State) (x : Links) : State := { s with lnk := x }
def State.setQue (s : State) (x : Queues) : State := { s with que := x }
def State.setSch (s : State) (x : Sched) : State := { s with sch := x }
def State.setCtx (s : State) (e c : Nat) (v : CtxSt) : State :=
  s.setFab { s.fab with ctxs := Tab.set s.fab.ctxs (ctxKey e c) v }
def State.nodeSt (s : State) (aid e n : Nat) : NodeSt := Tab.getD s.fab.nodes (nodeKey aid e n) .new
def State.setNodeSt (s : State) (aid e n : Nat) (v : NodeSt) : State :=
  s.setFab { s.fab with nodes := Tab.set s.fab.nodes (nodeKey aid e n) v }

/-! ### Bytes and poison marks (R1, R228) -/

/-- `n` bytes from address `a`; an unlisted byte reads 0. DESIGN CHOICE (log entry 5). -/
def readCells (m : List Host.Cell) (a n : Nat) : List Byte := (List.range n).map fun i => Tab.getD m (a + i) 0
/-- Write bytes from address `a`, keeping the canonical form. DESIGN CHOICE (log entry 5). -/
def writeCells (m : List Host.Cell) (a : Nat) : List Byte → List Host.Cell
  | [] => m
  | b :: r => writeCells (Tab.put 0 m a b) (a + 1) r
/-- Whether a part of the `n` bytes from `a` carries a poison mark. DESIGN CHOICE (log entry 5). -/
def anyPois (t : Tab Bool) (a n : Nat) : Bool :=
  (List.range (n / 16 + 2)).any fun i => decide ((a / 16 + i) * 16 < a + n) && Tab.getD t (a / 16 + i) false
/-- A write of `n` bytes from `a` sets, or clears, the mark of every part it covers whole (R228); `pois` sets every part it touches. -/
def markPois (t : Tab Bool) (a n : Nat) (pois : Bool) : Tab Bool :=
  (List.range (n / 16 + 2)).foldl (fun t i =>
    let k := a / 16 + i
    if k * 16 < a + n then
      if pois then Tab.put false t k true
      else if a ≤ k * 16 ∧ k * 16 + 16 ≤ a + n then Tab.put false t k false else t
    else t) t

/-! ### Context stores and mode words (R96) -/

def State.storeBytes (s : State) (e c off n : Nat) : List Byte := readCells s.fab.store (e * 4096 + c * 1024 + off) n
def State.modeWord (s : State) (e c : Nat) : Nat := ofBytes (s.storeBytes e c 0x380 4)
/-- The 16-bit port table entry of a node (R96). -/
def State.portEntry (s : State) (e c n : Nat) : Nat := ofBytes (s.storeBytes e c (0x300 + 2 * n) 2)
/-- The record of a node as an instruction (R96, R237). -/
def State.instrAt (s : State) (e c n : Nat) : Except DecodeError Instr := decode (s.storeBytes e c (12 * n) 12)
/-- The opcode and fields of a node's record. -/
def State.recAt (s : State) (e c n : Nat) : Option (Nat × NodeRec) :=
  match s.instrAt e c n with
  | .ok i => i.node?
  | .error _ => none

/-! ### Planes (R76, R250, R251, R255 to R257, R352) -/

def bytesAt (bs : List Byte) (off n : Nat) : Nat := ofBytes ((bs.drop off).take n)
def Plane.le (p : Plane) (off n : Nat) : Nat := bytesAt p.common off n
def Plane.nblk (p : Plane) : Nat := p.le 6 2
def Plane.wb (p : Plane) : Nat := field (p.le 8 4) 3 0 + 1
def Plane.hb (p : Plane) : Nat := field (p.le 8 4) 7 4 + 1
def Plane.ox (p : Plane) : Nat := field (p.le 8 4) 14 8
def Plane.oy (p : Plane) : Nat := field (p.le 8 4) 22 15
def Plane.fixed (p : Plane) : Bool := bit (p.le 8 4) 23
def Plane.nthrMax (p : Plane) : Nat := p.le 12 4
/-- The four PATTERN bits of bed `i` of the rectangle (R76). -/
def Plane.pattern (p : Plane) (i : Nat) : Nat := p.le (16 + i / 2) 1 / 16 ^ (i % 2) % 16
def Plane.secOff (p : Plane) (k : Nat) : Nat := p.le (0x90 + 8 * k) 4
def Plane.secCnt (p : Plane) (k : Nat) : Nat := p.le (0x94 + 8 * k) 4
/-- Role extent in KiB of the element at rectangle position `i` (R152). -/
def Plane.role (p : Plane) (i : Nat) : Nat := p.le (p.secOff 0 + i) 1
def Plane.argMap (p : Plane) (i : Nat) : Nat := p.le (p.secOff 1 + 4 * i) 4
def Plane.route (p : Plane) (i : Nat) : Nat := p.le (p.secOff 2 + 4 * i) 4
def Plane.stream (p : Plane) (i : Nat) : Nat := p.le (p.secOff 3 + 16 * i) 16
def Plane.blockRec (p : Plane) (i : Nat) : Nat := p.le (p.secOff 4 + 24 * i) 24
def Plane.nodeEntry (p : Plane) (i : Nat) : Nat := p.le (p.secOff 5 + 4 * i) 4
def Plane.w (p : Plane) : Nat := p.wb * 8
def Plane.h (p : Plane) : Nat := p.hb * 8
/-- Fields of a block header (R250). -/
def hdrSmask (b : Nat) : Nat := field b 31 0
def hdrCread (b : Nat) : Nat := field b 95 32
def hdrCwrite (b : Nat) : Nat := field b 159 96
def hdrNcount (b : Nat) : Nat := field b 167 160
def hdrNodeOff (b : Nat) : Nat := field b 182 168
def hdrTask (b : Nat) : Bool := bit b 183
def hdrTmr (b : Nat) : Bool := bit b 184
def hdrNrep (b : Nat) : Nat := field b 191 185
/-- Fields of a node-list entry (R251). -/
def neX (n : Nat) : Nat := field n 6 0
def neY (n : Nat) : Nat := field n 13 7
def neNode (n : Nat) : Nat := field n 19 14
def neEntry (n : Nat) : Bool := bit n 20
def nePort (n : Nat) : Option PortName := PortName.ofCode (field n 22 21)
/-- The node-list entries of block `k` (R251). -/
def Plane.blockNodes (p : Plane) (k : Nat) : List Nat :=
  let b := p.blockRec k
  (List.range (hdrNcount b)).map fun i => p.nodeEntry (hdrNodeOff b + i)

def State.plane? (s : State) (n : Nat) : Option Plane := Tab.find s.que.planes n

/-! ### Tasks, threads and activations -/

def State.task? (s : State) (tid : Nat) : Option Task := Tab.find s.tsk.tasks tid
def State.thread? (s : State) (t : Nat) : Option Thread := Tab.find s.tsk.threads t
def State.act? (s : State) (a : Nat) : Option Act := Tab.find s.tsk.acts a
def State.setTask (s : State) (tid : Nat) (t : Task) : State := s.setTsk { s.tsk with tasks := Tab.set s.tsk.tasks tid t }
def State.setThread (s : State) (n : Nat) (t : Thread) : State := s.setTsk { s.tsk with threads := Tab.set s.tsk.threads n t }
def State.setAct (s : State) (a : Nat) (x : Act) : State := s.setTsk { s.tsk with acts := Tab.set s.tsk.acts a x }
def State.updTask (s : State) (tid : Nat) (f : Task → Task) : State :=
  match s.task? tid with
  | some t => s.setTask tid (f t)
  | none => s
def State.updThread (s : State) (n : Nat) (f : Thread → Thread) : State :=
  match s.thread? n with
  | some t => s.setThread n (f t)
  | none => s
def State.updAct (s : State) (a : Nat) (f : Act → Act) : State :=
  match s.act? a with
  | some x => s.setAct a (f x)
  | none => s

/-- The north-west element's package coordinates of a region, in elements. -/
def Task.x0 (t : Task) : Nat := t.ox * 8
def Task.y0 (t : Task) : Nat := t.oy * 8
def Task.w (t : Task) : Nat := t.wb * 8
def Task.h (t : Task) : Nat := t.hb * 8
def Task.contains (t : Task) (e : Nat) : Bool :=
  t.x0 ≤ elemX e && elemX e < t.x0 + t.w && t.y0 ≤ elemY e && elemY e < t.y0 + t.h
/-- The element at region-relative coordinates. -/
def Task.elem (t : Task) (x y : Nat) : Nat := elemAt (t.x0 + x) (t.y0 + y)
/-- Row-major position of an element in the region. -/
def Task.pos (t : Task) (e : Nat) : Nat := (elemY e - t.y0) * t.w + (elemX e - t.x0)
def Task.elems (t : Task) : List Nat :=
  (List.range (t.w * t.h)).map fun i => t.elem (i % t.w) (i / t.w)
def Task.plane? (t : Task) (c : Nat) : Option Resident := t.planes.find? fun r => r.ctx == c
/-- The plane resident in a context of a task, by its per-context table (R255). -/
def State.planeAt (_s : State) (t : Task) (c : Nat) : Option Plane := (t.plane? c).map (·.table)
/-- The plane of an activation, by the table of its context (R255). -/
def State.planeOfAct (s : State) (a : Act) : Option Plane := (s.task? a.tid).bind fun t => s.planeAt t a.ctx

/-- Oldest activation in flight of a thread. -/
def Thread.oldest (t : Thread) : Option Nat := t.acts.head?
/-- Whether an activation is the oldest in flight in its thread (R172). -/
def State.isOldest (s : State) (aid : Nat) : Bool :=
  match s.act? aid with
  | some a =>
    match s.thread? a.thread with
    | some t => t.oldest == some aid
    | none => false
  | none => false
/-- The live activation of a task's context with an iteration tag (R102). -/
def State.actFor (s : State) (tid c iter : Nat) : Option Nat :=
  (s.tsk.acts.find? fun (_, a) => a.tid == tid && a.ctx == c && a.iter == iter && !a.dead).map (·.1)
/-- The task, activation and thread of an issuing firing. -/
def State.issTask (s : State) (i : Issue) : Option (Nat × Task) :=
  (s.act? i.f.aid).bind fun a => (s.task? a.tid).map fun t => (a.tid, t)
def State.issAsid (s : State) (i : Issue) : Nat := ((s.issTask i).map fun p => p.2.asid).getD 0

/-- Record a node firing of an activation (R320, R335, R336). -/
def State.noteFired (s : State) (i : Issue) (nonNull : Bool) : State :=
  s.updAct i.f.aid fun a => { a with fired := a.fired ++ [{ node := i.elem * 64 + i.f.node, live := nonNull, trig := i.f.trig }] }

/-! ### Role areas (R152) -/

/-- Role extent in bytes of a context's area in an element. -/
def State.extent (s : State) (e c : Nat) : Nat :=
  match (s.ctx e c).owner with
  | none => 0
  | some tid =>
    match s.task? tid with
    | none => 0
    | some t =>
      match s.planeAt t c with
      | none => 0
      | some p => p.role (t.pos e) * 1024
/-- Bank role code of a context (R96, R152). -/
def State.roleCode (s : State) (e c : Nat) : Nat := field (s.modeWord e c) 5 4
def bankKey (e c off : Nat) : Nat := ctxKey e c * 65536 + off

/-! ### Raising a trap (R211, R212, R213, R217, R218) -/

/-- Trap codes (R218). -/
def trapEdgeOrder : Nat := 1
def trapMatchFull : Nat := 2
def trapDeadlock : Nat := 3
def trapPoison : Nat := 4
def trapEmptyNode : Nat := 5
def trapLsidRefire : Nat := 6
def trapAlign : Nat := 7
def trapBufRange : Nat := 8
def trapSpRange : Nat := 9
def trapPgRange : Nat := 10
def trapPageFault : Nat := 11
def trapProtFault : Nat := 12
def trapPteBad : Nat := 13
def trapFmtMismatch : Nat := 14
def trapRowEarly : Nat := 15
def trapRowClosed : Nat := 16
def trapRowWindow : Nat := 17
def trapBankRetired : Nat := 18
def trapRowRemap : Nat := 19
def trapNmRange : Nat := 20
def trapDomainRange : Nat := 21
def trapMxState : Nat := 22
def trapFctState : Nat := 23
def trapFctSingular : Nat := 24
def trapGrowthLimit : Nat := 25
def trapVoteNone : Nat := 26
def trapCollTimeout : Nat := 27
def trapSysAccess : Nat := 28
def trapBreakpoint : Nat := 29
def trapUser : Nat := 30
def trapElemLost : Nat := 31

/-- A trap as a firing raises it: code, INFO and ADDR, the port where the code names one, the LSID of a memory node. -/
structure Trap where
  code : Nat
  info : W64 := 0
  addr : W64 := 0
  port : Nat := 0
  lsid : Nat := 0
  path : List W32 := []
  deriving DecidableEq, Repr

/-- The record of a trap raised at a node of an activation, by a firing if one raised it (R217). -/
def State.trapRec (s : State) (aid elem node : Nat) (t : Trap) (f : Option Firing := none) : TrapRec :=
  let a := s.act? aid
  let tid := (a.map (·.tid)).getD 0
  { tid := tid, code := t.code, asid := ((s.task? tid).map (·.asid)).getD 0, thread := (a.map (·.thread)).getD 0,
    ctx := (a.map (·.ctx)).getD 0, iter := (a.map (·.iter)).getD 0, node := node, port := t.port, lsid := t.lsid,
    plane := (a.map (·.plane)).getD 0, block := (a.map (·.block)).getD 0, elem := elem, addr := t.addr, info := t.info,
    path := t.path, cycle := s.cycles, firing := f }

/-- Count discarded traps in ERR_STAT.TRAPLOST (R212). -/
def State.trapLost (s : State) (n : Nat) : State :=
  s.setErr { s.err with trapLost := BitVec.ofNat 8 (min 255 (s.err.trapLost.toNat + n)) }

/-- Which of two traps of one cycle is taken first: lowest element, then context, then node (R212). -/
def TrapRec.before (x y : TrapRec) : Bool :=
  x.elem < y.elem || x.elem == y.elem && (x.ctx < y.ctx || x.ctx == y.ctx && x.node < y.node)

/-- The same firing of a node, as a replay repeats it (R213): same activation, node and operand intervals. -/
def sameFiring (x y : Option Firing) : Bool :=
  match x, y with
  | some f, some g => f.aid == g.aid && f.node == g.node && f.lo == g.lo && f.hi == g.hi && f.alo == g.alo && f.ahi == g.ahi
  | _, _ => false
/-- Raise a trap at an activation (R211 to R213). The first raised is kept until the activation is the oldest; the others
are counted, but one that a replayed firing raises again is dropped. A trap of a committed activation goes to the Lodge. -/
def State.raiseAt (s : State) (aid elem node : Nat) (t : Trap) (f : Option Firing := none) : State :=
  let r := s.trapRec aid elem node t f
  match s.act? aid with
  | none => s
  | some a =>
    if a.dead then s
    else if a.committed then s.setTsk { s.tsk with lodgeQueue := s.tsk.lodgeQueue ++ [r] }
    else
      match a.trap with
      | none => s.setAct aid { a with trap := some r }
      | some old =>
        if old.node = r.node ∧ old.elem = r.elem ∧ old.code = r.code ∧ f.isSome ∧ sameFiring old.firing f then s
        else if old.cycle = r.cycle ∧ r.before old then (s.setAct aid { a with trap := some r }).trapLost 1
        else s.trapLost 1

/-- The helper trap() of R261 for an issuing firing; one that replay repeats has raised its trap before (R223). -/
def State.raise (s : State) (i : Issue) (t : Trap) : State := if i.f.again then s else s.raiseAt i.f.aid i.elem i.f.node t (some i.f)

/-! ### Sending tokens (R99, R242) -/

/-- Interval bound of an open-ended interval (R3). -/
def infTick : Nat := 0xFFFFFFFF

def Pay.scalar (x : Nat) : Pay := { val := BitVec.ofNat 512 (x % 2 ^ 64), vec := false, null := false, pois := false, psrc := 0 }
def Pay.vector (x : Nat) : Pay := { val := BitVec.ofNat 512 x, vec := true, null := false, pois := false, psrc := 0 }
def Pay.ofBytes (v : Bool) (bs : List Byte) : Pay :=
  { val := BitVec.ofNat 512 (Sys2Proof.ofBytes bs), vec := v, null := false, pois := false, psrc := 0 }
def Pay.mkNull : Pay := { val := 0, vec := false, null := true, pois := false, psrc := 0 }
def Pay.poisoned (x : Pay) (src : BitVec 3) : Pay := { x with pois := true, psrc := src }
/-- What a load at address `a` read, which a POISON that it raises will name (R218). -/
def Pay.readAt (x : Pay) (a : Nat) : Pay := if x.pois then { x with paddr := BitVec.ofNat 64 a } else x
/-- The completion token's payload: a scalar pred 1 (R334). -/
def Pay.done : Pay := .scalar 1

/-- The producer code of an edge: a node's destination, or a stream port. DEDUCED (log entry 28); DESIGN CHOICE (log entry 65). -/
def edgeSrc (e c n i : Nat) : Nat := (ctxKey e c * 64 + n) * 2 + i
/-- DESIGN CHOICE (log entry 65). -/
def streamSrc (tid c port : Nat) : Nat := 2 ^ 24 + (tid * 4 + c) * 256 + port

/-- The element a destination names, as placed (R78, R242, R256). -/
def State.destElem (s : State) (e c : Nat) : Dest → Option (Nat × Nat × PortName)
  | .relative dx dy n p =>
    some (elemAt ((elemX e : Int) + dx.toInt).toNat ((elemY e : Int) + dy.toInt).toNat, n.toNat, p)
  | .far i n p =>
    (s.ctx e c).owner.bind fun tid =>
    (s.task? tid).bind fun t =>
    (s.planeAt t c).map fun pl =>
      let r := pl.route i.toNat
      let tx := field r 6 0
      let ty := field r 13 7
      if bit r 14 then (elemAt (tx + t.x0 - pl.ox * 8) (ty + t.y0 - pl.oy * 8), n.toNat, p) else (elemAt tx ty, n.toNat, p)
  | _ => none

/-! ### Where stream ports lie (R352) -/

/-- Position of the FIFO element in the region. -/
def spFx (x : Nat) : Nat := field x 19 13
def spFy (x : Nat) : Nat := field x 26 20
/-- A port of a task's plane: the task, the plane and the entry. -/
def State.streamPort (s : State) (tid c port : Nat) : Option (Task × Plane × Nat) :=
  (s.task? tid).bind fun t => (s.planeAt t c).bind fun pl =>
    if port < pl.secCnt 3 then some (t, pl, pl.stream port) else none

/-- Entries of the FIFO area that a port holds: equal shares, the lower-numbered ports taking the remainder (R352). -/
def fifoShare (pl : Plane) (entries port : Nat) : Nat :=
  let x := pl.stream port
  let ps := (List.range (pl.secCnt 3)).filter fun k => spFx (pl.stream k) == spFx x && spFy (pl.stream k) == spFy x
  entries / ps.length + b2n (decide ((ps.filter fun k => decide (k < port)).length < entries % ps.length))

/-- A token to stream port `k` names node 64 + `k` of the FIFO element. DESIGN CHOICE (log entry 65). -/
def portNode (k : Nat) : Nat := 64 + k
/-- Where a destination's token goes: the element, the node and the port; a stream port's tokens go to its FIFO element (R242,
R352). DEDUCED (log entry 51). -/
def State.target (s : State) (e c : Nat) : Dest → Option (Nat × Nat × PortName)
  | .port k =>
    (s.ctx e c).owner.bind fun tid => (s.streamPort tid c k.toNat).map fun (t, _, x) => (t.elem (spFx x) (spFy x), portNode k.toNat, .a)
  | d => s.destElem e c d

/-- The next SEQ of an edge, and the state with it advanced (R99). DEDUCED (log entry 28). -/
def State.nextSeq (s : State) (src : Nat) : BitVec 8 × State :=
  let q := Tab.getD s.fab.seqOut src 0
  (q, s.setFab { s.fab with seqOut := Tab.set s.fab.seqOut src (q + 1) })

/-- Put a token on the way from element `e` to a node port (R98, R242). -/
def State.launchTok (s : State) (e target src : Nat) (b : Beat) (iter c n : Nat) (p : PortName) (bid : Option Nat := none) : State :=
  let (q, s) := s.nextSeq src
  let tok : Token := { lo := b.lo, hi := b.hi, pay := b.pay, front := b.front, iter := iter, ctx := c, node := n, port := p,
                       seq := q, src := src }
  s.setFab { s.fab with net := s.fab.net ++ [{ tok := tok, at_ := e, dir := 0, target := target, moved := s.cycles, bid := bid }] }

/-- Positions of a binding (R354). -/
def Binding.total (b : Binding) : Nat := b.counts.foldl (fun n c => n * c) 1
/-- An open write binding that still takes tokens (R355). -/
def Binding.takes (b : Binding) : Bool :=
  b.write && !b.released && !b.faulted && b.tell.isNone && decide (b.next + b.inputs.length < b.total)

/-- Send one beat to destination `i` of a node (R242). -/
def State.sendDest (s : State) (e c n i : Nat) (d : Dest) (aid : Nat) (b : Beat) : State :=
  let iter := ((s.act? aid).map (·.iter)).getD 0
  match d with
  | .none => s
  | d =>
    match s.target e c d with
    | none => s
    | some (target, n', p) => s.launchTok e target (edgeSrc e c n i) b iter c n' p

/-- Send one beat to both destinations that it names (R242). -/
def State.sendBeat (s : State) (e c n : Nat) (r : NodeRec) (aid : Nat) (b : Beat) : State :=
  let s := if b.to0 then s.sendDest e c n 0 r.dst0 aid b else s
  if b.to1 then s.sendDest e c n 1 r.dst1 aid b else s

/-- A beat to both destinations over an interval. -/
def Beat.both (p : Pay) (lo hi : Nat) : Beat := { pay := p, lo := lo, hi := hi, front := false, to0 := true, to1 := true }
/-- A FRONT token to both destinations (R99). -/
def Beat.frontier (lo : Nat) : Beat := { pay := .mkNull, lo := lo, hi := 0, front := true, to0 := true, to1 := true }

/-- Send the result of an engine form when its work is done (R334, R351, R373), over the firing's interval.
DEDUCED (log entry 24). -/
def State.reply (s : State) (i : Issue) (r : NodeRec) (p : Pay) : State :=
  s.sendBeat i.elem i.ctx i.f.node r i.f.aid (.both p i.f.lo i.f.hi)

/-- The record a node form carries. -/
def Instr.record (i : Instr) : NodeRec :=
  (i.node?.map (·.2)).getD
    { fmt := 0, gapA := .refuse, gapB := .refuse, pm := .none, aux := 0, lit := false, v := false, dst0 := .none,
      dst1 := .none, lit32 := 0 }

/-- Bindings that wait for one of the port's four places, which a released one holds no longer, take it, and their SBINDs complete (R353), but
for one whose token waits for the binding's writes (R182). -/
def State.openBindings (s : State) : State :=
  (s.eng.bindings.filter fun b => b.tell.isSome).foldl (fun s b =>
    let live := s.eng.bindings.filter fun x => x.tell.isNone && !x.released && x.tid == b.tid && x.ctx == b.ctx && x.port == b.port
    match b.tell with
    | none => s
    | some (i, ins) =>
      if 4 ≤ live.length then s else
      let s := s.setEng { s.eng with bindings := s.eng.bindings.map fun x => if x.bid = b.bid then { x with tell := none } else x }
      if b.owed.isSome then s else s.reply i (Instr.record ins) .done) s

end Sys2Proof.Machine
end

