-- ==== Sys2Proof/Machine/Flags.lean ====
section
/-! DEFINITION. The floating-point flags of an element context (R205): their masks, how a firing sets them, how software
clears them. -/
namespace Sys2Proof.Machine

def flagNV : Nat := 1
def flagDZ : Nat := 2
def flagOF : Nat := 4
def flagUF : Nat := 8
def flagNX : Nat := 16
def flagQLOW : Nat := 32

/-- Flags are sticky: a firing that issues ORs its flags into FP_STAT (R205). -/
def State.setFlags (s : State) (e c fl : Nat) : State :=
  let x := s.ctx e c
  s.setCtx e c { x with fpStat := x.fpStat ||| BitVec.ofNat 6 fl }

/-- A SYSWR of FP_STAT clears the flags where the value has ones (R4, R205). -/
def State.clearFlags (s : State) (e c : Nat) (v : W64) : State :=
  let x := s.ctx e c
  s.setCtx e c { x with fpStat := x.fpStat &&& ~~~ (BitVec.ofNat 6 v.toNat) }

/-- Seed the generator of a context; 0 is stored as 0x9E37_79B9 (R204, R298). -/
def State.seed (s : State) (e c : Nat) (v : W32) : State :=
  let x := s.ctx e c
  let g : W32 := if v = 0 then 0x9E3779B9 else v
  s.setCtx e c { x with gen := g, lastSeed := g }
/-- A replay of tokens that came before a seed that SYSWR has set starts from that seed: the SYSWR is not repeated (R223).
DEDUCED (log entry 49). -/
def State.keepSeed (s : State) (e c : Nat) : State :=
  s.setFab { s.fab with hist := s.fab.hist.map fun (k, hs) =>
    (k, if k = e then hs.map fun h => if h.tok.ctx = c then { h with gen := (s.ctx e c).gen } else h else hs) }

end Sys2Proof.Machine
end

