-- ==== Sys2Proof/Machine/Float.lean ====
section
/-! DEFINITION. Floating-point values, exact arithmetic and the one rounding of R192 to R208. Codes and flag masks are
natural numbers; a result is a code with the flags its rounding sets. -/
namespace Sys2Proof.Machine

/-- Mantissa width (R192). -/
def fltM : Nat → Nat
  | 0 => 23
  | 1 => 10
  | 2 => 7
  | 3 => 3
  | 4 => 2
  | _ => 1
/-- Exponent width (R192). -/
def fltE : Nat → Nat
  | 0 => 8
  | 1 => 5
  | 2 => 8
  | 3 => 4
  | 4 => 5
  | _ => 2
/-- Bias (R192). -/
def fltBias : Nat → Int
  | 0 => 127
  | 1 => 15
  | 2 => 127
  | 3 => 7
  | 4 => 15
  | _ => 1
/-- Whether the format has infinities (R192). -/
def fltHasInf (f : Nat) : Bool := f ≤ 2 || f == 4
/-- Exponent of the smallest normal (R192). -/
def fltEmin (f : Nat) : Int := 1 - fltBias f
/-- Exponent of the largest finite magnitude (R192). -/
def fltEmax (f : Nat) : Int := if fltHasInf f then fltBias f else if f = 3 then 8 else 2
/-- Integer significand of the largest finite magnitude, at mantissa width (R192). -/
def fltMaxSig (f : Nat) : Nat := if f = 3 then 14 else 2 ^ (fltM f + 1) - 1
/-- The canonical NaN (R194); e2m1 has none and delivers +0 (R201). -/
def fltNan : Nat → Nat
  | 0 => 0x7FC00000
  | 1 => 0x7E00
  | 2 => 0x7FC0
  | 3 => 0x7F
  | 4 => 0x7E
  | _ => 0
def fltSign (f : Nat) (neg : Bool) : Nat := if neg then 2 ^ (fltWidth f - 1) else 0
/-- The code of ±Max. -/
def fltMax (f : Nat) (neg : Bool) : Nat :=
  fltSign f neg + (fltEmax f + fltBias f).toNat * 2 ^ fltM f + (fltMaxSig f - 2 ^ fltM f)
/-- The code of ±∞ where the format has one. -/
def fltInf (f : Nat) (neg : Bool) : Nat := fltSign f neg + (2 ^ fltE f - 1) * 2 ^ fltM f

/-- A floating-point value: a NaN, an infinity, or the exact value (-1)^neg * m * 2^e (R193). -/
inductive FV where
  | nan (signalling : Bool)
  | inf (neg : Bool)
  | fin (neg : Bool) (m : Nat) (e : Int)
  deriving DecidableEq, Repr

/-- The value of a code (R192 to R194). -/
def decodeF (f x : Nat) : FV :=
  let mw := fltM f
  let m := x % 2 ^ mw
  let e := x / 2 ^ mw % 2 ^ fltE f
  let neg := bit x (fltWidth f - 1)
  if fltHasInf f && e == 2 ^ fltE f - 1 then
    if m = 0 then .inf neg else .nan (m < 2 ^ (mw - 1))
  else if f = 3 ∧ e = 15 ∧ m = 7 then .nan false
  else if e = 0 then .fin neg m (fltEmin f - mw)
  else .fin neg (2 ^ mw + m) ((e : Int) - fltBias f - mw)

def FV.isNan : FV → Bool
  | .nan _ => true
  | _ => false
def FV.isSnan : FV → Bool
  | .nan s => s
  | _ => false
def FV.neg : FV → FV
  | .nan s => .nan s
  | .inf n => .inf (!n)
  | .fin n m e => .fin (!n) m e
def FV.sign : FV → Bool
  | .nan _ => false
  | .inf n => n
  | .fin n _ _ => n
def FV.isZero : FV → Bool
  | .fin _ 0 _ => true
  | _ => false
def FV.abs : FV → FV
  | .inf _ => .inf false
  | .fin _ m e => .fin false m e
  | x => x

/-- An exact result before rounding: NaN (with NV when invalid), an infinity (with its flags), or a number
(q + δ) * 2^e with 0 < δ < 1 exactly when `st`. -/
inductive Exact where
  | nan (flags : Nat)
  | inf (neg : Bool) (flags : Nat)
  | num (neg : Bool) (q : Nat) (e : Int) (st : Bool)
  deriving DecidableEq, Repr

/-- m * 2^k for an integer k, dropping bits below one. -/
def shiftI (m : Nat) (k : Int) : Nat := if 0 ≤ k then m * 2 ^ k.toNat else m / 2 ^ (-k).toNat

/-- Whether truncated significand `m` with remainder `rem` of `2^d` and sticky `st` rounds away from zero under mode `rm`
(R200: 0 RNE, 1 RTZ, 2 RDN, 3 RUP). -/
def roundsUp (rm : Nat) (neg : Bool) (m rem d : Nat) (st : Bool) : Bool :=
  let inexact := rem != 0 || st
  match rm with
  | 0 => d != 0 && (2 ^ d < 2 * rem || 2 * rem == 2 ^ d && (st || m % 2 == 1))
  | 1 => false
  | 2 => neg && inexact
  | _ => !neg && inexact

/-- The code of an infinite result: steps 4 and 5 of R201. -/
def deliverInf (f : Nat) (sat neg : Bool) : Nat :=
  if sat then fltMax f neg
  else if fltHasInf f then fltInf f neg
  else if f = 3 then fltNan 3
  else fltMax f neg

/-- A NaN result: canonical, or +0 with NV in e2m1 (R194, R201). -/
def deliverNan (f fl : Nat) : Nat × Nat := (fltNan f, if f = 5 then fl ||| flagNV else fl)

/-- Encode m * 2^u, where m fits the format's grid at exponent u; a carry out of the significand is taken up. -/
def encodeFin (f : Nat) (neg : Bool) (m : Nat) (u : Int) : Nat :=
  let mw := fltM f
  if m < 2 ^ mw then fltSign f neg + m
  else if m < 2 ^ (mw + 1) then fltSign f neg + (u + mw + fltBias f).toNat * 2 ^ mw + (m - 2 ^ mw)
  else fltSign f neg + (u + 1 + mw + fltBias f).toNat * 2 ^ mw + (m / 2 - 2 ^ mw)

/-- Whether m * 2^u exceeds Max (R192). -/
def exceedsMax (f m : Nat) (u : Int) : Bool :=
  let top := fltEmax f - fltM f
  if u ≥ top then decide (fltMaxSig f < m * 2 ^ (u - top).toNat) else decide (fltMaxSig f * 2 ^ (top - u).toNat < m)

/-- Bring a number to at least one significant bit above its sticky part. -/
def Exact.scale (q : Nat) (e : Int) (st : Bool) : Nat × Int × Bool :=
  if st then (q * 2 ^ 40 + 1, e - 40, st) else (q, e, st)

/-- Deliver a finite magnitude already truncated to significand `m` at exponent `u`, knowing whether it is inexact and
whether it is tiny after rounding: steps 3 to 5 of R201 with the flags of R205. -/
def deliverFin (f rm : Nat) (sat neg : Bool) (m : Nat) (u : Int) (inexact tiny : Bool) : Nat × Nat :=
  if exceedsMax f m u then
    let toMax := rm == 1 || rm == 2 && !neg || rm == 3 && neg
    (if toMax then fltMax f neg else deliverInf f sat neg, flagOF ||| flagNX)
  else
    (encodeFin f neg m u, (if inexact then flagNX else 0) ||| (if inexact && tiny then flagUF else 0))

/-- Exponent of the last place of the format's grid at a number with leading bit 2^top. -/
def gridExp (f : Nat) (top : Int) : Int := max (top - fltM f) (fltEmin f - fltM f)

/-- Round an exact result once into format `f` (R201, R202). -/
def roundF (f rm : Nat) (sat : Bool) : Exact → Nat × Nat
  | .nan fl => deliverNan f fl
  | .inf neg fl => (deliverInf f sat neg, fl)
  | .num neg q0 e0 st0 =>
    let (q, e, st) := Exact.scale q0 e0 st0
    if q = 0 then (fltSign f neg, 0) else
    let top : Int := e + Nat.log2 q
    let u := gridExp f top
    let d := (u - e).toNat
    let m := shiftI q (e - u)
    let rem := if u ≤ e then 0 else q % 2 ^ d
    let m' := if roundsUp rm neg m rem d st then m + 1 else m
    -- tininess after rounding: at the format's precision with no lower bound on the exponent
    let u1 := top - fltM f
    let d1 := (u1 - e).toNat
    let n := shiftI q (e - u1)
    let n' := if roundsUp rm neg n (if u1 ≤ e then 0 else q % 2 ^ d1) d1 st then n + 1 else n
    let tiny := top < fltEmin f && !(top == fltEmin f - 1 && n' == 2 ^ (fltM f + 1))
    deliverFin f rm sat neg m' u (rem != 0 || st) tiny

/-- One draw of the generator of R204: the 16-bit value and the next state. -/
def drawSR (g : W32) : Nat × W32 :=
  let a := g ^^^ (g <<< 13)
  let b := a ^^^ (a >>> 17)
  let c := b ^^^ (b <<< 5)
  ((c >>> 16).toNat, c)

/-- Round an exact result stochastically with drawn value `r` (R204). -/
def roundSR (f : Nat) (sat : Bool) (r : Nat) : Exact → Nat × Nat
  | .nan fl => deliverNan f fl
  | .inf neg fl => (deliverInf f sat neg, fl)
  | .num neg q0 e0 st0 =>
    let (q, e, st) := Exact.scale q0 e0 st0
    if q = 0 then (fltSign f neg, 0) else
    let u := gridExp f (e + Nat.log2 q)
    let d := (u - e).toNat
    let m := shiftI q (e - u)
    let rem := if u ≤ e then 0 else q % 2 ^ d
    let inexact := rem != 0 || st
    let m' := if inexact && decide (r < rem * 2 ^ 16 / 2 ^ d) then m + 1 else m
    deliverFin f 0 sat neg m' u inexact (decide (m' < 2 ^ fltM f))

/-! ### Exact arithmetic (R202, R282) -/

def FV.toExact : FV → Exact
  | .nan s => .nan (if s then flagNV else 0)
  | .inf n => .inf n 0
  | .fin n m e => .num n m e false

/-- Integer mantissa of a signed magnitude. -/
def sMant (neg : Bool) (m : Nat) : Int := if neg then -(m : Int) else m

/-- Sum of two exact finite values; the sign of an exact zero follows IEEE 754 (R202). -/
def addFin (rm : Nat) (n1 : Bool) (m1 : Nat) (e1 : Int) (n2 : Bool) (m2 : Nat) (e2 : Int) : Exact :=
  let e := min e1 e2
  let x := sMant n1 (m1 * 2 ^ (e1 - e).toNat) + sMant n2 (m2 * 2 ^ (e2 - e).toNat)
  if x = 0 then .num (if m1 = 0 ∧ m2 = 0 ∧ n1 = n2 then n1 else rm == 2) 0 0 false
  else .num (decide (x < 0)) x.natAbs e false

def nanFlags (xs : List FV) : Nat := if xs.any FV.isSnan then flagNV else 0

/-- x + y. -/
def addE (rm : Nat) (x y : FV) : Exact :=
  if x.isNan || y.isNan then .nan (nanFlags [x, y]) else
  match x, y with
  | .inf a, .inf b => if a = b then .inf a 0 else .nan flagNV
  | .inf a, _ => .inf a 0
  | _, .inf b => .inf b 0
  | .fin n1 m1 e1, .fin n2 m2 e2 => addFin rm n1 m1 e1 n2 m2 e2
  | _, _ => .nan 0

/-- x * y. -/
def mulE (x y : FV) : Exact :=
  if x.isNan || y.isNan then .nan (nanFlags [x, y]) else
  let neg := x.sign != y.sign
  match x, y with
  | .inf _, .fin _ m _ => if m = 0 then .nan flagNV else .inf neg 0
  | .fin _ m _, .inf _ => if m = 0 then .nan flagNV else .inf neg 0
  | .fin _ m1 e1, .fin _ m2 e2 => .num neg (m1 * m2) (e1 + e2) false
  | _, _ => .inf neg 0

/-- x * y + z, rounded nowhere. An invalid product sets NV whatever z is (R282, R205). -/
def fmaE (rm : Nat) (x y z : FV) : Exact :=
  match mulE x y with
  | .nan fl => .nan (fl ||| nanFlags [z])
  | .inf n fl =>
    match z with
    | .nan s => .nan (if s then flagNV else 0)
    | .inf b => if n = b then .inf n fl else .nan flagNV
    | _ => .inf n fl
  | .num n m e _ =>
    match z with
    | .nan s => .nan (if s then flagNV else 0)
    | .inf b => .inf b 0
    | .fin n2 m2 e2 => addFin rm n m e n2 m2 e2

/-- Quotient of two magnitudes to more than 100 significant bits, with its sticky part. -/
def divNat (neg : Bool) (m1 : Nat) (e1 : Int) (m2 : Nat) (e2 : Int) : Exact :=
  let k := Nat.log2 m2 + 110
  let q := m1 * 2 ^ k / m2
  .num neg q (e1 - e2 - k) (m1 * 2 ^ k % m2 != 0)

/-- x / y (R202, R289). -/
def divE (x y : FV) : Exact :=
  if x.isNan || y.isNan then .nan (nanFlags [x, y]) else
  let neg := x.sign != y.sign
  match x, y with
  | .inf _, .inf _ => .nan flagNV
  | .inf _, _ => .inf neg 0
  | _, .inf _ => .num neg 0 0 false
  | .fin _ m1 e1, .fin _ m2 e2 =>
    if m2 = 0 then (if m1 = 0 then .nan flagNV else .inf neg flagDZ)
    else if m1 = 0 then .num neg 0 0 false
    else divNat neg m1 e1 m2 e2
  | _, _ => .nan 0

/-- The integer square root, bit by bit from bit `n` down. -/
def isqrtGo (x : Nat) : Nat → Nat → Nat
  | 0, r => if (r + 1) * (r + 1) ≤ x then r + 1 else r
  | n + 1, r => isqrtGo x n (if (r + 2 ^ (n + 1)) * (r + 2 ^ (n + 1)) ≤ x then r + 2 ^ (n + 1) else r)
def isqrt (x : Nat) : Nat := isqrtGo x (Nat.log2 x / 2 + 1) 0

/-- Square root (R202, R289). -/
def sqrtE (x : FV) : Exact :=
  match x with
  | .nan s => .nan (if s then flagNV else 0)
  | .inf n => if n then .nan flagNV else .inf false 0
  | .fin n m e =>
    if m = 0 then .num n 0 0 false
    else if n then .nan flagNV
    else
      let m2 := if e % 2 = 0 then m else 2 * m
      let e2 := if e % 2 = 0 then e else e - 1
      let y := m2 * 2 ^ 120
      let q := isqrt y
      .num false q (e2 / 2 - 60) (q * q != y)

/-! ### Order and bit-exact selection (R283, R287) -/

/-- Compare two values that are no NaN: the sign of x - y, with -0 equal to +0. -/
def cmpFV (x y : FV) : Int :=
  match x, y with
  | .inf a, .inf b => if a = b then 0 else if a then -1 else 1
  | .inf a, _ => if a then -1 else 1
  | _, .inf b => if b then 1 else -1
  | .fin n1 m1 e1, .fin n2 m2 e2 =>
    let e := min e1 e2
    (sMant n1 (m1 * 2 ^ (e1 - e).toNat) - sMant n2 (m2 * 2 ^ (e2 - e).toNat)).sign
  | _, _ => 0

/-- FMIN and FMAX on codes (R283). -/
def minMaxF (f : Nat) (mx : Bool) (x y : Nat) : Nat × Nat :=
  let a := decodeF f x
  let b := decodeF f y
  let fl := nanFlags [a, b]
  if a.isNan && b.isNan then (fltNan f, fl)
  else if a.isNan then (y, fl)
  else if b.isNan then (x, fl)
  else
    let c := cmpFV a b
    let takeX := if mx then decide (0 < c) || c == 0 && (!a.sign || b.sign)
                 else decide (c < 0) || c == 0 && (a.sign || !b.sign)
    (if takeX then x else y, fl)

/-! ### Conversions to and from integers (R203, R293) -/

/-- Round a value to an integer under `rm`; the flag says whether it was inexact. -/
def roundInt (rm : Nat) (neg : Bool) (m : Nat) (e : Int) : Int × Bool :=
  if 0 ≤ e then (sMant neg (m * 2 ^ e.toNat), false) else
  let d := (-e).toNat
  let q := m / 2 ^ d
  let rem := m % 2 ^ d
  (sMant neg (if roundsUp rm neg q rem d false then q + 1 else q), rem != 0)

/-- The least and greatest values of an integer format (R197). -/
def intLow (c : Nat) : Int := if intUnsigned c then 0 else -(2 ^ (intWidth c - 1) : Int)
def intHigh (c : Nat) : Int := if intUnsigned c then 2 ^ intWidth c - 1 else 2 ^ (intWidth c - 1) - 1

/-- Float code to integer code (R203). -/
def toInt (c rm : Nat) (x : FV) : Nat × Nat :=
  match x with
  | .nan _ => (0, flagNV)
  | .inf n => (wrap (intWidth c) (if n then intLow c else intHigh c), flagNV)
  | .fin n m e =>
    let (v, inexact) := roundInt rm n m e
    if v < intLow c then (wrap (intWidth c) (intLow c), flagNV)
    else if intHigh c < v then (wrap (intWidth c) (intHigh c), flagNV)
    else (wrap (intWidth c) v, if inexact then flagNX else 0)

/-- The exact value of an integer code (R197). -/
def intExact (c x : Nat) : Exact :=
  let v : Int := if intUnsigned c then ((x % 2 ^ intWidth c : Nat) : Int) else signed (intWidth c) x
  .num (decide (v < 0)) v.natAbs 0 false

/-! ### Short forms used by engines: f32 with RNE and no SAT -/

def f32 (x : Nat) : FV := decodeF 0 x
def addF32 (x y : Nat) : Nat := (roundF 0 0 false (addE 0 (f32 x) (f32 y))).1
def mulF32 (x y : Nat) : Nat := (roundF 0 0 false (mulE (f32 x) (f32 y))).1
def divF32 (x y : Nat) : Nat := (roundF 0 0 false (divE (f32 x) (f32 y))).1
/-- x - y * z with one rounding. -/
def fnmaF32 (y z x : Nat) : Nat := (roundF 0 0 false (fmaE 0 (f32 y).neg (f32 z) (f32 x))).1
/-- Widen a code to f32, which is exact (R165). -/
def widenF32 (f x : Nat) : Nat := (roundF 0 0 false (decodeF f x).toExact).1
/-- Magnitude of an f32 code. -/
def absF32 (x : Nat) : Nat := x % 2 ^ 31
/-- x > y for f32 codes, false when either is a NaN. -/
def gtF32 (x y : Nat) : Bool := !(f32 x).isNan && !(f32 y).isNan && decide (0 < cmpFV (f32 x) (f32 y))

/-! ### Approximations (R208, R288, R289) -/

/-- The grid of format `f` around a positive exact number: significand, exponent of its last place, and whether it is
exact. DESIGN CHOICE (log entry 23). -/
def gridOf (f : Nat) (q0 : Nat) (e0 : Int) (st0 : Bool) : Nat × Int × Bool :=
  let (q, e, st) := Exact.scale q0 e0 st0
  let u := gridExp f (e + Nat.log2 q)
  let d := (u - e).toNat
  (shiftI q (e - u), u, st || (u > e && q % 2 ^ d != 0))

/-- A code within `ulps` units of the last place of the exact positive number, picked by `pick`; exact when the number is
representable. The unit is that of the number's own binade, so the codes just below a power of two lie half a unit apart, and those
beyond its top two units. A number that rounds below the smallest subnormal gives zero (R289); an exact number above Max is delivered
as infinity; with `sub` a number in the subnormal range gives a subnormal (R208). DESIGN CHOICE (log entry 23). -/
def nearF (f ulps : Nat) (sat neg : Bool) (q0 : Nat) (e0 : Int) (st0 : Bool) (pick : Nat) (sub : Bool := false) : Nat × Nat :=
  let (m, u, inexact) := gridOf f q0 e0 st0
  if !inexact then roundF f 0 sat (.num neg q0 e0 st0)
  else
    let (q, e, st) := Exact.scale q0 e0 st0
    let d := (u - e).toNat
    let rem := if u ≤ e then 0 else q % 2 ^ d
    let low := decide (2 * rem < 2 ^ d) || 2 * rem == 2 ^ d && !st
    let edge := m == 2 ^ fltM f && decide (fltEmin f - fltM f < u)
    let next := m == 2 ^ fltM f + 1 && decide (fltEmin f - fltM f < u)
    let below := if edge then (if low then 2 * ulps - 1 else 2 * ulps - 2) else if next && low && ulps == 2 then 2 else ulps - 1
    let above := if m = 2 ^ (fltM f + 1) - 1 then 1 else ulps
    let base := encodeFin f false m u
    let y := if m = 0 && low then 0 else base + pick % (below + above + 1) - below
    let y := if sub && decide (m < 2 ^ fltM f) then min y (2 ^ fltM f - 1) else y
    let top := fltMax f false
    if exceedsMax f m u || top < y && base == top then (deliverInf f sat neg, flagOF ||| flagNX)
    else (fltSign f neg + min y top, flagNX ||| (if y < 2 ^ fltM f then flagUF else 0))

/-- FRCP in f32 (R208). DESIGN CHOICE (log entry 23). -/
def rcpF32 (sat : Bool) (pick : Nat) (x : FV) : Nat × Nat :=
  match x with
  | .nan s => (fltNan 0, if s then flagNV else 0)
  | .inf n => (fltSign 0 n, 0)
  | .fin n m e =>
    if m = 0 then (deliverInf 0 sat n, flagDZ) else
    match divNat n 1 0 m e with
    | .num _ q e' st => nearF 0 1 sat n q e' st pick true
    | _ => (0, 0)

/-- FRSQ in f32 (R288, R289). DESIGN CHOICE (log entry 23). -/
def rsqF32 (sat : Bool) (pick : Nat) (x : FV) : Nat × Nat :=
  match x with
  | .nan s => (fltNan 0, if s then flagNV else 0)
  | .inf n => if n then (fltNan 0, flagNV) else (0, 0)
  | .fin n m e =>
    if m = 0 then (deliverInf 0 sat n, flagDZ)
    else if n then (fltNan 0, flagNV)
    else
      let m2 := if e % 2 = 0 then m else 2 * m
      let e2 := if e % 2 = 0 then e else e - 1
      let k : Nat := 120
      let y := 2 ^ (2 * k) / m2
      let q := isqrt y
      nearF 0 1 sat false q (-(e2 / 2) - (k : Int)) (q * q * m2 != 2 ^ (2 * k)) pick

/-- Fraction bits of the fixed-point numbers used for transcendental functions. -/
def fixBits : Nat := 128

/-- 2^f for the fixed-point fraction f, by its bits from the top: `c` is 2^(2^-i), `i` steps left. -/
def exp2Go (f : Nat) : Nat → Nat → Nat → Nat
  | 0, _, acc => acc
  | n + 1, c, acc =>
    let c' := isqrt (c * 2 ^ fixBits)
    exp2Go f n c' (if bit f (fixBits - (96 - n)) then acc * c' / 2 ^ fixBits else acc)
/-- 2^f in fixed point, for a fraction below one. -/
def exp2Fix (f : Nat) : Nat := exp2Go f 96 (2 * 2 ^ fixBits) (2 ^ fixBits)

/-- FEXP2 in f32 (R288, R289). DESIGN CHOICE (log entry 23). -/
def exp2F32 (sat : Bool) (pick : Nat) (x : FV) : Nat × Nat :=
  match x with
  | .nan s => (fltNan 0, if s then flagNV else 0)
  | .inf n => if n then (0, 0) else (deliverInf 0 sat false, 0)
  | .fin n m e =>
    if m = 0 then (0x3F800000, 0) else
    let big := decide (0 ≤ e + Nat.log2 m - 8)
    if big then (if n then (0, flagUF ||| flagNX) else (deliverInf 0 sat false, flagOF ||| flagNX))
    else if (decide (0 ≤ e)) || m % 2 ^ (-e).toNat == 0 then
      roundF 0 0 sat (.num false 1 (sMant n (shiftI m e)) false)
    else
      -- x = k + f with 0 < f < 1
      let cut := n && m % 2 ^ (-(e + fixBits)).toNat != 0
      let fx := sMant n (shiftI m (e + fixBits) + b2n cut)
      let k := fx / (2 ^ fixBits : Int)
      let f := (fx % (2 ^ fixBits : Int)).toNat
      nearF 0 2 sat false (exp2Fix f) (k - fixBits) true pick

/-- Binary logarithm of y in [1, 2) in fixed point, bit by bit: `n` bits left. -/
def log2Go : Nat → Nat → Nat → Nat
  | 0, _, acc => acc
  | n + 1, y, acc =>
    let y2 := y * y / 2 ^ fixBits
    if 2 * 2 ^ fixBits ≤ y2 then log2Go n (y2 / 2) (2 * acc + 1) else log2Go n y2 (2 * acc)

/-- FLOG2 in f32 (R288, R289): two units outside [0.5, 2], an absolute error of 2^-22 within it. DESIGN CHOICE (log entry 23). -/
def log2F32 (pick : Nat) (x : FV) : Nat × Nat :=
  match x with
  | .nan s => (fltNan 0, if s then flagNV else 0)
  | .inf n => if n then (fltNan 0, flagNV) else (fltInf 0 false, 0)
  | .fin n m e =>
    if m = 0 then (fltInf 0 true, flagDZ)
    else if n then (fltNan 0, flagNV)
    else
      let top : Int := e + Nat.log2 m
      if m = 2 ^ Nat.log2 m then roundF 0 0 false (.num (decide (top < 0)) top.natAbs 0 false)
      else
        let y := m * 2 ^ fixBits / 2 ^ Nat.log2 m
        let v : Int := top * ((2 ^ 80 : Nat) : Int) + (log2Go 80 y 0 : Nat)
        if top = 0 ∨ top = -1 then
          -- any value within 2^-22: move by the pick, then round back towards the exact value
          let d : Int := (((pick % (2 ^ 59 + 1)) : Nat) : Int) - ((2 ^ 58 : Nat) : Int)
          let t := v + d
          let neg := decide (t < 0)
          let rm := if 0 < d then 2 else 3
          let r := roundF 0 rm false (.num neg t.natAbs (-80) false)
          (r.1, flagNX ||| (if t = 0 then flagUF else r.2 &&& flagUF))
        else nearF 0 2 false (decide (v < 0)) v.natAbs (-80) true pick

/-- log2(e) in fixed point. -/
def log2eFix : Nat := 0x171547652B82FE1777D0FFDA0D23A7D12

/-- FTANH in f32 (R288, R289). The pick is taken from the magnitude alone, so FTANH(-x) = -FTANH(x).
DESIGN CHOICE (log entry 23). -/
def tanhF32 (pick : Nat) (x : FV) : Nat × Nat :=
  match x with
  | .nan s => (fltNan 0, if s then flagNV else 0)
  | .inf n => (0x3F800000 + fltSign 0 n, 0)
  | .fin n m e =>
    if m = 0 then (fltSign 0 n, 0) else
    let top : Int := e + Nat.log2 m
    if top < -126 then (fltSign 0 n + shiftI m (e + 149), flagNX ||| flagUF)
    else
      let r :=
        if top < -14 then
          -- x - x^3 / 3
          let d := (-2 * e).toNat
          let q := m * (3 * 2 ^ d - m * m) * 2 ^ 8 / 3
          nearF 0 2 false n q (e - d - 8) true pick
        else if 5 ≤ top then nearF 0 2 false n (2 ^ 120 - 1) (-120) true pick
        else
          let z := shiftI m (e + fixBits) * 2 * log2eFix / 2 ^ fixBits
          let k := z / 2 ^ fixBits
          let t := exp2Fix (z % 2 ^ fixBits) * 2 ^ k
          nearF 0 2 false n ((t - 2 ^ fixBits) * 2 ^ fixBits / (t + 2 ^ fixBits)) (-(fixBits : Int)) true pick
      if 0x3F800000 < r.1 % 2 ^ 31 then (0x3F800000 + fltSign 0 n, flagNX) else r

end Sys2Proof.Machine
end

