-- ==== Sys2Proof/Machine/Operands.lean ====
section
/-! DEFINITION. The operands of a firing body (R261): lanes, expanded literals, and the checks that keep NULL, failed
predicates and poison from a body. -/
namespace Sys2Proof.Machine

/-! ### Lanes (R97, R261) -/

/-- Lane `i` of width `w`: the helper lane() of R261. -/
def lane (w x i : Nat) : Nat := x / 2 ^ (w * i) % 2 ^ w
/-- Lanes of width `w` put together, lane 0 lowest. -/
def joinLanes (w : Nat) : List Nat → Nat
  | [] => 0
  | x :: r => x % 2 ^ w + 2 ^ w * joinLanes w r
/-- The lane count nl of R261. -/
def laneCount (w : Nat) (v : Bool) : Nat := if v then lanesOf w else 1
/-- A value whose lane `i` is `g i`. -/
def mapLanes (w : Nat) (v : Bool) (g : Nat → Nat) : Nat := joinLanes w ((List.range (laneCount w v)).map g)
/-- As `mapLanes` for lanes that also set flags, which are ORed (R205). -/
def mapFlags (w : Nat) (v : Bool) (g : Nat → Nat × Nat) : Nat × Nat :=
  let xs := (List.range (laneCount w v)).map g
  (joinLanes w (xs.map (·.1)), xs.foldl (fun f x => f ||| x.2) 0)

/-! ### Literals (R244) -/

/-- One lane of an expanded operand literal. -/
def litLane (k : Kind) (l : Nat) : Nat :=
  match k with
  | .int 6 => wrap 64 (signed 32 l)
  | .int c => l % 2 ^ intWidth c
  | .flt c => l % 2 ^ fltWidth c
  | .size c => l % 2 ^ (8 * sizeBytes c)
  | _ => l
/-- The operand literal of R244, in every lane with V = 1. -/
def expandLit (k : Kind) (v : Bool) (l : Nat) : Nat :=
  joinLanes k.width (List.replicate (laneCount k.width v) (litLane k l))

/-! ### Operands of an issuing firing -/

def Firing.anyNull (f : Firing) : Bool := [f.a, f.b, f.p].any fun x => (x.map (·.null)).getD false
/-- Bit 0 of the P operand. -/
def Firing.pBit (f : Firing) : Bool := (f.p.map fun x => bit x.val.toNat 0).getD false
/-- The predicate does not pass (R106). -/
def Firing.predFails (r : NodeRec) (f : Firing) : Bool :=
  match r.pm with
  | .none => false
  | .onTrue => !f.pBit
  | .onFalse => f.pBit
/-- P itself is NULL under a predicate, which gives a NULL result (R101, R106). -/
def Firing.pNull (f : Firing) : Bool := (f.p.map (·.null)).getD false
/-- The body does not run: a NULL operand or a predicate that does not pass (R101, R106, R261). DEDUCED (log entry 15). -/
def Firing.isNull (r : NodeRec) (f : Firing) : Bool := f.anyNull || f.predFails r
/-- The lowest-numbered poisoned operand: its port code and PSRC (R228). -/
def poisonOf (xs : List (Nat × Option Pay)) : Option (Nat × BitVec 3) :=
  match xs with
  | [] => none
  | (n, some x) :: r => if x.pois then some (n, x.psrc) else poisonOf r
  | (_, none) :: r => poisonOf r
/-- The operand of a port. -/
def Firing.operand (f : Firing) : Nat → Option Pay
  | 0 => f.a
  | 1 => f.b
  | _ => f.p
/-- DEDUCED (log entry 15). -/
def Firing.poison (f : Firing) : Option (Nat × BitVec 3) := poisonOf [(0, f.a), (1, f.b), (2, f.p)]

/-- The value of an operand. -/
def valOf (x : Option Pay) : Nat := (x.map fun y => y.val.toNat).getD 0
/-- Operand B, which a literal replaces (R239, R244). -/
def opB (opc : Nat) (r : NodeRec) (f : Firing) : Nat :=
  if r.lit then
    match (formOf opc r).b with
    | some t => expandLit t.kind t.v r.l
    | none => r.l
  else valOf f.b

/-- A value lane read under an integer format (R264): signed for an i code. -/
def sa (c x : Nat) : Int := if intUnsigned c then ((x % 2 ^ intWidth c : Nat) : Int) else signed (intWidth c) x

end Sys2Proof.Machine
end

