-- ==== Sys2Proof/Machine/Fire.lean ====
section
/-! DEFINITION. One firing issues: what every form shares (R101, R106, R116, R228, R229, R242, R261), the result into the
output latch, and the accounting of writing nodes, carry writes and branches (R320, R335, R336). -/
namespace Sys2Proof.Machine

/-! ### Results (R97, R116, R242) -/

/-- Whether a beat has a destination to go to. -/
def reaches (r : NodeRec) (b : Beat) : Bool := b.to0 && r.dst0 != .none || b.to1 && r.dst1 != .none

/-- Put the beats of a result into the context's output latch, there after the latency of the class (R116). A result with
no destination sends nothing; nor does a firing that replay repeats, whose tokens every receiver drops by their SEQ (R223, R225).
DEDUCED (log entry 49). -/
def State.emit (s : State) (i : Issue) (r : NodeRec) (lat : Nat) (bs : List Beat) : State :=
  let bs := bs.filter (reaches r)
  if bs.isEmpty || i.f.again then s else
  s.setCtx i.elem i.ctx
    ((s.ctx i.elem i.ctx).push { aid := i.f.aid, node := i.f.node, beats := bs, readyAt := s.cycles + lat, waits := false })

/-- fire() of R261: one result over the firing's interval, with the flags its roundings set. -/
def State.fireVal (s : State) (i : Issue) (opc : Nat) (r : NodeRec) (v : Bool) (x fl : Nat) : State :=
  (s.setFlags i.elem i.ctx (fl ||| i.f.fl)).emit i r (formOf opc r).lat
    [.both (if v then .vector x else .scalar x) i.f.lo i.f.hi]

/-- A NULL result over the firing's interval (R101, R106). -/
def State.fireNull (s : State) (i : Issue) (opc : Nat) (r : NodeRec) : State :=
  s.emit i r (formOf opc r).lat [.both .mkNull i.f.lo i.f.hi]

/-- POISON of an operand of the firing, with the address of the load that read it, if any (R218, R228, R229). -/
def poisonTrap (f : Firing) (x : Nat × BitVec 3) : Trap :=
  { code := trapPoison, info := BitVec.ofNat 64 x.2.toNat, port := x.1, addr := ((f.operand x.1).map (·.paddr)).getD 0 }

/-- One firing of a form whose NULL, predicated and poisoned operands are decided by the common rule (R261): the body gets
the operand values. With no firing at hand nothing happens. DEDUCED (log entry 15). -/
def State.fire (s : State) (opc : Nat) (r : NodeRec) (body : Issue → Nat → Nat → Nat → State → State) : Out :=
  match s.cur with
  | none => .next s
  | some i =>
    let s := { s with cur := none }
    if i.f.isNull r then .next (s.fireNull i opc r)
    else
      match i.f.poison with
      | some x => .next (s.raise i (poisonTrap i.f x))
      | none => .next (body i (valOf i.f.a) (opB opc r i.f) (valOf i.f.p) s)

/-- One firing of a form that decides its own NULL and poisoned operands (R306): only the predicate is judged here. -/
def State.fireOwn (s : State) (opc : Nat) (r : NodeRec) (body : Issue → State → State) : Out :=
  match s.cur with
  | none => .next s
  | some i =>
    let s := { s with cur := none }
    if i.f.pNull || i.f.predFails r then .next (s.fireNull i opc r) else .next (body i s)

/-- A form that computes lane by lane without flags. -/
def State.fireLanes (s : State) (opc : Nat) (r : NodeRec) (w : Nat) (g : Nat → Nat → Nat → Nat) : Out :=
  s.fire opc r fun i a b c s =>
    s.fireVal i opc r r.v (mapLanes w r.v fun k => g (lane w a k) (lane w b k) (lane w c k)) 0

/-- A form that computes lane by lane with rounding flags. -/
def State.fireRound (s : State) (opc : Nat) (r : NodeRec) (w : Nat) (g : Nat → Nat → Nat → Nat × Nat) : Out :=
  s.fire opc r fun i a b c s =>
    let x := mapFlags w r.v fun k => g (lane w a k) (lane w b k) (lane w c k)
    s.fireVal i opc r r.v x.1 x.2

/-- The element's divider is taken for all 18 cycles (R115, R116, R269). -/
def State.divider (s : State) (e : Nat) : State :=
  s.setFab { s.fab with divBusy := Tab.set s.fab.divBusy e (s.cycles + 18) }

/-! ### Accounting (R320, R335, R336, R393) -/

/-- The class a node is accounted under: a branch, a carry slot, an LSID. -/
inductive AcctClass where
  | branch
  | slot (c : Nat)
  | lsid (l : Nat)
  deriving DecidableEq, Repr

/-- The class of a record; none for a node that is not accounted (R253, R320). ERET and HALT are branch-class (R393). -/
def acctClass (opc : Nat) (r : NodeRec) : Option AcctClass :=
  match opc with
  | 0xB0 | 0xB1 | 0xB2 | 0xB3 | 0xB7 | 0xF3 | 0xF7 => some .branch
  | 0xB5 => some (.slot (r.l % 64))
  | 0x91 | 0x93 | 0x95 | 0xA0 | 0xA1 | 0xA2 | 0xA3 | 0xA4 | 0xA5 | 0xA6 | 0xA7 | 0xA8 | 0xAB
  | 0xC3 | 0xC4 | 0xC7 | 0xC9 => some (.lsid r.x)
  | _ => none

/-- The nodes of an activation's block, as (package element, node). -/
def State.actNodes (s : State) (a : Act) : List (Nat × Nat) :=
  match s.task? a.tid, s.planeOfAct a with
  | some t, some pl => (pl.blockNodes a.block).map fun n => (t.elem (neX n) (neY n), neNode n)
  | _, _ => []

/-- The nodes of the block that are accounted under class `k`, as elem * 64 + node. -/
def State.acctNodes (s : State) (a : Act) (k : AcctClass) : List Nat :=
  (s.actNodes a).filterMap fun (e, n) =>
    match s.recAt e a.ctx n with
    | some (opc, r) => if acctClass opc r = some k then some (e * 64 + n) else none
    | none => none

/-- How often the nodes of a set have fired non-NULL. -/
def Act.fires (a : Act) (ns : List Nat) : Nat := (a.fired.filter fun x => x.live && ns.contains x.node).length
/-- Every node of a set has fired (R320). -/
def Act.allFired (a : Act) (ns : List Nat) : Bool := ns.all fun n => a.fired.any fun x => x.node == n

/-- Whether the firings so far complete a wrong count at node `n` (R320 for branches and carry slots, R336 for LSIDs). -/
def Act.wrongCount (a : Act) (k : AcctClass) (ns : List Nat) (n : Nat) (nonNull : Bool) : Bool :=
  match k with
  | .lsid _ => decide (2 ≤ (a.fired.filter fun x => x.node == n).length) || nonNull && decide (2 ≤ a.fires ns)
  | _ => nonNull && decide (2 ≤ a.fires ns) || !nonNull && a.allFired ns && a.fires ns == 0

/-- Record the firing of an accounted node; false when it completes a wrong count, which raises LSID_REFIRE.
DEDUCED (log entry 15). -/
def State.account (s : State) (i : Issue) (k : AcctClass) (nonNull : Bool) : Bool × State :=
  match s.act? i.f.aid with
  | none => (true, s)
  | some a0 =>
    let n := i.elem * 64 + i.f.node
    let ns := s.acctNodes a0 k
    let a := { a0 with fired := a0.fired ++ [{ node := n, live := nonNull, trig := i.f.trig }] }
    let s := s.setAct i.f.aid a
    if a.wrongCount k ns n nonNull then
      (false, s.raise i { code := trapLsidRefire, lsid := match k with
                                                          | .lsid l => l
                                                          | _ => 0 })
    else (true, s)

/-- Every carry slot and branch of the block is accounted for under class `k` (R320). -/
def State.accounted (s : State) (a : Act) (k : AcctClass) : Bool :=
  let ns := s.acctNodes a k
  match k with
  | .lsid _ => a.allFired ns
  | _ => a.allFired ns && a.fires ns == 1

end Sys2Proof.Machine
end

