-- ==== Sys2Proof/Machine/FloatOps.lean ====
section
/-! DEFINITION. Floating-point arithmetic, group 0x5, and the special functions, group 0x6 (R280 to R289). -/
namespace Sys2Proof.Machine

/-- Fields of AUX in groups 0x5 to 0x7 (R200). -/
def auxRM (r : NodeRec) : Nat := r.x % 4
def auxSat (r : NodeRec) : Bool := bit r.x 2
def auxSR (r : NodeRec) : Bool := bit r.x 3

/-- An arithmetic form: exact result of a lane, rounded once into FMT (R282). -/
def State.fireArith (s : State) (opc : Nat) (r : NodeRec) (g : Nat → FV → FV → FV → Exact) : Out :=
  s.fireRound opc r (fltWidth r.f) fun x y z =>
    roundF r.f (auxRM r) (auxSat r) (g (auxRM r) (decodeF r.f x) (decodeF r.f y) (decodeF r.f z))

/-- FADD (R282). -/
def execFadd (r : NodeRec) (s : State) : Out := s.fireArith 0x50 r fun m x y _ => addE m x y
/-- FSUB (R282). -/
def execFsub (r : NodeRec) (s : State) : Out := s.fireArith 0x51 r fun m x y _ => addE m x y.neg
/-- FMUL (R282). -/
def execFmul (r : NodeRec) (s : State) : Out := s.fireArith 0x52 r fun _ x y _ => mulE x y
/-- FMA (R282). -/
def execFma (r : NodeRec) (s : State) : Out := s.fireArith 0x53 r fmaE
/-- FMS (R282). -/
def execFms (r : NodeRec) (s : State) : Out := s.fireArith 0x54 r fun m x y z => fmaE m x y z.neg
/-- FNMA (R282). -/
def execFnma (r : NodeRec) (s : State) : Out := s.fireArith 0x55 r fun m x y z => fmaE m x.neg y z
/-- FMIN (R283). -/
def execFmin (r : NodeRec) (s : State) : Out := s.fireRound 0x56 r (fltWidth r.f) fun x y _ => minMaxF r.f false x y
/-- FMAX (R283). -/
def execFmax (r : NodeRec) (s : State) : Out := s.fireRound 0x57 r (fltWidth r.f) fun x y _ => minMaxF r.f true x y

/-- The magnitude bits of a code with the given sign bit; a NaN gives the canonical NaN (R284). -/
def withSign (f x : Nat) (neg : Bool) : Nat :=
  if (decodeF f x).isNan then fltNan f else x % 2 ^ (fltWidth f - 1) + fltSign f neg
def signBit (f x : Nat) : Bool := bit x (fltWidth f - 1)
/-- FABS (R284). -/
def execFabs (r : NodeRec) (s : State) : Out := s.fireLanes 0x58 r (fltWidth r.f) fun x _ _ => withSign r.f x false
/-- FNEG (R284). -/
def execFneg (r : NodeRec) (s : State) : Out :=
  s.fireLanes 0x59 r (fltWidth r.f) fun x _ _ => withSign r.f x (!signBit r.f x)
/-- FSGN (R284). -/
def execFsgn (r : NodeRec) (s : State) : Out :=
  s.fireLanes 0x5A r (fltWidth r.f) fun x y _ => withSign r.f x (signBit r.f y)

/-- The class number of a code (R285). -/
def classOf (f x : Nat) : Nat :=
  let sub := x / 2 ^ fltM f % 2 ^ fltE f == 0
  match decodeF f x with
  | .nan s => if s then 8 else 9
  | .inf n => if n then 0 else 7
  | .fin n m _ =>
    if m = 0 then (if n then 3 else 4)
    else if sub then (if n then 2 else 5)
    else (if n then 1 else 6)
/-- FCLASS (R285). -/
def execFclass (r : NodeRec) (s : State) : Out := s.fireLanes 0x5B r (fltWidth r.f) fun x _ _ => classOf r.f x

/-- Rounding to an integral value in the same format (R286). -/
def integral (f rm x : Nat) : Nat × Nat :=
  match decodeF f x with
  | .nan s => (fltNan f, if s then flagNV else 0)
  | .inf _ => (x, 0)
  | .fin n m e =>
    let (v, inexact) := roundInt rm n m e
    ((roundF f 0 false (.num n v.natAbs 0 false)).1, if inexact then flagNX else 0)
/-- FRND (R286). -/
def execFrnd (r : NodeRec) (s : State) : Out :=
  s.fireRound 0x5C r (fltWidth r.f) fun x _ _ => integral r.f (auxRM r) x

/-! ### Group 0x6 -/

/-- A form of the divider (R288). -/
def State.fireDivFloat (s : State) (opc : Nat) (r : NodeRec) (g : FV → FV → Exact) : Out :=
  s.fire opc r fun i a b _ s =>
    let w := fltWidth r.f
    let x := mapFlags w r.v fun k =>
      roundF r.f (auxRM r) (auxSat r) (g (decodeF r.f (lane w a k)) (decodeF r.f (lane w b k)))
    (s.divider i.elem).fireVal i opc r r.v x.1 x.2

/-- FSQRT (R288, R289). -/
def execFsqrt (r : NodeRec) (s : State) : Out := s.fireDivFloat 0x62 r fun x _ => sqrtE x
/-- FDIV (R288, R289). -/
def execFdiv (r : NodeRec) (s : State) : Out := s.fireDivFloat 0x63 r divE

/-- The open choice of an approximation for one operand: a function of form, format and code, so that equal operands give
equal results (R288). DESIGN CHOICE (log entries 2, 23). -/
def approxPick (opc f x : Nat) : Nat := Config.freeChoice (2 ^ 96 + (opc * 8 + f) * 2 ^ 64 + x)

/-- An approximation in f16 or bf16 rounds the f32 result once, and SAT then applies (R288). DESIGN CHOICE (log entry 23). -/
def narrowApprox (f : Nat) (sat : Bool) (y : Nat × Nat) : Nat × Nat :=
  let z := roundF f 0 sat (decodeF 0 y.1).toExact
  let fl := (y.2 &&& (flagNV ||| flagDZ ||| flagOF ||| flagNX)) ||| z.2
  let tiny := z.1 % 2 ^ (fltWidth f - 1) < 2 ^ fltM f
  (z.1, if tiny && fl &&& flagNX != 0 then fl ||| flagUF else fl)

/-- An approximation: `g` gives the f32 result for SAT, the open choice and the operand. DESIGN CHOICE (log entry 23). -/
def State.fireApprox (s : State) (opc : Nat) (r : NodeRec) (pick : Nat → Nat) (g : Bool → Nat → FV → Nat × Nat) : Out :=
  s.fireRound opc r (fltWidth r.f) fun x _ _ =>
    if r.f = 0 then g (auxSat r) (pick x) (decodeF 0 x)
    else narrowApprox r.f (auxSat r) (g false (pick x) (decodeF r.f x))

/-- FRCP (R208, R288). -/
def execFrcp (r : NodeRec) (s : State) : Out := s.fireApprox 0x60 r (approxPick 0x60 r.f) rcpF32
/-- FRSQ (R288, R289). -/
def execFrsq (r : NodeRec) (s : State) : Out := s.fireApprox 0x61 r (approxPick 0x61 r.f) rsqF32
/-- FEXP2 (R288, R289). -/
def execFexp2 (r : NodeRec) (s : State) : Out := s.fireApprox 0x64 r (approxPick 0x64 r.f) exp2F32
/-- FLOG2 (R288, R289). -/
def execFlog2 (r : NodeRec) (s : State) : Out :=
  s.fireApprox 0x65 r (approxPick 0x65 r.f) fun sat p x =>
    let y := log2F32 p x
    if sat && y.1 % 2 ^ 31 == 0x7F800000 then (fltMax 0 (bit y.1 31), y.2) else y
/-- FTANH; the choice depends on the magnitude alone (R288, R289). -/
def execFtanh (r : NodeRec) (s : State) : Out :=
  s.fireApprox 0x66 r (fun x => approxPick 0x66 r.f (x % 2 ^ (fltWidth r.f - 1))) fun _ p x => tanhF32 p x

end Sys2Proof.Machine
end

