-- ==== Sys2Proof/Machine/Convert.lean ====
section
/-! DEFINITION. Conversions, quantisation and the stochastic seed, group 0x7 (R204, R206, R207, R290 to R298). -/
namespace Sys2Proof.Machine

/-- One converted element: a code that needs no rounding with its flags, or an exact value to be rounded. -/
inductive Conv where
  | code (x fl : Nat)
  | exact (x : Exact)
  deriving DecidableEq, Repr

/-- The shape of a conversion (R290): element widths of port A and of the result, the count and the part. -/
structure ConvShape where
  wa : Nat
  wr : Nat
  n : Nat
  part : Nat
  deriving DecidableEq, Repr

def convShape (r : NodeRec) (wa wr : Nat) : ConvShape :=
  { wa := wa, wr := wr, n := if r.v then 512 / max wa wr else 1, part := r.part }
/-- Source and destination element of conversion `i` (R290). -/
def ConvShape.src (h : ConvShape) (i : Nat) : Nat := if h.wa < h.wr then h.part * h.n + i else i
def ConvShape.dst (h : ConvShape) (i : Nat) : Nat := if h.wa > h.wr then h.part * h.n + i else i

/-- Round the elements in ascending order, drawing from the generator under SR for each that converts (R204). -/
def roundAll (f rm : Nat) (sat sr : Bool) : List Conv → W32 → List (Nat × Nat) × W32
  | [], g => ([], g)
  | .code x fl :: r, g =>
    let (ys, g') := roundAll f rm sat sr r g
    ((x, fl) :: ys, g')
  | .exact x :: r, g =>
    let (d, g1) := if sr then drawSR g else (0, g)
    let y := if sr then roundSR f sat d x else roundF f rm sat x
    let (ys, g') := roundAll f rm sat sr r g1
    (y :: ys, g')

/-- Place converted elements in the result, every other element zero (R290). -/
def ConvShape.place (h : ConvShape) (xs : List Nat) : Nat :=
  (joinLanes h.wr xs) * 2 ^ (h.wr * (h.dst 0))

/-- Run a conversion and fire it; the generator moves on under SR. -/
def State.fireConv (s : State) (opc : Nat) (r : NodeRec) (i : Issue) (h : ConvShape) (f rm : Nat) (sat sr : Bool)
    (xs : List Conv) : State :=
  let (ys, g) := roundAll f rm sat sr xs (s.ctx i.elem i.ctx).gen
  let s := if sr then s.setCtx i.elem i.ctx { s.ctx i.elem i.ctx with gen := g } else s
  s.fireVal i opc r r.v (h.place (ys.map (·.1))) (ys.foldl (fun fl y => fl ||| y.2) 0)

/-- Every value of the source format is representable in the destination (R291). -/
def isWider (src dst : Nat) : Bool :=
  src == dst || dst == 0 || (dst == 1 || dst == 2) && 3 ≤ src || src == 5 && (dst == 3 || dst == 4)

/-- CVT (R291). -/
def execCvt (r : NodeRec) (s : State) : Out :=
  s.fire 0x70 r fun i a _ _ s =>
    let h := convShape r (fltWidth r.other) (fltWidth r.f)
    s.fireConv 0x70 r i h r.f (auxRM r) (auxSat r && !isWider r.other r.f) (auxSR r)
      ((List.range h.n).map fun k => .exact (decodeF r.other (lane h.wa a (h.src k))).toExact)

/-- CVTI (R292). -/
def execCvti (r : NodeRec) (s : State) : Out :=
  s.fire 0x71 r fun i a _ _ s =>
    let h := convShape r (fltWidth r.f) (intWidth r.other)
    s.fireConv 0x71 r i h 0 0 false false
      ((List.range h.n).map fun k =>
        let y := toInt r.other (auxRM r) (decodeF r.f (lane h.wa a (h.src k)))
        .code y.1 y.2)

/-- CVTF (R293). -/
def execCvtf (r : NodeRec) (s : State) : Out :=
  s.fire 0x72 r fun i a _ _ s =>
    let h := convShape r (intWidth r.other) (fltWidth r.f)
    s.fireConv 0x72 r i h r.f (auxRM r) (auxSat r) (auxSR r)
      ((List.range h.n).map fun k => .exact (intExact r.other (lane h.wa a (h.src k))))

/-! ### Quantisation -/

/-- The larger of two f32 codes, NaN if either is NaN (R294). -/
def nanMax (x y : Nat) : Nat :=
  if (f32 x).isNan || (f32 y).isNan then fltNan 0 else if gtF32 x y then x else y

/-- QAMAX (R294). -/
def execQamax (r : NodeRec) (s : State) : Out :=
  s.fire 0x73 r fun i a b _ s =>
    let w := fltWidth r.f
    let nl := laneCount w r.v
    let bs := min (match field r.l 1 0 with
                   | 0 => 8
                   | 1 => 32
                   | _ => nl) nl
    let amax := fun j => (List.range bs).foldl (fun m k =>
      if j * bs + k < nl then nanMax (widenF32 r.f (lane w a (j * bs + k) % 2 ^ (w - 1))) m else m) 0
    let one := fun j => if bit r.l 2 then nanMax (lane 32 b j) (amax j) else amax j
    s.fireVal i 0x73 r r.v (joinLanes 32 ((List.range ((nl + bs - 1) / bs)).map one)) 0

/-- Largest exponent of an element format (R206). -/
def scaleEmax (ef : Nat) : Int := if ef = 3 then 8 else if ef = 4 then 15 else 2

/-- A scale code for an amax that is negative, which the spec gives no result. DESIGN CHOICE (log entry 2). -/
def openScale (l x : Nat) : Nat := Config.freeChoice (2 ^ 97 + l * 2 ^ 32 + x) % 256

/-- The E8M0 code for an amax with its flags (R206). -/
def scaleMX (l x : Nat) : Nat × Nat :=
  match f32 x with
  | .nan _ => (0xFF, flagNV)
  | .inf n => if n then (openScale l x, 0) else (0xFF, flagNV)
  | .fin n m e =>
    if m = 0 then (0, 0)
    else if n then (openScale l x, 0)
    else
      let k : Int := e + Nat.log2 m - scaleEmax (field l 4 2)
      if k < -127 then (0, flagQLOW) else ((k + 127).toNat, 0)

/-- The value of an E3M5 code as significand and exponent (R196). -/
def e3m5 (c : Nat) : Nat × Int := if c / 32 = 0 then (c % 32, -8) else (32 + c % 32, (c / 32 : Int) - 9)
/-- A finite positive band scale as significand and exponent (R207). -/
def bandScale (b : Nat) : Option (Nat × Int) :=
  match decodeF 2 b with
  | .fin false (m + 1) e => some (m + 1, e)
  | _ => none

/-- The E3M5 code for an amax under band scale `b`, with its flags (R207). -/
def scaleNB (l x b : Nat) : Nat × Nat :=
  match bandScale b with
  | none => (0, flagNV)
  | some (bm, be) =>
    match f32 x with
    | .nan _ => (0, flagNV)
    | .inf n => if n then (openScale l x, 0) else (0xFF, flagOF)
    | .fin n m e =>
      if m = 0 then (0, 0)
      else if n then (openScale l x, 0)
      else
        let cmp := fun c => cmpFV (.fin false m e) (.fin false ((e3m5 c).1 * 6 * bm) ((e3m5 c).2 + be))
        if cmp 1 ≤ 0 then (1, if cmp 1 < 0 then flagQLOW else 0)
        else
          match (List.range 256).find? fun c => decide (cmp c ≤ 0) with
          | some c => (c, 0)
          | none => (0xFF, flagOF)

/-- The band scale for a band's amax: amax / 94.5 rounded up, 1.0 for zero (R207). -/
def scaleBand (x : Nat) : Nat × Nat :=
  let v := f32 x
  if v.isZero then (0x3F80, 0) else roundF 2 3 false (divE v (.fin false 189 (-1)))

/-- QSCALE (R295). -/
def execQscale (r : NodeRec) (s : State) : Out :=
  s.fire 0x74 r fun i a b _ s =>
    let kind := field r.l 1 0
    let ys := (List.range (laneCount 32 r.v)).map fun j =>
      let x := lane 32 a j
      if kind = 0 then scaleMX r.l x else if kind = 1 then scaleNB r.l x (b % 2 ^ 16) else scaleBand x
    s.fireVal i 0x74 r r.v (joinLanes (if kind = 2 then 16 else 8) (ys.map (·.1))) (ys.foldl (fun fl y => fl ||| y.2) 0)

/-- One element divided by its block's scale (R206, R207, R296): a zero keeps its sign, but in a block of zeros, whose elements are +0; `zeros`
says that every element of the block in this firing is a zero. DEDUCED (log entry 94). -/
def packConv (nb : Bool) (x : FV) (c b : Nat) (zeros : Bool) : Conv :=
  if nb then
    match bandScale b with
    | none => .code 0 flagNV
    | some (bm, be) =>
      if c = 0 then .code 0 0
      else .exact (divE x (.fin false ((e3m5 c).1 * bm) ((e3m5 c).2 + be)))
  else if c = 0xFF then .code 0 flagNV
  else if c = 0 ∧ zeros then .exact (.num false 0 0 false)
  else .exact (mulE x (.fin false 1 (127 - (c : Int))))

/-- QPACK; saturation is always in force (R206, R207, R296). -/
def execQpack (r : NodeRec) (s : State) : Out :=
  s.fire 0x75 r fun i a b c s =>
    let h := convShape r (fltWidth r.f) (fltWidth r.other)
    let x := fun (k : Nat) => decodeF r.f (lane h.wa a (h.src k))
    let block := fun (k : Nat) => h.dst k / (if r.nb then 8 else 32)
    s.fireConv 0x75 r i h r.other (auxRM r) true (auxSR r)
      ((List.range h.n).map fun k =>
        packConv r.nb (x k) (lane 8 b (block k)) (c % 2 ^ 16) ((List.range h.n).all fun j => block j != block k || (x j).isZero))

/-- The exact value of a packed element (R198): code, scale code and band scale. -/
def blockValue (nb : Bool) (f x c b : Nat) : Exact :=
  if nb then
    match decodeF f x with
    | .fin n m e => mulE (.fin n (m * (e3m5 c).1) (e + (e3m5 c).2)) (decodeF 2 b)
    | y => mulE y (decodeF 2 b)
  else if c = 0xFF then .nan 0
  else mulE (decodeF f x) (.fin false 1 ((c : Int) - 127))

/-- QUNPACK (R297). -/
def execQunpack (r : NodeRec) (s : State) : Out :=
  s.fire 0x76 r fun i a b c s =>
    let h := convShape r (fltWidth r.other) (fltWidth r.f)
    s.fireConv 0x76 r i h r.f (auxRM r) (auxSat r) false
      ((List.range h.n).map fun k =>
        .exact (blockValue r.nb r.other (lane h.wa a (h.src k)) (lane 8 b (h.src k / (if r.nb then 8 else 32))) (c % 2 ^ 16)))

/-- SRSEED (R298). -/
def execSrseed (r : NodeRec) (s : State) : Out :=
  s.fire 0x77 r fun i a _ _ s =>
    (s.seed i.elem i.ctx (if r.lit then r.lit32 else BitVec.ofNat 32 a)).fireVal i 0x77 r false 1 0

end Sys2Proof.Machine
end

