-- ==== Sys2Proof/Machine/FireRule.lean ====
section
/-! DEFINITION. The interval firing rule of one node and one activation (R100 to R112): frontiers, gaps, stored entries,
pending firings, release and discard; and the voter's rule (R230 to R233). -/
namespace Sys2Proof.Machine

/-- What the rule needs to know of a node: which ports take tokens, depth and overflow mode per port, gap rules of A and B,
the float formats of A and B for LERP, V and saturation. Ports are numbered 0 A, 1 B, 2 P. -/
structure MatchCfg where
  used : List Nat
  depth : Nat → Nat
  traps : Nat → Bool
  gap : Nat → GapRule
  fmt : Nat → Nat
  v : Bool
  sat : Bool

/-- Number of a port. -/
def portNum : PortName → Nat
  | .a => 0
  | .b => 1
  | .p => 2

def NodeSt.port (n : NodeSt) : Nat → PortSt
  | 0 => n.a
  | 1 => n.b
  | _ => n.p
def NodeSt.setPort (n : NodeSt) (k : Nat) (x : PortSt) : NodeSt :=
  match k with
  | 0 => { n with a := x }
  | 1 => { n with b := x }
  | _ => { n with p := x }

/-- Frontier of a port; a port that takes no tokens counts as closed (R103, R104). -/
def NodeSt.frontOf (n : NodeSt) (c : MatchCfg) (k : Nat) : Nat := if c.used.contains k then (n.port k).front else infTick
/-- Least frontier among the ports other than `k` (R105, R110). -/
def NodeSt.othersFront (n : NodeSt) (c : MatchCfg) (k : Nat) : Nat :=
  (c.used.filter fun y => y != k).foldl (fun f y => min f (n.frontOf c y)) infTick
/-- The node frontier (R104). -/
def NodeSt.nodeFront (n : NodeSt) (c : MatchCfg) : Nat := c.used.foldl (fun f y => min f (n.frontOf c y)) infTick

/-! ### LERP (R108) -/

/-- One lane of an interpolated operand: value and flags. `t` is the firing's start. DEDUCED (log entry 18). -/
def lerpLane (f : Nat) (sat : Bool) (g : Gap) (t x y : Nat) : Nat × Nat :=
  let frac := (roundF 0 0 false (divE (.fin false (t - g.lo) 0) (.fin false (g.hi - g.lo) 0))).1
  let ak := decodeF f x
  let d := roundF 0 0 false (addE 0 (decodeF f y) ak.neg)
  let v := roundF 0 0 false (fmaE 0 (f32 d.1) (f32 frac) ak)
  let z := roundF f 0 sat (f32 v.1).toExact
  (z.1, d.2 ||| v.2 ||| z.2)

/-- Flags of the quotient of R108, which is the same for every lane. DEDUCED (log entry 18). -/
def lerpFrac (g : Gap) (t : Nat) : Nat :=
  (roundF 0 0 false (divE (.fin false (t - g.lo) 0) (.fin false (g.hi - g.lo) 0))).2

/-- The operand that an entry on port `k` gives a firing that starts at `t`, with the flags it sets (R107, R108).
DEDUCED (log entry 18). -/
def Entry.operand (c : MatchCfg) (k : Nat) (e : Entry) (t : Nat) : Pay × Nat :=
  match e.gap with
  | none => (e.pay, 0)
  | some g =>
    if !g.lerp || e.pay.null || e.pay.pois then (e.pay, 0)
    else
      let x := g.ak.val.toNat
      let y := g.ak1.val.toNat
      let z := mapFlags (fltWidth (c.fmt k)) c.v fun i => lerpLane (c.fmt k) c.sat g t (lane (fltWidth (c.fmt k)) x i) (lane (fltWidth (c.fmt k)) y i)
      ({ e.pay with val := BitVec.ofNat 512 z.1 }, z.2 ||| lerpFrac g t)

/-! ### One acceptance (R105) -/

/-- The gap entry that an acceptance on port `k` makes (R107). Where both ends of a LERP gap are poisoned, the entry carries the source
of the earlier end, a_k. DESIGN CHOICE (log entry 18). -/
def PortSt.gapEntry (x : PortSt) (rule : GapRule) (id : Nat) (t : Token) : Option Entry :=
  match x.cover, x.hold with
  | some cov, some ak =>
    let lo := max cov x.front
    let hi := max x.front t.lo
    if hi ≤ lo then none else
    match rule with
    | .refuse => none
    | .hold => some { id := id, lo := lo, hi := hi, pay := ak, gap := some { lerp := false, ak := ak, ak1 := ak, lo := lo, hi := hi } }
    | .lerp =>
      if t.front then none else
      let p := { ak with null := ak.null || t.pay.null, pois := ak.pois || t.pay.pois,
                         psrc := if ak.pois then ak.psrc else t.pay.psrc }
      some { id := id, lo := lo, hi := hi, pay := p, gap := some { lerp := true, ak := ak, ak1 := t.pay, lo := cov, hi := t.lo } }
  | _, _ => none

/-- Every choice of one entry per port of `ks`, in order of entry age. -/
def combos (n : NodeSt) : List Nat → List (List (Nat × Entry))
  | [] => [[]]
  | k :: ks => (n.port k).ents.flatMap fun e => (combos n ks).map fun r => (k, e) :: r

/-- The firing that a combination of entries gives, if its members overlap and at most one of them is a gap entry. -/
def meet (c : MatchCfg) (aid node trig : Nat) (m : List (Nat × Entry)) : Option Firing :=
  let lo := m.foldl (fun x e => max x e.2.lo) 0
  let hi := m.foldl (fun x e => min x e.2.hi) infTick
  if hi ≤ lo || 2 ≤ (m.filter fun e => e.2.gap.isSome).length then none else
  let ops := m.map fun e => (e.1, e.2.operand c e.1 lo)
  let op := fun k => ((ops.find? fun o => o.1 == k).map fun o => o.2.1)
  let a := m.find? fun e => e.1 == 0
  some { aid := aid, node := node, lo := lo, hi := hi, alo := (a.map fun e => e.2.lo).getD lo, ahi := (a.map fun e => e.2.hi).getD hi,
         fl := ops.foldl (fun f o => f ||| o.2.2) 0, front := false, a := op 0, b := op 1, p := op 2,
         pins := m.map fun e => e.2.id, trig := trig, since := 0, again := false, atok := (a.map fun e => e.2.id / 2).getD 0 }

/-- Insert a pending firing in order of LO, after those found before it (R105). -/
def pendIn (f : Firing) : List Firing → List Firing
  | [] => [f]
  | g :: r => if f.lo < g.lo then f :: g :: r else g :: pendIn f r

/-- Pend every firing of entry `e` on port `k` with the stored entries of the other ports. A gap entry of a node that has no other token
port fires alone. DESIGN CHOICE (log entry 18). -/
def NodeSt.pendWith (n : NodeSt) (c : MatchCfg) (aid node trig k : Nat) (e : Entry) : NodeSt :=
  let fs := (combos n (c.used.filter fun y => y != k)).filterMap fun r => meet c aid node trig ((k, e) :: r)
  { n with pend := fs.foldl (fun p f => pendIn f p) n.pend }

def NodeSt.store (n : NodeSt) (k : Nat) (e : Entry) : NodeSt :=
  n.setPort k { n.port k with ents := (n.port k).ents ++ [e] }

/-- Discard what the frontiers have passed and no firing of `live` pins (R110). -/
def NodeSt.discard (n : NodeSt) (c : MatchCfg) (live : List Firing) : NodeSt :=
  let pinned := fun (e : Entry) => (n.pend ++ live).any fun f => f.pins.contains e.id
  c.used.foldl (fun n' y =>
    let m := n.othersFront c y
    n'.setPort y { n'.port y with ents := (n'.port y).ents.filter fun e => decide (m < e.hi) || pinned e }) n

/-- How an acceptance ends. -/
inductive Accepted where
  /-- The token waits in its latch (STALL, R111). -/
  | stall
  /-- The token is dropped and a trap raised: EDGE_ORDER with the frontier, or MATCH_FULL with the depth. -/
  | order (front : Nat)
  | full (depth : Nat)
  | done (n : NodeSt)

/-- Accept a token on port `k` (R103, R105). `id` numbers the acceptance; `live` are the released firings of the node that
have not issued. -/
def NodeSt.accept (n : NodeSt) (c : MatchCfg) (aid node k id : Nat) (t : Token) (live : List Firing) : Accepted :=
  let x := n.port k
  if !t.front && decide (t.lo < x.front) then .order x.front else
  let m := n.othersFront c k
  let keep := !t.front && decide (m < t.hi)
  let g := if k = 2 then none else x.gapEntry (c.gap k) (2 * id + 1) t
  let keepG := (g.map fun e => decide (m < e.hi)).getD false
  let need := b2n keep + b2n keepG
  if decide (0 < need) && decide (c.depth k < x.ents.length + need) then
    if c.traps k then .full (c.depth k) else .stall
  else
    let e : Entry := { id := 2 * id, lo := t.lo, hi := t.hi, pay := t.pay, gap := none }
    let n := n.setPort k { x with front := max x.front t.lo }
    let n := if t.front then n else n.pendWith c aid node id k e
    let n := if keep then n.store k e else n
    let n := match g with
      | none => n
      | some g => n.pendWith c aid node id k g
    let n := match g with
      | some g => if keepG then n.store k g else n
      | none => n
    let y := n.port k
    let ovf := match y.cover with
      | none => true
      | some cov => decide (cov ≤ t.hi)
    let n := if !t.front && decide (k ≠ 2) && ovf then
        n.setPort k { y with cover := some t.hi, hold := if c.gap k = .refuse then none else some t.pay }
      else n
    .done (n.discard c live)

/-- The pending firings that release(F) lets go, in order, and what stays (R105); `ok` holds back those that wait for a
carry slot (R323). -/
def NodeSt.release (n : NodeSt) (c : MatchCfg) (ok : Bool) : List Firing × NodeSt :=
  if !ok then ([], n) else
  let f := n.nodeFront c
  (n.pend.filter fun x => decide (x.lo ≤ f), { n with pend := n.pend.filter fun x => decide (f < x.lo) })

/-! ### The voter (R230 to R233) -/

/-- Two copies agree (R230). -/
def agree (x y : Token) : Bool :=
  x.pay.val == y.pay.val && x.lo == y.lo && x.hi == y.hi && x.pay.null == y.pay.null && x.front == y.front && x.pay.vec == y.pay.vec
    && !x.pay.pois && !y.pay.pois
/-- Kind of a disagreement with the forwarded copy (R232): 1 VALUE, 2 TAG, 3 POISON. DEDUCED (log entry 30). -/
def voteKind (fwd x : Token) : Nat :=
  if x.pay.pois then 3
  else if x.lo != fwd.lo || x.hi != fwd.hi || x.pay.null != fwd.pay.null || x.front != fwd.front || x.pay.vec != fwd.pay.vec then 2
  else 1

/-- What a copy's arrival at the voter brings about: log entries as position, copy and kind, and the positions that failed. -/
structure Voted where
  node : NodeSt
  logs : List (Nat × Nat × Nat)
  failed : List Nat

/-- The copies that disagree with the forwarded one, to be logged. DEDUCED (log entry 30). -/
def disagreeing (fwd : Token) (pos : Nat) (cs : List (Nat × Token)) : List (Nat × Nat × Nat) :=
  cs.filterMap fun (k, t) => if agree fwd t then none else some (pos, k, voteKind fwd t)

/-- A firing of the voter: the forwarded copy over its own interval, a FRONT token as such (R231). -/
def voteFiring (aid node trig : Nat) (t : Token) : Firing :=
  { aid := aid, node := node, lo := t.lo, hi := t.hi, alo := t.lo, ahi := t.hi, fl := 0, front := t.front, a := some t.pay, b := none,
    p := none, pins := [], trig := trig, since := 0, again := false }

/-- The copy to forward among the copies of a position: one of a pair that agrees (R231). DEDUCED (log entry 30). -/
def decideVote (cs : List (Nat × Token)) : Option Token :=
  match cs with
  | [x, y] => if agree x.2 y.2 then some x.2 else none
  | [x, y, z] =>
    if agree x.2 y.2 || agree x.2 z.2 then some x.2 else if agree y.2 z.2 then some y.2 else none
  | _ => none

/-- Forward what can be forwarded, in ascending order of position: a position that cannot be decided yet holds back the
later ones; three copies of which no two agree fail it (R231, R233). DEDUCED (log entry 30). -/
def voteGo (aid node id : Nat) : List VotePos → List VotePos × List Firing × List (Nat × Nat × Nat) × List Nat
  | [] => ([], [], [], [])
  | v :: r =>
    if v.fwd.isSome then
      let (r, fs, ls, bad) := voteGo aid node id r
      (v :: r, fs, ls, bad)
    else
      match decideVote v.copies with
      | some f =>
        let (r, fs, ls, bad) := voteGo aid node id r
        let r := if 3 ≤ v.copies.length then r else { v with fwd := some f } :: r
        (r, voteFiring aid node id f :: fs, disagreeing f v.pos v.copies ++ ls, bad)
      | none =>
        if 3 ≤ v.copies.length then
          let (r, fs, ls, bad) := voteGo aid node id r
          (r, fs, v.copies.map (fun c => (v.pos, c.1, if c.2.pay.pois then 3 else 1)) ++ ls, v.pos :: bad)
        else (v :: r, [], [], [])

/-- The port whose copy a forwarded position still awaits. -/
def VotePos.late (v : VotePos) : Nat := 3 - (v.copies.map (·.1)).sum

/-- Close the oldest forwarded positions of a port until no more than its depth await their late copies (R232). -/
def lateDrop (depth : Nat → Nat) (vs : List VotePos) (k : Nat) : List VotePos × List (Nat × Nat × Nat) :=
  let ws := vs.filter fun u => u.fwd.isSome && u.late == k
  let old := ws.take (ws.length - depth k)
  (vs.filter fun u => old.all fun o => u.pos != o.pos, old.map fun o => (o.pos, k, 4))

/-- Take a copy on port `k` as its port's next position (R230 to R233). DEDUCED (log entry 30). -/
def NodeSt.vote (n : NodeSt) (depth : Nat → Nat) (aid node k id : Nat) (t : Token) : Voted :=
  let pos := Tab.getD n.vcnt k 0
  let closed := n.votes.all (fun v => v.pos != pos) && (List.range 3).any fun j => decide (pos < Tab.getD n.vcnt j 0)
  let n := { n with vcnt := Tab.set n.vcnt k (pos + 1) }
  match n.votes.find? fun v => v.pos == pos with
  | none =>
    if closed then { node := n, logs := [], failed := [] }
    else { node := { n with votes := n.votes ++ [{ pos := pos, copies := [(k, t)], fwd := none }] }, logs := [], failed := [] }
  | some v =>
    match v.fwd with
    | some f =>
      -- the late copy: compared, then dropped, and the position is over
      { node := { n with votes := n.votes.filter fun u => u.pos != pos }, logs := disagreeing f pos [(k, t)], failed := [] }
    | none =>
      let vs := n.votes.map fun u => if u.pos = pos then { v with copies := v.copies ++ [(k, t)] } else u
      let (vs, fs, ls, bad) := voteGo aid node id vs
      let (vs, l0) := lateDrop depth vs 0
      let (vs, l1) := lateDrop depth vs 1
      let (vs, l2) := lateDrop depth vs 2
      { node := { n with votes := vs, pend := n.pend ++ fs }, logs := ls ++ l0 ++ l1 ++ l2, failed := bad }

end Sys2Proof.Machine
end

