-- ==== Sys2Proof/Machine/Glasshouse.lean ====
section
/-! DEFINITION. Physical memory (R148): banks and slices, lines and their replacement, reads and writes at the home slice,
the scratchpads, the page walk and the translation caches. -/
namespace Sys2Proof.Machine

/-! ### Physical places (R31, R148, R157, R160) -/

def outerBase : Nat := 0x2000000000
def outerSize : Nat := 0xC00000000
def holeBase : Nat := 0x8000000000
def domainBase : Nat := 0x800000000000
def windowSize : Nat := 0x8000000000
def launchBase : Nat := 0xC80000000000
def domainTop : Nat := 0xC80009000000

/-- The bit of package bank `n` in a bank map (R12, R160). -/
def bankBit (m : Tab W64) (n : Nat) : Bool := bit (Tab.getD m (n / 64) 0).toNat (n % 64)
def bitsOf (w x : Nat) : List Nat := (List.range w).filter fun i => bit x i
/-- The banks set in a map, ascending. -/
def banksIn (m : Tab W64) : List Nat := m.flatMap fun (b, x) => (bitsOf 64 x.toNat).map fun k => b * 64 + k
/-- Live banks of the placement in force: PG_CAP.NLIVE (R160, R161). -/
def Memory.nlive (m : Memory) : Nat := 16384 - (banksIn m.liveMap).length
/-- Capacity of the Pergola in bytes (R160). -/
def Memory.capacity (m : Memory) : Nat := m.nlive * 0x800000
/-- The bank at a position of the live list (R160). -/
def Memory.liveBank (m : Memory) (i : Nat) : Nat := (banksIn m.liveMap).foldl (fun n r => if r ≤ n then n + 1 else n) i
/-- The position of a live bank in the live list (R160). -/
def Memory.livePos (m : Memory) (n : Nat) : Nat := n - ((banksIn m.liveMap).filter fun r => r < n).length
/-- Home bank of a Pergola address (R160). -/
def Memory.homeBank (m : Memory) (pa : Nat) : Nat := m.liveBank (pa / 256 % m.nlive)
/-- Physical address of byte `c` of row `row` of live bank `n`: the inverse of R160's placement. -/
def Memory.rowPa (m : Memory) (n row c : Nat) : Nat := ((8 * row + c / 256) * m.nlive + m.livePos n) * 256 + c % 256
/-- The row of its home bank in which a Pergola address lies (R160). -/
def Memory.rowOf (m : Memory) (pa : Nat) : Nat := (pa / 256 / m.nlive * 256 + pa % 256) / 2048
/-- Outer stack of an address (R148). -/
def stackOf (pa : Nat) : Nat := (pa - outerBase) / outerSize
/-- Home quarter of a local address (R157). -/
def Memory.homeQuarter (m : Memory) (pa : Nat) : Nat := if pa < outerBase then m.homeBank pa / 4096 else stackOf pa / 2
/-- Home slice of a local address (R157). -/
def Memory.homeSlice (m : Memory) (pa : Nat) : Nat := m.homeQuarter pa * 16 + pa / 128 % 16

/-! ### Lines (R157, R158, R432) -/

/-- Key of way 0 of the set that a line of 128 bytes lies in (R432). -/
def Memory.setKey (m : Memory) (line : Nat) : Nat := m.homeSlice (line * 128) * 8192 + line / 16 % 8192
/-- The way that holds a line. -/
def Memory.wayOf (m : Memory) (line : Nat) : Option Nat :=
  let k := m.setKey line
  (List.range 16).find? fun w => ((Tab.find m.lines (k * 16 + w)).map (·.1)) == some line
def Memory.wp (m : Memory) (slice : Nat) : WayPart := Tab.getD m.wayPart slice .reset
/-- Number of ways of a slice that take new lines: cache ways that are not leaving the cache (R158, R159, R432). -/
def WayPart.cacheWays (p : WayPart) : Nat := 16 - (if p.phase = 0 then p.spw.toNat else max p.spw.toNat p.spw1.toNat)
/-- The tree after a use of way `v`: every node on the path points to the child that does not hold it (R432). -/
def plruTouch (t : BitVec 16) (v : Nat) : BitVec 16 :=
  let n1 := 1
  let n2 := 2 + v / 8
  let n3 := 4 + v / 4
  let n4 := 8 + v / 2
  let put := fun (t : BitVec 16) (n : Nat) (hi : Bool) =>
    if hi then t &&& ~~~ (BitVec.ofNat 16 (2 ^ n)) else t ||| BitVec.ofNat 16 (2 ^ n)
  put (put (put (put t n1 (bit v 3)) n2 (bit v 2)) n3 (bit v 1)) n4 (bit v 0)
/-- The victim among ways below `c`: the walk of R432 with `n` levels left, at tree node `k`. Ways below `c` are eligible,
so a subtree has one exactly when its lowest way does. -/
def plruWalk (t : BitVec 16) (c : Nat) : Nat → Nat → Nat
  | 0, k => k - 16
  | n + 1, k =>
    let right := bit t.toNat k && decide (((2 * k + 1) * 2 ^ n) - 16 < c)
    plruWalk t c n (2 * k + b2n right)
/-- The way a fill takes: the highest invalid eligible way, else the tree's victim; none with no eligible way (R420, R432). -/
def Memory.fillWay (m : Memory) (line : Nat) : Option Nat :=
  let k := m.setKey line
  let c := (m.wp (k / 8192)).cacheWays
  if c = 0 then none else
  match (List.range c).reverse.find? fun w => (Tab.find m.lines (k * 16 + w)).isNone with
  | some w => some w
  | none => some (plruWalk (Tab.getD m.plru k 0) c 4 1)

/-- Copy `n` bytes with their marks from one store to another, both keyed by physical address. -/
def copyCells (src dst : List Host.Cell) (a n : Nat) : List Host.Cell := writeCells dst a (readCells src a n)
def copyMarks (src dst : Tab Bool) (a n : Nat) : Tab Bool :=
  (List.range (n / 16)).foldl (fun t i => Tab.put false t (a / 16 + i) (Tab.getD src (a / 16 + i) false)) dst
def clearCells (m : List Host.Cell) (a n : Nat) : List Host.Cell := writeCells m a (List.replicate n 0)
def clearMarks (t : Tab Bool) (a n : Nat) : Tab Bool := (List.range (n / 16)).foldl (fun t i => Tab.put false t (a / 16 + i) false) t

/-- Write a held line's data back to its bank or stack. -/
def Memory.writeBackAt (m : Memory) (line : Nat) : Memory :=
  { m with dram := copyCells m.main m.dram (line * 128) 128, dramPois := copyMarks m.mainPois m.dramPois (line * 128) 128 }
/-- Drop a way's line, without writing it back. -/
def Memory.dropWay (m : Memory) (key line : Nat) : Memory :=
  { m with lines := Tab.erase m.lines key, main := clearCells m.main (line * 128) 128,
           mainPois := clearMarks m.mainPois (line * 128) 128 }
/-- Evict the line of a way, writing it back when dirty (R157). -/
def Memory.evict (m : Memory) (key : Nat) : Memory :=
  match Tab.find m.lines key with
  | none => m
  | some (line, dirty) => (if dirty then m.writeBackAt line else m).dropWay key line
/-- Write back the line that holds an address, when it is held dirty; it stays, clean (R166, R182). -/
def Memory.clean (m : Memory) (line : Nat) : Memory :=
  match m.wayOf line with
  | none => m
  | some w =>
    let k := m.setKey line * 16 + w
    match Tab.find m.lines k with
    | some (_, true) => { m.writeBackAt line with lines := Tab.set m.lines k (line, false) }
    | _ => m
/-- Drop the line that holds an address, without writing it back (R366). -/
def Memory.invalidate (m : Memory) (line : Nat) : Memory :=
  match m.wayOf line with
  | none => m
  | some w => m.dropWay (m.setKey line * 16 + w) line
/-- Fill a line into way `w`: the victim is written back when dirty (R432). DEDUCED (log entry 67). -/
def Memory.fillAt (m : Memory) (line w : Nat) : Memory :=
  let k := m.setKey line
  let m := m.evict (k * 16 + w)
  { m with lines := Tab.set m.lines (k * 16 + w) (line, false), main := copyCells m.dram m.main (line * 128) 128,
           mainPois := copyMarks m.dramPois m.mainPois (line * 128) 128,
           plru := Tab.put 0 m.plru k (plruTouch (Tab.getD m.plru k 0) w) }
/-- Bring a line in, or count its use; the flag says whether the slice holds it (R432). -/
def Memory.touch (m : Memory) (line : Nat) : Bool × Memory :=
  match m.wayOf line with
  | some w => (true, { m with plru := Tab.put 0 m.plru (m.setKey line) (plruTouch (Tab.getD m.plru (m.setKey line) 0) w) })
  | none =>
    match m.fillWay line with
    | none => (false, m)
    | some w => (true, m.fillAt line w)

/-- Read bytes of one line at its home slice: bytes, whether poisoned, and the memory after (R157, R228).
DEDUCED (log entry 67). -/
def Memory.readLine (m : Memory) (pa n : Nat) : List Byte × Bool × Memory :=
  let (held, m) := m.touch (pa / 128)
  if held then (readCells m.main pa n, anyPois m.mainPois pa n, m) else (readCells m.dram pa n, anyPois m.dramPois pa n, m)
/-- Write bytes of one line at its home slice; with no way to take the line the write goes on to its bank or stack. -/
def Memory.writeLine (m : Memory) (pa : Nat) (bs : List Byte) (pois : Bool) : Memory :=
  let line := pa / 128
  let (held, m) := m.touch line
  if held then
    let k := m.setKey line * 16 + ((m.wayOf line).getD 0)
    { m with main := writeCells m.main pa bs, mainPois := markPois m.mainPois pa bs.length pois,
             lines := Tab.set m.lines k (line, true) }
  else { m with dram := writeCells m.dram pa bs, dramPois := markPois m.dramPois pa bs.length pois }

/-- Read `n` bytes line by line, `k` lines at most. -/
def Memory.readGo (m : Memory) (pa n : Nat) : Nat → List Byte × Bool × Memory
  | 0 => ([], false, m)
  | k + 1 =>
    if n = 0 then ([], false, m) else
    let c := min n (128 - pa % 128)
    let (bs, p, m) := m.readLine pa c
    let (bs', p', m) := Memory.readGo m (pa + c) (n - c) k
    (bs ++ bs', p || p', m)
/-- Read at the home slices. -/
def Memory.read (m : Memory) (pa n : Nat) : List Byte × Bool × Memory := m.readGo pa n (n / 128 + 2)
def Memory.writeGo (m : Memory) (pa : Nat) (bs : List Byte) (pois : Bool) : Nat → Memory
  | 0 => m
  | k + 1 =>
    if bs.isEmpty then m else
    let c := 128 - pa % 128
    Memory.writeGo (m.writeLine pa (bs.take c) pois) (pa + c) (bs.drop c) pois k
/-- Write at the home slices. -/
def Memory.write (m : Memory) (pa : Nat) (bs : List Byte) (pois : Bool) : Memory := m.writeGo pa bs pois (bs.length / 128 + 2)
/-- The lines that hold `n` bytes from an address. -/
def linesOf (pa n : Nat) : List Nat := (List.range (n / 128 + 2)).filterMap fun i =>
  if (pa / 128 + i) * 128 < pa + n then some (pa / 128 + i) else none
/-- Write back every dirty line of a range. -/
def Memory.cleanRange (m : Memory) (pa n : Nat) : Memory := (linesOf pa n).foldl Memory.clean m

/-- No remap and no other open row stands in the way of an access to local memory (R161, R163). -/
def Memory.rowFree (m : Memory) (a : Nat) : Bool :=
  decide (outerBase ≤ a) || !m.remapBusy && ((m.wayOf (a / 128)).isSome ||
    (let b := Tab.getD m.banks (m.homeBank a) .reset
     !b.open_ || b.row == m.rowOf a))

/-! ### The page walk (R167, R168) -/

/-- A fault of a walk: its trap code and level. -/
structure WalkFault where
  code : Nat
  level : Nat
  deriving DecidableEq, Repr

/-- What a walk finds: the page and the entries it used, leaf last. -/
structure Walk where
  pa : Nat
  size : Nat
  w : Bool
  fmta : Nat
  geom : Nat
  used : List Nat
  deriving DecidableEq, Repr

/-- Index, page size and table alignment of a level (R167). -/
def walkIndex (va : Nat) : Nat → Nat
  | 0 => field va 51 39
  | 1 => field va 38 30
  | 2 => field va 29 21
  | _ => field va 20 16
def pageSize : Nat → Nat
  | 0 => 2 ^ 39
  | 1 => 2 ^ 30
  | 2 => 2 ^ 21
  | _ => 2 ^ 16
def tableSize : Nat → Nat
  | 0 => 65536
  | 3 => 256
  | _ => 4096

/-- A page that lies, in whole or in part, in the hole of R148. -/
def inHole (pa size : Nat) : Bool := pa < domainBase && pa + size > holeBase

/-- One entry of R168 judged at a level: a fault, the next table, or a page. -/
inductive EntryKind where
  | bad (f : WalkFault)
  | table (pa : Nat)
  | page (pa : Nat)
  deriving DecidableEq, Repr

/-- DEDUCED (log entry 68). -/
def entryKind (x lvl : Nat) : EntryKind :=
  let addr := field x 47 8 * 256
  let fmta := field x 51 48
  let geom := field x 54 52
  if !bit x 0 then .bad ⟨trapPageFault, lvl⟩
  else if field x 7 5 != 0 || field x 63 55 != 0 || fmta == 15 || geom != 0 && (fmta < 7 || 10 < fmta) then
    .bad ⟨trapPteBad, lvl⟩
  else if bit x 1 then
    if lvl = 0 ∨ addr % pageSize lvl ≠ 0 ∨ inHole addr (pageSize lvl) then .bad ⟨trapPteBad, lvl⟩ else .page addr
  else if lvl = 3 ∨ addr % tableSize (lvl + 1) ≠ 0 ∨ holeBase ≤ addr then .bad ⟨trapPteBad, lvl⟩
  else .table addr

/-- Walk from a table at `lvl`, `n` levels left (R167, R168). Tables are read through the Glasshouse; one at or above the Pergola capacity
raises PG_RANGE with the access size of 8 as INFO (R160). DEDUCED (log entry 68). -/
def Memory.walkGo (m : Memory) (va table lvl : Nat) (write : Bool) (used : List Nat) : Nat → Except WalkFault Walk × Memory
  | 0 => (.error ⟨trapPteBad, lvl⟩, m)
  | n + 1 =>
    let at_ := table + 8 * walkIndex va lvl
    if at_ < outerBase ∧ m.capacity < at_ + 8 then (.error ⟨trapPgRange, 8⟩, m) else
    let (bs, _, m) := m.read at_ 8
    let x := Sys2Proof.ofBytes bs
    match entryKind x lvl with
    | .bad f => (.error f, m)
    | .table pa => Memory.walkGo m va pa (lvl + 1) write (used ++ [at_]) n
    | .page pa =>
      if write && !bit x 2 then (.error ⟨trapProtFault, lvl⟩, m)
      else (.ok { pa := pa, size := pageSize lvl, w := bit x 2, fmta := field x 51 48, geom := field x 54 52,
                  used := used ++ [at_] }, m)

/-- Neither a remap nor an open row keeps a walk from a table at `lvl` from its entries, `n` levels left (R161, R163). -/
def Memory.openGo (m : Memory) (va table lvl : Nat) : Nat → Bool
  | 0 => true
  | n + 1 =>
    let at_ := table + 8 * walkIndex va lvl
    if at_ < outerBase ∧ m.capacity < at_ + 8 then true
    else m.rowFree at_ &&
      match entryKind (Sys2Proof.ofBytes (m.read at_ 8).1) lvl with
      | .table pa => Memory.openGo m va pa (lvl + 1) n
      | _ => true
/-- A walk for a virtual address need not wait (R161, R163). -/
def Memory.walkOpen (m : Memory) (asid va : Nat) : Bool :=
  let (v, root) := Tab.getD m.trRoot asid (false, 0)
  !v || decide (holeBase ≤ root.toNat * 65536) || m.openGo va (root.toNat * 65536) 0 4

/-- Set A in every entry used, D in the leaf on a write (R168). DEDUCED (log entry 68). -/
def Memory.markUsed (m : Memory) (used : List Nat) (write : Bool) : Memory :=
  used.foldl (fun m a =>
    let (bs, _, m) := m.read a 1
    let d := if write && used.getLast? == some a then 0x18#8 else 0x08#8
    m.write a (bs.map fun b => b ||| d) false) m

/-- Walk the tables of an ASID for a virtual address (R167, R168). DEDUCED (log entry 68). -/
def Memory.walk (m : Memory) (asid va : Nat) (write : Bool) : Except WalkFault Walk × Memory :=
  let (v, root) := Tab.getD m.trRoot asid (false, 0)
  let base := root.toNat * 65536
  if !v then (.error ⟨trapPageFault, 0⟩, m)
  else if holeBase ≤ base then (.error ⟨trapPteBad, 0⟩, m)
  else
    match m.walkGo va base 0 write [] 4 with
    | (.error f, m) => (.error f, m)
    | (.ok w, m) => (.ok w, m.markUsed w.used write)

/-! ### Translation caches (R170) -/

def Tlb.hit (t : Tlb) (asid va : Nat) : Bool := t.asid == asid && t.va ≤ va && va < t.va + t.size
/-- The entry of a port's cache that answers; a first write needs one that has D (R168). -/
def Memory.tlbHit (m : Memory) (port asid va : Nat) (write : Bool) : Option Tlb :=
  (Tab.getD m.tlb port []).find? fun t => t.hit asid va && (!write || t.w && t.d)

/-- Translate through the cache of a memory port: a hit, or a walk that fills it. A first write through an entry walks
again so that D is set; a full cache gives up the entry that `pick` names. -/
def Memory.translate (m : Memory) (port asid va : Nat) (write : Bool) (pick : Nat) : Except WalkFault Tlb × Memory :=
  match m.tlbHit port asid va write with
  | some t => (.ok t, m)
  | none =>
    let c := Tab.getD m.tlb port []
    match m.walk asid va write with
    | (.error f, m) => (.error f, m)
    | (.ok w, m) =>
      let t : Tlb := { asid := asid, va := va / w.size * w.size, size := w.size, pa := w.pa, w := w.w, d := write, fmta := w.fmta,
                       geom := w.geom }
      let c := c.filter fun u => !u.hit asid va
      let c := if c.length < 64 then c else listDrop c (pick % 64)
      (.ok t, { m with tlb := Tab.set m.tlb port (c ++ [t]) })

/-- Drop the translations that `p` names from every cache. -/
def Memory.dropTlb (m : Memory) (p : Tlb → Bool) : Memory :=
  { m with tlb := m.tlb.map fun (k, c) => (k, c.filter fun t => !p t) }

/-- Local memory from `a` on, `n` bytes, holds zeros, but for what lies in the `k` bytes from `b` (R69). -/
def Memory.zeroBut (m : Memory) (a n b k : Nat) : Memory :=
  let keep := fun (x : Nat) => decide (x < a) || decide (a + n ≤ x) || decide (b ≤ x) && decide (x < b + k)
  { m with main := m.main.filter fun x => keep x.1, dram := m.dram.filter fun x => keep x.1
           mainPois := m.mainPois.filter fun x => keep (x.1 * 16), dramPois := m.dramPois.filter fun x => keep (x.1 * 16) }

/-! ### Scratchpads (R158, R159) -/

def mib (n : Nat) : Nat := n * 2 ^ 20

/-- How a slice answers a SCRATCH access (R158, R159). -/
inductive ScratchSay where
  | proceed | waits | range
  deriving DecidableEq, Repr

def WayPart.say (p : WayPart) (asid off : Nat) : ScratchSay :=
  if p.phase = 0 then (if p.spasid.toNat = asid ∧ off < mib p.spw.toNat then .proceed else .range)
  else if p.spasid = p.spasid1 then
    if p.spasid.toNat ≠ asid then .range
    else if off < mib (min p.spw.toNat p.spw1.toNat) then .proceed
    else if off < mib p.spw1.toNat then .waits
    else .range
  else if p.spasid1.toNat = asid ∧ off < mib p.spw1.toNat then .waits
  else .range

end Sys2Proof.Machine
end

