-- ==== Sys2Proof/Machine/Place.lean ====
section
/-! DEFINITION. Where an access goes (R31, R32, R147, R149, R152, R154, R158, R160), what a read and a write do there, the
region L1, requests to peers (R33, R34), and when an access may perform (R163, R172, R178, R180, R335). -/
namespace Sys2Proof.Machine

/-! ### From an address to a place -/

/-- A fault with the access size in INFO and the address in ADDR (R218). -/
def sizeTrap (code size addr : Nat) : Trap := { code := code, info := BitVec.ofNat 64 size, addr := BitVec.ofNat 64 addr }
def walkTrap (f : WalkFault) (va : Nat) : Trap := { code := f.code, info := BitVec.ofNat 64 f.level, addr := BitVec.ofNat 64 va }

/-- The place of a physical address (R31, R32, R148, R160). `va` is the address a fault names. A launch window whose id is clear in
LK_PEERMAP raises DOMAIN_RANGE for a read too: R32 says both that and that any launch window reads as zeros, and the model takes the
range check first, a DESIGN CHOICE (log entry 78). -/
def State.placeOf (s : State) (pa size va : Nat) : Except Trap Place :=
  let loc := fun (pa : Nat) =>
    if pa < outerBase && s.mem.capacity < pa + size then .error (sizeTrap trapPgRange size va)
    else .ok { kind := .global, addr := pa }
  let domain : Except Trap Place := .error { code := trapDomainRange, addr := BitVec.ofNat 64 pa }
  if pa < holeBase then loc pa
  else if pa < domainBase then .error { code := trapPteBad, addr := BitVec.ofNat 64 va }
  else if pa < launchBase then
    let n := (pa - domainBase) / windowSize
    if n = s.lnk.self.toNat then loc ((pa - domainBase) % windowSize)
    else if s.lnk.peerMap.getLsbD n then .ok { kind := .domain, addr := pa } else domain
  else if pa < domainTop then
    let n := (pa - launchBase) / 0x100000
    if (pa - launchBase) % 0x100000 < 0x8000 && (n == s.lnk.self.toNat || s.lnk.peerMap.getLsbD n) then
      .ok { kind := .domain, addr := pa }
    else domain
  else domain

/-- Translate a virtual address for an element's access, through its memory port (R155, R167, R170). -/
def State.translate (s : State) (port asid va : Nat) (write : Bool) : Except Trap Tlb × State :=
  let (pick, s) := s.choose 64
  match s.mem.translate port asid va write pick with
  | (.ok t, m) => (.ok t, s.setMem m)
  | (.error f, m) => (.error (walkTrap f va), s.setMem m)

/-- A translation need not wait for a table entry behind a remap or an open row (R161, R163). -/
def State.walkReady (s : State) (port asid va : Nat) (write : Bool) : Bool :=
  decide (2 ^ 52 ≤ va) || (s.mem.tlbHit port asid va write).isSome || s.mem.walkOpen asid va

/-- Place of a GLOBAL access of `size` bytes at `va`, with the page's format (R147, R168). -/
def State.locateGlobal (s : State) (port asid va size : Nat) (write : Bool) : Except Trap (Place × Nat) × State :=
  if 2 ^ 52 ≤ va then (.error (walkTrap ⟨trapPageFault, 0⟩ va), s) else
  match s.translate port asid va write with
  | (.error t, s) => (.error t, s)
  | (.ok t, s) =>
    match s.placeOf (t.pa + (va - t.va)) size va with
    | .error e => (.error e, s)
    | .ok pl => (.ok (pl, t.fmta + 16 * t.geom), s)

/-- Place of a BUFFER address of a task's context (R147, R152). -/
def State.bufferPlace (s : State) (t : Task) (c addr size : Nat) : Except Trap Place :=
  let bad : Except Trap Place := .error (sizeTrap trapBufRange size addr)
  let x := field addr 22 16
  let y := field addr 29 23
  if addr / 2 ^ 30 ≠ 0 ∨ t.w ≤ x ∨ t.h ≤ y then bad else
  let e := t.elem x y
  let off := field addr 15 0
  if s.roleCode e c = 0 ∧ off + size ≤ s.extent e c then .ok { kind := .buffer, addr := bankKey e c off } else bad

/-- Place of a BUFFER access by a firing (R147, R152). -/
def State.locateBuffer (s : State) (i : Issue) (addr size : Nat) : Except Trap Place :=
  let bad : Except Trap Place := .error (sizeTrap trapBufRange size addr)
  match s.issTask i with
  | none => bad
  | some (_, t) => s.bufferPlace t i.ctx addr size

/-- Place of a SCRATCH access (R147, R158, R159). -/
def State.locateScratch (s : State) (asid addr size : Nat) : Except Trap Place :=
  let off := field addr 23 0
  let slice := field addr 29 24
  if addr / 2 ^ 30 ≠ 0 ∨ (s.mem.wp slice).say asid off = .range then .error (sizeTrap trapSpRange size addr)
  else .ok { kind := .scratch, addr := slice * 2 ^ 24 + off }

/-- The place an access of a memory node reaches, checked by R147 and R149. -/
def State.locate (s : State) (i : Issue) (space addr size : Nat) (write : Bool) : Except Trap (Place × Nat) × State :=
  if addr % size ≠ 0 then (.error (sizeTrap trapAlign size addr), s)
  else if space = 0 then s.locateGlobal (s.memPort i.elem) (s.issAsid i) addr size write
  else if space = 1 then ((s.locateBuffer i addr size).map fun x => (x, 0), s)
  else ((s.locateScratch (s.issAsid i) addr size).map fun x => (x, 0), s)

/-! ### The region L1 (R154, R176) -/

/-- The cache-role elements of a task's region in a context, row-major from the north-west corner. -/
def State.l1Banks (s : State) (t : Task) (c : Nat) : List Nat := t.elems.filter fun e => s.roleCode e c == 2
/-- DESIGN CHOICE (log entry 65). -/
def l1Key (tid c line : Nat) : Nat := (tid * 4 + c) * 2 ^ 42 + line
/-- Home bank and set of a line (R154). -/
def State.l1Set (s : State) (t : Task) (c line : Nat) : Option (Nat × Nat) :=
  let bs := s.l1Banks t c
  match bs[line % bs.length]? with
  | none => none
  | some e =>
    let sets := s.extent e c / 1024 * 4
    some (line % bs.length, line / bs.length % (if sets = 0 then 1 else sets))
/-- Drop every line of a task's region L1 in a context. -/
def State.l1Drop (s : State) (tid c : Nat) : State :=
  s.setMem { s.mem with l1 := s.mem.l1.filter fun x => x.1 / 2 ^ 42 != tid * 4 + c }
/-- Drop every line of a task's region L1s: an acquire, a release or a JOINF of a thread holds in whatever context the thread goes on
(R154, R178, R181). -/
def State.l1DropTask (s : State) (tid : Nat) : State := s.setMem { s.mem with l1 := s.mem.l1.filter fun x => x.1 / 2 ^ 44 != tid }
/-- Drop one line of a task's region L1s, but for those of context `keep`: a thread that reads or writes it elsewhere must not read an
older write later (R173). -/
def State.l1DropLine (s : State) (tid line : Nat) (keep : Option Nat := none) : State :=
  s.setMem { s.mem with l1 := ((List.range 4).filter fun c => some c != keep).foldl (fun t c => Tab.erase t (l1Key tid c line)) s.mem.l1 }
/-- A store writes through: a line that is present takes it, and the other contexts' copies go (R154, R173). -/
def State.l1Store (s : State) (tid c pa : Nat) (bs : List Byte) : State :=
  let k := l1Key tid c (pa / 64)
  let s := s.l1DropLine tid (pa / 64) (some c)
  match Tab.find s.mem.l1 k with
  | none => s
  | some (old, u) =>
    let new := old.take (pa % 64) ++ bs ++ old.drop (pa % 64 + bs.length)
    s.setMem { s.mem with l1 := Tab.set s.mem.l1 k (new, u) }
/-- Bring a line in, replacing the least recently used line of a full set (R154). DEDUCED (log entry 67). -/
def State.l1Fill (s : State) (tid c line : Nat) (bs : List Byte) : State :=
  let s := s.l1DropLine tid line (some c)
  match s.task? tid with
  | none => s
  | some t =>
    match s.l1Set t c line with
    | none => s
    | some hs =>
      let mine := s.mem.l1.filter fun x => x.1 / 2 ^ 42 == tid * 4 + c && s.l1Set t c (x.1 % 2 ^ 42) == some hs
      let l1 :=
        if mine.length < 4 then s.mem.l1
        else
          match mine.foldl (fun (b : Option (Nat × Nat)) x =>
            match b with
            | some (_, u) => if x.2.2 < u then some (x.1, x.2.2) else b
            | none => some (x.1, x.2.2)) none with
          | some (k, _) => Tab.erase s.mem.l1 k
          | none => s.mem.l1
      s.setMem { s.mem with l1 := Tab.set l1 (l1Key tid c line) (bs, s.mem.l1Clock), l1Clock := s.mem.l1Clock + 1 }
/-- A hit in the region L1, counted as a use. -/
def State.l1Hit (s : State) (tid c pa n : Nat) : Option (List Byte) × State :=
  let k := l1Key tid c (pa / 64)
  match Tab.find s.mem.l1 k with
  | none => (none, s)
  | some (bs, _) =>
    (some ((bs.drop (pa % 64)).take n),
     s.setMem { s.mem with l1 := Tab.set s.mem.l1 k (bs, s.mem.l1Clock), l1Clock := s.mem.l1Clock + 1 })

/-! ### Reads and writes at a place -/

/-- Read at the place that holds a location; a domain place is reached by a request instead. DEDUCED (log entry 93). -/
def State.readAt (s : State) (k : PlaceKind) (a n : Nat) : List Byte × Bool × State :=
  match k with
  | .global =>
    let (bs, p, m) := s.mem.read a n
    (bs, p, s.setMem m)
  | .buffer => (readCells s.mem.bank a n, anyPois s.mem.bankPois a n, s)
  | .scratch => (readCells s.mem.scratch a n, anyPois s.mem.scratchPois a n, s)
  | .domain => (List.replicate n 0, false, s)

/-- A watch of R344 on the granule, and a held launch's semaphores (R72), are due to be read again. DEDUCED (log entry 85). -/
def State.noteWrite (s : State) (k : PlaceKind) (a n : Nat) : State :=
  let hit := fun (w : Watch) => w.place.kind == k && w.place.addr / 64 * 64 < a + n && a < w.place.addr / 64 * 64 + 64
  let s := s.setMem { s.mem with watches := s.mem.watches.map fun w => if hit w then { w with dirty := w.slot } else w }
  s.setSch { s.sch with held := s.sch.held.map fun h => { h with dirty := true } }

/-- The key of a byte's stamp: scratchpad bytes follow all physical addresses (R180). DEDUCED (log entry 88). -/
def PlaceKind.stampKey (k : PlaceKind) (a : Nat) : Nat := if k = .scratch then 2 ^ 48 + a else a
/-- Bytes that are written carry no stamp, until an element's write gives them one (R180). -/
def Memory.unstamp (m : Memory) (a n : Nat) : Memory := { m with wstamp := m.wstamp.filter fun x => x.1 < a || a + n ≤ x.1 }
/-- Write at the place that holds a location; `pois` marks every part touched (R228). DEDUCED (log entry 93). -/
def State.storeAt (s : State) (k : PlaceKind) (a : Nat) (bs : List Byte) (pois : Bool) : State :=
  let s :=
    match k with
    | .global => s.setMem ((s.mem.write a bs pois).unstamp a bs.length)
    | .buffer => s.setMem { s.mem with bank := writeCells s.mem.bank a bs, bankPois := markPois s.mem.bankPois a bs.length pois }
    | .scratch =>
      s.setMem (Memory.unstamp { s.mem with scratch := writeCells s.mem.scratch a bs,
                                            scratchPois := markPois s.mem.scratchPois a bs.length pois } (k.stampKey a) bs.length)
    | .domain => s
  s.noteWrite k a bs.length
/-- A write of one of the package's own agents, which follows the elements' writes of its cycle (R348). -/
def State.writeAt (s : State) (k : PlaceKind) (a : Nat) (bs : List Byte) (pois : Bool) : State :=
  (s.storeAt k a bs pois).noteTurn k.space a bs.length agentRank

/-! ### Requests to peers (R32 to R36) -/

/-- LK_PORTLIVE: ports UP or SPARING, and not isolated (R42). -/
def Links.live (l : Links) : List Nat :=
  (List.range 18).filter fun p =>
    let x := Tab.getD l.ports p .reset
    !x.iso && (x.state == 2 || x.state == 3)
/-- The peer and peer-local offset of a domain address (R31). -/
def peerOf (pa : Nat) : Nat := if pa < launchBase then (pa - domainBase) / windowSize else (pa - launchBase) / 0x100000
def peerOffset (pa : Nat) : Nat := if pa < launchBase then (pa - domainBase) % windowSize else (pa - launchBase) % 0x100000
/-- The port a request leaves on; none with no live port (R33). -/
def Links.portFor (l : Links) (pa : Nat) : Option Nat :=
  let ps := l.live
  ps[(peerOffset pa / 256 + peerOf pa) % ps.length]?
/-- A peer's requests are turned away: the peer is isolated, or the drain has isolated every one (R37, R39). -/
def Links.turnsAway (l : Links) (n : Nat) : Bool := l.peerIso.getLsbD n || decide (3 ≤ l.drain.toNat)
/-- An Ethernet port is up. PRESUMED (log entry 9). -/
def Links.ethIsUp (l : Links) (p : Nat) : Bool := Tab.getD l.ethUp p true
/-- The port that carries the traffic of Ethernet port `p`; none where both are down (R41). PRESUMED (log entry 9). -/
def Links.ethFor (l : Links) (p : Nat) : Option Nat :=
  if l.ethIsUp p then some p else if l.ethIsUp (1 - p) then some (1 - p) else none
/-- New requests to a peer complete as for an isolated one: also after its drain notice, and during a drain here (R32, R33, R39). -/
def Links.cutOff (l : Links) (pa : Nat) : Bool :=
  l.peerIso.getLsbD (peerOf pa) || l.noticed.contains (peerOf pa) || l.live.isEmpty || l.drain != 0

/-- Add a write, atomic or read completed by isolation to the open drop-log entries of an object (R36, R38). Where requests complete so
without an isolated object, because no port is live, the peer has announced a drain or this package drains, R36 names no entry for
them: they enter one only if the peer is isolated too, a DESIGN CHOICE (log entry 78). A prefetch leaves no trace (R338). -/
def Links.logDrop (l : Links) (port : Bool) (obj asid pa : Nat) (k : ReqKind) : Links :=
  { l with drop := l.drop.map fun (i, d) =>
      if d.valid && d.opened && d.obj.toNat == obj && d.kind == (if port then 1 else 0) then
        match k with
        | .read => (i, { d with reads := BitVec.ofNat 32 (satTo 32 (d.reads.toNat + 1)) })
        | .atomic _ => (i, { d with atomics := BitVec.ofNat 32 (satTo 32 (d.atomics.toNat + 1)) })
        | .write =>
          (i, { d with count := BitVec.ofNat 32 (satTo 32 (d.count.toNat + 1)),
                       first := if d.count = 0 then BitVec.ofNat 48 pa else d.first,
                       asid := if d.count = 0 then BitVec.ofNat 8 asid else d.asid })
        | _ => (i, d)
      else (i, d) }

/-- A domain address in the package's own launch window (R32). -/
def Links.ownRing (l : Links) (a : Nat) : Bool := launchBase ≤ a && peerOf a == l.self.toNat
/-- An agent of the package writes less than one whole entry into its own launch ring: dropped and counted (R60). -/
def State.badRing (s : State) : State :=
  s.setQue { s.que with rackBadw := BitVec.ofNat 16 (satTo 16 (s.que.rackBadw.toNat + 1)) }

/-- Send an MSI-X vector, if there is one. -/
def State.sendIrq (s : State) (irq : Option Nat) : State :=
  match irq with
  | some v => s.emitOut (.msix v)
  | none => s
/-- Send a request to a peer: it leaves on the port of R33, or waits behind an earlier one to its granule that a changed
live mask left on another port (R34). `acc` names the access, watch, binding or copy that the completion goes to, `tag` the granule of a
copy, `marks` the poison of a write's parts, `irq` the MSI-X vector that waits for its completion (R59). -/
def State.sendReq (s : State) (k : ReqKind) (pa size : Nat) (data : List Byte) (acc : Option Nat) (asid : Nat) (tag : Nat := 0)
    (marks : List Bool := []) (irq : Option Nat := none) : State :=
  let id := s.fresh
  let port := (s.lnk.portFor pa).getD 0
  let waits := s.lnk.reqs.any fun q => q.pa / 256 == pa / 256 && (q.waits || q.port != port)
  let q : Req := { id := id, peer := peerOf pa, port := port, kind := k, pa := pa, size := size, data := data, marks := marks,
                   acc := acc, asid := asid, tag := tag, sentAt := s.units, waits := waits, irq := irq }
  let s := { s with fresh := id + 1, lnk := { s.lnk with reqs := s.lnk.reqs ++ [q] } }
  if waits then s else s.emitOut (.ualinkRequest id (peerOf pa) port pa size k data marks)

/-! ### Reads that no memory node makes (R33 to R37, R163) -/

/-- What such a read gives: bytes with the source of their poison, if any (R228); the time is not come, because a peer has not answered or
a bank is closed to it; or a fault. -/
inductive Rd where
  | ok (bs : List Byte) (src : Option (BitVec 3))
  | waits
  | fault (t : Trap)

/-- The fetches of a reader are over. -/
def State.dropFetches (s : State) (who : Reader) : State :=
  s.setLnk { s.lnk with fetches := s.lnk.fetches.filter fun f => f.reader != who }
/-- Read a window: a launch window gives zeros without a port, a cut-off peer poison, and any other peer what it answers to the
request that the reader sends once (R32, R33, R36); a read that a cut-off peer completes is
logged once (R38). DESIGN CHOICE (log entry 39). -/
def State.readWindow (s : State) (who : Reader) (asid pa n : Nat) : Rd × State :=
  if launchBase ≤ pa then (.ok (List.replicate n 0) none, s) else
  match s.lnk.fetches.find? fun f => f.reader == who && f.pa == pa && f.size == n with
  | some f =>
    match f.ans with
    | some (bs, src) => (.ok bs src, s)
    | none => (.waits, s)
  | none =>
    if s.lnk.cutOff pa then
      let l := s.lnk.logDrop false (peerOf pa) asid pa .read
      let f : Fetch := { reader := who, req := s.fresh, pa := pa, size := n, ans := some (List.replicate n 0, some 2) }
      (.ok (List.replicate n 0) (some 2), { s with fresh := s.fresh + 1, lnk := { l with fetches := l.fetches ++ [f] } })
    else
      let f : Fetch := { reader := who, req := s.fresh, pa := pa, size := n, ans := none }
      let s := s.sendReq .read pa n [] none asid
      (.waits, s.setLnk { s.lnk with fetches := s.lnk.fetches ++ [f] })
/-- The answer to a fetch, or the synthesised one. -/
def State.answerFetch (s : State) (req : Nat) (bs : List Byte) (src : Option (BitVec 3)) : State :=
  s.setLnk { s.lnk with fetches := s.lnk.fetches.map fun f => if f.req = req ∧ f.ans.isNone then { f with ans := some (bs, src) } else f }

/-! ### Thread order (R172, R335) -/

def Access.opc (x : Access) : Nat := (x.instr.node?.map (·.1)).getD 0
def Access.node (x : Access) : NodeRec := (x.instr.node?.map (·.2)).getD
  { fmt := 0, gapA := .refuse, gapB := .refuse, pm := .none, aux := 0, lit := false, v := false, dst0 := .none,
    dst1 := .none, lit32 := 0 }
def Access.lsid (x : Access) : Nat := x.node.x
def Access.acquires (x : Access) : Bool := x.node.order % 2 == 1
def Access.releases (x : Access) : Bool := 2 ≤ x.node.order

/-- The LSID of a memory node: groups 0x9 and 0xA but JOINF, and the writing forms of group 0xC (R332, R335, R351). -/
def memLsid (opc : Nat) (r : NodeRec) : Option Nat :=
  if (opc / 16 = 9 ∨ opc / 16 = 10) ∧ opc ≠ 0xA9 then some r.x
  else if opc = 0xC3 ∨ opc = 0xC4 ∨ opc = 0xC7 ∨ opc = 0xC9 then some r.x
  else none
/-- Whether a record is a writing node or an acquire (R253, R335). -/
def writesOrAcquires (opc : Nat) (r : NodeRec) : Bool :=
  match acctClass opc r with
  | some (.lsid _) => true
  | _ => (memLsid opc r).isSome && (opc == 0x90 || opc == 0x92 || opc == 0x94 || opc == 0xAA) && r.order % 2 == 1

def State.threadOf (s : State) (aid : Nat) : Nat := ((s.act? aid).map (·.thread)).getD (2 ^ 14)
/-- `x` comes before `y` in thread order (R172): a form without an LSID is ordered across activations only (R335). A thread's activations
commit in the order of their numbers, since each is numbered as it starts. DEDUCED (log entry 92). -/
def State.ordered (s : State) (x y : Access) : Bool :=
  s.threadOf x.iss.f.aid == s.threadOf y.iss.f.aid &&
    (if x.iss.f.aid = y.iss.f.aid then
       match memLsid x.opc x.node, memLsid y.opc y.node with
       | some a, some b => decide (a < b)
       | _, _ => false
     else decide (x.iss.f.aid < y.iss.f.aid))
def Access.overlaps (x y : Access) : Bool :=
  x.kind.space == y.kind.space && x.parts.any fun (a, n) => y.parts.any fun (b, m) => decide (a < b + m ∧ b < a + n)

/-- The access only loads: LD, LDV, LDB, and what a form of an engine reads as its descriptor or packet (R335). R336 names WAITA and PREF
beside the loads: a WAITA waits, and is waited for, as R335 says of a node that is no load. DEDUCED (log entry 92). -/
def Access.loads (x : Access) : Bool :=
  match x.opc with
  | 0x90 | 0x92 | 0x94 | 0xBC | 0xC0 | 0xC3 | 0xC9 | 0xE8 => true
  | _ => false

/-- A task has ended and only waits for what it has committed to perform. -/
def Task.halting (t : Task) : Bool :=
  match t.phase with
  | .halting _ _ => true
  | _ => false
/-- Every memory node of the activation with a lower LSID has fired, and every writing node and acquire of the earlier
activations of its thread in flight (R335). Nothing more fires that an ended task waits for (R393). -/
def State.othersFired (s : State) (aid lsid : Nat) : Bool :=
  match s.act? aid with
  | none => false
  | some a =>
    let firedAll := fun (a : Act) (p : Nat → NodeRec → Bool) =>
      (s.actNodes a).all fun (e, n) =>
        match s.recAt e a.ctx n with
        | none => true
        | some (opc, r) => !p opc r || a.fired.any fun x => x.node == e * 64 + n
    let own := firedAll a fun opc r =>
      match memLsid opc r with
      | some l => decide (l < lsid)
      | none => false
    let earlier := match s.thread? a.thread with
      | none => []
      | some t => t.acts.filter fun x => decide (x < aid)
    (own || ((s.task? a.tid).map Task.halting).getD false) && earlier.all fun x =>
      match s.act? x with
      | none => true
      | some b => firedAll b writesOrAcquires

/-- Cut a range at 16-byte boundaries. -/
def cut16 (a n : Nat) : Nat → List (Nat × Nat)
  | 0 => []
  | k + 1 => if n = 0 then [] else
    let c := min n (16 - a % 16)
    (a, c) :: cut16 (a + c) (n - c) k

/-- Bytes that a form of an engine reads as its descriptor or packet: virtual address and length (R335). -/
def State.descRange (s : State) (h : HeldOp) : Nat × Nat :=
  let a := valOf h.iss.f.a % 2 ^ 64
  match (h.instr.node?).map (·.1) with
  | some 0xC0 | some 0xC3 | some 0xE8 => (a, 64)
  | some 0xBC | some 0xC9 =>
    let ext := match (s.locateGlobal (s.memPort h.iss.elem) (s.issAsid h.iss) (a + 10) 1 false).1 with
      | .ok (pl, _) => Sys2Proof.ofBytes (s.readAt pl.kind pl.addr 1).1
      | .error _ => 0
    (a, 128 * (1 + ext))
  | _ => (a, 0)
/-- A memory node that waits for its translation (R161, R163, R170), or a PREF that waits to perform. -/
def HeldOp.isMem (h : HeldOp) : Bool :=
  match (h.instr.node?).map (·.1) with
  | some c => decide (0x90 ≤ c ∧ c < 0xB0)
  | none => false
def HeldOp.isPref (h : HeldOp) : Bool := (h.instr.node?).map (·.1) == some 0x96
/-- A held form as an access of no bytes, for its place in thread order. -/
def HeldOp.access (h : HeldOp) : Access :=
  { id := h.id, instr := h.instr, iss := h.iss, kind := .global, parts := [], data := [], data2 := [], write := false,
    todo := 1, result := .done, got := [], attr := 0, since := h.since, waits := false, sent := false }
/-- A form is held from its issue on. -/
def State.holdOp (s : State) (i : Issue) (ins : Instr) : HeldOp × State :=
  let h : HeldOp := { id := s.fresh, instr := ins, iss := i, since := s.cycles }
  (h, { s with fresh := s.fresh + 1, fab := { s.fab with held := s.fab.held ++ [h] } })
def State.dropHeld (s : State) (id : Nat) : State :=
  (s.setFab { s.fab with held := s.fab.held.filter fun h => h.id != id }).dropFetches (.form id)
def State.setHeldOp (s : State) (h : HeldOp) : State :=
  s.setFab { s.fab with held := s.fab.held.map fun y => if y.id = h.id then h else y }
/-- What a waiting form of an engine has in thread order: the loads of its descriptor or packet, by aligned 16-byte part, and the
form itself where it has an LSID (R335). DEDUCED (log entry 92). -/
def State.descAccesses (s : State) (h : HeldOp) : List Access :=
  let self := h.access
  let (va, n) := s.descRange h
  let lsid := (h.instr.node?).bind fun x => memLsid x.1 x.2
  if h.isMem ∨ n = 0 ∧ lsid = none then [] else
  self :: (cut16 va n (n / 16 + 2)).filterMap fun (a, k) =>
    match (s.locateGlobal (s.memPort h.iss.elem) (s.issAsid h.iss) a k false).1 with
    | .ok (pl, _) => some { self with kind := pl.kind, parts := [(pl.addr, k)] }
    | .error _ => none

def Watch.node (w : Watch) : NodeRec := Instr.record w.instr
/-- The watch as an access, for the guards of its first read. -/
def Watch.access (w : Watch) : Access :=
  { id := w.id, instr := w.instr, iss := w.iss, kind := w.place.kind, parts := [(w.place.addr, w.size)], data := [], data2 := [],
    write := false, todo := 1, result := .done, got := [], attr := 0, since := w.first, waits := false, sent := false }
/-- Guards of ordering: overlapping earlier accesses, but for a load before a load, earlier acquires, and what a release waits for (R178,
R335). A WAITA that waits, a form that waits to read its descriptor, and a memory node whose address is not translated yet have not
performed; a PREF delays nothing (R338). DEDUCED (log entry 92). -/
def State.orderOk (s : State) (x : Access) : Bool :=
  ((s.mem.acc ++ (s.mem.watches.map Watch.access) ++ s.fab.held.flatMap s.descAccesses).all fun y =>
    y.id == x.id || y.todo == 0 || !s.ordered y x ||
      (!(y.overlaps x && !(y.loads && x.loads)) && !y.acquires && !x.releases))
    && s.fab.held.all fun h => !h.isMem || h.isPref || !s.ordered h.access x

/-- A load has bound `bs` from `a` on: what comes before it in the thread and has these bytes still to read reads them as it did, so that
the two return writes in order (R173). -/
def State.snapEarlier (s : State) (x : Access) (k : PlaceKind) (a : Nat) (bs : List Byte) (p : Bool) : State :=
  let add := fun (old : List Snap) =>
    old ++ (((List.range bs.length).filterMap fun j =>
      if old.any fun y => y.kind.space == k.space && y.addr == a + j then none
      else (bs[j]?).map fun b => ({ kind := k, addr := a + j, byte := b, pois := p } : Snap)))
  let here : Access := { x with kind := k, parts := [(a, bs.length)] }
  let hit := fun (y : Access) => y.id != x.id && y.todo != 0 && y.loads && !y.sent && s.ordered y x && y.overlaps here
  let acc := s.mem.acc.map fun y => if hit y then { y with snap := add y.snap } else y
  let held := s.fab.held.map fun h => if (s.descAccesses h).any hit then { h with snap := add h.snap } else h
  (s.setMem { s.mem with acc := acc }).setFab { s.fab with held := held }
/-- Bytes read at `a`, with what a later load has bound of them in their place (R173). -/
def patchSnap (snap : List Snap) (k : PlaceKind) (a : Nat) (bs : List Byte) (p : Bool) : List Byte × Bool :=
  let at_ := fun (j : Nat) => snap.find? fun y => y.kind.space == k.space && y.addr == a + j
  let js := List.range bs.length
  (js.filterMap fun j => (at_ j).map (·.byte) <|> bs[j]?,
   (p && js.any fun j => (at_ j).isNone) || js.any fun j => ((at_ j).map (·.pois)).getD false)

/-- Vector clocks (R180), keyed quarter * 4 + counter. DEDUCED (log entry 88). -/
def Memory.vOf (m : Memory) (q : Nat) : List Nat := (List.range 4).map fun j => Tab.getD m.vclock (q * 4 + j) 0
/-- DEDUCED (log entry 88). -/
def Memory.aOf (m : Memory) (q : Nat) : List Nat := (List.range 4).map fun j => Tab.getD m.aclock (q * 4 + j) 0
/-- Counters compared as serial numbers (R180). DEDUCED (log entry 88). -/
def serialGe (a b : Nat) : Bool := (a + 2 ^ 32 - b % 2 ^ 32) % 2 ^ 32 < 2 ^ 31
/-- Quarter `h` has applied what a write of quarter `q` depends on: every counter but its origin's (R180). -/
def Memory.applied (m : Memory) (h q : Nat) : Bool :=
  (List.range 4).all fun j => j == q || serialGe (Tab.getD m.aclock (h * 4 + j) 0) (Tab.getD m.vclock (q * 4 + j) 0)
/-- Quarter `h` has applied all that the clock `v` names, as an access that follows an acquire needs (R180). -/
def Memory.appliedAll (m : Memory) (h : Nat) (v : List Nat) : Bool :=
  (List.range 4).all fun j => serialGe (Tab.getD m.aclock (h * 4 + j) 0) (v.getD j 0)
/-- The quarter of the slice that a write or an access of an element reaches: none for an element's bank (R157, R158, R180). -/
def Memory.quarterAt (m : Memory) (k : PlaceKind) (a : Nat) : Option Nat :=
  match k with
  | .global => some (m.homeQuarter a)
  | .scratch => some (a / 2 ^ 24 / 16)
  | _ => none
/-- A write of an element of quarter `q` performs on `n` bytes from `a`: it takes the next stamp, its bytes carry the clock it depends on
with that stamp, and the slice's quarter has applied it (R180). DEDUCED (log entry 88). -/
def Memory.stampWrite (m : Memory) (q : Nat) (k : PlaceKind) (a n : Nat) : Memory :=
  match m.quarterAt k a with
  | none => m
  | some h =>
    let v := (Tab.getD m.vclock (q * 4 + q) 0 + 1) % 2 ^ 32
    let m := { m with vclock := Tab.set m.vclock (q * 4 + q) v, aclock := Tab.set m.aclock (h * 4 + q) v }
    { m with wstamp := (List.range n).foldl (fun t j => Tab.set t (k.stampKey a + j) (m.vOf q)) m.wstamp }
/-- A clock is merged into a quarter's own, the greater of each counter (R180). -/
def Memory.mergeClock (m : Memory) (q : Nat) (v : List Nat) : Memory :=
  (List.range 4).foldl (fun m j =>
    if serialGe (v.getD j 0) (Tab.getD m.vclock (q * 4 + j) 0) then { m with vclock := Tab.set m.vclock (q * 4 + j) (v.getD j 0) } else m) m
/-- An acquire that returns the bytes at `a` merges what the writes it returns carry (R180). -/
def Memory.mergeBytes (m : Memory) (q : Nat) (k : PlaceKind) (a n : Nat) : Memory :=
  (List.range n).foldl (fun m j =>
    match Tab.find m.wstamp (k.stampKey a + j) with
    | some v => m.mergeClock q v
    | none => m) m

/-- A quarter stops stamping while a stamp of its own is more than 2^30 ahead of a counter the others hold (R180). -/
def Memory.mayStamp (m : Memory) (q : Nat) : Bool :=
  (List.range 4).all fun h =>
    h == q || serialGe (Tab.getD m.aclock (h * 4 + q) 0 + 2 ^ 30) (Tab.getD m.vclock (q * 4 + q) 0)

/-- No remap and no other open row stands in the way of a local access (R161, R163). -/
def State.rowFree (s : State) (a : Nat) : Bool := s.mem.rowFree a
/-- Nor in that of a range of local memory. -/
def State.rangeFree (s : State) (a n : Nat) : Bool := (List.range ((n + 127) / 128)).all fun k => s.rowFree (a + 128 * k)

/-- Read a place for a reader other than a memory node: local memory once no remap and no other open row is in the way (R161, R163), a
window by `State.readWindow`. -/
def State.readPlace (s : State) (who : Reader) (asid : Nat) (pl : Place) (n : Nat) : Rd × State :=
  if pl.kind = .domain then s.readWindow who asid pl.addr n
  else if pl.kind = .global ∧ !s.rowFree pl.addr then (.waits, s)
  else
    let (bs, p, s) := s.readAt pl.kind pl.addr n
    (.ok bs (if p then some 4 else none), s)

/-- The vector clocks let a write of an element of quarter `q` perform at `a` (R180). -/
def State.mayStampAt (s : State) (q : Nat) (k : PlaceKind) (a : Nat) : Bool :=
  match s.mem.quarterAt k a with
  | some h => s.mem.applied h q && s.mem.mayStamp q
  | none => true
/-- The thread of an issue has an acquire behind it (R180). -/
def State.hasAcquired (s : State) (i : Issue) : Bool := ((s.thread? (s.threadOf i.f.aid)).map (·.acquired)).getD false
/-- The memory side of the guards: a remap in progress (R161), an open row in the way (R163), a scratchpad range that
waits (R159), the vector clocks (R180). -/
def State.placeOk (s : State) (x : Access) : Bool :=
  let q := x.iss.elem / 4096
  let clocks := fun (k : PlaceKind) (a : Nat) => (!x.write || s.mayStampAt q k a) &&
    (!s.hasAcquired x.iss || ((s.mem.quarterAt k a).map fun h => s.mem.appliedAll h (s.mem.vOf q)).getD true)
  match x.kind with
  | .buffer => true
  | .scratch => x.parts.all fun (a, _) => (s.mem.wp (a / 2 ^ 24)).say (s.issAsid x.iss) (a % 2 ^ 24) != .waits && clocks .scratch a
  | .global | .domain => x.parts.all fun (a, _) => decide (domainBase ≤ a) || s.rowFree a && clocks .global a
/-- A write comes after every write of its cycle that R348 puts before it, and before none that it puts after it. -/
def State.mayWriteNow (s : State) (x : Access) : Bool :=
  !x.write || x.parts.all fun (a, n) => s.turnOk x.kind.space a n x.iss.rank

/-- A memory node's access may perform (R163, R172, R178, R180, R335, R348). DEDUCED (log entry 41). -/
def State.mayPerform (s : State) (x : Access) : Bool :=
  (s.act? x.iss.f.aid).isSome && (!x.write || s.isOldest x.iss.f.aid || (((s.act? x.iss.f.aid).map (·.committed)).getD false))
    && s.othersFired x.iss.f.aid x.lsid && s.orderOk x && s.placeOk x && s.mayWriteNow x

/-- MREL and MMAC of one activation perform in ascending node number, each node's firings in their order of issue (R394). -/
def State.nodeTurn (s : State) (h : HeldOp) : Bool :=
  let mx := fun (h : HeldOp) => (h.instr.node?).any fun x => x.1 == 0xD1 || x.1 == 0xD5
  !mx h || s.fab.held.all fun y => !mx y || y.iss.f.aid != h.iss.f.aid ||
    decide (h.iss.f.node < y.iss.f.node) || y.iss.f.node == h.iss.f.node && decide (h.id ≤ y.id)
/-- Thread order lets a form of an engine read its descriptor, or perform where it has an LSID (R163, R178, R335, R394).
DEDUCED (log entry 92). -/
def State.mayTake (s : State) (h : HeldOp) : Bool :=
  let xs := s.descAccesses h
  s.nodeTurn h && (xs.isEmpty ||
    s.othersFired h.iss.f.aid (((h.instr.node?).bind fun x => memLsid x.1 x.2).getD 0)
      && xs.all fun x => s.orderOk x && (x.kind != .global || x.parts.all fun p => s.rowFree p.1))

/-! ### Result tokens (R181, R182, R334) -/

/-- Scope and class of each JOINF that a node's results feed (R334). -/
def State.joinfs (s : State) (i : Issue) (r : NodeRec) : List (Nat × Nat) :=
  [r.dst0, r.dst1].filterMap fun d =>
    (s.destElem i.elem i.ctx d).bind fun (e, n, _) =>
    (s.recAt e i.ctx n).bind fun (opc, q) => if opc = 0xA9 then some (q.scope, q.l % 4) else none
/-- A JOINF of class `k` is wired to a node's result (R182). DEDUCED (log entry 52). -/
def State.wiredTo (s : State) (i : Issue) (r : NodeRec) (k : Nat) : Bool := (s.joinfs i r).any fun x => x.2 == k

/-- What the wired JOINFs add before an access delivers its tokens: dirty lines written back under NEARMEM and ROW, the
region L1 invalidated for a load or an atomic at QUARTER scope and wider (R181, R182). -/
def State.joinWork (s : State) (x : Access) (reads : Bool) : State :=
  (s.joinfs x.iss x.node).foldl (fun s (sc, cl) =>
      let s := if reads && decide (2 ≤ sc) then s.l1DropTask (((s.issTask x.iss).map (·.1)).getD 0) else s
    if x.write && x.kind == .global && (cl == 2 || cl == 3) then
      s.setMem (x.parts.foldl (fun m (a, n) => m.cleanRange a n) s.mem)
    else s) s

/-- The address of an access (R245). -/
def memAddr (r : NodeRec) (a : Nat) : Nat := wrap 64 ((a % 2 ^ 64 : Nat) + r.offset)
/-- The access is over: its result tokens leave (R334). DEDUCED (log entry 24). -/
def State.endAccess (s : State) (x : Access) (p : Pay) : State :=
  let reads := match x.opc with
    | 0x91 | 0x93 | 0x95 | 0xAB => false
    | _ => true
  let s := s.joinWork x reads
  (s.setMem { s.mem with acc := s.mem.acc.filter fun y => y.id != x.id }).reply x.iss x.node
    (if reads then p.readAt (memAddr x.node (valOf x.iss.f.a)) else p)

def State.setAcc (s : State) (x : Access) : State :=
  s.setMem { s.mem with acc := s.mem.acc.map fun y => if y.id = x.id then x else y }

end Sys2Proof.Machine
end

