-- ==== Sys2Proof/Machine/MemNodes.lean ====
section
/-! DEFINITION. Memory nodes, atomics, the fence and the waits: groups 0x9 and 0xA (R332 to R349). -/
namespace Sys2Proof.Machine

/-- One firing of a memory node: it is accounted for, NULL included, then its operands are judged (R229, R332, R336).
DEDUCED (log entry 24). -/
def State.fireMem (s : State) (opc : Nat) (r : NodeRec) (body : Issue → Nat → Nat → Nat → State → State) : Out :=
  match s.cur with
  | none => .next s
  | some i =>
    let s := { s with cur := none }
    let live := !i.f.isNull r
    let (ok, s) := match acctClass opc r with
      | some k => s.account i k live
      | none => (true, s.noteFired i live)
    if !ok then .next s
    else if !live then .next (s.fireNull i opc r)
    else
      match i.f.poison with
      | some x => .next (s.raise i { poisonTrap i.f x with lsid := r.x })
      | none => .next (body i (valOf i.f.a) (opB opc r i.f) (valOf i.f.p) s)

/-- The pieces of an access, each inside one aligned 16-byte part (R174). -/
def parts16 (a n : Nat) : List (Nat × Nat) := if n ≤ 16 then [(a, n)] else (List.range (n / 16)).map fun k => (a + 16 * k, 16)

/-! ### Performing -/

/-- The arithmetic of an atomic on `n` bytes: the new value, none where nothing is written (R341). -/
def amoNew (opc n old b c : Nat) : Option Nat :=
  let w := 8 * n
  match opc with
  | 0xA0 => some ((old + b) % 2 ^ w)
  | 0xA1 => some (mapLanes 32 (n == 16) fun k => addF32 (lane 32 old k) (lane 32 b k))
  | 0xA2 => some (if signed w old ≤ signed w b then old else b)
  | 0xA3 => some (if signed w old ≥ signed w b then old else b)
  | 0xA4 => some (old &&& b)
  | 0xA5 => some (old ||| b)
  | 0xA6 => some (old ^^^ b)
  | 0xA7 => some b
  | _ => if old = b then some c else none

/-- The four f32 lanes of a 16-byte addend (R341): lanes beyond the operand are not touched. -/
def amoValue (opc n old b c : Nat) : Option Nat := (amoNew opc n old b c).map fun x => x % 2 ^ (8 * n)

def isAtomic (opc : Nat) : Bool := 0xA0 ≤ opc && opc ≤ 0xA8
def isStore (opc : Nat) : Bool := opc == 0x91 || opc == 0x93 || opc == 0x95 || opc == 0xAB

/-- Record that an activation's store or atomic has performed, with its first result (R191). -/
def State.notePerformed (s : State) (x : Access) (p : Pay) : State :=
  s.updAct x.iss.f.aid fun a =>
    { a with performed := a.performed ++ [{ lsid := x.lsid, elem := x.iss.elem, node := x.iss.f.node, result := p, kind := x.kind,
                                            parts := x.parts }] }

/-- Free the output latch of a store that waits for room at its memory port (R335). -/
def State.freeLatch (s : State) (i : Issue) : State :=
  let mine := fun (l : OutLatch) => l.waits && l.node == i.f.node && l.aid == i.f.aid
  let x := s.ctx i.elem i.ctx
  if x.outs.any mine then s.setCtx i.elem i.ctx (x.dropOuts mine) else s
/-- Room at a memory port lets its first waiting store go (R335). -/
def State.freeWaiter (s : State) (port : Nat) : State :=
  match s.mem.acc.find? fun y => y.waits && s.memPort y.iss.elem == port with
  | none => s
  | some y => (s.setAcc { y with waits := false }).freeLatch y.iss

/-- The tag of the task and context whose region L1 an access belongs to. -/
def State.issTid (s : State) (i : Issue) : Nat := ((s.issTask i).map (·.1)).getD 0

/-- A thread has an acquire behind it (R180). -/
def State.noteAcquired (s : State) (i : Issue) : State := s.updThread (s.threadOf i.f.aid) fun t => { t with acquired := true }
/-- What an acquire does when it binds (R154, R178, R180): the region L1 goes at QUARTER scope and wider, and the clocks that the writes
it returns carry are merged. -/
def State.acquire (s : State) (x : Access) : State :=
  if !x.acquires then s else
  let s := if 2 ≤ x.node.scope then s.l1DropTask (s.issTid x.iss) else s
  (s.setMem (x.parts.foldl (fun m (a, n) =>
    if x.kind = .global ∨ x.kind = .scratch then m.mergeBytes (x.iss.elem / 4096) x.kind a n else m) s.mem)).noteAcquired x.iss
/-- What a release adds when it performs: at QUARTER scope and wider the loads before it have completed only with the region L1
invalidated (R178, R181). -/
def State.release (s : State) (x : Access) : State :=
  if x.releases ∧ 2 ≤ x.node.scope then s.l1DropTask (s.issTid x.iss) else s

/-- Update an access; an acquire whose last part is bound has its effect (R178). -/
def State.setDone (s : State) (x : Access) : State :=
  let s := s.setAcc x
  if x.todo = 0 then s.acquire x else s
def State.dropWatch (s : State) (id : Nat) : State :=
  s.setMem { s.mem with watches := s.mem.watches.filter fun w => w.id != id }
/-- A WAITA fires a value and ends, once its JOINFs' work is done (R181, R334, R344). It was read at home, so no older line of the region
L1 may answer the thread later (R173). -/
def State.endWatch (s : State) (w : Watch) (v : Nat) (pois : Bool) : State :=
  let p := Pay.scalar v
  let s := ((s.dropWatch w.id).acquire w.access).joinWork w.access true
  let s := if w.place.kind = .global then s.l1DropLine (s.issTid w.iss) (w.place.addr / 64) else s
  s.reply w.iss w.node ((if pois then p.poisoned 4 else p).readAt (memAddr w.node (valOf w.iss.f.a)))
def State.setWatch (s : State) (w : Watch) : State :=
  s.setMem { s.mem with watches := s.mem.watches.map fun y => if y.id = w.id then w else y }
/-- A WAKEA ends the watches on the word it wrote, when the writes of its cycle are done (R347, R348). -/
def State.wake (s : State) (x : Access) (v : Nat) : State :=
  match x.parts.head? with
  | none => s
  | some (a, _) =>
    let hit := fun (w : Watch) =>
      w.place.kind == x.kind && w.place.addr == a && s.issAsid w.iss == s.issAsid x.iss && w.first != 0
    s.setMem { s.mem with watches := s.mem.watches.map fun w => if hit w then { w with woken := some v } else w }

/-- A write of a firing takes its place among those of its cycle, goes through the region L1 in local memory, and is stamped at a slice
(R154, R180, R348). -/
def State.elemWrite (s : State) (i : Issue) (k : PlaceKind) (a : Nat) (bs : List Byte) (pois : Bool) : State :=
  let s := (s.storeAt k a bs pois).noteTurn k.space a bs.length i.rank
  let s := if k = .global then s.l1Store (s.issTid i) i.ctx a bs else s
  s.setMem (s.mem.stampWrite (i.elem / 4096) k a bs.length)
/-- Perform the parts of a store that `mask` names (R172, R174, R180). DEDUCED (log entry 42). -/
def State.performStore (s : State) (x : Access) (mask : Nat) : State :=
  let s := s.release x
  let ks := (List.range x.parts.length).filter fun k => bit mask k && bit x.todo k
  let s := ks.foldl (fun s k =>
    match x.parts[k]? with
    | none => s
    | some (a, n) =>
      let bs := (x.data.drop ((x.parts.take k).foldl (fun t y => t + y.2) 0)).take n
      s.elemWrite x.iss x.kind a bs false) s
  let todo := ks.foldl (fun t k => t - 2 ^ k) x.todo
  let x := { x with todo := todo }
  let s := s.setAcc x
  if todo = 0 then
    let s := ((s.notePerformed x .done).freeLatch x.iss).freeWaiter (s.memPort x.iss.elem)
    if x.opc = 0xAB then s.wake x (Sys2Proof.ofBytes x.data) else s
  else s

/-- Perform an atomic at the place that holds its location, as one access (R341). -/
def State.performAtomic (s : State) (x : Access) : State :=
  match x.parts.head? with
  | none => s
  | some (a, n) =>
    let (bs, pois, s) := (s.release x).readAt x.kind a n
    let s := s.acquire x
    let old := Sys2Proof.ofBytes bs
    let pay := let p := Pay.ofBytes x.node.v bs
               if pois then p.poisoned 4 else p
    let s := match amoValue x.opc n old (Sys2Proof.ofBytes x.data) (Sys2Proof.ofBytes x.data2) with
      | some v => s.elemWrite x.iss x.kind a (bytesOf n v) pois
      | none => s
    let s := if x.kind = .global then s.l1DropLine (s.issTid x.iss) (a / 64) else s
    let x := { x with todo := 0, result := pay }
    ((s.setAcc x).notePerformed x pay).freeLatch x.iss |>.freeWaiter (s.memPort x.iss.elem)

/-- What a request of an access is to a peer (R27, R36). -/
def reqKind (opc : Nat) : ReqKind := if isStore opc then .write else if isAtomic opc then .atomic opc else .read

/-- An access completed by isolation: its tokens carry POIS with source 2 (R36, R228, R334). A write that was sent may have been performed, so
it is not sent again (R191). -/
def State.isolated (s : State) (x : Access) : State :=
  let p := if isStore x.opc then Pay.done.poisoned 2 else (Pay.ofBytes x.node.v []).poisoned 2
  let s := if x.write ∧ x.sent then s.notePerformed x p else s
  ((s.setDone { x with todo := 0, result := p }).freeLatch x.iss).freeWaiter (s.memPort x.iss.elem)

/-- A load reads at the place that holds its bytes, or takes what a later load of its thread has bound of them; no older line of the region
L1 may answer the thread later, nor a later write an earlier load (R173). -/
def State.readHome (s : State) (x : Access) (k : PlaceKind) (a n : Nat) : List Byte × Bool × State :=
  let (bs, p, s) := s.readAt k a n
  let (bs, p) := patchSnap x.snap k a bs p
  let s := if k = .global then s.l1DropLine (s.issTid x.iss) (a / 64) else s
  (bs, p, s.snapEarlier x k a bs p)
/-- One range of a domain access: a local one performs here, a read of a launch window gives zeros, a request to a cut-off
peer completes at once, any other leaves (R27, R32, R36). A read of the launch window of an isolated peer gives zeros too, where R32 also
says that a request to an isolated peer's window completes under isolation. Part `k` of the access, `mask` what it stands for.
DESIGN CHOICE (log entries 39, 78). -/
def State.performRemote (s : State) (x : Access) (k mask a n : Nat) (data : List Byte) : State :=
  let kind := reqKind x.opc
  let cur := (s.mem.acc.find? fun y => y.id == x.id).getD x
  if a < domainBase then
    if x.write then (s.elemWrite x.iss .global a data false).setDone { cur with todo := cur.todo - mask }
    else
      let (bs, p, s) := s.readHome x .global a n
      s.setDone { cur with todo := cur.todo - mask, got := cur.got ++ [(k, bs, p)] }
  else if launchBase ≤ a && kind == .read then
    s.setDone { cur with todo := cur.todo - mask, got := cur.got ++ [(k, List.replicate n 0, false)] }
  else if s.lnk.ownRing a then
    let (v, s) := s.free
    s.badRing.setDone { cur with todo := cur.todo - mask, result := if isAtomic x.opc then .ofBytes x.node.v (bytesOf n v.toNat) else cur.result }
  else if s.lnk.cutOff a then
    ({ s with lnk := s.lnk.logDrop false (peerOf a) (s.issAsid x.iss) a kind }).isolated cur
  else s.sendReq kind a n data (some x.id) (s.issAsid x.iss)

/-- Perform a domain access. A vector access is one request (R27); a block access is one for each of its ranges.
DESIGN CHOICE (log entry 39). -/
def State.performDomain (s : State) (x : Access) : State :=
  let s := (s.release x).setAcc { x with sent := true }
  if x.attr = 0 then
    match x.parts.head? with
    | none => s
    | some (a, _) => s.performRemote x 0 x.todo a (x.parts.foldl (fun t y => t + y.2) 0) (x.data ++ x.data2)
  else
    (List.range x.parts.length).foldl (fun s k =>
      match x.parts[k]? with
      | none => s
      | some (a, n) =>
        let off := (x.parts.take k).foldl (fun t y => t + y.2) 0
        s.performRemote x k (2 ^ k) a n ((x.data.drop off).take n)) s

/-- A local access that waited for a remap lies past the capacity that it left (R160, R161). -/
def State.pastCap (s : State) (x : Access) : Bool :=
  x.kind.space == 0 && x.parts.any fun (a, n) => decide (a < outerBase) && decide (s.mem.capacity < a + n)
/-- It raises PG_RANGE at its activation (R160). -/
def State.capTrap (s : State) (x : Access) : State :=
  let s := ((s.setMem { s.mem with acc := s.mem.acc.filter fun y => y.id != x.id }).freeLatch x.iss).freeWaiter (s.memPort x.iss.elem)
  s.raise x.iss { sizeTrap trapPgRange ((x.parts.map (·.2)).sum) (memAddr x.node (valOf x.iss.f.a)) with lsid := x.lsid }
/-- Perform an access as far as it may now; `mask` names the parts of a vector store. Local loads perform when they bind. -/
def State.perform (s : State) (x : Access) (mask : Nat) : State :=
  if x.todo = 0 || x.sent || !s.mayPerform x then s
  else if s.pastCap x then s.capTrap x
  else if x.kind = .domain then s.performDomain x
  else if isAtomic x.opc then s.performAtomic x
  else if isStore x.opc then s.performStore x mask
  else s

/-- Stores and atomics that a memory port holds for activations that are not the oldest (R335). -/
def State.heldAt (s : State) (port : Nat) : Nat :=
  (s.mem.acc.filter fun y => y.write && y.todo != 0 && !y.waits && s.memPort y.iss.elem == port && !s.isOldest y.iss.f.aid).length

/-- An access has issued: it is kept until its tokens leave, and a scalar store or atomic that may, performs at once.
A store for which the port has no room waits in its output latch (R335). -/
def State.addAccess (s : State) (i : Issue) (ins : Instr) (k : PlaceKind) (parts : List (Nat × Nat)) (data data2 : List Byte)
    (write : Bool) (attr : Nat) : State :=
  let full := write && !s.isOldest i.f.aid && decide (64 ≤ s.heldAt (s.memPort i.elem))
  let x : Access := { id := s.fresh, instr := ins, iss := i, kind := k, parts := parts, data := data, data2 := data2,
                      write := write, todo := 2 ^ parts.length - 1, result := .done, got := [], attr := attr,
                      since := s.cycles, waits := full, sent := false }
  let s := { s with fresh := s.fresh + 1 }
  let s := s.setMem { s.mem with acc := s.mem.acc ++ [x] }
  let s := if full then
      s.setCtx i.elem i.ctx ((s.ctx i.elem i.ctx).push { aid := i.f.aid, node := i.f.node, beats := [], readyAt := s.cycles, waits := true })
    else s
  if parts.length = 1 then s.perform x 1 else s

/-- The record of what an activation has performed under an LSID, if anything: it is not performed again, whatever it would now write
(R191). -/
def State.performedBy (s : State) (i : Issue) (lsid : Nat) : Option Performed :=
  (s.act? i.f.aid).bind fun a => a.performed.find? fun p => p.lsid == lsid
/-- What is recorded as performed is not performed again: it answers with its first result, once its JOINFs' work is done (R181, R182,
R191). -/
def State.replyPerformed (s : State) (i : Issue) (ins : Instr) (r : NodeRec) (p : Performed) : State :=
  let x : Access := { id := 0, instr := ins, iss := i, kind := p.kind, parts := p.parts, data := [], data2 := [], write := true, todo := 0,
                      result := p.result, got := [], attr := 0, since := s.cycles, waits := false, sent := false }
  (s.joinWork x (isAtomic x.opc)).reply i r p.result
/-- The translation of a firing's address need not wait (R161, R163, R170). -/
def State.walkNow (s : State) (i : Issue) (va : Nat) (write : Bool) : Bool := s.walkReady (s.memPort i.elem) (s.issAsid i) va write
/-- A load, store or atomic of `n` bytes at the address operand (R245, R337, R341); it is held while its translation waits (R161, R163).
DEDUCED (log entry 41). -/
def State.startMem (s : State) (i : Issue) (ins : Instr) (r : NodeRec) (a n : Nat) (data data2 : List Byte) (write : Bool) : State :=
  match (if write then s.performedBy i r.x else none) with
  | some p => s.replyPerformed i ins r p
  | none =>
    if r.space = 0 ∧ memAddr r a % n = 0 ∧ !s.walkNow i (memAddr r a) write then (s.holdOp i ins).2 else
    match s.locate i r.space (memAddr r a) n write with
    | (.error t, s) => s.raise i { t with lsid := r.x }
    | (.ok (pl, _), s) => s.addAccess i ins pl.kind (parts16 pl.addr n) data data2 write 0

def memSize (r : NodeRec) : Nat := sizeBytes r.f

/-- LD or LDV of `n` bytes (R337). -/
def State.startLoad (i : Issue) (ins : Instr) (r : NodeRec) (n : Nat) (s : State) : State := s.startMem i ins r (valOf i.f.a) n [] [] false
/-- A store of the `n` low bytes of B (R337, R347). -/
def State.startStore (i : Issue) (ins : Instr) (r : NodeRec) (n : Nat) (s : State) : State :=
  s.startMem i ins r (valOf i.f.a) n (bytesOf n (opB ((ins.node?.map (·.1)).getD 0) r i.f)) [] true
/-- An atomic on B, of AMOCAS with P (R341). -/
def State.startAmo (i : Issue) (ins : Instr) (r : NodeRec) (s : State) : State :=
  let opc := (ins.node?.map (·.1)).getD 0
  s.startMem i ins r (valOf i.f.a) (memSize r) (bytesOf (memSize r) (opB opc r i.f))
    (if opc = 0xA8 then bytesOf (memSize r) (valOf i.f.p) else []) true

/-- LD (R337). -/
def execLd (r : NodeRec) (s : State) : Out := s.fireMem 0x90 r fun i _ _ _ s => s.startLoad i (.ld r) r (memSize r)
/-- ST (R337). -/
def execSt (r : NodeRec) (s : State) : Out := s.fireMem 0x91 r fun i _ _ _ s => s.startStore i (.st r) r (memSize r)
/-- LDV (R337). -/
def execLdv (r : NodeRec) (s : State) : Out := s.fireMem 0x92 r fun i _ _ _ s => s.startLoad i (.ldv r) r 64
/-- STV (R337). -/
def execStv (r : NodeRec) (s : State) : Out := s.fireMem 0x93 r fun i _ _ _ s => s.startStore i (.stv r) r 64

/-- An atomic form (R341). -/
def State.fireAmo (s : State) (opc : Nat) (ins : Instr) (r : NodeRec) : Out := s.fireMem opc r fun i _ _ _ s => s.startAmo i ins r

/-- AMOADD (R341). -/
def execAmoadd (r : NodeRec) (s : State) : Out := s.fireAmo 0xA0 (.amoadd r) r
/-- AMOFADD (R341). -/
def execAmofadd (r : NodeRec) (s : State) : Out := s.fireAmo 0xA1 (.amofadd r) r
/-- AMOMIN (R341). -/
def execAmomin (r : NodeRec) (s : State) : Out := s.fireAmo 0xA2 (.amomin r) r
/-- AMOMAX (R341). -/
def execAmomax (r : NodeRec) (s : State) : Out := s.fireAmo 0xA3 (.amomax r) r
/-- AMOAND (R341). -/
def execAmoand (r : NodeRec) (s : State) : Out := s.fireAmo 0xA4 (.amoand r) r
/-- AMOOR (R341). -/
def execAmoor (r : NodeRec) (s : State) : Out := s.fireAmo 0xA5 (.amoor r) r
/-- AMOXOR (R341). -/
def execAmoxor (r : NodeRec) (s : State) : Out := s.fireAmo 0xA6 (.amoxor r) r
/-- AMOSWP (R341). -/
def execAmoswp (r : NodeRec) (s : State) : Out := s.fireAmo 0xA7 (.amoswp r) r
/-- AMOCAS (R341). -/
def execAmocas (r : NodeRec) (s : State) : Out := s.fireAmo 0xA8 (.amocas r) r
/-- WAKEA: a store that ends every watch on its word (R347). -/
def execWakea (r : NodeRec) (s : State) : Out := s.fireMem 0xAB r fun i _ _ _ s => s.startStore i (.wakea r) r (memSize r)

/-- A PREF performs once thread order, a remap and an open row let it (R161, R163, R335): the line is asked for, at a peer by a request;
every failure drops it without trace (R338). DEDUCED (log entry 67). -/
def State.performPref (h : HeldOp) (r : NodeRec) (s : State) : State :=
  let i := h.iss
  let va := memAddr r (valOf i.f.a)
  if (s.act? i.f.aid).isNone then s.dropHeld h.id
  else if !s.othersFired i.f.aid r.x || !s.walkNow i va false then s
  else
    match s.locateGlobal (s.memPort i.elem) (s.issAsid i) va 1 false with
    | (.ok (pl, _), t) =>
      let line := pl.addr / 64 * 64
      if !t.orderOk { h.access with kind := pl.kind, parts := [(line, 64)] } then t
      else if pl.kind = .domain then
        let t := t.dropHeld h.id
        if launchBase ≤ pl.addr || t.lnk.cutOff pl.addr then t else t.sendReq .prefetch line 64 [] none (t.issAsid i)
      else if !t.rowFree pl.addr then t
      else
        let (bs, pois, t) := (t.dropHeld h.id).readAt .global line 64
        if r.scope ≤ 1 && !pois then t.l1Fill (t.issTid i) i.ctx (pl.addr / 64) bs else t
    | (_, t) => t.dropHeld h.id

/-- PREF (R338). DEDUCED (log entry 67). -/
def execPref (r : NodeRec) (s : State) : Out :=
  match s.cur with
  | none => .next s
  | some i =>
    let s := { s with cur := none }
    let live := !i.f.isNull r
    let s := s.noteFired i live
    if !live || i.f.poison.isSome then .next s
    else
      let (h, s) := s.holdOp i (.pref r)
      .next (s.performPref h r)

/-! ### Block loads and stores (R198, R199, R339, R340) -/

/-- The element format of a block page: float code, bits, block length, NB4 (R198). -/
structure BlockFmt where
  f : Nat
  bits : Nat
  k : Nat
  nb : Bool
  deriving DecidableEq, Repr

def blockFmt : Nat → Option BlockFmt
  | 7 => some ⟨5, 4, 8, true⟩
  | 8 => some ⟨3, 8, 32, false⟩
  | 9 => some ⟨4, 8, 32, false⟩
  | 10 => some ⟨5, 4, 32, false⟩
  | _ => none
/-- Row length L, bytes B of a row's codes and group size G (R199). -/
def rowLen (geom : Nat) : Nat := 64 * 2 ^ geom
def BlockFmt.rowBytes (b : BlockFmt) (l : Nat) : Nat := l * b.bits / 8
def BlockFmt.group (b : BlockFmt) (l : Nat) : Nat := if b.nb then 40 * l + 64 else if b.bits = 8 then 66 * l else 34 * l

/-- Translate every byte range of a block access, checking that all pages carry `attr`; the physical address of each range
of one 16-byte part (R339). -/
def State.locateAll (s : State) (i : Issue) (asid : Nat) (va0 attr : Nat) (write : Bool) :
    List (Nat × Nat) → Except Trap (List (PlaceKind × Nat × Nat)) × State
  | [] => (.ok [], s)
  | (a, n) :: rest =>
    match s.locateGlobal (s.memPort i.elem) asid a n write with
    | (.error t, s) => (.error t, s)
    | (.ok (pl, at_), s) =>
      if at_ ≠ attr then (.error { code := trapFmtMismatch, addr := BitVec.ofNat 64 va0 }, s) else
      match State.locateAll s i asid va0 attr write rest with
      | (.error t, s) => (.error t, s)
      | (.ok xs, s) => (.ok ((pl.kind, pl.addr, n) :: xs), s)

/-- The byte ranges that LDB reads: codes, scales, band (R339). -/
def ldbRanges (b : BlockFmt) (va0 l e nl : Nat) : List (Nat × Nat) :=
  let row := e / l
  let g := va0 + row / 64 * b.group l
  let q := row % 64
  let j0 := e % l
  let bb := b.rowBytes l
  let codes := (g + q * bb + j0 * b.bits / 8, nl * b.bits / 8)
  let scales := (g + 64 * bb + q * (l / b.k) + j0 / b.k, (j0 + nl - 1) / b.k - j0 / b.k + 1)
  let band := if b.nb then [(g + 64 * bb + 8 * l, 2)] else []
  (codes :: scales :: band).flatMap fun (a, n) => cut16 a n 6

/-- LDB's ranges are found and its access made; it is held while a translation waits (R161, R163, R339). -/
def State.startLdb (i : Issue) (r : NodeRec) (s : State) : State :=
  let va0 := memAddr r (valOf i.f.a)
  let e := opB 0x94 r i.f
  let asid := s.issAsid i
  let nl := lanesOf (fltWidth r.f)
  let mis : Trap := { sizeTrap trapAlign 64 va0 with lsid := r.x }
  let bad : Trap := { code := trapFmtMismatch, addr := BitVec.ofNat 64 va0, lsid := r.x }
  if va0 % 64 ≠ 0 ∨ e % nl ≠ 0 then s.raise i mis
  else if !s.walkNow i va0 false then (s.holdOp i (.ldb r)).2
  else
    match s.locateGlobal (s.memPort i.elem) asid va0 1 false with
    | (.error t, s) => s.raise i { t with lsid := r.x }
    | (.ok (_, attr), s) =>
      match blockFmt (attr % 16) with
      | none => s.raise i bad
      | some b =>
        let l := rowLen (attr / 16)
        if l < e % l + nl then s.raise i mis
        else if !(ldbRanges b va0 l e nl).all fun x => s.walkNow i x.1 false then (s.holdOp i (.ldb r)).2
        else
          match s.locateAll i asid va0 attr false (ldbRanges b va0 l e nl) with
          | (.error t, s) => s.raise i { t with lsid := r.x }
          | (.ok xs, s) =>
            s.addAccess i (.ldb r) (if xs.all fun x => x.1 == .global then .global else .domain) (xs.map fun x => x.2) [] [] false attr
/-- LDB (R339). -/
def execLdb (r : NodeRec) (s : State) : Out := s.fireMem 0x94 r fun i _ _ _ s => s.startLdb i r

/-- Lane `i` that LDB decodes from the bytes it read, in the order of `ldbRanges`, with the flags of its rounding (R198, R201, R339). -/
def ldbLane (r : NodeRec) (b : BlockFmt) (attr e : Nat) (bs : List Byte) (i : Nat) : Nat × Nat :=
  let nl := lanesOf (fltWidth r.f)
  let j0 := e % rowLen (attr / 16)
  let nc := nl * b.bits / 8
  let ns := (j0 + nl - 1) / b.k - j0 / b.k + 1
  let codes := Sys2Proof.ofBytes (bs.take nc)
  let scales := Sys2Proof.ofBytes ((bs.drop nc).take ns)
  let band := Sys2Proof.ofBytes ((bs.drop (nc + ns)).take 2)
  roundF r.f 0 false (blockValue b.nb b.f (lane b.bits codes i) (lane 8 scales ((j0 + i) / b.k - j0 / b.k)) band)
/-- The vector that LDB delivers (R339). -/
def ldbValue (r : NodeRec) (attr e : Nat) (bs : List Byte) : Nat :=
  match blockFmt (attr % 16) with
  | none => 0
  | some b => mapLanes (fltWidth r.f) true fun i => (ldbLane r b attr e bs i).1
/-- The flags that it sets (R201, R205). -/
def ldbFlags (r : NodeRec) (attr e : Nat) (bs : List Byte) : Nat :=
  match blockFmt (attr % 16) with
  | none => 0
  | some b => (List.range (lanesOf (fltWidth r.f))).foldl (fun fl i => fl ||| (ldbLane r b attr e bs i).2) 0

/-- STB's 64 bytes are found and its access made; only the pages that it writes need write permission (R168, R340). It is held while a
translation waits (R161, R163). -/
def State.startStb (i : Issue) (r : NodeRec) (s : State) : State :=
  match s.performedBy i r.x with
  | some p => s.replyPerformed i (.stb r) r p
  | none =>
    let va0 := memAddr r (valOf i.f.a)
    let e := valOf i.f.p
    let asid := s.issAsid i
    let mis : Trap := { sizeTrap trapAlign 64 va0 with lsid := r.x }
    let bad : Trap := { code := trapFmtMismatch, addr := BitVec.ofNat 64 va0, lsid := r.x }
    if va0 % 64 ≠ 0 then s.raise i mis
    else if !s.walkNow i va0 false then (s.holdOp i (.stb r)).2
    else
      match s.locateGlobal (s.memPort i.elem) asid va0 1 false with
      | (.error t, s) => s.raise i { t with lsid := r.x }
      | (.ok (_, attr), s) =>
        match blockFmt (attr % 16) with
        | none => s.raise i bad
        | some b =>
          let l := rowLen (attr / 16)
          if e % (512 / b.bits) ≠ 0 then s.raise i mis else
          let xs := cut16 (va0 + e / l / 64 * b.group l + e % (64 * l) * b.bits / 8) 64 5
          if !xs.all fun x => s.walkNow i x.1 true then (s.holdOp i (.stb r)).2 else
          match s.locateAll i asid va0 attr true xs with
          | (.error t, s) => s.raise i { t with lsid := r.x }
          | (.ok xs, s) =>
            s.addAccess i (.stb r) (if xs.all fun x => x.1 == .global then .global else .domain) (xs.map fun x => x.2)
              (bytesOf 64 (opB 0x95 r i.f)) [] true attr
/-- STB (R340). -/
def execStb (r : NodeRec) (s : State) : Out := s.fireMem 0x95 r fun i _ _ _ s => s.startStb i r

/-! ### The fence (R342) -/

/-- JOINF: NULL only when every operand is NULL; a poisoned operand of a non-NULL firing raises POISON (R342).
DEDUCED (log entry 88). -/
def execJoinf (r : NodeRec) (s : State) : Out :=
  match s.cur with
  | none => .next s
  | some i =>
    let s := { s with cur := none }
    let ops := [i.f.a, i.f.b, i.f.p].filterMap id
    if ops.all fun x => x.null then .next (s.fireNull i 0xA9 r)
    else
      let live := fun (x : Option Pay) => x.bind fun y => if y.null then none else some y
      match poisonOf [(0, live i.f.a), (1, live i.f.b), (2, live i.f.p)] with
      | some x => .next (s.raise i (poisonTrap i.f x))
      | none => .next (s.emit i r 2 [.both .done i.f.lo i.f.hi])

/-! ### WAITA (R344) -/

/-- A watch on the word of a WAITA, due for its first read; a quarter holds 1,024 that follow writes (R344). It is held while its translation
waits (R161, R163). -/
def State.startWaita (i : Issue) (r : NodeRec) (s : State) : State :=
  let va := memAddr r (valOf i.f.a)
  if r.space = 0 ∧ va % memSize r = 0 ∧ !s.walkNow i va false then (s.holdOp i (.waita r)).2 else
  match s.locate i r.space va (memSize r) false with
  | (.error t, s) => s.raise i { t with lsid := r.x }
  | (.ok (pl, _), s) =>
    let n := (s.mem.watches.filter fun w => w.slot && w.iss.elem / 4096 == i.elem / 4096).length
    let w : Watch := { id := s.fresh, instr := .waita r, iss := i, place := pl, size := memSize r,
                       threshold := opB 0xAA r i.f % 2 ^ (8 * memSize r), last := 0, lastPois := false, first := 0, since := s.cycles, lastRead := 0,
                       slot := decide (n < 1024) && pl.kind != .domain, dirty := true, due := false, expired := false, woken := none }
    let s := { s with fresh := s.fresh + 1 }
    s.setMem { s.mem with watches := s.mem.watches ++ [w] }
/-- WAITA (R344). -/
def execWaita (r : NodeRec) (s : State) : Out := s.fireMem 0xAA r fun i _ _ _ s => s.startWaita i r

/-! ### Memory nodes that waited for their translation -/

/-- A held memory node starts, by its own meaning (R161, R163, R170). DEDUCED (log entry 41). -/
def State.startHeldMem (h : HeldOp) (s : State) : State :=
  let t := s.dropHeld h.id
  match h.instr with
  | .ld r => t.startLoad h.iss h.instr r (memSize r)
  | .ldv r => t.startLoad h.iss h.instr r 64
  | .st r | .wakea r => t.startStore h.iss h.instr r (memSize r)
  | .stv r => t.startStore h.iss h.instr r 64
  | .ldb r => t.startLdb h.iss r
  | .stb r => t.startStb h.iss r
  | .amoadd r | .amofadd r | .amomin r | .amomax r | .amoand r | .amoor r | .amoxor r | .amoswp r | .amocas r => t.startAmo h.iss h.instr r
  | .waita r => t.startWaita h.iss r
  | .pref r => s.performPref h r
  | _ => s

end Sys2Proof.Machine
end

