-- ==== Sys2Proof/Machine/MemEvents.lean ====
section
/-! DEFINITION. Steps of the memory system: bindings and completions of accesses, watches, lines, scratchpad transitions,
translation caches, the remap, the vector clocks (R158, R159, R161, R164, R167, R170, R180, R334, R344, R345, R432). -/
namespace Sys2Proof.Machine

/-! ### Counting events in the window (R219, R220) -/

/-- Times of the latest 15 events within the window, with the new one (R220). -/
def State.window (s : State) (old : List Nat) : List Nat :=
  let win := max 65536 s.err.win.toNat
  ((old.filter fun t => s.cycles ≤ t + win) ++ [s.cycles]).drop (((old.filter fun t => s.cycles ≤ t + win).length + 1) - 15)
/-- Events needed for a lasting fault; 0 is taken as 1 (R221). -/
def State.threshold (s : State) : Nat := max 1 s.err.thresh.toNat
def State.lasting (s : State) (ts : List Nat) : Bool := s.threshold ≤ ts.length
/-- Events of a list that still lie in the window. -/
def State.inWindow (s : State) (ts : List Nat) : Nat := (ts.filter fun t => s.cycles ≤ t + max 65536 s.err.win.toNat).length

/-! ### Accesses (R173, R174, R334) -/

/-- Bind one part of a load. A load at ELEM or REGION scope goes through the region L1 where it has cache banks (R154). One that reads at
home leaves no older line there for a later load of the thread (R173). A part is poisoned by its own mark alone (R228).
DEDUCED (log entry 42). -/
def State.bindPart (s : State) (x : Access) (a n : Nat) : List Byte × Bool × State :=
  let tid := s.issTid x.iss
  let l1 := x.kind == .global && decide (x.node.scope ≤ 1) && (x.opc == 0x90 || x.opc == 0x92)
    && (match s.task? tid with
        | some t => !(s.l1Banks t x.iss.ctx).isEmpty
        | none => false)
  if !l1 then s.readHome x x.kind a n
  else
    let (bs, p, s) := match s.l1Hit tid x.iss.ctx a n with
      | (some bs, s) => (bs, false, s)
      | (none, s) =>
        let (bs, p, s) := s.readAt .global a n
        let (line, q, s) := s.readAt .global (a / 64 * 64) 64
        (bs, p, if q then s else s.l1Fill tid x.iss.ctx (a / 64) line)
    let (bs, p) := patchSnap x.snap .global a bs p
    (bs, p, s.snapEarlier x .global a bs p)

/-- Bytes of an access in the order of its parts. -/
def Access.bytes (x : Access) : List Byte :=
  (List.range x.parts.length).flatMap fun k => ((x.got.find? fun g => g.1 == k).map (·.2.1)).getD []
def Access.gotPois (x : Access) : Bool := x.got.any fun g => g.2.2

/-- The payload of a load whose parts are all bound; `ecc` tells an uncorrectable error found by the read (R228). -/
def Access.value (x : Access) (ecc : Bool) : Pay :=
  let p := if x.opc = 0x94 then Pay.vector (ldbValue x.node x.attr (opB 0x94 x.node x.iss.f) x.bytes) else Pay.ofBytes x.node.v x.bytes
  if ecc then p.poisoned 1 else if x.gotPois then p.poisoned 4 else p

/-- Bind the parts of a load that `mask` names. -/
def State.bindParts (s : State) (x : Access) (mask : Nat) : Access × State :=
  ((List.range x.parts.length).filter fun k => bit mask k && bit x.todo k).foldl (fun (x, s) k =>
    match x.parts[k]? with
    | none => (x, s)
    | some (a, n) =>
      let (bs, p, s) := s.bindPart x a n
      ({ x with got := x.got ++ [(k, bs, p)], todo := x.todo - 2 ^ k }, s)) (x, s)

/-- No earlier access of the same node and activation still owes its tokens: results leave in the order of the firings, so
that LO never decreases on an edge (R103). DEDUCED (log entry 24). -/
def State.firstOfNode (s : State) (x : Access) : Bool :=
  ((s.mem.acc.find? fun y => y.iss.f.aid == x.iss.f.aid && y.iss.elem == x.iss.elem && y.iss.f.node == x.iss.f.node).map (·.id))
    == some x.id

/-- An access delivers its tokens; an LDB sets the flags of its rounding with its value (R205, R339). -/
def State.finishAccess (s : State) (x : Access) (p : Pay) : State :=
  let s := if x.opc = 0x94 && !p.pois then s.setFlags x.iss.elem x.iss.ctx (ldbFlags x.node x.attr (opB 0x94 x.node x.iss.f) x.bytes) else s
  s.endAccess x p

/-- An access gets on at the place that holds its location: loads bind parts; what is all done delivers its tokens (R334). -/
def State.complete (s : State) (id mask : Nat) (ecc : Bool) : State :=
  match s.mem.acc.find? fun y => y.id == id with
  | none => s
  | some x =>
    let loads := !isStore x.opc && !isAtomic x.opc
    if x.todo = 0 then
      if !s.firstOfNode x then s else
      s.finishAccess x (if loads && !x.result.pois then x.value ecc else if ecc then x.result.poisoned 1 else x.result)
    else if !loads then s
    else if x.kind = .domain then s.perform x mask
    else if !s.mayPerform x then s
    else if s.pastCap x then s.capTrap x
    else
      let (x, s) := s.bindParts x mask
      if x.todo ≠ 0 then s.setAcc x
      else
        let s := (s.setAcc x).acquire x
        if s.firstOfNode x then s.finishAccess x (x.value ecc) else s

/-- MEMORY_ACCESS_COMPLETE (R334). -/
def execMemoryAccessComplete (s : State) : Out :=
  match s.inp with
  | some (.memoryAccessComplete id parts ecc) => .next ({ s with inp := none }.complete id parts ecc)
  | _ => .next s

/-! ### Watches (R344, R345) -/

/-- What a watch has read: it fires at its threshold, and else waits on (R344). -/
def State.sawWord (s : State) (w : Watch) (v : Nat) (pois : Bool) : State :=
  if w.threshold ≤ v then s.endWatch w v pois
  else s.setWatch { w with last := v, lastPois := pois, dirty := false, first := if w.first = 0 then s.units + 1 else w.first }
/-- A watched word at a peer: a launch window reads as 0, isolation ends the watch with poison, and any other peer is asked (R32, R36,
R344). -/
def State.askPeer (s : State) (w : Watch) : State :=
  if launchBase ≤ w.place.addr then s.sawWord { w with lastRead := s.cycles } 0 false
  else if s.lnk.cutOff w.place.addr then
    ((s.setLnk (s.lnk.logDrop false (peerOf w.place.addr) (s.issAsid w.iss) w.place.addr .read)).dropWatch w.id).reply w.iss w.node
      ((Pay.poisoned (.scalar 0) 2).readAt (memAddr w.node (valOf w.iss.f.a)))
  else (s.setWatch { w with lastRead := s.cycles, dirty := false }).sendReq .read w.place.addr w.size [] (some w.id) (s.issAsid w.iss)
/-- No remap, open row or scratchpad transition keeps a watch from its word (R159, R161, R163). -/
def State.watchOpen (s : State) (w : Watch) : Bool :=
  match w.place.kind with
  | .global => s.rowFree w.place.addr
  | .scratch => (s.mem.wp (w.place.addr / 2 ^ 24)).say (s.issAsid w.iss) (w.place.addr % 2 ^ 24) != .waits
  | _ => true
/-- A watch reads its word at the place that holds it, which it translates anew at every read (R170, R344); a fault is its activation's.
A read that has to wait is due still. -/
def State.readWatch (s : State) (w : Watch) : State :=
  let va := memAddr w.node (valOf w.iss.f.a)
  if w.node.space = 0 ∧ !s.walkNow w.iss va false then s.setWatch w else
  match s.locate w.iss w.node.space va w.size false with
  | (.error t, s) => (s.dropWatch w.id).raise w.iss { t with lsid := w.node.x }
  | (.ok (pl, _), s) =>
    let w := { w with place := pl }
    if !s.watchOpen w then s.setWatch w
    else if pl.kind = .domain then s.askPeer w
    else
      let (bs, p, s) := s.readAt pl.kind pl.addr w.size
      s.sawWord { w with lastRead := s.cycles } (Sys2Proof.ofBytes bs) p
/-- What the cycle has brought a watch takes effect once the cycle's writes have performed: a read that is due sees them; a WAKEA's value
goes before a timeout, and a later one that reaches the threshold before both (R345, R347, R348). DEDUCED (log entry 85). -/
def State.watchTurn (s : State) (w : Watch) : State :=
  let s := if w.due || w.dirty && w.expired || w.woken.isSome && w.place.kind != .domain then s.readWatch { w with due := false } else s
  match s.mem.watches.find? fun y => y.id == w.id with
  | none => s
  | some w =>
    match w.woken with
    | some v => s.endWatch w v false
    | none => if w.expired then s.endWatch w w.last w.lastPois else s
/-- The watches of the cycle that ends. -/
def State.watchesEnd (s : State) : State :=
  (s.mem.watches.filter fun w => w.due || w.expired || w.woken.isSome).foldl State.watchTurn s

/-- WAITA_REREAD: after a write to the granule, every 1,024 cycles, and first of all once the access may perform (R344); the read takes
place when the cycle's writes are done (R348). DEDUCED (log entry 85). -/
def execWaitaReread (s : State) : Out :=
  match s.inp with
  | some (.waitaReread id) =>
    let s := { s with inp := none }
    match s.mem.watches.find? fun w => w.id == id with
    | none => .next s
    | some w =>
      let asked := decide (0 < w.lastRead ∧ s.cycles < w.lastRead + 1024)
      if (if w.first = 0 then !(w.place.kind == .domain && asked) && s.mayPerform w.access else w.dirty || !asked) then
        .next (s.setWatch { w with due := true })
      else .next s
  | _ => .next s

/-- WAITA_TIMEOUT: WAIT_TMO after its first read it fires the latest value read, unless a write of the cycle reaches the threshold
(R345, R348). -/
def execWaitaTimeout (s : State) : Out :=
  match s.inp with
  | some (.waitaTimeout id) =>
    let s := { s with inp := none }
    match s.mem.watches.find? fun w => w.id == id with
    | none => .next s
    | some w =>
      let tmo := ((s.issTask w.iss).map fun x => x.2.waitTmo.toNat).getD 0
      if w.first = 0 ∨ tmo = 0 ∨ !s.passed (w.first - 1) tmo then .next s else .next (s.setWatch { w with expired := true })
  | _ => .next s

/-! ### Glasshouse lines and the scratchpad (R158, R159, R432) -/

/-- GH_LINE_FILL (R432). DEDUCED (log entry 67). -/
def execGhLineFill (s : State) : Out :=
  match s.inp with
  | some (.ghLineFill pa) =>
    let s := { s with inp := none }
    if holeBase ≤ pa || (s.mem.wayOf (pa / 128)).isSome || s.mem.remapBusy && decide (pa < outerBase) then .next s
    else
      match s.mem.fillWay (pa / 128) with
      | none => .next s
      | some w => .next (s.setMem (s.mem.fillAt (pa / 128) w))
  | _ => .next s

/-- A write of GH_WAYPART that the writer may make: SPW, SPASID and TASKWR as they would be (R158, R159). -/
def Memory.setWaypart (m : Memory) (slice spw spasid : Nat) (taskWr clearErr : Bool) : Memory :=
  let p := m.wp slice
  let p := if clearErr then { p with err := false } else p
  let p :=
    if p.phase ≠ 0 ∨ 16 < spw then { p with err := true }
    else
      let p := { p with taskWr := taskWr, spw1 := BitVec.ofNat 5 spw, spasid1 := BitVec.ofNat 8 spasid }
      if spw = p.spw.toNat ∧ spasid = p.spasid.toNat then p else { p with phase := 1, wbcnt := 0 }
  { m with wayPart := Tab.set m.wayPart slice p }

/-- GH_WAYPART_WRITE: only the Lodge writes every field (R158). -/
def execGhWaypartWrite (s : State) : Out :=
  match s.inp with
  | some (.ghWaypartWrite agent slice v) =>
    let s := { s with inp := none }
    let x := v.toNat
    if agent ≠ .lodge ∨ 64 ≤ slice then .next s
    else .next (s.setMem (s.mem.setWaypart slice (field x 4 0) (field x 12 5) (bit x 13) (bit x 16)))
  | _ => .next s

/-- A range of SCRATCH addresses, which may run over several slices, meets the range that the transition of a slice removes (R159). -/
def WayPart.removes (p : WayPart) (asid slice addr len : Nat) : Bool :=
  let lo := slice * 2 ^ 24 + (if p.spasid = p.spasid1 then mib p.spw1.toNat else 0)
  let hi := slice * 2 ^ 24 + mib p.spw.toNat
  p.phase != 0 && p.spasid.toNat == asid && decide (max lo addr < min hi (addr + len))
/-- The lines held in the ways of a slice that leave the cache, as keys (R159). -/
def Memory.leaving (m : Memory) (slice : Nat) : List Nat :=
  let p := m.wp slice
  (m.lines.filter fun x => x.1 / 16 / 8192 == slice && decide (16 - p.spw1.toNat ≤ x.1 % 16)).map (·.1)
/-- An accepted access or copy still uses the range that is removed (R159). -/
def State.scratchBusy (s : State) (slice : Nat) : Bool :=
  let p := s.mem.wp slice
  let removed := fun (a : Nat) => a / 2 ^ 24 == slice && (p.spasid != p.spasid1 || decide (mib p.spw1.toNat ≤ a % 2 ^ 24))
  (s.mem.acc.any fun x => x.kind == .scratch && x.todo != 0 && x.parts.any fun y => removed y.1
      && (s.mem.wp slice).say (s.issAsid x.iss) (y.1 % 2 ^ 24) == .range)
    || s.eng.copies.any fun c =>
      (c.sspace == 2 && p.removes c.asid slice c.src c.len) || (c.dspace == 2 && p.removes c.asid slice c.dst c.len)

/-- GH_DRAIN_END: the surrendered ways are written back and invalidated, and ZERO begins (R159). -/
def execGhDrainEnd (s : State) : Out :=
  match s.inp with
  | some (.ghDrainEnd slice) =>
    let s := { s with inp := none }
    let p := s.mem.wp slice
    if p.phase ≠ 1 ∨ s.scratchBusy slice then .next s
    else
      let ks := if p.spw1.toNat ≤ p.spw.toNat then [] else s.mem.leaving slice
      let n := (ks.filter fun k => ((Tab.find s.mem.lines k).map (·.2)).getD false).length
      let m := ks.foldl Memory.evict s.mem
      .next (s.setMem { m with wayPart := Tab.set m.wayPart slice { p with phase := 2, wbcnt := BitVec.ofNat 16 (satTo 16 n) } })
  | _ => .next s

/-- GH_ZERO_END: every way that changes owner is zero and the new partition is in force (R69, R159). -/
def execGhZeroEnd (s : State) : Out :=
  match s.inp with
  | some (.ghZeroEnd slice) =>
    let s := { s with inp := none }
    let p := s.mem.wp slice
    if p.phase ≠ 2 then .next s
    else
      let lo := if p.spasid = p.spasid1 then mib (min p.spw.toNat p.spw1.toNat) else 0
      let keep := fun (a : Nat) => a / 2 ^ 24 != slice || decide (a % 2 ^ 24 < lo)
      .next (s.setMem { s.mem with
        scratch := s.mem.scratch.filter fun x => keep x.1
        scratchPois := s.mem.scratchPois.filter fun x => keep (x.1 * 16)
        wstamp := s.mem.wstamp.filter fun x => x.1 < 2 ^ 48 || keep (x.1 - 2 ^ 48)
        wayPart := Tab.set s.mem.wayPart slice { p with spw := p.spw1, spasid := p.spasid1, phase := 0 } })
  | _ => .next s

/-! ### Translation caches (R167 to R170) -/

/-- An invalidation: the translations that it names leave every cache, and watches on words of the ASIDs `asids` read again, by a new
translation (R170, R344). DEDUCED (log entries 68, 85). -/
def State.invalidate (s : State) (p : Tlb → Bool) (asids : Nat → Bool) : State :=
  let m := s.mem.dropTlb p
  s.setMem { m with trMark := s.fresh, watches := m.watches.map fun w =>
    if w.node.space = 0 ∧ asids (s.issAsid w.iss) then { w with dirty := w.dirty || w.slot } else w }
/-- TR_INV_ALL (R170). -/
def execTrInvAll (s : State) : Out :=
  match s.inp with
  | some .trInvAll => .next ({ s with inp := none }.invalidate (fun _ => true) fun _ => true)
  | _ => .next s
/-- TR_INV_ASID (R170). -/
def execTrInvAsid (s : State) : Out :=
  match s.inp with
  | some (.trInvAsid a) => .next ({ s with inp := none }.invalidate (fun t => t.asid == a) fun b => b == a)
  | _ => .next s
/-- TR_INV_PAGE (R170). -/
def execTrInvPage (s : State) : Out :=
  match s.inp with
  | some (.trInvPage a va) => .next ({ s with inp := none }.invalidate (fun t => t.hit a va) fun b => b == a)
  | _ => .next s
/-- PAGE_WALK: a miss of a memory port fills its cache; a walk that faults sets nothing (R168, R170). -/
def execPageWalk (s : State) : Out :=
  match s.inp with
  | some (.pageWalk port asid va write) => .next ({ s with inp := none }.translate port asid va write).2
  | _ => .next s

/-! ### Vector clocks (R180) -/

/-- VECTOR_CLOCK_ANNOUNCE (R180). DEDUCED (log entry 88). -/
def execVectorClockAnnounce (s : State) : Out :=
  match s.inp with
  | some (.vectorClockAnnounce q) =>
    let v := Tab.getD s.mem.vclock (q * 4 + q) 0
    .next ({ s with inp := none }.setMem
      { s.mem with aclock := (List.range 4).foldl (fun t h => Tab.set t (h * 4 + q) v) s.mem.aclock })
  | _ => .next s

/-! ### The remap (R20, R22, R161) -/

/-- Every line of the Pergola leaves the Glasshouse, dirty ones written back. DEDUCED (log entry 69). -/
def Memory.flushPergola (m : Memory) : Memory :=
  (m.lines.filter fun x => x.2.1 * 128 < outerBase).foldl (fun m x => m.evict x.1) m
/-- Close every open row as a forced close (R161). DEDUCED (log entry 69). -/
def Memory.closeAll (m : Memory) (c : Nat) : Memory :=
  { m with banks := m.banks.map fun (k, b) => (k, if b.open_ then { b with open_ := false, p := c } else b)
           rowIdle := m.banks.foldl (fun t (k, b) => if b.open_ then Tab.set t (k / 64) (max c (Tab.getD t (k / 64) 0)) else t) m.rowIdle }

/-- The banks that rejoin at the next remap: those of PG_RETURN that were hot and are not in the fuse map (R161). -/
def State.rejoining (s : State) : Tab W64 :=
  (List.range 256).foldl (fun t b =>
    Tab.put 0 t b (Tab.getD s.mem.pgReturn b 0 &&& Tab.getD s.mem.bankTherm b 0 &&& ~~~ (Tab.getD s.fuse.badBanks b 0))) []
/-- The banks that a remap started now leaves out: those marked in PG_BANKMAP, but for those that rejoin, and those that it retires (R161).
DEDUCED (log entry 69). -/
def State.newBankMap (s : State) (retire : List Nat) : Tab W64 :=
  (List.range 256).foldl (fun t b =>
    let gone := (retire.filter fun n => n / 64 == b).foldl (fun (x : W64) n => x ||| BitVec.ofNat 64 (2 ^ (n % 64))) 0
    Tab.put 0 t b ((Tab.getD s.mem.bankMap b 0 &&& ~~~ (Tab.getD s.rejoining b 0)) ||| gone)) []
/-- PG_REMAP_START: the Lodge clears QS_PLACE.EN (R71) and serves what it was interrupted for (R20); the new placement is settled, rows close
and Pergola accesses wait until BUSY clears (R161). DEDUCED (log entry 69). -/
def execPgRemapStart (s : State) : Out :=
  match s.inp with
  | some (.pgRemapStart retire) =>
    let s := { s with inp := none }
    if s.mem.remapBusy then .next s
    else
      .next (({ s with thm := { s.thm with lodgeIrq := [] } }.setSch { s.sch with placeEn := false }).setMem
        { (s.mem.closeAll s.rowClk).flushPergola with
            remapBusy := true, remapNew := s.newBankMap retire, remapBack := s.rejoining, pgReturn := [] })
  | _ => .next s

/-- PG_BANKMAP when a remap ends: banks that rejoin are clear, those that it retired are set, and one that heat has retired since it started
stays set (R20, R161). -/
def Memory.mapAfter (m : Memory) : Tab W64 :=
  (List.range 256).foldl (fun t b =>
    Tab.put 0 t b ((Tab.getD m.bankMap b 0 &&& ~~~ (Tab.getD m.remapBack b 0)) ||| Tab.getD m.remapNew b 0)) []
/-- PG_REMAP_DONE: the placement settled at its start is in force; what could not be read is poisoned (R161). DEDUCED (log entry 69). -/
def execPgRemapDone (s : State) : Out :=
  match s.inp with
  | some (.pgRemapDone unreadable) =>
    let s := { s with inp := none }
    if !s.mem.remapBusy then .next s
    else
      let map := s.mem.mapAfter
      let m := { s.mem.flushPergola with bankMap := map, liveMap := s.mem.remapNew, bankTherm := s.mem.bankTherm.map fun (b, x) => (b, x &&& Tab.getD map b 0) }
      let cap := m.capacity
      let bad := unreadable.filter fun g => g * 256 < cap
      let keep := fun (a : Nat) => decide (a < cap) || decide (outerBase ≤ a)
      let pois := bad.foldl (fun t g => markPois t (g * 256) 256 true) (m.dramPois.filter fun x => keep (x.1 * 16))
      .next (s.setMem { m with
        dram := m.dram.filter fun x => keep x.1
        dramPois := pois
        remapBusy := false
        remapDone := BitVec.ofNat 16 (satTo 16 (m.remapDone.toNat + 1))
        remapPois := BitVec.ofNat 32 (satTo 32 (m.remapPois.toNat + bad.length))
        remapNew := []
        remapBack := [] })
  | _ => .next s

/-! ### The bus tester (R164) -/

/-- A bed's vertical bus is out of service (R164). -/
def Memory.bedOut (m : Memory) (bed : Nat) : Bool := m.busOut.getLsbD bed
/-- No bank of a bed is OPENING or OPEN. -/
def Memory.bedIdle (m : Memory) (bed : Nat) : Bool := m.banks.all fun (k, b) => k / 64 != bed || !b.open_

/-- BUS_TESTER_BEAT: a beat on an idle bed, its error counted against the bus (R164, R219, R220). -/
def execBusTesterBeat (s : State) : Out :=
  match s.inp with
  | some (.busTesterBeat bed err) =>
    let s := { s with inp := none }
    let idle := Tab.getD s.mem.rowIdle bed 0 + max 16 s.mem.vbIdle.toNat ≤ s.rowClk
    if !s.mem.vbEn || s.mem.bedOut bed || !s.mem.bedIdle bed || !idle || 256 ≤ bed then .next s
    else
      let m := { s.mem with vbRunning := Tab.set s.mem.vbRunning bed true }
      if !err then .next (s.setMem m)
      else
        let ts := s.window (Tab.getD m.vbErrTimes bed [])
        .next (s.setMem { m with
          vbErrs := BitVec.ofNat 32 (satTo 32 (m.vbErrs.toNat + 1))
          vbErrTimes := Tab.set m.vbErrTimes bed ts
          busOut := if s.lasting ts then m.busOut ||| BitVec.ofNat 256 (2 ^ bed) else m.busOut })
  | _ => .next s

end Sys2Proof.Machine
end

