-- ==== Sys2Proof/Machine/Fabric.lean ====
section
/-! DEFINITION. The fabric: acceptance of tokens (R99 to R114, R225, R234), the choice of the firing that issues (R83,
R115), and the routers (R98, R116, R117, R242). -/
namespace Sys2Proof.Machine

/-! ### Error counts of elements (R219 to R221, R232) -/

/-- Count an error event against an element; with enough of them in the window its fault is lasting (R219, R220). -/
def State.countElem (s : State) (e : Nat) (uncorr : Bool) : State :=
  let x := Tab.getD s.fab.errs e .new
  let now := s.window (sortBy (fun a b => decide (a ≤ b)) (x.corr ++ x.uncorr))
  let x := if uncorr then { x with uncorr := s.window x.uncorr } else { x with corr := s.window x.corr }
  s.setFab { s.fab with errs := Tab.set s.fab.errs e { x with lasting := x.lasting || s.lasting now } }

/-- An element that replays, or has left service, accepts and issues nothing and holds its output latches (R223, R227).
DEDUCED (log entries 49, 50). -/
def State.replaying (s : State) (e : Nat) : Bool :=
  let x := Tab.getD s.fab.errs e .new
  x.replay || x.out

/-- Enter a line into ERR_VOTELOG (R232). DEDUCED (log entries 30, 90). -/
def State.logVote (s : State) (aid e n : Nat) (l : Nat × Nat × Nat) : State :=
  let a := s.act? aid
  let asid := ((a.bind fun a => s.task? a.tid).map (·.asid)).getD 0
  let w := e + 2 ^ 14 * n + 2 ^ 20 * l.2.1 + 2 ^ 22 * l.2.2 + 2 ^ 32 * (a.map (·.iter)).getD 0 + 2 ^ 44 * asid + 2 ^ 64 * (l.1 % 2 ^ 32)
  let k := s.err.voteIdx.toNat
  let lost := (Tab.find s.err.voteLog k).isSome && !s.err.voteRead.getLsbD k
  s.setErr { s.err with
    voteLog := Tab.set s.err.voteLog k (BitVec.ofNat 128 w)
    voteIdx := s.err.voteIdx + 1
    voteOver := if lost then BitVec.ofNat 16 (satTo 16 (s.err.voteOver.toNat + 1)) else s.err.voteOver
    voteRead := s.err.voteRead &&& ~~~ (BitVec.ofNat 32 (2 ^ k)) }

/-! ### Trace taps (R234, R235) -/

/-- One trace record (R235). DESIGN CHOICE (log entry 66). -/
def traceRecord (cycle tap : Nat) (t : Token) (replay : Bool) : List Byte :=
  let n := if t.pay.vec then 64 else 8
  bytesOf 6 cycle ++ bytesOf 2 (t.iter + 2 ^ 12 * tap + 2 ^ 15 * b2n t.pay.vec) ++ bytesOf 4 t.lo ++ bytesOf 4 t.hi
    ++ bytesOf 1 t.seq.toNat ++ bytesOf 1 (b2n t.pay.null + 2 * b2n t.front + 4 * b2n t.pay.pois + 8 * b2n replay) ++ bytesOf 6 0
    ++ bytesOf n t.pay.val.toNat ++ bytesOf (if t.pay.vec then 8 else 0) 0

/-- Write bytes into the trace ring from a free-running position. -/
def State.ringBytes (s : State) (base size wp : Nat) : List Byte → State
  | [] => s
  | b :: r => State.ringBytes (s.writeAt .global (base + wp % size) [b] false) base size (wp + 1) r

/-- Fields of TAP_SEL (R236): key of the consumer port, task, enabled. -/
def tapPort (x : W64) : Nat := field x.toNat 23 0
def tapAsid (x : W64) : Nat := field x.toNat 31 24
def tapOn (x : W64) : Bool := bit x.toNat 32

/-- A copy of tap `i` is dropped and counted (R235). -/
def State.tapDrop (s : State) (i : Nat) : State :=
  { s with tap := { s.tap with drops := Tab.set s.tap.drops i (BitVec.ofNat 32 (satTo 32 ((Tab.getD s.tap.drops i 0).toNat + 1))) } }
/-- Tap `i` copies an accepted token into its buffer of 8 copies, or drops it (R234, R235). -/
def State.tapCopy (s : State) (i : Nat) (t : Token) (replay : Bool) : State :=
  if 8 ≤ (s.tap.buf.filter fun x => x.1 == i).length then s.tapDrop i
  else { s with tap := { s.tap with buf := s.tap.buf ++ [(i, traceRecord s.cycles i t replay)] } }
/-- The oldest buffered copy goes into the ring, which takes it unless WP - RP ≥ SIZE (R235). -/
def State.tapWrite (s : State) : State :=
  match s.tap.buf with
  | [] => s
  | (i, bs) :: rest =>
    let s := { s with tap := { s.tap with buf := rest } }
    let size := s.tap.size.toNat
    if size ≤ (s.tap.wp - s.tap.rp).toNat then s.tapDrop i
    else
      let s := s.ringBytes s.tap.ring.toNat size s.tap.wp.toNat bs
      { s with tap := { s.tap with wp := s.tap.wp + BitVec.ofNat 64 bs.length } }
/-- The oldest buffered copy can go into the ring now (R161, R163). -/
def State.tapReady (s : State) : Bool :=
  s.tap.buf.head?.all fun (_, bs) => (List.range bs.length).all fun j => s.rowFree (s.tap.ring.toNat + (s.tap.wp.toNat + j) % max 1 s.tap.size.toNat)
/-- Between two cycles some of the buffered copies reach the ring; how many is open. DESIGN CHOICE (log entry 66). -/
def State.drainTaps (s : State) : State :=
  if s.tap.buf.isEmpty then s else
  let (n, s) := s.choose (s.tap.buf.length + 1)
  (List.range n).foldl (fun s _ => if s.tapReady then s.tapWrite else s) s

/-- The taps copy what the consumer accepts (R234). -/
def State.taps (s : State) (tid e : Nat) (t : Token) (replay : Bool) : State :=
  if !s.tap.en then s else
  let asid := ((s.task? tid).map (·.asid)).getD 0
  let port := e + 2 ^ 14 * t.ctx + 2 ^ 16 * t.node + 2 ^ 22 * portNum t.port
  (List.range 8).foldl (fun s i =>
    let x := Tab.getD s.tap.sel i 0
    if tapOn x && tapAsid x == asid && tapPort x == port then s.tapCopy i t replay else s) s

/-! ### What the firing rule needs to know of a node -/

/-- Whether some node of the plane in a context feeds a port (R100). -/
def State.hasEdge (s : State) (t : Task) (c e n : Nat) (p : PortName) : Bool :=
  match s.planeAt t c with
  | none => false
  | some pl =>
    (List.range pl.nblk).any fun k => (pl.blockNodes k).any fun x =>
      let e' := t.elem (neX x) (neY x)
      match s.recAt e' c (neNode x) with
      | none => false
      | some (_, r) => [r.dst0, r.dst1].any fun d => s.destElem e' c d == some (e, n, p)

/-- A port's token rule: its float format where it has one. -/
def fltOf (t : Option Ty) : Nat :=
  match t with
  | some ⟨.flt c, _⟩ => c
  | _ => 0

/-- Ports of a node that take part in matching (R104, R106). Port B of a REDPUT takes partials, not operands (R381). A JOINF
uses the ports that carry an edge (R342). -/
def State.usedPorts (s : State) (t : Task) (c e n opc : Nat) (r : NodeRec) : List Nat :=
  let f := formOf opc r
  if opc = 0xA9 then
    [(0, PortName.a), (1, .b), (2, .p)].filterMap fun (k, p) => if s.hasEdge t c e n p then some k else none
  else
    (if f.a.isSome then [0] else []) ++ (if f.usesB r && opc != 0xE6 then [1] else [])
      ++ (if f.p.isSome || r.pm != .none then [2] else [])

/-- The rule's view of a node (R96, R107 to R109). -/
def State.matchCfg (s : State) (t : Task) (e c n opc : Nat) (r : NodeRec) : MatchCfg :=
  let pe := s.portEntry e c n
  let f := formOf opc r
  { used := s.usedPorts t c e n opc r
    depth := fun k => field pe (5 * k + 3) (5 * k) + 1
    traps := fun k => bit pe (5 * k + 4)
    gap := fun k => if k = 0 then r.gapA else if k = 1 then r.gapB else .refuse
    fmt := fun k => if k = 0 then fltOf f.a else fltOf f.b
    v := r.v
    sat := decide (5 ≤ opc / 16 ∧ opc / 16 ≤ 7) && bit r.x 2 }

/-! ### Carry slots (R151, R320, R323) -/

/-- What an activation has done about carry slot `k`: a value it wrote, or none once every WRC of the slot has fired NULL. -/
def State.slotOf (s : State) (a : Act) (k : Nat) : Option (Option W64) :=
  match Tab.find a.carry k with
  | some v => some v
  | none => if a.allFired (s.acctNodes a (.slot k)) then some none else none

/-- Whether an activation's block may write carry slot `k`. -/
def State.mayWrite (s : State) (a : Act) (k : Nat) : Bool :=
  match s.planeOfAct a with
  | some pl => bit (hdrCwrite (pl.blockRec a.block)) k
  | none => false

/-- The value of slot `k` that an activation reads: none while an earlier activation in flight may still write it (R151). -/
def State.carryAt (s : State) (aid k : Nat) : Option W64 :=
  match s.act? aid with
  | none => some 0
  | some a =>
    if a.committed then some (Tab.getD a.base k 0) else
    match s.thread? a.thread with
    | none => some 0
    | some t =>
      (t.acts.takeWhile fun x => x != aid).foldl (fun v x =>
        match s.act? x with
        | none => v
        | some b =>
          if !s.mayWrite b k then v else
          match s.slotOf b k with
          | none => none
          | some none => v
          | some (some w) => v.map fun _ => w) (some (Tab.getD t.carry k 0))

/-! ### Release and the ready queue (R105, R114) -/

/-- Move waiting firings into the ready queue as places free (R114). -/
def CtxSt.fill (x : CtxSt) : CtxSt :=
  let n := 16 - x.ready.length
  { x with ready := x.ready ++ x.waiting.take n, waiting := x.waiting.drop n }

/-- A checkpoint in progress of a task. -/
def State.cutOf (s : State) (tid : Nat) : Option Cut :=
  match s.task? tid with
  | none => none
  | some t =>
    match t.phase with
    | .cutting c => some c
    | _ => none

/-- A node that fires nothing for now: a marked node of a checkpoint, and the SPAWN, LAUNCH and QPUT nodes of a task that is
being cut (R86, R87). -/
def State.stopped (s : State) (tid e c n opc : Nat) : Bool :=
  match s.cutOf tid with
  | none => false
  | some k => k.frozen.contains (ctxKey e c * 64 + n) || opc == 0xB6 || opc == 0xBC || opc == 0xC9

/-- Whether the pending firings of a node may be released (R86, R87, R323). -/
def State.mayRelease (s : State) (tid aid e c n opc : Nat) (r : NodeRec) : Bool :=
  !s.stopped tid e c n opc && (opc != 0xB4 || (s.carryAt aid (r.l % 64)).isSome)

/-- Release what the node frontier lets go (R105); the voter's firings go as they are found (R231). -/
def State.releaseNode (s : State) (aid e c n : Nat) : State :=
  match s.act? aid, s.recAt e c n with
  | some a, some (opc, r) =>
    match s.task? a.tid with
    | none => s
    | some t =>
      let st := s.nodeSt aid e n
      let ok := s.mayRelease a.tid aid e c n opc r
      let (fs, st) := if opc = 0x0A then (if ok then (st.pend, { st with pend := [] }) else ([], st))
        else st.release (s.matchCfg t e c n opc r) ok
      if fs.isEmpty then s else
      let s := s.setNodeSt aid e n st
      let x := s.ctx e c
      s.setCtx e c { x with waiting := x.waiting ++ (fs.map fun (f : Firing) => { f with since := s.cycles }) }.fill
  | _, _ => s

/-- Release again the RDC nodes of a thread's activations, once a carry slot has become known (R323). -/
def State.releaseReads (s : State) (thread : Nat) : State :=
  match s.thread? thread with
  | none => s
  | some t =>
    t.acts.foldl (fun s aid =>
      match s.act? aid with
      | none => s
      | some a =>
        (s.actNodes a).foldl (fun s (e, n) =>
          match s.recAt e a.ctx n with
          | some (0xB4, _) => s.releaseNode aid e a.ctx n
          | _ => s) s) s

/-! ### Acceptance (R101 to R114) -/

/-- Producer code of a token that no producer numbers: a start token (R252) or a kept drain token (R133).
DESIGN CHOICE (log entry 65). -/
def startSrc : Nat := 2 ^ 23

/-- How a sequence number is taken (R225). -/
inductive SeqSay where
  | expected | duplicate | outOfRange
  deriving DecidableEq, Repr

/-- DEDUCED (log entry 28). -/
def State.seqSay (s : State) (t : Token) : SeqSay :=
  if t.src = startSrc then .expected else
  let d := (Tab.getD s.fab.seqIn t.src 0 - t.seq).toNat
  if d = 0 then .expected else if d ≤ 128 then .duplicate else .outOfRange
/-- The number expected next. DEDUCED (log entry 28). -/
def State.seqTake (s : State) (t : Token) : State :=
  if t.src = startSrc then s else s.setFab { s.fab with seqIn := Tab.set s.fab.seqIn t.src (t.seq + 1) }

/-- Enter an accepted token into the input-latch history, which holds 16, and forget the firings that issued before the oldest of
them was accepted (R95, R223). -/
def State.remember (s : State) (e aid : Nat) (t : Token) (before : NodeSt) : State :=
  let old := Tab.getD s.fab.hist e []
  let h : History := { tok := t, num := s.fab.accepted, before := before, aid := aid, gen := (s.ctx e t.ctx).gen,
                       seqs := s.fab.seqOut.filter fun x => x.1 / 512 == e }
  let new := (old ++ [h]).drop (old.length + 1 - 16)
  let first := (new.head?.map (·.num)).getD 0
  s.setFab { s.fab with
    hist := Tab.set s.fab.hist e new
    issued := Tab.set s.fab.issued e ((Tab.getD s.fab.issued e []).filter fun x => decide (first < x.1)) }
/-- A token that takes no part in the firing rule enters the history by itself (R113, R223). -/
def State.rememberTok (s : State) (e : Nat) (t : Token) : State :=
  let aid := (((s.ctx e t.ctx).owner.bind fun tid => s.actFor tid t.ctx t.iter)).getD 0
  let s := s.remember e aid t (s.nodeSt aid e t.node)
  s.setFab { s.fab with accepted := s.fab.accepted + 1 }

/-- Key of a tree of a task's context (R380). DESIGN CHOICE (log entry 65). -/
def treeKey (tid c tree : Nat) : Nat := (tid * 4 + c) * 16 + tree
def State.tree (s : State) (k : Nat) : TreeSt := Tab.getD s.eng.trees k .new
def State.setTree (s : State) (k : Nat) (t : TreeSt) : State := s.setEng { s.eng with trees := Tab.set s.eng.trees k t }
def TreeSt.node (t : TreeSt) (n : Nat) : TreeNode := Tab.getD t.nodes n .new
/-- The round from `k` on that is not abandoned (R383). -/
def TreeSt.skip (t : TreeSt) (k : Nat) : Nat → Nat
  | 0 => k
  | n + 1 => if t.abandoned.contains k then t.skip (k + 1) n else k
/-- The round that a node combines next. -/
def TreeSt.cur (t : TreeSt) (x : TreeNode) : Nat := t.skip x.combined t.abandoned.length
def TreeSt.setNode (t : TreeSt) (n : Nat) (x : TreeNode) : TreeSt := { t with nodes := Tab.set t.nodes n x }

/-- The round that an A token of a REDWAIT pairs with, which it takes when it is accepted: the least that no other token of the node has
(R382). -/
def TreeSt.takeRound (t : TreeSt) (n aid tok : Nat) : Nat × TreeSt :=
  match t.paired.find? fun p => p.node == n && p.aid == aid && p.tok == tok with
  | some p => (p.round, t)
  | none =>
    let back := Tab.getD t.back n []
    let next := Tab.getD t.waitCount n 0
    let k := back.foldl min next
    (k, { t with paired := t.paired ++ [{ node := n, aid := aid, tok := tok, round := k }], back := Tab.set t.back n (back.filter fun x => x != k)
                 waitCount := if k = next then Tab.set t.waitCount n (k + 1) else t.waitCount })
/-- The tokens of a discarded activation give their rounds back, but for abandoned ones, which no later token takes (R381 to R383).
DEDUCED (log entry 58). -/
def TreeSt.giveBack (t : TreeSt) (aid : Nat) : TreeSt :=
  (t.paired.filter fun p => p.aid == aid && !t.abandoned.contains p.round).foldl (fun t p =>
    { t with back := Tab.set t.back p.node (Tab.getD t.back p.node [] ++ [p.round]) }) { t with paired := t.paired.filter fun p => p.aid != aid }
/-- An A token of a REDWAIT is accepted. -/
def State.pairWait (s : State) (tid e aid : Nat) (r : NodeRec) (t : Token) : State :=
  let k := treeKey tid t.ctx (field r.l 3 0)
  let x := s.tree k
  s.setTree k ({ x with paired := x.paired.filter fun p => (s.act? p.aid).isSome }.takeRound (e * 64 + t.node) aid s.fab.accepted).2
/-- A child's partial reaches port B of a REDPUT by the link `dir` (R381); none while it is more than 4 rounds ahead. A
partial of an abandoned round is dropped (R383). `t.lo` is the round that it is tagged with; `late` tells a SEQ out of range (R225). -/
def State.takePartial (s : State) (tid e dir : Nat) (r : NodeRec) (t : Token) (late : Bool) : Option State :=
  let k := treeKey tid t.ctx (field r.l 3 0)
  let tree := s.tree k
  let x := tree.node (e * 64 + t.node)
  if tree.cur x + 4 < t.lo then none else
  let from_ := t.src / 512 * 64 + t.src / 2 % 64
  let child := tree.node from_
  let p := child.sent.find? fun q => q.round == t.lo
  let tree := tree.setNode from_ { child with sent := child.sent.filter fun q => q.round != t.lo }
  match p with
  | none => some (s.setTree k tree)
  | some p =>
    if tree.abandoned.contains t.lo then some (s.setTree k tree) else
    let tree := tree.setNode (e * 64 + t.node)
      { tree.node (e * 64 + t.node) with inputs := x.inputs ++ [{ p with link := dir - 1, since := s.cycles, iss := none,
                                                                         pois := p.pois || late, psrc := if late then 6 else p.psrc }] }
    some (s.setTree k { tree with begun := if (Tab.find tree.begun t.lo).isSome then tree.begun else Tab.set tree.begun t.lo s.units })

/-- The element that produced a token: its node's, or the FIFO element of its stream port (R219, R352); none for a start token. -/
def State.srcElem (s : State) (src : Nat) : Option Nat :=
  if src < startSrc then some (src / 512)
  else if src < 2 ^ 24 then none
  else
    let k := src - 2 ^ 24
    (s.streamPort (k / 1024) (k / 256 % 4) (k % 256)).map fun (t, _, x) => t.elem (spFx x) (spFy x)

/-- A live node takes a token by the firing rule; none while it waits (R105, R111, R231). What replay accepts again enters neither the
history nor the vote log a second time, and had its room when it first came (R223). -/
def State.matchTok (s : State) (tid aid e : Nat) (opc : Nat) (r : NodeRec) (t : Token) (replay : Bool) : Option State :=
  match s.task? tid with
  | none => some s
  | some task =>
    let c := t.ctx
    let n := t.node
    let k := portNum t.port
    let cfg := s.matchCfg task e c n opc r
    let st := s.nodeSt aid e n
    let id := s.fab.accepted
    let x := s.ctx e c
    let live := (x.ready ++ x.waiting).filter fun f => f.aid == aid && f.node == n
    let go := fun (s : State) (st' : NodeSt) =>
      let s := if replay then s else s.remember e aid t st
      let s := if replay || opc != 0xE7 || t.port != .a || t.front then s else s.pairWait tid e aid r t
      let s := s.setFab { s.fab with accepted := id + 1 }
      ((s.setNodeSt aid e n st').releaseNode aid e c n).taps tid e t replay
    if opc = 0x0A then
      let v := st.vote cfg.depth aid n k id t
      let s := go s v.node
      if replay then some s else
      let s := v.logs.foldl (fun s l => s.logVote aid e n l) s
      let s := v.logs.foldl (fun s l =>
        if 4 ≤ l.2.2 then s else
        let src := if l.2.1 = k then t.src else
          ((st.votes.find? fun u => u.pos == l.1).bind fun u => (u.copies.find? fun y => y.1 == l.2.1).map fun y => y.2.src).getD t.src
        match s.srcElem src with
        | some x => s.countElem x true
        | none => s) s
      some (v.failed.foldl (fun s p => s.raiseAt aid e n { code := trapVoteNone, info := BitVec.ofNat 64 p }) s)
    else
      match st.accept (if replay then { cfg with depth := fun _ => 2 ^ 16 } else cfg) aid n k id t live with
      | .stall => none
      | .order f => some (s.raiseAt aid e n { code := trapEdgeOrder, info := BitVec.ofNat 64 f, port := k })
      | .full d => some (s.raiseAt aid e n { code := trapMatchFull, info := BitVec.ofNat 64 d, port := k })
      | .done st' => some (go s st')

/-- A token to a node whose marker has passed is recorded as channel state of its edge (R87). -/
def State.recordChannel (s : State) (tid : Nat) (cut : Cut) (e : Nat) (t : Token) : State :=
  s.updTask tid fun k => { k with phase := .cutting { cut with channel := cut.channel ++ [(e, t)] } }

/-- An activation has a frame in an element (R102, R150). -/
def State.hasFrame (s : State) (e aid : Nat) : Bool := (Tab.getD s.fab.frames e []).any fun x => x.1 == aid
/-- Firings on the pending list of a context of an element: those that its nodes have not released, and those that wait for the ready
queue (R105, R114). -/
def State.pendingIn (s : State) (e c : Nat) : Nat :=
  (s.ctx e c).waiting.length + ((s.fab.nodes.filter fun x => x.1 / 64 % 16384 == e && ((s.act? (x.1 / 1048576)).map (·.ctx)) == some c).map
    fun x => x.2.pend.length).sum

/-- A token to an armed context that accepts: a full pending list takes none, then duplicates, partials, tags with no live activation in
the element, the empty node, and the firing rule, in this order (R114). R114 does not say what an acceptance does that finds more firings
than the list has places left: the list takes them all and accepts nothing more until it is below 32. DESIGN CHOICE (log entry 29). -/
def State.acceptLive (s : State) (tid e dir : Nat) (t : Token) (replay : Bool) : Option State :=
  if 32 ≤ s.pendingIn e t.ctx then none else
  let say := s.seqSay t
  if say = .duplicate then some s else
  let rec_ := s.recAt e t.ctx t.node
  let t' := if say = .outOfRange then { t with pay := t.pay.poisoned 6 } else t
  match (match rec_ with
    | some (0xE6, r) => if t.port = PortName.b then some r else none
    | _ => none) with
  | some r => (s.takePartial tid e dir r t (say == .outOfRange)).map fun s => ((s.seqTake t).rememberTok e t').taps tid e t' replay
  | none =>
    match (s.actFor tid t.ctx t.iter).filter fun aid => s.hasFrame e aid with
    | none => some (s.seqTake t)
    | some aid =>
      match rec_ with
      | none => some ((s.seqTake t).raiseAt aid e t.node { code := trapEmptyNode })
      | some (opc, r) => (s.matchTok tid aid e opc r t' replay).map fun s => s.seqTake t

/-- Element `e` takes a token that came in by the side `dir`; none while it has to wait in its latch (R102, R111, R114). -/
def State.acceptTok (s : State) (e dir : Nat) (t : Token) (replay : Bool) : Option State :=
  match (s.ctx e t.ctx).owner with
  | none => some (s.seqTake t)
  | some tid =>
    if !(s.ctx e t.ctx).armed then none else
    match s.cutOf tid with
    | some cut =>
      if s.seqSay t = .duplicate then some s
      else if cut.frozen.contains (ctxKey e t.ctx * 64 + t.node) then
        let t' := if s.seqSay t = .outOfRange then { t with pay := t.pay.poisoned 6 } else t
        some ((s.seqTake t).recordChannel tid cut e t')
      else s.acceptLive tid e dir t replay
    | none => s.acceptLive tid e dir t replay

/-- A token reaches the write side of a stream port (R242, R355): the first open write binding of its iteration tag takes it,
and a token that finds none is dropped. NULL and FRONT tokens take no position. DEDUCED (log entry 51). -/
def State.toPort (s : State) (e : Nat) (t : Token) : State :=
  match (s.ctx e t.ctx).owner with
  | none => s.seqTake t
  | some tid =>
    let say := s.seqSay t
    if say = .duplicate then s else
    let s := s.seqTake t
    let k := s.eng.bindings.findIdx? fun x =>
      x.tid == tid && x.ctx == t.ctx && portNode x.port == t.node && some x.aid == s.actFor tid t.ctx t.iter && x.takes
    match k with
    | none => s
    | some k =>
      match s.eng.bindings[k]? with
      | none => s
      | some x =>
        if t.front || t.pay.null then s else
        let t := if say = .outOfRange then { t with pay := t.pay.poisoned 6 } else t
        s.setEng { s.eng with bindings := listSet s.eng.bindings k { x with inputs := x.inputs ++ [t] } }

/-- The FIFO of a write port has room (R153, R352). DEDUCED (log entry 51). -/
def State.portRoom (s : State) (e c n : Nat) : Bool :=
  match (s.ctx e c).owner with
  | none => true
  | some tid =>
    match s.streamPort tid c (n - 64) with
    | none => true
    | some (_, pl, _) =>
      let held := (s.eng.bindings.filter fun b => b.write && b.tid == tid && b.ctx == c && portNode b.port == n).map (·.inputs.length)
      decide (held.sum < fifoShare pl (s.extent e c / 64) (n - 64))

/-- Two tokens of one edge. -/
def Token.sameEdge (x y : Token) : Bool := x.src == y.src && x.ctx == y.ctx && x.node == y.node && x.port == y.port
/-- The tokens of a restored cut that element `e` may take: the first of each edge, with its place (R89). -/
def State.chanHeads (s : State) (e : Nat) : List (Nat × Token) :=
  (s.fab.chan.zipIdx).filterMap fun (x, k) =>
    if x.1 = e ∧ (s.fab.chan.take k).all fun y => y.1 != e || !y.2.sameEdge x.2 then some (k, x.2) else none
/-- The side by which a token of the element `src` comes in at the element `e`: its last hops run along Y, unless the two lie in one row
(R98). -/
def entrySide (src e : Nat) : Nat :=
  if elemY src < elemY e then 1 else if elemY e < elemY src then 3
  else if elemX e < elemX src then 2 else if elemX src < elemX e then 4 else 0
/-- Accept the first of the restored tokens that can be accepted, each by the side of its edge (R89, R381). DEDUCED (log entry 45). -/
def State.acceptChan (s : State) (e : Nat) : List (Nat × Token) → Option State
  | [] => none
  | (k, t) :: r =>
    let s' := s.setFab { s.fab with chan := listDrop s.fab.chan k }
    match (if 64 ≤ t.node then (if s.portRoom e t.ctx t.node then some (s'.toPort e t) else none) else s'.acceptTok e (if t.src < startSrc then entrySide (t.src / 512) e else 0) t false) with
    | some s => some (s.use (busyAccept e))
    | none => State.acceptChan s e r
/-! ### Issue (R24, R83, R115) -/

/-- Opcodes that use the element's divider (R95, R269, R288). -/
def usesDivider (opc : Nat) : Bool := opc == 0x25 || opc == 0x26 || opc == 0x62 || opc == 0x63

/-- The firing that a context would issue: the oldest of its ready queue, unless the context is skipped (R115). -/
def State.issuable (s : State) (e c : Nat) : Option Firing :=
  let x := s.ctx e c
  match x.ready with
  | [] => none
  | f :: _ =>
    let div := match s.recAt e c f.node with
      | some (opc, _) => usesDivider opc && decide (s.cycles < Tab.getD s.fab.divBusy e 0)
      | none => false
    if x.holds s.cycles || div || decide (s.cycles ≤ f.since) then none else some f

/-- A new round: every context with ready work gets its credit (R83). Of a context without ready work R83 says nothing: what credit it has
left over it keeps, a DESIGN CHOICE (log entry 25). -/
def State.newRound (s : State) (e : Nat) : State :=
  (List.range 4).foldl (fun s c =>
    let x := s.ctx e c
    if x.ready.isEmpty then s else
    let p := ((x.owner.bind s.task?).map (·.prio)).getD 0
    s.setCtx e c { x with credit := 1 + p }) s

/-- The contexts of an element after the one last served. DESIGN CHOICE (log entry 7); DEDUCED (log entry 25). -/
def State.turn (s : State) (e : Nat) : List Nat :=
  let l := Tab.getD s.fab.lastServed e 3
  (List.range 4).map fun k => (l + 1 + k) % 4

/-- Slots of R24 that are withheld: one for each eighth in every eight; which of the eight is open. DEDUCED (log entry 25). -/
def State.withheld (s : State) : Bool :=
  decide (0 < s.pow.throttle.toNat) && decide ((s.cycles + Config.freeChoice (2 ^ 100 + s.cycles / 8)) % 8 < s.pow.throttle.toNat)

/-- The context whose turn it is, among those that can issue (R83). DEDUCED (log entry 25). -/
def State.chooseCtx (s : State) (e : Nat) : Option (Nat × State) :=
  let can := (s.turn e).filter fun c => (s.issuable e c).isSome
  if can.isEmpty then none else
  match can.find? fun c => decide (0 < (s.ctx e c).credit) with
  | some c => some (c, s)
  | none => can.head?.map fun c => (c, s.newRound e)

/-- Take the firing out of the ready queue; entries that it alone pinned go (R110, R114). -/
def State.takeFiring (s : State) (e c : Nat) (f : Firing) : State :=
  let x := s.ctx e c
  let s := s.setCtx e c { x with ready := x.ready.drop 1, credit := x.credit - 1 }.fill
  match s.act? f.aid, s.recAt e c f.node with
  | some a, some (opc, r) =>
    match s.task? a.tid with
    | none => s
    | some t =>
      let y := s.ctx e c
      let live := (y.ready ++ y.waiting).filter fun g => g.aid == f.aid && g.node == f.node
      s.setNodeSt f.aid e f.node ((s.nodeSt f.aid e f.node).discard (s.matchCfg t e c f.node opc r) live)
  | _, _ => s

/-- In this cycle the element's datapath serves an array, or a step of its factorising bed (R124, R127, R141).
DEDUCED (log entry 57). -/
def State.serves (s : State) (e : Nat) : Bool :=
  (Tab.getD s.fab.serving e []).contains s.cycles
    || ((Tab.find s.eng.beds (bedOf e)).bind (·.serve)).any fun u => decide (s.cycles < u)
/-- Two firings are one, found again by replay (R223). -/
def Firing.same (x y : Firing) : Bool := x.aid == y.aid && x.node == y.node && x.trig == y.trig && x.lo == y.lo && x.pins == y.pins
/-- An issue slot of an element: the firing that issues and the state in which its body runs (R83, R115). A cycle that serves an array
is no issue slot (R124). DEDUCED (log entries 18, 25, 49). -/
def State.issueSlot (s : State) (e : Nat) : Option (Nat × Firing × State) :=
  if s.isBusy (busyIssue e) || s.replaying e || s.withheld || s.serves e then none else
  match s.chooseCtx e with
  | none => none
  | some (c, s) =>
    match s.issuable e c with
    | none => none
    | some f =>
      let s := (s.takeFiring e c f).use (busyIssue e)
      let old := Tab.getD s.fab.issued e []
      let f := { f with again := old.any fun x => x.2.same f }
      let s := s.setFab { s.fab with
        lastServed := Tab.set s.fab.lastServed e c
        issued := if f.again then s.fab.issued else Tab.set s.fab.issued e (old ++ [(s.fab.accepted, f)]) }
      some (c, f, { s with cur := some { elem := e, ctx := c, f := f } })

/-! ### Routers (R98, R116, R117, R242) -/

/-- The way out of an element towards a target: X first, then Y; 0 stays, 1 north, 2 east, 3 south, 4 west (R98). -/
def wayOut (e target : Nat) : Nat :=
  if elemX e < elemX target then 2 else if elemX target < elemX e then 4
  else if elemY e < elemY target then 3 else if elemY target < elemY e then 1 else 0
def neighbour (e out : Nat) : Nat :=
  match out with
  | 1 => elemAt (elemX e) (elemY e - 1)
  | 2 => elemAt (elemX e + 1) (elemY e)
  | 3 => elemAt (elemX e) (elemY e + 1)
  | 4 => elemAt (elemX e - 1) (elemY e)
  | _ => e
/-- The side by which a token that leaves by `out` comes in. -/
def sideIn (out : Nat) : Nat :=
  match out with
  | 1 => 3
  | 2 => 4
  | 3 => 1
  | 4 => 2
  | _ => 0

/-- What a token to node `n` of context `c` enters at its target is free: the input latch, or the FIFO of a write port, where no
restored token of the edge `src` comes first (R89, R117, R153). -/
def State.freeAt (s : State) (target dir c n src : Nat) : Bool :=
  if 64 ≤ n then s.portRoom target c n && s.fab.chan.all fun y => !(y.1 == target && y.2.src == src && y.2.node == n)
  else (Tab.find s.fab.latches (target * 8 + dir)).isNone

/-- The first link is free and what lies beyond it takes a token of edge `src` to node `n` of context `c` (R117).
DESIGN CHOICE (log entry 10). -/
def State.canEnter (s : State) (e target c n src : Nat) : Bool :=
  let out := wayOut e target
  let next := neighbour e out
  !(decide (out ≠ 0) && s.isBusy (busyLink e out)) &&
    (if next = target then s.freeAt target (sideIn out) c n src
     else decide ((s.fab.net.filter fun f => f.at_ == next && f.dir == sideIn out).length < Config.routerDepth + 1))
/-- A flit can move on. -/
def State.canMove (s : State) (f : Flit) : Bool := s.canEnter f.at_ f.target f.tok.ctx f.tok.node f.tok.src

/-- The token takes its next hop: into the target's input latch or stream port, or into the next router (R98). -/
def State.enter (s : State) (e dir target : Nat) (t : Token) : State :=
  let out := wayOut e target
  let n := neighbour e out
  let s := if out = 0 then s else (s.use (busyLink e out)).setFab { s.fab with routeOwn := Tab.set s.fab.routeOwn (e * 8 + out) dir }
  if n = target ∧ 64 ≤ t.node then s.toPort target t
  else if n = target then s.setFab { s.fab with latches := Tab.set s.fab.latches (n * 8 + sideIn out) { tok := t, since := s.cycles } }
  else s.setFab { s.fab with net := s.fab.net ++ [{ tok := t, at_ := n, dir := sideIn out, target := target, moved := s.cycles }] }

/-- The flits that may move: the first of each router input, and of each edge among those that have not left their element. -/
def State.isHead (s : State) (k : Nat) (f : Flit) : Bool :=
  (s.fab.net.take k).all fun g => !(g.at_ == f.at_ && g.dir == f.dir && (decide (f.dir ≠ 0) || g.tok.src == f.tok.src))

/-- Where the beat of an output latch goes, for each destination. -/
def State.beatTargets (s : State) (e c : Nat) (l : OutLatch) (b : Beat) : List (Nat × Option (Nat × Nat × PortName)) :=
  match s.recAt e c l.node with
  | none => []
  | some (_, r) =>
    (if b.to0 && r.dst0 != .none then [(0, s.target e c r.dst0)] else [])
      ++ (if b.to1 && r.dst1 != .none then [(1, s.target e c r.dst1)] else [])

/-- The beat at the head of an output latch may leave now, as far as its links are concerned. A result whose copies take
different links leaves whole or not at all (R88, R116), and the beats of one result leave one in a cycle (R315, R317). An element that replays holds its output latches (R223). DEDUCED (log entry 26). -/
def State.beatReady (s : State) (e c : Nat) (l : OutLatch) (b : Beat) : Bool :=
  let ts := s.beatTargets e c l b
  let far := ts.any fun t => (t.2.map fun x => decide (wayOut e x.1 ≠ 0)).getD false
  !l.waits && !s.replaying e && decide (l.readyAt + b2n far ≤ s.cycles) && ((l.left.map fun t => decide (t < s.cycles)).getD true) &&
    (let can := fun (i : Nat) (x : Nat × Nat × PortName) => s.canEnter e x.1 c x.2.1 (edgeSrc e c l.node i)
     match ts with
     | [(i, some x), (j, some y)] => if wayOut e x.1 = wayOut e y.1 then can i x else can i x && can j y
     | _ => ts.all fun t => (t.2.map (can t.1)).getD true)

/-- The links on which the next beat of an output latch would leave. DEDUCED (log entry 26). -/
def State.beatLinks (s : State) (e c : Nat) : List Nat :=
  match (s.ctx e c).latch with
  | none => []
  | some l =>
    match l.beats with
    | [] => []
    | b :: _ => if s.beatReady e c l b then (s.beatTargets e c l b).filterMap fun t => t.2.map fun x => wayOut e x.1 else []

/-- An input of the router wants an output link (R98). -/
def State.wants (s : State) (e out dir : Nat) : Bool :=
  ((s.fab.net.zipIdx).any fun (f, k) =>
    f.at_ == e && f.dir == dir && decide (f.moved < s.cycles) && wayOut e f.target == out && s.isHead k f && s.canMove f)
  || dir == 0 && (List.range 4).any fun c => (s.beatLinks e c).contains out

/-- Round-robin arbitration of an output link: no input between the one last served and `dir` wants it (R98).
DESIGN CHOICE (log entry 7); DEDUCED (log entry 26). -/
def State.turnOf (s : State) (e out dir : Nat) : Bool :=
  let l := Tab.getD s.fab.routeOwn (e * 8 + out) 4
  out == 0 || (((List.range 5).map fun k => (l + 1 + k) % 5).takeWhile fun d => d != dir).all fun d => !s.wants e out d

/-- A token moves on from a router (R98). DEDUCED (log entry 26). -/
def State.hopFlit (s : State) (k : Nat) : State :=
  match s.fab.net[k]? with
  | none => s
  | some f =>
    if decide (f.moved < s.cycles) && s.isHead k f && s.canMove f && s.turnOf f.at_ (wayOut f.at_ f.target) f.dir then
      (s.setFab { s.fab with net := listDrop s.fab.net k }).enter f.at_ f.dir f.target f.tok
    else s

/-- The beat with destination `i` served. -/
def Beat.served (b : Beat) (i : Nat) : Beat := if i = 0 then { b with to0 := false } else { b with to1 := false }

/-- Send the copy of a beat for destination `i`. A copy for the element itself whose sibling takes a link has been in the input latch
since the cycle before, in which both left (R116). -/
def State.sendCopy (s : State) (e c : Nat) (l : OutLatch) (b : Beat) (i : Nat) (early : Bool) : State :=
  match s.recAt e c l.node with
  | none => s
  | some (_, r) =>
    let d := if i = 0 then r.dst0 else r.dst1
    match s.target e c d with
    | none => s
    | some (target, n, p) =>
      let (q, s) := s.nextSeq (edgeSrc e c l.node i)
      let s := s.enter e 0 target { lo := b.lo, hi := b.hi, pay := b.pay, front := b.front, iter := ((s.act? l.aid).map (·.iter)).getD 0,
                                    ctx := c, node := n, port := p, seq := q, src := edgeSrc e c l.node i }
      if !early || decide (wayOut e target ≠ 0 ∨ 64 ≤ n) then s
      else
        match Tab.find s.fab.latches (e * 8) with
        | some x => s.setFab { s.fab with latches := Tab.set s.fab.latches (e * 8) { x with since := x.since - 1 } }
        | none => s

/-- The next result leaves an output latch (R116, R117, R242). Two copies on one link leave one after the other.
DEDUCED (log entry 26). -/
def State.hopLatch (s : State) (e c : Nat) : State :=
  match (s.ctx e c).latch with
  | none => s
  | some l =>
    match l.beats with
    | [] => s
    | b :: rest =>
      let ts := s.beatTargets e c l b
      let turns := (s.beatLinks e c).all fun out => s.turnOf e out 0
      if !s.beatReady e c l b || !turns then s else
      let shared := match ts with
        | [(_, some x), (_, some y)] => decide (wayOut e x.1 = wayOut e y.1)
        | _ => false
      let go := if shared then ts.take 1 else ts
      let far := ts.any fun t => (t.2.map fun x => decide (wayOut e x.1 ≠ 0)).getD false
      let s := go.foldl (fun s t => s.sendCopy e c l b t.1 far) s
      let left := if shared then [b.served 0] else []
      let beats := left ++ rest
      let x := s.ctx e c
      if beats.isEmpty then s.setCtx e c (x.withOuts x.flow)
      else s.setCtx e c { x with latch := some { l with beats := beats, left := if shared then l.left else some s.cycles } }

/-- ROUTER_HOP (R98, R117). -/
def execRouterHop (s : State) : Out :=
  match s.inp with
  | some (.routerHop (.latch e c)) => .next ({ s with inp := none }.hopLatch e c)
  | some (.routerHop (.flight k)) => .next ({ s with inp := none }.hopFlit k)
  | _ => .next s

end Sys2Proof.Machine
end

