-- ==== Sys2Proof/Machine/Regions.lean ====
section
/-! DEFINITION. Launch packets (R56), the completion word (R59), residency reports (R62), and the end of a task: what leaves
with its region, and how it retires, is killed or re-enters the dispatcher (R59, R85, R325, R430, R434). -/
namespace Sys2Proof.Machine

/-! ### The launch packet (R56) -/

def Launch.le (l : Launch) (off n : Nat) : Nat := bytesAt l.bytes off n
def Launch.kind (l : Launch) : Nat := l.le 0 1
def Launch.restartable (l : Launch) : Bool := bit (l.le 1 1) 0
def Launch.irq (l : Launch) : Bool := bit (l.le 1 1) 1
def Launch.wantsReports (l : Launch) : Bool := bit (l.le 1 1) 2
def Launch.prioField (l : Launch) : Nat := field (l.le 2 1) 2 0
def Launch.argc (l : Launch) : Nat := l.le 3 1
def Launch.plane (l : Launch) : Nat := l.le 4 2
def Launch.entry (l : Launch) : Nat := l.le 6 1
def Launch.asid (l : Launch) : Nat := l.le 7 1
def Launch.nthr (l : Launch) : Nat := l.le 8 2
def Launch.ext (l : Launch) : Nat := l.le 10 1
def Launch.nsem (l : Launch) : Nat := l.le 11 1
def Launch.est (l : Launch) : Nat := l.le 12 4
def Launch.cookie (l : Launch) : Nat := l.le 16 8
def Launch.compl (l : Launch) : Nat := l.le 24 8
def Launch.semAddr (l : Launch) (i : Nat) : Nat := l.le (32 + 16 * i) 8
def Launch.semMin (l : Launch) (i : Nat) : Nat := l.le (40 + 16 * i) 8
/-- Argument word `i`: eight in the head entry, 32 in each continuation entry. -/
def Launch.arg (l : Launch) (i : Nat) : Nat :=
  if i < 8 then l.le (96 + 4 * i) 4 else l.le (128 + 4 * (i - 8)) 4
/-- Whether a launch came from a rack ring, whose accesses are at DOMAIN scope and which receives reports (R59, R62). -/
def Launch.rack (l : Launch) : Bool :=
  match l.src with
  | .ualink _ => true
  | .ethernet _ => true
  | _ => false

/-! ### Accesses of the package for an address space -/

/-- The place of a virtual address in an ASID, for an access that no element makes: a walk of its own (R167, R168).
DEDUCED (log entry 38). -/
def State.placeVa (s : State) (asid va size : Nat) (write : Bool) : Except Trap Place × State :=
  if 2 ^ 52 ≤ va then (.error (walkTrap ⟨trapPageFault, 0⟩ va), s) else
  match s.mem.walk asid va write with
  | (.error f, m) => (.error (walkTrap f va), s.setMem m)
  | (.ok w, m) =>
    let s := s.setMem m
    (s.placeOf (w.pa + va % w.size) size va, s)

/-- A walk of its own need not wait for a remap or an open row (R161, R163). -/
def State.walkFree (s : State) (asid va : Nat) : Bool := decide (2 ^ 52 ≤ va) || s.mem.walkOpen asid va
/-- Read bytes at a virtual address of an ASID for a reader (R33 to R37, R161, R163). DEDUCED (log entry 38). -/
def State.readVa (s : State) (who : Reader) (asid va n : Nat) : Rd × State :=
  if !s.walkFree asid va then (.waits, s) else
  match s.placeVa asid va n false with
  | (.error t, s) => (.fault t, s)
  | (.ok pl, s) => s.readPlace who asid pl n

/-- Neither a remap nor an open row is in the way of a write at a virtual address or of its walk (R161, R163), nor, for an element's write of a quarter, the
vector clocks (R180). -/
def State.mayWriteVa (s : State) (asid va n : Nat) (q : Option Nat := none) : Bool :=
  s.walkFree asid va &&
    match (s.placeVa asid va n true).1 with
    | .ok pl => pl.kind != .global || s.rowFree pl.addr && (q.map fun k => s.mayStampAt k pl.kind pl.addr).getD true
    | .error _ => true

/-- Write bytes at a virtual address of an ASID; a fault gives the trap, a cut-off peer drops the write (R36). `acc` names what waits for a peer's answer, `q` the quarter whose stamp an element's write takes (R180). DEDUCED (log entries 37, 38). -/
def State.writeVa (s : State) (asid va : Nat) (bs : List Byte) (pois : Bool) (acc : Option Nat := none) (q : Option Nat := none) :
    Option Trap × State :=
  match s.placeVa asid va bs.length true with
  | (.error t, s) => (some t, s)
  | (.ok pl, s) =>
    if pl.kind = .domain then
      if s.lnk.ownRing pl.addr then (none, s.badRing)
      else if s.lnk.cutOff pl.addr then (none, { s with lnk := s.lnk.logDrop false (peerOf pl.addr) asid pl.addr .write })
      else (none, s.sendReq .write pl.addr bs.length bs acc asid (marks := List.replicate ((bs.length + 15) / 16) pois))
    else
      let s := s.writeAt pl.kind pl.addr bs pois
      (none, match q with
        | some k => s.setMem (s.mem.stampWrite k pl.kind pl.addr bs.length)
        | none => s)

/-- Add to the 64-bit word at a virtual address, as one access (R59, R362). An MSI-X that waits for the addition is sent once it is visible, at
a peer with the completion of its request; where no addition takes place it is not sent. DEDUCED (log entry 37). -/
def State.addVa (s : State) (asid va v : Nat) (irq : Option Nat := none) : State :=
  match s.placeVa asid va 8 true with
  | (.error _, s) => s
  | (.ok pl, s) =>
    if pl.kind = .domain then
      if s.lnk.ownRing pl.addr then s.badRing
      else if s.lnk.cutOff pl.addr then { s with lnk := s.lnk.logDrop false (peerOf pl.addr) asid pl.addr (.atomic 0xA0) }
      else s.sendReq (.atomic 0xA0) pl.addr 8 (bytesOf 8 v) none asid (irq := irq)
    else
      let (bs, p, s) := s.readAt pl.kind pl.addr 8
      (s.writeAt pl.kind pl.addr (bytesOf 8 (Sys2Proof.ofBytes bs + v)) p).sendIrq irq

/-- The source that poison of two reads names: the lower code (R228). DEDUCED (log entry 96). -/
def joinSrc (a b : Option (BitVec 3)) : Option (BitVec 3) :=
  match a, b with
  | some x, some y => some (if y.toNat < x.toNat then y else x)
  | some x, none => some x
  | none, y => y
/-- One piece, of one aligned 16-byte part, that a held form reads as a plain load (R328, R353, R359). It leaves no older line of the region
L1 to a later load of the thread, and reads what a later load has bound of it (R173). -/
def State.loadPiece (s : State) (h : HeldOp) (va n : Nat) : Rd × State :=
  if !s.walkNow h.iss va false then (.waits, s) else
  match s.locateGlobal (s.memPort h.iss.elem) (s.issAsid h.iss) va 1 false with
  | (.error t, s) => (.fault t, s)
  | (.ok (pl, _), s) =>
    match s.readPlace (.form h.id) (s.issAsid h.iss) pl n with
    | (.ok bs a, s) =>
      let (bs, p) := patchSnap h.snap pl.kind pl.addr bs a.isSome
      let s := if pl.kind = .global then s.l1DropLine (s.issTid h.iss) (pl.addr / 64) else s
      (.ok bs (if p then a <|> some 4 else none), s.snapEarlier h.access pl.kind pl.addr bs p)
    | x => x
/-- The pieces of a held form's descriptor or packet. The thread's own earlier stores to them have performed, see `State.mayTake`. -/
def State.loadPieces (s : State) (h : HeldOp) : List (Nat × Nat) → Rd × State
  | [] => (.ok [] none, s)
  | (va, n) :: rest =>
    match s.loadPiece h va n with
    | (.fault t, s) => (.fault t, s)
    | (.waits, s) =>
      match State.loadPieces s h rest with
      | (.fault t, s) => (.fault t, s)
      | (_, s) => (.waits, s)
    | (.ok bs a, s) =>
      match State.loadPieces s h rest with
      | (.ok r b, s) => (.ok (bs ++ r) (joinSrc a b), s)
      | (x, s) => (x, s)
/-- The descriptor or packet of a held form. -/
def State.loadOwn (s : State) (h : HeldOp) (va n : Nat) : Rd × State := s.loadPieces h (cut16 va n (n / 16 + 2))

/-! ### Queue descriptors (R52) -/

def State.descAddr (s : State) (q : Nat) : Nat := s.que.qtab.toNat + 64 * q
/-- A field of a queue descriptor in the queue table. -/
def State.desc (s : State) (q off n : Nat) : Nat × State :=
  let (bs, _, s) := s.readAt .global (s.descAddr q + off) n
  (Sys2Proof.ofBytes bs, s)
def State.setDesc (s : State) (q off n v : Nat) : State := s.writeAt .global (s.descAddr q + off) (bytesOf n v) false
/-- Neither a remap nor an open row is in the way of a queue's descriptor (R161, R163). -/
def State.descReady (s : State) (q : Nat) : Bool := s.rowFree (s.descAddr q) && s.rowFree (s.descAddr q + 63)

/-! ### Completion and reports (R59, R62, R434) -/

def complOk : Nat := 1
def complBad : Nat := 0x8000000000000001

/-- The MSI-X vector of a launch with IRQ set, that of its queue (R56, R59). -/
def State.irqOf (s : State) (l : Launch) : Option Nat × State :=
  match l.src with
  | .slot _ q =>
    if l.irq then
      let (w, s) := s.desc q 8 4
      (some (field w 27 17), s)
    else (none, s)
  | _ => (none, s)
/-- Add the end value at COMPL unless that is 0, and send the MSI-X of a launch with IRQ set once the addition is visible (R56, R59, R434).
DEDUCED (log entry 37). -/
def State.complete59 (s : State) (l : Launch) (v : Nat) : State :=
  let (irq, s) := s.irqOf l
  if l.compl = 0 then s.sendIrq irq else s.addVa l.asid l.compl v irq

/-- Neither a remap nor an open row is in the way of what the end of a launch writes: its completion word, and its queue's descriptor (R161,
R163). -/
def State.launchReady (s : State) (l : Launch) : Bool :=
  (l.compl == 0 || s.mayWriteVa l.asid l.compl 8) &&
    match l.src with
    | .slot _ q => s.descReady q
    | _ => true

def evPlaced : Nat := 1
def evRetired : Nat := 2
def evCheckpointed : Nat := 3
def evKilled : Nat := 4
def evRejected : Nat := 5
def evDropped : Nat := 6

/-- Beds of a task's region, as package bed coordinates. -/
def Task.beds (t : Task) : List (Nat × Nat) := (List.range (t.wb * t.hb)).map fun i => (t.ox + i % t.wb, t.oy + i / t.wb)
/-- Addressable elements not in any region (R62). -/
def State.freeElems (s : State) : Nat :=
  ((List.range 256).filter fun i => s.tsk.tasks.all fun (_, t) =>
    !(decide (t.ox ≤ i % 16) && decide (i % 16 < t.ox + t.wb) && decide (t.oy ≤ i / 16) && decide (i / 16 < t.oy + t.hb))).length * 64

/-- The report's bytes (R62); a region as origin element, width and height in beds. -/
def State.reportBytes (s : State) (l : Launch) (event code : Nat) (region : Option (Nat × Nat × Nat)) : List Byte :=
  let index := match l.src with
    | .ualink i => i
    | .ethernet n => n
    | _ => 0
  let (o, w, h) := region.getD (0xFFFF, 0, 0)
  bytesOf 1 0x10 ++ bytesOf 1 event ++ bytesOf 1 code ++ bytesOf 1 s.lnk.self.toNat ++ bytesOf 2 index ++ bytesOf 1 l.prio ++ bytesOf 1 0
    ++ bytesOf 8 l.cookie ++ bytesOf 2 o ++ bytesOf 1 w ++ bytesOf 1 h ++ bytesOf 4 s.freeElems ++ bytesOf 4 s.us
    ++ bytesOf 2 s.tsk.tasks.length ++ bytesOf 2 0

/-- The report of a UALink launch: a write of its 32 bytes at the peer that QS_REPDST names, by the rules of any other request; to the
package itself it never uses a port (R32, R33, R36, R62). DEDUCED (log entry 78). -/
def State.reportTo (s : State) (a : Nat) (bs : List Byte) : State :=
  let n := s.que.repPeer.toNat
  let pa := domainBase + n * windowSize + a
  if n = s.lnk.self.toNat then s.writeAt .global a bs false
  else if !s.lnk.peerMap.getLsbD n then s
  else if s.lnk.cutOff pa then s.setLnk (s.lnk.logDrop false n 0 pa .write)
  else s.sendReq .write pa bs.length bs none 0
/-- Send a residency report to the rack scheduler where the launch receives it (R62). -/
def State.report (s : State) (l : Launch) (event code : Nat) (region : Option (Nat × Nat × Nat)) : State :=
  if !l.rack || !(l.wantsReports || event == evRejected || event == evDropped) then s else
  let bs := s.reportBytes l event code region
  match l.src with
  | .ualink i => s.reportTo (s.que.repAddr.toNat + 32 * i) bs
  | .ethernet n => s.emitOut (.report none n bs)
  | _ => s

def Task.region (t : Task) : Nat × Nat × Nat := (t.elem 0 0, t.wb, t.hb)

/-- Record an error code of a queue, in its descriptor and in the slot it is mapped to (R55, R434). -/
def State.queueErr (s : State) (q code : Nat) : State :=
  let s := s.setDesc q 24 1 code
  s.setQue { s.que with slots := s.que.slots.map fun (k, x) =>
      (k, if x.valid && x.qid.toNat == q then { x with err := true, code := BitVec.ofNat 8 code } else x) }

/-- A launch that has left its ring fails with a code (R434). DEDUCED (log entry 33). -/
def State.launchFails (s : State) (l : Launch) (code : Nat) : State :=
  let s := s.complete59 l complBad
  match l.src with
  | .slot _ q => s.queueErr q code
  | _ => s.report l evRejected code none

/-- The EXT that an argument count requires (R57). -/
def extFor (argc : Nat) : Nat := if argc ≤ 8 then 0 else if argc ≤ 40 then 1 else 2
/-- DEDUCED (log entry 33). -/
def badWord (a : Nat) : Bool := a % 8 != 0 || decide (2 ^ 52 ≤ a)

/-- The checks of R55 on a packet, in the order of their codes; `asid` is what BAD_ASID compares with, if it applies.
DEDUCED (log entry 33). -/
def State.checkLaunch (s : State) (l : Launch) (asid : Option Nat) : Option Nat :=
  if l.kind = 2 then none
  else if l.kind ≠ 1 then some 1
  else
    match s.plane? l.plane with
    | none => some 2
    | some pl =>
      if pl.nblk ≤ l.entry then some 2
      else if (asid.map fun a => a != l.asid).getD false then some 3
      else if 64 < l.argc ∨ l.ext ≠ extFor l.argc then some 4
      else if 4 < l.nsem then some 5
      else if badWord l.compl || (List.range l.nsem).any fun i => badWord (l.semAddr i) then some 6
      else if l.nthr = 0 ∨ 16384 < l.nthr ∨ pl.nthrMax < l.nthr then some 9
      else none

/-! ### Leaving a region (R69, R85, R325, R430) -/

/-- Whether a context of an element belongs to a task. -/
def State.owns (s : State) (tid e c : Nat) : Bool := (s.ctx e c).owner == some tid
/-- The activations of a task. -/
def State.actsOf (s : State) (tid : Nat) : List Nat := (s.tsk.acts.filter fun x => x.2.tid == tid).map (·.1)
def State.threadsOf (s : State) (tid : Nat) : List Nat := (s.tsk.threads.filter fun x => x.2.tid == tid).map (·.1)
/-- Whether an issue belongs to a task. -/
def State.issOf (s : State) (tid : Nat) (i : Issue) : Bool := ((s.act? i.f.aid).map (·.tid)) == some tid

/-- Whether an edge's producer is a node or stream port of a task. -/
def State.srcOf (s : State) (tid src : Nat) : Bool :=
  if src < 2 ^ 24 then decide (src < startSrc) && s.owns tid (src / 512) (src / 128 % 4) else (src - 2 ^ 24) / 1024 == tid

/-- Every token, entry, firing and held work of a task leaves the fabric. What stands in a context's registers stays until a plane is
dropped there (R69, R205, R416). -/
def State.purgeFabric (s : State) (tid : Nat) : State :=
  let acts := s.actsOf tid
  s.setFab { s.fab with
    nodes := s.fab.nodes.filter fun x => !acts.contains (x.1 / 1048576)
    latches := s.fab.latches.filter fun x => !s.owns tid (x.1 / 8) x.2.tok.ctx
    net := s.fab.net.filter fun f => !s.owns tid f.target f.tok.ctx
    chan := s.fab.chan.filter fun x => !s.owns tid x.1 x.2.ctx
    hist := s.fab.hist.map fun (e, hs) => (e, hs.filter fun h => !s.owns tid e h.tok.ctx)
    issued := s.fab.issued.map fun (e, xs) => (e, xs.filter fun x => !acts.contains x.2.aid)
    seqOut := s.fab.seqOut.filter fun x => !s.srcOf tid x.1
    seqIn := s.fab.seqIn.filter fun x => !s.srcOf tid x.1
    held := s.fab.held.filter fun h => !s.issOf tid h.iss
    frames := s.fab.frames.map fun (e, fs) => (e, fs.filter fun f => !acts.contains f.1)
    ctxs := s.fab.ctxs.map fun (k, x) =>
      (k, if x.owner = some tid then { CtxSt.new with fpStat := x.fpStat, gen := x.gen, lastSeed := x.lastSeed } else x) }

/-- Accesses, watches and cached lines of a task go; what has performed stands. -/
def State.purgeMemory (s : State) (tid : Nat) : State :=
  s.setMem { s.mem with
    acc := s.mem.acc.filter fun x => !s.issOf tid x.iss
    watches := s.mem.watches.filter fun w => !s.issOf tid w.iss
    l1 := s.mem.l1.filter fun x => x.1 / 2 ^ 44 != tid }

/-- A task holds a factorising context in a bed (R430). -/
def State.holdsBed (s : State) (tid b : Nat) : Bool :=
  let e := (bedElems b).headD 0
  (List.range 4).any fun c => s.owns tid e c && bit (s.modeWord e c) 3
/-- The members of a bed's negotiation group, or the bed alone (R143). -/
def bedMembers (x : FctBed) (b : Nat) : List Nat :=
  match x.group with
  | none => [b]
  | some (first, n) => (List.range n).map fun g => first + 8 * g
/-- The groups that have one of the beds `gone` as a member are dissolved (R143, R430). -/
def leaveGroups (beds : Tab FctBed) (gone : Nat → Bool) : Tab FctBed :=
  beds.map fun (b, x) => (b, if (bedMembers x b).any gone then { x with group := none, gidx := 0 } else x)
/-- Streams and copies of a task stop, its arrays and beds are left, its trees and rounds abandoned (R85, R388, R425, R430). -/
def State.purgeEngines (s : State) (tid : Nat) : State :=
  s.setEng { s.eng with
    bindings := s.eng.bindings.filter fun b => b.tid != tid
    faults := s.eng.faults.filter fun f => f.tid != tid
    fifo := s.eng.fifo.filter fun x => x.1 / 1024 != tid
    copies := s.eng.copies.filter fun c => c.tid != tid
    arrays := s.eng.arrays.filter fun x => x.1 / 4 != tid
    beds := leaveGroups (s.eng.beds.filter fun x => !s.holdsBed tid x.1) fun b => s.holdsBed tid b
    trees := s.eng.trees.filter fun x => x.1 / 64 != tid
    stash := s.eng.stash.filter fun x => x.tid != tid
    rounds := (s.eng.rounds.filter fun r => r.tid != tid).map fun r =>
      if s.eng.rounds.any fun x => x.tid == tid && x.status.isNone && x.g == r.g && x.round == r.round then { r with broken := true } else r
    nmQueue := s.eng.nmQueue.map fun (k, q) =>
      (k, q.map fun c => { c with tell := c.tell.bind fun i => if s.issOf tid i then none else some i }) }

/-- What a task's streams and rounds asked of peers, and forms that are held no longer, is not waited for. -/
def State.purgeStreams (s : State) (tid : Nat) : State :=
  s.setLnk { s.lnk with fetches := s.lnk.fetches.filter fun f =>
    match f.reader with
    | .form id => s.fab.held.any fun h => h.id == id
    | .stream bid _ => !(s.eng.bindings.any fun b => b.bid == bid && b.tid == tid)
    | .round rid => !(s.eng.rounds.any fun c => c.rid == rid && c.tid == tid)
    | _ => true }
/-- What a task's forms, streams and rounds asked of peers is no longer waited for. -/
def State.purgeFetches (s : State) (tid : Nat) : State :=
  let s := s.purgeStreams tid
  s.setLnk { s.lnk with fetches := s.lnk.fetches.filter fun f =>
    match f.reader with
    | .form id => !(s.fab.held.any fun h => h.id == id && s.issOf tid h.iss)
    | _ => true }
/-- A task leaves its region: everything it holds on the fabric is gone and its contexts and thread records are free. -/
def State.purge (s : State) (tid : Nat) : State :=
  let s := (((s.purgeFetches tid).purgeEngines tid).purgeMemory tid).purgeFabric tid
  let s := s.setSch { s.sch with passDue := true }
  s.setTsk { s.tsk with
    tasks := Tab.erase s.tsk.tasks tid
    threads := s.tsk.threads.filter fun x => x.2.tid != tid
    acts := s.tsk.acts.filter fun x => x.2.tid != tid
    lodgeQueue := s.tsk.lodgeQueue.filter fun r => r.tid != tid }

/-- Hold a launch in the dispatcher; `placeable` since now, or once its semaphores are read (R72, R85). -/
def State.hold (s : State) (l : Launch) (placeable : Bool) (image : Option Saved) : State :=
  let h : HeldLaunch := { lid := s.sch.nextLid, launch := l, placeable := if placeable then some s.units else none,
                          lastRead := s.units, dirty := !placeable, image := image, entered := (s.cycles, 0) }
  s.setSch { s.sch with held := s.sch.held ++ [h], nextLid := s.sch.nextLid + 1 }

/-- A launch goes behind those held, but before the children of the same task that later-numbered threads handed over in the same
cycle (R330). -/
def enterChild (h : HeldLaunch) : List HeldLaunch → List HeldLaunch
  | [] => [h]
  | x :: r =>
    if x.launch.src = h.launch.src ∧ x.entered.1 = h.entered.1 ∧ h.entered.2 < x.entered.2 then h :: x :: r else x :: enterChild h r
/-- Hold a child launch that the commit of a thread hands over (R328, R330). -/
def State.holdChild (s : State) (thread : Nat) (l : Launch) : State :=
  let h : HeldLaunch := { lid := s.sch.nextLid, launch := l, placeable := none, lastRead := s.units, dirty := true, image := none,
                          entered := (s.cycles, thread) }
  s.setSch { s.sch with held := enterChild h s.sch.held, nextLid := s.sch.nextLid + 1 }

/-! ### A failed arming (R259, R260) -/

/-- A failure: its code (R258), package element, node, WHICH and INDEX (R259). -/
structure ArmFail where
  code : Nat
  elem : Nat
  node : Nat
  which : Nat
  index : Nat
  deriving DecidableEq, Repr
/-- Record a failed arming in ARM_RPT; while VALID is set it only counts (R259). DEDUCED (log entry 61). -/
def State.armReport (s : State) (plane : Nat) (f : ArmFail) : State :=
  let e := s.err
  let e := { e with armCount := BitVec.ofNat 32 (satTo 32 (e.armCount.toNat + 1)) }
  s.setErr (if e.armValid then e else
    { e with armValid := true, armCode := BitVec.ofNat 6 f.code, armPlane := BitVec.ofNat 16 plane, armElem := BitVec.ofNat 14 f.elem,
             armNode := BitVec.ofNat 6 f.node, armWhich := BitVec.ofNat 2 f.which, armIndex := BitVec.ofNat 10 f.index })
/-- The plane leaves the Orangery after a failed arming; the cycle is kept, since another drop of the plane may fail in it (R260). -/
def State.removePlane (s : State) (num : Nat) : State :=
  (s.setQue { s.que with planes := Tab.erase s.que.planes num }).setErr { s.err with armAt := Tab.set s.err.armAt num s.cycles }

/-! ### Room for a plane (R77, R80, R152, R156) -/

/-- Bank role of an element of a plane's image (R96). -/
def Plane.roleCode (p : Plane) (i : Nat) : Nat := field (ofBytes ((p.images.drop (1024 * i + 0x380)).take 4)) 5 4
/-- A role area keeps its contents: the same role and extent in the incoming plane (R156). -/
def areaKept (old new : Plane) (i : Nat) : Bool := old.roleCode i == new.roleCode i && old.role i == new.role i

/-- Units of 64 bytes that role areas take in an element, but for one context's. DEDUCED (log entry 63). -/
def State.areaUnits (s : State) (e : Nat) (skip : Option Nat) : Nat :=
  ((List.range 4).map fun c => if skip = some c then 0 else s.extent e c / 64).sum
/-- First unit above every frame of an element. DEDUCED (log entry 63). -/
def State.frameEnd (s : State) (e : Nat) : Nat := (Tab.getD s.fab.frames e []).foldl (fun m f => max m (f.2.1 + f.2.2)) 0
/-- A role area of `kib` KiB has room in an element once the context `skip` is empty (R152). DEDUCED (log entry 63). -/
def State.roomFor (s : State) (e kib : Nat) (skip : Option Nat) : Bool := s.frameEnd e + s.areaUnits e skip + kib * 16 ≤ 1024

/-- A resident plane of a task with no activation in its context. -/
def State.idle (s : State) (tid : Nat) (r : Resident) : Bool := s.tsk.acts.all fun x => x.2.tid != tid || x.2.ctx != r.ctx
/-- Every element of a task's region can hold a plane in a context, one resident plane apart (R80). -/
def State.fitsIn (s : State) (t : Task) (pl : Plane) (skip : Option Nat) : Bool :=
  t.elems.zipIdx.all fun (e, i) => s.roomFor e (pl.role i) skip
/-- No held launch has a context of a task's region reserved for it (R85). -/
def State.unreserved (s : State) (t : Task) (c : Nat) : Bool :=
  s.sch.reserved.all fun r => !r.ctxs.contains c || !(s.sch.held.any fun h => h.lid == r.lid)
    || decide (r.ox + r.wb ≤ t.ox) || decide (t.ox + t.wb ≤ r.ox) || decide (r.oy + r.hb ≤ t.oy) || decide (t.oy + t.hb ≤ r.oy)
/-- The context that a plane of a task drops into, and the plane that leaves it: a context free in every element and reserved for no launch,
or that of the least recently branched-to plane that is idle (R80, R85). Of several free contexts it takes the lowest: R80 leaves the choice
open, a DESIGN CHOICE (log entry 62). -/
def State.dropSite (s : State) (tid : Nat) (t : Task) (pl : Plane) : Option (Nat × Option Resident) :=
  match (List.range 4).find? fun c => (t.elems.all fun e => (s.ctx e c).owner.isNone) && s.unreserved t c && s.fitsIn t pl none with
  | some c => some (c, none)
  | none =>
    let can := t.planes.filter fun r => s.idle tid r && s.fitsIn t pl (some r.ctx)
    match can with
    | [] => none
    | r :: rest =>
      let r := rest.foldl (fun a b => if b.used < a.used then b else a) r
      some (r.ctx, some r)

/-- Elements whose addressed-buffer area the drop would replace. -/
def Task.replaced (t : Task) (pl : Plane) (r : Resident) : List Nat :=
  t.elems.zipIdx.filterMap fun (e, i) => if r.table.roleCode i = 0 ∧ 0 < r.table.role i ∧ !areaKept r.table pl i then some e else none
/-- A copy has its source or destination in a buffer area of an element's context (R156). -/
def Copy.inBuffer (c : Copy) (tid ctx : Nat) (t : Task) (e : Nat) : Bool :=
  let at_ := fun (space addr : Nat) => space == 1 && t.elem (field addr 22 16) (field addr 29 23) == e
  c.tid == tid && c.ctx == ctx && (at_ c.sspace c.src || at_ c.dspace c.dst)
/-- Elements in which the drop of a thread's next plane waits for copies (R156). -/
def State.dropWaits (s : State) (thread : Nat) : List Nat :=
  match s.thread? thread with
  | none => []
  | some th =>
    match th.next, s.task? th.tid with
    | some (plane, _), some t =>
      if t.planes.any fun r => r.plane == plane then [] else
      match (s.plane? plane).bind fun pl => (s.dropSite th.tid t pl).map fun x => (pl, x) with
      | some (pl, (c, some r)) => (t.replaced pl r).filter fun e => s.eng.copies.any fun k => k.inBuffer th.tid c t e
      | _ => []
    | _, _ => []
/-- A drop waits in an element: no new frame is allocated there (R156). -/
def State.noFrames (s : State) (e : Nat) : Bool := s.tsk.threads.any fun x => (s.dropWaits x.1).contains e

end Sys2Proof.Machine
end

