-- ==== Sys2Proof/Machine/Acts.lean ====
section
/-! DEFINITION. Activations: iteration tags and frames (R81, R109, R150), start (R252), discard and the taking of a trap
(R211 to R214), ERET (R216), groups and barriers (R82, R326), commit (R320 to R330). -/
namespace Sys2Proof.Machine

/-! ### Tags and frames (R81, R150) -/

/-- Something of an activation is still under way in the region: a token, a firing, a result to come (R81). -/
def State.actBusy (s : State) (aid : Nat) (a : Act) : Bool :=
  let tok := fun (e : Nat) (t : Token) => t.iter == a.iter && t.ctx == a.ctx && s.owns a.tid e t.ctx
  let iss := fun (i : Issue) => i.f.aid == aid
  (s.fab.latches.any fun x => decide (x.1 % 8 < 5) && tok (x.1 / 8) x.2.tok)
    || (s.fab.net.any fun f => tok f.target f.tok)
    || (s.fab.chan.any fun x => tok x.1 x.2)
    || (s.fab.ctxs.any fun x => (x.2.ready ++ x.2.waiting).any (fun f => f.aid == aid) || x.2.outs.any (fun l => l.aid == aid))
    || (s.mem.acc.any fun x => iss x.iss) || (s.mem.watches.any fun w => iss w.iss) || (s.fab.held.any fun h => iss h.iss)
    || (s.mem.rowCmds.any fun c => iss c.iss)
    || (s.eng.bindings.any fun b => b.aid == aid)
    || (s.eng.copies.any fun c => (c.tell.map iss).getD false)
    || (s.eng.nmQueue.any fun q => q.2.any fun c => (c.tell.map iss).getD false)
    || (s.eng.rounds.any fun r => r.waiters.any fun h => iss h.iss)
    || (s.eng.arrays.any fun x => (x.2.loads.any fun l => iss l.tell) || (x.2.assigns.any fun l => iss l.tell) || (x.2.drain.map fun d => d.aid == aid && d.next.any fun n => decide (n < d.rows)).getD false)
    || (s.eng.beds.any fun x => (x.2.step.map fun y => iss y.2).getD false || (x.2.joining.map fun y => iss y.2.2).getD false)
    || (s.eng.trees.any fun x => (x.2.waits.any fun w => iss w.iss) || x.2.nodes.any fun n => (n.2.inputs ++ n.2.sent).any fun p => (p.iss.map iss).getD false)

/-- Log the positions of a voter that still await copies when its frame is freed (R232). -/
def State.logMissing (s : State) (aid : Nat) : State :=
  (s.fab.nodes.filter fun x => x.1 / 1048576 == aid).foldl (fun s (k, st) =>
    st.votes.foldl (fun s v =>
      ((List.range 3).filter fun p => v.copies.all fun c => c.1 != p).foldl (fun s p =>
        s.logVote aid (k / 64 % 16384) (k % 64) (v.pos, p, 5)) s) s) s

/-- Free the frame, the entries and the tag of an activation (R81, R102). -/
def State.freeAct (s : State) (aid : Nat) : State :=
  let s := s.logMissing aid
  let s := s.setFab { s.fab with
    nodes := s.fab.nodes.filter fun x => x.1 / 1048576 != aid
    frames := s.fab.frames.map fun (e, fs) => (e, fs.filter fun f => f.1 != aid) }
  s.setTsk { s.tsk with acts := Tab.erase s.tsk.acts aid }

/-- Return the tags and frames of the activations of a task that have committed or been discarded and whose last token has
left (R81). -/
def State.reap (s : State) (tid : Nat) : State :=
  (s.actsOf tid).foldl (fun s aid =>
    match s.act? aid with
    | some a => if (a.committed || a.dead) && !s.actBusy aid a then s.freeAct aid else s
    | none => s) s

/-- Tags of a region and context in use: those of its activations and those kept for a trapped one (R81, R216). -/
def State.tagsUsed (s : State) (tid c : Nat) : List Nat :=
  (s.tsk.acts.filterMap fun (_, a) => if a.tid = tid ∧ a.ctx = c then some a.iter else none)
    ++ s.tsk.threads.flatMap fun (_, t) =>
      if t.tid = tid then [t.kept, t.lodgeKept, t.useKept].filterMap fun k => k.bind fun k => if k.ctx = c then some k.iter else none
      else []
/-- The lowest-numbered free tag of 4,096 (R81). -/
def State.freeTag (s : State) (tid c : Nat) : Option Nat :=
  let used := s.tagsUsed tid c
  ((List.range (used.length + 1)).find? fun i => !used.contains i).bind fun i => if i < 4096 then some i else none

/-- Ports of a node fed by an MDRAIN of the same block: each may hold the tokens of a whole drain (R133). -/
def State.drainFed (s : State) (t : Task) (c : Nat) (ns : List Nat) (e n : Nat) : Nat :=
  (ns.flatMap fun x =>
    let e' := t.elem (neX x) (neY x)
    match s.recAt e' c (neNode x) with
    | some (0xD2, r) => [r.dst0, r.dst1].filterMap fun d =>
        (s.destElem e' c d).bind fun (f, m, _) => if f = e ∧ m = n then some () else none
    | _ => []).length

/-- Size in 64-byte units of a block's frame in an element (R109, R150); the partials' port of a REDPUT is a token port too (R380). -/
def State.frameUnits (s : State) (t : Task) (c : Nat) (ns : List Nat) (e : Nat) : Nat :=
  let bytes := ns.foldl (fun b x =>
    if t.elem (neX x) (neY x) ≠ e then b else
    match s.recAt e c (neNode x) with
    | none => b
    | some (opc, r) =>
      let cfg := s.matchCfg t e c (neNode x) opc r
      let entries := (cfg.used.map cfg.depth).sum
      let holds := (cfg.used.filter fun k => k != 2 && cfg.gap k != .refuse).length
      let entries := if opc = 0xE6 then entries + cfg.depth 1 else entries
      b + 80 * entries + 64 * holds + 80 * 16 * s.drainFed t c ns e (neNode x)) 64
  (bytes + 63) / 64

/-- First unit where `n` units fit between the frames of an element, below the role areas (R150). DEDUCED (log entry 63). -/
def fitFrame (n top : Nat) : Nat → List (Nat × Nat × Nat) → Option Nat
  | at_, [] => if at_ + n ≤ top then some at_ else none
  | at_, (_, o, k) :: r => if at_ + n ≤ o then some at_ else fitFrame n top (o + k) r
/-- Units of an element's bank that no role area occupies (R152). -/
def State.frameTop (s : State) (e : Nat) : Nat := 1024 - ((List.range 4).map fun c => s.extent e c / 64).sum

def insertFrame (f : Nat × Nat × Nat) (fs : List (Nat × Nat × Nat)) : List (Nat × Nat × Nat) :=
  insertBy (fun x y => decide (x.2.1 ≤ y.2.1)) f fs

/-- Allocate an activation's frames, one in each element that holds nodes of its block; none where a bank has no room.
DEDUCED (log entry 63). -/
def State.allocFrames (s : State) (t : Task) (c aid : Nat) (ns : List Nat) : Option State :=
  let es := (ns.map fun x => t.elem (neX x) (neY x)).eraseDups
  es.foldl (fun r e => r.bind fun (s : State) =>
    if s.noFrames e then none else
    let fs := Tab.getD s.fab.frames e []
    let n := s.frameUnits t c ns e
    (fitFrame n (s.frameTop e) 0 fs).map fun o =>
      s.setFab { s.fab with frames := Tab.set s.fab.frames e (insertFrame (aid, o, n) fs) }) (some s)

/-! ### Discard, and the end of a task (R59, R85, R172, R190, R211, R325, R393) -/

def Group.empty : Group := { members := [], late := [], arrived := [], leaving := [], gen := 0 }
def Task.group (t : Task) (g : Nat) : Group := Tab.getD t.groups g .empty
def Task.setGroup (t : Task) (g : Nat) (x : Group) : Task := { t with groups := Tab.set t.groups g x }

/-- Withdraw the arrivals of a discarded activation's GBARs, return what its SPAWNs reserved (R326, R330). -/
def State.undoEffects (s : State) (aid : Nat) (a : Act) : State :=
  let s := (s.fab.held.filter fun h => h.iss.f.aid == aid).foldl (fun s h =>
    match h.instr with
    | .gbar r => s.updTask a.tid fun t =>
        let x := t.group (r.l % 256)
        t.setGroup (r.l % 256) { x with arrived := x.arrived.filter fun y => y.2 != h.id }
    | _ => s) s
  a.effects.foldl (fun s e =>
    match e with
    | .spawn n _ _ _ => s.updTask a.tid fun t => { t with reserve := t.reserve ++ [n] }
    | _ => s) s

/-- Discard an activation: its firings, held stores and forms, watches and bindings go; what has performed stands (R211). -/
def State.discardAct (s : State) (aid : Nat) : State :=
  match s.act? aid with
  | none => s
  | some a =>
    let s := s.undoEffects aid a
    let mine := fun (i : Issue) => i.f.aid == aid
    let s := s.setFab { s.fab with
      held := s.fab.held.filter fun h => !mine h.iss || h.done.isSome
      ctxs := s.fab.ctxs.map fun (k, x) => (k,
        (({ x with ready := x.ready.filter fun f => f.aid != aid, waiting := x.waiting.filter fun f => f.aid != aid } : CtxSt).dropOuts
          fun l => l.aid == aid).fill) }
    let s := s.setMem { s.mem with
      acc := s.mem.acc.filter fun x => !mine x.iss
      watches := s.mem.watches.filter fun w => !mine w.iss }
    let s := s.setEng { s.eng with
      bindings := s.eng.bindings.filter fun b => b.aid != aid
      fifo := s.eng.fifo.map fun (k, q) => (k, q.filter fun x => !(s.eng.bindings.any fun b => b.aid == aid && b.bid == x.2.2))
      trees := s.eng.trees.map fun (k, t) => (k, { t with waits := t.waits.filter fun w => !mine w.iss }.giveBack aid)
      rounds := s.eng.rounds.map fun r => { r with waiters := r.waiters.filter fun h => !mine h.iss }
      beds := s.eng.beds.map fun (k, b) => (k,
        { b with joining := b.joining.bind fun x => if mine x.2.2 then none else some x }) }
    (s.setAct aid { a with dead := true, trap := none, effects := [] }).openBindings

/-- A form that has issued and acts on more than the region that its task leaves: memory nodes, and the forms of the engines beside the
arrays, beds, trees, streams and copies (R393). DEDUCED (log entry 97). -/
def HeldOp.outlives (h : HeldOp) : Bool :=
  match h.instr with
  | .nmred _ | .rowput _ | .qput _ | .qputNb _ | .argw _ | .launch _ | .tapset _ => true
  | _ => h.isMem && !h.isPref
/-- Requests by which the copies and streams of a task have written at peers and that are not answered yet (R190). -/
def State.engineWrites (s : State) (tid : Nat) : List Nat :=
  (s.lnk.reqs.filter fun q =>
    (match q.kind with
     | .write => (q.acc.map fun k => s.eng.bindings.any fun b => b.bid == k && b.tid == tid).getD false
     | .copyWrite => (q.acc.map fun k => s.eng.copies.any fun c => c.cid == k && c.tid == tid).getD false
     | _ => false)).map (·.id)
/-- What a task that ends loses at once: the activations that have not committed, its threads, its streams, copies and rounds, and
the forms that wait on the engines of its region (R85, R393). What has committed stands: its other forms perform, and the writes that its
copies and streams have sent are waited for (R190). DEDUCED (log entry 97). -/
def State.quiesce (s : State) (tid : Nat) : State :=
  let s := (s.actsOf tid).foldl (fun s aid =>
    match s.act? aid with
    | some a => if a.committed then s else s.discardAct aid
    | none => s) s
  let s := s.updTask tid fun t => { t with owed := t.owed ++ s.engineWrites tid }
  let s := s.setFab { s.fab with held := s.fab.held.filter fun h => !s.issOf tid h.iss || h.outlives }
  let s := (s.purgeStreams tid).purgeEngines tid
  s.setTsk { s.tsk with threads := s.tsk.threads.filter fun x => x.2.tid != tid, lodgeQueue := s.tsk.lodgeQueue.filter fun r => r.tid != tid }
/-- Stores, atomics and forms of committed activations of a task have not performed yet, a peer's answer to a write of its activations, copies
or streams is out, or the completion word cannot be written yet (R161, R163, R172, R190). -/
def State.owesWrites (s : State) (tid : Nat) (t : Task) : Bool :=
  (s.mem.acc.any fun x => x.write && x.todo != 0 && s.issOf tid x.iss) || (s.mem.rowCmds.any fun c => s.issOf tid c.iss)
    || (s.fab.held.any fun h => s.issOf tid h.iss && h.outlives) || (s.lnk.reqs.any fun q => t.owed.contains q.id)
    || !s.launchReady t.launch

/-- A task has ended: `v` is added at COMPL, or with `v` = 0 the launch re-enters the dispatcher with age 0; the report is sent and the
region is free (R59, R62, R85, R325). Whether FREE and RUNNING of a RETIRED or KILLED report still count the ending task R62 does not
say: they do, a DESIGN CHOICE (log entry 97). -/
def State.finishTask (s : State) (tid : Nat) (t : Task) (v event : Nat) : State :=
  let s := (s.actsOf tid).foldl State.logMissing s
  if v = 0 then ((s.report t.launch event 0 (some t.region)).purge tid).hold t.launch true none
  else ((s.complete59 t.launch v).report t.launch event 0 (some t.region)).purge tid

/-- A task ends for a value and a report: once what it has committed is performed (R59, R172, R187, R190, R215, R325, R393). -/
def State.endTask (s : State) (tid v event : Nat) : State :=
  match s.task? tid with
  | none => s
  | some t =>
    if t.halting then s else
    let s := s.quiesce tid
    if s.owesWrites tid ((s.task? tid).getD t) then s.updTask tid fun t => { t with phase := .halting v event } else s.finishTask tid t v event

/-- KILL: the region is freed; a restartable victim re-enters the dispatcher with age 0, any other ends with the second value at COMPL
(R85). -/
def State.killTask (s : State) (tid : Nat) : State :=
  match s.task? tid with
  | none => s
  | some t => s.endTask tid (if t.launch.restartable then 0 else complBad) evKilled

/-! ### Start (R252, R321, R327) -/

def startToken (iter c n : Nat) (p : PortName) : Token :=
  { lo := 0, hi := infTick, pay := .scalar 0, front := false, iter := iter, ctx := c, node := n, port := p, seq := 0, src := startSrc }

/-- The start tokens of a block (R252): target element and token. -/
def startTokens (t : Task) (pl : Plane) (k iter c : Nat) : List (Nat × Token) :=
  (pl.blockNodes k).filterMap fun x =>
    if neEntry x then (nePort x).map fun p => (t.elem (neX x) (neY x), startToken iter c (neNode x) p) else none

/-- Put tokens on the way to elements they start in. -/
def State.injectAt (s : State) (xs : List (Nat × Token)) : State :=
  s.setFab { s.fab with net := s.fab.net ++ xs.map fun (e, t) => { tok := t, at_ := e, dir := 0, target := e, moved := s.cycles } }

/-- The return stack that a new activation of a thread sees: the latest activation's, or the committed one (R322). -/
def State.stackFor (s : State) (t : Thread) : List (BitVec 24) :=
  match t.acts.getLast? with
  | some x => ((s.act? x).map (·.retStack)).getD t.retStack
  | none => t.retStack

def isCutting (t : Task) : Bool :=
  match t.phase with
  | .cutting _ => true
  | _ => false
/-- The task may start activations: no cut is in progress (R86), and it has not ended (R393). -/
def Task.starts (t : Task) : Bool := !isCutting t && !t.halting

/-- Count a branch to a resident plane (R80). The rule lists branch, call, return, spawn and ERET; the model counts every start of an
activation, that of a trap handler's included. DEDUCED; DESIGN CHOICE (log entry 35). -/
def Task.branched (t : Task) (c : Nat) : Task :=
  { t with useClock := t.useClock + 1, planes := t.planes.map fun r => if r.ctx = c then { r with used := t.useClock + 1 } else r }

/-- Start the thread's next activation in a resident plane, with the tag and records it takes over, if any (R81, R216). -/
def State.startIn (s : State) (thread : Nat) (th : Thread) (t : Task) (pl : Plane) (c plane block : Nat) : State :=
  let k := th.useKept
  let tag := match k with
    | some k => if k.ctx = c ∧ !(s.tsk.acts.any fun x => x.2.tid == th.tid && x.2.ctx == c && x.2.iter == k.iter) then some k.iter else
        if k.ctx = c then none else s.freeTag th.tid c
    | none => s.freeTag th.tid c
  match tag with
  | none => s
  | some iter =>
    let aid := s.tsk.nextAid
    match s.allocFrames t c aid (pl.blockNodes block) with
    | none => s
    | some s =>
      let kept := ((k.map (·.tokens)).getD []).map fun x => { x with iter := iter, ctx := c }
      let a : Act := { thread := thread, tid := th.tid, ctx := c, plane := plane, block := block, iter := iter, committed := false,
                       dead := false, fired := [], carry := [], base := [], branch := none, retStack := s.stackFor th, trap := none,
                       effects := [], performed := (k.map (·.performed)).getD [], kept := kept, handler := th.inh }
      let s := s.setTsk { s.tsk with nextAid := aid + 1, acts := Tab.set s.tsk.acts aid a }
      let s := s.setThread thread { th with next := none, started := true, acts := th.acts ++ [aid], useKept := none }
      let s := s.updTask th.tid fun t => t.branched c
      s.injectAt (startTokens t pl block iter c ++ kept.map fun x => (x.src - startSrc, { x with src := startSrc }))

/-- A branch to a plane that is not installed, or past its last block, is an arming failure of that plane, recorded with code 9: the plane
is removed and the task ends (R254, R259, R260). DEDUCED (log entry 35). -/
def State.badBranch (s : State) (tid plane block : Nat) : State :=
  let at_ := ((s.task? tid).map fun t => t.elem 0 0).getD 0
  ((s.armReport plane { code := 9, elem := at_, node := 0, which := 0, index := block }).removePlane plane).endTask tid complBad evKilled

/-- ACTIVATION_START (R81, R252, R321): the thread's next block, once its plane is resident and a tag and frames are free. A resident plane
is known by the table of its context (R255). DEDUCED (log entry 35). -/
def State.startAct (s : State) (thread : Nat) : State :=
  match s.thread? thread with
  | none => s
  | some th0 =>
    let s := s.reap th0.tid
    match s.thread? thread, s.task? th0.tid with
    | some th, some t =>
      match th.next with
      | none => s
      | some (plane, block) =>
        if !t.starts || th.trapped.isSome || th.yieldUntil.isSome || decide (8 ≤ th.acts.length) then s else
        match t.planes.find? fun r => r.plane == plane with
        | some r =>
          if r.table.nblk ≤ block then s.badBranch th.tid plane block
          else if (s.ctx (t.elem 0 0) r.ctx).armed then s.startIn thread th t r.table r.ctx plane block else s
        | none =>
          match s.plane? plane with
          | none => s.badBranch th.tid plane block
          | some pl => if pl.nblk ≤ block then s.badBranch th.tid plane block else s
    | _, _ => s

/-- ACTIVATION_START. -/
def execActivationStart (s : State) : Out :=
  match s.inp with
  | some (.activationStart thread) => .next ({ s with inp := none }.startAct thread)
  | _ => .next s

/-! ### Groups and barriers (R82, R326) -/

/-- The waiting GBAR firings of a group. -/
def State.gbars (s : State) (tid g : Nat) : List HeldOp :=
  s.fab.held.filter fun h =>
    match h.instr with
    | .gbar r => r.l % 256 == g && s.issOf tid h.iss
    | _ => false

/-- The activation may perform what waits until it is the oldest (R172). DEDUCED (log entry 41). -/
def State.mayAct (s : State) (aid : Nat) : Bool := s.isOldest aid || ((s.act? aid).map (·.committed)).getD false

/-- A thread counts as a member for its own GBARs and JOINs: its LEAVE has not committed (R82, R326). -/
def Group.has (x : Group) (n : Nat) : Bool := x.members.contains n && !x.leaving.contains n
/-- A thread's arrival is counted. -/
def Group.came (x : Group) (n : Nat) : Bool := x.arrived.any fun y => y.1 == n
/-- The group once the generation has completed: who joined meanwhile counts, who left does not (R82). -/
def Group.next (x : Group) : Group :=
  { members := (x.members.filter fun n => !x.leaving.contains n) ++ x.late, late := [], arrived := [], leaving := [], gen := x.gen + 1 }
/-- The group once the LEAVEs of a cycle count: a member that has not arrived is none any more; one that has stays until the generation
completes, since its arrival stands (R82, R326, R330). DEDUCED (log entry 31). -/
def Group.leave (x : Group) : Group :=
  { x with members := x.members.filter fun n => !x.leaving.contains n || x.came n, leaving := x.leaving.filter x.came }

/-- A GBAR of an activation that is the oldest arrives: a member is counted, once for each generation; any other fires the current generation
at once (R326). DEDUCED (log entry 31). -/
def State.countArrival (s : State) (h : HeldOp) : State :=
  match s.act? h.iss.f.aid with
  | none => s
  | some a =>
    match s.task? a.tid with
    | none => s
    | some t =>
      let g := (Instr.record h.instr).l % 256
      let x := t.group g
      if !s.mayAct h.iss.f.aid then s
      else if x.has a.thread then
        if x.came a.thread then s else s.setTask a.tid (t.setGroup g { x with arrived := x.arrived ++ [(a.thread, h.id)] })
      else (s.dropHeld h.id).reply h.iss (Instr.record h.instr) (.scalar x.gen.toNat)

/-- Complete the generation of a group when arrivals equal members: every arrived GBAR fires its number; then those that waited for the
next generation arrive (R82, R326). DEDUCED (log entry 31). -/
def State.barriers (tid g : Nat) : Nat → State → State
  | 0, s => s
  | k + 1, s =>
    match s.task? tid with
    | none => s
    | some t =>
      let x := t.group g
      if x.arrived.isEmpty || decide (x.arrived.length ≠ x.members.length) then s else
      let s := s.setTask tid (t.setGroup g x.next)
      let s := (s.gbars tid g).foldl (fun s h =>
        if x.arrived.any fun y => y.2 == h.id then (s.dropHeld h.id).reply h.iss (Instr.record h.instr) (.scalar x.gen.toNat) else s) s
      State.barriers tid g k ((s.gbars tid g).foldl State.countArrival s)
def State.barrier (s : State) (tid g : Nat) : State := State.barriers tid g ((s.gbars tid g).length + 1) s

/-- A GBAR arrives, and the barrier may complete (R82, R326). -/
def State.arrive (s : State) (h : HeldOp) (r : NodeRec) : State :=
  (s.countArrival h).barrier (((s.act? h.iss.f.aid).map (·.tid)).getD 0) (r.l % 256)

/-- JOIN takes effect: at once, or from the next generation while the barrier is partly arrived (R82). DEDUCED (log entry 31). -/
def State.joinGroup (s : State) (tid thread g : Nat) : State :=
  s.updTask tid fun t =>
    let x := t.group g
    if x.has thread || x.late.contains thread then t
    else if x.came thread then t.setGroup g { x with late := x.late ++ [thread] }
    else
      let x := { x with members := x.members.filter fun n => n != thread, leaving := x.leaving.filter fun n => n != thread }
      if x.arrived.isEmpty then t.setGroup g { x with members := x.members ++ [thread] }
      else t.setGroup g { x with late := x.late ++ [thread] }
/-- LEAVE takes effect on what its thread does next; the membership count falls once the arrivals of its cycle are counted (R82, R326,
R330). -/
def State.leaveGroup (s : State) (tid thread g : Nat) : State :=
  s.updTask tid fun t =>
    let x := t.group g
    let x := { x with late := x.late.filter fun y => y != thread }
    t.setGroup g (if x.has thread then { x with leaving := x.leaving ++ [thread] } else x)
/-- The LEAVEs that committed in a cycle count, after its arrivals, and barriers may complete (R82, R330). -/
def State.leavesEnd (s : State) : State :=
  s.tsk.tasks.foldl (fun s (tid, t) =>
    (t.groups.filter fun x => !x.2.leaving.isEmpty).foldl (fun s (g, _) =>
      (s.updTask tid fun t => t.setGroup g (t.group g).leave).barrier tid g) s) s

/-! ### The taking of a trap (R211 to R216) -/

/-- The record as TRAP_REC0 to TRAP_REC11 hold it (R217). -/
def TrapRec.words (r : TrapRec) : Tab W64 :=
  let w0 := r.code + 2 ^ 8 * r.asid + 2 ^ 16 * r.thread + 2 ^ 30 * r.ctx + 2 ^ 32 * r.iter + 2 ^ 44 * r.node + 2 ^ 50 * r.port + 2 ^ 52 * r.lsid
  let w1 := r.plane + 2 ^ 16 * r.block + 2 ^ 24 * r.elem
  [(0, BitVec.ofNat 64 w0), (1, BitVec.ofNat 64 w1), (2, r.addr), (3, r.info)]
    ++ (List.range 8).map fun k =>
      (4 + k, BitVec.ofNat 64 ((r.path.getD (2 * k) 0).toNat + 2 ^ 32 * (r.path.getD (2 * k + 1) 0).toNat))

/-- The handler block of a task, as plane and block (R217, R254). -/
def blockOf (x : Nat) : Nat × Nat := (field x 15 0, field x 23 16)
/-- A trap with code `c` goes to the task's handler (R214). -/
def Task.delegates (t : Task) (th : Thread) (c : Nat) : Bool := t.handler.getLsbD 24 && t.deleg.getLsbD c && !th.inh

/-- Deliver a trap to the handler: the record is written, INH set, and the handler block is started next (R214).
DEDUCED (log entry 34). -/
def Thread.deliver (th : Thread) (t : Task) (r : TrapRec) (k : Option Kept) : Thread :=
  { th with recs := r.words, inh := true, next := some (blockOf t.handler.toNat), lodge := false, trapped := none, kept := k,
            lodgeKept := none, useKept := none }

/-- The trap that a thread has taken goes to the task's handler, or to the Lodge (R214, R215). -/
def State.deliverTrap (s : State) (thread : Nat) : State :=
  match s.thread? thread with
  | none => s
  | some th =>
    match th.trapped, s.task? th.tid with
    | some r, some t =>
      if th.lodge then s
      else if t.delegates th r.code then s.setThread thread (th.deliver t r th.lodgeKept)
      else
        let s := s.setThread thread { th with lodge := true }
        s.setTsk { s.tsk with lodgeQueue := s.tsk.lodgeQueue ++ [r] }
    | _, _ => s

/-- TAKING A TRAP (R211 to R216): the trapped activation and every later one of the thread are discarded, their held traps counted;
its tag, record of performed LSIDs and drain tokens are kept; the record is delivered, in a checkpoint only after resumption (R213). -/
def State.takeTrap (s : State) (thread : Nat) (th : Thread) (aid : Nat) (a : Act) (r : TrapRec) : State :=
  let lost := (th.acts.filter fun x => x != aid && ((s.act? x).bind (·.trap)).isSome).length
  let s := (th.acts.foldl State.discardAct s).trapLost lost
  let k : Kept := { iter := a.iter, ctx := a.ctx, plane := a.plane, block := a.block, performed := a.performed, tokens := a.kept }
  match s.thread? thread, s.task? a.tid with
  | some th, some t =>
    let s := s.setThread thread { th with acts := [], next := none, yieldUntil := none, trapped := some r, lodgeKept := some k }
    if isCutting t then s else s.deliverTrap thread
  | _, _ => s

/-- A store or atomic has performed in part: it was sent to a peer that has not answered, or some of its parts are written (R191). -/
def Access.partly (x : Access) : Bool := x.write && x.todo != 0 && (x.sent || x.todo != 2 ^ x.parts.length - 1)
/-- TRAP_TAKE: a trap is taken once its activation is the oldest in its thread (R212), its stores and atomics that have performed in part are
whole and its row commands have come to their edge, so that the record of R191 is whole, and not while its node has recorded its marker
(R213). DEDUCED (log entry 34). -/
def State.trapTake (s : State) (thread : Nat) : State :=
  match s.thread? thread with
  | none => s
  | some th =>
    match th.acts with
    | [] => s
    | aid :: _ =>
      match s.act? aid with
      | none => s
      | some a =>
        match a.trap with
        | none => s
        | some r =>
          if (s.mem.acc.any fun x => x.iss.f.aid == aid && x.partly)
              || (s.mem.rowCmds.any fun c => c.iss.f.aid == aid && c.doneAt.isNone) then s else
          match s.cutOf a.tid with
          | some k => if k.frozen.contains (ctxKey r.elem a.ctx * 64 + r.node) then s else s.takeTrap thread th aid a r
          | none => s.takeTrap thread th aid a r

/-- TRAP_TAKE. -/
def execTrapTake (s : State) : Out :=
  match s.inp with
  | some (.trapTake thread) => .next ({ s with inp := none }.trapTake thread)
  | _ => .next s

/-- RETURN FROM A TRAP (R216): the thread goes on at the trapped block, with its kept tag and record, or at the block that
TRAP_RESUME names, with a fresh tag; INH and TRAP_RESUME.EN are cleared. -/
def Thread.eret (th : Thread) : Thread :=
  let th := { th with inh := false, kept := none }
  if th.resume.getLsbD 24 then
    { th with next := some (blockOf th.resume.toNat), useKept := none, resume := th.resume &&& 0xFFFFFF }
  else th
/-- ERET of a thread; `k` is what was kept of the trapped activation. -/
def Thread.doEret (th : Thread) : Thread :=
  match th.kept with
  | some k =>
    let t := th.eret
    if th.resume.getLsbD 24 then t else { t with next := some (k.plane, k.block), useKept := some k }
  | none => th.eret

/-- The ERET that the Lodge performs on a thread's behalf (R215, R216). INH is kept, since the trap may have come from the handler.
DEDUCED (log entry 34). -/
def Thread.lodgeEret (th : Thread) (k : Kept) : Thread :=
  let th := { th with lodge := false, trapped := none, lodgeKept := none }
  if th.resume.getLsbD 24 then
    { th with next := some (blockOf th.resume.toNat), useKept := none, resume := th.resume &&& 0xFFFFFF }
  else { th with next := some (k.plane, k.block), useKept := some k }

/-- LODGE_TRAP_SERVICE (R211, R215): the first trap of the Lodge's queue. A trap of a committed activation has nothing to
resume, so it ends the task. A task that has lost an element ends, or re-enters the dispatcher (R227). DEDUCED (log entries 34, 50). -/
def State.lodgeService (s : State) (c : LodgeChoice) : State :=
  match s.tsk.lodgeQueue with
  | [] => s
  | r :: rest =>
    let s := s.setTsk { s.tsk with lodgeQueue := rest }
    if r.code = trapElemLost then s.killTask r.tid else
    match s.thread? r.thread, s.task? r.tid with
    | some th, some t =>
      if th.tid ≠ r.tid ∨ th.trapped ≠ some r ∨ c = .endTask then s.endTask r.tid complBad evKilled
      else if c = .deliver then
        if th.inh then s.endTask r.tid complBad evKilled else s.setThread r.thread (th.deliver t r th.lodgeKept)
      else
        match th.lodgeKept with
        | some k => s.setThread r.thread (th.lodgeEret k)
        | none => s
    | _, _ => s.endTask r.tid complBad evKilled

/-- LODGE_TRAP_SERVICE. -/
def execLodgeTrapService (s : State) : Out :=
  match s.inp with
  | some (.lodgeTrapService c) => .next ({ s with inp := none }.lodgeService c)
  | _ => .next s

/-! ### Commit (R320 to R330) -/

def isSyswr : Instr → Bool
  | .syswr _ => true
  | _ => false
/-- Every class the header names is accounted for, and exactly one branch (R320, R336); a SYSWR that has issued performs
before the commit (R394), and a memory node that waits for its translation, which may trap, has it. -/
def State.mayCommit (s : State) (aid : Nat) (a : Act) : Bool :=
  match s.planeOfAct a with
  | none => false
  | some pl =>
    let b := pl.blockRec a.block
    s.isOldest aid && a.trap.isNone && !a.dead
      && !s.fab.held.any (fun h => h.iss.f.aid == aid && (isSyswr h.instr || h.isMem && !h.isPref))
      && ((bitsOf 32 (hdrSmask b)).all fun l => s.accounted a (.lsid l))
      && ((bitsOf 64 (hdrCwrite b)).all fun k => s.accounted a (.slot k))
      && s.accounted a .branch && (a.effects.all fun e =>
        match e with
        | .launch l => l.kind != 2 || l.compl == 0 || s.mayWriteVa l.asid l.compl 8
        | _ => true)

/-- A new thread of a task (R324). -/
def newThread (tid : Nat) (plane block : Nat) (carry : Tab W64) : Thread :=
  { tid := tid, next := some (plane, block), started := false, acts := [], carry := carry, retStack := [], recs := [], resume := 0,
    inh := false, lodge := false, trapped := none, kept := none, lodgeKept := none, useKept := none, yieldUntil := none, acquired := false }

/-- A thread exits: it leaves every group and its record returns to the task's reserve (R82, R325). -/
def State.exitThread (s : State) (tid thread : Nat) : State :=
  let gs : List Nat := match s.task? tid with
    | some t => t.groups.map (·.1)
    | none => []
  let s := gs.foldl (fun (s : State) g => s.leaveGroup tid thread g) s
  let s := s.setTsk { s.tsk with threads := Tab.erase s.tsk.threads thread }
  s.updTask tid fun t => { t with reserve := t.reserve ++ [thread] }

/-- EST sets the remaining estimate; a pre-emption decision in the same cycle still takes the one before (R329, R330). -/
def Task.setEst (t : Task) (us : W32) (at_ cyc : Nat) : Task :=
  let t := if t.estCyc = cyc then t else { t with estWas := t.estUs, estWasAt := t.estAt, estCyc := cyc }
  { t with estUs := us, estAt := at_ }
/-- One effect at commit (R324 to R329). A form that fires after the commit has it at once. DEDUCED (log entry 32). -/
def State.commitEffect (s : State) (tid thread : Nat) (e : Effect) : State :=
  match e with
  | .spawn n plane block c0 =>
    s.setThread n (newThread tid plane block (Tab.put 0 (Tab.put 0 [] 63 (BitVec.ofNat 64 n)) 0 c0))
  | .join g => if (s.thread? thread).isSome then s.joinGroup tid thread g else s
  | .leave g => s.leaveGroup tid thread g
  | .yield => s.updThread thread fun t => { t with yieldUntil := some (s.cycles + 256) }
  | .est us => s.updTask tid fun t => t.setEst us s.units s.cycles
  | .launch l => if l.kind = 2 then (if l.compl = 0 then s else s.addVa l.asid l.compl 1) else s.holdChild thread l

/-- The thread after its oldest activation has committed. -/
def Thread.commit (th : Thread) (a : Act) : Thread :=
  { th with acts := th.acts.drop 1, retStack := a.retStack,
            carry := a.carry.foldl (fun c (k, v) =>
              match v with
              | some v => Tab.put 0 c k v
              | none => c) th.carry }

/-- The GBARs of a thread's oldest activation arrive (R326). DEDUCED (log entry 31). -/
def State.arriveOldest (s : State) (thread : Nat) : State :=
  match s.thread? thread with
  | none => s
  | some th =>
    (s.fab.held.filter fun h => some h.iss.f.aid == th.oldest).foldl (fun s h =>
      match h.instr with
      | .gbar r => s.arrive h r
      | _ => s) s

/-- The activation commits: carry writes and return stack become the thread's, its effects take place, then its branch
(R320 to R330, R393). -/
def State.commitAct (s : State) (thread aid : Nat) (th : Thread) (a : Act) : State :=
  let s := s.setThread thread (th.commit a)
  let s := s.setAct aid { a with committed := true, base := th.carry, effects := [], kept := [] }
  let s := a.effects.foldl (fun s e => s.commitEffect a.tid thread e) s
  let s := (s.releaseReads thread).arriveOldest thread
  match a.branch with
  | some .exit => s.exitThread a.tid thread
  | some .eret => s.updThread thread Thread.doEret
  | some (.halt st) => if st = 0 then s.endTask a.tid complOk evRetired else s.endTask a.tid complBad evKilled
  | _ => s

/-- ACTIVATION_COMMIT (R320). -/
def execActivationCommit (s : State) : Out :=
  match s.inp with
  | some (.activationCommit thread) =>
    let s := { s with inp := none }
    match s.thread? thread with
    | none => .next s
    | some th =>
      match th.acts with
      | [] => .next s
      | aid :: _ =>
        match s.act? aid with
        | none => .next s
        | some a => if s.mayCommit aid a then .next (s.commitAct thread aid th a) else .next s
  | _ => .next s

/-- A GBAR whose arrival is counted (R326). -/
def State.gbarParked (s : State) (h : HeldOp) : Bool :=
  match h.instr, (s.issTask h.iss) with
  | .gbar r, some (_, t) => (t.group (r.l % 256)).arrived.any fun y => y.2 == h.id
  | _, _ => false
/-- A QPUT that has found its ring full (R92). -/
def HeldOp.qputParked (h : HeldOp) : Bool :=
  match h.instr with
  | .qput _ => h.packet.isSome
  | _ => false
/-- A thread is parked by a form of it: in GBAR, in QPUT, in WAITA, or in REDWAIT (R92, R118, R382). DEDUCED (log entry 32). -/
def State.threadParked (s : State) (n : Nat) : Bool :=
  (s.fab.held.any fun h => s.threadOf h.iss.f.aid == n && (s.gbarParked h || h.qputParked))
    || (s.mem.watches.any fun w => s.threadOf w.iss.f.aid == n)
    || (s.eng.trees.any fun x => x.2.waits.any fun w => s.threadOf w.iss.f.aid == n)
/-- A thread of the task other than `thread` may run: it is not trapped, not yielding, and not parked (R327). -/
def State.otherRunnable (s : State) (tid thread : Nat) : Bool :=
  s.tsk.threads.any fun (n, t) =>
    n != thread && t.tid == tid && !t.lodge && t.yieldUntil.isNone && (t.next.isSome || !t.acts.isEmpty) && !s.threadParked n

/-- YIELD_EXPIRY (R327). -/
def execYieldExpiry (s : State) : Out :=
  match s.inp with
  | some (.yieldExpiry thread) =>
    let s := { s with inp := none }
    match s.thread? thread with
    | none => .next s
    | some th =>
      match th.yieldUntil with
      | none => .next s
      | some c =>
        if c ≤ s.cycles ∨ !s.otherRunnable th.tid thread then .next (s.setThread thread { th with yieldUntil := none }) else .next s
  | _ => .next s

end Sys2Proof.Machine
end

