-- ==== Sys2Proof/Machine/Blocks.lean ====
section
/-! DEFINITION. Group 0xB: branches, carry slots, threads, groups and tasks (R318 to R330). -/
namespace Sys2Proof.Machine

/-! ### Branches and carry writes (R320 to R323) -/

/-- One firing of a node that is accounted for and decides its own NULL operand (R306, R320): counted, then, unless it is
NULL or poisoned, its body runs. `onNull` follows a NULL firing. -/
def State.fireAcct (s : State) (opc : Nat) (r : NodeRec) (onNull : Issue → State → State) (body : Issue → Nat → State → State) : Out :=
  match s.cur with
  | none => .next s
  | some i =>
    let s := { s with cur := none }
    let live := !i.f.isNull r
    let (ok, s) := match acctClass opc r with
      | some k => s.account i k live
      | none => (true, s)
    if !ok then .next s
    else if !live then .next (onNull i s)
    else
      match i.f.poison with
      | some x => .next (s.raise i (poisonTrap i.f x))
      | none => .next (body i (valOf i.f.a) s)

/-- The activation's branch is named, and with it the thread's next block (R321). -/
def State.nameBranch (s : State) (i : Issue) (b : Branch) (stack : List (BitVec 24)) : State :=
  match s.act? i.f.aid with
  | none => s
  | some a =>
    let s := s.setAct i.f.aid { a with branch := some b, retStack := stack }
    match b with
    | .block plane block =>
      s.updThread a.thread fun th => if th.acts.getLast? = some i.f.aid then { th with next := some (plane, block) } else th
    | _ => s

/-- The return stack that an activation sees (R322). -/
def State.stackOf (s : State) (i : Issue) : List (BitVec 24) := ((s.act? i.f.aid).map (·.retStack)).getD []
/-- Branch to a block address (R254). -/
def State.goBlock (s : State) (i : Issue) (addr : Nat) (stack : List (BitVec 24)) : State :=
  s.nameBranch i (.block (blockOf addr).1 (blockOf addr).2) stack

def skip (_ : Issue) (s : State) : State := s

/-- BR (R321). DEDUCED (log entry 15). -/
def execBr (r : NodeRec) (s : State) : Out := s.fireAcct 0xB0 r skip fun i _ s => s.goBlock i r.l (s.stackOf i)
/-- BRI (R321). -/
def execBri (r : NodeRec) (s : State) : Out := s.fireAcct 0xB1 r skip fun i a s => s.goBlock i a (s.stackOf i)
/-- CALL: the return address goes on the stack of eight (R322). -/
def execCall (r : NodeRec) (s : State) : Out :=
  s.fireAcct 0xB2 r skip fun i a s => s.goBlock i r.l ((BitVec.ofNat 24 a :: s.stackOf i).take 8)
/-- RET: branch to the top of the stack; an empty stack makes it an EXIT (R322). -/
def execRet (r : NodeRec) (s : State) : Out :=
  s.fireAcct 0xB3 r skip fun i _ s =>
    match s.stackOf i with
    | [] => s.nameBranch i .exit []
    | x :: rest => s.goBlock i x.toNat rest
/-- EXIT (R321, R325). -/
def execExit (r : NodeRec) (s : State) : Out := s.fireAcct 0xB7 r skip fun i _ s => s.nameBranch i .exit (s.stackOf i)

/-- A carry slot of the activation has become known: readers may go on (R323). -/
def State.slotKnown (s : State) (i : Issue) : State := s.releaseReads (s.threadOf i.f.aid)

/-- WRC (R320, R323). DEDUCED (log entry 15). -/
def execWrc (r : NodeRec) (s : State) : Out :=
  s.fireAcct 0xB5 r (fun i s => s.slotKnown i) fun i a s =>
    (s.updAct i.f.aid fun x => { x with carry := Tab.set x.carry (r.l % 64) (some (BitVec.ofNat 64 a)) }).slotKnown i

/-- RDC: its firing is released once the value is known (R323). -/
def execRdc (r : NodeRec) (s : State) : Out :=
  s.fire 0xB4 r fun i _ _ _ s => s.fireVal i 0xB4 r false ((s.carryAt i.f.aid (r.l % 64)).getD 0).toNat 0

/-! ### Threads, groups and tasks (R324 to R329) -/

/-- An effect of a form: at the commit of its activation, or at once when that is past. DEDUCED (log entry 32). -/
def State.addEffect (s : State) (i : Issue) (e : Effect) : State :=
  match s.act? i.f.aid with
  | none => s
  | some a =>
    if a.committed then s.commitEffect a.tid a.thread e else s.setAct i.f.aid { a with effects := a.effects ++ [e] }

/-- SPAWN: a record is reserved and its number fired; with none free it fires 0xFFFFFFFF (R324). DEDUCED (log entry 32). -/
def execSpawn (r : NodeRec) (s : State) : Out :=
  s.fire 0xB6 r fun i a _ _ s =>
    match s.issTask i with
    | none => s
    | some (tid, t) =>
      match t.reserve with
      | [] => s.fireVal i 0xB6 r false 0xFFFFFFFF 0
      | n :: rest =>
        let s := s.setTask tid { t with reserve := rest }
        let s := s.addEffect i (.spawn n (blockOf r.l).1 (blockOf r.l).2 (BitVec.ofNat 64 a))
        s.fireVal i 0xB6 r false n 0

/-- JOIN (R326). DEDUCED (log entry 32). -/
def execJoin (r : NodeRec) (s : State) : Out :=
  s.fire 0xB8 r fun i _ _ _ s => (s.addEffect i (.join (r.l % 256))).fireVal i 0xB8 r false 1 0
/-- LEAVE (R326). DEDUCED (log entry 32). -/
def execLeave (r : NodeRec) (s : State) : Out :=
  s.fire 0xB9 r fun i _ _ _ s => (s.addEffect i (.leave (r.l % 256))).fireVal i 0xB9 r false 1 0

/-- A form that reads its descriptor as it issues does so at once when thread order lets it, and otherwise waits outside its output
latch (R328, R335, R354). DEDUCED (log entry 92). -/
def State.startRead (s : State) (i : Issue) (ins : Instr) (perform : HeldOp → State → State) : State :=
  let (h, s) := s.holdOp i ins
  if s.mayTake h then perform h s else s

/-- GBAR: it arrives when its activation is the oldest of its thread (R326). DEDUCED (log entry 31). -/
def execGbar (r : NodeRec) (s : State) : Out :=
  s.fire 0xBA r fun i _ _ _ s =>
    let (h, s) := s.holdOp i (.gbar r)
    if s.mayAct i.f.aid then s.arrive h r else s

/-- YIELD (R327). DEDUCED (log entry 32). -/
def execYield (r : NodeRec) (s : State) : Out := s.fire 0xBB r fun i _ _ _ s => s.addEffect i .yield
/-- EST (R329). DEDUCED (log entry 32). -/
def execEst (r : NodeRec) (s : State) : Out := s.fire 0xBD r fun i a _ _ s => s.addEffect i (.est (BitVec.ofNat 32 a))

/-- Packets in a task's child list: handed over and not yet placed or failed, and reserved at issue (R328).
DEDUCED (log entry 36). -/
def State.childCount (s : State) (tid : Nat) : Nat :=
  (s.sch.held.filter fun h => h.launch.src == .child tid).length
    + ((s.tsk.acts.filter fun x => x.2.tid == tid).flatMap fun x => x.2.effects.filter fun e =>
        match e with
        | .launch _ => true
        | _ => false).length

/-- LAUNCH fires its status (R328). DEDUCED (log entry 36). -/
def State.launchChild (s : State) (i : Issue) (r : NodeRec) (tid : Nat) (t : Task) (bytes : List Byte) (pois : Bool) : State :=
  let l : Launch := { bytes := bytes, src := .child tid, prio := 0 }
  let l := { l with prio := min l.prioField t.prio }
  match (if pois then some 8 else s.checkLaunch l (some t.asid)) with
  | some c => s.fireVal i 0xBC r false c 0
  | none =>
    if 4 ≤ s.childCount tid then s.fireVal i 0xBC r false 0xFF 0
    else (s.addEffect i (.launch l)).fireVal i 0xBC r false 0 0

/-- LAUNCH reads its packet: the head, then all the entries that its EXT names, whatever else it holds (R328). Poison in any of them is code 8.
DEDUCED (log entry 32). -/
def State.performLaunch (h : HeldOp) (r : NodeRec) (s : State) : State :=
  let i := h.iss
  let a := valOf i.f.a
  match s.issTask i with
  | none => s.dropHeld h.id
  | some (tid, t) =>
    match s.loadOwn h a 128 with
    | (.waits, s) => s
    | (.fault x, s) => (s.dropHeld h.id).raise i x
    | (.ok bs p, s) =>
      let ext := bytesAt bs 10 1
      match s.loadOwn h (a + 128) (128 * ext) with
      | (.waits, s) => s
      | (.fault x, s) => (s.dropHeld h.id).raise i x
      | (.ok more q, s) => (s.dropHeld h.id).launchChild i r tid t (bs ++ more) (p.isSome || q.isSome)
/-- LAUNCH (R328). DEDUCED (log entry 32). -/
def execLaunch (r : NodeRec) (s : State) : Out := s.fire 0xBC r fun i _ _ _ s => s.startRead i (.launch r) fun h s => s.performLaunch h r

end Sys2Proof.Machine
end

