-- ==== Sys2Proof/Machine/Registers.lean ====
section
/-! DEFINITION. The management registers (R4, R5, R19 to R25, R42, R45, R46, R51, R63, R94, R120, R158 to R170, R221, R232,
R236, R259, R385): what a word reads as, what a read clears, and a write that has no behaviour of its own. -/
namespace Sys2Proof.Machine

/-! ### What a word reads as -/

def Sensor.word (x : Sensor) : Nat := x.temp.toNat + 2 ^ 16 * b2n x.failed + 2 ^ 17 * b2n x.cand + 2 ^ 18 * (x.candN % 4)
/-- PWR_STAT (R25). -/
def Power.stat (p : Power) : Nat :=
  b2n (p.throttle != 0 || p.step != 0) + 2 * p.throttle.toNat + 2 ^ 4 * p.step.toNat + 2 ^ 7 * b2n p.therm + 2 ^ 8 * b2n p.floor
    + 2 ^ 9 * b2n p.ovf + 2 ^ 10 * b2n p.clamp
/-- LK_PORTSTAT (R42). DEDUCED (log entry 78). -/
def Port.word (p : Port) : Nat :=
  p.state.toNat + 2 ^ 3 * b2n p.spared + 2 ^ 4 * p.laneMap.toNat + 2 ^ 7 * b2n p.spareOk + 2 ^ 8 * b2n p.spareBad + 2 ^ 16 * p.retry.toNat
def Links.port (l : Links) (p : Nat) : Port := Tab.getD l.ports p .reset
/-- LK_PORTLIVE (R42). -/
def Links.liveMask (l : Links) : Nat := l.live.foldl (fun m p => m + 2 ^ p) 0
/-- LK_LANEERR (R42). -/
def State.laneErrWord (s : State) (p : Nat) : Nat :=
  let x := s.lnk.port p
  ((List.range 5).foldl (fun w k => w + 16 ^ k * min 15 (s.inWindow (Tab.getD x.laneErr k []))) 0) + 2 ^ 20 * x.lasting.toNat
/-- Words of an LK_DROPLOG entry (R42). -/
def DropEntry.word (d : DropEntry) (k : Nat) : Nat :=
  match k with
  | 0 => b2n d.valid + 2 * d.kind.toNat + 8 * b2n d.opened + 2 ^ 8 * d.obj.toNat + 2 ^ 16 * d.asid.toNat + 2 ^ 32 * d.count.toNat
  | 1 => d.first.toNat
  | 2 => d.reads.toNat + 2 ^ 32 * d.atomics.toNat
  | _ => 0
/-- QS_SLOT (R63). -/
def Slot.word (x : Slot) : Nat :=
  x.qid.toNat + 2 ^ 10 * b2n x.valid + 2 ^ 11 * x.prioMax.toNat + 2 ^ 14 * b2n x.err + 2 ^ 32 * x.notify.toNat
/-- GH_WAYPART (R158). -/
def WayPart.word (p : WayPart) : Nat :=
  p.spw.toNat + 2 ^ 5 * p.spasid.toNat + 2 ^ 13 * b2n p.taskWr + 2 ^ 14 * p.phase.toNat + 2 ^ 16 * b2n p.err + 2 ^ 32 * p.wbcnt.toNat
/-- ERR_ELEM (R221). -/
def State.errElemWord (s : State) (e : Nat) : Nat :=
  let x := Tab.getD s.fab.errs e .new
  min 15 (s.inWindow x.corr) + 2 ^ 4 * min 15 (s.inWindow x.uncorr) + 2 ^ 8 * b2n x.lasting + 2 ^ 9 * b2n x.spared + 2 ^ 10 * b2n x.out
def State.errSpareWord (s : State) (i : Nat) : Nat :=
  let x := Tab.getD s.fab.spares i (0, 0)
  x.1.toNat + 4 * x.2.toNat
/-- QS_PLACE.HELD: child launches are not counted (R94, R328). DEDUCED (log entry 36). -/
def State.heldCount (s : State) : Nat :=
  (s.sch.held.filter fun h =>
    match h.launch.src with
    | .child _ => false
    | _ => true).length
/-- Words of COLL_GRP (R385). -/
def CollGrp.word (g : CollGrp) (k : Nat) : Nat :=
  if k = 0 then g.size.toNat + 2 ^ 11 * g.scope.toNat + 2 ^ 14 * g.asid.toNat + 2 ^ 22 * b2n g.valid
  else g.members.toNat / 2 ^ (64 * (k - 1)) % 2 ^ 64

def wordOf (x k : Nat) : Nat := x / 2 ^ (64 * k) % 2 ^ 64

/-- Offsets below 0x6000: boot, host port, power, sensors, Pergola. -/
def State.wordLow (s : State) (o : Nat) : Option Nat :=
  let m := s.mem
  if o = 0x1000 then some (b2n s.boot.src)
  else if o = 0x1008 then some (s.boot.state.toNat + 8 * s.boot.code.toNat + 2 ^ 8 * s.boot.svn.toNat)
  else if o = 0x1010 then some s.boot.pushLen.toNat
  else if o = 0x1100 then some s.apBase.toNat
  else if o = 0x1108 then some (s.pcieRate.toNat + 2 ^ 4 * s.pcieWidth.toNat)
  else if o = 0x2000 then some (s.pow.cap.toNat + 2 ^ 32 * s.pow.win.toNat)
  else if o = 0x2008 then some (s.pow.avg.toNat + 2 ^ 16 * s.pow.inst.toNat + 2 ^ 32 * s.pow.stat)
  else if o = 0x2100 then some (s.thm.retire.toNat + 2 ^ 8 * s.thm.resume.toNat + 2 ^ 16 * s.thm.trip.toNat)
  else if 0x3000 ≤ o ∧ o < 0x4C00 then
    let i := (o - 0x3000) / 4
    some ((Tab.getD s.thm.sens i .reset).word + 2 ^ 32 * (Tab.getD s.thm.sens (i + 1) .reset).word)
  else if 0x4C00 ≤ o ∧ o < 0x4C20 then
    let k := (o - 0x4C00) / 4
    some ((Tab.getD s.thm.outer k 0).toNat + 2 ^ 32 * (Tab.getD s.thm.outer (k + 1) 0).toNat)
  else if o = 0x4E00 then some (2 * b2n m.remapBusy + 2 ^ 16 * m.remapDone.toNat + 2 ^ 32 * m.remapPois.toNat)
  else if o = 0x4E10 ∨ o = 0x4E18 then some 0
  else if o = 0x4E20 then some m.nlive
  else if o = 0x4E28 then some (s.rowClk % 2 ^ 64)
  else if o = 0x4E30 then some (b2n m.vbEn + 2 ^ 8 * m.vbIdle.toNat + 2 ^ 16 * m.vbYields.toNat + 2 ^ 32 * m.vbErrs.toNat)
  else if 0x4E40 ≤ o ∧ o < 0x4E60 then some (wordOf m.busOut.toNat ((o - 0x4E40) / 8))
  else if 0x5000 ≤ o ∧ o < 0x5800 then some (Tab.getD m.bankMap ((o - 0x5000) / 8) 0).toNat
  else if 0x5800 ≤ o ∧ o < 0x6000 then some (Tab.getD m.bankTherm ((o - 0x5800) / 8) 0).toNat
  else none

/-- Offsets 0x6000 to 0x6FFF: the links (R42). -/
def State.wordLink (s : State) (o : Nat) : Option Nat :=
  let l := s.lnk
  if o = 0x6000 then some l.self.toNat
  else if o = 0x6008 then some l.liveMask
  else if 0x6100 ≤ o ∧ o < 0x6190 then some (l.port ((o - 0x6100) / 8)).word
  else if 0x6200 ≤ o ∧ o < 0x6290 then some (s.laneErrWord ((o - 0x6200) / 8))
  else if 0x6300 ≤ o ∧ o < 0x6318 then some (wordOf l.peerMap.toNat ((o - 0x6300) / 8))
  else if 0x6320 ≤ o ∧ o < 0x6338 then some (wordOf l.peerIso.toNat ((o - 0x6320) / 8))
  else if o = 0x6340 then some 0
  else if o = 0x6348 then some l.tmo.toNat
  else if o = 0x6350 then some (l.late.toNat + 2 ^ 32 * l.dlLost.toNat)
  else if 0x6400 ≤ o ∧ o < 0x6600 ∧ o % 32 < 24 then some ((Tab.getD l.drop ((o - 0x6400) / 32) .reset).word (o % 32 / 8))
  else if o = 0x6600 then some (2 * l.drain.toNat + 2 ^ 4 * b2n (l.drain == 4))
  else if o = 0x6608 then some l.drainTmo.toNat
  else none

/-- Offsets 0x7000 to 0x7FFF: queues, scheduler, arming report (R63, R65, R94, R259). -/
def State.wordQueue (s : State) (o : Nat) : Option Nat :=
  let q := s.que
  let c := s.sch
  let e := s.err
  if o = 0x7000 then some q.qtab.toNat
  else if o = 0x7008 then some 0
  else if 0x7100 ≤ o ∧ o < 0x7300 then some (Tab.getD q.slots ((o - 0x7100) / 8) .reset).word
  else if 0x7400 ≤ o ∧ o < 0x7480 then some (wordOf q.pend.toNat ((o - 0x7400) / 8))
  else if o = 0x7500 then some (q.rackRd.toNat + 2 ^ 16 * q.rackDrops.toNat + 2 ^ 32 * q.rackBadw.toNat)
  else if o = 0x7508 then some (q.repAddr.toNat + 2 ^ 48 * q.repPeer.toNat)
  else if o = 0x7510 then some q.rackPrioMax.toNat
  else if o = 0x7520 then some (q.admqBase.toNat + 2 ^ 48 * q.admqLog.toNat)
  else if o = 0x7528 then some (q.admcBase.toNat + 2 ^ 48 * q.admcLog.toNat + 2 ^ 52 * q.admcVec.toNat)
  else if o = 0x7530 then some q.admWr.toNat
  else if o = 0x7538 then some (q.admRd.toNat + 2 ^ 32 * q.admCwr.toNat)
  else if o = 0x7600 then some (b2n c.placeEn + 2 ^ 16 * s.heldCount)
  else if o = 0x7608 then some c.quantum.toNat
  else if o = 0x7610 then some (c.drain.toNat + 2 ^ 16 * c.gapHi.toNat + 2 ^ 32 * c.killRun.toNat)
  else if o = 0x7618 then some c.saveBase.toNat
  else if o = 0x7620 then some c.saveMib.toNat
  else if o = 0x7628 then some (c.drains.toNat + 2 ^ 16 * c.kills.toNat + 2 ^ 32 * c.ckpts.toNat + 2 ^ 48 * c.ckFail.toNat)
  else if o = 0x7700 then some (b2n e.armValid + 2 * e.armCode.toNat + 2 ^ 8 * e.armPlane.toNat + 2 ^ 24 * e.armElem.toNat
      + 2 ^ 38 * e.armNode.toNat + 2 ^ 44 * e.armWhich.toNat + 2 ^ 46 * e.armIndex.toNat)
  else if o = 0x7708 then some e.armCount.toNat
  else none

/-- The words of ERR_VOTELOG. ERR_VOTEIDX lies at 0x8A00, within the span of the ring's 32 entries of 16 bytes: that word is
ERR_VOTEIDX (R232). DEDUCED (log entry 91). -/
def inVoteLog (o : Nat) : Bool := decide (0x8900 ≤ o) && decide (o < 0x8B00) && o != 0x8A00
/-- Everything that was translated before an invalidation has performed: accesses, commands of the outer stacks, and what the package has asked
of peers. `mark` is the number that came next at the invalidation (R170). DEDUCED (log entry 68). -/
def State.invDone (s : State) (mark : Nat) : Bool :=
  (s.mem.acc.all fun x => x.todo == 0 || decide (mark ≤ x.id)) && (s.eng.nmQueue.all fun q => q.2.all fun c => decide (mark ≤ c.num))
    && s.lnk.reqs.all fun q => decide (mark ≤ q.id)
/-- DONE of TR_INV (R170). -/
def State.trDone (s : State) : Bool := s.invDone s.mem.trMark
/-- Offsets from 0x8000: errors, taps, translation, scratchpads, collectives, elements. -/
def State.wordHigh (s : State) (o : Nat) : Option Nat :=
  let e := s.err
  let t := s.tap
  if o = 0x8800 then some (e.delay.toNat + 2 ^ 32 * e.deadlocks.toNat)
  else if o = 0x8808 then some e.win.toNat
  else if o = 0x8810 then some e.thresh.toNat
  else if o = 0x8818 then some (e.replays.toNat + 2 ^ 16 * e.sparings.toNat + 2 ^ 32 * e.poisoned.toNat + 2 ^ 48 * e.trapLost.toNat
      + 2 ^ 56 * e.lost.toNat)
  else if o = 0x8A00 then some (e.voteIdx.toNat + 2 ^ 16 * e.voteOver.toNat)
  else if inVoteLog o then some (wordOf (Tab.getD e.voteLog ((o - 0x8900) / 16) 0).toNat (o % 16 / 8))
  else if o = 0x8C00 then some (b2n t.en)
  else if o = 0x8C08 then some t.ring.toNat
  else if o = 0x8C10 then some t.size.toNat
  else if o = 0x8C18 then some t.wp.toNat
  else if o = 0x8C20 then some t.rp.toNat
  else if 0x8C40 ≤ o ∧ o < 0x8C80 then some (Tab.getD t.sel ((o - 0x8C40) / 8) 0).toNat
  else if 0x8C80 ≤ o ∧ o < 0x8CC0 then some (Tab.getD t.drops ((o - 0x8C80) / 8) 0).toNat
  else if 0x9000 ≤ o ∧ o < 0x9800 then
    let r := Tab.getD s.mem.trRoot ((o - 0x9000) / 8) (false, 0)
    some (b2n r.1 + 2 ^ 16 * r.2.toNat)
  else if o = 0x9800 then some (2 ^ 10 * b2n s.trDone)
  else if 0xA000 ≤ o ∧ o < 0xA200 then some (s.mem.wp ((o - 0xA000) / 8)).word
  else if 0xAC00 ≤ o ∧ o < 0xB400 then some ((Tab.getD s.eng.collGrp ((o - 0xAC00) / 32) .reset).word (o % 32 / 8))
  else if 0x400000 ≤ o ∧ o < 0x420000 then some (s.errElemWord ((o - 0x400000) / 8))
  else if 0x420000 ≤ o ∧ o < 0x420800 then some (s.errSpareWord ((o - 0x420000) / 8))
  else if 0x1000000 ≤ o ∧ o < 0x1400000 then some ((Tab.getD s.que.wr ((o - 0x1000000) / 4096) 0).toNat * (1 + 2 ^ 32))
  else none

/-- The 64-bit word at an 8-aligned management offset; none where no register lies. -/
def State.mgmtWord (s : State) (o : Nat) : Option Nat :=
  if o < 0x6000 then s.wordLow o else if o < 0x7000 then s.wordLink o else if o < 0x8000 then s.wordQueue o else s.wordHigh o

/-! ### Reads by the host and the Lodge (R4, R46, R390) -/

/-- A read of the low or high half of a word clears its RC fields. -/
def State.readClear (s : State) (o : Nat) (lo hi : Bool) : State :=
  let keep {w : Nat} (b : Bool) (x : BitVec w) : BitVec w := if b then 0 else x
  if o = 0x4E00 then s.setMem { s.mem with remapDone := keep lo s.mem.remapDone, remapPois := keep hi s.mem.remapPois }
  else if o = 0x4E30 then s.setMem { s.mem with vbYields := keep lo s.mem.vbYields, vbErrs := keep hi s.mem.vbErrs }
  else if 0x6100 ≤ o ∧ o < 0x6190 then
    let p := s.lnk.port ((o - 0x6100) / 8)
    s.setLnk { s.lnk with ports := Tab.set s.lnk.ports ((o - 0x6100) / 8) { p with retry := keep lo p.retry } }
  else if o = 0x6350 then s.setLnk { s.lnk with late := keep lo s.lnk.late, dlLost := keep hi s.lnk.dlLost }
  else if o = 0x7500 then s.setQue { s.que with rackDrops := keep lo s.que.rackDrops, rackBadw := keep hi s.que.rackBadw }
  else if o = 0x7628 then
    s.setSch { s.sch with drains := keep lo s.sch.drains, kills := keep lo s.sch.kills, ckpts := keep hi s.sch.ckpts,
                          ckFail := keep hi s.sch.ckFail }
  else if o = 0x7708 then s.setErr { s.err with armCount := keep lo s.err.armCount }
  else if o = 0x8800 then s.setErr { s.err with deadlocks := keep hi s.err.deadlocks }
  else if o = 0x8818 then
    s.setErr { s.err with replays := keep lo s.err.replays, sparings := keep lo s.err.sparings, poisoned := keep hi s.err.poisoned,
                          trapLost := keep hi s.err.trapLost, lost := keep hi s.err.lost }
  else if o = 0x8A00 then s.setErr { s.err with voteOver := keep lo s.err.voteOver }
  else if 0x8C80 ≤ o ∧ o < 0x8CC0 then
    { s with tap := { s.tap with drops := Tab.set s.tap.drops ((o - 0x8C80) / 8) (keep lo (Tab.getD s.tap.drops ((o - 0x8C80) / 8) 0)) } }
  else s
/-- Reading an entry of ERR_VOTELOG marks it read (R232). -/
def State.markVoteRead (s : State) (o : Nat) : State :=
  if inVoteLog o then
    s.setErr { s.err with voteRead := s.err.voteRead ||| BitVec.ofNat 32 (2 ^ ((o - 0x8900) / 16)) }
  else s

/-- In FAILED only BOOT_STAT and BOOT_CFG answer (R48). DEDUCED (log entry 72). -/
def State.answers (s : State) (o : Nat) : Bool := s.boot.state != 3 || o / 8 * 8 == 0x1000 || o / 8 * 8 == 0x1008
/-- BAR0 accesses are of 4 or 8 bytes and aligned (R45). -/
def bar0Ok (o size : Nat) : Bool := (size == 4 || size == 8) && o % size == 0 && decide (o + size ≤ 0x4000000)

/-- A register read by the host, the rack controller or the Lodge: its bytes go out, and what a read clears is cleared for the
host and the Lodge (R4, R45, R46, R390). The rack controller comes over Ethernet, which both ports down cut (R41). DEDUCED (log entries 72, 91). -/
def State.readReg (s : State) (a : Agent) (o size : Nat) : State :=
  if a = .rack && (s.lnk.ethFor 0).isNone then s
  else if !bar0Ok o size then s.emitOut .unsupportedRequest
  else
    let w := o / 8 * 8
    let lo := o % 8 == 0
    let hi := size == 8 || o % 8 == 4
    let v := if s.answers o then (s.mgmtWord w).getD 0 else 0
    let s := s.emitOut (.barRead ((bytesOf 8 v).drop (o % 8) |>.take size))
    if !s.answers o then s else
    let s := s.markVoteRead w
    if a = .rack then s else s.readClear w lo hi

/-! ### Writes without behaviour of their own (R4, R46) -/

def bv (w x : Nat) : BitVec w := BitVec.ofNat w x
/-- The save pool is set: pages that join it hold zeros (R69, R435). DEDUCED (log entry 44). -/
def State.setPool (s : State) (base : BitVec 48) (m : W32) : State :=
  let a := base.toNat
  let n := m.toNat * 2 ^ 20
  let b := s.sch.saveBase.toNat
  let k := s.sch.saveMib.toNat * 2 ^ 20
  (s.setMem (s.mem.zeroBut a n b k)).setSch { s.sch with saveBase := base, saveMib := m }
/-- Fields that the Lodge alone sets among the low offsets; `w` is the word as it would be, `x` the written bits.
DESIGN CHOICE (log entry 64). -/
def State.putLow (s : State) (o w x : Nat) : State :=
  if o = 0x1100 then { s with apBase := bv 17 w }
  else if o = 0x4E10 then s.setMem { s.mem with pgReturnBed := bv 8 w }
  else if o = 0x4E18 then s.setMem { s.mem with pgReturn := Tab.set s.mem.pgReturn s.mem.pgReturnBed.toNat (bv 64 w) }
  else if o = 0x4E30 then s.setMem { s.mem with vbEn := bit w 0, vbIdle := bv 8 (field w 15 8), vbRunning := if bit w 0 then s.mem.vbRunning else [] }
  else if o = 0x7000 then s.setQue { s.que with qtab := bv 48 w }
  else if 0x7400 ≤ o ∧ o < 0x7480 then
    s.setQue { s.que with pend := s.que.pend &&& ~~~ (bv 1024 (x * 2 ^ (64 * ((o - 0x7400) / 8)))) }
  else if o = 0x7508 then s.setQue { s.que with repAddr := bv 48 w, repPeer := bv 8 (field w 55 48) }
  else if o = 0x7510 then s.setQue { s.que with rackPrioMax := bv 3 w }
  else if o = 0x7600 then s.setSch { s.sch with placeEn := bit w 0 }
  else if o = 0x7608 then s.setSch { s.sch with quantum := bv 24 (min 10000000 (max 100 (field w 23 0))) }
  else if o = 0x7610 then s.setSch { s.sch with drain := bv 16 w, gapHi := bv 3 (field w 18 16), killRun := bv 16 (field w 47 32) }
  else if o = 0x7618 then s.setPool (bv 48 w) s.sch.saveMib
  else if o = 0x7620 then s.setPool s.sch.saveBase (bv 32 w)
  else if o = 0x8800 then s.setErr { s.err with delay := bv 20 (min 1048575 (max 256 (field w 19 0))) }
  else if o = 0x8808 then s.setErr { s.err with win := bv 32 (max 65536 (field w 31 0)) }
  else if o = 0x8810 then s.setErr { s.err with thresh := bv 4 w }
  else if inVoteLog o then s.setErr { s.err with voteLog := Tab.erase s.err.voteLog ((o - 0x8900) / 16) }
  else if 0x9000 ≤ o ∧ o < 0x9800 then
    s.setMem { s.mem with trRoot := Tab.set s.mem.trRoot ((o - 0x9000) / 8) (bit w 0, bv 32 (field w 47 16)) }
  else if 0xAC00 ≤ o ∧ o < 0xB400 then
    let g := (o - 0xAC00) / 32
    let c := Tab.getD s.eng.collGrp g .reset
    let k := o % 32 / 8
    let c := if k = 0 then { c with size := bv 11 w, scope := bv 3 (field w 13 11), asid := bv 8 (field w 21 14), valid := bit w 22 }
      else { c with members := bv 192 (c.members.toNat % 2 ^ (64 * (k - 1)) + w * 2 ^ (64 * (k - 1))
                                       + c.members.toNat / 2 ^ (64 * k) * 2 ^ (64 * k)) &&& bv 192 (2 ^ 144 - 1) }
    s.setEng { s.eng with collGrp := Tab.set s.eng.collGrp g c }
  else s

/-- Fields that the rack controller may also set: the links' limits (R42). DESIGN CHOICE (log entry 64). -/
def State.putLink (s : State) (o w : Nat) : State :=
  if o = 0x6348 then s.setLnk { s.lnk with tmo := bv 16 (min 50000 (max 10 (field w 15 0))) }
  else if o = 0x6608 then s.setLnk { s.lnk with drainTmo := bv 16 w }
  else s

/-- The tap registers (R236): EN needs the fuse's permission, and the host writes only with it. -/
def State.putTap (s : State) (o w : Nat) : State :=
  let t := s.tap
  if o = 0x8C00 then { s with tap := { t with en := bit w 0 && s.fuse.debugEnable } }
  else if o = 0x8C08 then { s with tap := { t with ring := bv 48 w } }
  else if o = 0x8C10 then { s with tap := { t with size := bv 32 w } }
  else if o = 0x8C20 then { s with tap := { t with rp := bv 64 w } }
  else if 0x8C40 ≤ o ∧ o < 0x8C80 then { s with tap := { t with sel := Tab.set t.sel ((o - 0x8C40) / 8) (bv 64 (w % 2 ^ 33)) } }
  else s

/-- Fields that the host sets: BOOT_CFG, BOOT_PUSH.LEN, and the W1C bits of PWR_STAT, which the rack controller also clears. -/
def State.putHost (s : State) (o w x : Nat) : State :=
  if o = 0x1000 then { s with boot := { s.boot with src := bit w 0 } }
  else if o = 0x1010 then { s with boot := { s.boot with pushLen := bv 32 w } }
  else if o = 0x2008 then
    { s with pow := { s.pow with floor := s.pow.floor && !bit x 40, ovf := s.pow.ovf && !bit x 41, clamp := s.pow.clamp && !bit x 42 } }
  else s

/-- What a word holds, which is what it reads but for WO fields, which read 0: what a write that leaves a half of it alone keeps
(R4, R5, R45). -/
def State.storedWord (s : State) (o old : Nat) : Nat :=
  if o = 0x4E10 then s.mem.pgReturnBed.toNat
  else if o = 0x4E18 then (Tab.getD s.mem.pgReturn s.mem.pgReturnBed.toNat 0).toNat
  else old
/-- A write to a management register that has no behaviour of its own (R46): RW fields are set, W1C bits cleared, anything
else ignored; the rack controller's come over Ethernet, which both ports down cut (R41). DESIGN CHOICE (log entry 64); DEDUCED (log entry 91). -/
def State.writeReg (s : State) (a : Agent) (off size : Nat) (val : W64) : State :=
  if a = .rack && (s.lnk.ethFor 0).isNone then s
  else if !bar0Ok off size then s.emitOut .unsupportedRequest
  else if !s.answers off then s
  else
    let o := off / 8 * 8
    let m := (if size = 8 then 2 ^ 64 - 1 else 2 ^ 32 - 1) * 2 ^ (8 * (off % 8))
    let x := val.toNat * 2 ^ (8 * (off % 8)) % 2 ^ 64 &&& m
    match s.mgmtWord o with
    | none => s
    | some old =>
      let w := (s.storedWord o old &&& (2 ^ 64 - 1 - m)) ||| x
      match a with
      | .lodge => (((s.putLow o w x).putLink o w).putTap o w).putHost o w x
      | .rack => if o = 0x2008 then s.putHost o w x else s.putLink o w
      | .host => (if s.fuse.debugEnable then s.putTap o w else s).putHost o w x

/-- REGISTER_WRITE (R46). DESIGN CHOICE (log entry 64); DEDUCED (log entry 72). -/
def execRegisterWrite (s : State) : Out :=
  match s.inp with
  | some (.registerWrite a off size val) => .next ({ s with inp := none }.writeReg a off size val)
  | _ => .next s

/-- BAR0_UNSUPPORTED_ACCESS: Unsupported Request, and nothing else (R45). -/
def execBar0UnsupportedAccess (s : State) : Out :=
  match s.inp with
  | some (.bar0UnsupportedAccess off size) =>
    let s := { s with inp := none }
    if bar0Ok off size then .next s else .next (s.emitOut .unsupportedRequest)
  | _ => .next s

/-- ARM_RPT_CLEAR: the report is free for the next failure (R259); in FAILED the register does not answer (R48). -/
def execArmRptClear (s : State) : Out :=
  match s.inp with
  | some .armRptClear =>
    let s := { s with inp := none }
    if s.boot.state = 3 then .next s else .next (s.setErr { s.err with armValid := false })
  | _ => .next s

end Sys2Proof.Machine
end

