-- ==== Sys2Proof/Machine/System.lean ====
section
/-! DEFINITION. The system forms (R389 to R393): system and management registers, traps, return from a trap, time, taps, the
end of a task. -/
namespace Sys2Proof.Machine

/-! ### Held forms (R373) -/

/-- A held form has performed: it leaves, and frees its output latch. -/
def State.doneHeld (s : State) (h : HeldOp) : State := (s.dropHeld h.id).freeLatch h.iss

/-- A node that a cut has stopped performs nothing (R86, R87, R93, R213). DEDUCED (log entry 41). -/
def State.halted (s : State) (i : Issue) : Bool :=
  match s.act? i.f.aid, s.recAt i.elem i.ctx i.f.node with
  | some a, some (opc, _) => s.stopped a.tid i.elem i.ctx i.f.node opc
  | _, _ => false
/-- A held form issues: it performs at once when it may, and until it has performed it waits in its output latch (R351, R373). -/
def State.startHeld (s : State) (i : Issue) (ins : Instr) (perform : HeldOp → State → State) : State :=
  let (h, s) := s.holdOp i ins
  let s := if s.mayAct i.f.aid && s.mayTake h then perform h s else s
  if s.fab.held.any fun x => x.id == h.id && x.done.isNone then
    s.setCtx i.elem i.ctx ((s.ctx i.elem i.ctx).push { aid := i.f.aid, node := i.f.node, beats := [], readyAt := s.cycles, waits := true })
  else s

/-- One firing of a held form (R373): NULL gives NULL, a poisoned operand raises POISON. -/
def State.fireHeld (s : State) (opc : Nat) (ins : Instr) (r : NodeRec) (perform : HeldOp → State → State) : Out :=
  s.fire opc r fun i _ _ _ s => s.startHeld i ins perform

/-! ### The system register map (R391) -/

/-- A system register's value for a task's node; none where the map gives no read (R390, R391). -/
def State.sysReg (s : State) (i : Issue) (n : Nat) : Option Nat :=
  match s.act? i.f.aid with
  | none => none
  | some a =>
    match s.thread? a.thread, s.task? a.tid with
    | some th, some t =>
      let bed := Tab.getD s.eng.beds (bedOf i.elem) .reset
      let fct := bit (s.modeWord i.elem i.ctx) 3
      if 0x100 ≤ n ∧ n ≤ 0x10B then some (Tab.getD th.recs (n - 0x100) 0).toNat
      else if n = 0x110 then some t.handler.toNat
      else if n = 0x111 then some t.deleg.toNat
      else if n = 0x112 then some th.resume.toNat
      else if n = 0x113 then some (b2n th.inh + 2 * b2n (th.lodge || s.tsk.lodgeQueue.any fun q => q.tid == th.tid && q.thread == a.thread))
      else if n = 0x200 then some (s.ctx i.elem i.ctx).fpStat.toNat
      else if n = 0x300 ∧ fct then some (b2n bed.gmode + 2 * b2n bed.smode)
      else if n = 0x301 ∧ fct then some bed.glim.toNat
      else if n = 0x302 ∧ fct then some bed.singtol.toNat
      else if n = 0x303 ∧ fct then some bed.growth.toNat
      else if n = 0x304 ∧ fct then
        some (bed.next + 2 ^ 8 * b2n bed.active + 2 ^ 9 * b2n bed.gflag + 2 ^ 10 * b2n bed.subst + 2 ^ 11 * bed.subcol.toNat
          + 2 ^ 18 * bed.subcnt.toNat + 2 ^ 26 * bed.gidx.toNat + 2 ^ 29 * b2n bed.group.isSome)
      else if n = 0x400 then some t.waitTmo.toNat
      else if n = 0x401 then some t.xcErr.toNat
      else if n = 0x402 then some t.collTmo.toNat
      else none
    | _, _ => none

/-- A float a task writes to FCT_GLIM or FCT_SINGTOL: a sign bit or a NaN stores +0 (R142). -/
def tolerance (x : Nat) : W32 := if bit x 31 ∨ 0x7F800000 < x % 2 ^ 31 then 0 else BitVec.ofNat 32 x

/-- A system register takes a value; none where the map gives no write (R390, R391). -/
def State.setSysReg (s : State) (i : Issue) (n v : Nat) : Option State :=
  match s.act? i.f.aid with
  | none => none
  | some a =>
    let fct := bit (s.modeWord i.elem i.ctx) 3
    let k := bedOf i.elem
    let bed := Tab.getD s.eng.beds k .reset
    let putBed := fun (b : FctBed) => some (s.setEng { s.eng with beds := Tab.set s.eng.beds k b })
    if n = 0x110 then some (s.updTask a.tid fun t => { t with handler := BitVec.ofNat 25 v })
    else if n = 0x111 then some (s.updTask a.tid fun t => { t with deleg := BitVec.ofNat 64 v &&& ~~~ (0x80000000 : W64) })
    else if n = 0x112 then some (s.updThread a.thread fun t => { t with resume := BitVec.ofNat 25 v })
    else if n = 0x200 then some (s.clearFlags i.elem i.ctx (BitVec.ofNat 64 v))
    else if n = 0x201 then some ((s.seed i.elem i.ctx (BitVec.ofNat 32 v)).keepSeed i.elem i.ctx)
    else if n = 0x300 ∧ fct then putBed { bed with gmode := bit v 0, smode := bit v 1 }
    else if n = 0x301 ∧ fct then putBed { bed with glim := tolerance (v % 2 ^ 32) }
    else if n = 0x302 ∧ fct then putBed { bed with singtol := tolerance (v % 2 ^ 32) }
    else if n = 0x303 ∧ fct then some s
    else if n = 0x304 ∧ fct then putBed { bed with gflag := bed.gflag && !bit v 9, subst := bed.subst && !bit v 10 }
    else if n = 0x400 then some (s.updTask a.tid fun t => { t with waitTmo := BitVec.ofNat 32 v })
    else if n = 0x401 then some (s.updTask a.tid fun t => { t with xcErr := if bit v 0 then t.xcErr &&& ~~~ (1 : W64) else t.xcErr })
    else if n = 0x402 then some (s.updTask a.tid fun t => { t with collTmo := BitVec.ofNat 64 v })
    else none

/-- Management words that tasks may read, by number (R392). -/
def taskReads (n : Nat) : Bool :=
  [(0x401, 0), (0x9C4, 1), (0x9C8, 3), (0xA00, 255), (0xC00, 1), (0xC20, 17), (0x1100, 0), (0x1120, 63), (0x1140, 0), (0x1400, 63),
   (0x80000, 16383), (0x84000, 255)].any fun x => decide (x.1 ≤ n ∧ n ≤ x.1 + x.2)

/-- The word that a task reads by number (R390): of the power registers' word, PWR_NOW and PWR_STAT. -/
def State.taskWord (s : State) (n : Nat) : Option Nat := if taskReads n then s.mgmtWord (8 * n) else none

def accessTrap (n : Nat) : Trap := { code := trapSysAccess, info := BitVec.ofNat 64 n }

/-- NUM and MGMT of a register form (R389). -/
def sysNum (r : NodeRec) : Nat := field r.l 23 0
def sysMgmt (r : NodeRec) : Bool := bit r.l 24

/-- SYSRD (R390). -/
def execSysrd (r : NodeRec) (s : State) : Out :=
  s.fire 0xF0 r fun i a _ _ s =>
    let n := sysNum r + a % 2 ^ 64
    match (if sysMgmt r then s.taskWord n else s.sysReg i n) with
    | some v => (if sysMgmt r then s.markVoteRead (8 * n) else s).fireVal i 0xF0 r false v 0
    | none => s.raise i (accessTrap n)

/-- A write of GH_WAYPART by a task sets SPW alone, and only as its owner (R158, R390). -/
def State.taskWaypart (s : State) (i : Issue) (n v : Nat) : Option State :=
  if n < 0x1400 ∨ 0x143F < n then none else
  let slice := n - 0x1400
  let p := s.mem.wp slice
  if p.taskWr ∧ p.spasid.toNat = s.issAsid i then some (s.setMem (s.mem.setWaypart slice (v % 32) p.spasid.toNat p.taskWr false)) else none

/-- SYSWR performs (R390). -/
def State.performSyswr (h : HeldOp) (r : NodeRec) (s : State) : State :=
  let s := s.doneHeld h
  let v := valOf h.iss.f.a % 2 ^ 64
  match (if sysMgmt r then s.taskWaypart h.iss (sysNum r) v else s.setSysReg h.iss (sysNum r) v) with
  | some s => s.reply h.iss r .done
  | none => s.raise h.iss (accessTrap (sysNum r))

/-- SYSWR (R390). -/
def execSyswr (r : NodeRec) (s : State) : Out := s.fireHeld 0xF1 (.syswr r) r fun h s => s.performSyswr h r

/-- TRAP: it raises USER (R389). -/
def execTrap (r : NodeRec) (s : State) : Out :=
  s.fire 0xF2 r fun i a _ _ s =>
    s.raise i { code := trapUser, info := BitVec.ofNat 64 r.l, addr := BitVec.ofNat 64 a }
/-- BKPT: it raises BREAKPOINT (R389). -/
def execBkpt (r : NodeRec) (s : State) : Out :=
  s.fire 0xF4 r fun i a _ _ s =>
    s.raise i { code := trapBreakpoint, info := BitVec.ofNat 64 r.l, addr := BitVec.ofNat 64 a }

/-- A refusal whose register number the spec does not give: INFO is a free value (R218). -/
def State.raiseAccess (s : State) (i : Issue) : State :=
  let (v, s) := s.free
  s.raise i (accessTrap (v.toNat % 2 ^ 64))

/-- ERET: refused outside a handler; otherwise it returns when its activation commits (R216, R393). -/
def execEret (r : NodeRec) (s : State) : Out :=
  s.fireAcct 0xF3 r skip fun i _ s =>
    if ((s.thread? (s.threadOf i.f.aid)).map (·.inh)).getD false then s.nameBranch i .eret (s.stackOf i) else s.raiseAccess i

/-- HALT: the task ends when its activation commits (R393). -/
def execHalt (r : NodeRec) (s : State) : Out :=
  s.fireAcct 0xF7 r skip fun i _ s => s.nameBranch i (.halt (BitVec.ofNat 32 r.l)) (s.stackOf i)

/-- TIME: fabric cycles since reset in 48 bits, or package time in microseconds (R393). -/
def execTime (r : NodeRec) (s : State) : Out :=
  s.fire 0xF5 r fun i _ _ _ s => s.fireVal i 0xF5 r false (if r.t then s.us % 2 ^ 64 else s.cycles % 2 ^ 48) 0

/-- TAPSET performs: a tap of the task's own ASID (R234, R393). -/
def State.performTapset (h : HeldOp) (r : NodeRec) (s : State) : State :=
  let s := s.doneHeld h
  let v := valOf h.iss.f.a % 2 ^ 33
  if field v 31 24 ≠ s.issAsid h.iss then s.raiseAccess h.iss
  else ({ s with tap := { s.tap with sel := Tab.set s.tap.sel (r.l % 8) (BitVec.ofNat 64 v) } }).reply h.iss r .done

/-- TAPSET (R393). -/
def execTapset (r : NodeRec) (s : State) : Out := s.fireHeld 0xF6 (.tapset r) r fun h s => s.performTapset h r

end Sys2Proof.Machine
end

