-- ==== Sys2Proof/Machine/Streams.lean ====
section
/-! DEFINITION. Stream ports and their bindings (R352 to R358). -/
namespace Sys2Proof.Machine

/-! ### The stream table (R352, R153) -/

def spWrite (x : Nat) : Bool := bit x 0
def spTagged (x : Nat) : Bool := bit x 1
def spFmta (x : Nat) : Nat := field x 5 2
def spGeom (x : Nat) : Nat := field x 8 6
def spStamp (x : Nat) : Nat := field x 10 9
def spClose (x : Nat) : Bool := bit x 11
def spArray (x : Nat) : Bool := bit x 12
def spDst (x : Nat) : Dest := (Dest.ofCode (field x 46 27)).getD .none
def spRt (x : Nat) : Nat := field x 54 47
def spTsw (x : Nat) : Nat := field x 67 64
def spTslen (x : Nat) : Nat := field x 99 68

/-- Key of a port's FIFO. DESIGN CHOICE (log entry 65). -/
def fifoKey (tid c port : Nat) : Nat := (tid * 4 + c) * 256 + port
def State.fifo (s : State) (k : Nat) : List (List Byte × Bool × Nat) := Tab.getD s.eng.fifo k []

/-- Positions of a binding that the router, or an array, has not taken from the FIFO yet (R153). -/
def State.inFifo (s : State) (b : Binding) : Nat :=
  ((s.fifo (fifoKey b.tid b.ctx b.port)).filter fun y => y.2.2 == b.bid).length
    + (s.fab.net.filter fun f => f.bid == some b.bid && !f.tok.front).length

/-! ### Bindings (R353, R354) -/

def State.binding? (s : State) (bid : Nat) : Option Binding := s.eng.bindings.find? fun b => b.bid == bid
def State.setBinding (s : State) (b : Binding) : State :=
  s.setEng { s.eng with bindings := s.eng.bindings.map fun x => if x.bid = b.bid then b else x }
/-- A binding is gone, and a waiting SBIND takes its place (R353, R358). A token that waited for its writes leaves (R182).
DEDUCED (log entry 51). -/
def State.dropBinding (s : State) (b : Binding) : State :=
  let s := s.setLnk { s.lnk with fetches := s.lnk.fetches.filter fun f =>
    match f.reader with
    | .stream bid _ => bid != b.bid
    | _ => true }
  let s := (s.setEng { s.eng with bindings := s.eng.bindings.filter fun x => x.bid != b.bid }).openBindings
  match b.owed with
  | some (i, ins) => s.reply i (Instr.record ins) .done
  | none => s
/-- Writes of a binding to a peer that are not answered yet (R357). -/
def State.bindingOwes (s : State) (b : Binding) : Bool := s.lnk.reqs.any fun q => q.kind == .write && q.acc == some b.bid

/-- Position the binding ends at: the last of the pattern, or of what a released or faulted one still delivers or writes (R357, R358). -/
def Binding.limit (b : Binding) : Nat :=
  if b.write then (if b.released || b.faulted then b.next + b.inputs.length else b.total) else b.stop.getD b.total
/-- Positions of a read binding that have been asked for, from 0 on: requests go out in the order of the positions (R353). -/
def State.issuedTo (s : State) (b : Binding) : Nat :=
  s.lnk.fetches.foldl (fun m f =>
    match f.reader with
    | .stream bid pos => if bid = b.bid then max m (pos + 1) else m
    | _ => m) (b.got.foldl (fun m g => max m (g.1 + 1)) b.next)

/-- Position `n` in digits of the bases COUNT0 to COUNT3 (R354). -/
def digits (n : Nat) : List Nat → List Nat
  | [] => []
  | c :: r => n % c :: digits (n / c) r

/-- Granule address of position `n` of an affine binding, or of index unit `x` of an indexed one (R354). -/
def Binding.affine (b : Binding) (n : Nat) : Nat :=
  let d := digits n b.counts
  let at_ := fun (k : Nat) => ((d.getD k 0 : Nat) : Int) * b.strides.getD (k - 1) 0
  wrap 64 ((b.base : Int) + 64 * (d.getD 0 0 : Nat) + at_ 1 + at_ 2 + at_ 3)
def Binding.indexedAt (b : Binding) (n x : Nat) : Nat :=
  wrap 64 ((b.base : Int) + b.strides.getD 0 0 * (x : Nat) + 64 * (n % b.counts.getD 0 1 : Nat))

/-- Read bytes of one aligned 16-byte part through a memory port as a plain load at PACKAGE scope, for a position of a binding. -/
def State.engineRead (s : State) (who : Reader) (port asid va n : Nat) : Rd × State :=
  if !s.walkReady port asid va false then (.waits, s) else
  match s.locateGlobal port asid va n false with
  | (.error t, s) => (.fault t, s)
  | (.ok (pl, _), s) => s.readPlace who asid pl n

/-- What looking for an address gives: it, that the time is not come, or a fault. -/
inductive Found (α : Type) where
  | ok (x : α)
  | waits
  | fault (t : Trap)

/-- Virtual address of position `n` of a binding: the address, or the fault of an index read (R354). -/
def State.granuleVa (s : State) (port asid : Nat) (b : Binding) (n : Nat) : Found Nat × State :=
  if !b.indexed then (.ok (b.affine n), s) else
  match s.engineRead (.stream b.bid n) port asid (wrap 64 ((b.idxBase : Int) + 4 * (n / b.counts.getD 0 1 : Nat))) 4 with
  | (.fault t, s) => (.fault t, s)
  | (.waits, s) => (.waits, s)
  | (.ok bs _, s) => (.ok (b.indexedAt n (Sys2Proof.ofBytes bs)), s)

/-- A typed port accepts a page of its own format and geometry only (R169). -/
def pageFits (x attr : Nat) : Bool :=
  spFmta x == 0 || attr % 16 == spFmta x && (spFmta x < 7 || 10 < spFmta x || attr / 16 == spGeom x)

/-- Place of position `n` of a binding, or its fault (R169, R357). -/
def State.granulePlace (s : State) (port asid x : Nat) (b : Binding) (n : Nat) : Found Place × State :=
  match s.granuleVa port asid b n with
  | (.fault t, s) => (.fault t, s)
  | (.waits, s) => (.waits, s)
  | (.ok va, s) =>
    if !s.walkReady port asid va b.write then (.waits, s) else
    match s.locateGlobal port asid va 64 b.write with
    | (.error t, s) => (.fault t, s)
    | (.ok (pl, attr), s) =>
      if pageFits x attr then (.ok pl, s)
      else (.fault { code := trapFmtMismatch, info := BitVec.ofNat 64 b.port, addr := BitVec.ofNat 64 va }, s)

/-- The scale bytes and the band of the row that holds the codes at `va`, where a port of a block format reads them (R169,
R199): the binding's BASE is the tensor's. -/
def scaleRanges (x base va : Nat) : List (Nat × Nat) :=
  match blockFmt (spFmta x) with
  | none => []
  | some f =>
    let l := rowLen (spGeom x)
    let off := wrap 64 ((va : Int) - base)
    let g := base + off / f.group l * f.group l
    let q := off % f.group l / f.rowBytes l % 64
    let band := if f.nb then [(g + 64 * f.rowBytes l + 8 * l, 2)] else []
    ((g + 64 * f.rowBytes l + q * (l / f.k), l / f.k) :: band).flatMap fun (a, n) => cut16 a n (n / 16 + 2)

/-- Read those bytes, checking every page; all that a peer holds is asked for at once. -/
def State.readScales (s : State) (who : Reader) (port asid x n : Nat) : List (Nat × Nat) → Rd × State
  | [] => (.ok [] none, s)
  | (a, k) :: rest =>
    if !s.walkReady port asid a false then (.waits, s) else
    match s.locateGlobal port asid a k false with
    | (.error t, s) => (.fault t, s)
    | (.ok (_, attr), s) =>
      if !pageFits x attr then (.fault { code := trapFmtMismatch, info := BitVec.ofNat 64 n, addr := BitVec.ofNat 64 a }, s) else
      match s.engineRead who port asid a k with
      | (.fault t, s) => (.fault t, s)
      | (.waits, s) =>
        match State.readScales s who port asid x n rest with
        | (.fault t, s) => (.fault t, s)
        | (_, s) => (.waits, s)
      | (.ok bs p, s) =>
        match State.readScales s who port asid x n rest with
        | (.ok r q, s) => (.ok (bs ++ r) (joinSrc p q), s)
        | (y, s) => (y, s)

/-- What goes with the granule of position `n`: nothing but for a block format. -/
def State.granuleScales (s : State) (port asid x : Nat) (b : Binding) (n : Nat) : Rd × State :=
  if b.write then (.ok [] none, s) else
  match s.granuleVa port asid b n with
  | (.fault t, s) => (.fault t, s)
  | (.waits, s) => (.waits, s)
  | (.ok va, s) => s.readScales (.stream b.bid n) port asid x b.port (scaleRanges x b.base va)

/-- The fault of position `n` of a binding, if it has one (R357). -/
def State.granuleFault (s : State) (t : Task) (x : Nat) (b : Binding) (n : Nat) : Option Trap × State :=
  let port := s.memPort (t.elem (spFx x) (spFy x))
  match s.granulePlace port t.asid x b n with
  | (.fault f, s) => (some f, s)
  | (.waits, s) => (none, s)
  | (.ok _, s) =>
    match s.granuleScales port t.asid x b n with
    | (.fault f, s) => (some f, s)
    | (_, s) => (none, s)

/-! ### SBIND, SREL, SPOS -/

/-- The descriptor's checks of R354: every COUNT, alignments, fields that are zero. -/
def descOk (d : List Byte) (indexed : Bool) : Bool :=
  let w := fun (off n : Nat) => bytesAt d off n
  let counts := (List.range 4).all fun k => w (8 + 4 * k) 4 != 0
  counts && w 0 8 % 64 == 0 && w 24 8 % 64 == 0 && w 48 8 % 8 == 0 &&
    (if indexed then w 16 4 == 1 && w 20 4 == 1 && w 32 8 % 4 == 0 && w 40 8 == 0
     else w 32 8 % 64 == 0 && w 40 8 % 64 == 0)

/-- The binding that a descriptor makes (R354). DEDUCED (log entry 51). -/
def descBinding (d : List Byte) (indexed : Bool) (bid tid aid c port : Nat) (write : Bool) (tell owed : Option (Issue × Instr)) : Binding :=
  let w := fun (off n : Nat) => bytesAt d off n
  { bid := bid, tid := tid, aid := aid, ctx := c, port := port, write := write, indexed := indexed, base := w 0 8,
    counts := (List.range 4).map fun k => w (8 + 4 * k) 4,
    strides := if indexed then [signed 64 (w 24 8)] else [signed 64 (w 24 8), signed 64 (w 32 8), signed 64 (w 40 8)],
    idxBase := w 32 8, flag := w 48 8, flagVal := w 56 4, t0 := w 60 4, next := 0, got := [], inputs := [], faulted := false,
    released := false, tell := tell, owed := owed }

/-- Translate an address for a write without performing it: the fault, if any (R354, R359, R362). -/
def State.probeWrite (s : State) (i : Issue) (va n : Nat) : Option Trap × State :=
  match s.locateGlobal (s.memPort i.elem) (s.issAsid i) va n true with
  | (.error t, s) => (some t, s)
  | (.ok _, s) => (none, s)

/-- SBIND with its descriptor read (R353, R354). -/
def State.bind (s : State) (i : Issue) (r : NodeRec) (a : Nat) (d : List Byte) : State :=
  let port := field r.l 7 0
  let indexed := bit r.l 8
  match s.issTask i with
  | none => s
  | some (tid, _) =>
    match s.streamPort tid i.ctx port with
    | none => s
    | some (_, _, x) =>
      if !descOk d indexed then s.raise i (sizeTrap trapAlign 64 a) else
      let flag := bytesAt d 48 8
      match (if flag = 0 then (none, s) else s.probeWrite i flag 8) with
      | (some t, s) => s.raise i t
      | (none, s) =>
        let owed := if spWrite x && s.wiredTo i r 1 then some (i, .sbind r) else none
        let b := descBinding d indexed s.fresh tid i.f.aid i.ctx port (spWrite x) (some (i, .sbind r)) owed
        ({ s with fresh := s.fresh + 1 }.setEng { s.eng with bindings := s.eng.bindings ++ [b] }).openBindings

/-- SBIND reads its descriptor, once its flag's translation need not wait (R161, R163, R354). DEDUCED (log entry 51). -/
def State.performSbind (h : HeldOp) (r : NodeRec) (s : State) : State :=
  let a := valOf h.iss.f.a
  match s.loadOwn h a 64 with
  | (.waits, s) => s
  | (.fault t, s) => (s.dropHeld h.id).raise h.iss t
  | (.ok d p, s) =>
    match p with
    | some src => (s.dropHeld h.id).raise h.iss { poisonTrap h.iss.f (0, src) with addr := BitVec.ofNat 64 a }
    | none =>
      let flag := bytesAt d 48 8
      if flag ≠ 0 ∧ !s.walkNow h.iss flag true then s else (s.dropHeld h.id).bind h.iss r a d
/-- SBIND (R353, R354): the descriptor is read as it issues, where thread order lets it. DEDUCED (log entry 51). -/
def execSbind (r : NodeRec) (s : State) : Out := s.fire 0xC0 r fun i _ _ _ s => s.startRead i (.sbind r) fun h s => s.performSbind h r

/-- The binding ends: everything read or written, its flag is written; everything delivered out of the FIFO or written, it is gone (R353,
R357). A write to a peer has performed once it is answered. A faulted binding writes no flag, nor one released before the cycle of its last
position (R358, R370). DEDUCED (log entry 51). -/
def State.endBinding (s : State) (b : Binding) : State :=
  let done := b.next + (if b.write then 0 else
    (List.range b.got.length).foldl (fun k _ => if b.got.any (fun g => g.1 == b.next + k) then k + 1 else k) 0)
  let whole := decide (b.total ≤ done) && (!b.released || b.relAt == s.cycles) && !b.faulted
  if s.bindingOwes b || whole && b.flag != 0 && !s.mayWriteVa (((s.task? b.tid).map (·.asid)).getD 0) b.flag 8 then s else
  let (b, s) :=
    if whole && b.flag != 0 then
      ({ b with flag := 0 }, (s.writeVa (((s.task? b.tid).map (·.asid)).getD 0) b.flag (bytesOf 8 b.flagVal) false).2)
    else (b, s)
  let s := s.setBinding b
  if b.limit ≤ b.next ∧ s.inFifo b = 0 ∧ b.tell = none then s.dropBinding b else s

/-- End the binding of a number, as it stands. -/
def State.endId (s : State) (bid : Nat) : State :=
  match s.binding? bid with
  | some b => s.endBinding b
  | none => s

/-- A binding is released (R358). -/
def State.released (s : State) (b : Binding) : Binding :=
  if b.released then b else
  { b with released := true, relAt := s.cycles, stop := if b.write then none else some (min b.limit (s.issuedTo b)) }
/-- SREL: the bindings of its own activation on the port are released; one that has met its end ends first (R358, R370).
DEDUCED (log entry 51). -/
def execSrel (r : NodeRec) (s : State) : Out :=
  s.fire 0xC1 r fun i _ _ _ s =>
    let mine := fun (b : Binding) => b.aid == i.f.aid && b.ctx == i.ctx && b.port == field r.l 7 0
    let s := (s.eng.bindings.filter mine).foldl (fun s b => s.endId b.bid) s
    let s := s.setEng { s.eng with bindings := s.eng.bindings.map fun b => if mine b then s.released b else b }
    let s := (s.eng.bindings.filter mine).foldl (fun s b => s.endId b.bid) s.openBindings
    s.reply i r .done

/-- The position that SPOS reports and a checkpoint saves: first not consumed, or first not written (R89, R358). -/
def State.bindingPos (s : State) (b : Binding) : Nat :=
  if b.write then b.next else b.next - s.inFifo b

/-- SPOS: of the oldest binding of its activation that is not released (R358). -/
def execSpos (r : NodeRec) (s : State) : Out :=
  s.fire 0xC2 r fun i _ _ _ s =>
    match s.eng.bindings.find? fun b => b.aid == i.f.aid && b.ctx == i.ctx && b.port == field r.l 7 0 && b.tell.isNone && !b.released with
    | some b => s.reply i r (.scalar (s.bindingPos b))
    | none => s.reply i r (.scalar 0xFFFFFFFFFFFFFFFF)

/-! ### Tokens of a read binding (R355, R356) -/

def clampHi (x : Nat) : Nat := min x 0xFFFFFFFE
/-- The interval of position `n` (R355). -/
def stampOf (x t0 n : Nat) (d : List Byte) : Nat × Nat :=
  if spStamp x = 0 then
    let lo := t0 + n / (if spRt x = 0 then 1 else spRt x)
    (clampHi lo, clampHi (lo + 1))
  else
    let w := bytesAt d (4 * spTsw x) 4
    (w, if spTslen x = 0 then infTick else clampHi (w + spTslen x))

/-- Send a token of a read binding to the destination of its port: it enters the FIFO (R153, R352, R353). DEDUCED (log entry 51). -/
def State.streamSend (s : State) (k : Binding) (iter : Nat) (t : Task) (x : Nat) (b : Beat) : State :=
  let e := t.elem (spFx x) (spFy x)
  match s.destElem e k.ctx (spDst x) with
  | none => s
  | some (target, n, p) => s.launchTok e target (streamSrc k.tid k.ctx k.port) b iter k.ctx n p (some k.bid)

/-- Earlier bindings of an ordered port have delivered their last token (R356). -/
def State.turnOfBinding (s : State) (b : Binding) (x : Nat) : Bool :=
  spTagged x || (s.eng.bindings.takeWhile fun y => y.bid != b.bid).all fun y =>
    y.tid != b.tid || y.ctx != b.ctx || y.port != b.port || decide (y.limit ≤ y.next)

/-- Deliver the positions that have returned, in order, while the FIFO has room (R153, R356); `n` at most. -/
def State.deliver (s : State) (bid : Nat) : Nat → State
  | 0 => s
  | n + 1 =>
    match s.binding? bid with
    | none => s
    | some b =>
      match s.streamPort b.tid b.ctx b.port, b.got.find? fun g => g.1 == b.next with
      | some (t, pl, x), some (_, d, pois, src) =>
        let e := t.elem (spFx x) (spFy x)
        let iter := ((s.act? b.aid).map (·.iter)).getD 0
        let k := fifoKey b.tid b.ctx b.port
        let used := if spArray x then (s.fifo k).length
          else (s.fab.net.filter fun f => f.at_ == e && f.dir == 0 && f.tok.src == streamSrc b.tid b.ctx b.port).length
        if !s.turnOfBinding b x || decide (fifoShare pl (s.extent e b.ctx / 64) b.port ≤ used) then s else
        let s := s.setBinding { b with next := b.next + 1, got := b.got.filter fun g => g.1 != b.next }
        let s :=
          if spArray x then s.setEng { s.eng with fifo := Tab.set s.eng.fifo k (s.fifo k ++ [(d, pois, bid)]) }
          else
            let (lo, hi) := stampOf x b.t0 b.next d
            let p := Pay.ofBytes true d
            let s := s.streamSend b iter t x (.both (if pois then p.poisoned src else p) lo hi)
            if spClose x && decide (b.next + 1 = b.total) && (!b.released || b.front) && !b.faulted then
              s.streamSend b iter t x (.frontier infTick)
            else s
        State.deliver s bid n
      | _, _ => s

/-- The port has a place for position `pos` of a read binding (R353, R356). A port has at most 64 requests out: those of its bindings that
have not returned, which go in the order of their positions. The returns of an ordered port pass through its reorder buffer of 64 entries, in
the order in which it delivers them. DEDUCED (log entry 51). -/
def State.portPlace (s : State) (b : Binding) (x pos : Nat) : Bool :=
  let mine := s.eng.bindings.filter fun y => y.tid == b.tid && y.ctx == b.ctx && y.port == b.port && y.tell.isNone
  let out := fun (y : Binding) => (if y.bid = b.bid then max (s.issuedTo y) (pos + 1) else s.issuedTo y) - y.next - y.got.length
  let before := ((mine.takeWhile fun y => y.bid != b.bid).map fun y => y.limit - y.next).sum
  decide ((mine.map out).sum ≤ 64) && (spTagged x || decide (before + (pos - b.next) < 64))
/-- The granule of position `pos` returns (R353, R355): where the port has a place for it, past no fault, of a released binding only what
was issued before (R358, R370), and while no cut is in progress (R86). -/
def State.granuleReturn (s : State) (b : Binding) (pos : Nat) (ecc : Bool) : State :=
  match s.streamPort b.tid b.ctx b.port with
  | none => s
  | some (t, _, x) =>
    if (s.cutOf b.tid).isSome || b.write || b.tell.isSome || b.faulted || pos < b.next || b.total ≤ pos
        || b.limit ≤ pos && b.relAt != s.cycles || b.got.any (fun g => g.1 == pos) || !s.portPlace b x pos then s
    else
      let b := { b with stop := b.stop.map fun k => max k (pos + 1) }
      let e := t.elem (spFx x) (spFy x)
      match s.granulePlace (s.memPort e) t.asid x b pos with
      | (.fault _, s) => s
      | (.waits, s) => s
      | (.ok pl, s) =>
        match s.granuleScales (s.memPort e) t.asid x b pos with
        | (.fault _, s) => s
        | (.waits, s) => (s.readPlace (.stream b.bid pos) t.asid pl 64).2
        | (.ok more q, s) =>
          match s.readPlace (.stream b.bid pos) t.asid pl 64 with
          | (.ok d p, s) =>
            let src := if ecc ∧ pl.kind ≠ .domain then some 1 else joinSrc p q
            (s.dropFetches (.stream b.bid pos)).setBinding { b with got := b.got ++ [(pos, d ++ more, src.isSome, src.getD 0)] }
          | (_, s) => s

/-- STREAM_GRANULE_RETURN: a granule returns, and what may leave is delivered (R353 to R356). -/
def execStreamGranuleReturn (s : State) : Out :=
  match s.inp with
  | some (.streamGranuleReturn bid pos ecc) =>
    let s := { s with inp := none }
    match s.binding? bid with
    | none => .next s
    | some b =>
      let s := s.granuleReturn b pos ecc
      .next (s.deliver bid (b.got.length + 1))
  | _ => .next s

/-! ### Write bindings (R355) -/

/-- Write a token's bytes at the granule of the binding's next position. -/
def State.granuleWrite (s : State) (b : Binding) : State :=
  match s.streamPort b.tid b.ctx b.port, b.inputs with
  | some (t, _, x), tok :: rest =>
    if (s.cutOf b.tid).isSome || !b.write || b.faulted then s else
    let e := t.elem (spFx x) (spFy x)
    match s.granulePlace (s.memPort e) t.asid x b b.next with
    | (.fault _, s) => s
    | (.waits, s) => s
    | (.ok pl, s) =>
      let d := bytesOf 64 tok.pay.val.toNat
      let done := fun (s : State) => (s.dropFetches (.stream b.bid b.next)).setBinding { b with next := b.next + 1, inputs := rest }
      if pl.kind = .domain then
        if s.lnk.ownRing pl.addr then done s.badRing
        else if s.lnk.cutOff pl.addr then done { s with lnk := s.lnk.logDrop false (peerOf pl.addr) t.asid pl.addr .write }
        else done (s.sendReq .write pl.addr 64 d (some b.bid) t.asid (marks := List.replicate 4 tok.pay.pois))
      else if !s.rowFree pl.addr || !s.mayStampAt (e / 4096) pl.kind pl.addr then s
      else
        let s := s.writeAt pl.kind pl.addr d tok.pay.pois
        done (s.setMem (s.mem.stampWrite (e / 4096) pl.kind pl.addr 64))
  | _, _ => s

/-- STREAM_GRANULE_WRITE (R355). -/
def execStreamGranuleWrite (s : State) : Out :=
  match s.inp with
  | some (.streamGranuleWrite bid) =>
    let s := { s with inp := none }
    match s.binding? bid with
    | none => .next s
    | some b => .next (s.granuleWrite b)
  | _ => .next s

/-- STREAM_BINDING_END (R353, R357). -/
def execStreamBindingEnd (s : State) : Out :=
  match s.inp with
  | some (.streamBindingEnd bid) =>
    let s := { s with inp := none }
    match s.binding? bid with
    | none => .next s
    | some b => .next (s.endBinding b)
  | _ => .next s

/-! ### Faults of a stream (R169, R357, R361) -/

/-- Record a failure of a task in XC_ERR; a later one is not recorded while VALID is set (R361). -/
def State.xcError (s : State) (tid code done : Nat) : State :=
  s.updTask tid fun t => if bit t.xcErr.toNat 0 then t else { t with xcErr := BitVec.ofNat 64 (1 + 2 * code + 2 ^ 16 * done) }

/-- STREAM_FAULT: the next position faults, every earlier one being delivered or written: the binding stops there, and the
fault waits for the port's next user (R357). UNVERIFIED (log entry 86). -/
def State.streamFault (s : State) (b : Binding) : State :=
  match s.streamPort b.tid b.ctx b.port with
  | none => s
  | some (t, _, x) =>
    let pos := b.next
    if b.faulted || b.released && decide (b.limit ≤ pos) || b.tell.isSome || decide (b.total ≤ pos) || b.write && b.inputs.isEmpty || b.got.any (fun g => g.1 == pos) then s
    else
    match s.granuleFault t x b pos with
    | (none, s) => s
    | (some f, s) =>
      let s := s.setBinding { b with faulted := true, stop := some pos, inputs := [], got := [] }
      let flt : StreamFlt := { tid := b.tid, ctx := b.ctx, port := b.port, code := f.code, addr := f.addr, info := f.info }
      let s := s.setEng { s.eng with faults := s.eng.faults ++ [flt] }
      let s := s.xcError b.tid f.code (64 * pos)
      match s.binding? b.bid with
      | some b => s.endBinding b
      | none => s

/-- STREAM_FAULT. UNVERIFIED (log entry 86). -/
def execStreamFault (s : State) : Out :=
  match s.inp with
  | some (.streamFault bid) =>
    let s := { s with inp := none }
    match s.binding? bid with
    | none => .next s
    | some b => .next (s.streamFault b)
  | _ => .next s

/-- Whether a firing of a node is a use of a stream port (R357). DEDUCED (log entry 51). -/
def State.usesPort (s : State) (i : Issue) (opc : Nat) (r : NodeRec) (f : StreamFlt) : Bool :=
  match s.streamPort f.tid f.ctx f.port with
  | none => false
  | some (t, _, x) =>
    i.ctx == f.ctx && (s.issTask i).map (·.1) == some f.tid &&
      (if spWrite x then [r.dst0, r.dst1].any fun d =>
          match d with
          | .port k => k.toNat == f.port
          | _ => false
       else if spArray x then (opc == 0xD0 || opc == 0xD1) && field r.l 7 0 == f.port
       else ((s.destElem (t.elem (spFx x) (spFy x)) f.ctx (spDst x)).map fun y => (y.1, y.2.1)) == some (i.elem, i.f.node))

/-- The issuing firing uses a port whose stream has faulted: the fault is raised at its activation, and the firing performs
nothing (R169, R357). DEDUCED (log entry 51). -/
def State.raiseStream (s : State) (i : Issue) (opc : Nat) (r : NodeRec) : Option State :=
  (s.eng.faults.find? fun f => s.usesPort i opc r f).map fun f =>
    let s := s.setEng { s.eng with faults := s.eng.faults.filter fun g => g != f }
    s.raise i { code := f.code, info := f.info, addr := f.addr }

end Sys2Proof.Machine
end

