-- ==== Sys2Proof/Machine/Copies.lean ====
section
/-! DEFINITION. The copy engines (R183, R184, R359 to R361) and the near-memory adders (R165, R166, R362). -/
namespace Sys2Proof.Machine

/-- Record that an activation's writing form of an engine has performed (R191). DEDUCED (log entry 37). -/
def State.noteDone (s : State) (i : Issue) (lsid : Nat) (p : Pay) : State :=
  s.updAct i.f.aid fun a =>
    { a with performed := a.performed ++ [{ lsid := lsid, elem := i.elem, node := i.f.node, result := p, kind := .global, parts := [] }] }
/-- A writing held form issues: accounted for, and not performed again where the record has it (R191, R336). -/
def State.fireWriting (s : State) (opc : Nat) (ins : Instr) (r : NodeRec) (perform : HeldOp → State → State) : Out :=
  s.fireMem opc r fun i _ _ _ s =>
    match s.performedBy i r.x with
    | some p => s.replyPerformed i ins r p
    | none => s.startHeld i ins perform
/-- A trap of an engine form, with the node's LSID (R371). -/
def State.raiseHeld (s : State) (h : HeldOp) (t : Trap) : State :=
  (s.doneHeld h).raise h.iss { t with lsid := (Instr.record h.instr).x }

/-! ### XCOPY (R359) -/

/-- Where a granule of a copy lies. -/
inductive CopyPlace where
  | at_ (p : Place)
  | host (bus : Nat)
  | waits
  deriving DecidableEq, Repr

/-- The place of a copy's 64 bytes in a space: a copy accepted before a transition keeps the old range through DRAIN (R159), and a page walk
waits as any other (R161, R163). -/
def State.copyPlace (s : State) (c : Copy) (space addr : Nat) (write : Bool) : Except Trap CopyPlace × State :=
  if space = 0 then
    if !s.walkReady (s.memPort c.elem) c.asid addr write then (.ok .waits, s) else
    match s.locateGlobal (s.memPort c.elem) c.asid addr 64 write with
    | (.error t, s) => (.error t, s)
    | (.ok (p, _), s) => (.ok (.at_ p), s)
  else if space = 1 then
    match s.task? c.tid with
    | none => (.error (sizeTrap trapBufRange 64 addr), s)
    | some t => ((s.bufferPlace t c.ctx addr 64).map .at_, s)
  else if space = 2 then
    let off := field addr 23 0
    let p := s.mem.wp (field addr 29 24)
    let here : CopyPlace := .at_ { kind := .scratch, addr := field addr 29 24 * 2 ^ 24 + off }
    if 2 ^ 30 ≤ addr then (.error (sizeTrap trapSpRange 64 addr), s)
    else if p.phase = 1 ∧ p.spasid.toNat = c.asid ∧ off < mib p.spw.toNat then (.ok here, s)
    else
      match p.say c.asid off with
      | .proceed => (.ok here, s)
      | .waits => (.ok .waits, s)
      | .range => (.error (sizeTrap trapSpRange 64 addr), s)
  else (.ok (.host addr), s)

/-- The copy that a descriptor asks for (R359). -/
def descCopy (d : List Byte) (cid tid : Nat) (i : Issue) (asid : Nat) (tell : Option Issue) (ins : Instr) : Copy :=
  let w := fun (off n : Nat) => bytesAt d off n
  { cid := cid, tid := tid, elem := i.elem, ctx := i.ctx, asid := asid, src := w 0 8, dst := w 8 8, len := w 16 8, cw := w 24 8,
    cval := BitVec.ofNat 64 (w 32 8), sspace := field (w 40 1) 1 0, dspace := field (w 40 1) 3 2, cwHost := bit (w 40 1) 4, fetched := [],
    rd := 0, next := 0, tell := tell, instr := ins, done := false, stop := none }

/-- A copy names the range that a scratchpad transition removes (R159). -/
def State.namesRemoved (s : State) (c : Copy) : Option Nat :=
  let bad := fun (space addr : Nat) => space == 2 && (List.range 64).any fun slice => (s.mem.wp slice).removes c.asid slice addr c.len
  if bad c.sspace c.src then some c.src else if bad c.dspace c.dst then some c.dst else none

/-- The copies a quarter's engine holds, in the order of acceptance. -/
def State.copiesOf (s : State) (q : Nat) : List Copy := s.eng.copies.filter fun c => c.elem / 4096 == q && !c.done

/-- XCOPY with its descriptor read: checked, then accepted (R359). DEDUCED (log entry 52). -/
def State.acceptCopy (s : State) (h : HeldOp) (r : NodeRec) (a : Nat) (d : List Byte) : State :=
  match s.issTask h.iss with
  | none => s.doneHeld h
  | some (tid, t) =>
    let tell := if s.wiredTo h.iss r 1 then some h.iss else none
    let c := descCopy d s.fresh tid h.iss t.asid tell h.instr
    if c.src % 64 ≠ 0 ∨ c.dst % 64 ≠ 0 ∨ c.len % 64 ≠ 0 ∨ 2 ^ 40 < c.len ∨ c.cw % 8 ≠ 0 then s.raiseHeld h (sizeTrap trapAlign 64 a) else
    if c.cw ≠ 0 ∧ !c.cwHost ∧ !s.walkNow h.iss c.cw true then s else
    match (if c.cw = 0 ∨ c.cwHost then (none, s) else s.probeWrite h.iss c.cw 8) with
    | (some x, s) => s.raiseHeld h x
    | (none, s) =>
      match s.namesRemoved c with
      | some addr => s.raiseHeld h (sizeTrap trapSpRange 64 addr)
      | none =>
        let s := { s with fresh := s.fresh + 1 }.setEng { s.eng with copies := s.eng.copies ++ [c] }
        let s := (s.doneHeld h).noteDone h.iss r.x .done
        if tell.isSome then s else s.reply h.iss r .done

/-- XCOPY performs: with 64 copies queued in its quarter it goes on waiting (R359). -/
def State.performXcopy (h : HeldOp) (r : NodeRec) (s : State) : State :=
  if 64 ≤ (s.copiesOf (h.iss.elem / 4096)).length then s else
  let a := valOf h.iss.f.a % 2 ^ 64
  match s.loadOwn h a 64 with
  | (.waits, s) => s
  | (.fault t, s) => s.raiseHeld h t
  | (.ok d p, s) =>
    match p with
    | some src => s.raiseHeld h { poisonTrap h.iss.f (0, src) with addr := BitVec.ofNat 64 a }
    | none => s.acceptCopy h r a d

/-- XCOPY (R359). -/
def execXcopy (r : NodeRec) (s : State) : Out := s.fireWriting 0xC3 (.xcopy r) r fun h s => s.performXcopy h r

/-! ### The copy engine (R183, R184, R360, R361) -/

def State.copy? (s : State) (cid : Nat) : Option Copy := s.eng.copies.find? fun c => c.cid == cid
def State.setCopy (s : State) (c : Copy) : State :=
  s.setEng { s.eng with copies := s.eng.copies.map fun x => if x.cid = c.cid then c else x }
/-- One of the eight copies that an engine runs at once (R359). DEDUCED (log entry 52). -/
def State.runs (s : State) (c : Copy) : Bool := ((s.copiesOf (c.elem / 4096)).take 8).any fun x => x.cid == c.cid

/-- Poison marks of the four parts of a granule. -/
def marksOf (t : Tab Bool) (a : Nat) : List Bool := (List.range 4).map fun k => Tab.getD t (a / 16 + k) false

/-- Read a granule with its marks at the place that holds it (R183). DEDUCED (log entry 42). -/
def State.readGranule (s : State) (k : PlaceKind) (a : Nat) : List Byte × List Bool × State :=
  (List.range 4).foldl (fun (bs, ms, s) j =>
    let (b, p, s) := s.readAt k (a + 16 * j) 16
    (bs ++ b, ms ++ [p], s)) ([], [], s)
/-- Write a granule with its marks. DEDUCED (log entry 42). -/
def State.writeGranule (s : State) (k : PlaceKind) (a : Nat) (bs : List Byte) (ms : List Bool) : State :=
  (List.range 4).foldl (fun s j => s.writeAt k (a + 16 * j) ((bs.drop (16 * j)).take 16) (ms.getD j false)) s

/-- A read of host memory: its bytes, and whether it comes back poisoned, which is reported (R44). -/
def State.hostRead (s : State) (a n : Nat) : List Byte × Bool × State :=
  let p := anyPois s.mem.hostPois a n
  (readCells s.mem.host a n, p, if p then s.emitOut .poisonedTlp else s)
/-- A posted write to host memory, with its poison (R44, R184). -/
def State.hostWrite (s : State) (a : Nat) (bs : List Byte) (pois : Bool := false) : State :=
  (s.setMem { s.mem with host := writeCells s.mem.host a bs, hostPois := markPois s.mem.hostPois a bs.length pois }).emitOut (.hostWrite a bs pois)
/-- A granule's parts written to host memory, each with its mark (R228). -/
def State.hostParts (s : State) (a : Nat) (bs : List Byte) (ms : List Bool) : State :=
  if ms.any fun m => m then (List.range 4).foldl (fun s j => s.hostWrite (a + 16 * j) ((bs.drop (16 * j)).take 16) (ms.getD j false)) s
  else s.hostWrite a bs

/-- The failure of a copy at granule `k` is recorded: it stops there, and the granules before it stand (R361). -/
def State.failCopy (s : State) (c : Copy) (code k : Nat) : State :=
  let first := match c.stop with
    | some (n, _) => decide (k < n)
    | none => true
  if !first then s else
  (s.xcError c.tid code (64 * k)).setCopy { c with stop := some (k, code), fetched := c.fetched.filter fun g => g.1 < k }
/-- The granule before which a copy ends: its length, or where it failed. -/
def Copy.limit (c : Copy) : Nat :=
  match c.stop with
  | some (k, _) => min k (c.len / 64)
  | none => c.len / 64

/-- The engine reads its next source granule: at most 16 are in flight (R183, R360). A peer is asked by a request, and the granule
waits for its answer; a launch window gives zeros (R32, R33). -/
def State.copyFetch (s : State) (c : Copy) (ecc : Bool) : State :=
  if c.limit ≤ c.rd ∨ c.next + 16 ≤ c.rd then s else
  let got := fun (s : State) (x : Option (List Byte × List Bool)) => s.setCopy { c with fetched := c.fetched ++ [(c.rd, x)], rd := c.rd + 1 }
  let clean := [false, false, false, false]
  match s.copyPlace c c.sspace (c.src + 64 * c.rd) false with
  | (.error _, s) => s
  | (.ok .waits, s) => s
  | (.ok (.host bus), s) =>
    let ms := if ecc then [true, true, true, true] else marksOf s.mem.hostPois bus
    let (bs, _, s) := s.hostRead bus 64
    got s (some (bs, ms))
  | (.ok (.at_ p), s) =>
    if p.kind = .domain then
      if launchBase ≤ p.addr then got s (some (List.replicate 64 0, clean))
      else if s.lnk.cutOff p.addr then s
      else got (s.sendReq .copyRead p.addr 64 [] (some c.cid) c.asid c.rd) none
    else if p.kind = .global ∧ !s.rowFree p.addr then s
    else
      let (bs, ms, s) := s.readGranule p.kind p.addr
      got s (some (bs, if ecc then [true, true, true, true] else ms))

/-- The engine writes its next granule with its marks (R360). -/
def State.copyStore (s : State) (c : Copy) : State :=
  match c.fetched with
  | (_, some (bs, ms)) :: rest =>
    let done := fun (s : State) => s.setCopy { c with fetched := rest, next := c.next + 1 }
    match s.copyPlace c c.dspace (c.dst + 64 * c.next) true with
    | (.error _, s) => s
    | (.ok .waits, s) => s
    | (.ok (.host bus), s) => done (s.hostParts bus bs ms)
    | (.ok (.at_ p), s) =>
      if p.kind = .domain then
        if s.lnk.ownRing p.addr then done s.badRing
        else if s.lnk.cutOff p.addr then s
        else done (s.sendReq .copyWrite p.addr 64 bs (some c.cid) c.asid c.next ms)
      else if p.kind = .global ∧ !s.rowFree p.addr then s
      else done (s.writeGranule p.kind p.addr bs ms)
  | _ => s

/-- The copy has a granule that can move in a direction now. -/
def State.copyMoves (s : State) (c : Copy) (fetch : Bool) : Bool :=
  ((if fetch then s.copyFetch c false else s.copyStore c).copy? c.cid).any fun x => if fetch then x.rd != c.rd else x.next != c.next
/-- The key of an engine's turn in a direction. -/
def Copy.turnKey (c : Copy) (fetch : Bool) : Nat := c.elem / 4096 * 2 + (if fetch then 1 else 0)
/-- It is the copy's turn in a direction: the engine moves one granule a cycle there, and goes round its running copies, past those that
cannot move one (R359). DEDUCED (log entry 52). -/
def State.copyTurn (s : State) (c : Copy) (fetch : Bool) : Bool :=
  match Tab.find s.eng.copyTurn (c.turnKey fetch) with
  | none => true
  | some (last, at_) =>
    let rs := ((s.copiesOf (c.elem / 4096)).take 8).filter fun x => s.copyMoves x fetch
    at_ != s.cycles && (((rs.filter fun x => last < x.cid) ++ rs.filter fun x => x.cid ≤ last).head?.map fun x => x.cid) == some c.cid
/-- COPY_GRANULE (R183, R228, R359, R360). DEDUCED (log entry 52). -/
def execCopyGranule (s : State) : Out :=
  match s.inp with
  | some (.copyGranule cid fetch ecc) =>
    let s := { s with inp := none }
    match s.copy? cid with
    | none => .next s
    | some c =>
      if c.done || !s.runs c || !s.copyMoves c fetch || !s.copyTurn c fetch then .next s else
      let s := if fetch then s.copyFetch c ecc else s.copyStore c
      .next (s.setEng { s.eng with copyTurn := Tab.set s.eng.copyTurn (c.turnKey fetch) (cid, s.cycles) })
  | _ => .next s

/-- The copy is over, and a token that waited for it leaves (R182). -/
def State.endCopy (s : State) (c : Copy) : State :=
  let s := s.setEng { s.eng with copies := s.eng.copies.filter fun x => x.cid != c.cid }
  match c.tell with
  | some i => s.reply i (Instr.record c.instr) .done
  | none => s
/-- Requests of a copy to peers that are not answered yet (R190). -/
def State.copyOwes (s : State) (c : Copy) : Nat := (s.lnk.reqs.filter fun q => q.acc == some c.cid).length
/-- What a copy writes at its completion word: CVAL, with bit 63 set where it failed (R360, R361). -/
def Copy.final (c : Copy) : W64 := if c.stop.isSome then c.cval ||| 0x8000000000000000 else c.cval
/-- The completion word is written last of all, as a release over every write of the copy (R184, R190, R361); at a peer the copy is over
once that write is answered. -/
def State.writeCw (s : State) (c : Copy) : State :=
  if c.cw = 0 then s.endCopy c
  else if c.cwHost then (s.hostWrite c.cw (bytesOf 8 c.final.toNat)).endCopy c
  else if !s.mayWriteVa c.asid c.cw 8 then s
  else
    let s := (s.writeVa c.asid c.cw (bytesOf 8 c.final.toNat) false (some c.cid)).2
    let c := { c with done := true }
    if s.copyOwes c = 0 then s.endCopy c else s.setCopy c

/-- COPY_COMPLETE (R184, R190, R360, R361). DEDUCED (log entry 52). -/
def execCopyComplete (s : State) : Out :=
  match s.inp with
  | some (.copyComplete cid) =>
    let s := { s with inp := none }
    match s.copy? cid with
    | none => .next s
    | some c => if c.done || !s.runs c || decide (c.next < c.limit ∨ s.copyOwes c ≠ 0) then .next s else .next (s.writeCw c)
  | _ => .next s

/-- A copy meets a cut-off peer at a place (R361): a launch window gives zeros to a read, and the own ring takes every write. -/
def State.copyCut (s : State) (p : CopyPlace) (write : Bool) : Bool :=
  match p with
  | .at_ p => p.kind == .domain && (if write then !s.lnk.ownRing p.addr else decide (p.addr < launchBase)) && s.lnk.cutOff p.addr
  | _ => false

/-- COPY_FAULT: the next granule cannot be read, or cannot be written (R361). -/
def State.copyFault (s : State) (c : Copy) : State :=
  if c.done ∨ c.limit ≤ c.next then s else
  let write := !c.fetched.isEmpty
  match s.copyPlace c (if write then c.dspace else c.sspace) ((if write then c.dst else c.src) + 64 * c.next) write with
  | (.error t, s) => s.failCopy c t.code c.next
  | (.ok p, s) => if s.copyCut p write then s.failCopy c trapPoison c.next else s

/-- COPY_FAULT. -/
def execCopyFault (s : State) : Out :=
  match s.inp with
  | some (.copyFault cid) =>
    let s := { s with inp := none }
    match s.copy? cid with
    | none => .next s
    | some c => if s.runs c then .next (s.copyFault c) else .next s
  | _ => .next s

/-! ### NMRED (R165, R362) -/

def nmIdx (p k : Nat) : Nat := field p (32 * k + 31) (32 * k)
def nmDest (p : Nat) : Nat := field p 435 384
def nmOp (p : Nat) : Nat := field p 437 436
def nmCount (p : Nat) : Nat := field p 441 438
def nmTf (p : Nat) : Nat := field p 445 442
def nmFop (p : Nat) : Bool := bit p 446
def nmFlag (p : Nat) : Nat := field p 499 448
def nmFlagVal (p : Nat) : Nat := field p 511 500

/-- Bytes of a table element (R362). -/
def nmBytes (tf : Nat) : Nat := fltWidth (tf - 1) / 8

/-- The command is well formed as far as the packet says (R165, R362). -/
def nmFieldsOk (p : Nat) : Bool := nmOp p != 3 && 1 ≤ nmTf p && nmTf p ≤ 5 && 1 ≤ nmCount p && nmCount p ≤ 12

/-- Translate an address of an NMRED: the physical address, and the bytes from it to the end of its page. -/
def State.nmTranslate (s : State) (i : Issue) (va : Nat) (write : Bool) : Except Trap (Nat × Nat) × State :=
  if 2 ^ 52 ≤ va then (.error (walkTrap ⟨trapPageFault, 0⟩ va), s) else
  match s.translate (s.memPort i.elem) (s.issAsid i) va write with
  | (.error t, s) => (.error t, s)
  | (.ok t, s) => (.ok (t.pa + (va - t.va), t.va + t.size - va), s)
/-- A destination or flag: one in a domain window, whose ever, raises NM_RANGE (R362). -/
def State.nmWrite (s : State) (i : Issue) (va n : Nat) (bad : Trap) : Except Trap Nat × State :=
  match s.nmTranslate i va true with
  | (.error t, s) => (.error t, s)
  | (.ok (pa, _), s) =>
    if domainBase ≤ pa then (.error bad, s) else
    match s.placeOf pa n va with
    | .error t => (.error t, s)
    | .ok p => (.ok p.addr, s)
/-- The table's base: outside the outer stacks it raises NM_RANGE (R165). -/
def State.nmBase (s : State) (i : Issue) (va : Nat) (bad : Trap) : Except Trap (Nat × Nat) × State :=
  match s.nmTranslate i va false with
  | (.error t, s) => (.error t, s)
  | (.ok (pa, room), s) => if pa < outerBase ∨ holeBase ≤ pa then (.error bad, s) else (.ok (pa, room), s)

/-- An NMRED is checked and translated: base, destination and flag as physical addresses (R165, R362). DEDUCED (log entry 53). -/
def State.nmCheck (s : State) (i : Issue) (p base rowg : Nat) : Except Trap (Nat × Nat × Nat) × State :=
  let bad : Trap := { code := trapNmRange, info := BitVec.ofNat 64 (nmCount p), addr := BitVec.ofNat 64 base }
  if base % 64 ≠ 0 then (.error (sizeTrap trapAlign 64 base), s)
  else if nmDest p % 64 ≠ 0 then (.error (sizeTrap trapAlign 64 (nmDest p)), s)
  else if nmFlag p % 8 ≠ 0 then (.error (sizeTrap trapAlign 8 (nmFlag p)), s)
  else if !nmFieldsOk p then (.error bad, s)
  else
    match s.nmBase i base bad with
    | (.error t, s) => (.error t, s)
    | (.ok (pb, room), s) =>
      if (List.range (nmCount p)).any fun k => decide (room < 64 * rowg * (nmIdx p k + 1)) then (.error bad, s) else
      match s.nmWrite i (nmDest p) (256 * rowg / nmBytes (nmTf p)) bad with
      | (.error t, s) => (.error t, s)
      | (.ok pd, s) =>
        if nmFlag p = 0 then (.ok (pb, pd, 0), s) else
        match s.nmWrite i (nmFlag p) 8 bad with
        | (.error t, s) => (.error t, s)
        | (.ok pf, s) => (.ok (pb, pd, pf), s)

/-- NMRED performs: its command enters the queue of the stack that holds the table, or waits for room there (R165). -/
def State.performNmred (h : HeldOp) (r : NodeRec) (s : State) : State :=
  let p := valOf h.iss.f.a
  if !(s.walkNow h.iss (valOf h.iss.f.b % 2 ^ 64) false && s.walkNow h.iss (nmDest p) true && (nmFlag p == 0 || s.walkNow h.iss (nmFlag p) true))
  then s else
  match s.nmCheck h.iss p (valOf h.iss.f.b % 2 ^ 64) (field r.l 7 0) with
  | (.error t, s) => s.raiseHeld h t
  | (.ok (pb, pd, pf), s) =>
    let q := Tab.getD s.eng.nmQueue (Machine.stackOf pb) []
    if 256 + 32 ≤ q.length then s else
    let tell := if s.wiredTo h.iss r 2 then some h.iss else none
    let c : NmCmd := { num := s.fresh, tid := s.issTid h.iss, asid := s.issAsid h.iss, packet := BitVec.ofNat 512 p, base := pb, dest := pd, flag := pf,
                       rowg := field r.l 7 0, tell := tell, instr := h.instr }
    let s := { s with fresh := s.fresh + 1 }.setEng { s.eng with nmQueue := Tab.set s.eng.nmQueue (Machine.stackOf pb) (q ++ [c]) }
    let s := (s.doneHeld h).noteDone h.iss r.x .done
    if tell.isSome then s else s.reply h.iss r .done

/-- NMRED (R362). DEDUCED (log entry 53). -/
def execNmred (r : NodeRec) (s : State) : Out := s.fireWriting 0xC4 (.nmred r) r fun h s => s.performNmred h r

/-! ### The adders (R165, R166) -/

/-- A 16-byte part of the rows as read so far, row by row in index order, each with its poison (R417). -/
def NmCmd.reads (c : NmCmd) (part : Nat) : List (List Byte × Bool) := Tab.getD c.got part []
/-- The next read of a part: the same part of the next row, as the stack's DRAM holds it (R166, R417). -/
def NmCmd.read (c : NmCmd) (m : Memory) (part : Nat) (ecc : Bool) : NmCmd :=
  let k := (c.reads part).length
  if nmCount c.packet.toNat ≤ k ∨ 4 * c.rowg ≤ part then c else
  let a := c.base + 64 * c.rowg * nmIdx c.packet.toNat k + 16 * part
  { c with got := Tab.set c.got part (c.reads part ++ [(readCells m.dram a 16, Tab.getD m.dramPois (a / 16) false || ecc)]) }
/-- Every part of every row is read. -/
def NmCmd.readAll (c : NmCmd) : Bool := (List.range (4 * c.rowg)).all fun part => nmCount c.packet.toNat ≤ (c.reads part).length
/-- Element `j` of row `k` of a command's table as it was read, widened exactly. -/
def NmCmd.elem (c : NmCmd) (k j : Nat) : Nat :=
  let n := nmBytes (nmTf c.packet.toNat)
  let bs := (((c.reads (n * j / 16))[k]?).map (·.1)).getD []
  widenF32 (nmTf c.packet.toNat - 1) (Sys2Proof.ofBytes ((bs.drop (n * j % 16)).take n))
/-- One lane of the result (R165). -/
def NmCmd.lane (c : NmCmd) (j : Nat) : Nat :=
  let p := c.packet.toNat
  let n := nmCount p
  let acc := (List.range (n - 1)).foldl (fun acc k =>
    let x := c.elem (k + 1) j
    if nmOp p = 2 then (if (f32 acc).isNan || (f32 x).isNan then fltNan 0 else (minMaxF 0 true acc x).1) else addF32 acc x) (c.elem 0 j)
  if nmOp p = 1 then divF32 acc (roundF 0 0 false (FV.fin false n 0).toExact).1 else acc
/-- A 16-byte part of the result reached by a poisoned part, or by one read with an uncorrectable error.
DEDUCED (log entry 53). -/
def NmCmd.badPart (c : NmCmd) (k : Nat) : Bool := (c.reads (4 * k * nmBytes (nmTf c.packet.toNat) / 16)).any (·.2)

/-- Neither a remap nor an open row is in the way of a command's result and flag (R161, R163). -/
def State.nmReady (s : State) (c : NmCmd) : Bool :=
  let n := 256 * c.rowg / nmBytes (nmTf c.packet.toNat)
  ((List.range ((n + 255) / 256)).all fun k => s.rowFree (c.dest + 256 * k)) && s.rowFree (c.dest + n - 1)
    && (nmFlag c.packet.toNat == 0 || s.rowFree c.flag)

/-- A command ends: the result at its home slices, then the flag, then the token that waited (R166, R185).
DEDUCED (log entry 53). -/
def State.endNm (s : State) (c : NmCmd) : State :=
  let p := c.packet.toNat
  let lanes := 64 * c.rowg / nmBytes (nmTf p)
  let s := (List.range (lanes / 4)).foldl (fun s k =>
    s.writeAt .global (c.dest + 16 * k) ((List.range 4).flatMap fun j => bytesOf 4 (c.lane (4 * k + j))) (c.badPart k)) s
  let s := if nmFlag p = 0 then s
    else if nmFop p then
      let (bs, q, s) := s.readAt .global c.flag 8
      s.writeAt .global c.flag (bytesOf 8 (Sys2Proof.ofBytes bs + nmFlagVal p)) q
    else s.writeAt .global c.flag (bytesOf 8 (nmFlagVal p)) false
  match c.tell with
  | some i => s.reply i (Instr.record c.instr) .done
  | none => s

/-- NEAR_MEMORY_REDUCE: the command at one of a stack's 32 adders reads a part of its next row, `ecc` where that read meets an
uncorrectable error, or, with every part of every row read, ends (R165, R166, R417). DEDUCED (log entry 53). -/
def execNearMemoryReduce (s : State) : Out :=
  match s.inp with
  | some (.nearMemoryReduce stack adder part ecc) =>
    let s := { s with inp := none }
    let q := Tab.getD s.eng.nmQueue stack []
    let put := fun (q : List NmCmd) => s.setEng { s.eng with nmQueue := Tab.set s.eng.nmQueue stack q }
    match (q.take 32)[adder]? with
    | none => .next s
    | some c =>
      if !c.readAll then .next (put (q.set adder (c.read s.mem part ecc)))
      else if !s.nmReady c then .next s
      else .next ((put (listDrop q adder)).endNm c)
  | _ => .next s

end Sys2Proof.Machine
end

