-- ==== Sys2Proof/Machine/Matrix.lean ====
section
/-! DEFINITION. The systolic array (R122 to R138, R374 to R377): weight sets, rows, accumulators, drains and checksums. -/
namespace Sys2Proof

/-! ### Formats (R123, R375) -/

def ArrFmt.isInt : ArrFmt → Bool
  | .i8 => true
  | .n8 => true
  | _ => false
/-- Codes of the FP4 formats, whose blocks are 64 by 32. -/
def ArrFmt.isFp4 : ArrFmt → Bool
  | .e2m1 => true
  | .mx4 => true
  | .nb4 => true
  | _ => false
def ArrFmt.bits (f : ArrFmt) : Nat := if f.isFp4 then 4 else if f = .bf16 then 16 else 8
/-- K_e: values of a row that one element multiplies. -/
def ArrFmt.ke (f : ArrFmt) : Nat := if f.isFp4 then 64 else if f = .bf16 then 16 else 32
/-- N_e: outputs of a column block. -/
def ArrFmt.ne (f : ArrFmt) : Nat := if f.isFp4 then 32 else 16
/-- M_acc: accumulator rows of a block. -/
def ArrFmt.macc (f : ArrFmt) : Nat := if f.isFp4 then 8 else 16
/-- Float code of the elements. -/
def ArrFmt.code : ArrFmt → Nat
  | .bf16 => 2
  | .e4m3 => 3
  | .mx8e4 => 3
  | .e5m2 => 4
  | .mx8e5 => 4
  | _ => 5
def ArrFmt.codeTokens (f : ArrFmt) : Nat := if f.isFp4 then 16 else 8
def ArrFmt.scaleTokens : ArrFmt → Nat
  | .mx8e4 => 1
  | .mx8e5 => 1
  | .mx4 => 1
  | .nb4 => 5
  | _ => 0
/-- Elements under one scale; 0 in a format without scales (R198). -/
def ArrFmt.block : ArrFmt → Nat
  | .mx8e4 => 32
  | .mx8e5 => 32
  | .mx4 => 32
  | .nb4 => 8
  | _ => 0
/-- Tokens that one element takes (R375). -/
def ArrFmt.tokens (f : ArrFmt) : Nat := f.codeTokens + f.scaleTokens

/-- Everything of a block has arrived, as a mask of `WeightSet.arrived`. -/
def ArrFmt.whole (f : ArrFmt) : Nat := (2 ^ (2 * f.codeTokens) - 1) + (2 ^ f.scaleTokens - 1) * 2 ^ 32

end Sys2Proof

namespace Sys2Proof.Machine

/-! ### The array of a plane (R122) -/

/-- A plane's array as placed: its format, rows, columns and its elements with their coordinates. -/
structure Arr where
  fmt : ArrFmt
  ar : Nat
  ac : Nat
  elems : List (Nat × Nat × Nat)
  deriving DecidableEq, Repr

def State.isSystolic (s : State) (e c : Nat) : Bool := bit (s.modeWord e c) 2
def State.arrRow (s : State) (e c : Nat) : Nat := field (s.modeWord e c) 11 6
def State.arrCol (s : State) (e c : Nat) : Nat := field (s.modeWord e c) 17 12

/-- The format that the plane's MMAC and MWLOAD nodes carry (R123). -/
def State.arrFmtOf (s : State) (t : Task) (pl : Plane) (c : Nat) : Option ArrFmt :=
  (((List.range pl.nblk).flatMap fun k => pl.blockNodes k).filterMap fun x =>
    match s.recAt (t.elem (neX x) (neY x)) c (neNode x) with
    | some (opc, r) => if opc = 0xD0 ∨ opc = 0xD1 then arrFmt r.f r.x else none
    | none => none).head?

/-- DESIGN CHOICE (log entry 65). -/
def arrKey (tid c : Nat) : Nat := tid * 4 + c
/-- The array of a task's context. -/
def State.arr? (s : State) (tid c : Nat) : Option Arr :=
  (s.task? tid).bind fun t => (s.planeAt t c).bind fun pl => (s.arrFmtOf t pl c).bind fun f =>
    let es := (t.elems.filter fun e => s.isSystolic e c).map fun e => (e, s.arrRow e c, s.arrCol e c)
    if es.isEmpty then none else
    some { fmt := f, ar := es.foldl (fun m x => max m (x.2.1 + 1)) 0, ac := es.foldl (fun m x => max m (x.2.2 + 1)) 0, elems := es }
def State.arrSt (s : State) (k : Nat) : ArraySt := Tab.getD s.eng.arrays k .new
def State.setArr (s : State) (k : Nat) (x : ArraySt) : State := s.setEng { s.eng with arrays := Tab.set s.eng.arrays k x }
/-- The package element at array coordinates. -/
def Arr.at_ (a : Arr) (i j : Nat) : Option Nat := (a.elems.find? fun x => x.2.1 == i && x.2.2 == j).map (·.1)
def Arr.k (a : Arr) : Nat := a.ar * a.fmt.ke

def trapMx : Trap := { code := trapMxState }

/-- Where a matrix form may fire (R374). -/
inductive MxPlace where
  | corner | south
  deriving DecidableEq, Repr

def Arr.allows (a : Arr) (p : MxPlace) (e : Nat) : Bool :=
  match p with
  | .corner => a.at_ 0 0 == some e
  | .south => a.elems.any fun x => x.1 == e && x.2.1 + 1 == a.ar

/-- Run `f` on the array that a matrix form acts on; MX_STATE outside its placement (R374). -/
def State.onArray (s : State) (i : Issue) (p : MxPlace) (f : Nat → Arr → State) : State :=
  match s.arr? (s.issTid i) i.ctx with
  | none => s.raise i trapMx
  | some a => if a.allows p i.elem then f (arrKey (s.issTid i) i.ctx) a else s.raise i trapMx

/-- A held matrix form (R373, R374). -/
def State.fireMatrix (s : State) (opc : Nat) (ins : Instr) (r : NodeRec) (p : MxPlace) (perform : HeldOp → State → State) : Out :=
  s.fire opc r fun i _ _ _ s => s.onArray i p fun _ _ => s.startHeld i ins perform

/-! ### Weight sets (R125, R126) -/

def WeightSet.new : WeightSet := { bytes := List.replicate 1024 0, scales := [], arrived := 0, loaded := false, pois := false }
def setKey (i j : Nat) (set : Bool) : Nat := (i * 64 + j) * 2 + b2n set
def ArraySt.set (x : ArraySt) (i j : Nat) (set : Bool) : WeightSet := Tab.getD x.sets (setKey i j set) .new

/-- Replace bytes at an offset, zero-filling up to it. -/
def spliceBytes (old : List Byte) (off : Nat) (bs : List Byte) : List Byte :=
  (old ++ List.replicate (off - old.length) 0).take off ++ bs ++ old.drop (off + bs.length)
/-- Bits of `arrived` newly set: the mask is taken once. -/
def orMask (x m : Nat) : Nat := x ||| m

/-- Part of a block arrives at a set: `mask` names the halves or the scale token that it completes (R126). -/
def WeightSet.take (w : WeightSet) (f : ArrFmt) (scale : Bool) (off : Nat) (bs : List Byte) (mask : Nat) (pois : Bool) : WeightSet :=
  let w := if scale then { w with scales := spliceBytes w.scales off bs } else { w with bytes := spliceBytes w.bytes off bs }
  let got := orMask (orMask w.arrived mask) (if pois then 2 ^ 63 else 0)
  if got % 2 ^ 63 &&& f.whole = f.whole then
    { w with arrived := 0, loaded := true, pois := bit got 63 }
  else { w with arrived := got, loaded := false, pois := w.pois || pois }

/-- Token `k` of an element's weights arrives (R375). -/
def WeightSet.token (w : WeightSet) (f : ArrFmt) (k : Nat) (bs : List Byte) (pois : Bool) : WeightSet :=
  if k < f.codeTokens then w.take f false (64 * k) bs (3 * 4 ^ k) pois
  else w.take f true (64 * (k - f.codeTokens)) bs (2 ^ (32 + (k - f.codeTokens))) pois

/-- Code of weight (k, n) of a set. -/
def WeightSet.codeAt (w : WeightSet) (f : ArrFmt) (k n : Nat) : Nat :=
  let at_ := (k * f.ne + n) * f.bits
  bytesAt w.bytes (at_ / 8) 2 / 2 ^ (at_ % 8) % 2 ^ f.bits
/-- Scale and band of weight (k, n) (R375). -/
def WeightSet.scaleAt (w : WeightSet) (f : ArrFmt) (k n : Nat) : Nat × Nat :=
  match f with
  | .mx4 => (bytesAt w.scales (k / 32 * 32 + n) 1, 0)
  | .nb4 => (bytesAt w.scales (k / 8 * 32 + n) 1, bytesAt w.scales 256 2)
  | _ => (bytesAt w.scales n 1, 0)

/-! ### Exact values (R129) -/

def Exact.toFV : Exact → FV
  | .nan fl => .nan (fl != 0)
  | .inf n _ => .inf n
  | .num n q e _ => .fin n q e
def FV.mul (x y : FV) : FV := (mulE x y).toFV
def FV.add (x y : FV) : FV := (addE 0 x y).toFV
/-- The exact sum of a list, in its order. -/
def FV.sum : List FV → FV
  | [] => .fin false 0 0
  | x :: r => r.foldl FV.add x
def FV.toF32 (x : FV) : Nat := (roundF 0 0 false x.toExact).1

/-- An element's value: a float code with its scales, exactly (R198). -/
def arrValue (f : ArrFmt) (code : Nat) (sc : Nat × Nat) : FV :=
  if f.block = 0 then decodeF f.code code else (blockValue (f == .nb4) f.code code sc.1 sc.2).toFV
/-- An integer element. -/
def arrInt (f : ArrFmt) (code : Nat) : Int := if f = .i8 then signed 8 code else ((code % 256 : Nat) : Int)

/-- The sums of R129 along k: groups of 16, each rounded once, added in order. -/
def chainF32 (groups : Nat) (f : Nat → FV) : Nat :=
  (List.range groups).foldl (fun p g =>
    let x := (FV.sum ((List.range 16).map fun k => f (16 * g + k))).toF32
    if g = 0 then x else addF32 p x) 0

/-! ### A row of A (R127, R376) -/

/-- A row as it comes from the FIFO: codes in order, scales of its blocks, band. -/
structure ARow where
  codes : List Byte
  scales : List Byte
  band : Nat
  pois : Bool
  deriving DecidableEq, Repr

def ARow.code (a : ARow) (f : ArrFmt) (k : Nat) : Nat :=
  let at_ := k * f.bits
  bytesAt a.codes (at_ / 8) 2 / 2 ^ (at_ % 8) % 2 ^ f.bits
def ARow.value (a : ARow) (f : ArrFmt) (k : Nat) : FV :=
  arrValue f (a.code f k) (bytesAt a.scales (if f.block = 0 then 0 else k / f.block) 1, a.band)

/-- Granules of one row. -/
def Arr.rowGranules (a : Arr) : Nat := (a.k * a.fmt.bits / 8 + 63) / 64
/-- Assemble a row from its granules, the first of which carries the row's scales and band. R376 asks the port's GEOM for L = K and
states no scales where it gives another length, or where the port is RAW: they are open values. DESIGN CHOICE (log entry 57). -/
def Arr.row (a : Arr) (gs : List (List Byte × Bool × Nat)) : ARow :=
  let more := ((gs.head?.map (·.1)).getD []).drop 64
  let n := if a.fmt.block = 0 then 0 else a.k / a.fmt.block
  let more := if a.fmt.block = 0 ∨ more.length = n + (if a.fmt = .nb4 then 2 else 0) then more else Config.rowScales (gs.flatMap (·.1))
  { codes := gs.flatMap fun g => g.1.take 64, scales := more.take n, band := Sys2Proof.ofBytes ((more.drop n).take 2),
    pois := gs.any fun g => g.2.1 }

/-- Weight set of the element in array row `i` of column block `j`. -/
def Arr.weight (a : Arr) (x : ArraySt) (set : Bool) (j k : Nat) : WeightSet := x.set (k / a.fmt.ke) j set
def Arr.w (a : Arr) (x : ArraySt) (set : Bool) (j k n : Nat) : FV :=
  let ws := a.weight x set j k
  arrValue a.fmt (ws.codeAt a.fmt (k % a.fmt.ke) n) (ws.scaleAt a.fmt (k % a.fmt.ke) n)
def Arr.wInt (a : Arr) (x : ArraySt) (set : Bool) (j k n : Nat) : Int :=
  arrInt a.fmt ((a.weight x set j k).codeAt a.fmt (k % a.fmt.ke) n)

/-- One output of a row at the south edge (R129): the f32 partial. -/
def Arr.out (a : Arr) (x : ArraySt) (set : Bool) (row : ARow) (j n : Nat) : Nat :=
  chainF32 (a.k / 16) fun k => (row.value a.fmt k).mul (a.w x set j k n)
/-- The exact integer sum of a row for one output. -/
def Arr.outInt (a : Arr) (x : ArraySt) (set : Bool) (row : ARow) (j n : Nat) : Int :=
  (List.range a.k).foldl (fun t k => t + arrInt a.fmt (row.code a.fmt k) * a.wInt x set j k n) 0
/-- The checksum column, in ascending n, each addition rounded to f32 (R134, R209). R134 computes it when weights are loaded into a
protected array and says nothing of a set loaded before MCHK.on: it is that of whatever set is loaded. DESIGN CHOICE (log entry 57). -/
def Arr.wc (a : Arr) (x : ArraySt) (set : Bool) (j k : Nat) : FV :=
  let ws := (List.range a.fmt.ne).map fun n => (a.w x set j k n).toF32
  f32 ((ws.drop 1).foldl addF32 (ws.headD 0))
def Arr.sumC (a : Arr) (x : ArraySt) (set : Bool) (row : ARow) (j : Nat) : Nat :=
  chainF32 (a.k / 16) fun k => (row.value a.fmt k).mul (a.wc x set j k)
/-- The magnitude value (R134). -/
def Arr.sumS (a : Arr) (x : ArraySt) (set : Bool) (row : ARow) (j : Nat) : Nat :=
  chainF32 (a.k / 16) fun k => FV.sum ((List.range a.fmt.ne).map fun n => ((row.value a.fmt k).mul (a.w x set j k n)).abs)
def Arr.sumCInt (a : Arr) (x : ArraySt) (set : Bool) (row : ARow) (j : Nat) : Int :=
  (List.range a.fmt.ne).foldl (fun t n => t + a.outInt x set row j n) 0

/-! ### Accumulators (R128, R129, R138) -/

def AccRow.new (n : Nat) : AccRow := { vals := List.replicate n 0, count := 0, c := 0, s := 0, ovf := false, pois := false }
def ArraySt.row (x : ArraySt) (f : ArrFmt) (r j : Nat) : AccRow := Tab.getD x.acc (r * 64 + j) (.new f.ne)
/-- A sum kept in a signed 32-bit word: the word, and whether it saturated. -/
def satI32 (v : Int) : Nat × Bool :=
  let y := max (-2147483648) (min 2147483647 v)
  (wrap 32 y, y != v)

/-- A row's results reach its accumulator row of column block `j` (R128, R129, R134). A poisoned set of any element poisons the row in
all its column blocks (R126). DEDUCED (log entry 57). -/
def Arr.accumulate (a : Arr) (x : ArraySt) (set : Bool) (row : ARow) (j : Nat) (z : AccRow) : AccRow :=
  let bad := row.pois || a.elems.any fun e => (x.set e.2.1 e.2.2 set).pois
  let first := z.count == 0
  if a.fmt.isInt then
    let vs := (List.range a.fmt.ne).map fun n =>
      satI32 ((if first then 0 else signed 32 (z.vals.getD n 0)) + a.outInt x set row j n)
    let c := satI32 ((if first then 0 else signed 32 z.c) + a.sumCInt x set row j)
    { vals := vs.map (·.1), count := z.count + 1, c := c.1, s := 0, ovf := z.ovf || c.2 || vs.any (·.2), pois := z.pois || bad }
  else
    let put := fun (old new : Nat) => if first then new else addF32 old new
    { vals := (List.range a.fmt.ne).map fun n => put (z.vals.getD n 0) (a.out x set row j n), count := z.count + 1,
      c := put z.c (a.sumC x set row j), s := put z.s (a.sumS x set row j), ovf := z.ovf, pois := z.pois || bad }

/-- Every element's set is loaded (R126, R127). -/
def Arr.loaded (a : Arr) (x : ArraySt) (set : Bool) : Bool := a.elems.all fun e => (x.set e.2.1 e.2.2 set).loaded

/-! ### Drains (R130, R131) -/

/-- The MDRAIN node of an element. -/
def State.drainNode (s : State) (e c : Nat) : Option (Nat × NodeRec) :=
  (List.range 64).findSome? fun n =>
    match s.recAt e c n with
    | some (0xD2, r) => some (n, r)
    | _ => none
/-- A drain is complete: every token sent, the last of each column out of its output latch (R131). -/
def State.drainDone (s : State) (c : Nat) (a : Arr) (d : Drain) : Bool :=
  d.next.all (fun n => decide (d.rows ≤ n)) && a.elems.all fun x =>
    x.2.1 + 1 != a.ar || (match s.drainNode x.1 c with
                          | some (n, _) => (s.ctx x.1 c).outs.all fun l => l.aid != d.aid || l.node != n
                          | none => true)
/-- A complete drain is over; MDRAIN.keep opens the intake again (R131). -/
def State.settleDrain (s : State) (k c : Nat) (a : Arr) : State :=
  let x := s.arrSt k
  match x.drain with
  | none => s
  | some d => if s.drainDone c a d then s.setArr k { x with drain := none, closed := !d.keep } else s

/-! ### The forms (R374 to R377) -/

/-- MWLOAD performs: its load is in progress (R375). -/
def State.performMwload (h : HeldOp) (r : NodeRec) (s : State) : State :=
  let k := arrKey (s.issTid h.iss) h.iss.ctx
  let x := s.arrSt k
  let l : WLoad := { port := field r.l 7 0, set := bit r.l 8, bcast := bit r.l 9, pos := 0, tell := h.iss, instr := h.instr }
  (s.doneHeld h).setArr k { x with loads := x.loads ++ [l] }
/-- MWLOAD (R375). -/
def execMwload (r : NodeRec) (s : State) : Out := s.fireMatrix 0xD0 (.mwload r) r .corner fun h s => s.performMwload h r

/-- MMAC performs: its assignment is queued, or waits for a place among 16 (R376). -/
def State.performMmac (h : HeldOp) (r : NodeRec) (s : State) : State :=
  let k := arrKey (s.issTid h.iss) h.iss.ctx
  let x := s.arrSt k
  let v := valOf h.iss.f.a
  let rows := field v 15 0
  if rows = 0 then (s.doneHeld h).reply h.iss r .done
  else if 16 ≤ x.assigns.length then s
  else
    let a : Assign := { rows := rows, set := bit v 16, port := field r.l 7 0, tell := h.iss, instr := h.instr }
    (s.doneHeld h).setArr k { x with assigns := x.assigns ++ [a] }
/-- MMAC (R376). -/
def execMmac (r : NodeRec) (s : State) : Out := s.fireMatrix 0xD1 (.mmac r) r .corner fun h s => s.performMmac h r

/-- MDRAIN performs: the drain of R130 begins and the intake closes (R131). DEDUCED (log entry 57). -/
def State.performMdrain (h : HeldOp) (r : NodeRec) (s : State) : State :=
  match s.arr? (s.issTid h.iss) h.iss.ctx with
  | none => s.doneHeld h
  | some a =>
    let k := arrKey (s.issTid h.iss) h.iss.ctx
    let s := s.settleDrain k h.iss.ctx a
    let x := s.arrSt k
    if x.drain.isSome then s else
    let u := min a.fmt.macc x.taken
    let d : Drain := { lo := h.iss.f.lo, rows := u * (if a.fmt.isFp4 then 2 else 1), keep := r.t, aid := h.iss.f.aid, next := List.replicate a.ac 0 }
    (s.doneHeld h).setArr k { x with drain := some d, closed := true }
/-- MDRAIN: the trigger stands in column 0 (R377). -/
def execMdrain (r : NodeRec) (s : State) : Out := s.fireMatrix 0xD2 (.mdrain r) r .south fun h s => s.performMdrain h r

/-- MACC performs: one accumulator row of the column block, or half of one, is replaced (R132, R377). The row's checksum and magnitude
values and its overflow mark, of which R132 says nothing, stay as they were. DESIGN CHOICE (log entry 57). -/
def State.performMacc (h : HeldOp) (r : NodeRec) (s : State) : State :=
  match s.arr? (s.issTid h.iss) h.iss.ctx with
  | none => s.doneHeld h
  | some a =>
    let k := arrKey (s.issTid h.iss) h.iss.ctx
    let x := s.arrSt k
    let key := field r.l 3 0 * 64 + s.arrCol h.iss.elem h.iss.ctx
    let z := Tab.getD x.acc key (.new a.fmt.ne)
    let v := valOf h.iss.f.a
    let half := b2n (bit r.l 4)
    let vals := (List.range z.vals.length).map fun n => if n / 16 = half then lane 32 v (n % 16) else z.vals.getD n 0
    ((s.doneHeld h).setArr k { x with acc := Tab.set x.acc key { z with vals := vals, count := max 1 z.count } }).reply h.iss r .done
/-- MACC (R377). -/
def execMacc (r : NodeRec) (s : State) : Out := s.fireMatrix 0xD3 (.macc r) r .south fun h s => s.performMacc h r

/-- MREL performs: accumulators, counts and checksum state are zero; it waits while a drain is incomplete (R132). -/
def State.performMrel (h : HeldOp) (r : NodeRec) (s : State) : State :=
  match s.arr? (s.issTid h.iss) h.iss.ctx with
  | none => s.doneHeld h
  | some a =>
    let k := arrKey (s.issTid h.iss) h.iss.ctx
    let s := s.settleDrain k h.iss.ctx a
    let x := s.arrSt k
    if x.drain.isSome then s else
    ((s.doneHeld h).setArr k { x with acc := [], taken := 0, closed := false, checkOn := false, checked := 0, unchecked := 0,
                                      failed := 0, firstCol := 0 }).reply h.iss r .done
/-- MREL (R377). -/
def execMrel (r : NodeRec) (s : State) : Out := s.fireMatrix 0xD5 (.mrel r) r .corner fun h s => s.performMrel h r

/-- The status word of R136. -/
def ArraySt.status (x : ArraySt) : Nat :=
  x.checked.toNat + 2 ^ 16 * x.unchecked.toNat + 2 ^ 32 * x.failed.toNat + 2 ^ 48 * x.firstCol.toNat + 2 ^ 54 * b2n x.checkOn
/-- MCHK.on performs; late, it raises MX_STATE (R134, R377). -/
def State.performMchk (h : HeldOp) (r : NodeRec) (s : State) : State :=
  let k := arrKey (s.issTid h.iss) h.iss.ctx
  let x := s.arrSt k
  if x.taken ≠ 0 then (s.doneHeld h).raise h.iss trapMx
  else ((s.doneHeld h).setArr k { x with checkOn := true }).reply h.iss r .done
/-- MCHK: READ = 1 fires the status word and is not held (R136, R377). -/
def execMchk (r : NodeRec) (s : State) : Out :=
  s.fire 0xD4 r fun i _ _ _ s => s.onArray i .corner fun k _ =>
    if r.t then s.reply i r (.scalar (s.arrSt k).status) else s.startHeld i (.mchk r) fun h s => s.performMchk h r

/-! ### Steps of the array -/

/-- A weight token on its bus: its index in the block as LO, 64 and its set as node number. DESIGN CHOICE (log entry 57). -/
def busTok (c tok : Nat) (set : Bool) (bs : List Byte) (pois : Bool) : Token :=
  { lo := tok, hi := 0, pay := let p := Pay.ofBytes true bs
                               if pois then p.poisoned 4 else p
    front := false, iter := 0, ctx := c, node := 64 + b2n set, port := .a, seq := 0, src := startSrc }
/-- The input latch of the row bus, or of the column bus, in an element (R95). -/
def busLatch (e : Nat) (col : Bool) : Nat := e * 8 + 5 + b2n col
/-- Tokens of a weight set that wait in an element's latch of one bus. -/
def State.busHolds (s : State) (e c : Nat) (set col : Bool) : Bool :=
  (Tab.find s.fab.latches (busLatch e col)).any fun t => t.tok.ctx == c && t.tok.node == 64 + b2n set
/-- The elements that a load's next token is for, with their coordinates (R125, R375). -/
def Arr.busTargets (a : Arr) (l : WLoad) : List (Nat × Nat × Nat) :=
  if l.bcast then a.elems else
  a.elems.filter fun x => x.2.1 == l.pos / a.fmt.tokens / a.ac && x.2.2 == l.pos / a.fmt.tokens % a.ac
/-- Tokens of a whole load. -/
def Arr.loadTokens (a : Arr) (l : WLoad) : Nat := a.fmt.tokens * (if l.bcast then 1 else a.ar * a.ac)
/-- A load is over once its tokens have been delivered and every element has accepted those of its set (R126, R375). -/
def State.endLoads (s : State) (k : Nat) (a : Arr) : State :=
  let x := s.arrSt k
  let waits := fun (l : WLoad) => a.elems.any fun e => s.busHolds e.1 (k % 4) l.set false || s.busHolds e.1 (k % 4) l.set true
  let done := fun (l : WLoad) => decide (a.loadTokens l ≤ l.pos) && !waits l
  (x.loads.filter done).foldl (fun s l => s.reply l.tell (Instr.record l.instr) .done)
    (s.setArr k { x with loads := x.loads.filter fun l => !done l })
/-- An element accepts the weight token in its bus latch into its weight set (R113, R125, R126). A token of an array that is gone is
dropped. -/
def State.takeBus (s : State) (e : Nat) (t : Token) : State :=
  match (s.ctx e t.ctx).owner with
  | none => s
  | some tid =>
    match s.arr? tid t.ctx with
    | none => s
    | some a =>
      match a.elems.find? fun x => x.1 == e with
      | none => s
      | some (_, i, j) =>
        let k := arrKey tid t.ctx
        let x := s.arrSt k
        let sk := setKey i j (t.node == 65)
        let w := (Tab.getD x.sets sk .new).token a.fmt t.lo (bytesOf 64 t.pay.val.toNat) t.pay.pois
        ((s.setArr k { x with sets := Tab.set x.sets sk w }).rememberTok e t).endLoads k a

/-- The weight tokens of a task that wait in bus latches are accepted, as before its cut is taken (R89, R137). -/
def State.settleBuses (s : State) (tid : Nat) : State :=
  (s.fab.latches.filter fun x => decide (5 ≤ x.1 % 8) && s.owns tid (x.1 / 8) x.2.tok.ctx).foldl (fun s x =>
    (s.setFab { s.fab with latches := Tab.erase s.fab.latches x.1 }).takeBus (x.1 / 8) x.2.tok) s
/-- The rows, or the columns, of a token's targets: the buses it takes. -/
def busLines (es : List (Nat × Nat × Nat)) (col : Bool) : List Nat := (es.map fun x => if col then x.2.2 else x.2.1).eraseDups
/-- The buses of one kind are free for a token: none has delivered one in this cycle, the latches of its targets are empty, and no token
of its set waits for one of them in the latch of the other bus (R95, R125). -/
def State.busFree (s : State) (k : Nat) (es : List (Nat × Nat × Nat)) (set col : Bool) : Bool :=
  (busLines es col).all (fun i => !s.isBusy (busyBus k col i)) && es.all fun x =>
    (Tab.find s.fab.latches (busLatch x.1 col)).isNone && !s.busHolds x.1 (k % 4) set (!col)
/-- WEIGHT_TOKEN_LOAD: one of the loads in progress puts the next token of its port on the row or on the column bus of its targets, or
with BCAST on all of them, into their input latches (R95, R125, R375). Loads of one port go in order; among ports, and between the two
buses where both are free, the choice is open. DEDUCED (log entry 57). -/
def State.weightLoad (s : State) (k : Nat) : State :=
  let tid := k / 4
  let c := k % 4
  match s.arr? tid c with
  | none => s
  | some a =>
    let x := s.arrSt k
    let (n, s) := s.choose (max 1 x.loads.length)
    match (x.loads[n]?).bind fun l => x.loads.findIdx? fun y => y.port == l.port && decide (y.pos < a.loadTokens y) with
    | none => s
    | some n =>
      match x.loads[n]?, s.fifo (fifoKey tid c ((x.loads[n]?.map (·.port)).getD 0)) with
      | some l, (bs, pois, _) :: rest =>
        let es := a.busTargets l
        let (b, s) := s.choose 2
        let col := if s.busFree k es l.set (b == 1) then b == 1 else b != 1
        if decide (a.loadTokens l ≤ l.pos) || !s.busFree k es l.set col then s else
        let s := (busLines es col).foldl (fun s i => s.use (busyBus k col i)) s
        let s := s.setEng { s.eng with fifo := Tab.set s.eng.fifo (fifoKey tid c l.port) rest }
        let t := busTok c (l.pos % a.fmt.tokens) l.set bs pois
        let s := s.setFab { s.fab with latches := es.foldl (fun ls x => Tab.set ls (busLatch x.1 col) { tok := t, since := s.cycles }) s.fab.latches }
        s.setArr k { x with loads := listSet x.loads n { l with pos := l.pos + 1 } }
      | _, _ => s

/-- WEIGHT_TOKEN_LOAD. -/
def execWeightTokenLoad (s : State) : Out :=
  match s.inp with
  | some (.weightTokenLoad arr) => .next ({ s with inp := none }.weightLoad arr)
  | _ => .next s

/-- The array's MMAC has recorded a marker: it takes no further row (R137). -/
def State.arrFrozen (s : State) (tid c : Nat) (l : Assign) : Bool :=
  match s.cutOf tid with
  | some cut => cut.frozen.contains (ctxKey l.tell.elem c * 64 + l.tell.f.node)
  | none => false

/-- A row taken now is processed by element (i, j) in the cycle i + j later, which is then no issue slot of it (R124, R127). -/
def State.serveRow (s : State) (a : Arr) : State :=
  s.setFab { s.fab with serving := a.elems.foldl (fun t (e, i, j) =>
    Tab.set t e ((Tab.getD t e []).filter (fun x => decide (s.cycles ≤ x)) ++ [s.cycles + i + j])) s.fab.serving }
/-- ARRAY_ROW_TAKE: a whole row present, its set loaded, the intake open; one row in a cycle (R127 to R129, R376). -/
def State.rowTake (s : State) (k : Nat) : State :=
  let tid := k / 4
  let c := k % 4
  match s.arr? tid c with
  | none => s
  | some a =>
    let s := s.settleDrain k c a
    let x := s.arrSt k
    match x.assigns with
    | [] => s
    | l :: more =>
      let q := s.fifo (fifoKey tid c l.port)
      if s.isBusy (busyRow k) || x.closed || s.arrFrozen tid c l || decide (q.length < a.rowGranules) || !a.loaded x l.set then s else
      let s := (s.use (busyRow k)).serveRow a
      let row := a.row (q.take a.rowGranules)
      let r := x.taken % a.fmt.macc
      let acc := (List.range a.ac).foldl (fun t j => Tab.set t (r * 64 + j) (a.accumulate x l.set row j (x.row a.fmt r j))) x.acc
      let s := s.setEng { s.eng with fifo := Tab.set s.eng.fifo (fifoKey tid c l.port) (q.drop a.rowGranules) }
      let s := s.setArr k { x with acc := acc, taken := x.taken + 1, assigns := if l.rows = 1 then more else { l with rows := l.rows - 1 } :: more }
      if l.rows = 1 then s.reply l.tell (Instr.record l.instr) .done else s

/-- ARRAY_ROW_TAKE. DEDUCED (log entry 57). -/
def execArrayRowTake (s : State) : Out :=
  match s.inp with
  | some (.arrayRowTake arr) => .next ({ s with inp := none }.rowTake arr)
  | _ => .next s

/-- How R135 judges a column block of an accumulator row. -/
inductive Judged where
  | checked | unchecked | failed
  deriving DecidableEq, Repr

def isWild (x : Nat) : Bool :=
  match f32 x with
  | .fin _ _ _ => false
  | _ => true
/-- The judgement of R135. DEDUCED (log entry 57). -/
def Arr.judge (a : Arr) (z : AccRow) : Judged :=
  if a.fmt.isInt then
    if z.ovf then .unchecked
    else if (z.vals.foldl (fun t v => t + signed 32 v) (0 : Int)) = signed 32 z.c then .checked else .failed
  else if z.ovf || isWild z.c || isWild z.s || z.vals.any isWild then .unchecked
  else
    let sum := (z.vals.drop 1).foldl addF32 (z.vals.headD 0)
    let diff := (FV.add (f32 sum) (f32 z.c).neg).abs
    let k := a.k * z.count
    let bound := match f32 z.s with
      | .fin n m e => FV.fin n ((k + 2) * m) (e - 24)
      | y => y
    if isWild sum then .failed else if cmpFV diff bound ≤ 0 then .checked else .failed

/-- Count a judgement (R135, R136). -/
def ArraySt.count (x : ArraySt) (j : Nat) : Judged → ArraySt
  | .checked => { x with checked := BitVec.ofNat 16 (satTo 16 (x.checked.toNat + 1)) }
  | .unchecked => { x with unchecked := BitVec.ofNat 16 (satTo 16 (x.unchecked.toNat + 1)) }
  | .failed => { x with failed := BitVec.ofNat 16 (satTo 16 (x.failed.toNat + 1)), firstCol := if x.failed = 0 then BitVec.ofNat 6 j else x.firstCol }

/-- Keep a drain token for the activation that takes over from the trigger's (R133). -/
def State.keepTok (s : State) (aid : Nat) (t : Token) : State :=
  match s.act? aid with
  | none => s
  | some a =>
    if a.committed then s
    else if !a.dead then s.setAct aid { a with kept := a.kept ++ [t] }
    else
      let add := fun (k : Option Kept) => k.map fun k => if k.ctx = a.ctx ∧ k.iter = a.iter then { k with tokens := k.tokens ++ [t] } else k
      s.updThread a.thread fun th => { th with kept := add th.kept, lodgeKept := add th.lodgeKept, useKept := add th.useKept }

/-- Keep the tokens of a drain beat, one for each destination node. -/
def State.keepBeat (s : State) (e c aid : Nat) (r : NodeRec) (b : Beat) : State :=
  [r.dst0, r.dst1].foldl (fun s d =>
    match s.destElem e c d with
    | none => s
    | some (target, n, p) =>
      s.keepTok aid { lo := b.lo, hi := b.hi, pay := b.pay, front := false, iter := ((s.act? aid).map (·.iter)).getD 0, ctx := c, node := n,
                      port := p, seq := 0, src := startSrc + target }) s

/-- ARRAY_DRAIN_TOKEN: column `j` puts its next drain token into its element's output latch, one in a cycle (R130, R133, R135).
An interval's bounds end at the open-ended tick (R3). DESIGN CHOICE (log entry 57). -/
def State.drainToken (s : State) (k j : Nat) : State :=
  let tid := k / 4
  let c := k % 4
  match s.arr? tid c with
  | none => s
  | some a =>
    let x := s.arrSt k
    match x.drain, a.at_ (a.ar - 1) j with
    | some d, some e =>
      let n := d.next.getD j 0
      match s.drainNode e c with
      | none => s
      | some (node, r) =>
        if decide (d.rows ≤ n) || (s.ctx e c).holds s.cycles || s.isBusy (busyDrain e) || decide (a.ac ≤ j) then s else
        let s := s.use (busyDrain e)
        let parts := if a.fmt.isFp4 then 2 else 1
        let row := n / parts
        let z := x.row a.fmt row j
        let v := a.judge z
        let failed := x.checkOn && v == .failed
        let x := if x.checkOn && n % parts == 0 then x.count j v else x
        let s := if failed && n % parts == 0 then s.countElem e true else s
        let vals := ((z.vals.drop (16 * (n % parts))).take 16).map fun y => y % 2 ^ 32
        let pay := Pay.vector (joinLanes 32 vals)
        let beat : Beat := .both (if failed || z.pois then pay.poisoned 3 else pay) (min infTick (d.lo + row)) (min infTick (d.lo + row + 1))
        let s := s.setArr k { x with drain := some { d with next := listSet d.next j (n + 1) } }
        let s := s.keepBeat e c d.aid r beat
        if !reaches r beat then s else
        s.setCtx e c ((s.ctx e c).push { aid := d.aid, node := node, beats := [beat], readyAt := s.cycles + 1, waits := false })
    | _, _ => s

/-- ARRAY_DRAIN_TOKEN. DEDUCED (log entry 57). -/
def execArrayDrainToken (s : State) : Out :=
  match s.inp with
  | some (.arrayDrainToken arr col) => .next ({ s with inp := none }.drainToken arr col)
  | _ => .next s

end Sys2Proof.Machine
end

