-- ==== Sys2Proof/Machine/Accept.lean ====
section
/-! DEFINITION. The acceptance of one token by an element: the seven input latches in their order, the tokens of a restored cut
first (R89, R95, R113, R125). -/
namespace Sys2Proof.Machine

/-- The latches of an element in the order of R113: oldest first, then local, N, E, S, W, row bus, column bus.
DEDUCED (log entry 29). -/
def State.latchOrder (s : State) (e : Nat) : List (Nat × Latched) :=
  let xs := (List.range 7).filterMap fun d => (Tab.find s.fab.latches (e * 8 + d)).map fun l => (d, l)
  sortBy (fun x y => decide (x.2.since < y.2.since) || x.2.since == y.2.since && decide (x.1 ≤ y.1)) (xs.filter fun x => decide (x.2.since < s.cycles))

/-- What has come in by latch `d` is accepted: a token of a bus into a weight set, any other by its node; none while it waits
(R113, R114, R125). -/
def State.acceptFrom (s : State) (e d : Nat) (t : Token) : Option State := 
  if 5 ≤ d then (if 32 ≤ s.pendingIn e t.ctx then none else some (s.takeBus e t)) else s.acceptTok e d t false

/-- Accept the first of the waiting tokens that can be accepted. DEDUCED (log entry 29). -/
def State.acceptFirst (s : State) (e : Nat) : List (Nat × Latched) → State
  | [] => s
  | (d, l) :: r =>
    match (s.setFab { s.fab with latches := Tab.erase s.fab.latches (e * 8 + d) }).acceptFrom e d l.tok with
    | some s => s.use (busyAccept e)
    | none => State.acceptFirst s e r
/-- Element `e` accepts one token: a restored one first, and no token that a restored one of its edge precedes (R89, R113).
DEDUCED (log entry 29). -/
def State.acceptOne (s : State) (e : Nat) : State :=
  match s.acceptChan e (s.chanHeads e) with
  | some s => s
  | none => s.acceptFirst e ((s.latchOrder e).filter fun x => s.fab.chan.all fun y => y.1 != e || !y.2.sameEdge x.2.tok)

/-- TOKEN_ACCEPT (R105, R113). DEDUCED (log entry 29). -/
def execTokenAccept (s : State) : Out :=
  match s.inp with
  | some (.tokenAccept e) =>
    let s := { s with inp := none }
    if s.isBusy (busyAccept e) || s.replaying e then .next s else .next (s.acceptOne e)
  | _ => .next s

end Sys2Proof.Machine
end

