-- ==== Sys2Proof/Machine/Arming.lean ====
section
/-! DEFINITION. Arming: the checks made on a plane as it drops into a region (R258, R259). -/
namespace Sys2Proof.Machine

/-- A node of a plane image: position of its element in the rectangle, number, opcode and record. -/
structure ArmNode where
  i : Nat
  n : Nat
  opc : Nat
  r : NodeRec
  deriving DecidableEq, Repr

/-- Where an edge comes from. -/
inductive EdgeFrom where
  | node (x : ArmNode)
  | stream (k : Nat)
  | entry
  deriving DecidableEq, Repr

/-- An edge of a plane: its producer, which of its destinations, the consumer as i * 64 + n, and the port. -/
structure Edge where
  src : EdgeFrom
  which : Nat
  key : Nat
  port : PortName
  deriving DecidableEq, Repr

/-- A plane as it lies in a region: its number and the package element coordinates of the north-west element. -/
structure ArmView where
  p : Plane
  num : Nat
  x0 : Nat
  y0 : Nat
  argc : Option Nat
  deriving DecidableEq, Repr

def ArmNode.key (x : ArmNode) : Nat := x.i * 64 + x.n
def ArmView.w (v : ArmView) : Nat := v.p.w
def ArmView.size (v : ArmView) : Nat := v.p.w * v.p.h
/-- Package element of a rectangle position. -/
def ArmView.elem (v : ArmView) (i : Nat) : Nat := elemAt (v.x0 + i % v.w) (v.y0 + i / v.w)
/-- Rectangle position of coordinates relative to the region; none outside it. -/
def ArmView.pos (v : ArmView) (x y : Int) : Option Nat :=
  if 0 ≤ x ∧ x < v.w ∧ 0 ≤ y ∧ y < v.p.h then some (y.toNat * v.w + x.toNat) else none

def Plane.image (p : Plane) (i off n : Nat) : List Byte := (p.images.drop (1024 * i + off)).take n
/-- Mode word of an element of the image with the reserved bytes above it (R96). -/
def Plane.mode (p : Plane) (i : Nat) : Nat := ofBytes (p.image i 0x380 128)
def Plane.roleAt (p : Plane) (i : Nat) : Nat := field (p.mode i) 5 4

/-! ### Records -/

/-- A record of the image: opcode and fields where they can be read, and what is rejected as it is read, as code and WHICH: an unassigned
opcode first. Of a record with a bad GAP code, PM or destination, that field alone is read as zero (R258). DEDUCED (log entry 19). -/
def armRecord (bs : List Byte) : Option (Nat × NodeRec) × List (Nat × Nat) :=
  let w := Sys2Proof.ofBytes bs
  let keep := fun (hi lo : Nat) (ok : Bool) => if ok then field w hi lo * 2 ^ lo else 0
  let gapA := (GapRule.ofCode (field w 12 11)).isSome
  let gapB := (GapRule.ofCode (field w 14 13)).isSome
  let pm := (PredMode.ofCode (field w 16 15)).isSome
  let dst0 := (Dest.ofCode (field w 43 24)).isSome
  let dst1 := (Dest.ofCode (field w 63 44)).isSome
  if w % 2 ^ 96 = 0 then (none, []) else
  match decode (bytesOf 12 (keep 10 0 true + keep 12 11 gapA + keep 14 13 gapB + keep 16 15 pm + keep 23 17 true + keep 43 24 dst0
    + keep 63 44 dst1 + keep 95 64 true)) with
  | .ok i => (i.node?, (if gapA && gapB && pm then [] else [(2, 0)]) ++ (if dst0 then [] else [(3, 0)]) ++ (if dst1 then [] else [(3, 1)]))
  | .error _ => (none, [(1, 0)])

/-- Every non-empty record position, readable or not. -/
def Plane.filled (p : Plane) : List Nat :=
  (List.range (p.w * p.h)).flatMap fun i => (List.range 64).filterMap fun n =>
    if Sys2Proof.ofBytes (p.image i (12 * n) 12) = 0 then none else some (i * 64 + n)
/-- The nodes of a plane whose records can be read. -/
def Plane.nodes (p : Plane) : List ArmNode :=
  p.filled.filterMap fun k => (armRecord (p.image (k / 64) (12 * (k % 64)) 12)).1.map fun x => { i := k / 64, n := k % 64, opc := x.1, r := x.2 }

/-- The format of the plane's array, from its first MMAC or MWLOAD (R123). -/
def arrayFmt (ns : List ArmNode) : Option ArrFmt :=
  (ns.find? fun x => x.opc == 0xD0 || x.opc == 0xD1).bind fun x => arrFmt x.r.f x.r.x

/-- The form of a node in its plane: MDRAIN and MACC take the array's type (R374). -/
def planeForm (fmt : Option ArrFmt) (opc : Nat) (r : NodeRec) : Form :=
  let f := formOf opc r
  let row : Ty := ⟨if fmt = some .i8 ∨ fmt = some .n8 then .int 4 else .flt 0, true⟩
  if opc = 0xD2 then { f with res := some row } else if opc = 0xD3 then { f with a := some row } else f

/-- Ports of a node that take an edge (R239, R374). -/
def ArmView.uses (v : ArmView) (fmt : Option ArrFmt) (x : ArmNode) (port : PortName) : Bool :=
  let f := planeForm fmt x.opc x.r
  match port with
  | .a => f.a.isSome && (x.opc != 0xD2 || field (v.p.mode x.i) 17 12 == 0)
  | .b => f.usesB x.r
  | .p => f.p.isSome || x.r.pm != .none

/-! ### Edges (R100, R242, R252, R352) -/

/-- A destination of an element: rejected, or the node port it names, if any (R242, R256). -/
def ArmView.target (v : ArmView) (filled : List Nat) (i : Nat) (d : Dest) : Option (Option (Nat × PortName)) :=
  let ok := fun (x y : Int) (n : Nat) (p : PortName) =>
    (v.pos x y).bind fun j => if filled.contains (j * 64 + n) then some (some (j * 64 + n, p)) else none
  match d with
  | .none => some none
  | .port k => if k.toNat < v.p.secCnt 3 ∧ spWrite (v.p.stream k.toNat) then some none else none
  | .relative dx dy n p => ok ((i % v.w : Nat) + dx.toInt) ((i / v.w : Nat) + dy.toInt) n.toNat p
  | .far k n p =>
    if v.p.secCnt 2 ≤ k.toNat then none else
    let e := v.p.route k.toNat
    if bit e 14 then ok ((field e 6 0 : Nat) - (v.p.ox * 8 : Nat)) ((field e 13 7 : Nat) - (v.p.oy * 8 : Nat)) n.toNat p
    else ok ((field e 6 0 : Nat) - (v.x0 : Nat)) ((field e 13 7 : Nat) - (v.y0 : Nat)) n.toNat p

/-- Position of a stream port's FIFO element. -/
def ArmView.fifoPos (v : ArmView) (k : Nat) : Option Nat := v.pos (spFx (v.p.stream k) : Nat) (spFy (v.p.stream k) : Nat)

/-- Every edge of the plane: of its nodes, its read ports and its start tokens. -/
def ArmView.edges (v : ArmView) (filled : List Nat) (ns : List ArmNode) : List Edge :=
  let edge := fun (src : EdgeFrom) (which i : Nat) (d : Dest) =>
    match v.target filled i d with
    | some (some (key, port)) => [({ src := src, which := which, key := key, port := port } : Edge)]
    | _ => []
  (ns.flatMap fun x => edge (.node x) 0 x.i x.r.dst0 ++ edge (.node x) 1 x.i x.r.dst1)
    ++ ((List.range (v.p.secCnt 3)).flatMap fun k =>
      let s := v.p.stream k
      if spWrite s || spArray s then [] else
      match v.fifoPos k with
      | some i => edge (.stream k) 0 i (spDst s)
      | none => [])
    ++ ((List.range v.p.nblk).flatMap fun b => (v.p.blockNodes b).filterMap fun e =>
      if !neEntry e then none else
      (nePort e).bind fun port => (v.pos (neX e : Nat) (neY e : Nat)).map fun j =>
        { src := .entry, which := 0, key := j * 64 + neNode e, port := port })

/-! ### Types on edges (R249) -/

/-- A type's size class of the same width agrees with it (R249). DEDUCED (log entry 61). -/
def sizeAgrees (p c : Ty) : Bool :=
  match p.kind, c.kind with
  | .size 6, _ => c.v
  | _, .size 6 => p.v
  | .size s, k => k.width == 8 * sizeBytes s
  | k, .size s => k.width == 8 * sizeBytes s
  | _, _ => false

/-- A producer's type agrees with a consumer's port; `start` for a start token, `pm` for port P under PM (R249, R276).
DEDUCED (log entry 61). -/
def agrees (p : Ty) (c : Ty) (start pm : Bool) : Bool :=
  if pm then
    match p.kind with
    | .pred => true
    | .int _ => !p.v
    | .size _ => !p.v
    | _ => start
  else
    match c.kind with
    | .any => true
    | .predOrInt =>
      start || (match p.kind with
        | .pred => true
        | .int _ => !p.v
        | .size _ => !p.v
        | _ => false)
    | .scalar8 => !p.v
    | _ =>
      if start then !c.v
      else if p = c then true
      else if p.v != c.v then false
      else
        match p.kind, c.kind with
        | .pred, .int _ => true
        | .pred, .size n => n == 6
        | .pred, _ => false
        | .any, _ => true
        | _, _ => sizeAgrees p c

/-- The type of a stream port's tokens (R352). -/
def streamTy (x : Nat) : Ty :=
  let f := spFmta x
  if 1 ≤ f ∧ f ≤ 6 then ⟨.flt (f - 1), true⟩ else if 11 ≤ f ∧ f ≤ 14 then ⟨.size (f - 11), true⟩ else ⟨.size 6, true⟩

/-- The type an edge brings: none for a start token or a producer without a result. -/
def ArmView.edgeTy (v : ArmView) (fmt : Option ArrFmt) (e : Edge) : Option Ty :=
  match e.src with
  | .node x => (planeForm fmt x.opc x.r).res
  | .stream k => some (streamTy (v.p.stream k))
  | .entry => none

/-- Element and node that report an edge: its producer's; a start token's at its consumer. -/
def ArmView.edgeAt (v : ArmView) (e : Edge) : Nat × Nat :=
  match e.src with
  | .node x => (v.elem x.i, x.n)
  | .stream k => (((v.fifoPos k).map v.elem).getD (v.elem 0), 0)
  | .entry => (v.elem (e.key / 64), e.key % 64)

/-- Edges into one port beyond what it may have (R100, R380). -/
def edgeLimit (opc : Nat) (p : PortName) : Nat := if opc = 0xE6 ∧ p = .b then 4 else 1

/-- JOINF takes completion tokens of memory nodes, of fences and of forms of group 0xC that send one (R342). -/
def feedsFence (opc : Nat) : Bool :=
  opc / 16 == 9 || opc / 16 == 10 || opc == 0xC0 || opc == 0xC1 || opc == 0xC3 || opc == 0xC4 || opc == 0xC5 || opc == 0xC6
    || opc == 0xC7 || opc == 0xC8
/-- A fence that feeds a fence: not of wider scope, and of the same class unless the outer one is ORDINARY (R343). -/
def fenceOk (inner outer : NodeRec) : Bool :=
  decide (outer.scope ≤ inner.scope) && (outer.l % 4 == 0 || inner.l % 4 == outer.l % 4)

/-- The checks of one edge against its consumer: 3 DEST, 4 EDGE_FMT, 7 MEMLIT. `k` counts the edges into the port before it.
DEDUCED (log entry 61). -/
def ArmView.edgeCheck (v : ArmView) (fmt : Option ArrFmt) (ns : List ArmNode) (e : Edge) (k : Nat) : List ArmFail :=
  let at_ := v.edgeAt e
  let fail := fun (c : Nat) => [({ code := c, elem := at_.1, node := at_.2, which := e.which, index := 0 } : ArmFail)]
  match ns.find? fun x => x.key == e.key with
  | none => []
  | some x =>
    let f := planeForm fmt x.opc x.r
    if !v.uses fmt x e.port || edgeLimit x.opc e.port ≤ k then fail 3
    else
      let pm := e.port = .p ∧ f.p = none
      let want := match e.port with
        | .a => f.a
        | .b => f.b
        | .p => f.p
      let start := e.src == .entry
      let ty := (v.edgeTy fmt e).getD ⟨.any, false⟩
      let bad := if agrees ty (want.getD ⟨.any, false⟩) start (decide pm) then [] else fail 4
      bad ++ (if x.opc ≠ 0xA9 then [] else
        match e.src with
        | .node y => if !feedsFence y.opc then fail 3 else if y.opc = 0xA9 ∧ !fenceOk y.r x.r then fail 7 else []
        | _ => fail 3)

/-- All edges in the order of the list, each with the number of earlier ones into its port. -/
def ArmView.edgeChecks (v : ArmView) (fmt : Option ArrFmt) (ns : List ArmNode) (es : List Edge) : List ArmFail :=
  es.zipIdx.flatMap fun (e, j) => v.edgeCheck fmt ns e ((es.take j).filter fun d => d.key == e.key && d.port == e.port).length

/-! ### Nodes -/

/-- A node whose FMT, or in the predicate forms whose AUX, names an element: it is under the context's LW (R97, R263, R278, R281, R333,
R380). -/
def namesElement (opc : Nat) : Bool :=
  decide (opc < 0x90) && !(opc == 0x05 || opc == 0x09 || opc == 0x14 || opc == 0x15 || opc == 0x74 || opc == 0x77)
    || opc == 0x94 || opc == 0xE6 || opc == 0xE7
/-- Width in bits of the narrowest element of a node (R97, R281). -/
def nodeWidth (opc : Nat) (r : NodeRec) : Nat :=
  let w := if opc < 0x20 ∨ opc / 16 = 8 then r.data.width else if 0x4B ≤ opc ∧ opc ≤ 0x4F then 8 * 2 ^ (r.x % 4) else if 0x20 ≤ opc ∧ opc < 0x46 then intWidth r.f else fltWidth r.f
  if opc = 0x70 ∨ opc = 0x75 ∨ opc = 0x76 then min w (fltWidth r.other)
  else if opc = 0x71 ∨ opc = 0x72 then min w (intWidth r.other) else w
/-- The node's elements fit the context's LW (R97). -/
def lwOk (mode opc : Nat) (r : NodeRec) : Bool :=
  let lw := field mode 1 0
  let w := nodeWidth opc r
  bit mode 2 || !namesElement opc || (if w = 4 then lw == 0 else decide (8 * 2 ^ lw ≤ w))

/-- WHICH of a record's own failure: the destination for code 3, the port for code 5 (R259). -/
def ownWhich (c : Nat) (r : NodeRec) (f : Form) : Nat :=
  if c = 3 then (if r.dst0 != .none then 0 else 1)
  else if c = 5 then (if gapPortOk f.a r.gapA && !(f.gap = .zero && r.gapA != .refuse) then 1 else 0) else 0

/-- The accumulator rows of an array format (R123). -/
def fp4 (f : ArrFmt) : Bool := f = .e2m1 || f = .nb4 || f = .mx4
/-- Fields of a node that depend on its plane: code 2 (R351, R374), code 4 for the port of MWLOAD and MMAC. -/
def ArmView.planeField (v : ArmView) (fmt : Option ArrFmt) (x : ArmNode) : Option Nat :=
  let k := field x.r.l 7 0
  if x.opc = 0xC0 ∨ x.opc = 0xC1 ∨ x.opc = 0xC2 then (if v.p.secCnt 3 ≤ k then some 2 else none)
  else if x.opc = 0xD0 ∨ x.opc = 0xD1 then
    (if k < v.p.secCnt 3 ∧ !spWrite (v.p.stream k) ∧ spArray (v.p.stream k) then none else some 4)
  else if x.opc = 0xD3 then
    match fmt with
    | none => none
    | some f => if (if fp4 f then 8 else 16) ≤ field x.r.l 3 0 ∨ bit x.r.l 4 ∧ !fp4 f then some 2 else none
  else none

/-- ARGW's target: a node of the plane whose LIT bit is set (R368). -/
def ArmView.argwOk (v : ArmView) (ns : List ArmNode) (r : NodeRec) : Bool :=
  match v.pos (field r.l 6 0 : Nat) (field r.l 13 7 : Nat) with
  | none => false
  | some j => ns.any fun x => x.key == j * 64 + field r.l 19 14 && x.r.lit

/-- The checks of one node but for its edges. -/
def ArmView.nodeCheck (v : ArmView) (fmt : Option ArrFmt) (filled : List Nat) (ns : List ArmNode) (es : List Edge) (x : ArmNode) :
    List ArmFail :=
  let f := planeForm fmt x.opc x.r
  let fail := fun (c which : Nat) => [({ code := c, elem := v.elem x.i, node := x.n, which := which, index := 0 } : ArmFail)]
  let own := match fieldCheck x.opc x.r with
    | some c => fail c (ownWhich c x.r f)
    | none => []
  let dest := fun (which : Nat) (d : Dest) => if (v.target filled x.i d).isNone then fail 3 which else []
  let write := fun (which : Nat) (d : Dest) =>
    match d, f.res with
    | .port k, some t => if agrees t (streamTy (v.p.stream k.toNat)) false false then [] else fail 4 which
    | _, _ => []
  let hasP := es.any fun e => e.key == x.key && e.port == .p
  own ++ dest 0 x.r.dst0 ++ dest 1 x.r.dst1 ++ write 0 x.r.dst0 ++ write 1 x.r.dst1
    ++ (if !f.three && f.p.isNone && (x.r.pm != .none) != hasP then fail 6 2 else [])
    ++ (match v.planeField fmt x with
        | some c => fail c 0
        | none => [])
    ++ (if x.opc = 0xCA ∧ !v.argwOk ns x.r then fail 3 0 else [])
    ++ (if x.opc = 0xA9 ∧ !(es.any fun e => e.key == x.key) then fail 3 0 else [])
    ++ (if lwOk (v.p.mode x.i) x.opc x.r then [] else [{ code := 8, elem := v.elem x.i, node := 0, which := 0, index := 0 }])

/-- What reading the records rejects (R238, R241, R248), and reserved bits of the port table (R96). -/
def ArmView.recordChecks (v : ArmView) : List ArmFail :=
  (List.range v.size).flatMap fun i => (List.range 64).flatMap fun n =>
    let at_ := fun (c which : Nat) => ({ code := c, elem := v.elem i, node := n, which := which, index := 0 } : ArmFail)
    ((armRecord (v.p.image i (12 * n) 12)).2.map fun x => at_ x.1 x.2)
      ++ (if bit (Sys2Proof.ofBytes (v.p.image i (0x300 + 2 * n) 2)) 15 then [at_ 2 0] else [])

/-! ### Elements: mode words, roles, the array, factorising beds (R96, R122, R123, R130, R139, R152, R154) -/

def ArmView.elemFail (v : ArmView) (c i : Nat) : ArmFail := { code := c, elem := v.elem i, node := 0, which := 0, index := 0 }
def isPow2 (n : Nat) : Bool := [1, 2, 4, 8, 16, 32].contains n

def ArmView.elemChecks (v : ArmView) : List ArmFail :=
  (List.range v.size).flatMap fun i =>
    let m := v.p.mode i
    let e := v.p.role i
    let role := v.p.roleAt i
    (if field m 1 0 = 3 ∨ 2 ^ 18 ≤ m ∨ bit m 2 ∧ bit m 3 then [v.elemFail 8 i] else [])
      ++ (if role = 3 ∨ 56 < e ∨ role = 2 ∧ !isPow2 e then [v.elemFail 11 i] else [])

/-- The rectangle of the systolic elements: west, north, columns, rows; none where there is no systolic element. -/
def ArmView.systolic (v : ArmView) : List Nat := (List.range v.size).filter fun i => bit (v.p.mode i) 2
def ArmView.arrayRect (v : ArmView) (sys : List Nat) : Nat × Nat × Nat × Nat :=
  let xs := sys.map fun i => i % v.w
  let ys := sys.map fun i => i / v.w
  let x := xs.foldl min (xs.headD 0)
  let y := ys.foldl min (ys.headD 0)
  (x, y, xs.foldl max 0 - x + 1, ys.foldl max 0 - y + 1)

def ArmView.arrayChecks (v : ArmView) (fmt : Option ArrFmt) (ns : List ArmNode) (blockOfKey : Nat → Option Nat) : List ArmFail :=
  let sys := v.systolic
  match sys with
  | [] => []
  | i0 :: _ =>
    let (x, y, ac, ar) := v.arrayRect sys
    let bad := sys.filter fun i => field (v.p.mode i) 11 6 != i / v.w - y || field (v.p.mode i) 17 12 != i % v.w - x
    let shape := decide (sys.length ≠ ac * ar) || decide (64 < ac) || decide (64 < ar)
      || decide ((v.x0 + x) / 64 ≠ (v.x0 + x + ac - 1) / 64) || decide ((v.y0 + y) / 64 ≠ (v.y0 + y + ar - 1) / 64)
    let mw := ns.filter fun n => n.opc == 0xD0 || n.opc == 0xD1
    let odd := mw.filter fun n => arrFmt n.r.f n.r.x != fmt
    let drains := ns.filter fun n => n.opc == 0xD2
    let south := (drains.filter fun n => n.i / v.w == y + ar - 1).map fun n => n.i % v.w
    let drainBad := (List.range ac).any (fun j => (south.filter fun c => c == x + j).length != 1)
      || (drains.any fun n => n.r.t != (drains.head?.map fun m => m.r.t).getD false)
      || (drains.any fun n => blockOfKey n.key != (drains.head?.bind fun m => blockOfKey m.key))
    (bad.map fun i => v.elemFail 8 i) ++ (if shape then [v.elemFail 8 i0] else [])
      ++ (if mw.isEmpty then [v.elemFail 8 i0] else []) ++ (odd.map fun n => v.elemFail 8 n.i)
      ++ (if drainBad then [v.elemFail 8 ((y + ar - 1) * v.w + x)] else [])

def ArmView.factorChecks (v : ArmView) : List ArmFail :=
  (List.range (v.p.wb * v.p.hb)).flatMap fun b =>
    let es := (List.range 64).map fun k => (b / v.p.wb * 8 + k / 8) * v.w + b % v.p.wb * 8 + k % 8
    let on := es.filter fun i => bit (v.p.mode i) 3
    if on.isEmpty || on.length == 64 && es.all (fun i => v.p.roleAt i == 0) then [] else [v.elemFail 8 (on.headD 0)]

/-! ### Streams, routes, argument map (R256, R257, R352) -/

/-- DEDUCED (log entry 61). -/
def ArmView.streamChecks (v : ArmView) (filled : List Nat) : List ArmFail :=
  (List.range (v.p.secCnt 3)).flatMap fun k =>
    let x := v.p.stream k
    let pos := v.fifoPos k
    let fail := fun (c : Nat) => [v.elemFail c (pos.getD 0)]
    let fieldBad := spFmta x == 15 || decide (2 ≤ spStamp x) || field x 63 55 != 0 || field x 127 100 != 0
      || spStamp x == 0 && spRt x == 0 || spGeom x != 0 && !(7 ≤ spFmta x && spFmta x ≤ 10)
      || 7 ≤ spFmta x && spFmta x ≤ 10 && !spArray x
    let role := match pos with
      | none => true
      | some i => v.p.roleAt i != 1
    let dest := if spWrite x || spArray x then field x 46 27 != 0
      else match pos, Dest.ofCode (field x 46 27) with
        | some i, some d => (match v.target filled i d with
            | some (some _) => false
            | _ => true)
        | _, _ => true
    (if fieldBad then fail 2 else []) ++ (if dest then fail 3 else []) ++ (if role then fail 11 else [])

def ArmView.planeFail (v : ArmView) (c index : Nat) : ArmFail := { code := c, elem := v.elem 0, node := 0, which := 0, index := index }

def ArmView.routeChecks (v : ArmView) : List ArmFail :=
  (List.range (v.p.secCnt 2)).flatMap fun k =>
    let e := v.p.route k
    let pos := if bit e 14 then v.pos ((field e 6 0 : Nat) - (v.p.ox * 8 : Nat)) ((field e 13 7 : Nat) - (v.p.oy * 8 : Nat))
      else v.pos ((field e 6 0 : Nat) - (v.x0 : Nat)) ((field e 13 7 : Nat) - (v.y0 : Nat))
    if field e 31 15 ≠ 0 ∨ pos = none ∨ !bit e 14 ∧ !v.p.fixed then [v.planeFail 10 k] else []

/-- Fields of an argument-map entry (R257). -/
def amArg (x : Nat) : Nat := field x 5 0
def amCarry (x : Nat) : Bool := bit x 6
def amSlot (x : Nat) : Nat := field x 12 7
def amX (x : Nat) : Nat := field x 13 7
def amY (x : Nat) : Nat := field x 20 14
def amNode (x : Nat) : Nat := field x 26 21

def ArmView.argChecks (v : ArmView) (filled : List Nat) : List ArmFail :=
  (List.range (v.p.secCnt 1)).flatMap fun k =>
    let x := v.p.argMap k
    let ok := if amCarry x then field x 31 13 == 0 && amSlot x != 63
      else field x 31 27 == 0 && (match v.pos (amX x : Nat) (amY x : Nat) with
        | some j => filled.contains (j * 64 + amNode x)
        | none => false)
    let beyond := (v.argc.map fun n => decide (n ≤ amArg x)).getD false
    if ok && !beyond then [] else [v.planeFail 12 k]

/-! ### Blocks (R250 to R254, R312, R323) -/

/-- Keys of a block's nodes; none for an entry outside the rectangle or naming an empty record. -/
def ArmView.blockKeys (v : ArmView) (filled : List Nat) (b : Nat) : List (Option Nat) :=
  (v.p.blockNodes b).map fun e =>
    (v.pos (neX e : Nat) (neY e : Nat)).bind fun j =>
      if filled.contains (j * 64 + neNode e) && field e 31 23 == 0 && (nePort e).isSome then some (j * 64 + neNode e) else none

/-- The block that a node belongs to. -/
def ArmView.blockOfKey (v : ArmView) (filled : List Nat) (k : Nat) : Option Nat :=
  (List.range v.p.nblk).find? fun b => (v.blockKeys filled b).contains (some k)

def maskOf (xs : List Nat) : Nat := xs.eraseDups.foldl (fun m k => m + 2 ^ k) 0

def ArmView.blockCheck (v : ArmView) (filled : List Nat) (ns : List ArmNode) (b : Nat) : Bool :=
  let h := v.p.blockRec b
  let count := hdrNcount h
  let fits := 1 ≤ count && count ≤ 128 && decide (hdrNodeOff h + count ≤ v.p.secCnt 5)
  let rep := if hdrTmr h then hdrNrep h != 0 && decide (3 * hdrNrep h ≤ count) else hdrNrep h == 0
  let keys := v.blockKeys filled b
  let mine := keys.filterMap fun k => k.bind fun k => ns.find? fun x => x.key == k
  let others := ((List.range v.p.nblk).filter fun c => c != b).flatMap fun c => v.blockKeys filled c
  let stores := mine.filterMap fun x =>
    match acctClass x.opc x.r with
    | some (.lsid l) => some l
    | _ => none
  let wrc := mine.filterMap fun x => if x.opc = 0xB5 then some (x.r.l % 64) else none
  let bed := fun (k : Nat) => (k / 64 % v.w / 8, k / 64 / v.w / 8)
  let apart := (List.range (hdrNrep h)).all fun i =>
    let copies := (List.range 3).filterMap fun c => ((keys[c * hdrNrep h + i]?).bind id).map bed
    copies.length == copies.eraseDups.length
  let inner := mine.all fun x =>
    (x.opc != 0xB4 || bit (hdrCread h) (x.r.l % 64)) && (x.opc != 0x0A || hdrTmr h)
      && (!(x.opc == 0xB0 || x.opc == 0xB2 || x.opc == 0xB6) || field x.r.l 15 0 != v.num || decide (field x.r.l 23 16 < v.p.nblk))
  fits && rep && (keys.all fun k => k.isSome) && decide (keys.length = keys.eraseDups.length) && !(keys.any fun k => others.contains k)
    && maskOf stores == hdrSmask h && maskOf wrc == hdrCwrite h && (!hdrTmr h || apart) && inner

def ArmView.blockChecks (v : ArmView) (filled : List Nat) (ns : List ArmNode) : List ArmFail :=
  ((List.range v.p.nblk).flatMap fun b => if v.blockCheck filled ns b then [] else [v.planeFail 9 b])
    ++ (if filled.any fun k => (v.blockOfKey filled k).isNone then [v.planeFail 9 0] else [])

/-! ### Router trees (R380) -/

/-- The link by which a route from one position enters another: 0 N, 1 E, 2 S, 3 W (R98). -/
def ArmView.entersBy (v : ArmView) (child parent : Nat) : Option Nat :=
  let cx := child % v.w
  let cy := child / v.w
  let px := parent % v.w
  let py := parent / v.w
  if cy < py then some 0 else if py < cy then some 2 else if cx < px then some 3 else if px < cx then some 1 else none

/-- Whether a node reaches a root by its parents in `n` steps. -/
def reachesRoot (up : List (Nat × Nat)) (roots : List Nat) : Nat → Nat → Bool
  | 0, k => roots.contains k
  | n + 1, k => roots.contains k || (match up.find? fun x => x.1 == k with
    | some (_, p) => reachesRoot up roots n p
    | none => false)

def ArmView.treeChecks (v : ArmView) (filled : List Nat) (ns : List ArmNode) : List ArmFail :=
  let fail := fun (x : ArmNode) (c which : Nat) => ({ code := c, elem := v.elem x.i, node := x.n, which := which, index := 0 } : ArmFail)
  (List.range 16).flatMap fun tree =>
    let puts := ns.filter fun x => x.opc == 0xE6 && field x.r.l 3 0 == tree
    let waits := ns.filter fun x => x.opc == 0xE7 && field x.r.l 3 0 == tree
    let roots := puts.filter fun x => bit x.r.l 8
    let parent := fun (x : ArmNode) =>
      match v.target filled x.i x.r.dst0 with
      | some (some (k, .b)) => if puts.any fun y => y.key == k then some k else none
      | _ => none
    let up := (puts.filter fun x => !bit x.r.l 8).filterMap fun x => (parent x).map fun k => (x.key, k)
    (waits.filterMap fun x => if roots.any (fun y => field y.r.l 11 9 == x.r.f) then none else some (fail x 2 0))
      ++ (if puts.isEmpty || roots.length == 1 then [] else (puts.take 1).map fun x => fail x 3 0)
      ++ (puts.flatMap fun x =>
        if bit x.r.l 8 then [] else
          (if (parent x).isNone || !reachesRoot up (roots.map ArmNode.key) puts.length x.key then [fail x 3 0] else [])
            ++ (if x.r.dst1 != .none then [fail x 3 1] else []))
      ++ (puts.flatMap fun x =>
        let links := (up.filter fun y => y.2 == x.key).map fun y => v.entersBy (y.1 / 64) x.i
        let ls := links.filterMap id
        if decide (ls.length = links.length) && decide (ls.eraseDups.length = ls.length) && maskOf ls == field x.r.l 7 4 then []
        else [fail x 3 0])

/-! ### All checks -/

/-- Every failure of a plane in a region (R258). DEDUCED (log entry 61). -/
def ArmView.failures (v : ArmView) : List ArmFail :=
  let filled := v.p.filled
  let ns := v.p.nodes
  let fmt := arrayFmt ns
  let es := v.edges filled ns
  v.recordChecks ++ (ns.flatMap fun x => v.nodeCheck fmt filled ns es x) ++ v.edgeChecks fmt ns es ++ v.elemChecks
    ++ v.arrayChecks fmt ns (v.blockOfKey filled) ++ v.factorChecks ++ v.streamChecks filled ++ v.routeChecks
    ++ v.argChecks filled ++ v.blockChecks filled ns ++ v.treeChecks filled ns

/-- Which of two failures is recorded: lowest element, then node, then code (R259). -/
def ArmFail.before (x y : ArmFail) : Bool :=
  decide (x.elem < y.elem) || x.elem == y.elem && (decide (x.node < y.node) || x.node == y.node && decide (x.code ≤ y.code))
/-- DEDUCED (log entry 61). -/
def firstFail : List ArmFail → Option ArmFail
  | [] => none
  | x :: r => some (r.foldl (fun a b => if a.before b then a else b) x)

end Sys2Proof.Machine
end

