-- ==== Sys2Proof/Machine/Rows.lean ====
section
/-! DEFINITION. Row commands of the Pergola (R162, R163, R363 to R366) and the forced closes of its banks. -/
namespace Sys2Proof.Machine

/-! ### The command word (R363) -/

def rowBank (w : Nat) : Nat := field w 5 0
def rowRow (w : Nat) : Nat := field w 17 6
def rowBx (w : Nat) : Nat := field w 21 18
def rowBy (w : Nat) : Nat := field w 25 22

/-- BUF_RANGE of a row command: INFO is the 32 bytes that each element of the bed gives or takes (R218, R365); the size of an access that
ROWACT and ROWPRE do not make is open (log entry 55). ADDR is the command word (R363). -/
def State.rowRange (s : State) (h : HeldOp) (w : Nat) : State :=
  let (v, s) := match h.instr with
    | .rowcon _ | .rowput _ => (32, s)
    | _ => let (v, s) := s.free
           (v.toNat, s)
  s.raiseHeld h { code := trapBufRange, info := BitVec.ofNat 64 v, addr := BitVec.ofNat 64 w }

/-- Every element of the bed has the addressed-buffer role and room for 32 bytes at an offset (R365, R366). -/
def State.bedHolds (s : State) (bed c off : Nat) : Bool :=
  (bedElems bed).all fun e => s.roleCode e c == 0 && decide (off + 32 ≤ s.extent e c)

/-- Weight mode, half, set and offset of ROWCON (R365). -/
def conWeight (l : Nat) : Bool := bit l 16
def conHalf (l : Nat) : Nat := field l 21 17
def conSet (l : Nat) : Bool := bit l 22
def conOff (l : Nat) : Nat := field l 15 0

/-- Whether the forms' own checks let a command go to its bank: BUF_RANGE or MX_STATE otherwise (R365, R366).
DEDUCED (log entry 55). -/
def State.rowCheck (s : State) (h : HeldOp) (bed : Nat) : Option Nat :=
  match h.instr with
  | .rowcon r =>
    if conWeight r.l then
      match s.arr? (s.issTid h.iss) h.iss.ctx with
      | none => some trapMxState
      | some a => if (bedElems bed).any fun e => a.elems.any fun x => x.1 == e then none else some trapMxState
    else if s.bedHolds bed h.iss.ctx (conOff r.l) then none else some trapBufRange
  | .rowput r => if s.bedHolds bed h.iss.ctx (field r.l 15 0) then none else some trapBufRange
  | _ => none

/-- A row command performs: checked for range, it waits for the next row-clock edge (R162, R363). -/
def State.performRow (h : HeldOp) (s : State) : State :=
  let w := valOf h.iss.f.a % 2 ^ 64
  match s.issTask h.iss with
  | none => s.doneHeld h
  | some (_, t) =>
    if t.wb ≤ rowBx w ∨ t.hb ≤ rowBy w then s.rowRange h w else
    let bed := bedOf (t.elem (8 * rowBx w) (8 * rowBy w))
    match s.rowCheck h bed with
    | some c => if c = trapBufRange then s.rowRange h w else s.raiseHeld h { code := c }
    | none =>
      let cmd : RowCmd := { id := h.id, instr := h.instr, iss := h.iss, bank := bed * 64 + rowBank w, row := rowRow w,
                            count := (s.units + unitsPerRow - 1) / unitsPerRow, doneAt := none }
      let s := (s.doneHeld h).setMem { s.mem with rowCmds := s.mem.rowCmds ++ [cmd] }
      match h.instr with
      | .rowput r => s.noteDone h.iss r.x .done
      | _ => s

/-- ROWACT (R363, R364). -/
def execRowact (r : NodeRec) (s : State) : Out := s.fireHeld 0xC5 (.rowact r) r State.performRow
/-- ROWCON (R365). -/
def execRowcon (r : NodeRec) (s : State) : Out := s.fireHeld 0xC6 (.rowcon r) r State.performRow
/-- ROWPUT (R366). -/
def execRowput (r : NodeRec) (s : State) : Out := s.fireWriting 0xC7 (.rowput r) r State.performRow
/-- ROWPRE (R363, R364). -/
def execRowpre (r : NodeRec) (s : State) : Out := s.fireHeld 0xC8 (.rowpre r) r State.performRow

/-! ### Banks (R162) -/

/-- Count `c` falls in the refresh of bank `k` of a bed. -/
def inRefresh (k c : Nat) : Bool := (c + 2304 - 36 * k) % 2304 < 12
/-- The first count after `a` at which a refresh of bank `k` begins. -/
def nextRefresh (k a : Nat) : Nat := a + (2304 - (a + 2304 - 36 * k) % 2304)
/-- Count at which a row opened at `a` is closed by force: RT_OPEN or the refresh. DEDUCED (log entry 55). -/
def forcedAt (k a : Nat) : Nat := min (a + 1200) (nextRefresh k a)

/-- Close a bank; its bed's bus is idle since then (R164). -/
def Memory.closeBank (m : Memory) (n p : Nat) : Memory :=
  let b := Tab.getD m.banks n .reset
  { m with banks := Tab.set m.banks n { b with open_ := false, p := p }
           rowIdle := Tab.set m.rowIdle (n / 64) (max p (Tab.getD m.rowIdle (n / 64) 0)) }
/-- Close a bank by force where its time has come by count `c`. DEDUCED (log entry 55). -/
def Memory.settleBank (m : Memory) (n c : Nat) : Memory :=
  let b := Tab.getD m.banks n .reset
  if b.open_ ∧ forcedAt (n % 64) b.a ≤ c then m.closeBank n (forcedAt (n % 64) b.a) else m

/-- A row command that comes first among those that have not taken effect: lower count, then the order of R348. R162 and R363 take that order
for all commands of one count; where they performed in different fabric cycles of it, R348 orders only events of one cycle, and the model
goes by element, context and node all the same: DESIGN CHOICE (log entry 55). -/
def RowCmd.before (x y : RowCmd) : Bool :=
  decide (x.count < y.count) || x.count == y.count &&
    (decide (x.iss.elem < y.iss.elem) || x.iss.elem == y.iss.elem &&
      (decide (x.iss.ctx < y.iss.ctx) || x.iss.ctx == y.iss.ctx && decide (x.iss.f.node < y.iss.f.node)))
/-- Commands of a bed that have not taken effect. -/
def Memory.rowPending (m : Memory) (bed : Nat) : List RowCmd := m.rowCmds.filter fun c => c.bank / 64 == bed && c.doneAt.isNone

def isRowact : Instr → Bool
  | .rowact _ => true
  | _ => false

/-- The trap that the state table gives a command at count `c`, if any (R161, R162). DEDUCED (log entry 55). -/
def Memory.rowTrap (m : Memory) (x : RowCmd) (c : Nat) : Option Nat :=
  let bed := x.bank / 64
  let b := Tab.find m.banks x.bank
  let open_ := (b.map (·.open_)).getD false
  let a := (b.map (·.a)).getD 0
  if bankBit m.bankMap x.bank || m.busOut.getLsbD bed then some trapBankRetired
  else if m.remapBusy && isRowact x.instr then some trapRowRemap
  else if Tab.find m.rowTaken bed = some c then some trapRowWindow
  else
    match x.instr with
    | .rowact _ =>
      let early := match b with
        | some y => !y.open_ && decide (c < y.p + 5)
        | none => false
      let many := 4 ≤ ((Tab.getD m.acts bed []).filter fun y => decide (c ≤ y + 11)).length
      if open_ || early || inRefresh (x.bank % 64) c || many then some trapRowWindow else none
    | .rowpre _ => none
    | _ => if !open_ then some trapRowClosed else if c < a + 5 then some trapRowEarly else none

/-- Bytes of the open row that element `i` of the bed takes or gives: their physical address (R160, R365). -/
def Memory.rowPart (m : Memory) (n row i : Nat) : Nat := m.rowPa n row (32 * i)

/-- Move the row into the addressed-buffer areas of the bed (R365). -/
def Memory.rowToBanks (m : Memory) (n row c off : Nat) : Memory :=
  ((bedElems (n / 64)).zipIdx).foldl (fun m (e, i) =>
    let a := m.rowPart n row i
    let k := bankKey e c off
    { m with bank := writeCells m.bank k (readCells m.dram a 32),
             bankPois := (List.range 2).foldl (fun t j => Tab.put false t (k / 16 + j) (Tab.getD m.dramPois (a / 16 + j) false)) m.bankPois }) m
/-- Move the row from the areas of the bed into the bank, and drop the row's lines from the Glasshouse (R366). -/
def Memory.banksToRow (m : Memory) (n row c off : Nat) : Memory :=
  let m := ((bedElems (n / 64)).zipIdx).foldl (fun m (e, i) =>
    let a := m.rowPart n row i
    let k := bankKey e c off
    { m with dram := writeCells m.dram a (readCells m.bank k 32),
             dramPois := (List.range 2).foldl (fun t j => Tab.put false t (a / 16 + j) (Tab.getD m.bankPois (k / 16 + j) false)) m.dramPois }) m
  (List.range 16).foldl (fun m j => m.invalidate (m.rowPa n row (128 * j) / 128)) m
/-- Move shares of the row into weight sets of the plane's array; the others are dropped (R126, R365). -/
def State.rowToWeights (s : State) (x : RowCmd) (l : Nat) : State :=
  let tid := s.issTid x.iss
  let c := x.iss.ctx
  match s.arr? tid c with
  | none => s
  | some a =>
    let k := arrKey tid c
    let st := s.arrSt k
    let sets := ((bedElems (x.bank / 64)).zipIdx).foldl (fun t (e, i) =>
      match a.elems.find? fun y => y.1 == e with
      | none => t
      | some (_, ri, cj) =>
        let at_ := s.mem.rowPart x.bank x.row i
        let key := setKey ri cj (conSet l)
        Tab.set t key ((Tab.getD t key .new).take a.fmt false (32 * conHalf l) (readCells s.mem.dram at_ 32) (2 ^ conHalf l)
          (anyPois s.mem.dramPois at_ 32))) st.sets
    s.setArr k { st with sets := sets }

/-- The command performs at count `c`: the state after, and the count at which its token leaves (R162, R364). Watches on what a row writes
read again (R72, R344). -/
def State.rowGo (s : State) (x : RowCmd) (c : Nat) : Nat × State :=
  let bed := x.bank / 64
  match x.instr with
  | .rowact _ =>
    let m := s.mem
    let run := Tab.getD m.vbRunning bed false
    (c + 5, s.setMem { m with
      banks := Tab.set m.banks x.bank { open_ := true, row := x.row, a := c, p := (Tab.getD m.banks x.bank .reset).p }
      acts := Tab.set m.acts bed (((Tab.getD m.acts bed []).filter fun y => decide (c ≤ y + 11)) ++ [c])
      vbRunning := Tab.set m.vbRunning bed false
      vbYields := if run then BitVec.ofNat 16 (satTo 16 (m.vbYields.toNat + 1)) else m.vbYields })
  | .rowcon r =>
    let row := (Tab.getD s.mem.banks x.bank .reset).row
    (c + 1, if conWeight r.l then s.rowToWeights { x with row := row } r.l
            else (bedElems bed).foldl (fun s e => s.noteWrite .buffer (bankKey e x.iss.ctx (conOff r.l)) 32)
                   (s.setMem (s.mem.rowToBanks x.bank row x.iss.ctx (conOff r.l))))
  | .rowput r =>
    let row := (Tab.getD s.mem.banks x.bank .reset).row
    (c + 1, (List.range 64).foldl (fun s i => s.noteWrite .global (s.mem.rowPart x.bank row i) 32)
              (s.setMem (s.mem.banksToRow x.bank row x.iss.ctx (field r.l 15 0))))
  | _ =>
    if (Tab.getD s.mem.banks x.bank .reset).open_ then (c + 5, s.setMem (s.mem.closeBank x.bank c)) else (c, s)

/-- A row command that traps at its edge has not performed: a ROWPUT leaves the record of its activation (R191). -/
def State.undone (s : State) (x : RowCmd) : State :=
  match x.instr with
  | .rowput r => s.updAct x.iss.f.aid fun a => { a with performed := a.performed.filter fun p => p.lsid != r.x }
  | _ => s

/-- ROW_COMMAND_EFFECT: past the edge of its count, the first command of the bed takes effect or faults (R162, R363). -/
def State.rowEffect (s : State) (x : RowCmd) : State :=
  let bed := x.bank / 64
  if x.doneAt.isSome || decide (s.units ≤ x.count * unitsPerRow) || (s.mem.rowPending bed).any (fun y => y.before x) then s else
  let c := x.count
  let s := s.setMem (s.mem.settleBank x.bank c)
  let drop := fun (s : State) => s.setMem { s.mem with rowCmds := s.mem.rowCmds.filter fun y => y.id != x.id }
  let take := fun (s : State) => s.setMem { s.mem with rowTaken := Tab.set s.mem.rowTaken bed c }
  match s.mem.rowTrap x c with
  | some t =>
    ((drop (take s)).undone x).raise x.iss
      { code := t, info := if t = trapRowRemap then 0 else BitVec.ofNat 64 c, addr := BitVec.ofNat 64 x.bank,
        lsid := (Instr.record x.instr).x }
  | none =>
    let (d, s) := (take s).rowGo x c
    s.setMem { s.mem with rowCmds := s.mem.rowCmds.map fun y => if y.id = x.id then { y with doneAt := some d } else y }

/-- ROW_COMMAND_EFFECT. DEDUCED (log entry 55). -/
def execRowCommandEffect (s : State) : Out :=
  match s.inp with
  | some (.rowCommandEffect id) =>
    let s := { s with inp := none }
    match s.mem.rowCmds.find? fun x => x.id == id with
    | none => .next s
    | some x => .next (s.rowEffect x)
  | _ => .next s

/-- ROW_COMMAND_COMPLETE: the token leaves at its count (R364). -/
def execRowCommandComplete (s : State) : Out :=
  match s.inp with
  | some (.rowCommandComplete id) =>
    let s := { s with inp := none }
    match s.mem.rowCmds.find? fun x => x.id == id with
    | none => .next s
    | some x =>
      match x.doneAt with
      | none => .next s
      | some d =>
        if s.rowClk < d then .next s else
        .next ((s.setMem { s.mem with rowCmds := s.mem.rowCmds.filter fun y => y.id != id }).reply x.iss (Instr.record x.instr) .done)
  | _ => .next s

/-- A forced close of a bank whose time `at_` has come, no command of an earlier count being outstanding in its bed (R162).
DEDUCED (log entry 55). -/
def State.forceClose (s : State) (n at_ : Nat) : State :=
  let b := Tab.getD s.mem.banks n .reset
  if !b.open_ || decide (s.rowClk < at_) || at_ != forcedAt (n % 64) b.a || (s.mem.rowPending (n / 64)).any (fun x => decide (x.count < at_)) then s
  else s.setMem (s.mem.closeBank n at_)

/-- ROW_OPEN_TIMEOUT: RT_OPEN after the ROWACT (R162). -/
def execRowOpenTimeout (s : State) : Out :=
  match s.inp with
  | some (.rowOpenTimeout n) => .next ({ s with inp := none }.forceClose n ((Tab.getD s.mem.banks n .reset).a + 1200))
  | _ => .next s
/-- ROW_REFRESH: the refresh of a bank begins; an open row is closed by force (R162). -/
def execRowRefresh (s : State) : Out :=
  match s.inp with
  | some (.rowRefresh n) => .next ({ s with inp := none }.forceClose n (nextRefresh (n % 64) (Tab.getD s.mem.banks n .reset).a))
  | _ => .next s

end Sys2Proof.Machine
end

