-- ==== Sys2Proof/Machine/Notify.lean ====
section
/-! DEFINITION. The notify of a user queue (R53), queue writes by tasks (R92, R367) and literal writes (R240, R368, R369). -/
namespace Sys2Proof.Machine

/-! ### Queue descriptors (R52, R53) -/

/-- Word +8 of a descriptor. -/
def qdLog (w : Nat) : Nat := field w 4 0
def qdLoc (w : Nat) : Bool := bit w 5
def qdPrio (w : Nat) : Nat := field w 8 6
def qdAsid (w : Nat) : Nat := field w 16 9
def qdEn (w : Nat) : Bool := bit w 28

/-- The slot that a queue is mapped to (R54). -/
def State.queueSlot (s : State) (q : Nat) : Option Nat := (s.que.slots.find? fun x => x.2.valid && x.2.qid.toNat == q).map (·.1)
def State.slot (s : State) (k : Nat) : Slot := Tab.getD s.que.slots k .reset
def State.setSlot (s : State) (k : Nat) (x : Slot) : State := s.setQue { s.que with slots := Tab.set s.que.slots k x }
/-- The latest write index of a queue (R53). -/
def State.writeIndex (s : State) (q : Nat) : Nat × State :=
  match s.queueSlot q with
  | some k => ((s.slot k).notify.toNat, s)
  | none => s.desc q 20 4

/-- WR reaches the device for queue `q`, whose descriptor nothing is in the way of (R53). -/
def State.notify (s : State) (q wr : Nat) : State :=
  let w := wr % 2 ^ 32
  let s := s.setQue { s.que with wr := Tab.set s.que.wr q (BitVec.ofNat 32 w) }
  let s := match s.queueSlot q with
    | some k => s.setSlot k { s.slot k with notify := BitVec.ofNat 32 w }
    | none =>
      let s := s.setDesc q 20 4 w
      s.setQue { s.que with pend := s.que.pend ||| BitVec.ofNat 1024 (2 ^ q) }
  let (rd, s) := s.desc q 16 4
  let (d, s) := s.desc q 8 4
  if 2 ^ qdLog d < (w + 2 ^ 32 - rd) % 2 ^ 32 then s.queueErr q 7 else s

/-! ### QPUT (R92, R367) -/

/-- The entries of a packet from `a` on, each with its poison; all that a peer holds is asked for at once (R367). -/
def State.putLoad (s : State) (h : HeldOp) (a : Nat) : Nat → Found (List (List Byte × Bool)) × State
  | 0 => (.ok [], s)
  | n + 1 =>
    match s.loadOwn h a 128 with
    | (.fault t, s) => (.fault t, s)
    | (.waits, s) =>
      match State.putLoad s h (a + 128) n with
      | (.fault t, s) => (.fault t, s)
      | (_, s) => (.waits, s)
    | (.ok bs p, s) =>
      match State.putLoad s h (a + 128) n with
      | (.ok es, s) => (.ok ((bs, p.isSome) :: es), s)
      | (x, s) => (x, s)
/-- The packet of a queue write: EXT, then its entries (R367). -/
def State.putPacket (s : State) (h : HeldOp) (a : Nat) : Found (Nat × List (List Byte × Bool)) × State :=
  match s.loadOwn h (a + 10) 1 with
  | (.fault t, s) => (.fault t, s)
  | (.waits, s) => (.waits, s)
  | (.ok b _, s) =>
    let ext := Sys2Proof.ofBytes b
    match s.putLoad h a (ext + 1) with
    | (.ok es, s) => (.ok (ext, es), s)
    | (.waits, s) => (.waits, s)
    | (.fault t, s) => (.fault t, s)

/-- Nothing is in the way of the entries of a packet (R161, R163). -/
def State.mayPut (s : State) (q asid ring size wr n : Nat) : Bool :=
  (List.range n).all fun k => s.mayWriteVa asid (ring + 128 * ((wr + k) % size)) 128 (some q)
/-- Store the entries of a packet in the ring (R367). DEDUCED (log entry 54). -/
def State.putEntries (s : State) (q asid ring size wr : Nat) : List (List Byte × Bool) → Option Trap × State
  | [] => (none, s)
  | (bs, p) :: r =>
    match s.writeVa asid (ring + 128 * (wr % size)) bs p none (some q) with
    | (some t, s) => (some t, s)
    | (none, s) => State.putEntries s q asid ring size (wr + 1) r

/-- A queue write is over: its status is fired. -/
def State.putDone (s : State) (h : HeldOp) (r : NodeRec) (status : Nat) : State :=
  let p := Pay.scalar status
  let s := s.doneHeld h
  (if status = 0 then s.noteDone h.iss r.x p else s).reply h.iss r p

/-- Where a QPUT.NB has found a queue full in this cycle: its read index advances no more in it, since an advance comes first (R370). -/
def fullMark (q : Nat) : Nat := 1024 + q
/-- The read index of a queue may advance: its descriptor is open to a write, and no QPUT.NB has found the queue full in this cycle (R348, R370). -/
def State.mayAdvance (s : State) (q : Nat) : Bool := s.descReady q && !(s.turns.any fun t => t.space == queueSpace && t.addr == fullMark q)
/-- The ring of a queue has no room for a head entry and `ext` more behind WR (R53, R92). -/
def State.ringFull (s : State) (q ext : Nat) : Bool :=
  decide (2 ^ qdLog (s.desc q 8 4).1 < ((s.writeIndex q).1 + (ext + 1) + 2 ^ 32 - (s.desc q 16 4).1) % 2 ^ 32)
/-- A QPUT or QPUT.NB goes on with its packet, EXT and entries (R367): the first of its queue in this cycle's order that has not (R348); a full
ring parks QPUT with the packet, and it tries again later (R92, R93). DEDUCED (log entry 54). -/
def State.putAt (nb : Bool) (h : HeldOp) (r : NodeRec) (ext : Nat) (es : List (List Byte × Bool)) (s : State) : State :=
  let q := r.l % 1024
  let (wr, s) := s.writeIndex q
  let (d, s) := s.desc q 8 4
  let (err, s) := s.desc q 24 1
  let (ring, s) := s.desc q 0 8
  let size := 2 ^ qdLog d
  let turn := fun (s : State) => s.noteTurn queueSpace q 1 h.iss.rank
  if !qdEn d || !qdLoc d || qdAsid d != s.issAsid h.iss || err != 0 then (turn s).putDone h r 2
  else if 2 < ext ∨ size < ext + 1 then (turn s).putDone h r 3
  else if s.ringFull q ext then
    if nb then ((turn s).noteTurn queueSpace (fullMark q) 1 h.iss.rank).putDone h r 1 else s.setHeldOp { h with packet := some (ext, es) }
  else if !s.mayPut (h.iss.elem / 4096) (s.issAsid h.iss) ring size wr (ext + 1) then s
  else
    match (turn s).putEntries (h.iss.elem / 4096) (s.issAsid h.iss) ring size wr es with
    | (some t, s) => s.raiseHeld h t
    | (none, s) => (s.notify q (wr + ext + 1)).putDone h r 0
/-- QPUT and QPUT.NB perform (R367): the packet is read once. -/
def State.performQput (nb : Bool) (h : HeldOp) (r : NodeRec) (s : State) : State :=
  let q := r.l % 1024
  if !s.descReady q || !s.turnOk queueSpace q 1 h.iss.rank then s else
  match h.packet with
  | some (ext, es) => s.putAt nb h r ext es
  | none =>
    match s.putPacket h (valOf h.iss.f.a % 2 ^ 64) with
    | (.fault t, s) => s.raiseHeld h t
    | (.waits, s) => s
    | (.ok (ext, es), s) => s.putAt nb h r ext es

/-- QPUT (R367). -/
def execQput (r : NodeRec) (s : State) : Out := s.fireWriting 0xC9 (.qput r) r fun h s => s.performQput false h r
/-- QPUT.NB (R367). -/
def execQputNb (r : NodeRec) (s : State) : Out := s.fireWriting 0xC9 (.qputNb r) r fun h s => s.performQput true h r

/-! ### ARGW (R240, R368, R369) -/

/-- The value that a literal write leaves in LIT32: bits above the literal's code are zero (R244, R368). -/
def litMask (opc : Nat) (r : NodeRec) (v : Nat) : Nat :=
  match (formOf opc r).b with
  | some t => v % 2 ^ (min 32 t.kind.width)
  | none => v % 2 ^ 32
/-- Write a node's LIT32. DEDUCED (log entry 37). -/
def State.writeLit (s : State) (e c n v : Nat) : State :=
  match s.recAt e c n with
  | some (opc, r) =>
    s.setFab { s.fab with store := writeCells s.fab.store (e * 4096 + c * 1024 + 12 * n + 8) (bytesOf 4 (litMask opc r v)) }
  | none => s
/-- Enter a rewrite into a plane's log of 64 targets; none when it is full (R369). DEDUCED (log entry 54). -/
def Resident.rewrite (x : Resident) (key : Nat) (v : W32) : Option Resident :=
  if x.log.any fun y => y.1 == key then some { x with log := x.log.map fun y => if y.1 = key then (key, v) else y }
  else if 64 ≤ x.log.length then none
  else some { x with log := x.log ++ [(key, v)] }
/-- Router hops between two elements. DEDUCED (log entry 54). -/
def hops (e f : Nat) : Nat := (elemX e - elemX f) + (elemX f - elemX e) + (elemY e - elemY f) + (elemY f - elemY e)

/-- ARGW performs: its write is under way from now on (R368). -/
def State.performArgw (h : HeldOp) (s : State) : State :=
  if h.done.isSome then s else (s.setHeldOp { h with done := some s.cycles }).freeLatch h.iss
/-- The write of an ARGW that performed 2 cycles and its hops ago reaches the target, after every firing of the cycle (R240, R368, R369).
DEDUCED (log entry 54). -/
def State.argwArrives (s : State) (h : HeldOp) : State :=
  match h.instr, s.issTask h.iss with
  | .argw r, some (tid, t) =>
    let key := r.l % 2 ^ 20
    let e := t.elem (field key 6 0) (field key 13 7)
    if s.cycles < h.done.getD s.cycles + 2 + hops h.iss.elem e then s else
    let v := BitVec.ofNat 32 (valOf h.iss.f.a)
    match (t.plane? h.iss.ctx).bind fun x => x.rewrite key v with
    | none => (s.dropHeld h.id).reply h.iss r (.scalar 1)
    | some x =>
      let s := s.setTask tid { t with planes := t.planes.map fun y => if y.ctx = x.ctx then x else y }
      ((s.dropHeld h.id).writeLit e h.iss.ctx (field key 19 14) v.toNat).reply h.iss r (.scalar 0)
  | _, _ => s.dropHeld h.id
/-- The literals written in the cycle that ends. -/
def State.argwEnd (s : State) : State := (s.fab.held.filter fun h => h.done.isSome).foldl State.argwArrives s
/-- ARGW (R368). -/
def execArgw (r : NodeRec) (s : State) : Out := s.fireHeld 0xCA (.argw r) r fun h s => s.performArgw h

end Sys2Proof.Machine
end

