-- ==== Sys2Proof/Machine/Factor.lean ====
section
/-! DEFINITION. Factorising beds (R139 to R145, R378, R379). -/
namespace Sys2Proof.Machine

def trapFct : Trap := { code := trapFctState }
def State.bed (s : State) (b : Nat) : FctBed := Tab.getD s.eng.beds b .reset
def State.setBed (s : State) (b : Nat) (x : FctBed) : State := s.setEng { s.eng with beds := Tab.set s.eng.beds b x }

/-- A held FCT form: a node whose context lacks the factorising bit raises FCT_STATE (R378). -/
def State.fireFct (s : State) (opc : Nat) (ins : Instr) (r : NodeRec) (perform : HeldOp → State → State) : Out :=
  s.fire opc r fun i _ _ _ s => if bit (s.modeWord i.elem i.ctx) 3 then s.startHeld i ins perform else s.raise i trapFct

/-! ### The tile (R139) -/

/-- The element of a bed at bed-local coordinates. -/
def bedElem (b x y : Nat) : Nat := (bedElems b).getD (8 * y + x) 0
/-- Key in the bank store of tile entry (row, col), physical row. -/
def tileKey (b c base row col : Nat) : Nat := bankKey (bedElem b (col / 16) (row / 16)) c (base + 64 * (row % 16) + 4 * (col % 16))
def tileGet (m : Memory) (b c base row col : Nat) : Nat := Sys2Proof.ofBytes (readCells m.bank (tileKey b c base row col) 4)
def tileSet (m : Memory) (b c base row col v : Nat) : Memory :=
  { m with bank := writeCells m.bank (tileKey b c base row col) (bytesOf 4 v) }

/-- Magnitude as a rank: NaN below every number (R140). -/
def magRank (x : Nat) : Nat := if (f32 x).isNan then 0 else absF32 x + 1
/-- The larger magnitude, NaNs ignored. -/
def maxMag (m x : Nat) : Nat := if (f32 x).isNan then m else max m (absF32 x)

/-- The largest magnitude of the tile, ignoring NaNs. -/
def tileMax (m : Memory) (b c base : Nat) : Nat :=
  (List.range 128).foldl (fun a r => (List.range 128).foldl (fun a k => maxMag a (tileGet m b c base r k)) a) 0

/-- Every element's role area holds its share of the tile at `base` (R378). DEDUCED (log entry 56). -/
def State.tileFits (s : State) (b c base : Nat) : Bool :=
  base % 64 == 0 && (bedElems b).all fun e => s.roleCode e c == 0 && decide (base + 1024 ≤ s.extent e c)

/-- FCTB performs (R139, R378). DEDUCED (log entry 56). -/
def State.performFctb (h : HeldOp) (r : NodeRec) (s : State) : State :=
  let b := bedOf h.iss.elem
  let c := h.iss.ctx
  let base := valOf h.iss.f.a % 2 ^ 32
  let x := s.bed b
  if x.active then s.raiseHeld h trapFct
  else if !s.tileFits b c base then s.raiseHeld h (sizeTrap trapBufRange 1024 base)
  else
    let a := BitVec.ofNat 32 (tileMax s.mem b c base)
    ((s.doneHeld h).setBed b { x with ctx := c, base := base, next := 0, active := true, serve := none, rename := List.range 128, history := [],
                                      amax := a, umax := a, growth := 0x3F800000, begun := true }).reply h.iss r .done
/-- FCTB (R139). -/
def execFctb (r : NodeRec) (s : State) : Out := s.fireFct 0xE0 (.fctb r) r fun h s => s.performFctb h r

/-- The bed is ACTIVE in the context of a node. -/
def FctBed.runs (x : FctBed) (c : Nat) : Bool := x.active && x.ctx == c

/-- FCTS performs: its step begins, or waits for one that is running in the bed (R140). DEDUCED (log entry 56). -/
def State.performFcts (h : HeldOp) (r : NodeRec) (s : State) : State :=
  let b := bedOf h.iss.elem
  let x := s.bed b
  if !x.runs h.iss.ctx then s.raiseHeld h trapFct
  else if x.step.isSome then s
  else if x.next = 128 ∧ x.group = none then (s.doneHeld h).reply h.iss r (.scalar 128)
  else (s.doneHeld h).setBed b { x with step := some (r.l % 256, h.iss) }
/-- FCTS (R140). -/
def execFcts (r : NodeRec) (s : State) : Out := s.fireFct 0xE1 (.fcts r) r fun h s => s.performFcts h r

/-! ### One column (R140, R143) -/

/-- The beds of a group, or the bed alone, in the order of the members (R143). -/
def State.members (s : State) (b : Nat) : List Nat := bedMembers (s.bed b) b

/-- The proposals of member `g` for column `k`: rank, logical row in member 0 or physical row, physical row (R140, R143). -/
def proposals (m : Memory) (g b k : Nat) (x : FctBed) : List (Nat × Nat × Nat) :=
  if g = 0 then
    ((List.range 128).filter fun q => decide (k ≤ q)).map fun q =>
      let p := x.rename.getD q 0
      (magRank (tileGet m b x.ctx x.base p k), q, p)
  else (List.range 128).map fun p => (magRank (tileGet m b x.ctx x.base p k), p, p)
/-- The best of a list of proposals, the first of equals. -/
def bestOf : List (Nat × Nat × Nat) → Nat × Nat × Nat
  | [] => (0, 0, 0)
  | x :: r => r.foldl (fun w y => if w.1 < y.1 then y else w) x

/-- The winner among the members: member, logical row, physical row; ties to the lowest member and row. -/
def State.winner (s : State) (ms : List Nat) (k : Nat) : Nat × Nat × Nat :=
  let ws := (ms.zipIdx).map fun (b, g) => (g, bestOf (proposals s.mem g b k (s.bed b)))
  match ws with
  | [] => (0, 0, 0)
  | w :: r =>
    let z := r.foldl (fun w y => if w.2.1 < y.2.1 then y else w) w
    (z.1, z.2.2.1, z.2.2.2)

/-- Exchange a whole row of one bed with a row of another (R143). -/
def swapRows (m : Memory) (b1 c1 base1 r1 b2 c2 base2 r2 : Nat) : Memory :=
  (List.range 128).foldl (fun m col =>
    let x := tileGet m b1 c1 base1 r1 col
    let y := tileGet m b2 c2 base2 r2 col
    tileSet (tileSet m b1 c1 base1 r1 col y) b2 c2 base2 r2 col x) m

/-- Update one eligible row against the pivot row: the multiplier, then the trailing entries (R140). `rcp` is the reciprocal. -/
def updateRow (m : Memory) (b c base row k rcp : Nat) (pivot : Nat → Nat) (umax : Nat) : Memory × Nat :=
  let l := mulF32 (tileGet m b c base row k) rcp
  let m := tileSet m b c base row k l
  ((List.range 128).filter fun col => decide (k < col)).foldl (fun (m, u) col =>
    let v := fnmaF32 l (pivot col) (tileGet m b c base row col)
    (tileSet m b c base row col v, maxMag u v)) (m, umax)

/-- A column's step up to its pivot: the rename map and history of member 0, the rows exchanged (R140, R143). -/
def State.choosePivot (s : State) (ms : List Nat) (b0 k : Nat) : State :=
  let (g, q, p) := s.winner ms k
  let x := s.bed b0
  if g = 0 then
    let pk := x.rename.getD k 0
    s.setBed b0 { x with rename := listSet (listSet x.rename q pk) k p, history := Tab.set x.history k p }
  else
    let bw := ms.getD g b0
    let w := s.bed bw
    let s := s.setBed b0 { x with history := Tab.set x.history k (128 * g + p) }
    s.setMem (swapRows s.mem bw w.ctx w.base p b0 x.ctx x.base (x.rename.getD k 0))

/-- The pivot that SMODE = 1 puts in the place of one too small (R140). -/
def substitute (tol p : Nat) : Nat := (if bit p 31 then 2 ^ 31 else 0) + max tol 0x00800000

/-- Member 0 records a substitution at column `k` (R142). R142 does not say since when SUBCOL is the first: it is taken anew whenever SUBST
is clear, while SUBCNT goes on. DESIGN CHOICE (log entry 56). -/
def FctBed.noteSubst (x : FctBed) (k : Nat) : FctBed :=
  { x with subst := true, subcol := if x.subst then x.subcol else BitVec.ofNat 7 k, subcnt := BitVec.ofNat 8 (satTo 8 (x.subcnt.toNat + 1)) }

/-- How a column's step ends. -/
inductive Stepped where
  | singular | grown | done
  deriving DecidableEq, Repr

/-- The trailing update of every member, then the growth rule in member 0; NEXT advances in every member (R140, R143). -/
def State.eliminate (s : State) (ms : List Nat) (b0 k p : Nat) : Stepped × State :=
  let x := s.bed b0
  let pk := x.rename.getD k 0
  let pivot := fun col => tileGet s.mem b0 x.ctx x.base pk col
  let rcp := divF32 0x3F800000 p
  let (m, u) := (ms.zipIdx).foldl (fun (mu : Memory × Nat) (b, g) =>
    let y := s.bed b
    let rows := if g = 0 then ((List.range 128).filter fun q => decide (k < q)).map fun q => x.rename.getD q 0 else List.range 128
    rows.foldl (fun (mu : Memory × Nat) row => updateRow mu.1 b y.ctx y.base row k rcp pivot mu.2) mu) (s.mem, maxMag x.umax.toNat p)
  let s := s.setMem m
  let growth := if x.amax = 0 then 0x3F800000 else divF32 u x.amax.toNat
  let ovf := gtF32 growth x.glim.toNat
  let s := s.setBed b0 { x with umax := BitVec.ofNat 32 u, growth := BitVec.ofNat 32 growth, gflag := x.gflag || ovf }
  let s := ms.foldl (fun s b => s.setBed b { s.bed b with next := k + 1 }) s
  (if ovf && x.gmode then .grown else .done, s)

/-- One column of R140 in a bed or a group whose first member is `b0`. -/
def State.column (s : State) (ms : List Nat) (b0 k : Nat) : Stepped × State :=
  let s := s.choosePivot ms b0 k
  let x := s.bed b0
  let pk := x.rename.getD k 0
  let p := tileGet s.mem b0 x.ctx x.base pk k
  let small := !(f32 p).isNan && decide (absF32 p ≤ x.singtol.toNat)
  if small && !x.smode then (.singular, s)
  else if small then
    let v := substitute x.singtol.toNat p
    ((s.setBed b0 (x.noteSubst k)).setMem (tileSet s.mem b0 x.ctx x.base pk k v)).eliminate ms b0 k v
  else s.eliminate ms b0 k p

/-- The step of every member is over: each FCTS fires NEXT (R140, R378). -/
def State.endSteps (s : State) (ms : List Nat) : State :=
  ms.foldl (fun s b =>
    let x := s.bed b
    match x.step with
    | none => s
    | some (_, i) =>
      let s := s.setBed b { x with step := none }
      match s.recAt i.elem i.ctx i.f.node with
      | some (_, r) => s.reply i r (.scalar x.next)
      | none => s) s

/-- The FCTS activation of a member other than the one that traps is discarded with it, and its thread starts the block
again (R143). DEDUCED (log entry 56). -/
def State.discardStep (s : State) (aid0 : Nat) (i : Issue) : State :=
  match s.act? i.f.aid with
  | none => s
  | some a =>
    if i.f.aid = aid0 ∨ a.committed ∨ a.dead then s else
    let k : Kept := { iter := a.iter, ctx := a.ctx, plane := a.plane, block := a.block, performed := a.performed, tokens := a.kept }
    match s.thread? a.thread with
    | none => s
    | some th =>
      let s := (th.acts.dropWhile fun x => x != i.f.aid).foldl State.discardAct s
      s.updThread a.thread fun t => { t with acts := t.acts.takeWhile fun x => x != i.f.aid, next := some (a.plane, a.block), useKept := some k }

/-- A step ends in a trap at member 0's activation (R140, R143). DEDUCED (log entry 56). -/
def State.trapSteps (s : State) (ms : List Nat) (t : Trap) : State :=
  let is := ms.filterMap fun b => (s.bed b).step.map (·.2)
  let s := ms.foldl (fun s b => s.setBed b { s.bed b with step := none }) s
  match is with
  | [] => s
  | i :: rest => rest.foldl (fun s j => s.discardStep i.f.aid j) (s.raise i t)

/-- Fabric cycles of a column (R141). -/
def State.columnCost (s : State) (ms : List Nat) (k : Nat) : Nat :=
  28 + (if 2 ≤ ms.length then 8 else 0) + (if (s.winner ms k).1 = 0 then 0 else 16)
/-- The beds are no longer at work on a column. -/
def State.unserve (s : State) (ms : List Nat) : State := ms.foldl (fun s y => s.setBed y { s.bed y with serve := none }) s

/-- FCT_COLUMN_STEP: the step that runs in a bed, in its whole group, begins its next column, and ends it once the cycles of R141 have
passed, through which the beds' datapaths serve it (R140, R141, R143). -/
def State.columnStep (s : State) (b : Nat) : State :=
  let ms := s.members b
  let b0 := ms.headD b
  let steps := ms.map fun y => (s.bed y).step.map (·.1)
  match steps.mapM id with
  | none => s
  | some ns =>
    let n := ns.headD 0
    if ns.any fun y => y != n then s.trapSteps ms trapFct else
    let k := (s.bed b0).next
    if n = 0 ∨ 128 ≤ k then s.endSteps ms else
    match (s.bed b0).serve with
    | none => let u := s.cycles + s.columnCost ms k
      ms.foldl (fun s y => s.setBed y { s.bed y with serve := some u }) s
    | some u =>
    if s.cycles < u then s else
    let (e, s) := (s.unserve ms).column ms b0 k
    match e with
    | .singular => s.trapSteps ms { code := trapFctSingular, info := BitVec.ofNat 64 k }
    | .grown => s.trapSteps ms { code := trapGrowthLimit, info := BitVec.ofNat 64 k }
    | .done =>
      let s := ms.foldl (fun s y => s.setBed y { s.bed y with step := (s.bed y).step.map fun z => (z.1 - 1, z.2) }) s
      if n = 1 ∨ k = 127 then s.endSteps ms else s

/-- FCT_COLUMN_STEP. DEDUCED (log entry 56). -/
def execFctColumnStep (s : State) : Out :=
  match s.inp with
  | some (.fctColumnStep bed) => .next ({ s with inp := none }.columnStep bed)
  | _ => .next s

/-! ### Groups (R143, R379) -/

/-- Bed row of a bed in the package, and the bed of the same column at another row. -/
def bedRow (b : Nat) : Nat := b / 128 * 8 + b / 8 % 8
def bedAtRow (b row : Nat) : Nat := row / 8 * 128 + b / 64 % 2 * 64 + row % 8 * 8 + b % 8

/-- FCTN's conditions of R379; the beds named, in order, when all hold. -/
def State.groupOk (s : State) (i : Issue) (size first : Nat) : Option (List Nat) :=
  (s.issTask i).bind fun (_, t) =>
    let b := bedOf i.elem
    let row0 := t.oy + first
    let ms := (List.range size).map fun g => bedAtRow b (row0 + g)
    let ok := decide (row0 ≤ bedRow b ∧ bedRow b < row0 + size) && decide (row0 / 8 = (row0 + size - 1) / 8) && decide (first + size ≤ t.hb)
    let fresh := ms.all fun m =>
      let x := s.bed m
      x.runs i.ctx && x.next == 0 && x.group.isNone && (match x.joining with
                                                        | some (a, f, _) => a == size && f == first
                                                        | none => true)
    if ok && fresh && (s.bed b).joining.isNone then some ms else none

/-- The group forms: indexes, the common amax, and every member's token (R143, R379). -/
def State.formGroup (s : State) (ms : List Nat) : State :=
  let amax := BitVec.ofNat 32 (ms.foldl (fun a m => max a (s.bed m).amax.toNat) 0)
  let is := ms.filterMap fun m => (s.bed m).joining.map fun x => x.2.2
  let s := (ms.zipIdx).foldl (fun s (m, g) =>
    s.setBed m { s.bed m with group := some (ms.headD 0, ms.length), gidx := BitVec.ofNat 3 g, amax := amax, umax := amax, joining := none }) s
  is.foldl (fun s i =>
    match s.recAt i.elem i.ctx i.f.node with
    | some (_, r) => s.reply i r .done
    | none => s) s

/-- FCTN performs, in the cycle after its issue, so that of those of one bed in one cycle the lower node number is first (R379, R394). -/
def State.performFctn (h : HeldOp) (r : NodeRec) (s : State) : State :=
  let turn := s.fab.held.all fun y => (y.instr.node?).map (·.1) != some 0xE2 || bedOf y.iss.elem != bedOf h.iss.elem
    || !s.mayAct y.iss.f.aid || s.halted y.iss || decide (h.iss.f.node < y.iss.f.node) || h.iss.f.node == y.iss.f.node && decide (h.id ≤ y.id)
  if s.cycles ≤ h.since || !turn then s else
  let size := field r.l 3 0
  let first := field r.l 7 4
  match s.groupOk h.iss size first with
  | none => s.raiseHeld h trapFct
  | some ms =>
    let b := bedOf h.iss.elem
    let s := (s.doneHeld h).setBed b { s.bed b with joining := some (size, first, h.iss) }
    if ms.all fun m => (s.bed m).joining.isSome then s.formGroup ms else s
/-- FCTN (R379). -/
def execFctn (r : NodeRec) (s : State) : Out := s.fireFct 0xE2 (.fctn r) r fun h s => s.performFctn h r

/-! ### Results (R144) and leaving the mode (R145) -/

/-- Bytes of the history: finished columns only (R144). -/
def FctBed.historyAt (x : FctBed) (k : Nat) : Nat := if k < x.next then Tab.getD x.history k 0 else 0
/-- The tokens of FCTR for an item (R144). -/
def FctBed.item (x : FctBed) (n : Nat) : List Pay :=
  match n with
  | 0 => (List.range 2).map fun t => .vector (joinLanes 8 ((List.range 64).map fun k => x.rename.getD (64 * t + k) 0))
  | 1 => (List.range 4).map fun t => .vector (joinLanes 16 ((List.range 32).map fun k => x.historyAt (32 * t + k)))
  | _ => [.scalar x.growth.toNat]
/-- FCTR: its tokens over [L + t, L + t + 1) (R144, R378), whose bounds end at the open-ended tick (R3). DESIGN CHOICE (log entry 56). -/
def execFctr (r : NodeRec) (s : State) : Out :=
  s.fire 0xE3 r fun i _ _ _ s =>
    let x := s.bed (bedOf i.elem)
    if !bit (s.modeWord i.elem i.ctx) 3 || !x.begun || x.ctx != i.ctx then s.raise i trapFct else
    ((x.item (field r.l 1 0)).zipIdx).foldl (fun s (p, t) =>
      s.sendBeat i.elem i.ctx i.f.node r i.f.aid (.both p (min infTick (i.f.lo + t)) (min infTick (i.f.lo + t + 1)))) s

/-- Forward substitution: y in order (R144). -/
def forward (m : Memory) (b : Nat) (x : FctBed) (rhs : Nat → Nat) : List Nat :=
  (List.range 128).foldl (fun (y : List Nat) q =>
    let row := x.rename.getD q 0
    y ++ [(List.range q).foldl (fun acc c => fnmaF32 (tileGet m b x.ctx x.base row c) (y.getD c 0) acc) (rhs row)]) []
/-- Back substitution: x from 127 down, as a table. -/
def backward (m : Memory) (b : Nat) (x : FctBed) (y : List Nat) : Tab Nat :=
  (List.range 128).foldl (fun (z : Tab Nat) n =>
    let q := 127 - n
    let row := x.rename.getD q 0
    let acc := ((List.range 128).filter fun c => decide (q < c)).foldl (fun acc c =>
      fnmaF32 (tileGet m b x.ctx x.base row c) (Tab.getD z c 0) acc) (y.getD q 0)
    Tab.set z q (divF32 acc (tileGet m b x.ctx x.base row q))) []

/-- FCTSV performs (R144, R378). -/
def State.performFctsv (h : HeldOp) (r : NodeRec) (s : State) : State :=
  let b := bedOf h.iss.elem
  let x := s.bed b
  let off := valOf h.iss.f.a % 2 ^ 32
  let e := bedElem b 0 0
  if !x.runs h.iss.ctx || x.group.isSome || x.next != 128 then s.raiseHeld h trapFct
  else if off % 64 ≠ 0 ∨ s.extent e x.ctx < off + 512 then s.raiseHeld h (sizeTrap trapBufRange 512 off)
  else
    let key := fun k => bankKey e x.ctx (off + 4 * k)
    let y := forward s.mem b x fun k => Sys2Proof.ofBytes (readCells s.mem.bank (key k) 4)
    let z := backward s.mem b x y
    let s := (s.doneHeld h).setMem { s.mem with
      bank := (List.range 128).foldl (fun m k => writeCells m (key k) (bytesOf 4 (Tab.getD z k 0))) s.mem.bank }
    s.reply h.iss r .done
/-- FCTSV (R144). -/
def execFctsv (r : NodeRec) (s : State) : Out := s.fireFct 0xE4 (.fctsv r) r fun h s => s.performFctsv h r

/-- FCTE performs: once no step is in progress ACTIVE is clear and the group is dissolved (R143, R145). An FCTS that another member holds
while it waits for the rest of the group counts as a step in progress, and an FCTN of the bed that waits for its group stays pending, so
that a later FCTN of the bed raises FCT_STATE. DESIGN CHOICE (log entry 56). -/
def State.performFcte (h : HeldOp) (r : NodeRec) (s : State) : State :=
  let b := bedOf h.iss.elem
  let x := s.bed b
  if !x.runs h.iss.ctx then s.raiseHeld h trapFct
  else if (s.members b).any fun m => (s.bed m).step.isSome then s
  else
    let s := (s.members b).foldl (fun s m => s.setBed m { s.bed m with group := none, gidx := 0 }) (s.doneHeld h)
    (s.setBed b { s.bed b with active := false }).reply h.iss r .done
/-- FCTE (R145). -/
def execFcte (r : NodeRec) (s : State) : Out := s.fireFct 0xE5 (.fcte r) r fun h s => s.performFcte h r

end Sys2Proof.Machine
end

