-- ==== Sys2Proof/Machine/Trees.lean ====
section
/-! DEFINITION. Router trees (R380 to R383, R394, R423 to R425). -/
namespace Sys2Proof.Machine

/-- Fields of REDPUT and REDWAIT (R380). -/
def redTree (r : NodeRec) : Nat := field r.l 3 0
def redChild (r : NodeRec) : Nat := field r.l 7 4
def redRoot (r : NodeRec) : Bool := bit r.l 8
def redOut (r : NodeRec) : Nat := field r.l 11 9
def redOp (r : NodeRec) : Nat := r.x % 4

/-- The link number of a node's own contribution. -/
def ownLink : Nat := 4

/-- A round has begun at a member (R383). -/
def TreeSt.begin_ (t : TreeSt) (k now : Nat) : TreeSt :=
  if (Tab.find t.begun k).isSome then t else { t with begun := Tab.set t.begun k now }

/-- The contribution of a REDPUT firing to a round: its operand widened exactly; NULL is left out (R381). -/
def contribution (i : Issue) (r : NodeRec) (round now : Nat) : Partial :=
  let w := fltWidth r.f
  let a := valOf i.f.a
  let pois := if i.f.isNull r then none else i.f.poison
  { round := round, link := ownLink,
    val := if i.f.isNull r then none else some ((List.range (laneCount w r.v)).map fun k => widenF32 r.f (lane w a k)),
    vec := r.v, pois := pois.isSome, psrc := (pois.map (·.2)).getD 0, iss := some i, since := now }

/-- REDPUT performs: it takes its node's next round, unless it would be more than four rounds ahead (R381, R383, R423).
DEDUCED (log entry 58). -/
def State.performRedput (h : HeldOp) (r : NodeRec) (s : State) : State :=
  let k := treeKey (s.issTid h.iss) h.iss.ctx (redTree r)
  let t := s.tree k
  let n := h.iss.elem * 64 + h.iss.f.node
  let x := t.node n
  if t.cur x + 4 < x.count then s else
  let s := s.doneHeld h
  if t.abandoned.contains x.count then s.setTree k (t.setNode n { x with count := x.count + 1 })
  else
    let p := contribution h.iss r x.count s.cycles
    s.setTree k ((t.setNode n { x with count := x.count + 1, inputs := x.inputs ++ [p] }).begin_ x.count s.units)

/-- REDPUT (R381): held; NULL firings perform too, and a poisoned operand raises nothing. -/
def execRedput (r : NodeRec) (s : State) : Out :=
  match s.cur with
  | none => .next s
  | some i => .next ({ s with cur := none }.startHeld i (.redput r) fun h s => s.performRedput h r)

/-- Combine two partials lane by lane (R381, R283). -/
def combineLanes (op : Nat) (x y : List Nat) : List Nat :=
  List.zipWith (fun a b => if op = 0 then addF32 a b else (minMaxF 0 (op == 1) a b).1) x y
/-- One more partial: NULL is left out. -/
def combineVal (op : Nat) (x y : Option (List Nat)) : Option (List Nat) :=
  match x, y with
  | some x, some y => some (combineLanes op x y)
  | some x, none => some x
  | none, y => y

/-- What a node sends for a round from all its inputs: its own first, then N, E, S, W (R381). DEDUCED (log entry 58). -/
def combinePartials (r : NodeRec) (own : Partial) (kids : List Partial) : Partial :=
  kids.foldl (fun (acc : Partial) p =>
    { acc with val := combineVal (redOp r) acc.val p.val, pois := acc.pois || p.pois, psrc := if acc.pois then acc.psrc else p.psrc }) own

/-- The inputs of a node for a round: its own contribution and the partials of its children; none while one is missing. -/
def TreeNode.ready (x : TreeNode) (r : NodeRec) (round : Nat) : Option (Partial × List Partial) :=
  let at_ := fun (l : Nat) => x.inputs.find? fun p => p.round == round && p.link == l
  let links := (List.range 4).filter fun l => bit (redChild r) l
  match at_ ownLink with
  | none => none
  | some own => if links.all fun l => (at_ l).isSome then some (own, links.filterMap at_) else none

/-- The time from which a node may send: 4 cycles after its last input (R381). -/
def lastInput (own : Partial) (kids : List Partial) : Nat := kids.foldl (fun m p => max m p.since) own.since

/-- The key of a tree's node as the steps name it: tree, then element and node. -/
def treeNodeKey (tree n : Nat) : Nat := tree * 2 ^ 20 + n

/-- A node combines its next round and sends it: to its parent, or, at the root, to R382 (R381). -/
def State.combineRound (s : State) (k n : Nat) : State :=
  let t := s.tree k
  let x := t.node n
  let c := k / 16 % 4
  let e := n / 64
  match s.recAt e c (n % 64) with
  | some (0xE6, r) =>
    let round := t.cur x
    match x.ready r round with
    | none => s
    | some (own, kids) =>
      if s.cycles < lastInput own kids + 4 then s else
      let p := combinePartials r own kids
      let s := s.setTree k (t.setNode n { x with combined := round + 1, inputs := x.inputs.filter fun q => q.round != round,
                                                 sent := x.sent ++ [p] })
      if redRoot r then s else
      match s.destElem e c r.dst0 with
      | none => s
      | some (target, m, port) =>
        s.launchTok e target (edgeSrc e c (n % 64) 0) { pay := .mkNull, lo := round, hi := 0, front := false, to0 := true, to1 := false } 0 c m port
  | _ => s

/-- REDUCE_ROUND_COMBINE (R381). -/
def execReduceRoundCombine (s : State) : Out :=
  match s.inp with
  | some (.reduceRoundCombine node) => .next ({ s with inp := none }.combineRound (node / 2 ^ 20) (node % 2 ^ 20))
  | _ => .next s

/-! ### The root and the waits (R382) -/

/-- REDWAIT nodes of a tree, as elem * 64 + node. -/
def State.treeWaits (s : State) (k : Nat) : List Nat :=
  let c := k / 16 % 4
  match s.task? (k / 64) with
  | none => []
  | some t =>
    match s.planeAt t c with
    | none => []
    | some pl =>
      ((List.range pl.nblk).flatMap fun b => (pl.blockNodes b).filterMap fun x =>
        let e := t.elem (neX x) (neY x)
        match s.recAt e c (neNode x) with
        | some (0xE7, r) => if redTree r = k % 16 then some (e * 64 + neNode x) else none
        | _ => none).eraseDups

/-- A result as a payload: codes of the root's OUT (R382). -/
def resultPay (w : Nat) (x : Option (List Nat) × Bool × Bool × BitVec 3) : Pay :=
  match x.1 with
  | none => .mkNull
  | some l =>
    let p := if x.2.1 then Pay.vector (joinLanes w l) else Pay.scalar (l.headD 0)
    if x.2.2.1 then p.poisoned x.2.2.2 else p

/-- Only results stay that some REDWAIT has yet to pair with, or may fire again: a token of a standing activation has them, or one of a
discarded activation gave them back. -/
def State.trimResults (s : State) (k : Nat) : State :=
  let t := s.tree k
  let ws := s.treeWaits k
  s.setTree k { t with results := t.results.filter fun x =>
    (ws.any fun w => decide (Tab.getD t.waitCount w 0 ≤ x.1) || (Tab.getD t.back w []).contains x.1)
      || (t.paired.any fun p => p.round == x.1 && (s.act? p.aid).isSome) }

/-- A REDWAIT fires a result over its own token's interval (R382). -/
def State.fireWait (s : State) (w : TreeWait) (x : Option (List Nat) × Bool × Bool × BitVec 3) : State :=
  s.reply w.iss (Instr.record w.instr) (resultPay (fltWidth (Instr.record w.instr).f) x)

/-- A result held for every REDWAIT stays within four rounds of its trigger (R382). DEDUCED (log entry 58). -/
def State.roomForResult (s : State) (k round : Nat) : Bool :=
  (s.treeWaits k).all fun w => decide (round < Tab.getD (s.tree k).waitCount w 0 + 4)

/-- The root's conversion of one lane to OUT: the code and its flags (R201, R205, R382). -/
def rootLane (r : NodeRec) (y : Nat) : Nat × Nat := roundF (redOut r) 0 false (f32 y).toExact
/-- The root's round completes: converted once, which sets the flags of its context, fired over the interval of its own contribution, sent
back to the REDWAITs. -/
def State.rootResult (s : State) (k n : Nat) : State :=
  let t := s.tree k
  let x := t.node n
  match s.recAt (n / 64) (k / 16 % 4) (n % 64), x.sent with
  | some (0xE6, r), p :: rest =>
    if !redRoot r || !s.roomForResult k p.round then s else
    let codes := p.val.map fun l => l.map fun y => (rootLane r y).1
    let s := if p.pois then s else s.setFlags (n / 64) (k / 16 % 4) ((p.val.getD []).foldl (fun f y => f ||| (rootLane r y).2) 0)
    let res := (codes, p.vec, p.pois, p.psrc)
    let now := t.waits.filter fun w => w.round == p.round
    let t := { t.setNode n { x with sent := rest } with
      waits := t.waits.filter fun w => w.round != p.round, begun := Tab.erase t.begun p.round, results := Tab.set t.results p.round res }
    let s := s.setTree k t
    let s := match p.iss with
      | some i => s.reply i r (resultPay (fltWidth (redOut r)) res)
      | none => s
    (now.foldl (fun s w => s.fireWait w res) s).trimResults k
  | _, _ => s

/-- REDUCE_ROOT_RESULT (R382). DEDUCED (log entry 58). -/
def execReduceRootResult (s : State) : Out :=
  match s.inp with
  | some (.reduceRootResult node) => .next ({ s with inp := none }.rootResult (node / 2 ^ 20) (node % 2 ^ 20))
  | _ => .next s

/-- COLL_TIMEOUT of a tree (R383). -/
def treeTimeout (tree : Nat) : Trap := { code := trapCollTimeout, info := BitVec.ofNat 64 tree }
/-- Raised only at an activation that has neither committed nor been discarded (R425). -/
def State.raiseLive (s : State) (i : Issue) (t : Trap) : State :=
  match s.act? i.f.aid with
  | some a => if a.committed || a.dead then s else s.raise i t
  | none => s

/-- REDWAIT: its firing has the round that its A token took; NULL fires NULL at once, a known result fires, an abandoned round
raises COLL_TIMEOUT (R382, R383). DEDUCED (log entry 58). -/
def execRedwait (r : NodeRec) (s : State) : Out :=
  match s.cur with
  | none => .next s
  | some i =>
    let s := { s with cur := none }
    let k := treeKey (s.issTid i) i.ctx (redTree r)
    let t := s.tree k
    let n := i.elem * 64 + i.f.node
    let (round, t) := t.takeRound n i.f.aid i.f.atok
    let s := s.setTree k t
    if i.f.isNull r then .next ((s.trimResults k).reply i r .mkNull)
    else
      match i.f.poison with
      | some x => .next ((s.trimResults k).raise i (poisonTrap i.f x))
      | none =>
        if t.abandoned.contains round then .next (s.raiseLive i (treeTimeout (redTree r)))
        else
          let w : TreeWait := { round := round, instr := .redwait r, iss := i }
          match Tab.find t.results round with
          | some x => .next ((s.fireWait w x).trimResults k)
          | none => .next (s.setTree k { t with waits := t.waits ++ [w] })

/-! ### Abandonment (R383, R394) -/

/-- The root node of a tree, from the contributions it holds. -/
def State.rootOf (s : State) (k : Nat) : Option (Nat × NodeRec) :=
  (s.tree k).nodes.findSome? fun (n, _) =>
    match s.recAt (n / 64) (k / 16 % 4) (n % 64) with
    | some (0xE6, r) => if redRoot r then some (n, r) else none
    | _ => none

/-- The root can complete a round now: completion wins over the time limit (R394). -/
def State.rootReady (s : State) (k round : Nat) : Bool :=
  match s.rootOf k with
  | none => false
  | some (n, r) =>
    let x := (s.tree k).node n
    (x.sent.head?.map (·.round)) == some round
      || (match x.ready r round with
          | some (own, kids) => x.sent.isEmpty && (s.tree k).cur x == round && decide (lastInput own kids + 4 ≤ s.cycles)
          | none => false)

/-- Abandon a round: its partials go, its waits and the root's contributor time out (R383, R425). -/
def State.abandonRound (s : State) (k round : Nat) : State :=
  let t := s.tree k
  let root := (s.rootOf k).bind fun (n, _) =>
    ((t.node n).inputs ++ (t.node n).sent).findSome? fun p => if p.round = round then p.iss else none
  let drop := fun (x : TreeNode) =>
    { x with inputs := x.inputs.filter fun p => p.round != round, sent := x.sent.filter fun p => p.round != round }
  let now := t.waits.filter fun w => w.round == round
  let s := s.setTree k { t with
    nodes := t.nodes.map fun (n, x) => (n, drop x)
    waits := t.waits.filter fun w => w.round != round
    begun := Tab.erase t.begun round
    abandoned := t.abandoned ++ [round] }
  let s := now.foldl (fun s w => s.raiseLive w.iss (treeTimeout (k % 16))) s
  match root with
  | some i => s.raiseLive i (treeTimeout (k % 16))
  | none => s

/-- REDUCE_ROUND_ABANDON: a round that began RTMO microseconds ago and that the root has not completed (R383). -/
def execReduceRoundAbandon (s : State) : Out :=
  match s.inp with
  | some (.reduceRoundAbandon tid ctx tree) =>
    let s := { s with inp := none }
    let k := treeKey tid ctx tree
    let rtmo := ((s.task? tid).map fun t => field t.collTmo.toNat 31 0).getD 0
    match (s.tree k).begun.find? fun x => s.passed x.2 rtmo && !s.rootReady k x.1 with
    | some (round, _) => if rtmo = 0 then .next s else .next (s.abandonRound k round)
    | none => .next s
  | _ => .next s

end Sys2Proof.Machine
end

