-- ==== Sys2Proof/Machine/Cuts.lean ====
section
/-! DEFINITION. The cut of a checkpoint: its start, markers, and MARKER_ARRIVE and MARKER_LATCH_INJECT (R86 to R88, R388). -/
namespace Sys2Proof.Machine

/-- Change a task's cut. -/
def State.updCut (s : State) (tid : Nat) (f : Cut → Cut) : State :=
  s.updTask tid fun t =>
    match t.phase with
    | .cutting k => { t with phase := .cutting (f k) }
    | _ => t

/-! ### The edges of a task -/

/-- Key of a node, as a cut names it. -/
def cutKey (e c n : Nat) : Nat := ctxKey e c * 64 + n
/-- The edges that leave a node: producer code and consumer. -/
def State.nodeEdges (s : State) (e c n : Nat) : List (Nat × Nat) :=
  match s.recAt e c n with
  | none => []
  | some (_, r) => [(0, r.dst0), (1, r.dst1)].filterMap fun (i, d) =>
      (s.destElem e c d).map fun x => (edgeSrc e c n i, cutKey x.1 c x.2.1)
/-- The edges that leave the stream read ports of a plane. -/
def State.streamEdges (s : State) (tid : Nat) (t : Task) (c : Nat) (pl : Plane) : List (Nat × Nat) :=
  (List.range (pl.secCnt 3)).filterMap fun k =>
    let x := pl.stream k
    if spWrite x || spArray x then none else
    (s.destElem (t.elem (spFx x) (spFy x)) c (spDst x)).map fun y => (streamSrc tid c k, cutKey y.1 c y.2.1)
/-- The nodes of a plane in a region: element, node, and whether a port of it is an ENTRY port (R251). -/
def planeNodes (t : Task) (pl : Plane) : List (Nat × Nat × Bool) :=
  (List.range pl.nblk).flatMap fun k => (pl.blockNodes k).map fun x => (t.elem (neX x) (neY x), neNode x, neEntry x)
/-- The resident planes of a task with their contexts. -/
def Task.planesOf (t : Task) : List (Nat × Plane) :=
  t.planes.map fun r => (r.ctx, r.table)
/-- Every edge of a task. -/
def State.taskEdges (s : State) (tid : Nat) (t : Task) : List (Nat × Nat) :=
  t.planesOf.flatMap fun (c, pl) =>
    s.streamEdges tid t c pl ++ (planeNodes t pl).flatMap fun (e, n, _) => s.nodeEdges e c n

/-! ### Recording (R87) -/

/-- A node's released firings that have not issued go back among its pending ones. -/
def State.unready (s : State) (e c n : Nat) : State :=
  let x := s.ctx e c
  let fs := (x.ready ++ x.waiting).filter fun f => f.node == n
  if fs.isEmpty then s else
  let s := (fs.map (·.aid)).eraseDups.foldl (fun s aid =>
    let st := s.nodeSt aid e n
    s.setNodeSt aid e n { st with pend := (fs.filter fun f => f.aid == aid) ++ st.pend }) s
  s.setCtx e c ({ x with ready := x.ready.filter fun f => f.node != n, waiting := x.waiting.filter fun f => f.node != n } : CtxSt).fill

/-- A node records: it stops firing, and sends a marker on each of its output edges (R87). DEDUCED (log entry 43). -/
def State.freezeNode (s : State) (tid key : Nat) : State :=
  match s.cutOf tid with
  | none => s
  | some k =>
    if k.frozen.contains key then s else
    let e := key / 256
    let c := key / 64 % 4
    let out := (s.nodeEdges e c (key % 64)).filter fun x => !k.marked.contains x.1 && !(k.markers.any fun y => y.1 == x.1)
    (s.updCut tid fun k => { k with frozen := k.frozen ++ [key], markers := k.markers ++ out }).unready e c (key % 64)

/-- An edge has carried its marker (R87). DEDUCED (log entry 43). -/
def State.markEdge (s : State) (tid src key : Nat) : State :=
  (s.updCut tid fun k => { k with marked := k.marked ++ [src], markers := k.markers.filter fun y => y.1 != src }).freezeNode tid key

/-! ### The start of a checkpoint (R86, R388) -/

/-- A node that sends markers at injection: literal-only, WAITA, REDWAIT, carry read, with an ENTRY port, or fed by no edge. -/
def State.cutSource (s : State) (t : Task) (c : Nat) (fed : List Nat) (x : Nat × Nat × Bool) : Bool :=
  match s.recAt x.1 c x.2.1 with
  | none => false
  | some (opc, r) =>
    x.2.2 || opc == 0xAA || opc == 0xE7 || opc == 0xB4 || (s.usedPorts t c x.1 x.2.1 opc r).isEmpty || !fed.contains (cutKey x.1 c x.2.1)

/-- The markers are injected (R86). DEDUCED (log entry 43). -/
def State.inject (s : State) (tid : Nat) : State :=
  match s.task? tid with
  | none => s
  | some t =>
    let fed := (s.taskEdges tid t).map (·.2)
    let s := s.updCut tid fun k => { k with begun := true }
    t.planesOf.foldl (fun s (c, pl) =>
      let out := s.streamEdges tid t c pl
      let s := s.updCut tid fun k => { k with markers := k.markers ++ out }
      ((planeNodes t pl).filter fun x => s.cutSource t c fed x).foldl (fun s x => s.freezeNode tid (cutKey x.1 c x.2.1)) s) s

/-- A COLL round of a task is in flight (R388). -/
def State.inRound (s : State) (tid : Nat) : Bool := s.eng.rounds.any fun c => c.tid == tid && c.status.isNone
/-- Inject the markers of a cut that has waited for its last COLL round (R388). DEDUCED (log entry 43). -/
def State.tryInject (s : State) (tid : Nat) : State :=
  match s.cutOf tid with
  | none => s
  | some k => if k.begun || s.inRound tid then s else s.inject tid

/-- Nodes that stop firing as soon as a checkpoint begins (R86). DEDUCED (log entry 43). -/
def stopsFirst (opc : Nat) : Bool := opc == 0xB6 || opc == 0xBC || opc == 0xC9

/-- CHECKPOINT starts (R86): streams, new activations, SPAWN, LAUNCH and QPUT stop, and the markers are injected.
DEDUCED (log entry 43). -/
def State.startCut (s : State) (tid : Nat) : State :=
  match s.task? tid with
  | none => s
  | some t =>
    let s := s.setTask tid { t with phase := .cutting { begun := false, markers := [], marked := [], frozen := [], channel := [] } }
    let s := t.planesOf.foldl (fun s (c, pl) => (planeNodes t pl).foldl (fun s x =>
      match s.recAt x.1 c x.2.1 with
      | some (opc, _) => if stopsFirst opc then s.unready x.1 c x.2.1 else s
      | none => s) s) s
    s.tryInject tid

/-! ### MARKER_ARRIVE (R87) -/

/-- Markers in flight, as task, edge and consumer. -/
def State.flyingMarkers (s : State) : List (Nat × Nat × Nat) :=
  s.tsk.tasks.flatMap fun (tid, t) =>
    match t.phase with
    | .cutting k => k.markers.map fun x => (tid, x.1, x.2)
    | _ => []
/-- A result of an edge's producer that has not left holds a token of the edge. -/
def State.latchOwes (s : State) (src : Nat) : Bool :=
  (s.ctx (src / 512) (src / 128 % 4)).outs.any fun l =>
    decide (src < startSrc) && l.node == src / 2 % 64 && l.beats.any fun b => if src % 2 = 0 then b.to0 else b.to1
/-- No data token is ahead of a marker on its edge. What a stream port's FIFO holds is fetched again (R427). -/
def State.edgeClear (s : State) (src : Nat) : Bool :=
  !(s.fab.net.any fun f => f.tok.src == src && !(decide (2 ^ 24 ≤ src) && f.dir == 0)) && !s.latchOwes src

/-- MARKER_ARRIVE. DEDUCED (log entry 43). -/
def execMarkerArrive (s : State) : Out :=
  match s.inp with
  | some (.markerArrive k) =>
    let s := { s with inp := none }
    match s.flyingMarkers[k]? with
    | none => .next s
    | some (tid, src, key) => if s.edgeClear src then .next (s.markEdge tid src key) else .next s
  | _ => .next s

/-! ### MARKER_LATCH_INJECT (R88) -/

/-- A token of node `n` that has waited for 256 cycles on an unmarked edge to a node that has recorded. -/
def Cut.stuck (k : Cut) (now since src key : Nat) : Bool :=
  decide (since + 256 ≤ now) && !k.marked.contains src && k.frozen.contains key

/-- Record the copies of a latched beat as channel state of their edges, behind the edge's tokens that are on their way; a copy to a stream port
goes on its way. -/
def State.recordBeat (s : State) (tid e c : Nat) (l : OutLatch) (b : Beat) : State :=
  (s.beatTargets e c l b).foldl (fun s (i, x) =>
    match x with
    | none => s
    | some (target, n, p) =>
      if 64 ≤ n then s.launchTok e target (edgeSrc e c l.node i) b (((s.act? l.aid).map (·.iter)).getD 0) c n p else
      let (q, s) := s.nextSeq (edgeSrc e c l.node i)
      let tok : Token := { lo := b.lo, hi := b.hi, pay := b.pay, front := b.front, iter := ((s.act? l.aid).map (·.iter)).getD 0, ctx := c,
                           node := n, port := p, seq := q, src := edgeSrc e c l.node i }
      s.updCut tid fun k => { k with late := k.late ++ [(target, tok)] }) s

/-- The markers of a node's edges are injected at its output: what waits there is channel state, ahead of the marker (R88). -/
def State.injectAtLatch (s : State) (tid e c n : Nat) : State :=
  let edges := s.nodeEdges e c n
  let held := s.fab.net.filter fun f => f.at_ == e && f.dir == 0 && edges.any fun x => x.1 == f.tok.src
  let s := s.setFab { s.fab with net := s.fab.net.filter fun f => !(f.at_ == e && f.dir == 0 && edges.any fun x => x.1 == f.tok.src) }
  let s := s.updCut tid fun k => { k with late := k.late ++ held.map fun f => (f.target, f.tok) }
  let mine := fun (l : OutLatch) => !l.waits && l.node == n
  let s := ((s.ctx e c).outs.filter mine).foldl (fun s l => l.beats.foldl (fun s b => s.recordBeat tid e c l b) s) s
  let s := s.setCtx e c ((s.ctx e c).dropOuts mine)
  edges.foldl (fun s x => s.markEdge tid x.1 x.2) s

/-- The node of context `c` of element `e` whose output is stuck (R88). -/
def State.stuckNode (s : State) (k : Cut) (e c : Nat) : Option Nat :=
  let inLatch := (s.ctx e c).latch.bind fun l =>
    if !l.waits && !l.beats.isEmpty && (s.nodeEdges e c l.node).any fun x => k.stuck s.cycles l.readyAt x.1 x.2 then some l.node else none
  match inLatch with
  | some n => some n
  | none =>
    (s.fab.net.find? fun f => f.at_ == e && f.dir == 0 && decide (f.tok.src < startSrc ∧ f.tok.node < 64) && f.tok.src / 128 == ctxKey e c
      && k.stuck s.cycles f.moved f.tok.src (cutKey f.target f.tok.ctx f.tok.node)).map fun f => f.tok.src / 2 % 64

/-- MARKER_LATCH_INJECT. DEDUCED (log entry 43). -/
def execMarkerLatchInject (s : State) : Out :=
  match s.inp with
  | some (.markerLatchInject e c) =>
    let s := { s with inp := none }
    match (s.ctx e c).owner with
    | none => .next s
    | some tid =>
      match s.cutOf tid with
      | none => .next s
      | some k =>
        match s.stuckNode k e c with
        | none => .next s
        | some n => .next (s.injectAtLatch tid e c n)
  | _ => .next s

end Sys2Proof.Machine
end

