-- ==== Sys2Proof/Machine/Coll.lean ====
section
/-! DEFINITION. Collectives over memory (R384 to R388, R394). -/
namespace Sys2Proof.Machine

/-! ### Groups and descriptors (R384, R385) -/

/-- A group as COLL sees it: SIZE 0 or above the limit of its SCOPE is VALID = 0 (R385). -/
def CollGrp.usable (g : CollGrp) : Bool :=
  g.valid && decide (1 ≤ g.size.toNat) &&
    (g.scope == 3 && decide (g.size.toNat ≤ 1024) || g.scope == 4 && decide (g.size.toNat ≤ 144))
/-- This package's rank: the MEMBERS bits below LK_CFG.SELF (R385). -/
def CollGrp.selfRank (g : CollGrp) (self : Nat) : Nat := (bitsOf self g.members.toNat).length

/-- The rank's share that a descriptor asks for (R384); its round number, group and rank are set when it is accepted. -/
def descRound (d : List Byte) (rid tid thread elem asid now : Nat) : CollRound :=
  let w := fun (off n : Nat) => bytesAt d off n
  { rid := rid, g := w 24 2, tid := tid, thread := thread, elem := elem, asid := asid, round := 0, rank := w 28 2, src := w 0 8,
    dst := w 8 8, len := w 16 4, op := w 20 1, rop := w 21 1, type := w 22 1, scope := w 23 1, root := w 26 2, flag := w 32 8,
    flagVal := BitVec.ofNat 64 (w 40 8), since := now, status := none, data := none, broken := false, waiters := [] }

/-- A reducing operation. -/
def CollRound.reduces (c : CollRound) : Bool := decide (c.op ≤ 1)

/-- Bytes that a rank reads at SRC and writes at DST, for a group of `n` (R386). -/
def CollRound.srcLen (c : CollRound) : Nat := if c.op = 3 ∧ c.rank ≠ c.root then 0 else c.len
def CollRound.dstLen (c : CollRound) (n : Nat) : Nat := if c.op = 1 then c.len / n else if c.op = 2 then c.len * n else c.len

/-- Pages of a virtual range, page by page: whether `p` holds for one of them. -/
def State.anyPage (s : State) (va len : Nat) (p : Nat → State → Bool × State) : Nat → Bool × State
  | 0 => (false, s)
  | n + 1 =>
    if len = 0 then (false, s) else
    let k := min len (4096 - va % 4096)
    match p va s with
    | (true, s) => (true, s)
    | (false, s) => State.anyPage s (va + k) (len - k) p n
def State.rangeHas (s : State) (va len : Nat) (p : Nat → State → Bool × State) : Bool × State := s.anyPage va len p (len / 4096 + 2)

/-- The page lies in a domain window, whose ever. -/
def isDomain (asid : Nat) (write : Bool) (va : Nat) (s : State) : Bool × State :=
  if 2 ^ 52 ≤ va then (false, s) else
  match s.mem.walk asid va write with
  | (.error _, m) => (false, s.setMem m)
  | (.ok w, m) => (decide (domainBase ≤ w.pa + va % w.size), s.setMem m)
/-- An access to the page meets a fault. -/
def isFault (asid : Nat) (write : Bool) (va : Nat) (s : State) : Bool × State :=
  match s.placeVa asid va 1 write with
  | (.ok _, s) => (false, s)
  | (.error _, s) => (true, s)
/-- No page walk of a range has to wait (R161, R163). -/
def State.rangeWalks (s : State) (asid va len : Nat) : Bool := !(s.rangeHas va len fun va s => (!s.walkFree asid va, s)).1

/-- Cases of REJECTED that the descriptor and the group decide (R385). DEDUCED (log entry 59). -/
def CollRound.rejected (c : CollRound) (g : CollGrp) (self : Nat) : Bool :=
  !g.usable || decide (63 < c.g) || decide (g.asid.toNat ≠ c.asid) || decide (g.scope.toNat ≠ c.scope)
    || decide (3 < c.op) || c.reduces && (decide (2 < c.rop) || decide (2 < c.type))
    || decide (c.src % 64 ≠ 0) || decide (c.dst % 64 ≠ 0) || decide (c.len % 64 ≠ 0) || decide (2 ^ 30 < c.len) || decide (c.flag % 8 ≠ 0)
    || c.scope == 3 && decide (g.size.toNat ≤ c.rank)
    || c.op == 1 && decide (c.len % (64 * g.size.toNat) ≠ 0)
    || c.scope == 4 && !bit g.members.toNat self

/-- At DOMAIN scope SRC, DST and FLAG lie outside the domain windows (R385). -/
def State.inWindow3 (s : State) (c : CollRound) (n : Nat) : Bool × State :=
  if c.scope ≠ 4 then (false, s) else
  let (a, s) := s.rangeHas c.src c.len (isDomain c.asid false)
  let (b, s) := s.rangeHas c.dst (c.dstLen n) (isDomain c.asid true)
  let (d, s) := s.rangeHas c.flag (if c.flag = 0 then 0 else 8) (isDomain c.asid true)
  (a || b || d, s)
/-- No page walk of those ranges has to wait (R161, R163). -/
def State.collWalks (s : State) (c : CollRound) (n : Nat) : Bool :=
  s.rangeWalks c.asid c.src c.len && s.rangeWalks c.asid c.dst (c.dstLen n) && s.rangeWalks c.asid c.flag (if c.flag = 0 then 0 else 8)

/-- Key of a rank's round counter. -/
def collKey (g rank : Nat) : Nat := g * 2048 + rank
/-- A handle (R384). DEDUCED (log entry 59). -/
def collHandle (round g : Nat) (rejected : Bool) : Nat := round % 65536 + 2 ^ 16 * (g % 64) + 2 ^ 31 * b2n rejected

/-- A rank keeps its share of the last 16 rounds before its latest (R387). DEDUCED (log entry 59). -/
def keepRounds (c : CollRound) (rs : List CollRound) : List CollRound :=
  rs.filter fun x => x.g != c.g || x.rank != c.rank || x.thread != c.thread || x.status.isNone || decide (c.round ≤ x.round + 16)

/-- COLL with its descriptor read: a handle, and the rank's share of its next round (R384 to R386). -/
def State.acceptColl (s : State) (h : HeldOp) (r : NodeRec) (d : List Byte) : State :=
  let c := descRound d s.fresh (s.issTid h.iss) (s.threadOf h.iss.f.aid) h.iss.elem (s.issAsid h.iss) s.units
  let g := Tab.getD s.eng.collGrp c.g .reset
  if !c.rejected g s.lnk.self.toNat && !s.collWalks c g.size.toNat then s else
  let (far, s) := if c.rejected g s.lnk.self.toNat then (true, s) else s.inWindow3 c g.size.toNat
  if far then
    let (v, s) := s.free
    (s.doneHeld h).reply h.iss r (.scalar (collHandle v.toNat c.g true))
  else
    let c := if c.scope = 4 then { c with rank := g.selfRank s.lnk.self.toNat } else c
    let n := Tab.getD s.eng.collCount (collKey c.g c.rank) 0
    let c := { c with round := n }
    let s := { s with fresh := s.fresh + 1 }.setEng { s.eng with
      collCount := Tab.set s.eng.collCount (collKey c.g c.rank) (n + 1)
      rounds := keepRounds c (s.eng.rounds ++ [c]) }
    (s.doneHeld h).reply h.iss r (.scalar (collHandle n c.g false))

/-- An access that precedes a form of an activation in thread order has not performed (R386). DEDUCED (log entry 59). -/
def State.owesEarlier (s : State) (i : Issue) : Bool :=
  s.mem.acc.any fun x => x.todo != 0 && s.threadOf x.iss.f.aid == s.threadOf i.f.aid && decide (x.iss.f.aid < i.f.aid)

/-- COLL performs: its descriptor is read as a plain load (R384). DEDUCED (log entry 59). -/
def State.performColl (h : HeldOp) (r : NodeRec) (s : State) : State :=
  let a := valOf h.iss.f.a % 2 ^ 64
  if a % 64 ≠ 0 then (s.doneHeld h).raise h.iss (sizeTrap trapAlign 64 a)
  else if s.owesEarlier h.iss then s
  else
    match s.loadOwn h a 64 with
    | (.waits, s) => s
    | (.fault t, s) => (s.doneHeld h).raise h.iss t
    | (.ok d p, s) =>
      match p with
      | some src => (s.doneHeld h).raise h.iss { poisonTrap h.iss.f (0, src) with addr := BitVec.ofNat 64 a }
      | none => s.acceptColl h r d

/-- COLL (R384). -/
def execColl (r : NodeRec) (s : State) : Out := s.fireHeld 0xE8 (.coll r) r fun h s => s.performColl h r

/-! ### COLLW (R386, R387) -/

/-- The acquire of a COLLW (R386): it merges what every quarter has applied. DEDUCED (log entry 60). -/
def State.acquireRound (s : State) (i : Issue) : State :=
  let s := s.l1DropTask (s.issTid i)
  (s.setMem ((List.range 4).foldl (fun m h => m.mergeClock (i.elem / 4096) (m.aOf h)) s.mem)).noteAcquired i

/-- COLLW fires a status. -/
def State.fireStatus (s : State) (h : HeldOp) (v : Nat) : State :=
  (s.acquireRound h.iss).reply h.iss (Instr.record h.instr) (.scalar v)

/-- The share that a handle names for a thread: its own rounds in the group, or else its task's (R387). DEDUCED (log entry 59). -/
def State.shareOf (s : State) (i : Issue) (g round : Nat) : Option CollRound :=
  let mine := s.eng.rounds.filter fun c => c.g == g && c.tid == s.issTid i
  let own := mine.filter fun c => c.thread == s.threadOf i.f.aid
  let xs := if own.isEmpty then mine else own
  match xs.getLast? with
  | none => none
  | some l => (xs.filter fun c => c.round % 65536 == round && decide (l.round ≤ c.round + 16)).getLast?

def State.setRound (s : State) (c : CollRound) : State :=
  s.setEng { s.eng with rounds := s.eng.rounds.map fun x => if x.rid = c.rid then c else x }

/-- COLLW performs: an ended round fires its status, a running one is waited for (R387). DEDUCED (log entry 59). -/
def State.performCollw (h : HeldOp) (s : State) : State :=
  let x := valOf h.iss.f.a % 2 ^ 32
  let s := s.doneHeld h
  if bit x 31 then s.fireStatus h 2 else
  match s.shareOf h.iss (field x 21 16) (field x 15 0) with
  | none => s.fireStatus h 2
  | some c =>
    match c.status with
    | some v => s.fireStatus h v
    | none => s.setRound { c with waiters := c.waiters ++ [h] }

/-- COLLW (R387). -/
def execCollw (r : NodeRec) (s : State) : Out := s.fireHeld 0xE9 (.collw r) r fun h s => s.performCollw h

/-! ### The data of a round (R386) -/

/-- Read a rank's range of virtual memory in 16-byte parts: bytes and marks; none where a part faults or the time is not come. -/
def State.readRange (s : State) (rid asid va : Nat) : Nat → Option (List Byte × List Bool) × State
  | 0 => (some ([], []), s)
  | n + 1 =>
    match s.readVa (.round rid) asid va 16 with
    | (.fault _, s) => (none, s)
    | (.waits, s) => (none, (State.readRange s rid asid (va + 16) n).2)
    | (.ok bs p, s) =>
      match State.readRange s rid asid (va + 16) n with
      | (none, s) => (none, s)
      | (some (r, q), s) => (some (bs ++ r, p.isSome :: q), s)
/-- Nothing is in the way of a write of a range (R161, R163). -/
def State.mayWriteRange (s : State) (asid va n : Nat) : Bool := (List.range (n / 16)).all fun k => s.mayWriteVa asid (va + 16 * k) 16
/-- Write a range in 16-byte parts with its marks. -/
def State.writeRange (s : State) (asid va : Nat) (bs : List Byte) : List Bool → State
  | [] => s
  | p :: q => State.writeRange (s.writeVa asid va (bs.take 16) p).2 asid (va + 16) (bs.drop 16) q

/-- Lanes of a contribution widened to f32 (R386). -/
def collLanes (type : Nat) (bs : List Byte) : List Nat :=
  let n := fltWidth type / 8
  (List.range (bs.length / n)).map fun k => widenF32 type (bytesAt bs (n * k) n)
/-- The reduction of the subtree of rank `r`: children 2r + 1 and 2r + 2 (R386). -/
def treeValue (rop : Nat) (xs : List (List Nat)) : Nat → Nat → Option (List Nat)
  | 0, _ => none
  | n + 1, r =>
    match xs[r]? with
    | none => none
    | some own =>
      combineVal rop (combineVal rop (some own) (treeValue rop xs n (2 * r + 1))) (treeValue rop xs n (2 * r + 2))
/-- The reduced bytes: converted once to TYPE at rank 0 (R386, R209). -/
def reducedBytes (c : CollRound) (xs : List (List Byte × List Bool)) : List Byte :=
  let v := (treeValue c.rop (xs.map fun x => collLanes c.type x.1) (xs.length + 1) 0).getD []
  v.flatMap fun y => bytesOf (fltWidth c.type / 8) (roundF c.type 0 false (f32 y).toExact).1
/-- Marks of a reduction: a part is poisoned where one contribution's is (R228). -/
def reducedMarks (xs : List (List Byte × List Bool)) : List Bool :=
  xs.foldl (fun (m : List Bool) x => if m.isEmpty then x.2 else List.zipWith (fun a b => a || b) m x.2) []

/-- What a rank writes at its DST (R386). -/
def CollRound.result (c : CollRound) (n : Nat) (xs : List (List Byte × List Bool)) : List Byte × List Bool :=
  match c.op with
  | 0 => (reducedBytes c xs, reducedMarks xs)
  | 1 =>
    let k := c.len / n
    (((reducedBytes c xs).drop (c.rank * k)).take k, ((reducedMarks xs).drop (c.rank * (k / 16))).take (k / 16))
  | 2 => (xs.flatMap fun x => x.1, xs.flatMap fun x => x.2)
  | _ => (xs[c.root]?).getD ([], [])

/-! ### The end of a round (R386, R387, R394) -/

/-- The shares of a round in this package. -/
def State.shares (s : State) (c : CollRound) : List CollRound := s.eng.rounds.filter fun x => x.g == c.g && x.round == c.round
/-- The shares of ranks 0 to `n` - 1; none while a rank's is missing. -/
def sharesOf (xs : List CollRound) (n : Nat) : Option (List CollRound) :=
  (List.range n).foldr (fun r acc => acc.bind fun l => (xs.find? fun x => x.rank == r).map fun x => x :: l) (some [])

/-- Every rank's contribution, read in rank order: a BROADCAST reads at its root only. DEDUCED (log entry 60). -/
def State.contributions (s : State) : List CollRound → Option (List (List Byte × List Bool)) × State
  | [] => (some [], s)
  | x :: rest =>
    match s.readRange x.rid x.asid x.src (x.srcLen / 16) with
    | (none, s) => (none, (State.contributions s rest).2)
    | (some d, s) =>
      match State.contributions s rest with
      | (none, s) => (none, s)
      | (some ds, s) => (some (d :: ds), s)

/-- Contributions at DOMAIN scope: this rank's own, and the other members' as they came, in rank order.
DESIGN CHOICE (log entry 39). -/
def State.domainData (s : State) (c : CollRound) (n : Nat) (remote : List (List Byte)) :
    Option (List (List Byte × List Bool)) × State :=
  match s.readRange c.rid c.asid c.src (c.srcLen / 16) with
  | (none, s) => (none, s)
  | (some own, s) =>
    let want := fun (r : Nat) => if c.op = 3 ∧ r ≠ c.root then 0 else c.len
    let far := remote.map fun (b : List Byte) => (b, List.replicate (b.length / 16) false)
    let all := far.take c.rank ++ [own] ++ far.drop c.rank
    let ok := decide (all.length = n) && (all.zipIdx.all fun (x, r) => decide (x.1.length = want r))
    (if ok then some all else none, s)

/-- A rank of the round here has failed or left, or a peer of it has been isolated (R36, R387, R388). -/
def State.roundBroken (s : State) (c : CollRound) : Bool := c.broken || (s.shares c).any fun x => x.status == some 1 || x.broken
/-- The data of a round, once every rank has contributed and while none has failed. -/
def State.roundData (s : State) (c : CollRound) (n : Nat) (remote : List (List Byte)) : Option (List (List Byte × List Bool)) × State :=
  if s.roundBroken c then (none, s) else
  match c.data with
  | some d => (some d, s)
  | none =>
    if c.scope = 4 then s.domainData c n remote else
    match sharesOf (s.shares c) n with
    | none => (none, s)
    | some xs => s.contributions xs

/-- SRC or DST of a rank meets a translation, protection or range fault (R387). -/
def State.shareFaults (s : State) (c : CollRound) (n : Nat) : Bool × State :=
  let (a, s) := s.rangeHas c.src c.srcLen (isFault c.asid false)
  let (b, s) := s.rangeHas c.dst (c.dstLen n) (isFault c.asid true)
  (a || b, s)

def State.collSize (s : State) (c : CollRound) : Nat := (Tab.getD s.eng.collGrp c.g .reset).size.toNat

/-- A rank's round ends: its flag is written, its waiters are served, and a cut that waited for it injects its markers (R388). -/
def State.endRound (s : State) (c : CollRound) (status : Nat) (flag : W64) (timeout : Bool) : State :=
  let s := if c.flag = 0 then s else (s.writeVa c.asid c.flag (bytesOf 8 flag.toNat) false).2
  let s := (s.setRound { c with status := some status, waiters := [] }).dropFetches (.round c.rid)
  (c.waiters.foldl (fun s h =>
    if timeout then s.raise h.iss { code := trapCollTimeout, info := BitVec.ofNat 64 (c.g % 256 + 256) }
    else s.fireStatus h status) s).tryInject c.tid

/-- Nothing is in the way of what a rank writes at the end of its round, or of the walks of its SRC (R161, R163). -/
def State.mayEndRound (s : State) (c : CollRound) : Bool :=
  s.rangeWalks c.asid c.src c.srcLen && s.mayWriteRange c.asid c.dst (c.dstLen (s.collSize c)) && (c.flag == 0 || s.mayWriteVa c.asid c.flag 8)
/-- At DOMAIN scope every other member of the group is within reach: a round whose member is isolated ends by its error path (R36, R387).
The spec gives no message by which the members' data travel, and none is a request here: DESIGN CHOICE (log entry 39). -/
def State.membersUp (s : State) (c : CollRound) : Bool :=
  c.scope != 4 || (List.range 144).all fun n =>
    !(Tab.getD s.eng.collGrp c.g .reset).members.getLsbD n || n == s.lnk.self.toNat || !s.lnk.cutOff (domainBase + n * windowSize)
/-- A rank completes its round: DST in full, then FLAG (R386). -/
def State.completeRound (s : State) (c : CollRound) (remote : List (List Byte)) : State :=
  let n := s.collSize c
  if !s.membersUp c || !s.mayEndRound c then s else
  match s.roundData c n remote with
  | (none, s) => s
  | (some xs, s) =>
    match s.shareFaults c n with
    | (true, s) => s
    | (false, s) =>
      let s := s.setEng { s.eng with rounds := s.eng.rounds.map fun x =>
        if x.g = c.g ∧ x.round = c.round ∧ c.scope = 3 then { x with data := some xs } else x }
      let (bs, ms) := c.result n xs
      (s.writeRange c.asid c.dst bs ms).endRound c 0 c.flagVal false

/-- COLL_ROUND_COMPLETE (R386). DEDUCED (log entry 60). -/
def execCollRoundComplete (s : State) : Out :=
  match s.inp with
  | some (.collRoundComplete rid remote) =>
    let s := { s with inp := none }
    match s.eng.rounds.find? fun c => c.rid == rid && c.status.isNone with
    | none => .next s
    | some c => .next (s.completeRound c remote)
  | _ => .next s

/-- Poison every 16-byte part of a range that can be written (R387). -/
def State.poisonRange (s : State) (asid va : Nat) : Nat → State
  | 0 => s
  | n + 1 =>
    match s.placeVa asid va 16 true with
    | (.error _, s) => State.poisonRange s asid (va + 16) n
    | (.ok pl, s) =>
      if pl.kind = .domain then State.poisonRange s asid (va + 16) n
      else
        let (bs, _, s) := s.readAt pl.kind pl.addr 16
        State.poisonRange (s.writeAt pl.kind pl.addr bs true) asid (va + 16) n

/-- A rank's round fails or is abandoned: DST is poisoned, FLAG gets FLAGVAL with bit 63 set (R387). -/
def State.failRound (s : State) (timeout : Bool) (c : CollRound) : State :=
  (s.poisonRange c.asid c.dst (c.dstLen (s.collSize c) / 16)).endRound c 1 (c.flagVal ||| 0x8000000000000000) timeout

/-- A round may fail at this rank: a fault of one of its ranks here, a rank that has failed or left, an isolated peer; at
DOMAIN scope a failure elsewhere comes from outside (R387, R388). DEDUCED (log entry 60). -/
def State.mayFail (s : State) (c : CollRound) : Bool :=
  c.scope == 4 || s.roundBroken c || (s.shares c).any fun x => (s.shareFaults x (s.collSize c)).1

/-- COLL_ROUND_FAIL (R387). DEDUCED (log entry 60). -/
def execCollRoundFail (s : State) : Out :=
  match s.inp with
  | some (.collRoundFail rid) =>
    let s := { s with inp := none }
    match s.eng.rounds.find? fun c => c.rid == rid && c.status.isNone with
    | none => .next s
    | some c => if s.mayFail c && s.mayEndRound c then .next (s.failRound false c) else .next s
  | _ => .next s

/-- The time limit of a task's rounds in microseconds; 0 is none (R388). -/
def State.ctmo (s : State) (tid : Nat) : Nat := ((s.task? tid).map fun t => field t.collTmo.toNat 63 32).getD 0

/-- COLL_ROUND_TIMEOUT: the round is abandoned at every rank that has not completed it; a round that completes in the same
cycle completes (R387, R394). -/
def execCollRoundTimeout (s : State) : Out :=
  match s.inp with
  | some (.collRoundTimeout rid) =>
    let s := { s with inp := none }
    match s.eng.rounds.find? fun c => c.rid == rid && c.status.isNone with
    | none => .next s
    | some c =>
      let due := s.ctmo c.tid != 0 && s.passed c.since (s.ctmo c.tid)
      let done := c.scope == 3 && (s.roundData c (s.collSize c) []).1.isSome && !(s.shareFaults c (s.collSize c)).1
      let open_ := (s.shares c).filter fun x => x.status.isNone
      if !due || done || !open_.all fun x => s.mayEndRound x then .next s
      else .next (open_.foldl (fun s x => s.failRound true x) s)
  | _ => .next s

end Sys2Proof.Machine
end

