-- ==== Sys2Proof/Machine/Drop.lean ====
section
/-! DEFINITION. The drop of a plane into a region (R69, R78 to R80, R156, R258, R260) and PLANE_DROP. -/
namespace Sys2Proof.Machine

/-- Empty the role area of a context (R69). -/
def State.zeroArea (s : State) (e c : Nat) : State :=
  s.setMem { s.mem with
    bank := s.mem.bank.filter fun x => x.1 / 65536 != ctxKey e c
    bankPois := s.mem.bankPois.filter fun x => x.1 * 16 / 65536 != ctxKey e c }

/-- Where a plane's region L1 holds a line: the element of the region and the set (R154). -/
def Plane.l1Home (p : Plane) (line : Nat) : Option (Nat × Nat) :=
  let bs := (List.range (p.w * p.h)).filter fun i => p.roleCode i == 2
  (bs[line % bs.length]?).map fun i => (i, line / bs.length % max 1 (p.role i * 4))
/-- Of a context's lines in the region L1, those stay that a bank holds whose area keeps its contents, and that the incoming plane finds
there (R154, R156). -/
def State.l1Keep (s : State) (tid c : Nat) (old : Option Plane) (pl : Plane) : State :=
  let stays := fun (line : Nat) => (old.bind fun o => (o.l1Home line).map fun x => areaKept o pl x.1 && pl.l1Home line == some x).getD false
  s.setMem { s.mem with l1 := s.mem.l1.filter fun x => x.1 / 2 ^ 42 != tid * 4 + c || stays (x.1 % 2 ^ 42) }
/-- A bed's factorising context gets another plane: no FCTB has been performed since (R144), and the bed is out of the mode and of its group.
DESIGN CHOICE (log entry 56). -/
def State.leaveBeds (s : State) (t : Task) (c : Nat) : State :=
  let mine := fun (b : Nat) => (s.eng.beds.any fun x => x.1 == b && x.2.ctx == c) && t.elems.contains ((bedElems b).headD 0)
  s.setEng { s.eng with beds := (leaveGroups s.eng.beds mine).map fun (b, x) =>
    (b, if mine b then { x with begun := false, active := false, step := none, joining := none, serve := none } else x) }
/-- What a plane leaves behind in a context of a task: tokens, edge numbers, history, trees, array, the mode of its beds, and FIFOs and cached
lines but for those in areas that keep their contents (R156). -/
def State.clearCtx (s : State) (tid : Nat) (t : Task) (c : Nat) (old : Option Plane) (pl : Plane) : State :=
  let es := t.elems
  let stays := fun (i : Nat) => (old.map fun o => areaKept o pl i).getD false
  let at_ := fun (p : Plane) (k : Nat) => spFy (p.stream k) * t.w + spFx (p.stream k)
  let port := fun (k : Nat) => (old.map fun o => decide (k < o.secCnt 3) && at_ o k == at_ pl k).getD false
    && decide (k < pl.secCnt 3) && stays (at_ pl k)
  let mine := fun (src : Nat) =>
    if src < startSrc then src / 128 % 4 == c && es.contains (src / 512) else decide (2 ^ 24 ≤ src) && (src - 2 ^ 24) / 256 == tid * 4 + c
  let here := fun (e : Nat) (t : Token) => t.ctx == c && es.contains e
  let s := s.setFab { s.fab with
    latches := s.fab.latches.filter fun x => !here (x.1 / 8) x.2.tok
    net := s.fab.net.filter fun f => !here f.target f.tok
    chan := s.fab.chan.filter fun x => !here x.1 x.2
    seqOut := s.fab.seqOut.filter fun x => !mine x.1
    seqIn := s.fab.seqIn.filter fun x => !mine x.1
    hist := s.fab.hist.map fun (e, hs) => (e, if es.contains e then hs.filter fun h => h.tok.ctx != c else hs) }
  let s := (s.l1Keep tid c old pl).leaveBeds t c
  s.setEng { s.eng with
    trees := s.eng.trees.filter fun x => x.1 / 16 != tid * 4 + c
    arrays := s.eng.arrays.filter fun x => x.1 != tid * 4 + c
    fifo := s.eng.fifo.filter fun x => x.1 / 256 != tid * 4 + c || port (x.1 % 256)
    faults := s.eng.faults.filter fun f => f.tid != tid || f.ctx != c }

/-- Load the element images of a plane into a context; role areas are zeroed unless they keep their contents (R69, R156). -/
def State.loadImages (s : State) (tid : Nat) (t : Task) (pl : Plane) (num c : Nat) (old : Option Plane) : State :=
  t.elems.zipIdx.foldl (fun s (e, i) =>
    let keep := (old.map fun o => areaKept o pl i).getD false
    let s := if keep then s else s.zeroArea e c
    let s := s.setFab { s.fab with store := writeCells s.fab.store (e * 4096 + c * 1024) (pl.image i 0 1024) }
    s.setCtx e c { CtxSt.new with owner := some tid, plane := num, armed := true }) s

/-- Free a context of a region: zeroed by R69 (R260). -/
def State.freeCtx (s : State) (t : Task) (c : Nat) : State :=
  t.elems.foldl (fun s e =>
    let s := (s.zeroArea e c).setFab { s.fab with store := writeCells s.fab.store (e * 4096 + c * 1024) (List.replicate 1024 0) }
    s.setFab { s.fab with ctxs := Tab.erase s.fab.ctxs (ctxKey e c) }) s

/-- Write an argument word into a literal (R257). -/
def State.argLit (s : State) (e c n w : Nat) : State :=
  s.setFab { s.fab with store := writeCells s.fab.store (e * 4096 + c * 1024 + 12 * n + 8) (bytesOf 4 w) }
/-- The KIND 0 entries of a plane's argument map, in table order, then its rewrite log (R80, R257, R369). -/
def State.applyArgs (s : State) (t : Task) (pl : Plane) (c : Nat) (log : List (Nat × W32)) : State :=
  let s := (List.range (pl.secCnt 1)).foldl (fun s k =>
    let x := pl.argMap k
    if amCarry x then s else s.argLit (t.elem (amX x) (amY x)) c (amNode x) (t.launch.arg (amArg x))) s
  log.foldl (fun s (key, v) => s.writeLit (t.elem (field key 6 0) (field key 13 7)) c (field key 19 14) v.toNat) s

/-- A plane fits a region: the same rectangle, and, when FIXED, at its nominal origin (R76, R77). DESIGN CHOICE (log entry 62). -/
def Plane.fitsRegion (p : Plane) (t : Task) : Bool :=
  p.wb == t.wb && p.hb == t.hb && (!p.fixed || p.ox == t.ox && p.oy == t.oy)

/-- A tree's partials under way reach their parents. -/
def State.landPartials (s : State) (c : Nat) (t : TreeSt) : TreeSt :=
  t.nodes.foldl (fun t (n, _) =>
    match s.recAt (n / 64) c (n % 64) with
    | some (_, r) =>
      if redRoot r then t else
      match s.destElem (n / 64) c r.dst0 with
      | none => t
      | some (e, m, _) =>
        let ps := (t.node n).sent.map fun p => { p with link := entrySide (n / 64) e - 1, since := s.cycles, iss := none }
        let t := t.setNode n { t.node n with sent := [] }
        t.setNode (e * 64 + m) { t.node (e * 64 + m) with inputs := (t.node (e * 64 + m)).inputs ++ ps }
    | none => t) t
/-- The trees of a plane that leaves its context belong to its nodes still (R423): they are kept until the plane is dropped again. -/
def State.stashTrees (s : State) (tid : Nat) (r : Resident) : State :=
  s.setEng { s.eng with stash := s.eng.stash ++ (s.eng.trees.filter fun x => x.1 / 16 == tid * 4 + r.ctx).map fun x =>
    { tid := tid, plane := r.plane, tree := x.1 % 16, st := s.landPartials r.ctx x.2 } }
/-- A plane that is dropped again finds its trees as they were (R423). -/
def State.unstash (s : State) (tid num c : Nat) : State :=
  let mine := fun (x : Stash) => x.tid == tid && x.plane == num
  s.setEng { s.eng with trees := (s.eng.stash.filter mine).foldl (fun t x => Tab.set t (treeKey tid c x.tree) x.st) s.eng.trees
                        stash := s.eng.stash.filter fun x => !mine x }
/-- Drop a plane into context `c` of a task's region: images, arming, then arguments and log; what arming finds first, if
anything (R79, R80, R258). The context is left freed after a failure. DESIGN CHOICE (log entry 62). -/
def State.dropPlane (s : State) (tid : Nat) (t : Task) (pl : Plane) (num c : Nat) (old : Option Plane) (argc : Option Nat) :
    Option ArmFail × State :=
  let v : ArmView := { p := pl, num := num, x0 := t.x0, y0 := t.y0, argc := argc }
  let fail := if pl.fitsRegion t then firstFail v.failures else some (v.planeFail 9 0)
  let s := s.clearCtx tid t c old pl
  match fail with
  | some f => (some f, (s.freeCtx t c).armReport num f)
  | none =>
    let log := Tab.getD t.logs num []
    let t := { t with planes := t.planes ++ [{ plane := num, ctx := c, used := t.useClock, log := log, table := pl }], logs := Tab.erase t.logs num }
    let s := (s.setTask tid t).loadImages tid t pl num c old
    (none, (s.applyArgs t pl c log).unstash tid num c)

/-- A resident plane leaves its context; its rewrite log is kept (R80, R369). -/
def Task.evict (t : Task) (r : Resident) : Task :=
  { t with planes := t.planes.filter fun x => x.ctx != r.ctx, logs := if r.log.isEmpty then t.logs else Tab.set t.logs r.plane r.log }

/-- PLANE_DROP: the plane of a thread's next block drops into the region, evicting an idle plane when it must (R80), once the microcode image
is checked (R48).
DEDUCED (log entry 35). -/
def State.planeDrop (s : State) (thread : Nat) : State :=
  match s.thread? thread with
  | none => s
  | some th0 =>
    let s := s.reap th0.tid
    match s.thread? thread, s.task? th0.tid with
    | some th, some t =>
      match th.next with
      | none => s
      | some (num, block) =>
        if !t.starts || !s.boot.microOk || t.planes.any (fun r => r.plane == num) then s else
        match s.plane? num with
        | none => s.badBranch th.tid num block
        | some pl =>
          if pl.nblk ≤ block then s.badBranch th.tid num block else
          match s.dropSite th.tid t pl with
          | none => s
          | some (c, r) =>
            if !(s.dropWaits thread).isEmpty then s else
            let old := r.map (·.table)
            let s := match r with
              | some r => s.stashTrees th.tid r
              | none => s
            let t := match r with
              | some r => t.evict r
              | none => t
            match (s.setTask th.tid t).dropPlane th.tid t pl num c old (some t.launch.argc) with
            | (none, s) => s
            | (some _, s) => (s.removePlane num).endTask th.tid complBad evKilled
    | _, _ => s

/-- PLANE_DROP. DEDUCED (log entry 35); DESIGN CHOICE (log entry 62). -/
def execPlaneDrop (s : State) : Out :=
  match s.inp with
  | some (.planeDrop thread) => .next ({ s with inp := none }.planeDrop thread)
  | _ => .next s

end Sys2Proof.Machine
end

