-- ==== Sys2Proof/Machine/Save.lean ====
section
/-! DEFINITION. CHECKPOINT_SAVE and the restoring of an image (R85, R89, R90, R93, R427 to R429, R435). -/
namespace Sys2Proof.Machine

/-! ### What must be over before the image is taken -/

/-- Every edge of the task has carried its marker (R88), and what the cut lets finish has finished: row commands, also those of others in the
task's beds (R429), drains (R137), commands of the outer stacks, requests to peers, and traps that only end the task. -/
def State.cutDone (s : State) (tid : Nat) (t : Task) (k : Cut) : Bool :=
  let mine := fun (i : Issue) => s.issOf tid i
  let rows := t.beds.map fun (x, y) => bedOf (elemAt (8 * x) (8 * y))
  k.begun && ((s.taskEdges tid t).all fun x => k.marked.contains x.1)
    && !(s.mem.rowCmds.any fun c => mine c.iss || c.doneAt.isNone && rows.contains (c.bank / 64))
    && !(s.mem.acc.any fun x => x.sent && x.todo != 0 && mine x.iss) && !(s.eng.bindings.any fun b => b.tid == tid && s.bindingOwes b)
    && !(s.eng.nmQueue.any fun q => q.2.any fun c => (c.tell.map mine).getD false)
    && !(s.eng.arrays.any fun x => x.1 / 4 == tid && (x.2.drain.map fun d => d.next.any fun n => decide (n < d.rows)).getD false)
    && s.tsk.lodgeQueue.all fun r => r.tid != tid || ((s.thread? r.thread).map (·.trapped)) == some (some r)

/-! ### Freezing what has issued (R89, R191) -/

/-- Take one firing of a node out of an activation's record, so that it counts when it fires again. -/
def Act.unfire (a : Act) (i : Issue) : Act :=
  match a.fired.findIdx? fun x => x.node == i.elem * 64 + i.f.node && x.trig == i.f.trig && x.live with
  | some k => { a with fired := listDrop a.fired k }
  | none => a
/-- A firing that has issued and read nothing for good goes back to its node. -/
def State.refire (s : State) (i : Issue) : State :=
  let s := s.updAct i.f.aid fun a => a.unfire i
  let s := s.setFab { s.fab with
    issued := Tab.set s.fab.issued i.elem ((Tab.getD s.fab.issued i.elem []).filter fun x => !x.2.same i.f) }
  let st := s.nodeSt i.f.aid i.elem i.f.node
  s.setNodeSt i.f.aid i.elem i.f.node { st with pend := i.f :: st.pend }

/-- Loads and watches fire again on resumption (R89, R345); held stores and atomics are saved (R191). -/
def State.refireAll (s : State) (tid : Nat) : State :=
  let mine := fun (i : Issue) => s.issOf tid i
  let ls := (s.mem.acc.filter fun x => mine x.iss && !x.write).map fun x => (x.id, x.iss)
  let ws := (s.mem.watches.filter fun w => mine w.iss).map fun w => (w.id, w.iss)
  let all := sortBy (fun (x y : Nat × Issue) => decide (x.1 ≤ y.1)) (ls ++ ws)
  let s := s.setMem { s.mem with
    acc := s.mem.acc.filter fun x => !(mine x.iss && !x.write)
    watches := s.mem.watches.filter fun w => !mine w.iss }
  all.foldr (fun x s => s.refire x.2) s

/-- A trap that a node raised after it had recorded is not saved: its firing repeats on resumption (R213). -/
def State.refireTraps (s : State) (tid : Nat) (k : Cut) : State :=
  (s.actsOf tid).foldl (fun s aid =>
    match s.act? aid with
    | none => s
    | some a =>
      match a.trap.bind fun r => r.firing.map fun f => (r, f) with
      | none => s
      | some (r, f) =>
        if k.frozen.contains (cutKey r.elem a.ctx r.node) then
          (s.setAct aid { a with trap := none }).refire { elem := r.elem, ctx := a.ctx, f := f }
        else s) s

/-- Results that have not left their output latches go on their edges. -/
def State.emptyLatches (s : State) (tid : Nat) (t : Task) : State :=
  (t.elems.flatMap fun e => (List.range 4).map fun c => (e, c)).foldl (fun (s : State) (e, c) =>
    let x := s.ctx e c
    if x.owner ≠ some tid then s else
    let s := (x.outs.filter fun l => !l.waits).foldl (fun (s : State) l =>
      match s.recAt e c l.node with
      | some (_, r) => l.beats.foldl (fun (s : State) b => s.sendBeat e c l.node r l.aid b) s
      | none => s) s
    s.setCtx e c (x.dropOuts fun l => !l.waits)) s

/-- A token that sits in the FIFO of a stream read port, whose binding fetches it again, or sends it again behind those that it fetches (R427). -/
def State.refetched (s : State) (f : Flit) : Bool :=
  decide (2 ^ 24 ≤ f.tok.src) && f.dir == 0 &&
    (!f.tok.front || s.eng.bindings.any fun b => f.bid == some b.bid && s.inFifo b != 0)

/-- The tokens of the cut by edge in arrival order: what has arrived, then what is on its way or was recorded at its producer's latch, in order
of SEQ (R87 to R89). -/
def State.cutTokens (s : State) (tid : Nat) (k : Cut) : List (Nat × Token) :=
  let live := fun (t : Token) => (s.actFor tid t.ctx t.iter).isSome || decide (t.src < startSrc) && (match s.recAt (t.src / 512) t.ctx (t.src / 2 % 64) with
    | some (0xE6, _) => true
    | _ => false)
  let way := ((s.fab.latches.filter fun x => s.owns tid (x.1 / 8) x.2.tok.ctx).map fun x => (x.1 / 8, x.2.tok))
    ++ (s.fab.net.filter fun f => s.owns tid f.target f.tok.ctx && !s.refetched f).map fun f => (f.target, f.tok)
  let far := fun (t : Token) => if t.src = startSrc then 0 else (t.seq - Tab.getD s.fab.seqIn t.src 0).toNat
  let way := (s.fab.chan.filter fun x => s.owns tid x.1 x.2.ctx) ++ k.late ++ way
  (k.channel ++ sortBy (fun (x y : Nat × Token) => decide (far x.2 ≤ far y.2)) way).filter fun x => live x.2

/-- A binding as saved: a read starts again at the first element not consumed (R89, R427). A released one still delivers what was issued before
(R358); a CLOSE FRONT that its FIFO holds is sent again behind its last element; a position that faults faults again (R357). -/
def State.savedBinding (s : State) (b : Binding) : Binding :=
  if b.write then { b with faulted := false }
  else
    { b with next := s.bindingPos b, got := [], faulted := false
             stop := if !b.released then none else if b.faulted then b.stop.map (· + 1) else b.stop
             front := b.front || s.fab.net.any fun f => f.bid == some b.bid && f.tok.front && f.dir == 0 }

/-- A context as saved. -/
def CtxSt.saved (x : CtxSt) : CtxSt := { x with credit := 0, gen := x.lastSeed }

/-- The image of a task (R89). DEDUCED (log entry 44). -/
def State.image (s : State) (tid : Nat) (t : Task) (k : Cut) (rem : W32) (base units : Nat) : Saved :=
  let acts := s.tsk.acts.filter fun x => x.2.tid == tid && !x.2.dead
  let mine := fun (i : Issue) => s.issOf tid i
  let areas := t.elems.flatMap fun e => (List.range 4).filterMap fun c => if s.owns tid e c ∧ s.roleCode e c = 0 then some (ctxKey e c) else none
  { base := base, units := units, rem := rem, tid := tid, task := t
    threads := s.tsk.threads.filter fun x => x.2.tid == tid
    acts := acts
    nodes := s.fab.nodes.filter fun x => acts.any fun a => a.1 == x.1 / 1048576
    ctxs := (s.fab.ctxs.filter fun x => x.2.owner == some tid).map fun x => (x.1, x.2.saved)
    tokens := s.cutTokens tid k
    bank := s.mem.bank.filter fun x => areas.contains (x.1 / 65536)
    bankPois := (s.mem.bankPois.filter fun x => areas.contains (x.1 * 16 / 65536)).map (·.1)
    held := s.fab.held.filter fun h => mine h.iss
    acc := s.mem.acc.filter fun x => mine x.iss
    bindings := (s.eng.bindings.filter fun b => b.tid == tid).map s.savedBinding
    fifo := []
    copies := (s.eng.copies.filter fun c => c.tid == tid).map fun c => { c with rd := c.next, fetched := [] }
    arrays := s.eng.arrays.filter fun x => x.1 / 4 == tid
    beds := s.eng.beds.filter fun x =>
      let e := (bedElems x.1).headD 0
      (List.range 4).any fun c => s.owns tid e c && bit (s.modeWord e c) 3
    trees := s.eng.trees.filter fun x => x.1 / 64 == tid
    stash := s.eng.stash.filter fun x => x.tid == tid
    rounds := s.eng.rounds.filter fun r => r.tid == tid }

/-! ### The save pool (R435) -/

/-- Units that images hold, as first unit address and count. -/
def State.poolUsed (s : State) : List (Nat × Nat) := s.sch.held.filterMap fun h => h.image.map fun i => (i.base, i.units)
/-- The lowest unit of the pool where `n` units fit (R435). DEDUCED (log entry 44). -/
def State.poolFit (s : State) (n : Nat) : Option Nat :=
  let base := s.sch.saveBase.toNat
  let size := s.sch.saveMib.toNat * 16
  ((List.range (size + 1 - n)).find? fun u =>
    let a := base + u * 65536
    s.poolUsed.all fun x => decide (a + n * 65536 ≤ x.1) || decide (x.1 + x.2 * 65536 ≤ a)).map fun u => base + u * 65536
/-- Every byte of a range of local memory can be written (R85). -/
def State.poolOk (s : State) (a n : Nat) : Bool :=
  (decide (a + n ≤ s.mem.capacity) || decide (outerBase ≤ a)) && decide (a + n ≤ holeBase)

def sourceCode : Source → Nat
  | .slot _ _ => 0
  | .ualink _ => 1
  | .ethernet _ => 2
  | .child _ => 3
/-- Bytes up to the next multiple of 64. -/
def pad64 (bs : List Byte) : List Byte := bs ++ List.replicate ((64 - bs.length % 64) % 64) 0
/-- The 13 sections that follow the launch packet, each behind its descriptor and padded (R435). DEDUCED (log entry 44). -/
def imageSections (n : Nat) : List Byte :=
  (List.range 13).flatMap fun k =>
    let bs := Config.imageSection n (k + 1)
    pad64 (bytesOf 2 (k + 1) ++ bytesOf 6 bs.length ++ bs)
/-- The header of an image (R435). DEDUCED (log entry 44). -/
def imageHeader (t : Task) (rem : W32) (len : Nat) : List Byte :=
  let l := t.launch
  let q := match l.src with
    | .slot _ q => q
    | _ => 0
  bytesOf 4 0x53415645 ++ bytesOf 2 1 ++ bytesOf 2 13 ++ bytesOf 8 len ++ bytesOf 8 l.cookie ++ bytesOf 8 l.compl ++ bytesOf 4 rem.toNat
    ++ bytesOf 1 t.asid ++ bytesOf 1 t.prio ++ bytesOf 1 (sourceCode l.src) ++ bytesOf 1 (l.le 1 1) ++ bytesOf 4 q ++ bytesOf 20 0

/-- What is left now of an estimate of `us` µs set at time `at_` (R84). -/
def State.remFrom (s : State) (us : W32) (at_ : Nat) : W32 :=
  if us = 0xFFFFFFFF then us else BitVec.ofNat 32 (us.toNat - (s.units - at_) / unitsPerUs)
/-- The remaining estimate of a task now (R84). -/
def State.remOf (s : State) (t : Task) : W32 := s.remFrom t.estUs t.estAt
/-- The remaining estimate that a pre-emption decision takes: the one before an EST that commits in the same cycle (R84, R330). -/
def State.remDecided (s : State) (t : Task) : W32 := if t.estCyc = s.cycles then s.remFrom t.estWas t.estWasAt else s.remOf t

/-- Close the open rows of a task's beds, as a ROWPRE that performs now does at the next row-clock edge; a row whose forced close is due has been
closed by then (R162, R363, R429). -/
def State.closeRows (s : State) (t : Task) : State :=
  let beds := t.beds.map fun (x, y) => bedOf (elemAt (8 * x) (8 * y))
  let c := (s.units + unitsPerRow - 1) / unitsPerRow
  s.setMem (s.mem.banks.foldl (fun m (k, _) =>
    if !beds.contains (k / 64) then m else
    let m := m.settleBank k c
    if (Tab.getD m.banks k .reset).open_ then m.closeBank k c else m) s.mem)

/-- A checkpoint that fails: the victim is killed (R85, R435). -/
def State.ckFails (s : State) (tid : Nat) : State :=
  (s.setSch { s.sch with ckFail := BitVec.ofNat 16 (satTo 16 (s.sch.ckFail.toNat + 1)) }).killTask tid

/-- The image is taken and written, once no open row or remap is in its way, the victim leaves its region and re-enters the dispatcher (R85,
R89, R161, R163, R435). What the
sections hold is an open value. DEDUCED (log entry 44). -/
def State.saveTask (s0 : State) (tid : Nat) (t : Task) (k : Cut) : State :=
  let sections := imageSections s0.fresh
  let s := { s0 with fresh := s0.fresh + 1 }
  let len := 64 + t.launch.bytes.length + sections.length
  let units := (len + 65535) / 65536
  match s.poolFit units with
  | none => s.ckFails tid
  | some base =>
    if !s.poolOk base len then s.ckFails tid
    else if !s.rangeFree base len then s0 else
    let rem := s.remOf t
    let s := ((((s.closeRows t).settleBuses tid).emptyLatches tid t).refireAll tid).refireTraps tid k
    let img := s.image tid t k rem base units
    let s := s.writeAt .global base (imageHeader t rem len ++ t.launch.bytes ++ sections) false
    let s := s.setSch { s.sch with ckpts := BitVec.ofNat 16 (satTo 16 (s.sch.ckpts.toNat + 1)) }
    ((s.report t.launch evCheckpointed 0 (some t.region)).purge tid).hold t.launch true (some img)

/-- CHECKPOINT_SAVE. DEDUCED (log entry 44). -/
def execCheckpointSave (s : State) : Out :=
  match s.inp with
  | some (.checkpointSave tid) =>
    let s := { s with inp := none }
    match s.task? tid, s.cutOf tid with
    | some t, some k => if s.cutDone tid t k then .next (s.saveTask tid t k) else .next s
    | _, _ => .next s
  | _ => .next s

/-! ### Moving an image to its new region (R78, R89, R90) -/

/-- Where a restored task goes: displacement in elements, contexts and thread records, old to new. DEDUCED (log entry 45). -/
structure Move where
  dx : Int
  dy : Int
  ctxs : List (Nat × Nat)
  threads : List (Nat × Nat)
  deriving DecidableEq, Repr

def assoc (l : List (Nat × Nat)) (k : Nat) : Nat := ((l.find? fun x => x.1 == k).map (·.2)).getD k
def Move.elem (m : Move) (e : Nat) : Nat := elemAt ((elemX e : Int) + m.dx).toNat ((elemY e : Int) + m.dy).toNat
def Move.ctx (m : Move) (c : Nat) : Nat := assoc m.ctxs c
def Move.thread (m : Move) (n : Nat) : Nat := assoc m.threads n
def Move.key (m : Move) (k : Nat) : Nat := ctxKey (m.elem (k / 4)) (m.ctx (k % 4))
def Move.bed (m : Move) (b : Nat) : Nat := bedOf (m.elem ((bedElems b).headD 0))
def Move.src (m : Move) (tid src : Nat) : Nat :=
  if src < startSrc then edgeSrc (m.elem (src / 512)) (m.ctx (src / 128 % 4)) (src / 2 % 64) (src % 2)
  else if src < 2 ^ 24 then src
  else streamSrc tid (m.ctx ((src - 2 ^ 24) / 256 % 4)) ((src - 2 ^ 24) % 256)
def Move.tok (m : Move) (tid : Nat) (t : Token) : Token := { t with ctx := m.ctx t.ctx, src := m.src tid t.src }
/-- A drain token kept for an activation names its target in `src` (R133). -/
def Move.keptTok (m : Move) (t : Token) : Token := { t with ctx := m.ctx t.ctx, src := startSrc + m.elem (t.src - startSrc) }
def Move.iss (m : Move) (i : Issue) : Issue := { i with elem := m.elem i.elem, ctx := m.ctx i.ctx }
def Move.trap (m : Move) (r : TrapRec) : TrapRec :=
  { r with thread := m.thread r.thread, ctx := m.ctx r.ctx, elem := m.elem r.elem }
/-- A place of a role area moves with its element and context. -/
def Move.parts (m : Move) (k : PlaceKind) (ps : List (Nat × Nat)) : List (Nat × Nat) :=
  if k = .buffer then ps.map fun p => (m.key (p.1 / 65536) * 65536 + p.1 % 65536, p.2) else ps
def Move.done (m : Move) (p : Performed) : Performed := { p with elem := m.elem p.elem, parts := m.parts p.kind p.parts }
def Move.kept (m : Move) (k : Kept) : Kept :=
  { k with ctx := m.ctx k.ctx, performed := k.performed.map m.done, tokens := k.tokens.map m.keptTok }
def Move.effect (m : Move) : Effect → Effect
  | .spawn n p b c => .spawn (m.thread n) p b c
  | e => e
def Move.act (m : Move) (a : Act) : Act :=
  { a with thread := m.thread a.thread, ctx := m.ctx a.ctx
           fired := a.fired.map fun x => { x with node := m.elem (x.node / 64) * 64 + x.node % 64 }
           trap := a.trap.map m.trap, effects := a.effects.map m.effect, performed := a.performed.map m.done, kept := a.kept.map m.keptTok }
def Move.thr (m : Move) (t : Thread) : Thread :=
  { t with trapped := t.trapped.map m.trap, kept := t.kept.map m.kept, lodgeKept := t.lodgeKept.map m.kept, useKept := t.useKept.map m.kept }
def Move.group (m : Move) (g : Group) : Group :=
  { g with members := g.members.map m.thread, late := g.late.map m.thread, arrived := g.arrived.map fun x => (m.thread x.1, x.2), leaving := g.leaving.map m.thread }
def Move.snap (m : Move) (x : Snap) : Snap :=
  if x.kind = .buffer then { x with addr := m.key (x.addr / 65536) * 65536 + x.addr % 65536 } else x
def Move.heldOp (m : Move) (h : HeldOp) : HeldOp := { h with iss := m.iss h.iss, snap := h.snap.map m.snap }
def Move.access (m : Move) (x : Access) : Access :=
  { x with iss := m.iss x.iss
           parts := m.parts x.kind x.parts, snap := x.snap.map m.snap }
def Move.binding (m : Move) (tid : Nat) (b : Binding) : Binding :=
  { b with ctx := m.ctx b.ctx, tell := b.tell.map fun x => (m.iss x.1, x.2), owed := b.owed.map fun x => (m.iss x.1, x.2),
           inputs := b.inputs.map (m.tok tid) }
def Move.copy (m : Move) (c : Copy) : Copy := { c with elem := m.elem c.elem, ctx := m.ctx c.ctx, tell := c.tell.map m.iss }
def Move.array (m : Move) (x : ArraySt) : ArraySt :=
  { x with loads := x.loads.map fun l => { l with tell := m.iss l.tell }, assigns := x.assigns.map fun l => { l with tell := m.iss l.tell } }
def Move.tab (f : Nat → Nat) {α : Type} (t : Tab α) : Tab α := t.foldl (fun r (k, v) => Tab.set r (f k) v) []
def Move.node (m : Move) (n : Nat) : Nat := m.elem (n / 64) * 64 + n % 64
def Move.partials (m : Move) (ps : List Partial) : List Partial := ps.map fun p => { p with iss := p.iss.map m.iss }
def Move.tree (m : Move) (t : TreeSt) : TreeSt :=
  { t with nodes := Move.tab m.node (t.nodes.map fun (k, x) => (k, { x with inputs := m.partials x.inputs, sent := m.partials x.sent }))
           waitCount := Move.tab m.node t.waitCount, back := Move.tab m.node t.back
           paired := t.paired.map fun p => { p with node := m.node p.node }
           waits := t.waits.map fun w => { w with iss := m.iss w.iss } }

/-! ### Thread records (R77, R79) -/

/-- Records that an activation's SPAWNs hold until it commits (R324). -/
def Act.spawned (a : Act) : List Nat :=
  if a.committed || a.dead then [] else a.effects.filterMap fun e =>
    match e with
    | .spawn n _ _ _ => some n
    | _ => none
/-- Records in use or reserved in the package pool. -/
def State.recordsUsed (s : State) : List Nat :=
  s.tsk.threads.map (·.1) ++ (s.tsk.tasks.flatMap fun x => x.2.reserve) ++ s.tsk.acts.flatMap fun x => x.2.spawned
/-- DEDUCED (log entry 45). -/
def State.recordsFree (s : State) : Nat := 16384 - s.recordsUsed.length
/-- The `n` lowest free records. DEDUCED (log entry 45). -/
def State.takeRecords (s : State) (n : Nat) : List Nat :=
  let used := s.recordsUsed
  ((List.range 16384).filter fun k => !used.contains k).take n

/-! ### Restoring (R89, R90) -/

/-- What the re-drop of saved planes gives: the state with all of them in place, or the plane that fails arming, with the failure reported. -/
inductive Redropped where
  | ok (s : State)
  | bad (num : Nat) (s : State)
  deriving DecidableEq, Repr

/-- A launch, or a resumption, to a plane that is not installed, or past its last block, is an arming failure of that plane, recorded with code 9
(R254, R259). DEDUCED (log entry 61). -/
def State.noPlane (s : State) (num elem block : Nat) : State :=
  s.armReport num { code := 9, elem := elem, node := 0, which := 0, index := block }
/-- Drop the saved planes into the contexts they are given (R80, R89). -/
def State.redrop (s : State) (tid : Nat) (img : Saved) : List (Resident × Nat) → Redropped
  | [] => .ok s
  | (r, c) :: rest =>
    match s.task? tid with
    | none => .ok s
    | some t =>
      match s.plane? r.plane with
      | none => .bad r.plane (s.noPlane r.plane (t.elem 0 0) 0)
      | some pl =>
        match s.dropPlane tid t pl r.plane c none none with
        | (some _, s) => .bad r.plane s
        | (none, s) => State.redrop s tid img rest

/-- The saved role areas, error state and registers take their places (R89). -/
def State.putBanks (s : State) (m : Move) (img : Saved) : State :=
  let at_ := fun (a : Nat) => m.key (a / 65536) * 65536 + a % 65536
  let s := s.setMem { s.mem with
    bank := img.bank.foldl (fun b (a, v) => Tab.put 0 b (at_ a) v) s.mem.bank
    bankPois := img.bankPois.foldl (fun b k => Tab.put false b (at_ (k * 16) / 16) true) s.mem.bankPois }
  img.ctxs.foldl (fun s (k, x) =>
    let e := m.elem (k / 4)
    let c := m.ctx (k % 4)
    let y := s.ctx e c
    s.setCtx e c { y with latch := x.latch, flow := x.flow, fpStat := x.fpStat, gen := x.gen, lastSeed := x.lastSeed }) s

/-- The engines' parts of an image (R89, R388, R428). -/
def State.putEngines (s : State) (m : Move) (img : Saved) : State :=
  let tid := img.tid
  let tc := fun (k : Nat) => k / 4 * 4 + m.ctx (k % 4)
  s.setEng { s.eng with
    bindings := s.eng.bindings ++ img.bindings.map (m.binding tid)
    fifo := img.fifo.foldl (fun t (k, v) => Tab.set t (tc (k / 256) * 256 + k % 256) v) s.eng.fifo
    copies := s.eng.copies ++ img.copies.map m.copy
    arrays := img.arrays.foldl (fun t (k, x) => Tab.set t (tc k) (m.array x)) s.eng.arrays
    beds := img.beds.foldl (fun t (b, x) => Tab.set t (m.bed b) { x with ctx := m.ctx x.ctx }) s.eng.beds
    trees := img.trees.foldl (fun t (k, x) => Tab.set t (tc (k / 16) * 16 + k % 16) (m.tree x)) s.eng.trees
    stash := s.eng.stash ++ img.stash.map fun x => { x with st := m.tree x.st }
    rounds := s.eng.rounds ++ img.rounds.map fun r => { r with thread := m.thread r.thread, elem := m.elem r.elem } }

/-- Frames of the saved activations (R150); none where a bank has no room. -/
def State.putFrames (s : State) (t : Task) : List (Nat × Act) → Option State
  | [] => some s
  | (aid, a) :: rest =>
    match s.planeOfAct a with
    | none => State.putFrames s t rest
    | some pl => (s.allocFrames t a.ctx aid (pl.blockNodes a.block)).bind fun s => State.putFrames s t rest

/-- The tokens of the cut wait for their consumers, their edges numbered afresh. DEDUCED (log entry 45). -/
def State.putTokens (s : State) (m : Move) (img : Saved) : State :=
  img.tokens.foldl (fun s (e, t) =>
    let t := m.tok img.tid t
    let (q, s) := if t.src = startSrc then (t.seq, s) else s.nextSeq t.src
    s.setFab { s.fab with chan := s.fab.chan ++ [(m.elem e, { t with seq := q })] }) s

/-- What follows the re-drop of a saved task's planes: everything else of the image takes its place; none where its frames have no room (R89,
R90, R150). DEDUCED (log entry 45). -/
def State.restoreRest (s : State) (img : Saved) (m : Move) : Option State :=
  let old := img.task
  let tid := img.tid
  let s := s.updTask tid fun t => { t with planes := t.planes.map fun r =>
    { r with used := ((old.planes.find? fun o => o.plane == r.plane).map (·.used)).getD r.used } }
  let acts := img.acts.map fun x => (x.1, m.act x.2)
  (s.putFrames (((s.task? tid)).getD old) acts).map fun s =>
  let s := (s.putBanks m img).putEngines m img
  let ths := img.threads.map fun x => (m.thread x.1, m.thr x.2)
  let s := s.setTsk { s.tsk with
    threads := ths.foldl (fun r (k, v) => Tab.set r k v) s.tsk.threads
    acts := acts.foldl (fun r (k, v) => Tab.set r k v) s.tsk.acts
    lodgeQueue := s.tsk.lodgeQueue ++ ths.filterMap fun x => if x.2.lodge then x.2.trapped else none }
  let s := s.setFab { s.fab with
    nodes := img.nodes.foldl (fun r (k, v) => Tab.set r (nodeKey (k / 1048576) (m.elem (k / 64 % 16384)) (k % 64)) v) s.fab.nodes
    held := s.fab.held ++ img.held.map m.heldOp }
  let s := s.setMem { s.mem with acc := s.mem.acc ++ img.acc.map m.access }
  let s := s.putTokens m img
  let s := (ths.map (·.1)).foldl State.deliverTrap s
  acts.foldl (fun s (aid, a) => (s.actNodes a).foldl (fun s (e, n) => s.releaseNode aid e a.ctx n) s) s
/-- A saved task takes its place at the origin (`ox`, `oy`), its planes in the contexts `cs` (R89, R90).
DEDUCED (log entry 45). -/
def State.restore (s : State) (img : Saved) (ox oy : Nat) (cs : List (Resident × Nat)) : Option Redropped :=
  let old := img.task
  let tid := img.tid
  let names := img.threads.map (·.1) ++ old.reserve ++ img.acts.flatMap fun x => x.2.spawned
  let used := s.recordsUsed
  let fresh := if names.all fun n => !used.contains n then names else s.takeRecords names.length
  let m : Move := { dx := ((ox : Int) - old.ox) * 8, dy := ((oy : Int) - old.oy) * 8, ctxs := cs.map fun x => (x.1.ctx, x.2),
                    threads := names.zip fresh }
  let logs := old.planes.foldl (fun l r => if r.log.isEmpty then l else Tab.set l r.plane r.log) old.logs
  let t : Task := { old with ox := ox, oy := oy, planes := [], logs := logs, reserve := old.reserve.map m.thread, estUs := img.rem,
                             estAt := s.units, estWas := img.rem, estWasAt := s.units, estCyc := s.cycles, placedAt := s.units, quantumAt := s.units, past := false, phase := .running,
                             groups := old.groups.map fun g => (g.1, m.group g.2) }
  match (s.setTask tid t).redrop tid img cs with
  | .bad n s => some (.bad n s)
  | .ok s => (s.restoreRest img m).map .ok

end Sys2Proof.Machine
end

