-- ==== Sys2Proof/Machine/Sched.lean ====
section
/-! DEFINITION. The queue scheduler, the dispatcher's semaphores, the placer, pre-emption and retirement (R70 to R85, R91 to R93,
R145, R325, R434). -/
namespace Sys2Proof.Machine

/-! ### The dispatcher (R71, R72) -/

def State.held? (s : State) (lid : Nat) : Option HeldLaunch := s.sch.held.find? fun h => h.lid == lid
def State.setHeld (s : State) (h : HeldLaunch) : State :=
  s.setSch { s.sch with held := s.sch.held.map fun x => if x.lid = h.lid then h else x }
/-- A launch leaves the dispatcher: what was reserved for it is free, and drains for it are off (R74, R85). -/
def State.unhold (s : State) (lid : Nat) : State :=
  let s := s.setSch { s.sch with held := s.sch.held.filter fun h => h.lid != lid, reserved := s.sch.reserved.filter fun r => r.lid != lid }
  let s := s.dropFetches (.launch lid)
  s.setTsk { s.tsk with tasks := s.tsk.tasks.map fun (k, t) => (k,
    match t.phase with
    | .draining _ l => if l = lid then { t with phase := .running } else t
    | _ => t) }
/-- A held launch fails (R434). -/
def State.failHeld (s : State) (h : HeldLaunch) (code : Nat) : State := (s.unhold h.lid).launchFails h.launch code

/-- What a pass over semaphores finds (R58, R72): whether all are satisfied, a peer or a bank that has yet to answer, or a read that faults
or returns poison. -/
inductive Sems where
  | read (ok : Bool) | waits | bad
  deriving DecidableEq, Repr
/-- Read the semaphores of a launch from `i` on (R58). The package reads at the home slice and holds no L1 and no quarter's clock, so
the acquire of R187 has nothing to add at either scope. DEDUCED (log entry 85). -/
def State.readSems (s : State) (lid : Nat) (l : Launch) : List Nat → Sems × State
  | [] => (.read true, s)
  | i :: rest =>
    match s.readVa (.launch lid) l.asid (l.semAddr i) 8 with
    | (.fault _, s) => (.bad, s)
    | (.waits, s) =>
      match State.readSems s lid l rest with
      | (.bad, s) => (.bad, s)
      | (_, s) => (.waits, s)
    | (.ok bs src, s) =>
      if src.isSome then (.bad, s) else
      match State.readSems s lid l rest with
      | (.read b, s) => (.read (b && decide (l.semMin i ≤ Sys2Proof.ofBytes bs)), s)
      | x => x
/-- One pass over the semaphores of a held launch (R72). DEDUCED (log entry 85). -/
def State.semPass (s : State) (lid : Nat) : State :=
  match s.held? lid with
  | none => s
  | some h =>
    if h.placeable.isSome then s else
    match s.readSems lid h.launch (List.range h.launch.nsem) with
    | (.bad, s) => if s.launchReady h.launch then s.failHeld h 8 else s.setHeld { h with lastRead := s.units, dirty := true }
    | (.waits, s) => s.setHeld { h with lastRead := s.units, dirty := true }
    | (.read ok, s) =>
      (s.dropFetches (.launch lid)).setHeld { h with placeable := if ok then some s.units else none, lastRead := s.units, dirty := false }

/-- SEMAPHORE_READ: after a write to a watched granule, and every 100 µs (R72). DEDUCED (log entry 85). -/
def execSemaphoreRead (s : State) : Out :=
  match s.inp with
  | some (.semaphoreRead lid) =>
    let s := { s with inp := none }
    match s.held? lid with
    | none => .next s
    | some h => if h.dirty || s.passed h.lastRead 100 then .next (s.semPass lid) else .next s
  | _ => .next s

/-- The number of the source of a launch; a child launch has none (R70, R328). -/
def sourceNum : Source → Option Nat
  | .slot k _ => some k
  | .ualink _ => some 64
  | .ethernet _ => some 65
  | .child _ => none
/-- The launch that source `k` offers (R70); a slot that is stopped for an error offers none (R55). A victim that re-entered the dispatcher
keeps its source, which offers nothing meanwhile; the spec leaves that open. DESIGN CHOICE (log entry 36). -/
def State.offer (s : State) (k : Nat) : Option Launch :=
  if s.sch.held.any fun h => sourceNum h.launch.src == some k then none
  else if k < 64 then (if (s.slot k).err then none else (s.slot k).offer)
  else if k = 64 then s.que.rackOffer else s.que.ethOffer

/-- The source whose launch the queue scheduler takes: highest PRIO, then the next after the source last taken (R71).
DESIGN CHOICE (log entry 7). -/
def State.nextSource (s : State) : Option (Nat × Launch) :=
  let turn := (List.range 66).map fun i => (s.sch.lastSource + 1 + i) % 66
  (turn.filterMap fun k => (s.offer k).map fun l => (k, l)).foldl (fun best x =>
    match best with
    | none => some x
    | some y => if y.2.prio < x.2.prio then some x else some y) none

/-- Ring entries that a packet takes (R56). -/
def Launch.entries (l : Launch) : Nat := if l.kind = 2 then 1 else 1 + l.ext
/-- Consume `n` entries at the head of the UALink launch ring (R60). DEDUCED (log entry 74). -/
def State.consumeRack (s : State) (n : Nat) : State :=
  let gone := (List.range n).foldl (fun (m : Nat) k => m ||| 2 ^ ((s.que.rackRd.toNat + k) % 256)) 0
  s.setQue { s.que with rackWritten := s.que.rackWritten &&& ~~~ (BitVec.ofNat 256 gone), rackRd := s.que.rackRd + BitVec.ofNat 8 n }

/-- A source's offer has been taken; a slot's RDIDX, or a rack ring's, passes its entries (R60, R434). -/
def State.takeOffer (s : State) (k : Nat) (l : Launch) : State :=
  if k < 64 then
    let x := s.slot k
    let rd := x.rd + 1 + BitVec.ofNat 32 l.ext
    (s.setSlot k { x with offer := none, rd := rd }).setDesc x.qid.toNat 16 4 rd.toNat
  else if k = 64 then (s.setQue { s.que with rackOffer := none }).consumeRack l.entries
  else s.setQue { s.que with ethOffer := none, ethRing := s.que.ethRing.drop 1 }

/-- The source of an offer can give it up now: a slot's read index advances with it (R434). -/
def State.mayTakeOffer (s : State) (k : Nat) : Bool := decide (64 ≤ k) || s.mayAdvance (s.slot k).qid.toNat
/-- DISPATCH_TICK: every 100 ns one offered launch enters the dispatcher, and its semaphores are read (R71, R72); the tick waits where the
queue's read index cannot advance yet. DEDUCED (log entry 74). -/
def execDispatchTick (s : State) : Out :=
  match s.inp with
  | some .dispatchTick =>
    let s := { s with inp := none }
    if s.units < s.sch.lastTick + unitsPerUs / 10 then .next s else
    match s.nextSource with
    | none => .next (s.setSch { s.sch with lastTick := s.units })
    | some (k, l) =>
      if !s.mayTakeOffer k then .next s else
      let s := s.setSch { s.sch with lastTick := s.units }
      let s := s.takeOffer k l
      let lid := s.sch.nextLid
      let s := (s.setSch { s.sch with lastSource := k }).hold l false none
      .next (s.semPass lid)
  | _ => .next s

/-! ### Priority tokens (R73) -/

def State.launchTokens (s : State) (h : HeldLaunch) : Nat :=
  16 * h.launch.prio + min 15 ((s.units - h.placeable.getD s.units) / (1000 * unitsPerUs))
def Task.tokens (t : Task) : Nat := 16 * t.prio + if t.past then 0 else 15

/-! ### Sites (R75 to R77, R152, R227) -/

/-- A bed of the 16 x 16 grid by its package coordinates. -/
def bedAt (bx by_ : Nat) : Nat := bedOf (elemAt (8 * bx) (8 * by_))
/-- What a PATTERN asks of a bed (R76, R77). -/
def State.bedMeets (s : State) (pat bed : Nat) : Bool :=
  let port := fun (k : Nat) => !Tab.getD s.fab.portOut (bed * 2 + k) false
  (!bit pat 0 || port 0 && port 1) && (!bit pat 1 || Tab.getD s.mem.bankMap bed 0 == 0 && !s.mem.bedOut bed)
    && (!bit pat 2 || (Tab.getD s.fab.spares bed (0, 0)).1 == 0)
/-- Context `c` of a bed is free for a launch: owned by none, in no element out of service, reserved for no other (R77, R85, R227). -/
def State.bedFree (s : State) (lid bx by_ c : Nat) : Bool :=
  ((bedElems (bedAt bx by_)).all fun e => (s.ctx e c).owner.isNone && !(Tab.getD s.fab.errs e .new).out)
    && s.sch.reserved.all fun r => r.lid == lid || !r.ctxs.contains c || (s.held? r.lid).isNone
        || !(decide (r.ox ≤ bx) && decide (bx < r.ox + r.wb) && decide (r.oy ≤ by_) && decide (by_ < r.oy + r.hb))
/-- The beds of a plane's rectangle at an origin. -/
def Plane.bedsAt (p : Plane) (ox oy : Nat) : List (Nat × Nat) := (List.range (p.wb * p.hb)).map fun i => (ox + i % p.wb, oy + i / p.wb)
/-- Context `c` is free over the rectangle. -/
def State.ctxFree (s : State) (lid : Nat) (p : Plane) (ox oy c : Nat) : Bool := (p.bedsAt ox oy).all fun b => s.bedFree lid b.1 b.2 c
/-- The rectangle lies in the grid, its beds have what the pattern asks, and every bank has room for the role areas of `ps`. -/
def State.siteOk (s : State) (p : Plane) (ps : List Plane) (ox oy : Nat) : Bool :=
  decide (ox + p.wb ≤ 16) && decide (oy + p.hb ≤ 16) && (!p.fixed || ox == p.ox && oy == p.oy)
    && ((p.bedsAt ox oy).zipIdx.all fun (b, i) => s.bedMeets (p.pattern i) (bedAt b.1 b.2))
    && (List.range (p.w * p.h)).all fun i =>
      s.roomFor (elemAt (8 * ox + i % p.w) (8 * oy + i / p.w)) ((ps.map fun q => q.role i).sum) none
/-- Quarter edges that a rectangle crosses. -/
def Plane.crossings (p : Plane) (ox oy : Nat) : Nat := b2n (decide (ox < 8 ∧ 8 < ox + p.wb)) + b2n (decide (oy < 8 ∧ 8 < oy + p.hb))

/-- The origin and contexts for planes `ps` in the rectangle of `p`: fewest quarter edges crossed, then lowest context, then lowest
origin Y, then X (R77). A restored task needs a context for each of its planes. -/
def State.findSite (s : State) (lid : Nat) (p : Plane) (ps : List Plane) : Option (Nat × Nat × List Nat) :=
  if s.recordsFree < p.nthrMax then none else
  ((List.range 3).flatMap fun k => (List.range 4).flatMap fun c => (List.range 256).map fun i => (k, c, i % 16, i / 16)).findSome?
    fun (k, c, ox, oy) =>
      if p.crossings ox oy ≠ k || !s.siteOk p ps ox oy then none else
      let cs := (List.range 4).filter fun d => s.ctxFree lid p ox oy d
      if cs.head? = some c ∧ ps.length ≤ cs.length then some (ox, oy, cs.take ps.length)
      else if ps.length = 1 ∧ cs.contains c then some (ox, oy, [c])
      else none

/-- The plane whose rectangle a held launch needs, and the planes that drop. -/
def State.planesFor (s : State) (h : HeldLaunch) : Option (Plane × List Plane) :=
  (s.plane? h.launch.plane).bind fun p =>
    match h.image with
    | none => some (p, [p])
    | some img =>
      let ps := img.task.planes.filterMap fun r => s.plane? r.plane
      if ps.length = img.task.planes.length then some (p, ps) else none
/-- Where a held launch fits. -/
def State.siteFor (s : State) (h : HeldLaunch) : Option (Nat × Nat × List Nat) :=
  (s.planesFor h).bind fun x => s.findSite h.lid x.1 x.2

/-! ### Placement (R79) -/

/-- The carry slots of thread `i` of a launch: the KIND 1 entries of the argument map, then c63 (R79, R257). -/
def firstCarry (p : Plane) (l : Launch) (i : Nat) : Tab W64 :=
  let c := (List.range (p.secCnt 1)).foldl (fun c k =>
    let x := p.argMap k
    if amCarry x then Tab.put 0 c (amSlot x) (BitVec.ofNat 64 (l.arg (amArg x))) else c) []
  Tab.put 0 c 63 (BitVec.ofNat 64 i)

/-- Placement fails: nothing is placed (R434). -/
def State.placeFails (s : State) (h : HeldLaunch) (code : Nat) : State := s.failHeld h code

/-- The launch plane maps an argument word that the launch does not have (R58). -/
def Plane.argsBeyond (p : Plane) (argc : Nat) : Bool := (List.range (p.secCnt 1)).any fun k => decide (argc ≤ amArg (p.argMap k))

/-- A fresh launch is placed at an origin in a context (R79). -/
def State.placeFresh (s : State) (h : HeldLaunch) (p : Plane) (ox oy c : Nat) : State :=
  let l := h.launch
  if p.nblk ≤ l.entry then ((s.noPlane l.plane (elemAt (8 * ox) (8 * oy)) l.entry).removePlane l.plane).placeFails h 2
  else if !hdrTask (p.blockRec l.entry) then s.placeFails h 2
  else if p.argsBeyond l.argc then s.placeFails h 4
  else
    let tid := s.tsk.nextTid
    let recs := s.takeRecords p.nthrMax
    let t : Task :=
      { asid := l.asid, prio := l.prio, ox := ox, oy := oy, wb := p.wb, hb := p.hb, launchPlane := l.plane, planes := [], logs := [],
        launch := l, reserve := recs.drop l.nthr, estUs := BitVec.ofNat 32 l.est, estAt := s.units, estWas := BitVec.ofNat 32 l.est,
        estWasAt := s.units, estCyc := s.cycles, placedAt := s.units,
        quantumAt := s.units, past := false, phase := .running, groups := [], handler := 0, deleg := 0, waitTmo := 0, xcErr := 0,
        collTmo := 0x0000271000000064, useClock := 0 }
    match ((s.setTask tid t).setTsk { (s.setTask tid t).tsk with nextTid := tid + 1 }).dropPlane tid t p l.plane c none none with
    | (some _, s) => ((s.setTsk { s.tsk with tasks := Tab.erase s.tsk.tasks tid }).removePlane l.plane).placeFails h 2
    | (none, s) =>
      let s := (recs.take l.nthr).zipIdx.foldl (fun (s : State) (n, i) =>
        s.setThread n (newThread tid l.plane l.entry (firstCarry p l i))) s
      let s := (s.unhold h.lid).updTask tid fun t => t.branched c
      s.report l evPlaced 0 (some t.region)

/-- The first plane that a held launch needs and that is not installed, with the block it asks for. -/
def State.planeGone (s : State) (h : HeldLaunch) : Nat × Nat :=
  let ps := ((h.image.map fun i => i.task.planes).getD []).map (·.plane)
  if (s.plane? h.launch.plane).isNone then (h.launch.plane, if h.image.isSome then 0 else h.launch.entry)
  else ((ps.find? fun n => (s.plane? n).isNone).getD h.launch.plane, 0)
/-- A held launch is placed, resumed, or fails (R79, R90); none where no site is free or its frames do not fit. One whose plane is not
installed, or fails arming at a re-drop, is an arming failure of that plane, at no region yet in the first case (R254, R259, R260). DEDUCED (log entry 61). -/
def State.place (s : State) (h : HeldLaunch) : Option State :=
  match s.planesFor h with
  | none =>
    let (num, block) := s.planeGone h
    some (((s.noPlane num 0 block).removePlane num).placeFails h 2)
  | some (p, ps) =>
    match s.findSite h.lid p ps with
    | none => none
    | some (ox, oy, cs) =>
      match h.image with
      | none => some (s.placeFresh h p ox oy (cs.headD 0))
      | some img =>
        (s.restore img ox oy (img.task.planes.zip cs)).map fun r =>
          match r with
          | .ok s => s.unhold h.lid
          | .bad num f => ((s.setErr f.err).removePlane num).placeFails h 2
/-- A launch that would fail waits while memory keeps its completion from being written (R161, R163). DEDUCED (log entry 61). -/
def State.tryPlace (s : State) (h : HeldLaunch) : Option State :=
  (s.place h).map fun t => if decide (t.tsk.tasks.length ≤ s.tsk.tasks.length) && !s.launchReady h.launch then s else t

/-! ### The end of a task (R91, R325) -/

/-- The task's last thread has exited and its stream writes, copies, rounds and committed writes are done (R59, R187, R325).
DEDUCED (log entry 47). -/
def State.retires (s : State) (tid : Nat) : Bool :=
  (s.threadsOf tid).isEmpty && !(s.eng.bindings.any fun b => b.tid == tid && b.write) && !(s.eng.copies.any fun c => c.tid == tid)
    && !s.inRound tid && !(s.mem.acc.any fun x => x.write && x.todo != 0 && s.issOf tid x.iss)
    && !(s.mem.rowCmds.any fun c => s.issOf tid c.iss)
    && !(s.fab.held.any fun h => s.issOf tid h.iss && (acctClass ((h.instr.node?.map (·.1)).getD 0) (Instr.record h.instr)).isSome)

/-- TASK_RETIRE: a task retires (R325), or one that has ended has performed what it committed. DEDUCED (log entries 47, 97). -/
def execTaskRetire (s : State) : Out :=
  match s.inp with
  | some (.taskRetire tid) =>
    let s := { s with inp := none }
    match s.task? tid with
    | none => .next s
    | some t =>
      match t.phase with
      | .halting v event => if s.owesWrites tid t then .next s else .next (s.finishTask tid t v event)
      | _ => if s.retires tid then .next (s.endTask tid complOk evRetired) else .next s
  | _ => .next s

/-! ### Pre-emption (R84, R85, R145) -/

inductive Action where
  | drain | kill | checkpoint
  deriving DecidableEq, Repr

/-- A bed of the task is in factorising mode (R145). -/
def State.factoring (s : State) (tid : Nat) (t : Task) : Bool :=
  t.beds.any fun (x, y) =>
    let b := Tab.getD s.eng.beds (bedAt x y) .reset
    b.active && s.owns tid (elemAt (8 * x) (8 * y)) b.ctx

/-- The first row of the table of R84 that applies; without row 1 when a drain is decided again. -/
def State.row (s : State) (t : Task) (prio : Nat) (drainToo : Bool) : Action :=
  let gap := prio - t.prio
  let hi := max 1 s.sch.gapHi.toNat
  let rem := (s.remDecided t).toNat
  if drainToo && decide (rem ≠ 0xFFFFFFFF) && decide (rem ≤ s.sch.drain.toNat) && decide (gap < hi) then .drain
  else if t.launch.restartable && decide (hi ≤ gap) then .kill
  else if t.launch.restartable && decide ((s.units - t.placedAt) ≤ s.sch.killRun.toNat * unitsPerUs) then .kill
  else .checkpoint

/-- DRAIN: the victim runs on and its region is reserved (R85); with no limit for a bed in factorising mode (R145).
DEDUCED (log entry 46). -/
def State.drainFor (s : State) (tid : Nat) (t : Task) (lid : Nat) (limit : Bool) : State :=
  let us := max (2 * (s.remDecided t).toNat) 100
  let s := s.setTask tid { t with phase := .draining (if limit then some (s.units + us * unitsPerUs) else none) lid }
  s.setSch { s.sch with
    drains := BitVec.ofNat 16 (satTo 16 (s.sch.drains.toNat + 1))
    reserved := s.sch.reserved ++ [{ lid := lid, tid := tid, ox := t.ox, oy := t.oy, wb := t.wb, hb := t.hb, ctxs := t.planes.map (·.ctx) }] }

/-- KILL by decision (R85). DEDUCED (log entry 46). -/
def State.killFor (s : State) (tid : Nat) : State :=
  (s.setSch { s.sch with kills := BitVec.ofNat 16 (satTo 16 (s.sch.kills.toNat + 1)) }).killTask tid

/-- What a decision does to a victim; a task that can retire retires instead (R84, R85, R91, R145). DEDUCED (log entry 46). -/
def State.preempt (s : State) (tid lid prio : Nat) (drainToo : Bool) : State :=
  match s.task? tid with
  | none => s
  | some t =>
    if s.retires tid then s.endTask tid complOk evRetired else
    match s.row t prio drainToo with
    | .drain => s.drainFor tid t lid true
    | .kill => s.killFor tid
    | .checkpoint =>
      if s.factoring tid t then (if t.launch.restartable then s.killFor tid else s.drainFor tid t lid false)
      else if s.sch.saveMib = 0 then s.ckFails tid
      else s.startCut tid

def isRunning (t : Task) : Bool :=
  match t.phase with
  | .running => true
  | _ => false

/-- The victims of a subject: running tasks of fewer tokens, fewest first, the latest placed first among equals, until the launch
would fit (R84). DEDUCED (log entry 46). -/
def State.addVictims (s : State) (h : HeldLaunch) : List Nat → List Nat → Option (List Nat)
  | vs, [] => if (s.siteFor h).isSome then some vs else none
  | vs, tid :: rest => if (s.siteFor h).isSome then some vs else State.addVictims (s.purge tid) h (vs ++ [tid]) rest
/-- DEDUCED (log entry 46). -/
def State.victims (s : State) (h : HeldLaunch) : List Nat :=
  let tok := s.launchTokens h
  let can := s.tsk.tasks.filter fun x => isRunning x.2 && decide (x.2.tokens < tok)
  let can := sortBy (fun (x y : Nat × Task) => decide (x.2.tokens < y.2.tokens) || x.2.tokens == y.2.tokens && decide (y.2.placedAt ≤ x.2.placedAt)) can
  let s := (s.tsk.tasks.filter fun x => isCutting x.2 || x.2.halting).foldl (fun (s : State) x => s.purge x.1) s
  (s.addVictims h [] (can.map (·.1))).getD []

/-- A DRAIN is in progress for a held launch (R74). DEDUCED (log entry 46). -/
def State.drainUnderWay (s : State) : Bool :=
  s.tsk.tasks.any fun x =>
    match x.2.phase with
    | .draining _ lid => (s.held? lid).isSome
    | _ => false

/-- Try the placeable launches in order; the first that could not be placed (R74). `block` are the tokens below which none is
placed any more. -/
def State.tryAll (s : State) (block : Nat) (first : Option HeldLaunch) : List (Nat × HeldLaunch) → Option HeldLaunch × State
  | [] => (first, s)
  | (tok, h) :: rest =>
    if tok < block then (first, s) else
    match s.tryPlace h with
    | some s => State.tryAll s block first rest
    | none => State.tryAll s (if 16 * h.launch.prio + 15 ≤ tok then tok else block) (if first.isSome then first else some h) rest

/-- At the end of a pass quanta renew, but for tasks that a decision names (R73). -/
def State.renew (s : State) : State :=
  s.setTsk { s.tsk with tasks := s.tsk.tasks.map fun (k, t) =>
    (k, if t.past && isRunning t then { t with past := false, quantumAt := s.units } else t) }

/-- One pass of the placer, by tokens, then by order of entry, in which the held launches stand (R74, R330); no plane is armed before the microcode image is checked (R48). -/
def State.placerPass (s : State) : State :=
  let s := s.setSch { s.sch with lastPass := s.units, passDue := false }
  if !s.sch.placeEn || !s.boot.microOk then s.renew else
  let hs := (s.sch.held.filter fun h => h.placeable.isSome).map fun h => (s.launchTokens h, h)
  let hs := sortBy (fun (x y : Nat × HeldLaunch) => decide (y.1 ≤ x.1)) hs
  let (first, s) := s.tryAll 0 none hs
  let s := match first with
    | none => s
    | some h =>
      if s.drainUnderWay || !(s.tsk.tasks.any fun x => decide (x.2.tokens < s.launchTokens h)) then s else
      (s.victims h).foldl (fun s tid => s.preempt tid h.lid h.launch.prio true) s
  s.renew

/-- PLACER_PASS: every 100 µs, and whenever a region has become free (R74). DEDUCED (log entry 46). -/
def execPlacerPass (s : State) : Out :=
  match s.inp with
  | some .placerPass =>
    let s := { s with inp := none }
    if s.sch.passDue || s.passed s.sch.lastPass 100 then .next s.placerPass else .next s
  | _ => .next s

/-- DRAIN_TIMEOUT: the victim has not retired in time, or its last bed has left factorising mode: the decision is taken again (R85,
R145). -/
def execDrainTimeout (s : State) : Out :=
  match s.inp with
  | some (.drainTimeout tid) =>
    let s := { s with inp := none }
    match s.task? tid with
    | none => .next s
    | some t =>
      match t.phase with
      | .draining d lid =>
        let due := match d with
          | some u => decide (u ≤ s.units)
          | none => !s.factoring tid t
        if !due then .next s else
        let s := (s.setTask tid { t with phase := .running }).setSch { s.sch with reserved := s.sch.reserved.filter fun r => r.tid != tid }
        match s.held? lid with
        | none => .next s
        | some h => .next (s.preempt tid lid h.launch.prio d.isNone)
      | _ => .next s
  | _ => .next s

/-- QUANTUM_EXPIRY (R73). -/
def execQuantumExpiry (s : State) : Out :=
  match s.inp with
  | some (.quantumExpiry tid) =>
    let s := { s with inp := none }
    match s.task? tid with
    | none => .next s
    | some t => if !t.past && s.passed t.quantumAt s.sch.quantum.toNat then .next (s.setTask tid { t with past := true }) else .next s
  | _ => .next s

end Sys2Proof.Machine
end

