-- ==== Sys2Proof/Machine/Boot.lean ====
section
/-! DEFINITION. Package reset, boot and identity (R48 to R50), SPDM (R51), and the host port (R44, R47, R187). -/
namespace Sys2Proof.Machine

/-! ### Reset -/

/-- PACKAGE_RESET: every state at its reset value and core 0 in ROM (R4, R48). Host memory, the outside's record of what the
package has sent, and the model's own agenda are not the package's. DESIGN CHOICE (log entries 3, 70). -/
def execPackageReset (s : State) : Out :=
  match s.inp with
  | some .packageReset =>
    let z := State.resetOf s.fuse
    .next { z with agenda := s.agenda, fresh := s.fresh, out := s.out, mem := { z.mem with host := s.mem.host, hostPois := s.mem.hostPois } }
  | _ => .next s

/-! ### The firmware image (R48, R49) -/

def imgLe (img : List Byte) (off n : Nat) : Nat := bytesAt img off n
def imgBytes (img : List Byte) (off n : Nat) : List Byte := (img.drop off).take n
def allZero (bs : List Byte) : Bool := bs.all fun b => b == 0
/-- Payload length of an image. -/
def imgPayload (img : List Byte) : Nat := imgLe img 8 4
/-- The format checks of R49. -/
def imgWellFormed (img : List Byte) : Bool :=
  let p := imgPayload img
  imgLe img 0 4 == 0x4E444657 && imgLe img 4 2 == 1 && imgLe img 6 1 < 4
    && p != 0 && p % 4096 == 0 && decide (p ≤ 64 * 2 ^ 20)
    && allZero (imgBytes img 0x14 12) && allZero (imgBytes img 0xB8 8) && allZero (imgBytes img 0x80C 2036)
    && decide (0x1000 + p ≤ img.length)
/-- The signed message of an image. -/
def imgMessage (img : List Byte) : List Byte := img.take 0xC0 ++ imgBytes img 0x1000 (imgPayload img)
/-- Both keys hash to the digests of the image's key slot, and the slot is not revoked. -/
def Fuses.keysOk (f : Fuses) (img : List Byte) : Bool :=
  let k := imgLe img 6 1
  match Tab.find f.slotDigests k with
  | some (d, e) =>
    !f.revoked.getLsbD k && Config.sha384 (imgBytes img 0x20 96) == d && Config.sha384 (imgBytes img 0x80 56) == e
  | none => false
/-- The first check of R48 that an image fails: 5 format, 1 ECDSA, 2 LMS, 3 key slot, 4 rollback.
DESIGN CHOICE (log entry 11); DEDUCED (log entry 71). -/
def Fuses.imageFails (f : Fuses) (img : List Byte) : Option Nat :=
  if !imgWellFormed img then some 5
  else if !Config.ecdsaVerifies (imgBytes img 0x20 96) (Config.sha384 (imgMessage img)) (imgBytes img 0xC0 96) then some 1
  else if !Config.lmsVerifies (imgBytes img 0x80 56) (imgMessage img) (imgBytes img 0x120 1772) then some 2
  else if !f.keysOk img then some 3
  else if imgLe img 7 1 < f.svn.toNat then some 4
  else none

/-- The source being tried has failed: the ROM tries the other once, and stays in FAILED when both have (R48, R49).
DEDUCED (log entry 71). -/
def State.bootFails (s : State) (code : Nat) : State :=
  let b := { s.boot with code := BitVec.ofNat 5 code }
  { s with boot :=
      if b.fellBack then { b with state := 3 }
      else { b with state := 1, fellBack := true, trying := !b.trying, since := s.units, dhcpV4 := false } }
/-- The ROM checks a loaded image and runs it (R48). The fabric microcode image that the firmware then loads is free, since no rule says
where it comes from; it is checked in the same way, and no plane is armed without it. DEDUCED (log entry 71). -/
def State.bootImage (s : State) (img : List Byte) : State :=
  match s.fuse.imageFails img with
  | some code => s.bootFails code
  | none =>
    let micro := Config.microcodeImage s.fresh
    { s with fresh := s.fresh + 1
             boot := { s.boot with state := 2, svn := BitVec.ofNat 8 (imgLe img 7 1),
                                   firmware := imgBytes img 0x1000 (imgPayload img), microcode := micro,
                                   microOk := (s.fuse.imageFails micro).isNone } }

/-- BOOT_PUSH_GO: the host writes LEN with GO = 1, and the ROM reads the image from BAR2 offset 0 (R49). -/
def execBootPushGo (s : State) : Out :=
  match s.inp with
  | some (.bootPushGo len) =>
    let s := { s with inp := none }
    let s := { s with boot := s.boot.enter }
    if s.boot.state = 3 then .next s else
    let s := { s with boot := { s.boot with pushLen := len } }
    if s.boot.state ≠ 1 ∨ s.boot.trying then .next s else
    let (bs, _, s) := s.readAt .global 0 (min len.toNat (0x1000 + 64 * 2 ^ 20))
    .next (s.bootImage bs)
  | _ => .next s

/-- BOOT_SOURCE_TIMEOUT: 60 s without GO, or 60 s after the management link came up, at `linkUp`, without a file (R49).
DEDUCED (log entry 71). -/
def execBootSourceTimeout (s : State) : Out :=
  match s.inp with
  | some (.bootSourceTimeout linkUp) =>
    let s := { s with inp := none }
    let s := { s with boot := s.boot.enter }
    let start := if s.boot.trying then max s.boot.since linkUp else s.boot.since
    if s.boot.state = 1 ∧ s.passed start 60000000 then .next (s.bootFails 6) else .next s
  | _ => .next s

/-- BOOT_NETWORK_FETCH_DONE: over E0, or E1 when E0 has no link, the management endpoint has obtained an address, of DHCPv6 or after the 5 s
of DHCPv4, and the fetched image is checked (R41, R48, R49). DEDUCED (log entry 71). -/
def execBootNetworkFetchDone (s : State) : Out :=
  match s.inp with
  | some (.bootNetworkFetchDone addr img) =>
    let s := { s with inp := none }
    let s := { s with boot := s.boot.enter }
    match s.lnk.ethFor 0 with
    | none => .next s
    | some p =>
      if s.boot.state = 1 ∧ s.boot.trying ∧ addr.length = (if s.boot.dhcpV4 then 4 else 16) then
        let mac := (Tab.getD s.lnk.ethAddr (2 * p) (0, [])).1
        .next ((s.setLnk { s.lnk with ethAddr := Tab.set s.lnk.ethAddr (2 * p) (mac, addr) }).bootImage img)
      else .next s
  | _ => .next s

/-- DHCPV6_TIMEOUT: after 5 s without a server the ROM uses DHCPv4 (R49). -/
def execDhcpv6Timeout (s : State) : Out :=
  match s.inp with
  | some .dhcpv6Timeout =>
    let s := { s with inp := none }
    let s := { s with boot := s.boot.enter }
    if s.boot.state = 1 ∧ s.boot.trying ∧ s.passed s.boot.since 5000000 then .next { s with boot := { s.boot with dhcpV4 := true } }
    else .next s
  | _ => .next s

/-! ### SPDM (R50, R51) -/

/-- How far a transport's connection has come: 1 version, 2 capabilities, 3 algorithms. PRESUMED (log entry 27). -/
def Boot.phase (b : Boot) (t : Transport) : Nat := ((b.spdm.find? fun x => x.1 == t).map (·.2)).getD 0
/-- PRESUMED (log entry 27). -/
def State.setPhase (s : State) (t : Transport) (n : Nat) : State :=
  { s with boot := { s.boot with spdm := (s.boot.spdm.filter fun x => x.1 != t) ++ [(t, n)] } }
/-- A transport that answers: in FAILED only DOE does (R48), and TCP needs an Ethernet port that is up (R41). PRESUMED (log entry 27); DEDUCED (log entry 72). -/
def State.spdmUp (s : State) (t : Transport) : Bool := t == .doe || s.boot.state != 3 && (s.lnk.ethFor 0).isSome
def State.say (s : State) (t : Transport) (msg : String) (bs : List Byte) : State := s.emitOut (.spdm t msg bs)
/-- Answer a request that needs the connection at phase `n`; an earlier one is answered with ERROR. PRESUMED (log entry 27). -/
def State.spdmAt (s : State) (t : Transport) (n : Nat) (f : State → State) : Out :=
  if !s.spdmUp t then .next s else if s.boot.phase t < n then .next (s.say t "ERROR" []) else .next (f s)

/-- The chain of R50: root, intermediate, device identity, alias. DESIGN CHOICE (log entry 11). -/
def State.certChain (s : State) : List Byte :=
  (List.range 4).flatMap fun k => Config.certificate k (if k = 3 then s.boot.firmware else [])
/-- The fuse map of measurement 4: revocations, repair map, debug-enable state. -/
def Fuses.bytes (f : Fuses) : List Byte :=
  bytesOf 1 f.revoked.toNat ++ (List.range 256).flatMap (fun k => bytesOf 8 (Tab.getD f.badBanks k 0).toNat) ++ bytesOf 1 (b2n f.debugEnable)
/-- The measurements of R51. DEDUCED (log entry 71). -/
def State.measurement (s : State) (k : Nat) : Option (List Byte) :=
  match k with
  | 1 => some Config.romDigest
  | 2 => some (Config.sha384 s.boot.firmware ++ bytesOf 1 s.boot.svn.toNat)
  | 3 => some (Config.sha384 s.boot.microcode)
  | 4 => some s.fuse.bytes
  | 5 => some (bytesOf 1 (b2n s.tap.en) ++ bytesOf 1 s.lnk.self.toNat)
  | _ => none

/-- GET_VERSION: the connection starts afresh; SPDM 1.3 (R51). PRESUMED (log entry 27). -/
def execGetVersion (s : State) : Out :=
  match s.inp with
  | some (.getVersion t) => ({ s with inp := none }).spdmAt t 0 fun s => (s.setPhase t 1).say t "VERSION" (bytesOf 1 0x13)
  | _ => .next s
/-- GET_CAPABILITIES (R51). -/
def execGetCapabilities (s : State) : Out :=
  match s.inp with
  | some (.getCapabilities t) => ({ s with inp := none }).spdmAt t 1 fun s => (s.setPhase t 2).say t "CAPABILITIES" []
  | _ => .next s
/-- NEGOTIATE_ALGORITHMS: ECDSA P-384 and SHA-384 only (R51). -/
def execNegotiateAlgorithms (s : State) : Out :=
  match s.inp with
  | some (.negotiateAlgorithms t p384 sha384) =>
    ({ s with inp := none }).spdmAt t 2 fun (s : State) =>
      (if p384 && sha384 then s.setPhase t 3 else s).say t "ALGORITHMS" (bytesOf 1 (b2n p384) ++ bytesOf 1 (b2n sha384))
  | _ => .next s
/-- GET_DIGESTS (R51). -/
def execGetDigests (s : State) : Out :=
  match s.inp with
  | some (.getDigests t) => ({ s with inp := none }).spdmAt t 3 fun (s : State) => s.say t "DIGESTS" (Config.sha384 s.certChain)
  | _ => .next s
/-- GET_CERTIFICATE: the chain of R50 (R51). -/
def execGetCertificate (s : State) : Out :=
  match s.inp with
  | some (.getCertificate t) => ({ s with inp := none }).spdmAt t 3 fun (s : State) => s.say t "CERTIFICATE" s.certChain
  | _ => .next s
/-- CHALLENGE: signed with the alias key (R50, R51). -/
def execChallenge (s : State) : Out :=
  match s.inp with
  | some (.challenge t nonce) =>
    ({ s with inp := none }).spdmAt t 3 fun (s : State) => s.say t "CHALLENGE_AUTH" (Config.aliasSign s.boot.firmware nonce)
  | _ => .next s
/-- What GET_MEASUREMENTS answers: index 0 gives their number, 0xFF all of them (R51). PRESUMED (log entry 27). -/
def State.measurements (s : State) (k : Nat) : Option (List Byte) :=
  if k = 0 then some (bytesOf 1 5)
  else if k = 0xFF then some ((List.range 5).flatMap fun j => (s.measurement (j + 1)).getD [])
  else s.measurement k
/-- GET_MEASUREMENTS: signed with the alias key (R50, R51). PRESUMED (log entry 27). -/
def execGetMeasurements (s : State) : Out :=
  match s.inp with
  | some (.getMeasurements t k) =>
    ({ s with inp := none }).spdmAt t 3 fun (s : State) =>
      match s.measurements k with
      | some bs => s.say t "MEASUREMENTS" (bs ++ Config.aliasSign s.boot.firmware bs)
      | none => s.say t "ERROR" []
  | _ => .next s
/-- KEY_EXCHANGE: up to four sessions, none with a pre-shared key; the answer is signed with the alias key (R50, R51). PRESUMED (log entry 27). -/
def execKeyExchange (s : State) : Out :=
  match s.inp with
  | some (.keyExchange t psk) =>
    ({ s with inp := none }).spdmAt t 3 fun (s : State) =>
      if psk || decide (4 ≤ s.boot.sessions.length) then s.say t "ERROR" []
      else
        let x : Session := { sid := s.fresh, t := t, finished := false }
        ({ s with fresh := s.fresh + 1, boot := { s.boot with sessions := s.boot.sessions ++ [x] } }).say t "KEY_EXCHANGE_RSP"
          (bytesOf 4 x.sid ++ Config.aliasSign s.boot.firmware (bytesOf 4 x.sid))
  | _ => .next s
/-- FINISH: the handshake of a session is complete (R51). PRESUMED (log entry 27). -/
def execFinish (s : State) : Out :=
  match s.inp with
  | some (.finish t sid) =>
    ({ s with inp := none }).spdmAt t 3 fun (s : State) =>
      if s.boot.sessions.any fun (x : Session) => x.sid == sid && x.t == t && !x.finished then
        ({ s with boot := { s.boot with sessions := s.boot.sessions.map fun (x : Session) =>
            if x.sid = sid then { x with finished := true } else x } }).say t "FINISH_RSP" []
      else s.say t "ERROR" []
  | _ => .next s
/-- END_SESSION (R51). PRESUMED (log entry 27). -/
def execEndSession (s : State) : Out :=
  match s.inp with
  | some (.endSession t sid) =>
    ({ s with inp := none }).spdmAt t 3 fun (s : State) =>
      if s.boot.sessions.any fun (x : Session) => x.sid == sid && x.t == t && x.finished then
        ({ s with boot := { s.boot with sessions := s.boot.sessions.filter fun (x : Session) => x.sid != sid } }).say t "END_SESSION_ACK" []
      else s.say t "ERROR" []
  | _ => .next s

/-! ### The host port (R44, R47, R187) -/

/-- Whether an access through BAR2 completes with Unsupported Request (R47). -/
def bar2Bad (a n : Nat) : Bool := decide (2 ^ 47 < a + n) || inHole a n
/-- Whether memory answers at a local physical address; the addresses past the live banks hold none (R148).
DEDUCED (log entry 73). -/
def State.backed (s : State) (a : Nat) : Bool := decide (outerBase ≤ a) || decide (a < s.mem.capacity)

/-- Write an access through BAR2 piece by piece. DEDUCED (log entry 73). -/
def State.bar2Put (s : State) (data : List Byte) (pois : Bool) : List (Nat × Nat) → Nat → State
  | [], _ => s
  | (a, n) :: rest, k =>
    State.bar2Put (if s.backed a then s.writeAt .global a ((data.drop k).take n) pois else s) data pois rest (k + n)
/-- Read an access through BAR2 piece by piece; where no memory answers the bytes are free. DEDUCED (log entry 73). -/
def State.bar2Get (s : State) : List (Nat × Nat) → List Byte × Bool × State
  | [] => ([], false, s)
  | (a, n) :: rest =>
    let (bs, p, s) :=
      if s.backed a then s.readAt .global a n
      else
        let (v, s) := s.free
        (bytesOf n v.toNat, false, s)
    let (r, q, s) := State.bar2Get s rest
    (bs ++ r, p || q, s)

/-- BAR2_WRITE: performed in arrival order, or Unsupported Request (R47, R187). A poisoned TLP is reported, and what it writes is marked, so
that nothing consumes it silently (R44). DEDUCED (log entries 72, 73). -/
def execBar2Write (s : State) : Out :=
  match s.inp with
  | some (.bar2Write off data pois) =>
    let s := { s with inp := none }
    let a := s.apBase.toNat * 2 ^ 30 + off
    let ps := cut16 a data.length (data.length / 16 + 2)
    if s.boot.state = 3 then .next s
    else if bar2Bad a data.length then .next (s.emitOut .unsupportedRequest)
    else if !ps.all (fun p => s.rowFree p.1) then .next s
    else .next ((if pois then s.emitOut .poisonedTlp else s).bar2Put data pois ps 0)
  | _ => .next s

/-- BAR2_READ: a plain load at PACKAGE scope, or Unsupported Request (R47, R187). DEDUCED (log entry 73). -/
def execBar2Read (s : State) : Out :=
  match s.inp with
  | some (.bar2Read off size) =>
    let s := { s with inp := none }
    let a := s.apBase.toNat * 2 ^ 30 + off
    let ps := cut16 a size (size / 16 + 2)
    if s.boot.state = 3 then .next s
    else if bar2Bad a size then .next (s.emitOut .unsupportedRequest)
    else if !ps.all (fun p => s.rowFree p.1) then .next s
    else
      let (bs, p, s) := s.bar2Get ps
      .next (s.emitOut (.bar2Data bs p))
  | _ => .next s

/-- A signed firmware command blows the revocation fuse of a key slot, which nothing unblows (R50). The firmware takes it once it runs.
DEDUCED (log entry 71). -/
def State.revoke (s : State) (k : Nat) (sig : List Byte) : State :=
  if s.boot.state = 2 ∧ k < 4 ∧ Config.revocationSigned k sig then
    { s with fuse := { s.fuse with revoked := s.fuse.revoked ||| BitVec.ofNat 4 (2 ^ k) } }
  else s

/-- PCIE_LINK_TRAINED: HP_STAT takes the negotiated rate and width, ×16 or ×8 (R44, R47). -/
def execPcieLinkTrained (s : State) : Out :=
  match s.inp with
  | some (.pcieLinkTrained rate width) =>
    let s := { s with inp := none }
    if 1 ≤ rate ∧ rate ≤ 6 ∧ (width = 16 ∨ width = 8) then
      .next { s with pcieRate := BitVec.ofNat 4 rate, pcieWidth := BitVec.ofNat 5 width }
    else .next s
  | _ => .next s

end Sys2Proof.Machine
end

