-- ==== Sys2Proof/Machine/Queue.lean ====
section
/-! DEFINITION. User queues and hardware slots (R52 to R57, R187) and the rack scheduler's rings (R60, R61). -/
namespace Sys2Proof.Machine

/-! ### Notify, map, unmap (R53, R54) -/

/-- The mark that a slot received a notify in this fabric cycle. -/
def busyNotify (k : Nat) : Nat := 2 ^ 18 + k

/-- A write by the host or the Lodge that waits for the queue table (R161, R163). -/
def State.later (s : State) (e : Event) : State := s.setQue { s.que with late := s.que.late ++ [e] }
/-- NOTIFY_WRITE (R53). DEDUCED (log entries 72, 74). -/
def execNotifyWrite (s : State) : Out :=
  match s.inp with
  | some (.notifyWrite q wr) =>
    let s := { s with inp := none }
    if 1024 ≤ q ∨ s.boot.state = 3 then .next s
    else if !s.descReady q then .next (s.later (.notifyWrite q wr))
    else
      let s := match s.queueSlot q with
        | some k => s.use (busyNotify k)
        | none => s
      .next (s.notify q wr.toNat)
  | _ => .next s

/-- QUEUE_MAP: into a free slot, a queue whose SLOT is 0xFF (R54). -/
def State.mapQueue (s : State) (q k : Nat) : State :=
  let (cur, s) := s.desc q 25 1
  if (s.slot k).valid || cur != 0xFF then s else
  let (w, s) := s.desc q 8 4
  let (rd, s) := s.desc q 16 4
  let (sh, s) := s.desc q 20 4
  let (err, s) := s.desc q 24 1
  let s := s.setDesc q 25 1 k
  let s := s.setQue { s.que with pend := s.que.pend &&& ~~~ (BitVec.ofNat 1024 (2 ^ q)) }
  s.setSlot k { qid := BitVec.ofNat 10 q, valid := true, prioMax := BitVec.ofNat 3 (qdPrio w), err := err != 0, code := BitVec.ofNat 8 err,
                notify := BitVec.ofNat 32 sh, rd := BitVec.ofNat 32 rd, offer := none }
/-- A slot becomes free: NOTIFY goes to SHADOW and the read position to RDIDX. A notify of this very cycle counts as later: it sets
PEND (R54). DEDUCED (log entry 74). -/
def State.freeSlot (s : State) (k : Nat) : State :=
  let x := s.slot k
  if !x.valid then s else
  let q := x.qid.toNat
  let s := ((s.setDesc q 20 4 x.notify.toNat).setDesc q 16 4 x.rd.toNat).setDesc q 25 1 0xFF
  let s := if s.isBusy (busyNotify k) then s.setQue { s.que with pend := s.que.pend ||| BitVec.ofNat 1024 (2 ^ q) } else s
  (s.dropFetches (.slot k)).setSlot k .reset
/-- A slot has asked a peer for a packet and has not had all of it. -/
def State.slotFetching (s : State) (k : Nat) : Bool := s.lnk.fetches.any fun f => f.reader == .slot k
/-- QUEUE_UNMAP: the slot finishes the packet it has begun to fetch, then becomes free (R54). DEDUCED (log entry 74). -/
def State.unmapSlot (s : State) (k : Nat) : State :=
  if (s.slot k).valid && s.slotFetching k then s.setSlot k { s.slot k with leaving := true } else s.freeSlot k

/-- QUEUE_MAP (R54). -/
def execQueueMap (s : State) : Out :=
  match s.inp with
  | some (.queueMap q k) =>
    let s := { s with inp := none }
    if 1024 ≤ q ∨ 64 ≤ k then .next s
    else if !s.descReady q then .next (s.later (.queueMap q k))
    else .next (s.mapQueue q k)
  | _ => .next s
/-- QUEUE_UNMAP (R54). -/
def execQueueUnmap (s : State) : Out :=
  match s.inp with
  | some (.queueUnmap k) =>
    let s := { s with inp := none }
    if (s.slot k).valid && !s.descReady (s.slot k).qid.toNat then .next (s.later (.queueUnmap k)) else .next (s.unmapSlot k)
  | _ => .next s

/-! ### Slots (R55 to R57) -/

/-- Entry `i` of a queue's ring, as slot `k` reads it (R53, R55); a poisoned TLP of the host's is reported (R44). -/
def State.ringEntry (s : State) (k w ring i : Nat) : Rd × State :=
  let a := ring + 128 * (i % 2 ^ qdLog w)
  if qdLoc w then s.readVa (.slot k) (qdAsid w) a 128
  else
    let (bs, p, s) := s.hostRead a 128
    (.ok bs (if p then some 4 else none), s)
/-- `n` entries from `i` on. -/
def State.ringEntries (s : State) (k w ring i : Nat) : Nat → Rd × State
  | 0 => (.ok [] none, s)
  | n + 1 =>
    match s.ringEntry k w ring i with
    | (.ok bs none, s) =>
      match State.ringEntries s k w ring ((i + 1) % 2 ^ 32) n with
      | (.ok r src, s) => (.ok (bs ++ r) src, s)
      | x => x
    | x => x

/-- A no-operation entry adds 1 at its COMPL (R56). DEDUCED (log entry 74). -/
def State.noop (s : State) (asid : Nat) (l : Launch) : State := if l.compl = 0 then s else s.addVa asid l.compl 1

/-- Whether a packet's EXT is what its ARGC requires (R57). -/
def Launch.extOk (l : Launch) : Bool := l.argc ≤ 64 && l.ext == extFor l.argc

/-- A slot reads and checks its head entry (R55 to R57), once memory and a peer that holds it answer. `bad` says that the ring read returned
an error; one that returns poison is judged the same (R44).
DEDUCED (log entry 74). -/
def State.fetchHead (s : State) (k : Nat) (bad : Bool) : State :=
  let x := s.slot k
  let q := x.qid.toNat
  let pending := (x.notify - x.rd).toNat
  let (w, s) := s.desc q 8 4
  if !x.valid || x.err || x.offer.isSome || !qdEn w || pending == 0 then s.dropFetches (.slot k) else
  let (ring, s) := s.desc q 0 8
  if bad then s.queueErr q 8 else
  match s.ringEntry k w ring x.rd.toNat with
  | (.waits, s) => s
  | (.ok bs none, s) =>
    let head : Launch := { bytes := bs, src := .slot k q, prio := 0 }
    if head.kind = 2 then
      if !s.mayAdvance q || head.compl != 0 && !s.mayWriteVa (qdAsid w) head.compl 8 then s else
      let rd := x.rd + 1
      (((s.dropFetches (.slot k)).setSlot k { s.slot k with rd := rd }).setDesc q 16 4 rd.toNat).noop (qdAsid w) head
    else if head.kind = 1 ∧ head.extOk ∧ pending < 1 + head.ext then s
    else
      match s.checkLaunch head (some (qdAsid w)) with
      | some code => (s.dropFetches (.slot k)).queueErr q code
      | none =>
        match s.ringEntries k w ring (x.rd + 1).toNat head.ext with
        | (.waits, s) => s
        | (.ok more none, s) =>
          let s := s.dropFetches (.slot k)
          s.setSlot k { s.slot k with offer := some { head with bytes := bs ++ more, prio := min head.prioField x.prioMax.toNat } }
        | (_, s) => (s.dropFetches (.slot k)).queueErr q 8
  | (_, s) => (s.dropFetches (.slot k)).queueErr q 8

/-- A slot fetches; one that has been unmapped is free once its packet has come (R54). DEDUCED (log entry 74). -/
def State.fetchSlot (s : State) (k : Nat) (bad : Bool) : State :=
  let x := s.slot k
  if x.valid && !s.descReady x.qid.toNat then s else
  let s := s.fetchHead k bad
  if (s.slot k).leaving && !s.slotFetching k then s.freeSlot k else s
/-- SLOT_FETCH (R55). -/
def execSlotFetch (s : State) : Out :=
  match s.inp with
  | some (.slotFetch k bad) => .next (({ s with inp := none }).fetchSlot k bad)
  | _ => .next s

/-! ### The UALink launch ring (R60) -/

/-- A written entry arrives for ring position `i`: dropped and reported when it is written already. -/
def State.rackEntry (s : State) (i : Nat) (bs : List Byte) : State :=
  if s.que.rackWritten.getLsbD i then
    let l : Launch := { bytes := bs, src := .ualink i, prio := min (bytesAt bs 2 1 % 8) s.que.rackPrioMax.toNat }
    (s.setQue { s.que with rackDrops := BitVec.ofNat 16 (satTo 16 (s.que.rackDrops.toNat + 1)) }).report l evDropped 0 none
  else
    s.setQue { s.que with rackWritten := s.que.rackWritten ||| BitVec.ofNat 256 (2 ^ i), rackRing := writeCells s.que.rackRing (128 * i) bs }
/-- A write to the launch window: one entry, or two of a 256-byte pair; any other is dropped and counted.
DESIGN CHOICE (log entry 75). -/
def State.rackWrite (s : State) (off : Nat) (data : List Byte) : State :=
  if off + data.length ≤ 0x8000 ∧ data.length = 128 ∧ off % 128 = 0 then s.rackEntry (off / 128) data
  else if off + data.length ≤ 0x8000 ∧ data.length = 256 ∧ off % 256 = 0 then
    (s.rackEntry (off / 128) (data.take 128)).rackEntry (off / 128 + 1) (data.drop 128)
  else s.badRing

/-- RACK_RING_WRITE (R60): a peer's write to the launch window. One that is turned away gets the error completion of R37, though R60 says that
a launch-window write is never answered with one: that sentence is about malformed launches. DEDUCED (log entry 80). -/
def execRackRingWrite (s : State) : Out :=
  match s.inp with
  | some (.rackRingWrite peer off data) =>
    let s := { s with inp := none }
    if s.boot.state = 3 then .next s
    else if s.lnk.turnsAway peer then .next (s.emitOut (.ualinkError peer))
    else .next ((s.rackWrite off data).emitOut (.ualinkReply peer [] []))
  | _ => .next s

/-! ### The Ethernet rack ring (R61) -/

/-- RACK_ETHERNET_LAUNCH: the message, which comes over either Ethernet port (R41), enters the ring, or is rejected for its length. No code of R55 names a wrong length: the
report's CODE is free. DESIGN CHOICE (log entry 75). -/
def execRackEthernetLaunch (s : State) : Out :=
  match s.inp with
  | some (.rackEthernetLaunch msg) =>
    let s := { s with inp := none }
    if s.boot.state = 3 ∨ s.lnk.ethFor 0 = none then .next s else
    let n := s.que.ethSeq
    let s := s.setQue { s.que with ethSeq := n + 1 }
    if msg.length = 128 * (1 + bytesAt msg 10 1) then .next (s.setQue { s.que with ethRing := s.que.ethRing ++ [(n, msg)] })
    else
      let (code, s) := s.choose 256
      let l : Launch := { bytes := msg, src := .ethernet n, prio := min (bytesAt msg 2 1 % 8) s.que.rackPrioMax.toNat }
      .next (s.report l evRejected code none)
  | _ => .next s

/-! ### Consuming rack launches (R61) -/

/-- The complete head launch of a rack ring. -/
def State.rackHead (s : State) (eth : Bool) : Option Launch :=
  if eth then
    match s.que.ethRing with
    | [] => none
    | (n, msg) :: _ => some { bytes := msg, src := .ethernet n, prio := min (bytesAt msg 2 1 % 8) s.que.rackPrioMax.toNat }
  else
    let i := s.que.rackRd.toNat
    let entry := fun k => readCells s.que.rackRing (128 * ((i + k) % 256)) 128
    let head : Launch := { bytes := entry 0, src := .ualink i, prio := min (bytesAt (entry 0) 2 1 % 8) s.que.rackPrioMax.toNat }
    if (List.range head.entries).all fun k => s.que.rackWritten.getLsbD ((i + k) % 256) then
      some { head with bytes := (List.range head.entries).flatMap entry }
    else none

/-- Take a head launch off its ring. -/
def State.rackDrop (s : State) (eth : Bool) (l : Launch) : State :=
  if eth then s.setQue { s.que with ethRing := s.que.ethRing.drop 1 } else s.consumeRack l.entries

/-- RACK_LAUNCH_CONSUME: the head is offered, or consumed with a REJECTED report (R61). DEDUCED (log entry 74). -/
def execRackLaunchConsume (s : State) : Out :=
  match s.inp with
  | some (.rackLaunchConsume eth) =>
    let s := { s with inp := none }
    if (if eth then s.que.ethOffer else s.que.rackOffer).isSome then .next s else
    match s.rackHead eth with
    | none => .next s
    | some l =>
      if l.kind = 2 then (if l.compl = 0 ∨ s.mayWriteVa l.asid l.compl 8 then .next ((s.rackDrop eth l).noop l.asid l) else .next s)
      else
        match s.checkLaunch l none with
        | some code => .next ((s.rackDrop eth l).report l evRejected code none)
        | none => .next (s.setQue (if eth then { s.que with ethOffer := some l } else { s.que with rackOffer := some l }))
  | _ => .next s

end Sys2Proof.Machine
end

