-- ==== Sys2Proof/Machine/Power.lean ====
section
/-! DEFINITION. The thermal sensors (R16 to R22) and power capping (R23 to R25). -/
namespace Sys2Proof.Machine

/-! ### Sensors (R16 to R19) -/

/-- Sensors of a quarter: seven layers of 64 beds. -/
def quarterSensors : Nat := 448
/-- The neighbours of a sensor within its quarter (R16). DEDUCED (log entry 76). -/
def sensorNeighbours (i : Nat) : List Nat :=
  let q := i / quarterSensors * quarterSensors
  let n := i % quarterSensors
  let x := n % 8
  let y := n % 64 / 8
  let l := n / 64
  ((if 0 < y then [n - 8] else []) ++ (if y < 7 then [n + 8] else []) ++ (if 0 < x then [n - 1] else [])
    ++ (if x < 7 then [n + 1] else []) ++ (if 0 < l then [n - 64] else []) ++ (if l < 6 then [n + 64] else [])).map fun k => q + k
/-- Twice the median of readings; with an even number it is the mean of the middle two (R17). -/
def median2 (xs : List Int) : Int :=
  let ys := sortBy (fun a b => decide (a ≤ b)) xs
  let n := ys.length
  if n % 2 = 1 then 2 * (ys[n / 2]?).getD 0 else (ys[n / 2 - 1]?).getD 0 + (ys[n / 2]?).getD 0
def maxInt (xs : List Int) : Option Int :=
  xs.foldl (fun m x =>
    match m with
    | none => some x
    | some y => some (if y < x then x else y)) none
/-- A sensor is a failure candidate: more than 6 °C from the median of its neighbours, which lie within 3 °C (R17).
DEDUCED (log entry 76). -/
def candidate (r : Int) (ns : List Int) : Bool :=
  let hi := (maxInt ns).getD 0
  let lo := -(maxInt (ns.map fun x => -x)).getD 0
  decide (3 ≤ ns.length) && decide (hi - lo ≤ 48) && (decide (192 < 2 * r - median2 ns) || decide (192 < median2 ns - 2 * r))

/-- The sensors after a sample's readings are taken and judged (R16, R17). `outOf` are the sensors whose converter reports out
of range; a sensor marked failed in this sample still counts as a neighbour in it. What CANDN reads after the fourth candidate
sample the spec does not say: the model writes 0, with CAND 1, a DESIGN CHOICE (log entry 76); else DEDUCED (log entry 76). -/
def Thermal.judge (t : Thermal) (readings : List (Nat × Int)) (outOf : List Nat) : Tab Sensor :=
  let get := fun i => Tab.getD t.sens i .reset
  let raw := fun i => ((readings.find? fun x => x.1 == i).map (·.2)).getD (get i).raw
  (List.range 1792).map fun i =>
    let x := get i
    let x := { x with raw := raw i }
    if i ∈ outOf then (i, { x with failed := true, cand := false, candN := 0 })
    else if x.failed then (i, { x with cand := false, candN := 0 })
    else
      let ns := (sensorNeighbours i).filter fun k => !(get k).failed
      if candidate x.raw (ns.map raw) then
        if x.candN = 3 then (i, { x with failed := true, cand := true, candN := 0 }) else (i, { x with cand := true, candN := x.candN + 1 })
      else (i, { x with cand := false, candN := 0 })
/-- What a sensor reports, in 1/16 °C (R18). -/
def reported (sens : Tab Sensor) (i : Nat) : Int :=
  let x := Tab.getD sens i .reset
  if !x.failed then x.raw
  else
    match maxInt (((sensorNeighbours i).filter fun k => !(Tab.getD sens k .reset).failed).map fun k => (Tab.getD sens k .reset).raw) with
    | some h => h + 80
    | none => 2000
/-- Every sensor's report follows the readings and the failed marks (R18). -/
def retemp (sens : Tab Sensor) : Tab Sensor :=
  sens.map fun (i, x) => (i, { x with temp := BitVec.ofInt 16 (reported sens i) })
/-- Reports, and the count of samples at or above RETIRE, follow the judgement (R18, R20). -/
def Thermal.reports (t : Thermal) (sens : Tab Sensor) : Tab Sensor :=
  (retemp sens).map fun (i, x) =>
    (i, { x with hot := if (t.retire.toNat : Int) * 16 ≤ x.temp.toInt then min 100 (x.hot + 1) else 0 })
/-- The fabric-layer sensors of the package (R21). -/
def fabricSensors : List Nat := (List.range 256).map fun k => k / 64 * quarterSensors + k % 64
/-- DEDUCED (log entry 76). -/
def Sensor.report (x : Sensor) : Int := x.temp.toInt
/-- A fabric sensor's report that reaches TRIP, by a sample, by a FAILED mark cleared or by a new TRIP, stands for the next period (R21). -/
def Thermal.latch (t : Thermal) : Thermal :=
  { t with tripped := t.tripped || fabricSensors.any fun i => decide ((t.trip.toNat : Int) * 16 ≤ (Tab.getD t.sens i .reset).report) }

/-- THERM_SAMPLE: every 100 µs (R16 to R18, R21). DEDUCED (log entry 76). -/
def execThermSample (s : State) : Out :=
  match s.inp with
  | some (.thermSample readings outOf outer) =>
    let s := { s with inp := none }
    let t := s.thm
    if !s.passed t.sampleAt 100 then .next s else
    let sens := t.reports (t.judge readings outOf)
    let out := outer.foldl (fun o (k, r) => if k < 8 then Tab.set o k (BitVec.ofInt 16 r) else o) t.outer
    .next { s with thm := ({ t with sens := sens, outer := out, sampleAt := s.units } : Thermal).latch }
  | _ => .next s

/-- BANK_THERMAL_RETIRE: the 16 banks of a bed and layer are retired for heat, and the Lodge is interrupted (R20, R22). -/
def execBankThermalRetire (s : State) : Out :=
  match s.inp with
  | some (.bankThermalRetire i) =>
    let s := { s with inp := none }
    let l := i % quarterSensors / 64
    let bed := i / quarterSensors * 64 + i % 64
    if 1792 ≤ i ∨ l < 3 ∨ (Tab.getD s.thm.sens i .reset).hot < 100 then .next s else
    let bits := BitVec.ofNat 64 (0xFFFF * 2 ^ (16 * (l - 3)))
    let m := s.mem
    if Tab.getD m.bankTherm bed 0 &&& bits = bits then .next s else
    let m := { m with bankMap := Tab.set m.bankMap bed (Tab.getD m.bankMap bed 0 ||| bits),
                      bankTherm := Tab.set m.bankTherm bed (Tab.getD m.bankTherm bed 0 ||| bits) }
    .next ({ s with thm := { s.thm with lodgeIrq := s.thm.lodgeIrq ++ [i] } }.setMem m)
  | _ => .next s

/-- Writing 1 to FAILED: the sensor is judged afresh from the next sample, and reports its own reading at once, as its failed
neighbours' reports do with it (R18, R19). CAND, which R19 defines of the latest sample, and CANDN are cleared with FAILED: what they
read until the next sample the spec does not say, and this is a DESIGN CHOICE (log entry 76). -/
def Thermal.clearFailed (t : Thermal) (i : Nat) : Thermal :=
  let x := Tab.getD t.sens i .reset
  if !x.failed then t else
  ({ t with sens := retemp (Tab.set t.sens i { x with failed := false, cand := false, candN := 0 }) } : Thermal).latch
/-- THERM_SENS_FAILED_CLEAR (R18). -/
def execThermSensFailedClear (s : State) : Out :=
  match s.inp with
  | some (.thermSensFailedClear i) =>
    let s := { s with inp := none }
    if i < 1792 ∧ s.boot.state ≠ 3 then .next { s with thm := s.thm.clearFailed i } else .next s
  | _ => .next s

/-- A write of THERM_LIM: RETIRE is at least RESUME + 5 (R22). Where RESUME + 5 does not fit the field (RESUME above 250) the
spec gives no value and RETIRE is 255: DESIGN CHOICE (log entry 76). -/
def State.setThermLim (s : State) (v : Nat) : State :=
  let resume := field v 15 8
  { s with thm := ({ s.thm with retire := BitVec.ofNat 8 (min 255 (max (field v 7 0) (resume + 5))), resume := BitVec.ofNat 8 resume,
                                trip := BitVec.ofNat 8 (field v 23 16) } : Thermal).latch }
/-- THERM_LIM_WRITE (R22). DEDUCED (log entry 76). -/
def execThermLimWrite (s : State) : Out :=
  match s.inp with
  | some (.thermLimWrite v) => .next (({ s with inp := none }).setThermLim v.toNat)
  | _ => .next s

/-! ### Power (R23 to R25) -/

/-- Samples that the window holds, one every 10 µs (R23). DEDUCED (log entry 77). -/
def Power.span (p : Power) : Nat := (p.win.toNat + 9) / 10
/-- A pending PWR_CAP write takes effect, clamped (R25). DEDUCED (log entry 77). -/
def Power.takeCap (p : Power) (w : BitVec 32) : Power :=
  let c := field w.toNat 15 0
  { p with cap := BitVec.ofNat 16 (min 4000 (max 1500 c)), clamp := p.clamp || decide (c < 1500) || decide (4000 < c) }
/-- A sample of the input power: pending caps take effect, PCIe first (R23, R25). `up` rounds a fractional mean up.
DEDUCED (log entry 77). -/
def Power.sample (p : Power) (watts now : Nat) (up : Bool) : Power :=
  let writes := p.capPcie ++ p.capEth
  let p := writes.foldl Power.takeCap p
  let w := min watts 65535
  let ss := (w :: p.samples).take p.span
  let n := ss.length
  let avg := if n = 0 then 0 else (ss.sum + (if up then n - 1 else 0)) / n
  { p with capPcie := [], capEth := [], samples := ss, inst := BitVec.ofNat 16 w, avg := BitVec.ofNat 16 avg, sampleAt := now,
           overSince := if w ≤ p.cap.toNat then none else if !writes.isEmpty then some now else some (p.overSince.getD now) }

/-- POWER_SAMPLE: every 10 µs (R23). The rounding of a mean that is no whole number is free. -/
def execPowerSample (s : State) : Out :=
  match s.inp with
  | some (.powerSample watts) =>
    let s := { s with inp := none }
    if !s.passed s.pow.sampleAt 10 then .next s else
    let (up, s) := s.choose 2
    .next { s with pow := s.pow.sample watts s.units (up == 1) }
  | _ => .next s

/-- THERM follows the fabric sensors: set with the lowest clock step, left when every one is 10 °C below TRIP (R21).
DEDUCED (log entry 77). -/
def State.thermStep (s : State) : State :=
  let cool := fabricSensors.all fun i => (Tab.getD s.thm.sens i .reset).report ≤ ((s.thm.trip.toNat : Int) - 10) * 16
  if s.thm.tripped then { s with pow := { s.pow with therm := true }, thm := { s.thm with tripped := false } }
  else if cool then { s with pow := { s.pow with therm := false } } else s
/-- One action of the capping table (R24). DEDUCED (log entry 77). -/
def Power.act (p : Power) : Power :=
  let ovf := decide (p.cap.toNat < p.inst.toNat)
  if p.therm then { p with step := 6 }
  else if ovf ∧ p.throttle.toNat < 7 then { p with throttle := p.throttle + 1 }
  else if ovf ∧ p.step.toNat < 6 then { p with step := p.step + 1, throttle := 4 }
  else if ovf then { p with floor := true }
  else if 100 * p.avg.toNat ≤ 95 * p.cap.toNat ∧ 0 < p.throttle.toNat then { p with throttle := p.throttle - 1 }
  else if 10 * p.avg.toNat ≤ 9 * p.cap.toNat ∧ p.throttle = 0 ∧ 0 < p.step.toNat then { p with step := p.step - 1 }
  else p

/-- POWER_PERIOD: every 100 µs (R21, R24). DEDUCED (log entry 77). -/
def execPowerPeriod (s : State) : Out :=
  match s.inp with
  | some .powerPeriod =>
    let s := { s with inp := none }
    if !s.passed s.pow.periodAt 100 then .next s else
    let s := s.thermStep
    .next { s with pow := { s.pow.act with periodAt := s.units } }
  | _ => .next s

/-- POWER_OVER_DEADLINE: over the cap for 1 ms (R24, R25). Once OVER is cleared by writing 1 while the same excess goes on, it is set
again at once: the spec does not say whether the 1 ms runs anew, and the model keeps the excess's start, a DESIGN CHOICE
(log entry 77). -/
def execPowerOverDeadline (s : State) : Out :=
  match s.inp with
  | some .powerOverDeadline =>
    let s := { s with inp := none }
    match s.pow.overSince with
    | some t => if s.passed t 1000 then .next { s with pow := { s.pow with ovf := true } } else .next s
    | none => .next s
  | _ => .next s

/-- PWR_CAP_WRITE: from the host over PCIe or the rack controller over Ethernet (R41), in force from the next sample (R25).
DESIGN CHOICE (log entry 64). -/
def execPwrCapWrite (s : State) : Out :=
  match s.inp with
  | some (.pwrCapWrite a v) =>
    let s := { s with inp := none }
    if s.boot.state = 3 then .next s else
    match a with
    | .host => .next { s with pow := { s.pow with capPcie := s.pow.capPcie ++ [v] } }
    | .rack => if (s.lnk.ethFor 0).isNone then .next s else .next { s with pow := { s.pow with capEth := s.pow.capEth ++ [v] } }
    | .lodge => .next s
  | _ => .next s

/-- PWR_WIN_WRITE: clamped; the mean restarts from the latest sample, which is then the mean (R23, R25). -/
def execPwrWinWrite (s : State) : Out :=
  match s.inp with
  | some (.pwrWinWrite v) =>
    let s := { s with inp := none }
    if s.boot.state = 3 then .next s else
    let w := field v.toNat 19 0
    .next { s with pow := { s.pow with win := BitVec.ofNat 20 (min 1000000 (max 100 w)), samples := s.pow.samples.take 1, avg := s.pow.inst,
                                       clamp := s.pow.clamp || decide (w < 100) || decide (1000000 < w) } }
  | _ => .next s

end Sys2Proof.Machine
end

