-- ==== Sys2Proof/Machine/Links.lean ====
section
/-! DEFINITION. Scale-up ports and lane sparing (R26 to R30), requests to peers (R33, R34), isolation (R35 to R38), the tray drain
(R39), the Ethernet ports (R41) and the link registers with behaviour of their own (R43). -/
namespace Sys2Proof.Machine

/-! ### Lanes (R28, R29) -/

def State.setPort (s : State) (p : Nat) (x : Port) : State := s.setLnk { s.lnk with ports := Tab.set s.lnk.ports p x }
/-- A port carries traffic. -/
def Port.up (x : Port) : Bool := !x.iso && (x.state == 2 || x.state == 3)
/-- The lane that L4 has replaced is powered down (R29). -/
def Port.laneOff (x : Port) (l : Nat) : Bool := x.spared && x.laneMap.toNat == l
/-- The active lane that the spare can take over: with a lasting fault, the earliest, then the lowest (R29, R30). -/
def Port.canSpare (x : Port) : Option Nat :=
  if x.spared || x.spareBad || !x.spareOk then none else
  ((List.range 4).filter fun l => x.lasting.getLsbD l).foldl (fun (b : Option Nat) l =>
    match b with
    | none => some l
    | some k => if Tab.getD x.lastingAt l 0 < Tab.getD x.lastingAt k 0 then some l else b) none

/-- LANE_SPARING: L4 carries the lane's share, and no request is lost (R29). -/
def execLaneSparing (s : State) : Out :=
  match s.inp with
  | some (.laneSparing p) =>
    let s := { s with inp := none }
    let x := s.lnk.port p
    match x.canSpare with
    | some l =>
      if p < 18 ∧ x.up then .next (s.setPort p { x with state := 2, spared := true, laneMap := BitVec.ofNat 3 l }) else .next s
    | none => .next s
  | _ => .next s

/-! ### Isolation (R35, R36, R38) -/

/-- Open an entry in the first free slot of the drop log, or count in DLLOST (R38). DEDUCED (log entry 78). -/
def Links.openDrop (l : Links) (port : Bool) (obj : Nat) : Links :=
  match (List.range 16).find? fun i => !(Tab.getD l.drop i .reset).valid with
  | some i =>
    { l with drop := Tab.set l.drop i { DropEntry.reset with valid := true, kind := if port then 1 else 0, opened := true, obj := BitVec.ofNat 8 obj } }
  | none => { l with dlLost := BitVec.ofNat 32 (satTo 32 (l.dlLost.toNat + 1)) }
/-- The entries of an object stop counting (R38). -/
def Links.closeDrop (l : Links) (port : Bool) (obj : Nat) : Links :=
  { l with drop := l.drop.map fun (i, d) =>
      (i, if d.valid && d.obj.toNat == obj && d.kind == (if port then 1 else 0) then { d with opened := false } else d) }

/-- The completion of one request by isolation (R36): a read or an atomic poisoned, a write's token poisoned, a copy by its
engine's own error path. A completion word that was on its way ends its copy. -/
def State.cutReq (s : State) (q : Req) : State :=
  match q.acc with
  | none => s.answerFetch q.id (List.replicate q.size 0) (some 2)
  | some id =>
    match s.copy? id with
    | some c =>
      if q.kind = .copyRead ∨ q.kind = .copyWrite then s.failCopy c trapPoison q.tag
      else if c.done ∧ s.copyOwes c = 0 then s.endCopy c else s
    | none =>
      match s.mem.acc.find? fun x => x.id == id with
      | some x => s.isolated x
      | none =>
        match s.mem.watches.find? fun w => w.id == id with
        | some w => ((s.dropWatch id).joinWork w.access true).reply w.iss w.node ((Pay.poisoned (.scalar 0) 2).readAt (memAddr w.node (valOf w.iss.f.a)))
        | none => s
/-- Complete the requests that `p` names, oldest first, and enter them in the object's drop-log entry (R36). A true completion
may still come for those that left (R37). DEDUCED (log entry 78). -/
def State.cutReqs (s : State) (port : Bool) (obj : Nat) (p : Req → Bool) : State :=
  let gone := s.lnk.reqs.filter p
  let l := gone.foldl (fun (l : Links) q => l.logDrop port obj q.asid q.pa q.kind) s.lnk
  let s := s.setLnk { l with reqs := l.reqs.filter fun q => !p q, synth := l.synth ++ (gone.filter fun q => !q.waits).map (·.id) }
  gone.foldl (fun s q => s.cutReq q) s

/-- The running rounds at DOMAIN scope that have a peer as a member can only fail (R36, R387). -/
def State.breakRounds (s : State) (n : Nat) : State :=
  s.setEng { s.eng with rounds := s.eng.rounds.map fun r =>
    if r.scope = 4 ∧ r.status.isNone ∧ (Tab.getD s.eng.collGrp r.g .reset).members.getLsbD n then { r with broken := true } else r }
/-- A peer is isolated (R35). DEDUCED (log entry 78). -/
def State.isolatePeer (s : State) (n : Nat) : State :=
  if s.lnk.peerIso.getLsbD n then s else
  let s := s.breakRounds n
  let l := s.lnk.openDrop false n
  (s.setLnk { l with peerIso := l.peerIso ||| BitVec.ofNat 192 (2 ^ n), noticed := l.noticed.filter fun k => k != n }).cutReqs false n
    fun q => q.peer == n
/-- After a drain notice the peer is isolated once its last request here has completed; that acknowledges it (R39).
DEDUCED (log entry 79). -/
def State.noticeDone (s : State) (n : Nat) : State :=
  if s.lnk.noticed.contains n && !(s.lnk.reqs.any fun q => q.peer == n) then (s.isolatePeer n).emitOut (.drainAck n) else s

/-- A port is isolated: what is outstanding on it is completed, what still waits for it leaves by another, and a peer
that announced a drain may have nothing left here (R35, R36, R39).
DEDUCED (log entry 78). -/
def State.isolatePort (s : State) (p : Nat) (state : BitVec 3) : State :=
  let x := s.lnk.port p
  if x.iso then s else
  let s := (s.setPort p { x with state := state, iso := true })
  let s := (s.setLnk (s.lnk.openDrop true p)).cutReqs true p fun q => q.port == p && !q.waits
  s.lnk.noticed.foldl State.noticeDone s

/-! ### The lanes' faults and the port (R26, R28, R30) -/

/-- The lane that contributed most symbol errors to an uncorrectable codeword, the lowest on a tie (R28). -/
def Codeword.worst (w : Codeword) : Nat :=
  ([1, 2, 3, 4] : List Nat).foldl (fun b l => if w.errors.getD b 0 < w.errors.getD l 0 then l else b) 0
/-- A codeword is an error event of a lane (R28). A lane counts once for a codeword, whatever it lost in it. DEDUCED (log entry 95). -/
def Codeword.counts (w : Codeword) (l : Nat) : Bool :=
  w.lost.contains l || decide (6 < w.corrected.getD l 0) || w.bad && w.worst == l
/-- Active lanes with a lasting fault. -/
def Port.faulty (x : Port) : List Nat :=
  (List.range 5).filter fun l => x.lasting.getLsbD l && (if x.spared then !x.laneOff l else l != 4)
/-- The port cannot stay UP: an active lane has a lasting fault that the spare does not take over (R30). -/
def Port.mustDown (x : Port) : Bool :=
  !x.faulty.isEmpty && (x.spared || x.spareBad || !x.spareOk || decide (2 ≤ x.faulty.length))
/-- A lane counts an error event; a lasting fault of L4 marks the spare unavailable (R28). -/
def State.countLane (s : State) (x : Port) (l : Nat) : Port :=
  let ts := s.window (Tab.getD x.laneErr l [])
  let x := { x with laneErr := Tab.set x.laneErr l ts }
  if s.lasting ts && !x.lasting.getLsbD l then
    { x with lasting := x.lasting ||| BitVec.ofNat 5 (2 ^ l), lastingAt := Tab.set x.lastingAt l s.cycles, spareBad := x.spareBad || l == 4 && !x.spared }
  else x
/-- A codeword's errors and retries are counted; then the spare is to take over a lane, or the port goes DOWN at once, of a pair of lanes
with the lower one on the spare (R26, R28, R30). DEDUCED (log entry 95). -/
def State.laneError (s : State) (p : Nat) (w : Codeword) : State :=
  let x := s.lnk.port p
  let x := { x with retry := BitVec.ofNat 16 (satTo 16 (x.retry.toNat + w.retries)) }
  let x := ((List.range 5).filter fun l => w.counts l && !x.laneOff l).foldl s.countLane x
  if x.mustDown then
    let x := match x.canSpare with
      | some l => { x with spared := true, laneMap := BitVec.ofNat 3 l }
      | none => x
    (s.setPort p x).isolatePort p 0
  else s.setPort p (if x.canSpare.isSome then { x with state := 3 } else x)
/-- LANE_ERROR_EVENT (R26, R28). -/
def execLaneErrorEvent (s : State) : Out :=
  match s.inp with
  | some (.laneErrorEvent p w) =>
    let s := { s with inp := none }
    if p < 18 ∧ (s.lnk.port p).up then .next (s.laneError p w) else .next s
  | _ => .next s

/-- PORT_DOWN: link-level retry has exhausted its limit, or a fault that the spare does not take over is there: the port goes DOWN and is
isolated (R30). -/
def execPortDown (s : State) : Out :=
  match s.inp with
  | some (.portDown p exhausted) =>
    let s := { s with inp := none }
    let x := s.lnk.port p
    if p < 18 ∧ x.up ∧ (exhausted ∨ x.mustDown) then .next (s.isolatePort p 0) else .next s
  | _ => .next s

/-- A retrained port starts afresh (R30). -/
def Port.fresh (x : Port) : Port := { Port.reset with state := x.state, retry := x.retry }
/-- PORT_LINK_UP: `lanes` active lanes trained, and with fewer than four the port does not come up; the spare is trained with them
(R26, R29). Whether a port comes up whose spare lane did not train the spec does not say: it comes up with SPAREBAD = 1, a DESIGN CHOICE
(log entry 95). -/
def execPortLinkUp (s : State) : Out :=
  match s.inp with
  | some (.portLinkUp p lanes spareOk spareTrained) =>
    let s := { s with inp := none }
    let x := s.lnk.port p
    if p < 18 ∧ 4 ≤ lanes ∧ !x.iso ∧ (x.state = 0 ∨ x.state = 1) ∧ s.lnk.drain.toNat < 3 then
      .next (s.setPort p { x.fresh with state := 2, spareOk := spareOk, spareBad := !spareTrained })
    else .next s
  | _ => .next s

/-! ### Requests (R27, R34, R35, R37) -/

/-- A completion of an access to a peer: it binds a read's bytes or an atomic's old value (R27); `pois` tells poison that the peer returned
(R228). -/
def State.accessDone (s : State) (x : Access) (q : Req) (data : List Byte) (pois : Bool) : State :=
  let k := if x.attr = 0 then 0 else (x.parts.findIdx? fun y => y.1 == q.pa).getD 0
  let mask := if x.attr = 0 then x.todo else 2 ^ k
  let x := { x with todo := x.todo - mask }
  let x : Access := match q.kind with
    | .read =>
      let (bs, p) := patchSnap x.snap .domain q.pa (data.take q.size) pois
      { x with got := x.got ++ [(k, bs, p)] }
    | .atomic _ =>
      let p := Pay.ofBytes x.node.v (data.take q.size)
      { x with result := if pois then p.poisoned 4 else p }
    | _ => x
  let s := match q.kind with
    | .read => s.snapEarlier x .domain q.pa (data.take q.size) pois
    | _ => s
  let s := ((s.setDone x).freeLatch x.iss).freeWaiter (s.memPort x.iss.elem)
  if x.todo = 0 && x.write then
    let s := s.notePerformed x x.result
    if x.opc = 0xAB then s.wake x (Sys2Proof.ofBytes x.data) else s
  else s
/-- A completion of a watched word's read (R344). -/
def State.watchDone (s : State) (w : Watch) (data : List Byte) (pois : Bool) : State :=
  s.sawWord w (Sys2Proof.ofBytes (data.take w.size)) pois
/-- A completion of a copy's request (R183, R190): a granule with its marks, a write, or the completion word. -/
def State.copyDone (s : State) (c : Copy) (q : Req) (data : List Byte) (marks : List Bool) : State :=
  if q.kind = .copyRead then
    s.setCopy { c with fetched := c.fetched.map fun g => if g.1 = q.tag ∧ g.2.isNone then (g.1, some (data.take 64, marks)) else g }
  else if c.done ∧ s.copyOwes c = 0 then s.endCopy c
  else s
/-- The completion of a request to a peer arrives (R27). -/
def State.remoteDone (s : State) (id : Nat) (data : List Byte) (marks : List Bool) : State :=
  match s.lnk.reqs.find? fun q => q.id == id && !q.waits with
  | none => s
  | some q =>
    let s := s.setLnk { s.lnk with reqs := s.lnk.reqs.filter fun y => y.id != id }
    let pois := marks.any fun m => m
    match q.acc with
    | none => (s.answerFetch id (data.take q.size) (if pois then some 4 else none)).sendIrq q.irq
    | some aid =>
      match s.copy? aid with
      | some c => s.copyDone c q data marks
      | none =>
        match s.mem.acc.find? fun y => y.id == aid with
        | some x => s.accessDone x q data pois
        | none =>
          match s.mem.watches.find? fun w => w.id == aid with
          | some w => s.watchDone w data pois
          | none => s
/-- REMOTE_COMPLETION_RECEIVED (R27). -/
def execRemoteCompletionReceived (s : State) : Out :=
  match s.inp with
  | some (.remoteCompletionReceived id data marks) =>
    let s := { s with inp := none }
    match s.lnk.reqs.find? fun q => q.id == id with
    | some q => .next ((s.remoteDone id data marks).noticeDone q.peer)
    | none => .next s
  | _ => .next s

/-- Send a request that waited, once no earlier one to its granule waits or is outstanding on another port (R34).
DEDUCED (log entry 78). -/
def State.sendWaiting (s : State) (q : Req) : State :=
  let before := s.lnk.reqs.takeWhile fun x => x.id != q.id
  let same := before.filter fun x => x.pa / 256 == q.pa / 256
  if s.lnk.cutOff q.pa then (s.cutReqs false q.peer fun x => x.id == q.id).noticeDone q.peer
  else
    let port := (s.lnk.portFor q.pa).getD 0
    if same.any fun x => x.waits || x.port != port then s
    else
      let l := { s.lnk with reqs := s.lnk.reqs.map fun x => if x.id = q.id then { x with waits := false, port := port, sentAt := s.units } else x }
      (s.setLnk l).emitOut (.ualinkRequest q.id q.peer port q.pa q.size q.kind q.data q.marks)
/-- REMOTE_REQUEST_WAIT_END (R34). -/
def execRemoteRequestWaitEnd (s : State) : Out :=
  match s.inp with
  | some (.remoteRequestWaitEnd id) =>
    let s := { s with inp := none }
    match s.lnk.reqs.find? fun q => q.id == id && q.waits with
    | some q => .next (s.sendWaiting q)
    | none => .next s
  | _ => .next s

/-- REQUEST_TIMEOUT: no completion within LK_TMO (R35). -/
def execRequestTimeout (s : State) : Out :=
  match s.inp with
  | some (.requestTimeout id) =>
    let s := { s with inp := none }
    match s.lnk.reqs.find? fun q => q.id == id && !q.waits with
    | some q => if s.passed q.sentAt s.lnk.tmo.toNat then .next (s.isolatePeer q.peer) else .next s
    | none => .next s
  | _ => .next s

/-- ERROR_COMPLETION_RECEIVED (R35). -/
def execErrorCompletionReceived (s : State) : Out :=
  match s.inp with
  | some (.errorCompletionReceived id) =>
    let s := { s with inp := none }
    match s.lnk.reqs.find? fun q => q.id == id && !q.waits with
    | some q => .next (s.isolatePeer q.peer)
    | none => .next s
  | _ => .next s

/-- DRAIN_NOTICE_RECEIVED: nothing more is sent to the peer, which is isolated once what is outstanding there completes (R39).
DEDUCED (log entry 79). -/
def execDrainNoticeReceived (s : State) : Out :=
  match s.inp with
  | some (.drainNoticeReceived n) =>
    let s := { s with inp := none }
    if 144 ≤ n ∨ s.lnk.peerIso.getLsbD n then .next s
    else .next ((s.setLnk { s.lnk with noticed := s.lnk.noticed.filter (fun k => k != n) ++ [n] }).noticeDone n)
  | _ => .next s

/-- LATE_COMPLETION: discarded and counted (R37). -/
def execLateCompletion (s : State) : Out :=
  match s.inp with
  | some (.lateCompletion id) =>
    let s := { s with inp := none }
    if s.lnk.synth.contains id then
      .next (s.setLnk { s.lnk with synth := s.lnk.synth.filter fun k => k != id, late := BitVec.ofNat 32 (satTo 32 (s.lnk.late.toNat + 1)) })
    else .next s
  | _ => .next s

/-- INBOUND_FROM_ISOLATED_PEER: an error completion, and nothing is performed (R37); in state FAILED the package answers none (R48). -/
def execInboundFromIsolatedPeer (s : State) : Out :=
  match s.inp with
  | some (.inboundFromIsolatedPeer n) =>
    let s := { s with inp := none }
    if s.boot.state ≠ 3 ∧ s.lnk.turnsAway n then .next (s.emitOut (.ualinkError n)) else .next s
  | _ => .next s

/-- The bytes that an inbound request names. DEDUCED (log entry 80). -/
def InRequest.range : InRequest → Nat × Nat
  | .read a n => (a, n)
  | .write a d _ => (a, d.length)
  | .atomic _ a d _ => (a, d.length)
/-- Poison marks of the 16-byte parts of a range, which travel with its bytes (R228). -/
def State.marksAt (s : State) (a len : Nat) : List Bool :=
  (List.range ((len + 15) / 16)).map fun k => (s.readAt .global (a + 16 * k) (min 16 (len - 16 * k))).2.1
/-- Write bytes with the marks of their 16-byte parts (R228). -/
def State.writeMarked (s : State) (a : Nat) (bs : List Byte) (marks : List Bool) : State :=
  (List.range ((bs.length + 15) / 16)).foldl (fun s k => s.writeAt .global (a + 16 * k) ((bs.drop (16 * k)).take 16) (marks.getD k false)) s
/-- Perform an inbound request at the local memory system (R27). Where no bank is live, what is read is free.
DEDUCED (log entry 80). -/
def State.inbound (s : State) (n : Nat) (r : InRequest) : State :=
  let (a, len) := r.range
  if !s.backed a then
    match r with
    | .write _ _ _ => s.emitOut (.ualinkReply n [] [])
    | _ =>
      let (v, s) := s.free
      s.emitOut (.ualinkReply n (bytesOf len v.toNat) (List.replicate ((len + 15) / 16) false))
  else
    match r with
    | .read _ _ =>
      let ms := s.marksAt a len
      let (bs, _, s) := s.readAt .global a len
      s.emitOut (.ualinkReply n bs ms)
    | .write _ d ms => (s.writeMarked a d ms).emitOut (.ualinkReply n [] [])
    | .atomic op _ d d2 =>
      let ms := s.marksAt a len
      let (bs, p, s) := s.readAt .global a len
      let s := match amoValue op len (Sys2Proof.ofBytes bs) (Sys2Proof.ofBytes d) (Sys2Proof.ofBytes d2) with
        | some v => s.writeAt .global a (bytesOf len v) p
        | none => s
      s.emitOut (.ualinkReply n bs ms)
/-- INBOUND_REQUEST: at most 256 bytes, aligned to its own size (R27); in state FAILED the package serves none (R48).
DEDUCED (log entry 80). -/
def execInboundRequest (s : State) : Out :=
  match s.inp with
  | some (.inboundRequest n r) =>
    let s := { s with inp := none }
    let (a, len) := r.range
    if s.boot.state == 3 || s.lnk.turnsAway n || len == 0 || decide (256 < len) || a % len != 0 || decide (holeBase < a + len) || !s.rowFree a then
      .next s
    else .next (s.inbound n r)
  | _ => .next s

/-! ### LK_ISOLATE (R35, R38): in FAILED the register does not answer (R48) -/

/-- ISOLATE_PEER. LK_ISOLATE with a peer id above 143 does nothing, on which R42 is silent: a DESIGN CHOICE (log entry 78). -/
def execIsolatePeer (s : State) : Out :=
  match s.inp with
  | some (.isolatePeer n) =>
    let s := { s with inp := none }
    if n < 144 ∧ s.boot.state ≠ 3 then .next (s.isolatePeer n) else .next s
  | _ => .next s
/-- ISOLATE_PORT. LK_ISOLATE with a port number above 17 does nothing, on which R42 is silent: a DESIGN CHOICE (log entry 78). -/
def execIsolatePort (s : State) : Out :=
  match s.inp with
  | some (.isolatePort p) =>
    let s := { s with inp := none }
    if p < 18 ∧ s.boot.state ≠ 3 then .next (s.isolatePort p 4) else .next s
  | _ => .next s
/-- RETURN_PEER (R38, R48). -/
def execReturnPeer (s : State) : Out :=
  match s.inp with
  | some (.returnPeer n) =>
    let s := { s with inp := none }
    if s.lnk.peerIso.getLsbD n ∧ s.boot.state ≠ 3 then
      let l := s.lnk.closeDrop false n
      .next (s.setLnk { l with peerIso := l.peerIso &&& ~~~ (BitVec.ofNat 192 (2 ^ n)) })
    else .next s
  | _ => .next s
/-- RETURN_PORT: all five lanes are retrained (R30, R38, R48). -/
def execReturnPort (s : State) : Out :=
  match s.inp with
  | some (.returnPort p) =>
    let s := { s with inp := none }
    let x := s.lnk.port p
    if x.iso ∧ s.boot.state ≠ 3 then .next ((s.setLnk (s.lnk.closeDrop true p)).setPort p { x.fresh with state := 1 }) else .next s
  | _ => .next s

/-! ### Registers (R31, R38, R42, R43) -/

/-- A write of one word of LK_PEERMAP: a cleared peer with requests outstanding is isolated first (R43). -/
def State.setPeermap (s : State) (k : Nat) (v : Nat) : State :=
  let old := s.lnk.peerMap.toNat
  let new := (old % 2 ^ (64 * k) + v % 2 ^ 64 * 2 ^ (64 * k) + old / 2 ^ (64 * (k + 1)) * 2 ^ (64 * (k + 1))) % 2 ^ 144
  let gone := (List.range 144).filter fun n => bit old n && !bit new n && s.lnk.reqs.any fun q => q.peer == n
  let s := gone.foldl State.isolatePeer s
  s.setLnk { s.lnk with peerMap := BitVec.ofNat 192 new }
/-- LK_PEERMAP_WRITE (R43). -/
def execLkPeermapWrite (s : State) : Out :=
  match s.inp with
  | some (.lkPeermapWrite k v) =>
    let s := { s with inp := none }
    if k < 3 ∧ s.boot.state ≠ 3 then .next (s.setPeermap k v.toNat) else .next s
  | _ => .next s

/-- A write of LK_CFG: a SELF above 143 is ignored (R31, R43). -/
def State.setSelf (s : State) (v : Nat) : State :=
  if field v 7 0 ≤ 143 then s.setLnk { s.lnk with self := BitVec.ofNat 8 (field v 7 0) } else s
/-- LK_CFG_WRITE (R43). -/
def execLkCfgWrite (s : State) : Out :=
  match s.inp with
  | some (.lkCfgWrite v) =>
    let s := { s with inp := none }
    if s.boot.state = 3 then .next s else .next (s.setSelf v.toNat)
  | _ => .next s

/-- DROPLOG_FREE (R38, R48). -/
def execDroplogFree (s : State) : Out :=
  match s.inp with
  | some (.droplogFree i) =>
    let s := { s with inp := none }
    let d := Tab.getD s.lnk.drop i .reset
    if i < 16 ∧ d.valid ∧ s.boot.state ≠ 3 then .next (s.setLnk { s.lnk with drop := Tab.set s.lnk.drop i { d with valid := false } }) else .next s
  | _ => .next s

/-! ### Tray drain (R39) -/

/-- A drain starts: the Lodge stops placement, and the package comes to QUIESCE (R39, R71). DEDUCED (log entry 79). -/
def State.startDrain (s : State) : State :=
  if s.lnk.drain = 0 then (s.setLnk { s.lnk with drain := 1, drainAt := s.units }).setSch { s.sch with placeEn := false } else s
/-- LK_DRAIN_START. DEDUCED (log entry 79). -/
def execLkDrainStart (s : State) : Out :=
  match s.inp with
  | some .lkDrainStart =>
    let s := { s with inp := none }
    if s.boot.state = 3 then .next s else .next s.startDrain
  | _ => .next s

/-- The peers of the domain. -/
def Links.peers (l : Links) : List Nat := (List.range 144).filter fun n => l.peerMap.getLsbD n && n != l.self.toNat
/-- DRAIN_QUIESCE_END: the notice goes to every peer on every live port. DEDUCED (log entry 79). -/
def execDrainQuiesceEnd (s : State) : Out :=
  match s.inp with
  | some .drainQuiesceEnd =>
    let s := { s with inp := none }
    if s.lnk.drain = 1 ∧ (s.lnk.reqs.isEmpty ∨ s.passed s.lnk.drainAt s.lnk.drainTmo.toNat) then
      let s := s.setLnk { s.lnk with drain := 2, drainAt := s.units }
      .next (s.lnk.peers.foldl (fun s n => s.lnk.live.foldl (fun s p => s.emitOut (.drainNotice n p)) s) s)
    else .next s
  | _ => .next s
/-- DRAIN_NOTIFY_END: every peer and every port is isolated. DEDUCED (log entry 79). -/
def execDrainNotifyEnd (s : State) : Out :=
  match s.inp with
  | some (.drainNotifyEnd acked) =>
    let s := { s with inp := none }
    if s.lnk.drain = 2 ∧ (acked ∨ s.passed s.lnk.drainAt s.lnk.drainTmo.toNat) then
      let s := s.setLnk { s.lnk with drain := 3, drainAt := s.units }
      let s := s.lnk.peers.foldl State.isolatePeer s
      .next ((List.range 18).foldl (fun (s : State) p => s.isolatePort p 4) s)
    else .next s
  | _ => .next s
/-- DRAIN_SAFE: the lanes are powered down. DEDUCED (log entry 79). -/
def execDrainSafe (s : State) : Out :=
  match s.inp with
  | some .drainSafe =>
    let s := { s with inp := none }
    if s.lnk.drain = 3 then .next (s.setLnk { s.lnk with drain := 4 }) else .next s
  | _ => .next s

/-! ### Ethernet (R41) -/

/-- The firmware sets the traffic classes whose priority flow control an Ethernet port has on, as it may enable it for up to eight (R40).
DESIGN CHOICE (log entry 9). -/
def State.setPfc (s : State) (p : Nat) (classes : BitVec 8) : State :=
  if p < 2 ∧ s.boot.state = 2 then s.setLnk { s.lnk with pfc := Tab.set s.lnk.pfc p classes } else s
/-- ETHERNET_PORT_FAILOVER: the port is down, and all its traffic goes to the other (R41). PRESUMED (log entry 9). -/
def execEthernetPortFailover (s : State) : Out :=
  match s.inp with
  | some (.ethernetPortFailover p) =>
    let s := { s with inp := none }
    if p < 2 then .next (s.setLnk { s.lnk with ethUp := Tab.set s.lnk.ethUp p false }) else .next s
  | _ => .next s

end Sys2Proof.Machine
end

