-- ==== Sys2Proof/Machine/Admin.lean ====
section
/-! DEFINITION. The admin queue (R64, R65), its commands on queues (R52, R55, R67), RESYNC (R68), the tray drain (R39) and planes
(R66). -/
namespace Sys2Proof.Machine

/-! ### The rings (R65) -/

/-- 2^LOG2SZ entries; a LOG2SZ outside 4 to 12 is taken as 4. -/
def ringSize (lg : Nat) : Nat := if 4 ≤ lg ∧ lg ≤ 12 then 2 ^ lg else 16
/-- The Lodge takes `n` commands at the head of the ring. One whose read comes back poisoned is reported (R44) and taken as an unknown
opcode, on which the spec is silent: a DESIGN CHOICE (log entry 81). -/
def State.takeCommands (s : State) : Nat → State
  | 0 => s
  | n + 1 =>
    let i := s.que.admRd.toNat
    let (bs, p, s) := s.hostRead (s.que.admqBase.toNat + 64 * (i % ringSize s.que.admqLog.toNat)) 64
    let bs := if p then bytesOf 1 0 ++ bs.drop 1 else bs
    State.takeCommands (s.setQue { s.que with taken := s.que.taken ++ [{ num := i, bytes := bs }], admRd := s.que.admRd + 1 }) n

/-- ADMIN_DOORBELL: every command below WR is taken; WR and RDIDX are compared as free-running counts (R65).
DEDUCED (log entry 81). -/
def execAdminDoorbell (s : State) : Out :=
  match s.inp with
  | some (.adminDoorbell wr) =>
    let s := { s with inp := none }
    if s.boot.state = 3 then .next s
    else
      let n := (wr - s.que.admRd).toNat
      let s := s.setQue { s.que with admWr := wr }
      .next (if n < 2 ^ 31 then s.takeCommands n else s)
  | _ => .next s

/-- A command is taken and not completed, or one below WR is not taken. -/
def Queues.adminBusy (q : Queues) : Bool := !q.taken.isEmpty || !q.completions.isEmpty || q.admWr != q.admRd
/-- ADMIN_RING_SET: a write of QS_ADMQ or QS_ADMC is ignored while commands are under way; else it resets RDIDX, CWR and the
phase, and the commands that WR then exceeds are taken (R65). DEDUCED (log entry 81). -/
def execAdminRingSet (s : State) : Out :=
  match s.inp with
  | some (.adminRingSet compl v) =>
    let s := { s with inp := none }
    if s.boot.state = 3 || s.que.adminBusy then .next s
    else
      let v := v.toNat
      let q := { s.que with admRd := 0, admCwr := 0 }
      let s := s.setQue
        (if compl then { q with admcBase := BitVec.ofNat 48 v, admcLog := BitVec.ofNat 4 (field v 51 48), admcVec := BitVec.ofNat 11 (field v 62 52) }
         else { q with admqBase := BitVec.ofNat 48 v, admqLog := BitVec.ofNat 4 (field v 51 48) })
      .next (if s.que.admWr.toNat < 2 ^ 31 then s.takeCommands s.que.admWr.toNat else s)
  | _ => .next s

/-- A completion's bytes, with PHASE 0 (R65). -/
def completion (tag op status result : Nat) : List Byte :=
  bytesOf 4 tag ++ bytesOf 1 status ++ bytesOf 1 0 ++ bytesOf 1 op ++ bytesOf 1 0 ++ bytesOf 8 result
/-- ADMIN_COMPLETION: the next finished command's completion is written with its phase, and MSI-X follows (R65). -/
def execAdminCompletion (s : State) : Out :=
  match s.inp with
  | some .adminCompletion =>
    let s := { s with inp := none }
    match s.que.completions with
    | [] => .next s
    | bs :: rest =>
      let n := ringSize s.que.admcLog.toNat
      let i := s.que.admCwr.toNat
      let phase := bytesOf 1 (1 - i / n % 2)
      let s := s.hostWrite (s.que.admcBase.toNat + 16 * (i % n)) (bs.take 5 ++ phase ++ bs.drop 6)
      .next ((s.setQue { s.que with completions := rest, admCwr := s.que.admCwr + 1 }).emitOut (.msix s.que.admcVec.toNat))
  | _ => .next s

/-- A command with opcode `op` is there to be served: taken from the ring, or carried by a management message over an
Ethernet port that is up (R41, R64).
DEDUCED (log entry 81). -/
def State.served (s : State) (via : Via) (op : Nat) : Bool :=
  s.boot.state != 3 &&
  match via with
  | .ring k => s.que.taken.any fun t => t.num == k && bytesAt t.bytes 0 1 == op
  | .eth _ => (s.lnk.ethFor 0).isSome
/-- A command ends; its completion goes to the ring in the order of ending, or back in the reply (R64, R65).
DEDUCED (log entry 81). -/
def State.finishCmd (s : State) (via : Via) (op status result : Nat) : State :=
  match via with
  | .ring k =>
    let tag := ((s.que.taken.find? fun t => t.num == k).map fun t => bytesAt t.bytes 4 4).getD 0
    s.setQue { s.que with taken := s.que.taken.filter fun t => t.num != k, completions := s.que.completions ++ [completion tag op status result] }
  | .eth tag => s.emitOut (.adminReply (completion tag.toNat op status result))

/-- ADMIN_UNKNOWN_OPCODE: STATUS 1 (R64). -/
def execAdminUnknownOpcode (s : State) : Out :=
  match s.inp with
  | some (.adminUnknownOpcode via op) =>
    let s := { s with inp := none }
    if s.served via op.toNat && (op == 0 || decide (13 < op.toNat)) then .next (s.finishCmd via op.toNat 1 0) else .next s
  | _ => .next s

/-! ### Queues (R52, R55, R67) -/

/-- An ASID that exists: TR_ROOT.V = 1 (R67). -/
def State.asidOk (s : State) (a : Nat) : Bool := 1 ≤ a && a ≤ 255 && (Tab.getD s.mem.trRoot a (false, 0)).1
/-- The operands of QUEUE_CREATE are good (R52). -/
def State.queueArgsOk (s : State) (d : QueueArgs) : Bool :=
  d.ring.toNat % 128 == 0 && 4 ≤ d.log2sz && d.log2sz ≤ 16 && s.asidOk d.asid && decide (d.vec < 2048) && !d.reserved
/-- A new descriptor (R52). -/
def QueueArgs.bytes (d : QueueArgs) : List Byte :=
  bytesOf 8 d.ring.toNat
    ++ bytesOf 8 (d.log2sz + 2 ^ 5 * b2n d.loc + 2 ^ 6 * d.prioMax.toNat + 2 ^ 9 * d.asid + 2 ^ 17 * d.vec + 2 ^ 28 * b2n d.en)
    ++ bytesOf 8 0 ++ bytesOf 1 0 ++ bytesOf 1 0xFF ++ List.replicate 38 0
/-- The `k`-th of a list of numbers, or 0. -/
def nth (xs : List Nat) (k : Nat) : Nat := (xs[k]?).getD 0

/-- QUEUE_CREATE: which free queue is taken is the Lodge's choice (R52); the command waits for the queue table. DESIGN CHOICE (log entry 82). -/
def State.createQueue (s0 : State) (via : Via) (d : QueueArgs) : State :=
  let s := s0
  if !s.queueArgsOk d then s.finishCmd via 1 2 0xFFFF else
  match (List.range 1024).filter fun q => !s.que.created.contains q with
  | [] => s.finishCmd via 1 3 0xFFFF
  | free =>
    let (k, s) := s.choose free.length
    let q := nth free k
    if !s.descReady q then s0 else
    let s := s.writeAt .global (s.descAddr q) d.bytes false
    (s.setQue { s.que with created := s.que.created ++ [q] }).finishCmd via 1 0 q
/-- QUEUE_CREATE. -/
def execQueueCreate (s : State) : Out :=
  match s.inp with
  | some (.queueCreate via d) =>
    let s := { s with inp := none }
    if s.served via 1 then .next (s.createQueue via d) else .next s
  | _ => .next s

/-- Take a queue out of its slot: its EN is cleared, so that no further launch leaves it (R67). -/
def State.stopQueue (s : State) (q : Nat) : State :=
  let (w, s) := s.desc q 8 4
  let s := s.setDesc q 8 4 (if qdEn w then w - 2 ^ 28 else w)
  match s.queueSlot q with
  | some k => s.freeSlot k
  | none => s
/-- A resident task came from a queue. -/
def State.queueInUse (s : State) (q : Nat) : Bool := s.tsk.tasks.any fun (_, t) =>
  match t.launch.src with
  | .slot _ p => p == q
  | _ => false
/-- QUEUE_DESTROY: the queue is stopped at once, and freed when no task of it is resident (R67). DEDUCED (log entry 81). -/
def State.destroyQueue (s : State) (via : Via) (q : Nat) : State :=
  if !s.que.created.contains q then s.finishCmd via 2 2 0 else
  if !s.descReady q then s else
  let s := if s.que.dying.contains q then s else (s.stopQueue q).setQue { (s.stopQueue q).que with dying := s.que.dying ++ [q] }
  if s.queueInUse q then s
  else (s.setQue { s.que with created := s.que.created.filter (fun p => p != q), dying := s.que.dying.filter fun p => p != q }).finishCmd via 2 0 0
/-- QUEUE_DESTROY. -/
def execQueueDestroy (s : State) : Out :=
  match s.inp with
  | some (.queueDestroy via q) =>
    let s := { s with inp := none }
    if s.served via 2 then .next (s.destroyQueue via q) else .next s
  | _ => .next s

/-- QUEUE_RESET: ERR clears and RDIDX is set, in the slot too (R55, R64). -/
def State.resetQueue (s : State) (via : Via) (q : Nat) (rd : W32) : State :=
  if !s.que.created.contains q then s.finishCmd via 3 2 0 else
  if !s.descReady q then s else
  let s := (s.setDesc q 24 1 0).setDesc q 16 4 rd.toNat
  let s := match s.queueSlot q with
    | some k => s.setSlot k { s.slot k with err := false, code := 0, rd := rd, offer := none }
    | none => s
  s.finishCmd via 3 0 0
/-- QUEUE_RESET. -/
def execQueueReset (s : State) : Out :=
  match s.inp with
  | some (.queueReset via q rd) =>
    let s := { s with inp := none }
    if s.served via 3 then .next (s.resetQueue via q rd) else .next s
  | _ => .next s

/-! ### RESYNC (R68) -/

def padTo (n : Nat) (bs : List Byte) : List Byte := (bs ++ List.replicate n 0).take n
/-- A section whose layout the spec does not give. DESIGN CHOICE (log entry 12); DEDUCED (log entry 84). -/
def freeSection (off n : Nat) (fields : List Nat) : List Byte := padTo n (Config.resyncLayout off fields)
def Sensor.signed (x : Sensor) : Int := x.temp.toInt

/-- The tasks in RESYNC's order: by the region's north-west element, then by context (R68). DEDUCED (log entry 84). -/
def State.tasksInOrder (s : State) : List (Nat × Task) :=
  let key := fun (x : Nat × Task) => (x.2.elem 0 0) * 4 + (x.2.planes.foldl (fun m r => min m r.ctx) 3)
  sortBy (fun a b => decide (key a ≤ key b)) s.tsk.tasks
/-- What the task section says of a task: ASID, priority, region, context index, EST, state. DEDUCED (log entry 84). -/
def Task.summary (t : Task) : List Nat :=
  [t.asid, t.prio, t.elem 0 0, t.wb, t.hb, t.planes.foldl (fun m r => min m r.ctx) 3, t.estUs.toNat,
   match t.phase with
   | .running => 0
   | .draining _ _ => 1
   | .cutting _ => 2
   | .halting _ _ => 0]
/-- Element events of a quarter in the window. -/
def State.quarterEvents (s : State) (q : Nat) : Nat :=
  (s.fab.errs.filter fun x => x.1 / 4096 == q).foldl (fun n x => n + s.inWindow x.2.corr + s.inWindow x.2.uncorr) 0
/-- The hottest reported temperature of a layer of a quarter, in two's complement. DEDUCED (log entry 84). -/
def State.hottest (s : State) (q l : Nat) : Nat :=
  let ts := (List.range 64).map fun b => (Tab.getD s.thm.sens (q * quarterSensors + l * 64 + b) .reset).signed
  (BitVec.ofInt 16 ((maxInt ts).getD 0)).toNat

/-- The 8 KiB summary, section by section. DESIGN CHOICE (log entry 12); DEDUCED (log entry 84). -/
def State.summary (s : State) (first : Nat) : List Byte :=
  let reg := fun (o n : Nat) => bytesOf n ((s.mgmtWord o).getD 0)
  let ts := s.tasksInOrder
  let slots := (List.range 64).flatMap fun k =>
    reg (0x7100 + 8 * k) 8 ++ bytesOf 4 (s.slot k).rd.toNat ++ bytesOf 1 (s.slot k).code.toNat ++ bytesOf 3 0
  let tasks := ((ts.drop first).take 64).flatMap fun x => freeSection 0x540 32 x.2.summary
  let drops := (List.range 16).flatMap fun i =>
    let d := Tab.getD s.lnk.drop i .reset
    if d.valid then (List.range 3).flatMap fun k => bytesOf 8 (d.word k) else List.replicate 24 0
  let links := (List.range 18).flatMap (fun p => reg (0x6100 + 8 * p) 8) ++ (List.range 3).flatMap (fun k => reg (0x6320 + 8 * k) 8)
    ++ reg 0x6350 8 ++ drops
  freeSection 0 64 [0x52594E43, Config.resyncVersion, s.lnk.self.toNat, (s.mgmtWord 0x1008).getD 0, s.boot.svn.toNat, s.que.gen.toNat, s.us, ts.length, first]
    ++ freeSection 0x40 192 (Config.lodgeCores ++ [s.tsk.lodgeQueue.length, b2n s.sch.placeEn])
    ++ slots
    ++ freeSection 0x500 64 [s.que.rackRd.toNat, (bitsOf 256 s.que.rackWritten.toNat).length, s.que.rackDrops.toNat, s.que.rackBadw.toNat,
        s.que.ethSeq, s.que.ethRing.length, s.que.rackPrioMax.toNat]
    ++ padTo 2048 tasks
    ++ freeSection 0xD40 256 ((List.range 4).map s.quarterEvents ++ [s.err.sparings.toNat, s.lnk.late.toNat, s.lnk.dlLost.toNat,
        s.pcieRate.toNat, s.pcieWidth.toNat])
    ++ (List.range 256).flatMap (fun b => bytesOf 8 (Tab.getD s.mem.bankMap b 0).toNat)
    ++ padTo 1024 links
    ++ freeSection 0x1A40 256 ((List.range 28).map (fun i => s.hottest (i / 7) (i % 7))
        ++ [(s.thm.sens.filter fun x => x.2.failed).length, (s.mgmtWord 0x2100).getD 0])
    ++ freeSection 0x1B40 64 [s.pow.cap.toNat, s.pow.win.toNat, s.pow.avg.toNat + 2 ^ 16 * s.pow.inst.toNat, s.pow.stat]
    ++ List.replicate 1152 0

/-- RESYNC: the summary goes to the destination, or back in the reply; only GEN changes (R68). Each section is taken atomically and in order;
the model samples all of them at one instant, a DESIGN CHOICE (log entries 12, 84). DEDUCED (log entry 84). -/
def State.resync (s : State) (via : Via) (dest first : Nat) : State :=
  let s := s.setQue { s.que with gen := s.que.gen + 1 }
  let bs := s.summary first
  let s := match via with
    | .ring _ => s.hostWrite dest bs
    | .eth _ => s.emitOut (.adminReply bs)
  s.finishCmd via 4 0 (s.que.gen.toNat + 2 ^ 32 * (s.tsk.tasks.length % 65536))
/-- RESYNC. DESIGN CHOICE (log entry 12); DEDUCED (log entry 84). -/
def execResync (s : State) : Out :=
  match s.inp with
  | some (.resync via dest first) =>
    let s := { s with inp := none }
    if s.served via 4 then .next (s.resync via dest first) else .next s
  | _ => .next s

/-! ### TRAY_DRAIN (R39, R64) -/

/-- TRAY_DRAIN: starts the drain, and completes at SAFE. DEDUCED (log entry 81). -/
def execTrayDrain (s : State) : Out :=
  match s.inp with
  | some (.trayDrain via) =>
    let s := { s with inp := none }
    if !s.served via 5 then .next s
    else
      let s := s.startDrain
      if s.lnk.drain = 4 then .next (s.finishCmd via 5 0 0) else .next s
  | _ => .next s

/-! ### Planes (R66, R255) -/

/-- Entry sizes and limits of the sections (R255); the count of ROLE is that of the rectangle, of BLOCKS is NBLK.
DEDUCED (log entry 83). -/
def Plane.sectionOk (p : Plane) (k : Nat) : Bool :=
  let size := (([1, 4, 4, 16, 24, 4] : List Nat)[k]?).getD 0
  let limit := (([p.w * p.h, 1024, 1024, 256, p.nblk, 32768] : List Nat)[k]?).getD 0
  let n := p.secCnt k
  decide (n ≤ limit) && (k != 0 && k != 4 || n == limit) && decide (p.secOff k + size * n ≤ p.common.length)
/-- The plane that a `.plane` image holds: its element images are the last KiB for every element of the rectangle (R255).
DEDUCED (log entry 83). -/
def planeOf (bs : List Byte) : Plane :=
  let head : Plane := { common := bs.take 0x100, images := [] }
  let n := bs.length - 1024 * (head.w * head.h)
  { common := bs.take n, images := bs.drop n }
/-- The checks of PLANE_INSTALL: magic, version, NBLK, section descriptors, length (R66). DEDUCED (log entry 83). -/
def planeOk (bs : List Byte) : Bool :=
  let p := planeOf bs
  decide (0x100 ≤ bs.length) && decide (1024 * (p.w * p.h) + 1024 ≤ bs.length) && bs.length % 1024 == 0
    && p.le 0 4 == 0x4E44504C && p.le 4 2 == 1 && decide (1 ≤ p.nblk) && decide (p.nblk ≤ 256)
    && (List.range 6).all p.sectionOk
/-- A plane resides in a task's region. -/
def State.planeResident (s : State) (n : Nat) : Bool := s.tsk.tasks.any fun (_, t) => t.planes.any fun r => r.plane == n
/-- The image that PLANE_INSTALL reads: space 0 is host memory, 1 device memory; none where it comes back poisoned
(R44, R66). DEDUCED (log entry 83). -/
def State.planeImage (s : State) (space a len : Nat) : Option (List Byte) × State :=
  if space = 0 then
    let (bs, p, s) := s.hostRead a len
    (if p then none else some bs, s)
  else if space = 1 ∧ a + len ≤ holeBase then
    let (bs, p, s) := s.readAt .global a len
    (if p then none else some bs, s)
  else (none, s)
/-- Bytes of a quarter's Orangery that installed planes other than `n` take: every quarter holds every element image, 1 KiB each, so
4 GiB hold 1,024 planes of a whole quarter (R13, R66). DEDUCED (log entry 83). -/
def State.orangery (s : State) (n : Nat) : Nat := ((s.que.planes.filter fun x => x.1 != n).map fun x => 1024 * (x.2.w * x.2.h)).sum
/-- PLANE_INSTALL; `room` says whether device memory has room for the common part (R66). DEDUCED (log entry 83). -/
def State.installPlane (s : State) (via : Via) (n space a len : Nat) (room : Bool) : State :=
  if 65536 ≤ n then s.finishCmd via 6 2 0
  else if s.planeResident n then s.finishCmd via 6 4 0
  else
    if space = 1 ∧ a + len ≤ holeBase ∧ !s.rangeFree a len then s else
    match s.planeImage space a len with
    | (none, s) => s.finishCmd via 6 2 0
    | (some bs, s) =>
      if !planeOk bs then s.finishCmd via 6 2 0
      else if !room || decide (2 ^ 32 < s.orangery n + 1024 * ((planeOf bs).w * (planeOf bs).h)) then s.finishCmd via 6 3 0
      else (s.setQue { s.que with planes := Tab.set s.que.planes n (planeOf bs) }).finishCmd via 6 0 0
/-- PLANE_INSTALL. DEDUCED (log entry 83). -/
def execPlaneInstall (s : State) : Out :=
  match s.inp with
  | some (.planeInstall via n space a len room) =>
    let s := { s with inp := none }
    if s.served via 6 then .next (s.installPlane via n space a len room) else .next s
  | _ => .next s
/-- PLANE_REMOVE (R66). -/
def State.removePlaneCmd (s : State) (via : Via) (n : Nat) : State :=
  if s.planeResident n then s.finishCmd via 7 4 0
  else if (s.plane? n).isNone then s.finishCmd via 7 2 0
  else (s.setQue { s.que with planes := Tab.erase s.que.planes n }).finishCmd via 7 0 0
/-- PLANE_REMOVE. -/
def execPlaneRemove (s : State) : Out :=
  match s.inp with
  | some (.planeRemove via n) =>
    let s := { s with inp := none }
    if s.served via 7 then .next (s.removePlaneCmd via n) else .next s
  | _ => .next s

end Sys2Proof.Machine
end

