-- ==== Sys2Proof/Machine/Integer.lean ====
section
/-! DEFINITION. Integer arithmetic, group 0x2 (R262 to R269). -/
namespace Sys2Proof.Machine

/-! ### One lane: `c` is the integer code of FMT, `x` and `y` lane values -/

/-- Least and greatest value of the format clamp an exact result (R267). -/
def saturate (c : Nat) (v : Int) : Nat := wrap (intWidth c) (min (max v (intLow c)) (intHigh c))
def laneAdd (c x y : Nat) : Nat := (x + y) % 2 ^ intWidth c
def laneSub (c x y : Nat) : Nat := wrap (intWidth c) ((x : Int) - y)
def laneMul (c x y : Nat) : Nat := x * y % 2 ^ intWidth c
def laneMulh (c x y : Nat) : Nat := wrap (intWidth c) (sa c x * sa c y / (2 ^ intWidth c : Int))
def laneMad (c x y z : Nat) : Nat := (x * y + z) % 2 ^ intWidth c
/-- Quotient toward zero; all ones by zero (R269). DEDUCED (log entry 89). -/
def laneDiv (c x y : Nat) : Nat := wrap (intWidth c) (if sa c y = 0 then -1 else (sa c x).tdiv (sa c y))
/-- Remainder with the sign of the dividend; the dividend by zero (R269). DEDUCED (log entry 89). -/
def laneRem (c x y : Nat) : Nat :=
  wrap (intWidth c) (if sa c y = 0 then sa c x else sa c x - (sa c x).tdiv (sa c y) * sa c y)
def laneNeg (c x : Nat) : Nat := wrap (intWidth c) (-(x : Int))
def laneAbs (c x : Nat) : Nat := (sa c x).natAbs % 2 ^ intWidth c
def laneMin (c x y : Nat) : Nat := if sa c x ≤ sa c y then x else y
def laneMax (c x y : Nat) : Nat := if sa c x ≥ sa c y then x else y
def laneAdds (c x y : Nat) : Nat := saturate c (sa c x + sa c y)
def laneSubs (c x y : Nat) : Nat := saturate c (sa c x - sa c y)

/-- An integer form: every lane under the node's format. -/
def State.fireInt (s : State) (opc : Nat) (r : NodeRec) (g : Nat → Nat → Nat → Nat → Nat) : Out :=
  s.fireLanes opc r (intWidth r.f) (g r.f)

/-- A form of the divider (R95, R115, R116). -/
def State.fireDivInt (s : State) (opc : Nat) (r : NodeRec) (g : Nat → Nat → Nat → Nat) : Out :=
  s.fire opc r fun i a b _ s =>
    (s.divider i.elem).fireVal i opc r r.v
      (mapLanes (intWidth r.f) r.v fun k => g r.f (lane (intWidth r.f) a k) (lane (intWidth r.f) b k)) 0

/-- ADD (R265). -/
def execAdd (r : NodeRec) (s : State) : Out := s.fireInt 0x20 r fun c x y _ => laneAdd c x y
/-- SUB (R265). -/
def execSub (r : NodeRec) (s : State) : Out := s.fireInt 0x21 r fun c x y _ => laneSub c x y
/-- MUL (R265). -/
def execMul (r : NodeRec) (s : State) : Out := s.fireInt 0x22 r fun c x y _ => laneMul c x y
/-- MULH (R266). -/
def execMulh (r : NodeRec) (s : State) : Out := s.fireInt 0x23 r fun c x y _ => laneMulh c x y
/-- MAD (R265). -/
def execMad (r : NodeRec) (s : State) : Out := s.fireInt 0x24 r laneMad
/-- DIV (R269). -/
def execDiv (r : NodeRec) (s : State) : Out := s.fireDivInt 0x25 r laneDiv
/-- REM (R269). -/
def execRem (r : NodeRec) (s : State) : Out := s.fireDivInt 0x26 r laneRem
/-- NEG (R268). -/
def execNeg (r : NodeRec) (s : State) : Out := s.fireInt 0x27 r fun c x _ _ => laneNeg c x
/-- ABS (R268). -/
def execAbs (r : NodeRec) (s : State) : Out := s.fireInt 0x28 r fun c x _ _ => laneAbs c x
/-- MIN (R268). -/
def execMin (r : NodeRec) (s : State) : Out := s.fireInt 0x29 r fun c x y _ => laneMin c x y
/-- MAX (R268). -/
def execMax (r : NodeRec) (s : State) : Out := s.fireInt 0x2A r fun c x y _ => laneMax c x y
/-- ADDS (R267). -/
def execAdds (r : NodeRec) (s : State) : Out := s.fireInt 0x2B r fun c x y _ => laneAdds c x y
/-- SUBS (R267). -/
def execSubs (r : NodeRec) (s : State) : Out := s.fireInt 0x2C r fun c x y _ => laneSubs c x y

end Sys2Proof.Machine
end

