-- ==== Sys2Proof/Machine/Compare.lean ====
section
/-! DEFINITION. Compares and predicates, group 0x4 (R276 to R279, R287). -/
namespace Sys2Proof.Machine

/-- An integer compare of lanes (R277). -/
def State.fireCmp (s : State) (opc : Nat) (r : NodeRec) (t : Nat → Nat → Nat → Bool) : Out :=
  s.fireInt opc r fun c x y _ => b2n (t c x y)

/-- CMPEQ (R277). -/
def execCmpeq (r : NodeRec) (s : State) : Out := s.fireCmp 0x40 r fun _ x y => x == y
/-- CMPNE (R277). -/
def execCmpne (r : NodeRec) (s : State) : Out := s.fireCmp 0x41 r fun _ x y => x != y
/-- CMPLT (R277). -/
def execCmplt (r : NodeRec) (s : State) : Out := s.fireCmp 0x42 r fun c x y => decide (sa c x < sa c y)
/-- CMPLE (R277). -/
def execCmple (r : NodeRec) (s : State) : Out := s.fireCmp 0x43 r fun c x y => decide (sa c x ≤ sa c y)
/-- CMPLTN (R277). -/
def execCmpltn (r : NodeRec) (s : State) : Out := s.fireCmp 0x44 r fun _ x y => decide (x < y)
/-- CMPLEN (R277). -/
def execCmplen (r : NodeRec) (s : State) : Out := s.fireCmp 0x45 r fun _ x y => decide (x ≤ y)

/-- A float compare of one lane: its truth, with NV for a signalling NaN (R287). -/
def cmpLane (f : Nat) (t : Bool → Int → Bool) (x y : Nat) : Nat × Nat :=
  let a := decodeF f x
  let b := decodeF f y
  (b2n (t (a.isNan || b.isNan) (cmpFV a b)), nanFlags [a, b])

/-- A float compare: `t` judges whether the operands are unordered and the sign of x - y. -/
def State.fireFcmp (s : State) (opc : Nat) (r : NodeRec) (t : Bool → Int → Bool) : Out :=
  s.fireRound opc r (fltWidth r.f) fun x y _ => cmpLane r.f t x y

/-- FCMPEQ (R287). -/
def execFcmpeq (r : NodeRec) (s : State) : Out := s.fireFcmp 0x46 r fun un c => !un && c == 0
/-- FCMPNE (R287). -/
def execFcmpne (r : NodeRec) (s : State) : Out := s.fireFcmp 0x47 r fun un c => un || c != 0
/-- FCMPLT (R287). -/
def execFcmplt (r : NodeRec) (s : State) : Out := s.fireFcmp 0x48 r fun un c => !un && decide (c < 0)
/-- FCMPLE (R287). -/
def execFcmple (r : NodeRec) (s : State) : Out := s.fireFcmp 0x49 r fun un c => !un && decide (c ≤ 0)
/-- FCMPUN (R287). -/
def execFcmpun (r : NodeRec) (s : State) : Out := s.fireFcmp 0x4A r fun un _ => un

/-- Lane width of the predicate combiners: AUX bits 18:17 (R278). -/
def predWidth (r : NodeRec) : Nat := 8 * 2 ^ (r.x % 4)

/-- PAND (R278). -/
def execPand (r : NodeRec) (s : State) : Out := s.fireLanes 0x4B r (predWidth r) fun x y _ => b2n (bit x 0 && bit y 0)
/-- POR (R278). -/
def execPor (r : NodeRec) (s : State) : Out := s.fireLanes 0x4C r (predWidth r) fun x y _ => b2n (bit x 0 || bit y 0)
/-- PNOT (R278). -/
def execPnot (r : NodeRec) (s : State) : Out := s.fireLanes 0x4D r (predWidth r) fun x _ _ => b2n (!bit x 0)

/-- PANY and PALL: a scalar from every lane of A (R279). -/
def State.fireReduce (s : State) (opc : Nat) (r : NodeRec) (all : Bool) : Out :=
  s.fire opc r fun i a _ _ s =>
    let ls := (List.range (laneCount (predWidth r) r.v)).map fun k => bit (lane (predWidth r) a k) 0
    s.fireVal i opc r false (b2n (if all then ls.all id else ls.any id)) 0

/-- PANY (R279). -/
def execPany (r : NodeRec) (s : State) : Out := s.fireReduce 0x4E r false
/-- PALL (R279). -/
def execPall (r : NodeRec) (s : State) : Out := s.fireReduce 0x4F r true

end Sys2Proof.Machine
end

