-- ==== Sys2Proof/Machine/Elements.lean ====
section
/-! DEFINITION. Errors of elements, replay, sparing and loss (R138, R219 to R227). -/
namespace Sys2Proof.Machine

def State.elemErr (s : State) (e : Nat) : ElemErr := Tab.getD s.fab.errs e .new
def State.setElemErr (s : State) (e : Nat) (x : ElemErr) : State := s.setFab { s.fab with errs := Tab.set s.fab.errs e x }
/-- ERR_SPARE of a bed (R221). -/
def State.spare (s : State) (bed : Nat) : BitVec 2 × BitVec 6 := Tab.getD s.fab.spares bed (0, 0)
/-- Bed-local index of an element. -/
def inBed (e : Nat) : Nat := e / 64 % 8 * 8 + e % 8
/-- Count what is marked poisoned (R223, R224). DEDUCED (log entry 90). -/
def State.countPoison (s : State) (n : Nat) : State :=
  s.setErr { s.err with poisoned := BitVec.ofNat 16 (satTo 16 (s.err.poisoned.toNat + n)) }

/-! ### Loss of an element (R227) -/

/-- ELEM_LOST of a task goes to the Lodge, which ends the task (R218, R227). DEDUCED (log entry 50). -/
def State.elemLost (s : State) (e tid : Nat) : State :=
  let r := { s.trapRec s.tsk.nextAid e 0 { code := trapElemLost, info := BitVec.ofNat 64 e } with
             tid := tid, thread := (s.threadsOf tid).headD 0, asid := ((s.task? tid).map (·.asid)).getD 0 }
  s.setTsk { s.tsk with lodgeQueue := s.tsk.lodgeQueue ++ [r] }
/-- The element leaves service, and every task that holds a context in it gets ELEM_LOST (R227). DEDUCED (log entries 50, 90). -/
def State.takeOut (s : State) (e : Nat) : State :=
  let s := s.setElemErr e { s.elemErr e with out := true }
  let s := s.setErr { s.err with lost := BitVec.ofNat 8 (satTo 8 (s.err.lost.toNat + 1)) }
  (((List.range 4).filterMap fun c => (s.ctx e c).owner).eraseDups).foldl (fun (s : State) tid => s.elemLost e tid) s
/-- A lasting fault of an element whose bed's spare cannot take it (R227). DEDUCED (log entry 50). -/
def State.judge (s : State) (e : Nat) : State :=
  let x := s.elemErr e
  if x.lasting && !x.out && (s.spare (bedOf e)).1 != 0 then s.takeOut e else s

/-! ### What an error leaves behind (R138, R224) -/

/-- The source of a poisoned matching entry (R228). -/
def Pay.badEntry (p : Pay) : Pay := p.poisoned 5
def Entry.bad (x : Entry) : Entry :=
  { x with pay := x.pay.badEntry, gap := x.gap.map fun g => { g with ak := g.ak.badEntry, ak1 := g.ak1.badEntry } }
/-- A firing with the entry `id` of a port poisoned, if it holds it. -/
def Firing.badPin (f : Firing) (port id : Nat) : Firing :=
  if !f.pins.contains id then f else
  match port with
  | 0 => { f with a := f.a.map Pay.badEntry }
  | 1 => { f with b := f.b.map Pay.badEntry }
  | _ => { f with p := f.p.map Pay.badEntry }
/-- A node's state with the entry `id` of a port poisoned. -/
def NodeSt.badEntry (n : NodeSt) (port id : Nat) : NodeSt :=
  let n := n.setPort port { n.port port with ents := (n.port port).ents.map fun x => if x.id = id then x.bad else x }
  { n with pend := n.pend.map fun f => f.badPin port id }
/-- Change a node's state and what the history keeps of it. -/
def State.updNodeHist (s : State) (e aid node : Nat) (f : NodeSt → NodeSt) : State :=
  let s := s.setNodeSt aid e node (f (s.nodeSt aid e node))
  s.setFab { s.fab with hist := Tab.set s.fab.hist e ((Tab.getD s.fab.hist e []).map fun h =>
    if h.aid = aid ∧ h.tok.node = node then { h with before := f h.before } else h) }
/-- An entry of a matching store is poisoned with source 5, and the firings that hold it and have not issued with it (R224, R228). -/
def State.poisonEntry (s : State) (e aid node port index : Nat) : State :=
  match ((s.nodeSt aid e node).port port).ents[index]? with
  | none => s
  | some x =>
    let s := s.updNodeHist e aid node fun n => n.badEntry port x.id
    let c := ((s.act? aid).map (·.ctx)).getD 0
    let q := s.ctx e c
    let mine := fun (f : Firing) => if f.aid = aid ∧ f.node = node then f.badPin port x.id else f
    (s.setCtx e c { q with ready := q.ready.map mine, waiting := q.waiting.map mine }).countPoison 1
/-- A hold register that cannot be read poisons what it holds. -/
def State.poisonHold (s : State) (e aid node port : Nat) : State :=
  if (((s.nodeSt aid e node).port port).hold).isNone then s else
  (s.updNodeHist e aid node fun n => n.setPort port { n.port port with hold := (n.port port).hold.map Pay.badEntry }).countPoison 1
/-- A drain token that a frame keeps is poisoned (R133). -/
def State.poisonKept (s : State) (e aid k : Nat) : State :=
  match s.act? aid with
  | none => s
  | some a =>
    let mine := (a.kept.zipIdx.filter fun x => x.1.src == startSrc + e).map (·.2)
    match mine[k]? with
    | none => s
    | some j => (s.setAct aid { a with kept := a.kept.zipIdx.map fun x => if x.2 = j then { x.1 with pay := x.1.pay.badEntry } else x.1 }).countPoison 1

/-- What a part of a frame is for (R150). -/
inductive FrameSlot where
  | entry (node port index : Nat)
  | hold (node port : Nat)
  | drain (index : Nat)
  deriving DecidableEq, Repr
/-- The parts of an activation's frame in an element behind its header, in order, with their sizes: entries, hold registers, kept drain
tokens. The entry stored `i`-th stands in the `i`-th place of its port. DESIGN CHOICE (log entry 63). -/
def State.frameSlots (s : State) (e aid : Nat) : List (Nat × FrameSlot) :=
  match s.act? aid with
  | none => []
  | some a =>
    match s.task? a.tid, s.planeOfAct a with
    | some t, some pl =>
      let ns := (pl.blockNodes a.block).filter fun x => t.elem (neX x) (neY x) == e
      let cfgs := ns.filterMap fun x => (s.recAt e a.ctx (neNode x)).map fun (opc, r) => (neNode x, opc, s.matchCfg t e a.ctx (neNode x) opc r)
      let ents := cfgs.flatMap fun (n, opc, c) =>
        ([0, 1, 2].filter fun k => c.used.contains k || k == 1 && opc == 0xE6).flatMap fun k =>
          (List.range (c.depth k)).map fun i => (80, FrameSlot.entry n k i)
      let holds := cfgs.flatMap fun (n, _, c) =>
        (c.used.filter fun k => k != 2 && c.gap k != .refuse).map fun k => (64, FrameSlot.hold n k)
      let fed := (ns.map fun x => s.drainFed t a.ctx (pl.blockNodes a.block) e (neNode x)).sum
      ents ++ holds ++ (List.range (16 * fed)).map fun i => (80, FrameSlot.drain i)
    | _, _ => []
/-- The parts that have bytes in [lo, lo + 64), the first of `xs` beginning at `at_`. -/
def slotsIn (lo : Nat) : Nat → List (Nat × FrameSlot) → List FrameSlot
  | _, [] => []
  | at_, (n, x) :: r => if at_ < lo + 64 ∧ lo < at_ + n then x :: slotsIn lo (at_ + n) r else slotsIn lo (at_ + n) r
/-- A line of a frame cannot be read: its header raises POISON, its entries and registers are poisoned (R224).
DEDUCED (log entry 50). -/
def State.poisonFrame (s : State) (e aid line : Nat) : State :=
  if line = 0 then s.raiseAt aid e 0 { code := trapPoison, info := 1 } else
  (slotsIn (64 * line) 64 (s.frameSlots e aid)).foldl (fun s x =>
    match x with
    | .entry n k i => s.poisonEntry e aid n k i
    | .hold n k => s.poisonHold e aid n k
    | .drain i => s.poisonKept e aid i) s

/-- The context and offset of a byte of an element's role areas, which are packed downward from the top (R152). -/
def State.areaAt (s : State) (e off : Nat) : Option (Nat × Nat) :=
  (List.range 4).findSome? fun c =>
    let base := 65536 - ((List.range (c + 1)).map fun k => s.extent e k).sum
    if base ≤ off ∧ off < base + s.extent e c then some (c, off - base) else none
/-- Poison a token that waits in the FIFO area of a context, the `k`-th of those of read ports, array ports and write ports; one is
counted if there is one. DEDUCED (log entry 50). -/
def State.poisonFifo (s : State) (e c k : Nat) : State :=
  match (s.ctx e c).owner with
  | none => s
  | some tid =>
    let here := fun (port : Nat) => (s.streamPort tid c port).any fun (t, _, x) => t.elem (spFx x) (spFy x) == e
    let flits := (s.fab.net.zipIdx.filter fun (f, _) => f.at_ == e && f.dir == 0 && f.tok.ctx == c && decide (2 ^ 24 ≤ f.tok.src)).map (·.2)
    let rows := (s.eng.fifo.filter fun x => x.1 / 256 == tid * 4 + c && here (x.1 % 256)).flatMap fun x =>
      (List.range x.2.length).map fun i => (x.1, i)
    let ins := (s.eng.bindings.filter fun b => b.write && b.tid == tid && b.ctx == c && here b.port).flatMap fun b =>
      (List.range b.inputs.length).map fun i => (b.bid, i)
    let n := k % max 1 (flits.length + rows.length + ins.length)
    if n < flits.length then
      let j := flits[n]?.getD 0
      match s.fab.net[j]? with
      | none => s
      | some f => (s.setFab { s.fab with net := listSet s.fab.net j { f with tok := { f.tok with pay := f.tok.pay.poisoned 1 } } }).countPoison 1
    else if n < flits.length + rows.length then
      match rows[n - flits.length]? with
      | none => s
      | some (key, i) =>
        let q := Tab.getD s.eng.fifo key []
        match q[i]? with
        | none => s
        | some (d, _, bid) => (s.setEng { s.eng with fifo := Tab.set s.eng.fifo key (listSet q i (d, true, bid)) }).countPoison 1
    else
      match ins[n - flits.length - rows.length]? with
      | none => s
      | some (bid, i) =>
        (s.setEng { s.eng with bindings := s.eng.bindings.map fun b =>
          if b.bid ≠ bid then b else
          match b.inputs[i]? with
          | none => b
          | some t => { b with inputs := listSet b.inputs i { t with pay := t.pay.poisoned 1 } } }).countPoison 1
/-- A 64-byte line of the bank cannot be read: a buffer's line or a FIFO's token is poisoned; the lines of a cache bank are clean, and are
fetched again; below the role areas it is a frame's (R150, R152, R154, R224, R226). -/
def State.poisonLine (s : State) (e line : Nat) : State :=
  match s.areaAt e (line * 64) with
  | none =>
    match (Tab.getD s.fab.frames e []).find? fun f => decide (f.2.1 ≤ line ∧ line < f.2.1 + f.2.2) with
    | some (aid, o, _) => s.poisonFrame e aid (line - o)
    | none => s
  | some (c, off) =>
    match s.roleCode e c with
    | 0 => (s.setMem { s.mem with bankPois := (List.range 4).foldl (fun t k => Tab.put false t (bankKey e c off / 16 + k) true) s.mem.bankPois }).countPoison 1
    | 1 =>
      let (k, s) := s.choose 1024
      s.poisonFifo e c k
    | _ => s

/-- An array element's datapath or weight set is in error (R138): the accumulator rows that the row it last worked on reaches are
poisoned, and the set with them if the error is in it. Which of them is open. DEDUCED (log entry 50). -/
def State.poisonArray (s : State) (e c : Nat) : State :=
  match (s.ctx e c).owner with
  | none => s
  | some tid =>
    match s.arr? tid c with
    | none => s
    | some a =>
      match a.elems.find? fun x => x.1 == e with
      | none => s
      | some (_, i, j) =>
        let k := arrKey tid c
        let x := s.arrSt k
        let (pick, s) := s.choose 3
        let r := (x.taken - 1) % a.fmt.macc
        let x := if x.taken = 0 then x else
          { x with acc := (List.range a.ac).foldl (fun t j => Tab.set t (r * 64 + j) { x.row a.fmt r j with pois := true }) x.acc }
        let x := if pick = 0 then x else
          let sk := setKey i j (pick == 2)
          { x with sets := Tab.set x.sets sk { Tab.getD x.sets sk .new with pois := true } }
        s.setArr k x
/-- What an array element holds and its spare could not read is poisoned: weight set S0 or S1, or with `what` 2 its accumulator block
(R138). -/
def State.poisonArrayPart (s : State) (e c what : Nat) : State :=
  match (s.ctx e c).owner.bind fun tid => (s.arr? tid c).bind fun a => (a.elems.find? fun x => x.1 == e).map fun x => (arrKey tid c, a, x.2) with
  | none => s
  | some (k, a, i, j) =>
    let x := s.arrSt k
    if what < 2 then
      let sk := setKey i j (what == 1)
      s.setArr k { x with sets := Tab.set x.sets sk { Tab.getD x.sets sk .new with pois := true } }
    else if i + 1 ≠ a.ar then s
    else s.setArr k { x with acc := (List.range a.fmt.macc).foldl (fun t r => Tab.set t (r * 64 + j) { x.row a.fmt r j with pois := true }) x.acc }

/-- The context of an element is dropped again from the Orangery (R13, R224). -/
def State.redropElem (s : State) (e c : Nat) : State :=
  match (s.ctx e c).owner with
  | none => s
  | some tid =>
    match s.task? tid with
    | none => s
    | some t =>
      match t.plane? c, s.planeAt t c with
      | some r, some pl =>
        let s := s.setFab { s.fab with store := writeCells s.fab.store (e * 4096 + c * 1024) (pl.image (t.pos e) 0 1024) }
        s.applyArgs t pl c r.log
      | _, _ => s

/-- The element stops, and replays (R222). DESIGN CHOICE (log entry 49). -/
def State.needReplay (s : State) (e : Nat) : State := s.setElemErr e { s.elemErr e with replay := true }

/-- One error event of an element (R219, R222, R224). An entry whose token is still in the history is rebuilt by replay.
DESIGN CHOICE (log entry 49). -/
def State.elemEvent (s : State) (e : Nat) (what : ElemError) : State :=
  match what with
  | .corrected => s.countElem e false
  | .uncorrected => (s.countElem e true).needReplay e
  | .entry aid node port index =>
    let s := (s.countElem e true).needReplay e
    let id := (((s.nodeSt aid e node).port port).ents[index]?.map (·.id)).getD 0
    if (Tab.getD s.fab.hist e []).any fun h => h.num == id / 2 then s else s.poisonEntry e aid node port index
  | .frame aid => (s.countElem e true).raiseAt aid e 0 { code := trapPoison, info := 1 }
  | .record c => ((s.countElem e true).redropElem e c).needReplay e
  | .bankLine line => (s.countElem e true).poisonLine e line
  | .array c => (s.countElem e true).poisonArray e c

/-- An error event of a bed's spare; idle with a lasting fault, it becomes unusable (R226). DEDUCED (log entry 50). -/
def State.spareEvent (s : State) (bed : Nat) : State :=
  let ts := s.window (Tab.getD s.fab.spareErrs bed [])
  let s := s.setFab { s.fab with spareErrs := Tab.set s.fab.spareErrs bed ts }
  if s.lasting ts && (s.spare bed).1 == 0 then s.setFab { s.fab with spares := Tab.set s.fab.spares bed (2, 0) } else s

/-- ELEMENT_ERROR_EVENT: of an element, or of the spare of bed `elem` - 16384 (R219, R226, R227). -/
def execElementErrorEvent (s : State) : Out :=
  match s.inp with
  | some (.elementErrorEvent e what) =>
    let s := { s with inp := none }
    if e < 16384 then .next ((s.elemEvent e what).judge e)
    else if e < 16640 then .next (s.spareEvent (e - 16384))
    else .next s
  | _ => .next s

/-- A token of the history that the firing rule took at an activation that is still live. -/
def State.replays (s : State) (e : Nat) (h : History) : Bool :=
  decide (h.tok.node < 64) && ((s.act? h.aid).any fun a => !a.dead) && !(h.tok.port == PortName.b && (match s.recAt e h.tok.ctx h.tok.node with
    | some (0xE6, _) => true
    | _ => false))
/-- The oldest token of each node in a history. -/
def oldestPerNode : List History → List History
  | hs => hs.foldl (fun r h => if r.any fun x => x.aid == h.aid && x.tok.node == h.tok.node then r else r ++ [h]) []
/-- The generator of each context of an element goes back to where it was at the context's oldest token of the history (R223). -/
def State.backGens (s : State) (e : Nat) : State :=
  (List.range 4).foldl (fun s c =>
    match (Tab.getD s.fab.hist e []).find? fun h => h.tok.ctx == c with
    | some h => s.setCtx e c { s.ctx e c with gen := h.gen }
    | none => s) s
/-- Step 2 of R223: every node and generator is as it was before the oldest token of the history, and the firings found since are discarded.
DEDUCED (log entry 49). -/
def State.rollBack (s : State) (e : Nat) : State :=
  let old := oldestPerNode ((Tab.getD s.fab.hist e []).filter (s.replays e))
  let s := (old.foldl (fun s h => s.setNodeSt h.aid e h.tok.node h.before) s).backGens e
  let keep := fun (f : Firing) =>
    match old.find? fun h => h.aid == f.aid && h.tok.node == f.node with
    | some h => decide (f.trig < h.num) && !h.before.pend.any f.same
    | none => true
  (List.range 4).foldl (fun s c =>
    let x := s.ctx e c
    s.setCtx e c { x with ready := x.ready.filter keep, waiting := x.waiting.filter keep }) s
/-- Step 3 of R223: the tokens of the history are accepted again in their order, each under its number. The taps copy each with REPLAY
set (R234). DEDUCED (log entry 49). -/
def State.reaccept (s : State) (e : Nat) : State :=
  let n := s.fab.accepted
  let s := (Tab.getD s.fab.hist e []).foldl (fun s h =>
    match s.act? h.aid, s.recAt e h.tok.ctx h.tok.node with
    | some a, some (opc, r) =>
      if s.replays e h then ((s.setFab { s.fab with accepted := h.num }).matchTok a.tid h.aid e opc r h.tok true).getD s
      else s.taps a.tid e h.tok true
    | _, _ => s) s
  s.setFab { s.fab with accepted := n }

/-- ELEMENT_REPLAY (R191, R204, R223): the element goes back to before the oldest token of its history, accepts the history again and
re-issues what it finds; what has issued before sends nothing that a receiver would take, sets its flags again and draws
afresh from the generator as it was then.
DEDUCED (log entry 49). -/
def execElementReplay (s : State) : Out :=
  match s.inp with
  | some (.elementReplay e) =>
    let s := { s with inp := none }
    let x := s.elemErr e
    if !x.replay then .next s else
    let s := s.setElemErr e { x with replay := false }
    let s := s.setErr { s.err with replays := BitVec.ofNat 16 (satTo 16 (s.err.replays.toNat + 1)) }
    .next ((s.rollBack e).reaccept e)
  | _ => .next s

/-- What cannot be read at the move to a spare: a line of the bank below 1,024, then three parts of the array in each context.
DESIGN CHOICE (log entry 50). -/
def State.poisonLost (s : State) (e k : Nat) : State :=
  if k < 1024 then s.poisonLine e k else s.poisonArrayPart e ((k - 1024) / 3 % 4) ((k - 1024) % 3)
/-- ELEMENT_SPARING (R138, R226): the element moves to its bed's idle spare; what cannot be read is written poisoned. With no spare to
take it, it leaves service (R227). DEDUCED (log entry 50). -/
def execElementSparing (s : State) : Out :=
  match s.inp with
  | some (.elementSparing e lost) =>
    let s := { s with inp := none }
    let x := s.elemErr e
    let bed := bedOf e
    if !x.lasting || x.out then .next s
    else if (s.spare bed).1 ≠ 0 then .next (s.takeOut e)
    else
      let s := s.setFab { s.fab with spares := Tab.set s.fab.spares bed (1, BitVec.ofNat 6 (inBed e)) }
      let s := s.setElemErr e { x with spared := true, lasting := false }
      let s := s.setErr { s.err with sparings := BitVec.ofNat 16 (satTo 16 (s.err.sparings.toNat + 1)) }
      .next (lost.foldl (fun s k => s.poisonLost e k) s)
  | _ => .next s

end Sys2Proof.Machine
end

