-- ==== Sys2Proof/Machine/Lanes.lean ====
section
/-! DEFINITION. Lane operations, group 0x8 (R299 to R302). -/
namespace Sys2Proof.Machine

/-- The subop bit of AUX: record bit 18 (R299, R304). -/
def sub18 (r : NodeRec) : Bool := bit r.x 1
def laneW (r : NodeRec) : Nat := r.data.width

/-- A data-moving form: lane `i` of the result from the lanes of A and B (R300). -/
def State.fireMove (s : State) (opc : Nat) (r : NodeRec) (g : Nat → Nat → Nat → Nat) : Out :=
  s.fire opc r fun i a b _ s => s.fireVal i opc r true (mapLanes (laneW r) true (g a b)) 0

/-- VSHUF (R300). -/
def execVshuf (r : NodeRec) (s : State) : Out :=
  s.fireMove 0x80 r fun a b i =>
    let w := laneW r
    let nl := lanesOf w
    let k := lane w b i
    if k < nl then lane w a k else if sub18 r then 0 else lane w a (k % nl)
/-- VBCAST (R300). -/
def execVbcast (r : NodeRec) (s : State) : Out :=
  s.fireMove 0x81 r fun a _ _ => lane (laneW r) a (if sub18 r then r.l else 0)
/-- VEXT: a scalar result (R300). -/
def execVext (r : NodeRec) (s : State) : Out :=
  s.fire 0x82 r fun i a _ _ s => s.fireVal i 0x82 r false (lane (laneW r) a r.l) 0
/-- VINS (R300). -/
def execVins (r : NodeRec) (s : State) : Out :=
  s.fireMove 0x83 r fun a b i => if i = r.l then lane (laneW r) b 0 else lane (laneW r) a i
/-- VPACK (R300). -/
def execVpack (r : NodeRec) (s : State) : Out :=
  s.fireMove 0x87 r fun a b i => if i < r.l then lane (laneW r) a i else lane (laneW r) b i
/-- VUNPK (R300). -/
def execVunpk (r : NodeRec) (s : State) : Out :=
  s.fireMove 0x88 r fun a b i =>
    let off := if sub18 r then lanesOf (laneW r) / 2 else 0
    lane (laneW r) (if i % 2 = 0 then a else b) (i / 2 + off)
/-- VSLIDE (R300). -/
def execVslide (r : NodeRec) (s : State) : Out :=
  s.fireMove 0x8A r fun a b i =>
    let nl := lanesOf (laneW r)
    if i + r.l < nl then lane (laneW r) a (i + r.l) else lane (laneW r) b (i + r.l - nl)
/-- VROTL: lane (i + j) mod nl of the result is lane i of A (R300). -/
def execVrotl (r : NodeRec) (s : State) : Out :=
  s.fireMove 0x8B r fun a b i =>
    let nl := lanesOf (laneW r)
    lane (laneW r) a ((i + nl - b % 2 ^ 32 % nl) % nl)

/-- One level of the pairwise tree: adjacent pairs combined, flags gathered (R209). -/
def pairUp (g : Nat → Nat → Nat × Nat) : List Nat → List Nat × Nat
  | x :: y :: r =>
    let z := g x y
    let (zs, fl) := pairUp g r
    (z.1 :: zs, z.2 ||| fl)
  | xs => (xs, 0)
/-- The pairwise tree over `2 ^ n` lanes (R209). -/
def pairTree (g : Nat → Nat → Nat × Nat) : Nat → List Nat → Nat → Nat × Nat
  | 0, xs, fl => (xs.headD 0, fl)
  | n + 1, xs, fl =>
    let (ys, f) := pairUp g xs
    pairTree g n ys (fl ||| f)

/-- A lane reduction to a scalar (R301). -/
def State.fireTree (s : State) (opc : Nat) (r : NodeRec) (g : Nat → Nat → Nat × Nat) : Out :=
  s.fire opc r fun i a _ _ s =>
    let nl := lanesOf (laneW r)
    let x := pairTree g (Nat.log2 nl) ((List.range nl).map fun k => lane (laneW r) a k) 0
    s.fireVal i opc r false x.1 x.2

/-- One addition of the node's type: wrapping, or rounded by RNE (R301, R302). -/
def addTyped (r : NodeRec) (x y : Nat) : Nat × Nat :=
  if r.t then roundF r.f 0 false (addE 0 (decodeF r.f x) (decodeF r.f y)) else ((x + y) % 2 ^ intWidth r.f, 0)
/-- The larger or the smaller of two lanes of the node's type (R268, R283, R301). -/
def pickTyped (mx : Bool) (r : NodeRec) (x y : Nat) : Nat × Nat :=
  if r.t then minMaxF r.f mx x y
  else (if mx then (if sa r.f x ≥ sa r.f y then x else y) else (if sa r.f x ≤ sa r.f y then x else y), 0)

/-- VREDADD (R301). -/
def execVredadd (r : NodeRec) (s : State) : Out := s.fireTree 0x84 r (addTyped r)
/-- VREDMAX (R301). -/
def execVredmax (r : NodeRec) (s : State) : Out := s.fireTree 0x85 r (pickTyped true r)
/-- VREDMIN (R301). -/
def execVredmin (r : NodeRec) (s : State) : Out := s.fireTree 0x86 r (pickTyped false r)

/-- Running sums from `acc`: the list of partial sums after each lane, and the flags (R302). -/
def scanGo (g : Nat → Nat → Nat × Nat) : List Nat → Nat → List Nat × Nat
  | [], _ => ([], 0)
  | x :: r, acc =>
    let y := g acc x
    let (ys, fl) := scanGo g r y.1
    (y.1 :: ys, y.2 ||| fl)
/-- The first partial sum, rounded like every other (R194, R302). DEDUCED (log entry 21). -/
def firstTyped (r : NodeRec) (x : Nat) : Nat × Nat := if r.t then roundF r.f 0 false (decodeF r.f x).toExact else (x, 0)
/-- The inclusive scan starts from lane 0; the exclusive one shifts it by one lane from +0 (R302). DEDUCED (log entry 21). -/
def scanLanes (excl : Bool) (r : NodeRec) (xs : List Nat) : List Nat × Nat :=
  match xs with
  | [] => ([], 0)
  | x :: xs =>
    let y := firstTyped r x
    let z := scanGo (addTyped r) (if excl then xs.dropLast else xs) y.1
    (if excl then 0 :: y.1 :: z.1 else y.1 :: z.1, y.2 ||| z.2)
/-- VSCAN (R302). DEDUCED (log entry 21). -/
def execVscan (r : NodeRec) (s : State) : Out :=
  s.fire 0x89 r fun i a _ _ s =>
    let w := laneW r
    let x := scanLanes (sub18 r) r ((List.range (lanesOf w)).map fun k => lane w a k)
    s.fireVal i 0x89 r true (joinLanes w x.1) x.2

end Sys2Proof.Machine
end

