-- ==== Sys2Proof/Machine/Steering.lean ====
section
/-! DEFINITION. Steering, group 0x0 (R304 to R312). -/
namespace Sys2Proof.Machine

/-- A forwarded value: bits above the element of a scalar are zero (R97). DEDUCED (log entry 22). -/
def forwarded (r : NodeRec) (a : Nat) : Nat := if r.v then a else a % 2 ^ r.data.width
/-- A payload as the result of the node: its value, NULL and poison kept, VEC by the node's V. DEDUCED (log entry 22). -/
def carried (r : NodeRec) (x : Pay) : Pay :=
  { x with val := BitVec.ofNat 512 (forwarded r x.val.toNat), vec := r.v && !x.null }
/-- A beat to one destination. -/
def beat0 (x : Pay) (i : Issue) : Beat := { pay := x, lo := i.f.lo, hi := i.f.hi, front := false, to0 := true, to1 := false }
def beat1 (x : Pay) (i : Issue) : Beat := { pay := x, lo := i.f.lo, hi := i.f.hi, front := false, to0 := false, to1 := true }
/-- Operand A of an issuing firing; a firing of a one-port form always has it. DEDUCED (log entry 22). -/
def opPay (x : Option Pay) : Pay := x.getD .mkNull
/-- Poison among the operands of the given ports stops a firing with POISON; otherwise the body goes on (R229, R306).
DEDUCED (log entry 17). -/
def State.orPoison (s : State) (i : Issue) (xs : List (Nat × Option Pay)) (body : State → State) : State :=
  match poisonOf xs with
  | some x => s.raise i (poisonTrap i.f x)
  | none => body s

/-- MOV (R307). DEDUCED (log entry 17). -/
def execMov (r : NodeRec) (s : State) : Out := s.fire 0x01 r fun i a _ _ s => s.fireVal i 0x01 r r.v (forwarded r a) 0
/-- STEER: the operand to one side, NULL to the other (R308). DEDUCED (log entry 17). -/
def execSteer (r : NodeRec) (s : State) : Out :=
  s.fireOwn 0x02 r fun i s =>
    let a := opPay i.f.a
    let b := opPay i.f.b
    if a.null || b.null then s.fireNull i 0x02 r
    else s.orPoison i [(0, i.f.a), (1, i.f.b), (2, i.f.p)] fun s =>
      let t := bit b.val.toNat 0
      let x := carried r a
      (s.setFlags i.elem i.ctx i.f.fl).emit i r 2 [beat0 (if t then x else .mkNull) i, beat1 (if t then .mkNull else x) i]
/-- MERGE: the non-NULL one of A and B, poison and all; it never raises POISON (R309). A poisoned P passes its poison on.
DEDUCED (log entry 17). -/
def execMerge (r : NodeRec) (s : State) : Out :=
  s.fireOwn 0x03 r fun i s =>
    let a := opPay i.f.a
    let b := opPay i.f.b
    let x := carried r (if a.null then b else a)
    let x := if x.null || x.pois then x else
      match poisonOf [(2, i.f.p)] with
      | some y => x.poisoned y.2
      | none => x
    (s.setFlags i.elem i.ctx (if x.null then 0 else i.f.fl)).emit i r 2 [.both x i.f.lo i.f.hi]
/-- GATE: A once B has arrived (R307). DEDUCED (log entry 17). -/
def execGate (r : NodeRec) (s : State) : Out := s.fire 0x04 r fun i a _ _ s => s.fireVal i 0x04 r r.v (forwarded r a) 0
/-- SINK accepts anything and produces nothing (R307). -/
def execSink (_r : NodeRec) (s : State) : Out := .next { s with cur := none }
/-- NULLIFY: NULL over the interval of every A; a poisoned A raises nothing (R307). -/
def execNullify (r : NodeRec) (s : State) : Out :=
  s.fireOwn 0x06 r fun i s => s.orPoison i [(2, i.f.p)] fun s => s.fireNull i 0x06 r
/-- LITE: the expanded literal over A's interval (R307). -/
def execLite (r : NodeRec) (s : State) : Out :=
  s.fire 0x07 r fun i _ _ _ s => s.fireVal i 0x07 r r.v (expandLit r.data r.v r.l) 0
/-- SEL: lane by lane by bit 0 of the predicate's lane (R310). DEDUCED (log entry 17). -/
def execSel (r : NodeRec) (s : State) : Out :=
  s.fireLanes 0x08 r r.data.width fun x y z => if bit z 0 then x else y
/-- ISNULL: pred 1 when A is NULL, 0 otherwise (R311). -/
def execIsnull (r : NodeRec) (s : State) : Out :=
  s.fireOwn 0x09 r fun i s =>
    let a := opPay i.f.a
    s.orPoison i [(0, if a.null then none else i.f.a), (2, i.f.p)] fun s =>
      s.fireVal i 0x09 r false (b2n a.null) 0
/-- VOTE3: the agreeing copy that acceptance found leaves over its own interval, a FRONT token as such (R231, R312). -/
def execVote3 (r : NodeRec) (s : State) : Out :=
  match s.cur with
  | none => .next s
  | some i =>
    .next ({ s with cur := none }.emit i r 2
      [{ pay := opPay i.f.a, lo := i.f.lo, hi := i.f.hi, front := i.f.front, to0 := true, to1 := true }])

end Sys2Proof.Machine
end

