-- ==== Sys2Proof/Machine/Intervals.lean ====
section
/-! DEFINITION. Interval forms, group 0x1 (R313 to R317). -/
namespace Sys2Proof.Machine

/-- A finite interval end (R314). -/
def clampFin (v : Int) : Nat := (min (max v 0) 0xFFFFFFFE).toNat
def clampLo (v : Int) : Nat := (min (max v 0) 0xFFFFFFFF).toNat
/-- A new end: open ends stay open unless lowered, other ends stay finite (R314). -/
def newHi (hi : Nat) (lowers : Bool) (v : Int) : Nat := if hi = infTick ∧ !lowers then infTick else clampFin v

/-- A over a new interval, or a FRONT token where that is empty (R314, R316). DEDUCED (log entry 16). -/
def overInterval (x : Pay) (lo hi : Nat) : Beat := if lo < hi then .both x lo hi else .frontier lo

/-- An interval form with its new interval from A's: NULL stays NULL and a poisoned A goes out with POIS (R314). -/
def State.fireInterval (s : State) (opc : Nat) (r : NodeRec) (g : Nat → Nat → Nat × Nat) : Out :=
  s.fireOwn opc r fun i s =>
    s.orPoison i [(2, i.f.p)] fun s =>
      let j := g i.f.alo i.f.ahi
      s.emit i r 2 [overInterval (carried r (opPay i.f.a)) j.1 j.2]

/-- ISHIFT (R314). DEDUCED (log entry 16). -/
def execIshift (r : NodeRec) (s : State) : Out :=
  s.fireInterval 0x10 r fun lo hi => (clampLo (lo + signed 32 r.l), newHi hi false (hi + signed 32 r.l))
/-- ICLIP (R314). DEDUCED (log entry 16). -/
def execIclip (r : NodeRec) (s : State) : Out :=
  s.fireInterval 0x11 r fun lo hi =>
    if sub18 r then (lo, newHi hi true (min hi r.l)) else (max lo r.l, newHi hi false hi)
/-- IWIDEN (R314). DEDUCED (log entry 16). -/
def execIwiden (r : NodeRec) (s : State) : Out :=
  s.fireInterval 0x12 r fun lo hi => if sub18 r then (lo, newHi hi false (hi + r.l)) else (lo, infTick)

/-- The pieces of an interval of length `l`: at most `n` more, the last to the end (R315). -/
def pieces (l lo hi : Nat) : Nat → List (Nat × Nat)
  | 0 => []
  | n + 1 =>
    if hi ≤ lo then []
    else if n = 0 ∨ hi ≤ lo + l then [(lo, hi)]
    else (lo, lo + l) :: pieces l (lo + l) hi n
/-- ISPLIT: the pieces leave one per cycle (R315). DEDUCED (log entry 16). -/
def execIsplit (r : NodeRec) (s : State) : Out :=
  s.fireOwn 0x13 r fun i s =>
    s.orPoison i [(2, i.f.p)] fun s =>
      s.emit i r 2 ((pieces r.l i.f.alo i.f.ahi 16).map fun j => .both (carried r (opPay i.f.a)) j.1 j.2)
/-- ILO (R316). DEDUCED (log entry 16). -/
def execIlo (r : NodeRec) (s : State) : Out := s.fire 0x14 r fun i _ _ _ s => s.fireVal i 0x14 r false i.f.alo 0
/-- IHI (R316). DEDUCED (log entry 16). -/
def execIhi (r : NodeRec) (s : State) : Out := s.fire 0x15 r fun i _ _ _ s => s.fireVal i 0x15 r false i.f.ahi 0
/-- ISTAMP: A over the interval that B holds (R316). -/
def execIstamp (r : NodeRec) (s : State) : Out :=
  s.fireOwn 0x16 r fun i s =>
    let a := opPay i.f.a
    let b := opPay i.f.b
    if b.null then s.fireNull i 0x16 r
    else s.orPoison i [(0, if a.null then none else i.f.a), (1, i.f.b), (2, i.f.p)] fun s =>
      (s.setFlags i.elem i.ctx (if a.null then 0 else i.f.fl)).emit i r 2
        [overInterval (carried r a) (b.val.toNat % 2 ^ 32) (b.val.toNat / 2 ^ 32 % 2 ^ 32)]
/-- IFRONT: A as MOV forwards it, then a FRONT token one cycle later (R317). DEDUCED (log entry 16). -/
def execIfront (r : NodeRec) (s : State) : Out :=
  s.fireOwn 0x17 r fun i s =>
    let a := opPay i.f.a
    s.orPoison i [(0, if a.null then none else i.f.a), (2, i.f.p)] fun s =>
      s.emit i r 2 [.both (carried r a) i.f.lo i.f.hi, .frontier (if sub18 r then infTick else i.f.ahi)]

end Sys2Proof.Machine
end

