-- ==== Sys2Proof/Machine/Logic.lean ====
section
/-! DEFINITION. Logic, shifts and bit fields, group 0x3 (R270 to R275). -/
namespace Sys2Proof.Machine

/-- a AND NOT b, NOT a: the low `w` bits (R263, R270). -/
def laneAndn (w x y : Nat) : Nat := x &&& (2 ^ w - 1 - y % 2 ^ w)
def laneNot (w x : Nat) : Nat := 2 ^ w - 1 - x % 2 ^ w
/-- DEDUCED (log entry 89). -/
def laneShl (w x k : Nat) : Nat := if k ≥ w then 0 else x * 2 ^ k % 2 ^ w
/-- DEDUCED (log entry 89). -/
def laneShr (w x k : Nat) : Nat := if k ≥ w then 0 else x / 2 ^ k
/-- DEDUCED (log entry 89). -/
def laneSar (w x k : Nat) : Nat := wrap w (signed w x / (2 ^ min k (w - 1) : Int))
def laneRotl (w x k : Nat) : Nat := (x * 2 ^ (k % w) + x / 2 ^ (w - k % w)) % 2 ^ w
/-- Zero bits from bit `n - 1` down; `n` for zero (R272). -/
def clz (x : Nat) : Nat → Nat
  | 0 => 0
  | n + 1 => if bit x n then 0 else 1 + clz x n
/-- Zero bits from bit `i` up, `n` bits left (R272). -/
def ctz (x i : Nat) : Nat → Nat
  | 0 => 0
  | n + 1 => if bit x i then 0 else 1 + ctz x (i + 1) n
def popcount (x : Nat) : Nat → Nat
  | 0 => 0
  | n + 1 => b2n (bit x n) + popcount x n
/-- Bit j of `w` moves to bit w - 1 - j (R272). -/
def bitrev (w x : Nat) : Nat := joinLanes 1 ((List.range w).map fun j => b2n (bit x (w - 1 - j)))

/-- POS of a field descriptor, and the effective length (R273). DEDUCED (log entry 20). -/
def descPos (d : Nat) : Nat := field d 5 0
def descLen (w d : Nat) : Nat :=
  let pos := field d 5 0
  let len := field d 12 6
  if len = 0 ∨ pos ≥ w then 0 else if pos + len > w then w - pos else len
/-- The extracted field, sign-extended with an i code (R274). -/
def laneBfx (c x d : Nat) : Nat :=
  let w := intWidth c
  let l := descLen w d
  let f := x / 2 ^ descPos d % 2 ^ l
  if !intUnsigned c && l != 0 then wrap w (signed l f) else f
/-- The field replaced by the low bits of `z` (R275). -/
def laneBfi (c x d z : Nat) : Nat :=
  let w := intWidth c
  let m := (2 ^ descLen w d - 1) * 2 ^ descPos d
  (x &&& (2 ^ w - 1 - m)) ||| (z * 2 ^ descPos d &&& m)

/-- AND (R270). -/
def execAnd (r : NodeRec) (s : State) : Out := s.fireInt 0x30 r fun _ x y _ => x &&& y
/-- OR (R270). -/
def execOr (r : NodeRec) (s : State) : Out := s.fireInt 0x31 r fun _ x y _ => x ||| y
/-- XOR (R270). -/
def execXor (r : NodeRec) (s : State) : Out := s.fireInt 0x32 r fun _ x y _ => x ^^^ y
/-- ANDN (R270). -/
def execAndn (r : NodeRec) (s : State) : Out := s.fireInt 0x33 r fun c x y _ => laneAndn (intWidth c) x y
/-- NOT (R270). -/
def execNot (r : NodeRec) (s : State) : Out := s.fireInt 0x34 r fun c x _ _ => laneNot (intWidth c) x
/-- SHL (R271). -/
def execShl (r : NodeRec) (s : State) : Out := s.fireInt 0x35 r fun c x y _ => laneShl (intWidth c) x y
/-- SHR (R271). -/
def execShr (r : NodeRec) (s : State) : Out := s.fireInt 0x36 r fun c x y _ => laneShr (intWidth c) x y
/-- SAR (R271). -/
def execSar (r : NodeRec) (s : State) : Out := s.fireInt 0x37 r fun c x y _ => laneSar (intWidth c) x y
/-- ROTL (R271). -/
def execRotl (r : NodeRec) (s : State) : Out := s.fireInt 0x38 r fun c x y _ => laneRotl (intWidth c) x y
/-- CLZ (R272). -/
def execClz (r : NodeRec) (s : State) : Out := s.fireInt 0x39 r fun c x _ _ => clz x (intWidth c)
/-- CTZ (R272). -/
def execCtz (r : NodeRec) (s : State) : Out := s.fireInt 0x3A r fun c x _ _ => ctz x 0 (intWidth c)
/-- POPC (R272). -/
def execPopc (r : NodeRec) (s : State) : Out := s.fireInt 0x3B r fun c x _ _ => popcount x (intWidth c)
/-- BREV (R272). -/
def execBrev (r : NodeRec) (s : State) : Out := s.fireInt 0x3E r fun c x _ _ => bitrev (intWidth c) x
/-- BFX: the one descriptor on B serves every lane (R273, R274). -/
def execBfx (r : NodeRec) (s : State) : Out :=
  s.fire 0x3C r fun i a b _ s =>
    s.fireVal i 0x3C r r.v (mapLanes (intWidth r.f) r.v fun k => laneBfx r.f (lane (intWidth r.f) a k) b) 0
/-- BFI (R273, R275). -/
def execBfi (r : NodeRec) (s : State) : Out :=
  s.fire 0x3D r fun i a b c s =>
    s.fireVal i 0x3D r r.v
      (mapLanes (intWidth r.f) r.v fun k => laneBfi r.f (lane (intWidth r.f) a k) b (lane (intWidth r.f) c k)) 0

end Sys2Proof.Machine
end

