-- ==== Sys2Proof/Machine/Perform.lean ====
section
/-! DEFINITION. STORE_PERFORM: what has issued and waits, performs (R172, R335, R351, R373); and the issue of one firing. -/
namespace Sys2Proof.Machine

/-- A held form performs, by its own meaning. -/
def State.performHeld (h : HeldOp) (s : State) : State :=
  match h.instr with
  | .syswr r => s.performSyswr h r
  | .tapset r => s.performTapset h r
  | .xcopy r => s.performXcopy h r
  | .nmred r => s.performNmred h r
  | .rowact _ | .rowcon _ | .rowput _ | .rowpre _ => State.performRow h s
  | .qput r => s.performQput false h r
  | .qputNb r => s.performQput true h r
  | .argw _ => s.performArgw h
  | .mwload r => s.performMwload h r
  | .mmac r => s.performMmac h r
  | .mdrain r => s.performMdrain h r
  | .macc r => s.performMacc h r
  | .mrel r => s.performMrel h r
  | .mchk r => s.performMchk h r
  | .fctb r => s.performFctb h r
  | .fcts r => s.performFcts h r
  | .fctn r => s.performFctn h r
  | .fctsv r => s.performFctsv h r
  | .fcte r => s.performFcte h r
  | .redput r => s.performRedput h r
  | .coll r => s.performColl h r
  | .sbind r => s.performSbind h r
  | .launch r => s.performLaunch h r
  | .collw _ => s.performCollw h
  | _ => if h.isMem then s.startHeldMem h else s

/-- Forms that need not wait for their activation to become the oldest (R328, R354). -/
def readsEarly : Instr → Bool
  | .sbind _ | .launch _ => true
  | _ => false
/-- What waits under a number performs: an access that may (R172 to R180), a memory node that waited for its page walk, or a held form
whose activation is the oldest of its thread or has committed. DEDUCED (log entry 41). -/
def State.performId (s : State) (id parts : Nat) : State :=
  match s.mem.acc.find? fun x => x.id == id with
  | some x => s.perform x parts
  | none =>
    match s.fab.held.find? fun h => h.id == id with
    | some h => if (h.isMem || s.mayAct h.iss.f.aid || readsEarly h.instr) && s.mayTake h && !s.halted h.iss then s.performHeld h else s
    | none => s

/-- STORE_PERFORM. -/
def execStorePerform (s : State) : Out :=
  match s.inp with
  | some (.storePerform id parts) => .next ({ s with inp := none }.performId id parts)
  | _ => .next s

/-! ### Issue (R115, R357) -/

/-- What an element's issue slot brings: the instruction to run and the state it runs in; a stream's waiting fault is raised in
its place (R357). -/
inductive Slotted where
  | idle (s : State)
  | run (i : Instr) (s : State)
  | bad (f : Fault)

/-- The issue slot of element `e`. Of the firings that replay repeats, those of memory and the engines issue no request anew, and those of
the control forms have taken effect (R191, R223). DESIGN CHOICE (log entry 1); DEDUCED (log entries 49, 87). -/
def State.issueAt (s : State) (e : Nat) : Slotted :=
  match s.issueSlot e with
  | none => .idle s
  | some (c, f, s) =>
    match s.instrAt e c f.node with
    | .error _ => .bad (.undecodableRecord e c f.node)
    | .ok ins =>
      match ins.node? with
      | none => .bad (.undecodableRecord e c f.node)
      | some (opc, r) =>
        if f.again && decide (0x90 ≤ opc) then .idle { s with cur := none } else
        match s.raiseStream { elem := e, ctx := c, f := f } opc r with
        | some s => .idle { s with cur := none }
        | none => .run ins s

/-- The host stores bytes into its own memory, good or of the kind that its reads answer with poisoned TLPs (R44). DESIGN CHOICE
(log entries 1, 73). -/
def State.hostStore (s : State) (bus : Nat) (bs : List Byte) (pois : Bool) : State :=
  s.setMem { s.mem with host := writeCells s.mem.host bus bs, hostPois := markPois s.mem.hostPois bus bs.length pois }

/-! ### A program's first instruction -/

/-- The plane, task, thread and activation that `withFetchWord` sets up: one bed, one block, context 0 of element 0.
DESIGN CHOICE (log entry 40). -/
def fetchPlane : Plane := { common := List.replicate 8 0 ++ bytesOf 4 0 ++ List.replicate 0x90 0, images := [] }
def fetchLaunch : Launch := { bytes := List.replicate 128 0, src := .ethernet 0, prio := 0 }
/-- DESIGN CHOICE (log entry 40). -/
def fetchTask : Task :=
  { asid := 0, prio := 0, ox := 0, oy := 0, wb := 1, hb := 1, launchPlane := 0,
    planes := [{ plane := 0, ctx := 0, used := 0, log := [], table := fetchPlane }], logs := [], launch := fetchLaunch, reserve := [], estUs := 0, estAt := 0, estWas := 0, estWasAt := 0, estCyc := 0,
    placedAt := 0, quantumAt := 0, past := false, phase := .running, groups := [], handler := 0, deleg := 0, waitTmo := 0, xcErr := 0,
    collTmo := 0, useClock := 0 }
/-- DESIGN CHOICE (log entry 40). -/
def fetchThread : Thread :=
  { tid := 0, next := none, started := true, acts := [0], carry := [], retStack := [], recs := [], resume := 0, inh := false,
    lodge := false, trapped := none, kept := none, lodgeKept := none, useKept := none, yieldUntil := none, acquired := false }
/-- DESIGN CHOICE (log entry 40). -/
def fetchAct : Act :=
  { thread := 0, tid := 0, ctx := 0, plane := 0, block := 0, iter := 0, committed := false, dead := false, fired := [], carry := [],
    base := [], branch := none, retStack := [], trap := none, effects := [], performed := [], kept := [], handler := false }
/-- The firing at hand: every operand a scalar 0 over all time. DESIGN CHOICE (log entry 40). -/
def fetchFiring : Firing :=
  { aid := 0, node := 0, lo := 0, hi := infTick, alo := 0, ahi := infTick, fl := 0, front := false, a := some (.scalar 0),
    b := some (.scalar 0), p := some (.scalar 0), pins := [], trig := 0, since := 0, again := false }

/-- The record with bits `w` in node 0 of context 0 of element 0, a firing of it ready, and the element's issue slot next.
DESIGN CHOICE (log entry 40). -/
def State.placeWord (s : State) (w : Nat) : State :=
  let s := s.setFab { s.fab with
    store := writeCells s.fab.store 0 (bytesOf 12 w)
    ctxs := Tab.set s.fab.ctxs 0 { CtxSt.new with owner := some 0, armed := true, ready := [fetchFiring] } }
  let s := s.setTsk { s.tsk with
    tasks := Tab.set s.tsk.tasks 0 fetchTask, threads := Tab.set s.tsk.threads 0 fetchThread, acts := Tab.set s.tsk.acts 0 fetchAct,
    nextTid := max 1 s.tsk.nextTid, nextAid := max 1 s.tsk.nextAid }
  let s := s.setQue { s.que with planes := Tab.set s.que.planes 0 fetchPlane }
  { s with agenda := .issue 0 :: s.agenda, cycles := s.cycles + 1, busy := [], pow := { s.pow with throttle := 0 } }

end Sys2Proof.Machine
end

