-- ==== Sys2Proof/Machine/Probes.lean ====
section
/-! DEFINITION. Wait-for edges and probes (R80, R92, R118 to R120, R223, R346, R379). -/
namespace Sys2Proof.Machine

/-! ### Units (R118, R119) -/

/-- Descriptors: the kind in bits 31:29, then the number. A barrier's number is its task's times 256 plus its group's. -/
def unitCtx (k : Nat) : Nat := k
/-- DEDUCED (log entry 48). -/
def unitSlot (k : Nat) : Nat := 2 ^ 29 + k
def unitThread (n : Nat) : Nat := 2 * 2 ^ 29 + n
/-- DEDUCED (log entry 48). -/
def unitBarrier (tid g : Nat) : Nat := 3 * 2 ^ 29 + (tid * 256 + g) % 2 ^ 29

/-- A blocked unit: its wait-for edges, whether it sends probes of its own, and where DEADLOCK would be raised. -/
structure Blocked where
  edges : List Nat
  sends : Bool
  at_ : Option (Nat × Nat × Nat)
  tid : Nat
  thread : Nat
  deriving DecidableEq, Repr

/-- The element context whose input latch refuses a token on its way to `target`; a full stream port is no unit. -/
def State.refuser (s : State) (e c target node : Nat) : Option Nat :=
  let out := wayOut e target
  let n := neighbour e out
  if n = target ∧ 64 ≤ node then none
  else if n = target then (Tab.find s.fab.latches (n * 8 + sideIn out)).map fun l => ctxKey n l.tok.ctx
  else if (s.fab.net.filter fun f => f.at_ == n && f.dir == sideIn out).length < Config.routerDepth + 1 then none
  else some (ctxKey target c)
/-- An element context blocked on its output latch. -/
def State.latchBlocked (s : State) (e c : Nat) : Option Blocked :=
  (s.ctx e c).latch.bind fun l =>
    match l.beats with
    | [] => none
    | b :: _ =>
      let es := (s.beatTargets e c l b).filterMap fun t => t.2.bind fun x => s.refuser e c x.1 x.2.1
      if l.waits || es.isEmpty || decide (s.cycles < l.readyAt) then none
      else some { edges := es, sends := true, at_ := some (l.aid, e, l.node), tid := 0, thread := 0 }

/-- The element contexts that produce the edges into the other ports of a node, its stream ports' FIFO elements among them (R118,
R352). -/
def State.partners (s : State) (tid : Nat) (c e n : Nat) (p : PortName) : List Nat :=
  match s.task? tid with
  | none => []
  | some t =>
    match s.planeAt t c with
    | none => []
    | some pl =>
      let feeds := fun (e' : Nat) (d : Dest) => (s.destElem e' c d).any fun x => x.1 == e && x.2.1 == n && x.2.2 != p
      let nodes := (planeNodes t pl).filterMap fun (e', n', _) =>
        match s.recAt e' c n' with
        | none => none
        | some (_, r) => if [r.dst0, r.dst1].any (feeds e') then some (ctxKey e' c) else none
      let streams := (List.range (pl.secCnt 3)).filterMap fun k =>
        let x := pl.stream k
        let e' := t.elem (spFx x) (spFy x)
        if !spWrite x && !spArray x && feeds e' (spDst x) then some (ctxKey e' c) else none
      (nodes ++ streams).eraseDups
/-- A token that its node refuses under STALL, for want of room in its matching store (R111). A node that a cut has stopped refuses none. -/
def State.stalls (s : State) (tid e : Nat) (t : Token) : Bool :=
  (s.ctx e t.ctx).armed && !((s.cutOf tid).any fun k => k.frozen.contains (cutKey e t.ctx t.node)) && s.seqSay t != .duplicate && decide (s.pendingIn e t.ctx < 32) &&
    (match (s.actFor tid t.ctx t.iter).filter fun aid => s.hasFrame e aid, s.recAt e t.ctx t.node with
     | some aid, some (opc, r) => !(opc == 0xE6 && t.port == PortName.b) && (s.matchTok tid aid e opc r t false).isNone
     | _, _ => false)
/-- An element context with STALL tokens in its input latches: it waits for the partners of each. DEDUCED (log entry 48). -/
def State.stallBlocked (s : State) (e c : Nat) : Option Blocked :=
  (s.ctx e c).owner.bind fun tid =>
    let ls := (List.range 5).filterMap fun d => (Tab.find s.fab.latches (e * 8 + d)).filter fun l =>
      l.tok.ctx == c && decide (l.since < s.cycles) && s.stalls tid e l.tok
    ls.head?.map fun l =>
      { edges := (ls.flatMap fun x => s.partners tid c e x.tok.node x.tok.port).eraseDups,
        sends := true, at_ := (s.actFor tid c l.tok.iter).map fun a => (a, e, l.tok.node), tid := tid, thread := 0 }
/-- An element context whose FCTN waits for the other members of its group (R379). -/
def State.groupBlocked (s : State) (e c : Nat) : Option Blocked :=
  (s.bed (bedOf e)).joining.bind fun (size, first, i) =>
    if i.elem ≠ e ∨ i.ctx ≠ c then none else
    (s.issTask i).map fun (tid, t) =>
      let ms := (List.range size).map fun g => bedAtRow (bedOf e) (t.oy + first + g)
      { edges := (ms.filter fun m => (s.bed m).joining.isNone).map fun m => ctxKey ((bedElems m).headD 0) c, sends := true,
        at_ := some (i.f.aid, e, i.f.node), tid := tid, thread := 0 }

/-! ### Threads and slots -/

/-- A held QPUT that has its packet and whose ring is full (R92). -/
def State.qputParked (s : State) (h : HeldOp) : Option Nat :=
  match h.instr, h.packet with
  | .qput r, some (ext, _) => if s.ringFull (r.l % 1024) ext then some (r.l % 1024) else none
  | _, _ => none
def State.heldOf (s : State) (n : Nat) : List HeldOp := s.fab.held.filter fun h => s.threadOf h.iss.f.aid == n
/-- The task has an XCOPY, NMRED, stream write or collective in flight (R346). -/
def State.writesInFlight (s : State) (tid : Nat) : Bool :=
  (s.eng.copies.any fun c => c.tid == tid) || (s.eng.nmQueue.any fun q => q.2.any fun c => c.tid == tid)
    || (s.eng.bindings.any fun b => b.tid == tid && b.write) || s.inRound tid
def others (s : State) (tid n : Nat) : List Nat := (s.threadsOf tid).filter fun m => m != n

/-- An activation has a firing that is ready or pending (R344). -/
def State.hasFirings (s : State) (aid : Nat) : Bool :=
  (s.fab.ctxs.any fun x => (x.2.ready ++ x.2.waiting).any fun f => f.aid == aid)
    || s.fab.nodes.any fun x => x.1 / 1048576 == aid && !x.2.pend.isEmpty
/-- A thread whose oldest activation has nothing but waiting WAITAs; a party outside the task may end one of wider scope, and then the
thread is part of no deadlock (R344, R346). DEDUCED (log entry 48). -/
def State.waitaBlocked (s : State) (tid n : Nat) : Option Blocked :=
  (s.thread? n).bind fun th => th.acts.head?.bind fun aid =>
    let ws := s.mem.watches.filter fun w => w.iss.f.aid == aid && w.first != 0
    if s.hasFirings aid then none else
    ws.head?.map fun w =>
      let ok := (ws.all fun x => decide (x.node.scope ≤ 1)) && !s.writesInFlight tid
      { edges := if ok then (others s tid n).map unitThread else [], sends := ok,
        at_ := some (aid, w.iss.elem, w.iss.f.node), tid := tid, thread := n }
/-- The members of a group that have not arrived. -/
def Group.missing (g : Group) : List Nat := g.members.filter fun m => !(g.arrived.any fun y => y.1 == m)
/-- A GBAR of a thread that has arrived (R326). -/
def State.gbarBlocked (s : State) (tid n : Nat) (h : HeldOp) : Option Blocked :=
  (s.task? tid).bind fun t =>
    match h.instr with
    | .gbar r =>
      let x := t.group (r.l % 256)
      if x.arrived.any fun y => y.2 == h.id then
        some { edges := x.missing.map unitThread, sends := true,
               at_ := some (h.iss.f.aid, h.iss.elem, h.iss.f.node), tid := tid, thread := n }
      else none
    | _ => none
def State.qputBlocked (s : State) (tid n : Nat) (h : HeldOp) : Option Blocked :=
  (s.qputParked h).map fun q =>
    { edges := (s.queueSlot q).toList.map unitSlot, sends := true, at_ := some (h.iss.f.aid, h.iss.elem, h.iss.f.node), tid := tid,
      thread := n }
/-- A thread that waits for a context to drop its next plane into (R80). DEDUCED (log entry 48). -/
def State.planeBlocked (s : State) (tid n : Nat) : Option Blocked :=
  (s.thread? n).bind fun th => (s.task? tid).bind fun t => th.next.bind fun (p, _) =>
    if t.planes.any fun r => r.plane == p then none else
    (s.plane? p).bind fun pl =>
      if (s.dropSite tid t pl).isSome then none else
      let es := ((s.tsk.acts.filter fun a => a.2.tid == tid && a.2.thread != n).map fun a => unitThread a.2.thread).eraseDups
      some { edges := es, sends := true, at_ := th.acts.getLast?.map fun a => (a, 0, 0), tid := tid, thread := n }
/-- A unit that is blocked in several ways waits along the edges of each, and names the first that sends probes as where DEADLOCK is raised
(R118). -/
def joinBlocked (xs : List Blocked) : Option Blocked :=
  ((xs.find? (·.sends)) <|> xs.head?).map fun b => { b with edges := (xs.flatMap (·.edges)).eraseDups }
/-- A thread with all its waits: QPUT, GBAR, WAITA, and for a plane (R80, R92, R118). -/
def State.threadBlocked (s : State) (n : Nat) : Option Blocked :=
  (s.thread? n).bind fun th =>
    joinBlocked ((s.heldOf n).filterMap (s.qputBlocked th.tid n) ++ (s.heldOf n).filterMap (s.gbarBlocked th.tid n)
      ++ (s.waitaBlocked th.tid n).toList ++ (s.planeBlocked th.tid n).toList)

/-- A thread that is parked, and one that can run (R92). -/
def State.runnable (s : State) (n : Nat) (th : Thread) : Bool :=
  !th.lodge && (th.next.isSome || !th.acts.isEmpty) && (s.threadBlocked n).isNone
def State.threadsOfAsid (s : State) (asid : Nat) : List (Nat × Thread) :=
  s.tsk.threads.filter fun x => ((s.task? x.2.tid).map (·.asid)) == some asid
/-- A slot whose head launch is held on a semaphore; it forwards probes while no thread of that ASID can run, and sends none of
its own: by the example of R92 the parked issuer, whose descriptor is higher, raises DEADLOCK. DEDUCED (log entry 48). -/
def State.slotBlocked (s : State) (k : Nat) : Option Blocked :=
  (s.sch.held.find? fun h => h.placeable.isNone && (match h.launch.src with
    | .slot j _ => j == k
    | _ => false)).bind fun h =>
    let ths := s.threadsOfAsid h.launch.asid
    if ths.any fun x => s.runnable x.1 x.2 then none else
    some { edges := (ths.filter fun x => (s.threadBlocked x.1).isSome).map fun x => unitThread x.1, sends := false, at_ := none,
           tid := 0, thread := 0 }
/-- A barrier that is partly arrived. No edge leads to a barrier, so its probes never come back to it. -/
def State.barrierBlocked (s : State) (k : Nat) : Option Blocked :=
  (s.task? (k / 256)).bind fun t =>
    let x := t.group (k % 256)
    if x.arrived.isEmpty then none else
    some { edges := x.missing.map unitThread, sends := true, at_ := none, tid := k / 256, thread := 0 }

/-- A unit, if it is blocked. DEDUCED (log entry 48). -/
def State.blocked (s : State) (u : Nat) : Option Blocked :=
  let n := u % 2 ^ 29
  match u / 2 ^ 29 with
  | 0 => joinBlocked ([s.latchBlocked (n / 4) (n % 4), s.stallBlocked (n / 4) (n % 4), s.groupBlocked (n / 4) (n % 4)].filterMap id)
  | 1 => s.slotBlocked n
  | 2 => s.threadBlocked n
  | _ => s.barrierBlocked n

/-! ### Probes (R119, R120) -/

/-- ERR_PROBE.DELAY (R120). -/
def State.probeDelay (s : State) : Nat := max 256 s.err.delay.toNat
/-- Fabric cycles that a probe takes from one unit to another: its hops between element contexts, and one where the spec gives a unit no place.
DESIGN CHOICE (log entry 48). -/
def probeHops (u v : Nat) : Nat := if u < 2 ^ 29 ∧ v < 2 ^ 29 then max 1 (hops (u / 4) (v / 4)) else 1
/-- Send probes along the edges of unit `u`. DEDUCED (log entry 48). -/
def State.sendProbes (s : State) (origin u : Nat) (path edges : List Nat) : State :=
  s.setErr { s.err with probes := s.err.probes ++ edges.map fun e =>
    { origin := BitVec.ofNat 32 origin, goal := BitVec.ofNat 32 e, path := path.map fun x => BitVec.ofNat 32 x, due := s.cycles + probeHops u e } }

/-- Everything that may be a blocked unit. -/
def State.waitUnits (s : State) : List Nat :=
  (s.fab.ctxs.map fun x => unitCtx x.1)
    ++ (s.sch.held.filterMap fun h =>
      match h.launch.src with
      | .slot k _ => some (unitSlot k)
      | _ => none)
    ++ (s.tsk.threads.map fun x => unitThread x.1)
    ++ s.tsk.tasks.flatMap fun x => x.2.groups.map fun g => unitBarrier x.1 g.1
/-- A unit of an element that replays: the cycles do not count toward DELAY (R223). -/
def State.unitReplays (s : State) (u : Nat) : Bool := decide (u < 2 ^ 29) && (Tab.getD s.fab.errs (u / 4) .new).replay
/-- A cycle ends: each unit that is blocked has been so for one cycle more, and the count of any other is gone (R119, R223). -/
def State.noteBlocked (s : State) : State :=
  s.setErr { s.err with blockedFor := s.waitUnits.foldl (fun t u =>
    if (s.blocked u).isNone then t
    else Tab.set t u (Tab.getD s.err.blockedFor u 0 + b2n (!s.unitReplays u))) [] }

/-- DEADLOCK has been raised at the activation where a unit would raise it, and is not yet taken. -/
def State.deadlocked (s : State) (b : Blocked) : Bool :=
  ((b.at_.bind fun x => s.act? x.1).bind (·.trap)).any fun r => r.code == trapDeadlock
/-- PROBE_SEND: a unit that has stayed blocked for DELAY cycles, and again after every further DELAY (R119). DEDUCED (log entry 48). -/
def execProbeSend (s : State) : Out :=
  match s.inp with
  | some (.probeSend unit) =>
    let s := { s with inp := none }
    let u := unit.toNat
    match s.blocked u with
    | none => .next s
    | some b =>
      if !b.sends || s.deadlocked b || decide (Tab.getD s.err.blockedFor u 0 < s.probeDelay) then .next s
      else .next ((s.setErr { s.err with blockedFor := Tab.set s.err.blockedFor u 0 }).sendProbes u u [u] b.edges)
  | _ => .next s

/-- DEADLOCK is raised at the origin's activation, with the path (R120). A thread that waits for a plane has no activation of its
own in flight: the Lodge serves its trap. DEDUCED (log entry 48). -/
def State.deadlock (s : State) (b : Blocked) (path : List W32) : State :=
  let t : Trap := { code := trapDeadlock, info := BitVec.ofNat 64 path.length, path := path.take 16 }
  let s := s.setErr { s.err with deadlocks := BitVec.ofNat 32 (satTo 32 (s.err.deadlocks.toNat + 1)) }
  match b.at_ with
  | some (aid, e, n) => s.raiseAt aid e n t
  | none =>
    let r := { s.trapRec s.tsk.nextAid 0 0 t with tid := b.tid, thread := b.thread, asid := ((s.task? b.tid).map (·.asid)).getD 0 }
    s.setTsk { s.tsk with lodgeQueue := s.tsk.lodgeQueue ++ [r] }

/-- A unit has a probe of its own on its way (R119). -/
def State.probing (s : State) (u : W32) : Bool := s.err.probes.any fun p => p.origin == u
/-- A unit of the path that sends probes of its own is lower than the origin: DEADLOCK for this cycle of waits is that unit's to raise (R119). -/
def State.lowerOn (s : State) (p : Probe) : Bool :=
  p.path.any fun u => decide (u.toNat < p.origin.toNat) && (s.blocked u.toNat).any (·.sends)
/-- A probe arrives (R119). Of a cycle of waits only the lowest unit that sends probes raises DEADLOCK. DEDUCED (log entry 48). -/
def State.probeArrives (s : State) (p : Probe) : State :=
  match s.blocked p.goal.toNat with
  | none => s
  | some b =>
    if p.goal = p.origin then (if s.lowerOn p then s else s.deadlock b p.path)
    else if s.probing p.goal && decide (p.goal.toNat < p.origin.toNat) then s
    else s.sendProbes p.origin.toNat p.goal.toNat (p.path.map (·.toNat) ++ [p.goal.toNat]) b.edges
/-- PROBE_ARRIVE, once the probe has gone its hops (R119). DEDUCED (log entry 48). -/
def execProbeArrive (s : State) : Out :=
  match s.inp with
  | some (.probeArrive k) =>
    let s := { s with inp := none }
    match s.err.probes[k]? with
    | none => .next s
    | some p => if s.cycles < p.due then .next s else .next ((s.setErr { s.err with probes := listDrop s.err.probes k }).probeArrives p)
  | _ => .next s

end Sys2Proof.Machine
end

