-- ==== Sys2Proof/Machine/Spaces.lean ====
section
/-! DEFINITION. The admin commands on address spaces, collective groups and registers (R67, R167, R168, R385). -/
namespace Sys2Proof.Machine

/-! ### What the Lodge may take (R67) -/

/-- Two ranges of bytes meet. -/
def meets (a n b m : Nat) : Bool := decide (a < b + m) && decide (b < a + n)
/-- Local memory that neither ALLOC nor a table holds, with a bank behind it. DESIGN CHOICE (log entry 82). -/
def State.freeRange (s : State) (a n : Nat) : Bool :=
  decide (a + n ≤ holeBase) && (decide (outerBase ≤ a) || decide (a + n ≤ s.mem.capacity))
    && s.que.alloc.all (fun (b, m, _) => !meets a n b m) && s.que.tables.all (fun (b, m, _) => !meets a n b m)
/-- Free, aligned ranges of one size that do not meet each other. -/
def State.freeRanges (s : State) (size : Nat) : List Nat → Bool
  | [] => true
  | a :: rest => a % size == 0 && s.freeRange a size && !rest.contains a && State.freeRanges s size rest

/-! ### Page tables (R167, R168) -/

/-- Level of the leaf of a page size: 1 GiB, 2 MiB, 64 KiB. -/
def leafLevel (size : Nat) : Option Nat :=
  if size = 2 ^ 30 then some 1 else if size = 2 ^ 21 then some 2 else if size = 2 ^ 16 then some 3 else none
def State.entry (s : State) (a : Nat) : Nat × State :=
  let (bs, _, s) := s.readAt .global a 8
  (ofBytes bs, s)
def State.setEntry (s : State) (a x : Nat) : State := s.writeAt .global a (bytesOf 8 x) false
/-- Entries of a table at a level. -/
def tableEntries (lvl : Nat) : Nat := tableSize lvl / 8

/-- Whether a page is mapped anywhere under a table at `lvl`, `n` levels left. -/
def State.anyMapped (s : State) (table lvl : Nat) : Nat → Bool
  | 0 => false
  | n + 1 => (List.range (tableEntries lvl)).any fun i =>
      match entryKind (s.entry (table + 8 * i)).1 lvl with
      | .page _ => true
      | .table t => State.anyMapped s t (lvl + 1) n
      | .bad f => f.code == trapPteBad

/-- The leaf entry of a page at `va` on its level, for a walk from a table at `lvl`: none where a page is mapped there already.
Missing tables are taken from `tables` and entered. -/
def State.reachLeaf (s : State) (asid va table lvl leaf : Nat) (tables : List Nat) : Nat → Option (Nat × List Nat × State)
  | 0 => none
  | n + 1 =>
    let at_ := table + 8 * walkIndex va lvl
    let (x, s) := s.entry at_
    if lvl = leaf then
      match entryKind x lvl with
      | .bad f => if f.code = trapPageFault then some (at_, tables, s) else none
      | .page _ => none
      | .table t => if s.anyMapped t (lvl + 1) 3 then none else some (at_, tables, s)
    else
      match entryKind x lvl with
      | .page _ => none
      | .table t => State.reachLeaf s asid va t (lvl + 1) leaf tables n
      | .bad f =>
        if f.code ≠ trapPageFault then none else
        match tables with
        | [] => none
        | t :: rest =>
          let size := tableSize (lvl + 1)
          if t % size ≠ 0 ∨ !s.freeRange t size then none else
          let s := s.setQue { s.que with tables := Tab.set s.que.tables t (size, asid) }
          let s := (s.writeAt .global t (List.replicate size 0) false).setEntry at_ (1 + t)
          State.reachLeaf s asid va t (lvl + 1) leaf rest n

/-- A page is mapped at `va`, or it lies under or over one (R67). -/
def State.mappedAt (s : State) (va table lvl leaf : Nat) : Nat → Bool
  | 0 => false
  | n + 1 =>
    match entryKind (s.entry (table + 8 * walkIndex va lvl)).1 lvl with
    | .page _ => true
    | .bad f => f.code == trapPteBad
    | .table t => if lvl = leaf then s.anyMapped t (lvl + 1) 3 else State.mappedAt s va t (lvl + 1) leaf n

def State.tableRoot (s : State) (asid : Nat) : Nat := (Tab.getD s.mem.trRoot asid (false, 0)).2.toNat * 65536
/-- A leaf entry (R168). -/
def leafEntry (m : MapArgs) (pa : Nat) : Nat :=
  3 + 4 * b2n m.w + 24 * b2n m.ad + pa + 2 ^ 48 * m.fmta.toNat + 2 ^ 52 * m.geom.toNat

/-! ### MAP (R67) -/

/-- A page that MAP may name: in the Pergola, an outer stack or a domain memory window. DESIGN CHOICE (log entry 82). -/
def State.nameable (s : State) (pa size : Nat) : Bool :=
  decide (pa + size ≤ s.mem.capacity) || (decide (outerBase ≤ pa) && decide (pa + size ≤ holeBase))
    || (decide (domainBase ≤ pa) && decide (pa + size ≤ launchBase))
/-- The operands of MAP are good (R67, R168). -/
def State.mapOk (s : State) (m : MapArgs) : Bool :=
  match leafLevel m.psize with
  | none => false
  | some leaf =>
    s.asidOk m.asid && m.va % m.psize == 0 && decide (m.va + m.count * m.psize ≤ 2 ^ 52)
      && m.fmta != 15 && (m.geom == 0 || (7 ≤ m.fmta.toNat && m.fmta.toNat ≤ 10))
      && (m.alloc || (m.pa % m.psize == 0 && (List.range m.count).all fun i => s.nameable (m.pa + i * m.psize) m.psize))
      && (List.range m.count).all fun i => !s.mappedAt (m.va + i * m.psize) (s.tableRoot m.asid) 0 leaf 4
/-- Enter the pages at `pas` from `va` on; none where the tables given do not suffice. DESIGN CHOICE (log entry 82). -/
def State.mapPages (s : State) (m : MapArgs) (leaf va : Nat) (tables : List Nat) : List Nat → Option State
  | [] => some s
  | pa :: rest =>
    match s.reachLeaf m.asid va (s.tableRoot m.asid) 0 leaf tables 4 with
    | none => none
    | some (at_, tables, s) => State.mapPages (s.setEntry at_ (leafEntry m pa)) m leaf (va + m.psize) tables rest
/-- The Lodge takes the pages for ALLOC, and zeroes them (R67, R69). -/
def State.grant (s : State) (m : MapArgs) : State :=
  (m.pages.take m.count).foldl (fun s pa =>
    (s.setQue { s.que with alloc := Tab.set s.que.alloc pa (m.psize, m.asid) }).writeAt .global pa (List.replicate m.psize 0) false) s
/-- Drop the cached translations of an ASID over a range, as TR_INV does (R170). -/
def State.invRange (s : State) (asid va n : Nat) : State :=
  s.invalidate (fun t => t.asid == asid && meets t.va t.size va n) fun a => a == asid
/-- The Lodge need not wait for the tables of an ASID over `count` pages from `va` (R161, R163). -/
def State.tablesFree (s : State) (asid va psize count : Nat) : Bool := (List.range count).all fun i => s.walkFree asid (va + i * psize)

/-- A MAP or UNMAP completes once DONE of its invalidation is set; the pages that it gives back are free then (R67, R170). -/
def State.endInval (s : State) (v : Inval) : State :=
  if !s.invDone v.mark then s else
  (s.setQue { s.que with invals := s.que.invals.filter fun w => w.via != v.via || w.op != v.op
                         alloc := s.que.alloc.filter fun x => !v.pages.contains (x.1, x.2.2) }).finishCmd v.via v.op 0 0
/-- The entries of a MAP or UNMAP are written and invalidated: it waits for DONE. -/
def State.startInval (s : State) (via : Via) (op : Nat) (pages : List (Nat × Nat)) : State :=
  let v : Inval := { via := via, op := op, mark := s.mem.trMark, pages := pages }
  (s.setQue { s.que with invals := s.que.invals ++ [v] }).endInval v
/-- The command of this kind that waits for DONE. -/
def State.inval? (s : State) (via : Via) (op : Nat) : Option Inval := s.que.invals.find? fun v => v.via == via && v.op == op

/-- Whether a page lies where the location operand says (R67). -/
def AllocFrom.holds : AllocFrom → Nat → Bool
  | .pergola, pa => decide (pa < outerBase)
  | .outer q, pa => decide (outerBase ≤ pa) && stackOf pa / 2 == q
  | .either, _ => true
/-- MAP. The pages and tables that the Lodge takes are its choice among free memory; fewer than are needed say that no more is
free. It waits for a remap and for open rows in its way (R161, R163), and completes once DONE is set (R67, R170). -/
def State.mapCmd (s : State) (via : Via) (m : MapArgs) : State :=
  if let some v := s.inval? via 10 then s.endInval v else
  if !s.tablesFree m.asid m.va m.psize m.count || !(m.tables.all fun t => s.rangeFree t 65536)
      || m.alloc && !(m.pages.take m.count).all fun p => s.rangeFree p m.psize then s else
  if !s.mapOk m then s.finishCmd via 10 2 0 else
  match leafLevel m.psize with
  | none => s
  | some leaf =>
    if m.alloc && decide (m.pages.length < m.count) then s.finishCmd via 10 3 0
    else if m.alloc && !(s.freeRanges m.psize (m.pages.take m.count) && (m.pages.take m.count).all m.from_.holds) then s
    else
      let s1 := if m.alloc then s.grant m else s
      let pas := if m.alloc then m.pages.take m.count else (List.range m.count).map fun i => m.pa + i * m.psize
      match s1.mapPages m leaf m.va m.tables pas with
      | none => s.finishCmd via 10 3 0
      | some s2 => (s2.invRange m.asid m.va (m.count * m.psize)).startInval via 10 []
/-- MAP. -/
def execMap (s : State) : Out :=
  match s.inp with
  | some (.map via m) =>
    let s := { s with inp := none }
    if s.served via 10 then .next (s.mapCmd via m) else .next s
  | _ => .next s

/-! ### UNMAP (R67) -/

/-- The leaf entry of a page of one size at `va`: its address and the page's. -/
def State.leafAt (s : State) (va table lvl leaf : Nat) : Nat → Option (Nat × Nat)
  | 0 => none
  | n + 1 =>
    let at_ := table + 8 * walkIndex va lvl
    match entryKind (s.entry at_).1 lvl with
    | .page pa => if lvl = leaf then some (at_, pa) else none
    | .table t => if lvl = leaf then none else State.leafAt s va t (lvl + 1) leaf n
    | .bad _ => none
/-- The leaf entries of all pages of the command; none where one is not mapped. -/
def State.leaves (s : State) (asid va psize leaf : Nat) : Nat → Option (List (Nat × Nat))
  | 0 => some []
  | n + 1 =>
    match s.leafAt va (s.tableRoot asid) 0 leaf 4 with
    | none => none
    | some x => (State.leaves s asid (va + psize) psize leaf n).map fun r => x :: r
/-- UNMAP clears the entries and invalidates; it completes, and pages of ALLOC return to the free pool, once DONE is set (R67, R170). -/
def State.unmapCmd (s : State) (via : Via) (asid va psize count : Nat) : State :=
  if let some v := s.inval? via 11 then s.endInval v else
  if !s.tablesFree asid va psize count then s else
  match leafLevel psize with
  | none => s.finishCmd via 11 2 0
  | some leaf =>
    if !s.asidOk asid || va % psize != 0 || decide (2 ^ 52 < va + count * psize) then s.finishCmd via 11 2 0 else
    match s.leaves asid va psize leaf count with
    | none => s.finishCmd via 11 2 0
    | some xs =>
      let s := xs.foldl (fun (s : State) x => s.setEntry x.1 0) s
      (s.invRange asid va (count * psize)).startInval via 11 (xs.map fun x => (x.2, asid))
/-- UNMAP. -/
def execUnmap (s : State) : Out :=
  match s.inp with
  | some (.unmap via asid va psize count) =>
    let s := { s with inp := none }
    if s.served via 11 then .next (s.unmapCmd via asid va psize count) else .next s
  | _ => .next s

/-! ### ASID_CREATE, ASID_DESTROY (R67) -/

/-- ASID_CREATE: which free ASID, and the memory at `root` for its table, are the Lodge's choice. DESIGN CHOICE (log entry 82). -/
def State.createAsid (s : State) (via : Via) (root : Nat) : State :=
  match (List.range 256).filter fun a => a != 0 && !s.asidOk a with
  | [] => s.finishCmd via 8 3 0xFFFF
  | free =>
    if root % 65536 ≠ 0 ∨ !s.freeRange root 65536 ∨ !s.rangeFree root 65536 then s else
    let (k, s) := s.choose free.length
    let a := nth free k
    let s := s.setQue { s.que with tables := Tab.set s.que.tables root (65536, a) }
    let s := s.writeAt .global root (List.replicate 65536 0) false
    (s.setMem { s.mem with trRoot := Tab.set s.mem.trRoot a (true, BitVec.ofNat 32 (root / 65536)) }).finishCmd via 8 0 a
/-- ASID_CREATE. -/
def execAsidCreate (s : State) : Out :=
  match s.inp with
  | some (.asidCreate via root) =>
    let s := { s with inp := none }
    if s.served via 8 then .next (s.createAsid via root) else .next s
  | _ => .next s

/-- ASID_DESTROY: once no task of the ASID is resident, its pages are unmapped, its tables freed and TR_ROOT.V cleared. -/
def State.destroyAsid (s : State) (via : Via) (a : Nat) : State :=
  if !s.asidOk a then s.finishCmd via 9 2 0
  else if (s.tsk.tasks.any fun (_, t) => t.asid == a) || (s.eng.nmQueue.any fun q => q.2.any fun c => c.asid == a) then s
  else
    let s := s.setQue { s.que with alloc := s.que.alloc.filter fun x => x.2.2 != a, tables := s.que.tables.filter fun x => x.2.2 != a }
    let s := s.invalidate (fun t => t.asid == a) fun b => b == a
    (s.setMem { s.mem with trRoot := Tab.set s.mem.trRoot a (false, (Tab.getD s.mem.trRoot a (false, 0)).2) }).finishCmd via 9 0 0
/-- ASID_DESTROY. -/
def execAsidDestroy (s : State) : Out :=
  match s.inp with
  | some (.asidDestroy via a) =>
    let s := { s with inp := none }
    if s.served via 9 then .next (s.destroyAsid via a) else .next s
  | _ => .next s

/-! ### COLL_GROUP, SET_REG (R67, R385) -/

/-- COLL_GROUP: SIZE fits SCOPE and the ASID exists. -/
def State.setGroup (s : State) (via : Via) (g size scope asid : Nat) (members : BitVec 192) (valid : Bool) : State :=
  let fits := 1 ≤ size && (scope == 3 && size ≤ 1024 || scope == 4 && size ≤ 144)
  if 64 ≤ g || !fits || !s.asidOk asid then s.finishCmd via 12 2 0
  else if s.eng.rounds.any fun r => r.g == g && r.status.isNone then s.finishCmd via 12 4 0
  else
    let c : CollGrp := { size := BitVec.ofNat 11 size, scope := BitVec.ofNat 3 scope, asid := BitVec.ofNat 8 asid, valid := valid,
                         members := members &&& BitVec.ofNat 192 (2 ^ 144 - 1) }
    (s.setEng { s.eng with collGrp := Tab.set s.eng.collGrp g c }).finishCmd via 12 0 0
/-- COLL_GROUP. -/
def execCollGroup (s : State) : Out :=
  match s.inp with
  | some (.collGroup via g size scope asid members valid) =>
    let s := { s with inp := none }
    if s.served via 12 then .next (s.setGroup via g size scope asid members valid) else .next s
  | _ => .next s

/-- Registers of SET_REG whose writes have no behaviour of their own: QS_PLACE, QS_QUANTUM, QS_POLICY, QS_SAVE, QS_SAVESZ, QS_REPDST,
QS_RACKCFG, LK_TMO, LK_DRAINTMO, ERR_PROBE, ERR_WIN, ERR_THRESH, PG_VBTEST. -/
def plainSetRegs : List Nat :=
  [0x7600, 0x7608, 0x7610, 0x7618, 0x7620, 0x7508, 0x7510, 0x6348, 0x6608, 0x8800, 0x8808, 0x8810, 0x4E30]
/-- The write that SET_REG makes; none for any other offset (R67). -/
def State.setRegWrite (s : State) (off : Nat) (v : W64) : Option State :=
  if plainSetRegs.contains off then some (s.writeReg .lodge off 8 v)
  else if off = 0x2100 then some (s.setThermLim v.toNat)
  else if off = 0x6000 then some (s.setSelf v.toNat)
  else if 0x6300 ≤ off ∧ off < 0x6318 ∧ off % 8 = 0 then some (s.setPeermap ((off - 0x6300) / 8) v.toNat)
  else if 0xA000 ≤ off ∧ off < 0xA200 ∧ off % 8 = 0 then
    some (s.setMem (s.mem.setWaypart ((off - 0xA000) / 8) (field v.toNat 4 0) (field v.toNat 12 5) (bit v.toNat 13) (bit v.toNat 16)))
  else none
/-- SET_REG (R67). -/
def execSetReg (s : State) : Out :=
  match s.inp with
  | some (.setReg via off v) =>
    let s := { s with inp := none }
    if !s.served via 13 then .next s
    else
      match s.setRegWrite off v with
      | some s => .next (s.finishCmd via 13 0 0)
      | none => .next (s.finishCmd via 13 3 0)
  | _ => .next s

end Sys2Proof.Machine
end

