-- ==== Sys2Proof/Machine/Dispatch.lean ====
section
/-! DEFINITION. One arm per row of the opcode table. -/
namespace Sys2Proof.Machine

def exec (i : Instr) (s : State) : Host.Outcome State Fault Refusal :=
  match i with
  | .mov r => Sys2Proof.Machine.execMov r s
  | .steer r => Sys2Proof.Machine.execSteer r s
  | .merge r => Sys2Proof.Machine.execMerge r s
  | .gate r => Sys2Proof.Machine.execGate r s
  | .sink r => Sys2Proof.Machine.execSink r s
  | .nullify r => Sys2Proof.Machine.execNullify r s
  | .lite r => Sys2Proof.Machine.execLite r s
  | .sel r => Sys2Proof.Machine.execSel r s
  | .isnull r => Sys2Proof.Machine.execIsnull r s
  | .vote3 r => Sys2Proof.Machine.execVote3 r s
  | .ishift r => Sys2Proof.Machine.execIshift r s
  | .iclip r => Sys2Proof.Machine.execIclip r s
  | .iwiden r => Sys2Proof.Machine.execIwiden r s
  | .isplit r => Sys2Proof.Machine.execIsplit r s
  | .ilo r => Sys2Proof.Machine.execIlo r s
  | .ihi r => Sys2Proof.Machine.execIhi r s
  | .istamp r => Sys2Proof.Machine.execIstamp r s
  | .ifront r => Sys2Proof.Machine.execIfront r s
  | .add r => Sys2Proof.Machine.execAdd r s
  | .sub r => Sys2Proof.Machine.execSub r s
  | .mul r => Sys2Proof.Machine.execMul r s
  | .mulh r => Sys2Proof.Machine.execMulh r s
  | .mad r => Sys2Proof.Machine.execMad r s
  | .div r => Sys2Proof.Machine.execDiv r s
  | .rem r => Sys2Proof.Machine.execRem r s
  | .neg r => Sys2Proof.Machine.execNeg r s
  | .abs r => Sys2Proof.Machine.execAbs r s
  | .min r => Sys2Proof.Machine.execMin r s
  | .max r => Sys2Proof.Machine.execMax r s
  | .adds r => Sys2Proof.Machine.execAdds r s
  | .subs r => Sys2Proof.Machine.execSubs r s
  | .and r => Sys2Proof.Machine.execAnd r s
  | .or r => Sys2Proof.Machine.execOr r s
  | .xor r => Sys2Proof.Machine.execXor r s
  | .andn r => Sys2Proof.Machine.execAndn r s
  | .not r => Sys2Proof.Machine.execNot r s
  | .shl r => Sys2Proof.Machine.execShl r s
  | .shr r => Sys2Proof.Machine.execShr r s
  | .sar r => Sys2Proof.Machine.execSar r s
  | .rotl r => Sys2Proof.Machine.execRotl r s
  | .clz r => Sys2Proof.Machine.execClz r s
  | .ctz r => Sys2Proof.Machine.execCtz r s
  | .popc r => Sys2Proof.Machine.execPopc r s
  | .bfx r => Sys2Proof.Machine.execBfx r s
  | .bfi r => Sys2Proof.Machine.execBfi r s
  | .brev r => Sys2Proof.Machine.execBrev r s
  | .cmpeq r => Sys2Proof.Machine.execCmpeq r s
  | .cmpne r => Sys2Proof.Machine.execCmpne r s
  | .cmplt r => Sys2Proof.Machine.execCmplt r s
  | .cmple r => Sys2Proof.Machine.execCmple r s
  | .cmpltn r => Sys2Proof.Machine.execCmpltn r s
  | .cmplen r => Sys2Proof.Machine.execCmplen r s
  | .fcmpeq r => Sys2Proof.Machine.execFcmpeq r s
  | .fcmpne r => Sys2Proof.Machine.execFcmpne r s
  | .fcmplt r => Sys2Proof.Machine.execFcmplt r s
  | .fcmple r => Sys2Proof.Machine.execFcmple r s
  | .fcmpun r => Sys2Proof.Machine.execFcmpun r s
  | .pand r => Sys2Proof.Machine.execPand r s
  | .por r => Sys2Proof.Machine.execPor r s
  | .pnot r => Sys2Proof.Machine.execPnot r s
  | .pany r => Sys2Proof.Machine.execPany r s
  | .pall r => Sys2Proof.Machine.execPall r s
  | .fadd r => Sys2Proof.Machine.execFadd r s
  | .fsub r => Sys2Proof.Machine.execFsub r s
  | .fmul r => Sys2Proof.Machine.execFmul r s
  | .fma r => Sys2Proof.Machine.execFma r s
  | .fms r => Sys2Proof.Machine.execFms r s
  | .fnma r => Sys2Proof.Machine.execFnma r s
  | .fmin r => Sys2Proof.Machine.execFmin r s
  | .fmax r => Sys2Proof.Machine.execFmax r s
  | .fabs r => Sys2Proof.Machine.execFabs r s
  | .fneg r => Sys2Proof.Machine.execFneg r s
  | .fsgn r => Sys2Proof.Machine.execFsgn r s
  | .fclass r => Sys2Proof.Machine.execFclass r s
  | .frnd r => Sys2Proof.Machine.execFrnd r s
  | .frcp r => Sys2Proof.Machine.execFrcp r s
  | .frsq r => Sys2Proof.Machine.execFrsq r s
  | .fsqrt r => Sys2Proof.Machine.execFsqrt r s
  | .fdiv r => Sys2Proof.Machine.execFdiv r s
  | .fexp2 r => Sys2Proof.Machine.execFexp2 r s
  | .flog2 r => Sys2Proof.Machine.execFlog2 r s
  | .ftanh r => Sys2Proof.Machine.execFtanh r s
  | .cvt r => Sys2Proof.Machine.execCvt r s
  | .cvti r => Sys2Proof.Machine.execCvti r s
  | .cvtf r => Sys2Proof.Machine.execCvtf r s
  | .qamax r => Sys2Proof.Machine.execQamax r s
  | .qscale r => Sys2Proof.Machine.execQscale r s
  | .qpack r => Sys2Proof.Machine.execQpack r s
  | .qunpack r => Sys2Proof.Machine.execQunpack r s
  | .srseed r => Sys2Proof.Machine.execSrseed r s
  | .vshuf r => Sys2Proof.Machine.execVshuf r s
  | .vbcast r => Sys2Proof.Machine.execVbcast r s
  | .vext r => Sys2Proof.Machine.execVext r s
  | .vins r => Sys2Proof.Machine.execVins r s
  | .vredadd r => Sys2Proof.Machine.execVredadd r s
  | .vredmax r => Sys2Proof.Machine.execVredmax r s
  | .vredmin r => Sys2Proof.Machine.execVredmin r s
  | .vpack r => Sys2Proof.Machine.execVpack r s
  | .vunpk r => Sys2Proof.Machine.execVunpk r s
  | .vscan r => Sys2Proof.Machine.execVscan r s
  | .vslide r => Sys2Proof.Machine.execVslide r s
  | .vrotl r => Sys2Proof.Machine.execVrotl r s
  | .ld r => Sys2Proof.Machine.execLd r s
  | .st r => Sys2Proof.Machine.execSt r s
  | .ldv r => Sys2Proof.Machine.execLdv r s
  | .stv r => Sys2Proof.Machine.execStv r s
  | .ldb r => Sys2Proof.Machine.execLdb r s
  | .stb r => Sys2Proof.Machine.execStb r s
  | .pref r => Sys2Proof.Machine.execPref r s
  | .amoadd r => Sys2Proof.Machine.execAmoadd r s
  | .amofadd r => Sys2Proof.Machine.execAmofadd r s
  | .amomin r => Sys2Proof.Machine.execAmomin r s
  | .amomax r => Sys2Proof.Machine.execAmomax r s
  | .amoand r => Sys2Proof.Machine.execAmoand r s
  | .amoor r => Sys2Proof.Machine.execAmoor r s
  | .amoxor r => Sys2Proof.Machine.execAmoxor r s
  | .amoswp r => Sys2Proof.Machine.execAmoswp r s
  | .amocas r => Sys2Proof.Machine.execAmocas r s
  | .joinf r => Sys2Proof.Machine.execJoinf r s
  | .waita r => Sys2Proof.Machine.execWaita r s
  | .wakea r => Sys2Proof.Machine.execWakea r s
  | .br r => Sys2Proof.Machine.execBr r s
  | .bri r => Sys2Proof.Machine.execBri r s
  | .call r => Sys2Proof.Machine.execCall r s
  | .ret r => Sys2Proof.Machine.execRet r s
  | .rdc r => Sys2Proof.Machine.execRdc r s
  | .wrc r => Sys2Proof.Machine.execWrc r s
  | .spawn r => Sys2Proof.Machine.execSpawn r s
  | .exit r => Sys2Proof.Machine.execExit r s
  | .join r => Sys2Proof.Machine.execJoin r s
  | .leave r => Sys2Proof.Machine.execLeave r s
  | .gbar r => Sys2Proof.Machine.execGbar r s
  | .yield r => Sys2Proof.Machine.execYield r s
  | .launch r => Sys2Proof.Machine.execLaunch r s
  | .est r => Sys2Proof.Machine.execEst r s
  | .sbind r => Sys2Proof.Machine.execSbind r s
  | .srel r => Sys2Proof.Machine.execSrel r s
  | .spos r => Sys2Proof.Machine.execSpos r s
  | .xcopy r => Sys2Proof.Machine.execXcopy r s
  | .nmred r => Sys2Proof.Machine.execNmred r s
  | .rowact r => Sys2Proof.Machine.execRowact r s
  | .rowcon r => Sys2Proof.Machine.execRowcon r s
  | .rowput r => Sys2Proof.Machine.execRowput r s
  | .rowpre r => Sys2Proof.Machine.execRowpre r s
  | .qput r => Sys2Proof.Machine.execQput r s
  | .qputNb r => Sys2Proof.Machine.execQputNb r s
  | .argw r => Sys2Proof.Machine.execArgw r s
  | .mwload r => Sys2Proof.Machine.execMwload r s
  | .mmac r => Sys2Proof.Machine.execMmac r s
  | .mdrain r => Sys2Proof.Machine.execMdrain r s
  | .macc r => Sys2Proof.Machine.execMacc r s
  | .mchk r => Sys2Proof.Machine.execMchk r s
  | .mrel r => Sys2Proof.Machine.execMrel r s
  | .fctb r => Sys2Proof.Machine.execFctb r s
  | .fcts r => Sys2Proof.Machine.execFcts r s
  | .fctn r => Sys2Proof.Machine.execFctn r s
  | .fctr r => Sys2Proof.Machine.execFctr r s
  | .fctsv r => Sys2Proof.Machine.execFctsv r s
  | .fcte r => Sys2Proof.Machine.execFcte r s
  | .redput r => Sys2Proof.Machine.execRedput r s
  | .redwait r => Sys2Proof.Machine.execRedwait r s
  | .coll r => Sys2Proof.Machine.execColl r s
  | .collw r => Sys2Proof.Machine.execCollw r s
  | .sysrd r => Sys2Proof.Machine.execSysrd r s
  | .syswr r => Sys2Proof.Machine.execSyswr r s
  | .trap r => Sys2Proof.Machine.execTrap r s
  | .eret r => Sys2Proof.Machine.execEret r s
  | .bkpt r => Sys2Proof.Machine.execBkpt r s
  | .time r => Sys2Proof.Machine.execTime r s
  | .tapset r => Sys2Proof.Machine.execTapset r s
  | .halt r => Sys2Proof.Machine.execHalt r s
  | .packageReset => Sys2Proof.Machine.execPackageReset s
  | .bootPushGo => Sys2Proof.Machine.execBootPushGo s
  | .bootSourceTimeout => Sys2Proof.Machine.execBootSourceTimeout s
  | .bootNetworkFetchDone => Sys2Proof.Machine.execBootNetworkFetchDone s
  | .dhcpv6Timeout => Sys2Proof.Machine.execDhcpv6Timeout s
  | .getVersion => Sys2Proof.Machine.execGetVersion s
  | .getCapabilities => Sys2Proof.Machine.execGetCapabilities s
  | .negotiateAlgorithms => Sys2Proof.Machine.execNegotiateAlgorithms s
  | .getDigests => Sys2Proof.Machine.execGetDigests s
  | .getCertificate => Sys2Proof.Machine.execGetCertificate s
  | .challenge => Sys2Proof.Machine.execChallenge s
  | .getMeasurements => Sys2Proof.Machine.execGetMeasurements s
  | .keyExchange => Sys2Proof.Machine.execKeyExchange s
  | .finish => Sys2Proof.Machine.execFinish s
  | .endSession => Sys2Proof.Machine.execEndSession s
  | .bar0UnsupportedAccess => Sys2Proof.Machine.execBar0UnsupportedAccess s
  | .bar2Write => Sys2Proof.Machine.execBar2Write s
  | .bar2Read => Sys2Proof.Machine.execBar2Read s
  | .pcieLinkTrained => Sys2Proof.Machine.execPcieLinkTrained s
  | .registerWrite => Sys2Proof.Machine.execRegisterWrite s
  | .notifyWrite => Sys2Proof.Machine.execNotifyWrite s
  | .queueMap => Sys2Proof.Machine.execQueueMap s
  | .queueUnmap => Sys2Proof.Machine.execQueueUnmap s
  | .slotFetch => Sys2Proof.Machine.execSlotFetch s
  | .rackRingWrite => Sys2Proof.Machine.execRackRingWrite s
  | .rackEthernetLaunch => Sys2Proof.Machine.execRackEthernetLaunch s
  | .rackLaunchConsume => Sys2Proof.Machine.execRackLaunchConsume s
  | .dispatchTick => Sys2Proof.Machine.execDispatchTick s
  | .semaphoreRead => Sys2Proof.Machine.execSemaphoreRead s
  | .placerPass => Sys2Proof.Machine.execPlacerPass s
  | .drainTimeout => Sys2Proof.Machine.execDrainTimeout s
  | .quantumExpiry => Sys2Proof.Machine.execQuantumExpiry s
  | .markerArrive => Sys2Proof.Machine.execMarkerArrive s
  | .markerLatchInject => Sys2Proof.Machine.execMarkerLatchInject s
  | .checkpointSave => Sys2Proof.Machine.execCheckpointSave s
  | .taskRetire => Sys2Proof.Machine.execTaskRetire s
  | .planeDrop => Sys2Proof.Machine.execPlaneDrop s
  | .tokenAccept => Sys2Proof.Machine.execTokenAccept s
  | .routerHop => Sys2Proof.Machine.execRouterHop s
  | .activationStart => Sys2Proof.Machine.execActivationStart s
  | .activationCommit => Sys2Proof.Machine.execActivationCommit s
  | .trapTake => Sys2Proof.Machine.execTrapTake s
  | .lodgeTrapService => Sys2Proof.Machine.execLodgeTrapService s
  | .probeSend => Sys2Proof.Machine.execProbeSend s
  | .probeArrive => Sys2Proof.Machine.execProbeArrive s
  | .yieldExpiry => Sys2Proof.Machine.execYieldExpiry s
  | .elementErrorEvent => Sys2Proof.Machine.execElementErrorEvent s
  | .elementReplay => Sys2Proof.Machine.execElementReplay s
  | .elementSparing => Sys2Proof.Machine.execElementSparing s
  | .thermSample => Sys2Proof.Machine.execThermSample s
  | .bankThermalRetire => Sys2Proof.Machine.execBankThermalRetire s
  | .thermSensFailedClear => Sys2Proof.Machine.execThermSensFailedClear s
  | .thermLimWrite => Sys2Proof.Machine.execThermLimWrite s
  | .powerSample => Sys2Proof.Machine.execPowerSample s
  | .powerPeriod => Sys2Proof.Machine.execPowerPeriod s
  | .powerOverDeadline => Sys2Proof.Machine.execPowerOverDeadline s
  | .pwrCapWrite => Sys2Proof.Machine.execPwrCapWrite s
  | .pwrWinWrite => Sys2Proof.Machine.execPwrWinWrite s
  | .laneErrorEvent => Sys2Proof.Machine.execLaneErrorEvent s
  | .laneSparing => Sys2Proof.Machine.execLaneSparing s
  | .portDown => Sys2Proof.Machine.execPortDown s
  | .portLinkUp => Sys2Proof.Machine.execPortLinkUp s
  | .remoteRequestWaitEnd => Sys2Proof.Machine.execRemoteRequestWaitEnd s
  | .requestTimeout => Sys2Proof.Machine.execRequestTimeout s
  | .errorCompletionReceived => Sys2Proof.Machine.execErrorCompletionReceived s
  | .drainNoticeReceived => Sys2Proof.Machine.execDrainNoticeReceived s
  | .lateCompletion => Sys2Proof.Machine.execLateCompletion s
  | .inboundFromIsolatedPeer => Sys2Proof.Machine.execInboundFromIsolatedPeer s
  | .inboundRequest => Sys2Proof.Machine.execInboundRequest s
  | .isolatePeer => Sys2Proof.Machine.execIsolatePeer s
  | .isolatePort => Sys2Proof.Machine.execIsolatePort s
  | .returnPeer => Sys2Proof.Machine.execReturnPeer s
  | .returnPort => Sys2Proof.Machine.execReturnPort s
  | .lkPeermapWrite => Sys2Proof.Machine.execLkPeermapWrite s
  | .lkCfgWrite => Sys2Proof.Machine.execLkCfgWrite s
  | .droplogFree => Sys2Proof.Machine.execDroplogFree s
  | .lkDrainStart => Sys2Proof.Machine.execLkDrainStart s
  | .drainQuiesceEnd => Sys2Proof.Machine.execDrainQuiesceEnd s
  | .drainNotifyEnd => Sys2Proof.Machine.execDrainNotifyEnd s
  | .drainSafe => Sys2Proof.Machine.execDrainSafe s
  | .ethernetPortFailover => Sys2Proof.Machine.execEthernetPortFailover s
  | .adminDoorbell => Sys2Proof.Machine.execAdminDoorbell s
  | .adminRingSet => Sys2Proof.Machine.execAdminRingSet s
  | .adminCompletion => Sys2Proof.Machine.execAdminCompletion s
  | .adminUnknownOpcode => Sys2Proof.Machine.execAdminUnknownOpcode s
  | .queueCreate => Sys2Proof.Machine.execQueueCreate s
  | .queueDestroy => Sys2Proof.Machine.execQueueDestroy s
  | .queueReset => Sys2Proof.Machine.execQueueReset s
  | .resync => Sys2Proof.Machine.execResync s
  | .trayDrain => Sys2Proof.Machine.execTrayDrain s
  | .planeInstall => Sys2Proof.Machine.execPlaneInstall s
  | .planeRemove => Sys2Proof.Machine.execPlaneRemove s
  | .asidCreate => Sys2Proof.Machine.execAsidCreate s
  | .asidDestroy => Sys2Proof.Machine.execAsidDestroy s
  | .map => Sys2Proof.Machine.execMap s
  | .unmap => Sys2Proof.Machine.execUnmap s
  | .collGroup => Sys2Proof.Machine.execCollGroup s
  | .setReg => Sys2Proof.Machine.execSetReg s
  | .pgRemapStart => Sys2Proof.Machine.execPgRemapStart s
  | .pgRemapDone => Sys2Proof.Machine.execPgRemapDone s
  | .ghWaypartWrite => Sys2Proof.Machine.execGhWaypartWrite s
  | .ghDrainEnd => Sys2Proof.Machine.execGhDrainEnd s
  | .ghZeroEnd => Sys2Proof.Machine.execGhZeroEnd s
  | .ghLineFill => Sys2Proof.Machine.execGhLineFill s
  | .trInvAll => Sys2Proof.Machine.execTrInvAll s
  | .trInvAsid => Sys2Proof.Machine.execTrInvAsid s
  | .trInvPage => Sys2Proof.Machine.execTrInvPage s
  | .pageWalk => Sys2Proof.Machine.execPageWalk s
  | .rowCommandEffect => Sys2Proof.Machine.execRowCommandEffect s
  | .rowOpenTimeout => Sys2Proof.Machine.execRowOpenTimeout s
  | .rowRefresh => Sys2Proof.Machine.execRowRefresh s
  | .busTesterBeat => Sys2Proof.Machine.execBusTesterBeat s
  | .vectorClockAnnounce => Sys2Proof.Machine.execVectorClockAnnounce s
  | .storePerform => Sys2Proof.Machine.execStorePerform s
  | .waitaReread => Sys2Proof.Machine.execWaitaReread s
  | .waitaTimeout => Sys2Proof.Machine.execWaitaTimeout s
  | .streamGranuleReturn => Sys2Proof.Machine.execStreamGranuleReturn s
  | .streamGranuleWrite => Sys2Proof.Machine.execStreamGranuleWrite s
  | .streamBindingEnd => Sys2Proof.Machine.execStreamBindingEnd s
  | .streamFault => Sys2Proof.Machine.execStreamFault s
  | .copyGranule => Sys2Proof.Machine.execCopyGranule s
  | .copyComplete => Sys2Proof.Machine.execCopyComplete s
  | .copyFault => Sys2Proof.Machine.execCopyFault s
  | .nearMemoryReduce => Sys2Proof.Machine.execNearMemoryReduce s
  | .arrayRowTake => Sys2Proof.Machine.execArrayRowTake s
  | .arrayDrainToken => Sys2Proof.Machine.execArrayDrainToken s
  | .weightTokenLoad => Sys2Proof.Machine.execWeightTokenLoad s
  | .fctColumnStep => Sys2Proof.Machine.execFctColumnStep s
  | .reduceRoundCombine => Sys2Proof.Machine.execReduceRoundCombine s
  | .reduceRootResult => Sys2Proof.Machine.execReduceRootResult s
  | .reduceRoundAbandon => Sys2Proof.Machine.execReduceRoundAbandon s
  | .collRoundComplete => Sys2Proof.Machine.execCollRoundComplete s
  | .collRoundFail => Sys2Proof.Machine.execCollRoundFail s
  | .collRoundTimeout => Sys2Proof.Machine.execCollRoundTimeout s
  | .armRptClear => Sys2Proof.Machine.execArmRptClear s
  | .remoteCompletionReceived => Sys2Proof.Machine.execRemoteCompletionReceived s
  | .memoryAccessComplete => Sys2Proof.Machine.execMemoryAccessComplete s
  | .rowCommandComplete => Sys2Proof.Machine.execRowCommandComplete s

end Sys2Proof.Machine
end

