-- ==== Sys2Proof/Machine/Step.lean ====
section
/-! DEFINITION. One step of the machine: the next entry of the agenda comes about (log entry 1). -/
namespace Sys2Proof.Machine

/-- The writes that wait for the queue table come first in the next cycle. -/
def State.retake (s : State) : State :=
  { s with agenda := (s.que.late.map Stim.event) ++ s.agenda }.setQue { s.que with late := [] }
/-- A fabric cycle passes: the LEAVEs, the watches and the literals that it leaves to its end take effect, the blocked units
are counted, then the taps' buffers drain (R119, R235, R330, R348, R368). DESIGN CHOICE (log entries 14, 66). -/
def State.nextCycle (s : State) : State := s.leavesEnd.watchesEnd.argwEnd.noteBlocked.tick.drainTaps.retake
/-- One step. With an empty agenda a fabric cycle passes. DESIGN CHOICE (log entry 1); DEDUCED (log entry 87). -/
def step (s : State) : Host.Outcome State Fault Refusal :=
  match s.agenda with
  | [] => .next s.nextCycle
  | .cycle :: rest => .next { s with agenda := rest }.nextCycle
  | .issue e :: rest =>
    match { s with agenda := rest }.issueAt e with
    | .idle t => .next t
    | .run i t => exec i t
    | .bad f => .fault f
  | .event e :: rest => exec e.instr { s with agenda := rest, inp := some e }
  | .regRead a off n :: rest => .next ({ s with agenda := rest }.readReg a off n)
  | .hostStore bus bs p :: rest => .next ({ s with agenda := rest }.hostStore bus bs p)
  | .poisonedBar0 _ :: rest => .next ({ s with agenda := rest }.emitOut .poisonedTlp)
  | .pfc p classes :: rest => .next ({ s with agenda := rest }.setPfc p classes)
  | .revoke k sig :: rest => .next ({ s with agenda := rest }.revoke k sig)

/-- `s` with the record whose low `nbits` bits are `w` where the next step issues from.
DESIGN CHOICE (log entry 40). -/
def State.withFetchWord (s : State) (nbits w : Nat) : State := s.placeWord (w % 2 ^ nbits)

end Sys2Proof.Machine
end

