-- ==== Sys2Proof/Safety.lean ====
section
/-! DEFINITION. What counts as a safe state: memories in their one canonical form, registers within the range the spec gives them;
and the settings that no task may change. -/
namespace Sys2Proof.Machine

/-- Every memory and every table of poison marks is in the one canonical form. -/
def Memory.wf (m : Memory) : Bool :=
  Tab.wf 0 m.main && Tab.wf 0 m.dram && Tab.wf 0 m.bank && Tab.wf 0 m.scratch && Tab.wf 0 m.host
    && Tab.wf false m.mainPois && Tab.wf false m.dramPois && Tab.wf false m.bankPois && Tab.wf false m.scratchPois

/-- The memories of the package and its context stores are canonical. -/
def State.memWf (s : State) : Bool := s.mem.wf && Tab.wf 0 s.fab.store

/-- The settings that belong to the host, the rack controller and the Lodge: tasks have no write access to them (R23, R42, R46, R63,
R94, R170, R221, R236, R385). -/
structure Settings where
  fuse : Fuses
  boot : Boot
  pow : Power
  thm : Thermal
  apBase : BitVec 17
  pcie : BitVec 4 × BitVec 5
  self : BitVec 8
  ports : Tab Port
  peerMap : BitVec 192
  peerIso : BitVec 192
  tmo : BitVec 16
  drain : BitVec 3 × BitVec 16 × Nat
  ethUp : Tab Bool
  qtab : BitVec 48
  created : List Nat
  report : BitVec 48 × BitVec 8 × BitVec 3
  admin : BitVec 48 × BitVec 4 × BitVec 48 × BitVec 4 × BitVec 11 × W32 × W32 × W32
  spaces : Tab (Nat × Nat) × Tab (Nat × Nat) × Tab (Bool × W32)
  placeEn : Bool
  quantum : BitVec 24
  policy : BitVec 16 × BitVec 3 × BitVec 16
  save : BitVec 48 × W32
  delay : BitVec 20
  win : W32
  thresh : BitVec 4
  tapEn : Bool
  tapRing : BitVec 48 × W32 × W64
  groups : Tab CollGrp
  banks : Tab W64 × Tab W64 × Tab W64


def State.settings (s : State) : Settings :=
  { fuse := s.fuse, boot := s.boot, pow := s.pow, thm := s.thm, apBase := s.apBase, pcie := (s.pcieRate, s.pcieWidth),
    self := s.lnk.self, ports := s.lnk.ports, peerMap := s.lnk.peerMap, peerIso := s.lnk.peerIso, tmo := s.lnk.tmo,
    drain := (s.lnk.drain, s.lnk.drainTmo, s.lnk.drainAt), ethUp := s.lnk.ethUp, qtab := s.que.qtab, created := s.que.created,
    report := (s.que.repAddr, s.que.repPeer, s.que.rackPrioMax),
    admin := (s.que.admqBase, s.que.admqLog, s.que.admcBase, s.que.admcLog, s.que.admcVec, s.que.admWr, s.que.admRd, s.que.admCwr),
    spaces := (s.que.alloc, s.que.tables, s.mem.trRoot), placeEn := s.sch.placeEn, quantum := s.sch.quantum,
    policy := (s.sch.drain, s.sch.gapHi, s.sch.killRun), save := (s.sch.saveBase, s.sch.saveMib), delay := s.err.delay, win := s.err.win,
    thresh := s.err.thresh, tapEn := s.tap.en, tapRing := (s.tap.ring, s.tap.size, s.tap.rp), groups := s.eng.collGrp,
    banks := (s.mem.bankMap, s.mem.bankTherm, s.mem.liveMap) }

/-- Every setting lies in the range that the spec clamps or restricts it to. -/
structure Settings.Within (c : Settings) : Prop where
  /-- PWR_CAP.CAP is 1,500 to 4,000 W (R25). -/
  cap : 1500 ≤ c.pow.cap.toNat ∧ c.pow.cap.toNat ≤ 4000
  /-- PWR_WIN.WIN is 100 to 1,000,000 µs (R25). -/
  win : 100 ≤ c.pow.win.toNat ∧ c.pow.win.toNat ≤ 1000000
  /-- Clock steps are 0 to 6 (R24). -/
  step : c.pow.step.toNat ≤ 6
  /-- RETIRE is at least RESUME + 5, as far as its eight bits go (R22). -/
  retire : min 255 (c.thm.resume.toNat + 5) ≤ c.thm.retire.toNat
  /-- LK_CFG.SELF is 0 to 143 (R31, R43). -/
  self : c.self.toNat ≤ 143
  /-- LK_TMO.TMO is 10 to 50,000 µs (R42). -/
  tmo : 10 ≤ c.tmo.toNat ∧ c.tmo.toNat ≤ 50000
  /-- LK_DRAIN.STATE is one of the five states of R39. -/
  drain : c.drain.1.toNat ≤ 4
  /-- QS_QUANTUM is 100 to 10,000,000 µs (R94). -/
  quantum : 100 ≤ c.quantum.toNat ∧ c.quantum.toNat ≤ 10000000
  /-- ERR_PROBE.DELAY is at least 256 cycles (R120). -/
  delay : 256 ≤ c.delay.toNat
  /-- ERR_WIN is at least 65,536 cycles (R221). -/
  window : 65536 ≤ c.win.toNat
  /-- BOOT_STAT.STATE is one of four (R51). -/
  boot : c.boot.state.toNat ≤ 3
  /-- The Belvedere is enabled only where the fuse permits it (R236). -/
  tap : c.tapEn = true → c.fuse.debugEnable = true

end Sys2Proof.Machine
end

