-- ==== Sys2Proof/WellFormed.lean ====
section
/-! DEFINITION. Well-formed instructions: a node record that passes every arming check of R258 that concerns its own
fields, and that its constructor's opcode names. -/
namespace Sys2Proof

/-- A node form is well formed when its fields pass R258's record checks and FMT picks its own constructor (QPUT and
QPUT.NB share an opcode, R351); a step of the package is well formed as it stands. -/
def Instr.wf (i : Instr) : Bool :=
  match i.node? with
  | none => true
  | some (opc, r) => (fieldCheck opc r).isNone && decide (Instr.ofOpcode opc r = some i)

end Sys2Proof
end

