-- ==== Sys2Proof/Certificates/Slice0/Obligations.lean ====
section
/-! DEFINITION. The statements for the provers, and the vocabulary they share. -/
open Sys2Proof Sys2Proof.Machine

/-! ### One firing: results, NULL, poison (R101, R106, R116, R205, R228, R229, R261) -/

namespace Sys2Proof.Spec
open Sys2Proof.Machine

/-- A firing is at hand whose operands are neither NULL nor poisoned and whose predicate passes: its body runs (R261). -/
def Runs (s : State) (i : Issue) (r : NodeRec) : Prop := s.cur = some i ∧ i.f.isNull r = false ∧ i.f.poison = none

/-- The state once the firing is taken. -/
def taken (s : State) : State := { s with cur := none }

/-- The step fires a value with lanes of width `w`, lane `k` being `g k`, and the flags `fl`. -/
def FiresLanes (o : Out) (s : State) (i : Issue) (opc : Nat) (r : NodeRec) (v : Bool) (w fl : Nat) (g : Nat → Nat) : Prop :=
  ∃ x, o = .next (s.fireVal i opc r v x fl) ∧ x < 2 ^ (w * laneCount w v) ∧ ∀ k < laneCount w v, lane w x k = g k

/-- As `FiresLanes` for a form whose lanes set flags: the firing's flags are those that some lane sets. -/
def FiresRounded (o : Out) (s : State) (i : Issue) (opc : Nat) (r : NodeRec) (w : Nat) (g : Nat → Nat × Nat) : Prop :=
  ∃ fl, FiresLanes o s i opc r r.v w fl (fun k => (g k).1 % 2 ^ w) ∧
    ∀ b, fl.testBit b = true ↔ ∃ k < laneCount w r.v, (g k).2.testBit b = true

/-- Context `y` is context `x` with the result `l` under way: it stands behind the results that are ready no later, which all stay
(R116). -/
def Sends (x y : CtxSt) (l : OutLatch) : Prop :=
  ∃ before after, x.outs = before ++ after ∧ y.outs = before ++ l :: after ∧ (∀ k ∈ before, k.readyAt ≤ l.readyAt) ∧
    (∀ k ∈ after.head?, l.readyAt < k.readyAt) ∧ y = { x with latch := y.latch, flow := y.flow }

/-- The forms whose body gets operand values: NULL and poison are decided before it (R101, R261), with their opcodes. -/
def valueForms : List ((NodeRec → Instr) × Nat) :=
  [(.mov, 0x01), (.gate, 0x04), (.lite, 0x07), (.sel, 0x08), (.ilo, 0x14), (.ihi, 0x15),
   (.add, 0x20), (.sub, 0x21), (.mul, 0x22), (.mulh, 0x23), (.mad, 0x24), (.div, 0x25), (.rem, 0x26), (.neg, 0x27),
   (.abs, 0x28), (.min, 0x29), (.max, 0x2A), (.adds, 0x2B), (.subs, 0x2C),
   (.and, 0x30), (.or, 0x31), (.xor, 0x32), (.andn, 0x33), (.not, 0x34), (.shl, 0x35), (.shr, 0x36), (.sar, 0x37),
   (.rotl, 0x38), (.clz, 0x39), (.ctz, 0x3A), (.popc, 0x3B), (.bfx, 0x3C), (.bfi, 0x3D), (.brev, 0x3E),
   (.cmpeq, 0x40), (.cmpne, 0x41), (.cmplt, 0x42), (.cmple, 0x43), (.cmpltn, 0x44), (.cmplen, 0x45), (.fcmpeq, 0x46),
   (.fcmpne, 0x47), (.fcmplt, 0x48), (.fcmple, 0x49), (.fcmpun, 0x4A), (.pand, 0x4B), (.por, 0x4C), (.pnot, 0x4D),
   (.pany, 0x4E), (.pall, 0x4F),
   (.fadd, 0x50), (.fsub, 0x51), (.fmul, 0x52), (.fma, 0x53), (.fms, 0x54), (.fnma, 0x55), (.fmin, 0x56), (.fmax, 0x57),
   (.fabs, 0x58), (.fneg, 0x59), (.fsgn, 0x5A), (.fclass, 0x5B), (.frnd, 0x5C),
   (.frcp, 0x60), (.frsq, 0x61), (.fsqrt, 0x62), (.fdiv, 0x63), (.fexp2, 0x64), (.flog2, 0x65), (.ftanh, 0x66),
   (.cvt, 0x70), (.cvti, 0x71), (.cvtf, 0x72), (.qamax, 0x73), (.qscale, 0x74), (.qpack, 0x75), (.qunpack, 0x76),
   (.srseed, 0x77),
   (.vshuf, 0x80), (.vbcast, 0x81), (.vext, 0x82), (.vins, 0x83), (.vredadd, 0x84), (.vredmax, 0x85), (.vredmin, 0x86),
   (.vpack, 0x87), (.vunpk, 0x88), (.vscan, 0x89), (.vslide, 0x8A), (.vrotl, 0x8B)]

end Sys2Proof.Spec

/-- R116, R205, R223, R242, R261: the beats of a result that have a destination are under way to the context's output latch, ready after
the latency of the form and behind the results that are ready no later, and a value's flags are ORed into FP_STAT; a firing that element
replay repeats sends nothing again; other contexts, and everything that is no context, stay as they were. -/
def Obligations.ResultGoesToLatch : Prop :=
  (∀ (s : State) (i : Issue) (r : NodeRec) (lat : Nat) (bs live : List Beat),
    live = bs.filter (fun b => b.to0 && decide (r.dst0 ≠ .none) || b.to1 && decide (r.dst1 ≠ .none)) →
    (∃ c, s.emit i r lat bs = s.setFab { s.fab with ctxs := c }) ∧
    (∀ e c, ctxKey e c ≠ ctxKey i.elem i.ctx → (s.emit i r lat bs).ctx e c = s.ctx e c) ∧
    (live = [] ∨ i.f.again = true → s.emit i r lat bs = s) ∧
    (live ≠ [] → i.f.again = false → Spec.Sends (s.ctx i.elem i.ctx) ((s.emit i r lat bs).ctx i.elem i.ctx)
      { aid := i.f.aid, node := i.f.node, readyAt := s.cycles + lat, waits := false, beats := live })) ∧
  ∀ (s : State) (i : Issue) (opc : Nat) (r : NodeRec) (v : Bool) (x fl : Nat),
    (∃ c, s.fireVal i opc r v x fl = s.setFab { s.fab with ctxs := c }) ∧
    (∀ e c, ctxKey e c ≠ ctxKey i.elem i.ctx → (s.fireVal i opc r v x fl).ctx e c = s.ctx e c) ∧
    ∃ y : CtxSt, y = { s.ctx i.elem i.ctx with fpStat := (s.ctx i.elem i.ctx).fpStat ||| BitVec.ofNat 6 (fl ||| i.f.fl) } ∧
      (r.dst0 = .none ∧ r.dst1 = .none ∨ i.f.again = true → (s.fireVal i opc r v x fl).ctx i.elem i.ctx = y) ∧
      (¬ (r.dst0 = .none ∧ r.dst1 = .none) → i.f.again = false → Spec.Sends y ((s.fireVal i opc r v x fl).ctx i.elem i.ctx)
        { aid := i.f.aid, node := i.f.node, readyAt := s.cycles + (formOf opc r).lat, waits := false,
          beats := [.both (if v then .vector x else .scalar x) i.f.lo i.f.hi] })

/-- R101, R106, R228, R229: a firing with a NULL operand, or whose predicate fails, fires a NULL result over its interval, sets no flag and
raises no trap, whatever the form computes; else a poisoned operand stops the firing before its body with POISON, the port being the
lowest-numbered poisoned one, INFO its PSRC and ADDR the address of the load that read it, and nothing is fired. -/
def Obligations.NullAndPoisonOperands : Prop :=
  (∀ e ∈ Spec.valueForms, ∀ (r : NodeRec) (s : State) (i : Issue), s.cur = some i → i.f.isNull r = true →
      exec (e.1 r) s = .next ((Spec.taken s).fireNull i e.2 r) ∧
      (r.dst0 = .none ∧ r.dst1 = .none ∨ i.f.again = true → (Spec.taken s).fireNull i e.2 r = Spec.taken s) ∧
      (¬ (r.dst0 = .none ∧ r.dst1 = .none) → i.f.again = false →
        Spec.Sends (s.ctx i.elem i.ctx) (((Spec.taken s).fireNull i e.2 r).ctx i.elem i.ctx)
          { aid := i.f.aid, node := i.f.node, readyAt := s.cycles + (formOf e.2 r).lat, waits := false,
            beats := [.both .mkNull i.f.lo i.f.hi] })) ∧
  (∀ e ∈ Spec.valueForms, ∀ (r : NodeRec) (s : State) (i : Issue) (p : Nat) (src : BitVec 3) (x : Pay), s.cur = some i →
      i.f.isNull r = false → i.f.poison = some (p, src) → i.f.operand p = some x →
      exec (e.1 r) s =
        .next ((Spec.taken s).raise i { code := trapPoison, info := BitVec.ofNat 64 src.toNat, port := p, addr := x.paddr }) ∧
      ((Spec.taken s).raise i { code := trapPoison, info := BitVec.ofNat 64 src.toNat, port := p, addr := x.paddr }).fab = s.fab) ∧
  (∀ (f : Firing) (p : Nat) (src : BitVec 3), f.poison = some (p, src) →
      ∃ x, f.operand p = some x ∧ x.pois = true ∧ x.psrc = src ∧ ∀ q < p, ∀ y, f.operand q = some y → y.pois = false)

/-! ### Integer forms, groups 0x2 to 0x4 -/

namespace Sys2Proof.Spec
open Sys2Proof.Machine

/-- The exact result of a lane before it is cut to w bits, from the format and the lanes of A, B and P (R265 to R268). -/
def intForms : List ((NodeRec → Instr) × Nat × (Nat → Nat → Nat → Nat → Int)) :=
  [(.add, 0x20, fun _ x y _ => x + y),
   (.sub, 0x21, fun _ x y _ => x - y),
   (.mul, 0x22, fun _ x y _ => x * y),
   (.mulh, 0x23, fun c x y _ => sa c x * sa c y / 2 ^ intWidth c),
   (.mad, 0x24, fun _ x y z => x * y + z),
   (.neg, 0x27, fun _ x _ _ => -x),
   (.abs, 0x28, fun c x _ _ => |sa c x|),
   (.min, 0x29, fun c x y _ => min (sa c x) (sa c y)),
   (.max, 0x2A, fun c x y _ => max (sa c x) (sa c y)),
   (.adds, 0x2B, fun c x y _ => max (intLow c) (min (intHigh c) (sa c x + sa c y))),
   (.subs, 0x2C, fun c x y _ => max (intLow c) (min (intHigh c) (sa c x - sa c y)))]

/-- Quotient and remainder (R269). -/
def divForms : List ((NodeRec → Instr) × Nat × (Nat → Nat → Nat → Int)) :=
  [(.div, 0x25, fun c x y => if sa c y = 0 then -1 else (sa c x).tdiv (sa c y)),
   (.rem, 0x26, fun c x y => if sa c y = 0 then sa c x else (sa c x).tmod (sa c y))]

/-- The bitwise forms: bit `j` of a lane from width, lanes of A and B, and `j` (R270 to R272). -/
def bitForms : List ((NodeRec → Instr) × Nat × (Nat → Nat → Nat → Nat → Bool)) :=
  [(.and, 0x30, fun _ x y j => x.testBit j && y.testBit j),
   (.or, 0x31, fun _ x y j => x.testBit j || y.testBit j),
   (.xor, 0x32, fun _ x y j => x.testBit j != y.testBit j),
   (.andn, 0x33, fun _ x y j => x.testBit j && !y.testBit j),
   (.not, 0x34, fun _ x _ j => !x.testBit j),
   (.shl, 0x35, fun _ x y j => decide (y ≤ j) && x.testBit (j - y)),
   (.shr, 0x36, fun w x y j => decide (j + y < w) && x.testBit (j + y)),
   (.sar, 0x37, fun w x y j => x.testBit (min (j + y) (w - 1))),
   (.rotl, 0x38, fun w x y j => x.testBit ((j + (w - y % w)) % w)),
   (.brev, 0x3E, fun w x _ j => x.testBit (w - 1 - j))]

/-- The counting forms: what the count `n` of a `w`-bit lane `x` satisfies (R272). -/
def countForms : List ((NodeRec → Instr) × Nat × (Nat → Nat → Nat → Prop)) :=
  [(.clz, 0x39, fun w x n => n ≤ w ∧ (∀ j, w - n ≤ j → j < w → x.testBit j = false) ∧ (n < w → x.testBit (w - 1 - n) = true)),
   (.ctz, 0x3A, fun w x n => n ≤ w ∧ (∀ j < n, x.testBit j = false) ∧ (n < w → x.testBit n = true)),
   (.popc, 0x3B, fun w x n => n = ((List.range w).filter fun j => x.testBit j).length)]

/-- The integer compares (R277). -/
def cmpForms : List ((NodeRec → Instr) × Nat × (Nat → Nat → Nat → Bool)) :=
  [(.cmpeq, 0x40, fun _ x y => x = y), (.cmpne, 0x41, fun _ x y => x ≠ y),
   (.cmplt, 0x42, fun c x y => sa c x < sa c y), (.cmple, 0x43, fun c x y => sa c x ≤ sa c y),
   (.cmpltn, 0x44, fun _ x y => x < y), (.cmplen, 0x45, fun _ x y => x ≤ y)]

/-- The predicate combiners (R278). -/
def predForms : List ((NodeRec → Instr) × Nat × (Nat → Nat → Bool)) :=
  [(.pand, 0x4B, fun x y => x.testBit 0 && y.testBit 0), (.por, 0x4C, fun x y => x.testBit 0 || y.testBit 0),
   (.pnot, 0x4D, fun x _ => !x.testBit 0)]

end Sys2Proof.Spec

/-- R261 to R269: each lane of an integer form's result is its exact integer result modulo 2^w; DIV rounds toward zero and REM takes the
dividend's sign, with the stated results for b = 0, and the divider is taken for 18 cycles. -/
def Obligations.IntegerLaneResults : Prop :=
  (∀ e ∈ Spec.intForms, ∀ (r : NodeRec) (s : State) (i : Issue), Spec.Runs s i r →
      Spec.FiresLanes (exec (e.1 r) s) (Spec.taken s) i e.2.1 r r.v (intWidth r.f) 0 fun k =>
        (e.2.2 r.f (lane (intWidth r.f) (valOf i.f.a) k) (lane (intWidth r.f) (opB e.2.1 r i.f) k)
          (lane (intWidth r.f) (valOf i.f.p) k) % 2 ^ intWidth r.f).toNat) ∧
  (∀ e ∈ Spec.divForms, ∀ (r : NodeRec) (s : State) (i : Issue), Spec.Runs s i r →
      Spec.FiresLanes (exec (e.1 r) s) ((Spec.taken s).divider i.elem) i e.2.1 r r.v (intWidth r.f) 0 (fun k =>
        (e.2.2 r.f (lane (intWidth r.f) (valOf i.f.a) k) (lane (intWidth r.f) (opB e.2.1 r i.f) k) % 2 ^ intWidth r.f).toNat) ∧
      Tab.find ((Spec.taken s).divider i.elem).fab.divBusy i.elem = some (s.cycles + 18))

/-- R270 to R275: each bit of a lane of the bitwise forms and shifts; the counts of zero and set bits; BFX moves the effective field down,
sign-extending it with an i code, and BFI replaces the effective field by the low bits of P. The descriptor on B holds POS in bits 5:0
and LEN in bits 12:6. -/
def Obligations.BitLaneResults : Prop :=
  (∀ e ∈ Spec.bitForms, ∀ (r : NodeRec) (s : State) (i : Issue), Spec.Runs s i r →
      ∃ x, exec (e.1 r) s = .next ((Spec.taken s).fireVal i e.2.1 r r.v x 0) ∧
        x < 2 ^ (intWidth r.f * laneCount (intWidth r.f) r.v) ∧
        ∀ k < laneCount (intWidth r.f) r.v, ∀ j < intWidth r.f,
          (lane (intWidth r.f) x k).testBit j =
            e.2.2 (intWidth r.f) (lane (intWidth r.f) (valOf i.f.a) k) (lane (intWidth r.f) (opB e.2.1 r i.f) k) j) ∧
  (∀ e ∈ Spec.countForms, ∀ (r : NodeRec) (s : State) (i : Issue), Spec.Runs s i r →
      ∃ x, exec (e.1 r) s = .next ((Spec.taken s).fireVal i e.2.1 r r.v x 0) ∧
        x < 2 ^ (intWidth r.f * laneCount (intWidth r.f) r.v) ∧
        ∀ k < laneCount (intWidth r.f) r.v,
          e.2.2 (intWidth r.f) (lane (intWidth r.f) (valOf i.f.a) k) (lane (intWidth r.f) x k)) ∧
  (∀ (r : NodeRec) (s : State) (i : Issue) (w pos len : Nat), Spec.Runs s i r → w = intWidth r.f →
      (∀ d, d = opB 0x3C r i.f → pos = d % 64 → len = min (d / 64 % 128) (w - pos) →
        ∃ x, exec (.bfx r) s = .next ((Spec.taken s).fireVal i 0x3C r r.v x 0) ∧ x < 2 ^ (w * laneCount w r.v) ∧
          ∀ k < laneCount w r.v, ∀ j < w, (lane w x k).testBit j =
            if j < len then (lane w (valOf i.f.a) k).testBit (pos + j)
            else r.f % 2 == 0 && decide (0 < len) && (lane w (valOf i.f.a) k).testBit (pos + len - 1)) ∧
      (∀ d, d = opB 0x3D r i.f → pos = d % 64 → len = min (d / 64 % 128) (w - pos) →
        ∃ x, exec (.bfi r) s = .next ((Spec.taken s).fireVal i 0x3D r r.v x 0) ∧ x < 2 ^ (w * laneCount w r.v) ∧
          ∀ k < laneCount w r.v, ∀ j < w, (lane w x k).testBit j =
            if pos ≤ j ∧ j < pos + len then (lane w (valOf i.f.p) k).testBit (j - pos)
            else (lane w (valOf i.f.a) k).testBit j))

/-- R276 to R279: compares and predicate combiners give 1 or 0 in each lane; PANY and PALL give one scalar over the lanes of A. -/
def Obligations.CompareAndPredicateResults : Prop :=
  (∀ e ∈ Spec.cmpForms, ∀ (r : NodeRec) (s : State) (i : Issue), Spec.Runs s i r →
    Spec.FiresLanes (exec (e.1 r) s) (Spec.taken s) i e.2.1 r r.v (intWidth r.f) 0 fun k =>
      if e.2.2 r.f (lane (intWidth r.f) (valOf i.f.a) k) (lane (intWidth r.f) (opB e.2.1 r i.f) k) then 1 else 0) ∧
  (∀ e ∈ Spec.predForms, ∀ (r : NodeRec) (s : State) (i : Issue), Spec.Runs s i r →
    Spec.FiresLanes (exec (e.1 r) s) (Spec.taken s) i e.2.1 r r.v (8 * 2 ^ (r.aux.toNat % 4)) 0 fun k =>
      if e.2.2 (lane (8 * 2 ^ (r.aux.toNat % 4)) (valOf i.f.a) k) (lane (8 * 2 ^ (r.aux.toNat % 4)) (opB e.2.1 r i.f) k)
      then 1 else 0) ∧
  (∀ (r : NodeRec) (s : State) (i : Issue) (w : Nat), Spec.Runs s i r → w = 8 * 2 ^ (r.aux.toNat % 4) →
    (∃ x, exec (.pany r) s = .next ((Spec.taken s).fireVal i 0x4E r false x 0) ∧
      x = if ∃ k, k < laneCount w r.v ∧ (lane w (valOf i.f.a) k).testBit 0 = true then 1 else 0) ∧
    (∃ x, exec (.pall r) s = .next ((Spec.taken s).fireVal i 0x4F r false x 0) ∧
      x = if ∀ k, k < laneCount w r.v → (lane w (valOf i.f.a) k).testBit 0 = true then 1 else 0))
/-! ### Floating-point forms, groups 0x4 to 0x7 -/

namespace Sys2Proof.Spec
open Sys2Proof.Machine

/-- The rational number (-1)^neg * m * 2^e. -/
def rat (neg : Bool) (m : Nat) (e : Int) : Rat := (if neg then -1 else 1) * m * (2 : Rat) ^ e

/-- The value of a finite code (R193); 0 for the others, which every use excludes. -/
def val : FV → Rat
  | .fin n m e => rat n m e
  | _ => 0

def isFin : FV → Bool
  | .fin .. => true
  | _ => false

/-- x < y for values that are no NaN. -/
def fltLt : FV → FV → Bool
  | .inf a, .inf b => a && !b
  | .inf a, _ => a
  | _, .inf b => !b
  | x, y => decide (val x < val y)

/-- x = y for values that are no NaN: +0 and −0 are equal. -/
def fltEq : FV → FV → Bool
  | .inf a, .inf b => a == b
  | .inf _, _ => false
  | _, .inf _ => false
  | x, y => decide (val x = val y)

/-- The float compares, from whether the operands are unordered and the operands (R287). -/
def fcmpForms : List ((NodeRec → Instr) × Nat × (Bool → FV → FV → Bool)) :=
  [(.fcmpeq, 0x46, fun un x y => !un && fltEq x y), (.fcmpne, 0x47, fun un x y => un || !fltEq x y),
   (.fcmplt, 0x48, fun un x y => !un && fltLt x y), (.fcmple, 0x49, fun un x y => !un && (fltLt x y || fltEq x y)),
   (.fcmpun, 0x4A, fun un _ _ => un)]

/-- The exact result of an arithmetic form before its one rounding (R282). -/
def arithForms : List ((NodeRec → Instr) × Nat × (Nat → FV → FV → FV → Exact)) :=
  [(.fadd, 0x50, fun m x y _ => addE m x y), (.fsub, 0x51, fun m x y _ => addE m x y.neg), (.fmul, 0x52, fun _ x y _ => mulE x y),
   (.fma, 0x53, fun m x y z => fmaE m x y z), (.fms, 0x54, fun m x y z => fmaE m x y z.neg),
   (.fnma, 0x55, fun m x y z => fmaE m x.neg y z)]

/-- The sign forms: the sign bit of the result from the sign bits of x and y (R284). -/
def signForms : List ((NodeRec → Instr) × Nat × (Bool → Bool → Bool)) :=
  [(.fabs, 0x58, fun _ _ => false), (.fneg, 0x59, fun x _ => !x), (.fsgn, 0x5A, fun _ y => y)]

/-- FMIN and FMAX on the values x and y of codes c and d (R283). -/
def minMax (mx : Bool) (f c d : Nat) (x y : FV) : Nat :=
  if x.isNan && y.isNan then fltNan f
  else if x.isNan then d
  else if y.isNan then c
  else if mx then (if fltLt y x || fltEq x y && (!x.sign || y.sign) then c else d)
  else (if fltLt x y || fltEq x y && (x.sign || !y.sign) then c else d)

/-- The class number of a value of format f (R285). -/
def classNumber (f : Nat) : FV → Nat
  | .nan s => if s then 8 else 9
  | .inf n => if n then 0 else 7
  | .fin n m e =>
    if m = 0 then (if n then 3 else 4)
    else if m < 2 ^ fltM f ∧ e = fltEmin f - fltM f then (if n then 2 else 5)
    else (if n then 1 else 6)

end Sys2Proof.Spec

/-- R287: the five float compares read values, so +0 and −0 are equal and a NaN is unordered; a signalling NaN sets NV. -/
def Obligations.FloatCompareResults : Prop :=
  ∀ e ∈ Spec.fcmpForms, ∀ (r : NodeRec) (s : State) (i : Issue), Spec.Runs s i r →
    Spec.FiresRounded (exec (e.1 r) s) (Spec.taken s) i e.2.1 r (fltWidth r.f) fun k =>
      let x := decodeF r.f (lane (fltWidth r.f) (valOf i.f.a) k)
      let y := decodeF r.f (lane (fltWidth r.f) (opB e.2.1 r i.f) k)
      (if e.2.2 (x.isNan || y.isNan) x y then 1 else 0, if x.isSnan || y.isSnan then flagNV else 0)

/-- R282: the arithmetic forms round the exact result of a lane once into FMT under RM and SAT, and set the flags of that one
rounding. -/
def Obligations.FloatArithmeticResults : Prop :=
  ∀ e ∈ Spec.arithForms, ∀ (r : NodeRec) (s : State) (i : Issue), Spec.Runs s i r →
    Spec.FiresRounded (exec (e.1 r) s) (Spec.taken s) i e.2.1 r (fltWidth r.f) fun k =>
      roundF r.f (r.aux.toNat % 4) (r.aux.toNat.testBit 2) (e.2.2 (r.aux.toNat % 4)
        (decodeF r.f (lane (fltWidth r.f) (valOf i.f.a) k)) (decodeF r.f (lane (fltWidth r.f) (opB e.2.1 r i.f) k))
        (decodeF r.f (lane (fltWidth r.f) (valOf i.f.p) k)))

/-- R201, R202, R282: sums, products and fused sums of finite values are exact before rounding; a product has the sign of IEEE 754, and so has an
exact zero sum, fused or not: kept when both terms, of a fused sum the product and the addend, are zeros of one sign, else positive except
toward −∞. -/
def Obligations.ArithmeticIsExact : Prop :=
  ∀ (m : Nat) (x y z : FV), Spec.isFin x = true → Spec.isFin y = true → Spec.isFin z = true →
    (∃ n q e, addE m x y = .num n q e false ∧ Spec.rat n q e = Spec.val x + Spec.val y ∧
      (Spec.val x + Spec.val y = 0 → n = if Spec.val x = 0 ∧ x.sign = y.sign then x.sign else m == 2)) ∧
    (∃ n q e, mulE x y = .num n q e false ∧ Spec.rat n q e = Spec.val x * Spec.val y ∧ n = (x.sign != y.sign)) ∧
    (∃ n q e, fmaE m x y z = .num n q e false ∧ Spec.rat n q e = Spec.val x * Spec.val y + Spec.val z ∧
      (Spec.val x * Spec.val y + Spec.val z = 0 →
        n = if Spec.val z = 0 ∧ (x.sign != y.sign) = z.sign then z.sign else m == 2))

/-- R200, R201: under RNE a number not above Max goes to a nearest finite code, to an even one when two are nearest, and NX says
whether it was inexact. -/
def Obligations.RoundsToNearestEven : Prop :=
  ∀ (f : Nat) (sat neg : Bool) (q : Nat) (e : Int), f ≤ 5 → q * (2 : Rat) ^ e ≤ Spec.val (decodeF f (fltMax f false)) →
    ∃ c fl, roundF f 0 sat (.num neg q e false) = (c, fl) ∧ Spec.isFin (decodeF f c) = true ∧ c < 2 ^ fltWidth f ∧
      (∀ d < 2 ^ fltWidth f, Spec.isFin (decodeF f d) = true →
        |Spec.val (decodeF f c) - Spec.rat neg q e| ≤ |Spec.val (decodeF f d) - Spec.rat neg q e| ∧
        (|Spec.val (decodeF f c) - Spec.rat neg q e| = |Spec.val (decodeF f d) - Spec.rat neg q e| →
          Spec.val (decodeF f d) ≠ Spec.val (decodeF f c) → c % 2 = 0)) ∧
      (fl.testBit 4 = true ↔ Spec.val (decodeF f c) ≠ Spec.rat neg q e)

/-- R283 to R286: FMIN, FMAX, the sign forms, FCLASS, and FRND, which rounds a finite value to an integral one of its own format,
keeps its sign, and sets NX when it was not integral. -/
def Obligations.FloatSelectSignClassRound : Prop :=
  (∀ (mx : Bool) (r : NodeRec) (s : State) (i : Issue), Spec.Runs s i r →
    Spec.FiresRounded (exec (if mx then .fmax r else .fmin r) s) (Spec.taken s) i (if mx then 0x57 else 0x56) r (fltWidth r.f) fun k =>
      let c := lane (fltWidth r.f) (valOf i.f.a) k
      let d := lane (fltWidth r.f) (opB (if mx then 0x57 else 0x56) r i.f) k
      (Spec.minMax mx r.f c d (decodeF r.f c) (decodeF r.f d),
        if (decodeF r.f c).isSnan || (decodeF r.f d).isSnan then flagNV else 0)) ∧
  (∀ e ∈ Spec.signForms, ∀ (r : NodeRec) (s : State) (i : Issue), Spec.Runs s i r →
    Spec.FiresLanes (exec (e.1 r) s) (Spec.taken s) i e.2.1 r r.v (fltWidth r.f) 0 fun k =>
      let c := lane (fltWidth r.f) (valOf i.f.a) k
      let d := lane (fltWidth r.f) (opB e.2.1 r i.f) k
      let top := fltWidth r.f - 1
      if (decodeF r.f c).isNan then fltNan r.f else c % 2 ^ top + if e.2.2 (c.testBit top) (d.testBit top) then 2 ^ top else 0) ∧
  (∀ (r : NodeRec) (s : State) (i : Issue), Spec.Runs s i r →
    Spec.FiresLanes (exec (.fclass r) s) (Spec.taken s) i 0x5B r r.v (fltWidth r.f) 0 fun k =>
      Spec.classNumber r.f (decodeF r.f (lane (fltWidth r.f) (valOf i.f.a) k))) ∧
  (∀ (r : NodeRec) (s : State) (i : Issue), Spec.Runs s i r →
    Spec.FiresRounded (exec (.frnd r) s) (Spec.taken s) i 0x5C r (fltWidth r.f) fun k =>
      let c := lane (fltWidth r.f) (valOf i.f.a) k
      match decodeF r.f c with
      | .nan sn => (fltNan r.f, if sn then flagNV else 0)
      | .inf _ => (c, 0)
      | .fin n m e =>
        let v := roundInt (r.aux.toNat % 4) n m e
        ((roundF r.f 0 false (.num n v.1.natAbs 0 false)).1, if (v.1 : Rat) = Spec.rat n m e then 0 else flagNX))
namespace Sys2Proof.Spec
open Sys2Proof.Machine

/-- The code that an infinite result gives in f32, f16 and bf16: ±Max under SAT. -/
def infCode (f : Nat) (sat neg : Bool) : Nat := if sat then fltMax f neg else fltInf f neg
/-- The code of ±0 and of ±1. -/
def zeroCode (f : Nat) (neg : Bool) : Nat := fltSign f neg
def oneCode (f : Nat) (neg : Bool) : Nat := fltSign f neg + (fltBias f).toNat * 2 ^ fltM f

/-- The special operands of the approximations (R208, R289): code and flags, none for an operand that is not special. -/
def special (opc f : Nat) (sat : Bool) (x : FV) : Option (Nat × Nat) :=
  match x with
  | .nan s => some (fltNan f, if s then flagNV else 0)
  | .inf n =>
    match opc with
    | 0x60 => some (zeroCode f n, 0)
    | 0x61 => some (if n then (fltNan f, flagNV) else (zeroCode f false, 0))
    | 0x64 => some (if n then zeroCode f false else infCode f sat false, 0)
    | 0x65 => some (if n then (fltNan f, flagNV) else (infCode f sat false, 0))
    | _ => some (oneCode f n, 0)
  | .fin n m _ =>
    if m = 0 then
      match opc with
      | 0x60 => some (infCode f sat n, flagDZ)
      | 0x61 => some (infCode f sat n, flagDZ)
      | 0x64 => some (oneCode f false, 0)
      | 0x65 => some (infCode f sat true, flagDZ)
      | _ => some (zeroCode f n, 0)
    else if n && (opc == 0x61 || opc == 0x65) then some (fltNan f, flagNV)
    else none

def approxForms : List ((NodeRec → Instr) × Nat) :=
  [(.frcp, 0x60), (.frsq, 0x61), (.fexp2, 0x64), (.flog2, 0x65), (.ftanh, 0x66)]

/-- The shape of a conversion (R290): how many elements a firing converts, and where element `k` comes from and goes to. -/
def convCount (v : Bool) (wa wr : Nat) : Nat := if v then 512 / max wa wr else 1
def convSrc (part n wa wr k : Nat) : Nat := if wa < wr then part * n + k else k
def convDst (part n wa wr k : Nat) : Nat := if wr < wa then part * n + k else k

/-- A conversion fires the elements that `g` gives, every other element zero, with the flags that some element sets. -/
def Converts (o : Out) (s : State) (i : Issue) (opc : Nat) (r : NodeRec) (wa wr : Nat) (g : Nat → Nat × Nat) : Prop :=
  ∃ x fl, o = .next (s.fireVal i opc r r.v x fl) ∧
    (∀ k < convCount r.v wa wr, lane wr x (convDst (r.l / 8 % 8) (convCount r.v wa wr) wa wr k) = (g k).1 % 2 ^ wr) ∧
    (∀ j, (∀ k < convCount r.v wa wr, j ≠ convDst (r.l / 8 % 8) (convCount r.v wa wr) wa wr k) → lane wr x j = 0) ∧
    ∀ b, fl.testBit b = true ↔ ∃ k < convCount r.v wa wr, (g k).2.testBit b = true

/-- The `k`-th draw from generator state `g`, and the state before it (R204). -/
def genAfter (g : W32) (k : Nat) : W32 := (fun g => (drawSR g).2)^[k] g

/-- Flags of a block scale: KIND 00 for element format `ef` and KIND 01 under the band scale `b`, of an amax that is not negative (R206, R207). -/
def scaleFlags (kind ef : Nat) (b y : FV) : Nat :=
  if kind = 0 then
    match y with
    | .fin false (m + 1) e => if e + Nat.log2 (m + 1) - scaleEmax ef < -127 then flagQLOW else 0
    | .fin .. => 0
    | _ => flagNV
  else
    match b, y with
    | .fin false (_ + 1) _, .nan _ => flagNV
    | .fin false (_ + 1) _, .inf _ => flagOF
    | .fin false (m + 1) e, y =>
      if val y = 0 then 0
      else if val y < 6 * rat false (m + 1) e * (2 : Rat) ^ (-8 : Int) then flagQLOW
      else if 6 * rat false (m + 1) e * (63 / 4) < val y then flagOF else 0
    | _, _ => flagNV
/-- The value of an E3M5 code (R196). -/
def e3m5Val (c : Nat) : Rat := if c < 32 then c * (2 : Rat) ^ (-8 : Int) else (32 + c % 32 : Nat) * (2 : Rat) ^ ((c / 32 : Nat) - 9 : Int)

/-- Element `k` of a conversion's source. -/
def convElem (r : NodeRec) (a wa wr k : Nat) : Nat :=
  lane wa a (convSrc (r.l / 8 % 8) (convCount r.v wa wr) wa wr k)

/-- The block of QPACK that element `k` goes to (R296). -/
def packBlock (r : NodeRec) (wa wr k : Nat) : Nat :=
  convDst (r.l / 8 % 8) (convCount r.v wa wr) wa wr k / (if r.l.testBit 6 then 8 else 32)
/-- What QPACK makes of element `k` (R206, R207, R296): a code that is not rounded, with its flags, or the exact value that is. -/
def packSrc (r : NodeRec) (i : Issue) (wa wr k : Nat) : Nat × Nat ⊕ Exact :=
  let x := fun (j : Nat) => decodeF r.f (convElem r (valOf i.f.a) wa wr j)
  let c := lane 8 (opB 0x75 r i.f) (packBlock r wa wr k)
  if r.l.testBit 6 then
    match decodeF 2 (valOf i.f.p % 2 ^ 16) with
    | .fin false (m + 1) e => if c = 0 then .inl (0, 0) else .inr (divE (x k) (.fin false ((e3m5 c).1 * (m + 1)) ((e3m5 c).2 + e)))
    | _ => .inl (0, flagNV)
  else if c = 0xFF then .inl (0, flagNV)
  else if c = 0 ∧ ∀ j < convCount r.v wa wr, packBlock r wa wr j = packBlock r wa wr k → (x j).isZero = true then
    .inr (.num false 0 0 false)
  else .inr (mulE (x k) (.fin false 1 (127 - (c : Int))))
/-- Elements before element `k` that QPACK rounds, and so draws for under SR (R204). -/
def packDraws (r : NodeRec) (i : Issue) (wa wr k : Nat) : Nat :=
  ((List.range k).filter fun j => (packSrc r i wa wr j).isRight).length

end Sys2Proof.Spec

/-- R208, R288, R289: FRCP, FRSQ, FEXP2, FLOG2 and FTANH compute each lane from that lane's code alone, so that equal operands give equal
results; the special operands give the stated codes and flags; FTANH is odd bit for bit. FSQRT and FDIV round the exact result of a
lane once into FMT, and the divider is taken for 18 cycles. -/
def Obligations.RootQuotientAndApproximationResults : Prop :=
  (∀ e ∈ Spec.approxForms, ∀ r : NodeRec, r.f ≤ 2 → ∃ g : Nat → Nat × Nat,
      (∀ (s : State) (i : Issue), Spec.Runs s i r →
        Spec.FiresRounded (exec (e.1 r) s) (Spec.taken s) i e.2 r (fltWidth r.f) fun k =>
          g (lane (fltWidth r.f) (valOf i.f.a) k)) ∧
      (∀ c y, Spec.special e.2 r.f (r.aux.toNat.testBit 2) (decodeF r.f c) = some y → g c = y) ∧
      (e.2 = 0x66 → ∀ c < 2 ^ (fltWidth r.f - 1), (decodeF r.f c).isNan = false →
        g (c + 2 ^ (fltWidth r.f - 1)) = ((g c).1 + 2 ^ (fltWidth r.f - 1), (g c).2))) ∧
  (∀ e ∈ ([(.fsqrt, 0x62, fun x _ => sqrtE x), (.fdiv, 0x63, divE)] : List ((NodeRec → Instr) × Nat × (FV → FV → Exact))),
      ∀ (r : NodeRec) (s : State) (i : Issue), Spec.Runs s i r →
        Spec.FiresRounded (exec (e.1 r) s) ((Spec.taken s).divider i.elem) i e.2.1 r (fltWidth r.f) (fun k =>
          roundF r.f (r.aux.toNat % 4) (r.aux.toNat.testBit 2) (e.2.2 (decodeF r.f (lane (fltWidth r.f) (valOf i.f.a) k))
            (decodeF r.f (lane (fltWidth r.f) (opB e.2.1 r i.f) k)))) ∧
        Tab.find ((Spec.taken s).divider i.elem).fab.divBusy i.elem = some (s.cycles + 18))

/-- R203, R290 to R293, R297: without SR, CVT, CVTI, CVTF and QUNPACK convert the elements that PART and the widths name, one
rounding each, and leave every other element zero. -/
def Obligations.ConversionResults : Prop :=
  ∀ (r : NodeRec) (s : State) (i : Issue), Spec.Runs s i r → r.aux.toNat.testBit 3 = false →
    (∀ wa wr, wa = fltWidth (r.l % 8) → wr = fltWidth r.f →
      Spec.Converts (exec (.cvt r) s) (Spec.taken s) i 0x70 r wa wr fun k =>
        roundF r.f (r.aux.toNat % 4) (r.aux.toNat.testBit 2 && !isWider (r.l % 8) r.f)
          (decodeF (r.l % 8) (Spec.convElem r (valOf i.f.a) wa wr k)).toExact) ∧
    (∀ wa wr, wa = fltWidth r.f → wr = intWidth (r.l % 8) →
      Spec.Converts (exec (.cvti r) s) (Spec.taken s) i 0x71 r wa wr fun k =>
        match decodeF r.f (Spec.convElem r (valOf i.f.a) wa wr k) with
        | .nan _ => (0, flagNV)
        | .inf n => (((if n then intLow (r.l % 8) else intHigh (r.l % 8)) % 2 ^ wr).toNat, flagNV)
        | .fin n m e =>
          let v := (roundInt (r.aux.toNat % 4) n m e).1
          if intLow (r.l % 8) ≤ v ∧ v ≤ intHigh (r.l % 8) then
            ((v % 2 ^ wr).toNat, if (v : Rat) = Spec.rat n m e then 0 else flagNX)
          else (((if v < 0 then intLow (r.l % 8) else intHigh (r.l % 8)) % 2 ^ wr).toNat, flagNV)) ∧
    (∀ wa wr, wa = intWidth (r.l % 8) → wr = fltWidth r.f →
      Spec.Converts (exec (.cvtf r) s) (Spec.taken s) i 0x72 r wa wr fun k =>
        let v := sa (r.l % 8) (Spec.convElem r (valOf i.f.a) wa wr k)
        roundF r.f (r.aux.toNat % 4) (r.aux.toNat.testBit 2) (.num (decide (v < 0)) v.natAbs 0 false)) ∧
    (∀ wa wr, wa = fltWidth (r.l % 8) → wr = fltWidth r.f →
      Spec.Converts (exec (.qunpack r) s) (Spec.taken s) i 0x76 r wa wr fun k =>
        let from_ := Spec.convSrc (r.l / 8 % 8) (Spec.convCount r.v wa wr) wa wr k
        roundF r.f (r.aux.toNat % 4) (r.aux.toNat.testBit 2) (blockValue (r.l.testBit 6) (r.l % 8)
          (lane wa (valOf i.f.a) from_) (lane 8 (opB 0x76 r i.f) (from_ / (if r.l.testBit 6 then 8 else 32)))
          (valOf i.f.p % 2 ^ 16)))

/-- R204, R290, R291, R293: under SR each element that CVT and CVTF convert draws once from the context's generator, in ascending
order, even when its value is exact; the generator is left after the last draw. -/
def Obligations.StochasticConversions : Prop :=
  ∀ (r : NodeRec) (s : State) (i : Issue) (wa wr : Nat) (g : W32), Spec.Runs s i r → r.aux.toNat.testBit 3 = true →
    g = (s.ctx i.elem i.ctx).gen →
    (wa = fltWidth (r.l % 8) → wr = fltWidth r.f →
      Spec.Converts (exec (.cvt r) s)
        ((Spec.taken s).setCtx i.elem i.ctx
          { s.ctx i.elem i.ctx with gen := Spec.genAfter g (Spec.convCount r.v wa wr) }) i 0x70 r wa wr fun k =>
        roundSR r.f (r.aux.toNat.testBit 2 && !isWider (r.l % 8) r.f) (drawSR (Spec.genAfter g k)).1
          (decodeF (r.l % 8) (Spec.convElem r (valOf i.f.a) wa wr k)).toExact) ∧
    (wa = intWidth (r.l % 8) → wr = fltWidth r.f →
      Spec.Converts (exec (.cvtf r) s)
        ((Spec.taken s).setCtx i.elem i.ctx
          { s.ctx i.elem i.ctx with gen := Spec.genAfter g (Spec.convCount r.v wa wr) }) i 0x72 r wa wr fun k =>
        let v := sa (r.l % 8) (Spec.convElem r (valOf i.f.a) wa wr k)
        roundSR r.f (r.aux.toNat.testBit 2) (drawSR (Spec.genAfter g k)).1 (.num (decide (v < 0)) v.natAbs 0 false))

/-- R204, R206, R207, R294 to R296, R298: QAMAX finds the largest magnitude of each block as an f32 code, NaN if any lane is a NaN. QSCALE gives
an E8M0 code, for KIND 01 the smallest E3M5 code that is enough under the band scale, and for KIND 10 the band scale itself, with the flags of
its lanes where no amax is negative (log entry 2). QPACK divides each element by its block's scale, one rounding with saturation each, by RM or
SR; a block of zeros gives +0 only, and a zero of another keeps its sign (log entry 94). SRSEED seeds the generator, storing 0x9E37_79B9 for 0,
and fires 1. -/
def Obligations.QuantisationResults : Prop :=
  ∀ (r : NodeRec) (s : State) (i : Issue), Spec.Runs s i r →
    (∀ w nl bs nb, w = fltWidth r.f → nl = laneCount w r.v →
      bs = min (if r.l % 4 = 0 then 8 else if r.l % 4 = 1 then 32 else nl) nl → nb = (nl + bs - 1) / bs →
      ∃ x, exec (.qamax r) s = .next ((Spec.taken s).fireVal i 0x73 r r.v x 0) ∧ x < 2 ^ (32 * nb) ∧
        ∀ j < nb, ∀ codes : List Nat,
          codes = ((List.range nl).filter fun k => k / bs == j).map (fun k => widenF32 r.f (lane w (valOf i.f.a) k % 2 ^ (w - 1)))
            ++ (if r.l.testBit 2 then [lane 32 (opB 0x73 r i.f) j] else []) →
          if codes.any fun c => (f32 c).isNan then lane 32 x j = fltNan 0
          else lane 32 x j ∈ (0 :: codes) ∧ ∀ c ∈ codes, Spec.fltLt (f32 (lane 32 x j)) (f32 c) = false) ∧
    (∀ n y b, n = laneCount 32 r.v → (y = fun k => f32 (lane 32 (valOf i.f.a) k)) → b = decodeF 2 (opB 0x74 r i.f % 2 ^ 16) →
      (∀ k < n, Spec.fltLt (y k) (.fin false 0 0) = false) →
      (r.l % 4 = 0 →
        ∃ x fl, exec (.qscale r) s = .next ((Spec.taken s).fireVal i 0x74 r r.v x fl) ∧ x < 2 ^ (8 * n) ∧
          (∀ f, fl.testBit f = true ↔ ∃ k < n, (Spec.scaleFlags 0 (r.l / 4 % 8) b (y k)).testBit f = true) ∧
          ∀ k < n,
            ((y k).isNan = true → lane 8 x k = 0xFF) ∧ (y k = .inf false → lane 8 x k = 0xFF) ∧ ((y k).isZero = true → lane 8 x k = 0) ∧
            ∀ m e, y k = .fin false m e → m ≠ 0 →
              (lane 8 x k : Int) = max 0 (e + Nat.log2 m - scaleEmax (r.l / 4 % 8) + 127)) ∧
      (r.l % 4 = 1 →
        ∃ x fl, exec (.qscale r) s = .next ((Spec.taken s).fireVal i 0x74 r r.v x fl) ∧ x < 2 ^ (8 * n) ∧
          (∀ f, fl.testBit f = true ↔ ∃ k < n, (Spec.scaleFlags 1 (r.l / 4 % 8) b (y k)).testBit f = true) ∧
          ∀ k < n,
            ((∀ m e, b ≠ .fin false (m + 1) e) → lane 8 x k = 0) ∧
            ∀ bm be, b = .fin false (bm + 1) be →
              ((y k).isNan = true → lane 8 x k = 0) ∧ (y k = .inf false → lane 8 x k = 0xFF) ∧ ((y k).isZero = true → lane 8 x k = 0) ∧
              ∀ m e, y k = .fin false (m + 1) e →
                1 ≤ lane 8 x k ∧ (∀ c, 1 ≤ c → c < lane 8 x k → 6 * Spec.val b * Spec.e3m5Val c < Spec.val (y k)) ∧
                (lane 8 x k ≠ 0xFF → Spec.val (y k) ≤ 6 * Spec.val b * Spec.e3m5Val (lane 8 x k))) ∧
      (r.l % 4 = 2 →
        ∃ x fl, exec (.qscale r) s = .next ((Spec.taken s).fireVal i 0x74 r r.v x fl) ∧ x < 2 ^ (16 * n) ∧
          ∀ g : Nat → Nat × Nat, (g = fun k => if (y k).isZero then (0x3F80, 0) else roundF 2 3 false (divE (y k) (.fin false 189 (-1)))) →
            (∀ k < n, lane 16 x k = (g k).1 % 2 ^ 16) ∧ ∀ f, fl.testBit f = true ↔ ∃ k < n, (g k).2.testBit f = true)) ∧
    (∀ wa wr g, wa = fltWidth r.f → wr = fltWidth (r.l % 8) → g = (s.ctx i.elem i.ctx).gen →
      (r.aux.toNat.testBit 3 = false →
        Spec.Converts (exec (.qpack r) s) (Spec.taken s) i 0x75 r wa wr fun k =>
          match Spec.packSrc r i wa wr k with
          | .inl y => y
          | .inr x => roundF (r.l % 8) (r.aux.toNat % 4) true x) ∧
      (r.aux.toNat.testBit 3 = true →
        Spec.Converts (exec (.qpack r) s)
          ((Spec.taken s).setCtx i.elem i.ctx
            { s.ctx i.elem i.ctx with gen := Spec.genAfter g (Spec.packDraws r i wa wr (Spec.convCount r.v wa wr)) }) i 0x75 r wa wr fun k =>
          match Spec.packSrc r i wa wr k with
          | .inl y => y
          | .inr x => roundSR (r.l % 8) true (drawSR (Spec.genAfter g (Spec.packDraws r i wa wr k))).1 x)) ∧
    (∀ v : W32, v = (if r.lit then r.lit32 else BitVec.ofNat 32 (valOf i.f.a)) →
      ∃ t, exec (.srseed r) s = .next (t.fireVal i 0x77 r false 1 0) ∧
        t = (Spec.taken s).setCtx i.elem i.ctx { s.ctx i.elem i.ctx with
          gen := if v = 0 then 0x9E3779B9 else v
          lastSeed := if v = 0 then 0x9E3779B9 else v })
/-! ### Lane forms, steering and intervals, groups 0x8, 0x0 and 0x1 -/

namespace Sys2Proof.Spec
open Sys2Proof.Machine

/-- The data-moving lane forms: lane `k` of the result from the lanes of A and B, the whole of B, the control literal, the
subop bit, and the number of lanes (R300). -/
def moveForms : List ((NodeRec → Instr) × Nat × ((Nat → Nat) → (Nat → Nat) → Nat → Nat → Bool → Nat → Nat → Nat)) :=
  [(.vshuf, 0x80, fun a b _ _ z n k => if b k < n then a (b k) else if z then 0 else a (b k % n)),
   (.vbcast, 0x81, fun a _ _ l sub _ _ => a (if sub then l else 0)),
   (.vins, 0x83, fun a b _ l _ _ k => if k = l then b 0 else a k),
   (.vpack, 0x87, fun a b _ l _ _ k => if k < l then a k else b k),
   (.vunpk, 0x88, fun a b _ _ h n k => (if k % 2 = 0 then a else b) (k / 2 + if h then n / 2 else 0)),
   (.vslide, 0x8A, fun a b _ l _ n k => if k + l < n then a (k + l) else b (k + l - n)),
   (.vrotl, 0x8B, fun a _ bv _ _ n k => a ((k + (n - bv % 2 ^ 32 % n)) % n))]

/-- The balanced pairwise tree over 2^n lanes from lane `lo`: value and flags (R209). -/
def tree (g : Nat → Nat → Nat × Nat) (f : Nat → Nat) : Nat → Nat → Nat × Nat
  | 0, lo => (f lo, 0)
  | n + 1, lo =>
    let x := tree g f n lo
    let y := tree g f n (lo + 2 ^ n)
    ((g x.1 y.1).1, x.2 ||| y.2 ||| (g x.1 y.1).2)

/-- One combination of a lane reduction (R301). -/
def treeForms : List ((NodeRec → Instr) × Nat × (NodeRec → Nat → Nat → Nat × Nat)) :=
  [(.vredadd, 0x84, fun r x y => if r.t then roundF r.f 0 false (addE 0 (decodeF r.f x) (decodeF r.f y))
                                 else ((x + y) % 2 ^ intWidth r.f, 0)),
   (.vredmax, 0x85, fun r x y => if r.t then minMaxF r.f true x y else (if sa r.f y ≤ sa r.f x then x else y, 0)),
   (.vredmin, 0x86, fun r x y => if r.t then minMaxF r.f false x y else (if sa r.f x ≤ sa r.f y then x else y, 0))]

/-- The running sum after lane `k` (R302). -/
def runningSum (r : NodeRec) (f : Nat → Nat) : Nat → Nat
  | 0 => if r.t then (roundF r.f 0 false (decodeF r.f (f 0)).toExact).1 else f 0
  | k + 1 => if r.t then (roundF r.f 0 false (addE 0 (decodeF r.f (runningSum r f k)) (decodeF r.f (f (k + 1))))).1
             else (runningSum r f k + f (k + 1)) % 2 ^ intWidth r.f

/-- The payload that a node forwards: A's value cut to the node's width, NULL and poison kept (R97, R307), with the address that the poison was
read at (log entry 96). -/
def forward (r : NodeRec) (x : Pay) : Pay :=
  { val := BitVec.ofNat 512 (if r.v then x.val.toNat else x.val.toNat % 2 ^ r.data.width), vec := r.v && !x.null, null := x.null,
    pois := x.pois, psrc := x.psrc, paddr := x.paddr }

/-- A form that decides its own NULL and poisoned operands gets to its body: its predicate passes (R306). -/
def OwnRuns (s : State) (i : Issue) (r : NodeRec) : Prop := s.cur = some i ∧ i.f.pNull = false ∧ i.f.predFails r = false

/-- The beat to one destination alone, or to both. -/
def beat (x : Pay) (lo hi : Nat) (to0 to1 : Bool) : Beat :=
  { pay := x, lo := lo, hi := hi, front := false, to0 := to0, to1 := to1 }
def front (lo : Nat) : Beat := { pay := .mkNull, lo := lo, hi := 0, front := true, to0 := true, to1 := true }

/-- The result over a new interval: a FRONT token where it is empty (R314). -/
def overNew (x : Pay) (lo hi : Nat) : Beat := if lo < hi then beat x lo hi true true else front lo

/-- The new interval of ISHIFT, ICLIP and IWIDEN from that of A (R313, R314). -/
def newInterval (opc : Nat) (sub : Bool) (l lo hi : Nat) : Nat × Nat :=
  let d : Int := if 2 ^ 31 ≤ l then (l : Int) - 2 ^ 32 else l
  let nlo : Int := if opc = 0x10 then lo + d else if opc = 0x11 ∧ sub = false then max lo l else lo
  let nhi : Int := if opc = 0x10 then hi + d else if opc = 0x11 then (if sub then min hi l else hi) else hi + l
  let open_ := (opc == 0x12 && !sub) || hi == 0xFFFFFFFF && !(opc == 0x11 && sub)
  ((min (max nlo 0) 0xFFFFFFFF).toNat, if open_ then 0xFFFFFFFF else (min (max nhi 0) 0xFFFFFFFE).toNat)

def intervalForms : List ((NodeRec → Instr) × Nat) := [(.ishift, 0x10), (.iclip, 0x11), (.iwiden, 0x12)]

end Sys2Proof.Spec

/-- R209, R299 to R301: the data-moving lane forms copy lanes bit for bit and set no flag; VEXT gives one lane as a scalar; the lane
reductions combine lanes in the balanced pairwise tree and set the flags that its additions set. -/
def Obligations.LaneMoveAndReductionResults : Prop :=
  ((∀ e ∈ Spec.moveForms, ∀ (r : NodeRec) (s : State) (i : Issue) (w : Nat), Spec.Runs s i r → w = r.data.width →
      Spec.FiresLanes (exec (e.1 r) s) (Spec.taken s) i e.2.1 r true w 0 fun k =>
        e.2.2 (lane w (valOf i.f.a)) (lane w (opB e.2.1 r i.f)) (opB e.2.1 r i.f) r.l (r.aux.toNat.testBit 1) (512 / w) k) ∧
    (∀ (r : NodeRec) (s : State) (i : Issue), Spec.Runs s i r →
      exec (.vext r) s = .next ((Spec.taken s).fireVal i 0x82 r false (lane r.data.width (valOf i.f.a) r.l) 0))) ∧
  (∀ e ∈ Spec.treeForms, ∀ (r : NodeRec) (s : State) (i : Issue) (n : Nat), Spec.Runs s i r → r.dataOk = true →
      512 = r.data.width * 2 ^ n →
      ∃ fl, exec (e.1 r) s =
          .next ((Spec.taken s).fireVal i e.2.1 r false (Spec.tree (e.2.2 r) (lane r.data.width (valOf i.f.a)) n 0).1 fl) ∧
        fl = (Spec.tree (e.2.2 r) (lane r.data.width (valOf i.f.a)) n 0).2)

/-- R209, R302: VSCAN gives the running sums from lane 0 upward, each rounded, that of lane 0 of an inclusive scan too (log entry 21); the exclusive
scan starts with +0. -/
def Obligations.LaneScanResults : Prop :=
  ∀ (r : NodeRec) (s : State) (i : Issue) (w : Nat), Spec.Runs s i r → w = r.data.width → r.dataOk = true →
    ∃ x fl, exec (.vscan r) s = .next ((Spec.taken s).fireVal i 0x89 r true x fl) ∧ x < 2 ^ 512 ∧
      ∀ k < 512 / w, lane w x k =
        if r.aux.toNat.testBit 1 then (if k = 0 then 0 else Spec.runningSum r (lane w (valOf i.f.a)) (k - 1))
        else Spec.runningSum r (lane w (valOf i.f.a)) k

/-- R242, R306 to R312: MOV and GATE forward A, LITE fires the literal in every lane, SEL chooses lane by lane; STEER sends A to the
destination that bit 0 of B names and NULL to the other; MERGE forwards the non-NULL one of A and B; SINK produces nothing;
NULLIFY fires NULL; ISNULL fires whether A is NULL; VOTE3 forwards the copy its vote found. A value forwarded is cut to the node's width (log
entry 22), and NULL is decided before poison (log entry 17). -/
def Obligations.SteeringResults : Prop :=
  ∀ (r : NodeRec) (s : State) (i : Issue),
    (Spec.Runs s i r →
      exec (.mov r) s = .next ((Spec.taken s).fireVal i 0x01 r r.v (if r.v then valOf i.f.a else valOf i.f.a % 2 ^ r.data.width) 0) ∧
      exec (.gate r) s = .next ((Spec.taken s).fireVal i 0x04 r r.v (if r.v then valOf i.f.a else valOf i.f.a % 2 ^ r.data.width) 0) ∧
      exec (.lite r) s = .next ((Spec.taken s).fireVal i 0x07 r r.v (expandLit r.data r.v r.l) 0) ∧
      Spec.FiresLanes (exec (.sel r) s) (Spec.taken s) i 0x08 r r.v r.data.width 0 fun k =>
        if (lane r.data.width (valOf i.f.p) k).testBit 0 then lane r.data.width (valOf i.f.a) k
        else lane r.data.width (opB 0x08 r i.f) k) ∧
    (s.cur = some i → exec (.sink r) s = .next (Spec.taken s)) ∧
    (s.cur = some i → ∀ a, i.f.a = some a →
      exec (.vote3 r) s = .next ((Spec.taken s).emit i r 2
        [{ pay := a, lo := i.f.lo, hi := i.f.hi, front := i.f.front, to0 := true, to1 := true }])) ∧
    (Spec.OwnRuns s i r → (∀ x, i.f.p = some x → x.pois = false) → ∀ a b, i.f.a = some a →
      (a.pois = false → b.pois = false → a.null = false → b.null = false → i.f.b = some b →
        exec (.steer r) s = .next (((Spec.taken s).setFlags i.elem i.ctx i.f.fl).emit i r 2
          [Spec.beat (if b.val.toNat.testBit 0 then Spec.forward r a else .mkNull) i.f.lo i.f.hi true false,
           Spec.beat (if b.val.toNat.testBit 0 then .mkNull else Spec.forward r a) i.f.lo i.f.hi false true])) ∧
      ((a.null || b.null) = true → i.f.b = some b →
        exec (.steer r) s = .next ((Spec.taken s).emit i r 2 [Spec.beat .mkNull i.f.lo i.f.hi true true])) ∧
      (i.f.b = some b → ∀ y, y = Spec.forward r (if a.null then b else a) →
        exec (.merge r) s = .next (((Spec.taken s).setFlags i.elem i.ctx (if y.null then 0 else i.f.fl)).emit i r 2
          [Spec.beat y i.f.lo i.f.hi true true])) ∧
      exec (.nullify r) s = .next ((Spec.taken s).emit i r 2 [Spec.beat .mkNull i.f.lo i.f.hi true true]) ∧
      ((a.null || !a.pois) = true →
        exec (.isnull r) s = .next ((Spec.taken s).fireVal i 0x09 r false (if a.null then 1 else 0) 0)))

/-- R97, R313 to R317: the interval forms change the tag and leave the value; ISPLIT's pieces are at most sixteen, adjoining and
ascending, all but the last of length l, from A's lo to its hi; IFRONT sends a FRONT token after A. The interval of ISHIFT, ICLIP, IWIDEN,
ISPLIT, ILO and IHI is that of A's own token (log entry 16). -/
def Obligations.IntervalResults : Prop :=
  (∀ (r : NodeRec) (s : State) (i : Issue) (a : Pay), Spec.OwnRuns s i r → (∀ x, i.f.p = some x → x.pois = false) → i.f.a = some a →
    (∀ e ∈ Spec.intervalForms, i.f.alo ≤ 0xFFFFFFFF →
      exec (e.1 r) s = .next ((Spec.taken s).emit i r 2 [Spec.overNew (Spec.forward r a)
        (Spec.newInterval e.2 (r.aux.toNat.testBit 1) r.l i.f.alo i.f.ahi).1
        (Spec.newInterval e.2 (r.aux.toNat.testBit 1) r.l i.f.alo i.f.ahi).2])) ∧
    (0 < r.l → i.f.alo < i.f.ahi → ∃ cuts : List Nat, 2 ≤ cuts.length ∧ cuts.length ≤ 17 ∧ cuts.head? = some i.f.alo ∧
      cuts.getLast? = some i.f.ahi ∧
      (∀ k, k + 2 < cuts.length → cuts.getD (k + 1) 0 = cuts.getD k 0 + r.l ∧ cuts.getD (k + 1) 0 < i.f.ahi) ∧
      (cuts.length < 17 → cuts.getD (cuts.length - 1) 0 ≤ cuts.getD (cuts.length - 2) 0 + r.l) ∧
      exec (.isplit r) s = .next ((Spec.taken s).emit i r 2
        ((cuts.zip cuts.tail).map fun c => Spec.beat (Spec.forward r a) c.1 c.2 true true))) ∧
    ((a.null || !a.pois) = true →
      exec (.ifront r) s = .next ((Spec.taken s).emit i r 2
        [Spec.beat (Spec.forward r a) i.f.lo i.f.hi true true,
         Spec.front (if r.aux.toNat.testBit 1 then 0xFFFFFFFF else i.f.ahi)]) ∧
      ∀ b, i.f.b = some b → b.null = false → b.pois = false →
        exec (.istamp r) s = .next (((Spec.taken s).setFlags i.elem i.ctx (if a.null then 0 else i.f.fl)).emit i r 2
          [Spec.overNew (Spec.forward r a) (b.val.toNat % 2 ^ 32) (b.val.toNat / 2 ^ 32 % 2 ^ 32)]))) ∧
  (∀ (r : NodeRec) (s : State) (i : Issue), Spec.Runs s i r →
    exec (.ilo r) s = .next ((Spec.taken s).fireVal i 0x14 r false i.f.alo 0) ∧
    exec (.ihi r) s = .next ((Spec.taken s).fireVal i 0x15 r false i.f.ahi 0))

/-! ### Memory: the Glasshouse, accesses, block forms, watches (R147 to R182, R332 to R349) -/

namespace Sys2Proof.Spec
open Sys2Proof.Machine

/-- Whether a Glasshouse slice holds the line of a physical address. -/
def heldLine (m : Memory) (pa : Nat) : Bool := (m.wayOf (pa / 128)).isSome
/-- The byte that a local physical address holds: the Glasshouse line's, else the bank's or stack's. -/
def byteAt (m : Memory) (pa : Nat) : Byte := if heldLine m pa then Tab.getD m.main pa 0 else Tab.getD m.dram pa 0
/-- The poison mark of a 16-byte part of local memory (R228). -/
def markAt (m : Memory) (part : Nat) : Bool :=
  if heldLine m (part * 16) then Tab.getD m.mainPois part false else Tab.getD m.dramPois part false

/-- The Glasshouse is in order: cells and marks are canonical, every line lies in one way of its own set, and a clean line holds what
its bank or stack holds (R157, R432). -/
structure Coherent (m : Memory) : Prop where
  cells : Tab.wf 0 m.main = true ∧ Tab.wf 0 m.dram = true ∧ Tab.wf false m.mainPois = true ∧ Tab.wf false m.dramPois = true
  rising : m.lines.Pairwise fun x y => x.1 < y.1
  home : ∀ k line d, Tab.find m.lines k = some (line, d) → k / 16 = m.setKey line
  once : ∀ k k' line d d', Tab.find m.lines k = some (line, d) → Tab.find m.lines k' = some (line, d') → k = k'
  clean : ∀ k line, Tab.find m.lines k = some (line, false) →
    (∀ a, a / 128 = line → Tab.getD m.main a 0 = Tab.getD m.dram a 0) ∧
    ∀ p, p * 16 / 128 = line → Tab.getD m.mainPois p false = Tab.getD m.dramPois p false

/-- Two memories show the same bytes and marks. -/
def SameBytes (m n : Memory) : Prop := (∀ a, byteAt n a = byteAt m a) ∧ ∀ p, markAt n p = markAt m p

/-- The byte at a place (R147). -/
def byteOf (s : State) (k : PlaceKind) (a : Nat) : Byte :=
  match k with
  | .global => byteAt s.mem a
  | .buffer => Tab.getD s.mem.bank a 0
  | .scratch => Tab.getD s.mem.scratch a 0
  | .domain => 0

/-- Bits of a code, block length, NB4, of the FMTA codes 7 to 10 (R198). -/
def blockForms : List (Nat × Nat × Nat × Bool) := [(7, 4, 8, true), (8, 8, 32, false), (9, 8, 32, false), (10, 4, 32, false)]
/-- Lane `k` of an LDB of the elements from `e` on of a tensor of rows of `l`, from the bytes it read: codes, scales, band (R198, R339). -/
def blockLane (r : NodeRec) (b : Nat × Nat × Nat × Bool) (l e : Nat) (bs : List Byte) (k : Nat) : Nat × Nat :=
  let nl := 512 / fltWidth r.f
  roundF r.f 0 false (blockValue b.2.2.2 (if b.1 = 7 then 5 else b.1 - 5)
    (lane b.2.1 (Sys2Proof.ofBytes (bs.take (nl * b.2.1 / 8))) k)
    ((bs[nl * b.2.1 / 8 + ((e % l + k) / b.2.2.1 - e % l / b.2.2.1)]?.getD 0).toNat)
    (Sys2Proof.ofBytes ((bs.drop (nl * b.2.1 / 8 + ((e % l + nl - 1) / b.2.2.1 - e % l / b.2.2.1 + 1))).take 2)))

/-- The state once the event at hand is taken. -/
def quiet (s : State) : State := { s with inp := none }
/-- A form that is kept since its issue (R161, R163, R335). -/
def kept (s : State) (i : Issue) (ins : Instr) : State :=
  { s with fresh := s.fresh + 1, fab := { s.fab with held := s.fab.held ++ [{ id := s.fresh, instr := ins, iss := i, since := s.cycles }] } }

/-- A memory form: constructor, opcode, whether it writes, whether it moves a whole vector (R333). -/
def memForms : List ((NodeRec → Instr) × Nat × Bool × Bool) :=
  [(.ld, 0x90, false, false), (.st, 0x91, true, false), (.ldv, 0x92, false, true), (.stv, 0x93, true, true),
   (.amoadd, 0xA0, true, false), (.amofadd, 0xA1, true, false), (.amomin, 0xA2, true, false), (.amomax, 0xA3, true, false),
   (.amoand, 0xA4, true, false), (.amoor, 0xA5, true, false), (.amoxor, 0xA6, true, false), (.amoswp, 0xA7, true, false),
   (.amocas, 0xA8, true, false), (.wakea, 0xAB, true, false)]

/-- The firing of a memory node is on record: a writing node's under its LSID, with no wrong count (R335, R336). -/
def Counted (s : State) (i : Issue) (r : NodeRec) (write : Bool) (s1 : State) : Prop :=
  if write then (taken s).account i (.lsid r.x) true = (true, s1) else s1 = (taken s).noteFired i true

/-- The address of R245. -/
def address (r : NodeRec) (i : Issue) : Nat := (((valOf i.f.a % 2 ^ 64 : Nat) + r.offset : Int) % 2 ^ 64).toNat

/-- The access that a memory form leaves behind when it issues. -/
def issued (s : State) (i : Issue) (ins : Instr) (pl : Place) (n : Nat) (data data2 : List Byte) (write : Bool) : Access :=
  { id := s.fresh, instr := ins, iss := i, kind := pl.kind,
    parts := if n ≤ 16 then [(pl.addr, n)] else (List.range (n / 16)).map fun k => (pl.addr + 16 * k, 16),
    data := data, data2 := data2, write := write, todo := if n ≤ 16 then 1 else 2 ^ (n / 16) - 1, result := .done, got := [],
    attr := 0, since := s.cycles,
    waits := write && !s.isOldest i.f.aid && decide (64 ≤ s.heldAt (s.memPort i.elem)), sent := false }

/-- The sum of two f32 lanes, rounded by RNE (R341). -/
def f32Sum (x y : Nat) : Nat := (roundF 0 0 false (addE 0 (decodeF 0 x) (decodeF 0 y))).1
/-- The new value of an atomic from the old, B and P, at `w` bits; none writes nothing (R341). -/
def atomicForms : List (Nat × (Nat → Nat → Nat → Nat → Option Nat)) :=
  [(0xA0, fun w x b _ => some ((x + b) % 2 ^ w)),
   (0xA1, fun w x b _ => some (mapLanes 32 (w == 128) fun k => f32Sum (lane 32 x k) (lane 32 b k))),
   (0xA2, fun w x b _ => some (if signed w x ≤ signed w b then x else b)),
   (0xA3, fun w x b _ => some (if signed w b ≤ signed w x then x else b)),
   (0xA4, fun _ x b _ => some (x &&& b)), (0xA5, fun _ x b _ => some (x ||| b)), (0xA6, fun _ x b _ => some (x ^^^ b)),
   (0xA7, fun _ _ b _ => some b), (0xA8, fun _ x b c => if x = b then some c else none)]

/-- An access waits under a number and may perform now. -/
def MayGo (s : State) (id : Nat) (x : Access) : Prop :=
  s.mem.acc.find? (fun y => y.id == id) = some x ∧ x.todo ≠ 0 ∧ x.sent = false ∧ s.mayPerform x = true ∧ x.kind ≠ .domain

/-- A remap that the access waited for has left it past the capacity (R160, R161). -/
def Beyond (s : State) (x : Access) : Prop := x.kind = .global ∧ ∃ y ∈ x.parts, y.1 < outerBase ∧ s.mem.capacity < y.1 + y.2
/-- The poison mark of an aligned 16-byte part of a place (R228). -/
def markOf (s : State) (k : PlaceKind) (part : Nat) : Bool :=
  match k with
  | .global => markAt s.mem part
  | .buffer => Tab.getD s.mem.bankPois part false
  | .scratch => Tab.getD s.mem.scratchPois part false
  | .domain => false
/-- Some part that `n` bytes from `a` touch is marked. -/
def Marked (s : State) (k : PlaceKind) (a n : Nat) : Prop := 0 < n ∧ ∃ p, a / 16 ≤ p ∧ p * 16 < a + n ∧ markOf s k p = true
/-- The bytes that the places of an access hold, in its order. -/
def bytesAtParts (s : State) (x : Access) : List Byte := x.parts.flatMap fun y => (List.range y.2).map fun j => byteOf s x.kind (y.1 + j)
/-- A load may bind all its parts now, of which none is bound and no later load of its thread has bound a byte (R173). -/
def MayBind (s : State) (id : Nat) (x : Access) : Prop :=
  MayGo s id x ∧ Coherent s.mem ∧ Tab.wf 0 s.mem.bank = true ∧ Tab.wf 0 s.mem.scratch = true ∧ ¬ Beyond s x ∧ x.got = [] ∧ x.snap = [] ∧
    x.todo = 2 ^ x.parts.length - 1 ∧ s.firstOfNode x = true
/-- The line that the region L1 of the access's task and context holds for it, where its scope lets it look there (R154). -/
def l1Line (s : State) (x : Access) : Option (List Byte) :=
  match s.task? (s.issTid x.iss), x.parts.head? with
  | some t, some (a, _) =>
    if x.kind = .global ∧ x.node.scope ≤ 1 ∧ s.l1Banks t x.iss.ctx ≠ [] then
      (Tab.find s.mem.l1 (l1Key (s.issTid x.iss) x.iss.ctx (a / 64))).map (·.1)
    else none
  | _, _ => none
/-- Part `k` of an access performs now, with the first byte of its data. -/
def Goes (x : Access) (mask k a n off : Nat) : Prop :=
  x.parts[k]? = some (a, n) ∧ mask.testBit k = true ∧ x.todo.testBit k = true ∧ off = ((x.parts.take k).map (·.2)).sum

end Sys2Proof.Spec

/-- R157, R166, R228, R432: with a Glasshouse in order, a read gives the bytes of the addresses it names and tells whether a part it
touches is poisoned; a write changes exactly the bytes it stores; filling, cleaning and evicting lines change no byte and no mark;
and the Glasshouse stays in order. -/
def Obligations.GlasshouseIsTransparent : Prop :=
  ∀ m : Memory, Spec.Coherent m →
    (∀ pa n bs p m', m.read pa n = (bs, p, m') →
      bs = (List.range n).map (fun i => Spec.byteAt m (pa + i)) ∧
      (p = true ↔ 0 < n ∧ ∃ k, pa / 16 ≤ k ∧ k * 16 < pa + n ∧ Spec.markAt m k = true) ∧ Spec.SameBytes m m' ∧ Spec.Coherent m') ∧
    (∀ pa bs pois m', m.write pa bs pois = m' →
      (∀ a, Spec.byteAt m' a = if pa ≤ a then (bs[a - pa]?).getD (Spec.byteAt m a) else Spec.byteAt m a) ∧
      (∀ k, k * 16 + 16 ≤ pa ∨ pa + bs.length ≤ k * 16 → Spec.markAt m' k = Spec.markAt m k) ∧
      (∀ k, pa ≤ k * 16 → k * 16 + 16 ≤ pa + bs.length → Spec.markAt m' k = pois) ∧ Spec.Coherent m') ∧
    (∀ line, Spec.SameBytes m (m.touch line).2 ∧ Spec.Coherent (m.touch line).2) ∧
    (∀ line w, m.wayOf line = none → m.fillWay line = some w → Spec.SameBytes m (m.fillAt line w) ∧ Spec.Coherent (m.fillAt line w)) ∧
    (∀ line, Spec.SameBytes m (m.clean line) ∧ Spec.Coherent (m.clean line)) ∧
    (∀ key, Spec.SameBytes m (m.evict key) ∧ Spec.Coherent (m.evict key))

/-- R161, R163, R191, R245, R333, R335 to R337, R341, R347: a memory form that issues is on record under its LSID, and leaves one access of its
size at the address A + OFFSET, with the data that B and P bring; a scalar access that may perform does so at once. An address that
fails a check raises its trap with the node's LSID. A write that its activation has performed before fires its first result, and an
aligned address whose page walk a remap or an open row bars is kept until the walk may go on (log entry 41). -/
def Obligations.MemoryFormsIssue : Prop :=
  ∀ e ∈ Spec.memForms, ∀ (r : NodeRec) (s s1 : State) (i : Issue) (n : Nat), Spec.Runs s i r → Spec.Counted s i r e.2.2.1 s1 →
    n = (if e.2.2.2 then 64 else 2 ^ (r.fmt.toNat)) → (e.2.2.2 = false → r.fmt.toNat ≤ 4) →
    (∀ p, e.2.2.1 = true → s1.performedBy i r.x = some p →
      ∃ u : State, exec (e.1 r) s = .next (u.reply i r p.result) ∧ u.mem.acc = s1.mem.acc ∧ u.fab = s1.fab ∧ u.tsk = s1.tsk ∧ u.eng = s1.eng ∧
        u.settings = s1.settings ∧ (Spec.Coherent s1.mem → Spec.SameBytes s1.mem u.mem)) ∧
    ((e.2.2.1 = true → s1.performedBy i r.x = none) → r.space = 0 → Spec.address r i % n = 0 →
      s1.walkReady (s1.memPort i.elem) (s1.issAsid i) (Spec.address r i) e.2.2.1 = false →
      exec (e.1 r) s = .next (Spec.kept s1 i (e.1 r))) ∧
    ((e.2.2.1 = true → s1.performedBy i r.x = none) →
      (r.space = 0 → Spec.address r i % n = 0 →
        s1.walkReady (s1.memPort i.elem) (s1.issAsid i) (Spec.address r i) e.2.2.1 = true) →
      (∀ t s2, s1.locate i r.space (Spec.address r i) n e.2.2.1 = (.error t, s2) →
        exec (e.1 r) s = .next (s2.raise i { t with lsid := r.x })) ∧
      ∀ pl at_ s2 x, s1.locate i r.space (Spec.address r i) n e.2.2.1 = (.ok (pl, at_), s2) →
        x = Spec.issued s2 i (e.1 r) pl n (if e.2.2.1 then bytesOf n (opB e.2.1 r i.f) else [])
          (if e.2.1 = 0xA8 then bytesOf n (valOf i.f.p) else []) e.2.2.1 →
        ∃ t, t.mem = { s2.mem with acc := s2.mem.acc ++ [x] } ∧ t.settings = s2.settings ∧ t.tsk = s2.tsk ∧ t.eng = s2.eng ∧
          (x.waits = false → t.fab = s2.fab) ∧ t.fresh = s2.fresh + 1 ∧
          exec (e.1 r) s = .next (if n ≤ 16 then t.perform x 1 else t))

/-- R160, R161, R172, R174, R180, R334, R337, R341: STORE_PERFORM writes the parts that may perform, each at its own address, and changes no other
byte; an atomic reads its location, writes the value that its form computes from the old value, B and P, or nothing, and keeps
the old value as its result; AMOFADD adds f32 lanes by RNE. No register changes. An access that a remap has left past the capacity raises
PG_RANGE and changes no byte (log entry 69). -/
def Obligations.AccessesPerform : Prop :=
  ∀ (s : State) (id mask : Nat) (x : Access), Spec.MayGo s id x → Spec.Coherent s.mem →
    (Tab.wf 0 s.mem.bank = true ∧ Tab.wf 0 s.mem.scratch = true) →
    (Spec.Beyond s x →
      ∃ u : State, exec .storePerform { s with inp := some (.storePerform id mask) } = .next (u.raise x.iss
          { code := trapPgRange, info := BitVec.ofNat 64 ((x.parts.map (·.2)).sum),
            addr := BitVec.ofNat 64 (memAddr x.node (valOf x.iss.f.a)), lsid := x.lsid }) ∧
        (∀ kind b, Spec.byteOf u kind b = Spec.byteOf s kind b) ∧ u.mem.acc.all (fun y => y.id != x.id) = true ∧ u.settings = s.settings) ∧
    (¬ Spec.Beyond s x → isStore x.opc = true → (∀ (k k' a n b m : Nat), k ≠ k' → x.parts[k]? = some (a, n) → x.parts[k']? = some (b, m) → a + n ≤ b ∨ b + m ≤ a) →
      x.data.length = (x.parts.map (·.2)).sum →
      ∃ t, exec .storePerform { s with inp := some (.storePerform id mask) } = .next t ∧
        (∀ k a n off, Spec.Goes x mask k a n off → ∀ j < n, some (Spec.byteOf t x.kind (a + j)) = x.data[off + j]?) ∧
        (∀ kind b, (∀ k a n off, Spec.Goes x mask k a n off → kind = x.kind → ¬ (a ≤ b ∧ b < a + n)) →
          Spec.byteOf t kind b = Spec.byteOf s kind b) ∧
        t.settings = s.settings) ∧
    (¬ Spec.Beyond s x → ∀ e ∈ Spec.atomicForms, x.opc = e.1 → ∀ a n, x.parts = [(a, n)] →
      ∃ t old, exec .storePerform { s with inp := some (.storePerform id mask) } = .next t ∧
        old = Sys2Proof.ofBytes ((List.range n).map fun j => Spec.byteOf s x.kind (a + j)) ∧
        (∀ kind b, Spec.byteOf t kind b =
          match e.2 (8 * n) old (Sys2Proof.ofBytes x.data) (Sys2Proof.ofBytes x.data2) with
          | some v => if kind = x.kind ∧ a ≤ b ∧ b < a + n then BitVec.ofNat 8 (v / 256 ^ (b - a)) else Spec.byteOf s kind b
          | none => Spec.byteOf s kind b) ∧
        (∃ y ∈ t.mem.acc, y.id = x.id ∧ y.todo = 0 ∧ y.result.val = BitVec.ofNat 512 old) ∧ t.settings = s.settings)

/-- R154, R173, R205, R228, R334, R339: MEMORY_ACCESS_COMPLETE binds every part of a load that may perform, and the result token carries the
bytes of its location, poisoned with source 4 exactly where a part is marked and with source 1 where the read found an error; no byte of memory
changes. A load at ELEM or REGION scope whose line the region L1 holds carries the line's bytes. LDB carries the values of the codes that
the format of its page gives them, and sets the flags of their rounding. An access that has performed sends its kept result, with the
address it read where that is poisoned (R218). Results leave in the order of the firings (log entry 24). -/
def Obligations.LoadsComplete : Prop :=
  ∀ (s : State) (id : Nat) (ecc : Bool) (x : Access),
    (Spec.MayBind s id x → (x.opc = 0x90 ∨ x.opc = 0x92) →
      (∀ y ∈ x.parts, 0 < y.2 ∧ ∀ z ∈ x.parts, y.1 / 64 = z.1 / 64 ∧ (y.1 + y.2 - 1) / 64 = z.1 / 64) →
      ∃ (t u : State) (p : Pay), exec .memoryAccessComplete { s with inp := some (.memoryAccessComplete id x.todo ecc) } = .next t ∧
        t = u.reply x.iss x.node p ∧
        p.val = BitVec.ofNat 512 (Sys2Proof.ofBytes
          (match Spec.l1Line s x with
           | none => Spec.bytesAtParts s x
           | some line => x.parts.flatMap fun y => (line.drop (y.1 % 64)).take y.2)) ∧
        p.vec = x.node.v ∧ p.null = false ∧ (ecc = true → p.pois = true ∧ p.psrc = 1) ∧
        (ecc = false → (p.pois = true ↔ Spec.l1Line s x = none ∧ ∃ y ∈ x.parts, Spec.Marked s x.kind y.1 y.2) ∧
          (p.pois = true → p.psrc = 4)) ∧
        (∀ kind b, Spec.byteOf t kind b = Spec.byteOf s kind b) ∧ t.settings = s.settings) ∧
    (Spec.MayBind s id x → x.opc = 0x94 → x.node.f ≤ 2 → ∀ b ∈ Spec.blockForms, x.attr % 16 = b.1 → ∀ bs l,
      bs = Spec.bytesAtParts s x → l = 64 * 2 ^ (x.attr / 16) →
      ∃ (t u : State) (p : Pay), exec .memoryAccessComplete { s with inp := some (.memoryAccessComplete id x.todo ecc) } = .next t ∧
        t = u.reply x.iss x.node p ∧ p.vec = true ∧ p.null = false ∧
        (∀ k < 512 / fltWidth x.node.f, lane (fltWidth x.node.f) p.val.toNat k =
          (Spec.blockLane x.node b l (opB 0x94 x.node x.iss.f) bs k).1 % 2 ^ fltWidth x.node.f) ∧
        (ecc = true → p.pois = true ∧ p.psrc = 1) ∧
        (ecc = false → (p.pois = true ↔ ∃ y ∈ x.parts, Spec.Marked s x.kind y.1 y.2) ∧ (p.pois = true → p.psrc = 4)) ∧
        (∀ fl : Nat, fl < 6 → (t.ctx x.iss.elem x.iss.ctx).fpStat.getLsbD fl = ((s.ctx x.iss.elem x.iss.ctx).fpStat.getLsbD fl ||
          (!p.pois && decide (∃ k < 512 / fltWidth x.node.f,
            (Spec.blockLane x.node b l (opB 0x94 x.node x.iss.f) bs k).2.testBit fl = true)))) ∧
        (∀ kind b, Spec.byteOf t kind b = Spec.byteOf s kind b) ∧ t.settings = s.settings) ∧
    (s.firstOfNode x = true → s.mem.acc.find? (fun y => y.id == id) = some x → x.todo = 0 → (isStore x.opc || isAtomic x.opc) = true →
      ∃ u : State, exec .memoryAccessComplete { s with inp := some (.memoryAccessComplete id 0 ecc) } =
          .next (u.reply x.iss x.node
            (if isStore x.opc then (if ecc then x.result.poisoned 1 else x.result)
             else (if ecc then x.result.poisoned 1 else x.result).readAt (memAddr x.node (valOf x.iss.f.a)))) ∧
        u.mem.acc = s.mem.acc.filter (fun y => y.id != id) ∧ u.settings = s.settings)

namespace Sys2Proof.Spec
open Sys2Proof.Machine

/-- Bytes of a group of 64 rows of `l` elements (R199). -/
def groupBytes (bits k : Nat) (nb : Bool) (l : Nat) : Nat := 64 * (l * bits / 8) + 64 * (l / k) + if nb then 64 else 0
def span (a n : Nat) : List Nat := (List.range n).map (a + ·)
/-- The bytes that LDB reads from element `e` of a tensor at `va`: codes, scales, band (R339). -/
def blockBytes (bits k : Nat) (nb : Bool) (l va e nl : Nat) : List Nat :=
  let g := va + e / l / 64 * groupBytes bits k nb l
  span (g + e / l % 64 * (l * bits / 8) + e % l * bits / 8) (nl * bits / 8) ++
    (span (g + 64 * (l * bits / 8) + e / l % 64 * (l / k) + e % l / k) ((e % l + nl - 1) / k - e % l / k + 1) ++
      if nb then span (g + 64 * (l * bits / 8) + 8 * l) 2 else [])
/-- The ranges name these bytes in this order, each inside one aligned 16-byte part (R174). -/
def Ranges (rs : List (Nat × Nat)) (bytes : List Nat) : Prop :=
  rs.flatMap (fun x => span x.1 x.2) = bytes ∧ ∀ x ∈ rs, 0 < x.2 ∧ x.1 % 16 + x.2 ≤ 16

/-- The firing of a fence: which operands count. -/
def liveOps (i : Issue) : List (Option Pay) := [i.f.a, i.f.b, i.f.p].map fun x => x.bind fun y => if y.null then none else some y

/-- The little-endian 64-bit entry at an address. -/
def wordAt (m : Memory) (a : Nat) : Nat := Sys2Proof.ofBytes ((List.range 8).map fun j => byteAt m (a + j))
/-- DONE of TR_INV tells whether every access, every NMRED command and every request to a peer that was there before number `n` has
performed (R170). -/
def DoneWhen (t : State) (n : Nat) : Prop :=
  t.wordHigh 0x9800 = some (if (∀ x ∈ t.mem.acc, x.id < n → x.todo = 0) ∧
    (∀ q ∈ t.eng.nmQueue, ∀ c ∈ q.2, n ≤ c.num) ∧ (∀ q ∈ t.lnk.reqs, n ≤ q.id) then 2 ^ 10 else 0)
/-- The walk of R167 over the bytes of memory: the leaf's address and the entries used, or the fault; a table past the Pergola's
capacity is PG_RANGE with the access size (R160). -/
def walkOf (m : Memory) (va : Nat) (write : Bool) : Nat → Nat → Nat → Except WalkFault (Nat × Nat × List Nat)
  | 0, _, lvl => .error ⟨trapPteBad, lvl⟩
  | n + 1, table, lvl =>
    let at_ := table + 8 * (va / 2 ^ (if lvl = 0 then 39 else if lvl = 1 then 30 else if lvl = 2 then 21 else 16) %
      2 ^ (if lvl = 0 then 13 else if lvl = 3 then 5 else 9))
    if at_ < 0x2000000000 ∧ m.capacity < at_ + 8 then .error ⟨trapPgRange, 8⟩ else
    match entryKind (wordAt m at_) lvl with
    | .bad f => .error f
    | .page pa => if write && !(wordAt m at_).testBit 2 then .error ⟨trapProtFault, lvl⟩ else .ok (pa, lvl, [at_])
    | .table pa => (walkOf m va write n pa (lvl + 1)).map fun x => (x.1, x.2.1, at_ :: x.2.2)

/-- What a watch has to read when the cycle ends: its read is due, or a timeout or a WAKEA would else pass over a write (R345, R347, R348). -/
def Reads (w : Watch) : Prop := w.due = true ∨ w.dirty = true ∧ w.expired = true ∨ w.woken ≠ none ∧ w.place.kind ≠ .domain
/-- A watch has ended with the value `v`, poisoned with source 4 where `bad` holds (R344). -/
def Ended (s : State) (w : Watch) (v : Nat) (bad : Prop) (t : State) : Prop :=
  ∃ (u : State) (p : Pay), t = u.reply w.iss w.node p ∧ p.val.toNat = v % 2 ^ 64 ∧ p.vec = false ∧ p.null = false ∧ (p.pois = true ↔ bad) ∧
    (bad → p.psrc = 4) ∧ u.mem.watches = s.mem.watches.filter (fun y => y.id != w.id)
/-- The watch that a WAITA sets on its word, of which a quarter has `n` that follow writes (R344). -/
def watchOf (s : State) (i : Issue) (r : NodeRec) (pl : Place) (n : Nat) : Watch :=
  { id := s.fresh, instr := .waita r, iss := i, place := pl, size := sizeBytes r.f, threshold := opB 0xAA r i.f % 2 ^ (8 * sizeBytes r.f),
    last := 0, lastPois := false, first := 0, since := s.cycles, lastRead := 0, slot := decide (n < 1024) && pl.kind != .domain, dirty := true,
    due := false, expired := false, woken := none }
/-- The translations of these ranges need not wait (R161, R163). -/
def WalksOpen (s : State) (i : Issue) (rs : List (Nat × Nat)) (write : Bool) : Prop :=
  ∀ x ∈ rs, s.walkReady (s.memPort i.elem) (s.issAsid i) x.1 write = true
/-- The access that LDB and STB leave behind, for places that were found (R339, R340). -/
def blockAccess (s : State) (i : Issue) (ins : Instr) (xs : List (PlaceKind × Nat × Nat)) (data : List Byte) (write : Bool) (attr : Nat) : Access :=
  { id := s.fresh, instr := ins, iss := i, kind := if xs.all (fun x => x.1 == .global) then .global else .domain, parts := xs.map (·.2),
    data := data, data2 := [], write := write, todo := 2 ^ xs.length - 1, result := .done, got := [], attr := attr, since := s.cycles,
    waits := write && !s.isOldest i.f.aid && decide (64 ≤ s.heldAt (s.memPort i.elem)), sent := false }
/-- It is there, and nothing else has changed but the output latch of a store that waits for room (R335). -/
def Leaves (s : State) (x : Access) (t : State) : Prop :=
  t.mem = { s.mem with acc := s.mem.acc ++ [x] } ∧ t.fresh = s.fresh + 1 ∧ (x.waits = false → t.fab = s.fab) ∧ t.tsk = s.tsk ∧ t.eng = s.eng ∧
    t.settings = s.settings

end Sys2Proof.Spec

/-- R191, R198, R199, R339, R340: LDB and STB trap with ALIGN where the base or the element index is not aligned, and with FMT_MISMATCH where the
page holds no block format or a range lies on a page of another one; LDB reads exactly the codes, scales and band of its elements, and STB
writes exactly the 64 bytes of codes; LDB gives the rounded value of each element in its lane. A page walk that a remap or an open row bars
keeps the form until the walk may go on (log entry 41), and an STB that its activation has performed before fires its first result. -/
def Obligations.BlockFormsIssue : Prop :=
  (∀ (s s1 : State) (i : Issue) (asid va attr a n at_ : Nat) (write : Bool) (rest : List (Nat × Nat)) (pl : Place),
    s.locateGlobal (s.memPort i.elem) asid a n write = (.ok (pl, at_), s1) → at_ ≠ attr →
    (s.locateAll i asid va attr write ((a, n) :: rest)).1 = .error { code := trapFmtMismatch, addr := BitVec.ofNat 64 va }) ∧
  ∀ (r : NodeRec) (s s1 : State) (i : Issue) (va asid : Nat), Spec.Runs s i r → va = Spec.address r i → asid = s1.issAsid i →
    (∀ nl e, Spec.Counted s i r false s1 → nl = 512 / fltWidth r.f → e = opB 0x94 r i.f → r.f ≤ 2 →
      ((va % 64 ≠ 0 ∨ e % nl ≠ 0) →
        exec (.ldb r) s = .next (s1.raise i { code := trapAlign, info := 64, addr := BitVec.ofNat 64 va, lsid := r.x })) ∧
      (va % 64 = 0 → e % nl = 0 → ¬ Spec.WalksOpen s1 i [(va, 1)] false → exec (.ldb r) s = .next (Spec.kept s1 i (.ldb r))) ∧
      ∀ pl attr s2, va % 64 = 0 → e % nl = 0 → Spec.WalksOpen s1 i [(va, 1)] false →
        s1.locateGlobal (s1.memPort i.elem) asid va 1 false = (.ok (pl, attr), s2) →
        ((∀ b ∈ Spec.blockForms, attr % 16 ≠ b.1) →
          exec (.ldb r) s = .next (s2.raise i { code := trapFmtMismatch, addr := BitVec.ofNat 64 va, lsid := r.x })) ∧
        ∀ b ∈ Spec.blockForms, attr % 16 = b.1 → ∀ bf, blockFmt b.1 = some bf → ∀ l rs, l = 64 * 2 ^ (attr / 16) →
          rs = ldbRanges bf va l e nl →
          Spec.Ranges rs (Spec.blockBytes b.2.1 b.2.2.1 b.2.2.2 l va e nl) ∧
          (¬ Spec.WalksOpen s2 i rs false → exec (.ldb r) s = .next (Spec.kept s2 i (.ldb r))) ∧
          (Spec.WalksOpen s2 i rs false →
            (∀ t s3, s2.locateAll i asid va attr false rs = (.error t, s3) → exec (.ldb r) s = .next (s3.raise i { t with lsid := r.x })) ∧
            ∀ xs s3, s2.locateAll i asid va attr false rs = (.ok xs, s3) →
              ∃ t, exec (.ldb r) s = .next t ∧ Spec.Leaves s3 (Spec.blockAccess s3 i (.ldb r) xs [] false attr) t) ∧
          (∀ bs : List Byte, ∀ k < nl, lane (fltWidth r.f) (ldbValue r attr e bs) k =
            (Spec.blockLane r b l e bs k).1 % 2 ^ fltWidth r.f)) ∧
    (∀ e, Spec.Counted s i r true s1 → e = valOf i.f.p →
      (∀ p, s1.performedBy i r.x = some p → ∃ u : State, exec (.stb r) s = .next (u.reply i r p.result) ∧ u.mem.acc = s1.mem.acc ∧
        u.fab = s1.fab ∧ u.tsk = s1.tsk ∧ u.settings = s1.settings ∧ (Spec.Coherent s1.mem → Spec.SameBytes s1.mem u.mem)) ∧
      (s1.performedBy i r.x = none →
        (va % 64 ≠ 0 →
          exec (.stb r) s = .next (s1.raise i { code := trapAlign, info := 64, addr := BitVec.ofNat 64 va, lsid := r.x })) ∧
        (va % 64 = 0 → ¬ Spec.WalksOpen s1 i [(va, 1)] false → exec (.stb r) s = .next (Spec.kept s1 i (.stb r))) ∧
        ∀ pl attr s2, va % 64 = 0 → Spec.WalksOpen s1 i [(va, 1)] false →
          s1.locateGlobal (s1.memPort i.elem) asid va 1 false = (.ok (pl, attr), s2) →
          ((∀ b ∈ Spec.blockForms, attr % 16 ≠ b.1) →
            exec (.stb r) s = .next (s2.raise i { code := trapFmtMismatch, addr := BitVec.ofNat 64 va, lsid := r.x })) ∧
          ∀ b ∈ Spec.blockForms, attr % 16 = b.1 → ∀ l, l = 64 * 2 ^ (attr / 16) →
            (e % (512 / b.2.1) ≠ 0 →
              exec (.stb r) s = .next (s2.raise i { code := trapAlign, info := 64, addr := BitVec.ofNat 64 va, lsid := r.x })) ∧
            (e % (512 / b.2.1) = 0 → ∀ at_ rs,
              at_ = va + e / l / 64 * Spec.groupBytes b.2.1 b.2.2.1 b.2.2.2 l + e % (64 * l) * b.2.1 / 8 →
              rs = [(at_, 16), (at_ + 16, 16), (at_ + 32, 16), (at_ + 48, 16)] →
              (¬ Spec.WalksOpen s2 i rs true → exec (.stb r) s = .next (Spec.kept s2 i (.stb r))) ∧
              (Spec.WalksOpen s2 i rs true →
                (∀ t s3, s2.locateAll i asid va attr true rs = (.error t, s3) → exec (.stb r) s = .next (s3.raise i { t with lsid := r.x })) ∧
                ∀ xs s3, s2.locateAll i asid va attr true rs = (.ok xs, s3) →
                  ∃ t, exec (.stb r) s = .next t ∧
                    Spec.Leaves s3 (Spec.blockAccess s3 i (.stb r) xs (bytesOf 64 (opB 0x95 r i.f)) true attr) t))))

/-- R338, R342, R344, R345, R347, R348: JOINF fires NULL when every operand is NULL, raises POISON for a poisoned operand otherwise, and else
fires a completion over its interval; PREF raises nothing, sends no token, and where it may perform brings in the line of its address, or
asks a peer for it by one request; it changes no BUFFER or SCRATCH byte; WAITA sets one watch on its word. The first read of a watch
comes once thread order and memory let it perform, later ones after a write to its granule or 1,024 cycles; a read at the end of the cycle that
reaches the threshold fires the value read and ends the watch, and one that does not keeps the value; WAIT_TMO after its first read a watch fires
its latest value; a WAKEA that performs ends every watch of its address space that has read the word, firing the value written unless the
word has reached the threshold. A NULL or poisoned JOINF operand follows log entry 88, what a PREF waits for 67, the order in the
cycle 85, and a form whose walk waits 41. -/
def Obligations.FenceWatchPrefetch : Prop :=
  (∀ (r : NodeRec) (s : State) (i : Issue), s.cur = some i →
      ((∀ x ∈ Spec.liveOps i, x = none) →
        exec (.joinf r) s = .next ((Spec.taken s).emit i r 2 [Spec.beat .mkNull i.f.lo i.f.hi true true])) ∧
      ((∃ x ∈ Spec.liveOps i, x ≠ none) → (∀ x ∈ Spec.liveOps i, ∀ y, x = some y → y.pois = false) →
        exec (.joinf r) s = .next ((Spec.taken s).emit i r 2 [Spec.beat (.scalar 1) i.f.lo i.f.hi true true])) ∧
      (∀ p (x : Pay), (Spec.liveOps i)[p]? = some (some x) → x.pois = true →
        (∀ q < p, ∀ y, (Spec.liveOps i)[q]? = some (some y) → y.pois = false) →
        exec (.joinf r) s =
          .next ((Spec.taken s).raise i { code := trapPoison, info := BitVec.ofNat 64 x.psrc.toNat, port := p, addr := x.paddr })) ∧
      (∀ s1 va, Spec.Runs s i r → s1 = (Spec.taken s).noteFired i true → va = Spec.address r i →
        (r.space = 0 → va % sizeBytes r.f = 0 → ¬ Spec.WalksOpen s1 i [(va, 1)] false →
          exec (.waita r) s = .next (Spec.kept s1 i (.waita r))) ∧
        ((r.space = 0 → va % sizeBytes r.f = 0 → Spec.WalksOpen s1 i [(va, 1)] false) →
          (∀ t s2, s1.locate i r.space va (sizeBytes r.f) false = (.error t, s2) →
            exec (.waita r) s = .next (s2.raise i { t with lsid := r.x })) ∧
          ∀ pl at_ s2 n, s1.locate i r.space va (sizeBytes r.f) false = (.ok (pl, at_), s2) →
            n = (s2.mem.watches.filter fun w => w.slot && w.iss.elem / 4096 == i.elem / 4096).length →
            exec (.waita r) s = .next ({ s2 with fresh := s2.fresh + 1 }.setMem
              { s2.mem with watches := s2.mem.watches ++ [Spec.watchOf s2 i r pl n] }))) ∧
      (∃ t, exec (.pref r) s = .next t ∧ t.tsk = ((Spec.taken s).noteFired i (!i.f.isNull r)).tsk ∧ t.fab = { s.fab with held := t.fab.held } ∧
        (t.out = s.out ∨ ∃ id peer port pa, t.out = s.out ++ [.ualinkRequest id peer port pa 64 .prefetch [] []]) ∧
        t.settings = s.settings ∧ t.mem.bank = s.mem.bank ∧ t.mem.scratch = s.mem.scratch) ∧
      ((i.f.isNull r = true ∨ i.f.poison ≠ none) → exec (.pref r) s = .next ((Spec.taken s).noteFired i (!i.f.isNull r))) ∧
      (∀ s1 u h va, Spec.Runs s i r → s1 = (Spec.taken s).noteFired i true → u = Spec.kept s1 i (.pref r) →
        h = ({ id := s1.fresh, instr := .pref r, iss := i, since := s1.cycles } : HeldOp) → va = Spec.address r i →
        (u.act? i.f.aid).isSome = true → u.othersFired i.f.aid r.x = true → Spec.WalksOpen u i [(va, 1)] false →
        ∀ pl at_ v line, u.locateGlobal (u.memPort i.elem) (u.issAsid i) va 1 false = (.ok (pl, at_), v) → line = pl.addr / 64 * 64 →
          v.orderOk { h.access with kind := pl.kind, parts := [(line, 64)] } = true →
          (pl.kind = .global → v.rowFree pl.addr = true → Spec.Coherent v.mem →
            ∃ t, exec (.pref r) s = .next t ∧ ((t.mem.wayOf (line / 128)).isSome = true ∨ v.mem.fillWay (line / 128) = none)) ∧
          (pl.kind = .domain → pl.addr < launchBase → v.lnk.cutOff pl.addr = false →
            ∃ t q, exec (.pref r) s = .next t ∧ t.lnk.reqs = v.lnk.reqs ++ [q] ∧ q.kind = .prefetch ∧ q.pa = line ∧ q.size = 64))) ∧
  (∀ (s : State) (w : Watch), s.mem.watches.find? (fun y => y.id == w.id) = some w →
      (∀ again, again = decide (w.lastRead = 0 ∨ w.lastRead + 1024 ≤ s.cycles) →
        exec .waitaReread { s with inp := some (.waitaReread w.id) } =
          .next (if (if w.first = 0 then (w.place.kind != .domain || again) && s.mayPerform w.access else w.dirty || again) then
              (Spec.quiet s).setWatch { w with due := true }
            else Spec.quiet s)) ∧
      (∀ tid tk, s.issTask w.iss = some (tid, tk) →
        exec .waitaTimeout { s with inp := some (.waitaTimeout w.id) } =
          .next (if w.first ≠ 0 ∧ tk.waitTmo ≠ 0 ∧ s.passed (w.first - 1) tk.waitTmo.toNat = true then (Spec.quiet s).setWatch { w with expired := true }
            else Spec.quiet s)) ∧
      (∀ (id : Nat) (x : Access) (a n : Nat), Spec.MayGo s id x → ¬ Spec.Beyond s x → x.opc = 0xAB → x.parts = [(a, n)] → x.todo = 1 →
        w.place = ⟨x.kind, a⟩ → s.issAsid w.iss = s.issAsid x.iss → w.first ≠ 0 →
        ∃ t, exec .storePerform { s with inp := some (.storePerform id 1) } = .next t ∧
          ∃ y ∈ t.mem.watches, y.id = w.id ∧ y.iss = w.iss ∧ y.woken = some (Sys2Proof.ofBytes x.data)) ∧
      (∀ pl at_ s1 v, Spec.Reads w → (w.node.space = 0 → Spec.WalksOpen s w.iss [(memAddr w.node (valOf w.iss.f.a), 1)] false) →
        s.locate w.iss w.node.space (memAddr w.node (valOf w.iss.f.a)) w.size false = (.ok (pl, at_), s1) → pl.kind ≠ .domain →
        s1.watchOpen { w with place := pl } = true → Spec.Coherent s1.mem →
        v = Sys2Proof.ofBytes ((List.range w.size).map fun j => Spec.byteOf s1 pl.kind (pl.addr + j)) →
        (w.threshold ≤ v → Spec.Ended s w v (Spec.Marked s1 pl.kind pl.addr w.size) (s.watchTurn w)) ∧
        (v < w.threshold →
          (∀ x, w.woken = some x → Spec.Ended s w x False (s.watchTurn w)) ∧
          (w.woken = none → w.expired = true → Spec.Ended s w v (Spec.Marked s1 pl.kind pl.addr w.size) (s.watchTurn w)) ∧
          (w.woken = none → w.expired = false → ∃ bad : Bool, (bad = true ↔ Spec.Marked s1 pl.kind pl.addr w.size) ∧
            (s.watchTurn w).fab = s.fab ∧ (s.watchTurn w).mem.watches = s.mem.watches.map fun y => if y.id = w.id then
              { w with place := pl, due := false, last := v, lastPois := bad, lastRead := s.cycles, dirty := false,
                       first := if w.first = 0 then s.units + 1 else w.first } else y))) ∧
      (¬ Spec.Reads w → (∀ x, w.woken = some x → Spec.Ended s w x False (s.watchTurn w)) ∧
        (w.woken = none → w.expired = true → Spec.Ended s w w.last (w.lastPois = true) (s.watchTurn w)) ∧
        (w.woken = none → w.expired = false → s.watchTurn w = s)))

/-- R31, R32, R147 to R149, R152, R158 to R160, R167, R168, R170, R180: a misaligned address is ALIGN; a BUFFER address outside the region,
in a cache role or past the extent is BUF_RANGE; a SCRATCH address outside the granted part is SP_RANGE; a physical address past the
capacity is PG_RANGE, in the hole PTE_BAD, and in a window that is no peer's DOMAIN_RANGE. A walk finds what the table entries in memory
say, sets A in every entry that it used and D in the leaf of a write, and changes no other byte; a walk that faults changes none.
PAGE_WALK caches what a walk finds; an invalidation drops exactly the translations that it names, and DONE tells when what they translated
has performed; VECTOR_CLOCK_ANNOUNCE tells every quarter a quarter's own counter (log entry 88). How an entry is judged and marked is log
entry 68, and that a launch window of a clear id faults for a read too is log entry 78. -/
def Obligations.AddressesAndTranslations : Prop :=
  (∀ (s : State) (i : Issue) (a n : Nat) (write : Bool),
      (∀ sp, a % n ≠ 0 → s.locate i sp a n write =
        (.error { code := trapAlign, info := BitVec.ofNat 64 n, addr := BitVec.ofNat 64 a }, s)) ∧
      (∀ tid t, s.issTask i = some (tid, t) → a % n = 0 →
        ((a < 2 ^ 30 ∧ a / 2 ^ 16 % 128 < t.w ∧ a / 2 ^ 23 % 128 < t.h ∧
            s.roleCode (t.elem (a / 2 ^ 16 % 128) (a / 2 ^ 23 % 128)) i.ctx = 0 ∧
            a % 2 ^ 16 + n ≤ s.extent (t.elem (a / 2 ^ 16 % 128) (a / 2 ^ 23 % 128)) i.ctx) →
          s.locate i 1 a n write =
            (.ok ({ kind := .buffer, addr := bankKey (t.elem (a / 2 ^ 16 % 128) (a / 2 ^ 23 % 128)) i.ctx (a % 2 ^ 16) }, 0), s)) ∧
        (¬ (a < 2 ^ 30 ∧ a / 2 ^ 16 % 128 < t.w ∧ a / 2 ^ 23 % 128 < t.h ∧
            s.roleCode (t.elem (a / 2 ^ 16 % 128) (a / 2 ^ 23 % 128)) i.ctx = 0 ∧
            a % 2 ^ 16 + n ≤ s.extent (t.elem (a / 2 ^ 16 % 128) (a / 2 ^ 23 % 128)) i.ctx) →
          s.locate i 1 a n write =
            (.error { code := trapBufRange, info := BitVec.ofNat 64 n, addr := BitVec.ofNat 64 a }, s))) ∧
      (∀ p, p = s.mem.wp (a / 2 ^ 24 % 64) → p.phase = 0 → a % n = 0 →
        s.locate i 2 a n write =
          (if a < 2 ^ 30 ∧ p.spasid.toNat = s.issAsid i ∧ a % 2 ^ 24 < p.spw.toNat * 2 ^ 20 then .ok ({ kind := .scratch, addr := a }, 0)
           else .error { code := trapSpRange, info := BitVec.ofNat 64 n, addr := BitVec.ofNat 64 a }, s)) ∧
      (∀ pa va, s.placeOf pa n va =
        if pa < 0x2000000000 then
          (if pa + n ≤ s.mem.capacity then .ok { kind := .global, addr := pa }
           else .error { code := trapPgRange, info := BitVec.ofNat 64 n, addr := BitVec.ofNat 64 va })
        else if pa < 0x8000000000 then .ok { kind := .global, addr := pa }
        else if pa < 0x800000000000 then .error { code := trapPteBad, addr := BitVec.ofNat 64 va }
        else if pa < 0xC80000000000 then
          (if (pa - 0x800000000000) / 2 ^ 39 = s.lnk.self.toNat then
            (if (pa - 0x800000000000) % 2 ^ 39 < 0x2000000000 ∧ s.mem.capacity < (pa - 0x800000000000) % 2 ^ 39 + n then
              .error { code := trapPgRange, info := BitVec.ofNat 64 n, addr := BitVec.ofNat 64 va }
             else .ok { kind := .global, addr := (pa - 0x800000000000) % 2 ^ 39 })
           else if s.lnk.peerMap.getLsbD ((pa - 0x800000000000) / 2 ^ 39) then .ok { kind := .domain, addr := pa }
           else .error { code := trapDomainRange, addr := BitVec.ofNat 64 pa })
        else if pa < 0xC80009000000 ∧ (pa - 0xC80000000000) % 0x100000 < 0x8000 ∧
            ((pa - 0xC80000000000) / 0x100000 = s.lnk.self.toNat ∨ s.lnk.peerMap.getLsbD ((pa - 0xC80000000000) / 0x100000) = true) then
          .ok { kind := .domain, addr := pa }
        else .error { code := trapDomainRange, addr := BitVec.ofNat 64 pa })) ∧
  ((∀ (m : Memory) (asid va : Nat) (write : Bool) (root : W32), Spec.Coherent m → Tab.getD m.trRoot asid (false, 0) = (true, root) →
      root.toNat < 2 ^ 23 →
      (∀ f, Spec.walkOf m va write 4 (root.toNat * 65536) 0 = .error f →
        ∃ m', m.walk asid va write = (.error f, m') ∧ Spec.SameBytes m m') ∧
      ∀ pa lvl used, Spec.walkOf m va write 4 (root.toNat * 65536) 0 = .ok (pa, lvl, used) → used.Nodup →
        ∃ m' w, m.walk asid va write = (.ok w, m') ∧ w.pa = pa ∧ w.size = 2 ^ (if lvl = 1 then 30 else if lvl = 2 then 21 else 16) ∧
          w.used = used ∧
          ∀ a, Spec.byteAt m' a =
            if a ∈ used then Spec.byteAt m a ||| (if write = true ∧ used.getLast? = some a then 0x18#8 else 0x08#8) else Spec.byteAt m a) ∧
    (∀ (s : State) (port asid va : Nat) (write : Bool) (w : Walk) (m' : Memory),
      (∀ t ∈ Tab.getD s.mem.tlb port [], t.hit asid va = false) → s.mem.walk asid va write = (.ok w, m') →
      ∃ t u, exec .pageWalk { s with inp := some (.pageWalk port asid va write) } = .next t ∧ u ∈ Tab.getD t.mem.tlb port [] ∧
        u = { asid := asid, va := va / w.size * w.size, size := w.size, pa := w.pa, w := w.w, d := write, fmta := w.fmta, geom := w.geom } ∧
        (Tab.getD t.mem.tlb port []).length ≤ max 64 (Tab.getD s.mem.tlb port []).length ∧ t.fab = s.fab ∧ t.tsk = s.tsk) ∧
    (∀ s : State,
      (∃ t, exec .trInvAll { s with inp := some .trInvAll } = .next t ∧ Spec.DoneWhen t s.fresh ∧
        ∀ p, Tab.getD t.mem.tlb p [] = []) ∧
      (∀ a, ∃ t, exec .trInvAsid { s with inp := some (.trInvAsid a) } = .next t ∧ Spec.DoneWhen t s.fresh ∧
        ∀ p, Tab.getD t.mem.tlb p [] = (Tab.getD s.mem.tlb p []).filter fun x => x.asid ≠ a) ∧
      (∀ a va, ∃ t, exec .trInvPage { s with inp := some (.trInvPage a va) } = .next t ∧ Spec.DoneWhen t s.fresh ∧
        ∀ p, Tab.getD t.mem.tlb p [] =
          (Tab.getD s.mem.tlb p []).filter fun x => ¬ (x.asid = a ∧ x.va ≤ va ∧ va < x.va + x.size)) ∧
      (∀ q, ∃ t, exec .vectorClockAnnounce { s with inp := some (.vectorClockAnnounce q) } = .next t ∧
        (∀ h j, q < 4 → j < 4 → h < 4 → Tab.getD t.mem.aclock (h * 4 + j) 0 =
          if j = q then Tab.getD s.mem.vclock (q * 4 + q) 0 else Tab.getD s.mem.aclock (h * 4 + j) 0) ∧
        t.mem.vclock = s.mem.vclock)))

/-- R158, R159, R432: the Lodge's write of GH_WAYPART begins a transition to the new partition, or sets ERR where one is under way or
the size is too large, and clears ERR first where it writes 1 there; GH_DRAIN_END writes the leaving lines back and gives the number of the
dirty ones; GH_ZERO_END leaves the changed part of
the scratchpad zero and puts the partition in force; GH_LINE_FILL brings a line in and changes no byte. -/
def Obligations.ScratchpadTransition : Prop :=
  ∀ (s : State) (slice : Nat) (p : WayPart), p = s.mem.wp slice →
    (∀ (v : W64) (spw asid : Nat), slice < 64 → spw = v.toNat % 32 → asid = v.toNat / 32 % 256 → ∀ q,
      q = (if v.toNat.testBit 16 then { p with err := false } else p) →
      ∃ t, exec .ghWaypartWrite { s with inp := some (.ghWaypartWrite .lodge slice v) } = .next t ∧
        t.mem.wp slice =
          (if p.phase ≠ 0 ∨ 16 < spw then { q with err := true }
           else if spw = p.spw.toNat ∧ asid = p.spasid.toNat then
             { q with taskWr := v.toNat.testBit 13, spw1 := p.spw, spasid1 := p.spasid }
           else { q with taskWr := v.toNat.testBit 13, spw1 := BitVec.ofNat 5 spw, spasid1 := BitVec.ofNat 8 asid, phase := 1,
                         wbcnt := 0 }) ∧
        ∀ j, j ≠ slice → t.mem.wp j = s.mem.wp j) ∧
    (∀ agent (v : W64), agent ≠ Agent.lodge →
      exec .ghWaypartWrite { s with inp := some (.ghWaypartWrite agent slice v) } = .next { s with inp := none }) ∧
    (p.phase = 1 → s.scratchBusy slice = false → Spec.Coherent s.mem →
      ∃ t, exec .ghDrainEnd { s with inp := some (.ghDrainEnd slice) } = .next t ∧ Spec.SameBytes s.mem t.mem ∧
        (t.mem.wp slice).phase = 2 ∧ (t.mem.wp slice).wbcnt.toNat = (if p.spw1.toNat ≤ p.spw.toNat then 0 else
          min 65535 (s.mem.lines.filter fun x => decide (x.1 / 131072 = slice ∧ 16 ≤ x.1 % 16 + p.spw1.toNat) && x.2.2).length) ∧
        (p.spw.toNat < p.spw1.toNat → ∀ k, k / 131072 = slice → 16 ≤ k % 16 + p.spw1.toNat → Tab.find t.mem.lines k = none)) ∧
    (p.phase = 2 → Tab.wf 0 s.mem.scratch = true → ∀ lo,
      lo = (if p.spasid = p.spasid1 then min p.spw.toNat p.spw1.toNat * 2 ^ 20 else 0) →
      ∃ t, exec .ghZeroEnd { s with inp := some (.ghZeroEnd slice) } = .next t ∧
        (∀ a, Tab.getD t.mem.scratch a 0 =
          if a / 2 ^ 24 = slice ∧ lo ≤ a % 2 ^ 24 then 0 else Tab.getD s.mem.scratch a 0) ∧
        t.mem.wp slice = { p with spw := p.spw1, spasid := p.spasid1, phase := 0 }) ∧
    (∀ pa w, pa < 0x8000000000 → s.mem.remapBusy = false → s.mem.wayOf (pa / 128) = none → s.mem.fillWay (pa / 128) = some w →
      Spec.Coherent s.mem → ∃ t, exec .ghLineFill { s with inp := some (.ghLineFill pa) } = .next t ∧
        (t.mem.wayOf (pa / 128)).isSome = true ∧ Spec.SameBytes s.mem t.mem)

/-- R71, R161, R164: PG_REMAP_START settles the new placement: PG_BANKMAP without the hot banks that PG_RETURN names and the fuses do not,
with the banks it retires; it clears QS_PLACE.EN, closes every row and empties the Glasshouse of Pergola lines without changing a byte.
PG_REMAP_DONE puts that placement in force, gives PG_BANKMAP the same banks and those that heat has retired meanwhile, and poisons what could not
be read (log entries 69, 90); a beat of the bus tester on an idle bed counts
an error against the bed's bus, and does nothing while the bed has an open row or is out of service. -/
def Obligations.RemapAndBusTester : Prop :=
  ∀ s : State,
    (s.mem.remapBusy = false → Spec.Coherent s.mem → ∀ retire,
      ∃ t, exec .pgRemapStart { s with inp := some (.pgRemapStart retire) } = .next t ∧ t.mem.remapBusy = true ∧
        t.sch.placeEn = false ∧ (∀ x ∈ t.mem.banks, x.2.open_ = false) ∧ Spec.SameBytes s.mem t.mem ∧ t.mem.liveMap = s.mem.liveMap ∧ t.fab = s.fab ∧
        (∀ n < 16384, bankBit t.mem.remapBack n = (bankBit s.mem.pgReturn n && bankBit s.mem.bankTherm n && !bankBit s.fuse.badBanks n) ∧
          bankBit t.mem.remapNew n = (bankBit s.mem.bankMap n && !bankBit t.mem.remapBack n || retire.contains n)) ∧
        ∀ x ∈ t.mem.lines, 0x2000000000 ≤ x.2.1 * 128) ∧
    (s.mem.remapBusy = true → ∀ bad,
      ∃ t, exec .pgRemapDone { s with inp := some (.pgRemapDone bad) } = .next t ∧ t.mem.remapBusy = false ∧
        t.mem.liveMap = s.mem.remapNew ∧ (∀ n < 16384, bankBit t.mem.bankMap n =
          (bankBit s.mem.bankMap n && !bankBit s.mem.remapBack n || bankBit s.mem.remapNew n)) ∧
        t.mem.remapDone.toNat = min 65535 (s.mem.remapDone.toNat + 1) ∧
        (∀ x ∈ t.mem.lines, Spec.Coherent s.mem → 0x2000000000 ≤ x.2.1 * 128) ∧
        (∀ a, (a < t.mem.capacity ∨ 0x2000000000 ≤ a) → a < 2 ^ 48 → Spec.Coherent s.mem → Spec.byteAt t.mem a = Spec.byteAt s.mem a) ∧
        (∀ g ∈ bad, g * 256 < t.mem.capacity → Spec.Coherent s.mem → ∀ j < 16, Spec.markAt t.mem (g * 16 + j) = true)) ∧
    (∀ bed err, (s.mem.vbEn = false ∨ s.mem.busOut.getLsbD bed = true ∨ ∃ x ∈ s.mem.banks, x.1 / 64 = bed ∧ x.2.open_ = true) →
      exec .busTesterBeat { s with inp := some (.busTesterBeat bed err) } = .next { s with inp := none }) ∧
    (∀ bed, bed < 256 → s.mem.vbEn = true → s.mem.busOut.getLsbD bed = false → (∀ x ∈ s.mem.banks, x.1 / 64 = bed → x.2.open_ = false) →
      Tab.getD s.mem.rowIdle bed 0 + max 16 s.mem.vbIdle.toNat ≤ s.rowClk →
      (∃ t, exec .busTesterBeat { s with inp := some (.busTesterBeat bed true) } = .next t ∧
        t.mem.vbErrs.toNat = min (2 ^ 32 - 1) (s.mem.vbErrs.toNat + 1) ∧
        (∀ b < 256, b ≠ bed → t.mem.busOut.getLsbD b = s.mem.busOut.getLsbD b)) ∧
      ∃ t, exec .busTesterBeat { s with inp := some (.busTesterBeat bed false) } = .next t ∧ t.mem.vbErrs = s.mem.vbErrs ∧
        t.mem.busOut = s.mem.busOut)

/-! ### Branches, carry slots, threads, traps, system forms (R211 to R217, R252, R320 to R330, R389 to R393) -/

namespace Sys2Proof.Spec
open Sys2Proof.Machine

/-- The branch-class forms: opcode, the branch that a firing names, and the return stack after it (R321, R322, R393). -/
def branchForms : List ((NodeRec → Instr) × Nat × (NodeRec → Nat → List (BitVec 24) → Branch × List (BitVec 24))) :=
  [(.br, 0xB0, fun r _ st => (.block (r.l % 65536) (r.l / 65536 % 256), st)),
   (.bri, 0xB1, fun _ a st => (.block (a % 65536) (a / 65536 % 256), st)),
   (.call, 0xB2, fun r a st => (.block (r.l % 65536) (r.l / 65536 % 256), (BitVec.ofNat 24 a :: st).take 8)),
   (.ret, 0xB3, fun _ _ st =>
     match st with
     | [] => (.exit, [])
     | x :: rest => (.block (x.toNat % 65536) (x.toNat / 65536), rest)),
   (.exit, 0xB7, fun _ _ st => (.exit, st)),
   (.halt, 0xF7, fun r _ st => (.halt r.lit32, st))]

/-- The activation names its branch and keeps its return stack; a block becomes the thread's next where the activation is the latest of
its thread; nothing else changes. -/
def Named (s : State) (i : Issue) (a : Act) (b : Branch) (stack : List (BitVec 24)) (t : State) : Prop :=
  t.act? i.f.aid = some { a with branch := some b, retStack := stack } ∧ (∀ x, x ≠ i.f.aid → t.act? x = s.act? x) ∧
  (∀ n th, s.thread? n = some th → t.thread? n = some (match b with
    | .block p k => if n = a.thread ∧ th.acts.getLast? = some i.f.aid then { th with next := some (p, k) } else th
    | _ => th)) ∧
  (∀ n, s.thread? n = none → t.thread? n = none) ∧ t.tsk.tasks = s.tsk.tasks ∧ t.setTsk s.tsk = s

/-- A firing's effect waits for the commit of its activation. -/
def withEffect (s : State) (i : Issue) (a : Act) (e : Effect) : State := s.setAct i.f.aid { a with effects := a.effects ++ [e] }

/-- A form of an engine that issues now, and the state in which it waits outside its output latch (R335). -/
def form (s : State) (i : Issue) (ins : Instr) : HeldOp := { id := s.fresh, instr := ins, iss := i, since := s.cycles }
def holding (s : State) (i : Issue) (ins : Instr) : State :=
  { s with fresh := s.fresh + 1, fab := { s.fab with held := s.fab.held ++ [form s i ins] } }

/-- What the read of a launch packet at `a` gives in the task's address space: the head entry, then EXT entries, poisoned where either is
(R328). -/
def Packet (s : State) (h : HeldOp) (a : Nat) (x : Rd) (s2 : State) : Prop :=
  ∃ y s1, s.loadOwn h a 128 = (y, s1) ∧
    match y with
    | .ok bs p => ∃ z, s1.loadOwn h (a + 128) (128 * bytesAt bs 10 1) = (z, s2) ∧
        x = (match z with
          | .ok more q => .ok (bs ++ more) (if p.isSome then p else q)
          | z => z)
    | _ => x = y ∧ s2 = s1

/-- The empty group; a thread that is a member and has not left; a GBAR that waits for a group of a task (R82, R326). -/
def noGroup : Group := { members := [], late := [], arrived := [], leaving := [], gen := 0 }
def In (g : Group) (n : Nat) : Prop := n ∈ g.members ∧ n ∉ g.leaving
def Came (g : Group) (n : Nat) : Prop := ∃ y ∈ g.arrived, y.1 = n
def GbarWaits (s : State) (tid g : Nat) (h : HeldOp) : Prop := ∃ r, h.instr = .gbar r ∧ r.l % 256 = g ∧ s.issOf tid h.iss = true
/-- A group after the LEAVEs of a cycle: who has arrived stays until the generation completes (R82, R330; log entry 31). -/
def afterLeaves (x : Group) : Group :=
  { x with members := x.members.filter fun m => !x.leaving.contains m || x.arrived.any fun y => y.1 == m
           leaving := x.leaving.filter fun m => x.arrived.any fun y => y.1 == m }
/-- `v` is added to the 64-bit word at a virtual address that lies in local memory; no other byte changes (R59). -/
def AddsWord (s t : State) (asid va v : Nat) : Prop :=
  ∀ pl s1 old, s.placeVa asid va 8 true = (.ok pl, s1) → pl.kind = .global → Coherent s1.mem →
    old = Sys2Proof.ofBytes ((List.range 8).map fun j => byteAt s1.mem (pl.addr + j)) →
    ∀ a, byteAt t.mem a = if pl.addr ≤ a ∧ a < pl.addr + 8 then BitVec.ofNat 8 ((old + v) / 256 ^ (a - pl.addr)) else byteAt s1.mem a

/-- A thread's oldest activation may commit (R320). -/
def Commits (s : State) (n : Nat) (th : Thread) (aid : Nat) (rest : List Nat) (a : Act) : Prop :=
  s.thread? n = some th ∧ th.acts = aid :: rest ∧ s.act? aid = some a ∧ a.thread = n ∧ s.mayCommit aid a = true ∧
    Tab.wf 0 th.carry = true ∧ a.carry.Pairwise (fun x y => x.1 < y.1)

/-- A thread to whose handler a trap has been delivered (R214). -/
def delivered (th : Thread) (tk : Task) (r : TrapRec) (k : Kept) : Thread :=
  { th with
    recs := r.words
    inh := true
    next := some (tk.handler.toNat % 65536, tk.handler.toNat / 65536 % 256)
    lodge := false
    trapped := none
    kept := some k
    lodgeKept := none
    useKept := none }

/-- The value that a write of a system register leaves: bits that do not exist or are read-only are dropped, W1C bits cleared. -/
def written : List (Nat × (Nat → Nat → Nat)) :=
  [(0x401, fun x v => if v.testBit 0 then x / 2 * 2 else x), (0x110, fun _ v => v % 2 ^ 25), (0x111, fun _ v => if v.testBit 31 then v - 2 ^ 31 else v), (0x112, fun _ v => v % 2 ^ 25),
   (0x200, fun x v => x - (x &&& v)), (0x400, fun _ v => v % 2 ^ 32), (0x402, fun _ v => v)]

/-- The factorisation registers of a context with the factorising bit: what a write of them leaves (R142, R391). A float that is negative or no
number stores +0; GROWTH is read-only. -/
def writtenFct : List (Nat × (Nat → Nat → Nat)) :=
  let float := fun v => if v.testBit 31 ∨ 0x7F800000 < v % 2 ^ 31 then 0 else v % 2 ^ 32
  [(0x300, fun _ v => v % 4), (0x301, fun _ v => float v), (0x302, fun _ v => float v), (0x303, fun x _ => x),
   (0x304, fun x v => x - (x &&& v &&& 0x600))]
/-- The factorising bit of a firing's context (R378). -/
def fctBit (s : State) (i : Issue) : Bool := (s.modeWord i.elem i.ctx).testBit 3

end Sys2Proof.Spec

/-- R320 to R323, R336, R393: a branch-class firing names the next block of its thread, or its exit or end, and keeps the stack of eight
return addresses; a WRC gives its slot its value; RDC fires the value of the latest earlier writer, or the thread's. The firing that
completes a wrong count raises LSID_REFIRE. ERET outside a handler raises SYS_ACCESS. -/
def Obligations.BranchAndCarryResults : Prop :=
  (∀ e ∈ Spec.branchForms, ∀ (r : NodeRec) (s s1 : State) (i : Issue) (a : Act), Spec.Runs s i r →
    (Spec.taken s).account i .branch true = (true, s1) → s1.act? i.f.aid = some a →
    ∃ t, exec (e.1 r) s = .next t ∧ Spec.Named s1 i a (e.2.2 r (valOf i.f.a) a.retStack).1 (e.2.2 r (valOf i.f.a) a.retStack).2 t) ∧
  (∀ (r : NodeRec) (s s1 : State) (i : Issue) (a : Act) (th : Thread), Spec.Runs s i r →
    (Spec.taken s).account i .branch true = (true, s1) → s1.act? i.f.aid = some a → s1.thread? a.thread = some th →
    (th.inh = true → ∃ t, exec (.eret r) s = .next t ∧ Spec.Named s1 i a .eret a.retStack t) ∧
    (th.inh = false → ∃ n, exec (.eret r) s =
      .next (s1.free.2.raise i { code := trapSysAccess, info := BitVec.ofNat 64 n }))) ∧
  (∀ (r : NodeRec) (s s1 : State) (i : Issue) (a : Act), Spec.Runs s i r →
    (Spec.taken s).account i (.slot (r.l % 64)) true = (true, s1) → s1.act? i.f.aid = some a →
    ∃ t, exec (.wrc r) s = .next t ∧
      t.act? i.f.aid = some { a with carry := Tab.set a.carry (r.l % 64) (some (BitVec.ofNat 64 (valOf i.f.a))) } ∧
      (∀ x, x ≠ i.f.aid → t.act? x = s1.act? x) ∧ t.tsk.threads = s1.tsk.threads ∧ t.mem = s1.mem ∧ t.settings = s1.settings) ∧
  (∀ (r : NodeRec) (s : State) (i : Issue) (v : W64), Spec.Runs s i r → s.carryAt i.f.aid (r.l % 64) = some v →
    exec (.rdc r) s = .next ((Spec.taken s).fireVal i 0xB4 r false v.toNat 0)) ∧
  (∀ (s : State) (aid k : Nat) (a : Act) (th : Thread), s.act? aid = some a → a.committed = false → s.thread? a.thread = some th →
    (th.acts.head? = some aid → s.carryAt aid k = some (Tab.getD th.carry k 0)) ∧
    ∀ x b rest, th.acts = x :: aid :: rest → x ≠ aid → s.act? x = some b →
      s.carryAt aid k = if s.mayWrite b k then (match Tab.find b.carry k with
        | some (some w) => some w
        | some none => some (Tab.getD th.carry k 0)
        | none => if b.allFired (s.acctNodes b (.slot k)) then some (Tab.getD th.carry k 0) else none)
        else some (Tab.getD th.carry k 0)) ∧
  (∀ (s : State) (i : Issue) (k : AcctClass) (live : Bool) (a a' : Act) (ns : List Nat), s.act? i.f.aid = some a →
    ns = s.acctNodes a k → i.elem * 64 + i.f.node ∈ ns →
    a' = { a with fired := a.fired ++ [{ node := i.elem * 64 + i.f.node, live := live, trig := i.f.trig }] } →
    ∀ bad : Prop, (bad ↔ match k with
      | .lsid _ => (∃ x ∈ a.fired, x.node = i.elem * 64 + i.f.node) ∨ live = true ∧ ∃ x ∈ a.fired, x.live = true ∧ x.node ∈ ns
      | _ => live = true ∧ (∃ x ∈ a.fired, x.live = true ∧ x.node ∈ ns) ∨
          live = false ∧ (∀ n ∈ ns, ∃ x ∈ a'.fired, x.node = n) ∧ ∀ x ∈ a.fired, x.node ∈ ns → x.live = false) →
      (¬ bad → s.account i k live = (true, s.setAct i.f.aid a')) ∧
      (bad → ∃ l, s.account i k live = (false, (s.setAct i.f.aid a').raise i { code := trapLsidRefire, lsid := l })))

/-- R321, R324 to R329: what the forms for threads and tasks do when they issue. SPAWN takes a reserved record and fires its number, or
0xFFFFFFFF; JOIN, LEAVE, YIELD and EST take effect at commit (log entry 32); LAUNCH waits until thread order lets it read its packet (log entry
92) and until the read is answered, raises the fault of a read, and else fires 0, the code of the check that fails (log entry 33), 8 for poison or
0xFF for a full list; GBAR fires the current generation for a thread that is no member, waits as one arrival, or completes the barrier, after
which who joined meanwhile is a member (log entry 31). -/
def Obligations.ThreadFormsIssue : Prop :=
  ∀ (r : NodeRec) (s s0 : State) (i : Issue) (tid : Nat) (tk : Task) (a : Act), Spec.Runs s i r → s0 = Spec.taken s →
    s.act? i.f.aid = some a → a.committed = false → a.tid = tid → s.task? tid = some tk →
    (tk.reserve = [] → exec (.spawn r) s = .next (s0.fireVal i 0xB6 r false 0xFFFFFFFF 0)) ∧
    (∀ n rest, tk.reserve = n :: rest →
      exec (.spawn r) s = .next ((Spec.withEffect (s0.setTask tid { tk with reserve := rest }) i a
        (.spawn n (r.l % 65536) (r.l / 65536 % 256) (BitVec.ofNat 64 (valOf i.f.a)))).fireVal i 0xB6 r false n 0)) ∧
    exec (.join r) s = .next ((Spec.withEffect s0 i a (.join (r.l % 256))).fireVal i 0xB8 r false 1 0) ∧
    exec (.leave r) s = .next ((Spec.withEffect s0 i a (.leave (r.l % 256))).fireVal i 0xB9 r false 1 0) ∧
    exec (.yield r) s = .next (Spec.withEffect s0 i a .yield) ∧
    exec (.est r) s = .next (Spec.withEffect s0 i a (.est (BitVec.ofNat 32 (valOf i.f.a)))) ∧
    (∀ h sh, h = Spec.form s0 i (.launch r) → sh = Spec.holding s0 i (.launch r) →
      (sh.mayTake h = false → exec (.launch r) s = .next sh) ∧
      (sh.mayTake h = true → ∀ x s2 s3, Spec.Packet sh h (valOf i.f.a) x s2 → s3 = s2.dropHeld h.id →
        (x = .waits → exec (.launch r) s = .next s2) ∧
        (∀ t, x = .fault t → exec (.launch r) s = .next (s3.raise i t)) ∧
        ∀ bs src l, x = .ok bs src → l = { bytes := bs, src := .child tid, prio := min (bytesAt bs 2 1 % 8) tk.prio } →
          (src ≠ none → exec (.launch r) s = .next (s3.fireVal i 0xBC r false 8 0)) ∧
          (src = none → ∀ c, s3.checkLaunch l (some tk.asid) = some c → exec (.launch r) s = .next (s3.fireVal i 0xBC r false c 0)) ∧
          (src = none → s3.checkLaunch l (some tk.asid) = none →
            (4 ≤ s3.childCount tid → exec (.launch r) s = .next (s3.fireVal i 0xBC r false 0xFF 0)) ∧
            (s3.childCount tid < 4 → exec (.launch r) s = .next ((Spec.withEffect s3 i a (.launch l)).fireVal i 0xBC r false 0 0))))) ∧
    (∀ g, g = Tab.getD tk.groups (r.l % 256) Spec.noGroup → s.isOldest i.f.aid = true →
      (¬ Spec.In g a.thread → (g.arrived = [] ∨ g.arrived.length ≠ g.members.length) → ∃ u : State, exec (.gbar r) s = .next (u.reply i r (.scalar g.gen.toNat)) ∧ u.tsk = s.tsk ∧ u.mem = s.mem) ∧
      (Spec.In g a.thread → ¬ Spec.Came g a.thread → g.arrived.length + 1 ≠ g.members.length →
        ∃ (u : State) (h : HeldOp), exec (.gbar r) s = .next u ∧ u.fab.held = s.fab.held ++ [h] ∧ h.instr = .gbar r ∧ h.iss = i ∧
          (u.task? tid).map (fun k => Tab.find k.groups (r.l % 256)) = some (some { g with arrived := g.arrived ++ [(a.thread, h.id)] })) ∧
      (Spec.In g a.thread → ¬ Spec.Came g a.thread → g.arrived.length + 1 = g.members.length →
        (∀ h ∈ s.fab.held, Spec.GbarWaits s tid (r.l % 256) h → ∃ y ∈ g.arrived, y.2 = h.id) →
        ∃ u : State, exec (.gbar r) s = .next u ∧ (u.task? tid).map (fun k => Tab.find k.groups (r.l % 256)) =
            some (some { members := (g.members.filter fun n => !g.leaving.contains n) ++ g.late, late := [], arrived := [], leaving := [],
                         gen := g.gen + 1 }) ∧
          ∀ h ∈ u.fab.held, h ∈ s.fab.held ∧ ¬ Spec.GbarWaits s tid (r.l % 256) h)) ∧
    (s.isOldest i.f.aid = false → ∃ (u : State) (h : HeldOp), exec (.gbar r) s = .next u ∧ u.fab.held = s.fab.held ++ [h] ∧ h.instr = .gbar r ∧
      h.iss = i ∧ u.tsk = s.tsk)

/-- R81, R82, R151, R252, R320, R324 to R330: an activation starts with the lowest free tag, the return stack of its thread's latest one, and
a start token of value 0 over [0, infinity) on every entry port; at commit its carry writes and return stack become the thread's, its effects
take place one after the other, then its branch, and the GBAR of the thread's next activation arrives; what each effect does: SPAWN starts a thread,
JOIN enters a group, LEAVE leaves it when the cycle ends, YIELD lets others run for 256 cycles, EST sets the estimate, LAUNCH hands its packet to
the dispatcher, or adds 1 to the word at COMPL for a packet of KIND 2; a yielding thread goes on after 256 cycles or when no other can run. A join
beside arrivals and a leave after one follow log entry 31. -/
def Obligations.ActivationEvents : Prop :=
  (∀ (s s1 s2 : State) (n : Nat) (th : Thread) (tk : Task) (pl : Plane) (plane block c iter aid : Nat) (a : Act),
    (s.thread? n).map (·.tid) = some th.tid → s1 = ({ s with inp := none }).reap th.tid → s1.thread? n = some th →
    s1.task? th.tid = some tk → th.next = some (plane, block) → tk.phase = .running → th.trapped = none → th.yieldUntil = none →
    th.acts.length < 8 → th.useKept = none → block < pl.nblk →
    (tk.planes.find? fun x => x.plane == plane).map (fun x => (x.ctx, x.table)) = some (c, pl) → (s1.ctx (tk.elem 0 0) c).armed = true →
    iter < 4096 → iter ∉ s1.tagsUsed th.tid c → (∀ j < iter, j ∈ s1.tagsUsed th.tid c) → aid = s1.tsk.nextAid →
    s1.allocFrames tk c aid (pl.blockNodes block) = some s2 →
    a = { thread := n, tid := th.tid, ctx := c, plane := plane, block := block, iter := iter, committed := false, dead := false,
          fired := [], carry := [], base := [], branch := none, retStack := s1.stackFor th, trap := none, effects := [],
          performed := [], kept := [], handler := th.inh } →
    ∃ t, exec .activationStart { s with inp := some (.activationStart n) } = .next t ∧ t.act? aid = some a ∧
      t.thread? n = some { th with next := none, started := true, acts := th.acts ++ [aid] } ∧ t.mem = s2.mem ∧
      t.fab.net = s2.fab.net ++ (startTokens tk pl block iter c).map fun x =>
        { tok := x.2, at_ := x.1, dir := 0, target := x.1, moved := s.cycles }) ∧
  (∀ (t : Task) (pl : Plane) (k iter c : Nat), ∀ x ∈ startTokens t pl k iter c,
    x.2.lo = 0 ∧ x.2.hi = 0xFFFFFFFF ∧ x.2.pay = { val := 0, vec := false, null := false, pois := false, psrc := 0 } ∧
    x.2.seq = 0 ∧ x.2.front = false ∧ x.2.iter = iter ∧ ∃ y ∈ pl.blockNodes k, neEntry y = true ∧ x.1 = t.elem (neX y) (neY y) ∧
      x.2.node = neNode y ∧ nePort y = some x.2.port) ∧
  (∀ (s : State) (n aid : Nat) (th : Thread) (rest : List Nat) (a : Act), Spec.Commits s n th aid rest a →
    (∀ h ∈ s.fab.held, rest.head? ≠ some h.iss.f.aid) →
    ∃ (th' : Thread) (b v t : State), th' = { th with acts := rest, retStack := a.retStack, carry := th'.carry } ∧
      (∀ c, Tab.getD th'.carry c 0 = match Tab.find a.carry c with
        | some (some v) => v
        | _ => Tab.getD th.carry c 0) ∧
      b = ((Spec.quiet s).setThread n th').setAct aid { a with committed := true, base := th.carry, effects := [], kept := [] } ∧
      v = a.effects.foldl (fun x e => x.commitEffect a.tid n e) b ∧
      exec .activationCommit { s with inp := some (.activationCommit n) } = .next t ∧
      (∀ p k, a.branch = some (.block p k) → t.tsk = v.tsk ∧ t.mem = v.mem ∧ t.sch = v.sch ∧ t.que = v.que ∧ t.fab.held = s.fab.held) ∧
      (a.branch = some .exit → v.tsk.threads.Pairwise (fun x y => x.1 < y.1) → t.thread? n = none ∧
        ∀ k, v.task? a.tid = some k → ∃ k', t.task? a.tid = some k' ∧ n ∈ k'.reserve ∧
          ∀ g, n ∉ (k'.group g).late ∧ (n ∈ (k.group g).members → n ∈ (k'.group g).leaving))) ∧
  (∀ (s : State) (n aid p b : Nat) (th : Thread) (rest : List Nat) (a c : Act) (h : HeldOp) (r : NodeRec) (k : Task) (x : Group),
    Spec.Commits s n th aid rest a → a.branch = some (.block p b) → a.effects = [] → rest.head? = some h.iss.f.aid →
    (s.fab.held.filter fun y => decide (rest.head? = some y.iss.f.aid)) = [h] → h.instr = .gbar r → s.act? h.iss.f.aid = some c → c.thread = n →
    c.tid = a.tid → s.task? a.tid = some k → x = k.group (r.l % 256) → Spec.In x n → ¬ Spec.Came x n → x.arrived.length + 1 ≠ x.members.length →
    ∃ t, exec .activationCommit { s with inp := some (.activationCommit n) } = .next t ∧
      (t.task? a.tid).map (fun y => y.group (r.l % 256)) = some { x with arrived := x.arrived ++ [(n, h.id)] }) ∧
  (∀ (s : State) (tid n : Nat) (th : Thread) (k : Task), s.thread? n = some th → s.task? tid = some k →
    (∀ m p b x, ∃ u, (s.commitEffect tid n (.spawn m p b x)).thread? m = some u ∧ u.tid = tid ∧ u.next = some (p, b) ∧ u.acts = [] ∧
      u.retStack = [] ∧ u.inh = false ∧ (∀ c, Tab.getD u.carry c 0 = if c = 0 then x else if c = 63 then BitVec.ofNat 64 m else 0) ∧
      ∀ j, j ≠ m → (s.commitEffect tid n (.spawn m p b x)).thread? j = s.thread? j) ∧
    (∀ g x, x = k.group g → ∃ k', (s.commitEffect tid n (.join g)).task? tid = some k' ∧ (∀ j, j ≠ g → k'.group j = k.group j) ∧
      k'.group g = if (n ∈ x.members ∧ n ∉ x.leaving) ∨ n ∈ x.late then x
        else if x.arrived.any (fun y => y.1 == n) then { x with late := x.late ++ [n] }
        else if x.arrived = [] then
          { x with members := (x.members.filter fun m => m != n) ++ [n], leaving := x.leaving.filter fun m => m != n }
        else { x with members := x.members.filter (fun m => m != n), leaving := x.leaving.filter (fun m => m != n), late := x.late ++ [n] }) ∧
    (∀ g x, x = k.group g → ∃ k', (s.commitEffect tid n (.leave g)).task? tid = some k' ∧ (∀ j, j ≠ g → k'.group j = k.group j) ∧
      k'.group g = { x with late := x.late.filter (fun m => m != n),
                            leaving := if n ∈ x.members ∧ n ∉ x.leaving then x.leaving ++ [n] else x.leaving }) ∧
    (s.commitEffect tid n .yield).thread? n = some { th with yieldUntil := some (s.cycles + 256) } ∧
    (∀ us, ((s.commitEffect tid n (.est us)).task? tid).map (fun y => (y.estUs, y.estAt)) = some (us, s.units)) ∧
    (∀ l, l.kind ≠ 2 → ∃ h before after, h.launch = l ∧ h.placeable = none ∧ h.dirty = true ∧ h.entered = (s.cycles, n) ∧
      s.sch.held = before ++ after ∧ s.commitEffect tid n (.launch l) =
        s.setSch { s.sch with held := before ++ h :: after, nextLid := s.sch.nextLid + 1 } ∧
      (∀ y ∈ before, ¬ (y.launch.src = l.src ∧ y.entered.1 = s.cycles ∧ n < y.entered.2)) ∧
      ∀ y ∈ after.head?, y.launch.src = l.src ∧ y.entered.1 = s.cycles ∧ n < y.entered.2) ∧
    (∀ l, l.kind = 2 → (l.compl = 0 → s.commitEffect tid n (.launch l) = s) ∧
      (l.compl ≠ 0 → Spec.AddsWord s (s.commitEffect tid n (.launch l)) l.asid l.compl 1))) ∧
  (∀ s : State, s.tsk.tasks.Pairwise (fun x y => x.1 < y.1) →
    (∀ tid k, s.task? tid = some k → k.groups.Pairwise (fun x y => x.1 < y.1) ∧
      ∀ g, (k.group g).leaving ≠ [] → (k.group g).arrived = [] ∨ (k.group g).arrived.length ≠ (Spec.afterLeaves (k.group g)).members.length) →
    ∀ tid k g, s.task? tid = some k → ∃ k', s.leavesEnd.task? tid = some k' ∧ k'.group g = Spec.afterLeaves (k.group g)) ∧
  (∀ (s : State) (n : Nat) (th : Thread) (c : Nat), s.thread? n = some th → th.yieldUntil = some c →
    ((c ≤ s.cycles ∨ s.otherRunnable th.tid n = false) →
      exec .yieldExpiry { s with inp := some (.yieldExpiry n) } =
        .next ({ s with inp := none }.setThread n { th with yieldUntil := none })) ∧
    (¬ (c ≤ s.cycles ∨ s.otherRunnable th.tid n = false) →
      exec .yieldExpiry { s with inp := some (.yieldExpiry n) } = .next { s with inp := none }))

/-- R211 to R217, R227: TRAP and BKPT raise USER and BREAKPOINT. A trap of the oldest activation discards every activation of its thread,
counting the traps that are lost with them; with the code delegated and INH clear the record goes to TRAP_REC, INH is set and the
handler block is next; otherwise it joins the Lodge's queue. ERET goes on at the trapped block with what it had performed, or at
TRAP_RESUME's, and clears INH; the Lodge resumes a thread so, delivers its trap, or ends the task (log entry 34), once what the task has
committed has performed (log entries 90, 97). -/
def Obligations.TrapTakingAndReturn : Prop :=
  (∀ (r : NodeRec) (s : State) (i : Issue), Spec.Runs s i r →
    exec (.trap r) s = .next ((Spec.taken s).raise i
      { code := 30, info := BitVec.ofNat 64 r.l, addr := BitVec.ofNat 64 (valOf i.f.a) }) ∧
    exec (.bkpt r) s = .next ((Spec.taken s).raise i
      { code := 29, info := BitVec.ofNat 64 r.l, addr := BitVec.ofNat 64 (valOf i.f.a) })) ∧
  (∀ (s : State) (n aid : Nat) (rest : List Nat) (th : Thread) (a : Act) (tk : Task) (r : TrapRec) (k : Kept),
    s.thread? n = some th → th.acts = aid :: rest → s.act? aid = some a → a.trap = some r → s.task? a.tid = some tk →
    s.cutOf a.tid = none → (∀ x ∈ th.acts, (s.act? x).isSome = true) → th.tid = a.tid → th.lodge = false →
    (∀ x ∈ s.mem.acc, x.iss.f.aid = aid → x.write = true → x.todo = 0 ∨ x.sent = false ∧ x.todo = 2 ^ x.parts.length - 1) →
    (∀ x ∈ s.mem.rowCmds, x.iss.f.aid = aid → x.doneAt.isSome = true) →
    k = { iter := a.iter, ctx := a.ctx, plane := a.plane, block := a.block, performed := a.performed, tokens := a.kept } →
    ∃ t, exec .trapTake { s with inp := some (.trapTake n) } = .next t ∧
      (∀ x ∈ th.acts, ∀ y, t.act? x = some y → y.dead = true) ∧ t.mem.main = s.mem.main ∧ t.mem.dram = s.mem.dram ∧
      t.mem.bank = s.mem.bank ∧ t.mem.scratch = s.mem.scratch ∧ (∀ x ∈ t.mem.acc, x.iss.f.aid ∉ th.acts) ∧
      (∀ h ∈ t.fab.held, h.done = none → h.iss.f.aid ∉ th.acts) ∧
      t.err.trapLost.toNat =
        min 255 (s.err.trapLost.toNat + (rest.filter fun x => x != aid && ((s.act? x).bind (·.trap)).isSome).length) ∧
      (tk.handler.getLsbD 24 = true → tk.deleg.getLsbD r.code = true → th.inh = false →
        t.thread? n = some { Spec.delivered th tk r k with acts := [], yieldUntil := none } ∧ t.tsk.lodgeQueue = s.tsk.lodgeQueue) ∧
      (¬ (tk.handler.getLsbD 24 = true ∧ tk.deleg.getLsbD r.code = true ∧ th.inh = false) →
        t.thread? n = some { th with acts := [], next := none, yieldUntil := none, lodge := true, trapped := some r, lodgeKept := some k } ∧
        t.tsk.lodgeQueue = s.tsk.lodgeQueue ++ [r])) ∧
  (∀ r : TrapRec, r.code < 64 → r.asid < 256 → r.thread < 2 ^ 14 → r.ctx < 4 → r.iter < 4096 → r.node < 64 → r.port < 4 →
    r.lsid < 32 → r.plane < 65536 → r.block < 256 → r.elem < 2 ^ 14 →
    ∀ w, w = (Tab.getD r.words 0 0).toNat → w % 64 = r.code ∧ w / 2 ^ 8 % 256 = r.asid ∧ w / 2 ^ 16 % 2 ^ 14 = r.thread ∧
      w / 2 ^ 30 % 4 = r.ctx ∧ w / 2 ^ 32 % 4096 = r.iter ∧ w / 2 ^ 44 % 64 = r.node ∧ w / 2 ^ 50 % 4 = r.port ∧ w / 2 ^ 52 = r.lsid ∧
      (Tab.getD r.words 1 0).toNat = r.plane + 2 ^ 16 * r.block + 2 ^ 24 * r.elem ∧ Tab.getD r.words 2 0 = r.addr ∧
      Tab.getD r.words 3 0 = r.info) ∧
  (∀ (s : State) (n aid : Nat) (th : Thread) (rest : List Nat) (a : Act) (k : Kept), Spec.Commits s n th aid rest a →
    a.branch = some .eret → a.effects = [] → th.kept = some k →
    ∃ t th', exec .activationCommit { s with inp := some (.activationCommit n) } = .next t ∧ t.thread? n = some th' ∧
      th'.inh = false ∧ th'.kept = none ∧ th'.acts = rest ∧ th'.resume.getLsbD 24 = false ∧
      (th.resume.getLsbD 24 = false → th'.next = some (k.plane, k.block) ∧ th'.useKept = some k) ∧
      (th.resume.getLsbD 24 = true →
        th'.next = some (th.resume.toNat % 65536, th.resume.toNat / 65536 % 256) ∧ th'.useKept = none)) ∧
  (∀ (s : State) (r : TrapRec) (rest : List TrapRec) (th : Thread) (tk : Task) (k : Kept), s.tsk.lodgeQueue = r :: rest →
    s.thread? r.thread = some th → s.task? r.tid = some tk → th.tid = r.tid → th.trapped = some r → th.lodgeKept = some k →
    r.code ≠ 31 →
    (∃ t, exec .lodgeTrapService { s with inp := some (.lodgeTrapService .resume) } = .next t ∧ t.tsk.lodgeQueue = rest ∧
      t.thread? r.thread = some
        (if th.resume.getLsbD 24 then
          { th with lodge := false, trapped := none, next := some (th.resume.toNat % 65536, th.resume.toNat / 65536 % 256),
                    useKept := none, lodgeKept := none, resume := th.resume &&& 0xFFFFFF }
         else { th with lodge := false, trapped := none, next := some (k.plane, k.block), useKept := some k, lodgeKept := none })) ∧
    (th.inh = false → ∃ t, exec .lodgeTrapService { s with inp := some (.lodgeTrapService .deliver) } = .next t ∧
      t.tsk.lodgeQueue = rest ∧
      t.thread? r.thread = some (Spec.delivered th tk r k)) ∧
    (s.tsk.tasks.Pairwise (fun x y => x.1 < y.1) → tk.halting = false → ∀ q,
      q = ({ s with inp := none }.setTsk { s.tsk with lodgeQueue := rest }).quiesce r.tid →
      ∃ t, exec .lodgeTrapService { s with inp := some (.lodgeTrapService .endTask) } = .next t ∧
        (q.owesWrites r.tid ((q.task? r.tid).getD tk) = false → t.task? r.tid = none) ∧
        (q.owesWrites r.tid ((q.task? r.tid).getD tk) = true → (t.task? r.tid).map (·.phase) = some (.halting complBad evKilled)) ∧
        ∀ x ∈ t.tsk.threads, x.2.tid ≠ r.tid))

/-- R217, R389 to R393: SYSRD fires what the register of its number holds and raises SYS_ACCESS with the number where the map gives no
read; SYSWR, performed when its activation is the oldest, writes the register's writable bits and no other register, or raises
SYS_ACCESS; CVT_SEED starts the generator at the value, or at its reset value for 0; a task that owns a scratchpad slice which grants it
GH_WAYPART sets SPW there and nothing else, any other management write is refused; TIME fires the cycle count in 48 bits or the package time
in microseconds; TAPSET sets a tap of its own ASID. TRAP_STAT's bit for the Lodge is log entry 34. -/
def Obligations.SystemFormResults : Prop :=
  ∀ (r : NodeRec) (s s0 : State) (i : Issue) (n : Nat), Spec.Runs s i r → s0 = Spec.taken s →
    (n = r.l % 2 ^ 24 + valOf i.f.a % 2 ^ 64 → r.l.testBit 24 = false →
      (∀ v, s.sysReg i n = some v → exec (.sysrd r) s = .next (s0.fireVal i 0xF0 r false v 0)) ∧
      (s.sysReg i n = none → exec (.sysrd r) s = .next (s0.raise i { code := trapSysAccess, info := BitVec.ofNat 64 n })) ∧
      (∀ a th tk, s.act? i.f.aid = some a → s.thread? a.thread = some th → s.task? a.tid = some tk →
        (∀ k < 12, s.sysReg i (0x100 + k) = some (Tab.getD th.recs k 0).toNat) ∧ s.sysReg i 0x110 = some tk.handler.toNat ∧
        s.sysReg i 0x111 = some tk.deleg.toNat ∧ s.sysReg i 0x112 = some th.resume.toNat ∧
        s.sysReg i 0x113 = some ((if th.inh then 1 else 0) +
          if th.lodge = true ∨ ∃ q ∈ s.tsk.lodgeQueue, q.tid = th.tid ∧ q.thread = a.thread then 2 else 0) ∧
        s.sysReg i 0x200 = some (s.ctx i.elem i.ctx).fpStat.toNat ∧ s.sysReg i 0x201 = none ∧
        s.sysReg i 0x400 = some tk.waitTmo.toNat ∧ s.sysReg i 0x401 = some tk.xcErr.toNat ∧ s.sysReg i 0x402 = some tk.collTmo.toNat ∧
        (Spec.fctBit s i = false → ∀ k < 5, s.sysReg i (0x300 + k) = none) ∧
        ∀ b, b = s.bed (bedOf i.elem) → Spec.fctBit s i = true →
          s.sysReg i 0x300 = some ((if b.gmode then 1 else 0) + if b.smode then 2 else 0) ∧ s.sysReg i 0x301 = some b.glim.toNat ∧
          s.sysReg i 0x302 = some b.singtol.toNat ∧ s.sysReg i 0x303 = some b.growth.toNat ∧
          s.sysReg i 0x304 = some (b.next + (if b.active then 2 ^ 8 else 0) + (if b.gflag then 2 ^ 9 else 0) + (if b.subst then 2 ^ 10 else 0) +
            2 ^ 11 * b.subcol.toNat + 2 ^ 18 * b.subcnt.toNat + 2 ^ 26 * b.gidx.toNat + if b.group.isSome then 2 ^ 29 else 0))) ∧
    (r.l.testBit 24 = true → n = r.l % 2 ^ 24 + valOf i.f.a % 2 ^ 64 →
      (∀ v, s.taskWord n = some v → ∃ u : State, exec (.sysrd r) s = .next (u.fireVal i 0xF0 r false v 0) ∧ u.settings = s.settings) ∧
      (s.taskWord n = none → exec (.sysrd r) s = .next (s0.raise i { code := trapSysAccess, info := BitVec.ofNat 64 n }))) ∧
    (r.l.testBit 24 = false → n = r.l % 2 ^ 24 → s.isOldest i.f.aid = true → (∃ a, s.act? i.f.aid = some a ∧
        (s.thread? a.thread).isSome = true ∧ (s.task? a.tid).isSome = true) →
      ((∀ e ∈ Spec.written, n ≠ e.1) → n ≠ 0x201 → ¬ (0x300 ≤ n ∧ n ≤ 0x304 ∧ Spec.fctBit s i = true) →
        ∃ u : State, exec (.syswr r) s = .next (u.raise i { code := trapSysAccess, info := BitVec.ofNat 64 n }) ∧ u.settings = s.settings ∧
          ∀ m, u.sysReg i m = s.sysReg i m) ∧
      (n = 0x201 → ∃ u : State, exec (.syswr r) s = .next (u.reply i r (.scalar 1)) ∧ (u.ctx i.elem i.ctx).gen =
          (if valOf i.f.a % 2 ^ 32 = 0 then 0x9E3779B9 else BitVec.ofNat 32 (valOf i.f.a)) ∧ (∀ m, u.sysReg i m = s.sysReg i m) ∧
        (∀ e c, ctxKey e c ≠ ctxKey i.elem i.ctx → (u.ctx e c).gen = (s.ctx e c).gen) ∧ u.mem = s.mem ∧ u.settings = s.settings) ∧
      ∀ e ∈ Spec.written ++ (if Spec.fctBit s i then Spec.writtenFct else []), n = e.1 →
        (n = 0x304 → (s.bed (bedOf i.elem)).next < 2 ^ 8) → ∃ u : State, exec (.syswr r) s = .next (u.reply i r (.scalar 1)) ∧
        (∀ x, s.sysReg i n = some x → u.sysReg i n = some (e.2 x (valOf i.f.a % 2 ^ 64))) ∧
        (∀ m, m ≠ n → u.sysReg i m = s.sysReg i m) ∧ u.mem = s.mem ∧ u.settings = s.settings) ∧
    (r.l.testBit 24 = true → n = r.l % 2 ^ 24 → s.isOldest i.f.aid = true → ∀ p, p = s.mem.wp (n - 0x1400) →
      (0x1400 ≤ n ∧ n < 0x1440 ∧ p.taskWr = true ∧ p.spasid.toNat = s.issAsid i → ∀ spw, spw = valOf i.f.a % 32 →
        ∃ u : State, exec (.syswr r) s = .next (u.reply i r (.scalar 1)) ∧ u.settings = s.settings ∧
          (∀ j, j ≠ n - 0x1400 → u.mem.wp j = s.mem.wp j) ∧ u.mem.scratch = s.mem.scratch ∧ u.mem.wp (n - 0x1400) =
            if p.phase ≠ 0 ∨ 16 < spw then { p with err := true }
            else if spw = p.spw.toNat then { p with spw1 := p.spw, spasid1 := p.spasid }
            else { p with spw1 := BitVec.ofNat 5 spw, spasid1 := p.spasid, phase := 1, wbcnt := 0 }) ∧
      (¬ (0x1400 ≤ n ∧ n < 0x1440 ∧ p.taskWr = true ∧ p.spasid.toNat = s.issAsid i) →
        ∃ u : State, exec (.syswr r) s = .next (u.raise i { code := trapSysAccess, info := BitVec.ofNat 64 n }) ∧ u.settings = s.settings ∧
          u.mem = s.mem ∧ u.eng = s.eng)) ∧
    (exec (.time r) s = .next (s0.fireVal i 0xF5 r false
      (if r.aux.toNat.testBit 0 then s.units / 5544000 % 2 ^ 64 else s.cycles % 2 ^ 48) 0)) ∧
    (s.isOldest i.f.aid = true → ∀ v, v = valOf i.f.a % 2 ^ 33 →
      (v / 2 ^ 24 % 256 = s.issAsid i → ∃ u : State, exec (.tapset r) s = .next (u.reply i r (.scalar 1)) ∧
        (∀ k, Tab.getD u.tap.sel k 0 = if k = r.l % 8 then BitVec.ofNat 64 v else Tab.getD s.tap.sel k 0) ∧ u.mem = s.mem ∧
        u.settings = s.settings) ∧
      (v / 2 ^ 24 % 256 ≠ s.issAsid i → ∃ (u : State) (m : Nat), exec (.tapset r) s =
        .next (u.raise i { code := trapSysAccess, info := BitVec.ofNat 64 m }) ∧ u.tap = s.tap))

/-! ### Streams, copies, near memory, rows, queue and literal writes (R92, R153, R162 to R166, R169, R183, R184, R352 to R371) -/

namespace Sys2Proof.Spec
open Sys2Proof.Machine

/-- The binding that a descriptor at hand describes (R354). -/
def Describes (b : Binding) (d : List Byte) (indexed : Bool) (i : Issue) (tid port : Nat) (write : Bool) : Prop :=
  b.tid = tid ∧ b.aid = i.f.aid ∧ b.ctx = i.ctx ∧ b.port = port ∧ b.write = write ∧ b.indexed = indexed ∧
  b.base = Sys2Proof.ofBytes (d.take 8) ∧
  b.counts = [Sys2Proof.ofBytes ((d.drop 8).take 4), Sys2Proof.ofBytes ((d.drop 12).take 4), Sys2Proof.ofBytes ((d.drop 16).take 4),
    Sys2Proof.ofBytes ((d.drop 20).take 4)] ∧
  b.strides.getD 0 0 = signed 64 (Sys2Proof.ofBytes ((d.drop 24).take 8)) ∧
  b.flag = Sys2Proof.ofBytes ((d.drop 48).take 8) ∧ b.flagVal = Sys2Proof.ofBytes ((d.drop 56).take 4) ∧
  b.t0 = Sys2Proof.ofBytes ((d.drop 60).take 4) ∧ b.next = 0 ∧ b.got = [] ∧ b.faulted = false ∧ b.released = false

/-- A port's bindings, open or waiting. -/
def onPort (s : State) (tid c port : Nat) : List Binding := s.eng.bindings.filter fun x => x.tid == tid && x.ctx == c && x.port == port

/-- The place that a position's granule lies at, in local memory with its row free. -/
def GranuleAt (s : State) (t : Task) (x : Nat) (b : Binding) (n : Nat) (pl : Place) (s1 : State) : Prop :=
  s.granulePlace (s.memPort (t.elem (spFx x) (spFy x))) t.asid x b n = (.ok pl, s1) ∧ pl.kind ≠ .domain ∧ s1.rowFree pl.addr = true

/-- The interval of a stream token (R355). -/
def stamp (x t0 n : Nat) (d : List Byte) : Nat × Nat :=
  if x / 2 ^ 9 % 4 = 0 then
    (min (t0 + n / max 1 (x / 2 ^ 47 % 256)) 0xFFFFFFFE, min (t0 + n / max 1 (x / 2 ^ 47 % 256) + 1) 0xFFFFFFFE)
  else
    (Sys2Proof.ofBytes ((d.drop (4 * (x / 2 ^ 64 % 16))).take 4),
     if x / 2 ^ 68 % 2 ^ 32 = 0 then 0xFFFFFFFF
     else min (Sys2Proof.ofBytes ((d.drop (4 * (x / 2 ^ 64 % 16))).take 4) + x / 2 ^ 68 % 2 ^ 32) 0xFFFFFFFE)

/-- The row command forms. -/
def rowForms : List (NodeRec → Instr) := [.rowact, .rowcon, .rowpre]

/-- A command takes effect next in its bed, past its edge, and no rule stops it. -/
def RowGoes (s : State) (x : RowCmd) : Prop :=
  s.mem.rowCmds.find? (fun y => y.id == x.id) = some x ∧ x.doneAt = none ∧ x.count * 18480 < s.units ∧
    (∀ y ∈ s.mem.rowCmds, y.bank / 64 = x.bank / 64 → y.doneAt = none → y.before x = false) ∧
    s.mem.settleBank x.bank x.count = s.mem ∧ s.mem.rowTrap x x.count = none

/-- The element that takes bytes 32i to 32i + 31 of a row (R162, R365). -/
def bedElem (bed i : Nat) : Nat := bed / 64 * 4096 + (bed % 64 / 8 * 8 + i / 8) * 64 + bed % 8 * 8 + i % 8

end Sys2Proof.Spec

/-- R353 to R358, R169: SBIND waits until thread order lets it read its descriptor (log entry 92) and until the read is answered, and makes the
binding it describes, which opens while the port has fewer than four that are not released; a bad descriptor is ALIGN, and a flag that cannot be
written its own fault (log entry 51). SREL releases its activation's bindings on the port; SPOS fires the position or all ones. A returned
granule waits for its turn; a delivered one leaves as a token with its bytes and its stamp. A write binding writes each token's 64
bytes at its position and no other byte; a binding ends, and writes its flag, once its writes to peers are answered, and is gone once
what it delivered has left the FIFO. A faulted position records the fault for the port's next user. -/
def Obligations.StreamResults : Prop :=
  (∀ (r : NodeRec) (s sh : State) (i : Issue) (h : HeldOp), Spec.Runs s i r → h = Spec.form (Spec.taken s) i (.sbind r) →
    sh = Spec.holding (Spec.taken s) i (.sbind r) → sh.mayTake h = false → exec (.sbind r) s = .next sh) ∧
  (∀ (r : NodeRec) (s sh s1 s2 : State) (i : Issue) (h : HeldOp) (y : Rd), Spec.Runs s i r → h = Spec.form (Spec.taken s) i (.sbind r) →
    sh = Spec.holding (Spec.taken s) i (.sbind r) → sh.mayTake h = true → sh.loadOwn h (valOf i.f.a) 64 = (y, s2) → s1 = s2.dropHeld h.id →
    (y = .waits → exec (.sbind r) s = .next s2) ∧
    (∀ t, y = .fault t → exec (.sbind r) s = .next (s1.raise i t)) ∧
    (∀ d src, y = .ok d (some src) → exec (.sbind r) s =
      .next (s1.raise i { code := trapPoison, info := BitVec.ofNat 64 src.toNat, addr := BitVec.ofNat 64 (valOf i.f.a) })) ∧
    (∀ d flag, y = .ok d none → flag = Sys2Proof.ofBytes ((d.drop 48).take 8) → flag ≠ 0 → ¬ Spec.WalksOpen s2 i [(flag, 8)] true →
      exec (.sbind r) s = .next s2) ∧
    (∀ d flag tid tk t' pl x, y = .ok d none → flag = Sys2Proof.ofBytes ((d.drop 48).take 8) → (flag ≠ 0 → Spec.WalksOpen s2 i [(flag, 8)] true) →
      s1.issTask i = some (tid, tk) → s1.streamPort tid i.ctx (r.l % 256) = some (t', pl, x) →
      (descOk d (r.l.testBit 8) = false → exec (.sbind r) s =
        .next (s1.raise i { code := trapAlign, info := 64, addr := BitVec.ofNat 64 (valOf i.f.a) })) ∧
      (∀ f s3, descOk d (r.l.testBit 8) = true → flag ≠ 0 → s1.locateGlobal (s1.memPort i.elem) (s1.issAsid i) flag 8 true = (.error f, s3) →
        exec (.sbind r) s = .next (s3.raise i f)) ∧
      (∀ s3, descOk d (r.l.testBit 8) = true → (flag = 0 → s3 = s1) →
        (flag ≠ 0 → ∃ p, s1.locateGlobal (s1.memPort i.elem) (s1.issAsid i) flag 8 true = (.ok p, s3)) →
        (∀ b ∈ s3.eng.bindings, b.bid ≠ s3.fresh) →
        ∃ (t : State) (b : Binding), exec (.sbind r) s = .next t ∧ b ∈ t.eng.bindings ∧ b.bid = s3.fresh ∧
          Spec.Describes b d (r.l.testBit 8) i tid (r.l % 256) (x.testBit 0) ∧ t.mem = s3.mem ∧ t.tsk = s3.tsk ∧
          b.owed = (if x.testBit 0 && s3.wiredTo i r 1 then some (i, .sbind r) else none) ∧
          ((Spec.onPort s3 tid i.ctx (r.l % 256)).length < 4 → b.tell = none) ∧
          (4 ≤ ((Spec.onPort s3 tid i.ctx (r.l % 256)).filter fun y => y.tell.isNone && !y.released).length → b.tell.isSome = true)))) ∧
  (∀ (b : Binding) (i0 i1 i2 i3 c0 c1 c2 c3 : Nat) (s1 s2 s3 : Int), b.counts = [c0, c1, c2, c3] → b.strides = [s1, s2, s3] →
    i0 < c0 → i1 < c1 → i2 < c2 → i3 < c3 →
    (b.affine (i0 + c0 * (i1 + c1 * (i2 + c2 * i3))) : Int) =
      ((b.base : Int) + 64 * i0 + s1 * i1 + s2 * i2 + s3 * i3) % 2 ^ 64) ∧
  (∀ (r : NodeRec) (s : State) (i : Issue), Spec.Runs s i r →
    (∃ u : State, exec (.srel r) s = .next (u.reply i r (.scalar 1)) ∧
      ∀ b ∈ u.eng.bindings, b.aid = i.f.aid → b.ctx = i.ctx → b.port = r.l % 256 → b.released = true) ∧
    (∀ b, s.eng.bindings.find? (fun b => b.aid == i.f.aid && b.ctx == i.ctx && b.port == r.l % 256 && b.tell.isNone && !b.released) = some b →
      exec (.spos r) s = .next ((Spec.taken s).reply i r (.scalar (s.bindingPos b)))) ∧
    ((∀ b ∈ s.eng.bindings, ¬ (b.aid = i.f.aid ∧ b.ctx = i.ctx ∧ b.port = r.l % 256 ∧ b.tell = none ∧ b.released = false)) →
      exec (.spos r) s = .next ((Spec.taken s).reply i r (.scalar 0xFFFFFFFFFFFFFFFF)))) ∧
  (∀ (s s1 : State) (b : Binding) (pos : Nat) (ecc : Bool) (t : Task) (pl : Plane) (x : Nat) (p : Place),
    s.binding? b.bid = some b → s.streamPort b.tid b.ctx b.port = some (t, pl, x) → s.cutOf b.tid = none → b.write = false →
    b.tell = none → b.released = false → b.faulted = false → b.stop = none → b.next ≤ pos → (Spec.quiet s).portPlace b x pos = true →
    pos < b.total → (∀ g ∈ b.got, g.1 ≠ pos) → blockFmt (x / 4 % 16) = none → b.indexed = false →
    Spec.GranuleAt { s with inp := none } t x b pos p s1 → p.kind = .global → Spec.Coherent s1.mem →
    ∃ (u : State) (q : Bool), exec .streamGranuleReturn { s with inp := some (.streamGranuleReturn b.bid pos ecc) } =
        .next (u.deliver b.bid (b.got.length + 1)) ∧
      u.binding? b.bid = some { b with got := b.got ++ [(pos, (List.range 64).map fun j => Spec.byteAt s1.mem (p.addr + j), ecc || q,
        if ecc then 1 else if q then 4 else 0)] } ∧
      ∀ a, Spec.byteAt u.mem a = Spec.byteAt s1.mem a) ∧
  (∀ (s : State) (b : Binding) (t : Task) (pl : Plane) (x : Nat) (d : List Byte) (pois : Bool) (src : BitVec 3) (e target node : Nat)
    (p : PortName),
    s.binding? b.bid = some b → s.streamPort b.tid b.ctx b.port = some (t, pl, x) → e = t.elem (spFx x) (spFy x) →
    b.got.find? (fun g => g.1 == b.next) = some (b.next, d, pois, src) → s.turnOfBinding b x = true → x.testBit 12 = false →
    (s.fab.net.filter fun f => f.at_ == e && f.dir == 0 && f.tok.src == streamSrc b.tid b.ctx b.port).length <
      fifoShare pl (s.extent e b.ctx / 64) b.port →
    s.destElem e b.ctx (spDst x) = some (target, node, p) → (x.testBit 11 = false ∨ b.next + 1 ≠ b.total) →
    ∃ f : Flit, (s.deliver b.bid 1).fab.net = s.fab.net ++ [f] ∧ f.target = target ∧ f.at_ = e ∧ f.tok.node = node ∧ f.tok.port = p ∧
      f.tok.lo = (Spec.stamp x b.t0 b.next d).1 ∧ f.tok.hi = (Spec.stamp x b.t0 b.next d).2 ∧
      f.tok.pay.val = BitVec.ofNat 512 (Sys2Proof.ofBytes d) ∧ f.tok.pay.vec = true ∧ f.tok.pay.pois = pois ∧ (pois = true → f.tok.pay.psrc = src) ∧
      (s.deliver b.bid 1).binding? b.bid = some { b with next := b.next + 1, got := b.got.filter fun g => g.1 != b.next }) ∧
  (∀ (s s1 : State) (b : Binding) (t : Task) (pl : Plane) (x : Nat) (p : Place) (tok : Token) (rest : List Token),
    s.binding? b.bid = some b → s.streamPort b.tid b.ctx b.port = some (t, pl, x) → b.inputs = tok :: rest → s.cutOf b.tid = none →
    b.write = true → b.faulted = false → Spec.GranuleAt { s with inp := none } t x b b.next p s1 → p.kind = .global →
    Spec.Coherent s1.mem → s1.mayStampAt (t.elem (spFx x) (spFy x) / 4096) .global p.addr = true →
    ∃ u : State, exec .streamGranuleWrite { s with inp := some (.streamGranuleWrite b.bid) } = .next u ∧
      u.binding? b.bid = some { b with next := b.next + 1, inputs := rest } ∧
      ∀ a, Spec.byteAt u.mem a = if p.addr ≤ a ∧ a < p.addr + 64 then BitVec.ofNat 8 (tok.pay.val.toNat / 256 ^ (a - p.addr))
        else Spec.byteAt s1.mem a) ∧
  (∀ (s : State) (b : Binding), s.binding? b.bid = some b → b.total ≤ b.next → b.released = false → b.faulted = false →
    b.tell = none → b.got = [] → b.stop = none → (b.write = true → b.inputs = []) →
    (s.bindingOwes b = true → exec .streamBindingEnd { s with inp := some (.streamBindingEnd b.bid) } = .next { s with inp := none }) ∧
    (s.bindingOwes b = false → b.flag = 0 → ∃ t : State, exec .streamBindingEnd { s with inp := some (.streamBindingEnd b.bid) } = .next t ∧
      (s.inFifo b = 0 → ∀ y ∈ t.eng.bindings, y.bid ≠ b.bid) ∧ (s.inFifo b ≠ 0 → t.binding? b.bid = some b) ∧ t.mem = s.mem) ∧
    (∀ k, k = ((s.task? b.tid).map fun k : Task => k.asid).getD 0 → b.flag ≠ 0 → s.mayWriteVa k b.flag 8 = false →
      exec .streamBindingEnd { s with inp := some (.streamBindingEnd b.bid) } = .next { s with inp := none }) ∧
    (s.bindingOwes b = false → b.flag ≠ 0 → s.mayWriteVa (((s.task? b.tid).map fun k : Task => k.asid).getD 0) b.flag 8 = true →
      ∃ t : State, exec .streamBindingEnd { s with inp := some (.streamBindingEnd b.bid) } = .next t ∧
      (s.inFifo b = 0 → ∀ y ∈ t.eng.bindings, y.bid ≠ b.bid) ∧ (s.inFifo b ≠ 0 → t.binding? b.bid = some { b with flag := 0 }) ∧
      t.mem = (({ s with inp := none }).writeVa (((s.task? b.tid).map fun k : Task => k.asid).getD 0) b.flag
        (bytesOf 8 b.flagVal) false).2.mem)) ∧
  (∀ (s s1 : State) (b : Binding) (t : Task) (pl : Plane) (x : Nat) (f : Trap), s.binding? b.bid = some b →
    s.streamPort b.tid b.ctx b.port = some (t, pl, x) → b.faulted = false → b.released = false → b.tell = none → b.next < b.total →
    (b.write = true → b.inputs ≠ []) → (∀ g ∈ b.got, g.1 ≠ b.next) → ({ s with inp := none }).granuleFault t x b b.next = (some f, s1) →
    ∃ u : State, exec .streamFault { s with inp := some (.streamFault b.bid) } = .next u ∧
      u.eng.faults = s1.eng.faults ++ [{ tid := b.tid, ctx := b.ctx, port := b.port, code := f.code, addr := f.addr, info := f.info }] ∧
      ∀ k, s1.task? b.tid = some k → k.xcErr.toNat.testBit 0 = false →
        (u.task? b.tid).map (·.xcErr) = some (BitVec.ofNat 64 (1 + 2 * f.code + 2 ^ 16 * (64 * b.next))))

/-- R183, R184, R359 to R362, R165, R166: XCOPY and NMRED performed by the oldest activation take a place in their engine's queue, or
raise ALIGN or the fault of a check (log entry 53); an engine moves one granule a cycle in each direction (log entry 52); a copy reads and writes
whole 64-byte granules in order, each byte of its destination becoming that of its source;
a copy that faults records it and ends before the granule that failed; once its writes are answered a copy writes its completion word,
with bit 63 set where it failed; an adder reads the parts of its rows one by one, in index order, and writes the sums of the rows as it read
them. -/
def Obligations.CopyAndReduceResults : Prop :=
  (∀ (r : NodeRec) (s s1 s2 : State) (i : Issue) (d : List Byte) (tid : Nat) (tk : Task) (h : HeldOp), Spec.Runs s i r →
    Spec.Counted s i r true s1 → s1.performedBy i r.x = none → s1.isOldest i.f.aid = true → (∀ y ∈ s1.fab.held, y.id ≠ s1.fresh) →
    (s1.copiesOf (i.elem / 4096)).length < 64 → h = { id := s1.fresh, instr := .xcopy r, iss := i, since := s1.cycles } →
    (Spec.kept s1 i (.xcopy r)).mayTake h = true → (Spec.kept s1 i (.xcopy r)).loadOwn h (valOf i.f.a % 2 ^ 64) 64 =
      (.ok d none, s2) → s2.issTask i = some (tid, tk) →
    ∀ src dst len cw, src = bytesAt d 0 8 → dst = bytesAt d 8 8 → len = bytesAt d 16 8 → cw = bytesAt d 24 8 →
    ((src % 64 ≠ 0 ∨ dst % 64 ≠ 0 ∨ len % 64 ≠ 0 ∨ 2 ^ 40 < len ∨ cw % 8 ≠ 0) → ∃ u : State, exec (.xcopy r) s =
      .next (u.raise i { code := trapAlign, info := 64, addr := BitVec.ofNat 64 (valOf i.f.a % 2 ^ 64), lsid := r.x }) ∧
      u.eng = s2.eng) ∧
    (src % 64 = 0 → dst % 64 = 0 → len % 64 = 0 → len ≤ 2 ^ 40 → cw = 0 → bytesAt d 40 1 % 16 = 0 →
      ∃ (u : State) (c : Copy), exec (.xcopy r) s = .next (if s2.wiredTo i r 1 then u else u.reply i r (.scalar 1)) ∧
        u.eng.copies = s2.eng.copies ++ [c] ∧ c.cid = s2.fresh ∧ c.tid = tid ∧ c.asid = tk.asid ∧ c.elem = i.elem ∧ c.src = src ∧
        c.dst = dst ∧ c.len = len ∧ c.cw = 0 ∧ c.sspace = 0 ∧ c.dspace = 0 ∧ c.rd = 0 ∧ c.next = 0 ∧ c.fetched = [] ∧ c.done = false ∧ c.stop = none ∧
        c.tell = (if s2.wiredTo i r 1 then some i else none) ∧ c.instr = .xcopy r)) ∧
  (∀ (s : State) (c : Copy), s.copy? c.cid = some c → c.done = false → s.runs c = true →
    (∀ fetch last, Tab.find s.eng.copyTurn (c.elem / 4096 * 2 + if fetch then 1 else 0) = some (last, s.cycles) → ∀ ecc,
      exec .copyGranule { s with inp := some (.copyGranule c.cid fetch ecc) } = .next { s with inp := none }) ∧
    (∀ s1 p, c.rd < c.limit → c.rd < c.next + 16 → (Spec.quiet s).copyTurn c true = true →
      ({ s with inp := none }).copyPlace c c.sspace (c.src + 64 * c.rd) false = (.ok (.at_ p), s1) →
      p.kind ≠ .domain → (p.kind = .global → s1.rowFree p.addr = true ∧ Spec.Coherent s1.mem) →
      ∃ (u : State) (ms : List Bool), exec .copyGranule { s with inp := some (.copyGranule c.cid true false) } = .next u ∧
        u.copy? c.cid = some { c with rd := c.rd + 1,
                                      fetched := c.fetched ++ [(c.rd, some ((List.range 64).map fun j => Spec.byteOf s1 p.kind (p.addr + j), ms))] } ∧
        ∀ k a, Spec.byteOf u k a = Spec.byteOf s1 k a) ∧
    (∀ s1 p j bs ms rest, c.fetched = (j, some (bs, ms)) :: rest → bs.length = 64 → (Spec.quiet s).copyTurn c false = true →
      ({ s with inp := none }).copyPlace c c.dspace (c.dst + 64 * c.next) true = (.ok (.at_ p), s1) → p.kind ≠ .domain →
      (p.kind = .global → s1.rowFree p.addr = true ∧ Spec.Coherent s1.mem) →
      (Tab.wf 0 s1.mem.bank = true ∧ Tab.wf 0 s1.mem.scratch = true) →
      ∃ u : State, exec .copyGranule { s with inp := some (.copyGranule c.cid false false) } = .next u ∧
        u.copy? c.cid = some { c with fetched := rest, next := c.next + 1 } ∧
        ∀ k a, Spec.byteOf u k a = if k = p.kind ∧ p.addr ≤ a ∧ a < p.addr + 64 then bs.getD (a - p.addr) 0 else Spec.byteOf s1 k a)) ∧
  (∀ (s : State) (c : Copy) (lim : Nat), s.copy? c.cid = some c → c.done = false → s.runs c = true →
    lim = (match c.stop with
      | some (k, _) => min k (c.len / 64)
      | none => c.len / 64) →
    (c.next < lim ∨ s.copyOwes c ≠ 0 → exec .copyComplete { s with inp := some (.copyComplete c.cid) } = .next { s with inp := none }) ∧
    (lim ≤ c.next → s.copyOwes c = 0 → c.tell = none →
      (c.cw = 0 → ∃ u : State, exec .copyComplete { s with inp := some (.copyComplete c.cid) } = .next u ∧
        u.eng.copies = s.eng.copies.filter (fun x => x.cid != c.cid) ∧ u.mem = s.mem) ∧
      (c.cw ≠ 0 → c.cwHost = true → Tab.wf 0 s.mem.host = true →
        ∃ u : State, exec .copyComplete { s with inp := some (.copyComplete c.cid) } = .next u ∧
          u.eng.copies = s.eng.copies.filter (fun x => x.cid != c.cid) ∧
          readCells u.mem.host c.cw 8 =
            bytesOf 8 (if c.stop.isSome then c.cval ||| 0x8000000000000000 else c.cval).toNat) ∧
      (c.cw ≠ 0 → c.cwHost = false → (Spec.quiet s).mayWriteVa c.asid c.cw 8 = true →
        ∃ u : State, exec .copyComplete { s with inp := some (.copyComplete c.cid) } = .next u ∧ u.mem = ((Spec.quiet s).writeVa c.asid c.cw
          (bytesOf 8 (if c.stop.isSome then c.cval ||| 0x8000000000000000 else c.cval).toNat) false (some c.cid)).2.mem)) ∧
    (∀ t s1, c.next < lim → c.fetched = [] → c.stop = none →
      ({ s with inp := none }).copyPlace c c.sspace (c.src + 64 * c.next) false = (.error t, s1) →
      ∃ u : State, exec .copyFault { s with inp := some (.copyFault c.cid) } = .next u ∧
        u.copy? c.cid = some { c with stop := some (c.next, t.code) } ∧ u.mem = s1.mem ∧
        ∀ k, s1.task? c.tid = some k → k.xcErr.toNat.testBit 0 = false →
          (u.task? c.tid).map (·.xcErr) = some (BitVec.ofNat 64 (1 + 2 * t.code + 2 ^ 16 * (64 * c.next))))) ∧
  (∀ (r : NodeRec) (s s1 s2 : State) (i : Issue) (h : HeldOp) (pb pd pf : Nat), Spec.Runs s i r →
    Spec.Counted s i r true s1 → s1.performedBy i r.x = none → s1.isOldest i.f.aid = true → (∀ y ∈ s1.fab.held, y.id ≠ s1.fresh) →
    h = { id := s1.fresh, instr := .nmred r, iss := i, since := s1.cycles } →
    (Spec.kept s1 i (.nmred r)).mayTake h = true →
    Spec.WalksOpen (Spec.kept s1 i (.nmred r)) i [(valOf i.f.b % 2 ^ 64, 1)] false →
    Spec.WalksOpen (Spec.kept s1 i (.nmred r)) i ((nmDest (valOf i.f.a), 1) :: if nmFlag (valOf i.f.a) = 0 then [] else [(nmFlag (valOf i.f.a), 1)]) true →
    (∀ t, (Spec.kept s1 i (.nmred r)).nmCheck i (valOf i.f.a) (valOf i.f.b % 2 ^ 64) (r.l % 256) = (.error t, s2) →
      ∃ u : State, exec (.nmred r) s = .next (u.raise i { t with lsid := r.x }) ∧ u.eng = s2.eng) ∧
    ((Spec.kept s1 i (.nmred r)).nmCheck i (valOf i.f.a) (valOf i.f.b % 2 ^ 64) (r.l % 256) = (.ok (pb, pd, pf), s2) →
    (Tab.getD s2.eng.nmQueue ((pb - 0x2000000000) / 0xC00000000) []).length < 288 →
    ∃ (u : State) (c : NmCmd), exec (.nmred r) s = .next (if s2.wiredTo i r 2 then u else u.reply i r (.scalar 1)) ∧
      Tab.getD u.eng.nmQueue ((pb - 0x2000000000) / 0xC00000000) [] =
        Tab.getD s2.eng.nmQueue ((pb - 0x2000000000) / 0xC00000000) [] ++ [c] ∧
      c.packet = BitVec.ofNat 512 (valOf i.f.a) ∧ c.base = pb ∧ c.dest = pd ∧ c.flag = pf ∧ c.rowg = r.l % 256 ∧ c.got = [] ∧ u.mem = s2.mem)) ∧
  (∀ (s : State) (stack adder part : Nat) (ecc : Bool) (q : List NmCmd) (c : NmCmd), q = Tab.getD s.eng.nmQueue stack [] →
    (q.take 32)[adder]? = some c → c.readAll = false →
    exec .nearMemoryReduce { s with inp := some (.nearMemoryReduce stack adder part ecc) } =
      .next ((Spec.quiet s).setEng { s.eng with nmQueue := Tab.set s.eng.nmQueue stack (q.set adder
        (if (c.reads part).length < nmCount c.packet.toNat ∧ part < 4 * c.rowg then
          let a := c.base + 64 * c.rowg * nmIdx c.packet.toNat (c.reads part).length + 16 * part
          { c with got := Tab.set c.got part (c.reads part ++
            [((List.range 16).map fun j => Tab.getD s.mem.dram (a + j) 0, Tab.getD s.mem.dramPois (a / 16) false || ecc)]) }
         else c)) })) ∧
  (∀ (s : State) (stack : Nat) (c : NmCmd) (lanes : Nat), Tab.getD s.eng.nmQueue stack [] = [c] → c.tell = none →
    nmFlag c.packet.toNat = 0 → lanes = 64 * c.rowg / nmBytes (nmTf c.packet.toNat) → lanes % 4 = 0 → c.readAll = true → s.nmReady c = true →
    Spec.Coherent s.mem → ∀ part ecc,
    ∃ u : State, exec .nearMemoryReduce { s with inp := some (.nearMemoryReduce stack 0 part ecc) } = .next u ∧
      Tab.getD u.eng.nmQueue stack [] = [] ∧
      (∀ j < lanes, Sys2Proof.ofBytes ((List.range 4).map fun k => Spec.byteAt u.mem (c.dest + 4 * j + k)) = c.lane j % 2 ^ 32) ∧
      ∀ a, ¬ (c.dest ≤ a ∧ a < c.dest + 4 * lanes) → Spec.byteAt u.mem a = Spec.byteAt s.mem a)

/-- R160, R162, R163, R363 to R366: a row command that performs waits for the next row-clock edge; ROWACT opens its row, ROWPRE closes
it, ROWCON moves the open row's 2,048 bytes to the areas of the bed, 32 to each element, ROWPUT the areas' bytes to the row; a command
that its state table refuses raises the trap of that rule with its count and bank; the token leaves after its count; an open row is
closed by force after 1,200 cycles or when its bank's refresh begins. How commands of one count and a forced close stand to each other, and
what a command tests, is log entry 55. -/
def Obligations.RowCommandResults : Prop :=
  (∀ f ∈ Spec.rowForms, ∀ (r : NodeRec) (s : State) (i : Issue) (tid : Nat) (tk : Task) (w bed : Nat), Spec.Runs s i r →
    s.isOldest i.f.aid = true → s.issTask i = some (tid, tk) → (∀ y ∈ s.fab.held, y.id ≠ s.fresh) → w = valOf i.f.a % 2 ^ 64 →
    w / 2 ^ 18 % 16 < tk.wb → w / 2 ^ 22 % 16 < tk.hb → bed = bedOf (tk.elem (8 * (w / 2 ^ 18 % 16)) (8 * (w / 2 ^ 22 % 16))) →
    s.rowCheck { id := s.fresh, instr := f r, iss := i, since := s.cycles } bed = none →
    ∃ (u : State) (x : RowCmd), exec (f r) s = .next u ∧ u.mem = { s.mem with rowCmds := s.mem.rowCmds ++ [x] } ∧ x.instr = f r ∧
      x.iss = i ∧ x.bank = bed * 64 + w % 64 ∧ x.row = w / 64 % 4096 ∧ x.doneAt = none ∧
      s.units ≤ x.count * 18480 ∧ x.count * 18480 < s.units + 18480) ∧
  (∀ (r : NodeRec) (s s1 : State) (i : Issue) (tid : Nat) (tk : Task) (w bed : Nat), Spec.Runs s i r → Spec.Counted s i r true s1 →
    s1.performedBy i r.x = none → s1.isOldest i.f.aid = true → s1.issTask i = some (tid, tk) → (∀ y ∈ s1.fab.held, y.id ≠ s1.fresh) →
    w = valOf i.f.a % 2 ^ 64 → w / 2 ^ 18 % 16 < tk.wb → w / 2 ^ 22 % 16 < tk.hb →
    bed = bedOf (tk.elem (8 * (w / 2 ^ 18 % 16)) (8 * (w / 2 ^ 22 % 16))) →
    (∀ h, h = { id := s1.fresh, instr := .rowput r, iss := i, since := s1.cycles } → s1.rowCheck h bed = none ∧
      (Spec.kept s1 i (.rowput r)).mayTake h = true) →
    ∃ (u : State) (x : RowCmd), exec (.rowput r) s = .next u ∧ u.mem.rowCmds = s1.mem.rowCmds ++ [x] ∧ x.instr = .rowput r ∧
      x.iss = i ∧ x.bank = bed * 64 + w % 64 ∧ x.row = w / 64 % 4096 ∧ x.doneAt = none) ∧
  (∀ (s : State) (x : RowCmd) (b : Bank), Spec.RowGoes s x → b = Tab.getD s.mem.banks x.bank .reset →
    (∀ r, x.instr = .rowact r → ∃ u : State, exec .rowCommandEffect { s with inp := some (.rowCommandEffect x.id) } = .next u ∧
      (∃ q, Tab.find u.mem.banks x.bank = some { open_ := true, row := x.row, a := x.count, p := q }) ∧
      (∃ y ∈ u.mem.rowCmds, y = { x with doneAt := some (x.count + 5) }) ∧ u.mem.bank = s.mem.bank ∧ u.mem.dram = s.mem.dram) ∧
    (∀ r, x.instr = .rowpre r → b.open_ = true →
      ∃ u : State, exec .rowCommandEffect { s with inp := some (.rowCommandEffect x.id) } = .next u ∧
      Tab.find u.mem.banks x.bank = some { b with open_ := false, p := x.count } ∧
      (∃ y ∈ u.mem.rowCmds, y = { x with doneAt := some (x.count + 5) }) ∧ u.mem.bank = s.mem.bank ∧ u.mem.dram = s.mem.dram) ∧
    (∀ r, x.instr = .rowcon r → r.l.testBit 16 = false → Tab.wf 0 s.mem.bank = true →
      ∃ u : State, exec .rowCommandEffect { s with inp := some (.rowCommandEffect x.id) } = .next u ∧
        (∀ i < 64, ∀ j < 32, r.l % 65536 + 32 ≤ 65536 →
          Tab.getD u.mem.bank (bankKey (Spec.bedElem (x.bank / 64) i) x.iss.ctx (r.l % 65536) + j) 0 =
            Tab.getD s.mem.dram (s.mem.rowPa x.bank b.row (32 * i) + j) 0) ∧ u.mem.dram = s.mem.dram ∧
        ∃ y ∈ u.mem.rowCmds, y = { x with doneAt := some (x.count + 1) }) ∧
    (∀ r, x.instr = .rowput r → Tab.wf 0 s.mem.dram = true → 0 < s.mem.nlive → x.bank < 16384 → bankBit s.mem.liveMap x.bank = false →
      ∃ u : State, exec .rowCommandEffect { s with inp := some (.rowCommandEffect x.id) } = .next u ∧
        (∀ i < 64, ∀ j < 32, Tab.getD u.mem.dram (s.mem.rowPa x.bank b.row (32 * i) + j) 0 =
          Tab.getD s.mem.bank (bankKey (Spec.bedElem (x.bank / 64) i) x.iss.ctx (r.l % 65536) + j) 0) ∧ u.mem.bank = s.mem.bank ∧
        ∃ y ∈ u.mem.rowCmds, y = { x with doneAt := some (x.count + 1) })) ∧
  (∀ (s : State) (x : RowCmd) (t : Nat), s.mem.rowCmds.find? (fun y => y.id == x.id) = some x → x.doneAt = none →
    x.count * 18480 < s.units → (∀ y ∈ s.mem.rowCmds, y.bank / 64 = x.bank / 64 → y.doneAt = none → y.before x = false) →
    s.mem.settleBank x.bank x.count = s.mem → s.mem.rowTrap x x.count = some t → t ≠ trapRowRemap →
    ∃ u : State, exec .rowCommandEffect { s with inp := some (.rowCommandEffect x.id) } =
      .next (u.raise x.iss { code := t, info := BitVec.ofNat 64 x.count, addr := BitVec.ofNat 64 x.bank,
                             lsid := (Instr.record x.instr).x }) ∧
      u.mem.banks = s.mem.banks ∧ u.mem.rowCmds = s.mem.rowCmds.filter fun y => y.id != x.id) ∧
  (∀ (m : Memory) (x : RowCmd) (c : Nat) (b : Bank), Tab.find m.banks x.bank = some b → bankBit m.bankMap x.bank = false →
    m.busOut.getLsbD (x.bank / 64) = false → m.remapBusy = false → Tab.find m.rowTaken (x.bank / 64) ≠ some c →
    (∀ r, (x.instr = .rowcon r ∨ x.instr = .rowput r) → m.rowTrap x c =
      if b.open_ = false then some trapRowClosed else if c < b.a + 5 then some trapRowEarly else none) ∧
    (∀ r, x.instr = .rowact r → (b.open_ = true ∨ c < b.p + 5) → m.rowTrap x c = some trapRowWindow)) ∧
  (∀ (s : State) (x : RowCmd) (d : Nat), s.mem.rowCmds.find? (fun y => y.id == x.id) = some x → x.doneAt = some d →
    (s.units / 18480 < d → exec .rowCommandComplete { s with inp := some (.rowCommandComplete x.id) } = .next { s with inp := none }) ∧
    (d ≤ s.units / 18480 → ∃ u : State, exec .rowCommandComplete { s with inp := some (.rowCommandComplete x.id) } =
      .next (u.reply x.iss (Instr.record x.instr) (.scalar 1)) ∧ u.mem.rowCmds = s.mem.rowCmds.filter (fun y => y.id != x.id))) ∧
  (∀ (s : State) (n at_ : Nat) (b : Bank), b = Tab.getD s.mem.banks n .reset → b.open_ = true →
    at_ = min (b.a + 1200) (b.a + (2304 - (b.a + 2304 - 36 * (n % 64)) % 2304)) → at_ ≤ s.units / 18480 →
    (∀ x ∈ s.mem.rowCmds, x.bank / 64 = n / 64 → x.doneAt = none → at_ ≤ x.count) →
    (at_ = b.a + 1200 → ∃ u : State, exec .rowOpenTimeout { s with inp := some (.rowOpenTimeout n) } = .next u ∧
      Tab.find u.mem.banks n = some { b with open_ := false, p := at_ }) ∧
    (at_ ≠ b.a + 1200 → ∃ u : State, exec .rowRefresh { s with inp := some (.rowRefresh n) } = .next u ∧
      Tab.find u.mem.banks n = some { b with open_ := false, p := at_ }))

/-! ### Queue writes, literal writes, user queues, slots and the rack's rings (R52 to R61, R92, R240, R367 to R369) -/

namespace Sys2Proof.Spec
open Sys2Proof.Machine

/-- A field of a queue's descriptor, as memory holds it (R52). -/
def descWord (s : State) (q off n : Nat) : Nat := Sys2Proof.ofBytes ((List.range n).map fun j => byteAt s.mem (s.descAddr q + off + j))
/-- The latest write index of a queue (R53, R54). -/
def latestWr (s : State) (q : Nat) : Nat :=
  match s.queueSlot q with
  | some k => (s.slot k).notify.toNat
  | none => descWord s q 20 4
/-- A firing of a held form may perform now: its activation is the oldest of its thread (R373). -/
def HoldsNow (s : State) (i : Issue) : Prop := s.isOldest i.f.aid = true ∧ ∀ y ∈ s.fab.held, y.id ≠ s.fresh
/-- A held form waits under a number and its activation may act now. -/
def Waits (s : State) (h : HeldOp) : Prop :=
  s.mem.acc.find? (fun x => x.id == h.id) = none ∧ s.fab.held.find? (fun x => x.id == h.id) = some h ∧
  s.mayAct h.iss.f.aid = true ∧ s.halted h.iss = false

end Sys2Proof.Spec

/-- R92, R367 to R369: a queue write fires 2 where the queue is disabled, not local, of another ASID or in error, 3 for a packet that
no ring of its size takes, and 1 (QPUT.NB) or waits with its packet (QPUT) while the ring is full; else it stores its entries behind the latest
write index, once nothing is in the way of those writes, and notifies; it waits while the queue's descriptor cannot be reached or a later write
of the cycle has come first. A literal write is under way once it performs, and reaches the target's LIT32 after the hops between them, when the
cycle ends, within the plane's log of 64 (log entry 54). -/
def Obligations.QueueAndLiteralWrites : Prop :=
  (∀ f nb, (f, nb) ∈ [(Instr.qput, false), (Instr.qputNb, true)] →
    ∀ (r : NodeRec) (s s1 s3 : State) (i : Issue) (ext : Nat) (es : List (List Byte × Bool)) (q d size wr : Nat),
    Spec.Runs s i r → Spec.Counted s i r true s1 → s1.performedBy i r.x = none → Spec.HoldsNow s1 i →
    (Spec.holding s1 i (f r)).mayTake (Spec.form s1 i (f r)) = true →
    ((s1.descReady (r.l % 1024) = false ∨ s1.turnOk 3 (r.l % 1024) 1 i.rank = false) →
      ∃ v : State, exec (f r) s = .next v ∧ Spec.form s1 i (f r) ∈ v.fab.held ∧ v.mem = s1.mem ∧ v.que = s1.que) ∧
    (s1.descReady (r.l % 1024) = true → s1.turnOk 3 (r.l % 1024) 1 i.rank = true →
    (Spec.holding s1 i (f r)).putPacket (Spec.form s1 i (f r)) (valOf i.f.a % 2 ^ 64) = (.ok (ext, es), s3) → Spec.Coherent s3.mem →
    q = r.l % 1024 → d = Spec.descWord s3 q 8 4 → size = 2 ^ (d % 32) → wr = Spec.latestWr s3 q →
    ∀ bad, bad = (!d.testBit 28 || !d.testBit 5 || d / 2 ^ 9 % 256 != s3.issAsid i || Spec.descWord s3 q 24 1 != 0) →
    ∀ full, full = decide (size < (wr + (ext + 1) + 2 ^ 32 - Spec.descWord s3 q 16 4) % 2 ^ 32) →
    ∃ u : State, Spec.SameBytes s3.mem u.mem ∧ u.que = s3.que ∧
      (bad = true → ∃ v : State, exec (f r) s = .next (v.reply i r (.scalar 2)) ∧ v.mem = u.mem ∧ v.que = u.que) ∧
      (bad = false → (2 < ext ∨ size < ext + 1) →
        ∃ v : State, exec (f r) s = .next (v.reply i r (.scalar 3)) ∧ v.mem = u.mem ∧ v.que = u.que) ∧
      (bad = false → ext ≤ 2 → ext + 1 ≤ size → full = true → nb = true →
        ∃ v : State, exec (f r) s = .next (v.reply i r (.scalar 1)) ∧ v.mem = u.mem ∧ v.que = u.que) ∧
      (bad = false → ext ≤ 2 → ext + 1 ≤ size → full = true → nb = false →
        ∃ v : State, exec (f r) s = .next v ∧ { Spec.form s1 i (f r) with packet := some (ext, es) } ∈ v.fab.held ∧ v.mem = u.mem ∧ v.que = u.que) ∧
      (bad = false → ext ≤ 2 → ext + 1 ≤ size → full = false →
        u.mayPut (i.elem / 4096) (s3.issAsid i) (Spec.descWord s3 q 0 8) size wr (ext + 1) = false →
        ∃ v : State, exec (f r) s = .next v ∧ Spec.form s1 i (f r) ∈ v.fab.held ∧ v.mem = u.mem ∧ v.que = u.que) ∧
      (bad = false → ext ≤ 2 → ext + 1 ≤ size → full = false →
        u.mayPut (i.elem / 4096) (s3.issAsid i) (Spec.descWord s3 q 0 8) size wr (ext + 1) = true →
        ∀ v : State, u.putEntries (i.elem / 4096) (s3.issAsid i) (Spec.descWord s3 q 0 8) size wr es = (none, v) →
          ∃ w : State, exec (f r) s = .next (w.reply i r (.scalar 0)) ∧ w.mem = (v.notify q (wr + ext + 1)).mem ∧
            w.que = (v.notify q (wr + ext + 1)).que))) ∧
  (∀ (r : NodeRec) (s : State) (i : Issue) (tid : Nat) (t : Task), Spec.Runs s i r → Spec.HoldsNow s i → s.issTask i = some (tid, t) →
    ∃ u : State, exec (.argw r) s = .next u ∧ { Spec.form s i (.argw r) with done := some s.cycles } ∈ u.fab.held ∧ u.fab.store = s.fab.store ∧
      u.tsk = s.tsk ∧ u.mem = s.mem) ∧
  (∀ (r : NodeRec) (s : State) (h : HeldOp), Spec.Waits s h → h.instr = .argw r → h.done = none →
    ∃ u : State, exec .storePerform { s with inp := some (.storePerform h.id 1) } = .next u ∧ { h with done := some s.cycles } ∈ u.fab.held ∧
      u.fab.store = s.fab.store ∧ u.tsk = s.tsk ∧ u.mem = s.mem) ∧
  (∀ (r : NodeRec) (s : State) (h : HeldOp) (tid e n at_ d : Nat) (t : Task) (x : Resident) (opc : Nat) (r' : NodeRec), h.instr = .argw r →
    h.done = some d → s.issTask h.iss = some (tid, t) → e = t.elem (r.l % 2 ^ 7) (r.l / 2 ^ 7 % 2 ^ 7) → n = r.l / 2 ^ 14 % 2 ^ 6 →
    (s.cycles < d + 2 + hops h.iss.elem e → s.argwArrives h = s) ∧
    (d + 2 + hops h.iss.elem e ≤ s.cycles → t.plane? h.iss.ctx = some x → s.recAt e h.iss.ctx n = some (opc, r') → Tab.wf 0 s.fab.store = true →
      at_ = e * 4096 + h.iss.ctx * 1024 + 12 * n + 8 →
      (64 ≤ x.log.length → (∀ y ∈ x.log, y.1 ≠ r.l % 2 ^ 20) →
        ∃ u : State, s.argwArrives h = u.reply h.iss r (.scalar 1) ∧ u.fab.store = s.fab.store ∧ u.mem = s.mem ∧ u.tsk = s.tsk) ∧
      ((x.log.length < 64 ∨ ∃ y ∈ x.log, y.1 = r.l % 2 ^ 20) →
        ∃ u : State, s.argwArrives h = u.reply h.iss r (.scalar 0) ∧
          (∀ a, Tab.getD u.fab.store a 0 = if at_ ≤ a ∧ a < at_ + 4 then
              (bytesOf 4 (litMask opc r' (valOf h.iss.f.a % 2 ^ 32))).getD (a - at_) 0
            else Tab.getD s.fab.store a 0) ∧ u.mem = s.mem ∧
          ∃ t' x', u.task? tid = some t' ∧ t'.plane? h.iss.ctx = some x' ∧
            ((r.l % 2 ^ 20, BitVec.ofNat 32 (valOf h.iss.f.a)) ∈ x'.log))))

/-- R53 to R61: a notify becomes the slot's NOTIFY, or SHADOW with PEND set, and more entries than the ring holds are error 7; mapping
and unmapping move a queue's indices between its descriptor and its slot; a slot checks its head entry and offers the launch; the
rack's window keeps entries of 128 bytes that are not written yet and answers each write, with an error where the peer is turned away;
a rack ring's complete head launch is offered or rejected. A write that the queue table has to wait for comes with the next cycle, a slot that is
unmapped while it fetches is free once its packet has come, and a slot takes its head entry's place only where the descriptor is open (log entry
74); what answers after a failed boot is log entry 72, which Ethernet port carries a launch 9, and a peer turned away 80. -/
def Obligations.QueueEvents : Prop :=
  (∀ (s : State) (q : Nat) (wr : W32), q < 1024 → s.boot.state ≠ 3 → Spec.Coherent s.mem → s.que.slots.Pairwise (fun x y => x.1 < y.1) →
    (s.descReady q = false → exec .notifyWrite { s with inp := some (.notifyWrite q wr) } =
      .next { s with inp := none, que := { s.que with late := s.que.late ++ [.notifyWrite q wr] } }) ∧
    (s.descReady q = true → ∃ u : State, exec .notifyWrite { s with inp := some (.notifyWrite q wr) } = .next u ∧
      (∀ k, s.queueSlot q = some k → (u.slot k).notify = wr ∧ (u.slot k).rd = (s.slot k).rd ∧ u.que.pend = s.que.pend) ∧
      (s.queueSlot q = none → Spec.descWord u q 20 4 = wr.toNat ∧ u.que.slots = s.que.slots ∧
        ∀ j < 1024, u.que.pend.getLsbD j = (s.que.pend.getLsbD j || decide (j = q))) ∧
      (2 ^ (Spec.descWord s q 8 4 % 32) < (wr.toNat + 2 ^ 32 - Spec.descWord s q 16 4) % 2 ^ 32 → Spec.descWord u q 24 1 = 7 ∧
        ∀ k, s.queueSlot q = some k → (u.slot k).err = true ∧ (u.slot k).code = 7) ∧
      ((wr.toNat + 2 ^ 32 - Spec.descWord s q 16 4) % 2 ^ 32 ≤ 2 ^ (Spec.descWord s q 8 4 % 32) →
        ∀ a, (s.queueSlot q).isSome = true ∨ a < s.descAddr q + 20 ∨ s.descAddr q + 24 ≤ a → Spec.byteAt u.mem a = Spec.byteAt s.mem a))) ∧
  (∀ (s : State) (q k : Nat), q < 1024 → k < 64 → (s.slot k).valid = false → Spec.Coherent s.mem → Spec.descWord s q 25 1 = 0xFF →
    (s.descReady q = false → exec .queueMap { s with inp := some (.queueMap q k) } =
      .next { s with inp := none, que := { s.que with late := s.que.late ++ [.queueMap q k] } }) ∧
    (s.descReady q = true → ∃ u : State, exec .queueMap { s with inp := some (.queueMap q k) } = .next u ∧
      u.slot k = { qid := BitVec.ofNat 10 q, valid := true, prioMax := BitVec.ofNat 3 (Spec.descWord s q 8 4 / 2 ^ 6 % 8),
                   err := Spec.descWord s q 24 1 != 0, code := BitVec.ofNat 8 (Spec.descWord s q 24 1),
                   notify := BitVec.ofNat 32 (Spec.descWord s q 20 4), rd := BitVec.ofNat 32 (Spec.descWord s q 16 4), offer := none } ∧
      Spec.descWord u q 25 1 = k ∧ (∀ j < 1024, u.que.pend.getLsbD j = (s.que.pend.getLsbD j && decide (j ≠ q))) ∧
      ∀ j, j ≠ k → u.slot j = s.slot j)) ∧
  (∀ (s : State) (k q : Nat), (s.slot k).valid = true → q = (s.slot k).qid.toNat → Spec.Coherent s.mem →
    (s.descReady q = false → exec .queueUnmap { s with inp := some (.queueUnmap k) } =
      .next { s with inp := none, que := { s.que with late := s.que.late ++ [.queueUnmap k] } }) ∧
    (s.descReady q = true → s.slotFetching k = true → exec .queueUnmap { s with inp := some (.queueUnmap k) } =
      .next ((Spec.quiet s).setSlot k { s.slot k with leaving := true })) ∧
    (s.descReady q = true → (s.slot k).leaving = true → (s.slot k).offer ≠ none → ∃ u : State,
      exec .slotFetch { s with inp := some (.slotFetch k false) } = .next u ∧ u.slot k = .reset) ∧
    (s.descReady q = true → s.slotFetching k = false → ∃ u : State, exec .queueUnmap { s with inp := some (.queueUnmap k) } = .next u ∧ u.slot k = .reset ∧
      Spec.descWord u q 20 4 = (s.slot k).notify.toNat ∧ Spec.descWord u q 16 4 = (s.slot k).rd.toNat ∧
      Spec.descWord u q 25 1 = 0xFF ∧ (s.busy.contains (busyNotify k) = false → u.que.pend = s.que.pend) ∧
      (s.busy.contains (busyNotify k) = true → u.que.pend.getLsbD q = true) ∧ ∀ j, j ≠ k → u.slot j = s.slot j)) ∧
  (∀ (s s1 s2 : State) (k q w ring : Nat) (x : Slot), x = s.slot k → q = x.qid.toNat → x.valid = true → x.err = false →
    x.leaving = false → s.descReady q = true → x.offer = none → x.notify ≠ x.rd → ({ s with inp := none }).desc q 8 4 = (w, s1) → w.testBit 28 = true →
    s1.desc q 0 8 = (ring, s2) →
    (exec .slotFetch { s with inp := some (.slotFetch k true) } = .next (s2.queueErr q 8)) ∧
    (∀ y s3, s2.ringEntry k w ring x.rd.toNat = (y, s3) →
      (y = .waits → exec .slotFetch { s with inp := some (.slotFetch k false) } = .next s3) ∧
      ((∃ t, y = .fault t) ∨ (∃ bs src, y = .ok bs (some src)) →
        exec .slotFetch { s with inp := some (.slotFetch k false) } = .next ((s3.dropFetches (.slot k)).queueErr q 8))) ∧
    ∀ bs s3 l, s2.ringEntry k w ring x.rd.toNat = (.ok bs none, s3) → l = { bytes := bs, src := .slot k q, prio := 0 } →
      (l.kind ≠ 2 → ¬ (l.kind = 1 ∧ l.argc ≤ 64 ∧ l.ext = (if l.argc ≤ 8 then 0 else if l.argc ≤ 40 then 1 else 2) ∧
          (x.notify - x.rd).toNat < 1 + l.ext) →
        (∀ c, s3.checkLaunch l (some (w / 2 ^ 9 % 256)) = some c →
          exec .slotFetch { s with inp := some (.slotFetch k false) } = .next ((s3.dropFetches (.slot k)).queueErr q c)) ∧
        (s3.checkLaunch l (some (w / 2 ^ 9 % 256)) = none → ∀ s4, s3.ringEntries k w ring (x.rd + 1).toNat l.ext = (.waits, s4) →
          exec .slotFetch { s with inp := some (.slotFetch k false) } = .next s4) ∧
        (s3.checkLaunch l (some (w / 2 ^ 9 % 256)) = none → ∀ more s4,
          s3.ringEntries k w ring (x.rd + 1).toNat l.ext = (.ok more none, s4) →
          ∃ u : State, exec .slotFetch { s with inp := some (.slotFetch k false) } = .next u ∧ u.mem = s4.mem ∧
            u.slot k = { x with offer := some { bytes := bs ++ more, src := .slot k q, prio := min l.prioField x.prioMax.toNat } })) ∧
      (l.kind = 1 → l.argc ≤ 64 → l.ext = (if l.argc ≤ 8 then 0 else if l.argc ≤ 40 then 1 else 2) →
        (x.notify - x.rd).toNat < 1 + l.ext → exec .slotFetch { s with inp := some (.slotFetch k false) } = .next s3) ∧
      (l.kind = 2 → l.compl = 0 → s3.mayAdvance q = false → exec .slotFetch { s with inp := some (.slotFetch k false) } = .next s3) ∧
      (l.kind = 2 → l.compl = 0 → s3.mayAdvance q = true → ∃ u : State, exec .slotFetch { s with inp := some (.slotFetch k false) } = .next u ∧
        u.slot k = { x with rd := x.rd + 1 } ∧
        (Spec.Coherent s3.mem → Spec.descWord u q 16 4 = (x.rd + 1).toNat))) ∧
  (∀ (s : State) (peer off : Nat) (data : List Byte), s.boot.state ≠ 3 → s.lnk.turnsAway peer = true →
    exec .rackRingWrite { s with inp := some (.rackRingWrite peer off data) } =
      .next { s with inp := none, out := s.out ++ [.ualinkError peer] }) ∧
  (∀ (s : State) (peer off : Nat) (data : List Byte), s.boot.state ≠ 3 → s.lnk.turnsAway peer = false →
    data.length = 128 → off % 128 = 0 → off + 128 ≤ 0x8000 → Tab.wf 0 s.que.rackRing = true →
    (s.que.rackWritten.getLsbD (off / 128) = false →
      ∃ u : State, exec .rackRingWrite { s with inp := some (.rackRingWrite peer off data) } = .next u ∧
        (∀ j < 256, u.que.rackWritten.getLsbD j = (s.que.rackWritten.getLsbD j || decide (j = off / 128))) ∧
        (∀ a, Tab.getD u.que.rackRing a 0 = if off ≤ a ∧ a < off + 128 then data.getD (a - off) 0 else Tab.getD s.que.rackRing a 0) ∧
        u.out = s.out ++ [.ualinkReply peer [] []]) ∧
    (s.que.rackWritten.getLsbD (off / 128) = true →
      ∃ u : State, exec .rackRingWrite { s with inp := some (.rackRingWrite peer off data) } = .next u ∧
        u.que.rackRing = s.que.rackRing ∧ u.que.rackWritten = s.que.rackWritten ∧
        u.que.rackDrops.toNat = min 0xFFFF (s.que.rackDrops.toNat + 1))) ∧
  (∀ (s : State) (msg : List Byte), s.boot.state = 3 ∨ s.lnk.ethFor 0 = none →
    exec .rackEthernetLaunch { s with inp := some (.rackEthernetLaunch msg) } = .next { s with inp := none }) ∧
  (∀ (s : State) (msg : List Byte), s.boot.state ≠ 3 → s.lnk.ethFor 0 ≠ none → msg.length = 128 * (1 + bytesAt msg 10 1) →
    exec .rackEthernetLaunch { s with inp := some (.rackEthernetLaunch msg) } =
      .next { s with inp := none, que := { s.que with ethSeq := s.que.ethSeq + 1, ethRing := s.que.ethRing ++ [(s.que.ethSeq, msg)] } }) ∧
  (∀ (s : State) (eth : Bool) (l : Launch), (if eth then s.que.ethOffer else s.que.rackOffer) = none → s.rackHead eth = some l →
    l.kind ≠ 2 →
    (∀ c, s.checkLaunch l none = some c → exec .rackLaunchConsume { s with inp := some (.rackLaunchConsume eth) } =
      .next ((({ s with inp := none }).rackDrop eth l).report l 5 c none)) ∧
    (s.checkLaunch l none = none → exec .rackLaunchConsume { s with inp := some (.rackLaunchConsume eth) } =
      .next { s with inp := none, que := if eth then { s.que with ethOffer := some l } else { s.que with rackOffer := some l } }))

/-! ### The systolic array (R122 to R138, R374 to R377) -/

namespace Sys2Proof.Spec
open Sys2Proof.Machine

/-- The matrix forms and where each may fire (R374). -/
def cornerForms : List (NodeRec → Instr) := [.mwload, .mmac, .mchk, .mrel]
def southForms : List (NodeRec → Instr) := [.mdrain, .macc]
/-- A firing of a matrix form at its place in an array, which may perform now; `k` names the array. -/
def OnArr (s : State) (i : Issue) (r : NodeRec) (south : Bool) (a : Arr) (k : Nat) : Prop :=
  Runs s i r ∧ HoldsNow s i ∧ k = s.issTid i * 4 + i.ctx ∧ s.arr? (s.issTid i) i.ctx = some a ∧
  (if south then ∃ x ∈ a.elems, x.1 = i.elem ∧ x.2.1 + 1 = a.ar else a.at_ 0 0 = some i.elem)
/-- No MMAC or MREL of the firing's activation waits that comes before it: of a lower node, or an earlier firing of its own (R394). -/
def FirstOfMatrix (s : State) (i : Issue) : Prop :=
  ∀ y ∈ s.fab.held, ∀ r, (y.instr = .mmac r ∨ y.instr = .mrel r) → y.iss.f.aid = i.f.aid → i.f.node < y.iss.f.node
/-- The bus of one kind, its row bus or its column bus, may deliver a weight token to element `e` at (i, j) of array `k`: it has delivered
none in this cycle, its input latch is empty, and no token of the set waits in the latch of the other bus (R95, R125). -/
def BusFree (s : State) (k e i j : Nat) (set col : Bool) : Prop :=
  s.isBusy (busyBus k col (if col then j else i)) = false ∧ Tab.find s.fab.latches (e * 8 + 5 + if col then 1 else 0) = none ∧
  ∀ v, Tab.find s.fab.latches (e * 8 + 5 + if col then 0 else 1) = some v → ¬(v.tok.ctx = k % 4 ∧ v.tok.node = 64 + if set then 1 else 0)
/-- The exact sum of the products of a row for one output (R129). -/
def intSum (a : Arr) (x : ArraySt) (set : Bool) (row : ARow) (j n : Nat) : Int :=
  ((List.range a.k).map fun k => arrInt a.fmt (row.code a.fmt k) * a.wInt x set j k n).sum
/-- A token waits alone on side `d` of an element that may accept it now; sides 5 and 6 are its bus latches. -/
def Arrives (s : State) (e d : Nat) (t : Token) (l : Latched) : Prop :=
  d < 7 ∧ l.tok = t ∧ l.since < s.cycles ∧ s.busy.contains (busyAccept e) = false ∧ s.replaying e = false ∧
  Tab.find s.fab.latches (e * 8 + d) = some l ∧ (∀ d' < 7, d' ≠ d → Tab.find s.fab.latches (e * 8 + d') = none) ∧
  s.fab.chan.all (fun y => y.1 != e) = true ∧ s.fab.latches.Pairwise (fun x y => x.1 < y.1)
/-- A whole token of weights. -/
def tokenLoads (f : ArrFmt) (w : WeightSet) (toks : List (List Byte)) : WeightSet :=
  (List.range toks.length).foldl (fun w k => w.token f k (toks.getD k []) false) w

end Sys2Proof.Spec

/-- R124 to R138, R374 to R377: a matrix form outside its place raises MX_STATE. MWLOAD and MMAC queue their load and assignment, which
fire 1 at their end (MMAC and MREL of one activation in node order, R394); a weight token goes by the row or the column bus of its
element into that bus's latch and from there, while the context's list has a place, into the set, which is loaded when its last part has
arrived. A row taken adds its sums to one accumulator row and takes the elements' issue slots; a poisoned set poisons
the row in every column. MDRAIN
closes the intake and drains the rows taken; each column sends its next row over [L + r, L + r + 1). MACC replaces a row's values, MREL
clears them, MCHK reads the status word or turns protection on before the first row. What is read into these rules beyond their words
is log entry 57. -/
def Obligations.MatrixResults : Prop :=
  (∀ (r : NodeRec) (s : State) (i : Issue), Spec.Runs s i r →
    (∀ f ∈ Spec.cornerForms, (∀ a, s.arr? (s.issTid i) i.ctx = some a → a.at_ 0 0 ≠ some i.elem) →
      exec (f r) s = .next ((Spec.taken s).raise i { code := trapMxState })) ∧
    (∀ f ∈ Spec.southForms, (∀ a, s.arr? (s.issTid i) i.ctx = some a → ∀ x ∈ a.elems, x.1 = i.elem → x.2.1 + 1 ≠ a.ar) →
      exec (f r) s = .next ((Spec.taken s).raise i { code := trapMxState }))) ∧
  (∀ (r : NodeRec) (s : State) (i : Issue) (a : Arr) (k : Nat) (x : ArraySt), Spec.OnArr s i r false a k → x = s.arrSt k →
    (∃ u : State, exec (.mwload r) s = .next u ∧ u.fab.held = s.fab.held ∧ u.mem = s.mem ∧ u.tsk = s.tsk ∧
      u.arrSt k = { x with loads := x.loads ++ [{ port := r.l % 256, set := r.l.testBit 8, bcast := r.l.testBit 9, pos := 0, tell := i,
                                                  instr := .mwload r }] }) ∧
    (Spec.FirstOfMatrix s i → valOf i.f.a % 2 ^ 16 = 0 →
      ∃ u : State, exec (.mmac r) s = .next (u.reply i r (.scalar 1)) ∧ u.eng = s.eng ∧ u.mem = s.mem) ∧
    (Spec.FirstOfMatrix s i → valOf i.f.a % 2 ^ 16 ≠ 0 → x.assigns.length < 16 →
      ∃ u : State, exec (.mmac r) s = .next u ∧ u.fab.held = s.fab.held ∧ u.mem = s.mem ∧ u.tsk = s.tsk ∧
        u.arrSt k = { x with assigns := x.assigns ++ [{ rows := valOf i.f.a % 2 ^ 16, set := (valOf i.f.a).testBit 16, port := r.l % 256,
                                                        tell := i, instr := .mmac r }] }) ∧
    (valOf i.f.a % 2 ^ 16 ≠ 0 → 16 ≤ x.assigns.length →
      ∃ u : State, exec (.mmac r) s = .next u ∧ Spec.form s i (.mmac r) ∈ u.fab.held ∧ u.eng = s.eng ∧ u.mem = s.mem) ∧
    ((∃ y ∈ s.fab.held, ∃ r', (y.instr = .mmac r' ∨ y.instr = .mrel r') ∧ y.iss.f.aid = i.f.aid ∧ y.iss.f.node < i.f.node) →
      (∃ u : State, exec (.mmac r) s = .next u ∧ Spec.form s i (.mmac r) ∈ u.fab.held ∧ u.eng = s.eng ∧ u.mem = s.mem) ∧
      ∃ u : State, exec (.mrel r) s = .next u ∧ Spec.form s i (.mrel r) ∈ u.fab.held ∧ u.eng = s.eng ∧ u.mem = s.mem) ∧
    (Spec.FirstOfMatrix s i → x.drain = none → ∃ u : State, exec (.mrel r) s = .next (u.reply i r (.scalar 1)) ∧ u.mem = s.mem ∧ u.tsk = s.tsk ∧
      u.arrSt k = { x with acc := [], taken := 0, closed := false, checkOn := false, checked := 0, unchecked := 0, failed := 0,
                           firstCol := 0 }) ∧
    (r.aux.toNat.testBit 0 = true → exec (.mchk r) s = .next ((Spec.taken s).reply i r (.scalar
      (x.checked.toNat + 2 ^ 16 * x.unchecked.toNat + 2 ^ 32 * x.failed.toNat + 2 ^ 48 * x.firstCol.toNat +
        if x.checkOn then 2 ^ 54 else 0)))) ∧
    (r.aux.toNat.testBit 0 = false → x.taken ≠ 0 → ∃ u : State, exec (.mchk r) s = .next (u.raise i { code := trapMxState }) ∧
      u.eng = s.eng ∧ u.mem = s.mem) ∧
    (r.aux.toNat.testBit 0 = false → x.taken = 0 → ∃ u : State, exec (.mchk r) s = .next (u.reply i r (.scalar 1)) ∧
      u.arrSt k = { x with checkOn := true } ∧ u.mem = s.mem)) ∧
  (∀ (r : NodeRec) (s : State) (i : Issue) (a : Arr) (k : Nat) (x : ArraySt), Spec.OnArr s i r true a k → x = s.arrSt k →
    (x.drain = none → ∃ u : State, exec (.mdrain r) s = .next u ∧ u.fab.held = s.fab.held ∧ u.mem = s.mem ∧ u.tsk = s.tsk ∧
      u.arrSt k = { x with closed := true,
                           drain := some { lo := i.f.lo, rows := min a.fmt.macc x.taken * (if a.fmt.isFp4 then 2 else 1),
                                           keep := r.aux.toNat.testBit 0, aid := i.f.aid, next := List.replicate a.ac 0 } }) ∧
    (∀ z, z = x.row a.fmt (r.l % 16) (s.arrCol i.elem i.ctx) →
      ∃ (u : State) (y : AccRow), exec (.macc r) s = .next (u.reply i r (.scalar 1)) ∧ u.mem = s.mem ∧
        Tab.find (u.arrSt k).acc (r.l % 16 * 64 + s.arrCol i.elem i.ctx) = some y ∧
        (∀ n < z.vals.length, y.vals.getD n 0 = if n / 16 = (if r.l.testBit 4 then 1 else 0) then lane 32 (valOf i.f.a) (n % 16)
          else z.vals.getD n 0) ∧
        y.c = z.c ∧ y.s = z.s ∧ (u.arrSt k).taken = x.taken ∧
        ∀ key, key ≠ r.l % 16 * 64 + s.arrCol i.elem i.ctx → Tab.find (u.arrSt k).acc key = Tab.find x.acc key)) ∧
  (∀ (f : ArrFmt) (w : WeightSet) (toks : List (List Byte)), w.arrived = 0 → w.bytes.length = 1024 → toks.length = f.tokens →
    (∀ t ∈ toks, t.length = 64) →
    (Spec.tokenLoads f w toks).loaded = true ∧ (Spec.tokenLoads f w toks).pois = false ∧ (Spec.tokenLoads f w toks).arrived = 0 ∧
    (Spec.tokenLoads f w toks).bytes.take (64 * f.codeTokens) = (toks.take f.codeTokens).flatten ∧
    (∀ n, n < toks.length → 0 < n → (Spec.tokenLoads f w (toks.take n)).loaded = false)) ∧
  (∀ (s : State) (k e : Nat) (a : Arr) (x : ArraySt) (l : WLoad) (bs : List Byte) (pois : Bool) (n i j : Nat)
    (rest : List (List Byte × Bool × Nat)), s.arr? (k / 4) (k % 4) = some a → x = s.arrSt k → x.loads = [l] → l.bcast = false →
    s.fifo (fifoKey (k / 4) (k % 4) l.port) = (bs, pois, n) :: rest → l.pos < a.fmt.tokens * (a.ar * a.ac) →
    i = l.pos / a.fmt.tokens / a.ac → j = l.pos / a.fmt.tokens % a.ac →
    (a.elems.filter fun y => decide (y.2 = (i, j))) = [(e, i, j)] → bs.length = 64 →
    (¬Spec.BusFree s k e i j l.set false → ¬Spec.BusFree s k e i j l.set true →
      ∃ u : State, exec .weightTokenLoad { s with inp := some (.weightTokenLoad k) } = .next u ∧ u.fab = s.fab ∧ u.eng = s.eng ∧
        u.mem = s.mem) ∧
    (Spec.BusFree s k e i j l.set false ∨ Spec.BusFree s k e i j l.set true → ∃ (u : State) (t : Token) (col : Bool),
      Spec.BusFree s k e i j l.set col ∧ exec .weightTokenLoad { s with inp := some (.weightTokenLoad k) } = .next u ∧
      u.fifo (fifoKey (k / 4) (k % 4) l.port) = rest ∧ u.mem = s.mem ∧ u.arrSt k = { x with loads := [{ l with pos := l.pos + 1 }] } ∧
      Tab.find u.fab.latches (e * 8 + 5 + if col then 1 else 0) = some { tok := t, since := s.cycles } ∧ t.ctx = k % 4 ∧
      t.node = 64 + (if l.set then 1 else 0) ∧ t.lo = l.pos % a.fmt.tokens ∧ t.pay.pois = pois ∧ bytesOf 64 t.pay.val.toNat = bs ∧
      u.isBusy (busyBus k col (if col then j else i)) = true)) ∧
  (∀ (s : State) (e d : Nat) (t : Token) (y : Latched), 5 ≤ d → Spec.Arrives s e d t y → 32 ≤ s.pendingIn e t.ctx →
    exec .tokenAccept { s with inp := some (.tokenAccept e) } = .next (Spec.quiet s)) ∧
  (∀ (s : State) (k e d i j : Nat) (t : Token) (y : Latched) (a : Arr) (x : ArraySt) (w : WeightSet), 5 ≤ d → Spec.Arrives s e d t y →
    s.pendingIn e t.ctx < 32 →
    (s.ctx e t.ctx).owner = some (k / 4) → t.ctx = k % 4 → s.arr? (k / 4) (k % 4) = some a → x = s.arrSt k →
    a.elems.find? (fun z => z.1 == e) = some (e, i, j) →
    w = (x.set i j (t.node == 65)).token a.fmt t.lo (bytesOf 64 t.pay.val.toNat) t.pay.pois →
    ∃ u : State, u.mem = s.mem ∧ Tab.find u.fab.latches (e * 8 + d) = none ∧
      Tab.find (u.arrSt k).sets ((i * 64 + j) * 2 + if t.node = 65 then 1 else 0) = some w ∧
      (∀ key, key ≠ (i * 64 + j) * 2 + (if t.node = 65 then 1 else 0) → Tab.find (u.arrSt k).sets key = Tab.find x.sets key) ∧
      (u.arrSt k).acc = x.acc ∧ (u.arrSt k).assigns = x.assigns ∧
      ((∀ l ∈ x.loads, l.pos < a.loadTokens l) → exec .tokenAccept { s with inp := some (.tokenAccept e) } = .next (u.use (busyAccept e)) ∧
        (u.arrSt k).loads = x.loads) ∧
      (∀ l, x.loads = [l] → a.loadTokens l ≤ l.pos →
        (∀ z ∈ a.elems, ∀ v, ∀ d' ∈ [5, 6], z.1 ≠ e → Tab.find s.fab.latches (z.1 * 8 + d') = some v → v.tok.ctx ≠ k % 4) →
        exec .tokenAccept { s with inp := some (.tokenAccept e) } =
          .next ((u.reply l.tell (Instr.record l.instr) (.scalar 1)).use (busyAccept e)) ∧ (u.arrSt k).loads = [])) ∧
  (∀ (s : State) (k : Nat) (a : Arr) (x : ArraySt) (l : Assign) (more : List Assign) (q : List (List Byte × Bool × Nat)),
    s.arr? (k / 4) (k % 4) = some a → x = s.arrSt k → x.drain = none → x.assigns = l :: more → x.closed = false →
    s.arrFrozen (k / 4) (k % 4) l = false → (∀ e ∈ a.elems, (x.set e.2.1 e.2.2 l.set).loaded = true) →
    q = s.fifo (fifoKey (k / 4) (k % 4) l.port) → (a.k * a.fmt.bits / 8 + 63) / 64 ≤ q.length → a.ac ≤ 64 →
    s.isBusy (busyRow k) = false →
    ∃ u : State, (exec .arrayRowTake { s with inp := some (.arrayRowTake k) } =
        .next (if l.rows = 1 then u.reply l.tell (Instr.record l.instr) (.scalar 1) else u)) ∧ u.mem = s.mem ∧
      u.fifo (fifoKey (k / 4) (k % 4) l.port) = q.drop ((a.k * a.fmt.bits / 8 + 63) / 64) ∧ (u.arrSt k).taken = x.taken + 1 ∧
      u.isBusy (busyRow k) = true ∧ (∀ y ∈ a.elems, s.cycles + y.2.1 + y.2.2 ∈ Tab.getD u.fab.serving y.1 []) ∧
      (u.arrSt k).assigns = (if l.rows = 1 then more else { l with rows := l.rows - 1 } :: more) ∧
      ∀ j, ∀ rr < 64, (u.arrSt k).row a.fmt rr j = if rr = x.taken % a.fmt.macc ∧ j < a.ac then
          a.accumulate x l.set (a.row (q.take ((a.k * a.fmt.bits / 8 + 63) / 64))) j (x.row a.fmt rr j)
        else if j < 64 then x.row a.fmt rr j else (u.arrSt k).row a.fmt rr j) ∧
  (∀ (a : Arr) (x : ArraySt) (set : Bool) (row : ARow) (j n : Nat) (z : AccRow), n < a.fmt.ne →
    (a.accumulate x set row j z).count = z.count + 1 ∧
    ((a.accumulate x set row j z).pois = true ↔
      z.pois = true ∨ row.pois = true ∨ ∃ e ∈ a.elems, (x.set e.2.1 e.2.2 set).pois = true) ∧
    (a.fmt.isInt = true → (a.accumulate x set row j z).c = wrap 32 (max (-2147483648) (min 2147483647
      ((if z.count = 0 then 0 else signed 32 z.c) + ((List.range a.fmt.ne).map fun m => Spec.intSum a x set row j m).sum)))) ∧
    (a.fmt.isInt = true → (a.accumulate x set row j z).vals.getD n 0 = wrap 32 (max (-2147483648) (min 2147483647
      ((if z.count = 0 then 0 else signed 32 (z.vals.getD n 0)) + Spec.intSum a x set row j n)))) ∧
    (a.fmt.isInt = false → (a.accumulate x set row j z).vals.getD n 0 =
      (if z.count = 0 then a.out x set row j n else addF32 (z.vals.getD n 0) (a.out x set row j n)))) ∧
  (∀ (g : Nat) (f : Nat → FV), chainF32 1 f = (FV.sum ((List.range 16).map f)).toF32 ∧
    chainF32 (g + 2) f = addF32 (chainF32 (g + 1) f) (FV.sum ((List.range 16).map fun k => f (16 * (g + 1) + k))).toF32) ∧
  (∀ (a : Arr) (z : AccRow), a.fmt.isInt = true → (z.ovf = true → a.judge z = .unchecked) ∧
    (z.ovf = false → a.judge z = if (z.vals.map (signed 32)).sum = signed 32 z.c then .checked else .failed)) ∧
  (∀ (s : State) (k j e node n : Nat) (r : NodeRec) (a : Arr) (x : ArraySt) (d : Drain) (z : AccRow), s.arr? (k / 4) (k % 4) = some a →
    x = s.arrSt k → x.drain = some d → x.checkOn = false → a.at_ (a.ar - 1) j = some e → s.drainNode e (k % 4) = some (node, r) →
    n = d.next.getD j 0 → n < d.rows → j < a.ac → d.next.length = a.ac → (s.ctx e (k % 4)).holds s.cycles = false →
    s.isBusy (busyDrain e) = false → a.fmt.isFp4 = false → z = x.row a.fmt n j → (r.dst0 ≠ .none ∨ r.dst1 ≠ .none) →
    ∃ (u : State) (p : Pay), exec .arrayDrainToken { s with inp := some (.arrayDrainToken k j) } = .next u ∧ u.mem = s.mem ∧
      Spec.Sends (s.ctx e (k % 4)) (u.ctx e (k % 4))
        { aid := d.aid, node := node, readyAt := s.cycles + 1, waits := false,
          beats := [Beat.both p (min 0xFFFFFFFF (d.lo + n)) (min 0xFFFFFFFF (d.lo + n + 1))] } ∧
      p.vec = true ∧ p.null = false ∧ p.pois = z.pois ∧
      (∀ m < 16, lane 32 p.val.toNat m = (z.vals.take 16).getD m 0 % 2 ^ 32) ∧
      ((u.arrSt k).drain.map fun d' => (d'.next.getD j 0, d'.rows)) = some (n + 1, d.rows) ∧ (u.arrSt k).acc = x.acc)

/-! ### Factorising beds (R139 to R145, R378, R379) -/

namespace Sys2Proof.Spec
open Sys2Proof.Machine

/-- The factorising forms. -/
def fctForms : List (NodeRec → Instr) := [.fctb, .fcts, .fctn, .fctr, .fctsv, .fcte]
/-- A firing of an FCT form in a factorising context of bed `b`, which may perform now. -/
def OnBed (s : State) (i : Issue) (r : NodeRec) (b : Nat) (x : FctBed) : Prop :=
  Runs s i r ∧ HoldsNow s i ∧ (s.modeWord i.elem i.ctx).testBit 3 = true ∧ b = bedOf i.elem ∧ x = s.bed b
/-- An entry of a bed's tile: physical row, column. -/
def entry (s : State) (b : Nat) (x : FctBed) (row col : Nat) : Nat := tileGet s.mem b x.ctx x.base row col
/-- The magnitude that pivots compare: NaN is less than any number (R140). -/
def magnitude (v : Nat) : Nat := if (f32 v).isNan then 0 else v % 2 ^ 31 + 1
/-- Logical row `q` wins column `k` of a bed alone: the largest magnitude, the lowest of equals (R140). -/
def Wins (s : State) (b : Nat) (x : FctBed) (k q : Nat) : Prop :=
  k ≤ q ∧ q < 128 ∧ ∀ j, k ≤ j → j < 128 →
    magnitude (entry s b x (x.rename.getD j 0) k) ≤ magnitude (entry s b x (x.rename.getD q 0) k) ∧
    (j < q → magnitude (entry s b x (x.rename.getD j 0) k) < magnitude (entry s b x (x.rename.getD q 0) k))
/-- A bed alone runs a step of `n` more columns in column `k`, with its tile and its rename map in order. -/
def Steps (s : State) (b : Nat) (x : FctBed) (n k : Nat) (i : Issue) : Prop :=
  x = s.bed b ∧ b < 256 ∧ x.group = none ∧ x.step = some (n, i) ∧ x.next = k ∧ 0 < n ∧ k < 128 ∧ x.rename.Perm (List.range 128) ∧
  x.base + 1024 ≤ 65536 ∧ Tab.wf 0 s.mem.bank = true
/-- The beds `ms` are one negotiation group, each with a step under way that is the FCTS of `steps` (R143). -/
def Grouped (s : State) (ms : List Nat) (steps : Nat → Nat × Issue) : Prop :=
  2 ≤ ms.length ∧ ms.length ≤ 8 ∧ ms.Nodup ∧ ∀ m ∈ ms, bedMembers (s.bed m) m = ms ∧ (s.bed m).step = some (steps m)
/-- They run the same FCTS, of `n` more columns, in column `k`, with their tiles and member 0's rename map in order. -/
def GroupSteps (s : State) (ms : List Nat) (n k : Nat) (is : Nat → Issue) : Prop :=
  Grouped s ms (fun m => (n, is m)) ∧ 0 < n ∧ k < 128 ∧ Tab.wf 0 s.mem.bank = true ∧
  (s.bed (ms.headD 0)).rename.Perm (List.range 128) ∧ ∀ m ∈ ms, m < 256 ∧ (s.bed m).base + 1024 ≤ 65536 ∧ (s.bed m).next = k
/-- The physical row of a member's row `q`: member 0 proposes logical rows (R143). -/
def proposed (s : State) (ms : List Nat) (g q : Nat) : Nat := if g = 0 then (s.bed (ms.headD 0)).rename.getD q 0 else q
/-- What member `g` proposes for column `k` with its row `q`. -/
def proposal (s : State) (ms : List Nat) (k g q : Nat) : Nat :=
  magnitude (entry s (ms.getD g 0) (s.bed (ms.getD g 0)) (proposed s ms g q) k)
/-- Row `q` of member `g` wins column `k` of a group: the largest magnitude, then the lowest member, then the lowest row (R143). -/
def GroupWins (s : State) (ms : List Nat) (k g q : Nat) : Prop :=
  g < ms.length ∧ q < 128 ∧ (g = 0 → k ≤ q) ∧ ∀ g' < ms.length, ∀ j < 128, (g' = 0 → k ≤ j) →
    proposal s ms k g' j ≤ proposal s ms k g q ∧ (g' < g ∨ g' = g ∧ j < q → proposal s ms k g' j < proposal s ms k g q)
/-- The physical row of member 0 that holds the pivot row. -/
def pivotRow (s : State) (ms : List Nat) (k g q : Nat) : Nat := proposed s ms 0 (if g = 0 then q else k)
/-- A member's tile once the winner's row has been exchanged with member 0's row of logical number `k`, where another member wins. -/
def exchanged (s : State) (ms : List Nat) (k g q m row col : Nat) : Nat :=
  let here := fun m row => entry s m (s.bed m) row col
  if g = 0 then here m row
  else if m = ms.headD 0 ∧ row = proposed s ms 0 k then here (ms.getD g 0) q
  else if m = ms.getD g 0 ∧ row = q then here (ms.headD 0) (proposed s ms 0 k)
  else here m row
/-- What a column puts in the place of its pivot `p`; none where the step ends in FCT_SINGULAR (R140). -/
def PivotIs (x : FctBed) (p p' : Nat) : Prop :=
  (((f32 p).isNan = true ∨ x.singtol.toNat < p % 2 ^ 31) ∧ p' = p) ∨
  ((f32 p).isNan = false ∧ p % 2 ^ 31 ≤ x.singtol.toNat ∧ x.smode = true ∧ x.singtol.toNat < 2 ^ 31 ∧
    p' = p / 2 ^ 31 % 2 * 2 ^ 31 + max x.singtol.toNat 0x00800000)
/-- The trap at member 0's activation discards the other members' FCTS activations (R143). -/
def GroupTraps (o : Out) (s : State) (ms : List Nat) (is : Nat → Issue) (t : Trap) (u : State) : Prop :=
  o = .next (ms.tail.foldl (fun v m => v.discardStep (is (ms.headD 0)).f.aid (is m)) (u.raise (is (ms.headD 0)) t)) ∧
  ∀ m ∈ ms, (u.bed m).step = none ∧ (u.bed m).next = (s.bed m).next

end Sys2Proof.Spec

/-- R139 to R145, R378, R379: FCT forms outside a factorising context, and in a bed that is not ACTIVE, raise FCT_STATE. FCTB starts a
factorisation; FCTS starts a step; a column takes the bed's datapaths 28 cycles, swaps the winning row's
name, divides by the pivot and updates every eligible row; a
small pivot traps or is substituted. FCTN forms a group whose amax is the members' largest; a group's column waits for the FCTS of every
member, takes 36 or 52 cycles, exchanges the winner's row with member 0 and updates every member by the one pivot row. FCTR returns the
map, the history or the
growth; FCTSV leaves the solution of both substitutions; FCTE clears ACTIVE and dissolves the group. Which parts of a group's steps and
traps are read into the rules is log entry 56. -/
def Obligations.FactorResults : Prop :=
  (∀ f ∈ Spec.fctForms, ∀ (r : NodeRec) (s : State) (i : Issue), Spec.Runs s i r → (s.modeWord i.elem i.ctx).testBit 3 = false →
    exec (f r) s = .next ((Spec.taken s).raise i { code := trapFctState })) ∧
  (∀ (r : NodeRec) (s : State) (i : Issue) (b base : Nat) (x : FctBed), Spec.OnBed s i r b x → base = valOf i.f.a % 2 ^ 32 →
    (x.active = true → ∃ u : State, exec (.fctb r) s = .next (u.raise i { code := trapFctState, lsid := r.aux.toNat }) ∧
      u.eng = s.eng ∧ u.mem = s.mem) ∧
    (x.active = false → base % 64 = 0 → (∀ e ∈ bedElems b, s.roleCode e i.ctx = 0 ∧ base + 1024 ≤ s.extent e i.ctx) →
      ∃ u : State, exec (.fctb r) s = .next (u.reply i r (.scalar 1)) ∧ u.mem = s.mem ∧
        u.bed b = { x with ctx := i.ctx, base := base, next := 0, active := true, rename := List.range 128, history := [],
                           amax := BitVec.ofNat 32 (tileMax s.mem b i.ctx base), umax := BitVec.ofNat 32 (tileMax s.mem b i.ctx base),
                           growth := 0x3F800000, begun := true, serve := none }) ∧
    (x.active = false → (base % 64 ≠ 0 ∨ ∃ e ∈ bedElems b, s.extent e i.ctx < base + 1024) →
      ∃ u : State, exec (.fctb r) s = .next (u.raise i
        { code := trapBufRange, info := 1024, addr := BitVec.ofNat 64 base, lsid := r.aux.toNat }) ∧ u.eng = s.eng ∧ u.mem = s.mem) ∧
    (¬ (x.active = true ∧ x.ctx = i.ctx) → ∀ f ∈ [Instr.fcts, .fctsv, .fcte],
      ∃ u : State, exec (f r) s = .next (u.raise i { code := trapFctState, lsid := r.aux.toNat }) ∧ u.eng = s.eng ∧ u.mem = s.mem) ∧
    (x.active = true → x.ctx = i.ctx →
      (x.step = none → x.next < 128 → ∃ u : State, exec (.fcts r) s = .next u ∧ u.fab.held = s.fab.held ∧ u.mem = s.mem ∧
        u.bed b = { x with step := some (r.l % 256, i) }) ∧
      (x.step = none → x.next = 128 → x.group = none → ∃ u : State, exec (.fcts r) s = .next (u.reply i r (.scalar 128)) ∧
        u.eng = s.eng ∧ u.mem = s.mem) ∧
      (x.step.isSome = true → ∃ u : State, exec (.fcts r) s = .next u ∧ Spec.form s i (.fcts r) ∈ u.fab.held ∧ u.eng = s.eng ∧
        u.mem = s.mem) ∧
      ((∀ m ∈ bedMembers x b, (s.bed m).step = none) →
        ∃ u : State, exec (.fcte r) s = .next (u.reply i r (.scalar 1)) ∧ u.mem = s.mem ∧
          ∀ m, u.bed m = { s.bed m with active := (s.bed m).active && m != b,
                                        group := if m ∈ bedMembers x b then none else (s.bed m).group,
                                        gidx := if m ∈ bedMembers x b then 0 else (s.bed m).gidx }) ∧
      ((∃ m ∈ bedMembers x b, (s.bed m).step.isSome = true) →
        ∃ u : State, exec (.fcte r) s = .next u ∧ Spec.form s i (.fcte r) ∈ u.fab.held ∧ u.eng = s.eng ∧ u.mem = s.mem) ∧
      ((x.group ≠ none ∨ x.next ≠ 128) →
        ∃ u : State, exec (.fctsv r) s = .next (u.raise i { code := trapFctState, lsid := r.aux.toNat }) ∧ u.mem = s.mem) ∧
      (x.group = none → x.next = 128 → base % 64 = 0 → base + 512 ≤ s.extent (bedElem b 0 0) i.ctx →
        Tab.wf 0 s.mem.bank = true →
        ∃ (u : State) (y z : Nat → Nat), exec (.fctsv r) s = .next (u.reply i r (.scalar 1)) ∧ u.eng = s.eng ∧
          (∀ q < 128, y q = (List.range q).foldl
            (fun acc c => fnmaF32 (Spec.entry s b x (x.rename.getD q 0) c) (y c) acc)
            (Sys2Proof.ofBytes (readCells s.mem.bank (bankKey (bedElem b 0 0) i.ctx (base + 4 * x.rename.getD q 0)) 4))) ∧
          (∀ q < 128, z q = divF32 ((List.range (127 - q)).foldl
            (fun acc j => fnmaF32 (Spec.entry s b x (x.rename.getD q 0) (q + 1 + j)) (z (q + 1 + j)) acc) (y q))
            (Spec.entry s b x (x.rename.getD q 0) q)) ∧
          ∀ a, Tab.getD u.mem.bank a 0 =
            if bankKey (bedElem b 0 0) i.ctx base ≤ a ∧ a < bankKey (bedElem b 0 0) i.ctx base + 512 then
              (bytesOf 4 (z ((a - bankKey (bedElem b 0 0) i.ctx base) / 4))).getD ((a - bankKey (bedElem b 0 0) i.ctx base) % 4) 0
            else Tab.getD s.mem.bank a 0)) ∧
    (x.begun = true → x.ctx = i.ctx → r.l % 4 ≤ 2 → ∃ ps : List Pay,
      exec (.fctr r) s = .next ((ps.zipIdx).foldl (fun s (p, t) =>
        s.sendBeat i.elem i.ctx i.f.node r i.f.aid (.both p (min 0xFFFFFFFF (i.f.lo + t)) (min 0xFFFFFFFF (i.f.lo + t + 1)))) (Spec.taken s)) ∧
      (r.l % 4 = 0 → ps.length = 2 ∧ ∀ t < 2, ∀ j < 64, ((ps[t]?).map fun p => (p.vec, lane 8 p.val.toNat j)) =
        some (true, x.rename.getD (64 * t + j) 0 % 256)) ∧
      (r.l % 4 = 1 → ps.length = 4 ∧ ∀ t < 4, ∀ j < 32, ((ps[t]?).map fun p => (p.vec, lane 16 p.val.toNat j)) =
        some (true, if 32 * t + j < x.next then Tab.getD x.history (32 * t + j) 0 % 65536 else 0)) ∧
      (r.l % 4 = 2 → ps = [Pay.scalar x.growth.toNat])) ∧
    ((x.begun = false ∨ x.ctx ≠ i.ctx) → exec (.fctr r) s = .next ((Spec.taken s).raise i { code := trapFctState })) ∧
    (∃ u : State, exec (.fctn r) s = .next u ∧ Spec.form s i (.fctn r) ∈ u.fab.held ∧ u.eng = s.eng ∧ u.mem = s.mem)) ∧
  (∀ (r : NodeRec) (s : State) (h : HeldOp) (b : Nat) (x : FctBed) (o : Out), Spec.Waits s h → h.instr = .fctn r → h.since < s.cycles →
    b = bedOf h.iss.elem → x = s.bed b →
    (∀ y ∈ s.fab.held, ∀ r', y.instr = .fctn r' → bedOf y.iss.elem = b → y = h ∨ h.iss.f.node < y.iss.f.node) →
    o = exec .storePerform { s with inp := some (.storePerform h.id 1) } →
    (s.groupOk h.iss (r.l % 16) (r.l / 16 % 16) = none →
      ∃ u : State, o = .next (u.raise h.iss { code := trapFctState, lsid := r.aux.toNat }) ∧ u.eng = s.eng) ∧
    (∀ ms, s.groupOk h.iss (r.l % 16) (r.l / 16 % 16) = some ms → 2 ≤ r.l % 16 → r.l % 16 ≤ 8 →
      ((∃ m ∈ ms, m ≠ b ∧ (s.bed m).joining = none) → ∃ u : State, o = .next u ∧ u.mem = s.mem ∧
        (∀ y ∈ u.fab.held, y.id ≠ h.id) ∧ u.bed b = { x with joining := some (r.l % 16, r.l / 16 % 16, h.iss) } ∧
        ∀ m, m ≠ b → u.bed m = s.bed m) ∧
      ((∀ m ∈ ms, m ≠ b → (s.bed m).joining.isSome = true) → ∃ u : State, o = .next u ∧ u.mem = s.mem ∧
        ∀ g m, ms[g]? = some m → (u.bed m).group = some (ms.headD 0, ms.length) ∧ (u.bed m).gidx = BitVec.ofNat 3 g ∧
          (u.bed m).joining = none ∧ (∀ n ∈ ms, (s.bed n).amax.toNat ≤ (u.bed m).amax.toNat) ∧
          (∃ n ∈ ms, (s.bed n).amax = (u.bed m).amax) ∧ (u.bed m).umax = (u.bed m).amax))) ∧
  (∀ (s : State) (b n k : Nat) (x : FctBed) (i : Issue), Spec.Steps s b x n k i →
    (x.serve = none → exec .fctColumnStep { s with inp := some (.fctColumnStep b) } =
      .next ({ s with inp := none }.setBed b { x with serve := some (s.cycles + 28) })) ∧
    (∀ u, x.serve = some u → s.cycles < u →
      (exec .fctColumnStep { s with inp := some (.fctColumnStep b) } = .next { s with inp := none }) ∧
      ∀ e, bedOf e = b → s.serves e = true ∧ s.issueSlot e = none)) ∧
  (∀ (s : State) (b n k q : Nat) (x : FctBed) (i : Issue) (p pq : Nat), Spec.Steps s b x n k i → Spec.Wins s b x k q →
    (∃ u, x.serve = some u ∧ u ≤ s.cycles) → pq = x.rename.getD q 0 → p = Spec.entry s b x pq k →
    ((f32 p).isNan = false → p % 2 ^ 31 ≤ x.singtol.toNat → x.smode = false →
      ∃ u : State, exec .fctColumnStep { s with inp := some (.fctColumnStep b) } =
        .next (u.raise i { code := trapFctSingular, info := BitVec.ofNat 64 k }) ∧ u.mem = s.mem ∧ (u.bed b).next = k ∧
        (u.bed b).step = none) ∧
    (∀ p', Spec.PivotIs x p p' → x.gmode = false →
      ∃ (t : State) (y : FctBed), exec .fctColumnStep { s with inp := some (.fctColumnStep b) } = .next t ∧ y = t.bed b ∧
        y.serve = none ∧ y.next = k + 1 ∧ y.step = (if n = 1 ∨ k = 127 then none else some (n - 1, i)) ∧ y.ctx = x.ctx ∧ y.base = x.base ∧
        Tab.find y.history k = some pq ∧ y.rename.length = 128 ∧
        (∀ j < 128, y.rename.getD j 0 = if j = k then pq else if j = q then x.rename.getD k 0 else x.rename.getD j 0) ∧
        (p' ≠ p → y.subst = true ∧ (x.subst = false → y.subcol = BitVec.ofNat 7 k)) ∧
        (∀ j < 128, ∀ c < 128, Spec.entry t b y (y.rename.getD j 0) c =
          if j = k then (if c = k then p' else Spec.entry s b x pq c)
          else if j < k ∨ c < k then Spec.entry s b x (y.rename.getD j 0) c
          else if c = k then mulF32 (Spec.entry s b x (y.rename.getD j 0) k) (divF32 0x3F800000 p')
          else fnmaF32 (mulF32 (Spec.entry s b x (y.rename.getD j 0) k) (divF32 0x3F800000 p')) (Spec.entry s b x pq c)
            (Spec.entry s b x (y.rename.getD j 0) c)) ∧
        (x.amax ≠ 0 → y.growth = BitVec.ofNat 32 (divF32 y.umax.toNat x.amax.toNat) ∧
          y.gflag = (x.gflag || gtF32 (divF32 y.umax.toNat x.amax.toNat) x.glim.toNat)))) ∧
  (∀ (s : State) (b : Nat), (∃ m ∈ bedMembers (s.bed b) b, (s.bed m).step = none) →
    exec .fctColumnStep { s with inp := some (.fctColumnStep b) } = .next (Spec.quiet s)) ∧
  (∀ (s : State) (b : Nat) (ms : List Nat) (steps : Nat → Nat × Issue), Spec.Grouped s ms steps → b ∈ ms →
    (∃ m ∈ ms, (steps m).1 ≠ (steps (ms.headD 0)).1) → ∃ u : State, u.mem = s.mem ∧
      Spec.GroupTraps (exec .fctColumnStep { s with inp := some (.fctColumnStep b) }) s ms (fun m => (steps m).2)
        { code := trapFctState } u) ∧
  (∀ (s : State) (b b0 n k g q p pr : Nat) (ms : List Nat) (is : Nat → Issue), Spec.GroupSteps s ms n k is → b ∈ ms → b0 = ms.headD 0 →
    Spec.GroupWins s ms k g q → pr = Spec.pivotRow s ms k g q → p = Spec.exchanged s ms k g q b0 pr k →
    ((s.bed b0).serve = none → ∃ u : State, exec .fctColumnStep { s with inp := some (.fctColumnStep b) } = .next u ∧ u.mem = s.mem ∧
      ∀ m, u.bed m = if m ∈ ms then { s.bed m with serve := some (s.cycles + if g = 0 then 36 else 52) } else s.bed m) ∧
    (∀ v, (s.bed b0).serve = some v → v ≤ s.cycles →
      ((f32 p).isNan = false → p % 2 ^ 31 ≤ (s.bed b0).singtol.toNat → (s.bed b0).smode = false → ∃ u : State,
        Spec.GroupTraps (exec .fctColumnStep { s with inp := some (.fctColumnStep b) }) s ms is
          { code := trapFctSingular, info := BitVec.ofNat 64 k } u) ∧
      (∀ p', Spec.PivotIs (s.bed b0) p p' → (s.bed b0).gmode = false → ∃ (t : State) (z : FctBed),
        exec .fctColumnStep { s with inp := some (.fctColumnStep b) } = .next t ∧ z = t.bed b0 ∧
        (∀ m ∈ ms, (t.bed m).serve = none ∧ (t.bed m).next = k + 1 ∧ (t.bed m).ctx = (s.bed m).ctx ∧ (t.bed m).base = (s.bed m).base ∧
          (t.bed m).step = (if n = 1 ∨ k = 127 then none else some (n - 1, is m)) ∧
          (m ≠ b0 → (t.bed m).rename = (s.bed m).rename ∧ (t.bed m).history = (s.bed m).history)) ∧
        Tab.find z.history k = some (128 * g + Spec.proposed s ms g q) ∧
        (∀ j < 128, z.rename.getD j 0 = Spec.proposed s ms 0 (if g ≠ 0 then j else if j = k then q else if j = q then k else j)) ∧
        (∀ m ∈ ms, ∀ row < 128, ∀ c < 128, ∀ l, l = mulF32 (Spec.exchanged s ms k g q m row k) (divF32 0x3F800000 p') →
          Spec.entry t m (t.bed m) row c =
            if m = b0 ∧ row = pr ∧ c = k then p'
            else if c < k ∨ (m = b0 ∧ (List.range 128).all (fun j => decide (j ≤ k) || z.rename.getD j 0 != row) = true) then Spec.exchanged s ms k g q m row c
            else if c = k then l
            else fnmaF32 l (Spec.exchanged s ms k g q b0 pr c) (Spec.exchanged s ms k g q m row c)) ∧
        ((s.bed b0).amax ≠ 0 → z.growth = BitVec.ofNat 32 (divF32 z.umax.toNat (s.bed b0).amax.toNat) ∧
          z.gflag = ((s.bed b0).gflag || gtF32 (divF32 z.umax.toNat (s.bed b0).amax.toNat) (s.bed b0).glim.toNat)))))

/-! ### Router trees and collectives over memory (R380 to R388, R394, R423, R425) -/

namespace Sys2Proof.Spec
open Sys2Proof.Machine

/-- The lanes of a contribution, widened exactly; none for a NULL (R381). -/
def ownLanes (i : Issue) (r : NodeRec) : Option (List Nat) :=
  if i.f.isNull r then none
  else some ((List.range (laneCount (fltWidth r.f) r.v)).map fun k => widenF32 r.f (lane (fltWidth r.f) (valOf i.f.a) k))
/-- A COLL that performs and has read its descriptor (R384, R386). -/
def Described (s : State) (i : Issue) (r : NodeRec) (d : List Byte) (s1 : State) : Prop :=
  Runs s i r ∧ HoldsNow s i ∧ (holding (taken s) i (.coll r)).mayTake (form (taken s) i (.coll r)) = true ∧
  valOf i.f.a % 2 ^ 64 % 64 = 0 ∧ (holding (taken s) i (.coll r)).owesEarlier i = false ∧
  (holding (taken s) i (.coll r)).loadOwn (form (taken s) i (.coll r)) (valOf i.f.a % 2 ^ 64) 64 =
    (.ok d none, s1)
/-- The round that a firing of a REDWAIT pairs with: the one that its A token took, or, where none did, the least that no other token of
the node has, which it takes now (R382). `t'` is the tree with it taken. -/
def Pairs (t : TreeSt) (n : Nat) (i : Issue) (round : Nat) (t' : TreeSt) : Prop :=
  (∃ p, t.paired.find? (fun p => p.node == n && p.aid == i.f.aid && p.tok == i.f.atok) = some p ∧ round = p.round ∧
    t'.paired = t.paired ∧ t'.back = t.back ∧ t'.waitCount = t.waitCount) ∨
  (t.paired.find? (fun p => p.node == n && p.aid == i.f.aid && p.tok == i.f.atok) = none ∧
    (∀ x ∈ Tab.getD t.back n [], round ≤ x) ∧ round ≤ Tab.getD t.waitCount n 0 ∧
    (round ∈ Tab.getD t.back n [] ∨ round = Tab.getD t.waitCount n 0) ∧
    t'.paired = t.paired ++ [{ node := n, aid := i.f.aid, tok := i.f.atok, round := round }] ∧
    Tab.getD t'.back n [] = (Tab.getD t.back n []).filter (fun x => x != round) ∧
    Tab.getD t'.waitCount n 0 = if round = Tab.getD t.waitCount n 0 then round + 1 else Tab.getD t.waitCount n 0)
/-- No rank of the round here has failed or left, and no peer of it has been isolated since it began (R36, R387, R388). -/
def Whole (s : State) (c : CollRound) : Prop :=
  c.broken = false ∧ ∀ x ∈ s.eng.rounds, x.g = c.g → x.round = c.round → x.status ≠ some 1 ∧ x.broken = false
/-- A round that has not ended at a rank. -/
def Open (s : State) (c : CollRound) : Prop := s.eng.rounds.find? (fun x => x.rid == c.rid && x.status.isNone) = some c

end Sys2Proof.Spec

/-- R380 to R388: a REDPUT performs as its node's next round, NULL as a NULL; a node combines its own contribution and its children's in
the order N, E, S, W; the root converts once, with its flags, and fires; every REDWAIT token has the least round that none of its node
has; an abandoned round times out. COLL
raises the fault or poison of its descriptor, waits for one that a peer holds, or takes a share of its group's next round or a rejected
handle; COLLW fires 2 for a handle of no round and the status of one that has
ended; a round that completes with every member in reach writes its result, then its flag; one that a failure or an isolation broke never
completes; one that fails poisons DST and sets bit 63 in FLAG. What is read into these rules or chosen is log entries 39, 58, 59 and 60. -/
def Obligations.TreeAndCollectiveResults : Prop :=
  (∀ (r : NodeRec) (s : State) (i : Issue) (k n : Nat) (t : TreeSt) (x : TreeNode), s.cur = some i → Spec.HoldsNow s i →
    k = treeKey (s.issTid i) i.ctx (r.l % 16) → t = s.tree k → n = i.elem * 64 + i.f.node → x = t.node n →
    (t.cur x + 4 < x.count → ∃ u : State, exec (.redput r) s = .next u ∧ Spec.form s i (.redput r) ∈ u.fab.held ∧ u.eng = s.eng) ∧
    (x.count ≤ t.cur x + 4 → x.count ∈ t.abandoned → ∃ u : State, exec (.redput r) s = .next u ∧ u.fab.held = s.fab.held ∧
      u.mem = s.mem ∧ (u.tree k).node n = { x with count := x.count + 1 }) ∧
    (x.count ≤ t.cur x + 4 → x.count ∉ t.abandoned → ∃ (u : State) (p : Partial), exec (.redput r) s = .next u ∧
      u.fab.held = s.fab.held ∧ u.mem = s.mem ∧ (u.tree k).node n = { x with count := x.count + 1, inputs := x.inputs ++ [p] } ∧
      p.round = x.count ∧ p.link = 4 ∧ p.val = Spec.ownLanes i r ∧ p.vec = r.v ∧ p.iss = some i ∧
      (p.pois = true ↔ i.f.isNull r = false ∧ i.f.poison.isSome = true) ∧ (Tab.find (u.tree k).begun x.count).isSome = true)) ∧
  (∀ (s : State) (k n : Nat) (r : NodeRec) (t : TreeSt) (x : TreeNode) (own : Partial) (kids : List Partial), t = s.tree k → x = t.node n →
    n < 2 ^ 20 → s.recAt (n / 64) (k / 16 % 4) (n % 64) = some (0xE6, r) → x.ready r (t.cur x) = some (own, kids) →
    (∀ p ∈ own :: kids, p.since + 4 ≤ s.cycles) →
    ∃ (u : State) (p : Partial), (u.tree k).node n = { x with combined := t.cur x + 1, sent := x.sent ++ [p],
                                                              inputs := x.inputs.filter fun q => q.round != t.cur x } ∧ u.mem = s.mem ∧
      p.val = (kids.map (·.val)).foldl (combineVal (r.x % 4)) own.val ∧ p.round = own.round ∧ p.iss = own.iss ∧
      p.pois = (own.pois || kids.any (·.pois)) ∧
      (r.l.testBit 8 = true → exec .reduceRoundCombine { s with inp := some (.reduceRoundCombine (k * 2 ^ 20 + n)) } = .next u) ∧
      (r.l.testBit 8 = false → ∀ target m port, s.destElem (n / 64) (k / 16 % 4) r.dst0 = some (target, m, port) →
        ∃ b, exec .reduceRoundCombine { s with inp := some (.reduceRoundCombine (k * 2 ^ 20 + n)) } =
          .next (u.launchTok (n / 64) target (edgeSrc (n / 64) (k / 16 % 4) (n % 64) 0) b 0 (k / 16 % 4) m port) ∧ b.pay.null = true)) ∧
  (∀ (op : Nat) (x y : Option (List Nat)) (a b : List Nat), combineVal op x none = x ∧ combineVal op none y = y ∧
    combineVal 0 (some a) (some b) = some (List.zipWith addF32 a b) ∧
    combineVal 1 (some a) (some b) = some (List.zipWith (fun p q => (minMaxF 0 true p q).1) a b) ∧
    combineVal 2 (some a) (some b) = some (List.zipWith (fun p q => (minMaxF 0 false p q).1) a b)) ∧
  (∀ (s : State) (k n : Nat) (r : NodeRec) (t : TreeSt) (x : TreeNode) (p : Partial) (rest : List Partial) (i : Issue)
    (res : Option (List Nat) × Bool × Bool × BitVec 3), t = s.tree k → x = t.node n → n < 2 ^ 20 →
    s.recAt (n / 64) (k / 16 % 4) (n % 64) = some (0xE6, r) → x.sent = p :: rest → r.l.testBit 8 = true → p.iss = some i →
    (∀ w ∈ s.treeWaits k, p.round < Tab.getD t.waitCount w 0 + 4) →
    res = (p.val.map fun l => l.map fun y => (roundF (r.l / 512 % 8) 0 false (f32 y).toExact).1, p.vec, p.pois, p.psrc) →
    ∃ u : State, exec .reduceRootResult { s with inp := some (.reduceRootResult (k * 2 ^ 20 + n)) } =
        .next (((t.waits.filter fun w => w.round == p.round).foldl (fun s w => s.fireWait w res)
          (u.reply i r (resultPay (fltWidth (r.l / 512 % 8)) res))).trimResults k) ∧ u.mem = s.mem ∧
      u.fab = (if p.pois then s else s.setFlags (n / 64) (k / 16 % 4) ((p.val.getD []).foldl (fun f y =>
        f ||| (roundF (r.l / 512 % 8) 0 false (f32 y).toExact).2) 0)).fab ∧ (u.tree k).node n = { x with sent := rest } ∧
      (∀ w ∈ (u.tree k).waits, w.round ≠ p.round) ∧ Tab.find (u.tree k).results p.round = some res) ∧
  (∀ (r : NodeRec) (s : State) (i : Issue) (k n : Nat) (t : TreeSt), Spec.Runs s i r →
    k = treeKey (s.issTid i) i.ctx (r.l % 16) → t = s.tree k → n = i.elem * 64 + i.f.node → ∃ (round : Nat) (t' : TreeSt),
    Spec.Pairs t n i round t' ∧
    (round ∈ t.abandoned → ∃ u : State, exec (.redwait r) s =
        .next (u.raiseLive i { code := trapCollTimeout, info := BitVec.ofNat 64 (r.l % 16) }) ∧ u.mem = s.mem ∧ u.tree k = t') ∧
    (round ∉ t.abandoned → ∀ res, Tab.find t.results round = some res → ∃ u : State,
      exec (.redwait r) s = .next ((u.reply i r (resultPay (fltWidth r.f) res)).trimResults k) ∧ u.mem = s.mem ∧ u.tree k = t') ∧
    (round ∉ t.abandoned → Tab.find t.results round = none → ∃ u : State, exec (.redwait r) s = .next u ∧ u.mem = s.mem ∧
      u.tree k = { t' with waits := t'.waits ++ [{ round := round, instr := .redwait r, iss := i }] })) ∧
  (∀ (s : State) (tid e aid k n : Nat) (r : NodeRec) (t : Token) (i : Issue), k = treeKey tid t.ctx (r.l % 16) → n = e * 64 + t.node →
    i.f.aid = aid → i.f.atok = s.fab.accepted → (∀ p ∈ (s.tree k).paired, (s.act? p.aid).isSome = true) →
    ∃ round, Spec.Pairs (s.tree k) n i round ((s.pairWait tid e aid r t).tree k)) ∧
  (∀ (s : State) (tid c tree k : Nat) (tk : Task) (round began : Nat), k = treeKey tid c tree → s.task? tid = some tk →
    (s.tree k).begun = [(round, began)] → tk.collTmo.toNat % 2 ^ 32 ≠ 0 → began + tk.collTmo.toNat % 2 ^ 32 * 5544000 ≤ s.units →
    ({ s with inp := none } : State).rootReady k round = false →
    ∃ t : State, exec .reduceRoundAbandon { s with inp := some (.reduceRoundAbandon tid c tree) } = .next t ∧ t.mem = s.mem ∧
      (t.tree k).abandoned = (s.tree k).abandoned ++ [round] ∧ (t.tree k).begun = [] ∧ (∀ w ∈ (t.tree k).waits, w.round ≠ round) ∧
      (∀ n, ∀ p ∈ ((t.tree k).node n).inputs ++ ((t.tree k).node n).sent, p.round ≠ round) ∧
      ∀ w ∈ (s.tree k).waits, w.round = round → w.iss.f.again = false → ∀ a, s.act? w.iss.f.aid = some a → a.committed = false → a.dead = false →
        ∃ a', t.act? w.iss.f.aid = some a' ∧ a'.trap.isSome = true) ∧
  (∀ (r : NodeRec) (s : State) (i : Issue), Spec.Runs s i r → Spec.HoldsNow s i →
    (Spec.holding (Spec.taken s) i (.coll r)).mayTake (Spec.form (Spec.taken s) i (.coll r)) = true → valOf i.f.a % 2 ^ 64 % 64 ≠ 0 →
    ∃ u : State, exec (.coll r) s = .next (u.raise i
      { code := trapAlign, info := 64, addr := BitVec.ofNat 64 (valOf i.f.a % 2 ^ 64) }) ∧ u.eng = s.eng ∧ u.mem = s.mem) ∧
  (∀ (r : NodeRec) (s sh s1 : State) (i : Issue) (h : HeldOp) (y : Rd) (a : Nat), Spec.Runs s i r → Spec.HoldsNow s i →
    h = Spec.form (Spec.taken s) i (.coll r) → sh = Spec.holding (Spec.taken s) i (.coll r) → sh.mayTake h = true →
    a = valOf i.f.a % 2 ^ 64 → a % 64 = 0 → sh.owesEarlier i = false → sh.loadOwn h a 64 = (y, s1) →
    (y = .waits → ∃ u : State, exec (.coll r) s = .next u ∧ h ∈ u.fab.held ∧ u.eng = s1.eng ∧ u.lnk = s1.lnk ∧ u.mem = s1.mem) ∧
    (∀ t, y = .fault t → exec (.coll r) s = .next ((s1.doneHeld h).raise i t)) ∧
    (∀ d src, y = .ok d (some src) → exec (.coll r) s = .next ((s1.doneHeld h).raise i
      { code := trapPoison, info := BitVec.ofNat 64 src.toNat, addr := BitVec.ofNat 64 a }))) ∧
  (∀ (r : NodeRec) (s s1 : State) (i : Issue) (d : List Byte) (g : CollGrp) (gi n rank len : Nat), Spec.Described s i r d s1 →
    gi = bytesAt d 24 2 → g = Tab.getD s1.eng.collGrp gi .reset →
    ((g.valid = false ∨ g.size = 0 ∨ 63 < gi ∨ g.asid.toNat ≠ s1.issAsid i ∨ g.scope.toNat ≠ bytesAt d 23 1 ∨ 3 < bytesAt d 20 1 ∨
        bytesAt d 0 8 % 64 ≠ 0 ∨ bytesAt d 8 8 % 64 ≠ 0 ∨ bytesAt d 16 4 % 64 ≠ 0 ∨ bytesAt d 32 8 % 8 ≠ 0 ∨
        (bytesAt d 20 1 ≤ 1 ∧ (2 < bytesAt d 21 1 ∨ 2 < bytesAt d 22 1)) ∨
        (bytesAt d 23 1 = 3 ∧ g.size.toNat ≤ bytesAt d 28 2) ∨ (bytesAt d 20 1 = 1 ∧ bytesAt d 16 4 % (64 * g.size.toNat) ≠ 0)) →
      ∃ (u : State) (v : Nat), exec (.coll r) s = .next (u.reply i r (.scalar (v % 65536 + 2 ^ 16 * (gi % 64) + 2 ^ 31))) ∧ u.eng = s1.eng ∧
        u.mem = s1.mem) ∧
    (g.valid = true → bytesAt d 23 1 = 3 → g.scope = 3 → rank = bytesAt d 28 2 → rank < g.size.toNat → g.size.toNat ≤ 1024 → gi < 64 →
      g.asid.toNat = s1.issAsid i → bytesAt d 20 1 ≤ 3 → (bytesAt d 20 1 ≤ 1 → bytesAt d 21 1 ≤ 2 ∧ bytesAt d 22 1 ≤ 2) →
      bytesAt d 0 8 % 64 = 0 → bytesAt d 8 8 % 64 = 0 → bytesAt d 16 4 % 64 = 0 → bytesAt d 16 4 ≤ 2 ^ 30 → bytesAt d 32 8 % 8 = 0 →
      (bytesAt d 20 1 = 1 → bytesAt d 16 4 % (64 * g.size.toNat) = 0) →
      len = (if bytesAt d 20 1 = 1 then bytesAt d 16 4 / g.size.toNat
             else if bytesAt d 20 1 = 2 then bytesAt d 16 4 * g.size.toNat else bytesAt d 16 4) →
      s1.rangeWalks (s1.issAsid i) (bytesAt d 0 8) (bytesAt d 16 4) = true → s1.rangeWalks (s1.issAsid i) (bytesAt d 8 8) len = true →
      s1.rangeWalks (s1.issAsid i) (bytesAt d 32 8) (if bytesAt d 32 8 = 0 then 0 else 8) = true → n = Tab.getD s1.eng.collCount (gi * 2048 + rank) 0 →
      ∃ (u : State) (c : CollRound), exec (.coll r) s = .next (u.reply i r (.scalar (n % 65536 + 2 ^ 16 * gi))) ∧ u.mem = s1.mem ∧
        c ∈ u.eng.rounds ∧ c.g = gi ∧ c.round = n ∧ c.rank = rank ∧ c.src = bytesAt d 0 8 ∧ c.dst = bytesAt d 8 8 ∧
        c.len = bytesAt d 16 4 ∧ c.op = bytesAt d 20 1 ∧ c.rop = bytesAt d 21 1 ∧ c.type = bytesAt d 22 1 ∧ c.scope = 3 ∧
        c.root = bytesAt d 26 2 ∧ c.flag = bytesAt d 32 8 ∧ c.flagVal = BitVec.ofNat 64 (bytesAt d 40 8) ∧ c.since = s1.units ∧
        c.status = none ∧ c.asid = s1.issAsid i ∧ Tab.getD u.eng.collCount (gi * 2048 + rank) 0 = n + 1)) ∧
  (∀ (r : NodeRec) (s : State) (i : Issue) (x : Nat), Spec.Runs s i r → Spec.HoldsNow s i → x = valOf i.f.a % 2 ^ 32 →
    ((x.testBit 31 = true ∨ s.shareOf i (x / 2 ^ 16 % 64) (x % 2 ^ 16) = none) →
      ∃ u : State, exec (.collw r) s = .next (u.reply i r (.scalar 2)) ∧ u.eng = s.eng) ∧
    (∀ c, x.testBit 31 = false → s.shareOf i (x / 2 ^ 16 % 64) (x % 2 ^ 16) = some c →
      (∀ v, c.status = some v → ∃ u : State, exec (.collw r) s = .next (u.reply i r (.scalar v)) ∧ u.eng = s.eng) ∧
      (c.status = none → ∃ u : State, exec (.collw r) s = .next u ∧ u.mem = s.mem ∧
        { c with waiters := c.waiters ++ [Spec.form s i (.collw r)] } ∈ u.eng.rounds))) ∧
  (∀ (s s1 : State) (c : CollRound) (xs : List (List Byte × List Bool)) (remote : List (List Byte)), Spec.Open s c → c.data = some xs →
    Spec.Whole s c → s.membersUp c = true → s.mayEndRound c = true →
    ({ s with inp := none }).shareFaults c (s.collSize c) = (false, s1) →
    ∃ u : State, exec .collRoundComplete { s with inp := some (.collRoundComplete c.rid remote) } =
      .next ((u.writeRange c.asid c.dst (c.result (s.collSize c) xs).1 (c.result (s.collSize c) xs).2).endRound c 0 c.flagVal false) ∧
      u.mem = s1.mem) ∧
  (∀ (s : State) (c : CollRound) (remote : List (List Byte)), Spec.Open s c → ¬Spec.Whole s c →
    exec .collRoundComplete { s with inp := some (.collRoundComplete c.rid remote) } = .next (Spec.quiet s)) ∧
  (∀ (c : CollRound) (n : Nat) (xs : List (List Byte × List Bool)),
    (c.op = 0 → (c.result n xs).1 = reducedBytes c xs) ∧
    (c.op = 1 → (c.result n xs).1 = ((reducedBytes c xs).drop (c.rank * (c.len / n))).take (c.len / n)) ∧
    (c.op = 2 → (c.result n xs).1 = xs.flatMap (·.1)) ∧ (c.op = 3 → ∀ d, xs[c.root]? = some d → c.result n xs = d)) ∧
  (∀ (rop n q : Nat) (xs : List (List Nat)) (own : List Nat), xs[q]? = some own → treeValue rop xs (n + 1) q =
    combineVal rop (combineVal rop (some own) (treeValue rop xs n (2 * q + 1))) (treeValue rop xs n (2 * q + 2))) ∧
  (∀ (s : State) (c : CollRound), Spec.Open s c →
    (({ s with inp := none } : State).mayFail c = true → s.mayEndRound c = true → exec .collRoundFail { s with inp := some (.collRoundFail c.rid) } =
      .next ((({ s with inp := none }).poisonRange c.asid c.dst (c.dstLen (s.collSize c) / 16)).endRound c 1
        (c.flagVal ||| 0x8000000000000000) false)) ∧
    ((c.scope = 4 ∨ (({ s with inp := none } : State).roundData c (s.collSize c) []).1 = none) → ∀ tk, s.task? c.tid = some tk →
      tk.collTmo.toNat / 2 ^ 32 ≠ 0 → c.since + tk.collTmo.toNat / 2 ^ 32 * 5544000 ≤ s.units →
      (∀ x ∈ s.shares c, x.status = none → s.mayEndRound x = true) →
      exec .collRoundTimeout { s with inp := some (.collRoundTimeout c.rid) } =
        .next (((s.shares c).filter fun x => x.status.isNone).foldl (fun s x =>
          (s.poisonRange x.asid x.dst (x.dstLen (s.collSize x) / 16)).endRound x 1 (x.flagVal ||| 0x8000000000000000) true)
          { s with inp := none }))) ∧
  (∀ (s : State) (c : CollRound) (v : Nat) (fl : W64), c.flag = 0 → c.waiters = [] → (∃ x ∈ s.eng.rounds, x.rid = c.rid) →
    ∃ u : State, s.endRound c v fl false = u.tryInject c.tid ∧ u.mem = s.mem ∧ { c with status := some v } ∈ u.eng.rounds)

/-! ### Matching, acceptance and routing of tokens (R98 to R117, R223, R225, R231, R242, R252) -/

namespace Sys2Proof.Spec
open Sys2Proof.Machine

/-- The least frontier of the ports of a rule's list, a port that takes no tokens counting as closed (R104). -/
def leastFront (n : NodeSt) (ks : List Nat) : Nat := ks.foldl (fun f k => min f (n.port k).front) 0xFFFFFFFF
/-- The firing of a token on port A with an entry of port B, which overlap (R101, R105). -/
def pairFiring (c : MatchCfg) (aid node id : Nat) (t : Token) (e : Entry) : Firing :=
  { aid := aid, node := node, lo := max t.lo e.lo, hi := min t.hi e.hi, alo := t.lo, ahi := t.hi,
    fl := (e.operand c 1 (max t.lo e.lo)).2, front := false, a := some t.pay, b := some (e.operand c 1 (max t.lo e.lo)).1, p := none,
    pins := [2 * id, e.id], trig := id, since := 0, again := false, atok := id }
/-- Its latch is empty afterwards. -/
def gone (s : State) (e d : Nat) : State := { s with inp := none, fab := { s.fab with latches := Tab.erase s.fab.latches (e * 8 + d) } }

end Sys2Proof.Spec

/-- R100 to R111, R231: a token whose LO lies below its port's frontier is out of order; the frontier becomes its LO; on a node of ports A
and B every stored entry that overlaps it gives one firing over the intersection, in order of LO; the token is stored while the other
frontier is below its HI, and waits or raises MATCH_FULL when the port is full; firings leave up to the node frontier, and entries
that the other frontier has passed and no firing pins go. Of three copies the voter forwards one of two that agree. -/
def Obligations.MatchingRule : Prop :=
  (∀ (n : NodeSt) (c : MatchCfg) (aid node k id : Nat) (t : Token) (live : List Firing),
    (t.front = false → t.lo < (n.port k).front → n.accept c aid node k id t live = .order (n.port k).front) ∧
    (∀ m, n.accept c aid node k id t live = .done m → k < 3 →
      (m.port k).front = max (n.port k).front t.lo ∧ ∀ j < 3, j ≠ k → (m.port j).front = (n.port j).front)) ∧
  (∀ (n : NodeSt) (c : MatchCfg) (aid node id : Nat) (t : Token) (live : List Firing), c.used = [0, 1] → c.gap 0 = .refuse →
    t.front = false → n.a.front ≤ t.lo → t.lo < t.hi → t.hi ≤ 0xFFFFFFFF →
    (n.b.front < t.hi → c.depth 0 ≤ n.a.ents.length →
      n.accept c aid node 0 id t live = if c.traps 0 then .full (c.depth 0) else .stall) ∧
    ((t.hi ≤ n.b.front ∨ n.a.ents.length < c.depth 0) →
      ∃ m, n.accept c aid node 0 id t live = .done m ∧
        (∀ f, f ∈ m.pend ↔ f ∈ n.pend ∨ ∃ e ∈ n.b.ents, max t.lo e.lo < min t.hi e.hi ∧ f = Spec.pairFiring c aid node id t e) ∧
        ((n.pend.Pairwise fun f g => f.lo ≤ g.lo) → m.pend.Pairwise fun f g => f.lo ≤ g.lo) ∧
        (∀ e, e ∈ m.b.ents ↔ e ∈ n.b.ents ∧ (t.lo < e.hi ∨ ∃ f ∈ m.pend ++ live, e.id ∈ f.pins)) ∧
        (∀ e, e ∈ m.a.ents → e ∈ n.a.ents ∨ e = { id := 2 * id, lo := t.lo, hi := t.hi, pay := t.pay, gap := none }) ∧
        (n.b.front < t.hi → { id := 2 * id, lo := t.lo, hi := t.hi, pay := t.pay, gap := none } ∈ m.a.ents))) ∧
  (∀ (n : NodeSt) (c : MatchCfg), (∀ k ∈ c.used, k < 3) →
    (n.release c true).1 = n.pend.filter (fun f => decide (f.lo ≤ Spec.leastFront n c.used)) ∧
    (n.release c true).2 = { n with pend := n.pend.filter fun f => decide (Spec.leastFront n c.used < f.lo) } ∧
    n.release c false = ([], n)) ∧
  (∀ (x : PortSt) (id cov : Nat) (ak : Pay) (t : Token), x.cover = some cov → x.hold = some ak → max cov x.front < max x.front t.lo →
    x.gapEntry .hold id t = some { id := id, lo := max cov x.front, hi := max x.front t.lo, pay := ak,
                                   gap := some { lerp := false, ak := ak, ak1 := ak, lo := max cov x.front, hi := max x.front t.lo } } ∧
    x.gapEntry .refuse id t = none) ∧
  (∀ x y z : Nat × Token,
    (agree x.2 y.2 = true → decideVote [x, y, z] = some x.2 ∧ decideVote [x, y] = some x.2) ∧
    (agree x.2 y.2 = false → agree x.2 z.2 = true → decideVote [x, y, z] = some x.2) ∧
    (agree x.2 y.2 = false → agree x.2 z.2 = false → agree y.2 z.2 = true → decideVote [x, y, z] = some y.2) ∧
    (agree x.2 y.2 = false → agree x.2 z.2 = false → agree y.2 z.2 = false → decideVote [x, y, z] = none))

/-- R98, R99, R102, R111, R114 to R117, R225: an element that accepts drops a token whose context no task owns, a duplicate, and one whose
tag names no live activation with a frame in it; a token whose context has a full pending list, or whose port has no room, waits in its
latch; any other is matched and its firings join the
ready queue. Routes go X first, then Y; a token moves to the next router or into its target's latch; the first result in an output latch
leaves with its edge's next sequence number, one beat in a cycle. What is read into these rules is log entries 26, 28 and 29. -/
def Obligations.TokensMove : Prop :=
  (∀ (s : State) (e d : Nat) (t : Token) (l : Latched), Spec.Arrives s e d t l → d < 5 →
    ((s.ctx e t.ctx).owner = none → ∃ u : State, exec .tokenAccept { s with inp := some (.tokenAccept e) } = .next u ∧
      Tab.find u.fab.latches (e * 8 + d) = none ∧ u.fab.nodes = s.fab.nodes ∧ u.fab.ctxs = s.fab.ctxs ∧ u.mem = s.mem) ∧
    (∀ tid, (s.ctx e t.ctx).owner = some tid → (s.ctx e t.ctx).armed = false →
      exec .tokenAccept { s with inp := some (.tokenAccept e) } = .next { s with inp := none }) ∧
    (∀ tid, (s.ctx e t.ctx).owner = some tid → (s.ctx e t.ctx).armed = true → s.cutOf tid = none → t.src ≠ 2 ^ 23 →
      (32 ≤ s.pendingIn e t.ctx → exec .tokenAccept { s with inp := some (.tokenAccept e) } = .next (Spec.quiet s)) ∧
      (s.pendingIn e t.ctx < 32 → 1 ≤ (Tab.getD s.fab.seqIn t.src 0 - t.seq).toNat → (Tab.getD s.fab.seqIn t.src 0 - t.seq).toNat ≤ 128 →
        exec .tokenAccept { s with inp := some (.tokenAccept e) } = .next ((Spec.gone s e d).use (busyAccept e))) ∧
      (s.pendingIn e t.ctx < 32 → t.seq = Tab.getD s.fab.seqIn t.src 0 → (∀ aid, s.actFor tid t.ctx t.iter = some aid → s.hasFrame e aid = false) → t.port ≠ .b → ∃ u : State,
        exec .tokenAccept { s with inp := some (.tokenAccept e) } = .next u ∧ Tab.find u.fab.latches (e * 8 + d) = none ∧
        Tab.find u.fab.seqIn t.src = some (t.seq + 1) ∧ u.fab.nodes = s.fab.nodes ∧ u.fab.ctxs = s.fab.ctxs ∧ u.mem = s.mem) ∧
      (∀ aid a opc r tk, t.seq = Tab.getD s.fab.seqIn t.src 0 → s.actFor tid t.ctx t.iter = some aid → s.act? aid = some a →
        s.task? tid = some tk → a.tid = tid → s.recAt e t.ctx t.node = some (opc, r) → opc ≠ 0x0A → opc ≠ 0xE6 →
        s.hasFrame e aid = true → s.pendingIn e t.ctx < 32 →
        ∀ x st c, x = s.ctx e t.ctx → st = s.nodeSt aid e t.node → c = s.matchCfg tk e t.ctx t.node opc r →
        ∀ got, got = st.accept c aid t.node (portNum t.port) s.fab.accepted t
          ((x.ready ++ x.waiting).filter fun f => f.aid == aid && f.node == t.node) →
        (got = .stall → exec .tokenAccept { s with inp := some (.tokenAccept e) } = .next { s with inp := none }) ∧
        (∀ f, got = .order f → exec .tokenAccept { s with inp := some (.tokenAccept e) } =
          .next ((((Spec.gone s e d).raiseAt aid e t.node
            { code := trapEdgeOrder, info := BitVec.ofNat 64 f, port := portNum t.port }).seqTake t).use (busyAccept e))) ∧
        (∀ m, got = .done m → opc ≠ 0xB4 → s.tap.en = false → (m.release c true).1 ≠ [] →
          x.ready.length + (m.release c true).1.length ≤ 16 → x.waiting = [] →
          ∃ u : State, exec .tokenAccept { s with inp := some (.tokenAccept e) } = .next u ∧ u.mem = s.mem ∧ u.tsk = s.tsk ∧
            Tab.find u.fab.latches (e * 8 + d) = none ∧ u.nodeSt aid e t.node = (m.release c true).2 ∧
            u.fab.accepted = s.fab.accepted + 1 ∧ Tab.find u.fab.seqIn t.src = some (t.seq + 1) ∧
            (u.ctx e t.ctx).ready = x.ready ++ (m.release c true).1.map fun f => { f with since := s.cycles })))) ∧
  (∀ e g : Nat, e < 16384 → g < 16384 →
    (wayOut e g = 0 ↔ e = g) ∧ (elemX e < elemX g → wayOut e g = 2) ∧ (elemX g < elemX e → wayOut e g = 4) ∧
    (elemX e = elemX g → elemY e < elemY g → wayOut e g = 3) ∧ (elemX e = elemX g → elemY g < elemY e → wayOut e g = 1) ∧
    (e ≠ g → hops (neighbour e (wayOut e g)) g + 1 = hops e g)) ∧
  (∀ (s : State) (k : Nat) (f : Flit) (out n : Nat), s.fab.net[k]? = some f → f.moved < s.cycles → s.isHead k f = true →
    f.tok.node < 64 → s.canMove f = true → s.turnOf f.at_ (wayOut f.at_ f.target) f.dir = true → out = wayOut f.at_ f.target →
    n = neighbour f.at_ out → ∃ u : State, exec .routerHop { s with inp := some (.routerHop (.flight k)) } = .next u ∧
      u.mem = s.mem ∧ u.tsk = s.tsk ∧
      (n = f.target → u.fab.net = s.fab.net.eraseIdx k ∧
        Tab.find u.fab.latches (n * 8 + sideIn out) = some { tok := f.tok, since := s.cycles }) ∧
      (n ≠ f.target → u.fab.latches = s.fab.latches ∧
        u.fab.net = s.fab.net.eraseIdx k ++ [{ tok := f.tok, at_ := n, dir := sideIn out, target := f.target, moved := s.cycles }])) ∧
  (∀ (s : State) (e c opc target n : Nat) (p : PortName) (r : NodeRec) (l : OutLatch) (b : Beat) (rest : List Beat)
    (a : Act), (s.ctx e c).latch = some l → s.replaying e = false → l.beats = b :: rest → l.waits = false → s.recAt e c l.node = some (opc, r) → r.dst1 = .none →
    b.to0 = true → s.target e c r.dst0 = some (target, n, p) → n < 64 → s.act? l.aid = some a →
    s.canEnter e target c n (edgeSrc e c l.node 0) = true →
    l.readyAt + (if wayOut e target = 0 then 0 else 1) ≤ s.cycles → (∀ n, l.left = some n → n < s.cycles) → s.turnOf e (wayOut e target) 0 = true →
    ∀ tok, tok = { lo := b.lo, hi := b.hi, pay := b.pay, front := b.front, iter := a.iter, ctx := c, node := n, port := p,
                   seq := Tab.getD s.fab.seqOut (edgeSrc e c l.node 0) 0, src := edgeSrc e c l.node 0 } →
    ∃ u : State, exec .routerHop { s with inp := some (.routerHop (.latch e c)) } = .next u ∧ u.mem = s.mem ∧
      (rest = [] → (u.ctx e c).outs = (s.ctx e c).flow) ∧ (rest ≠ [] → (u.ctx e c).latch = some { l with beats := rest, left := some s.cycles }) ∧
      Tab.find u.fab.seqOut (edgeSrc e c l.node 0) = some (tok.seq + 1) ∧
      (neighbour e (wayOut e target) = target →
        Tab.find u.fab.latches (target * 8 + sideIn (wayOut e target)) = some { tok := tok, since := s.cycles }) ∧
      (neighbour e (wayOut e target) ≠ target → u.fab.net = s.fab.net ++
        [{ tok := tok, at_ := neighbour e (wayOut e target), dir := sideIn (wayOut e target), target := target, moved := s.cycles }])) ∧
  (∀ (s : State) (e c : Nat) (l : OutLatch), (s.ctx e c).latch = some l → l.left = some s.cycles →
    exec .routerHop { s with inp := some (.routerHop (.latch e c)) } = .next (Spec.quiet s))

/-! ### The queue scheduler, placement, pre-emption, checkpoints and plane drops (R58, R59, R70 to R91, R145, R325, R434, R435) -/

namespace Sys2Proof.Spec
open Sys2Proof.Machine

/-- What the placer sees at the start of a pass. -/
def passing (s : State) : State := { s with inp := none, sch := { s.sch with lastPass := s.units, passDue := false } }
/-- A pass is due (R74). -/
def PassDue (s : State) : Prop := s.sch.passDue = true ∨ s.sch.lastPass + 100 * 5544000 ≤ s.units
/-- The state in which the end of a task adds at COMPL: the vector of an MSI-X has been read from its queue's descriptor (R59). -/
def ending (s : State) (l : Launch) : State := (s.irqOf l).2
/-- The action of the table of R84. -/
def actionOf (rem gap gapHi drain : Nat) (restartable : Bool) (ran killRun : Nat) : Action :=
  if rem ≠ 0xFFFFFFFF ∧ rem ≤ drain ∧ gap < gapHi then .drain
  else if restartable = true ∧ (gapHi ≤ gap ∨ ran ≤ killRun * 5544000) then .kill
  else .checkpoint

end Sys2Proof.Spec

/-- R58, R70 to R74, R84, R85, R91, R325, R434: one offered launch of the highest priority enters the dispatcher every 100 ns; its
semaphores decide whether it is placeable, or it waits for a peer's answer; once the microcode image is checked a due pass places what has a
site, or decides about victims by the table of R84, which
wait, are killed or cut; a drain that is not over in time is decided again; a quantum runs out; a task that is over adds 1 at COMPL, and
nothing to any other byte, once that may be written, and leaves its region, or is offered again. What is read into these rules is log
entries 7, 25, 36, 37, 46, 47, 61, 74, 85 and 97. -/
def Obligations.SchedulerEvents : Prop :=
  (∀ (s : State) (k : Nat) (l : Launch), s.nextSource = some (k, l) → k < 66 ∧ s.offer k = some l ∧
    ∀ j < 66, ∀ m, s.offer j = some m → m.prio ≤ l.prio ∧
      (m.prio = l.prio → (k + 65 - s.sch.lastSource % 66) % 66 ≤ (j + 65 - s.sch.lastSource % 66) % 66)) ∧
  (∀ (s : State) (k : Nat) (l : Launch), s.sch.lastTick + 554400 ≤ s.units → s.nextSource = some (k, l) →
    (k < 64 → s.mayAdvance (s.slot k).qid.toNat = false →
      exec .dispatchTick { s with inp := some .dispatchTick } = .next (Spec.quiet s)) ∧
    ((k < 64 → s.mayAdvance (s.slot k).qid.toNat = true) → ∃ (u : State) (h : HeldLaunch), exec .dispatchTick { s with inp := some .dispatchTick } = .next (u.semPass h.lid) ∧
      u.sch.held = s.sch.held ++ [h] ∧ h.lid = s.sch.nextLid ∧ h.launch = l ∧ h.placeable = none ∧ h.image = none ∧
      u.sch.lastTick = s.units ∧ u.sch.lastSource = k ∧ u.sch.nextLid = s.sch.nextLid + 1 ∧ u.tsk = s.tsk ∧
      (k < 64 → u.slot k = { s.slot k with offer := none, rd := (s.slot k).rd + 1 + BitVec.ofNat 32 l.ext } ∧
        (Spec.Coherent s.mem → Spec.descWord u (s.slot k).qid.toNat 16 4 = ((s.slot k).rd + 1 + BitVec.ofNat 32 l.ext).toNat)) ∧
      (k = 64 → u.que.rackOffer = none ∧ u.mem = s.mem) ∧ (k = 65 → u.que.ethOffer = none ∧ u.que.ethRing = s.que.ethRing.drop 1))) ∧
  (∀ s : State, (s.units < s.sch.lastTick + 554400 → exec .dispatchTick { s with inp := some .dispatchTick } = .next (Spec.quiet s)) ∧
    (s.sch.lastTick + 554400 ≤ s.units → s.nextSource = none → exec .dispatchTick { s with inp := some .dispatchTick } =
      .next { Spec.quiet s with sch := { s.sch with lastTick := s.units } })) ∧
  (∀ (s : State) (h : HeldLaunch), s.held? h.lid = some h →
    ((h.dirty = true ∨ h.lastRead + 100 * 5544000 ≤ s.units) →
      exec .semaphoreRead { s with inp := some (.semaphoreRead h.lid) } = .next (({ s with inp := none }).semPass h.lid)) ∧
    (h.dirty = false → s.units < h.lastRead + 100 * 5544000 →
      exec .semaphoreRead { s with inp := some (.semaphoreRead h.lid) } = .next { s with inp := none }) ∧
    (h.placeable = none → ∀ s1,
      (s.readSems h.lid h.launch (List.range h.launch.nsem) = (.bad, s1) → s.semPass h.lid =
        if s1.launchReady h.launch then s1.failHeld h 8 else s1.setHeld { h with lastRead := s1.units, dirty := true }) ∧
      (s.readSems h.lid h.launch (List.range h.launch.nsem) = (.waits, s1) →
        s.semPass h.lid = s1.setHeld { h with lastRead := s1.units, dirty := true }) ∧
      (∀ ok, s.readSems h.lid h.launch (List.range h.launch.nsem) = (.read ok, s1) → s.semPass h.lid =
        (s1.dropFetches (.launch h.lid)).setHeld { h with placeable := if ok then some s1.units else none, lastRead := s1.units, dirty := false }))) ∧
  (∀ (s s1 : State) (lid : Nat) (l : Launch) (i : Nat) (rest : List Nat) (y : Rd), s.readVa (.launch lid) l.asid (l.semAddr i) 8 = (y, s1) →
    (∀ bs b s2, y = .ok bs none → s1.readSems lid l rest = (.read b, s2) →
      s.readSems lid l (i :: rest) = (.read (b && decide (l.semMin i ≤ Sys2Proof.ofBytes bs)), s2)) ∧
    ((∃ t, y = .fault t) ∨ (∃ bs src, y = .ok bs (some src)) → s.readSems lid l (i :: rest) = (.bad, s1))) ∧
  (∀ s : State, Spec.PassDue s →
    (s.sch.placeEn = false ∨ s.boot.microOk = false → exec .placerPass { s with inp := some .placerPass } = .next (Spec.passing s).renew) ∧
    (s.sch.placeEn = true → s.boot.microOk = true → ∀ h, s.sch.held.filter (fun x => x.placeable.isSome) = [h] →
      (∀ s1, (Spec.passing s).tryPlace h = some s1 → exec .placerPass { s with inp := some .placerPass } = .next s1.renew) ∧
      ((Spec.passing s).tryPlace h = none →
        ((s.drainUnderWay = true ∨ ∀ x ∈ s.tsk.tasks, s.launchTokens h ≤ x.2.tokens) →
          exec .placerPass { s with inp := some .placerPass } = .next (Spec.passing s).renew) ∧
        (s.drainUnderWay = false → (∃ x ∈ s.tsk.tasks, x.2.tokens < s.launchTokens h) →
          exec .placerPass { s with inp := some .placerPass } = .next (((Spec.passing s).victims h).foldl (fun s tid =>
            s.preempt tid h.lid h.launch.prio true) (Spec.passing s)).renew)))) ∧
  (∀ s : State, ¬ Spec.PassDue s → exec .placerPass { s with inp := some .placerPass } = .next { s with inp := none }) ∧
  (∀ (s : State) (lid ox oy c : Nat) (p : Plane), s.findSite lid p [p] = some (ox, oy, [c]) →
    s.siteOk p [p] ox oy = true ∧ s.ctxFree lid p ox oy c = true ∧
    ∀ ox' < 16, ∀ oy' < 16, ∀ c' < 4, s.siteOk p [p] ox' oy' = true → s.ctxFree lid p ox' oy' c' = true →
      p.crossings ox oy < p.crossings ox' oy' ∨ p.crossings ox oy = p.crossings ox' oy' ∧
        (c < c' ∨ c = c' ∧ (oy < oy' ∨ oy = oy' ∧ ox ≤ ox'))) ∧
  (∀ (s : State) (tid lid prio : Nat) (t : Task), s.task? tid = some t → s.retires tid = false →
    ∀ act, act = Spec.actionOf (s.remDecided t).toNat (prio - t.prio) (max 1 s.sch.gapHi.toNat) s.sch.drain.toNat t.launch.restartable
      (s.units - t.placedAt) s.sch.killRun.toNat →
    (act = .drain → ∃ u : State, s.preempt tid lid prio true = u ∧ u.mem = s.mem ∧ u.fab = s.fab ∧
      u.task? tid = some { t with phase := .draining (some (s.units + max (2 * (s.remDecided t).toNat) 100 * 5544000)) lid }) ∧
    (act = .kill → s.preempt tid lid prio true = s.killFor tid) ∧
    (act = .checkpoint → s.factoring tid t = false → s.preempt tid lid prio true =
      if s.sch.saveMib = 0 then s.ckFails tid else s.startCut tid)) ∧
  (∀ (s : State) (tid : Nat) (t : Task) (d : Nat) (lid : Nat) (h : HeldLaunch), s.task? tid = some t → t.phase = .draining (some d) lid →
    s.held? lid = some h →
    (s.units < d → exec .drainTimeout { s with inp := some (.drainTimeout tid) } = .next { s with inp := none }) ∧
    (d ≤ s.units → ∃ u : State, exec .drainTimeout { s with inp := some (.drainTimeout tid) } =
        .next (u.preempt tid lid h.launch.prio false) ∧ u.task? tid = some { t with phase := .running } ∧ u.mem = s.mem ∧
        ∀ r ∈ u.sch.reserved, r.tid ≠ tid)) ∧
  (∀ (s : State) (tid : Nat) (t : Task), s.task? tid = some t →
    (t.past = false → t.quantumAt + s.sch.quantum.toNat * 5544000 ≤ s.units →
      ∃ u : State, exec .quantumExpiry { s with inp := some (.quantumExpiry tid) } = .next u ∧
        u.task? tid = some { t with past := true } ∧ u.mem = s.mem ∧ u.sch = s.sch) ∧
    ((t.past = true ∨ s.units < t.quantumAt + s.sch.quantum.toNat * 5544000) →
      exec .quantumExpiry { s with inp := some (.quantumExpiry tid) } = .next { s with inp := none })) ∧
  (∀ (s : State) (tid : Nat) (t : Task), s.task? tid = some t → s.tsk.tasks.Pairwise (fun x y => x.1 < y.1) →
    (t.halting = false → (Spec.quiet s).retires tid = true → ∀ q t', q = (Spec.quiet s).quiesce tid → q.task? tid = some t' →
      ∃ u : State, exec .taskRetire { s with inp := some (.taskRetire tid) } = .next u ∧ (∀ x ∈ u.tsk.threads, x.2.tid ≠ tid) ∧
        (q.owesWrites tid t' = true → (u.task? tid).map (·.phase) = some (.halting complOk evRetired) ∧ Spec.SameBytes s.mem u.mem) ∧
        (q.owesWrites tid t' = false → u.task? tid = none ∧
          (∀ x ∈ u.tsk.acts, x.2.tid ≠ tid) ∧ (∀ x ∈ u.fab.ctxs, x.2.owner ≠ some tid) ∧
          (t.launch.rack = false → Spec.Coherent s.mem → (t.launch.compl = 0 → Spec.SameBytes s.mem u.mem) ∧
            (t.launch.compl ≠ 0 → Spec.AddsWord (Spec.ending q t.launch) u t.launch.asid t.launch.compl 1)))) ∧
    (t.halting = false → ({ s with inp := none } : State).retires tid = false →
      exec .taskRetire { s with inp := some (.taskRetire tid) } = .next { s with inp := none }) ∧
    (∀ v event, t.phase = .halting v event →
      (s.owesWrites tid t = true → exec .taskRetire { s with inp := some (.taskRetire tid) } = .next { s with inp := none }) ∧
      (s.owesWrites tid t = false → ∃ u : State, exec .taskRetire { s with inp := some (.taskRetire tid) } = .next u ∧
        u.task? tid = none ∧ (∀ x ∈ u.tsk.acts, x.2.tid ≠ tid) ∧ (∀ x ∈ u.fab.ctxs, x.2.owner ≠ some tid) ∧
        (v = 0 → ∃ h ∈ u.sch.held, h.launch = t.launch) ∧
        (t.launch.rack = false → Spec.Coherent s.mem → (v = 0 ∨ t.launch.compl = 0 → Spec.SameBytes s.mem u.mem) ∧
          (v ≠ 0 → t.launch.compl ≠ 0 → Spec.AddsWord (Spec.ending (Spec.quiet s) t.launch) u t.launch.asid t.launch.compl v)))))

/-- R80, R86 to R89, R258, R260, R435: a marker that no token precedes marks its edge and its consumer records; a stuck output is
injected, which marks all its edges; once every edge is marked the image takes room in the pool and the victim re-enters the
dispatcher; the plane of a thread's next block drops into a free or the least used context, or, unarmed, ends its task; a branch
past the plane's blocks, and a launch whose entry is, is an arming failure. What is read into these rules or chosen is log entries 35, 43,
44, 61 and 62. -/
def Obligations.CutAndDropEvents : Prop :=
  (∀ (s : State) (k tid src key : Nat), s.flyingMarkers[k]? = some (tid, src, key) → s.tsk.tasks.Pairwise (fun x y => x.1 < y.1) →
    (s.edgeClear src = false → exec .markerArrive { s with inp := some (.markerArrive k) } = .next { s with inp := none }) ∧
    (s.edgeClear src = true → ∃ (t : State) (c : Cut), exec .markerArrive { s with inp := some (.markerArrive k) } = .next t ∧
      t.cutOf tid = some c ∧ src ∈ c.marked ∧ key ∈ c.frozen ∧ (∀ x ∈ c.markers, x.1 ≠ src) ∧ t.mem = s.mem)) ∧
  (∀ (s : State) (e c tid n : Nat) (k : Cut), (s.ctx e c).owner = some tid → s.cutOf tid = some k → s.stuckNode k e c = some n →
    ∃ (t : State) (k' : Cut), exec .markerLatchInject { s with inp := some (.markerLatchInject e c) } = .next t ∧ t.cutOf tid = some k' ∧
      (∀ x ∈ s.nodeEdges e c n, x.1 ∈ k'.marked ∧ x.2 ∈ k'.frozen) ∧ t.mem = s.mem ∧
      ∀ l ∈ (t.ctx e c).outs, l.node = n → l.waits = true) ∧
  (∀ (s : State) (tid : Nat) (t : Task) (k : Cut), s.task? tid = some t → t.phase = .cutting k →
    s.tsk.tasks.Pairwise (fun x y => x.1 < y.1) →
    (({ s with inp := none } : State).cutDone tid t k = false →
      exec .checkpointSave { s with inp := some (.checkpointSave tid) } = .next { s with inp := none }) ∧
    (({ s with inp := none } : State).cutDone tid t k = true → ∃ (v len : Nat), len = 64 + t.launch.bytes.length + 64 * v ∧
      (s.poolFit ((len + 65535) / 65536) = none →
        ∃ u : State, exec .checkpointSave { s with inp := some (.checkpointSave tid) } = .next (u.ckFails tid) ∧ u.mem = s.mem ∧
          u.tsk = s.tsk) ∧
      (∀ base, s.poolFit ((len + 65535) / 65536) = some base → s.poolOk base len = true → s.rangeFree base len = false →
        exec .checkpointSave { s with inp := some (.checkpointSave tid) } = .next (Spec.quiet s)) ∧
      (∀ base, s.poolFit ((len + 65535) / 65536) = some base → s.poolOk base len = true → s.rangeFree base len = true →
        ∃ (u : State) (h : HeldLaunch) (img : Saved), exec .checkpointSave { s with inp := some (.checkpointSave tid) } = .next u ∧
          u.task? tid = none ∧ (∀ x ∈ u.fab.ctxs, x.2.owner ≠ some tid) ∧ u.sch.held = s.sch.held ++ [h] ∧ h.launch = t.launch ∧
          h.placeable = some s.units ∧ h.image = some img ∧ img.base = base ∧ img.tid = tid ∧ img.task = t ∧ img.rem = s.remOf t ∧
          (∀ x ∈ s.tsk.threads, x.2.tid = tid → x.1 ∈ img.threads.map (·.1)) ∧
          u.sch.ckpts.toNat = min 0xFFFF (s.sch.ckpts.toNat + 1) ∧
          (Spec.Coherent s.mem → t.launch.rack = false → Sys2Proof.ofBytes ((List.range 4).map fun j => Spec.byteAt u.mem (base + j)) = 0x53415645 ∧
            ∀ j < t.launch.bytes.length, Spec.byteAt u.mem (base + 64 + j) = t.launch.bytes.getD j 0)))) ∧
  (∀ (s s1 : State) (n num block : Nat) (th0 th : Thread) (t : Task), s.thread? n = some th0 →
    s1 = ({ s with inp := none }).reap th0.tid → s1.thread? n = some th → th.tid = th0.tid → s1.task? th.tid = some t →
    th.next = some (num, block) → t.starts = true → s.boot.microOk = true → (∀ r ∈ t.planes, r.plane ≠ num) →
    ((∀ pl, s1.plane? num = some pl → pl.nblk ≤ block) →
      exec .planeDrop { s with inp := some (.planeDrop n) } = .next (s1.badBranch th.tid num block)) ∧
    (∀ pl c r t' old s3, s1.plane? num = some pl → block < pl.nblk → s1.dropSite th.tid t pl = some (c, r) → s1.dropWaits n = [] →
      t' = (r.map t.evict).getD t → old = r.map (fun r => r.table) →
      s3 = (r.map (s1.stashTrees th.tid)).getD s1 →
      (∀ s2, (s3.setTask th.tid t').dropPlane th.tid t' pl num c old (some t.launch.argc) = (none, s2) →
        exec .planeDrop { s with inp := some (.planeDrop n) } = .next s2) ∧
      (∀ f s2, (s3.setTask th.tid t').dropPlane th.tid t' pl num c old (some t.launch.argc) = (some f, s2) →
        exec .planeDrop { s with inp := some (.planeDrop n) } = .next ((s2.removePlane num).endTask th.tid complBad 4)))) ∧
  (∀ (s : State) (tid c : Nat) (t : Task) (pl : Plane) (r : Resident), s.dropSite tid t pl = some (c, some r) →
    r ∈ t.planes ∧ r.ctx = c ∧ s.idle tid r = true ∧
    ∀ r' ∈ t.planes, s.idle tid r' = true → s.fitsIn t pl (some r'.ctx) = true → r.used ≤ r'.used) ∧
  (∀ (s s2 : State) (tid num c : Nat) (t : Task) (pl : Plane), s.dropPlane tid t pl num c none none = (none, s2) → c < 4 →
    t.elems.Nodup → Tab.wf 0 s.fab.store = true → pl.secCnt 1 = 0 → Tab.find t.logs num = none →
    ∀ i e, t.elems[i]? = some e → (pl.image i 0 1024).length = 1024 →
      (∀ j < 1024, Tab.getD s2.fab.store (e * 4096 + c * 1024 + j) 0 = (pl.image i 0 1024).getD j 0) ∧
      s2.ctx e c = { CtxSt.new with owner := some tid, plane := num, armed := true }) ∧
  (∀ (s : State) (tid num c : Nat) (t : Task) (pl : Plane), pl.fitsRegion t = false →
    ∃ (f : ArmFail) (u : State), s.dropPlane tid t pl num c none none = (some f, u.armReport num f) ∧ f.code = 9) ∧
  (∀ (s : State) (h : HeldLaunch) (p : Plane) (ox oy c : Nat), p.nblk ≤ h.launch.entry → ∃ f : ArmFail,
    s.placeFresh h p ox oy c = ((s.armReport h.launch.plane f).removePlane h.launch.plane).placeFails h 2 ∧ f.code = 9 ∧
      f.elem = elemAt (8 * ox) (8 * oy) ∧ f.index = h.launch.entry) ∧
  (∀ (s : State) (h : HeldLaunch), s.plane? h.launch.plane = none → ∃ f : ArmFail,
    s.place h = some (((s.armReport h.launch.plane f).removePlane h.launch.plane).placeFails h 2) ∧ f.code = 9)

/-! ### Probes, errors of elements, heat and power (R16 to R25, R118 to R120, R138, R219 to R227) -/

namespace Sys2Proof.Spec
open Sys2Proof.Machine

/-- The neighbours of a sensor that a sample judges it by: those not already marked failed (R16, R17). -/
def judges (t : Thermal) (i : Nat) : List Nat :=
  (sensorNeighbours i).filter fun k => !(Tab.getD t.sens k .reset).failed
/-- A probe of `origin` sent by the unit `u` along the edge to `e`, one hop of the fabric in a cycle (R119). -/
def probeOn (s : State) (origin u e : Nat) (path : List W32) : Probe :=
  { origin := BitVec.ofNat 32 origin, goal := BitVec.ofNat 32 e, path := path,
    due := s.cycles + if u < 2 ^ 29 ∧ e < 2 ^ 29 then max 1 (hops (u / 4) (e / 4)) else 1 }
/-- A sensor's reading in a sample. -/
def readingOf (t : Thermal) (readings : List (Nat × Int)) (i : Nat) : Int :=
  match (readings.find? fun x => x.1 == i).map (·.2) with
  | some r => r
  | none => (Tab.getD t.sens i .reset).raw

/-- A fabric sensor's report has reached TRIP since the last period, or does now (R21). -/
def Trips (s u : State) : Prop :=
  u.thm.tripped = true ↔ s.thm.tripped = true ∨ ∃ i ∈ fabricSensors, (u.thm.trip.toNat : Int) * 16 ≤ (Tab.getD u.thm.sens i .reset).temp.toInt

end Sys2Proof.Spec

/-- R118 to R120, R219 to R227: a unit that has been blocked for the delay, in cycles in which its element does not replay, sends probes
along its wait-for edges, one hop in a cycle; one that comes back raises DEADLOCK
at its origin, the lowest that sends probes, others go on but at a lower unit whose own probe is on its way. An element counts its errors in a window, replays after an
uncorrectable one, moves to its bed's idle spare after a lasting fault, and leaves service where no spare can take it, with ELEM_LOST for
every task that holds a context in it. Replay puts a node and its context's generator back to before its oldest token and accepts the
history again. What is read into these rules or chosen is log entries 48, 49 and 50. -/
def Obligations.ProbeAndErrorEvents : Prop :=
  (∀ (s : State) (u : Nat), Tab.getD s.noteBlocked.err.blockedFor u 0 =
    if u ∈ s.waitUnits ∧ (s.blocked u).isSome = true then
      Tab.getD s.err.blockedFor u 0 + (if u < 2 ^ 29 ∧ (s.elemErr (u / 4)).replay = true then 0 else 1) else 0) ∧
  (∀ (s : State) (u : W32),
    ((Spec.quiet s).blocked u.toNat = none → exec .probeSend { s with inp := some (.probeSend u) } = .next (Spec.quiet s)) ∧
    (∀ b, (Spec.quiet s).blocked u.toNat = some b →
      ((b.sends = false ∨ (Spec.quiet s).deadlocked b = true ∨ Tab.getD s.err.blockedFor u.toNat 0 < max 256 s.err.delay.toNat) →
        exec .probeSend { s with inp := some (.probeSend u) } = .next (Spec.quiet s)) ∧
      (b.sends = true → (Spec.quiet s).deadlocked b = false → max 256 s.err.delay.toNat ≤ Tab.getD s.err.blockedFor u.toNat 0 →
        exec .probeSend { s with inp := some (.probeSend u) } = .next { s with
          inp := none
          err := { s.err with blockedFor := Tab.set s.err.blockedFor u.toNat 0
                              probes := s.err.probes ++ b.edges.map fun e => Spec.probeOn s u.toNat u.toNat e [u] } }))) ∧
  (∀ (s s1 : State) (k : Nat) (p : Probe), s.err.probes[k]? = some p →
    s1 = { s with inp := none, err := { s.err with probes := listDrop s.err.probes k } } →
    (s.cycles < p.due → exec .probeArrive { s with inp := some (.probeArrive k) } = .next (Spec.quiet s)) ∧
    (p.due ≤ s.cycles → s1.blocked p.goal.toNat = none → exec .probeArrive { s with inp := some (.probeArrive k) } = .next s1) ∧
    (p.due ≤ s.cycles → ∀ b, s1.blocked p.goal.toNat = some b →
      (p.goal = p.origin → (∃ u ∈ p.path, u.toNat < p.origin.toNat ∧ ∃ b', s1.blocked u.toNat = some b' ∧ b'.sends = true) →
        exec .probeArrive { s with inp := some (.probeArrive k) } = .next s1) ∧
      (p.goal = p.origin → (∀ u ∈ p.path, u.toNat < p.origin.toNat → ∀ b', s1.blocked u.toNat = some b' → b'.sends = false) →
        ∀ aid e n, b.at_ = some (aid, e, n) → ∃ u : State, exec .probeArrive { s with inp := some (.probeArrive k) } =
          .next (u.raiseAt aid e n { code := trapDeadlock, info := BitVec.ofNat 64 p.path.length, path := p.path.take 16 }) ∧
        u.tsk = s.tsk ∧ u.mem = s.mem ∧ u.err.deadlocks.toNat = min 0xFFFFFFFF (s.err.deadlocks.toNat + 1)) ∧
      (p.goal ≠ p.origin → (∃ q ∈ s.err.probes, q.origin = p.goal) → p.goal.toNat < p.origin.toNat →
        exec .probeArrive { s with inp := some (.probeArrive k) } = .next s1) ∧
      (p.goal ≠ p.origin → ((∀ q ∈ s.err.probes, q.origin ≠ p.goal) ∨ p.origin.toNat ≤ p.goal.toNat) → ∃ u : State,
        exec .probeArrive { s with inp := some (.probeArrive k) } = .next u ∧ u.tsk = s.tsk ∧ u.mem = s.mem ∧
        u.err.probes = s1.err.probes ++ b.edges.map fun e => Spec.probeOn s p.origin.toNat p.goal.toNat e (p.path ++ [p.goal])))) ∧
  (∀ (s : State) (e : Nat) (x : ElemErr), e < 16384 → x = s.elemErr e →
    (x.lasting = false → ({ s with inp := none } : State).countElem e false = ({ s with inp := none } : State).setElemErr e
        { x with corr := s.window x.corr, lasting := s.lasting (s.window (sortBy (fun a b => decide (a ≤ b)) (x.corr ++ x.uncorr))) } ∧
      (s.lasting (s.window (sortBy (fun a b => decide (a ≤ b)) (x.corr ++ x.uncorr))) = false →
        exec .elementErrorEvent { s with inp := some (.elementErrorEvent e .corrected) } =
          .next (({ s with inp := none } : State).countElem e false) ∧
        ∃ u : State, exec .elementErrorEvent { s with inp := some (.elementErrorEvent e .uncorrected) } = .next u ∧ u.mem = s.mem ∧
          u.tsk = s.tsk ∧ u.elemErr e = { x with uncorr := s.window x.uncorr, replay := true })) ∧
    (x.replay = false → exec .elementReplay { s with inp := some (.elementReplay e) } = .next { s with inp := none }) ∧
    (x.replay = true → s.tap.en = false → ∃ u : State, exec .elementReplay { s with inp := some (.elementReplay e) } = .next u ∧
      u.mem = s.mem ∧ u.elemErr e = { x with replay := false } ∧ u.fab.hist = s.fab.hist ∧ u.fab.accepted = s.fab.accepted ∧
      u.fab.seqIn = s.fab.seqIn ∧ (Tab.getD s.fab.hist e [] = [] → u.fab.nodes = s.fab.nodes ∧ u.tsk = s.tsk) ∧
      (∀ h, Tab.getD s.fab.hist e [] = [h] → h.tok.ctx < 4 → (u.ctx e h.tok.ctx).gen = h.gen) ∧
      ∀ h a tk opc r, Tab.getD s.fab.hist e [] = [h] → s.act? h.aid = some a → a.dead = false → s.task? a.tid = some tk →
        s.cutOf a.tid = none → h.tok.node < 64 → s.recAt e h.tok.ctx h.tok.node = some (opc, r) → a.ctx = h.tok.ctx →
        opc ∉ [0x0A, 0xE6, 0xB4] → ∀ c m live, c = s.matchCfg tk e h.tok.ctx h.tok.node opc r →
        live = (((s.ctx e h.tok.ctx).ready ++ (s.ctx e h.tok.ctx).waiting).filter fun f =>
          f.aid == h.aid && f.node == h.tok.node && (decide (f.trig < h.num) && !h.before.pend.any f.same)) →
        h.before.accept { c with depth := fun _ => 2 ^ 16 } h.aid h.tok.node (portNum h.tok.port) h.num h.tok live = .done m →
        (m.release c true).1 ≠ [] → u.tsk = s.tsk ∧ u.nodeSt h.aid e h.tok.node = (m.release c true).2 ∧
          ∀ f, ((m.release c true).1.map fun f => { f with since := s.cycles }).contains f = true ∨ f ∈ live →
            f ∈ (u.ctx e h.tok.ctx).ready ++ (u.ctx e h.tok.ctx).waiting) ∧
    (x.lasting = true → x.out = false → (s.spare (bedOf e)).1 = 0 → ∃ u : State,
      exec .elementSparing { s with inp := some (.elementSparing e []) } = .next u ∧ u.mem = s.mem ∧ u.tsk = s.tsk ∧
        u.elemErr e = { x with spared := true, lasting := false } ∧
        u.spare (bedOf e) = (1, BitVec.ofNat 6 (e / 64 % 8 * 8 + e % 8)) ∧ u.err.sparings.toNat = min 0xFFFF (s.err.sparings.toNat + 1)) ∧
    (x.lasting = true → x.out = false → (s.spare (bedOf e)).1 ≠ 0 → ∃ u : State,
      exec .elementSparing { s with inp := some (.elementSparing e []) } = .next u ∧ (u.elemErr e).out = true ∧
        u.err.lost.toNat = min 0xFF (s.err.lost.toNat + 1) ∧
        ∀ c < 4, ∀ tid, (s.ctx e c).owner = some tid →
          ∃ r ∈ u.tsk.lodgeQueue, r.code = 31 ∧ r.tid = tid ∧ r.info = BitVec.ofNat 64 e) ∧
    ((x.lasting = false ∨ x.out = true) →
      exec .elementSparing { s with inp := some (.elementSparing e []) } = .next { s with inp := none }))

/-- R16 to R25: each of the forms thermSample, bankThermalRetire, thermSensFailedClear, thermLimWrite, pwrCapWrite, pwrWinWrite,
powerSample, powerPeriod and powerOverDeadline completes. A sample takes the readings, fails a sensor that is out of range or four times in a row far from its neighbours, and
reports its own reading or, failed, that of its hottest neighbour plus 5 degrees; banks at RETIRE for 100 samples are retired. The
limits, caps and windows written are clamped; a report that reaches TRIP by whatever cause trips; a power sample gives the mean of its window; each period takes the first action of the
capping table; a millisecond over the cap sets OVF. What is read into these rules or chosen is log entries 76 and 77. -/
def Obligations.HeatAndPowerEvents : Prop :=
  (∀ (s : State) (readings : List (Nat × Int)) (outOf : List Nat) (outer : List (Nat × Int)), s.thm.sampleAt + 100 * 5544000 ≤ s.units →
    ∃ u : State, exec .thermSample { s with inp := some (.thermSample readings outOf outer) } = .next u ∧ u.pow = s.pow ∧ u.mem = s.mem ∧
      u.thm.sampleAt = s.units ∧ u.thm.retire = s.thm.retire ∧
      (∀ i < 1792, ∀ x y, x = Tab.getD s.thm.sens i .reset → y = Tab.getD u.thm.sens i .reset →
        y.raw = Spec.readingOf s.thm readings i ∧
        (i ∈ outOf → y.failed = true) ∧ (i ∉ outOf → x.failed = true → y.failed = true) ∧
        (i ∉ outOf → x.failed = false →
          ∀ c, c = candidate y.raw ((Spec.judges s.thm i).map (Spec.readingOf s.thm readings)) →
            (c = false → y.failed = false ∧ y.cand = false ∧ y.candN = 0) ∧
            (c = true → x.candN ≠ 3 → y.failed = false ∧ y.cand = true ∧ y.candN = x.candN + 1) ∧
            (c = true → x.candN = 3 → y.failed = true)) ∧
        (y.failed = false → y.temp = BitVec.ofInt 16 y.raw) ∧
        (∀ k, y.failed = true → k ∈ sensorNeighbours i → (Tab.getD u.thm.sens k .reset).failed = false →
          (∀ j ∈ sensorNeighbours i, (Tab.getD u.thm.sens j .reset).failed = false →
            (Tab.getD u.thm.sens j .reset).raw ≤ (Tab.getD u.thm.sens k .reset).raw) →
          y.temp = BitVec.ofInt 16 ((Tab.getD u.thm.sens k .reset).raw + 80)) ∧
        (y.failed = true → (∀ k ∈ sensorNeighbours i, (Tab.getD u.thm.sens k .reset).failed = true) → y.temp = BitVec.ofInt 16 (125 * 16))) ∧
      u.thm.trip = s.thm.trip ∧ Spec.Trips s u) ∧
  (∀ (s : State) (readings : List (Nat × Int)) (outOf : List Nat) (outer : List (Nat × Int)), s.units < s.thm.sampleAt + 100 * 5544000 →
    exec .thermSample { s with inp := some (.thermSample readings outOf outer) } = .next { s with inp := none }) ∧
  (∀ (s : State) (i : Nat) (bits : BitVec 64) (bed : Nat), i < 1792 → 3 ≤ i % 448 / 64 → bed = i / 448 * 64 + i % 64 →
    bits = BitVec.ofNat 64 (0xFFFF * 2 ^ (16 * (i % 448 / 64 - 3))) →
    (100 ≤ (Tab.getD s.thm.sens i .reset).hot → Tab.getD s.mem.bankTherm bed 0 &&& bits ≠ bits →
      ∃ u : State, exec .bankThermalRetire { s with inp := some (.bankThermalRetire i) } = .next u ∧
        Tab.getD u.mem.bankMap bed 0 = Tab.getD s.mem.bankMap bed 0 ||| bits ∧ u.thm.lodgeIrq = s.thm.lodgeIrq ++ [i] ∧
        Tab.getD u.mem.bankTherm bed 0 = Tab.getD s.mem.bankTherm bed 0 ||| bits ∧ u.mem.main = s.mem.main) ∧
    ((Tab.getD s.thm.sens i .reset).hot < 100 →
      exec .bankThermalRetire { s with inp := some (.bankThermalRetire i) } = .next { s with inp := none })) ∧
  (∀ (s : State) (i : Nat) (x : Sensor), i < 1792 → s.boot.state ≠ 3 → x = Tab.getD s.thm.sens i .reset → x.failed = true →
    ∃ u : State, exec .thermSensFailedClear { s with inp := some (.thermSensFailedClear i) } = .next u ∧
      Tab.getD u.thm.sens i .reset = { x with failed := false, cand := false, candN := 0, temp := BitVec.ofInt 16 x.raw } ∧
      (∀ k, k ≠ i → (Tab.getD u.thm.sens k .reset).failed = (Tab.getD s.thm.sens k .reset).failed ∧
        (Tab.getD u.thm.sens k .reset).raw = (Tab.getD s.thm.sens k .reset).raw) ∧ u.mem = s.mem ∧ u.pow = s.pow ∧ Spec.Trips s u) ∧
  (∀ (s : State) (i : Nat), i < 1792 → s.boot.state ≠ 3 → (Tab.getD s.thm.sens i .reset).failed = false →
    exec .thermSensFailedClear { s with inp := some (.thermSensFailedClear i) } = .next { s with inp := none }) ∧
  (∀ (s : State) (v : W32), ∃ u : State, exec .thermLimWrite { s with inp := some (.thermLimWrite v) } = .next u ∧
    u.thm.resume.toNat = v.toNat / 2 ^ 8 % 2 ^ 8 ∧ u.thm.trip.toNat = v.toNat / 2 ^ 16 % 2 ^ 8 ∧
    (v.toNat / 2 ^ 8 % 2 ^ 8 ≤ 250 → u.thm.retire.toNat = max (v.toNat % 2 ^ 8) (v.toNat / 2 ^ 8 % 2 ^ 8 + 5)) ∧ u.thm.sens = s.thm.sens ∧ u.pow = s.pow ∧
    Spec.Trips s u) ∧
  (∀ (s : State) (a : Agent) (v : W32), s.boot.state ≠ 3 → a ≠ .lodge → ∃ u : State,
    exec .pwrCapWrite { s with inp := some (.pwrCapWrite a v) } = .next u ∧ u.pow.cap = s.pow.cap ∧ u.thm = s.thm ∧
    (a = .host → u.pow.capPcie = s.pow.capPcie ++ [v] ∧ u.pow.capEth = s.pow.capEth) ∧
    (a = .rack → u.pow.capPcie = s.pow.capPcie ∧
      u.pow.capEth = if (s.lnk.ethFor 0).isSome then s.pow.capEth ++ [v] else s.pow.capEth)) ∧
  (∀ (s : State) (v : W32), s.boot.state ≠ 3 → ∃ u : State, exec .pwrWinWrite { s with inp := some (.pwrWinWrite v) } = .next u ∧
    u.pow.win.toNat = min 1000000 (max 100 (v.toNat % 2 ^ 20)) ∧ u.pow.samples = s.pow.samples.take 1 ∧ u.pow.avg = s.pow.inst ∧
    u.pow.clamp = (s.pow.clamp || decide (v.toNat % 2 ^ 20 < 100 ∨ 1000000 < v.toNat % 2 ^ 20)) ∧ u.pow.cap = s.pow.cap) ∧
  (∀ (s : State) (watts : Nat), s.pow.sampleAt + 10 * 5544000 ≤ s.units → watts < 65536 → 1 ≤ s.pow.win.toNat →
    ∃ u : State, exec .powerSample { s with inp := some (.powerSample watts) } = .next u ∧ u.pow.inst.toNat = watts ∧
      u.pow.sampleAt = s.units ∧ u.pow.capPcie = [] ∧ u.pow.capEth = [] ∧
      u.pow.samples = (watts :: s.pow.samples).take ((s.pow.win.toNat + 9) / 10) ∧
      ((∀ w ∈ s.pow.samples, w < 65536) → u.pow.avg.toNat * u.pow.samples.length ≤ u.pow.samples.sum + (u.pow.samples.length - 1) ∧
        u.pow.samples.sum ≤ u.pow.avg.toNat * u.pow.samples.length + (u.pow.samples.length - 1)) ∧
      (∀ v ws, s.pow.capPcie ++ s.pow.capEth = ws ++ [v] → u.pow.cap.toNat = min 4000 (max 1500 (v.toNat % 2 ^ 16))) ∧
      (s.pow.capPcie = [] → s.pow.capEth = [] → u.pow.cap = s.pow.cap) ∧
      (u.pow.clamp = true ↔ s.pow.clamp = true ∨ ∃ v ∈ s.pow.capPcie ++ s.pow.capEth, v.toNat % 2 ^ 16 < 1500 ∨ 4000 < v.toNat % 2 ^ 16) ∧
      (u.pow.overSince = none ↔ watts ≤ u.pow.cap.toNat)) ∧
  (∀ (s : State) (watts : Nat), s.units < s.pow.sampleAt + 10 * 5544000 →
    exec .powerSample { s with inp := some (.powerSample watts) } = .next { s with inp := none }) ∧
  (∀ (s : State) (p : Power), s.pow.periodAt + 100 * 5544000 ≤ s.units →
    (s.thm.tripped = true → p = { s.pow with therm := true }) →
    (s.thm.tripped = false → (∀ i ∈ fabricSensors, (Tab.getD s.thm.sens i .reset).temp.toInt ≤ ((s.thm.trip.toNat : Int) - 10) * 16) →
      p = { s.pow with therm := false }) →
    (s.thm.tripped = false → (∃ i ∈ fabricSensors, ((s.thm.trip.toNat : Int) - 10) * 16 < (Tab.getD s.thm.sens i .reset).temp.toInt) →
      p = s.pow) →
    ∃ q : Power, exec .powerPeriod { s with inp := some .powerPeriod } =
        .next { s with inp := none, thm := { s.thm with tripped := false }, pow := { q with periodAt := s.units } } ∧
      (p.therm = true → q = { p with step := 6 }) ∧
      (p.therm = false → p.cap.toNat < p.inst.toNat →
        (p.throttle.toNat < 7 → q = { p with throttle := p.throttle + 1 }) ∧
        (p.throttle = 7 → p.step.toNat < 6 → q = { p with step := p.step + 1, throttle := 4 }) ∧
        (p.throttle = 7 → 6 ≤ p.step.toNat → q = { p with floor := true })) ∧
      (p.therm = false → p.inst.toNat ≤ p.cap.toNat →
        (100 * p.avg.toNat ≤ 95 * p.cap.toNat → 0 < p.throttle.toNat → q = { p with throttle := p.throttle - 1 }) ∧
        (10 * p.avg.toNat ≤ 9 * p.cap.toNat → p.throttle = 0 → 0 < p.step.toNat → q = { p with step := p.step - 1 }) ∧
        (95 * p.cap.toNat < 100 * p.avg.toNat → q = p))) ∧
  (∀ s : State, s.thm.tripped = true → s.pow.periodAt + 100 * 5544000 ≤ s.units → ∃ u : State,
    exec .powerPeriod { s with inp := some .powerPeriod } = .next u ∧ u.pow.therm = true ∧ u.pow.step = 6) ∧
  (∀ s : State, s.units < s.pow.periodAt + 100 * 5544000 →
    exec .powerPeriod { s with inp := some .powerPeriod } = .next { s with inp := none }) ∧
  (∀ s : State, s.pow.overSince = none →
    exec .powerOverDeadline { s with inp := some .powerOverDeadline } = .next { s with inp := none }) ∧
  (∀ (s : State) (t : Nat), s.pow.overSince = some t →
    (t + 1000 * 5544000 ≤ s.units → exec .powerOverDeadline { s with inp := some .powerOverDeadline } =
      .next { s with inp := none, pow := { s.pow with ovf := true } }) ∧
    (s.units < t + 1000 * 5544000 → exec .powerOverDeadline { s with inp := some .powerOverDeadline } = .next { s with inp := none }))

/-! ### Scale-up and Ethernet links (R26 to R43) -/

namespace Sys2Proof.Spec
open Sys2Proof.Machine

/-- A port's bookkeeping when its link comes up or is retrained (R30, R38). -/
def freshPort (x : Port) (st : BitVec 3) : Port :=
  { state := st, iso := false, spared := false, laneMap := Port.reset.laneMap, spareOk := Port.reset.spareOk,
    spareBad := Port.reset.spareBad, retry := x.retry, laneErr := [], lasting := 0, lastingAt := [] }
/-- No request to a peer is outstanding or waits. -/
def noneTo (s : State) (n : Nat) : Prop := ∀ q ∈ s.lnk.reqs, q.peer ≠ n
/-- A request is on record under its number and has left. -/
def Out (s : State) (q : Req) : Prop := s.lnk.reqs.find? (fun x => x.id == q.id) = some q ∧ q.waits = false

end Sys2Proof.Spec

/-- R26 to R43: a codeword is one error event of a lane; lanes that fail often are replaced by the spare, and a
port goes down where it cannot; a port that goes down, a peer that times out, answers with an error or is
named by LK_ISOLATE is isolated once, an entry of the drop log opens, and what was outstanding completes without it; late completions
are counted; a returned port is retrained. A tray drain stops placement, notifies the peers on every live port, isolates them all and is safe. Inbound
requests are performed at the local memory, and those of an isolated peer get an error. A round of a group with an isolated member can only
fail. In state FAILED none of the link registers acts. What is read into these rules or chosen is log entries 9, 78, 79, 80 and 95. -/
def Obligations.LinkEvents : Prop :=
  (∀ (w : Codeword) (l : Nat), l < 5 → (w.counts l = true ↔ l ∈ w.lost ∨ 6 < w.corrected.getD l 0 ∨
    (w.bad = true ∧ (∀ k < 5, w.errors.getD k 0 ≤ w.errors.getD l 0) ∧ ∀ k < l, w.errors.getD k 0 < w.errors.getD l 0))) ∧
  (∀ (s : State) (p l : Nat) (w : Codeword) (x y : Port) (ts : List Nat) (new : Bool), x = s.lnk.port p → p < 18 → l < 5 → x.up = true →
    x.laneOff l = false → (∀ k < 5, w.counts k = decide (k = l)) → ts = s.window (Tab.getD x.laneErr l []) →
    new = (s.lasting ts && !x.lasting.getLsbD l) →
    y = { x with retry := BitVec.ofNat 16 (min 0xFFFF (x.retry.toNat + w.retries)), laneErr := Tab.set x.laneErr l ts,
                 lasting := if new then x.lasting ||| BitVec.ofNat 5 (2 ^ l) else x.lasting,
                 lastingAt := if new then Tab.set x.lastingAt l s.cycles else x.lastingAt,
                 spareBad := x.spareBad || (new && decide (l = 4) && !x.spared) } →
    (y.mustDown = false → exec .laneErrorEvent { s with inp := some (.laneErrorEvent p w) } =
      .next ({ s with inp := none }.setPort p (if y.canSpare.isSome then { y with state := 3 } else y))) ∧
    (y.mustDown = true → s.lnk.noticed = [] → (∀ q ∈ s.lnk.reqs, ¬ (q.port = p ∧ q.waits = false)) →
      ∃ u : State, exec .laneErrorEvent { s with inp := some (.laneErrorEvent p w) } = .next u ∧ u.mem = s.mem ∧ u.lnk.reqs = s.lnk.reqs ∧
        (∀ k, y.canSpare = some k → u.lnk.port p = { y with state := 0, iso := true, spared := true, laneMap := BitVec.ofNat 3 k }) ∧
        (y.canSpare = none → u.lnk.port p = { y with state := 0, iso := true }) ∧ ∀ q, q ≠ p → u.lnk.port q = s.lnk.port q)) ∧
  (∀ (s : State) (p l : Nat) (x : Port), x = s.lnk.port p → p < 18 → x.up = true → x.canSpare = some l →
    ∃ u : State, exec .laneSparing { s with inp := some (.laneSparing p) } = .next u ∧ u.lnk.reqs = s.lnk.reqs ∧ u.mem = s.mem ∧
      u.lnk.port p = { x with state := 2, spared := true, laneMap := BitVec.ofNat 3 l }) ∧
  (∀ (s : State) (p : Nat) (x : Port), x = s.lnk.port p → p < 18 → s.lnk.noticed = [] →
    (∀ q ∈ s.lnk.reqs, ¬ (q.port = p ∧ q.waits = false)) →
    (∀ exhausted, x.up = true → exhausted = true ∨ x.mustDown = true → ∃ u : State,
      exec .portDown { s with inp := some (.portDown p exhausted) } = .next u ∧ u.mem = s.mem ∧
      u.lnk.port p = { x with state := 0, iso := true } ∧ u.lnk.reqs = s.lnk.reqs) ∧
    (x.mustDown = false → exec .portDown { s with inp := some (.portDown p false) } = .next { s with inp := none }) ∧
    (x.iso = false → s.boot.state ≠ 3 → ∃ u : State, exec .isolatePort { s with inp := some (.isolatePort p) } = .next u ∧ u.mem = s.mem ∧
      u.lnk.port p = { x with state := 4, iso := true } ∧ u.lnk.reqs = s.lnk.reqs) ∧
    (x.iso = true → exec .isolatePort { s with inp := some (.isolatePort p) } = .next { s with inp := none })) ∧
  (∀ (s : State) (p lanes : Nat) (ok tr : Bool) (x : Port), x = s.lnk.port p → p < 18 →
    (4 ≤ lanes → x.iso = false → (x.state = 0 ∨ x.state = 1) → s.lnk.drain.toNat < 3 →
      ∃ u : State, exec .portLinkUp { s with inp := some (.portLinkUp p lanes ok tr) } = .next u ∧ u.mem = s.mem ∧
        u.lnk.port p = { Spec.freshPort x 2 with spareOk := ok, spareBad := !tr }) ∧
    (lanes < 4 → exec .portLinkUp { s with inp := some (.portLinkUp p lanes ok tr) } = .next { s with inp := none })) ∧
  (∀ (s : State) (p : Nat) (x : Port), x = s.lnk.port p → x.iso = true → s.boot.state ≠ 3 →
    ∃ u : State, exec .returnPort { s with inp := some (.returnPort p) } = .next u ∧ u.mem = s.mem ∧ u.lnk.port p = Spec.freshPort x 1) ∧
  (∀ (s : State) (n : Nat), n < 144 → s.lnk.peerIso.getLsbD n = false → s.boot.state ≠ 3 → Spec.noneTo s n →
    ∃ u : State, exec .isolatePeer { s with inp := some (.isolatePeer n) } = .next u ∧ u.mem = s.mem ∧ u.lnk.reqs = s.lnk.reqs ∧
      u.eng.rounds = (s.eng.rounds.map fun r => { r with broken := r.broken || (decide (r.scope = 4) && r.status.isNone &&
        (Tab.getD s.eng.collGrp r.g .reset).members.getLsbD n) }) ∧
      (∀ k < 192, u.lnk.peerIso.getLsbD k = (s.lnk.peerIso.getLsbD k || decide (k = n))) ∧ n ∉ u.lnk.noticed ∧
      (∀ j < 16, (Tab.getD s.lnk.drop j .reset).valid = false → (∀ i < j, (Tab.getD s.lnk.drop i .reset).valid = true) →
        Tab.getD u.lnk.drop j .reset =
          { DropEntry.reset with valid := true, kind := 0, opened := true, obj := BitVec.ofNat 8 n }) ∧
      ((∀ j < 16, (Tab.getD s.lnk.drop j .reset).valid = true) → u.lnk.drop = s.lnk.drop ∧
        u.lnk.dlLost.toNat = min 0xFFFFFFFF (s.lnk.dlLost.toNat + 1))) ∧
  (∀ (s : State) (n : Nat), s.lnk.peerIso.getLsbD n = true →
    (n < 144 → exec .isolatePeer { s with inp := some (.isolatePeer n) } = .next { s with inp := none }) ∧
    (s.boot.state ≠ 3 → ∃ u : State, exec .returnPeer { s with inp := some (.returnPeer n) } = .next u ∧ u.mem = s.mem ∧
      (∀ k < 192, u.lnk.peerIso.getLsbD k = (s.lnk.peerIso.getLsbD k && decide (k ≠ n))))) ∧
  (∀ (s : State) (n : Nat), s.boot.state = 3 → ∀ x ∈ [(Instr.isolatePeer, Event.isolatePeer n), (.isolatePort, .isolatePort n),
    (.returnPeer, .returnPeer n), (.returnPort, .returnPort n), (.droplogFree, .droplogFree n),
    (.inboundFromIsolatedPeer, .inboundFromIsolatedPeer n)], exec x.1 { s with inp := some x.2 } = .next (Spec.quiet s)) ∧
  (∀ (s : State) (q : Req), Spec.Out s q → s.lnk.peerIso.getLsbD q.peer = false → q.peer < 192 →
    ∃ u : State, u.lnk.peerIso.getLsbD q.peer = true ∧ Spec.noneTo u q.peer ∧
      (q.sentAt + s.lnk.tmo.toNat * 5544000 ≤ s.units →
        exec .requestTimeout { s with inp := some (.requestTimeout q.id) } = .next u) ∧
      (s.units < q.sentAt + s.lnk.tmo.toNat * 5544000 →
        exec .requestTimeout { s with inp := some (.requestTimeout q.id) } = .next { s with inp := none }) ∧
      exec .errorCompletionReceived { s with inp := some (.errorCompletionReceived q.id) } = .next u) ∧
  (∀ (s : State) (q : Req) (data : List Byte) (marks : List Bool), Spec.Out s q → s.lnk.noticed = [] → q.id < s.fresh →
    exec .remoteCompletionReceived { s with inp := some (.remoteCompletionReceived q.id data marks) } =
        .next ({ s with inp := none }.remoteDone q.id data marks) ∧
      ∀ x ∈ ({ s with inp := none }.remoteDone q.id data marks).lnk.reqs, x.id ≠ q.id) ∧
  (∀ (s : State) (q : Req) (p : Nat), s.lnk.reqs.find? (fun x => x.id == q.id && x.waits) = some q → s.lnk.cutOff q.pa = false →
    s.lnk.portFor q.pa = some p → (s.lnk.reqs.takeWhile fun x => x.id != q.id) = [] →
    ∃ u : State, exec .remoteRequestWaitEnd { s with inp := some (.remoteRequestWaitEnd q.id) } = .next u ∧ u.mem = s.mem ∧
      u.out = s.out ++ [.ualinkRequest q.id q.peer p q.pa q.size q.kind q.data q.marks] ∧
      { q with waits := false, port := p, sentAt := s.units } ∈ u.lnk.reqs) ∧
  (∀ (s : State) (q : Req), s.lnk.reqs.find? (fun x => x.id == q.id && x.waits) = some q → s.lnk.cutOff q.pa = false →
    (∃ x ∈ s.lnk.reqs.takeWhile (fun x => x.id != q.id), x.pa / 256 = q.pa / 256 ∧ x.waits = true) →
    exec .remoteRequestWaitEnd { s with inp := some (.remoteRequestWaitEnd q.id) } = .next (Spec.quiet s)) ∧
  (∀ (s : State) (n : Nat), n < 144 → s.lnk.peerIso.getLsbD n = false →
    (¬ Spec.noneTo s n → ∃ u : State, exec .drainNoticeReceived { s with inp := some (.drainNoticeReceived n) } = .next u ∧
      n ∈ u.lnk.noticed ∧ u.lnk.peerIso = s.lnk.peerIso ∧ u.out = s.out) ∧
    (Spec.noneTo s n → ∃ u : State, exec .drainNoticeReceived { s with inp := some (.drainNoticeReceived n) } = .next u ∧
      u.lnk.peerIso.getLsbD n = true ∧ u.out = s.out ++ [.drainAck n])) ∧
  (∀ (s : State) (id : Nat), id ∈ s.lnk.synth → ∃ u : State,
    exec .lateCompletion { s with inp := some (.lateCompletion id) } = .next u ∧ u.mem = s.mem ∧ id ∉ u.lnk.synth ∧
      u.lnk.late.toNat = min 0xFFFFFFFF (s.lnk.late.toNat + 1)) ∧
  (∀ (s : State) (n : Nat), (s.lnk.peerIso.getLsbD n = true ∨ 3 ≤ s.lnk.drain.toNat) →
    (s.boot.state ≠ 3 → exec .inboundFromIsolatedPeer { s with inp := some (.inboundFromIsolatedPeer n) } =
      .next { s with inp := none, out := s.out ++ [.ualinkError n] }) ∧
    ∀ r, exec .inboundRequest { s with inp := some (.inboundRequest n r) } = .next { s with inp := none }) ∧
  (∀ (s : State) (n a : Nat), s.boot.state ≠ 3 → s.lnk.peerIso.getLsbD n = false → s.lnk.drain.toNat < 3 → s.backed a = true → s.rowFree a = true →
    Spec.Coherent s.mem →
    (∀ size, 0 < size → size ≤ 256 → a % size = 0 → a + size ≤ holeBase → ∃ (u : State) (ms : List Bool),
      exec .inboundRequest { s with inp := some (.inboundRequest n (.read a size)) } = .next u ∧ Spec.SameBytes s.mem u.mem ∧
        u.out = s.out ++ [.ualinkReply n ((List.range size).map fun j => Spec.byteAt s.mem (a + j)) ms] ∧
        ms.length = (size + 15) / 16 ∧ ∀ k < ms.length, (ms.getD k false = true ↔
          ∃ j, (a + 16 * k) / 16 ≤ j ∧ j * 16 < a + min (16 * k + 16) size ∧ Spec.markAt s.mem j = true)) ∧
    (∀ (d : List Byte) (ms : List Bool), 0 < d.length → d.length ≤ 256 → a % d.length = 0 → a + d.length ≤ holeBase → ∃ u : State,
      exec .inboundRequest { s with inp := some (.inboundRequest n (.write a d ms)) } = .next u ∧
        u.out = s.out ++ [.ualinkReply n [] []] ∧
        (∀ k, a % 16 = 0 → 16 * k + 16 ≤ d.length → Spec.markAt u.mem (a / 16 + k) = ms.getD k false) ∧
        ∀ x, Spec.byteAt u.mem x = if a ≤ x ∧ x < a + d.length then d.getD (x - a) 0 else Spec.byteAt s.mem x)) ∧
  (∀ (s : State) (k : Nat) (v : W64), k < 3 → s.boot.state ≠ 3 → s.lnk.reqs = [] →
    ∃ u : State, exec .lkPeermapWrite { s with inp := some (.lkPeermapWrite k v) } = .next u ∧ u.lnk.peerIso = s.lnk.peerIso ∧
      ∀ n < 144, u.lnk.peerMap.getLsbD n = if n / 64 = k then v.getLsbD (n % 64) else s.lnk.peerMap.getLsbD n) ∧
  (∀ (s : State) (v : W32), s.boot.state ≠ 3 → ∃ u : State, exec .lkCfgWrite { s with inp := some (.lkCfgWrite v) } = .next u ∧
    u.lnk.self.toNat = (if v.toNat % 256 ≤ 143 then v.toNat % 256 else s.lnk.self.toNat) ∧ u.lnk.peerMap = s.lnk.peerMap) ∧
  (∀ (s : State) (i : Nat), i < 16 → s.boot.state ≠ 3 → (Tab.getD s.lnk.drop i .reset).valid = true → ∃ u : State,
    exec .droplogFree { s with inp := some (.droplogFree i) } = .next u ∧
      Tab.getD u.lnk.drop i .reset = { Tab.getD s.lnk.drop i .reset with valid := false } ∧ u.mem = s.mem) ∧
  (∀ s : State, s.boot.state ≠ 3 → s.lnk.drain = 0 → ∃ u : State, exec .lkDrainStart { s with inp := some .lkDrainStart } = .next u ∧
    u.lnk.drain = 1 ∧ u.lnk.drainAt = s.units ∧ u.sch.placeEn = false ∧ u.mem = s.mem) ∧
  (∀ s : State, s.lnk.drain = 1 → (s.lnk.reqs = [] ∨ s.lnk.drainAt + s.lnk.drainTmo.toNat * 5544000 ≤ s.units) →
    ∃ u : State, exec .drainQuiesceEnd { s with inp := some .drainQuiesceEnd } = .next u ∧ u.lnk.drain = 2 ∧ u.lnk.drainAt = s.units ∧
      u.out = s.out ++ (((List.range 144).filter fun n => s.lnk.peerMap.getLsbD n && n != s.lnk.self.toNat).flatMap fun n =>
        s.lnk.live.map fun p => Output.drainNotice n p)) ∧
  (∀ (s : State) (acked : Bool), s.lnk.drain = 2 → (acked = true ∨ s.lnk.drainAt + s.lnk.drainTmo.toNat * 5544000 ≤ s.units) →
    ∃ u : State, exec .drainNotifyEnd { s with inp := some (.drainNotifyEnd acked) } = .next u ∧ u.lnk.drain = 3 ∧
      (∀ n < 144, s.lnk.peerMap.getLsbD n = true → n ≠ s.lnk.self.toNat → u.lnk.peerIso.getLsbD n = true) ∧
      ∀ p < 18, (u.lnk.port p).iso = true) ∧
  (∀ s : State, s.lnk.drain = 3 → exec .drainSafe { s with inp := some .drainSafe } =
    .next { s with inp := none, lnk := { s.lnk with drain := 4 } }) ∧
  (∀ (s : State) (p : Nat), p < 2 → ∃ u : State, exec .ethernetPortFailover { s with inp := some (.ethernetPortFailover p) } = .next u ∧
    u.lnk.ethFor p = (if s.lnk.ethIsUp (1 - p) then some (1 - p) else none) ∧ u.mem = s.mem)

/-! ### The admin queue, address spaces and settings (R52, R55, R64 to R68) -/

namespace Sys2Proof.Spec
open Sys2Proof.Machine

/-- A command of this opcode is there to be served: taken from the ring, or carried by a management message while an Ethernet port is up
(R41, R64). -/
def Asked (s : State) (via : Via) (op : Nat) : Prop :=
  s.boot.state ≠ 3 ∧ (∀ k, via = .ring k → ∃ t ∈ s.que.taken, t.num = k ∧ bytesAt t.bytes 0 1 = op) ∧
    ∀ tag, via = .eth tag → (s.lnk.ethFor 0).isSome = true
/-- The tag that its completion echoes. -/
def tagOf (s : State) (via : Via) : Nat :=
  match via with
  | .ring k => ((s.que.taken.find? fun t => t.num == k).map fun t => bytesAt t.bytes 4 4).getD 0
  | .eth tag => tag.toNat
/-- The 16 bytes of a completion, with PHASE 0 (R65). -/
def completed (s : State) (via : Via) (op status result : Nat) : List Byte :=
  bytesOf 4 (tagOf s via) ++ bytesOf 1 status ++ bytesOf 1 0 ++ bytesOf 1 op ++ bytesOf 1 0 ++ bytesOf 8 result
/-- The command ends: its completion waits for the ring, in the order of ending, or goes back in the reply (R64, R65). -/
def ended (s : State) (via : Via) (op status result : Nat) : State :=
  match via with
  | .ring k =>
    { s with que := { s.que with taken := s.que.taken.filter fun t => t.num != k,
                                 completions := s.que.completions ++ [completed s via op status result] } }
  | .eth _ => { s with out := s.out ++ [.adminReply (completed s via op status result)] }
/-- Entries of a ring whose LOG2SZ field is `lg` (R65). -/
def ringEntries (lg : Nat) : Nat := if 4 ≤ lg ∧ lg ≤ 12 then 2 ^ lg else 16
/-- The 64 bytes of the command at place `a` of the ring; one whose read comes back poisoned is an unknown opcode (R44, R65; log entry 81). -/
def commandAt (m : Memory) (a : Nat) : List Byte :=
  let bs := (List.range 64).map fun b => Tab.getD m.host (a + b) 0
  if anyPois m.hostPois a 64 then 0 :: bs.drop 1 else bs
/-- One report for each of these ring places that reads poisoned (R44). -/
def poisonReports (m : Memory) (as_ : List Nat) : List Output :=
  (as_.filter fun a => anyPois m.hostPois a 64).map fun _ => .poisonedTlp
/-- Whatever used a translation before the invalidation at `n` has performed: DONE of TR_INV (R170). -/
def InvEnds (s : State) (n : Nat) : Prop :=
  (∀ x ∈ s.mem.acc, x.id < n → x.todo = 0) ∧ (∀ q ∈ s.eng.nmQueue, ∀ c ∈ q.2, n ≤ c.num) ∧ ∀ q ∈ s.lnk.reqs, n ≤ q.id
/-- Neither a remap nor an open row is in the way of the tables and pages of a MAP (R161, R163). -/
def MapReady (s : State) (m : MapArgs) : Prop :=
  s.tablesFree m.asid m.va m.psize m.count = true ∧ (∀ t ∈ m.tables, s.rangeFree t 65536 = true) ∧
    (m.alloc = true → ∀ p ∈ m.pages.take m.count, s.rangeFree p m.psize = true)
/-- A command that has invalidated ends at once where DONE is set, in state `t`, and else waits for it in `u` (R67). -/
def EndsAtDone (u t : State) (via : Via) (op : Nat) (invals : List Inval) : Prop :=
  (InvEnds u u.fresh → t = ended u via op 0 0 ∧ u.que.invals = invals) ∧
    (¬ InvEnds u u.fresh → t = u ∧ ∃ v, u.que.invals = invals ++ [v] ∧ v.via = via ∧ v.op = op ∧ v.mark = u.fresh)
/-- A resident task was launched from a queue. -/
def Launched (s : State) (q : Nat) : Prop := ∃ x ∈ s.tsk.tasks, ∃ k, x.2.launch.src = .slot k q
/-- An ASID that ASID_CREATE has allocated (R67). -/
def Exists (s : State) (a : Nat) : Prop := 1 ≤ a ∧ a ≤ 255 ∧ (Tab.getD s.mem.trRoot a (false, 0)).1 = true
/-- A plane resides in a task's region. -/
def Resides (s : State) (n : Nat) : Prop := ∃ x ∈ s.tsk.tasks, ∃ r ∈ x.2.planes, r.plane = n
/-- The Orangery has room for an installation image in place of plane `n`: 4 GiB in each quarter, 1 KiB for each element (R13, R66). -/
def Fits (s : State) (n : Nat) (bs : List Byte) : Prop :=
  ((s.que.planes.filter fun x => x.1 != n).map fun x => 1024 * (x.2.w * x.2.h)).sum + 1024 * ((planeOf bs).w * (planeOf bs).h) ≤ 2 ^ 32
/-- Memory shows `bs` at `a`, and elsewhere what it showed. -/
def Stored (m n : Memory) (a : Nat) (bs : List Byte) : Prop :=
  ∀ x, byteAt n x = if a ≤ x ∧ x < a + bs.length then bs.getD (x - a) 0 else byteAt m x
/-- No cached translation of an ASID meets a range. -/
def NoTlb (m : Memory) (asid va n : Nat) : Prop :=
  ∀ x ∈ m.tlb, ∀ t ∈ x.2, ¬ (t.asid = asid ∧ t.va < va + n ∧ va < t.va + t.size)
/-- The offsets that SET_REG accepts (R67). -/
def setRegOffset (o : Nat) : Bool :=
  [0x7600, 0x7608, 0x7610, 0x7618, 0x7620, 0x7508, 0x7510, 0x6348, 0x6608, 0x8800, 0x8808, 0x8810, 0x4E30, 0x2100, 0x6000].contains o
    || (decide (0x6300 ≤ o ∧ o < 0x6318) || decide (0xA000 ≤ o ∧ o < 0xA200)) && o % 8 == 0

end Sys2Proof.Spec

/-- R64, R65, R68: the doorbell takes every command below WR from its place in the ring, reporting one whose read comes back poisoned
(R44); a write of QS_ADMQ or QS_ADMC while commands are
under way is ignored, any other resets both indices; a completion is written at CWR with its phase and followed by MSI-X; an
unassigned opcode gets STATUS 1; RESYNC sends 8 KiB of summary and changes nothing but GEN; TRAY_DRAIN ends at SAFE. How the free-running
counts are compared, when a ring write takes the commands that WR then exceeds, what a poisoned command does, and when TRAY_DRAIN ends
are the model's readings of log entry 81; what RESYNC's sections hold beyond the fields stated is the choice of log entries 12 and 84. -/
def Obligations.AdminQueue : Prop :=
  (∀ (s : State) (wr : W32) (n : Nat), s.boot.state ≠ 3 → n = (wr - s.que.admRd).toNat →
    (n < 2 ^ 31 → exec .adminDoorbell { s with inp := some (.adminDoorbell wr) } = .next
      { s with inp := none, out := s.out ++ Spec.poisonReports s.mem ((List.range n).map fun j =>
          s.que.admqBase.toNat + 64 * ((s.que.admRd + BitVec.ofNat 32 j).toNat % Spec.ringEntries s.que.admqLog.toNat)), que := { s.que with
          admWr := wr, admRd := wr,
          taken := s.que.taken ++ (List.range n).map fun j =>
            let i := (s.que.admRd + BitVec.ofNat 32 j).toNat
            { num := i, bytes := Spec.commandAt s.mem (s.que.admqBase.toNat + 64 * (i % Spec.ringEntries s.que.admqLog.toNat)) } } }) ∧
    (2 ^ 31 ≤ n → exec .adminDoorbell { s with inp := some (.adminDoorbell wr) } =
      .next { s with inp := none, que := { s.que with admWr := wr } })) ∧
  (∀ (s : State) (c : Bool) (v : W64), s.boot.state ≠ 3 →
    ((s.que.taken ≠ [] ∨ s.que.completions ≠ [] ∨ s.que.admWr ≠ s.que.admRd) →
      exec .adminRingSet { s with inp := some (.adminRingSet c v) } = .next { s with inp := none }) ∧
    (s.que.taken = [] → s.que.completions = [] → s.que.admWr = s.que.admRd →
      ∃ u : State, exec .adminRingSet { s with inp := some (.adminRingSet c v) } = .next u ∧ u.que.admCwr = 0 ∧ u.mem = s.mem ∧
        (s.que.admWr.toNat < 2 ^ 31 → u.que.admRd = s.que.admWr ∧
          (u.que.taken = (List.range s.que.admWr.toNat).map fun j =>
            { num := j, bytes := Spec.commandAt s.mem (u.que.admqBase.toNat + 64 * (j % Spec.ringEntries u.que.admqLog.toNat)) }) ∧
          u.out = s.out ++ Spec.poisonReports s.mem ((List.range s.que.admWr.toNat).map fun j =>
            u.que.admqBase.toNat + 64 * (j % Spec.ringEntries u.que.admqLog.toNat))) ∧
        (2 ^ 31 ≤ s.que.admWr.toNat → u.que.admRd = 0 ∧ u.que.taken = []) ∧
        (c = false → u.que.admqBase.toNat = v.toNat % 2 ^ 48 ∧ u.que.admqLog.toNat = v.toNat / 2 ^ 48 % 16 ∧
          u.que.admcBase = s.que.admcBase ∧ u.que.admcLog = s.que.admcLog ∧ u.que.admcVec = s.que.admcVec) ∧
        (c = true → u.que.admcBase.toNat = v.toNat % 2 ^ 48 ∧ u.que.admcLog.toNat = v.toNat / 2 ^ 48 % 16 ∧
          u.que.admcVec.toNat = v.toNat / 2 ^ 52 % 2 ^ 11 ∧ u.que.admqBase = s.que.admqBase ∧ u.que.admqLog = s.que.admqLog))) ∧
  (∀ (s : State) (bs : List Byte) (rest : List (List Byte)) (n at_ : Nat), s.que.completions = bs :: rest → bs.length = 16 →
    n = Spec.ringEntries s.que.admcLog.toNat → at_ = s.que.admcBase.toNat + 16 * (s.que.admCwr.toNat % n) → Tab.wf 0 s.mem.host = true →
    ∃ u : State, exec .adminCompletion { s with inp := some .adminCompletion } = .next u ∧ u.que.completions = rest ∧
      u.que.admCwr = s.que.admCwr + 1 ∧ (∀ x, Tab.getD u.mem.host x 0 = if at_ ≤ x ∧ x < at_ + 16 then
        (if x = at_ + 5 then (if s.que.admCwr.toNat / n % 2 = 0 then 1 else 0) else bs.getD (x - at_) 0) else Tab.getD s.mem.host x 0) ∧
      ∃ bs', u.out = s.out ++ [.hostWrite at_ bs' false, .msix s.que.admcVec.toNat]) ∧
  (∀ (s : State) (via : Via) (op : Byte), Spec.Asked s via op.toNat → (op.toNat = 0 ∨ 13 < op.toNat) →
    exec .adminUnknownOpcode { s with inp := some (.adminUnknownOpcode via op) } =
      .next (Spec.ended { s with inp := none } via op.toNat 1 0)) ∧
  (∀ (s : State) (via : Via) (dest first : Nat), Spec.Asked s via 4 → ∃ bs : List Byte, bs.length = 8192 ∧
    (∀ b < 256, (bs.drop (0xE40 + 8 * b)).take 8 = bytesOf 8 (Tab.getD s.mem.bankMap b 0).toNat) ∧
    (∀ k < 64, (bs.drop (0x108 + 16 * k)).take 8 =
      bytesOf 4 (Tab.getD s.que.slots k .reset).rd.toNat ++ bytesOf 1 (Tab.getD s.que.slots k .reset).code.toNat ++ [0, 0, 0]) ∧
    ∀ v : State, v = (match via with
        | .ring _ => { s with inp := none, que := { s.que with gen := s.que.gen + 1 },
                              mem := { s.mem with host := writeCells s.mem.host dest bs, hostPois := markPois s.mem.hostPois dest 8192 false },
                              out := s.out ++ [.hostWrite dest bs false] }
        | .eth _ => { s with inp := none, que := { s.que with gen := s.que.gen + 1 }, out := s.out ++ [.adminReply bs] }) →
      exec .resync { s with inp := some (.resync via dest first) } =
        .next (Spec.ended v via 4 0 ((s.que.gen + 1).toNat + 2 ^ 32 * (s.tsk.tasks.length % 65536)))) ∧
  (∀ (s : State) (via : Via), Spec.Asked s via 5 →
    (s.lnk.drain = 4 → exec .trayDrain { s with inp := some (.trayDrain via) } = .next (Spec.ended { s with inp := none } via 5 0 0)) ∧
    (s.lnk.drain = 0 → exec .trayDrain { s with inp := some (.trayDrain via) } =
      .next { s with inp := none, lnk := { s.lnk with drain := 1, drainAt := s.units }, sch := { s.sch with placeEn := false } }) ∧
    (s.lnk.drain ≠ 0 → s.lnk.drain ≠ 4 →
      exec .trayDrain { s with inp := some (.trayDrain via) } = .next { s with inp := none }))

/-- R52, R55, R66, R67: QUEUE_CREATE checks its operands and fills the descriptor of a free queue; QUEUE_DESTROY clears EN, unmaps the
queue, and ends once no task of it is resident; QUEUE_RESET clears ERR and sets RDIDX; PLANE_INSTALL and PLANE_REMOVE answer with
the STATUS of R66. Each command ends with its completion, and a bad one changes nothing else. A command waits while a remap or an open
row is in the way of the memory that it names (R161, R163). That a command which waits is offered again (log entry 81), which free queue is
taken (log entry 82), and what an image's checks are, with a poisoned image taken as a bad one (log entry 83), are the model's. -/
def Obligations.QueueAndPlaneCommands : Prop :=
  (∀ (s : State) (via : Via) (d : QueueArgs) (good : Prop), Spec.Asked s via 1 →
    good = (d.ring.toNat % 128 = 0 ∧ 4 ≤ d.log2sz ∧ d.log2sz ≤ 16 ∧ Spec.Exists s d.asid ∧ d.vec < 2048 ∧ d.reserved = false) →
    (¬ good → exec .queueCreate { s with inp := some (.queueCreate via d) } =
      .next (Spec.ended { s with inp := none } via 1 2 0xFFFF)) ∧
    (good → (∀ q < 1024, q ∈ s.que.created) → exec .queueCreate { s with inp := some (.queueCreate via d) } =
      .next (Spec.ended { s with inp := none } via 1 3 0xFFFF)) ∧
    (good → (∃ q < 1024, q ∉ s.que.created) → Spec.Coherent s.mem → ∃ q, q < 1024 ∧ q ∉ s.que.created ∧
      (s.descReady q = false → exec .queueCreate { s with inp := some (.queueCreate via d) } = .next (Spec.quiet s)) ∧
      (s.descReady q = true → ∃ u : State, exec .queueCreate { s with inp := some (.queueCreate via d) } = .next (Spec.ended u via 1 0 q) ∧
      u.que = { s.que with created := s.que.created ++ [q] } ∧
      Spec.Stored s.mem u.mem (s.descAddr q) (bytesOf 8 d.ring.toNat
        ++ bytesOf 8 (d.log2sz + 2 ^ 5 * d.loc.toNat + 2 ^ 6 * d.prioMax.toNat + 2 ^ 9 * d.asid + 2 ^ 17 * d.vec + 2 ^ 28 * d.en.toNat)
        ++ List.replicate 9 0 ++ [0xFF] ++ List.replicate 38 0)))) ∧
  (∀ (s : State) (via : Via) (q : Nat), Spec.Asked s via 2 →
    (q ∉ s.que.created → exec .queueDestroy { s with inp := some (.queueDestroy via q) } =
      .next (Spec.ended { s with inp := none } via 2 2 0)) ∧
    (q ∈ s.que.created → s.descReady q = false → exec .queueDestroy { s with inp := some (.queueDestroy via q) } = .next (Spec.quiet s)) ∧
    (q ∈ s.que.created → q ∉ s.que.dying → s.descReady q = true → Spec.Coherent s.mem → s.que.slots.Pairwise (fun x y => x.1 < y.1) → ∃ u : State,
      (Spec.Launched s q → exec .queueDestroy { s with inp := some (.queueDestroy via q) } = .next u ∧ u.que.dying = s.que.dying ++ [q] ∧
        u.que.created = s.que.created ∧ u.que.completions = s.que.completions) ∧
      (¬ Spec.Launched s q → exec .queueDestroy { s with inp := some (.queueDestroy via q) } = .next (Spec.ended u via 2 0 0) ∧
        ∀ p, p ∈ u.que.created ↔ p ∈ s.que.created ∧ p ≠ q) ∧
      Spec.descWord u q 8 4 = Spec.descWord s q 8 4 % 2 ^ 28 + Spec.descWord s q 8 4 / 2 ^ 29 * 2 ^ 29 ∧
      (∀ k, s.queueSlot q = some k → u.slot k = .reset) ∧ u.tsk = s.tsk) ∧
    (q ∈ s.que.created → q ∈ s.que.dying → s.descReady q = true →
      (Spec.Launched s q → exec .queueDestroy { s with inp := some (.queueDestroy via q) } = .next { s with inp := none }) ∧
      (¬ Spec.Launched s q → ∃ u : State, exec .queueDestroy { s with inp := some (.queueDestroy via q) } = .next (Spec.ended u via 2 0 0) ∧
        (∀ p, p ∈ u.que.created ↔ p ∈ s.que.created ∧ p ≠ q) ∧ u.mem = s.mem))) ∧
  (∀ (s : State) (via : Via) (q : Nat) (rd : W32), Spec.Asked s via 3 →
    (q ∉ s.que.created → exec .queueReset { s with inp := some (.queueReset via q rd) } =
      .next (Spec.ended { s with inp := none } via 3 2 0)) ∧
    (q ∈ s.que.created → s.descReady q = false → exec .queueReset { s with inp := some (.queueReset via q rd) } = .next (Spec.quiet s)) ∧
    (q ∈ s.que.created → s.descReady q = true → Spec.Coherent s.mem → ∃ u : State,
      exec .queueReset { s with inp := some (.queueReset via q rd) } = .next (Spec.ended u via 3 0 0) ∧
      Spec.descWord u q 24 1 = 0 ∧ Spec.descWord u q 16 4 = rd.toNat ∧
      (∀ a, a < s.descAddr q + 16 ∨ s.descAddr q + 20 ≤ a → a ≠ s.descAddr q + 24 → Spec.byteAt u.mem a = Spec.byteAt s.mem a) ∧
      (∀ k, s.queueSlot q = some k → u.slot k = { s.slot k with err := false, code := 0, rd := rd, offer := none }) ∧
      ∀ k, s.queueSlot q ≠ some k → u.slot k = s.slot k)) ∧
  (∀ (s : State) (via : Via) (n space a len : Nat) (room : Bool), Spec.Asked s via 6 →
    (65536 ≤ n → exec .planeInstall { s with inp := some (.planeInstall via n space a len room) } =
      .next (Spec.ended { s with inp := none } via 6 2 0)) ∧
    (n < 65536 → Spec.Resides s n → exec .planeInstall { s with inp := some (.planeInstall via n space a len room) } =
      .next (Spec.ended { s with inp := none } via 6 4 0)) ∧
    (n < 65536 → ¬ Spec.Resides s n → space = 0 → anyPois s.mem.hostPois a len = true →
      exec .planeInstall { s with inp := some (.planeInstall via n space a len room) } =
        .next (Spec.ended { s with inp := none, out := s.out ++ [.poisonedTlp] } via 6 2 0)) ∧
    (n < 65536 → ¬ Spec.Resides s n → space = 0 → anyPois s.mem.hostPois a len = false → ∀ bs, bs = (List.range len).map (fun j => Tab.getD s.mem.host (a + j) 0) →
      (planeOk bs = false → exec .planeInstall { s with inp := some (.planeInstall via n space a len room) } =
        .next (Spec.ended { s with inp := none } via 6 2 0)) ∧
      (planeOk bs = true → room = false ∨ ¬ Spec.Fits s n bs → exec .planeInstall { s with inp := some (.planeInstall via n space a len room) } =
        .next (Spec.ended { s with inp := none } via 6 3 0)) ∧
      (planeOk bs = true → room = true → Spec.Fits s n bs → ∃ u : State,
        exec .planeInstall { s with inp := some (.planeInstall via n space a len room) } = .next (Spec.ended u via 6 0 0) ∧
        u.mem = s.mem ∧ (∀ p, Tab.find u.que.planes n = some p → p.common ++ p.images = bs) ∧ (Tab.find u.que.planes n).isSome = true ∧
        ∀ k, k ≠ n → Tab.find u.que.planes k = Tab.find s.que.planes k)) ∧
    (n < 65536 → ¬ Spec.Resides s n → (1 < space ∨ space = 1 ∧ holeBase < a + len) →
      exec .planeInstall { s with inp := some (.planeInstall via n space a len room) } =
        .next (Spec.ended { s with inp := none } via 6 2 0)) ∧
    (n < 65536 → ¬ Spec.Resides s n → space = 1 → a + len ≤ holeBase → s.rangeFree a len = false →
      exec .planeInstall { s with inp := some (.planeInstall via n space a len room) } = .next (Spec.quiet s)) ∧
    (n < 65536 → ¬ Spec.Resides s n → space = 1 → a + len ≤ holeBase → s.rangeFree a len = true → Spec.Coherent s.mem → (∀ k, Spec.markAt s.mem k = false) →
      planeOk ((List.range len).map fun j => Spec.byteAt s.mem (a + j)) = true → room = true →
      Spec.Fits s n ((List.range len).map fun j => Spec.byteAt s.mem (a + j)) → ∃ u : State,
        exec .planeInstall { s with inp := some (.planeInstall via n space a len room) } = .next (Spec.ended u via 6 0 0) ∧
        Spec.SameBytes s.mem u.mem ∧ ∀ p, Tab.find u.que.planes n = some p →
          p.common ++ p.images = (List.range len).map fun j => Spec.byteAt s.mem (a + j))) ∧
  (∀ (s : State) (via : Via) (n : Nat), Spec.Asked s via 7 →
    (Spec.Resides s n → exec .planeRemove { s with inp := some (.planeRemove via n) } =
      .next (Spec.ended { s with inp := none } via 7 4 0)) ∧
    (¬ Spec.Resides s n → Tab.find s.que.planes n = none → exec .planeRemove { s with inp := some (.planeRemove via n) } =
      .next (Spec.ended { s with inp := none } via 7 2 0)) ∧
    (¬ Spec.Resides s n → (Tab.find s.que.planes n).isSome = true → s.que.planes.Pairwise (fun x y => x.1 < y.1) → ∃ u : State,
      exec .planeRemove { s with inp := some (.planeRemove via n) } = .next (Spec.ended u via 7 0 0) ∧ u.mem = s.mem ∧
      Tab.find u.que.planes n = none ∧ ∀ k, k ≠ n → Tab.find u.que.planes k = Tab.find s.que.planes k))

/-- R67, R168, R170, R385: ASID_CREATE gives a free ASID an empty table; MAP of a page enters its leaf, zeroing first a page that it takes
by ALLOC from the memory named, and UNMAP clears the leaf; both drop the cached translations of the range and complete once DONE is set, when
the pages of ALLOC that UNMAP gave up return to the free pool; ASID_DESTROY waits for the last task and the last command of an
outer stack, then takes the tables and TR_ROOT.V away; COLL_GROUP and SET_REG set what the checks allow. A command waits while a remap or an
open row is in the way of its tables and pages (R161, R163). Which free ASID, pages and tables are taken, and that a page past the Pergola's capacity or past
the memory windows cannot be named, are the choices of log entry 82; the walk is log entry 68. -/
def Obligations.AddressSpaceCommands : Prop :=
  (∀ (s : State) (via : Via) (root : Nat), Spec.Asked s via 8 →
    ((∀ a, 1 ≤ a → a ≤ 255 → Spec.Exists s a) → exec .asidCreate { s with inp := some (.asidCreate via root) } =
      .next (Spec.ended { s with inp := none } via 8 3 0xFFFF)) ∧
    ((∃ a, 1 ≤ a ∧ a ≤ 255 ∧ ¬ Spec.Exists s a) → root % 65536 = 0 → s.freeRange root 65536 = true →
      s.rangeFree root 65536 = false → exec .asidCreate { s with inp := some (.asidCreate via root) } = .next (Spec.quiet s)) ∧
    ((∃ a, 1 ≤ a ∧ a ≤ 255 ∧ ¬ Spec.Exists s a) → root % 65536 = 0 → s.freeRange root 65536 = true → s.rangeFree root 65536 = true →
      Spec.Coherent s.mem → ∃ (u : State) (a : Nat), 1 ≤ a ∧ a ≤ 255 ∧ ¬ Spec.Exists s a ∧
        exec .asidCreate { s with inp := some (.asidCreate via root) } = .next (Spec.ended u via 8 0 a) ∧
        Spec.Stored s.mem u.mem root (List.replicate 65536 0) ∧
        Tab.getD u.mem.trRoot a (false, 0) = (true, BitVec.ofNat 32 (root / 65536)) ∧
        ∀ b, b ≠ a → Tab.getD u.mem.trRoot b (false, 0) = Tab.getD s.mem.trRoot b (false, 0))) ∧
  (∀ (s : State) (via : Via) (a : Nat), Spec.Asked s via 9 →
    (¬ Spec.Exists s a → exec .asidDestroy { s with inp := some (.asidDestroy via a) } =
      .next (Spec.ended { s with inp := none } via 9 2 0)) ∧
    (Spec.Exists s a → (∃ x ∈ s.tsk.tasks, x.2.asid = a) ∨ (∃ q ∈ s.eng.nmQueue, ∃ c ∈ q.2, c.asid = a) →
      exec .asidDestroy { s with inp := some (.asidDestroy via a) } = .next { s with inp := none }) ∧
    (Spec.Exists s a → (∀ x ∈ s.tsk.tasks, x.2.asid ≠ a) → (∀ q ∈ s.eng.nmQueue, ∀ c ∈ q.2, c.asid ≠ a) → ∃ u : State,
      exec .asidDestroy { s with inp := some (.asidDestroy via a) } = .next (Spec.ended u via 9 0 0) ∧
      Tab.getD u.mem.trRoot a (false, 0) = (false, (Tab.getD s.mem.trRoot a (false, 0)).2) ∧
      (∀ x ∈ u.mem.tlb, ∀ t ∈ x.2, t.asid ≠ a) ∧ (∀ x ∈ u.que.alloc, x.2.2 ≠ a) ∧ (∀ x ∈ u.que.tables, x.2.2 ≠ a) ∧
      (∀ b, b ≠ a → Tab.getD u.mem.trRoot b (false, 0) = Tab.getD s.mem.trRoot b (false, 0)) ∧
      ∀ x, Spec.byteAt u.mem x = Spec.byteAt s.mem x)) ∧
  (∀ (s : State) (via : Via) (m : MapArgs), Spec.Asked s via 10 → s.inval? via 10 = none → ¬ Spec.MapReady s m →
    exec .map { s with inp := some (.map via m) } = .next (Spec.quiet s)) ∧
  (∀ (s : State) (via : Via) (op : Nat) (v : Inval) (e : Event) (i : Instr), Spec.Asked s via op → s.inval? via op = some v →
    (op = 10 ∧ i = .map ∧ (∃ m, e = .map via m) ∨ op = 11 ∧ i = .unmap ∧ ∃ asid va psize count, e = .unmap via asid va psize count) →
    (¬ Spec.InvEnds s v.mark → exec i { s with inp := some e } = .next (Spec.quiet s)) ∧
    (Spec.InvEnds s v.mark → exec i { s with inp := some e } = .next (Spec.ended { s with inp := none, que := { s.que with
        invals := s.que.invals.filter fun w => w.via != via || w.op != op,
        alloc := s.que.alloc.filter fun x => !v.pages.contains (x.1, x.2.2) } } via op 0 0))) ∧
  (∀ (s : State) (via : Via) (m : MapArgs), Spec.Asked s via 10 → s.inval? via 10 = none → Spec.MapReady s m →
    ((m.psize ≠ 2 ^ 16 ∧ m.psize ≠ 2 ^ 21 ∧ m.psize ≠ 2 ^ 30 ∨ m.va % m.psize ≠ 0 ∨ m.fmta = 15 ∨
        m.geom ≠ 0 ∧ (m.fmta.toNat < 7 ∨ 10 < m.fmta.toNat) ∨ ¬ Spec.Exists s m.asid ∨
        m.alloc = false ∧ 0 < m.count ∧ (m.pa % m.psize ≠ 0 ∨ m.pa < domainBase ∧ holeBase < m.pa + m.psize) ∨
        ∃ i < m.count, ∃ leaf, leafLevel m.psize = some leaf ∧
          ({ s with inp := none } : State).mappedAt (m.va + i * m.psize) (s.tableRoot m.asid) 0 leaf 4 = true) →
      exec .map { s with inp := some (.map via m) } = .next (Spec.ended { s with inp := none } via 10 2 0)) ∧
    (∀ (leaf pa at_ : Nat) (s1 s2 : State) (ts : List Nat), m.count = 1 → m.tables = [] →
      (leaf = 1 ∧ m.psize = 2 ^ 30 ∨ leaf = 2 ∧ m.psize = 2 ^ 21 ∨ leaf = 3 ∧ m.psize = 2 ^ 16) →
      Spec.Exists s m.asid → m.va % m.psize = 0 → m.va + m.psize ≤ 2 ^ 52 → m.fmta ≠ 15 → (m.geom = 0 ∨ 7 ≤ m.fmta.toNat ∧ m.fmta.toNat ≤ 10) →
      ({ s with inp := none } : State).mappedAt m.va (s.tableRoot m.asid) 0 leaf 4 = false →
      (m.alloc = false → pa = m.pa ∧ m.pa % m.psize = 0 ∧ s.nameable m.pa m.psize = true ∧ s1 = { s with inp := none }) →
      (m.alloc = true → m.pages = [pa] ∧ pa % m.psize = 0 ∧ s.freeRange pa m.psize = true ∧ m.from_.holds pa = true ∧
        s1 = ({ s with inp := none }).grant m) →
      s1.reachLeaf m.asid m.va (s1.tableRoot m.asid) 0 leaf [] 4 = some (at_, ts, s2) → Spec.Coherent s.mem →
      ∃ u t : State, exec .map { s with inp := some (.map via m) } = .next t ∧ Spec.EndsAtDone u t via 10 s.que.invals ∧
        Spec.NoTlb u.mem m.asid m.va m.psize ∧ Spec.DoneWhen u u.fresh ∧ u.mem.trRoot = s.mem.trRoot ∧
        ∀ a, Spec.byteAt u.mem a = if at_ ≤ a ∧ a < at_ + 8 then
            (bytesOf 8 (3 + 4 * m.w.toNat + 24 * m.ad.toNat + pa + 2 ^ 48 * m.fmta.toNat + 2 ^ 52 * m.geom.toNat)).getD (a - at_) 0
          else if m.alloc = true ∧ pa ≤ a ∧ a < pa + m.psize then 0 else Spec.byteAt s.mem a) ∧
    (∀ leaf, (leaf = 1 ∧ m.psize = 2 ^ 30 ∨ leaf = 2 ∧ m.psize = 2 ^ 21 ∨ leaf = 3 ∧ m.psize = 2 ^ 16) →
      Spec.Exists s m.asid → m.va % m.psize = 0 → m.va + m.count * m.psize ≤ 2 ^ 52 → m.fmta ≠ 15 →
      (m.geom = 0 ∨ 7 ≤ m.fmta.toNat ∧ m.fmta.toNat ≤ 10) → m.alloc = true → m.pages.length < m.count →
      (∀ i < m.count, ({ s with inp := none } : State).mappedAt (m.va + i * m.psize) (s.tableRoot m.asid) 0 leaf 4 = false) →
      exec .map { s with inp := some (.map via m) } = .next (Spec.ended { s with inp := none } via 10 3 0))) ∧
  (∀ (s : State) (via : Via) (asid va psize leaf : Nat), Spec.Asked s via 11 → s.inval? via 11 = none →
    (s.tablesFree asid va psize 1 = false → exec .unmap { s with inp := some (.unmap via asid va psize 1) } = .next (Spec.quiet s)) ∧
    (s.tablesFree asid va psize 1 = true → (leaf = 1 ∧ psize = 2 ^ 30 ∨ leaf = 2 ∧ psize = 2 ^ 21 ∨ leaf = 3 ∧ psize = 2 ^ 16) → Spec.Exists s asid → va % psize = 0 →
    va + psize ≤ 2 ^ 52 →
    (({ s with inp := none } : State).leafAt va (s.tableRoot asid) 0 leaf 4 = none →
      exec .unmap { s with inp := some (.unmap via asid va psize 1) } = .next (Spec.ended { s with inp := none } via 11 2 0)) ∧
    (∀ at_ pa, ({ s with inp := none } : State).leafAt va (s.tableRoot asid) 0 leaf 4 = some (at_, pa) → Spec.Coherent s.mem →
      ∃ u t : State, exec .unmap { s with inp := some (.unmap via asid va psize 1) } = .next t ∧ Spec.EndsAtDone u t via 11 s.que.invals ∧
        Spec.Stored s.mem u.mem at_ (List.replicate 8 0) ∧ Spec.NoTlb u.mem asid va psize ∧ Spec.DoneWhen u u.fresh ∧
        (Spec.InvEnds u u.fresh → u.que.alloc = s.que.alloc.filter fun x => !(x.1 == pa && x.2.2 == asid)) ∧
        (¬ Spec.InvEnds u u.fresh → u.que.alloc = s.que.alloc ∧ ∀ v ∈ u.que.invals, v ∉ s.que.invals → v.pages = [(pa, asid)])))) ∧
  (∀ (s : State) (via : Via) (g size scope asid : Nat) (mem : BitVec 192) (valid : Bool) (good : Prop), Spec.Asked s via 12 → g < 64 →
    good = ((scope = 3 ∧ 1 ≤ size ∧ size ≤ 1024 ∨ scope = 4 ∧ 1 ≤ size ∧ size ≤ 144) ∧ Spec.Exists s asid) →
    (¬ good → exec .collGroup { s with inp := some (.collGroup via g size scope asid mem valid) } =
      .next (Spec.ended { s with inp := none } via 12 2 0)) ∧
    (good → (∃ r ∈ s.eng.rounds, r.g = g ∧ r.status = none) →
      exec .collGroup { s with inp := some (.collGroup via g size scope asid mem valid) } =
        .next (Spec.ended { s with inp := none } via 12 4 0)) ∧
    (good → (∀ r ∈ s.eng.rounds, r.g = g → r.status ≠ none) → ∃ u : State,
      exec .collGroup { s with inp := some (.collGroup via g size scope asid mem valid) } = .next (Spec.ended u via 12 0 0) ∧
      u.mem = s.mem ∧ (Tab.getD u.eng.collGrp g .reset).size.toNat = size ∧ (Tab.getD u.eng.collGrp g .reset).scope.toNat = scope ∧
      (Tab.getD u.eng.collGrp g .reset).asid.toNat = asid ∧ (Tab.getD u.eng.collGrp g .reset).valid = valid ∧
      (∀ n < 144, (Tab.getD u.eng.collGrp g .reset).members.getLsbD n = mem.getLsbD n) ∧
      ∀ k, k ≠ g → Tab.getD u.eng.collGrp k .reset = Tab.getD s.eng.collGrp k .reset)) ∧
  (∀ (s : State) (via : Via) (off : Nat) (v : W64), Spec.Asked s via 13 →
    (Spec.setRegOffset off = false → exec .setReg { s with inp := some (.setReg via off v) } =
      .next (Spec.ended { s with inp := none } via 13 3 0)) ∧
    (Spec.setRegOffset off = true → ∃ u : State, exec .setReg { s with inp := some (.setReg via off v) } = .next (Spec.ended u via 13 0 0) ∧
      (off < 0x6300 ∨ 0x6318 ≤ off → u.tsk = s.tsk ∧ u.eng = s.eng ∧ u.fab = s.fab ∧ u.boot = s.boot) ∧
      (off = 0x7600 → u.sch.placeEn = v.getLsbD 0) ∧
      (off = 0x7608 → u.sch.quantum.toNat = min 10000000 (max 100 (v.toNat % 2 ^ 24))) ∧
      (off = 0x7610 → u.sch.drain.toNat = v.toNat % 2 ^ 16 ∧ u.sch.gapHi.toNat = v.toNat / 2 ^ 16 % 8 ∧
        u.sch.killRun.toNat = v.toNat / 2 ^ 32 % 2 ^ 16) ∧
      (off = 0x7618 → u.sch.saveBase.toNat = v.toNat % 2 ^ 48) ∧ (off = 0x7620 → u.sch.saveMib.toNat = v.toNat % 2 ^ 32) ∧
      (off = 0x7508 → u.que.repAddr.toNat = v.toNat % 2 ^ 48 ∧ u.que.repPeer.toNat = v.toNat / 2 ^ 48 % 2 ^ 8) ∧
      (off = 0x7510 → u.que.rackPrioMax.toNat = v.toNat % 8) ∧
      (off = 0x6348 → u.lnk.tmo.toNat = min 50000 (max 10 (v.toNat % 2 ^ 16))) ∧
      (off = 0x6608 → u.lnk.drainTmo.toNat = v.toNat % 2 ^ 16) ∧
      (off = 0x8800 → u.err.delay.toNat = min 1048575 (max 256 (v.toNat % 2 ^ 20))) ∧
      (off = 0x8808 → u.err.win.toNat = max 65536 (v.toNat % 2 ^ 32)) ∧ (off = 0x8810 → u.err.thresh.toNat = v.toNat % 16) ∧
      (off = 0x4E30 → u.mem.vbEn = v.getLsbD 0 ∧ u.mem.vbIdle.toNat = v.toNat / 2 ^ 8 % 2 ^ 8) ∧
      (off = 0x2100 → u.thm.resume.toNat = v.toNat / 2 ^ 8 % 2 ^ 8 ∧
        (v.toNat / 2 ^ 8 % 2 ^ 8 ≤ 250 → u.thm.retire.toNat = max (v.toNat % 2 ^ 8) (v.toNat / 2 ^ 8 % 2 ^ 8 + 5))) ∧
      (off = 0x6000 → v.toNat % 2 ^ 8 ≤ 143 → u.lnk.self.toNat = v.toNat % 2 ^ 8) ∧
      (∀ k < 3, off = 0x6300 + 8 * k → ∀ n < 144, u.lnk.peerMap.getLsbD n =
        if n / 64 = k then v.getLsbD (n % 64) else s.lnk.peerMap.getLsbD n) ∧
      (∀ k < 64, off = 0xA000 + 8 * k → (s.mem.wp k).phase = 0 → v.toNat % 32 ≤ 16 → (u.mem.wp k).spw1.toNat = v.toNat % 32 ∧
        (u.mem.wp k).spasid1.toNat = v.toNat / 32 % 256 ∧ (u.mem.wp k).taskWr = v.getLsbD 13)))

/-! ### Reset, boot and identity, the host port, registers (R4, R44 to R51, R187, R259) -/

namespace Sys2Proof.Spec
open Sys2Proof.Machine

/-- The source being tried fails with a code: the other is tried once, then the package stays in FAILED (R48, R49). -/
def bootFailed (b : Boot) (code now : Nat) : Boot :=
  if b.fellBack then { b with code := BitVec.ofNat 5 code, state := 3 }
  else { b with code := BitVec.ofNat 5 code, state := 1, fellBack := true, trying := !b.trying, since := now, dhcpV4 := false }
/-- The image is accepted and runs, with the `n`-th open microcode image, which is checked in the same way (R48, log entry 71). -/
def booted (f : Fuses) (b : Boot) (img : List Byte) (n : Nat) : Boot :=
  { b with state := 2, svn := BitVec.ofNat 8 (bytesAt img 7 1), firmware := (img.drop 0x1000).take (bytesAt img 8 4),
           microcode := Config.microcodeImage n, microOk := (f.imageFails (Config.microcodeImage n)).isNone }
/-- The package comes by the address of the management endpoint on Ethernet port `p` (R41, R49). -/
def addressed (l : Links) (p : Nat) (addr : List Byte) : Links :=
  { l with ethAddr := Tab.set l.ethAddr (2 * p) ((Tab.getD l.ethAddr (2 * p) (0, [])).1, addr) }
/-- An answer of the package's SPDM responder. -/
def answered (s : State) (t : Transport) (msg : String) (bs : List Byte) : State := { s with out := s.out ++ [.spdm t msg bs] }
/-- The SPDM requests of a transport, with how far its connection must have come. -/
def requests (t : Transport) (a b : Bool) (n : List Byte) (k : Nat) : List (Event × Nat) :=
  [(.getVersion t, 0), (.getCapabilities t, 1), (.negotiateAlgorithms t a b, 2), (.getDigests t, 3), (.getCertificate t, 3),
   (.challenge t n, 3), (.getMeasurements t k, 3), (.keyExchange t a, 3), (.finish t k, 3), (.endSession t k, 3)]
/-- The responder answers on a transport: in FAILED only DOE (R48), and TCP only over an Ethernet port that is up (R41). -/
def Reached (s : State) (t : Transport) : Prop := t = .doe ∨ s.boot.state ≠ 3 ∧ (s.lnk.ethFor 0).isSome = true
/-- The rack controller comes over Ethernet (R41, R46). -/
def Comes (s : State) (a : Agent) : Prop := a = .rack → (s.lnk.ethFor 0).isSome = true
/-- What GET_MEASUREMENTS sends for an index (R51). -/
def measured (s : State) (k : Nat) : List Byte :=
  if k = 0 then [5] else
  let m : List (List Byte) := [Config.romDigest, Config.sha384 s.boot.firmware ++ [BitVec.ofNat 8 s.boot.svn.toNat],
    Config.sha384 s.boot.microcode, bytesOf 1 s.fuse.revoked.toNat ++
      (List.range 256).flatMap (fun j => bytesOf 8 (Tab.getD s.fuse.badBanks j 0).toNat) ++ bytesOf 1 s.fuse.debugEnable.toNat,
    bytesOf 1 s.tap.en.toNat ++ bytesOf 1 s.lnk.self.toNat]
  if k = 0xFF then m.flatten else m.getD (k - 1) []
/-- The chain of R50. -/
def chain (s : State) : List Byte := (List.range 4).flatMap fun k => Config.certificate k (if k = 3 then s.boot.firmware else [])

end Sys2Proof.Spec

/-- R4, R41, R48, R49, R50: package reset returns everything but the fuses and host memory to reset; an image is accepted exactly when it is well
formed, both signatures verify, its keys hash to an unrevoked slot and its version is high enough; a failing source hands over to
the other once, with the code of the first failing check; no GO, or no file of the management link, within 60 s is code 6; a signed
command of the running firmware blows a revocation fuse. What package reset leaves to the outside (log entries 3, 70), the cryptography
(log entry 11) and the order and times of a boot (log entry 71) are read or chosen. -/
def Obligations.ResetAndBoot : Prop :=
  (∀ s : State, ∃ u : State, exec .packageReset { s with inp := some .packageReset } = .next u ∧ u.fuse = s.fuse ∧
    u.boot = .reset s.fuse ∧ u.fab = .reset ∧ u.tsk = .reset ∧ u.eng = .reset ∧ u.pow = .reset ∧ u.thm = .reset ∧ u.lnk = .reset ∧
    u.que = .reset ∧ u.sch = .reset ∧ u.err = .reset ∧ u.tap = .reset ∧ u.apBase = 0 ∧ u.pcieRate = 0 ∧ u.pcieWidth = 0 ∧
    u.mem = { Memory.reset s.fuse with host := s.mem.host, hostPois := s.mem.hostPois } ∧ u.out = s.out ∧ u.agenda = s.agenda) ∧
  (∀ (f : Fuses) (img : List Byte) (p k : Nat), p = bytesAt img 8 4 → k = bytesAt img 6 1 →
    ∀ form ecdsa lms keys : Prop,
    form = (bytesAt img 0 4 = 0x4E444657 ∧ bytesAt img 4 2 = 1 ∧ k ≤ 3 ∧ p ≠ 0 ∧ p % 4096 = 0 ∧ p ≤ 2 ^ 26 ∧ 0x1000 + p ≤ img.length ∧
      ∀ j, (0x14 ≤ j ∧ j < 0x20 ∨ 0xB8 ≤ j ∧ j < 0xC0 ∨ 0x80C ≤ j ∧ j < 0x1000) → img.getD j 0 = 0) →
    ecdsa = (Config.ecdsaVerifies ((img.drop 0x20).take 96) (Config.sha384 (img.take 0xC0 ++ (img.drop 0x1000).take p))
      ((img.drop 0xC0).take 96) = true) →
    lms = (Config.lmsVerifies ((img.drop 0x80).take 56) (img.take 0xC0 ++ (img.drop 0x1000).take p) ((img.drop 0x120).take 1772) = true) →
    keys = (f.revoked.getLsbD k = false ∧
      Tab.find f.slotDigests k = some (Config.sha384 ((img.drop 0x20).take 96), Config.sha384 ((img.drop 0x80).take 56))) →
    (f.imageFails img = none ↔ form ∧ ecdsa ∧ lms ∧ keys ∧ f.svn.toNat ≤ bytesAt img 7 1) ∧
    (f.imageFails img = some 5 ↔ ¬ form) ∧ (f.imageFails img = some 1 ↔ form ∧ ¬ ecdsa) ∧
    (f.imageFails img = some 2 ↔ form ∧ ecdsa ∧ ¬ lms) ∧ (f.imageFails img = some 3 ↔ form ∧ ecdsa ∧ lms ∧ ¬ keys) ∧
    (f.imageFails img = some 4 ↔ form ∧ ecdsa ∧ lms ∧ keys ∧ bytesAt img 7 1 < f.svn.toNat)) ∧
  (∀ (s : State) (len : W32) (bs : List Byte), s.boot.state = 1 → s.boot.trying = false → Spec.Coherent s.mem →
    bs = (List.range (min len.toNat (0x1000 + 2 ^ 26))).map (Spec.byteAt s.mem) →
    ∃ u : State, exec .bootPushGo { s with inp := some (.bootPushGo len) } = .next u ∧ Spec.SameBytes s.mem u.mem ∧
      u.boot = match s.fuse.imageFails bs with
        | some c => Spec.bootFailed { s.boot with pushLen := len } c s.units
        | none => Spec.booted s.fuse { s.boot with pushLen := len } bs s.fresh) ∧
  (∀ (s : State) (p : Nat) (addr img : List Byte), s.boot.state = 1 → s.boot.trying = true →
    (p = 0 ∧ s.lnk.ethIsUp 0 = true ∨ p = 1 ∧ s.lnk.ethIsUp 0 = false ∧ s.lnk.ethIsUp 1 = true) →
    addr.length = (if s.boot.dhcpV4 then 4 else 16) →
    exec .bootNetworkFetchDone { s with inp := some (.bootNetworkFetchDone addr img) } = .next (match s.fuse.imageFails img with
      | some c => { s with inp := none, lnk := Spec.addressed s.lnk p addr, boot := Spec.bootFailed s.boot c s.units }
      | none => { s with inp := none, lnk := Spec.addressed s.lnk p addr, fresh := s.fresh + 1,
                         boot := Spec.booted s.fuse s.boot img s.fresh })) ∧
  (∀ (s : State) (img : List Byte), s.lnk.ethIsUp 0 = false → s.lnk.ethIsUp 1 = false → s.boot.state = 1 → ∀ addr,
    exec .bootNetworkFetchDone { s with inp := some (.bootNetworkFetchDone addr img) } = .next { s with inp := none }) ∧
  (∀ (s : State) (linkUp start : Nat), s.boot.state = 1 →
    start = (if s.boot.trying then max s.boot.since linkUp else s.boot.since) →
    (start + 60000000 * 5544000 ≤ s.units → exec .bootSourceTimeout { s with inp := some (.bootSourceTimeout linkUp) } =
      .next { s with inp := none, boot := Spec.bootFailed s.boot 6 s.units }) ∧
    (s.units < start + 60000000 * 5544000 → exec .bootSourceTimeout { s with inp := some (.bootSourceTimeout linkUp) } =
      .next { s with inp := none }) ∧
    (s.boot.trying = true → s.boot.since + 5000000 * 5544000 ≤ s.units → exec .dhcpv6Timeout { s with inp := some .dhcpv6Timeout } =
      .next { s with inp := none, boot := { s.boot with dhcpV4 := true } })) ∧
  (∀ (s : State) (c : Nat), s.boot.fellBack = true → (Spec.bootFailed s.boot c s.units).state = 3) ∧
  (∀ (s : State) (k : Nat) (sig : List Byte), step { s with agenda := .revoke k sig :: s.agenda } =
    .next (if s.boot.state = 2 ∧ k < 4 ∧ Config.revocationSigned k sig = true then
      { s with fuse := { s.fuse with revoked := s.fuse.revoked ||| BitVec.ofNat 4 (2 ^ k) } } else s)) ∧
  (∀ s : State, s.boot.state = 0 → s.tick.boot = { s.boot with state := 1, trying := s.boot.src })

/-- R48, R50, R51: in FAILED only DOE answers; a request before its time is an ERROR; the version is 1.3, the algorithms ECDSA P-384 and
SHA-384; digests, the chain and the five measurements are sent as R50 and R51 give them, and the alias key signs the challenge, the
measurements and the key exchange; four sessions, none with a pre-shared key; TCP needs an Ethernet port that is up (R41). The order of
requests and ERROR come from SPDM 1.3 (log entry 27); the cryptography is free (log entry 11); what is measured as firmware and that FAILED
leaves DOE are log entries 71 and 72. -/
def Obligations.IdentityMessages : Prop :=
  (∀ (s : State) (t : Transport) (a b : Bool) (n : List Byte) (k : Nat), ∀ e ∈ Spec.requests t a b n k,
    (¬ Spec.Reached s t → exec e.1.instr { s with inp := some e.1 } = .next { s with inp := none }) ∧
    (Spec.Reached s t → s.boot.phase t < e.2 →
      exec e.1.instr { s with inp := some e.1 } = .next (Spec.answered { s with inp := none } t "ERROR" []))) ∧
  (∀ (s : State) (t : Transport), Spec.Reached s t → ∃ u : State,
    exec .getVersion { s with inp := some (.getVersion t) } = .next (Spec.answered u t "VERSION" [0x13]) ∧ u.boot.phase t = 1 ∧
      (∀ x, x ≠ t → u.boot.phase x = s.boot.phase x) ∧ u.boot.sessions = s.boot.sessions ∧ u.boot.state = s.boot.state) ∧
  (∀ (s : State) (t : Transport), Spec.Reached s t → 1 ≤ s.boot.phase t → ∃ u : State,
    exec .getCapabilities { s with inp := some (.getCapabilities t) } = .next (Spec.answered u t "CAPABILITIES" []) ∧
      u.boot.phase t = 2 ∧ ∀ x, x ≠ t → u.boot.phase x = s.boot.phase x) ∧
  (∀ (s : State) (t : Transport) (a b : Bool), Spec.Reached s t → 2 ≤ s.boot.phase t → ∃ u : State,
    exec .negotiateAlgorithms { s with inp := some (.negotiateAlgorithms t a b) } =
      .next (Spec.answered u t "ALGORITHMS" [if a then 1 else 0, if b then 1 else 0]) ∧
      u.boot.phase t = if a && b then 3 else s.boot.phase t) ∧
  (∀ (s : State) (t : Transport), Spec.Reached s t → 3 ≤ s.boot.phase t →
    exec .getDigests { s with inp := some (.getDigests t) } =
      .next (Spec.answered { s with inp := none } t "DIGESTS" (Config.sha384 (Spec.chain s))) ∧
    exec .getCertificate { s with inp := some (.getCertificate t) } =
      .next (Spec.answered { s with inp := none } t "CERTIFICATE" (Spec.chain s)) ∧
    (∀ n, exec .challenge { s with inp := some (.challenge t n) } =
      .next (Spec.answered { s with inp := none } t "CHALLENGE_AUTH" (Config.aliasSign s.boot.firmware n))) ∧
    (∀ k bs, bs = Spec.measured s k → exec .getMeasurements { s with inp := some (.getMeasurements t k) } = .next
      (if k ≤ 5 ∨ k = 0xFF then Spec.answered { s with inp := none } t "MEASUREMENTS" (bs ++ Config.aliasSign s.boot.firmware bs)
       else Spec.answered { s with inp := none } t "ERROR" [])) ∧
    (∀ psk, (psk = true ∨ 4 ≤ s.boot.sessions.length) → exec .keyExchange { s with inp := some (.keyExchange t psk) } =
      .next (Spec.answered { s with inp := none } t "ERROR" [])) ∧
    (s.boot.sessions.length < 4 → exec .keyExchange { s with inp := some (.keyExchange t false) } = .next (Spec.answered
      { s with inp := none, fresh := s.fresh + 1,
               boot := { s.boot with sessions := s.boot.sessions ++ [{ sid := s.fresh, t := t, finished := false }] } }
      t "KEY_EXCHANGE_RSP" (bytesOf 4 s.fresh ++ Config.aliasSign s.boot.firmware (bytesOf 4 s.fresh)))) ∧
    (∀ sid, (∃ x ∈ s.boot.sessions, x.sid = sid ∧ x.t = t ∧ x.finished = false) → ∃ u : State,
      exec .finish { s with inp := some (.finish t sid) } = .next (Spec.answered u t "FINISH_RSP" []) ∧
      u.boot.sessions = s.boot.sessions.map fun x => if x.sid = sid then { x with finished := true } else x) ∧
    (∀ sid, (∀ x ∈ s.boot.sessions, ¬ (x.sid = sid ∧ x.t = t ∧ x.finished = false)) →
      exec .finish { s with inp := some (.finish t sid) } = .next (Spec.answered { s with inp := none } t "ERROR" [])) ∧
    (∀ sid, (∃ x ∈ s.boot.sessions, x.sid = sid ∧ x.t = t ∧ x.finished = true) → ∃ u : State,
      exec .endSession { s with inp := some (.endSession t sid) } = .next (Spec.answered u t "END_SESSION_ACK" []) ∧
      ∀ x, x ∈ u.boot.sessions ↔ x ∈ s.boot.sessions ∧ x.sid ≠ sid) ∧
    ∀ sid, (∀ x ∈ s.boot.sessions, ¬ (x.sid = sid ∧ x.t = t ∧ x.finished = true)) →
      exec .endSession { s with inp := some (.endSession t sid) } = .next (Spec.answered { s with inp := none } t "ERROR" []))

/-- R4, R44 to R47, R187, R236, R259: an access of another size or alignment, or a BAR2 access to the hole or beyond, gets Unsupported
Request and does nothing; BAR2 reads and writes local memory, and a poisoned TLP is reported and
marks what it writes; the host, the rack controller and the Lodge each change their own
fields and no other; a read by the host or the Lodge clears RC fields, one by the rack controller clears none; ARM_RPT is freed; a write of
one half of a word leaves the other half as it was. The rack controller comes over Ethernet (R41). What BAR2 does where no memory answers,
FAILED's silence and what register writes without a rule of their own do are log entries 64, 72, 73 and 91. -/
def Obligations.HostPortAndRegisters : Prop :=
  (∀ (s : State) (off n a : Nat), s.boot.state ≠ 3 → 0 < n → a = s.apBase.toNat * 2 ^ 30 + off →
    ((∃ x, a ≤ x ∧ x < a + n ∧ holeBase ≤ x) →
      exec .bar2Read { s with inp := some (.bar2Read off n) } = .next { s with inp := none, out := s.out ++ [.unsupportedRequest] } ∧
      ∀ (d : List Byte) (pois : Bool), d.length = n → exec .bar2Write { s with inp := some (.bar2Write off d pois) } =
        .next { s with inp := none, out := s.out ++ [.unsupportedRequest] }) ∧
    (a + n ≤ holeBase → (∀ x, a ≤ x → x < a + n → s.rowFree x = true ∧ s.backed x = true) → Spec.Coherent s.mem →
      (∃ (u : State) (p : Bool), exec .bar2Read { s with inp := some (.bar2Read off n) } = .next u ∧ Spec.SameBytes s.mem u.mem ∧
        u.out = s.out ++ [.bar2Data ((List.range n).map fun j => Spec.byteAt s.mem (a + j)) p]) ∧
      ∀ (d : List Byte) (pois : Bool), d.length = n → ∃ u : State, exec .bar2Write { s with inp := some (.bar2Write off d pois) } = .next u ∧
        u.out = s.out ++ (if pois then [.poisonedTlp] else []) ∧ Spec.Stored s.mem u.mem a d ∧
        ∀ k, a ≤ 16 * k → 16 * k + 16 ≤ a + n → Spec.markAt u.mem k = pois)) ∧
  (∀ (s : State) (r w : Nat), 1 ≤ r → r ≤ 6 → (w = 16 ∨ w = 8) → ∃ u : State,
    exec .pcieLinkTrained { s with inp := some (.pcieLinkTrained r w) } = .next u ∧ u.pcieRate.toNat = r ∧ u.pcieWidth.toNat = w ∧
      u.mem = s.mem ∧ u.out = s.out) ∧
  (∀ (s : State) (off n : Nat), s.boot.state = 3 → exec .bar2Read { s with inp := some (.bar2Read off n) } = .next (Spec.quiet s) ∧
    ∀ d pois, exec .bar2Write { s with inp := some (.bar2Write off d pois) } = .next (Spec.quiet s)) ∧
  (∀ (s : State) (off n : Nat) (v : W64) (a : Agent), Spec.Comes s a → ¬ ((n = 4 ∨ n = 8) ∧ off % n = 0 ∧ off + n ≤ 0x4000000) →
    exec .bar0UnsupportedAccess { s with inp := some (.bar0UnsupportedAccess off n) } =
      .next { s with inp := none, out := s.out ++ [.unsupportedRequest] } ∧
    exec .registerWrite { s with inp := some (.registerWrite a off n v) } =
      .next { s with inp := none, out := s.out ++ [.unsupportedRequest] } ∧
    step { s with agenda := .regRead a off n :: s.agenda } = .next { s with out := s.out ++ [.unsupportedRequest] }) ∧
  (∀ s : State, (s.boot.state ≠ 3 → exec .armRptClear { s with inp := some .armRptClear } =
      .next { s with inp := none, err := { s.err with armValid := false } }) ∧
    (s.boot.state = 3 → exec .armRptClear { s with inp := some .armRptClear } = .next (Spec.quiet s))) ∧
  (∀ (s : State) (v : W64), s.boot.state ≠ 3 → ∀ w : Agent → Nat → State,
    (∀ a o, o % 8 = 0 → o < 0x4000000 → exec .registerWrite { s with inp := some (.registerWrite a o 8 v) } = .next (w a o)) →
    (w .host 0x1000).boot.src = v.getLsbD 0 ∧ (w .host 0x1010).boot.pushLen.toNat = v.toNat % 2 ^ 32 ∧
    ((w .host 0x2008).pow.floor = (s.pow.floor && !v.getLsbD 40) ∧ (w .host 0x2008).pow.ovf = (s.pow.ovf && !v.getLsbD 41) ∧
      (w .host 0x2008).pow.clamp = (s.pow.clamp && !v.getLsbD 42)) ∧
    (s.fuse.debugEnable = true → (w .host 0x8C00).tap.en = v.getLsbD 0 ∧ (w .host 0x8C08).tap.ring.toNat = v.toNat % 2 ^ 48) ∧
    (w .lodge 0x8C00).tap.en = (v.getLsbD 0 && s.fuse.debugEnable) ∧
    (∀ o, o % 8 = 0 → o < 0x4000000 → (o ≠ 0x1000 ∧ o ≠ 0x1010 ∧ o ≠ 0x2008 ∧ (s.fuse.debugEnable = false ∨ o < 0x8C00 ∨ 0x8CC0 ≤ o) →
      w .host o = { s with inp := none }) ∧
      (o ≠ 0x2008 ∧ o ≠ 0x6348 ∧ o ≠ 0x6608 → w .rack o = { s with inp := none })) ∧
    (Spec.Comes s .rack → (w .rack 0x2008).pow = (w .host 0x2008).pow) ∧
    (Spec.Comes s .rack → (w .rack 0x6348).lnk.tmo.toNat = min 50000 (max 10 (v.toNat % 2 ^ 16)) ∧ (w .rack 0x6608).lnk.drainTmo.toNat = v.toNat % 2 ^ 16) ∧
    ((w .lodge 0x1100).apBase.toNat = v.toNat % 2 ^ 17 ∧ (w .lodge 0x7000).que.qtab.toNat = v.toNat % 2 ^ 48 ∧
      (w .lodge 0x7600).sch.placeEn = v.getLsbD 0) ∧
    (∀ k < 16, ∀ j < 1024, (w .lodge (0x7400 + 8 * k)).que.pend.getLsbD j =
      (s.que.pend.getLsbD j && !(decide (j / 64 = k) && v.getLsbD (j % 64)))) ∧
    (∀ a < 256, Tab.getD (w .lodge (0x9000 + 8 * a)).mem.trRoot a (false, 0) = (v.getLsbD 0, BitVec.ofNat 32 (v.toNat / 2 ^ 16))) ∧
    ∀ a o, (w a o).fab = s.fab ∨ ¬ (o % 8 = 0 ∧ o < 0x4000000)) ∧
  (∀ (s : State) (v : W64), s.boot.state ≠ 3 → ∃ u : State,
    exec .registerWrite { s with inp := some (.registerWrite .lodge 0x7614 4 v) } = .next u ∧ u.sch.killRun.toNat = v.toNat % 2 ^ 16 ∧
      u.sch.drain = s.sch.drain ∧ u.sch.gapHi = s.sch.gapHi) ∧
  (∀ (s : State) (v : W64) (h : Bool), s.boot.state ≠ 3 → ∃ u : State,
    exec .registerWrite { s with inp := some (.registerWrite .lodge (0x4E18 + 4 * h.toNat) 4 v) } = .next u ∧
      u.mem.pgReturnBed = s.mem.pgReturnBed ∧ ∀ b j, j < 64 → (Tab.getD u.mem.pgReturn b 0).getLsbD j =
        if b = s.mem.pgReturnBed.toNat ∧ j / 32 = h.toNat then v.getLsbD (j % 32) else (Tab.getD s.mem.pgReturn b 0).getLsbD j) ∧
  (∀ (s : State) (v : W64), s.boot.state ≠ 3 → ∃ u : State,
    exec .registerWrite { s with inp := some (.registerWrite .lodge 0x4E14 4 v) } = .next u ∧ u.mem.pgReturnBed = s.mem.pgReturnBed ∧
      u.mem.pgReturn = s.mem.pgReturn) ∧
  (∀ (s : State) (a : Agent) (o : Nat) (v : W64), s.boot.state = 3 → Spec.Comes s a → o % 8 = 0 → o < 0x4000000 → o ≠ 0x1000 → o ≠ 0x1008 →
    exec .registerWrite { s with inp := some (.registerWrite a o 8 v) } = .next { s with inp := none } ∧
    step { s with agenda := .regRead a o 8 :: s.agenda } = .next { s with out := s.out ++ [.barRead (List.replicate 8 0)] }) ∧
  (∀ (s : State) (a : Agent), s.boot.state ≠ 3 → Spec.Comes s a → ∀ rd : Nat → State,
    (∀ o, o % 8 = 0 → o < 0x4000000 → step { s with agenda := .regRead a o 8 :: s.agenda } = .next (rd o)) →
    ((rd 0x1008).out = s.out ++ [.barRead (bytesOf 8 (s.boot.state.toNat + 8 * s.boot.code.toNat + 2 ^ 8 * s.boot.svn.toNat))] ∧
      (rd 0x4E18).out = s.out ++ [.barRead (List.replicate 8 0)] ∧ (rd 0x2000).out = s.out ++ [.barRead (bytesOf 8 (s.pow.cap.toNat + 2 ^ 32 * s.pow.win.toNat))] ∧
      (rd 0x7538).out = s.out ++ [.barRead (bytesOf 8 (s.que.admRd.toNat + 2 ^ 32 * s.que.admCwr.toNat))] ∧
      (rd 0x8808).out = s.out ++ [.barRead (bytesOf 8 s.err.win.toNat)] ∧ (rd 0x1018).out = s.out ++ [.barRead (List.replicate 8 0)]) ∧
    (a ≠ .rack → (rd 0x6350).lnk = { s.lnk with late := 0, dlLost := 0 } ∧ (rd 0x8818).err.replays = 0 ∧ (rd 0x8818).err.lost = 0 ∧
      (rd 0x7628).sch = { s.sch with drains := 0, kills := 0, ckpts := 0, ckFail := 0 } ∧ (rd 0x7708).err.armCount = 0) ∧
    (a = .rack → (rd 0x6350).lnk = s.lnk ∧ (rd 0x8818).err = s.err ∧ (rd 0x7628).sch = s.sch) ∧
    ∀ o, o % 8 = 0 → o < 0x4000000 → (rd o).fab = s.fab ∧ (rd o).tsk = s.tsk ∧ (rd o).eng = s.eng ∧ (rd o).pow = s.pow ∧
      (rd o).que.pend = s.que.pend)

/-! ### Decoding, the step, reset, and what every step keeps -/

namespace Sys2Proof.Spec
open Sys2Proof.Machine

/-- A node record with every field 0 (R237). -/
def plain : NodeRec :=
  { fmt := 0, gapA := .refuse, gapB := .refuse, pm := .none, aux := 0, lit := false, v := false, dst0 := .none, dst1 := .none, lit32 := 0 }
/-- Words written out from the tables of R237 and R241, with what they say. -/
def words : List (List Byte × Instr) :=
  [([0x01, 0x8C, 0x82, 0x15, 0xE2, 0x07, 0, 0, 0, 0, 0, 0],
    .mov { plain with fmt := 4, gapA := .hold, pm := .onTrue, aux := 1, v := true, dst0 := .relative (-1) 2 5 .b }),
   ([0x16, 0, 0, 0x04, 0, 0x04, 0, 0, 0, 0, 0, 0], .istamp { plain with dst0 := .relative 0 0 1 .a }),
   ([0x20, 0x04, 0x40, 0xFC, 0x01, 0x0A, 0, 0, 0xFF, 0xFF, 0xFF, 0xFF],
    .add { plain with fmt := 4, lit := true, dst0 := .far 513 63 .a, lit32 := 0xFFFFFFFF }),
   ([0x37, 0x42, 0x81, 0xC8, 0, 0x2C, 0xF0, 0x43, 0, 0, 0, 0],
    .sar { plain with fmt := 2, gapB := .lerp, pm := .onFalse, v := true, dst0 := .port 200, dst1 := .relative 1 (-1) 0 .p }),
   ([0x48, 0x01, 0, 0x0C, 0x01, 0x04, 0, 0, 0, 0, 0, 0], .fcmplt { plain with fmt := 1, dst0 := .relative 0 1 3 .a }),
   ([0x53, 0, 0x8A, 0x08, 0, 0x04, 0, 0, 0, 0, 0, 0], .fma { plain with aux := 5, v := true, dst0 := .relative 0 0 2 .a }),
   ([0x70, 0x01, 0x90, 0x08, 0, 0x04, 0, 0, 0x1B, 0, 0, 0],
    .cvt { plain with fmt := 1, aux := 8, v := true, dst0 := .relative 0 0 2 .a, lit32 := 0x1B }),
   ([0x80, 0x02, 0x80, 0x25, 0x60, 0x04, 0, 0, 0, 0, 0, 0], .vshuf { plain with fmt := 2, v := true, dst0 := .relative 3 0 9 .b }),
   ([0x90, 0x03, 0, 0x1C, 0, 0x04, 0, 0, 0x10, 0, 0, 0x80],
    .ld { plain with fmt := 3, dst0 := .relative 0 0 7 .a, lit32 := 0x80000010 }),
   ([0xA8, 0x03, 0x3E, 0, 0, 0, 0, 0, 0, 0, 0, 0], .amocas { plain with fmt := 3, aux := 31 }),
   ([0xB0, 0, 0, 0, 0, 0, 0, 0, 0x12, 0, 0, 0], .br { plain with lit32 := 0x12 }),
   ([0xC0, 0, 0, 0, 0, 0x04, 0, 0, 0x12, 0, 0, 0], .sbind { plain with dst0 := .relative 0 0 0 .a, lit32 := 0x12 }),
   ([0xC9, 0x01, 0x88, 0x20, 0, 0x04, 0, 0, 0x2A, 0, 0, 0],
    .qputNb { plain with fmt := 1, aux := 4, v := true, dst0 := .relative 0 0 8 .a, lit32 := 0x2A }),
   ([0xD1, 0, 0x02, 0, 0, 0, 0, 0, 0x40, 0, 0, 0], .mmac { plain with aux := 1, lit32 := 0x40 }),
   ([0xE0, 0, 0, 0, 0, 0, 0, 0, 0, 0x02, 0, 0], .fctb { plain with lit32 := 0x200 }),
   ([0xF7, 0, 0, 0, 0, 0, 0, 0, 0, 0, 0, 0], .halt plain)]

/-- A context could issue this firing now: it is its oldest ready one, came before this cycle, finds no result in the output latch and needs
no busy divider (R115). -/
def CanIssue (s : State) (e c : Nat) (f : Firing) : Prop :=
  (s.ctx e c).ready.head? = some f ∧ (s.ctx e c).holds s.cycles = false ∧ f.since < s.cycles ∧
  ∀ opc r, s.recAt e c f.node = some (opc, r) → opc ∈ [0x25, 0x26, 0x62, 0x63] → Tab.getD s.fab.divBusy e 0 ≤ s.cycles
/-- The `k`-th context in turn after the one last served (R83). -/
def inTurn (s : State) (e k : Nat) : Nat := (Tab.getD s.fab.lastServed e 3 + 1 + k) % 4
/-- The element's issue slot of this cycle is free, not withheld and not taken by an array or a bed (R24, R115, R124, R141). -/
def SlotFree (s : State) (e : Nat) : Prop :=
  busyIssue e ∉ s.busy ∧ s.replaying e = false ∧ s.serves e = false ∧ s.pow.throttle = 0
/-- The bytes of a node's record (R96). -/
def recordBytes (s : State) (e c n : Nat) : List Byte := (List.range 12).map fun j => Tab.getD s.fab.store (e * 4096 + c * 1024 + 12 * n + j) 0
/-- Nothing takes effect at the end of this cycle: no LEAVE, no watch that reads, times out or is woken, no literal under way (R330, R344,
R348, R368). -/
def EndsQuiet (s : State) : Prop :=
  (∀ x ∈ s.tsk.tasks, ∀ g ∈ x.2.groups, g.2.leaving = []) ∧
  (∀ w ∈ s.mem.watches, w.due = false ∧ w.expired = false ∧ w.woken = none) ∧ ∀ h ∈ s.fab.held, h.done = none
/-- A firing that element replay has found again (R223). -/
def Found (s : State) (e : Nat) (f : Firing) : Bool := (Tab.getD s.fab.issued e []).any fun x => x.2.same f
/-- The issue slot comes next, and the instruction that the record holds runs for this firing, leaving the context this credit; but one of
memory, control or an engine that replay has found again is not repeated (R191, R223). -/
def Issues (s : State) (e c : Nat) (f : Firing) (credit : Nat) : Prop :=
  ∀ ins opc r, decode (recordBytes s e c f.node) = .ok ins → ins.node? = some (opc, r) → s.eng.faults = [] →
    ∃ t : State, ((Found s e f && decide (0x90 ≤ opc)) = false → step { s with agenda := .issue e :: s.agenda } = exec ins t ∧
        t.cur = some { elem := e, ctx := c, f := { f with again := Found s e f } }) ∧
      ((Found s e f && decide (0x90 ≤ opc)) = true → step { s with agenda := .issue e :: s.agenda } = .next t ∧ t.cur = none) ∧
      (t.ctx e c).ready = (s.ctx e c).ready.tail ++ (s.ctx e c).waiting.take (17 - (s.ctx e c).ready.length) ∧
      (t.ctx e c).credit = credit ∧ Tab.getD t.fab.lastServed e 3 = c ∧ busyIssue e ∈ t.busy ∧ t.fab.store = s.fab.store ∧
      t.agenda = s.agenda ∧ t.mem = s.mem ∧ t.tsk = s.tsk ∧ t.eng = s.eng ∧ t.que = s.que ∧ t.out = s.out ∧ t.settings = s.settings

end Sys2Proof.Spec

/-- R237 to R241: the encoder writes the 12 bytes of every well-formed node form, with each operand at each value that the encoding
admits, and the decoder reads that form back whatever follows; and what the decoder reads from bytes encodes to those bytes. A step of
the package has no encoding. -/
def Obligations.DecodeAndEncodeAgree : Prop :=
  (∀ i : Instr, i.wf = true → i.node?.isSome = true → ∃ bs, encode i = some bs ∧ bs.length = 12 ∧ ∀ more, decode (bs ++ more) = .ok i) ∧
  (∀ bs i, decode bs = .ok i → i.node?.isSome = true ∧ encode i = some (bs.take 12)) ∧
  ∀ i : Instr, i.node? = none → encode i = none

/-- R237, R238, R241, R248: words written out from the tables decode to what they stand for; the empty node, opcode 0, an unassigned
opcode, code 11 in GAP, PM or PORT, and a destination with a reserved bit set are each refused by name. -/
def Obligations.WordsDecode : Prop :=
  (∀ x ∈ Spec.words, decode x.1 = .ok x.2) ∧
  (∀ bs : List Byte, bs.length < 12 → decode bs = .error .tooShort) ∧
  decode (List.replicate 12 0) = .error .emptyNode ∧
  decode [0, 1, 0, 0, 0, 0, 0, 0, 0, 0, 0, 0] = .error .zeroOpcode ∧
  decode [0x0F, 0, 0, 0, 0, 0, 0, 0, 0, 0, 0, 0] = .error (.unassignedOpcode 0x0F) ∧
  decode [0x20, 0x18, 0, 0, 0, 0, 0, 0, 0, 0, 0, 0] = .error .gapCode ∧
  decode [0x20, 0x80, 0x01, 0, 0, 0, 0, 0, 0, 0, 0, 0] = .error .predCode ∧
  decode [0x20, 0, 0, 0x03, 0, 0x04, 0, 0, 0, 0, 0, 0] = .error .destination ∧
  decode [0x20, 0, 0, 0x01, 0, 0, 0, 0, 0, 0, 0, 0] = .error .destination ∧
  decode [0x20, 0, 0, 0, 0x01, 0x0C, 0, 0, 0, 0, 0, 0] = .error .destination

/-- R24, R40, R44, R83, R115, R124, R141, R223, R235: an element's issue slot goes to the first context in turn that can issue and has credit, or, when none has, to the
first that can issue, at the start of a round; the instruction that its record holds runs for that firing. A record that is no
instruction is the model's one stop. A withheld or used slot, one that serves an array or a bed,
or one with nothing to issue, passes. The other entries of the agenda,
the model's order of events (log entry 1), run a step of the package, let a cycle pass, in which
some buffered trace records leave (log entry 66) and the units that are blocked are counted, let the host store, good or poisoned, report a poisoned
write of BAR0, or enable flow control of priority classes. How credit and rounds run, the word placed for a first
instruction, and the stop at a record that is no instruction are log entries 25, 40 and 87. -/
def Obligations.StepRunsTheDecodedInstruction : Prop :=
  (∀ (s : State) (e k c : Nat) (f : Firing), k < 4 → c = Spec.inTurn s e k → Spec.SlotFree s e → Spec.CanIssue s e c f →
    (0 < (s.ctx e c).credit → (∀ j < k, ∀ g, Spec.CanIssue s e (Spec.inTurn s e j) g → (s.ctx e (Spec.inTurn s e j)).credit = 0) →
      Spec.Issues s e c f ((s.ctx e c).credit - 1) ∧
      ∀ x, decode (Spec.recordBytes s e c f.node) = .error x →
        step { s with agenda := .issue e :: s.agenda } = .fault (.undecodableRecord e c f.node)) ∧
    ((∀ j < 4, ∀ g, Spec.CanIssue s e (Spec.inTurn s e j) g → (s.ctx e (Spec.inTurn s e j)).credit = 0) →
      (∀ j < k, ∀ g, ¬ Spec.CanIssue s e (Spec.inTurn s e j) g) →
      ∀ tid t, (s.ctx e c).owner = some tid → s.task? tid = some t → Spec.Issues s e c f t.prio)) ∧
  (∀ (s : State) (e : Nat), (busyIssue e ∈ s.busy ∨ s.replaying e = true ∨ s.serves e = true ∨
      ∀ c < 4, ∀ g, ¬ Spec.CanIssue s e c g) → step { s with agenda := .issue e :: s.agenda } = .next s) ∧
  (∀ (s : State) (e : Event), step { s with agenda := .event e :: s.agenda } = exec e.instr { s with inp := some e }) ∧
  (∀ s : State, Spec.EndsQuiet s → ∃ (t : State) (n : Nat) (counts : Tab Nat),
    step { s with agenda := .cycle :: s.agenda } = .next t ∧ (s.agenda = [] → step s = .next t) ∧
      n ≤ s.tap.buf.length ∧ t.tap.buf = s.tap.buf.drop n ∧ t.cycles = s.cycles + 1 ∧
      t.units = s.units + 27720 / (12 - s.pow.step.toNat) ∧ t.busy = [] ∧ t.turns = [] ∧
      t.boot = (if s.boot.state = 0 then { s.boot with state := 1, trying := s.boot.src } else s.boot) ∧
      t.agenda = (s.que.late.map Stim.event) ++ s.agenda ∧ t.que = { s.que with late := [] } ∧
      t.err = { s.err with blockedFor := counts } ∧
      t.fab = s.fab ∧ t.tsk = s.tsk ∧ t.eng = s.eng ∧ t.out = s.out ∧ t.lnk = s.lnk ∧ t.sch = s.sch ∧ (n = 0 → t.mem = s.mem)) ∧
  (∀ (s : State) (a : Nat) (bs : List Byte) (p : Bool), Tab.wf 0 s.mem.host = true → ∃ u : State,
    step { s with agenda := .hostStore a bs p :: s.agenda } = .next u ∧ u.out = s.out ∧ u.fab = s.fab ∧ u.tsk = s.tsk ∧
      u.mem.hostPois = markPois s.mem.hostPois a bs.length p ∧
      ∀ x, Tab.getD u.mem.host x 0 = if a ≤ x ∧ x < a + bs.length then bs.getD (x - a) 0 else Tab.getD s.mem.host x 0) ∧
  (∀ (s : State) (n : Nat), step { s with agenda := .poisonedBar0 n :: s.agenda } = .next { s with out := s.out ++ [.poisonedTlp] }) ∧
  (∀ (s : State) (p : Nat) (c : BitVec 8), s.boot.state = 2 → p < 2 → step { s with agenda := .pfc p c :: s.agenda } =
    .next { s with lnk := { s.lnk with pfc := Tab.set s.lnk.pfc p c } }) ∧
  ∀ (w : Nat) (ins : Instr), w < 2 ^ 96 → decodeTableWord 96 w = some ins →
    ∃ t : State, step (State.reset.withFetchWord 96 w) = exec ins t ∧ ∃ i, t.cur = some i ∧ i.elem = 0 ∧ i.ctx = 0 ∧ i.f.node = 0

/-- The reset values that the register maps give (R4, R22, R25, R42, R63, R65, R94, R120, R142, R164, R204, R221), whatever the fuses
hold; nothing is resident; memory lists nothing; and the canonical form, the order of the Glasshouse and the ranges that every step keeps
hold. The values that no register map gives are the model's (log entries 5, 8). -/
def Obligations.ResetLeaves : Prop :=
  ∀ (f : Fuses) (s : State), s = State.resetOf f →
    (∀ x ∈ ([(0x1008, 0), (0x1010, 0), (0x1100, 0), (0x1108, 0), (0x2000, 4000 + 1000 * 2 ^ 32), (0x2008, 0),
        (0x2100, 105 + 85 * 2 ^ 8 + 110 * 2 ^ 16), (0x4E30, 1 + 64 * 2 ^ 8), (0x6000, 0), (0x6008, 0), (0x6300, 0), (0x6320, 0),
        (0x6348, 1000), (0x6350, 0), (0x6600, 0), (0x6608, 2000), (0x7000, 0), (0x7100, 0), (0x7400, 0), (0x7500, 0), (0x7510, 7),
        (0x7520, 4 * 2 ^ 48), (0x7528, 4 * 2 ^ 48), (0x7530, 0), (0x7538, 0), (0x7600, 1), (0x7608, 10000),
        (0x7610, 200 + 4 * 2 ^ 16 + 500 * 2 ^ 32), (0x7618, 0), (0x7620, 0), (0x7628, 0), (0x7700, 0), (0x8800, 4096),
        (0x8808, 0x1000000), (0x8810, 3), (0x8818, 0), (0x8C00, 0), (0xA000, 0), (0xAC00, 0), (0x400000, 0), (0x1000000, 0)] :
        List (Nat × Nat)), s.mgmtWord x.1 = some x.2) ∧
    (∀ e c, (s.ctx e c).gen = 0x9E3779B9 ∧ (s.ctx e c).fpStat = 0 ∧ (s.ctx e c).owner = none ∧ (s.ctx e c).armed = false) ∧
    (∀ b, (s.bed b).glim = 0x4B800000 ∧ (s.bed b).singtol = 0 ∧ (s.bed b).growth = 0x3F800000 ∧ (s.bed b).active = false) ∧
    s.tsk.tasks = [] ∧ s.tsk.threads = [] ∧ s.que.planes = [] ∧ s.sch.held = [] ∧ s.fuse = f ∧
    (s.mem.main = [] ∧ s.mem.dram = [] ∧ s.mem.bank = [] ∧ s.mem.scratch = [] ∧ s.fab.store = []) ∧
    s.mem.nlive = 16384 - (banksIn f.badBanks).length ∧
    s.memWf = true ∧ Spec.Coherent s.mem ∧ s.settings.Within

/-- R157, R432: every step keeps every memory, every table of poison marks and the context stores in their one canonical form, so that equal
contents are equal data, and keeps the Glasshouse in order: every line in one way of its own set, and a clean line with what its bank or
stack holds. -/
def Obligations.StepsKeepMemoryCanonical : Prop :=
  ∀ s t : State, step s = .next t → (s.memWf = true → t.memWf = true) ∧ (Spec.Coherent s.mem → Spec.Coherent t.mem)

/-- R22, R24, R25, R31, R39, R42, R51, R94, R120, R221, R236: every step keeps every setting within the range that the spec clamps or
restricts it to, whatever is written to it; RETIRE beside a RESUME above 250 is 255, the model's choice (log entry 76). -/
def Obligations.StepsKeepSettingsWithin : Prop :=
  ∀ s t : State, s.settings.Within → step s = .next t → t.settings.Within

/-- R23, R42, R46, R63, R94, R170, R221, R236, R385: no instruction of a program changes a setting: a firing of whatever node form leaves
power, thermal, link, queue and scheduler settings, error limits, the trace ring, banks, groups, address spaces, boot state and fuses as they were. -/
def Obligations.ProgramsChangeNoSetting : Prop :=
  (∀ (i : Instr) (s t : State), i.node?.isSome = true → exec i s = .next t → t.settings = s.settings) ∧
  ∀ (s t : State) (e : Nat) (rest : List Stim), s.agenda = .issue e :: rest → step s = .next t → t.settings = s.settings
end

