-- ==== Sys2Proof/Laws/Table.lean ====
section
/-! SUPPORT. Laws of sparse tables: reading after writing, and the canonical form that every write keeps. -/
namespace Sys2Proof

variable {α : Type}

theorem Tab.find_set_same (t : Tab α) (k : Nat) (v : α) : Tab.find (Tab.set t k v) k = some v := by
  induction t with
  | nil => simp [Tab.set, Tab.find]
  | cons x r ih => obtain ⟨j, w⟩ := x; grind [Tab.set, Tab.find]

theorem Tab.find_set_other (t : Tab α) (k j : Nat) (v : α) (h : j ≠ k) : Tab.find (Tab.set t k v) j = Tab.find t j := by
  induction t with
  | nil => grind [Tab.set, Tab.find]
  | cons x r ih => obtain ⟨i, w⟩ := x; grind [Tab.set, Tab.find]

theorem Tab.getD_set_same (t : Tab α) (k : Nat) (v d : α) : Tab.getD (Tab.set t k v) k d = v := by
  simp [Tab.getD, Tab.find_set_same]

theorem Tab.getD_set_other (t : Tab α) (k j : Nat) (v d : α) (h : j ≠ k) :
    Tab.getD (Tab.set t k v) j d = Tab.getD t j d := by
  simp [Tab.getD, Tab.find_set_other t k j v h]

theorem Tab.head_set (t : Tab α) (k : Nat) (v : α) (j : Nat) (hj : j < k) (h : ∀ x ∈ t.head?, j < x.1) :
    ∀ x ∈ (Tab.set t k v).head?, j < x.1 := by
  cases t with
  | nil => simpa [Tab.set] using hj
  | cons y r => obtain ⟨i, z⟩ := y; grind [Tab.set]

variable [DecidableEq α] {d : α}

theorem Tab.wf_tail {x : Nat × α} {r : Tab α} (h : Tab.wf d (x :: r) = true) : Tab.wf d r = true := by
  obtain ⟨j, w⟩ := x
  cases r with
  | nil => rfl
  | cons y r => obtain ⟨i, z⟩ := y; simp_all [Tab.wf]

theorem Tab.wf_head {j : Nat} {w : α} {r : Tab α} (h : Tab.wf d ((j, w) :: r) = true) : w ≠ d := by
  cases r with
  | nil => simpa [Tab.wf] using h
  | cons y r => obtain ⟨i, z⟩ := y; simp_all [Tab.wf]

/-- Every key after the first is above it. -/
theorem Tab.wf_find_low {r : Tab α} {j : Nat} {w : α} (h : Tab.wf d ((j, w) :: r) = true) (k : Nat) (hk : k ≤ j) :
    Tab.find r k = none := by
  cases r with
  | nil => rfl
  | cons y r =>
    obtain ⟨i, z⟩ := y
    simp [Tab.wf] at h
    grind [Tab.find]

theorem Tab.wf_cons {r : Tab α} {j : Nat} {w : α} :
    Tab.wf d ((j, w) :: r) = true ↔ w ≠ d ∧ (∀ x ∈ r.head?, j < x.1) ∧ Tab.wf d r = true := by
  cases r with
  | nil => simp [Tab.wf]
  | cons y r => obtain ⟨i, z⟩ := y; simp [Tab.wf, and_assoc]

theorem Tab.wf_set (t : Tab α) (k : Nat) (v : α) (hv : v ≠ d) (h : Tab.wf d t = true) : Tab.wf d (Tab.set t k v) = true := by
  induction t with
  | nil => simpa [Tab.set, Tab.wf] using hv
  | cons x r ih =>
    obtain ⟨j, w⟩ := x
    have h' := Tab.wf_cons.1 h
    unfold Tab.set
    split
    · exact Tab.wf_cons.2 ⟨hv, by simpa using ‹k < j›, h⟩
    · split
      · subst_vars; exact Tab.wf_cons.2 ⟨hv, h'.2.1, h'.2.2⟩
      · exact Tab.wf_cons.2 ⟨h'.1, Tab.head_set r k v j (by omega) h'.2.1, ih h'.2.2⟩

theorem Tab.head_erase (t : Tab α) (k j : Nat) (ht : Tab.wf d t = true) (h : ∀ x ∈ t.head?, j < x.1) :
    ∀ x ∈ (Tab.erase t k).head?, j < x.1 := by
  cases t with
  | nil => simp [Tab.erase]
  | cons y r =>
    obtain ⟨i, z⟩ := y
    have h2 := (Tab.wf_cons.1 ht).2.1
    unfold Tab.erase
    split
    · exact h
    · split
      · intro x hx
        have := h2 x hx
        have := h (i, z) (by simp)
        simp at this
        omega
      · simpa using h

theorem Tab.wf_erase (t : Tab α) (k : Nat) (h : Tab.wf d t = true) : Tab.wf d (Tab.erase t k) = true := by
  induction t with
  | nil => rfl
  | cons x r ih =>
    obtain ⟨j, w⟩ := x
    have h' := Tab.wf_cons.1 h
    unfold Tab.erase
    split
    · exact h
    · split
      · exact h'.2.2
      · exact Tab.wf_cons.2 ⟨h'.1, Tab.head_erase r k j h'.2.2 h'.2.1, ih h'.2.2⟩

/-- A write keeps the canonical form. -/
theorem Tab.wf_put (t : Tab α) (k : Nat) (v : α) (h : Tab.wf d t = true) : Tab.wf d (Tab.put d t k v) = true := by
  unfold Tab.put
  split
  · exact Tab.wf_erase t k h
  · exact Tab.wf_set t k v ‹_› h

theorem Tab.find_erase_same (t : Tab α) (k : Nat) (h : Tab.wf d t = true) : Tab.find (Tab.erase t k) k = none := by
  induction t with
  | nil => rfl
  | cons x r ih =>
    obtain ⟨j, w⟩ := x
    have h1 := Tab.wf_find_low h k
    have h2 := ih (Tab.wf_tail h)
    grind [Tab.erase, Tab.find]

theorem Tab.find_erase_other (t : Tab α) (k j : Nat) (hj : j ≠ k) (h : Tab.wf d t = true) :
    Tab.find (Tab.erase t k) j = Tab.find t j := by
  induction t with
  | nil => rfl
  | cons x r ih =>
    obtain ⟨i, w⟩ := x
    have h1 := Tab.wf_find_low h j
    have h2 := ih (Tab.wf_tail h)
    grind [Tab.erase, Tab.find]

/-- A read of what was just written gives it back. -/
theorem Tab.getD_put_same (t : Tab α) (k : Nat) (v : α) (h : Tab.wf d t = true) : Tab.getD (Tab.put d t k v) k d = v := by
  unfold Tab.put
  split
  · simp_all [Tab.getD, Tab.find_erase_same t k h]
  · exact Tab.getD_set_same t k v d

/-- A write leaves every other key alone. -/
theorem Tab.getD_put_other (t : Tab α) (k j : Nat) (v : α) (hj : j ≠ k) (h : Tab.wf d t = true) :
    Tab.getD (Tab.put d t k v) j d = Tab.getD t j d := by
  unfold Tab.put
  split
  · simp [Tab.getD, Tab.find_erase_other t k j hj h]
  · exact Tab.getD_set_other t k j v d hj

end Sys2Proof
end

