-- ==== Sys2Proof/Laws/Cells.lean ====
section
/-! SUPPORT. Laws of byte memories: bytes read back as written, other bytes unchanged, the canonical form kept by byte writes
and by poison marks. -/
namespace Sys2Proof.Machine

theorem writeCells_wf (bs : List Byte) : ∀ (m : List Host.Cell) (a : Nat), Tab.wf 0 m = true →
    Tab.wf 0 (writeCells m a bs) = true := by
  induction bs with
  | nil => intro m a h; exact h
  | cons b r ih => intro m a h; exact ih _ _ (Tab.wf_put m a b h)

/-- A byte outside the written range reads as before. -/
theorem getD_writeCells_other (bs : List Byte) : ∀ (m : List Host.Cell) (a k : Nat), Tab.wf 0 m = true →
    (k < a ∨ a + bs.length ≤ k) → Tab.getD (writeCells m a bs) k 0 = Tab.getD m k 0 := by
  induction bs with
  | nil => intro m a k _ _; rfl
  | cons b r ih =>
    intro m a k h hk
    simp only [List.length_cons] at hk
    rw [writeCells, ih _ _ _ (Tab.wf_put m a b h) (by omega), Tab.getD_put_other m a k b (by omega) h]

/-- A byte inside the written range reads as written. -/
theorem getD_writeCells_same (bs : List Byte) : ∀ (m : List Host.Cell) (a i : Nat), Tab.wf 0 m = true → (h : i < bs.length) →
    Tab.getD (writeCells m a bs) (a + i) 0 = bs[i] := by
  induction bs with
  | nil => intro m a i _ h; simp at h
  | cons b r ih =>
    intro m a i hm h
    cases i with
    | zero =>
      rw [writeCells, getD_writeCells_other r _ _ _ (Tab.wf_put m a b hm) (by omega)]
      simpa using Tab.getD_put_same m a b hm
    | succ i =>
      have := ih (Tab.put 0 m a b) (a + 1) i (Tab.wf_put m a b hm) (by simpa using h)
      rw [writeCells, show a + (i + 1) = a + 1 + i by omega, this]
      rfl

/-- What was written reads back. -/
theorem readCells_writeCells (m : List Host.Cell) (a : Nat) (bs : List Byte) (h : Tab.wf 0 m = true) :
    readCells (writeCells m a bs) a bs.length = bs := by
  apply List.ext_getElem
  · simp [readCells]
  · intro i h1 h2
    simp only [readCells, List.getElem_map, List.getElem_range]
    exact getD_writeCells_same bs m a i h h2

theorem readCells_writeCells_other (m : List Host.Cell) (a b n : Nat) (bs : List Byte) (h : Tab.wf 0 m = true)
    (hd : b + n ≤ a ∨ a + bs.length ≤ b) : readCells (writeCells m a bs) b n = readCells m b n := by
  apply List.ext_getElem
  · simp [readCells]
  · intro i h1 h2
    have hi : i < n := by simpa [readCells] using h2
    simp only [readCells, List.getElem_map, List.getElem_range]
    exact getD_writeCells_other bs m a (b + i) h (by omega)

theorem markPois_wf (t : Tab Bool) (a n : Nat) (p : Bool) (h : Tab.wf false t = true) :
    Tab.wf false (markPois t a n p) = true := by
  unfold markPois
  generalize List.range (n / 16 + 2) = l
  induction l generalizing t with
  | nil => exact h
  | cons i r ih =>
    apply ih
    dsimp only
    split
    · split
      · exact Tab.wf_put t _ true h
      · split
        · exact Tab.wf_put t _ false h
        · exact h
    · exact h

end Sys2Proof.Machine
end

