-- ==== Sys2Proof/Laws/Lanes.lean ====
section
/-! SUPPORT. Laws of lanes: a value put together lane by lane has those lanes and no bit above them. -/
namespace Sys2Proof.Machine

theorem joinLanes_lt (w : Nat) (xs : List Nat) : joinLanes w xs < 2 ^ (w * xs.length) := by
  induction xs with
  | nil => simp [joinLanes]
  | cons x r ih =>
    have h1 : x % 2 ^ w < 2 ^ w := Nat.mod_lt _ (by positivity)
    rw [joinLanes, List.length_cons, Nat.mul_succ, Nat.add_comm (w * r.length), Nat.pow_add]
    calc x % 2 ^ w + 2 ^ w * joinLanes w r < 2 ^ w + 2 ^ w * joinLanes w r := by omega
      _ = 2 ^ w * (joinLanes w r + 1) := by ring
      _ ≤ 2 ^ w * 2 ^ (w * r.length) := Nat.mul_le_mul_left _ ih

/-- Lane `k` of lanes put together is the `k`-th. -/
theorem lane_joinLanes (w : Nat) : ∀ (xs : List Nat) (k : Nat) (h : k < xs.length), lane w (joinLanes w xs) k = xs[k] % 2 ^ w := by
  intro xs
  induction xs with
  | nil => intro k h; simp at h
  | cons x r ih =>
    intro k h
    have hp : 0 < 2 ^ w := by positivity
    have hx : x % 2 ^ w < 2 ^ w := Nat.mod_lt _ hp
    cases k with
    | zero => simp [lane, joinLanes]
    | succ k =>
      have := ih k (by simpa using h)
      rw [lane] at this ⊢
      rw [joinLanes, Nat.mul_succ, Nat.add_comm (w * k), Nat.pow_add, ← Nat.div_div_eq_div_mul, Nat.add_mul_div_left _ _ hp,
        Nat.div_eq_of_lt hx, Nat.zero_add, this]
      rfl

theorem mapLanes_lt (w : Nat) (v : Bool) (g : Nat → Nat) : mapLanes w v g < 2 ^ (w * laneCount w v) := by
  simpa [mapLanes] using joinLanes_lt w ((List.range (laneCount w v)).map g)

/-- Lane `k` of a value built lane by lane. -/
theorem lane_mapLanes (w : Nat) (v : Bool) (g : Nat → Nat) (k : Nat) (h : k < laneCount w v) :
    lane w (mapLanes w v g) k = g k % 2 ^ w := by
  rw [mapLanes, lane_joinLanes _ _ k (by simpa using h)]
  simp

theorem mapFlags_lt (w : Nat) (v : Bool) (g : Nat → Nat × Nat) : (mapFlags w v g).1 < 2 ^ (w * laneCount w v) := by
  simpa [mapFlags] using joinLanes_lt w (((List.range (laneCount w v)).map g).map (·.1))

theorem lane_mapFlags (w : Nat) (v : Bool) (g : Nat → Nat × Nat) (k : Nat) (h : k < laneCount w v) :
    lane w (mapFlags w v g).1 k = (g k).1 % 2 ^ w := by
  simp only [mapFlags]
  rw [lane_joinLanes _ _ k (by simpa using h)]
  simp

end Sys2Proof.Machine
end

