-- ==== Sys2Proof/Laws/State.lean ====
section
/-! SUPPORT. Laws of the state's updates: what each named update changes, field by field, and what it leaves. -/
namespace Sys2Proof.Machine

/-! ### State.setFab -/

@[simp] theorem State.setFab_agenda (s : State) (f : Fabric) : (s.setFab f).agenda = s.agenda := rfl
@[simp] theorem State.setFab_inp (s : State) (f : Fabric) : (s.setFab f).inp = s.inp := rfl
@[simp] theorem State.setFab_cur (s : State) (f : Fabric) : (s.setFab f).cur = s.cur := rfl
@[simp] theorem State.setFab_fresh (s : State) (f : Fabric) : (s.setFab f).fresh = s.fresh := rfl
@[simp] theorem State.setFab_cycles (s : State) (f : Fabric) : (s.setFab f).cycles = s.cycles := rfl
@[simp] theorem State.setFab_units (s : State) (f : Fabric) : (s.setFab f).units = s.units := rfl
@[simp] theorem State.setFab_busy (s : State) (f : Fabric) : (s.setFab f).busy = s.busy := rfl
@[simp] theorem State.setFab_turns (s : State) (f : Fabric) : (s.setFab f).turns = s.turns := rfl
@[simp] theorem State.setFab_fab (s : State) (f : Fabric) : (s.setFab f).fab = f := rfl
@[simp] theorem State.setFab_tsk (s : State) (f : Fabric) : (s.setFab f).tsk = s.tsk := rfl
@[simp] theorem State.setFab_mem (s : State) (f : Fabric) : (s.setFab f).mem = s.mem := rfl
@[simp] theorem State.setFab_eng (s : State) (f : Fabric) : (s.setFab f).eng = s.eng := rfl
@[simp] theorem State.setFab_pow (s : State) (f : Fabric) : (s.setFab f).pow = s.pow := rfl
@[simp] theorem State.setFab_thm (s : State) (f : Fabric) : (s.setFab f).thm = s.thm := rfl
@[simp] theorem State.setFab_lnk (s : State) (f : Fabric) : (s.setFab f).lnk = s.lnk := rfl
@[simp] theorem State.setFab_boot (s : State) (f : Fabric) : (s.setFab f).boot = s.boot := rfl
@[simp] theorem State.setFab_apBase (s : State) (f : Fabric) : (s.setFab f).apBase = s.apBase := rfl
@[simp] theorem State.setFab_pcieRate (s : State) (f : Fabric) : (s.setFab f).pcieRate = s.pcieRate := rfl
@[simp] theorem State.setFab_pcieWidth (s : State) (f : Fabric) : (s.setFab f).pcieWidth = s.pcieWidth := rfl
@[simp] theorem State.setFab_fuse (s : State) (f : Fabric) : (s.setFab f).fuse = s.fuse := rfl
@[simp] theorem State.setFab_que (s : State) (f : Fabric) : (s.setFab f).que = s.que := rfl
@[simp] theorem State.setFab_sch (s : State) (f : Fabric) : (s.setFab f).sch = s.sch := rfl
@[simp] theorem State.setFab_err (s : State) (f : Fabric) : (s.setFab f).err = s.err := rfl
@[simp] theorem State.setFab_tap (s : State) (f : Fabric) : (s.setFab f).tap = s.tap := rfl
@[simp] theorem State.setFab_out (s : State) (f : Fabric) : (s.setFab f).out = s.out := rfl

/-! ### State.setTsk -/

@[simp] theorem State.setTsk_agenda (s : State) (t : Tasks) : (s.setTsk t).agenda = s.agenda := rfl
@[simp] theorem State.setTsk_inp (s : State) (t : Tasks) : (s.setTsk t).inp = s.inp := rfl
@[simp] theorem State.setTsk_cur (s : State) (t : Tasks) : (s.setTsk t).cur = s.cur := rfl
@[simp] theorem State.setTsk_fresh (s : State) (t : Tasks) : (s.setTsk t).fresh = s.fresh := rfl
@[simp] theorem State.setTsk_cycles (s : State) (t : Tasks) : (s.setTsk t).cycles = s.cycles := rfl
@[simp] theorem State.setTsk_units (s : State) (t : Tasks) : (s.setTsk t).units = s.units := rfl
@[simp] theorem State.setTsk_busy (s : State) (t : Tasks) : (s.setTsk t).busy = s.busy := rfl
@[simp] theorem State.setTsk_turns (s : State) (t : Tasks) : (s.setTsk t).turns = s.turns := rfl
@[simp] theorem State.setTsk_fab (s : State) (t : Tasks) : (s.setTsk t).fab = s.fab := rfl
@[simp] theorem State.setTsk_tsk (s : State) (t : Tasks) : (s.setTsk t).tsk = t := rfl
@[simp] theorem State.setTsk_mem (s : State) (t : Tasks) : (s.setTsk t).mem = s.mem := rfl
@[simp] theorem State.setTsk_eng (s : State) (t : Tasks) : (s.setTsk t).eng = s.eng := rfl
@[simp] theorem State.setTsk_pow (s : State) (t : Tasks) : (s.setTsk t).pow = s.pow := rfl
@[simp] theorem State.setTsk_thm (s : State) (t : Tasks) : (s.setTsk t).thm = s.thm := rfl
@[simp] theorem State.setTsk_lnk (s : State) (t : Tasks) : (s.setTsk t).lnk = s.lnk := rfl
@[simp] theorem State.setTsk_boot (s : State) (t : Tasks) : (s.setTsk t).boot = s.boot := rfl
@[simp] theorem State.setTsk_apBase (s : State) (t : Tasks) : (s.setTsk t).apBase = s.apBase := rfl
@[simp] theorem State.setTsk_pcieRate (s : State) (t : Tasks) : (s.setTsk t).pcieRate = s.pcieRate := rfl
@[simp] theorem State.setTsk_pcieWidth (s : State) (t : Tasks) : (s.setTsk t).pcieWidth = s.pcieWidth := rfl
@[simp] theorem State.setTsk_fuse (s : State) (t : Tasks) : (s.setTsk t).fuse = s.fuse := rfl
@[simp] theorem State.setTsk_que (s : State) (t : Tasks) : (s.setTsk t).que = s.que := rfl
@[simp] theorem State.setTsk_sch (s : State) (t : Tasks) : (s.setTsk t).sch = s.sch := rfl
@[simp] theorem State.setTsk_err (s : State) (t : Tasks) : (s.setTsk t).err = s.err := rfl
@[simp] theorem State.setTsk_tap (s : State) (t : Tasks) : (s.setTsk t).tap = s.tap := rfl
@[simp] theorem State.setTsk_out (s : State) (t : Tasks) : (s.setTsk t).out = s.out := rfl

/-! ### State.setMem -/

@[simp] theorem State.setMem_agenda (s : State) (m : Memory) : (s.setMem m).agenda = s.agenda := rfl
@[simp] theorem State.setMem_inp (s : State) (m : Memory) : (s.setMem m).inp = s.inp := rfl
@[simp] theorem State.setMem_cur (s : State) (m : Memory) : (s.setMem m).cur = s.cur := rfl
@[simp] theorem State.setMem_fresh (s : State) (m : Memory) : (s.setMem m).fresh = s.fresh := rfl
@[simp] theorem State.setMem_cycles (s : State) (m : Memory) : (s.setMem m).cycles = s.cycles := rfl
@[simp] theorem State.setMem_units (s : State) (m : Memory) : (s.setMem m).units = s.units := rfl
@[simp] theorem State.setMem_busy (s : State) (m : Memory) : (s.setMem m).busy = s.busy := rfl
@[simp] theorem State.setMem_turns (s : State) (m : Memory) : (s.setMem m).turns = s.turns := rfl
@[simp] theorem State.setMem_fab (s : State) (m : Memory) : (s.setMem m).fab = s.fab := rfl
@[simp] theorem State.setMem_tsk (s : State) (m : Memory) : (s.setMem m).tsk = s.tsk := rfl
@[simp] theorem State.setMem_mem (s : State) (m : Memory) : (s.setMem m).mem = m := rfl
@[simp] theorem State.setMem_eng (s : State) (m : Memory) : (s.setMem m).eng = s.eng := rfl
@[simp] theorem State.setMem_pow (s : State) (m : Memory) : (s.setMem m).pow = s.pow := rfl
@[simp] theorem State.setMem_thm (s : State) (m : Memory) : (s.setMem m).thm = s.thm := rfl
@[simp] theorem State.setMem_lnk (s : State) (m : Memory) : (s.setMem m).lnk = s.lnk := rfl
@[simp] theorem State.setMem_boot (s : State) (m : Memory) : (s.setMem m).boot = s.boot := rfl
@[simp] theorem State.setMem_apBase (s : State) (m : Memory) : (s.setMem m).apBase = s.apBase := rfl
@[simp] theorem State.setMem_pcieRate (s : State) (m : Memory) : (s.setMem m).pcieRate = s.pcieRate := rfl
@[simp] theorem State.setMem_pcieWidth (s : State) (m : Memory) : (s.setMem m).pcieWidth = s.pcieWidth := rfl
@[simp] theorem State.setMem_fuse (s : State) (m : Memory) : (s.setMem m).fuse = s.fuse := rfl
@[simp] theorem State.setMem_que (s : State) (m : Memory) : (s.setMem m).que = s.que := rfl
@[simp] theorem State.setMem_sch (s : State) (m : Memory) : (s.setMem m).sch = s.sch := rfl
@[simp] theorem State.setMem_err (s : State) (m : Memory) : (s.setMem m).err = s.err := rfl
@[simp] theorem State.setMem_tap (s : State) (m : Memory) : (s.setMem m).tap = s.tap := rfl
@[simp] theorem State.setMem_out (s : State) (m : Memory) : (s.setMem m).out = s.out := rfl

/-! ### State.setEng -/

@[simp] theorem State.setEng_agenda (s : State) (x : Engines) : (s.setEng x).agenda = s.agenda := rfl
@[simp] theorem State.setEng_inp (s : State) (x : Engines) : (s.setEng x).inp = s.inp := rfl
@[simp] theorem State.setEng_cur (s : State) (x : Engines) : (s.setEng x).cur = s.cur := rfl
@[simp] theorem State.setEng_fresh (s : State) (x : Engines) : (s.setEng x).fresh = s.fresh := rfl
@[simp] theorem State.setEng_cycles (s : State) (x : Engines) : (s.setEng x).cycles = s.cycles := rfl
@[simp] theorem State.setEng_units (s : State) (x : Engines) : (s.setEng x).units = s.units := rfl
@[simp] theorem State.setEng_busy (s : State) (x : Engines) : (s.setEng x).busy = s.busy := rfl
@[simp] theorem State.setEng_turns (s : State) (x : Engines) : (s.setEng x).turns = s.turns := rfl
@[simp] theorem State.setEng_fab (s : State) (x : Engines) : (s.setEng x).fab = s.fab := rfl
@[simp] theorem State.setEng_tsk (s : State) (x : Engines) : (s.setEng x).tsk = s.tsk := rfl
@[simp] theorem State.setEng_mem (s : State) (x : Engines) : (s.setEng x).mem = s.mem := rfl
@[simp] theorem State.setEng_eng (s : State) (x : Engines) : (s.setEng x).eng = x := rfl
@[simp] theorem State.setEng_pow (s : State) (x : Engines) : (s.setEng x).pow = s.pow := rfl
@[simp] theorem State.setEng_thm (s : State) (x : Engines) : (s.setEng x).thm = s.thm := rfl
@[simp] theorem State.setEng_lnk (s : State) (x : Engines) : (s.setEng x).lnk = s.lnk := rfl
@[simp] theorem State.setEng_boot (s : State) (x : Engines) : (s.setEng x).boot = s.boot := rfl
@[simp] theorem State.setEng_apBase (s : State) (x : Engines) : (s.setEng x).apBase = s.apBase := rfl
@[simp] theorem State.setEng_pcieRate (s : State) (x : Engines) : (s.setEng x).pcieRate = s.pcieRate := rfl
@[simp] theorem State.setEng_pcieWidth (s : State) (x : Engines) : (s.setEng x).pcieWidth = s.pcieWidth := rfl
@[simp] theorem State.setEng_fuse (s : State) (x : Engines) : (s.setEng x).fuse = s.fuse := rfl
@[simp] theorem State.setEng_que (s : State) (x : Engines) : (s.setEng x).que = s.que := rfl
@[simp] theorem State.setEng_sch (s : State) (x : Engines) : (s.setEng x).sch = s.sch := rfl
@[simp] theorem State.setEng_err (s : State) (x : Engines) : (s.setEng x).err = s.err := rfl
@[simp] theorem State.setEng_tap (s : State) (x : Engines) : (s.setEng x).tap = s.tap := rfl
@[simp] theorem State.setEng_out (s : State) (x : Engines) : (s.setEng x).out = s.out := rfl

/-! ### State.setErr -/

@[simp] theorem State.setErr_agenda (s : State) (x : Errors) : (s.setErr x).agenda = s.agenda := rfl
@[simp] theorem State.setErr_inp (s : State) (x : Errors) : (s.setErr x).inp = s.inp := rfl
@[simp] theorem State.setErr_cur (s : State) (x : Errors) : (s.setErr x).cur = s.cur := rfl
@[simp] theorem State.setErr_fresh (s : State) (x : Errors) : (s.setErr x).fresh = s.fresh := rfl
@[simp] theorem State.setErr_cycles (s : State) (x : Errors) : (s.setErr x).cycles = s.cycles := rfl
@[simp] theorem State.setErr_units (s : State) (x : Errors) : (s.setErr x).units = s.units := rfl
@[simp] theorem State.setErr_busy (s : State) (x : Errors) : (s.setErr x).busy = s.busy := rfl
@[simp] theorem State.setErr_turns (s : State) (x : Errors) : (s.setErr x).turns = s.turns := rfl
@[simp] theorem State.setErr_fab (s : State) (x : Errors) : (s.setErr x).fab = s.fab := rfl
@[simp] theorem State.setErr_tsk (s : State) (x : Errors) : (s.setErr x).tsk = s.tsk := rfl
@[simp] theorem State.setErr_mem (s : State) (x : Errors) : (s.setErr x).mem = s.mem := rfl
@[simp] theorem State.setErr_eng (s : State) (x : Errors) : (s.setErr x).eng = s.eng := rfl
@[simp] theorem State.setErr_pow (s : State) (x : Errors) : (s.setErr x).pow = s.pow := rfl
@[simp] theorem State.setErr_thm (s : State) (x : Errors) : (s.setErr x).thm = s.thm := rfl
@[simp] theorem State.setErr_lnk (s : State) (x : Errors) : (s.setErr x).lnk = s.lnk := rfl
@[simp] theorem State.setErr_boot (s : State) (x : Errors) : (s.setErr x).boot = s.boot := rfl
@[simp] theorem State.setErr_apBase (s : State) (x : Errors) : (s.setErr x).apBase = s.apBase := rfl
@[simp] theorem State.setErr_pcieRate (s : State) (x : Errors) : (s.setErr x).pcieRate = s.pcieRate := rfl
@[simp] theorem State.setErr_pcieWidth (s : State) (x : Errors) : (s.setErr x).pcieWidth = s.pcieWidth := rfl
@[simp] theorem State.setErr_fuse (s : State) (x : Errors) : (s.setErr x).fuse = s.fuse := rfl
@[simp] theorem State.setErr_que (s : State) (x : Errors) : (s.setErr x).que = s.que := rfl
@[simp] theorem State.setErr_sch (s : State) (x : Errors) : (s.setErr x).sch = s.sch := rfl
@[simp] theorem State.setErr_err (s : State) (x : Errors) : (s.setErr x).err = x := rfl
@[simp] theorem State.setErr_tap (s : State) (x : Errors) : (s.setErr x).tap = s.tap := rfl
@[simp] theorem State.setErr_out (s : State) (x : Errors) : (s.setErr x).out = s.out := rfl

/-! ### State.setLnk -/

@[simp] theorem State.setLnk_agenda (s : State) (x : Links) : (s.setLnk x).agenda = s.agenda := rfl
@[simp] theorem State.setLnk_inp (s : State) (x : Links) : (s.setLnk x).inp = s.inp := rfl
@[simp] theorem State.setLnk_cur (s : State) (x : Links) : (s.setLnk x).cur = s.cur := rfl
@[simp] theorem State.setLnk_fresh (s : State) (x : Links) : (s.setLnk x).fresh = s.fresh := rfl
@[simp] theorem State.setLnk_cycles (s : State) (x : Links) : (s.setLnk x).cycles = s.cycles := rfl
@[simp] theorem State.setLnk_units (s : State) (x : Links) : (s.setLnk x).units = s.units := rfl
@[simp] theorem State.setLnk_busy (s : State) (x : Links) : (s.setLnk x).busy = s.busy := rfl
@[simp] theorem State.setLnk_turns (s : State) (x : Links) : (s.setLnk x).turns = s.turns := rfl
@[simp] theorem State.setLnk_fab (s : State) (x : Links) : (s.setLnk x).fab = s.fab := rfl
@[simp] theorem State.setLnk_tsk (s : State) (x : Links) : (s.setLnk x).tsk = s.tsk := rfl
@[simp] theorem State.setLnk_mem (s : State) (x : Links) : (s.setLnk x).mem = s.mem := rfl
@[simp] theorem State.setLnk_eng (s : State) (x : Links) : (s.setLnk x).eng = s.eng := rfl
@[simp] theorem State.setLnk_pow (s : State) (x : Links) : (s.setLnk x).pow = s.pow := rfl
@[simp] theorem State.setLnk_thm (s : State) (x : Links) : (s.setLnk x).thm = s.thm := rfl
@[simp] theorem State.setLnk_lnk (s : State) (x : Links) : (s.setLnk x).lnk = x := rfl
@[simp] theorem State.setLnk_boot (s : State) (x : Links) : (s.setLnk x).boot = s.boot := rfl
@[simp] theorem State.setLnk_apBase (s : State) (x : Links) : (s.setLnk x).apBase = s.apBase := rfl
@[simp] theorem State.setLnk_pcieRate (s : State) (x : Links) : (s.setLnk x).pcieRate = s.pcieRate := rfl
@[simp] theorem State.setLnk_pcieWidth (s : State) (x : Links) : (s.setLnk x).pcieWidth = s.pcieWidth := rfl
@[simp] theorem State.setLnk_fuse (s : State) (x : Links) : (s.setLnk x).fuse = s.fuse := rfl
@[simp] theorem State.setLnk_que (s : State) (x : Links) : (s.setLnk x).que = s.que := rfl
@[simp] theorem State.setLnk_sch (s : State) (x : Links) : (s.setLnk x).sch = s.sch := rfl
@[simp] theorem State.setLnk_err (s : State) (x : Links) : (s.setLnk x).err = s.err := rfl
@[simp] theorem State.setLnk_tap (s : State) (x : Links) : (s.setLnk x).tap = s.tap := rfl
@[simp] theorem State.setLnk_out (s : State) (x : Links) : (s.setLnk x).out = s.out := rfl

/-! ### State.setQue -/

@[simp] theorem State.setQue_agenda (s : State) (x : Queues) : (s.setQue x).agenda = s.agenda := rfl
@[simp] theorem State.setQue_inp (s : State) (x : Queues) : (s.setQue x).inp = s.inp := rfl
@[simp] theorem State.setQue_cur (s : State) (x : Queues) : (s.setQue x).cur = s.cur := rfl
@[simp] theorem State.setQue_fresh (s : State) (x : Queues) : (s.setQue x).fresh = s.fresh := rfl
@[simp] theorem State.setQue_cycles (s : State) (x : Queues) : (s.setQue x).cycles = s.cycles := rfl
@[simp] theorem State.setQue_units (s : State) (x : Queues) : (s.setQue x).units = s.units := rfl
@[simp] theorem State.setQue_busy (s : State) (x : Queues) : (s.setQue x).busy = s.busy := rfl
@[simp] theorem State.setQue_turns (s : State) (x : Queues) : (s.setQue x).turns = s.turns := rfl
@[simp] theorem State.setQue_fab (s : State) (x : Queues) : (s.setQue x).fab = s.fab := rfl
@[simp] theorem State.setQue_tsk (s : State) (x : Queues) : (s.setQue x).tsk = s.tsk := rfl
@[simp] theorem State.setQue_mem (s : State) (x : Queues) : (s.setQue x).mem = s.mem := rfl
@[simp] theorem State.setQue_eng (s : State) (x : Queues) : (s.setQue x).eng = s.eng := rfl
@[simp] theorem State.setQue_pow (s : State) (x : Queues) : (s.setQue x).pow = s.pow := rfl
@[simp] theorem State.setQue_thm (s : State) (x : Queues) : (s.setQue x).thm = s.thm := rfl
@[simp] theorem State.setQue_lnk (s : State) (x : Queues) : (s.setQue x).lnk = s.lnk := rfl
@[simp] theorem State.setQue_boot (s : State) (x : Queues) : (s.setQue x).boot = s.boot := rfl
@[simp] theorem State.setQue_apBase (s : State) (x : Queues) : (s.setQue x).apBase = s.apBase := rfl
@[simp] theorem State.setQue_pcieRate (s : State) (x : Queues) : (s.setQue x).pcieRate = s.pcieRate := rfl
@[simp] theorem State.setQue_pcieWidth (s : State) (x : Queues) : (s.setQue x).pcieWidth = s.pcieWidth := rfl
@[simp] theorem State.setQue_fuse (s : State) (x : Queues) : (s.setQue x).fuse = s.fuse := rfl
@[simp] theorem State.setQue_que (s : State) (x : Queues) : (s.setQue x).que = x := rfl
@[simp] theorem State.setQue_sch (s : State) (x : Queues) : (s.setQue x).sch = s.sch := rfl
@[simp] theorem State.setQue_err (s : State) (x : Queues) : (s.setQue x).err = s.err := rfl
@[simp] theorem State.setQue_tap (s : State) (x : Queues) : (s.setQue x).tap = s.tap := rfl
@[simp] theorem State.setQue_out (s : State) (x : Queues) : (s.setQue x).out = s.out := rfl

/-! ### State.setSch -/

@[simp] theorem State.setSch_agenda (s : State) (x : Sched) : (s.setSch x).agenda = s.agenda := rfl
@[simp] theorem State.setSch_inp (s : State) (x : Sched) : (s.setSch x).inp = s.inp := rfl
@[simp] theorem State.setSch_cur (s : State) (x : Sched) : (s.setSch x).cur = s.cur := rfl
@[simp] theorem State.setSch_fresh (s : State) (x : Sched) : (s.setSch x).fresh = s.fresh := rfl
@[simp] theorem State.setSch_cycles (s : State) (x : Sched) : (s.setSch x).cycles = s.cycles := rfl
@[simp] theorem State.setSch_units (s : State) (x : Sched) : (s.setSch x).units = s.units := rfl
@[simp] theorem State.setSch_busy (s : State) (x : Sched) : (s.setSch x).busy = s.busy := rfl
@[simp] theorem State.setSch_turns (s : State) (x : Sched) : (s.setSch x).turns = s.turns := rfl
@[simp] theorem State.setSch_fab (s : State) (x : Sched) : (s.setSch x).fab = s.fab := rfl
@[simp] theorem State.setSch_tsk (s : State) (x : Sched) : (s.setSch x).tsk = s.tsk := rfl
@[simp] theorem State.setSch_mem (s : State) (x : Sched) : (s.setSch x).mem = s.mem := rfl
@[simp] theorem State.setSch_eng (s : State) (x : Sched) : (s.setSch x).eng = s.eng := rfl
@[simp] theorem State.setSch_pow (s : State) (x : Sched) : (s.setSch x).pow = s.pow := rfl
@[simp] theorem State.setSch_thm (s : State) (x : Sched) : (s.setSch x).thm = s.thm := rfl
@[simp] theorem State.setSch_lnk (s : State) (x : Sched) : (s.setSch x).lnk = s.lnk := rfl
@[simp] theorem State.setSch_boot (s : State) (x : Sched) : (s.setSch x).boot = s.boot := rfl
@[simp] theorem State.setSch_apBase (s : State) (x : Sched) : (s.setSch x).apBase = s.apBase := rfl
@[simp] theorem State.setSch_pcieRate (s : State) (x : Sched) : (s.setSch x).pcieRate = s.pcieRate := rfl
@[simp] theorem State.setSch_pcieWidth (s : State) (x : Sched) : (s.setSch x).pcieWidth = s.pcieWidth := rfl
@[simp] theorem State.setSch_fuse (s : State) (x : Sched) : (s.setSch x).fuse = s.fuse := rfl
@[simp] theorem State.setSch_que (s : State) (x : Sched) : (s.setSch x).que = s.que := rfl
@[simp] theorem State.setSch_sch (s : State) (x : Sched) : (s.setSch x).sch = x := rfl
@[simp] theorem State.setSch_err (s : State) (x : Sched) : (s.setSch x).err = s.err := rfl
@[simp] theorem State.setSch_tap (s : State) (x : Sched) : (s.setSch x).tap = s.tap := rfl
@[simp] theorem State.setSch_out (s : State) (x : Sched) : (s.setSch x).out = s.out := rfl

/-! ### Updates of one part of a field -/

@[simp] theorem State.setCtx_agenda (s : State) (e c : Nat) (v : CtxSt) : (s.setCtx e c v).agenda = s.agenda := rfl
@[simp] theorem State.setCtx_inp (s : State) (e c : Nat) (v : CtxSt) : (s.setCtx e c v).inp = s.inp := rfl
@[simp] theorem State.setCtx_cur (s : State) (e c : Nat) (v : CtxSt) : (s.setCtx e c v).cur = s.cur := rfl
@[simp] theorem State.setCtx_fresh (s : State) (e c : Nat) (v : CtxSt) : (s.setCtx e c v).fresh = s.fresh := rfl
@[simp] theorem State.setCtx_cycles (s : State) (e c : Nat) (v : CtxSt) : (s.setCtx e c v).cycles = s.cycles := rfl
@[simp] theorem State.setCtx_units (s : State) (e c : Nat) (v : CtxSt) : (s.setCtx e c v).units = s.units := rfl
@[simp] theorem State.setCtx_busy (s : State) (e c : Nat) (v : CtxSt) : (s.setCtx e c v).busy = s.busy := rfl
@[simp] theorem State.setCtx_turns (s : State) (e c : Nat) (v : CtxSt) : (s.setCtx e c v).turns = s.turns := rfl
@[simp] theorem State.setCtx_tsk (s : State) (e c : Nat) (v : CtxSt) : (s.setCtx e c v).tsk = s.tsk := rfl
@[simp] theorem State.setCtx_mem (s : State) (e c : Nat) (v : CtxSt) : (s.setCtx e c v).mem = s.mem := rfl
@[simp] theorem State.setCtx_eng (s : State) (e c : Nat) (v : CtxSt) : (s.setCtx e c v).eng = s.eng := rfl
@[simp] theorem State.setCtx_pow (s : State) (e c : Nat) (v : CtxSt) : (s.setCtx e c v).pow = s.pow := rfl
@[simp] theorem State.setCtx_thm (s : State) (e c : Nat) (v : CtxSt) : (s.setCtx e c v).thm = s.thm := rfl
@[simp] theorem State.setCtx_lnk (s : State) (e c : Nat) (v : CtxSt) : (s.setCtx e c v).lnk = s.lnk := rfl
@[simp] theorem State.setCtx_boot (s : State) (e c : Nat) (v : CtxSt) : (s.setCtx e c v).boot = s.boot := rfl
@[simp] theorem State.setCtx_apBase (s : State) (e c : Nat) (v : CtxSt) : (s.setCtx e c v).apBase = s.apBase := rfl
@[simp] theorem State.setCtx_pcieRate (s : State) (e c : Nat) (v : CtxSt) : (s.setCtx e c v).pcieRate = s.pcieRate := rfl
@[simp] theorem State.setCtx_pcieWidth (s : State) (e c : Nat) (v : CtxSt) : (s.setCtx e c v).pcieWidth = s.pcieWidth := rfl
@[simp] theorem State.setCtx_fuse (s : State) (e c : Nat) (v : CtxSt) : (s.setCtx e c v).fuse = s.fuse := rfl
@[simp] theorem State.setCtx_que (s : State) (e c : Nat) (v : CtxSt) : (s.setCtx e c v).que = s.que := rfl
@[simp] theorem State.setCtx_sch (s : State) (e c : Nat) (v : CtxSt) : (s.setCtx e c v).sch = s.sch := rfl
@[simp] theorem State.setCtx_err (s : State) (e c : Nat) (v : CtxSt) : (s.setCtx e c v).err = s.err := rfl
@[simp] theorem State.setCtx_tap (s : State) (e c : Nat) (v : CtxSt) : (s.setCtx e c v).tap = s.tap := rfl
@[simp] theorem State.setCtx_out (s : State) (e c : Nat) (v : CtxSt) : (s.setCtx e c v).out = s.out := rfl

@[simp] theorem State.setNodeSt_agenda (s : State) (a e n : Nat) (v : NodeSt) : (s.setNodeSt a e n v).agenda = s.agenda := rfl
@[simp] theorem State.setNodeSt_inp (s : State) (a e n : Nat) (v : NodeSt) : (s.setNodeSt a e n v).inp = s.inp := rfl
@[simp] theorem State.setNodeSt_cur (s : State) (a e n : Nat) (v : NodeSt) : (s.setNodeSt a e n v).cur = s.cur := rfl
@[simp] theorem State.setNodeSt_fresh (s : State) (a e n : Nat) (v : NodeSt) : (s.setNodeSt a e n v).fresh = s.fresh := rfl
@[simp] theorem State.setNodeSt_cycles (s : State) (a e n : Nat) (v : NodeSt) : (s.setNodeSt a e n v).cycles = s.cycles := rfl
@[simp] theorem State.setNodeSt_units (s : State) (a e n : Nat) (v : NodeSt) : (s.setNodeSt a e n v).units = s.units := rfl
@[simp] theorem State.setNodeSt_busy (s : State) (a e n : Nat) (v : NodeSt) : (s.setNodeSt a e n v).busy = s.busy := rfl
@[simp] theorem State.setNodeSt_turns (s : State) (a e n : Nat) (v : NodeSt) : (s.setNodeSt a e n v).turns = s.turns := rfl
@[simp] theorem State.setNodeSt_tsk (s : State) (a e n : Nat) (v : NodeSt) : (s.setNodeSt a e n v).tsk = s.tsk := rfl
@[simp] theorem State.setNodeSt_mem (s : State) (a e n : Nat) (v : NodeSt) : (s.setNodeSt a e n v).mem = s.mem := rfl
@[simp] theorem State.setNodeSt_eng (s : State) (a e n : Nat) (v : NodeSt) : (s.setNodeSt a e n v).eng = s.eng := rfl
@[simp] theorem State.setNodeSt_pow (s : State) (a e n : Nat) (v : NodeSt) : (s.setNodeSt a e n v).pow = s.pow := rfl
@[simp] theorem State.setNodeSt_thm (s : State) (a e n : Nat) (v : NodeSt) : (s.setNodeSt a e n v).thm = s.thm := rfl
@[simp] theorem State.setNodeSt_lnk (s : State) (a e n : Nat) (v : NodeSt) : (s.setNodeSt a e n v).lnk = s.lnk := rfl
@[simp] theorem State.setNodeSt_boot (s : State) (a e n : Nat) (v : NodeSt) : (s.setNodeSt a e n v).boot = s.boot := rfl
@[simp] theorem State.setNodeSt_apBase (s : State) (a e n : Nat) (v : NodeSt) : (s.setNodeSt a e n v).apBase = s.apBase := rfl
@[simp] theorem State.setNodeSt_pcieRate (s : State) (a e n : Nat) (v : NodeSt) : (s.setNodeSt a e n v).pcieRate = s.pcieRate := rfl
@[simp] theorem State.setNodeSt_pcieWidth (s : State) (a e n : Nat) (v : NodeSt) : (s.setNodeSt a e n v).pcieWidth = s.pcieWidth := rfl
@[simp] theorem State.setNodeSt_fuse (s : State) (a e n : Nat) (v : NodeSt) : (s.setNodeSt a e n v).fuse = s.fuse := rfl
@[simp] theorem State.setNodeSt_que (s : State) (a e n : Nat) (v : NodeSt) : (s.setNodeSt a e n v).que = s.que := rfl
@[simp] theorem State.setNodeSt_sch (s : State) (a e n : Nat) (v : NodeSt) : (s.setNodeSt a e n v).sch = s.sch := rfl
@[simp] theorem State.setNodeSt_err (s : State) (a e n : Nat) (v : NodeSt) : (s.setNodeSt a e n v).err = s.err := rfl
@[simp] theorem State.setNodeSt_tap (s : State) (a e n : Nat) (v : NodeSt) : (s.setNodeSt a e n v).tap = s.tap := rfl
@[simp] theorem State.setNodeSt_out (s : State) (a e n : Nat) (v : NodeSt) : (s.setNodeSt a e n v).out = s.out := rfl

@[simp] theorem State.setTask_agenda (s : State) (n : Nat) (v : Task) : (s.setTask n v).agenda = s.agenda := rfl
@[simp] theorem State.setTask_inp (s : State) (n : Nat) (v : Task) : (s.setTask n v).inp = s.inp := rfl
@[simp] theorem State.setTask_cur (s : State) (n : Nat) (v : Task) : (s.setTask n v).cur = s.cur := rfl
@[simp] theorem State.setTask_fresh (s : State) (n : Nat) (v : Task) : (s.setTask n v).fresh = s.fresh := rfl
@[simp] theorem State.setTask_cycles (s : State) (n : Nat) (v : Task) : (s.setTask n v).cycles = s.cycles := rfl
@[simp] theorem State.setTask_units (s : State) (n : Nat) (v : Task) : (s.setTask n v).units = s.units := rfl
@[simp] theorem State.setTask_busy (s : State) (n : Nat) (v : Task) : (s.setTask n v).busy = s.busy := rfl
@[simp] theorem State.setTask_turns (s : State) (n : Nat) (v : Task) : (s.setTask n v).turns = s.turns := rfl
@[simp] theorem State.setTask_fab (s : State) (n : Nat) (v : Task) : (s.setTask n v).fab = s.fab := rfl
@[simp] theorem State.setTask_mem (s : State) (n : Nat) (v : Task) : (s.setTask n v).mem = s.mem := rfl
@[simp] theorem State.setTask_eng (s : State) (n : Nat) (v : Task) : (s.setTask n v).eng = s.eng := rfl
@[simp] theorem State.setTask_pow (s : State) (n : Nat) (v : Task) : (s.setTask n v).pow = s.pow := rfl
@[simp] theorem State.setTask_thm (s : State) (n : Nat) (v : Task) : (s.setTask n v).thm = s.thm := rfl
@[simp] theorem State.setTask_lnk (s : State) (n : Nat) (v : Task) : (s.setTask n v).lnk = s.lnk := rfl
@[simp] theorem State.setTask_boot (s : State) (n : Nat) (v : Task) : (s.setTask n v).boot = s.boot := rfl
@[simp] theorem State.setTask_apBase (s : State) (n : Nat) (v : Task) : (s.setTask n v).apBase = s.apBase := rfl
@[simp] theorem State.setTask_pcieRate (s : State) (n : Nat) (v : Task) : (s.setTask n v).pcieRate = s.pcieRate := rfl
@[simp] theorem State.setTask_pcieWidth (s : State) (n : Nat) (v : Task) : (s.setTask n v).pcieWidth = s.pcieWidth := rfl
@[simp] theorem State.setTask_fuse (s : State) (n : Nat) (v : Task) : (s.setTask n v).fuse = s.fuse := rfl
@[simp] theorem State.setTask_que (s : State) (n : Nat) (v : Task) : (s.setTask n v).que = s.que := rfl
@[simp] theorem State.setTask_sch (s : State) (n : Nat) (v : Task) : (s.setTask n v).sch = s.sch := rfl
@[simp] theorem State.setTask_err (s : State) (n : Nat) (v : Task) : (s.setTask n v).err = s.err := rfl
@[simp] theorem State.setTask_tap (s : State) (n : Nat) (v : Task) : (s.setTask n v).tap = s.tap := rfl
@[simp] theorem State.setTask_out (s : State) (n : Nat) (v : Task) : (s.setTask n v).out = s.out := rfl

@[simp] theorem State.setThread_agenda (s : State) (n : Nat) (v : Thread) : (s.setThread n v).agenda = s.agenda := rfl
@[simp] theorem State.setThread_inp (s : State) (n : Nat) (v : Thread) : (s.setThread n v).inp = s.inp := rfl
@[simp] theorem State.setThread_cur (s : State) (n : Nat) (v : Thread) : (s.setThread n v).cur = s.cur := rfl
@[simp] theorem State.setThread_fresh (s : State) (n : Nat) (v : Thread) : (s.setThread n v).fresh = s.fresh := rfl
@[simp] theorem State.setThread_cycles (s : State) (n : Nat) (v : Thread) : (s.setThread n v).cycles = s.cycles := rfl
@[simp] theorem State.setThread_units (s : State) (n : Nat) (v : Thread) : (s.setThread n v).units = s.units := rfl
@[simp] theorem State.setThread_busy (s : State) (n : Nat) (v : Thread) : (s.setThread n v).busy = s.busy := rfl
@[simp] theorem State.setThread_turns (s : State) (n : Nat) (v : Thread) : (s.setThread n v).turns = s.turns := rfl
@[simp] theorem State.setThread_fab (s : State) (n : Nat) (v : Thread) : (s.setThread n v).fab = s.fab := rfl
@[simp] theorem State.setThread_mem (s : State) (n : Nat) (v : Thread) : (s.setThread n v).mem = s.mem := rfl
@[simp] theorem State.setThread_eng (s : State) (n : Nat) (v : Thread) : (s.setThread n v).eng = s.eng := rfl
@[simp] theorem State.setThread_pow (s : State) (n : Nat) (v : Thread) : (s.setThread n v).pow = s.pow := rfl
@[simp] theorem State.setThread_thm (s : State) (n : Nat) (v : Thread) : (s.setThread n v).thm = s.thm := rfl
@[simp] theorem State.setThread_lnk (s : State) (n : Nat) (v : Thread) : (s.setThread n v).lnk = s.lnk := rfl
@[simp] theorem State.setThread_boot (s : State) (n : Nat) (v : Thread) : (s.setThread n v).boot = s.boot := rfl
@[simp] theorem State.setThread_apBase (s : State) (n : Nat) (v : Thread) : (s.setThread n v).apBase = s.apBase := rfl
@[simp] theorem State.setThread_pcieRate (s : State) (n : Nat) (v : Thread) : (s.setThread n v).pcieRate = s.pcieRate := rfl
@[simp] theorem State.setThread_pcieWidth (s : State) (n : Nat) (v : Thread) : (s.setThread n v).pcieWidth = s.pcieWidth := rfl
@[simp] theorem State.setThread_fuse (s : State) (n : Nat) (v : Thread) : (s.setThread n v).fuse = s.fuse := rfl
@[simp] theorem State.setThread_que (s : State) (n : Nat) (v : Thread) : (s.setThread n v).que = s.que := rfl
@[simp] theorem State.setThread_sch (s : State) (n : Nat) (v : Thread) : (s.setThread n v).sch = s.sch := rfl
@[simp] theorem State.setThread_err (s : State) (n : Nat) (v : Thread) : (s.setThread n v).err = s.err := rfl
@[simp] theorem State.setThread_tap (s : State) (n : Nat) (v : Thread) : (s.setThread n v).tap = s.tap := rfl
@[simp] theorem State.setThread_out (s : State) (n : Nat) (v : Thread) : (s.setThread n v).out = s.out := rfl

@[simp] theorem State.setAct_agenda (s : State) (n : Nat) (v : Act) : (s.setAct n v).agenda = s.agenda := rfl
@[simp] theorem State.setAct_inp (s : State) (n : Nat) (v : Act) : (s.setAct n v).inp = s.inp := rfl
@[simp] theorem State.setAct_cur (s : State) (n : Nat) (v : Act) : (s.setAct n v).cur = s.cur := rfl
@[simp] theorem State.setAct_fresh (s : State) (n : Nat) (v : Act) : (s.setAct n v).fresh = s.fresh := rfl
@[simp] theorem State.setAct_cycles (s : State) (n : Nat) (v : Act) : (s.setAct n v).cycles = s.cycles := rfl
@[simp] theorem State.setAct_units (s : State) (n : Nat) (v : Act) : (s.setAct n v).units = s.units := rfl
@[simp] theorem State.setAct_busy (s : State) (n : Nat) (v : Act) : (s.setAct n v).busy = s.busy := rfl
@[simp] theorem State.setAct_turns (s : State) (n : Nat) (v : Act) : (s.setAct n v).turns = s.turns := rfl
@[simp] theorem State.setAct_fab (s : State) (n : Nat) (v : Act) : (s.setAct n v).fab = s.fab := rfl
@[simp] theorem State.setAct_mem (s : State) (n : Nat) (v : Act) : (s.setAct n v).mem = s.mem := rfl
@[simp] theorem State.setAct_eng (s : State) (n : Nat) (v : Act) : (s.setAct n v).eng = s.eng := rfl
@[simp] theorem State.setAct_pow (s : State) (n : Nat) (v : Act) : (s.setAct n v).pow = s.pow := rfl
@[simp] theorem State.setAct_thm (s : State) (n : Nat) (v : Act) : (s.setAct n v).thm = s.thm := rfl
@[simp] theorem State.setAct_lnk (s : State) (n : Nat) (v : Act) : (s.setAct n v).lnk = s.lnk := rfl
@[simp] theorem State.setAct_boot (s : State) (n : Nat) (v : Act) : (s.setAct n v).boot = s.boot := rfl
@[simp] theorem State.setAct_apBase (s : State) (n : Nat) (v : Act) : (s.setAct n v).apBase = s.apBase := rfl
@[simp] theorem State.setAct_pcieRate (s : State) (n : Nat) (v : Act) : (s.setAct n v).pcieRate = s.pcieRate := rfl
@[simp] theorem State.setAct_pcieWidth (s : State) (n : Nat) (v : Act) : (s.setAct n v).pcieWidth = s.pcieWidth := rfl
@[simp] theorem State.setAct_fuse (s : State) (n : Nat) (v : Act) : (s.setAct n v).fuse = s.fuse := rfl
@[simp] theorem State.setAct_que (s : State) (n : Nat) (v : Act) : (s.setAct n v).que = s.que := rfl
@[simp] theorem State.setAct_sch (s : State) (n : Nat) (v : Act) : (s.setAct n v).sch = s.sch := rfl
@[simp] theorem State.setAct_err (s : State) (n : Nat) (v : Act) : (s.setAct n v).err = s.err := rfl
@[simp] theorem State.setAct_tap (s : State) (n : Nat) (v : Act) : (s.setAct n v).tap = s.tap := rfl
@[simp] theorem State.setAct_out (s : State) (n : Nat) (v : Act) : (s.setAct n v).out = s.out := rfl

@[simp] theorem State.use_agenda (s : State) (n : Nat) : (s.use n).agenda = s.agenda := rfl
@[simp] theorem State.use_inp (s : State) (n : Nat) : (s.use n).inp = s.inp := rfl
@[simp] theorem State.use_cur (s : State) (n : Nat) : (s.use n).cur = s.cur := rfl
@[simp] theorem State.use_fresh (s : State) (n : Nat) : (s.use n).fresh = s.fresh := rfl
@[simp] theorem State.use_cycles (s : State) (n : Nat) : (s.use n).cycles = s.cycles := rfl
@[simp] theorem State.use_units (s : State) (n : Nat) : (s.use n).units = s.units := rfl
@[simp] theorem State.use_turns (s : State) (n : Nat) : (s.use n).turns = s.turns := rfl
@[simp] theorem State.use_fab (s : State) (n : Nat) : (s.use n).fab = s.fab := rfl
@[simp] theorem State.use_tsk (s : State) (n : Nat) : (s.use n).tsk = s.tsk := rfl
@[simp] theorem State.use_mem (s : State) (n : Nat) : (s.use n).mem = s.mem := rfl
@[simp] theorem State.use_eng (s : State) (n : Nat) : (s.use n).eng = s.eng := rfl
@[simp] theorem State.use_pow (s : State) (n : Nat) : (s.use n).pow = s.pow := rfl
@[simp] theorem State.use_thm (s : State) (n : Nat) : (s.use n).thm = s.thm := rfl
@[simp] theorem State.use_lnk (s : State) (n : Nat) : (s.use n).lnk = s.lnk := rfl
@[simp] theorem State.use_boot (s : State) (n : Nat) : (s.use n).boot = s.boot := rfl
@[simp] theorem State.use_apBase (s : State) (n : Nat) : (s.use n).apBase = s.apBase := rfl
@[simp] theorem State.use_pcieRate (s : State) (n : Nat) : (s.use n).pcieRate = s.pcieRate := rfl
@[simp] theorem State.use_pcieWidth (s : State) (n : Nat) : (s.use n).pcieWidth = s.pcieWidth := rfl
@[simp] theorem State.use_fuse (s : State) (n : Nat) : (s.use n).fuse = s.fuse := rfl
@[simp] theorem State.use_que (s : State) (n : Nat) : (s.use n).que = s.que := rfl
@[simp] theorem State.use_sch (s : State) (n : Nat) : (s.use n).sch = s.sch := rfl
@[simp] theorem State.use_err (s : State) (n : Nat) : (s.use n).err = s.err := rfl
@[simp] theorem State.use_tap (s : State) (n : Nat) : (s.use n).tap = s.tap := rfl
@[simp] theorem State.use_out (s : State) (n : Nat) : (s.use n).out = s.out := rfl

@[simp] theorem State.emitOut_agenda (s : State) (v : Output) : (s.emitOut v).agenda = s.agenda := rfl
@[simp] theorem State.emitOut_inp (s : State) (v : Output) : (s.emitOut v).inp = s.inp := rfl
@[simp] theorem State.emitOut_cur (s : State) (v : Output) : (s.emitOut v).cur = s.cur := rfl
@[simp] theorem State.emitOut_fresh (s : State) (v : Output) : (s.emitOut v).fresh = s.fresh := rfl
@[simp] theorem State.emitOut_cycles (s : State) (v : Output) : (s.emitOut v).cycles = s.cycles := rfl
@[simp] theorem State.emitOut_units (s : State) (v : Output) : (s.emitOut v).units = s.units := rfl
@[simp] theorem State.emitOut_busy (s : State) (v : Output) : (s.emitOut v).busy = s.busy := rfl
@[simp] theorem State.emitOut_turns (s : State) (v : Output) : (s.emitOut v).turns = s.turns := rfl
@[simp] theorem State.emitOut_fab (s : State) (v : Output) : (s.emitOut v).fab = s.fab := rfl
@[simp] theorem State.emitOut_tsk (s : State) (v : Output) : (s.emitOut v).tsk = s.tsk := rfl
@[simp] theorem State.emitOut_mem (s : State) (v : Output) : (s.emitOut v).mem = s.mem := rfl
@[simp] theorem State.emitOut_eng (s : State) (v : Output) : (s.emitOut v).eng = s.eng := rfl
@[simp] theorem State.emitOut_pow (s : State) (v : Output) : (s.emitOut v).pow = s.pow := rfl
@[simp] theorem State.emitOut_thm (s : State) (v : Output) : (s.emitOut v).thm = s.thm := rfl
@[simp] theorem State.emitOut_lnk (s : State) (v : Output) : (s.emitOut v).lnk = s.lnk := rfl
@[simp] theorem State.emitOut_boot (s : State) (v : Output) : (s.emitOut v).boot = s.boot := rfl
@[simp] theorem State.emitOut_apBase (s : State) (v : Output) : (s.emitOut v).apBase = s.apBase := rfl
@[simp] theorem State.emitOut_pcieRate (s : State) (v : Output) : (s.emitOut v).pcieRate = s.pcieRate := rfl
@[simp] theorem State.emitOut_pcieWidth (s : State) (v : Output) : (s.emitOut v).pcieWidth = s.pcieWidth := rfl
@[simp] theorem State.emitOut_fuse (s : State) (v : Output) : (s.emitOut v).fuse = s.fuse := rfl
@[simp] theorem State.emitOut_que (s : State) (v : Output) : (s.emitOut v).que = s.que := rfl
@[simp] theorem State.emitOut_sch (s : State) (v : Output) : (s.emitOut v).sch = s.sch := rfl
@[simp] theorem State.emitOut_err (s : State) (v : Output) : (s.emitOut v).err = s.err := rfl
@[simp] theorem State.emitOut_tap (s : State) (v : Output) : (s.emitOut v).tap = s.tap := rfl

@[simp] theorem State.setFlags_agenda (s : State) (e c fl : Nat) : (s.setFlags e c fl).agenda = s.agenda := rfl
@[simp] theorem State.setFlags_inp (s : State) (e c fl : Nat) : (s.setFlags e c fl).inp = s.inp := rfl
@[simp] theorem State.setFlags_cur (s : State) (e c fl : Nat) : (s.setFlags e c fl).cur = s.cur := rfl
@[simp] theorem State.setFlags_fresh (s : State) (e c fl : Nat) : (s.setFlags e c fl).fresh = s.fresh := rfl
@[simp] theorem State.setFlags_cycles (s : State) (e c fl : Nat) : (s.setFlags e c fl).cycles = s.cycles := rfl
@[simp] theorem State.setFlags_units (s : State) (e c fl : Nat) : (s.setFlags e c fl).units = s.units := rfl
@[simp] theorem State.setFlags_busy (s : State) (e c fl : Nat) : (s.setFlags e c fl).busy = s.busy := rfl
@[simp] theorem State.setFlags_turns (s : State) (e c fl : Nat) : (s.setFlags e c fl).turns = s.turns := rfl
@[simp] theorem State.setFlags_tsk (s : State) (e c fl : Nat) : (s.setFlags e c fl).tsk = s.tsk := rfl
@[simp] theorem State.setFlags_mem (s : State) (e c fl : Nat) : (s.setFlags e c fl).mem = s.mem := rfl
@[simp] theorem State.setFlags_eng (s : State) (e c fl : Nat) : (s.setFlags e c fl).eng = s.eng := rfl
@[simp] theorem State.setFlags_pow (s : State) (e c fl : Nat) : (s.setFlags e c fl).pow = s.pow := rfl
@[simp] theorem State.setFlags_thm (s : State) (e c fl : Nat) : (s.setFlags e c fl).thm = s.thm := rfl
@[simp] theorem State.setFlags_lnk (s : State) (e c fl : Nat) : (s.setFlags e c fl).lnk = s.lnk := rfl
@[simp] theorem State.setFlags_boot (s : State) (e c fl : Nat) : (s.setFlags e c fl).boot = s.boot := rfl
@[simp] theorem State.setFlags_apBase (s : State) (e c fl : Nat) : (s.setFlags e c fl).apBase = s.apBase := rfl
@[simp] theorem State.setFlags_pcieRate (s : State) (e c fl : Nat) : (s.setFlags e c fl).pcieRate = s.pcieRate := rfl
@[simp] theorem State.setFlags_pcieWidth (s : State) (e c fl : Nat) : (s.setFlags e c fl).pcieWidth = s.pcieWidth := rfl
@[simp] theorem State.setFlags_fuse (s : State) (e c fl : Nat) : (s.setFlags e c fl).fuse = s.fuse := rfl
@[simp] theorem State.setFlags_que (s : State) (e c fl : Nat) : (s.setFlags e c fl).que = s.que := rfl
@[simp] theorem State.setFlags_sch (s : State) (e c fl : Nat) : (s.setFlags e c fl).sch = s.sch := rfl
@[simp] theorem State.setFlags_err (s : State) (e c fl : Nat) : (s.setFlags e c fl).err = s.err := rfl
@[simp] theorem State.setFlags_tap (s : State) (e c fl : Nat) : (s.setFlags e c fl).tap = s.tap := rfl
@[simp] theorem State.setFlags_out (s : State) (e c fl : Nat) : (s.setFlags e c fl).out = s.out := rfl

theorem State.ctx_setCtx_same (s : State) (e c : Nat) (v : CtxSt) : (s.setCtx e c v).ctx e c = v :=
  Tab.getD_set_same _ _ _ _
theorem State.ctx_setCtx_other (s : State) (e c e' c' : Nat) (v : CtxSt) (h : ctxKey e' c' ≠ ctxKey e c) :
    (s.setCtx e c v).ctx e' c' = s.ctx e' c' :=
  Tab.getD_set_other _ _ _ _ _ h
theorem State.nodeSt_setNodeSt_same (s : State) (a e n : Nat) (v : NodeSt) : (s.setNodeSt a e n v).nodeSt a e n = v :=
  Tab.getD_set_same _ _ _ _
theorem State.act_setAct_same (s : State) (n : Nat) (v : Act) : (s.setAct n v).act? n = some v := Tab.find_set_same _ _ _
theorem State.act_setAct_other (s : State) (n k : Nat) (v : Act) (h : k ≠ n) : (s.setAct n v).act? k = s.act? k :=
  Tab.find_set_other _ _ _ _ h
theorem State.thread_setThread_same (s : State) (n : Nat) (v : Thread) : (s.setThread n v).thread? n = some v :=
  Tab.find_set_same _ _ _
theorem State.thread_setThread_other (s : State) (n k : Nat) (v : Thread) (h : k ≠ n) :
    (s.setThread n v).thread? k = s.thread? k :=
  Tab.find_set_other _ _ _ _ h
theorem State.task_setTask_same (s : State) (n : Nat) (v : Task) : (s.setTask n v).task? n = some v := Tab.find_set_same _ _ _
theorem State.task_setTask_other (s : State) (n k : Nat) (v : Task) (h : k ≠ n) : (s.setTask n v).task? k = s.task? k :=
  Tab.find_set_other _ _ _ _ h

@[simp] theorem State.tick_cycles (s : State) : s.tick.cycles = s.cycles + 1 := rfl
@[simp] theorem State.tick_units (s : State) : s.tick.units = s.units + unitsPerCycle s.pow.step.toNat := rfl
@[simp] theorem State.tick_busy (s : State) : s.tick.busy = [] := rfl
@[simp] theorem State.tick_fab (s : State) : s.tick.fab = s.fab := rfl
@[simp] theorem State.tick_tsk (s : State) : s.tick.tsk = s.tsk := rfl
@[simp] theorem State.tick_mem (s : State) : s.tick.mem = s.mem := rfl
@[simp] theorem State.tick_eng (s : State) : s.tick.eng = s.eng := rfl
@[simp] theorem State.free_fresh (s : State) : s.free.2.fresh = s.fresh + 1 := rfl
@[simp] theorem State.choose_fresh (s : State) (n : Nat) : (s.choose n).2.fresh = s.fresh + 1 := rfl

end Sys2Proof.Machine
end

