-- ==== Sys2Proof/Laws/Fire.lean ====
section
/-! SUPPORT. Laws of one firing: what each of its ways does, once for all forms that share them. -/
namespace Sys2Proof.Machine

/-! ### The output latch -/

/-- A result with no destination sends nothing. -/
theorem State.emit_none (s : State) (i : Issue) (r : NodeRec) (lat : Nat) (bs : List Beat) (h : bs.filter (reaches r) = []) :
    s.emit i r lat bs = s := by
  simp [State.emit, h]

/-- A repeated firing sends nothing. -/
theorem State.emit_again (s : State) (i : Issue) (r : NodeRec) (lat : Nat) (bs : List Beat) (h : i.f.again = true) :
    s.emit i r lat bs = s := by
  simp [State.emit, h]

/-- A result with a destination is under way to the output latch of its context. -/
theorem State.emit_ctx (s : State) (i : Issue) (r : NodeRec) (lat : Nat) (bs : List Beat) (h : bs.filter (reaches r) ≠ [])
    (ha : i.f.again = false) :
    (s.emit i r lat bs).ctx i.elem i.ctx = (s.ctx i.elem i.ctx).push
      { aid := i.f.aid, node := i.f.node, beats := bs.filter (reaches r), readyAt := s.cycles + lat, waits := false } := by
  simp [State.emit, h, ha, State.ctx_setCtx_same]

/-! ### The results of a context -/

/-- The results of a context are those it is given. -/
@[simp] theorem CtxSt.outs_withOuts (x : CtxSt) (ls : List OutLatch) : (x.withOuts ls).outs = ls := by
  cases ls <;> simp [CtxSt.outs, CtxSt.withOuts]

@[simp] theorem CtxSt.outs_push (x : CtxSt) (l : OutLatch) : (x.push l).outs = outIn l x.outs := by
  simp [CtxSt.push]

@[simp] theorem CtxSt.outs_dropOuts (x : CtxSt) (p : OutLatch → Bool) : (x.dropOuts p).outs = x.outs.filter fun l => !p l := by
  simp [CtxSt.dropOuts]

/-- A new result is one of the results, and none of the others is lost. -/
theorem mem_outIn (l y : OutLatch) (ls : List OutLatch) : y ∈ outIn l ls ↔ y = l ∨ y ∈ ls := by
  induction ls with
  | nil => simp [outIn]
  | cons x r ih =>
    unfold outIn
    split
    · simp
    · simp only [List.mem_cons, ih]; tauto

/-- Sending a result changes nothing but the fabric. -/
theorem State.emit_fab (s : State) (i : Issue) (r : NodeRec) (lat : Nat) (bs : List Beat) :
    ∃ f, s.emit i r lat bs = s.setFab f ∧ ∃ t, f = { s.fab with ctxs := t } := by
  unfold State.emit
  dsimp only
  split
  · exact ⟨s.fab, rfl, s.fab.ctxs, rfl⟩
  · exact ⟨_, rfl, _, rfl⟩

/-- A result changes nothing but the contexts of the fabric: the flags and the output latch. -/
theorem State.fireVal_fab (s : State) (i : Issue) (opc : Nat) (r : NodeRec) (v : Bool) (x fl : Nat) :
    ∃ t, s.fireVal i opc r v x fl = s.setFab { s.fab with ctxs := t } := by
  obtain ⟨f, h, t, rfl⟩ := State.emit_fab (s.setFlags i.elem i.ctx (fl ||| i.f.fl)) i r (formOf opc r).lat
    [.both (if v then .vector x else .scalar x) i.f.lo i.f.hi]
  exact ⟨t, h⟩

theorem State.fireNull_fab (s : State) (i : Issue) (opc : Nat) (r : NodeRec) :
    ∃ t, s.fireNull i opc r = s.setFab { s.fab with ctxs := t } := by
  obtain ⟨f, h, t, rfl⟩ := State.emit_fab s i r (formOf opc r).lat [.both .mkNull i.f.lo i.f.hi]
  exact ⟨t, h⟩

/-! ### The four ways of a firing -/

/-- With no firing at hand nothing happens. -/
theorem State.fire_idle (s : State) (opc : Nat) (r : NodeRec) (body : Issue → Nat → Nat → Nat → State → State)
    (h : s.cur = none) : s.fire opc r body = .next s := by
  simp [State.fire, h]

theorem State.fire_null (s : State) (opc : Nat) (r : NodeRec) (body : Issue → Nat → Nat → Nat → State → State) (i : Issue)
    (h : s.cur = some i) (hn : i.f.isNull r = true) : s.fire opc r body = .next ({ s with cur := none }.fireNull i opc r) := by
  simp [State.fire, h, hn]

theorem State.fire_poison (s : State) (opc : Nat) (r : NodeRec) (body : Issue → Nat → Nat → Nat → State → State) (i : Issue)
    (x : Nat × BitVec 3) (h : s.cur = some i) (hn : i.f.isNull r = false) (hp : i.f.poison = some x) :
    s.fire opc r body = .next ({ s with cur := none }.raise i (poisonTrap i.f x)) := by
  simp [State.fire, h, hn, hp]

theorem State.fire_run (s : State) (opc : Nat) (r : NodeRec) (body : Issue → Nat → Nat → Nat → State → State) (i : Issue)
    (h : s.cur = some i) (hn : i.f.isNull r = false) (hp : i.f.poison = none) :
    s.fire opc r body = .next (body i (valOf i.f.a) (opB opc r i.f) (valOf i.f.p) { s with cur := none }) := by
  simp [State.fire, h, hn, hp]

theorem State.fireOwn_run (s : State) (opc : Nat) (r : NodeRec) (body : Issue → State → State) (i : Issue)
    (h : s.cur = some i) (hn : (i.f.pNull || i.f.predFails r) = false) :
    s.fireOwn opc r body = .next (body i { s with cur := none }) := by
  simp only [Bool.or_eq_false_iff] at hn
  simp [State.fireOwn, h, hn]

theorem State.fireOwn_null (s : State) (opc : Nat) (r : NodeRec) (body : Issue → State → State) (i : Issue)
    (h : s.cur = some i) (hn : (i.f.pNull || i.f.predFails r) = true) :
    s.fireOwn opc r body = .next ({ s with cur := none }.fireNull i opc r) := by
  simp only [Bool.or_eq_true] at hn
  simp [State.fireOwn, h, hn]

/-- A form without flags sends, lane by lane, what its function gives. -/
theorem State.fireLanes_run (s : State) (opc : Nat) (r : NodeRec) (w : Nat) (g : Nat → Nat → Nat → Nat) (i : Issue)
    (h : s.cur = some i) (hn : i.f.isNull r = false) (hp : i.f.poison = none) :
    ∃ x, s.fireLanes opc r w g = .next ({ s with cur := none }.fireVal i opc r r.v x 0) ∧ x < 2 ^ (w * laneCount w r.v) ∧
      ∀ k < laneCount w r.v, lane w x k = g (lane w (valOf i.f.a) k) (lane w (opB opc r i.f) k) (lane w (valOf i.f.p) k) % 2 ^ w := by
  exact ⟨_, State.fire_run s opc r _ i h hn hp, mapLanes_lt .., fun k hk => lane_mapLanes _ _ _ k hk⟩

/-- A rounding form sends, lane by lane, what its function gives, and sets the flags that its lanes set. -/
theorem State.fireRound_run (s : State) (opc : Nat) (r : NodeRec) (w : Nat) (g : Nat → Nat → Nat → Nat × Nat) (i : Issue)
    (h : s.cur = some i) (hn : i.f.isNull r = false) (hp : i.f.poison = none) :
    ∃ x fl, s.fireRound opc r w g = .next ({ s with cur := none }.fireVal i opc r r.v x fl) ∧ x < 2 ^ (w * laneCount w r.v) ∧
      ∀ k < laneCount w r.v,
        lane w x k = (g (lane w (valOf i.f.a) k) (lane w (opB opc r i.f) k) (lane w (valOf i.f.p) k)).1 % 2 ^ w := by
  exact ⟨_, _, State.fire_run s opc r _ i h hn hp, mapFlags_lt .., fun k hk => lane_mapFlags _ _ _ k hk⟩

/-! ### Raising a trap -/

theorem State.raiseAt_first (s : State) (aid elem node : Nat) (t : Trap) (a : Act) (h : s.act? aid = some a)
    (hd : a.dead = false) (hc : a.committed = false) (ht : a.trap = none) :
    s.raiseAt aid elem node t = s.setAct aid { a with trap := some (s.trapRec aid elem node t) } := by
  simp [State.raiseAt, h, hd, hc, ht]

theorem State.raiseAt_committed (s : State) (aid elem node : Nat) (t : Trap) (a : Act) (h : s.act? aid = some a)
    (hd : a.dead = false) (hc : a.committed = true) :
    s.raiseAt aid elem node t = s.setTsk { s.tsk with lodgeQueue := s.tsk.lodgeQueue ++ [s.trapRec aid elem node t] } := by
  simp [State.raiseAt, h, hd, hc]

/-- Raising a trap changes tasks and the count of lost traps, nothing else. -/
theorem State.raiseAt_frame (s : State) (aid elem node : Nat) (t : Trap) :
    s.raiseAt aid elem node t =
      (s.setTsk (s.raiseAt aid elem node t).tsk).setErr (s.raiseAt aid elem node t).err := by
  unfold State.raiseAt State.trapLost State.setAct
  dsimp only
  repeat' split
  all_goals rfl

end Sys2Proof.Machine
end

