-- ==== Sys2Proof/Laws/Memory.lean ====
section
/-! SUPPORT. Laws of memory: every operation keeps the canonical form; the Glasshouse and the page walks change nothing else of the
memory than what the cache holds; reads and writes at a place leave the rest of the package alone. -/
namespace Sys2Proof.Machine

/-! ### The canonical form -/

theorem Memory.wf_iff (m : Memory) : m.wf = true ↔
    Tab.wf 0 m.main = true ∧ Tab.wf 0 m.dram = true ∧ Tab.wf 0 m.bank = true ∧ Tab.wf 0 m.scratch = true ∧ Tab.wf 0 m.host = true ∧
    Tab.wf false m.mainPois = true ∧ Tab.wf false m.dramPois = true ∧ Tab.wf false m.bankPois = true ∧
    Tab.wf false m.scratchPois = true := by
  simp [Memory.wf, and_assoc]

theorem foldl_keeps {α β : Type} (p : β → Prop) (f : β → α → β) (h : ∀ b a, p b → p (f b a)) (l : List α) :
    ∀ b, p b → p (l.foldl f b) := by
  induction l with
  | nil => exact fun _ hb => hb
  | cons a r ih => exact fun b hb => ih _ (h b a hb)

theorem copyCells_wf (src dst : List Host.Cell) (a n : Nat) (h : Tab.wf 0 dst = true) : Tab.wf 0 (copyCells src dst a n) = true :=
  writeCells_wf _ _ _ h
theorem clearCells_wf (m : List Host.Cell) (a n : Nat) (h : Tab.wf 0 m = true) : Tab.wf 0 (clearCells m a n) = true :=
  writeCells_wf _ _ _ h
theorem copyMarks_wf (src dst : Tab Bool) (a n : Nat) (h : Tab.wf false dst = true) : Tab.wf false (copyMarks src dst a n) = true :=
  foldl_keeps (fun t => Tab.wf false t = true) _ (fun _ _ ht => Tab.wf_put _ _ _ ht) _ _ h
theorem clearMarks_wf (t : Tab Bool) (a n : Nat) (h : Tab.wf false t = true) : Tab.wf false (clearMarks t a n) = true :=
  foldl_keeps (fun t => Tab.wf false t = true) _ (fun _ _ ht => Tab.wf_put _ _ _ ht) _ _ h

/-- Entries taken out of a canonical table leave a canonical table. -/
theorem Tab.wf_filter {α : Type} [DecidableEq α] {d : α} (p : Nat × α → Bool) (t : Tab α) (h : Tab.wf d t = true) :
    Tab.wf d (t.filter p) = true := by
  have low : ∀ (t : Tab α) (j : Nat), Tab.wf d t = true → (∀ x ∈ t.head?, j < x.1) → ∀ x ∈ t, j < x.1 := by
    intro t
    induction t with
    | nil => simp
    | cons y r ih =>
      intro j ht hj x hx
      obtain ⟨i, w⟩ := y
      have hi : j < i := by simpa using hj
      have h2 := Tab.wf_cons.1 ht
      rcases List.mem_cons.1 hx with rfl | hx
      · exact hi
      · exact Nat.lt_trans hi (ih i h2.2.2 h2.2.1 x hx)
  induction t with
  | nil => rfl
  | cons y r ih =>
    obtain ⟨i, w⟩ := y
    have h2 := Tab.wf_cons.1 h
    by_cases hp : p (i, w)
    · rw [List.filter_cons_of_pos hp]
      refine Tab.wf_cons.2 ⟨h2.1, ?_, ih h2.2.2⟩
      intro x hx
      exact low r i h2.2.2 h2.2.1 x (List.mem_filter.1 (List.mem_of_mem_head? hx)).1
    · rw [List.filter_cons_of_neg (by simpa using hp)]
      exact ih h2.2.2

theorem Memory.writeBackAt_wf (m : Memory) (line : Nat) (h : m.wf = true) : (m.writeBackAt line).wf = true := by
  rw [Memory.wf_iff] at h ⊢
  unfold Memory.writeBackAt
  dsimp only
  obtain ⟨h1, h2, h3, h4, h5, h6, h7, h8, h9⟩ := h
  exact ⟨h1, copyCells_wf _ _ _ _ h2, h3, h4, h5, h6, copyMarks_wf _ _ _ _ h7, h8, h9⟩

theorem Memory.dropWay_wf (m : Memory) (key line : Nat) (h : m.wf = true) : (m.dropWay key line).wf = true := by
  rw [Memory.wf_iff] at h ⊢
  unfold Memory.dropWay
  dsimp only
  obtain ⟨h1, h2, h3, h4, h5, h6, h7, h8, h9⟩ := h
  exact ⟨clearCells_wf _ _ _ h1, h2, h3, h4, h5, clearMarks_wf _ _ _ h6, h7, h8, h9⟩

theorem Memory.evict_wf (m : Memory) (key : Nat) (h : m.wf = true) : (m.evict key).wf = true := by
  unfold Memory.evict
  split
  · exact h
  · apply Memory.dropWay_wf
    split
    · exact Memory.writeBackAt_wf m _ h
    · exact h

theorem Memory.clean_wf (m : Memory) (line : Nat) (h : m.wf = true) : (m.clean line).wf = true := by
  unfold Memory.clean
  split
  · exact h
  · dsimp only
    split
    · exact Memory.writeBackAt_wf m line h
    · exact h

theorem Memory.invalidate_wf (m : Memory) (line : Nat) (h : m.wf = true) : (m.invalidate line).wf = true := by
  unfold Memory.invalidate
  split
  · exact h
  · exact Memory.dropWay_wf m _ line h

theorem Memory.fillAt_wf (m : Memory) (line w : Nat) (h : m.wf = true) : (m.fillAt line w).wf = true := by
  have h' := Memory.evict_wf m (m.setKey line * 16 + w) h
  unfold Memory.fillAt
  rw [Memory.wf_iff] at h' ⊢
  obtain ⟨h1, h2, h3, h4, h5, h6, h7, h8, h9⟩ := h'
  exact ⟨copyCells_wf _ _ _ _ h1, h2, h3, h4, h5, copyMarks_wf _ _ _ _ h6, h7, h8, h9⟩

theorem Memory.touch_wf (m : Memory) (line : Nat) (h : m.wf = true) : (m.touch line).2.wf = true := by
  unfold Memory.touch
  split
  · exact h
  · split
    · exact h
    · exact Memory.fillAt_wf m line _ h

theorem Memory.readLine_wf (m : Memory) (pa n : Nat) (h : m.wf = true) : (m.readLine pa n).2.2.wf = true := by
  have := Memory.touch_wf m (pa / 128) h
  unfold Memory.readLine
  dsimp only
  split <;> exact this

theorem Memory.writeLine_wf (m : Memory) (pa : Nat) (bs : List Byte) (pois : Bool) (h : m.wf = true) :
    (m.writeLine pa bs pois).wf = true := by
  have h' := Memory.touch_wf m (pa / 128) h
  rw [Memory.wf_iff] at h'
  obtain ⟨h1, h2, h3, h4, h5, h6, h7, h8, h9⟩ := h'
  unfold Memory.writeLine
  dsimp only
  split <;> rw [Memory.wf_iff]
  · exact ⟨writeCells_wf _ _ _ h1, h2, h3, h4, h5, markPois_wf _ _ _ _ h6, h7, h8, h9⟩
  · exact ⟨h1, writeCells_wf _ _ _ h2, h3, h4, h5, h6, markPois_wf _ _ _ _ h7, h8, h9⟩

theorem Memory.readGo_wf (k : Nat) : ∀ (m : Memory) (pa n : Nat), m.wf = true → (m.readGo pa n k).2.2.wf = true := by
  induction k with
  | zero => exact fun _ _ _ h => h
  | succ k ih =>
    intro m pa n h
    unfold Memory.readGo
    split
    · exact h
    · exact ih _ _ _ (Memory.readLine_wf m _ _ h)

/-- A read at the home slices keeps the canonical form. -/
theorem Memory.read_wf (m : Memory) (pa n : Nat) (h : m.wf = true) : (m.read pa n).2.2.wf = true := Memory.readGo_wf _ m pa n h

theorem Memory.writeGo_wf (pois : Bool) (k : Nat) : ∀ (m : Memory) (pa : Nat) (bs : List Byte), m.wf = true →
    (m.writeGo pa bs pois k).wf = true := by
  induction k with
  | zero => exact fun _ _ _ h => h
  | succ k ih =>
    intro m pa bs h
    unfold Memory.writeGo
    split
    · exact h
    · exact ih _ _ _ (Memory.writeLine_wf m _ _ _ h)

/-- A write at the home slices keeps the canonical form. -/
theorem Memory.write_wf (m : Memory) (pa : Nat) (bs : List Byte) (pois : Bool) (h : m.wf = true) : (m.write pa bs pois).wf = true :=
  Memory.writeGo_wf _ _ m pa bs h

theorem Memory.cleanRange_wf (m : Memory) (pa n : Nat) (h : m.wf = true) : (m.cleanRange pa n).wf = true :=
  foldl_keeps (fun m => m.wf = true) _ (fun m a hm => Memory.clean_wf m a hm) _ _ h

theorem Memory.walkGo_wf (va : Nat) (write : Bool) (k : Nat) : ∀ (m : Memory) (table lvl : Nat) (used : List Nat), m.wf = true →
    (m.walkGo va table lvl write used k).2.wf = true := by
  induction k with
  | zero => exact fun _ _ _ _ h => h
  | succ k ih =>
    intro m table lvl used h
    have hr := Memory.read_wf m (table + 8 * walkIndex va lvl) 8 h
    unfold Memory.walkGo
    dsimp only
    split
    · exact h
    split
    · exact hr
    · exact ih _ _ _ _ hr
    · split <;> exact hr

theorem Memory.markUsed_wf (m : Memory) (used : List Nat) (write : Bool) (h : m.wf = true) : (m.markUsed used write).wf = true :=
  foldl_keeps (fun m => m.wf = true) _ (fun m a hm => Memory.write_wf _ _ _ _ (Memory.read_wf m a 1 hm)) _ _ h

/-- A walk keeps the canonical form. -/
theorem Memory.walk_wf (m : Memory) (asid va : Nat) (write : Bool) (h : m.wf = true) : (m.walk asid va write).2.wf = true := by
  unfold Memory.walk
  dsimp only
  split
  · exact h
  · split
    · exact h
    · have hw := Memory.walkGo_wf va write 4 m ((Tab.getD m.trRoot asid (false, 0)).2.toNat * 65536) 0 [] h
      split
      · rename_i heq; rw [heq] at hw; exact hw
      · rename_i heq; rw [heq] at hw; exact Memory.markUsed_wf _ _ _ hw

theorem Memory.translate_wf (m : Memory) (port asid va : Nat) (write : Bool) (pick : Nat) (h : m.wf = true) :
    (m.translate port asid va write pick).2.wf = true := by
  unfold Memory.translate
  dsimp only
  split
  · exact h
  · have hw := Memory.walk_wf m asid va write h
    split
    · rename_i heq; rw [heq] at hw; exact hw
    · rename_i heq; rw [heq] at hw; exact hw

theorem Memory.dropTlb_wf (m : Memory) (p : Tlb → Bool) (h : m.wf = true) : (m.dropTlb p).wf = true := h

/-- Memory after reset lists nothing, so it is canonical. -/
theorem Memory.reset_wf (f : Fuses) : (Memory.reset f).wf = true := rfl
theorem State.resetOf_memWf (f : Fuses) : (State.resetOf f).memWf = true := rfl

/-! ### What the Glasshouse may change -/

/-- A memory like `m` but for what the Glasshouse holds and what lies under it. -/
def Memory.CacheOnly (m n : Memory) : Prop :=
  n = { m with main := n.main, dram := n.dram, mainPois := n.mainPois, dramPois := n.dramPois, lines := n.lines, plru := n.plru }

theorem Memory.CacheOnly.refl (m : Memory) : m.CacheOnly m := rfl
theorem Memory.CacheOnly.trans {m n k : Memory} (h : m.CacheOnly n) (h' : n.CacheOnly k) : m.CacheOnly k := by
  unfold Memory.CacheOnly at *
  rw [h', h]

theorem Memory.writeBackAt_cache (m : Memory) (line : Nat) : m.CacheOnly (m.writeBackAt line) := by
  simp only [Memory.CacheOnly, Memory.writeBackAt]
theorem Memory.dropWay_cache (m : Memory) (key line : Nat) : m.CacheOnly (m.dropWay key line) := by
  simp only [Memory.CacheOnly, Memory.dropWay]
theorem Memory.evict_cache (m : Memory) (key : Nat) : m.CacheOnly (m.evict key) := by
  unfold Memory.evict
  split
  · exact .refl m
  · split
    · exact (Memory.writeBackAt_cache m _).trans (Memory.dropWay_cache _ _ _)
    · exact Memory.dropWay_cache _ _ _
theorem Memory.clean_cache (m : Memory) (line : Nat) : m.CacheOnly (m.clean line) := by
  unfold Memory.clean
  split
  · exact .refl m
  · dsimp only
    split
    · refine (Memory.writeBackAt_cache m line).trans ?_
      unfold Memory.CacheOnly; rfl
    · exact .refl m
theorem Memory.invalidate_cache (m : Memory) (line : Nat) : m.CacheOnly (m.invalidate line) := by
  unfold Memory.invalidate
  split
  · exact .refl m
  · exact Memory.dropWay_cache _ _ _
theorem Memory.fillAt_cache (m : Memory) (line w : Nat) : m.CacheOnly (m.fillAt line w) := by
  refine (Memory.evict_cache m (m.setKey line * 16 + w)).trans ?_
  unfold Memory.CacheOnly Memory.fillAt
  rfl
theorem Memory.touch_cache (m : Memory) (line : Nat) : m.CacheOnly (m.touch line).2 := by
  unfold Memory.touch
  split
  · rfl
  · split
    · rfl
    · exact Memory.fillAt_cache m line _
theorem Memory.readLine_cache (m : Memory) (pa n : Nat) : m.CacheOnly (m.readLine pa n).2.2 := by
  have := Memory.touch_cache m (pa / 128)
  unfold Memory.readLine
  dsimp only
  split <;> exact this
theorem Memory.writeLine_cache (m : Memory) (pa : Nat) (bs : List Byte) (pois : Bool) : m.CacheOnly (m.writeLine pa bs pois) := by
  refine (Memory.touch_cache m (pa / 128)).trans ?_
  unfold Memory.writeLine
  dsimp only
  split <;> rfl

/-- A read changes nothing of the memory but what the Glasshouse holds. -/
theorem Memory.read_cache (m : Memory) (pa n : Nat) : m.CacheOnly (m.read pa n).2.2 := by
  have go : ∀ (k : Nat) (m : Memory) (pa n : Nat), m.CacheOnly (m.readGo pa n k).2.2 := by
    intro k
    induction k with
    | zero => exact fun _ _ _ => rfl
    | succ k ih =>
      intro m pa n
      unfold Memory.readGo
      split
      · rfl
      · exact (Memory.readLine_cache m _ _).trans (ih _ _ _)
  exact go _ m pa n

/-- A write changes nothing of the memory but what the Glasshouse and the banks and stacks under it hold. -/
theorem Memory.write_cache (m : Memory) (pa : Nat) (bs : List Byte) (pois : Bool) : m.CacheOnly (m.write pa bs pois) := by
  have go : ∀ (k : Nat) (m : Memory) (pa : Nat) (bs : List Byte), m.CacheOnly (m.writeGo pa bs pois k) := by
    intro k
    induction k with
    | zero => exact fun _ _ _ => rfl
    | succ k ih =>
      intro m pa bs
      unfold Memory.writeGo
      split
      · rfl
      · exact (Memory.writeLine_cache m _ _ _).trans (ih _ _ _)
  exact go _ m pa bs

theorem Memory.cleanRange_cache (m : Memory) (pa n : Nat) : m.CacheOnly (m.cleanRange pa n) :=
  foldl_keeps (fun n => m.CacheOnly n) _ (fun n a hn => hn.trans (Memory.clean_cache n a)) _ _ rfl

theorem Memory.walkGo_cache (va : Nat) (write : Bool) (k : Nat) : ∀ (m : Memory) (table lvl : Nat) (used : List Nat),
    m.CacheOnly (m.walkGo va table lvl write used k).2 := by
  induction k with
  | zero => exact fun _ _ _ _ => rfl
  | succ k ih =>
    intro m table lvl used
    have hr := Memory.read_cache m (table + 8 * walkIndex va lvl) 8
    unfold Memory.walkGo
    dsimp only
    split
    · rfl
    split
    · exact hr
    · exact hr.trans (ih _ _ _ _)
    · split <;> exact hr

theorem Memory.markUsed_cache (m : Memory) (used : List Nat) (write : Bool) : m.CacheOnly (m.markUsed used write) :=
  foldl_keeps (fun n => m.CacheOnly n) _ (fun n a hn => (hn.trans (Memory.read_cache n a 1)).trans (Memory.write_cache _ _ _ _)) _ _ rfl

/-- A walk changes nothing of the memory but what the Glasshouse and the tables in memory hold. -/
theorem Memory.walk_cache (m : Memory) (asid va : Nat) (write : Bool) : m.CacheOnly (m.walk asid va write).2 := by
  unfold Memory.walk
  dsimp only
  split
  · rfl
  · split
    · rfl
    · have hw := Memory.walkGo_cache va write 4 m ((Tab.getD m.trRoot asid (false, 0)).2.toNat * 65536) 0 []
      split
      · rename_i heq; rw [heq] at hw; exact hw
      · rename_i heq; rw [heq] at hw; exact hw.trans (Memory.markUsed_cache _ _ _)

/-- A translation changes, beside that, the cache of its memory port alone. -/
theorem Memory.translate_cache (m : Memory) (port asid va : Nat) (write : Bool) (pick : Nat) :
    ∃ n t, m.CacheOnly n ∧ (m.translate port asid va write pick).2 = { n with tlb := t } := by
  unfold Memory.translate
  dsimp only
  split
  · exact ⟨m, m.tlb, rfl, rfl⟩
  · have hw := Memory.walk_cache m asid va write
    split
    · rename_i heq; rw [heq] at hw; exact ⟨_, _, hw, rfl⟩
    · rename_i heq; rw [heq] at hw; exact ⟨_, _, hw, rfl⟩

/-! ### Reads and writes at a place -/

/-- A read at a place changes the package's memory alone, and of that what the Glasshouse holds. -/
theorem State.readAt_frame (s : State) (k : PlaceKind) (a n : Nat) :
    ∃ m, s.mem.CacheOnly m ∧ (s.readAt k a n).2.2 = s.setMem m := by
  cases k
  · exact ⟨_, Memory.read_cache s.mem a n, rfl⟩
  all_goals exact ⟨s.mem, rfl, rfl⟩

theorem State.readAt_memWf (s : State) (k : PlaceKind) (a n : Nat) (h : s.memWf = true) : (s.readAt k a n).2.2.memWf = true := by
  simp only [State.memWf, Bool.and_eq_true] at h ⊢
  cases k
  · exact ⟨Memory.read_wf s.mem a n h.1, h.2⟩
  all_goals exact h

theorem State.noteWrite_frame (s : State) (k : PlaceKind) (a n : Nat) :
    ∃ w h, s.noteWrite k a n = (s.setMem { s.mem with watches := w }).setSch { s.sch with held := h } := ⟨_, _, rfl⟩

/-- A write at a place keeps the canonical form. -/
theorem State.writeAt_memWf (s : State) (k : PlaceKind) (a : Nat) (bs : List Byte) (pois : Bool) (h : s.memWf = true) :
    (s.writeAt k a bs pois).memWf = true := by
  simp only [State.memWf, Bool.and_eq_true, Memory.wf_iff] at h ⊢
  obtain ⟨⟨h1, h2, h3, h4, h5, h6, h7, h8, h9⟩, h10⟩ := h
  cases k
  · have := Memory.write_wf s.mem a bs pois (by rw [Memory.wf_iff]; exact ⟨h1, h2, h3, h4, h5, h6, h7, h8, h9⟩)
    rw [Memory.wf_iff] at this
    exact ⟨this, h10⟩
  · exact ⟨⟨h1, h2, writeCells_wf _ _ _ h3, h4, h5, h6, h7, markPois_wf _ _ _ _ h8, h9⟩, h10⟩
  · exact ⟨⟨h1, h2, h3, writeCells_wf _ _ _ h4, h5, h6, h7, h8, markPois_wf _ _ _ _ h9⟩, h10⟩
  · exact ⟨⟨h1, h2, h3, h4, h5, h6, h7, h8, h9⟩, h10⟩

/-- A write at a place changes memory, the notes on watches and held launches and those on the cycle's writes, and nothing else of the package. -/
theorem State.writeAt_frame (s : State) (k : PlaceKind) (a : Nat) (bs : List Byte) (pois : Bool) :
    ∃ m h t, s.writeAt k a bs pois = { (s.setMem m).setSch { s.sch with held := h } with turns := t } := by
  cases k <;> exact ⟨_, _, _, rfl⟩

/-- A posted write to host memory keeps the canonical form. -/
theorem State.hostWrite_memWf (s : State) (a : Nat) (bs : List Byte) (h : s.memWf = true) : (s.hostWrite a bs).memWf = true := by
  simp only [State.memWf, Bool.and_eq_true, Memory.wf_iff] at h ⊢
  obtain ⟨⟨h1, h2, h3, h4, h5, h6, h7, h8, h9⟩, h10⟩ := h
  exact ⟨⟨h1, h2, h3, h4, writeCells_wf _ _ _ h5, h6, h7, h8, h9⟩, h10⟩

/-- A new translation keeps the canonical form. -/
theorem State.translate_memWf (s : State) (port asid va : Nat) (write : Bool) (h : s.memWf = true) :
    (s.translate port asid va write).2.memWf = true := by
  simp only [State.memWf, Bool.and_eq_true] at h
  have ht := Memory.translate_wf s.mem port asid va write (s.choose 64).1 h.1
  unfold State.translate
  dsimp only
  split
  · rename_i heq
    rw [show (s.choose 64).2.mem = s.mem from rfl] at heq
    rw [heq] at ht
    simp only [State.memWf, Bool.and_eq_true]
    exact ⟨ht, h.2⟩
  · rename_i heq
    rw [show (s.choose 64).2.mem = s.mem from rfl] at heq
    rw [heq] at ht
    simp only [State.memWf, Bool.and_eq_true]
    exact ⟨ht, h.2⟩

end Sys2Proof.Machine
end

