-- ==== Sys2Proof/Laws/PerInstr.lean ====
section
/-! SUPPORT. The encoding family, one lemma per instruction: a node form's opcode is one byte, not zero, and names the form again
(QPUT and QPUT.NB share theirs); its encoding is the record's word; a step of the package has no encoding. -/
namespace Sys2Proof.Laws.Encoding

/-- What the family says of an instruction. -/
def Statement (i : Instr) : Prop :=
  match i.node? with
  | none => encode i = none
  | some (opc, r) =>
    0 < opc ∧ opc < 256 ∧ (opc = 0xC9 ∨ Instr.ofOpcode opc r = some i) ∧ encode i = some (bytesOf 12 (r.word opc))

theorem mov (r : NodeRec) : Statement (.mov r) := ⟨by decide, by decide, .inr rfl, rfl⟩
theorem steer (r : NodeRec) : Statement (.steer r) := ⟨by decide, by decide, .inr rfl, rfl⟩
theorem merge (r : NodeRec) : Statement (.merge r) := ⟨by decide, by decide, .inr rfl, rfl⟩
theorem gate (r : NodeRec) : Statement (.gate r) := ⟨by decide, by decide, .inr rfl, rfl⟩
theorem sink (r : NodeRec) : Statement (.sink r) := ⟨by decide, by decide, .inr rfl, rfl⟩
theorem nullify (r : NodeRec) : Statement (.nullify r) := ⟨by decide, by decide, .inr rfl, rfl⟩
theorem lite (r : NodeRec) : Statement (.lite r) := ⟨by decide, by decide, .inr rfl, rfl⟩
theorem sel (r : NodeRec) : Statement (.sel r) := ⟨by decide, by decide, .inr rfl, rfl⟩
theorem isnull (r : NodeRec) : Statement (.isnull r) := ⟨by decide, by decide, .inr rfl, rfl⟩
theorem vote3 (r : NodeRec) : Statement (.vote3 r) := ⟨by decide, by decide, .inr rfl, rfl⟩
theorem ishift (r : NodeRec) : Statement (.ishift r) := ⟨by decide, by decide, .inr rfl, rfl⟩
theorem iclip (r : NodeRec) : Statement (.iclip r) := ⟨by decide, by decide, .inr rfl, rfl⟩
theorem iwiden (r : NodeRec) : Statement (.iwiden r) := ⟨by decide, by decide, .inr rfl, rfl⟩
theorem isplit (r : NodeRec) : Statement (.isplit r) := ⟨by decide, by decide, .inr rfl, rfl⟩
theorem ilo (r : NodeRec) : Statement (.ilo r) := ⟨by decide, by decide, .inr rfl, rfl⟩
theorem ihi (r : NodeRec) : Statement (.ihi r) := ⟨by decide, by decide, .inr rfl, rfl⟩
theorem istamp (r : NodeRec) : Statement (.istamp r) := ⟨by decide, by decide, .inr rfl, rfl⟩
theorem ifront (r : NodeRec) : Statement (.ifront r) := ⟨by decide, by decide, .inr rfl, rfl⟩
theorem add (r : NodeRec) : Statement (.add r) := ⟨by decide, by decide, .inr rfl, rfl⟩
theorem sub (r : NodeRec) : Statement (.sub r) := ⟨by decide, by decide, .inr rfl, rfl⟩
theorem mul (r : NodeRec) : Statement (.mul r) := ⟨by decide, by decide, .inr rfl, rfl⟩
theorem mulh (r : NodeRec) : Statement (.mulh r) := ⟨by decide, by decide, .inr rfl, rfl⟩
theorem mad (r : NodeRec) : Statement (.mad r) := ⟨by decide, by decide, .inr rfl, rfl⟩
theorem div (r : NodeRec) : Statement (.div r) := ⟨by decide, by decide, .inr rfl, rfl⟩
theorem rem (r : NodeRec) : Statement (.rem r) := ⟨by decide, by decide, .inr rfl, rfl⟩
theorem neg (r : NodeRec) : Statement (.neg r) := ⟨by decide, by decide, .inr rfl, rfl⟩
theorem abs (r : NodeRec) : Statement (.abs r) := ⟨by decide, by decide, .inr rfl, rfl⟩
theorem min (r : NodeRec) : Statement (.min r) := ⟨by decide, by decide, .inr rfl, rfl⟩
theorem max (r : NodeRec) : Statement (.max r) := ⟨by decide, by decide, .inr rfl, rfl⟩
theorem adds (r : NodeRec) : Statement (.adds r) := ⟨by decide, by decide, .inr rfl, rfl⟩
theorem subs (r : NodeRec) : Statement (.subs r) := ⟨by decide, by decide, .inr rfl, rfl⟩
theorem and (r : NodeRec) : Statement (.and r) := ⟨by decide, by decide, .inr rfl, rfl⟩
theorem or (r : NodeRec) : Statement (.or r) := ⟨by decide, by decide, .inr rfl, rfl⟩
theorem xor (r : NodeRec) : Statement (.xor r) := ⟨by decide, by decide, .inr rfl, rfl⟩
theorem andn (r : NodeRec) : Statement (.andn r) := ⟨by decide, by decide, .inr rfl, rfl⟩
theorem not (r : NodeRec) : Statement (.not r) := ⟨by decide, by decide, .inr rfl, rfl⟩
theorem shl (r : NodeRec) : Statement (.shl r) := ⟨by decide, by decide, .inr rfl, rfl⟩
theorem shr (r : NodeRec) : Statement (.shr r) := ⟨by decide, by decide, .inr rfl, rfl⟩
theorem sar (r : NodeRec) : Statement (.sar r) := ⟨by decide, by decide, .inr rfl, rfl⟩
theorem rotl (r : NodeRec) : Statement (.rotl r) := ⟨by decide, by decide, .inr rfl, rfl⟩
theorem clz (r : NodeRec) : Statement (.clz r) := ⟨by decide, by decide, .inr rfl, rfl⟩
theorem ctz (r : NodeRec) : Statement (.ctz r) := ⟨by decide, by decide, .inr rfl, rfl⟩
theorem popc (r : NodeRec) : Statement (.popc r) := ⟨by decide, by decide, .inr rfl, rfl⟩
theorem bfx (r : NodeRec) : Statement (.bfx r) := ⟨by decide, by decide, .inr rfl, rfl⟩
theorem bfi (r : NodeRec) : Statement (.bfi r) := ⟨by decide, by decide, .inr rfl, rfl⟩
theorem brev (r : NodeRec) : Statement (.brev r) := ⟨by decide, by decide, .inr rfl, rfl⟩
theorem cmpeq (r : NodeRec) : Statement (.cmpeq r) := ⟨by decide, by decide, .inr rfl, rfl⟩
theorem cmpne (r : NodeRec) : Statement (.cmpne r) := ⟨by decide, by decide, .inr rfl, rfl⟩
theorem cmplt (r : NodeRec) : Statement (.cmplt r) := ⟨by decide, by decide, .inr rfl, rfl⟩
theorem cmple (r : NodeRec) : Statement (.cmple r) := ⟨by decide, by decide, .inr rfl, rfl⟩
theorem cmpltn (r : NodeRec) : Statement (.cmpltn r) := ⟨by decide, by decide, .inr rfl, rfl⟩
theorem cmplen (r : NodeRec) : Statement (.cmplen r) := ⟨by decide, by decide, .inr rfl, rfl⟩
theorem fcmpeq (r : NodeRec) : Statement (.fcmpeq r) := ⟨by decide, by decide, .inr rfl, rfl⟩
theorem fcmpne (r : NodeRec) : Statement (.fcmpne r) := ⟨by decide, by decide, .inr rfl, rfl⟩
theorem fcmplt (r : NodeRec) : Statement (.fcmplt r) := ⟨by decide, by decide, .inr rfl, rfl⟩
theorem fcmple (r : NodeRec) : Statement (.fcmple r) := ⟨by decide, by decide, .inr rfl, rfl⟩
theorem fcmpun (r : NodeRec) : Statement (.fcmpun r) := ⟨by decide, by decide, .inr rfl, rfl⟩
theorem pand (r : NodeRec) : Statement (.pand r) := ⟨by decide, by decide, .inr rfl, rfl⟩
theorem por (r : NodeRec) : Statement (.por r) := ⟨by decide, by decide, .inr rfl, rfl⟩
theorem pnot (r : NodeRec) : Statement (.pnot r) := ⟨by decide, by decide, .inr rfl, rfl⟩
theorem pany (r : NodeRec) : Statement (.pany r) := ⟨by decide, by decide, .inr rfl, rfl⟩
theorem pall (r : NodeRec) : Statement (.pall r) := ⟨by decide, by decide, .inr rfl, rfl⟩
theorem fadd (r : NodeRec) : Statement (.fadd r) := ⟨by decide, by decide, .inr rfl, rfl⟩
theorem fsub (r : NodeRec) : Statement (.fsub r) := ⟨by decide, by decide, .inr rfl, rfl⟩
theorem fmul (r : NodeRec) : Statement (.fmul r) := ⟨by decide, by decide, .inr rfl, rfl⟩
theorem fma (r : NodeRec) : Statement (.fma r) := ⟨by decide, by decide, .inr rfl, rfl⟩
theorem fms (r : NodeRec) : Statement (.fms r) := ⟨by decide, by decide, .inr rfl, rfl⟩
theorem fnma (r : NodeRec) : Statement (.fnma r) := ⟨by decide, by decide, .inr rfl, rfl⟩
theorem fmin (r : NodeRec) : Statement (.fmin r) := ⟨by decide, by decide, .inr rfl, rfl⟩
theorem fmax (r : NodeRec) : Statement (.fmax r) := ⟨by decide, by decide, .inr rfl, rfl⟩
theorem fabs (r : NodeRec) : Statement (.fabs r) := ⟨by decide, by decide, .inr rfl, rfl⟩
theorem fneg (r : NodeRec) : Statement (.fneg r) := ⟨by decide, by decide, .inr rfl, rfl⟩
theorem fsgn (r : NodeRec) : Statement (.fsgn r) := ⟨by decide, by decide, .inr rfl, rfl⟩
theorem fclass (r : NodeRec) : Statement (.fclass r) := ⟨by decide, by decide, .inr rfl, rfl⟩
theorem frnd (r : NodeRec) : Statement (.frnd r) := ⟨by decide, by decide, .inr rfl, rfl⟩
theorem frcp (r : NodeRec) : Statement (.frcp r) := ⟨by decide, by decide, .inr rfl, rfl⟩
theorem frsq (r : NodeRec) : Statement (.frsq r) := ⟨by decide, by decide, .inr rfl, rfl⟩
theorem fsqrt (r : NodeRec) : Statement (.fsqrt r) := ⟨by decide, by decide, .inr rfl, rfl⟩
theorem fdiv (r : NodeRec) : Statement (.fdiv r) := ⟨by decide, by decide, .inr rfl, rfl⟩
theorem fexp2 (r : NodeRec) : Statement (.fexp2 r) := ⟨by decide, by decide, .inr rfl, rfl⟩
theorem flog2 (r : NodeRec) : Statement (.flog2 r) := ⟨by decide, by decide, .inr rfl, rfl⟩
theorem ftanh (r : NodeRec) : Statement (.ftanh r) := ⟨by decide, by decide, .inr rfl, rfl⟩
theorem cvt (r : NodeRec) : Statement (.cvt r) := ⟨by decide, by decide, .inr rfl, rfl⟩
theorem cvti (r : NodeRec) : Statement (.cvti r) := ⟨by decide, by decide, .inr rfl, rfl⟩
theorem cvtf (r : NodeRec) : Statement (.cvtf r) := ⟨by decide, by decide, .inr rfl, rfl⟩
theorem qamax (r : NodeRec) : Statement (.qamax r) := ⟨by decide, by decide, .inr rfl, rfl⟩
theorem qscale (r : NodeRec) : Statement (.qscale r) := ⟨by decide, by decide, .inr rfl, rfl⟩
theorem qpack (r : NodeRec) : Statement (.qpack r) := ⟨by decide, by decide, .inr rfl, rfl⟩
theorem qunpack (r : NodeRec) : Statement (.qunpack r) := ⟨by decide, by decide, .inr rfl, rfl⟩
theorem srseed (r : NodeRec) : Statement (.srseed r) := ⟨by decide, by decide, .inr rfl, rfl⟩
theorem vshuf (r : NodeRec) : Statement (.vshuf r) := ⟨by decide, by decide, .inr rfl, rfl⟩
theorem vbcast (r : NodeRec) : Statement (.vbcast r) := ⟨by decide, by decide, .inr rfl, rfl⟩
theorem vext (r : NodeRec) : Statement (.vext r) := ⟨by decide, by decide, .inr rfl, rfl⟩
theorem vins (r : NodeRec) : Statement (.vins r) := ⟨by decide, by decide, .inr rfl, rfl⟩
theorem vredadd (r : NodeRec) : Statement (.vredadd r) := ⟨by decide, by decide, .inr rfl, rfl⟩
theorem vredmax (r : NodeRec) : Statement (.vredmax r) := ⟨by decide, by decide, .inr rfl, rfl⟩
theorem vredmin (r : NodeRec) : Statement (.vredmin r) := ⟨by decide, by decide, .inr rfl, rfl⟩
theorem vpack (r : NodeRec) : Statement (.vpack r) := ⟨by decide, by decide, .inr rfl, rfl⟩
theorem vunpk (r : NodeRec) : Statement (.vunpk r) := ⟨by decide, by decide, .inr rfl, rfl⟩
theorem vscan (r : NodeRec) : Statement (.vscan r) := ⟨by decide, by decide, .inr rfl, rfl⟩
theorem vslide (r : NodeRec) : Statement (.vslide r) := ⟨by decide, by decide, .inr rfl, rfl⟩
theorem vrotl (r : NodeRec) : Statement (.vrotl r) := ⟨by decide, by decide, .inr rfl, rfl⟩
theorem ld (r : NodeRec) : Statement (.ld r) := ⟨by decide, by decide, .inr rfl, rfl⟩
theorem st (r : NodeRec) : Statement (.st r) := ⟨by decide, by decide, .inr rfl, rfl⟩
theorem ldv (r : NodeRec) : Statement (.ldv r) := ⟨by decide, by decide, .inr rfl, rfl⟩
theorem stv (r : NodeRec) : Statement (.stv r) := ⟨by decide, by decide, .inr rfl, rfl⟩
theorem ldb (r : NodeRec) : Statement (.ldb r) := ⟨by decide, by decide, .inr rfl, rfl⟩
theorem stb (r : NodeRec) : Statement (.stb r) := ⟨by decide, by decide, .inr rfl, rfl⟩
theorem pref (r : NodeRec) : Statement (.pref r) := ⟨by decide, by decide, .inr rfl, rfl⟩
theorem amoadd (r : NodeRec) : Statement (.amoadd r) := ⟨by decide, by decide, .inr rfl, rfl⟩
theorem amofadd (r : NodeRec) : Statement (.amofadd r) := ⟨by decide, by decide, .inr rfl, rfl⟩
theorem amomin (r : NodeRec) : Statement (.amomin r) := ⟨by decide, by decide, .inr rfl, rfl⟩
theorem amomax (r : NodeRec) : Statement (.amomax r) := ⟨by decide, by decide, .inr rfl, rfl⟩
theorem amoand (r : NodeRec) : Statement (.amoand r) := ⟨by decide, by decide, .inr rfl, rfl⟩
theorem amoor (r : NodeRec) : Statement (.amoor r) := ⟨by decide, by decide, .inr rfl, rfl⟩
theorem amoxor (r : NodeRec) : Statement (.amoxor r) := ⟨by decide, by decide, .inr rfl, rfl⟩
theorem amoswp (r : NodeRec) : Statement (.amoswp r) := ⟨by decide, by decide, .inr rfl, rfl⟩
theorem amocas (r : NodeRec) : Statement (.amocas r) := ⟨by decide, by decide, .inr rfl, rfl⟩
theorem joinf (r : NodeRec) : Statement (.joinf r) := ⟨by decide, by decide, .inr rfl, rfl⟩
theorem waita (r : NodeRec) : Statement (.waita r) := ⟨by decide, by decide, .inr rfl, rfl⟩
theorem wakea (r : NodeRec) : Statement (.wakea r) := ⟨by decide, by decide, .inr rfl, rfl⟩
theorem br (r : NodeRec) : Statement (.br r) := ⟨by decide, by decide, .inr rfl, rfl⟩
theorem bri (r : NodeRec) : Statement (.bri r) := ⟨by decide, by decide, .inr rfl, rfl⟩
theorem call (r : NodeRec) : Statement (.call r) := ⟨by decide, by decide, .inr rfl, rfl⟩
theorem ret (r : NodeRec) : Statement (.ret r) := ⟨by decide, by decide, .inr rfl, rfl⟩
theorem rdc (r : NodeRec) : Statement (.rdc r) := ⟨by decide, by decide, .inr rfl, rfl⟩
theorem wrc (r : NodeRec) : Statement (.wrc r) := ⟨by decide, by decide, .inr rfl, rfl⟩
theorem spawn (r : NodeRec) : Statement (.spawn r) := ⟨by decide, by decide, .inr rfl, rfl⟩
theorem exit (r : NodeRec) : Statement (.exit r) := ⟨by decide, by decide, .inr rfl, rfl⟩
theorem join (r : NodeRec) : Statement (.join r) := ⟨by decide, by decide, .inr rfl, rfl⟩
theorem leave (r : NodeRec) : Statement (.leave r) := ⟨by decide, by decide, .inr rfl, rfl⟩
theorem gbar (r : NodeRec) : Statement (.gbar r) := ⟨by decide, by decide, .inr rfl, rfl⟩
theorem yield (r : NodeRec) : Statement (.yield r) := ⟨by decide, by decide, .inr rfl, rfl⟩
theorem launch (r : NodeRec) : Statement (.launch r) := ⟨by decide, by decide, .inr rfl, rfl⟩
theorem est (r : NodeRec) : Statement (.est r) := ⟨by decide, by decide, .inr rfl, rfl⟩
theorem sbind (r : NodeRec) : Statement (.sbind r) := ⟨by decide, by decide, .inr rfl, rfl⟩
theorem srel (r : NodeRec) : Statement (.srel r) := ⟨by decide, by decide, .inr rfl, rfl⟩
theorem spos (r : NodeRec) : Statement (.spos r) := ⟨by decide, by decide, .inr rfl, rfl⟩
theorem xcopy (r : NodeRec) : Statement (.xcopy r) := ⟨by decide, by decide, .inr rfl, rfl⟩
theorem nmred (r : NodeRec) : Statement (.nmred r) := ⟨by decide, by decide, .inr rfl, rfl⟩
theorem rowact (r : NodeRec) : Statement (.rowact r) := ⟨by decide, by decide, .inr rfl, rfl⟩
theorem rowcon (r : NodeRec) : Statement (.rowcon r) := ⟨by decide, by decide, .inr rfl, rfl⟩
theorem rowput (r : NodeRec) : Statement (.rowput r) := ⟨by decide, by decide, .inr rfl, rfl⟩
theorem rowpre (r : NodeRec) : Statement (.rowpre r) := ⟨by decide, by decide, .inr rfl, rfl⟩
theorem qput (r : NodeRec) : Statement (.qput r) := ⟨by decide, by decide, .inl rfl, rfl⟩
theorem qputNb (r : NodeRec) : Statement (.qputNb r) := ⟨by decide, by decide, .inl rfl, rfl⟩
theorem argw (r : NodeRec) : Statement (.argw r) := ⟨by decide, by decide, .inr rfl, rfl⟩
theorem mwload (r : NodeRec) : Statement (.mwload r) := ⟨by decide, by decide, .inr rfl, rfl⟩
theorem mmac (r : NodeRec) : Statement (.mmac r) := ⟨by decide, by decide, .inr rfl, rfl⟩
theorem mdrain (r : NodeRec) : Statement (.mdrain r) := ⟨by decide, by decide, .inr rfl, rfl⟩
theorem macc (r : NodeRec) : Statement (.macc r) := ⟨by decide, by decide, .inr rfl, rfl⟩
theorem mchk (r : NodeRec) : Statement (.mchk r) := ⟨by decide, by decide, .inr rfl, rfl⟩
theorem mrel (r : NodeRec) : Statement (.mrel r) := ⟨by decide, by decide, .inr rfl, rfl⟩
theorem fctb (r : NodeRec) : Statement (.fctb r) := ⟨by decide, by decide, .inr rfl, rfl⟩
theorem fcts (r : NodeRec) : Statement (.fcts r) := ⟨by decide, by decide, .inr rfl, rfl⟩
theorem fctn (r : NodeRec) : Statement (.fctn r) := ⟨by decide, by decide, .inr rfl, rfl⟩
theorem fctr (r : NodeRec) : Statement (.fctr r) := ⟨by decide, by decide, .inr rfl, rfl⟩
theorem fctsv (r : NodeRec) : Statement (.fctsv r) := ⟨by decide, by decide, .inr rfl, rfl⟩
theorem fcte (r : NodeRec) : Statement (.fcte r) := ⟨by decide, by decide, .inr rfl, rfl⟩
theorem redput (r : NodeRec) : Statement (.redput r) := ⟨by decide, by decide, .inr rfl, rfl⟩
theorem redwait (r : NodeRec) : Statement (.redwait r) := ⟨by decide, by decide, .inr rfl, rfl⟩
theorem coll (r : NodeRec) : Statement (.coll r) := ⟨by decide, by decide, .inr rfl, rfl⟩
theorem collw (r : NodeRec) : Statement (.collw r) := ⟨by decide, by decide, .inr rfl, rfl⟩
theorem sysrd (r : NodeRec) : Statement (.sysrd r) := ⟨by decide, by decide, .inr rfl, rfl⟩
theorem syswr (r : NodeRec) : Statement (.syswr r) := ⟨by decide, by decide, .inr rfl, rfl⟩
theorem trap (r : NodeRec) : Statement (.trap r) := ⟨by decide, by decide, .inr rfl, rfl⟩
theorem eret (r : NodeRec) : Statement (.eret r) := ⟨by decide, by decide, .inr rfl, rfl⟩
theorem bkpt (r : NodeRec) : Statement (.bkpt r) := ⟨by decide, by decide, .inr rfl, rfl⟩
theorem time (r : NodeRec) : Statement (.time r) := ⟨by decide, by decide, .inr rfl, rfl⟩
theorem tapset (r : NodeRec) : Statement (.tapset r) := ⟨by decide, by decide, .inr rfl, rfl⟩
theorem halt (r : NodeRec) : Statement (.halt r) := ⟨by decide, by decide, .inr rfl, rfl⟩
theorem packageReset : Statement .packageReset := rfl
theorem bootPushGo : Statement .bootPushGo := rfl
theorem bootSourceTimeout : Statement .bootSourceTimeout := rfl
theorem bootNetworkFetchDone : Statement .bootNetworkFetchDone := rfl
theorem dhcpv6Timeout : Statement .dhcpv6Timeout := rfl
theorem getVersion : Statement .getVersion := rfl
theorem getCapabilities : Statement .getCapabilities := rfl
theorem negotiateAlgorithms : Statement .negotiateAlgorithms := rfl
theorem getDigests : Statement .getDigests := rfl
theorem getCertificate : Statement .getCertificate := rfl
theorem challenge : Statement .challenge := rfl
theorem getMeasurements : Statement .getMeasurements := rfl
theorem keyExchange : Statement .keyExchange := rfl
theorem finish : Statement .finish := rfl
theorem endSession : Statement .endSession := rfl
theorem bar0UnsupportedAccess : Statement .bar0UnsupportedAccess := rfl
theorem bar2Write : Statement .bar2Write := rfl
theorem bar2Read : Statement .bar2Read := rfl
theorem pcieLinkTrained : Statement .pcieLinkTrained := rfl
theorem registerWrite : Statement .registerWrite := rfl
theorem notifyWrite : Statement .notifyWrite := rfl
theorem queueMap : Statement .queueMap := rfl
theorem queueUnmap : Statement .queueUnmap := rfl
theorem slotFetch : Statement .slotFetch := rfl
theorem rackRingWrite : Statement .rackRingWrite := rfl
theorem rackEthernetLaunch : Statement .rackEthernetLaunch := rfl
theorem rackLaunchConsume : Statement .rackLaunchConsume := rfl
theorem dispatchTick : Statement .dispatchTick := rfl
theorem semaphoreRead : Statement .semaphoreRead := rfl
theorem placerPass : Statement .placerPass := rfl
theorem drainTimeout : Statement .drainTimeout := rfl
theorem quantumExpiry : Statement .quantumExpiry := rfl
theorem markerArrive : Statement .markerArrive := rfl
theorem markerLatchInject : Statement .markerLatchInject := rfl
theorem checkpointSave : Statement .checkpointSave := rfl
theorem taskRetire : Statement .taskRetire := rfl
theorem planeDrop : Statement .planeDrop := rfl
theorem tokenAccept : Statement .tokenAccept := rfl
theorem routerHop : Statement .routerHop := rfl
theorem activationStart : Statement .activationStart := rfl
theorem activationCommit : Statement .activationCommit := rfl
theorem trapTake : Statement .trapTake := rfl
theorem lodgeTrapService : Statement .lodgeTrapService := rfl
theorem probeSend : Statement .probeSend := rfl
theorem probeArrive : Statement .probeArrive := rfl
theorem yieldExpiry : Statement .yieldExpiry := rfl
theorem elementErrorEvent : Statement .elementErrorEvent := rfl
theorem elementReplay : Statement .elementReplay := rfl
theorem elementSparing : Statement .elementSparing := rfl
theorem thermSample : Statement .thermSample := rfl
theorem bankThermalRetire : Statement .bankThermalRetire := rfl
theorem thermSensFailedClear : Statement .thermSensFailedClear := rfl
theorem thermLimWrite : Statement .thermLimWrite := rfl
theorem powerSample : Statement .powerSample := rfl
theorem powerPeriod : Statement .powerPeriod := rfl
theorem powerOverDeadline : Statement .powerOverDeadline := rfl
theorem pwrCapWrite : Statement .pwrCapWrite := rfl
theorem pwrWinWrite : Statement .pwrWinWrite := rfl
theorem laneErrorEvent : Statement .laneErrorEvent := rfl
theorem laneSparing : Statement .laneSparing := rfl
theorem portDown : Statement .portDown := rfl
theorem portLinkUp : Statement .portLinkUp := rfl
theorem remoteRequestWaitEnd : Statement .remoteRequestWaitEnd := rfl
theorem requestTimeout : Statement .requestTimeout := rfl
theorem errorCompletionReceived : Statement .errorCompletionReceived := rfl
theorem drainNoticeReceived : Statement .drainNoticeReceived := rfl
theorem lateCompletion : Statement .lateCompletion := rfl
theorem inboundFromIsolatedPeer : Statement .inboundFromIsolatedPeer := rfl
theorem inboundRequest : Statement .inboundRequest := rfl
theorem isolatePeer : Statement .isolatePeer := rfl
theorem isolatePort : Statement .isolatePort := rfl
theorem returnPeer : Statement .returnPeer := rfl
theorem returnPort : Statement .returnPort := rfl
theorem lkPeermapWrite : Statement .lkPeermapWrite := rfl
theorem lkCfgWrite : Statement .lkCfgWrite := rfl
theorem droplogFree : Statement .droplogFree := rfl
theorem lkDrainStart : Statement .lkDrainStart := rfl
theorem drainQuiesceEnd : Statement .drainQuiesceEnd := rfl
theorem drainNotifyEnd : Statement .drainNotifyEnd := rfl
theorem drainSafe : Statement .drainSafe := rfl
theorem ethernetPortFailover : Statement .ethernetPortFailover := rfl
theorem adminDoorbell : Statement .adminDoorbell := rfl
theorem adminRingSet : Statement .adminRingSet := rfl
theorem adminCompletion : Statement .adminCompletion := rfl
theorem adminUnknownOpcode : Statement .adminUnknownOpcode := rfl
theorem queueCreate : Statement .queueCreate := rfl
theorem queueDestroy : Statement .queueDestroy := rfl
theorem queueReset : Statement .queueReset := rfl
theorem resync : Statement .resync := rfl
theorem trayDrain : Statement .trayDrain := rfl
theorem planeInstall : Statement .planeInstall := rfl
theorem planeRemove : Statement .planeRemove := rfl
theorem asidCreate : Statement .asidCreate := rfl
theorem asidDestroy : Statement .asidDestroy := rfl
theorem map : Statement .map := rfl
theorem unmap : Statement .unmap := rfl
theorem collGroup : Statement .collGroup := rfl
theorem setReg : Statement .setReg := rfl
theorem pgRemapStart : Statement .pgRemapStart := rfl
theorem pgRemapDone : Statement .pgRemapDone := rfl
theorem ghWaypartWrite : Statement .ghWaypartWrite := rfl
theorem ghDrainEnd : Statement .ghDrainEnd := rfl
theorem ghZeroEnd : Statement .ghZeroEnd := rfl
theorem ghLineFill : Statement .ghLineFill := rfl
theorem trInvAll : Statement .trInvAll := rfl
theorem trInvAsid : Statement .trInvAsid := rfl
theorem trInvPage : Statement .trInvPage := rfl
theorem pageWalk : Statement .pageWalk := rfl
theorem rowCommandEffect : Statement .rowCommandEffect := rfl
theorem rowOpenTimeout : Statement .rowOpenTimeout := rfl
theorem rowRefresh : Statement .rowRefresh := rfl
theorem busTesterBeat : Statement .busTesterBeat := rfl
theorem vectorClockAnnounce : Statement .vectorClockAnnounce := rfl
theorem storePerform : Statement .storePerform := rfl
theorem waitaReread : Statement .waitaReread := rfl
theorem waitaTimeout : Statement .waitaTimeout := rfl
theorem streamGranuleReturn : Statement .streamGranuleReturn := rfl
theorem streamGranuleWrite : Statement .streamGranuleWrite := rfl
theorem streamBindingEnd : Statement .streamBindingEnd := rfl
theorem streamFault : Statement .streamFault := rfl
theorem copyGranule : Statement .copyGranule := rfl
theorem copyComplete : Statement .copyComplete := rfl
theorem copyFault : Statement .copyFault := rfl
theorem nearMemoryReduce : Statement .nearMemoryReduce := rfl
theorem arrayRowTake : Statement .arrayRowTake := rfl
theorem arrayDrainToken : Statement .arrayDrainToken := rfl
theorem weightTokenLoad : Statement .weightTokenLoad := rfl
theorem fctColumnStep : Statement .fctColumnStep := rfl
theorem reduceRoundCombine : Statement .reduceRoundCombine := rfl
theorem reduceRootResult : Statement .reduceRootResult := rfl
theorem reduceRoundAbandon : Statement .reduceRoundAbandon := rfl
theorem collRoundComplete : Statement .collRoundComplete := rfl
theorem collRoundFail : Statement .collRoundFail := rfl
theorem collRoundTimeout : Statement .collRoundTimeout := rfl
theorem armRptClear : Statement .armRptClear := rfl
theorem remoteCompletionReceived : Statement .remoteCompletionReceived := rfl
theorem memoryAccessComplete : Statement .memoryAccessComplete := rfl
theorem rowCommandComplete : Statement .rowCommandComplete := rfl

end Sys2Proof.Laws.Encoding
end

