-- ==== Sys2Proof/Tests/Slice0.lean ====
section
/-! SUPPORT. The author's tests: ill-formed terms that the checks refuse, words that decode, single firings whose results are worked
out from the spec, and states that meet the hypotheses of the statements. -/
namespace Sys2Proof.Tests
set_option Elab.async false
open Sys2Proof Sys2Proof.Machine

/-! ### A small world: one task, one thread, one activation, one firing -/

def rec0 : NodeRec := Spec.plain
/-- A record of format `f` whose result goes to a node. -/
def recF (f : Nat) : NodeRec := { rec0 with fmt := BitVec.ofNat 3 f, dst0 := .relative 0 0 1 .a }
def recV (f : Nat) : NodeRec := { recF f with v := true }
/-- A firing with scalar operands. -/
def fire (a b p : Nat) : Firing := { fetchFiring with a := some (.scalar a), b := some (.scalar b), p := some (.scalar p) }
def at0 (f : Firing) : Issue := { elem := 0, ctx := 0, f := f }
def world : State := { State.reset.placeWord 0 with agenda := [] }
/-- The world with a firing at hand. -/
def here (f : Firing) : State := { world with cur := some (at0 f) }
/-- The payload and interval that a step leaves in the output latch of context 0. -/
def latched : Out → Option (Nat × Nat × Nat)
  | .next t => ((t.ctx 0 0).latch.bind fun l => l.beats.head?).map fun b => (b.pay.val.toNat, b.lo, b.hi)
  | _ => none
/-- What a read gives where it gives bytes, with the source of their mark. -/
def rdOk : Rd × State → Option (List Byte × Option (BitVec 3))
  | (.ok bs p, _) => some (bs, p)
  | _ => none
def rdWaits : Rd × State → Bool
  | (.waits, _) => true
  | _ => false
def rdFault : Rd × State → Option Trap
  | (.fault t, _) => some t
  | _ => none
/-- What the step fires for scalar operands. -/
def fires (f : NodeRec → Instr) (r : NodeRec) (a b p : Nat) : Option Nat := (latched (exec (f r) (here (fire a b p)))).map (·.1)

/-! ### WellFormed: one ill-formed term for each check (R258) -/

theorem test_wf_accepts : (Instr.add (recF 4)).wf = true ∧ (Instr.qputNb { recF 1 with lit32 := 0x2A }).wf = true := by decide +kernel
theorem test_wf_refuses_field : (Instr.fadd (recF 6)).wf = false ∧ (Instr.add { recF 4 with aux := 1 }).wf = false := by decide +kernel
theorem test_wf_refuses_literal : (Instr.neg { recF 4 with lit := true }).wf = false ∧ (Instr.add { recF 4 with lit32 := 1 }).wf = false := by decide +kernel
theorem test_wf_refuses_pm : (Instr.mad { recF 4 with pm := .onTrue }).wf = false := by decide +kernel
theorem test_wf_refuses_gap_field : (Instr.gbar { recF 0 with gapA := .hold }).wf = false
    ∧ (Instr.sbind { recF 0 with gapA := .lerp }).wf = false := by decide +kernel
theorem test_wf_refuses_dest : (Instr.halt { rec0 with dst0 := .port 0 }).wf = false := by decide +kernel
theorem test_wf_refuses_gap : (Instr.add { recF 4 with gapA := .lerp }).wf = false ∧ (Instr.mov { recF 4 with gapA := .hold }).wf = false := by decide +kernel
theorem test_wf_refuses_memlit : (Instr.ld { recF 3 with lit32 := 0x60000000 }).wf = false := by decide +kernel
theorem test_wf_refuses_wrong_constructor : (Instr.qput { recF 1 with lit32 := 0x2A }).wf = false := by decide +kernel

/-! ### Decoding: words written out from R237 and R241, one for each group of R248 -/

theorem test_decode_groups_0_to_7 : ∀ x ∈ Spec.words.take 7, decode x.1 = .ok x.2 := by decide +kernel
theorem test_decode_groups_8_to_15 : ∀ x ∈ Spec.words.drop 7, decode x.1 = .ok x.2 := by decide +kernel
/-- R372: the two lines of its example, and the variants of the second that arming rejects with FIELD: DOFF in weight mode, HALF 32, an
LSID. -/
theorem test_rowcon_example :
    (armRecord (bytesOf 12 0x0000000300000400190000C0)).1 = some (0xC0, { rec0 with dst0 := .relative 0 0 6 .b, lit32 := 3 })
    ∧ ((armRecord (bytesOf 12 0x004B000000000420080000C6)).1.map fun x => (x.1, x.2.lit32, x.2.dst0, fieldCheck x.1 x.2))
        = some (0xC6, 0x4B0000, .relative 1 0 2 .a, none)
    ∧ [(0x4B0400#32, 0#5), (0xCB0000#32, 0#5), (0x4B0000#32, 4#5)].map (fun x => fieldCheck 0xC6 { rec0 with lit32 := x.1, aux := x.2 })
        = [some 2, some 2, some 2] := by decide +kernel
/-- A decoded word runs as the first instruction after reset: MOV, format n8, to port 0. -/
theorem test_fetch : (match step (State.reset.withFetchWord 96 (0x01 + 0x100 + 0xC0000 * 2 ^ 24)) with
    | .next t => ((t.ctx 0 0).latch.map fun l => (l.node, l.readyAt)) | _ => none) = some (0, 3) := by decide +kernel

/-! ### Single firings, worked out from the spec -/

/-- R265: 255 + 1 in i8 is 0. -/
theorem test_add_wraps : fires .add (recF 0) 255 1 0 = some 0 := by decide +kernel
/-- R266: the high half of −1 × −1 in i16 is 0. -/
theorem test_mulh_signed : fires .mulh (recF 2) 0xFFFF 0xFFFF 0 = some 0 := by decide +kernel
/-- R269: −7 / 2 is −3 and the remainder is −1. -/
theorem test_div_toward_zero : fires .div (recF 4) 0xFFFFFFF9 2 0 = some 0xFFFFFFFD ∧ fires .rem (recF 4) 0xFFFFFFF9 2 0 = some 0xFFFFFFFF := by decide +kernel
/-- R271: a shift by the width gives 0, and SAR by more the sign. -/
theorem test_shift_by_width : fires .shl (recF 4) 1 32 0 = some 0 ∧ fires .sar (recF 4) 0x80000000 40 0 = some 0xFFFFFFFF := by decide +kernel
/-- R277: −1 < 1 as i32, not as n32. -/
theorem test_compare_sign : fires .cmplt (recF 4) 0xFFFFFFFF 1 0 = some 1 ∧ fires .cmpltn (recF 5) 0xFFFFFFFF 1 0 = some 0 := by decide +kernel
/-- R282: 1.5 + 0.5 in f32 is 2. -/
theorem test_fadd : fires .fadd (recF 0) 0x3FC00000 0x3F000000 0 = some 0x40000000 := by decide +kernel
/-- R283: FMIN of +0 and −0 is −0. -/
theorem test_fmin_zero : fires .fmin (recF 0) 0 0x80000000 0 = some 0x80000000 := by decide +kernel
/-- R293: −1 as f32. -/
theorem test_cvtf : fires .cvtf { recF 0 with lit32 := 4 } 0xFFFFFFFF 0 0 = some 0xBF800000 := by decide +kernel
/-- R308: STEER sends A to its first destination when bit 0 of B is 1. -/
theorem test_steer : fires .steer (recF 4) 7 1 0 = some 7 ∧ fires .steer (recF 4) 7 0 0 = some 0 := by decide +kernel
/-- R314: ISHIFT by 5. -/
theorem test_ishift : (latched (exec (.ishift { recF 4 with lit32 := 5 }) (here { fire 9 0 0 with lo := 2, hi := 4, alo := 2, ahi := 4 }))) =
    some (9, 7, 9) := by decide +kernel
/-- R300: VEXT of lane 1 of 16-bit lanes. -/
theorem test_vext : fires .vext { recV 2 with lit32 := 1 } 0xABCD1234 0 0 = some 0xABCD := by decide +kernel

/-! ### States and operands that meet the hypotheses of the statements: node forms without memory -/

def mkNaN : Nat := 0x7FC00000
/-- A firing whose interval is [2, 9). -/
def span (f : Firing) : Firing := { f with lo := 2, hi := 9, alo := 2, ahi := 9 }
def nullA : Firing := { fire 0 0 0 with a := some .mkNull }
def poisA : Firing := { fire 0 0 0 with a := some { Pay.scalar 0 with pois := true, psrc := 4 } }

theorem test_hyp_Runs : Spec.Runs (here (fire 1 2 3)) (at0 (fire 1 2 3)) (recF 4) := by unfold Spec.Runs; decide +kernel
/-- The same with a predicate that passes and a vector format. -/
theorem test_hyp_Runs_predicated : Spec.Runs (here (fire 1 2 3)) (at0 (fire 1 2 3)) { recV 2 with pm := .onTrue } := by
  unfold Spec.Runs; decide +kernel
theorem test_hyp_NullAndPoisonOperands : (here nullA).cur = some (at0 nullA) ∧ (at0 nullA).f.isNull (recF 4) = true
    ∧ (here poisA).cur = some (at0 poisA) ∧ (at0 poisA).f.isNull (recF 4) = false ∧ (at0 poisA).f.poison = some (0, 4)
    ∧ poisA.operand 0 = some { Pay.scalar 0 with pois := true, psrc := 4 } ∧ poisA.again = false
    ∧ ({ nullA with again := true }).isNull (recF 4) = true ∧ ¬ ((recF 4).dst0 = .none ∧ (recF 4).dst1 = .none)
    ∧ (fire 0 0 0).isNull { recF 4 with pm := .onTrue } = true := by decide +kernel
/-- A zero divisor, a zero field length and a full-width position are among the operands. -/
theorem test_hyp_IntegerLaneResults : Spec.Runs (here (fire 5 0 0)) (at0 (fire 5 0 0)) (recF 4)
    ∧ Spec.Runs (here (fire 5 63 0)) (at0 (fire 5 63 0)) (recF 6) ∧ opB 0x3C (recF 6) (fire 5 63 0) = 63 := by
  unfold Spec.Runs; decide +kernel
theorem test_hyp_ArithmeticIsExact : Spec.isFin (decodeF 0 0x3F800000) = true ∧ Spec.isFin (decodeF 0 0x80000000) = true := by decide +kernel
/-- The largest finite number is itself such a number. -/
theorem test_hyp_RoundsToNearestEven : ∃ q e, Spec.val (decodeF 5 (fltMax 5 false)) = q * (2 : Rat) ^ e := by
  refine ⟨3, 1, ?_⟩
  have h : decodeF 5 (fltMax 5 false) = .fin false 3 1 := by decide +kernel
  rw [h]; norm_num [Spec.val, Spec.rat]
theorem test_hyp_RootQuotientAndApproximationResults : Spec.special 0x60 0 false (decodeF 0 0) = some (0x7F800000, flagDZ)
    ∧ Spec.special 0x66 2 false (decodeF 2 0x7F80) = some (0x3F80, 0) ∧ (decodeF 1 0x7BFF).isNan = false
    ∧ Spec.special 0x61 0 true (decodeF 0 0xBF800000) = some (0x7FC00000, flagNV) := by decide +kernel
theorem test_hyp_Conversions : ({ recF 1 with lit32 := 0 } : NodeRec).aux.toNat.testBit 3 = false
    ∧ ({ recF 1 with aux := 8 } : NodeRec).aux.toNat.testBit 3 = true
    ∧ Spec.Runs (here (fire 1 2 3)) (at0 (fire 1 2 3)) { recF 1 with aux := 8 } := by unfold Spec.Runs; decide +kernel
/-- A NaN, an infinity, a zero and the bounds of the scale's range, as QSCALE's operand. -/
theorem test_hyp_QuantisationResults : (f32 mkNaN).isNan = true ∧ f32 0x7F800000 = .inf false ∧ (f32 0).isZero = true
    ∧ f32 0x3F800000 = .fin false 0x800000 (-23) ∧ scaleEmax 5 = 2 ∧ (recF 0).l % 4 = 0 ∧ (recF 0).l.testBit 6 = false
    ∧ (recF 0).aux.toNat.testBit 3 = false := by decide +kernel
theorem test_hyp_LaneMoveAndReductionResults : (recV 0).dataOk = true ∧ 512 = (recV 0).data.width * 2 ^ 6
    ∧ ({ recV 3 with aux := 1 } : NodeRec).dataOk = true ∧ 512 = ({ recV 3 with aux := 1 } : NodeRec).data.width * 2 ^ 6 := by decide +kernel
theorem test_hyp_SteeringResults : Spec.OwnRuns (here (fire 1 2 3)) (at0 (fire 1 2 3)) (recF 4)
    ∧ Spec.OwnRuns (here nullA) (at0 nullA) (recF 4)
    ∧ (fire 1 2 3).p.map (·.pois) = some false ∧ (fire 1 2 3).a.map (·.null) = some false ∧ nullA.a.map (·.null) = some true := by
  unfold Spec.OwnRuns; decide +kernel
theorem test_hyp_IntervalResults : Spec.OwnRuns (here (span (fire 1 2 3))) (at0 (span (fire 1 2 3))) { recF 4 with lit32 := 1 }
    ∧ (span (fire 1 2 3)).alo < (span (fire 1 2 3)).ahi ∧ 0 < ({ recF 4 with lit32 := 1 } : NodeRec).l := by
  unfold Spec.OwnRuns; decide +kernel

/-! ### Memory -/

/-- A Glasshouse that holds no line is in order where its cells are. -/
theorem coherent_of_no_line (m : Memory) (h : m.lines = [])
    (c : Tab.wf 0 m.main = true ∧ Tab.wf 0 m.dram = true ∧ Tab.wf false m.mainPois = true ∧ Tab.wf false m.dramPois = true) :
    Spec.Coherent m :=
  { cells := c, rising := by simp [h], home := by simp [h, Tab.find], once := by simp [h, Tab.find], clean := by simp [h, Tab.find] }
/-- So is one that holds one dirty line in its own set. -/
theorem coherent_of_dirty_line (m : Memory) (k line : Nat) (h : m.lines = [(k, line, true)]) (hk : k / 16 = m.setKey line)
    (c : Tab.wf 0 m.main = true ∧ Tab.wf 0 m.dram = true ∧ Tab.wf false m.mainPois = true ∧ Tab.wf false m.dramPois = true) :
    Spec.Coherent m := by
  refine { cells := c, rising := by simp [h], home := ?_, once := ?_, clean := ?_ }
  · intro j l d hj; simp only [h, Tab.find] at hj; split at hj <;> simp_all
  · intro j j' l d d' hj hj'; simp only [h, Tab.find] at hj hj'; split at hj <;> split at hj' <;> simp_all
  · intro j l hj; simp only [h, Tab.find] at hj; split at hj <;> simp_all

/-- Tables for ASID 0 that map VA 0 to 65,535, readable and writable, to physical address 0x100000, with FMTA `fmta`;
port 0 has the translation at hand. -/
def tables (fmta : Byte) : List Host.Cell :=
  [(0x10000, 1), (0x10002, 2), (0x20000, 1), (0x20002, 3), (0x30000, 1), (0x30002, 4), (0x40000, 7), (0x40002, 0x10)]
    ++ (if fmta = 0 then [] else [(0x40006, fmta)])
def mappedMem (fmta : Byte) (more : List Host.Cell) : Memory :=
  { (Memory.reset Fuses.blank) with
    trRoot := [(0, true, 1)], dram := tables fmta ++ more
    tlb := [(0, [{ asid := 0, va := 0, size := 65536, pa := 0x100000, w := true, d := true, fmta := fmta.toNat, geom := 0 }])] }
/-- The world with that page, and with bytes in it. -/
def mapped (fmta : Byte) (more : List Host.Cell) (f : Firing) : State := { here f with mem := mappedMem fmta more }
def upPort : Port := { Port.reset with state := 2, spareOk := true }
/-- The world with that page in the window of peer 1, with every port up. -/
def peered (f : Firing) : State :=
  { mapped 0 [] f with
    mem := { mappedMem 0 [] with tlb := [(0, [{ asid := 0, va := 0, size := 65536, pa := 0x808000000000, w := true, d := true, fmta := 0, geom := 0 }])] }
    lnk := { world.lnk with peerMap := 2, ports := (List.range 18).map fun p => (p, upPort) } }
theorem mapped_coherent : Spec.Coherent (mappedMem 0 []) := coherent_of_no_line _ rfl (by decide +kernel)

def dirtyMem : Memory := { (Memory.reset Fuses.blank) with lines := [(0, 0, true)], main := [(5, 9)] }
theorem test_hyp_GlasshouseIsTransparent : Spec.Coherent dirtyMem ∧ dirtyMem.wayOf 64 = none ∧ (dirtyMem.fillWay 64).isSome = true :=
  ⟨coherent_of_dirty_line _ 0 0 rfl (by decide +kernel) (by decide +kernel), by decide +kernel, by decide +kernel⟩

/-- A memory record: size code, SPACE. -/
def memRec (f space : Nat) : NodeRec := { recF f with lit32 := BitVec.ofNat 32 (space * 2 ^ 29) }
def scratchMem : Memory := { (Memory.reset Fuses.blank) with wayPart := [(0, { WayPart.reset with spw := 1 })] }
/-- A store of LSID 0 that its activation has performed. -/
def stored0 : Performed := { lsid := 0, elem := 0, node := 0, result := .scalar 1, kind := .global, parts := [(0x100008, 8)] }
/-- A location that is found, one that is not aligned, one that is past the grant; for a load and a store. -/
theorem test_hyp_MemoryFormsIssue :
    Spec.Counted (mapped 0 [] (fire 8 2 3)) (at0 (fire 8 2 3)) (memRec 3 0) true
      ((Spec.taken (mapped 0 [] (fire 8 2 3))).account (at0 (fire 8 2 3)) (.lsid 0) true).2
    ∧ ((mapped 0 [] (fire 8 2 3)).locate (at0 (fire 8 2 3)) 0 8 8 true).1.toOption = some (⟨.global, 0x100008⟩, 0)
    ∧ ((mapped 0 [] (fire 8 2 3)).locate (at0 (fire 8 2 3)) 0 4 8 true).1.toOption = none
    ∧ ((mapped 0 [] (fire 8 2 3)).locate (at0 (fire 8 2 3)) 0 0xFFF8 8 false).1.toOption = some (⟨.global, 0x10FFF8⟩, 0)
    ∧ ((mapped 0 [] (fire 8 2 3)).locate (at0 (fire 8 2 3)) 0 0x10000 8 false).1.toOption = none
    ∧ Spec.address (memRec 3 0) (at0 (fire 8 2 3)) = 8
    ∧ (mapped 0 [] (fire 8 2 3)).walkReady ((mapped 0 [] (fire 8 2 3)).memPort 0) 0 8 true = true
    ∧ ({ mapped 0 [] (fire 8 2 3) with tsk := { world.tsk with acts := [(0, { fetchAct with performed := [stored0] })] } }).performedBy
        (at0 (fire 8 2 3)) 0 = some stored0 := by
  unfold Spec.Counted; decide +kernel

/-- A store and an atomic of 8 bytes that wait in a scratchpad under number 7. -/
def access (ins : Instr) (f : Firing) (write : Bool) (k : PlaceKind) : Access :=
  { id := 7, instr := ins, iss := at0 f, kind := k, parts := [(16, 8)], data := bytesOf 8 5, data2 := bytesOf 8 6, write := write, todo := 1,
    result := .scalar 1, got := [], attr := 0, since := 0, waits := false, sent := false }
def waiting (ins : Instr) (write : Bool) (k : PlaceKind) : State :=
  { world with mem := { scratchMem with acc := [access ins (fire 16 5 6) write k] } }
theorem test_hyp_AccessesPerform : Spec.MayGo (waiting (.st (memRec 3 2)) true .scratch) 7 (access (.st (memRec 3 2)) (fire 16 5 6) true .scratch)
    ∧ Spec.MayGo (waiting (.amocas (memRec 3 2)) true .scratch) 7 (access (.amocas (memRec 3 2)) (fire 16 5 6) true .scratch)
    ∧ Spec.Coherent scratchMem ∧ (Tab.wf 0 scratchMem.bank = true ∧ Tab.wf 0 scratchMem.scratch = true)
    ∧ isStore (access (.st (memRec 3 2)) (fire 16 5 6) true .scratch).opc = true
    ∧ (access (.amocas (memRec 3 2)) (fire 16 5 6) true .scratch).opc = 0xA8
    ∧ Spec.Goes (access (.st (memRec 3 2)) (fire 16 5 6) true .scratch) 1 0 16 8 0 := by
  unfold Spec.MayGo Spec.Goes
  exact ⟨by decide +kernel, by decide +kernel, coherent_of_no_line _ rfl (by decide +kernel), by decide +kernel, by decide +kernel,
    by decide +kernel, by decide +kernel⟩
theorem test_hyp_LoadsComplete :
    Spec.MayGo (waiting (.ld (memRec 3 2)) false .scratch) 7 (access (.ld (memRec 3 2)) (fire 16 5 6) false .scratch)
    ∧ (waiting (.ld (memRec 3 2)) false .scratch).firstOfNode (access (.ld (memRec 3 2)) (fire 16 5 6) false .scratch) = true
    ∧ (access (.ld (memRec 3 2)) (fire 16 5 6) false .scratch).opc = 0x90 := by
  unfold Spec.MayGo; decide +kernel
/-- A page in NB4 for LDB and one in MXFP8 for STB, aligned; and a page in no block format. -/
theorem test_hyp_BlockFormsIssue :
    ((mapped 7 [] (fire 64 16 3)).locateGlobal ((mapped 7 [] (fire 64 16 3)).memPort 0) 0 64 1 false).1.toOption = some (⟨.global, 0x100040⟩, 7)
    ∧ ((mapped 8 [] (fire 64 16 3)).locateGlobal ((mapped 8 [] (fire 64 16 3)).memPort 0) 0 64 1 true).1.toOption = some (⟨.global, 0x100040⟩, 8)
    ∧ ((mapped 0 [] (fire 64 16 3)).locateGlobal ((mapped 0 [] (fire 64 16 3)).memPort 0) 0 64 1 false).1.toOption = some (⟨.global, 0x100040⟩, 0)
    ∧ Spec.Counted (mapped 7 [] (fire 64 16 3)) (at0 (fire 64 16 3)) (recV 0) false
        ((Spec.taken (mapped 7 [] (fire 64 16 3))).noteFired (at0 (fire 64 16 3)) true)
    ∧ (mapped 7 [] (fire 64 16 3)).issAsid (at0 (fire 64 16 3)) = 0 ∧ opB 0x94 (recV 0) (fire 64 16 3) = 16
    ∧ ((mapped 7 [] (fire 64 16 3)).locateAll (at0 (fire 64 16 3)) 0 64 7 false [(64, 8)]).1.isOk = true := by
  unfold Spec.Counted; decide +kernel

/-- A completed and a poisoned operand of a fence, and one with no live operand. -/
def fence (b : Pay) : Firing := { fire 1 1 1 with a := some .mkNull, b := some b, p := some .mkNull }
def watch : Watch :=
  { id := 3, instr := .waita (memRec 3 2), iss := at0 (fire 16 5 0), place := ⟨.scratch, 16⟩, size := 8, threshold := 5, last := 2, lastPois := false, first := 1, since := 0,
    lastRead := 0, slot := true, dirty := true, due := false, expired := false, woken := none }
def watching (w : Watch) (more : State → State) : State :=
  more { world with cycles := 5000, units := 20000 * 5544000, mem := { scratchMem with watches := [w], scratch := [(16, 4)] } }
def tmoTask (s : State) : State := { s with tsk := { s.tsk with tasks := [(0, { fetchTask with waitTmo := 10 })] } }
theorem test_hyp_FenceWatchPrefetch :
    (∀ x ∈ Spec.liveOps (at0 (fence .mkNull)), x = none)
    ∧ (∃ x ∈ Spec.liveOps (at0 (fence (.scalar 1))), x ≠ none)
    ∧ (Spec.liveOps (at0 (fence { Pay.scalar 1 with pois := true })))[1]? = some (some { Pay.scalar 1 with pois := true })
    ∧ ((mapped 0 [] (fire 8 2 3)).locate (at0 (fire 8 2 3)) 0 8 8 false).1.isOk = true ∧ (mapped 0 [] (fire 8 2 3)).mem.watches = []
    ∧ (watching watch id).mem.watches.find? (fun y => y.id == watch.id) = some watch
    ∧ watch.threshold ≤ 5 ∧ 4 < watch.threshold
    ∧ (watching { watch with dirty := false } id).cycles = 5000
    ∧ (tmoTask (watching { watch with dirty := false } id)).passed (watch.first - 1) 10 = true
    ∧ (tmoTask (watching watch id)).issTask watch.iss = some (0, { fetchTask with waitTmo := 10 })
    ∧ Spec.MayGo (waiting (.wakea (memRec 3 2)) true .scratch) 7 (access (.wakea (memRec 3 2)) (fire 16 5 6) true .scratch)
    ∧ (access (.wakea (memRec 3 2)) (fire 16 5 6) true .scratch).opc = 0xAB := by
  unfold Spec.MayGo; decide +kernel
theorem test_hyp_WatchCoherent : Spec.Coherent (watching watch id).mem := coherent_of_no_line _ rfl (by decide +kernel)

/-- Addresses at the ends of each range: BUFFER, SCRATCH, Pergola, hole, peers' windows and beyond. -/
theorem test_hyp_AddressesAndTranslations :
    (mapped 0 [] (fire 8 2 3)).issTask (at0 (fire 8 2 3)) = some (0, fetchTask)
    ∧ ((mapped 0 [] (fire 8 2 3)).mem.wp 0).phase = 0
    ∧ (Spec.walkOf (mappedMem 0 []) 65535 true 4 65536 0).toOption = some (0x100000, 3, [0x10000, 0x20000, 0x30000, 0x40000])
    ∧ (Spec.walkOf (mappedMem 0 []) 65536 true 4 65536 0).toOption = none
    ∧ Tab.getD (mappedMem 0 []).trRoot 0 (false, 0) = (true, 1)
    ∧ [0x10000, 0x20000, 0x30000, 0x40000].Nodup
    ∧ ((mapped 0 [] (fire 8 2 3)).mem.walk 0 8 true).1.isOk = true
    ∧ (∀ t ∈ Tab.getD (mapped 0 [] (fire 8 2 3)).mem.tlb 1 [], t.hit 0 8 = false) := by decide +kernel
/-- The place of an address at each boundary of R147 to R149: the last bytes of Pergola, the first and last of the outer stacks, the hole, this
package's own window, a peer's and no peer's, and the launch windows. -/
theorem test_places : [(world.placeOf (world.mem.capacity - 8) 8 0).isOk, (world.placeOf world.mem.capacity 8 0).isOk,
      (world.placeOf 0x7FFFFFFFF8 8 0).isOk, (world.placeOf 0x8000000000 8 0).isOk, (world.placeOf 0x800000000000 8 0).isOk,
      (world.placeOf 0x808000000000 8 0).isOk, (world.placeOf 0xC80000000000 8 0).isOk, (world.placeOf 0xC80000008000 8 0).isOk,
      (world.placeOf 0xC80009000000 8 0).isOk] = [true, true, true, false, true, false, true, false, false] := by decide +kernel

def partition (phase : BitVec 2) (spw spw1 : BitVec 5) : State :=
  { world with mem := { world.mem with wayPart := [(1, { WayPart.reset with phase := phase, spw := spw, spw1 := spw1 })] } }
theorem test_hyp_ScratchpadTransition :
    ((partition 0 4 4).mem.wp 1).phase = 0 ∧ (0x10 : W64).toNat.testBit 16 = false ∧ Agent.host ≠ Agent.lodge
    ∧ ((partition 1 4 6).mem.wp 1).phase = 1 ∧ (partition 1 4 6).scratchBusy 1 = false
    ∧ ((partition 1 4 6).mem.wp 1).spw.toNat < ((partition 1 4 6).mem.wp 1).spw1.toNat
    ∧ ((partition 2 4 6).mem.wp 1).phase = 2 ∧ Tab.wf 0 (partition 2 4 6).mem.scratch = true
    ∧ world.mem.remapBusy = false ∧ world.mem.wayOf (0x7FFFFFFFF8 / 128) = none ∧ (world.mem.fillWay (0x7FFFFFFFF8 / 128)).isSome = true := by
  decide +kernel

def remapping : State := { world with mem := { world.mem with remapBusy := true, remapNew := [(255, BitVec.ofNat 64 (2 ^ 63))] } }
theorem test_hyp_RemapAndBusTester :
    world.mem.remapBusy = false ∧ remapping.mem.remapBusy = true ∧ bankBit remapping.mem.remapNew 16383 = true
    ∧ world.mem.vbEn = true ∧ world.mem.busOut.getLsbD 255 = false ∧ (∀ x ∈ world.mem.banks, x.1 / 64 = 255 → x.2.open_ = false)
    ∧ Tab.getD world.mem.rowIdle 255 0 + max 16 world.mem.vbIdle.toNat ≤ { world with units := 10 ^ 10 : State }.rowClk := by decide +kernel

/-! ### Branches, threads, traps, system forms -/

def world1 (a : Act) (th : Thread) (tk : Task) (f : Firing) : State :=
  { here f with tsk := { world.tsk with acts := [(0, a)], threads := [(0, th)], tasks := [(0, tk)] } }
def follower : State :=
  { here (fire 1 2 3) with
    tsk := { world.tsk with acts := [(0, { fetchAct with carry := [(3, some 9)] }), (1, { fetchAct with iter := 1 })]
                            threads := [(0, { fetchThread with acts := [0, 1] })] } }
theorem test_hyp_BranchAndCarryResults :
    ((Spec.taken (here (fire 1 2 3))).account (at0 (fire 1 2 3)) .branch true).1 = true
    ∧ (((Spec.taken (here (fire 1 2 3))).account (at0 (fire 1 2 3)) .branch true).2.act? 0).isSome = true
    ∧ ((Spec.taken (here (fire 1 2 3))).account (at0 (fire 1 2 3)) (.slot 63) true).1 = true
    ∧ ((world1 fetchAct { fetchThread with inh := true } fetchTask (fire 1 2 3)).thread? 0).map (·.inh) = some true
    ∧ ((here (fire 1 2 3)).thread? 0).map (·.inh) = some false
    ∧ (here (fire 1 2 3)).carryAt 0 0 = some 0 ∧ follower.act? 1 = some { fetchAct with iter := 1 }
    ∧ follower.thread? 0 = some { fetchThread with acts := [0, 1] } ∧ (0 : Nat) ≠ 1 ∧ (follower.act? 0).isSome = true := by decide +kernel
/-- A node of the accounting class, before its first firing and at its second. -/
def listed : Act := { fetchAct with fired := [{ node := 0, live := true, trig := 0 }] }
def lsidPlane : Plane := { common := List.replicate 8 0 ++ bytesOf 4 0 ++ List.replicate 0x90 0, images := [] }

def member (arrived : List (Nat × Nat)) (members : List Nat) (s : Firing → State) : State :=
  { s (fire 1 2 3) with
    tsk := { (s (fire 1 2 3)).tsk with
      tasks := [(0, { fetchTask with groups := [(255, { members := members, late := [], arrived := arrived, leaving := [], gen := 4 })], reserve := [7] })] } }
/-- A launch packet with one argument, at VA 64. -/
def packet : List Byte := [1] ++ List.replicate 9 0 ++ [0] ++ List.replicate 117 0
theorem test_hyp_ThreadFormsIssue :
    (here (fire 64 2 3)).act? 0 = some fetchAct ∧ fetchAct.committed = false ∧ (here (fire 64 2 3)).task? 0 = some fetchTask
    ∧ fetchTask.reserve = [] ∧ (((member [] [0] here).task? 0).map (·.reserve)) = some [7]
    ∧ (here (fire 64 2 3)).isOldest 0 = true
    ∧ (0 : Nat) ∉ (Tab.getD fetchTask.groups 255 Spec.noGroup).members
    ∧ ((member [] [0] here).task? 0).map (fun k => (k.group 255).members) = some [0]
    ∧ ((member [] [0, 7] here).task? 0).map (fun k => (k.group 255).arrived.length + 1) = some 1
    ∧ follower.isOldest 1 = false := by decide +kernel
/-- The firing at hand, which is this form's, waits in that state. -/
def formed (s : State) (ins : Instr) : State := match s.cur with
  | some i => Spec.holding s i ins
  | none => s
/-- Reading the packet of a LAUNCH: it names an unassigned kind, so the first check fails. -/
theorem test_hyp_LaunchPacket :
    rdOk ((formed (mapped 0 [] (fire 0 0 0)) (.launch (recF 0))).loadOwn (Spec.form (mapped 0 [] (fire 0 0 0)) (at0 (fire 0 0 0)) (.launch (recF 0))) 0 128)
      = some (List.replicate 128 0, none)
    ∧ (((formed (mapped 0 [] (fire 0 0 0)) (.launch (recF 0))).loadOwn
          (Spec.form (mapped 0 [] (fire 0 0 0)) (at0 (fire 0 0 0)) (.launch (recF 0))) 0 128).2.checkLaunch
        { bytes := List.replicate 128 0, src := .child 0, prio := 0 } (some 0)).isSome = true
    ∧ (formed (mapped 0 [] (fire 0 0 0)) (.launch (recF 0))).mayTake
        (Spec.form (mapped 0 [] (fire 0 0 0)) (at0 (fire 0 0 0)) (.launch (recF 0))) = true := by decide +kernel

/-- A plane of one block with one node, a branch, which is an entry node. -/
def brPlane : Plane :=
  { common := List.replicate 6 0 ++ [1, 0] ++ List.replicate 168 0 ++ [0xC0, 0, 0, 0, 1, 0, 0, 0, 0xD8, 0, 0, 0, 1, 0, 0, 0]
      ++ List.replicate 20 0 ++ [1, 0, 0, 0] ++ [0, 0, 0x10, 0], images := [] }
def branchFired : List Fired := [{ node := 0, live := true, trig := 0 }]
/-- The plane of the world's task, in its table, and resident in context 0. -/
def residing (pl : Plane) (s : State) : State :=
  { s with que := { s.que with planes := [(0, pl)] }
           tsk := { s.tsk with tasks := s.tsk.tasks.map fun x => (x.1, { x.2 with planes := x.2.planes.map fun r => { r with table := pl } }) } }
def withPlane (s : State) : State := residing brPlane { s with fab := { s.fab with store := [(0, 0xB0)] } }
/-- What a form reads in the state in which it waits. -/
def reads (s : State) (ins : Instr) (a n : Nat) : Rd × State := match s.cur with
  | some i => (Spec.holding s i ins).loadOwn (Spec.form s i ins) a n
  | none => (.waits, s)
/-- A packet that passes every check, and the world with a plane that takes it. -/
def goodPacket : List Byte := [1, 0, 0, 0, 0, 0, 0, 0, 1] ++ List.replicate 119 0
def goodWorld (f : Firing) : State :=
  let s := residing { brPlane with common := brPlane.common.take 12 ++ [1] ++ brPlane.common.drop 13 } (mapped 0 [] f)
  { s with mem := { s.mem with dram := s.mem.dram ++ writeCells [] 0x100040 goodPacket } }
def child : HeldLaunch :=
  { lid := 1, launch := { bytes := goodPacket, src := .child 0, prio := 0 }, placeable := none, lastRead := 0, dirty := false, image := none, entered := (0, 0) }
theorem test_hyp_LaunchPacket_reads :
    rdWaits (reads (peered (fire 64 0 0)) (.launch (recF 0)) 64 128) = true
    ∧ (rdFault (reads (mapped 0 [] (fire 64 0 0)) (.launch (recF 0)) 0x10000 128)).isSome = true
    ∧ (rdOk (reads { goodWorld (fire 64 0 0) with mem := { (goodWorld (fire 64 0 0)).mem with dramPois := [(0x10004, true)] } } (.launch (recF 0)) 64 128)).map
        (·.2) = some (some 4)
    ∧ rdOk (reads (goodWorld (fire 64 0 0)) (.launch (recF 0)) 64 128) = some (goodPacket, none)
    ∧ (reads (goodWorld (fire 64 0 0)) (.launch (recF 0)) 64 128).2.checkLaunch { bytes := goodPacket, src := .child 0, prio := 0 } (some 0) = none
    ∧ (reads (goodWorld (fire 64 0 0)) (.launch (recF 0)) 64 128).2.childCount 0 = 0
    ∧ ({ here (fire 64 0 0) with sch := { world.sch with held := List.replicate 4 child } }).childCount 0 = 4
    ∧ bytesAt goodPacket 0 1 = 1 ∧ bytesAt goodPacket 10 1 = 0 := by decide +kernel
def starting : State :=
  withPlane { world with
    tsk := { world.tsk with acts := [], threads := [(0, { fetchThread with next := some (0, 0), acts := [] })], nextAid := 5 } }
theorem test_hyp_ActivationStart :
    (starting.thread? 0).map (·.tid) = some 0
    ∧ ((starting.reap 0).thread? 0) = some { fetchThread with next := some (0, 0), acts := [] }
    ∧ ((starting.reap 0).task? 0).map (fun k => (k.phase, (k.planes.find? fun x => x.plane == 0).map fun x => (x.ctx, x.table)))
        = some (.running, some (0, brPlane))
    ∧ 0 < brPlane.nblk ∧ ((starting.reap 0).ctx ((fetchTask).elem 0 0) 0).armed = true ∧ (starting.reap 0).tagsUsed 0 0 = []
    ∧ ((starting.reap 0).allocFrames fetchTask 0 5 (brPlane.blockNodes 0)).isSome = true := by decide +kernel

def committing (b : Branch) (e : List Effect) (th : Thread) : State :=
  withPlane (world1 { fetchAct with branch := some b, effects := e, fired := branchFired, carry := [(1, some 5)] } th fetchTask (fire 1 2 3))
theorem test_hyp_ActivationCommit :
    Spec.Commits (committing (.block 0 0) [.yield] fetchThread) 0 fetchThread 0 []
      { fetchAct with branch := some (.block 0 0), effects := [.yield], fired := branchFired, carry := [(1, some 5)] }
    ∧ Spec.Commits (committing .exit [] fetchThread) 0 fetchThread 0 [] { fetchAct with branch := some .exit, effects := [], fired := branchFired, carry := [(1, some 5)] }
    ∧ Spec.Commits (committing .eret [] { fetchThread with inh := true }) 0 { fetchThread with inh := true } 0 []
      { fetchAct with branch := some .eret, effects := [], fired := branchFired, carry := [(1, some 5)] } := by
  unfold Spec.Commits; decide +kernel
theorem test_hyp_Yield : (world1 fetchAct { fetchThread with yieldUntil := some 9 } fetchTask (fire 1 2 3)).otherRunnable 0 0 = false
    ∧ (world1 fetchAct { fetchThread with yieldUntil := some 9 } fetchTask (fire 1 2 3)).cycles < 9 := by decide +kernel

def trapRec : TrapRec :=
  { tid := 0, code := 29, asid := 0, thread := 0, ctx := 0, iter := 0, node := 0, port := 0, lsid := 0, plane := 0, block := 0, elem := 0,
    addr := 0, info := 0, path := [], cycle := 0, firing := none }
def trapping (tk : Task) : State := world1 { fetchAct with trap := some trapRec } fetchThread tk (fire 1 2 3)
def keptAt0 : Kept := { iter := 0, ctx := 0, plane := 0, block := 0, performed := [], tokens := [] }
def handling : Task := { fetchTask with handler := 0x1000000, deleg := 0x20000000 }
def lodged : State :=
  { world with
    tsk := { world.tsk with threads := [(0, { fetchThread with acts := [], lodge := true, trapped := some trapRec, lodgeKept := some keptAt0 })]
                            lodgeQueue := [trapRec] } }
/-- A trap that awaits the Lodge while a committed store of its task has not performed. -/
def owing : State :=
  { lodged with tsk := { lodged.tsk with acts := [(0, { fetchAct with committed := true })] }
                mem := { scratchMem with acc := [access (.st (memRec 3 2)) (fire 16 5 6) true .scratch] } }
theorem test_hyp_LodgeEndsTask :
    (((lodged.setTsk { lodged.tsk with lodgeQueue := [] }).quiesce 0).owesWrites 0 fetchTask) = false
    ∧ (((owing.setTsk { owing.tsk with lodgeQueue := [] }).quiesce 0).owesWrites 0 fetchTask) = true
    ∧ owing.tsk.lodgeQueue = [trapRec] ∧ owing.task? 0 = some fetchTask ∧ trapRec.code ≠ 31 ∧ fetchTask.halting = false
    ∧ (owing.thread? 0).map (fun t => (t.tid, t.trapped, t.lodgeKept)) = some (0, some trapRec, some keptAt0) := by decide +kernel
/-- A trap whose code is delegated and one whose code is not; a record at the bounds of its fields; a trap that awaits the Lodge. -/
theorem test_hyp_TrapTakingAndReturn :
    (trapping handling).act? 0 = some { fetchAct with trap := some trapRec } ∧ (trapping handling).cutOf 0 = none
    ∧ (trapping handling).thread? 0 = some fetchThread ∧ fetchThread.acts = [0] ∧ fetchThread.tid = 0 ∧ fetchThread.lodge = false
    ∧ (trapping handling).mem.acc = [] ∧ (trapping handling).mem.rowCmds = []
    ∧ handling.handler.getLsbD 24 = true ∧ handling.deleg.getLsbD trapRec.code = true ∧ fetchThread.inh = false
    ∧ fetchTask.handler.getLsbD 24 = false ∧ (trapping fetchTask).thread? 0 = some fetchThread
    ∧ trapRec.code < 64 ∧ trapRec.elem < 2 ^ 14
    ∧ lodged.tsk.lodgeQueue = [trapRec] ∧ lodged.task? 0 = some fetchTask
    ∧ (lodged.thread? 0).map (fun t => (t.trapped, t.lodgeKept, t.inh)) = some (some trapRec, some keptAt0, false)
    ∧ lodged.tsk.tasks.map (·.1) = [0] := by decide +kernel

/-- SYSRD and SYSWR of a present register, of an absent one, and of one that is write-only. -/
theorem test_hyp_SystemFormResults :
    (here (fire 0 2 3)).sysReg (at0 (fire 0 2 3)) 0x200 = some 0 ∧ (here (fire 0 2 3)).sysReg (at0 (fire 0 2 3)) 0x201 = none
    ∧ (here (fire 0 2 3)).sysReg (at0 (fire 0 2 3)) 0xFFFF = none
    ∧ ((here (fire 0 2 3)).taskWord 0x401).isSome = true ∧ (here (fire 0 2 3)).taskWord 0x400 = none
    ∧ ({ recF 3 with lit32 := 0x1000000 } : NodeRec).l.testBit 24 = true ∧ (here (fire 0 2 3)).isOldest 0 = true
    ∧ (valOf (fire 0 2 3).a) % 2 ^ 33 / 2 ^ 24 % 256 = (here (fire 0 2 3)).issAsid (at0 (fire 0 2 3))
    ∧ (valOf (fire 0x1000000 2 3).a) % 2 ^ 33 / 2 ^ 24 % 256 ≠ (here (fire 0 2 3)).issAsid (at0 (fire 0 2 3)) := by decide +kernel

/-! ### Streams, copies, near memory, rows, queue and literal writes -/

/-- A plane of one bed whose elements hold 1 KiB each in the FIFO role, with one stream port at element (0, 0); `write` makes it a
write port. Its tokens go to port A of node 1 of the same element. -/
def streamPlane (write : Bool) : Plane :=
  { common := List.replicate 6 0 ++ [1, 0] ++ List.replicate 136 0 ++ [0xC0, 0, 0, 0, 64, 0, 0, 0] ++ List.replicate 16 0
      ++ [0x00, 1, 0, 0, 1, 0, 0, 0] ++ List.replicate 16 0 ++ List.replicate 64 1
      ++ bytesOf 16 ((if write then 1 else 0) + (0x40000 + 4) * 2 ^ 27), images := [] }
/-- A descriptor of 4 granules at VA 0. -/
def descriptor : List Byte := bytesOf 8 0 ++ bytesOf 4 4 ++ bytesOf 4 1 ++ bytesOf 4 1 ++ bytesOf 4 1 ++ List.replicate 40 0
def cellsAt (a : Nat) (bs : List Byte) : List Host.Cell := writeCells [] a bs
def binding (write : Bool) : Binding :=
  { bid := 9, tid := 0, aid := 0, ctx := 0, port := 0, write := write, indexed := false, base := 0, counts := [4, 1, 1, 1],
    strides := [0, 0, 0], idxBase := 0, flag := 0, flagVal := 0, t0 := 0, next := 0, got := [], inputs := [], faulted := false,
    released := false, tell := none, owed := none }
def streaming (b : Binding) (fmta : Byte) : State :=
  residing (streamPlane b.write)
    { mapped fmta (cellsAt 0x100040 descriptor) (fire 64 0 0) with eng := { world.eng with bindings := [b] } }
def granule : List Byte := List.replicate 64 7
def foundOk : Found Place × State → Option Place
  | (.ok p, _) => some p
  | _ => none
/-- SBIND in the state in which it waits. -/
def streamForm (s : State) : HeldOp := Spec.form (Spec.taken s) (s.cur.getD (at0 (fire 64 0 0))) (.sbind rec0)
def streamHolds (s : State) : State := Spec.holding (Spec.taken s) (s.cur.getD (at0 (fire 64 0 0))) (.sbind rec0)
/-- The descriptor's bytes poisoned; an earlier activation's store to them that has not performed; banks open at another row. -/
def markedDesc : State :=
  { streaming (binding false) 0 with mem := { (streaming (binding false) 0).mem with dramPois := [(0x10004, true)] } }
def behindStore : State :=
  let x := access (.st (memRec 3 0)) (fire 64 5 6) true .global
  let s := streaming (binding false) 0
  { s with cur := some (at0 { fire 64 0 0 with aid := 1 })
           tsk := { s.tsk with acts := s.tsk.acts ++ [(1, fetchAct)], threads := [(0, { fetchThread with acts := [0, 1] })] }
           mem := { s.mem with acc := [{ x with parts := [(0x100040, 8)] }] } }
def closedRows (s : State) : State :=
  { s with mem := { s.mem with banks := (List.range 16384).map fun n => (n, { open_ := true, row := 4095, a := 0, p := 0 }) } }
def streamTok : Token :=
  { lo := 0, hi := 1, pay := { Pay.scalar 5 with vec := true }, front := false, iter := 0, ctx := 0, node := 0, port := .a, seq := 0, src := 0 }
theorem test_hyp_StreamResults :
    Spec.Runs (streaming (binding false) 0) (at0 (fire 64 0 0)) rec0
    ∧ rdOk ((streamHolds (streaming (binding false) 0)).loadOwn (streamForm (streaming (binding false) 0)) 64 64) = some (descriptor, none)
    ∧ (streamHolds (streaming (binding false) 0)).mayTake (streamForm (streaming (binding false) 0)) = true
    ∧ rdWaits ((streamHolds (peered (fire 64 0 0))).loadOwn (streamForm (peered (fire 64 0 0))) 64 64) = true
    ∧ (rdFault ((streamHolds (streaming (binding false) 0)).loadOwn (streamForm (streaming (binding false) 0)) 0x10000 64)).isSome = true
    ∧ descOk descriptor false = true ∧ descOk (List.replicate 64 0) false = false
    ∧ rdOk ((streamHolds markedDesc).loadOwn (streamForm markedDesc) 64 64) = some (descriptor, some 4)
    ∧ (streamHolds (streaming (binding true) 0)).mayTake (streamForm (streaming (binding true) 0)) = true
    ∧ (streamHolds behindStore).mayTake (streamForm behindStore) = false
    ∧ (formed behindStore (.launch rec0)).mayTake (Spec.form behindStore (at0 { fire 64 0 0 with aid := 1 }) (.launch rec0)) = false := by
  unfold Spec.Runs; decide +kernel
theorem test_hyp_StreamEvents :
    (streaming (binding true) 0).mayStampAt 0 .global 0x100000 = true
    ∧ (streaming (binding false) 0).mayWriteVa 0 0x40 8 = true ∧ (closedRows (streaming (binding false) 0)).mayWriteVa 0 0x40 8 = false
    ∧ ({ streaming (binding true) 0 with
          lnk := { world.lnk with reqs := [{ id := 1, peer := 1, port := 0, kind := .write, pa := 0, size := 64, data := [], marks := [], acc := some 9,
                                             asid := 0, tag := 0, sentAt := 0, waits := false }] } }).bindingOwes (binding true) = true
    ∧ ((streaming (binding false) 0).streamPort 0 0 0).isSome = true ∧ ((streaming (binding true) 0).streamPort 0 0 0).isSome = true
    ∧ (streaming (binding false) 0).binding? 9 = some (binding false) ∧ (binding false).total = 4
    ∧ foundOk ((streaming (binding false) 0).granulePlace 0 0 0 (binding false) 3) = some ⟨.global, 0x1000C0⟩
    ∧ ((streaming (binding false) 0).granulePlace 0 0 0 (binding false) 3).2.rowFree 0x1000C0 = true
    ∧ foundOk ((streaming (binding true) 0).granulePlace 0 0 0 { binding true with inputs := [streamTok] } 0) = some ⟨.global, 0x100000⟩
    ∧ ((streaming (binding false) 1).granuleFault fetchTask 0 { binding false with base := 0x10000 } 0).1.isSome = true
    ∧ (streaming (binding false) 0).cutOf 0 = none ∧ (streaming (binding false) 0).turnOfBinding (binding false) 0 = true
    ∧ 0 < fifoShare (streamPlane false) ((streaming (binding false) 0).extent 0 0 / 64) 0
    ∧ (streaming (binding false) 0).destElem 0 0 (spDst ((streamPlane false).stream 0)) = some (0, 1, .a)
    ∧ ({ binding false with got := [(0, granule, false, 4)] }).got.find? (fun g => g.1 == 0) = some (0, granule, false, 4)
    ∧ (streaming (binding false) 0).bindingOwes (binding false) = false := by
  decide +kernel

def copyDesc : List Byte := bytesOf 8 0 ++ bytesOf 8 0x200 ++ bytesOf 8 0x80 ++ List.replicate 40 0
def copy : Copy :=
  { cid := 4, tid := 0, elem := 0, ctx := 0, asid := 0, src := 0, dst := 0x200, len := 0x80, cw := 0, cval := 0, sspace := 0, dspace := 0,
    cwHost := false, fetched := [], rd := 0, next := 0, tell := none, instr := .xcopy rec0, done := false, stop := none }
def copying (c : Copy) : State := { mapped 0 (cellsAt 0x100040 copyDesc) (fire 64 0 0) with eng := { world.eng with copies := [c] } }
def withHost (c : Copy) : Copy := { c with cw := 0x50, cwHost := true }
def copyReq : Req :=
  { id := 1, peer := 1, port := 0, kind := .copyWrite, pa := 0, size := 64, data := [], marks := [], acc := some 4, asid := 0, tag := 0, sentAt := 0,
    waits := false }
/-- A copy that has stopped at its second granule, with a completion word to write. -/
def halfCopy : Copy := { withHost copy with rd := 1, next := 1, stop := some (1, 22) }
def nmCommand (f : Nat) : NmCmd :=
  { num := 0, tid := 0, asid := 0, packet := 0, base := 0x2000000000, dest := 0x2000001000, flag := f, rowg := 1, tell := none, instr := .nmred rec0 }
theorem test_hyp_CopyAndReduceResults :
    Spec.Counted (copying copy) (at0 (fire 64 0 0)) rec0 true ((Spec.taken (copying copy)).account (at0 (fire 64 0 0)) (.lsid 0) true).2
    ∧ (copying copy).isOldest 0 = true ∧ ((copying copy).copiesOf 0).length < 64
    ∧ rdOk (reads (copying copy) (.xcopy rec0) 64 64) = some (copyDesc, none)
    ∧ (∀ ins ∈ [Instr.xcopy rec0, .nmred rec0, .rowput rec0],
        (Spec.holding (copying copy) (at0 (fire 64 0 0)) ins).mayTake (Spec.form (copying copy) (at0 (fire 64 0 0)) ins) = true)
    ∧ (copying copy).copy? 4 = some copy ∧ (copying copy).runs copy = true
    ∧ ((copying copy).copyPlace copy 0 64 false).1.isOk = true ∧ ((copying copy).copyPlace copy 0 0x200 true).1.isOk = true
    ∧ ((copying copy).copyPlace copy 0 0x10000 false).1.isOk = false
    ∧ copy.next < copy.len / 64 ∧ copy.rd < copy.limit ∧ copy.rd < copy.next + 16 ∧ copy.stop = none
    ∧ (copying { copy with next := 2 }).copyOwes { copy with next := 2 } = 0
    ∧ (copying halfCopy).copy? 4 = some halfCopy ∧ min 1 (halfCopy.len / 64) ≤ halfCopy.next ∧ (copying halfCopy).copyOwes halfCopy = 0
    ∧ ({ copying copy with lnk := { world.lnk with reqs := [copyReq] } }).copyOwes copy ≠ 0
    ∧ (copying (withHost copy)).copy? 4 = some (withHost copy) ∧ Tab.wf 0 (copying copy).mem.host = true
    ∧ (∀ y ∈ (copying copy).fab.held, y.id ≠ (copying copy).fresh) := by unfold Spec.Counted; decide +kernel
/-- NMRED over one row of 64 bytes of f32 lanes in an outer stack, one row. -/
def nmPacket : Val := BitVec.ofNat 512 0
theorem test_hyp_NearMemory : nmFlag (nmCommand 0).packet.toNat = 0 ∧ (64 * (nmCommand 0).rowg / nmBytes (nmTf 0)) % 4 = 0
    ∧ Tab.getD { world.eng with nmQueue := [(0, [nmCommand 0])] }.nmQueue 0 [] = [nmCommand 0]
    ∧ ({ world with eng := { world.eng with nmQueue := [(0, [nmCommand 0])] } } : State).nmReady (nmCommand 0) = true := by decide +kernel

def rowWord (bank row : Nat) : Nat := bank + 64 * row
def rowHeld : Firing := fire (rowWord 63 4095) 0 0
def rowCmd (ins : Instr) (doneAt : Option Nat) : RowCmd :=
  { id := 5, instr := ins, iss := at0 rowHeld, bank := 63, row := 4095, count := 20, doneAt := doneAt }
def rowing (ins : Instr) (doneAt : Option Nat) (b : Bank) : State :=
  { here rowHeld with units := 30 * 18480, mem := { world.mem with banks := [(63, b)], rowCmds := [rowCmd ins doneAt] } }
def openRow : Bank := { open_ := true, row := 4095, a := 0, p := 0 }
/-- Each row command where it may take effect, one that is too early, one against a closed bank, and the two ends of an open row. -/
theorem test_hyp_RowCommandResults :
    (here rowHeld).isOldest 0 = true ∧ (here rowHeld).issTask (at0 rowHeld) = some (0, fetchTask)
    ∧ rowWord 63 4095 / 2 ^ 18 % 16 < fetchTask.wb ∧ bedOf (fetchTask.elem 0 0) = 0
    ∧ (here rowHeld).rowCheck { id := 0, instr := .rowact rec0, iss := at0 rowHeld, since := 0 } 0 = none
    ∧ Spec.RowGoes (rowing (.rowact rec0) none .reset) (rowCmd (.rowact rec0) none)
    ∧ Spec.RowGoes (rowing (.rowpre rec0) none openRow) (rowCmd (.rowpre rec0) none)
    ∧ Spec.RowGoes (rowing (.rowcon rec0) none openRow) (rowCmd (.rowcon rec0) none)
    ∧ Spec.RowGoes (rowing (.rowput rec0) none openRow) (rowCmd (.rowput rec0) none)
    ∧ (rowing (.rowcon rec0) none .reset).mem.rowTrap (rowCmd (.rowcon rec0) none) 20 = some trapRowClosed
    ∧ (rowing (.rowact rec0) none openRow).mem.rowTrap (rowCmd (.rowact rec0) none) 20 = some trapRowWindow
    ∧ bankBit world.mem.bankMap 63 = false ∧ 0 < world.mem.nlive
    ∧ (rowing (.rowact rec0) (some 25) .reset).units / 18480 = 30
    ∧ min (0 + 1200) (0 + (2304 - (0 + 2304 - 36 * 63) % 2304)) = 1200
    ∧ min (1200 + 1200) (1200 + (2304 - (1200 + 2304 - 36 * 63) % 2304)) = 2268 := by
  unfold Spec.RowGoes; decide +kernel

/-- Queue 5 with a ring of 16 entries at VA 0x400, enabled, local, of ASID 0; `rd` and `wr` its indices, and its error code. -/
def queueMem (d rd wr err : Nat) : Memory :=
  { mappedMem 0 [] with
    dram := cellsAt (64 * 5) (bytesOf 8 0x400 ++ bytesOf 8 d ++ bytesOf 4 rd ++ bytesOf 4 wr ++ bytesOf 1 err ++ [0xFF]) ++ tables 0 ++
      cellsAt 0x100800 [1] }
def queueing (d rd wr err : Nat) : State := { here (fire 0x800 0 0) with mem := queueMem d rd wr err }
def foundExt : Found (Nat × List (List Byte × Bool)) × State → Option Nat
  | (.ok x, _) => some x.1
  | _ => none
def enabled : Nat := 4 + 2 ^ 5 + 2 ^ 28
theorem test_hyp_QueueAndLiteralWrites :
    Spec.descWord (queueing enabled 0 16 0) 5 8 4 = enabled ∧ Spec.latestWr (queueing enabled 0 16 0) 5 = 16
    ∧ Spec.latestWr (queueing enabled 0 15 0) 5 = 15 ∧ Spec.descWord (queueing 4 0 0 0) 5 8 4 = 4
    ∧ Spec.descWord (queueing enabled 0 15 0) 5 24 1 = 0 ∧ Spec.descWord (queueing enabled 0 15 7) 5 24 1 = 7
    ∧ foundExt ((Spec.holding (queueing enabled 0 15 0) (at0 (fire 0x800 0 0)) (.qput rec0)).putPacket
        (Spec.form (queueing enabled 0 15 0) (at0 (fire 0x800 0 0)) (.qput rec0)) 0x800) = some 0
    ∧ Spec.HoldsNow (queueing enabled 0 15 0) (at0 (fire 0x800 0 0))
    ∧ (Spec.holding (queueing enabled 0 15 0) (at0 (fire 0x800 0 0)) (.qput rec0)).mayTake
        (Spec.form (queueing enabled 0 15 0) (at0 (fire 0x800 0 0)) (.qput rec0)) = true
    ∧ (queueing enabled 0 15 0).mayPut 0 0 0x400 16 15 1 = true ∧ (closedRows (queueing enabled 0 15 0)).mayPut 0 0 0x400 16 15 1 = false
    ∧ ((queueing enabled 0 15 0).putEntries 0 0 0x400 16 15 [(List.replicate 128 0, false)]).1 = none := by
  unfold Spec.HoldsNow; decide +kernel
def argHeld : HeldOp := { id := 6, instr := .argw rec0, iss := at0 (fire 3 0 0), since := 0 }
def argWorld (c : Nat) (log : List (Nat × W32)) : State :=
  { world with cycles := c, fab := { world.fab with held := [argHeld], store := [(0, 0x20)] }
               tsk := { world.tsk with tasks := [(0, { fetchTask with planes := [{ plane := 0, ctx := 0, used := 0, log := log, table := fetchPlane }] })] } }
theorem test_hyp_LiteralWrites : Spec.Waits (argWorld 2 []) argHeld ∧ ((argWorld 2 []).recAt 0 0 0).isSome = true
    ∧ argHeld.since + 2 + hops 0 0 ≤ (argWorld 2 []).cycles ∧ (argWorld 1 []).cycles < argHeld.since + 2 + hops 0 0
    ∧ Tab.wf 0 (argWorld 2 []).fab.store = true ∧ 64 ≤ (List.replicate 64 ((1, 0) : Nat × W32)).length := by
  unfold Spec.Waits; decide +kernel

/-! ### Queues, arrays, factorising beds, trees, matching -/

theorem queue_coherent : Spec.Coherent (queueMem enabled 0 15 0) := coherent_of_no_line _ rfl (by decide +kernel)
def slot5 (notify rd : W32) : Slot := { Slot.reset with qid := 5, valid := true, notify := notify, rd := rd }
/-- A queue's head entry: a launch of no argument, one that announces more entries than the ring holds yet, a NOOP, a wrong kind. -/
def slotted (head : List Byte) (notify : W32) : State :=
  { queueing enabled 0 15 0 with
    que := { world.que with slots := [(0, slot5 notify 0)], planes := [(0, fetchPlane)] }
    mem := { queueMem enabled 0 15 0 with dram := (queueMem enabled 0 15 0).dram.take 13 ++ cellsAt 0x100400 head } }
def launchHead : List Byte := [1]
def longHead : List Byte := [1, 0, 0, 0, 0, 0, 0, 0, 9, 0, 1]
theorem test_hyp_QueueEvents :
    (queueing enabled 0 16 0).queueSlot 5 = none ∧ (slotted launchHead 1).queueSlot 5 = some 0
    ∧ 2 ^ (enabled % 32) < ((17 : W32).toNat + 2 ^ 32 - 0) % 2 ^ 32 ∧ ((16 : W32).toNat + 2 ^ 32 - 0) % 2 ^ 32 ≤ 2 ^ (enabled % 32)
    ∧ (world.slot 63).valid = false ∧ Spec.descWord (queueing enabled 0 16 0) 5 25 1 = 0xFF
    ∧ ((slotted launchHead 1).slot 0).valid = true ∧ world.busy.contains (busyNotify 0) = false
    ∧ { world with busy := [busyNotify 0] : State }.busy.contains (busyNotify 0) = true
    ∧ ((slotted launchHead 1).desc 5 8 4).1.testBit 28 = true
    ∧ (slotted launchHead 1).que.rackWritten.getLsbD 255 = false ∧ 255 * 128 + 128 ≤ 0x8000
    ∧ world.boot.state ≠ 3 ∧ (slotted launchHead 1).que.slots.map (·.1) = [0] := by decide +kernel
/-- A slot whose head entry passes its check, with one of two entries; the ring's row closed, but for a line in the Glasshouse. -/
def goodSlot (head : List Byte) (notify : W32) : State :=
  let s := slotted head notify
  { s with que := { s.que with planes := (goodWorld (fire 0 0 0)).que.planes } }
def longPacket : List Byte := [1, 0, 0, 9, 0, 0, 0, 0, 1, 0, 1] ++ List.replicate 117 0
def cached (s : State) : State :=
  let s := closedRows s
  { s with mem := { s.mem with main := s.mem.dram, lines := ([0x200, 0x400, 0x600, 0x800, 0x2008] : List Nat).foldl (fun t l => Tab.set t (16 * s.mem.setKey l + l / 512 % 16) (l, false)) [] } }
def ringAt (s : State) (ring i : Nat) : Rd × State := s.ringEntry 0 enabled ring i
theorem test_hyp_SlotReads :
    (rdOk (ringAt (goodSlot goodPacket 1) 0x400 0)) = some (goodPacket, none) ∧ rdWaits (ringAt (closedRows (goodSlot goodPacket 1)) 0x400 0) = true
    ∧ (rdFault (ringAt (goodSlot goodPacket 1) 0x10000 0)).isSome = true
    ∧ (goodSlot goodPacket 1).checkLaunch { bytes := goodPacket, src := .slot 0 5, prio := 0 } (some 0) = none
    ∧ (goodSlot goodPacket 1).checkLaunch { bytes := launchHead, src := .slot 0 5, prio := 0 } (some 0) = some 9
    ∧ (rdOk (ringAt (cached (goodSlot longPacket 2)) 0x400 0)).map (·.2) = some none
    ∧ rdWaits ((cached (goodSlot longPacket 2)).ringEntries 0 enabled 0x400 1 1) = true
    ∧ rdOk ((goodSlot longPacket 2).ringEntries 0 enabled 0x400 1 1) = some (List.replicate 128 0, none)
    ∧ ((goodSlot longPacket 2).checkLaunch { bytes := longPacket, src := .slot 0 5, prio := 0 } (some 0)) = none
    ∧ (({ bytes := longPacket, src := .slot 0 5, prio := 0 } : Launch).argc, ({ bytes := longPacket, src := .slot 0 5, prio := 0 } : Launch).ext) = (9, 1)
    ∧ (rdOk (ringAt { goodSlot goodPacket 1 with mem := { (goodSlot goodPacket 1).mem with dramPois := [(0x10040, true)] } } 0x400 0)).map (·.2)
        = some (some 4) := by decide +kernel
/-- The rack's ring holds one launch that its check accepts or rejects, and Ethernet a NOOP-free head. -/
def racked (head : List Byte) : State :=
  { world with que := { world.que with rackRing := cellsAt 0 head, rackWritten := 1, planes := [(0, fetchPlane)] } }
def goodRack : State :=
  let s := racked goodPacket
  { s with que := { s.que with planes := (goodWorld (fire 0 0 0)).que.planes } }
theorem test_hyp_RackLaunch : ((racked launchHead).rackHead false).map (·.kind) = some 1
    ∧ (((racked launchHead).rackHead false).bind fun l => (racked launchHead).checkLaunch l none).isSome = true
    ∧ (racked launchHead).que.rackOffer = none ∧ world.lnk.turnsAway 143 = false ∧ ({ world.lnk with drain := 3 }).turnsAway 0 = true
    ∧ world.lnk.ethFor 0 ≠ none ∧ ({ world.lnk with ethUp := [(0, false), (1, false)] }).ethFor 0 = none
    ∧ (((goodRack).rackHead false).bind fun l => goodRack.checkLaunch l none) = none ∧ (goodRack.rackHead false).isSome = true := by decide +kernel

/-- The one node of the plane is a matrix form in bf16, and element 0 is an array of one element. -/
def arrayWorld (x : ArraySt) (q : List (List Byte × Bool × Nat)) : State :=
  residing brPlane { here (fire 1 0 0) with
    fab := { world.fab with store := [(0, 0xD1), (1, 2), (0x380, 4)] }
    eng := { world.eng with arrays := [(0, x)], fifo := [(0, q)] } }
def arr : Arr := { fmt := .bf16, ar := 1, ac := 1, elems := [(0, 0, 0)] }
def wload : WLoad := { port := 0, set := false, bcast := false, pos := 0, tell := at0 (fire 1 0 0), instr := .mwload rec0 }
def assigning : Assign := { rows := 1, set := false, port := 0, tell := at0 (fire 1 0 0), instr := .mmac rec0 }
def loadedSet : WeightSet := { bytes := List.replicate 1024 0, scales := [], arrived := 0, loaded := true, pois := false }
def draining : ArraySt := { ArraySt.new with drain := some { lo := 0, rows := 1, keep := false, aid := 0, next := [0] } }
theorem test_hyp_Matrix_outside : ∀ a, (here (fire 1 0 0)).arr? 0 0 = some a → a.at_ 0 0 ≠ some 0 := by
  intro a h; have hn : (here (fire 1 0 0)).arr? 0 0 = none := by decide +kernel
  rw [hn] at h; cases h
theorem test_hyp_MatrixResults :
    Spec.OnArr (arrayWorld .new []) (at0 (fire 1 0 0)) rec0 false arr 0 ∧ (arrayWorld .new []).arr? 0 0 = some arr
    ∧ valOf (fire 0 0 0).a % 2 ^ 16 = 0 ∧ valOf (fire 1 0 0).a % 2 ^ 16 ≠ 0
    ∧ ArraySt.new.assigns.length < 16 ∧ 16 ≤ ({ ArraySt.new with assigns := List.replicate 16 assigning }).assigns.length
    ∧ ArraySt.new.drain = none ∧ ArraySt.new.taken = 0 ∧ ({ ArraySt.new with taken := 1 }).taken ≠ 0
    ∧ (arrayWorld { ArraySt.new with loads := [wload] } [(granule, false, 0)]).fifo (fifoKey 0 0 0) = [(granule, false, 0)]
    ∧ ((arrayWorld { ArraySt.new with assigns := [assigning], sets := [(0, loadedSet)] } [(granule, false, 0)]).arrSt 0).set 0 0 false = loadedSet
    ∧ (arrayWorld { ArraySt.new with assigns := [assigning] } []).arrFrozen 0 0 assigning = false
    ∧ (arr.k * arr.fmt.bits / 8 + 63) / 64 ≤ 1 := by
  unfold Spec.OnArr Spec.Runs Spec.HoldsNow; decide +kernel
/-- A weight token in the bus latch of the array's one element: with tokens of the load still to come, and as its last. -/
def busTok : Token :=
  { lo := 0, hi := 1, pay := { Pay.scalar 5 with vec := true }, front := false, iter := 0, ctx := 0, node := 64, port := .a, seq := 0, src := 0 }
def onBus (pos : Nat) : State :=
  let s := arrayWorld { ArraySt.new with loads := [{ wload with pos := pos }] } []
  { s with cycles := 5, fab := { s.fab with latches := [(5, { tok := busTok, since := 4 })], ctxs := [(0, { CtxSt.new with owner := some 0 })] } }
theorem test_hyp_Matrix_bus :
    Spec.Arrives (onBus 1) 0 5 busTok { tok := busTok, since := 4 } ∧ ((onBus 1).ctx 0 0).owner = some 0 ∧ (onBus 1).arr? 0 0 = some arr
    ∧ arr.elems.find? (fun z => z.1 == 0) = some (0, 0, 0) ∧ arr.loadTokens wload = 8 ∧ 1 < arr.loadTokens wload
    ∧ ((onBus 8).arrSt 0).loads = [{ wload with pos := 8 }] ∧ (∀ z ∈ arr.elems, z.1 = 0)
    ∧ (arr.elems.filter fun y => decide (y.2 = (0, 0))) = [(0, 0, 0)] ∧ wload.pos < arr.fmt.tokens * (arr.ar * arr.ac)
    ∧ Tab.find (arrayWorld { ArraySt.new with loads := [wload] } [(granule, false, 0)]).fab.latches 5 = none
    ∧ (arrayWorld { ArraySt.new with loads := [wload] } [(granule, false, 0)]).isBusy (busyBus 0 false 0) = false ∧ granule.length = 64
    ∧ (arrayWorld .new []).isBusy (busyRow 0) = false ∧ (arrayWorld draining []).isBusy (busyDrain 0) = false
    ∧ ((arrayWorld draining []).ctx 0 0).holds 0 = false := by
  unfold Spec.Arrives; decide +kernel
theorem test_hyp_Matrix_south : Spec.OnArr (arrayWorld .new []) (at0 (fire 1 0 0)) rec0 true arr 0 :=
  ⟨test_hyp_MatrixResults.1.1, test_hyp_MatrixResults.1.2.1, test_hyp_MatrixResults.1.2.2.1, test_hyp_MatrixResults.1.2.2.2.1,
    (0, 0, 0), List.mem_singleton.mpr rfl, rfl, rfl⟩
theorem test_hyp_Matrix_drain : draining.drain.map (·.next) = some [0] ∧ (draining.drain.map (·.rows)) = some 1
    ∧ arr.at_ (arr.ar - 1) 0 = some 0 ∧ ((arrayWorld draining []).ctx 0 0).latch = none := by decide +kernel
/-- MDRAIN in node 1, with a destination. -/
def drainWorld : State :=
  let s := arrayWorld draining []
  { s with fab := { s.fab with store := [(0, 0xD1), (1, 2)] ++ writeCells [] 12 [0xD2, 0x02, 0, 4, 0, 4] ++ [(0x380, 4)] } }
theorem test_hyp_Matrix_drains : (drainWorld.drainNode 0 0).map (fun x => (x.1, decide (x.2.dst0 ≠ .none))) = some (1, true)
    ∧ drainWorld.arr? 0 0 = some arr ∧ draining.checkOn = false ∧ arr.fmt.isFp4 = false := by decide +kernel
theorem test_hyp_Matrix_weights : ({ loadedSet with loaded := false }).arrived = 0 ∧ loadedSet.bytes.length = 1024 ∧ ArrFmt.bf16.tokens = 8 := by
  decide +kernel

/-- A factorising context: bit 3 of the mode word. -/
def fctWorld (x : FctBed) (f : Firing) : State :=
  { here f with fab := { world.fab with store := [(0x380, 8)] }, eng := { world.eng with beds := [(0, x)] } }
def actBed : FctBed := { FctBed.reset with active := true, begun := true, rename := List.range 128 }
theorem test_hyp_FactorResults :
    ((here (fire 0 0 0)).modeWord 0 0).testBit 3 = false
    ∧ Spec.OnBed (fctWorld .reset (fire 0 0 0)) (at0 (fire 0 0 0)) (recF 0) 0 .reset
    ∧ Spec.OnBed (fctWorld actBed (fire 0 0 0)) (at0 (fire 0 0 0)) (recF 0) 0 actBed
    ∧ actBed.step = none ∧ actBed.next < 128 ∧ (bedElems 0).length = 64
    ∧ ∃ e ∈ bedElems 0, (fctWorld .reset (fire 0 0 0)).extent e 0 < 1024 := by
  unfold Spec.OnBed Spec.Runs Spec.HoldsNow; decide +kernel
/-- A bed whose elements hold 2 KiB each, by the role section of its plane. -/
def tileWorld (x : FctBed) : State :=
  residing { streamPlane false with
      common := (streamPlane false).common.take 0xC0 ++ List.replicate 64 2 ++ (streamPlane false).common.drop 0x100 }
    { fctWorld x (fire 0 0 0) with
    fab := { world.fab with store := [(0x380, 8)], ctxs := (bedElems 0).map fun e => (e * 4, { CtxSt.new with owner := some 0 }) } }
theorem test_hyp_Factor_tile : ∀ e ∈ bedElems 0, (tileWorld .reset).roleCode e 0 = 0 ∧ 0 + 1024 ≤ (tileWorld .reset).extent e 0 := by decide +kernel
/-- The first and the last column of a step, alone, where the first row wins; and a pivot of 0 with SINGTOL 0. -/
def stepBed (k : Nat) : FctBed := { actBed with next := k, step := some (1, at0 (fire 0 0 0)) }
theorem test_hyp_Factor_steps (k : Nat) (hk : k < 128) :
    Spec.Steps (fctWorld (stepBed k) (fire 0 0 0)) 0 (stepBed k) 1 k (at0 (fire 0 0 0)) := by
  exact ⟨rfl, by omega, rfl, rfl, rfl, by omega, hk, List.Perm.refl _, by show 0 + 1024 ≤ 65536; omega, rfl⟩
theorem test_hyp_Factor_wins : Spec.Wins (fctWorld (stepBed 127) (fire 0 0 0)) 0 (stepBed 127) 127 127 := by
  refine ⟨by omega, by omega, fun j h1 h2 => ?_⟩
  have : j = 127 := by omega
  subst this; exact ⟨Nat.le_refl _, fun h => absurd h (by omega)⟩
/-- A column of the step that has begun, and one whose cycles are over. -/
theorem test_hyp_Factor_column : (stepBed 0).serve = none ∧ ({ stepBed 0 with serve := some 28 } : FctBed).serve = some 28
    ∧ (fctWorld { stepBed 0 with serve := some 28 } (fire 0 0 0)).cycles < 28 ∧ (28 : Nat) ≤ { world with cycles := 28 : State }.cycles := by decide +kernel
theorem test_hyp_Factor_pivot : Spec.entry (fctWorld (stepBed 127) (fire 0 0 0)) 0 (stepBed 127) 127 127 = 0 ∧ (f32 0).isNan = false
    ∧ (stepBed 127).smode = false ∧ ({ stepBed 0 with smode := true, singtol := 1 }).singtol.toNat < 2 ^ 31 := by decide +kernel

/-! ### Trees, collectives, matching, tokens -/

def partial0 : Partial := { round := 0, link := 4, val := some [1], vec := false, pois := false, psrc := 0, iss := some (at0 (fire 1 0 0)), since := 0 }
/-- A tree whose root, the REDPUT in node 0, holds its own contribution; or has sent its round. -/
def treeWorld (x : TreeNode) : State :=
  { here (fire 1 0 0) with
    cycles := 9
    fab := { world.fab with store := [(0, 0xE6), (9, 1)] }
    eng := { world.eng with trees := [(0, { TreeSt.new with nodes := [(0, x)] })] } }
def redRec : NodeRec := { rec0 with lit32 := 0x100 }
def begun (x : TreeSt) (tmo : W64) : State :=
  { treeWorld .new with units := 100 * 5544000, eng := { world.eng with trees := [(0, { x with begun := [(0, 0)] })] }
                        tsk := { world.tsk with tasks := [(0, { fetchTask with collTmo := tmo })] } }
theorem test_hyp_Trees :
    Spec.HoldsNow (treeWorld .new) (at0 (fire 1 0 0)) ∧ treeKey 0 0 0 = 0 ∧ (treeWorld .new).recAt 0 0 0 = some (0xE6, redRec)
    ∧ ((treeWorld .new).tree 0).cur .new + 4 < ({ TreeNode.new with count := 5 }).count
    ∧ ({ TreeNode.new with count := 4 }).count ≤ ((treeWorld .new).tree 0).cur .new + 4
    ∧ (({ TreeNode.new with inputs := [partial0] } : TreeNode).ready redRec 0).map (fun x => x.1) = some partial0 ∧ partial0.since + 4 ≤ (treeWorld .new).cycles
    ∧ (treeWorld .new).treeWaits 0 = [] ∧ Tab.find ({ TreeSt.new with results := [(0, some [1], false, false, 0)] }).results 0 = some (some [1], false, false, 0)
    ∧ 0 ∈ ({ TreeSt.new with abandoned := [0] }).abandoned
    ∧ (begun .new 10).tree 0 = { TreeSt.new with begun := [(0, 0)] } ∧ 0 + (10 : W64).toNat % 2 ^ 32 * 5544000 ≤ (begun .new 10).units
    ∧ (begun .new 10).rootReady 0 0 = false := by unfold Spec.HoldsNow; decide +kernel

/-- A descriptor for a BROADCAST of 64 bytes in group 63 at scope 3, rank 1023, and one that no group takes. -/
def collDesc : List Byte := bytesOf 8 0 ++ bytesOf 8 0x400 ++ bytesOf 4 64 ++ [3, 0, 0, 3] ++ bytesOf 2 63 ++ bytesOf 2 0 ++ bytesOf 2 1023
  ++ List.replicate 34 0
def collWorld (grp : Tab CollGrp) (rounds : List CollRound) : State :=
  { mapped 0 (cellsAt 0x100040 collDesc) (fire 64 0 0) with eng := { world.eng with collGrp := grp, rounds := rounds } }
def grp63 : CollGrp := { size := 1024, scope := 3, asid := 0, valid := true, members := 0 }
def round1 : CollRound :=
  { rid := 2, g := 63, tid := 0, thread := 0, elem := 0, asid := 0, round := 0, rank := 1023, src := 0, dst := 0x400, len := 64, op := 3,
    rop := 0, type := 0, scope := 3, root := 0, flag := 0, flagVal := 0, since := 0, status := none, data := none, broken := false, waiters := [] }
/-- What COLL reads at an address, in the state in which it waits. -/
def collReads (s : State) (a : Nat) : Rd × State :=
  (Spec.holding (Spec.taken s) (at0 (fire 64 0 0)) (.coll (recF 0))).loadOwn (Spec.form (Spec.taken s) (at0 (fire 64 0 0)) (.coll (recF 0))) a 64
theorem test_hyp_Collectives :
    rdOk (collReads (collWorld [(63, grp63)] []) 64) = some (collDesc, none)
    ∧ rdWaits (collReads { peered (fire 64 0 0) with eng := (collWorld [(63, grp63)] []).eng } 64) = true
    ∧ (rdFault (collReads (collWorld [(63, grp63)] []) 0x10000)).isSome = true
    ∧ (rdOk (collReads { collWorld [(63, grp63)] [] with mem := { (collWorld [] []).mem with dramPois := [(0x10004, true)] } } 64)).map (·.2) = some (some 4)
    ∧ (Spec.holding (Spec.taken (collWorld [(63, grp63)] [])) (at0 (fire 64 0 0)) (.coll (recF 0))).mayTake
        (Spec.form (Spec.taken (collWorld [(63, grp63)] [])) (at0 (fire 64 0 0)) (.coll (recF 0))) = true
    ∧ (Spec.holding (Spec.taken (collWorld [(63, grp63)] [])) (at0 (fire 64 0 0)) (.coll (recF 0))).owesEarlier (at0 (fire 64 0 0)) = false
    ∧ (Tab.getD (collWorld [(63, grp63)] []).eng.collGrp 63 .reset) = grp63 ∧ (Tab.getD (collWorld [] []).eng.collGrp 63 .reset).valid = false
    ∧ bytesAt collDesc 28 2 < grp63.size.toNat ∧ bytesAt collDesc 24 2 = 63
    ∧ (collWorld [(63, grp63)] [round1]).membersUp round1 = true ∧ (collWorld [(63, grp63)] [round1]).mayEndRound round1 = true
    ∧ (∀ x ∈ (collWorld [(63, grp63)] [round1]).shares round1, (collWorld [(63, grp63)] [round1]).mayEndRound x = true)
    ∧ (collWorld [] []).shareOf (at0 (fire 64 0 0)) 63 0 = none ∧ (collWorld [] [round1]).shareOf (at0 (fire 64 0 0)) 63 0 = some round1
    ∧ (collWorld [] [{ round1 with status := some 1 }]).shareOf (at0 (fire 64 0 0)) 63 0 = some { round1 with status := some 1 }
    ∧ (collWorld [(63, grp63)] [round1]).mayFail { round1 with broken := true } = true
    ∧ ((collWorld [(63, grp63)] [round1]).shareFaults round1 1024).1 = false := by decide +kernel
theorem test_hyp_Coll_open : Spec.Open (collWorld [] [{ round1 with data := some [(granule, [])] }]) { round1 with data := some [(granule, [])] } := by
  unfold Spec.Open; decide +kernel

def cfgAB : MatchCfg := world.matchCfg fetchTask 0 0 0 0x20 rec0
def tokAt (lo hi : Nat) : Token := { streamTok with lo := lo, hi := hi, pay := .scalar 5 }
/-- Operand B stored over [4, 9) and its port's frontier at 4: tokens below, at, and past the frontiers of both ports. -/
def nodeB : NodeSt := { NodeSt.new with b := { PortSt.new with front := 4, ents := [{ id := 1, lo := 4, hi := 9, pay := .scalar 6, gap := none }] } }
theorem test_hyp_MatchingRule :
    cfgAB.used = [0, 1] ∧ cfgAB.gap 0 = .refuse ∧ nodeB.a.front ≤ (tokAt 0 5).lo ∧ (tokAt 0 5).lo < (tokAt 0 5).hi ∧ nodeB.b.front < (tokAt 0 5).hi
    ∧ (tokAt 0 4).hi ≤ nodeB.b.front ∧ nodeB.a.ents.length < cfgAB.depth 0 ∧ cfgAB.depth 0 ≤ (List.replicate (cfgAB.depth 0) (0 : Nat)).length
    ∧ (tokAt 0 5).lo < ({ NodeSt.new with a := { PortSt.new with front := 1 } } : NodeSt).a.front
    ∧ (∀ k ∈ cfgAB.used, k < 3)
    ∧ ({ PortSt.new with cover := some 3, hold := some (.scalar 1) }).hold = some (.scalar 1) ∧ max 3 0 < max 0 (tokAt 5 9).lo
    ∧ agree (tokAt 0 5) (tokAt 0 5) = true ∧ agree (tokAt 0 5) { tokAt 0 5 with pay := .scalar 6 } = false := by decide +kernel

def inLatch (t : Token) (x : CtxSt) (rec : List Host.Cell) : State :=
  { world with cycles := 5, fab := { world.fab with frames := [(0, [(0, 0, 2)])], latches := [(0 * 8 + 1, { tok := t, since := 4 })], ctxs := [(0, x)], store := rec } }
def ownedCtx : CtxSt := { CtxSt.new with owner := some 0, armed := true }
/-- ADD in node 0, to node 1. -/
def addRec : List Host.Cell := cellsAt 0 [0x20, 0x04, 0, 4, 0, 4]
theorem test_hyp_Arrives : Spec.Arrives (inLatch (tokAt 0 5) ownedCtx addRec) 0 1 (tokAt 0 5) { tok := tokAt 0 5, since := 4 } := by
  unfold Spec.Arrives; decide +kernel
theorem test_hyp_TokensMove :
    (inLatch (tokAt 0 5) ownedCtx addRec).actFor 0 0 0 = some 0 ∧ (inLatch (tokAt 0 5) ownedCtx addRec).actFor 0 0 1 = none
    ∧ ((inLatch (tokAt 0 5) ownedCtx addRec).recAt 0 0 0).map (·.1) = some 0x20
    ∧ (inLatch (tokAt 0 5) .new addRec).ctx 0 0 = .new ∧ CtxSt.new.owner = none ∧ ({ ownedCtx with armed := false }).armed = false
    ∧ (inLatch (tokAt 0 5) ownedCtx addRec).hasFrame 0 0 = true ∧ (inLatch (tokAt 0 5) ownedCtx addRec).hasFrame 0 1 = false
    ∧ (inLatch (tokAt 0 5) ownedCtx addRec).pendingIn 0 0 = 0 ∧ (inLatch (tokAt 0 5) ownedCtx addRec).replaying 0 = false
    ∧ (tokAt 0 5).src ≠ 2 ^ 23 ∧ (tokAt 0 5).seq = Tab.getD (inLatch (tokAt 0 5) ownedCtx addRec).fab.seqIn 0 0
    ∧ (1 ≤ ((128 : BitVec 8) - 0).toNat ∧ ((128 : BitVec 8) - 0).toNat ≤ 128) ∧ (16383 : Nat) < 16384 := by decide +kernel
/-- A token one hop from its target, and one farther; a result in an output latch for a neighbour. -/
def flying (target : Nat) : State :=
  { world with cycles := 5, fab := { world.fab with net := [{ tok := tokAt 0 5, at_ := 0, dir := 0, target := target, moved := 4 }] } }
theorem test_hyp_Routing : ∀ g ∈ [1, 2, 64, 4160], (flying g).isHead 0 { tok := tokAt 0 5, at_ := 0, dir := 0, target := g, moved := 4 } = true
    ∧ (flying g).turnOf 0 (wayOut 0 g) 0 = true := by decide +kernel
theorem test_hyp_LatchLeaves :
    (inLatch (tokAt 0 5) { ownedCtx with latch := some { aid := 0, node := 0, beats := [.both (.scalar 1) 0 5], readyAt := 3, waits := false } }
      addRec).destElem 0 0 (.relative 0 0 1 .a) = some (0, 1, .a)
    ∧ (inLatch (tokAt 0 5) ownedCtx addRec).turnOf 0 0 0 = true ∧ (inLatch (tokAt 0 5) ownedCtx addRec).act? 0 = some fetchAct := by decide +kernel

/-! ### The scheduler, cuts, probes, errors, heat, power, links -/

def launchBytes : List Byte := [1] ++ List.replicate 127 0
def offering : State :=
  { queueing enabled 0 15 0 with
    units := 554400
    que := { world.que with slots := [(0, { slot5 1 0 with offer := some { bytes := launchBytes, src := .slot 0 5, prio := 3 } })] } }
def heldL (placeable : Option Nat) : HeldLaunch :=
  { lid := 1, launch := { bytes := launchBytes, src := .slot 0 5, prio := 3 }, placeable := placeable, lastRead := 0, dirty := false, image := none, entered := (0, 0) }
def holdingL (h : HeldLaunch) (t : Task) (units : Nat) : State :=
  { world with units := units, sch := { world.sch with held := [h], passDue := true }, tsk := { world.tsk with tasks := [(0, t)] } }
theorem test_hyp_SchedulerEvents :
    offering.nextSource = some (0, { bytes := launchBytes, src := .slot 0 5, prio := 3 }) ∧ offering.sch.lastTick + 554400 ≤ offering.units
    ∧ (holdingL (heldL none) fetchTask 0).held? 1 = some (heldL none)
    ∧ (heldL none).lastRead + 100 * 5544000 ≤ (holdingL (heldL none) fetchTask 554400000).units
    ∧ (holdingL (heldL none) fetchTask 0).units < (heldL none).lastRead + 100 * 5544000
    ∧ (heldL none).launch.nsem = 0
    ∧ (holdingL (heldL (some 0)) fetchTask 0).sch.held.filter (fun x => x.placeable.isSome) = [heldL (some 0)]
    ∧ (holdingL (heldL (some 0)) fetchTask 0).drainUnderWay = false
    ∧ ({ fetchTask with past := true } : Task).tokens < (holdingL (heldL (some 0)) fetchTask 0).launchTokens (heldL (some 0))
    ∧ world.retires 0 = false ∧ { world with tsk := { world.tsk with threads := [], acts := [] } : State }.retires 0 = true
    ∧ fetchTask.past = false ∧ fetchTask.quantumAt + world.sch.quantum.toNat * 5544000 ≤ 10000 * 5544000
    ∧ (holdingL (heldL none) { fetchTask with phase := .draining (some 5) 1 } 5).drainUnderWay = true := by decide +kernel
/-- Each action of the table of R84 at the bounds of its row: the remaining estimate at DRAIN, the gap at GAPHI, the run time at KILLRUN. -/
theorem test_hyp_Actions : Spec.actionOf 200 3 4 200 false 0 500 = .drain ∧ Spec.actionOf 201 4 4 200 true 9999999999 500 = .kill
    ∧ Spec.actionOf 201 3 4 200 true (500 * 5544000) 500 = .kill ∧ Spec.actionOf 201 3 4 200 true (500 * 5544000 + 1) 500 = .checkpoint
    ∧ Spec.actionOf 0xFFFFFFFF 3 4 200 false 0 500 = .checkpoint ∧ world.factoring 0 fetchTask = false := by decide +kernel
/-- A launch with one semaphore at virtual address `a`, of minimum 1, which the world's page holds. -/
def semLaunch (a : Nat) : Launch :=
  { bytes := [1, 0, 0, 0, 0, 0, 0, 0, 1, 0, 0, 1] ++ List.replicate 20 0 ++ bytesOf 8 a ++ bytesOf 8 1 ++ List.replicate 80 0, src := .slot 0 5, prio := 3 }
def semWorld (pois : Tab Bool) : State :=
  { mapped 0 [(0x100040, 1)] (fire 0 0 0) with mem := { mappedMem 0 [(0x100040, 1)] with dramPois := pois } }
/-- Its task has ended, and has or has not performed what it committed; it may retire but for a completion word that is in the way. -/
def haltingT : Task := { fetchTask with phase := .halting complOk evRetired }
def complTask : Task := { fetchTask with launch := { fetchLaunch with bytes := List.replicate 24 0 ++ bytesOf 8 0x40 ++ List.replicate 96 0 } }
def lastAct (t : Task) (acc : List Access) : State :=
  { mapped 0 [] (fire 0 0 0) with
    cur := none, mem := { mappedMem 0 [] with acc := acc }
    tsk := { world.tsk with threads := [], acts := [(0, { fetchAct with committed := true })], tasks := [(0, t)] } }
theorem test_hyp_Semaphores :
    ((semWorld []).readSems 1 (semLaunch 0x40) [0]).1 = .read true ∧ ((semWorld []).readSems 1 (semLaunch 0x48) [0]).1 = .read false
    ∧ ((closedRows (semWorld [])).readSems 1 (semLaunch 0x40) [0]).1 = .waits ∧ ((semWorld []).readSems 1 (semLaunch 0x10000) [0]).1 = .bad
    ∧ (rdOk ((semWorld []).readVa (.launch 1) (semLaunch 0x40).asid ((semLaunch 0x40).semAddr 0) 8)).map (·.2) = some none
    ∧ (rdOk ((semWorld [(0x10004, true)]).readVa (.launch 1) (semLaunch 0x40).asid ((semLaunch 0x40).semAddr 0) 8)).map (·.2) = some (some 4)
    ∧ (rdFault ((semWorld []).readVa (.launch 1) 0 ((semLaunch 0x10000).semAddr 0) 8)).isSome = true ∧ (semLaunch 0x40).nsem = 1 := by decide +kernel
theorem test_hyp_TaskRetire :
    (lastAct fetchTask []).retires 0 = true ∧ fetchTask.halting = false ∧ ((lastAct fetchTask []).quiesce 0).owesWrites 0 fetchTask = false
    ∧ (closedRows (lastAct complTask [])).retires 0 = true ∧ ((closedRows (lastAct complTask [])).quiesce 0).owesWrites 0 complTask = true
    ∧ (lastAct haltingT []).owesWrites 0 haltingT = false ∧ haltingT.halting = true
    ∧ (lastAct haltingT [access (.st (memRec 3 0)) (fire 16 5 6) true .global]).owesWrites 0 haltingT = true
    ∧ (lastAct haltingT []).task? 0 = some haltingT ∧ ({ world.boot with microOk := true } : Boot).microOk = true ∧ world.sch.placeEn = true := by decide +kernel
theorem test_hyp_PassDue : Spec.PassDue (holdingL (heldL (some 0)) fetchTask 0) ∧ ¬ Spec.PassDue world := by unfold Spec.PassDue; decide +kernel

def cut (markers : List (Nat × Nat)) (marked : List Nat) : Cut := { begun := true, markers := markers, marked := marked, frozen := [], channel := [] }
def cutting (k : Cut) : State := { world with  tsk := { world.tsk with tasks := [(0, { fetchTask with phase := .cutting k })] } }
/-- A cut with a marker on an edge that is clear, and one of a task without edges, which is done. -/
theorem test_hyp_CutAndDropEvents :
    (cutting (cut [(2, 1)] [])).flyingMarkers[0]? = some (0, 2, 1) ∧ (cutting (cut [(2, 1)] [])).edgeClear 2 = true
    ∧ (cutting (cut [] [])).cutOf 0 = some (cut [] [])
    ∧ (cutting { cut [] [] with begun := false }).cutDone 0 { fetchTask with phase := .cutting (cut [] []) } { cut [] [] with begun := false } = false
    ∧ { cutting (cut [] []) with sch := { world.sch with saveMib := 1 } : State }.poolFit 1 = some 0
    ∧ (cutting (cut [] [])).poolFit 1 = none ∧ world.poolOk 0 65536 = true ∧ fetchTask.starts = true := by decide +kernel
theorem test_hyp_CutDone : (cutting (cut [] [])).cutDone 0 { fetchTask with phase := .cutting (cut [] []) } (cut [] []) = true := by decide +kernel
/-- The thread's next block lies in a plane that is not resident: of another size, too few blocks, or none. -/
def dropping (num : Nat) : State :=
  { world with boot := { world.boot with microOk := true }
               tsk := { world.tsk with threads := [(0, { fetchThread with next := some (num, 0), acts := [] })], acts := [] }
               que := { world.que with planes := [(0, fetchPlane), (7, brPlane)] } }
theorem test_hyp_PlaneDrop : ((dropping 7).reap 0).thread? 0 = some { fetchThread with next := some (7, 0), acts := [] }
    ∧ (dropping 7).boot.microOk = true ∧ (dropping 7).plane? 7 = some brPlane ∧ 0 < brPlane.nblk ∧ (dropping 6).plane? 6 = none ∧ (∀ r ∈ fetchTask.planes, r.plane ≠ 7)
    ∧ ((dropping 7).dropSite 0 fetchTask brPlane).isSome = true ∧ (dropping 7).dropWaits 0 = [] ∧ brPlane.secCnt 1 = 0
    ∧ (∀ pl, (dropping 8).plane? 8 = some pl → pl.nblk ≤ 0)
    ∧ fetchTask.elems.length = 64 ∧ brPlane.fitsRegion { fetchTask with wb := 2 } = false := by decide +kernel

def element0 (x : ElemErr) (spare : BitVec 2) : State :=
  { world with fab := { world.fab with errs := [(0, x)], spares := [(0, spare, 0)] } }
theorem test_hyp_ProbeAndErrorEvents :
    world.blocked 0 = none ∧ (element0 { ElemErr.new with lasting := true } 0).elemErr 0 = { ElemErr.new with lasting := true }
    ∧ ((element0 { ElemErr.new with lasting := true } 0).spare (bedOf 0)).1 = 0 ∧ ((element0 { ElemErr.new with lasting := true } 1).spare (bedOf 0)).1 ≠ 0
    ∧ world.lasting (world.window []) = false ∧ ((element0 { ElemErr.new with lasting := true } 1).ctx 0 0).owner = some 0
    ∧ world.tap.en = false ∧ (element0 { ElemErr.new with replay := true } 0).elemErr 0 = { ElemErr.new with replay := true } := by decide +kernel
/-- A context whose result has no room at its consumer is blocked; its probe comes back to it. -/
def stuck : State :=
  { world with
    cycles := 5000
    fab := { world.fab with
      store := addRec, latches := [(0 * 8 + 0, { tok := tokAt 0 5, since := 1 })]
      ctxs := [(0, { ownedCtx with latch := some { aid := 0, node := 0, beats := [.both (.scalar 1) 0 5], readyAt := 3, waits := false } })] }
    err := { world.err with probes := [{ origin := 0, goal := 0, path := [0], due := 5000 }] } }
/-- The same context in a cut whose consumer has recorded; and probes at a unit that sends its own, from a lower and from a higher origin. -/
def stuckCut : Cut := { cut [] [] with frozen := [cutKey 0 0 1] }
def stuckInCut : State := { stuck with tsk := { stuck.tsk with tasks := [(0, { fetchTask with phase := .cutting stuckCut })] } }
/-- A launch that a slot holds on its semaphore while no thread of its ASID can run. -/
def slotStuck : State := { holdingL (heldL none) fetchTask 0 with tsk := { world.tsk with threads := [], acts := [], tasks := [] } }
theorem test_hyp_Probes :
    (stuck.blocked 0).map stuck.deadlocked = some false ∧ (0 : W32) ≠ 1 ∧ ((0 : W32)).toNat < (1 : W32).toNat
    ∧ (slotStuck.blocked (2 ^ 29)).map (·.sends) = some false
    ∧ (stuckInCut.ctx 0 0).owner = some 0 ∧ stuckInCut.cutOf 0 = some stuckCut ∧ stuckInCut.stuckNode stuckCut 0 0 = some 0 := by decide +kernel

/-- Element 0 after it has accepted an A token that its node pairs with a stored B, and after an uncorrectable error. -/
def paired : State :=
  let s := inLatch (tokAt 4 5) ownedCtx addRec
  match exec .tokenAccept { s with fab := { s.fab with nodes := [(nodeKey 0 0 0, nodeB)] }, inp := some (.tokenAccept 0) } with
  | .next t => { t with fab := { t.fab with errs := [(0, { ElemErr.new with replay := true })] } }
  | _ => s
/-- What replay accepts again. -/
def pairedAgain : Option (List Firing) :=
  (Tab.getD paired.fab.hist 0 []).head?.map fun h =>
    match h.before.accept { cfgAB with depth := fun _ => 2 ^ 16 } h.aid h.tok.node (portNum h.tok.port) h.num h.tok [] with
    | .done m => (m.release cfgAB true).1
    | _ => []
theorem test_hyp_ElementReplay :
    (paired.elemErr 0).replay = true ∧ (Tab.getD paired.fab.hist 0 []).length = 1
    ∧ (Tab.getD paired.fab.hist 0 []).map (fun h => (h.aid, h.tok.node, h.tok.ctx)) = [(0, 0, 0)] ∧ paired.act? 0 = some fetchAct
    ∧ paired.task? 0 = some fetchTask ∧ paired.cutOf 0 = none ∧ (paired.recAt 0 0 0).map (·.1) = some 0x20 ∧ fetchAct.ctx = 0
    ∧ pairedAgain.map (fun fs => fs.map fun f => (f.lo, f.hi)) = some [(4, 5)]
    ∧ Tab.getD (element0 { ElemErr.new with replay := true } 0).fab.hist 0 [] = [] := by decide +kernel
theorem test_hyp_Blocked : (stuck.blocked 0).isSome = true ∧ ((stuck.blocked 0).map (·.sends)) = some true
    ∧ ((stuck.blocked 0).bind (·.at_)).isSome = true := by decide +kernel

/-- Times and readings at which each rule of R16 to R25 first applies. -/
def hotWorld (temp : BitVec 16) (p : Power) : State :=
  { world with units := 1000 * 5544000, pow := p, thm := { world.thm with sens := [(0, { Sensor.reset with temp := temp, failed := true })] } }
theorem test_hyp_HeatAndPowerEvents :
    world.thm.sampleAt + 100 * 5544000 ≤ (hotWorld 0 world.pow).units ∧ 192 % 448 / 64 = 3 ∧ (1791 : Nat) < 1792
    ∧ (Tab.getD (hotWorld 0 world.pow).thm.sens 0 .reset).failed = true ∧ world.boot.state ≠ 3 ∧ Agent.host ≠ Agent.lodge
    ∧ world.pow.sampleAt + 10 * 5544000 ≤ (hotWorld 0 world.pow).units ∧ 1 ≤ world.pow.win.toNat
    ∧ world.pow.periodAt + 100 * 5544000 ≤ (hotWorld 0 world.pow).units ∧ world.thm.tripped = false
    ∧ 0 ∈ fabricSensors ∧ ((world.thm.trip.toNat : Int) - 10) * 16 < (Tab.getD (hotWorld 1601 world.pow).thm.sens 0 .reset).temp.toInt
    ∧ ({ world.pow with inst := 4001 } : Power).cap.toNat < ({ world.pow with inst := 4001 } : Power).inst.toNat
    ∧ 100 * (3800 : Nat) ≤ 95 * world.pow.cap.toNat ∧ 95 * world.pow.cap.toNat < 100 * 3801 ∧ 10 * (3600 : Nat) ≤ 9 * world.pow.cap.toNat
    ∧ 0 + 1000 * 5544000 ≤ (hotWorld 0 { world.pow with overSince := some 0 }).units
    ∧ world.units < world.thm.sampleAt + 100 * 5544000 ∧ world.units < world.pow.sampleAt + 10 * 5544000
    ∧ world.units < world.pow.periodAt + 100 * 5544000 ∧ world.pow.overSince = none
    ∧ (Tab.getD world.thm.sens 1791 .reset).failed = false ∧ (Tab.getD world.thm.sens 0 .reset).candN = 0
    ∧ candidate 0 ((Spec.judges world.thm 0).map (Spec.readingOf world.thm [(0, 0)])) = false
    ∧ candidate 4000 ((Spec.judges world.thm 0).map (Spec.readingOf world.thm [(0, 4000)])) = true
    ∧ (∀ k ∈ sensorNeighbours 0, (Tab.getD world.thm.sens k .reset).failed = false) ∧ (250 : Nat) ≤ 250 := by decide +kernel

def linked (x : Port) (reqs : List Req) : State := { world with lnk := { world.lnk with ports := [(17, x)], reqs := reqs } }
def req0 (waits : Bool) : Req :=
  { id := 3, peer := 143, port := 17, kind := .read, pa := 0x800000000000 + 143 * 2 ^ 39, size := 64, data := [], marks := [], acc := none, asid := 0, tag := 0,
    sentAt := 0, waits := waits }
/-- A codeword that costs lane 2 its lock, one whose errors are worst in lanes 0 and 3, and one with seven corrected symbols in lane 4. -/
def lostWord : Codeword := { lost := [2], corrected := [], bad := false, errors := [], retries := 1 }
def badWord3 : Codeword := { lost := [], corrected := [6, 6, 6, 6, 6], bad := true, errors := [9, 0, 0, 9, 1], retries := 0 }
def sevenWord : Codeword := { lost := [], corrected := [0, 0, 0, 0, 7], bad := false, errors := [], retries := 0 }
theorem test_hyp_Codewords :
    (List.range 5).map lostWord.counts = [false, false, true, false, false] ∧ (List.range 5).map badWord3.counts = [true, false, false, false, false]
    ∧ (List.range 5).map sevenWord.counts = [false, false, false, false, true]
    ∧ upPort.mustDown = false ∧ ({ upPort with lasting := 4 } : Port).mustDown = false ∧ ({ upPort with lasting := 4 } : Port).canSpare = some 2
    ∧ ({ upPort with lasting := 4, spareBad := true } : Port).mustDown = true ∧ ({ upPort with lasting := 4, spareBad := true } : Port).canSpare = none
    ∧ ({ upPort with lasting := 6 } : Port).mustDown = true ∧ ({ upPort with lasting := 6 } : Port).canSpare = some 1
    ∧ world.lasting (world.window []) = false ∧ (4 : Nat) ≤ 4 ∧ (3 : Nat) < 4 ∧ world.lnk.noticed = [] ∧ (req0 true).id < { world with fresh := 4 : State }.fresh
    ∧ (linked upPort []).lnk.ethIsUp 1 = true ∧ ({ world.lnk with ethUp := [(0, false), (1, false)] }).ethIsUp 1 = false := by decide +kernel
theorem test_hyp_LinkEvents :
    ((linked upPort []).lnk.port 17).up = true ∧ ((linked upPort []).lnk.port 17).laneOff 4 = false
    ∧ ((linked { upPort with lasting := 1, lastingAt := [(0, 0)] } []).lnk.port 17).canSpare = some 0
    ∧ ((linked { upPort with state := 0, iso := true } []).lnk.port 17).iso = true
    ∧ (∀ q ∈ (linked upPort [req0 true]).lnk.reqs, ¬ (q.port = 17 ∧ q.waits = false))
    ∧ ((linked Port.reset []).lnk.port 17).state = 0 ∧ world.lnk.drain.toNat < 3 ∧ world.lnk.peerIso.getLsbD 143 = false
    ∧ (linked upPort [req0 false]).lnk.reqs.find? (fun x => x.id == 3) = some (req0 false)
    ∧ (req0 false).sentAt + world.lnk.tmo.toNat * 5544000 ≤ 1000 * 5544000
    ∧ (linked upPort [req0 true]).lnk.cutOff (req0 true).pa = false ∧ ((linked upPort [req0 true]).lnk.portFor (req0 true).pa).isSome = true
    ∧ 7 ∈ { world.lnk with synth := [7] }.synth ∧ world.backed 0 = true ∧ world.rowFree 0 = true ∧ 0 + 256 ≤ holeBase
    ∧ (Tab.getD { world.lnk with drop := [(15, { DropEntry.reset with valid := true })] }.drop 15 .reset).valid = true
    ∧ world.lnk.drain = 0 ∧ world.lnk.drainAt + world.lnk.drainTmo.toNat * 5544000 ≤ 2000 * 5544000
    ∧ (∀ j < 16, (Tab.getD ((List.range 16).map fun j => (j, { DropEntry.reset with valid := true })) j .reset).valid = true) := by decide +kernel
theorem test_hyp_Quiet : Spec.noneTo (linked upPort []) 143 ∧ ¬ Spec.noneTo (linked upPort [req0 false]) 143 ∧ Spec.Out (linked upPort [req0 false]) (req0 false) := by
  unfold Spec.noneTo Spec.Out; decide +kernel

/-- R330: a decision in the cycle of an EST takes the value before it, and two LAUNCH commits of a cycle enter by thread number. -/
theorem test_coincident :
    ({ world with cycles := 7 }.remDecided (({ fetchTask with estUs := 5, estCyc := 1 } : Task).setEst 9 0 7)) = 5
    ∧ ({ world with cycles := 8 }.remDecided (({ fetchTask with estUs := 5, estCyc := 1 } : Task).setEst 9 0 7)) = 9
    ∧ (enterChild { child with lid := 2, entered := (4, 3) } [{ child with entered := (4, 5) }]).map (·.lid) = [2, 1]
    ∧ (enterChild { child with lid := 2, entered := (5, 3) } [{ child with entered := (4, 5) }]).map (·.lid) = [1, 2] := by decide +kernel
/-! ### The admin queue, boot, identity, the host port, the step -/

def asked (op : Byte) : State :=
  { world with que := { world.que with taken := [{ num := 0, bytes := op :: List.replicate 63 0 }], slots := [(0, slot5 1 0)], created := [5] }
               mem := { queueMem enabled 0 15 0 with trRoot := [(1, true, 1)] }, boot := { world.boot with state := 2 } }
theorem test_hyp_Asked : ∀ op ∈ [1, 2, 3, 4, 5, 6, 7, 8, 9, 10, 11, 12, 13, 14, 255], Spec.Asked (asked (BitVec.ofNat 8 op)) (.ring 0) op := by
  intro op h
  refine ⟨by show (2 : BitVec 3) ≠ 3; decide, fun k hk => ⟨{ num := 0, bytes := BitVec.ofNat 8 op :: List.replicate 63 0 }, List.mem_singleton.mpr rfl, ?_, ?_⟩,
    fun _ h => by cases h⟩
  · cases hk; rfl
  · revert op; decide +kernel
theorem test_hyp_AdminQueue :
    ((3 : W32) - (asked 4).que.admRd).toNat < 2 ^ 31 ∧ 2 ^ 31 ≤ ((0x80000000 : W32) - (asked 4).que.admRd).toNat
    ∧ (asked 4).que.taken ≠ [] ∧ world.que.taken = [] ∧ world.que.completions = [] ∧ world.que.admWr = world.que.admRd
    ∧ ({ world.que with admWr := 3, admRd := 3 }).admWr.toNat < 2 ^ 31 ∧ 2 ^ 31 ≤ ({ world.que with admWr := 0x80000000, admRd := 0x80000000 }).admWr.toNat
    ∧ (Spec.completed (asked 4) (.ring 0) 4 0 0).length = 16 ∧ Spec.ringEntries 15 = 16 ∧ Spec.ringEntries 12 = 4096
    ∧ { world.lnk with drain := 4 }.drain = 4 ∧ { world.lnk with drain := 1 }.drain ≠ 0 := by decide +kernel
/-- QUEUE_CREATE's operands at their bounds, and one past each. -/
theorem test_hyp_QueueAndPlaneCommands :
    Spec.Exists (asked 1) 1 ∧ ¬ Spec.Exists (asked 1) 255 ∧ ¬ Spec.Exists (asked 1) 0 ∧ 5 ∈ (asked 2).que.created ∧ 5 ∉ (asked 2).que.dying
    ∧ (asked 2).que.slots.map (·.1) = [0] ∧ (asked 2).queueSlot 5 = some 0
    ∧ planeOk [] = false ∧ Tab.find (asked 7).que.planes 7 = none ∧ (Tab.find (asked 7).que.planes 0).isSome = true
    ∧ ((4 : Nat) ≤ 16 ∧ (16 : Nat) ≤ 16) ∧ (2047 : Nat) < 2048 := by unfold Spec.Exists; decide +kernel
/-- A `.plane` image of one bed and one block, and an Orangery that holds 1,024 planes of a whole quarter. -/
def planeHead : List Byte :=
  bytesOf 4 0x4E44504C ++ [1, 0, 1, 0] ++ List.replicate 136 0 ++ [0xC0, 0, 0, 0, 64, 0, 0, 0] ++ List.replicate 24 0 ++ [0, 1, 0, 0, 1, 0, 0, 0]
    ++ List.replicate 840 0
def planeBytes : List Byte := planeHead ++ List.replicate 65536 0
def stuffed : State :=
  { world with que := { world.que with planes := (List.range 1024).map fun k => (k + 1, { common := List.replicate 8 0 ++ [0x77] ++ [0], images := [] }) } }
theorem test_hyp_PlaneInstall : planeOk planeBytes = true ∧ Spec.Fits (asked 6) 7 planeBytes ∧ ¬ Spec.Fits stuffed 0 planeBytes := by
  unfold Spec.Fits; decide +kernel
theorem test_hyp_Resides : Spec.Resides (asked 7) 0 ∧ ¬ Spec.Resides (asked 7) 7 ∧ ¬ Spec.Launched (asked 2) 5
    ∧ Spec.Launched { asked 2 with tsk := { world.tsk with tasks := [(0, { fetchTask with launch := { fetchLaunch with src := .slot 0 5 } })] } } 5 := by
  refine ⟨⟨(0, fetchTask), List.mem_singleton.mpr rfl, { plane := 0, ctx := 0, used := 0, log := [], table := fetchPlane }, List.mem_singleton.mpr rfl, rfl⟩, ?_, ?_, ?_⟩
  · rintro ⟨x, hx, y, hy, h⟩; cases List.mem_singleton.mp hx; cases List.mem_singleton.mp hy; cases h
  · rintro ⟨x, hx, k, h⟩; cases List.mem_singleton.mp hx; cases h
  · exact ⟨_, List.mem_singleton.mpr rfl, 0, rfl⟩

def mapArgs (alloc : Bool) (pages : List Nat) : MapArgs :=
  { asid := 1, va := 0x10000, psize := 2 ^ 16, count := 1, alloc := alloc, from_ := .pergola, w := true, ad := false, fmta := 10, geom := 7, pa := 0x200000,
    pages := pages, tables := [] }
/-- A store to the page has not performed. -/
def inUse : State :=
  { asked 11 with mem := { (asked 11).mem with acc := [{ access (.st (memRec 3 0)) (fire 16 5 6) true .global with parts := [(0x100010, 8)] }] } }
theorem test_hyp_AddressSpaceCommands :
    (asked 8).freeRange 0x500000 65536 = true
    ∧ (asked 10).mappedAt 0x10000 ((asked 10).tableRoot 1) 0 3 4 = false ∧ (asked 10).mappedAt 0 ((asked 10).tableRoot 1) 0 3 4 = true
    ∧ (asked 10).nameable 0x200000 (2 ^ 16) = true ∧ ((asked 10).reachLeaf 1 0x10000 ((asked 10).tableRoot 1) 0 3 [] 4).isSome = true
    ∧ (asked 10).freeRange 0x600000 (2 ^ 16) = true
    ∧ ((asked 11).leafAt 0 ((asked 11).tableRoot 1) 0 3 4).isSome = true ∧ (asked 11).leafAt 0x20000 ((asked 11).tableRoot 1) 0 3 4 = none
    ∧ AllocFrom.pergola.holds 0x600000 = true ∧ (AllocFrom.outer 3).holds 0x4800000000 = false ∧ AllocFrom.either.holds 0x4800000000 = true
    ∧ (asked 9).eng.nmQueue = [] ∧ Spec.InvEnds (asked 11) 0 ∧ ¬ Spec.InvEnds inUse 8 ∧ Spec.MapReady (asked 10) (mapArgs false []) ∧ (asked 11).tablesFree 1 0x20000 65536 1 = true
    ∧ (∀ x ∈ (asked 9).tsk.tasks, x.2.asid ≠ 1) ∧ (asked 12).eng.rounds = []
    ∧ Spec.setRegOffset 0x7608 = true ∧ Spec.setRegOffset 0xA1F8 = true ∧ Spec.setRegOffset 0xA200 = false ∧ Spec.setRegOffset 0x6318 = false
    ∧ (mapArgs true []).pages.length < (mapArgs true []).count ∧ (mapArgs false []).pa % (mapArgs false []).psize = 0 := by
  unfold Spec.InvEnds Spec.MapReady; decide +kernel
theorem test_hyp_asid_reduces : ∃ q ∈ { asked 9 with eng := { world.eng with nmQueue := [(0, [{ nmCommand 0 with asid := 1 }])] } : State }.eng.nmQueue,
    ∃ c ∈ q.2, c.asid = 1 := by decide +kernel
theorem test_hyp_asid_busy : ∃ x ∈ { asked 9 with tsk := { world.tsk with tasks := [(0, { fetchTask with asid := 1 })] } : State }.tsk.tasks,
    x.2.asid = 1 := by decide +kernel

def booting (trying : Bool) (fell : Bool) : State :=
  { world with units := 60000000 * 5544000, boot := { world.boot with state := 1, trying := trying, fellBack := fell } }
theorem test_hyp_ResetAndBoot :
    (booting false false).boot.state = 1 ∧ (booting true false).boot.trying = true ∧ (booting true true).boot.fellBack = true
    ∧ (booting true false).boot.since + 60000000 * 5544000 ≤ (booting true false).units ∧ State.reset.boot.state = 0
    ∧ (booting true false).lnk.ethIsUp 0 = true ∧ max (booting true false).boot.since (10 ^ 20) = 10 ^ 20 ∧ (booting true false).boot.dhcpV4 = false
    ∧ { (booting true false).lnk with ethUp := [(0, false)] }.ethIsUp 0 = false ∧ { (booting true false).lnk with ethUp := [(0, false)] }.ethIsUp 1 = true
    ∧ (booting true false).boot.since + 5000000 * 5544000 ≤ (booting true false).units := by decide +kernel
def talking (phase n : Nat) (fin : Bool) : State :=
  { world with boot := { world.boot with state := 2, spdm := [(.doe, phase)], sessions := (List.range n).map fun k => { sid := k, t := .doe, finished := fin } } }
theorem test_hyp_IdentityMessages :
    (talking 3 4 false).boot.phase .doe = 3 ∧ (talking 0 0 false).boot.phase .doe < 3 ∧ (talking 3 0 false).boot.state ≠ 3
    ∧ 4 ≤ (talking 3 4 false).boot.sessions.length ∧ (talking 3 3 false).boot.sessions.length < 4
    ∧ (∃ x ∈ (talking 3 4 false).boot.sessions, x.sid = 3 ∧ x.t = .doe ∧ x.finished = false)
    ∧ (∃ x ∈ (talking 3 4 true).boot.sessions, x.sid = 3 ∧ x.t = .doe ∧ x.finished = true) := by decide +kernel
theorem test_hyp_HostPortAndRegisters :
    (0 : Nat) + 0x7FFFFFFFF8 + 8 ≤ holeBase ∧ holeBase ≤ 0x8000000000 ∧ (asked 1).boot.state ≠ 3 ∧ (booting true true).boot.fellBack = true
    ∧ { world.boot with state := 3 }.state = 3 ∧ { world.fuse with debugEnable := true }.debugEnable = true ∧ 0x3FFFFF8 + 8 ≤ 0x4000000
    ∧ world.rowFree 0x7FFFFFFFFF = true ∧ world.backed 0x7FFFFFFFFF = true := by decide +kernel

def ready (f : Firing) (credit : Nat) : State :=
  { world with cycles := 1, fab := { world.fab with store := addRec, ctxs := [(0, { ownedCtx with ready := [f], credit := credit })] } }
theorem test_hyp_SlotFree : Spec.SlotFree (ready (fire 1 2 3) 1) 0 ∧ Spec.inTurn (ready (fire 1 2 3) 1) 0 0 = 0
    ∧ decode (Spec.recordBytes (ready (fire 1 2 3) 1) 0 0 0) = .ok (.add (recF 4)) := by unfold Spec.SlotFree; decide +kernel
/-- A slot that an array takes, one in replay, and a firing that replay has found again. -/
theorem test_hyp_NoSlot :
    ({ ready (fire 1 2 3) 1 with fab := { (ready (fire 1 2 3) 1).fab with serving := [(0, [1])] } }).serves 0 = true
    ∧ ({ ready (fire 1 2 3) 1 with fab := { (ready (fire 1 2 3) 1).fab with errs := [(0, { ElemErr.new with replay := true })] } }).replaying 0 = true
    ∧ Spec.Found { ready (fire 1 2 3) 1 with fab := { (ready (fire 1 2 3) 1).fab with issued := [(0, [(0, fire 1 2 3)])] } } 0 (fire 1 2 3) = true
    ∧ Spec.Found (ready (fire 1 2 3) 1) 0 (fire 1 2 3) = false ∧ world.tap.buf = [] := by decide +kernel
/-- Its context can issue, with credit 1 and with none. -/
theorem test_hyp_CanIssue (credit : Nat) : Spec.CanIssue (ready (fire 1 2 3) credit) 0 0 (fire 1 2 3) :=
  ⟨rfl, rfl, by show 0 < 1; omega, fun _ _ _ _ => Nat.zero_le _⟩
theorem test_hyp_Undecodable : ∃ x, decode (Spec.recordBytes world 0 0 0) = .error x := ⟨.emptyNode, by decide +kernel⟩
theorem test_hyp_DecodeAndEncodeAgree : (Instr.add (recF 4)).wf = true ∧ (Instr.add (recF 4)).node?.isSome = true
    ∧ Instr.packageReset.node? = none := by decide +kernel
theorem test_hyp_Invariants : State.reset.memWf = true ∧ (match step State.reset with | .next t => t.memWf | _ => false) = true := by decide +kernel
theorem test_hyp_SettingsWithin : State.reset.settings.Within := by constructor <;> decide +kernel


/-! ### Witnesses for waits, walks, watches and forms that are kept -/

/-- A fused sum of zero, with a product and an addend that are zeros of unlike signs, and of one sign. -/
theorem test_hyp_fused_zero : Spec.val (.fin false 0 0) * Spec.val (.fin true 1 0) + Spec.val (.fin false 0 0) = 0
    ∧ Spec.val (.fin false 1 0) * Spec.val (.fin true 1 0) + Spec.val (.fin false 1 0) = 0 := by norm_num [Spec.val, Spec.rat]
/-- QSCALE's amax, its band scale, and one of no good sign. -/
theorem test_hyp_scales : Spec.fltLt (f32 0x3F800000) (.fin false 0 0) = false ∧ Spec.fltLt (f32 mkNaN) (.fin false 0 0) = false
    ∧ decodeF 2 0x3F80 = .fin false 0x80 (-7) ∧ decodeF 2 0xBF80 = .fin true 0x80 (-7)
    ∧ ({ recF 0 with lit32 := 1 } : NodeRec).l % 4 = 1 ∧ ({ recF 0 with lit32 := 2 } : NodeRec).l % 4 = 2
    ∧ ({ recF 0 with aux := 8 } : NodeRec).aux.toNat.testBit 3 = true := by decide +kernel

/-- No translation at hand, and the tables' banks open at another row: a walk waits. -/
def barred (s : State) : State := let s := closedRows s; { s with mem := { s.mem with tlb := [] } }
theorem test_hyp_walk_waits :
    (barred (mapped 0 [] (fire 8 2 3))).walkReady ((barred (mapped 0 [] (fire 8 2 3))).memPort 0) 0 8 true = false
    ∧ (memRec 3 0).space = 0 ∧ Spec.address (memRec 3 0) (at0 (fire 8 2 3)) % 8 = 0
    ∧ ¬ Spec.WalksOpen (barred (mapped 7 [] (fire 64 16 3))) (at0 (fire 64 16 3)) [(64, 1)] false
    ∧ Spec.WalksOpen (mapped 7 [] (fire 64 16 3)) (at0 (fire 64 16 3)) [(64, 1), (128, 16)] true := by
  unfold Spec.WalksOpen; decide +kernel
/-- Memory of one bank fewer, and an access whose last bytes lie past it. -/
def shrunk (x : Access) : State := { world with mem := { scratchMem with liveMap := [(255, BitVec.ofNat 64 (2 ^ 63))], acc := [x] } }
def beyond : Access := { access (.st (memRec 3 0)) (fire 16 5 6) true .global with parts := [(16383 * 0x800000, 8)] }
theorem test_hyp_Beyond : Spec.Beyond (shrunk beyond) beyond
    ∧ ¬ Spec.Beyond (waiting (.st (memRec 3 2)) true .scratch) (access (.st (memRec 3 2)) (fire 16 5 6) true .scratch)
    ∧ Spec.MayGo (shrunk beyond) 7 beyond := by unfold Spec.Beyond Spec.MayGo; decide +kernel
def ldAccess : Access := access (.ld (memRec 3 2)) (fire 16 5 6) false .scratch
theorem test_hyp_MayBind : Spec.MayBind (waiting (.ld (memRec 3 2)) false .scratch) 7 ldAccess
    ∧ (∀ y ∈ ldAccess.parts, 0 < y.2 ∧ ∀ z ∈ ldAccess.parts, y.1 / 64 = z.1 / 64 ∧ (y.1 + y.2 - 1) / 64 = z.1 / 64)
    ∧ Spec.l1Line (waiting (.ld (memRec 3 2)) false .scratch) ldAccess = none
    ∧ Spec.Marked { waiting (.ld (memRec 3 2)) false .scratch with mem := { scratchMem with scratchPois := [(1, true)] } } .scratch 16 8
    ∧ ¬ Spec.Marked (waiting (.ld (memRec 3 2)) false .scratch) .scratch 16 8 := by
  refine ⟨⟨?_, coherent_of_no_line _ rfl (by decide +kernel), ?_⟩, ?_⟩
  · unfold Spec.MayGo; decide +kernel
  · unfold Spec.Beyond; decide +kernel
  · refine ⟨by decide +kernel, by decide +kernel, ⟨by decide +kernel, 1, by decide +kernel⟩, ?_⟩
    rintro ⟨-, p, h1, h2, h3⟩
    have h : p = 1 := by omega
    subst h; exact absurd h3 (by decide +kernel)
/-- A load at REGION scope whose line the region L1 holds. -/
def cachedWorld : State :=
  let s := mapped 0 [] (fire 8 2 3)
  { s with fab := { s.fab with store := [(0x380, 0x20)] }, mem := { s.mem with l1 := [(l1Key 0 0 (0x100000 / 64), granule, 0)] } }
theorem test_hyp_l1Line : Spec.l1Line cachedWorld { access (.ld (memRec 3 0)) (fire 8 2 3) false .global with parts := [(0x100008, 8)] } = some granule := by
  decide +kernel
def ldbRec : NodeRec := { recV 0 with aux := 0 }
def ldbAccess : Access := { access (.ldb ldbRec) (fire 64 16 3) false .scratch with attr := 7, parts := [(64, 8), (72, 2)], todo := 3 }
theorem test_hyp_ldb_binds : ldbAccess.opc = 0x94 ∧ ldbAccess.node.f ≤ 2 ∧ ldbAccess.attr % 16 = 7
    ∧ ldbAccess.todo = 2 ^ ldbAccess.parts.length - 1
    ∧ ({ world with mem := { scratchMem with acc := [ldbAccess] } } : State).firstOfNode ldbAccess = true := by decide +kernel
/-- LDB's ranges, found and past the page; a range on a page of another format. -/
theorem test_hyp_block_ranges :
    ((mapped 7 [] (fire 64 16 3)).locateGlobal ((mapped 7 [] (fire 64 16 3)).memPort 0) 0 64 8 false).1.toOption = some (⟨.global, 0x100040⟩, 7)
    ∧ (7 : Nat) ≠ 8 ∧ ((mapped 7 [] (fire 64 16 3)).locateAll (at0 (fire 64 16 3)) 0 64 7 false [(0x10000, 8)]).1.isOk = false
    ∧ (blockFmt 7).isSome = true ∧ ((mapped 8 [] (fire 64 16 3)).locateAll (at0 (fire 64 16 3)) 0 64 8 true [(64, 16), (80, 16), (96, 16), (112, 16)]).1.isOk = true
    ∧ (∀ b ∈ Spec.blockForms, 0 % 16 ≠ b.1) := by decide +kernel
theorem test_hyp_Leaves : Spec.Leaves world (access (.ldb ldbRec) (fire 64 16 3) false .scratch)
    { world with fresh := world.fresh + 1, mem := { world.mem with acc := world.mem.acc ++ [access (.ldb ldbRec) (fire 64 16 3) false .scratch] } } :=
  ⟨rfl, rfl, fun _ => rfl, rfl, rfl, rfl⟩

/-- A WAITA in global memory; its word found, not found, and behind a walk that waits; and in a peer's window. -/
theorem test_hyp_waita_issue :
    (0x44 % sizeBytes (memRec 3 0).f ≠ 0) ∧ (mapped 0 [] (fire 8 2 3)).mem.watches = []
    ∧ ((mapped 0 [] (fire 0x10000 2 3)).locate (at0 (fire 0x10000 2 3)) 0 0x10000 8 false).1.isOk = false
    ∧ ¬ Spec.WalksOpen (barred (mapped 0 [] (fire 8 2 3))) (at0 (fire 8 2 3)) [(8, 1)] false := by unfold Spec.WalksOpen; decide +kernel
/-- A watch whose read is due, at and below its threshold; one that a WAKEA has ended; one whose time is over. -/
def dueWatch : Watch := { watch with due := true }
theorem test_hyp_watch_reads :
    Spec.Reads dueWatch ∧ ¬ Spec.Reads { watch with dirty := false } ∧ Spec.Reads { watch with woken := some 9 } ∧ Spec.Reads { watch with expired := true }
    ∧ ((watching dueWatch id).locate dueWatch.iss 2 16 8 false).1.toOption = some (⟨.scratch, 16⟩, 0)
    ∧ (watching dueWatch id).watchOpen dueWatch = true ∧ (2 : Nat) ≠ 0
    ∧ Sys2Proof.ofBytes ((List.range 8).map fun j => Spec.byteOf (watching dueWatch id) .scratch (16 + j)) = 4
    ∧ ({ watch with first := 0 } : Watch).first = 0 ∧ (watching dueWatch id).mayPerform dueWatch.access = true
    ∧ dueWatch.lastRead + 1024 ≤ (watching dueWatch id).cycles := by unfold Spec.Reads; decide +kernel
/-- A PREF that may perform: in local memory, whose row is free, and in a peer's window. -/
def prefHeld (s : State) : State := Spec.kept s (at0 (fire 64 0 0)) (.pref (memRec 3 0))
def prefOp (s : State) : HeldOp := { id := s.fresh, instr := .pref (memRec 3 0), iss := at0 (fire 64 0 0), since := s.cycles }
theorem test_hyp_pref :
    ((prefHeld (mapped 0 [] (fire 64 0 0))).act? 0).isSome = true ∧ (prefHeld (mapped 0 [] (fire 64 0 0))).othersFired 0 0 = true
    ∧ Spec.WalksOpen (prefHeld (mapped 0 [] (fire 64 0 0))) (at0 (fire 64 0 0)) [(64, 1)] false
    ∧ ((prefHeld (mapped 0 [] (fire 64 0 0))).locateGlobal ((mapped 0 [] (fire 64 0 0)).memPort 0) 0 64 1 false).1.toOption = some (⟨.global, 0x100040⟩, 0)
    ∧ (prefHeld (mapped 0 [] (fire 64 0 0))).orderOk { (prefOp (mapped 0 [] (fire 64 0 0))).access with kind := .global, parts := [(0x100040, 64)] } = true
    ∧ (prefHeld (mapped 0 [] (fire 64 0 0))).rowFree 0x100040 = true
    ∧ ((prefHeld (peered (fire 64 0 0))).locateGlobal ((peered (fire 64 0 0)).memPort 0) 0 64 1 false).1.toOption = some (⟨.domain, 0x808000000040⟩, 0)
    ∧ 0x808000000040 < launchBase ∧ (peered (fire 64 0 0)).lnk.cutOff 0x808000000040 = false
    ∧ (fire 64 0 0).isNull (memRec 3 0) = false ∧ (fire 64 0 0).poison = none ∧ nullA.isNull (memRec 3 0) = true := by
  unfold Spec.WalksOpen; decide +kernel

/-! ### Witnesses for groups, commits, system registers -/

def gbarRec : NodeRec := { recF 0 with lit32 := 255 }
def grouped (g : Group) (held : List HeldOp) : State :=
  { here (fire 1 2 3) with
    fab := { world.fab with held := held }
    tsk := { world.tsk with tasks := [(0, { fetchTask with groups := [(255, g)], reserve := [7] })] } }
def gbarHeld : HeldOp := { id := 6, instr := .gbar gbarRec, iss := at0 (fire 1 2 3), since := 0 }
def g07 : Group := { members := [0, 7], late := [9], arrived := [(7, 6)], leaving := [], gen := 4 }
theorem test_hyp_Group :
    ¬ Spec.In Spec.noGroup 0 ∧ Spec.noGroup.arrived = [] ∧ ¬ Spec.In { g07 with leaving := [0] } 0 ∧ Spec.In g07 0 ∧ ¬ Spec.Came g07 0 ∧ Spec.Came g07 7
    ∧ g07.arrived.length + 1 = g07.members.length ∧ { g07 with arrived := [] }.arrived.length + 1 ≠ g07.members.length
    ∧ (∀ h ∈ (grouped g07 [gbarHeld]).fab.held, ∃ y ∈ g07.arrived, y.2 = h.id) := by unfold Spec.In Spec.Came; decide +kernel
theorem test_hyp_GbarWaits : Spec.GbarWaits (grouped g07 [gbarHeld]) 0 255 gbarHeld := ⟨gbarRec, rfl, by decide +kernel, by decide +kernel⟩
/-- A group that a member leaves, and one that a member leaves after it has arrived. -/
theorem test_hyp_leaves : ({ g07 with arrived := [], leaving := [7] } : Group).arrived = []
    ∧ ({ g07 with members := [0, 7, 8], leaving := [7] } : Group).arrived.length ≠ (Spec.afterLeaves { g07 with members := [0, 7, 8], leaving := [7] }).members.length
    ∧ (grouped { g07 with leaving := [7] } []).tsk.tasks.map (·.1) = [0] := by decide +kernel
/-- A commit whose thread's next activation has a GBAR waiting. -/
def nextGbar : State :=
  let h := { gbarHeld with iss := at0 { fire 1 2 3 with aid := 1 } }
  let s := committing (.block 0 0) [] { fetchThread with acts := [0, 1] }
  { s with fab := { s.fab with held := [h] }
           tsk := { s.tsk with acts := s.tsk.acts ++ [(1, { fetchAct with iter := 1 })]
                               tasks := s.tsk.tasks.map fun x => (x.1, { x.2 with groups := [(255, { g07 with arrived := [], members := [0, 7] })] }) } }
theorem test_hyp_CommitGbar :
    Spec.Commits nextGbar 0 { fetchThread with acts := [0, 1] } 0 [1]
      { fetchAct with branch := some (.block 0 0), effects := [], fired := branchFired, carry := [(1, some 5)] }
    ∧ (nextGbar.fab.held.filter fun y => decide (([1] : List Nat).head? = some y.iss.f.aid)).length = 1
    ∧ (nextGbar.act? 1).map (fun c => (c.thread, c.tid)) = some (0, 0) ∧ ((nextGbar.task? 0).map fun k => (k.group 255).members) = some [0, 7]
    ∧ (∀ h ∈ (committing .exit [.yield] fetchThread).fab.held, ([] : List Nat).head? ≠ some h.iss.f.aid) := by
  unfold Spec.Commits; decide +kernel
/-- The word at COMPL of a packet of KIND 2 lies in local memory; a packet without one. -/
theorem test_hyp_AddsWord : foundOk (let y := (mapped 0 [] (fire 0 0 0)).placeVa 0 0x40 8 true; (match y.1 with | .ok p => .ok p | .error t => .fault t, y.2))
      = some ⟨.global, 0x100040⟩
    ∧ ({ bytes := [2] ++ List.replicate 127 0, src := .child 0, prio := 0 } : Launch).kind = 2
    ∧ ({ bytes := [2] ++ List.replicate 127 0, src := .child 0, prio := 0 } : Launch).compl = 0
    ∧ ({ bytes := [2] ++ List.replicate 23 0 ++ bytesOf 8 0x40 ++ List.replicate 96 0, src := .child 0, prio := 0 } : Launch).compl = 0x40 := by decide +kernel
/-- A launch packet with an entry more, and one whose rest no page holds. -/
theorem test_hyp_LaunchPacket_more :
    bytesAt longPacket 10 1 = 1
    ∧ rdOk (reads (goodWorld (fire 64 0 0)) (.launch (recF 0)) (64 + 128) 128) = some (List.replicate 128 0, none)
    ∧ (rdFault (reads (mapped 0 [] (fire 0 0 0)) (.launch (recF 0)) 0x10000 128)).isSome = true := by decide +kernel
/-- A factorising context; a context without the bit; a task that owns slice 63 and may write its register. -/
def owner63 (p : WayPart) : State := { here (fire 4 2 3) with mem := { world.mem with wayPart := [(63, p)] } }
theorem test_hyp_system_registers :
    Spec.fctBit (fctWorld .reset (fire 0 0 0)) (at0 (fire 0 0 0)) = true ∧ Spec.fctBit (here (fire 0 2 3)) (at0 (fire 0 2 3)) = false
    ∧ (fctWorld .reset (fire 0 0 0)).bed (bedOf 0) = .reset ∧ FctBed.reset.next < 2 ^ 8
    ∧ (∀ e ∈ Spec.writtenFct, ((fctWorld .reset (fire 0 0 0)).sysReg (at0 (fire 0 0 0)) e.1).isSome = true)
    ∧ 0x1400 ≤ 0x143F ∧ 0x143F < 0x1440 ∧ ((owner63 { WayPart.reset with taskWr := true }).mem.wp 63).taskWr = true
    ∧ ((owner63 { WayPart.reset with taskWr := true }).mem.wp 63).spasid.toNat = (owner63 .reset).issAsid (at0 (fire 4 2 3))
    ∧ ((owner63 .reset).mem.wp 63).taskWr = false ∧ (owner63 .reset).isOldest 0 = true
    ∧ ({ recF 3 with lit32 := BitVec.ofNat 32 (2 ^ 24 + 0x143F) } : NodeRec).l % 2 ^ 24 = 0x143F := by decide +kernel

/-! ### Witnesses for streams, copies and near memory -/

def flagDesc (flag : Nat) : List Byte := descriptor.take 48 ++ bytesOf 8 flag ++ List.replicate 8 0
theorem test_hyp_sbind_flag :
    Sys2Proof.ofBytes ((descriptor.drop 48).take 8) = 0 ∧ Sys2Proof.ofBytes (((flagDesc 0x80).drop 48).take 8) = 0x80 ∧ descOk (flagDesc 0x80) false = true
    ∧ ¬ Spec.WalksOpen (barred (streaming (binding false) 0)) (at0 (fire 64 0 0)) [(0x80, 8)] true
    ∧ Spec.WalksOpen (streaming (binding false) 0) (at0 (fire 64 0 0)) [(0x80, 8)] true
    ∧ ((streaming (binding false) 0).locateGlobal ((streaming (binding false) 0).memPort 0) 0 0x80 8 true).1.isOk = true
    ∧ ((streaming (binding false) 0).locateGlobal ((streaming (binding false) 0).memPort 0) 0 0x10000 8 true).1.isOk = false
    ∧ (∀ b ∈ (streaming (binding false) 0).eng.bindings, b.bid ≠ (streaming (binding false) 0).fresh)
    ∧ (Spec.onPort (streaming (binding false) 0) 0 0 0).length < 4
    ∧ 4 ≤ ((Spec.onPort { streaming (binding false) 0 with eng := { world.eng with bindings := List.replicate 4 (binding false) } } 0 0 0).filter
        fun y => y.tell.isNone && !y.released).length
    ∧ (streaming (binding false) 0).issTask (at0 (fire 64 0 0)) = some (0, (((streaming (binding false) 0).task? 0).getD fetchTask)) := by
  unfold Spec.WalksOpen; decide +kernel
theorem test_hyp_ports : (binding false).stop = none ∧ (streaming (binding false) 0).portPlace (binding false) 0 3 = true ∧ blockFmt 0 = none
    ∧ (streaming (binding false) 0).inFifo (binding false) = 0
    ∧ (arrayWorld .new [(granule, false, 9)]).inFifo { binding false with bid := 9 } = 1
    ∧ (streaming (binding true) 0).mayStampAt 0 .global 0x100000 = true := by decide +kernel
theorem test_hyp_copy_turns :
    (copying copy).copyTurn copy true = true ∧ (copying { copy with fetched := [(0, some (granule, []))], rd := 1 }).copyTurn
        { copy with fetched := [(0, some (granule, []))], rd := 1 } false = true
    ∧ Tab.find { (copying copy).eng with copyTurn := [(1, 3, 1)] }.copyTurn (copy.elem / 4096 * 2 + 1) = some (3, (copying copy).cycles)
    ∧ (copying { copy with cw := 0x50 }).mayWriteVa 0 0x50 8 = true ∧ (Spec.kept (copying copy) (at0 (fire 64 0 0)) (.xcopy rec0)).mayTake
        { id := (copying copy).fresh, instr := .xcopy rec0, iss := at0 (fire 64 0 0), since := (copying copy).cycles } = true := by decide +kernel
/-- A command of one row of 64 bytes, before and after its four parts are read. -/
def nmFull : NmCmd := { nmCommand 0 with packet := BitVec.ofNat 512 (2 ^ 438) }
def nmRead : NmCmd := { nmFull with got := (List.range 4).map fun k => (k, [(List.replicate 16 0, false)]) }
def nmWorld (c : NmCmd) : State := { world with eng := { world.eng with nmQueue := [(0, [c])] } }
theorem test_hyp_near_reads : nmFull.readAll = false ∧ nmCount nmFull.packet.toNat = 1 ∧ nmFlag nmFull.packet.toNat = 0 ∧ nmRead.readAll = true
    ∧ ((Tab.getD (nmWorld nmRead).eng.nmQueue 0 []).take 32)[0]? = some nmRead ∧ (nmWorld nmRead).nmReady nmRead = true
    ∧ nmFull.reads 0 = [] ∧ (3 : Nat) < 4 * nmFull.rowg := by decide +kernel

/-! ### Witnesses for queues, arrays, factorising groups, trees -/

theorem test_hyp_queue_waits :
    (closedRows (queueing enabled 0 15 0)).descReady 5 = false ∧ (queueing enabled 0 15 0).descReady 5 = true
    ∧ ({ queueing enabled 0 15 0 with turns := [{ space := 3, addr := 5, len := 1, rank := 99 }] } : State).turnOk 3 5 1 (at0 (fire 1 0 0)).rank = false
    ∧ (queueing enabled 0 15 0).turnOk 3 5 1 (at0 (fire 1 0 0)).rank = true ∧ (slotted launchHead 1).mayAdvance 5 = true
    ∧ (closedRows (slotted launchHead 1)).mayAdvance 5 = false ∧ ((slotted launchHead 1).slot 0).leaving = false
    ∧ (slotted launchHead 1).slotFetching 0 = false
    ∧ ({ slotted launchHead 1 with lnk := { world.lnk with fetches := [{ reader := .slot 0, req := 1, pa := 0, size := 128, ans := none }] } } : State).slotFetching 0
        = true ∧ (offering.slot 0).offer ≠ none := by decide +kernel
def argDone (c : Nat) : State := let s := argWorld c []; { s with fab := { s.fab with held := [{ argHeld with done := some 1 }] } }
theorem test_hyp_argw_arrives : ({ argHeld with done := some 1 } : HeldOp).done = some 1 ∧ (argDone 3).cycles = 1 + 2 + hops 0 0 ∧ (argDone 2).cycles < 1 + 2 + hops 0 0
    ∧ argHeld.done = none ∧ ((argDone 3).issTask argHeld.iss).isSome = true ∧ ((argDone 3).recAt 0 0 0).isSome = true := by decide +kernel

def mrelHeld : HeldOp := { id := 6, instr := .mrel rec0, iss := at0 { fire 0 0 0 with node := 0 }, since := 0 }
theorem test_hyp_FirstOfMatrix : Spec.FirstOfMatrix (arrayWorld .new []) (at0 (fire 1 0 0)) := by
  have h : (arrayWorld .new []).fab.held = [] := by decide +kernel
  intro y hy; rw [h] at hy; cases hy
theorem test_hyp_LaterOfMatrix : ∃ y ∈ ({ arrayWorld .new [] with fab := { (arrayWorld .new []).fab with held := [mrelHeld] } } : State).fab.held, ∃ r',
    (y.instr = .mmac r' ∨ y.instr = .mrel r') ∧ y.iss.f.aid = 0 ∧ y.iss.f.node < 1 :=
  ⟨mrelHeld, List.mem_singleton.mpr rfl, rec0, .inr rfl, rfl, by decide⟩
/-- Both buses of an element are free; both are taken; and a latch of the column bus holds a token while the pending list is full or not. -/
def busesTaken : State := { arrayWorld { ArraySt.new with loads := [wload] } [(granule, false, 0)] with busy := [busyBus 0 false 0, busyBus 0 true 0] }
def onColumn (n : Nat) : State :=
  let s := onBus 1
  { s with fab := { s.fab with latches := [(6, { tok := busTok, since := 4 })]
                               ctxs := [(0, { CtxSt.new with owner := some 0, waiting := List.replicate n (fire 1 2 3) })] } }
theorem test_hyp_BusFree :
    Spec.BusFree (arrayWorld { ArraySt.new with loads := [wload] } [(granule, false, 0)]) 0 0 0 0 false true
    ∧ ¬ Spec.BusFree busesTaken 0 0 0 0 false true ∧ ¬ Spec.BusFree busesTaken 0 0 0 0 false false
    ∧ Spec.Arrives (onColumn 0) 0 6 busTok { tok := busTok, since := 4 } ∧ (onColumn 0).pendingIn 0 0 = 0 ∧ 32 ≤ (onColumn 32).pendingIn 0 0
    ∧ Spec.Arrives (onColumn 32) 0 6 busTok { tok := busTok, since := 4 } := by
  refine ⟨⟨by decide +kernel, by decide +kernel, fun v h => ?_⟩, fun h => absurd h.1 (by decide +kernel), fun h => absurd h.1 (by decide +kernel), ?_⟩
  · have hn : Tab.find (arrayWorld { ArraySt.new with loads := [wload] } [(granule, false, 0)]).fab.latches 5 = none := by decide +kernel
    rw [show 0 * 8 + 5 + (if true = true then 0 else 1) = 5 from rfl, hn] at h; cases h
  · unfold Spec.Arrives; decide +kernel

/-- Beds 0 and 8 in one group, each with its FCTS, in its last column and with SINGTOL 0. -/
def memberBed (step : Nat) : FctBed := { actBed with group := some (0, 2), next := 127, base := 0, step := some (step, at0 (fire 0 0 0)) }
def groupWorld (a b : FctBed) : State := { fctWorld a (fire 0 0 0) with eng := { world.eng with beds := [(0, a), (8, b)] } }
theorem test_hyp_GroupSteps : Spec.GroupSteps (groupWorld (memberBed 1) (memberBed 1)) [0, 8] 1 127 (fun _ => at0 (fire 0 0 0)) := by
  refine ⟨⟨by decide, by decide, by decide, ?_⟩, by decide, by decide, by decide +kernel, List.Perm.refl _, ?_⟩
  · decide +kernel
  · decide +kernel
theorem test_hyp_Grouped : Spec.Grouped (groupWorld (memberBed 1) (memberBed 2)) [0, 8] (fun m => (m / 8 + 1, at0 (fire 0 0 0)))
    ∧ (memberBed 2).step.map (·.1) ≠ (memberBed 1).step.map (·.1) := ⟨⟨by decide, by decide, by decide, by decide +kernel⟩, by decide⟩
theorem test_hyp_group_waits : (∃ m ∈ bedMembers ((groupWorld (memberBed 1) { memberBed 1 with step := none }).bed 0) 0,
      ((groupWorld (memberBed 1) { memberBed 1 with step := none }).bed m).step = none)
    ∧ (∀ m ∈ bedMembers ((groupWorld { memberBed 1 with step := none } { memberBed 1 with step := none }).bed 0) 0,
      ((groupWorld { memberBed 1 with step := none } { memberBed 1 with step := none }).bed m).step = none)
    ∧ ({ actBed with next := 128 } : FctBed).next = 128 ∧ actBed.group = none := by decide +kernel
theorem test_hyp_GroupWins : Spec.GroupWins (groupWorld (memberBed 1) (memberBed 1)) [0, 8] 127 0 127
    ∧ Spec.exchanged (groupWorld (memberBed 1) (memberBed 1)) [0, 8] 127 0 127 0 (Spec.pivotRow (groupWorld (memberBed 1) (memberBed 1)) [0, 8] 127 0 127) 127 = 0
    ∧ Spec.PivotIs { memberBed 1 with smode := true, singtol := 1 } 0 0x00800000 := by
  refine ⟨⟨by decide, by decide, fun _ => by decide, ?_⟩, by decide +kernel, .inr (by decide +kernel)⟩
  have h : ∀ g' < 2, ∀ j < 128, Spec.proposal (groupWorld (memberBed 1) (memberBed 1)) [0, 8] 127 g' j = 1 := by decide +kernel
  intro g' hg j hj h0
  rw [h g' hg j hj, h 0 (by decide) 127 (by decide)]
  refine ⟨Nat.le_refl _, fun hc => ?_⟩
  rcases hc with hc | ⟨rfl, hc⟩
  · omega
  · have := h0 rfl; omega
/-- FCTN of bed 0 for a group of two from there, held since a cycle ago, alone; and for three beds, which the task does not have. -/
def fctnHeld (n : BitVec 32) : HeldOp := { id := 6, instr := .fctn { rec0 with lit32 := n }, iss := at0 (fire 0 0 0), since := 0 }
def fctnWorld (h : HeldOp) (b : FctBed) : State :=
  let s := groupWorld actBed b
  { s with cycles := 9, fab := { s.fab with held := [h], ctxs := (bedElems 0 ++ bedElems 8).map fun e => (e * 4, { CtxSt.new with owner := some 0 })
                                            store := (bedElems 0 ++ bedElems 8).map fun e => (e * 4096 + 0x380, 8) }
           tsk := { s.tsk with tasks := [(0, { fetchTask with hb := 2 })] } }
theorem test_hyp_fctn :
    Spec.Waits (fctnWorld (fctnHeld 2) actBed) (fctnHeld 2) ∧ (fctnHeld 2).since < (fctnWorld (fctnHeld 2) actBed).cycles
    ∧ (fctnWorld (fctnHeld 2) actBed).groupOk (at0 (fire 0 0 0)) 2 0 = some [0, 8]
    ∧ (fctnWorld (fctnHeld 3) actBed).groupOk (at0 (fire 0 0 0)) 3 0 = none ∧ actBed.joining = none
    ∧ ({ actBed with joining := some (2, 1, at0 (fire 0 0 0)) } : FctBed).joining.isSome = true := by unfold Spec.Waits; decide +kernel

/-- A REDWAIT token that has its round, and one that takes the least free one. -/
def pairedTree : TreeSt := { TreeSt.new with paired := [{ node := 0, aid := 0, tok := 0, round := 3 }] }
theorem test_hyp_Pairs : Spec.Pairs pairedTree 0 (at0 (fire 1 0 0)) 3 pairedTree := .inl ⟨_, rfl, rfl, rfl, rfl, rfl⟩
theorem test_hyp_Pairs_new : Spec.Pairs { TreeSt.new with back := [(0, [2])], waitCount := [(0, 5)] } 0 (at0 (fire 1 0 0)) 2
    { TreeSt.new with back := [(0, [])], waitCount := [(0, 5)], paired := [{ node := 0, aid := 0, tok := 0, round := 2 }] } :=
  .inr ⟨rfl, by decide, by decide, by decide, rfl, rfl, rfl⟩
theorem test_hyp_Whole : Spec.Whole (collWorld [(63, grp63)] [round1]) round1 ∧ ¬ Spec.Whole (collWorld [(63, grp63)] [{ round1 with broken := true }]) { round1 with broken := true }
    ∧ ¬ Spec.Whole (collWorld [(63, grp63)] [round1, { round1 with rid := 3, status := some 1 }]) round1 := by unfold Spec.Whole; decide +kernel
theorem test_hyp_coll_walks : bytesAt collDesc 20 1 ≠ 1 ∧ bytesAt collDesc 20 1 = 3 ∧ bytesAt collDesc 32 8 = 0
    ∧ (collWorld [(63, grp63)] []).rangeWalks 0 0 64 = true ∧ (collWorld [(63, grp63)] []).rangeWalks 0 0x400 64 = true
    ∧ (collWorld [(63, grp63)] []).rangeWalks 0 0 0 = true := by decide +kernel

/-! ### Witnesses for tokens, the scheduler, probes, links, the admin queue, the step -/

def leavingLatch (left : Option Nat) : State :=
  inLatch (tokAt 0 5) { ownedCtx with latch := some { aid := 0, node := 0, beats := [.both (.scalar 1) 0 5, .both (.scalar 1) 5 9], readyAt := 3, waits := false,
                                                      left := left } } addRec
theorem test_hyp_left : ((leavingLatch (some 4)).ctx 0 0).latch.bind (·.left) = some 4 ∧ 4 < (leavingLatch (some 4)).cycles
    ∧ ((leavingLatch (some 5)).ctx 0 0).latch.bind (·.left) = some (leavingLatch (some 5)).cycles
    ∧ 32 ≤ (inLatch (tokAt 0 5) { ownedCtx with waiting := List.replicate 32 (fire 1 2 3) } addRec).pendingIn 0 0 := by decide +kernel
theorem test_hyp_dispatch : offering.mayAdvance 5 = true ∧ (closedRows offering).mayAdvance 5 = false ∧ (closedRows offering).nextSource.map (·.1) = some 0
    ∧ ({ world with units := 554400 } : State).nextSource = none ∧ world.sch.lastTick + 554400 ≤ ({ world with units := 554400 } : State).units
    ∧ world.units < world.sch.lastTick + 554400 := by decide +kernel
/-- The bank of one address is open at another row. -/
def shutAt (a : Nat) (s : State) : State := { s with mem := { s.mem with banks := [(s.mem.homeBank a, { open_ := true, row := 4095, a := 0, p := 0 })] } }
theorem test_hyp_poolRange : (shutAt 0 world).rangeFree 0 65536 = false ∧ world.rangeFree 0 65536 = true ∧ fetchPlane.nblk ≤ 0
    ∧ world.plane? 9 = none := by decide +kernel

/-- The context that is stuck has been counted as blocked for the delay, or not; its own probe is on its way; probes that come too early, home, to
a unit of a lower number, and on. -/
def counted (n : Nat) : State := { stuck with err := { stuck.err with blockedFor := [(0, n)] } }
def probed (p : Probe) : State := { stuck with err := { stuck.err with probes := [p] } }
theorem test_hyp_probe_counts :
    (0 : Nat) ∈ stuck.waitUnits ∧ (stuck.blocked 0).isSome = true ∧ (stuck.elemErr 0).replay = false
    ∧ Tab.getD (counted 4095).err.blockedFor 0 0 < max 256 (counted 4095).err.delay.toNat
    ∧ max 256 (counted 4096).err.delay.toNat ≤ Tab.getD (counted 4096).err.blockedFor 0 0
    ∧ ((counted 4096).blocked 0).map (·.sends) = some true ∧ ((counted 4096).blocked 0).map (counted 4096).deadlocked = some false
    ∧ world.blocked 0 = none := by decide +kernel
theorem test_hyp_probe_ways :
    (probed { origin := 0, goal := 0, path := [0], due := 5001 }).cycles < 5001
    ∧ ([0] : List W32).all (fun u => !decide (u.toNat < (0 : W32).toNat)) = true
    ∧ (((probed { origin := 0, goal := 0, path := [0], due := 5000 }).blocked 0).bind (·.at_)).isSome = true
    ∧ ([1, 0] : List W32).any (fun u => decide (u.toNat < (1 : W32).toNat)) = true
    ∧ (0 : W32) ≠ 1 ∧ (∃ q ∈ stuck.err.probes, q.origin = 0) ∧ (0 : W32).toNat < (1 : W32).toNat
    ∧ (∀ q ∈ (probed { origin := 1, goal := 0, path := [1], due := 5000 }).err.probes, q.origin ≠ 0) := by decide +kernel
theorem test_hyp_Trips : Spec.Trips { world with thm := { world.thm with tripped := true } } { world with thm := { world.thm with tripped := true } } := by
  unfold Spec.Trips; decide +kernel
def failedWorld (s : State) : State := { s with boot := { s.boot with state := 3 } }
theorem test_hyp_link_rounds :
    (failedWorld world).boot.state = 3 ∧ (linked upPort [req0 true, { req0 true with id := 4 }]).lnk.reqs.find? (fun x => x.id == 4 && x.waits) = some { req0 true with id := 4 }
    ∧ (∃ x ∈ (linked upPort [req0 true, { req0 true with id := 4 }]).lnk.reqs.takeWhile (fun x => x.id != 4), x.pa / 256 = (req0 true).pa / 256 ∧ x.waits = true) := by
  decide +kernel

def poisonedHost (a : Nat) : State := { world with mem := { world.mem with hostPois := [(a / 16, true)] } }
def noEthernet (s : State) : State := { s with lnk := { s.lnk with ethUp := [(0, false), (1, false)] } }
theorem test_hyp_host_poison : anyPois (poisonedHost 64).mem.hostPois 64 64 = true ∧ anyPois (poisonedHost 64).mem.hostPois 0 64 = false
    ∧ anyPois (poisonedHost 64).mem.hostPois 0 65 = true ∧ (Spec.commandAt (poisonedHost 64).mem 64).length = 64
    ∧ (Spec.poisonReports (poisonedHost 64).mem [0, 64, 64]).length = 2 := by decide +kernel
theorem test_hyp_eth : ∀ tag : W32, Via.eth 3 = .eth tag → (world.lnk.ethFor 0).isSome = true := fun _ _ => by decide +kernel
theorem test_hyp_Reached : Spec.Reached (failedWorld world) .doe ∧ ¬ Spec.Reached (failedWorld world) .tcp ∧ ¬ Spec.Reached (noEthernet world) .tcp
    ∧ Spec.Reached world .tcp ∧ Spec.Comes world .rack ∧ Spec.Comes (noEthernet world) .host ∧ ¬ Spec.Comes (noEthernet world) .rack := by
  unfold Spec.Reached Spec.Comes; decide +kernel
/-- Commands that wait: for the queue table, for a page walk, for DONE. -/
def invalOf : Inval := { via := .ring 0, op := 10, mark := 8, pages := [] }
def invaled (s : State) : State := { s with que := { s.que with invals := [invalOf] } }
theorem test_hyp_command_waits :
    (shutAt 320 (asked 2)).descReady 5 = false ∧ (asked 2).descReady 5 = true ∧ (asked 1).descReady 1023 = true
    ∧ (shutAt 0x100000 (asked 6)).rangeFree 0x100000 64 = false ∧ (asked 6).rangeFree 0x100000 64 = true
    ∧ ¬ Spec.MapReady (barred (asked 10)) (mapArgs false []) ∧ (barred (asked 11)).tablesFree 1 0x20000 65536 1 = false
    ∧ (shutAt 0x500000 (asked 8)).rangeFree 0x500000 65536 = false ∧ (asked 8).rangeFree 0x500000 65536 = true
    ∧ (asked 10).inval? (.ring 0) 10 = none ∧ (invaled (asked 10)).inval? (.ring 0) 10 = some invalOf
    ∧ Spec.InvEnds (invaled (asked 10)) 8 ∧ ¬ Spec.InvEnds (invaled inUse) 8
    ∧ (2 : Nat) > 1 ∧ holeBase < holeBase + 1 := by unfold Spec.MapReady Spec.InvEnds; decide +kernel
theorem test_hyp_EndsQuiet : Spec.EndsQuiet world ∧ ¬ Spec.EndsQuiet (watching dueWatch id) ∧ ¬ Spec.EndsQuiet (argDone 3)
    ∧ ¬ Spec.EndsQuiet (grouped { g07 with leaving := [7] } []) ∧ (asked 1).boot.state = 2 ∧ (1 : Nat) < 2 := by unfold Spec.EndsQuiet; decide +kernel
theorem test_hyp_Invariants_coherent : Spec.Coherent State.reset.mem := coherent_of_no_line _ rfl (by decide +kernel)
end Sys2Proof.Tests
end

