-- ==== Sys2Proof/Proofs/Tables.lean ====
section
/-! PROOFS. Reading sparse tables and byte memories: what each entry is after a write, a copy, an erasure or a filter. -/
namespace Sys2Proof

variable {α : Type}

/-! ### Tables with rising keys -/

/-- The keys of a table rise strictly. -/
def Tab.Rising (t : Tab α) : Prop := t.Pairwise fun x y => x.1 < y.1

theorem Tab.find_eq_some_iff {t : Tab α} (h : t.Rising) {k : Nat} {v : α} : Tab.find t k = some v ↔ (k, v) ∈ t := by
  induction t with
  | nil => simp [Tab.find]
  | cons x r ih =>
    obtain ⟨j, w⟩ := x
    obtain ⟨hj, hr⟩ := List.pairwise_cons.1 h
    have hlow : (k, v) ∈ r → j < k := fun hm => hj _ hm
    unfold Tab.find
    split
    · subst_vars; grind
    · split
      · grind
      · rw [ih hr]; grind

theorem Tab.mem_set {t : Tab α} {k : Nat} {v : α} {x : Nat × α} (h : x ∈ Tab.set t k v) : x = (k, v) ∨ x ∈ t := by
  induction t with
  | nil => simpa [Tab.set] using h
  | cons y r ih => obtain ⟨j, w⟩ := y; grind [Tab.set]

theorem Tab.mem_erase {t : Tab α} {k : Nat} {x : Nat × α} (h : x ∈ Tab.erase t k) : x ∈ t := by
  induction t with
  | nil => simp [Tab.erase] at h
  | cons y r ih => obtain ⟨j, w⟩ := y; grind [Tab.erase]

theorem Tab.Rising.set {t : Tab α} (h : t.Rising) (k : Nat) (v : α) : (Tab.set t k v).Rising := by
  induction t with
  | nil => simp [Tab.Rising, Tab.set]
  | cons x r ih =>
    obtain ⟨j, w⟩ := x
    obtain ⟨hj, hr⟩ := List.pairwise_cons.1 h
    unfold Tab.set
    split
    · refine List.pairwise_cons.2 ⟨fun y hy => ?_, h⟩
      rcases List.mem_cons.1 hy with rfl | hy
      · assumption
      · exact Nat.lt_trans ‹k < j› (hj y hy)
    · split
      · subst_vars; exact List.pairwise_cons.2 ⟨hj, hr⟩
      · refine List.pairwise_cons.2 ⟨fun y hy => ?_, ih hr⟩
        rcases Tab.mem_set hy with rfl | hy
        · show j < k; omega
        · exact hj y hy

theorem Tab.Rising.erase {t : Tab α} (h : t.Rising) (k : Nat) : (Tab.erase t k).Rising := by
  induction t with
  | nil => exact h
  | cons x r ih =>
    obtain ⟨j, w⟩ := x
    obtain ⟨hj, hr⟩ := List.pairwise_cons.1 h
    unfold Tab.erase
    split
    · exact h
    · split
      · exact hr
      · exact List.pairwise_cons.2 ⟨fun y hy => hj y (Tab.mem_erase hy), ih hr⟩

theorem Tab.find_set (t : Tab α) (k j : Nat) (v : α) : Tab.find (Tab.set t k v) j = if j = k then some v else Tab.find t j := by
  split
  · subst_vars; exact Tab.find_set_same t _ v
  · exact Tab.find_set_other t k j v ‹_›

theorem Tab.find_erase {t : Tab α} (h : t.Rising) (k j : Nat) :
    Tab.find (Tab.erase t k) j = if j = k then none else Tab.find t j := by
  induction t with
  | nil => simp [Tab.erase, Tab.find]
  | cons x r ih =>
    obtain ⟨i, w⟩ := x
    obtain ⟨hi, hr⟩ := List.pairwise_cons.1 h
    have hlow : ∀ l, l ≤ i → Tab.find r l = none := by
      intro l hl
      rw [Option.eq_none_iff_forall_ne_some]
      intro v hv
      have := hi _ ((Tab.find_eq_some_iff hr).1 hv)
      simp at this
      omega
    have := ih hr
    have := hlow j
    have := hlow k
    grind [Tab.erase, Tab.find]

theorem Tab.find_filter {t : Tab α} (h : t.Rising) (p : Nat → Bool) (k : Nat) :
    Tab.find (t.filter fun x => p x.1) k = if p k then Tab.find t k else none := by
  have hf : Tab.Rising (t.filter fun x => p x.1) := List.Pairwise.filter _ h
  ext v
  rw [Tab.find_eq_some_iff hf, List.mem_filter]
  split
  · simp [Tab.find_eq_some_iff h, *]
  · simp [*]

variable [DecidableEq α] {d : α}

theorem Tab.rising_of_wf {t : Tab α} (h : Tab.wf d t = true) : t.Rising := by
  induction t with
  | nil => exact .nil
  | cons x r ih =>
    obtain ⟨j, w⟩ := x
    obtain ⟨-, hj, hr⟩ := Tab.wf_cons.1 h
    refine List.pairwise_cons.2 ⟨fun y hy => ?_, ih hr⟩
    by_contra hlt
    have hn : Tab.find r y.1 = none := Tab.wf_find_low h y.1 (by simpa using hlt)
    have hs := (Tab.find_eq_some_iff (ih hr) (v := y.2)).2 hy
    simp [hn] at hs

theorem Tab.getD_put {t : Tab α} (h : Tab.wf d t = true) (k j : Nat) (v : α) :
    Tab.getD (Tab.put d t k v) j d = if j = k then v else Tab.getD t j d := by
  split
  · subst_vars; exact Tab.getD_put_same t _ v h
  · exact Tab.getD_put_other t k j v ‹_› h

theorem Tab.getD_filter {t : Tab α} (h : Tab.wf d t = true) (p : Nat → Bool) (k : Nat) :
    Tab.getD (t.filter fun x => p x.1) k d = if p k then Tab.getD t k d else d := by
  rw [Tab.getD, Tab.find_filter (Tab.rising_of_wf h)]
  split <;> rfl

/-- Entries written at those of `n` keys in a row that `c` picks. -/
def Tab.putRun (d : α) (t : Tab α) (b n : Nat) (c : Nat → Bool) (f : Nat → α) : Tab α :=
  (List.range n).foldl (fun t i => if c i then Tab.put d t (b + i) (f i) else t) t

theorem Tab.putRun_succ (t : Tab α) (b n : Nat) (c : Nat → Bool) (f : Nat → α) :
    Tab.putRun d t b (n + 1) c f =
      if c n then Tab.put d (Tab.putRun d t b n c f) (b + n) (f n) else Tab.putRun d t b n c f := by
  simp only [Tab.putRun, List.range_succ, List.foldl_append, List.foldl_cons, List.foldl_nil]

theorem Tab.putRun_wf {t : Tab α} (h : Tab.wf d t = true) (b n : Nat) (c : Nat → Bool) (f : Nat → α) :
    Tab.wf d (Tab.putRun d t b n c f) = true := by
  induction n with
  | zero => exact h
  | succ n ih =>
    rw [Tab.putRun_succ]
    split
    · exact Tab.wf_put _ _ _ ih
    · exact ih

theorem Tab.getD_putRun {t : Tab α} (h : Tab.wf d t = true) (b n k : Nat) (c : Nat → Bool) (f : Nat → α) :
    Tab.getD (Tab.putRun d t b n c f) k d =
      if b ≤ k ∧ k < b + n ∧ c (k - b) = true then f (k - b) else Tab.getD t k d := by
  induction n with
  | zero => exact (if_neg (by omega)).symm
  | succ n ih =>
    rw [Tab.putRun_succ]
    by_cases hk : k = b + n
    · subst hk
      by_cases hc : c n = true
      · simp [hc, Tab.getD_put (Tab.putRun_wf h b n c f)]
      · simp [hc, ih]
    · have hlt : k < b + (n + 1) ↔ k < b + n := by omega
      simp only [hlt, ← ih]
      split
      · rw [Tab.getD_put (Tab.putRun_wf h b n c f), if_neg hk]
      · rfl

end Sys2Proof

namespace Sys2Proof.Machine

/-! ### Byte memories -/

theorem getD_writeCells {m : List Host.Cell} (h : Tab.wf 0 m = true) (a k : Nat) (bs : List Byte) :
    Tab.getD (writeCells m a bs) k 0 = if a ≤ k ∧ k < a + bs.length then bs.getD (k - a) 0 else Tab.getD m k 0 := by
  split
  next hk =>
    obtain ⟨i, rfl⟩ : ∃ i, k = a + i := ⟨k - a, by omega⟩
    have hi : i < bs.length := by omega
    rw [getD_writeCells_same bs m a i h hi]
    simp [hi]
  next hk => exact getD_writeCells_other bs m a k h (by omega)

theorem length_readCells (m : List Host.Cell) (a n : Nat) : (readCells m a n).length = n := by simp [readCells]

theorem getD_copyCells {dst : List Host.Cell} (h : Tab.wf 0 dst = true) (src : List Host.Cell) (a n k : Nat) :
    Tab.getD (copyCells src dst a n) k 0 = if a ≤ k ∧ k < a + n then Tab.getD src k 0 else Tab.getD dst k 0 := by
  rw [copyCells, getD_writeCells h, length_readCells]
  split
  next hk =>
    have : k - a < n := by omega
    simp [readCells, this, show a + (k - a) = k by omega]
  next => rfl

theorem getD_clearCells {m : List Host.Cell} (h : Tab.wf 0 m = true) (a n k : Nat) :
    Tab.getD (clearCells m a n) k 0 = if a ≤ k ∧ k < a + n then 0 else Tab.getD m k 0 := by
  rw [clearCells, getD_writeCells h, List.length_replicate]
  split
  next hk => have : k - a < n := by omega
             simp [this]
  next => rfl

theorem copyMarks_eq (src dst : Tab Bool) (a n : Nat) :
    copyMarks src dst a n = Tab.putRun false dst (a / 16) (n / 16) (fun _ => true) fun i => Tab.getD src (a / 16 + i) false := by
  simp [copyMarks, Tab.putRun]

theorem getD_copyMarks {dst : Tab Bool} (h : Tab.wf false dst = true) (src : Tab Bool) (a n k : Nat) :
    Tab.getD (copyMarks src dst a n) k false =
      if a / 16 ≤ k ∧ k < a / 16 + n / 16 then Tab.getD src k false else Tab.getD dst k false := by
  rw [copyMarks_eq, Tab.getD_putRun h]
  simp only [and_true]
  split
  next hk => rw [show a / 16 + (k - a / 16) = k by omega]
  next => rfl

theorem clearMarks_eq (t : Tab Bool) (a n : Nat) :
    clearMarks t a n = Tab.putRun false t (a / 16) (n / 16) (fun _ => true) fun _ => false := by
  simp [clearMarks, Tab.putRun]

theorem getD_clearMarks {t : Tab Bool} (h : Tab.wf false t = true) (a n k : Nat) :
    Tab.getD (clearMarks t a n) k false = if a / 16 ≤ k ∧ k < a / 16 + n / 16 then false else Tab.getD t k false := by
  rw [clearMarks_eq, Tab.getD_putRun h]
  simp only [and_true]

/-- A mark after a write: set where poison touches the part, clear where a good write covers it whole. -/
def markAfter (old : Bool) (a n k : Nat) (pois : Bool) : Bool :=
  if a / 16 ≤ k ∧ k * 16 < a + n ∧ (pois = true ∨ a ≤ k * 16 ∧ k * 16 + 16 ≤ a + n) then pois else old

theorem markPois_eq (t : Tab Bool) (a n : Nat) (pois : Bool) :
    markPois t a n pois = Tab.putRun false t (a / 16) (n / 16 + 2)
      (fun i => decide ((a / 16 + i) * 16 < a + n ∧ (pois = true ∨ a ≤ (a / 16 + i) * 16 ∧ (a / 16 + i) * 16 + 16 ≤ a + n)))
      fun _ => pois := by
  simp only [markPois, Tab.putRun, decide_eq_true_eq]
  congr 1
  funext t i
  cases pois <;> simp only [Bool.false_eq_true, if_false, if_true, false_or, true_or, and_true, ite_and]

theorem getD_markPois {t : Tab Bool} (h : Tab.wf false t = true) (a n k : Nat) (pois : Bool) :
    Tab.getD (markPois t a n pois) k false = markAfter (Tab.getD t k false) a n k pois := by
  rw [markPois_eq, Tab.getD_putRun h, markAfter]
  by_cases hk : a / 16 ≤ k
  · have hs : a / 16 + (k - a / 16) = k := by omega
    simp only [hs, decide_eq_true_eq]
    congr 1
    exact propext ⟨fun ⟨h1, _, h3⟩ => ⟨h1, h3⟩, fun ⟨h1, h3⟩ => ⟨h1, by omega, h3⟩⟩
  · rw [if_neg fun hc => hk hc.1, if_neg fun hc => hk hc.1]

theorem anyPois_iff (t : Tab Bool) (a n : Nat) : anyPois t a n = true ↔
    ∃ k, a / 16 ≤ k ∧ k * 16 < a + n ∧ Tab.getD t k false = true := by
  simp only [anyPois, List.any_eq_true, List.mem_range, Bool.and_eq_true, decide_eq_true_eq]
  constructor
  · rintro ⟨i, -, hi, hg⟩
    exact ⟨a / 16 + i, by omega, hi, hg⟩
  · rintro ⟨k, h1, h2, h3⟩
    have hk : a / 16 + (k - a / 16) = k := by omega
    exact ⟨k - a / 16, by omega, by rwa [hk], by rwa [hk]⟩

end Sys2Proof.Machine
end

