-- ==== Sys2Proof/Proofs/Glasshouse.lean ====
section
/-! PROOFS. The Glasshouse is transparent (R157, R166, R228, R432): filling, cleaning and evicting lines show the same bytes and marks, a read
gives the bytes of its addresses, a write changes what it stores, and all keep the lines in order. -/
namespace Sys2Proof.Machine
open Sys2Proof.Spec (byteAt markAt heldLine Coherent SameBytes)

/-! ### Which lines are held -/

/-- Some way holds the line. -/
def Memory.Holds (m : Memory) (line : Nat) : Prop := ∃ k d, Tab.find m.lines k = some (line, d)

theorem Memory.wayOf_some {m : Memory} {line w : Nat} (h : m.wayOf line = some w) :
    w < 16 ∧ ∃ d, Tab.find m.lines (m.setKey line * 16 + w) = some (line, d) := by
  unfold Memory.wayOf at h
  have hp := List.find?_some h
  have hw : w ∈ List.range 16 := List.mem_of_find?_eq_some h
  refine ⟨List.mem_range.1 hw, ?_⟩
  cases hf : Tab.find m.lines (m.setKey line * 16 + w) with
  | none => simp [hf] at hp
  | some x => obtain ⟨l, d⟩ := x; simp [hf] at hp; exact ⟨d, by rw [hp]⟩

theorem Memory.wayOf_isSome {m : Memory} (hm : Coherent m) (line : Nat) : (m.wayOf line).isSome = true ↔ m.Holds line := by
  constructor
  · intro h
    obtain ⟨w, hw⟩ := Option.isSome_iff_exists.1 h
    obtain ⟨-, d, hd⟩ := Memory.wayOf_some hw
    exact ⟨_, d, hd⟩
  · rintro ⟨k, d, hk⟩
    have hh := hm.home k line d hk
    refine List.find?_isSome.2 ⟨k % 16, by simp; omega, ?_⟩
    rw [← hh, show k / 16 * 16 + k % 16 = k by omega, hk]
    simp

theorem Memory.wayOf_eq_none {m : Memory} (hm : Coherent m) {line : Nat} : m.wayOf line = none ↔ ¬ m.Holds line := by
  rw [← Memory.wayOf_isSome hm]; simp

theorem heldLine_iff {m : Memory} (hm : Coherent m) (pa : Nat) : heldLine m pa = true ↔ m.Holds (pa / 128) :=
  Memory.wayOf_isSome hm _

theorem byteAt_held {m : Memory} (hm : Coherent m) {a : Nat} (h : m.Holds (a / 128)) : byteAt m a = Tab.getD m.main a 0 :=
  if_pos ((heldLine_iff hm a).2 h)
theorem byteAt_free {m : Memory} (hm : Coherent m) {a : Nat} (h : ¬ m.Holds (a / 128)) : byteAt m a = Tab.getD m.dram a 0 :=
  if_neg (mt (heldLine_iff hm a).1 h)
theorem markAt_held {m : Memory} (hm : Coherent m) {p : Nat} (h : m.Holds (p * 16 / 128)) :
    markAt m p = Tab.getD m.mainPois p false := if_pos ((heldLine_iff hm _).2 h)
theorem markAt_free {m : Memory} (hm : Coherent m) {p : Nat} (h : ¬ m.Holds (p * 16 / 128)) :
    markAt m p = Tab.getD m.dramPois p false := if_neg (mt (heldLine_iff hm _).1 h)

/-- A Glasshouse that holds no line is in order. -/
theorem coherent_of_empty {m : Memory} (h : m.lines = [])
    (c : Tab.wf 0 m.main = true ∧ Tab.wf 0 m.dram = true ∧ Tab.wf false m.mainPois = true ∧ Tab.wf false m.dramPois = true) : Coherent m where
  cells := c
  rising := by simp [h]
  home := by simp [h, Tab.find]
  once := by simp [h, Tab.find]
  clean := by simp [h, Tab.find]

theorem sameBytes_refl (m : Memory) : SameBytes m m := ⟨fun _ => rfl, fun _ => rfl⟩
theorem sameBytes_trans {m n k : Memory} (h : SameBytes m n) (h' : SameBytes n k) : SameBytes m k :=
  ⟨fun a => (h'.1 a).trans (h.1 a), fun p => (h'.2 p).trans (h.2 p)⟩

/-- What memory shows, and whether it is in order, hangs on these fields alone. -/
structure Memory.SameLines (m n : Memory) : Prop where
  main : n.main = m.main
  dram : n.dram = m.dram
  mainPois : n.mainPois = m.mainPois
  dramPois : n.dramPois = m.dramPois
  lines : n.lines = m.lines
  liveMap : n.liveMap = m.liveMap

theorem Memory.setKey_of_liveMap {m n : Memory} (h : n.liveMap = m.liveMap) (line : Nat) : n.setKey line = m.setKey line := by
  simp only [Memory.setKey, Memory.homeSlice, Memory.homeQuarter, Memory.homeBank, Memory.liveBank, Memory.nlive, h]

theorem Memory.SameLines.wayOf {m n : Memory} (h : m.SameLines n) (line : Nat) : n.wayOf line = m.wayOf line := by
  simp only [Memory.wayOf, Memory.setKey_of_liveMap h.liveMap, h.lines]

theorem Memory.SameLines.sameBytes {m n : Memory} (h : m.SameLines n) : SameBytes m n := by
  simp only [SameBytes, byteAt, markAt, heldLine, h.wayOf, h.main, h.dram, h.mainPois, h.dramPois]
  exact ⟨fun _ => rfl, fun _ => rfl⟩

theorem Memory.SameLines.coherent {m n : Memory} (h : m.SameLines n) (hm : Coherent m) : Coherent n where
  cells := by rw [h.main, h.dram, h.mainPois, h.dramPois]; exact hm.cells
  rising := by rw [h.lines]; exact hm.rising
  home := by simp only [h.lines, Memory.setKey_of_liveMap h.liveMap]; exact hm.home
  once := by rw [h.lines]; exact hm.once
  clean := by rw [h.lines, h.main, h.dram, h.mainPois, h.dramPois]; exact hm.clean

/-! ### Lines that leave -/

theorem line_bytes (line a : Nat) : line * 128 ≤ a ∧ a < line * 128 + 128 ↔ a / 128 = line := by omega
theorem line_parts (line p : Nat) : line * 128 / 16 ≤ p ∧ p < line * 128 / 16 + 128 / 16 ↔ p * 16 / 128 = line := by omega

theorem Memory.writeBackAt_dram {m : Memory} (hm : Coherent m) (line a : Nat) :
    Tab.getD (m.writeBackAt line).dram a 0 = if a / 128 = line then Tab.getD m.main a 0 else Tab.getD m.dram a 0 :=
  (getD_copyCells hm.cells.2.1 ..).trans (by simp only [line_bytes])

theorem Memory.writeBackAt_dramPois {m : Memory} (hm : Coherent m) (line p : Nat) :
    Tab.getD (m.writeBackAt line).dramPois p false =
      if p * 16 / 128 = line then Tab.getD m.mainPois p false else Tab.getD m.dramPois p false :=
  (getD_copyMarks hm.cells.2.2.2 ..).trans (by simp only [line_parts])

/-- A line goes to its bank or stack; whether it stays dirty makes no difference. -/
theorem Memory.writeBackAt_coherent {m : Memory} (hm : Coherent m) (line : Nat) : Coherent (m.writeBackAt line) where
  cells := by
    obtain ⟨h1, h2, h3, h4⟩ := hm.cells
    exact ⟨h1, copyCells_wf _ _ _ _ h2, h3, copyMarks_wf _ _ _ _ h4⟩
  rising := hm.rising
  home := hm.home
  once := hm.once
  clean k l hk := by
    obtain ⟨hc, hp⟩ := hm.clean k l hk
    constructor
    · intro a ha; rw [Memory.writeBackAt_dram hm]; split
      · rfl
      · exact hc a ha
    · intro p hpl; rw [Memory.writeBackAt_dramPois hm]; split
      · rfl
      · exact hp p hpl

theorem Memory.writeBackAt_sameBytes {m : Memory} (hm : Coherent m) {line : Nat} (hl : m.Holds line) :
    SameBytes m (m.writeBackAt line) := by
  have hn := Memory.writeBackAt_coherent hm line
  constructor
  · intro a
    by_cases h : m.Holds (a / 128)
    · rw [byteAt_held hm h]; exact byteAt_held hn h
    · have hne : a / 128 ≠ line := fun he => h (he ▸ hl)
      rw [byteAt_free hm h, byteAt_free hn h, Memory.writeBackAt_dram hm, if_neg hne]
  · intro p
    by_cases h : m.Holds (p * 16 / 128)
    · rw [markAt_held hm h]; exact markAt_held hn h
    · have hne : p * 16 / 128 ≠ line := fun he => h (he ▸ hl)
      rw [markAt_free hm h, markAt_free hn h, Memory.writeBackAt_dramPois hm, if_neg hne]

@[simp] theorem Memory.dropWay_dram (m : Memory) (key line : Nat) : (m.dropWay key line).dram = m.dram := by rw [Memory.dropWay]
@[simp] theorem Memory.dropWay_dramPois (m : Memory) (key line : Nat) : (m.dropWay key line).dramPois = m.dramPois := by
  rw [Memory.dropWay]
@[simp] theorem Memory.dropWay_setKey (m : Memory) (key line l : Nat) : (m.dropWay key line).setKey l = m.setKey l :=
  Memory.setKey_of_liveMap (by rw [Memory.dropWay]) l

theorem Memory.find_dropWay {m : Memory} (hm : Coherent m) (key line k : Nat) :
    Tab.find (m.dropWay key line).lines k = if k = key then none else Tab.find m.lines k := Tab.find_erase hm.rising key k

theorem Memory.dropWay_main {m : Memory} (hm : Coherent m) (key line a : Nat) :
    Tab.getD (m.dropWay key line).main a 0 = if a / 128 = line then 0 else Tab.getD m.main a 0 := by
  rw [Memory.dropWay, getD_clearCells hm.cells.1]
  simp only [line_bytes]

theorem Memory.dropWay_mainPois {m : Memory} (hm : Coherent m) (key line p : Nat) :
    Tab.getD (m.dropWay key line).mainPois p false = if p * 16 / 128 = line then false else Tab.getD m.mainPois p false := by
  rw [Memory.dropWay, getD_clearMarks hm.cells.2.2.1]
  simp only [line_parts]

theorem Memory.dropWay_coherent {m : Memory} (hm : Coherent m) {key line : Nat} {d : Bool}
    (hk : Tab.find m.lines key = some (line, d)) : Coherent (m.dropWay key line) where
  cells := by
    obtain ⟨h1, h2, h3, h4⟩ := hm.cells
    unfold Memory.dropWay
    dsimp only
    exact ⟨clearCells_wf _ _ _ h1, h2, clearMarks_wf _ _ _ h3, h4⟩
  rising := Tab.Rising.erase hm.rising key
  home k l d' h := by
    rw [Memory.find_dropWay hm] at h
    rw [Memory.dropWay_setKey]
    split at h
    · cases h
    · exact hm.home k l d' h
  once k k' l d' d'' h h' := by
    rw [Memory.find_dropWay hm] at h h'
    split at h
    · cases h
    · split at h'
      · cases h'
      · exact hm.once k k' l d' d'' h h'
  clean k l h := by
    rw [Memory.find_dropWay hm] at h
    split at h
    · cases h
    next hne =>
      have hl : l ≠ line := fun he => hne (hm.once k key l false d h (he ▸ hk))
      obtain ⟨hc, hp⟩ := hm.clean k l h
      refine ⟨fun a ha => ?_, fun p hpl => ?_⟩
      · rw [Memory.dropWay_main hm, if_neg (ha ▸ hl), Memory.dropWay_dram]; exact hc a ha
      · rw [Memory.dropWay_mainPois hm, if_neg (hpl ▸ hl), Memory.dropWay_dramPois]; exact hp p hpl

theorem Memory.holds_dropWay {m : Memory} (hm : Coherent m) {key line : Nat} {d : Bool}
    (hk : Tab.find m.lines key = some (line, d)) (l : Nat) : (m.dropWay key line).Holds l ↔ m.Holds l ∧ l ≠ line := by
  simp only [Memory.Holds, Memory.find_dropWay hm]
  constructor
  · rintro ⟨k, d', h⟩
    split at h
    · cases h
    next hne => exact ⟨⟨k, d', h⟩, fun he => hne (hm.once k key l d' d h (he ▸ hk))⟩
  · rintro ⟨⟨k, d', h⟩, hl⟩
    refine ⟨k, d', ?_⟩
    rw [if_neg]
    · exact h
    · rintro rfl
      rw [hk] at h
      exact hl (by cases h; rfl)

/-- A line may leave once its bank or stack holds what it holds. -/
theorem Memory.dropWay_sameBytes {m : Memory} (hm : Coherent m) {key line : Nat} {d : Bool}
    (hk : Tab.find m.lines key = some (line, d)) (hc : ∀ a, a / 128 = line → Tab.getD m.main a 0 = Tab.getD m.dram a 0)
    (hp : ∀ p, p * 16 / 128 = line → Tab.getD m.mainPois p false = Tab.getD m.dramPois p false) :
    SameBytes m (m.dropWay key line) := by
  have hn := Memory.dropWay_coherent hm hk
  have hh := Memory.holds_dropWay hm hk
  constructor
  · intro a
    by_cases h : m.Holds (a / 128)
    · by_cases hl : a / 128 = line
      · rw [byteAt_held hm h, hc a hl, byteAt_free hn fun h' => ((hh _).1 h').2 hl, Memory.dropWay_dram]
      · rw [byteAt_held hm h, byteAt_held hn ((hh _).2 ⟨h, hl⟩), Memory.dropWay_main hm, if_neg hl]
    · rw [byteAt_free hm h, byteAt_free hn fun h' => h ((hh _).1 h').1, Memory.dropWay_dram]
  · intro p
    by_cases h : m.Holds (p * 16 / 128)
    · by_cases hl : p * 16 / 128 = line
      · rw [markAt_held hm h, hp p hl, markAt_free hn fun h' => ((hh _).1 h').2 hl, Memory.dropWay_dramPois]
      · rw [markAt_held hm h, markAt_held hn ((hh _).2 ⟨h, hl⟩), Memory.dropWay_mainPois hm, if_neg hl]
    · rw [markAt_free hm h, markAt_free hn fun h' => h ((hh _).1 h').1, Memory.dropWay_dramPois]

/-- Eviction: the memory stays in order and shows the same, the way is empty, and no other line leaves. -/
theorem Memory.evict_spec {m : Memory} (hm : Coherent m) (key : Nat) :
    Coherent (m.evict key) ∧ SameBytes m (m.evict key) ∧
      ∀ k, Tab.find (m.evict key).lines k = if k = key then none else Tab.find m.lines k := by
  unfold Memory.evict
  split
  next h =>
    refine ⟨hm, sameBytes_refl m, fun k => ?_⟩
    split
    · subst_vars; exact h
    · rfl
  next line d h =>
    cases d with
    | true =>
      have hw := Memory.writeBackAt_coherent hm line
      refine ⟨Memory.dropWay_coherent hw h, sameBytes_trans (Memory.writeBackAt_sameBytes hm ⟨key, true, h⟩)
        (Memory.dropWay_sameBytes hw h (fun a ha => ?_) fun p hp => ?_), Memory.find_dropWay hw key line⟩
      · rw [Memory.writeBackAt_dram hm, if_pos ha]; rfl
      · rw [Memory.writeBackAt_dramPois hm, if_pos hp]; rfl
    | false =>
      obtain ⟨hc, hp⟩ := hm.clean key line h
      exact ⟨Memory.dropWay_coherent hm h, Memory.dropWay_sameBytes hm h hc hp, Memory.find_dropWay hm key line⟩

theorem Memory.evict_coherent {m : Memory} (hm : Coherent m) (key : Nat) : Coherent (m.evict key) := (Memory.evict_spec hm key).1

/-- A held line that has been written back is clean. -/
theorem Memory.markClean_coherent {m : Memory} (hm : Coherent m) {key line : Nat} {d : Bool}
    (hk : Tab.find m.lines key = some (line, d)) (hc : ∀ a, a / 128 = line → Tab.getD m.main a 0 = Tab.getD m.dram a 0)
    (hp : ∀ p, p * 16 / 128 = line → Tab.getD m.mainPois p false = Tab.getD m.dramPois p false) (b : Bool) :
    Coherent { m with lines := Tab.set m.lines key (line, b) } where
  cells := hm.cells
  rising := Tab.Rising.set hm.rising key _
  home k l d' h := by
    simp only [Tab.find_set] at h
    split at h
    · cases h; subst_vars; exact hm.home _ _ _ hk
    · exact hm.home k l d' h
  once k k' l d' d'' h h' := by
    simp only [Tab.find_set] at h h'
    split at h
    · cases h
      split at h'
      · subst_vars; rfl
      · subst_vars; exact hm.once _ k' _ _ _ hk h'
    · split at h'
      · cases h'; subst_vars; exact hm.once k _ _ _ _ h hk
      · exact hm.once k k' l d' d'' h h'
  clean k l h := by
    simp only [Tab.find_set] at h
    split at h
    · cases h; exact ⟨hc, hp⟩
    · exact hm.clean k l h

theorem Memory.holds_setDirty {m : Memory} {key line : Nat} {d : Bool} (hk : Tab.find m.lines key = some (line, d)) (b : Bool) (l : Nat) :
    (∃ k d', Tab.find (Tab.set m.lines key (line, b)) k = some (l, d')) ↔ m.Holds l := by
  simp only [Memory.Holds, Tab.find_set]
  constructor
  · rintro ⟨k, d', h⟩
    split at h
    · cases h; exact ⟨key, d, hk⟩
    · exact ⟨k, d', h⟩
  · rintro ⟨k, d', h⟩
    by_cases hkk : k = key
    · subst hkk; rw [hk] at h; cases h; exact ⟨k, b, if_pos rfl⟩
    · exact ⟨k, d', by rw [if_neg hkk]; exact h⟩

/-- Cleaning a line keeps the order and shows the same. -/
theorem Memory.clean_spec {m : Memory} (hm : Coherent m) (line : Nat) : Coherent (m.clean line) ∧ SameBytes m (m.clean line) := by
  unfold Memory.clean
  split
  · exact ⟨hm, sameBytes_refl m⟩
  next w hw =>
    dsimp only
    split
    next l hk =>
      obtain ⟨-, d, hd⟩ := Memory.wayOf_some hw
      rw [hk] at hd
      cases hd
      have hwb := Memory.writeBackAt_coherent hm line
      have hc := Memory.markClean_coherent hwb hk
        (fun a ha => by rw [Memory.writeBackAt_dram hm, if_pos ha]; rfl)
        (fun p hp => by rw [Memory.writeBackAt_dramPois hm, if_pos hp]; rfl) false
      have hh := Memory.holds_setDirty (m := m) hk false
      refine ⟨hc, sameBytes_trans (Memory.writeBackAt_sameBytes hm ⟨_, _, hk⟩) ⟨fun a => ?_, fun p => ?_⟩⟩
      · by_cases h : m.Holds (a / 128)
        · exact (byteAt_held hc ((hh _).2 h)).trans (byteAt_held hwb h).symm
        · exact (byteAt_free hc (mt (hh _).1 h)).trans (byteAt_free hwb h).symm
      · by_cases h : m.Holds (p * 16 / 128)
        · exact (markAt_held hc ((hh _).2 h)).trans (markAt_held hwb h).symm
        · exact (markAt_free hc (mt (hh _).1 h)).trans (markAt_free hwb h).symm
    next => exact ⟨hm, sameBytes_refl m⟩

theorem Memory.clean_coherent {m : Memory} (hm : Coherent m) (line : Nat) : Coherent (m.clean line) := (Memory.clean_spec hm line).1

theorem Memory.cleanRange_coherent {m : Memory} (hm : Coherent m) (pa n : Nat) : Coherent (m.cleanRange pa n) :=
  foldl_keeps Coherent _ (fun _ a h => Memory.clean_coherent h a) _ _ hm

theorem Memory.invalidate_coherent {m : Memory} (hm : Coherent m) (line : Nat) : Coherent (m.invalidate line) := by
  unfold Memory.invalidate
  split
  · exact hm
  next w hw => exact Memory.dropWay_coherent hm (Memory.wayOf_some hw).2.choose_spec

/-! ### Lines that come -/

theorem plruWalk_lt (t : BitVec 16) (c n k : Nat) (h : k < 2 ^ (5 - n)) (hn : n ≤ 4) : plruWalk t c n k < 16 := by
  induction n generalizing k with
  | zero => simp only [plruWalk]; omega
  | succ n ih =>
    refine ih _ ?_ (by omega)
    have hb : ∀ b : Bool, b2n b ≤ 1 := by decide
    have := hb (bit t.toNat k && decide ((2 * k + 1) * 2 ^ n - 16 < c))
    have hp : 2 ^ (5 - n) = 2 * 2 ^ (5 - (n + 1)) := by
      rw [show 5 - n = (5 - (n + 1)) + 1 by omega, Nat.pow_succ, Nat.mul_comm]
    omega

theorem WayPart.cacheWays_le (p : WayPart) : p.cacheWays ≤ 16 := by unfold WayPart.cacheWays; omega

/-- A line is taken by one of the 16 ways of its set. -/
theorem Memory.fillWay_lt {m : Memory} {line w : Nat} (h : m.fillWay line = some w) : w < 16 := by
  unfold Memory.fillWay at h
  dsimp only at h
  split at h
  · cases h
  · split at h
    next hx =>
      cases h
      have := WayPart.cacheWays_le (m.wp (m.setKey line / 8192))
      have hm : w ∈ (List.range (m.wp (m.setKey line / 8192)).cacheWays).reverse := List.mem_of_find?_eq_some hx
      simp only [List.mem_reverse, List.mem_range] at hm
      omega
    · cases h; exact plruWalk_lt _ _ 4 1 (by decide) (by decide)

theorem Memory.evict_setKey (m : Memory) (key line : Nat) : (m.evict key).setKey line = m.setKey line :=
  Memory.setKey_of_liveMap (by rw [(Memory.evict_cache m key)]) line

/-- A fill: a line that no way holds comes into a way of its set, clean. -/
theorem Memory.fillAt_spec {m : Memory} (hm : Coherent m) {line w : Nat} (hn : ¬ m.Holds line) (hw : w < 16) :
    Coherent (m.fillAt line w) ∧ SameBytes m (m.fillAt line w) ∧ Tab.find (m.fillAt line w).lines (m.setKey line * 16 + w) = some (line, false) := by
  obtain ⟨he, hs, hl⟩ := Memory.evict_spec hm (m.setKey line * 16 + w)
  have hkey : ∀ l, (m.evict (m.setKey line * 16 + w)).setKey l = m.setKey l := Memory.evict_setKey m _
  have hne : ¬ (m.evict (m.setKey line * 16 + w)).Holds line := by
    rintro ⟨k, d, h⟩
    rw [hl] at h
    split at h
    · cases h
    · exact hn ⟨k, d, h⟩
  revert he hs hl hkey hne
  unfold Memory.fillAt
  dsimp only
  generalize m.evict (m.setKey line * 16 + w) = e
  intro he hs hl hkey hne
  have hmain : ∀ a, Tab.getD (copyCells e.dram e.main (line * 128) 128) a 0 =
      if a / 128 = line then Tab.getD e.dram a 0 else Tab.getD e.main a 0 :=
    fun a => (getD_copyCells he.cells.1 ..).trans (by simp only [line_bytes])
  have hpois : ∀ p, Tab.getD (copyMarks e.dramPois e.mainPois (line * 128) 128) p false =
      if p * 16 / 128 = line then Tab.getD e.dramPois p false else Tab.getD e.mainPois p false :=
    fun p => (getD_copyMarks he.cells.2.2.1 ..).trans (by simp only [line_parts])
  have hfind : ∀ k l d, k ≠ m.setKey line * 16 + w → Tab.find e.lines k = some (l, d) → l ≠ line :=
    fun k l d _ h hll => hne ⟨k, d, hll ▸ h⟩
  have hc : Coherent { e with lines := Tab.set e.lines (m.setKey line * 16 + w) (line, false),
                              main := copyCells e.dram e.main (line * 128) 128,
                              mainPois := copyMarks e.dramPois e.mainPois (line * 128) 128,
                              plru := Tab.put 0 e.plru (m.setKey line) (plruTouch (Tab.getD e.plru (m.setKey line) 0) w) } := by
    refine ⟨?_, Tab.Rising.set he.rising _ _, fun k l d h => ?_, fun k k' l d d' h h' => ?_, fun k l h => ?_⟩
    · obtain ⟨h1, h2, h3, h4⟩ := he.cells
      exact ⟨copyCells_wf _ _ _ _ h1, h2, copyMarks_wf _ _ _ _ h3, h4⟩
    · simp only [Tab.find_set] at h
      split at h
      · cases h; subst_vars
        refine Eq.trans ?_ (hkey line).symm
        omega
      · exact he.home k l d h
    · simp only [Tab.find_set] at h h'
      split at h
      · cases h
        split at h'
        · subst_vars; rfl
        next hk' => exact absurd rfl (hfind k' _ _ hk' h')
      next hk =>
        split at h'
        · cases h'; exact absurd rfl (hfind k _ _ hk h)
        · exact he.once k k' l d d' h h'
    · simp only [Tab.find_set] at h
      split at h
      · cases h
        exact ⟨fun a ha => by rw [hmain, if_pos ha], fun p hp => by rw [hpois, if_pos hp]⟩
      next hk =>
        have hll := hfind k l _ hk h
        obtain ⟨h1, h2⟩ := he.clean k l h
        exact ⟨fun a ha => by rw [hmain, if_neg (ha ▸ hll)]; exact h1 a ha,
          fun p hp => by rw [hpois, if_neg (hp ▸ hll)]; exact h2 p hp⟩
  have hh : ∀ l, (∃ k d, Tab.find (Tab.set e.lines (m.setKey line * 16 + w) (line, false)) k = some (l, d)) ↔ e.Holds l ∨ l = line := by
    intro l
    simp only [Tab.find_set, Memory.Holds]
    constructor
    · rintro ⟨k, d, h⟩
      split at h
      · cases h; exact .inr rfl
      · exact .inl ⟨k, d, h⟩
    · rintro (⟨k, d, h⟩ | rfl)
      · refine ⟨k, d, ?_⟩
        rw [if_neg]
        · exact h
        · rintro rfl; rw [hl, if_pos rfl] at h; cases h
      · exact ⟨_, false, if_pos rfl⟩
  refine ⟨hc, sameBytes_trans hs ⟨fun a => ?_, fun p => ?_⟩, by rw [Tab.find_set, if_pos rfl]⟩
  · by_cases hla : a / 128 = line
    · rw [byteAt_free he (hla ▸ hne)]
      exact (byteAt_held hc ((hh _).2 (.inr hla))).trans ((hmain a).trans (if_pos hla))
    · by_cases h : e.Holds (a / 128)
      · rw [byteAt_held he h]
        exact (byteAt_held hc ((hh _).2 (.inl h))).trans ((hmain a).trans (if_neg hla))
      · rw [byteAt_free he h]
        exact byteAt_free hc fun h' => ((hh _).1 h').elim h hla
  · by_cases hla : p * 16 / 128 = line
    · rw [markAt_free he (hla ▸ hne)]
      exact (markAt_held hc ((hh _).2 (.inr hla))).trans ((hpois p).trans (if_pos hla))
    · by_cases h : e.Holds (p * 16 / 128)
      · rw [markAt_held he h]
        exact (markAt_held hc ((hh _).2 (.inl h))).trans ((hpois p).trans (if_neg hla))
      · rw [markAt_free he h]
        exact markAt_free hc fun h' => ((hh _).1 h').elim h hla

/-- A touch shows the same, and says whether the line is held from then on. -/
theorem Memory.touch_spec {m : Memory} (hm : Coherent m) (line : Nat) :
    Coherent (m.touch line).2 ∧ SameBytes m (m.touch line).2 ∧ ((m.touch line).1 = true ↔ (m.touch line).2.Holds line) := by
  unfold Memory.touch
  split
  next w hw =>
    have hh : m.Holds line := (Memory.wayOf_isSome hm line).1 (by rw [hw]; rfl)
    have hs : m.SameLines { m with plru := Tab.put 0 m.plru (m.setKey line) (plruTouch (Tab.getD m.plru (m.setKey line) 0) w) } :=
      ⟨rfl, rfl, rfl, rfl, rfl, rfl⟩
    exact ⟨hs.coherent hm, hs.sameBytes, iff_of_true rfl hh⟩
  next hw =>
    have hn := (Memory.wayOf_eq_none hm).1 hw
    split
    · exact ⟨hm, sameBytes_refl m, iff_of_false Bool.false_ne_true hn⟩
    next w hf =>
      obtain ⟨hc, hs, hl⟩ := Memory.fillAt_spec hm hn (Memory.fillWay_lt hf)
      exact ⟨hc, hs, iff_of_true rfl ⟨_, _, hl⟩⟩

/-! ### Reads -/

theorem Memory.readLine_spec {m : Memory} (hm : Coherent m) {pa n : Nat} (hn : pa % 128 + n ≤ 128) :
    (m.readLine pa n).1 = (List.range n).map (fun i => byteAt m (pa + i)) ∧
    ((m.readLine pa n).2.1 = true ↔ ∃ k, pa / 16 ≤ k ∧ k * 16 < pa + n ∧ markAt m k = true) ∧
    SameBytes m (m.readLine pa n).2.2 ∧ Coherent (m.readLine pa n).2.2 := by
  obtain ⟨hc, hs, hh⟩ := Memory.touch_spec hm (pa / 128)
  unfold Memory.readLine
  generalize m.touch (pa / 128) = x at hc hs hh
  obtain ⟨held, t⟩ := x
  dsimp only at hc hs hh ⊢
  have hline : ∀ i ∈ List.range n, (pa + i) / 128 = pa / 128 := fun i hi => by simp at hi; omega
  have hpart : ∀ k, pa / 16 ≤ k → k * 16 < pa + n → k * 16 / 128 = pa / 128 := fun k _ _ => by omega
  cases held with
  | true =>
    have h := hh.1 rfl
    refine ⟨List.map_congr_left fun i hi => ?_, (anyPois_iff ..).trans (exists_congr fun k => and_congr_right fun h1 =>
      and_congr_right fun h2 => ?_), hs, hc⟩
    · rw [← hs.1]; exact (byteAt_held hc ((hline i hi).symm ▸ h)).symm
    · rw [← hs.2, markAt_held hc ((hpart k h1 h2).symm ▸ h)]
  | false =>
    have h : ¬ t.Holds (pa / 128) := fun h' => Bool.false_ne_true (hh.2 h')
    refine ⟨List.map_congr_left fun i hi => ?_, (anyPois_iff ..).trans (exists_congr fun k => and_congr_right fun h1 =>
      and_congr_right fun h2 => ?_), hs, hc⟩
    · rw [← hs.1]; exact (byteAt_free hc ((hline i hi).symm ▸ h)).symm
    · rw [← hs.2, markAt_free hc ((hpart k h1 h2).symm ▸ h)]

/-- The parts that `n` bytes touch lie in the first line, or in the rest. -/
theorem parts_split {pa n c j : Nat} (hc : c = min n (128 - pa % 128)) (hn : n ≠ 0) :
    0 < n ∧ pa / 16 ≤ j ∧ j * 16 < pa + n ↔
      pa / 16 ≤ j ∧ j * 16 < pa + c ∨ 0 < n - c ∧ (pa + c) / 16 ≤ j ∧ j * 16 < pa + c + (n - c) := by omega

theorem Memory.readGo_spec (k : Nat) : ∀ {m : Memory}, Coherent m → ∀ pa n, n = 0 ∨ n + pa % 128 ≤ k * 128 →
    (m.readGo pa n k).1 = (List.range n).map (fun i => byteAt m (pa + i)) ∧
    ((m.readGo pa n k).2.1 = true ↔ 0 < n ∧ ∃ k, pa / 16 ≤ k ∧ k * 16 < pa + n ∧ markAt m k = true) ∧
    SameBytes m (m.readGo pa n k).2.2 ∧ Coherent (m.readGo pa n k).2.2 := by
  induction k with
  | zero =>
    intro m hm pa n h
    obtain rfl : n = 0 := by omega
    exact ⟨rfl, by simp [Memory.readGo], sameBytes_refl m, hm⟩
  | succ k ih =>
    intro m hm pa n h
    unfold Memory.readGo
    split
    next hn => subst hn; exact ⟨rfl, by simp, sameBytes_refl m, hm⟩
    next hn =>
      dsimp only
      have hrest : n - min n (128 - pa % 128) = 0 ∨
          n - min n (128 - pa % 128) + (pa + min n (128 - pa % 128)) % 128 ≤ k * 128 := by omega
      obtain ⟨h1, h2, h3, h4⟩ := Memory.readLine_spec hm (pa := pa) (n := min n (128 - pa % 128)) (by omega)
      obtain ⟨g1, g2, g3, g4⟩ := ih h4 (pa + min n (128 - pa % 128)) (n - min n (128 - pa % 128)) hrest
      refine ⟨?_, ?_, sameBytes_trans h3 g3, g4⟩
      · rw [h1, g1]
        conv_rhs => rw [show n = min n (128 - pa % 128) + (n - min n (128 - pa % 128)) by omega, List.range_add, List.map_append, List.map_map]
        congr 1
        exact List.map_congr_left fun i _ => by rw [h3.1, Nat.add_assoc]; rfl
      · rw [Bool.or_eq_true, h2, g2]
        simp only [h3.2, ← exists_and_left, ← exists_or, ← and_assoc, ← or_and_right]
        refine exists_congr fun j => and_congr_left fun _ => ?_
        simpa only [and_assoc] using (parts_split rfl hn).symm

/-- A read gives the bytes of its addresses and tells whether a part it touches is poisoned (R157, R228). -/
theorem Memory.read_spec {m : Memory} (hm : Coherent m) (pa n : Nat) :
    (m.read pa n).1 = (List.range n).map (fun i => byteAt m (pa + i)) ∧
    ((m.read pa n).2.1 = true ↔ 0 < n ∧ ∃ k, pa / 16 ≤ k ∧ k * 16 < pa + n ∧ markAt m k = true) ∧
    SameBytes m (m.read pa n).2.2 ∧ Coherent (m.read pa n).2.2 := Memory.readGo_spec _ hm pa n (by omega)

theorem Memory.read_coherent {m : Memory} (hm : Coherent m) (pa n : Nat) : Coherent (m.read pa n).2.2 := (Memory.read_spec hm pa n).2.2.2

/-! ### Writes -/

theorem Memory.writeLine_spec {m : Memory} (hm : Coherent m) {pa : Nat} {bs : List Byte} (pois : Bool) (hn : pa % 128 + bs.length ≤ 128) :
    (∀ a, byteAt (m.writeLine pa bs pois) a = if pa ≤ a ∧ a < pa + bs.length then bs.getD (a - pa) 0 else byteAt m a) ∧
    (∀ k, markAt (m.writeLine pa bs pois) k = markAfter (markAt m k) pa bs.length k pois) ∧
    Coherent (m.writeLine pa bs pois) := by
  obtain ⟨hc, hs, hh⟩ := Memory.touch_spec hm (pa / 128)
  unfold Memory.writeLine
  dsimp only
  generalize m.touch (pa / 128) = x at hc hs hh
  obtain ⟨held, t⟩ := x
  dsimp only at hc hs hh ⊢
  have hline : ∀ a, pa ≤ a ∧ a < pa + bs.length → a / 128 = pa / 128 := fun a _ => by omega
  have hpart : ∀ k, k * 16 / 128 ≠ pa / 128 → ∀ old, markAfter old pa bs.length k pois = old := by
    intro k hk old
    exact if_neg fun ⟨h1, h2, _⟩ => hk (by omega)
  obtain ⟨w1, w2, w3, w4⟩ := hc.cells
  cases held with
  | true =>
    obtain ⟨w, hw⟩ := Option.isSome_iff_exists.1 ((Memory.wayOf_isSome hc _).2 (hh.1 rfl))
    obtain ⟨-, d, hk⟩ := Memory.wayOf_some hw
    rw [hw, Option.getD_some]
    have hmain := getD_writeCells w1 pa (bs := bs)
    have hmarks := fun k => getD_markPois w3 pa bs.length k pois
    have hn : Coherent { t with main := writeCells t.main pa bs, mainPois := markPois t.mainPois pa bs.length pois,
                                lines := Tab.set t.lines (t.setKey (pa / 128) * 16 + w) (pa / 128, true) } := by
      refine ⟨⟨writeCells_wf _ _ _ w1, w2, markPois_wf _ _ _ _ w3, w4⟩, Tab.Rising.set hc.rising _ _, fun k l d' h => ?_,
        fun k k' l d' d'' h h' => ?_, fun k l h => ?_⟩
      · simp only [Tab.find_set] at h
        split at h
        · cases h; subst_vars; exact hc.home _ _ _ hk
        · exact hc.home k l d' h
      · simp only [Tab.find_set] at h h'
        split at h
        · cases h
          split at h'
          · subst_vars; rfl
          · subst_vars; exact hc.once _ k' _ _ _ hk h'
        · split at h'
          · cases h'; subst_vars; exact hc.once k _ _ _ _ h hk
          · exact hc.once k k' l d' d'' h h'
      · simp only [Tab.find_set] at h
        split at h
        · cases h
        next hne =>
          have hl : l ≠ pa / 128 := by rintro rfl; exact hne (hc.once _ _ _ _ _ h hk)
          obtain ⟨c1, c2⟩ := hc.clean k l h
          refine ⟨fun a ha => ?_, fun p hp => ?_⟩
          · rw [hmain, if_neg fun hr => hl (ha.symm.trans (hline a hr))]; exact c1 a ha
          · rw [hmarks, hpart p (hp ▸ hl)]; exact c2 p hp
    have hH := Memory.holds_setDirty hk true
    refine ⟨fun a => ?_, fun k => ?_, hn⟩
    · rw [← hs.1]
      by_cases h : t.Holds (a / 128)
      · rw [byteAt_held hc h]; exact (byteAt_held hn ((hH _).2 h)).trans (hmain a)
      · rw [if_neg fun hr => h ((hline a hr).symm ▸ hh.1 rfl), byteAt_free hc h]
        exact byteAt_free hn (mt (hH _).1 h)
    · rw [← hs.2]
      by_cases h : t.Holds (k * 16 / 128)
      · rw [markAt_held hc h]; exact (markAt_held hn ((hH _).2 h)).trans (hmarks k)
      · rw [hpart k fun he => h (he.symm ▸ hh.1 rfl), markAt_free hc h]
        exact markAt_free hn (mt (hH _).1 h)
  | false =>
    have hf : ¬ t.Holds (pa / 128) := fun h' => Bool.false_ne_true (hh.2 h')
    have hdram := getD_writeCells w2 pa (bs := bs)
    have hmarks := fun k => getD_markPois w4 pa bs.length k pois
    have hn : Coherent { t with dram := writeCells t.dram pa bs, dramPois := markPois t.dramPois pa bs.length pois } := by
      refine ⟨⟨w1, writeCells_wf _ _ _ w2, w3, markPois_wf _ _ _ _ w4⟩, hc.rising, hc.home, hc.once, fun k l h => ?_⟩
      have hl : l ≠ pa / 128 := fun he => hf ⟨k, false, he ▸ h⟩
      obtain ⟨c1, c2⟩ := hc.clean k l h
      refine ⟨fun a ha => ?_, fun p hp => ?_⟩
      · rw [hdram, if_neg fun hr => hl (ha.symm.trans (hline a hr))]; exact c1 a ha
      · rw [hmarks, hpart p (hp ▸ hl)]; exact c2 p hp
    refine ⟨fun a => ?_, fun k => ?_, hn⟩
    · rw [← hs.1]
      by_cases h : t.Holds (a / 128)
      · rw [if_neg fun hr => hf ((hline a hr) ▸ h), byteAt_held hc h]; exact byteAt_held hn h
      · rw [byteAt_free hc h]; exact (byteAt_free hn h).trans (hdram a)
    · rw [← hs.2]
      by_cases h : t.Holds (k * 16 / 128)
      · rw [hpart k fun he => hf (he ▸ h), markAt_held hc h]; exact markAt_held hn h
      · rw [markAt_free hc h]; exact (markAt_free hn h).trans (hmarks k)

theorem markAfter_split (old : Bool) (a c n k : Nat) (pois : Bool) (hc : (a + c) % 16 = 0 ∨ n = 0) :
    markAfter (markAfter old a c k pois) (a + c) n k pois = markAfter old a (c + n) k pois := by
  unfold markAfter
  rw [← ite_or]
  refine if_congr ?_ rfl rfl
  cases pois <;> simp only [Bool.false_eq_true, false_or, true_or, and_true] <;> omega

theorem Memory.writeGo_spec (pois : Bool) (k : Nat) : ∀ {m : Memory}, Coherent m → ∀ (pa : Nat) (bs : List Byte),
    bs.length = 0 ∨ bs.length + pa % 128 ≤ k * 128 →
    (∀ a, byteAt (m.writeGo pa bs pois k) a = if pa ≤ a ∧ a < pa + bs.length then bs.getD (a - pa) 0 else byteAt m a) ∧
    (∀ j, markAt (m.writeGo pa bs pois k) j = if bs = [] then markAt m j else markAfter (markAt m j) pa bs.length j pois) ∧
    Coherent (m.writeGo pa bs pois k) := by
  induction k with
  | zero =>
    intro m hm pa bs h
    obtain rfl : bs = [] := List.length_eq_zero_iff.1 (by omega)
    exact ⟨fun a => (if_neg (by simp)).symm, fun _ => rfl, hm⟩
  | succ k ih =>
    intro m hm pa bs h
    unfold Memory.writeGo
    split
    next hb =>
      obtain rfl := List.isEmpty_iff.1 hb
      exact ⟨fun a => (if_neg (by simp)).symm, fun _ => rfl, hm⟩
    next hb =>
      have hne : bs ≠ [] := fun he => hb (List.isEmpty_iff.2 he)
      have hpos : 0 < bs.length := List.length_pos_iff.2 hne
      have hlen : (bs.take (128 - pa % 128)).length = min (128 - pa % 128) bs.length := List.length_take
      have hdl : (bs.drop (128 - pa % 128)).length = bs.length - (128 - pa % 128) := List.length_drop
      dsimp only
      obtain ⟨h1, h2, h3⟩ := Memory.writeLine_spec hm (pa := pa) (bs := bs.take (128 - pa % 128)) pois (by omega)
      obtain ⟨g1, g2, g3⟩ := ih h3 (pa + (128 - pa % 128)) (bs.drop (128 - pa % 128)) (by omega)
      refine ⟨fun a => ?_, fun j => ?_, g3⟩
      · rw [g1, h1, hlen, hdl]
        by_cases ha : pa ≤ a ∧ a < pa + bs.length
        · rw [if_pos ha]
          by_cases hd : pa + (128 - pa % 128) ≤ a
          · rw [if_pos (by omega), List.getD_eq_getElem?_getD, List.getElem?_drop, List.getD_eq_getElem?_getD,
              show 128 - pa % 128 + (a - (pa + (128 - pa % 128))) = a - pa by omega]
          · rw [if_neg (by omega), if_pos (by omega), List.getD_eq_getElem?_getD, List.getElem?_take_of_lt (by omega),
              List.getD_eq_getElem?_getD]
        · rw [if_neg ha, if_neg (by omega), if_neg (by omega)]
      · rw [g2, h2, if_neg hne, hlen]
        split
        next hd =>
          have := congrArg List.length hd
          simp only [hdl, List.length_nil] at this
          rw [show min (128 - pa % 128) bs.length = bs.length by omega]
        next hd =>
          have := List.length_pos_iff.2 hd
          rw [show min (128 - pa % 128) bs.length = 128 - pa % 128 by omega, markAfter_split _ _ _ _ _ _ (.inl (by omega)), hdl,
            show 128 - pa % 128 + (bs.length - (128 - pa % 128)) = bs.length by omega]

/-- A write changes the bytes that it stores and the marks of its parts (R157, R228). -/
theorem Memory.write_spec {m : Memory} (hm : Coherent m) (pa : Nat) (bs : List Byte) (pois : Bool) :
    (∀ a, byteAt (m.write pa bs pois) a = if pa ≤ a ∧ a < pa + bs.length then bs.getD (a - pa) 0 else byteAt m a) ∧
    (∀ j, markAt (m.write pa bs pois) j = if bs = [] then markAt m j else markAfter (markAt m j) pa bs.length j pois) ∧
    Coherent (m.write pa bs pois) := Memory.writeGo_spec pois _ hm pa bs (by omega)

theorem Memory.write_coherent {m : Memory} (hm : Coherent m) (pa : Nat) (bs : List Byte) (pois : Bool) : Coherent (m.write pa bs pois) :=
  (Memory.write_spec hm pa bs pois).2.2

end Sys2Proof.Machine
end

