-- ==== Sys2Proof/Proofs/Order.lean ====
section
/-! PROOFS. Every operation on memory keeps it canonical and the Glasshouse in order (R157, R432). -/
namespace Sys2Proof.Machine
open Sys2Proof.Spec (byteAt markAt Coherent SameBytes)

/-- What the invariants of memory speak of: contents, marks, lines, and the placement that says where a line lies. -/
def Memory.contents (m : Memory) :=
  (m.main, m.dram, m.bank, m.scratch, m.host, m.mainPois, m.dramPois, m.bankPois, m.scratchPois, m.lines, m.liveMap)

/-- `n` is as canonical and as orderly as `m`. -/
structure Memory.Keeps (m n : Memory) : Prop where
  wf : m.wf = true → n.wf = true
  coherent : Coherent m → Coherent n

namespace Memory.Keeps

theorem refl (m : Memory) : m.Keeps m := ⟨id, id⟩
theorem trans {m n k : Memory} (h : m.Keeps n) (h' : n.Keeps k) : m.Keeps k := ⟨h'.wf ∘ h.wf, h'.coherent ∘ h.coherent⟩

/-- The memory that an answer brings with it. -/
theorem snd {α : Type} {m n : Memory} {p : α × Memory} {x : α} (h : m.Keeps p.2) (e : p = (x, n)) : m.Keeps n := by rw [e] at h; exact h

/-- What leaves the lines alone and keeps the other memories canonical. -/
theorem beside {m n : Memory} (hl : m.SameLines n) (hbank : Tab.wf 0 m.bank = true → Tab.wf 0 n.bank = true := by exact id)
    (hscratch : Tab.wf 0 m.scratch = true → Tab.wf 0 n.scratch = true := by exact id)
    (hhost : Tab.wf 0 m.host = true → Tab.wf 0 n.host = true := by exact id)
    (hbankPois : Tab.wf false m.bankPois = true → Tab.wf false n.bankPois = true := by exact id)
    (hscratchPois : Tab.wf false m.scratchPois = true → Tab.wf false n.scratchPois = true := by exact id) : m.Keeps n where
  wf h := by
    rw [Memory.wf_iff] at h ⊢
    obtain ⟨h1, h2, h3, h4, h5, h6, h7, h8, h9⟩ := h
    exact ⟨hl.main ▸ h1, hl.dram ▸ h2, hbank h3, hscratch h4, hhost h5, hl.mainPois ▸ h6, hl.dramPois ▸ h7, hbankPois h8, hscratchPois h9⟩
  coherent := hl.coherent

/-- Role areas, the scratchpad and host memory have no part in the Glasshouse. -/
theorem areas {m : Memory} {bank scratch host hostPois bankPois scratchPois wayPart wstamp}
    (hbank : Tab.wf 0 m.bank = true → Tab.wf 0 bank = true := by exact id)
    (hscratch : Tab.wf 0 m.scratch = true → Tab.wf 0 scratch = true := by exact id)
    (hhost : Tab.wf 0 m.host = true → Tab.wf 0 host = true := by exact id)
    (hbankPois : Tab.wf false m.bankPois = true → Tab.wf false bankPois = true := by exact id)
    (hscratchPois : Tab.wf false m.scratchPois = true → Tab.wf false scratchPois = true := by exact id) :
    m.Keeps { m with bank, scratch, host, hostPois, bankPois, scratchPois, wayPart, wstamp } :=
  beside ⟨rfl, rfl, rfl, rfl, rfl, rfl⟩ hbank hscratch hhost hbankPois hscratchPois

/-- What is neither contents, nor marks, nor lines makes no difference. -/
theorem notes {m n : Memory} (h : n.contents = m.contents := by rfl) : m.Keeps n := by
  simp only [Memory.contents, Prod.mk.injEq] at h
  obtain ⟨h1, h2, h3, h4, h5, h6, h7, h8, h9, h10, h11⟩ := h
  exact beside ⟨h1, h2, h6, h7, h10, h11⟩ (h3 ▸ id) (h4 ▸ id) (h5 ▸ id) (h8 ▸ id) (h9 ▸ id)

theorem foldl {α : Type} {m : Memory} (f : Memory → α → Memory) (hf : ∀ (n : Memory) x, n.Keeps (f n x)) (l : List α) : m.Keeps (l.foldl f m) :=
  foldl_keeps (fun n => m.Keeps n) f (fun n x h => h.trans (hf n x)) l m (refl m)

/-! ### Reads, writes and walks -/

theorem read (m : Memory) (pa n : Nat) : m.Keeps (m.read pa n).2.2 := ⟨m.read_wf pa n, fun h => Memory.read_coherent h pa n⟩
theorem write (m : Memory) (pa : Nat) (bs : List Byte) (pois : Bool) : m.Keeps (m.write pa bs pois) :=
  ⟨m.write_wf pa bs pois, fun h => Memory.write_coherent h pa bs pois⟩
theorem evict (m : Memory) (key : Nat) : m.Keeps (m.evict key) := ⟨m.evict_wf key, fun h => Memory.evict_coherent h key⟩
theorem cleanRange (m : Memory) (pa n : Nat) : m.Keeps (m.cleanRange pa n) :=
  ⟨m.cleanRange_wf pa n, fun h => Memory.cleanRange_coherent h pa n⟩
theorem invalidate (m : Memory) (line : Nat) : m.Keeps (m.invalidate line) :=
  ⟨m.invalidate_wf line, fun h => Memory.invalidate_coherent h line⟩

theorem unstamp (m : Memory) (a n : Nat) : m.Keeps (m.unstamp a n) := notes
theorem dropTlb (m : Memory) (p : Tlb → Bool) : m.Keeps (m.dropTlb p) := notes

theorem walkGo (va : Nat) (write : Bool) (k : Nat) : ∀ (m : Memory) (table lvl : Nat) (used : List Nat),
    m.Keeps (m.walkGo va table lvl write used k).2 := by
  induction k with
  | zero => exact fun m _ _ _ => refl m
  | succ k ih =>
    intro m table lvl used
    have hr := read m (table + 8 * walkIndex va lvl) 8
    unfold Memory.walkGo
    dsimp only
    split
    · exact refl m
    · split
      · exact hr
      · exact hr.trans (ih _ _ _ _)
      · split <;> exact hr

theorem markUsed (m : Memory) (used : List Nat) (write : Bool) : m.Keeps (m.markUsed used write) :=
  foldl _ (fun n a => (read n a 1).trans (Keeps.write _ _ _ _)) _

theorem walk (m : Memory) (asid va : Nat) (write : Bool) : m.Keeps (m.walk asid va write).2 := by
  have hw := walkGo va write 4 m ((Tab.getD m.trRoot asid (false, 0)).2.toNat * 65536) 0 []
  unfold Memory.walk
  dsimp only
  split
  · exact refl m
  · split
    · exact refl m
    · split
      next heq => rw [heq] at hw; exact hw
      next heq => rw [heq] at hw; exact hw.trans (markUsed _ _ _)

theorem translate (m : Memory) (port asid va : Nat) (write : Bool) (pick : Nat) : m.Keeps (m.translate port asid va write pick).2 := by
  have hw := walk m asid va write
  unfold Memory.translate
  dsimp only
  split
  · exact refl m
  · split
    next heq => rw [heq] at hw; exact hw
    next heq => rw [heq] at hw; exact hw.trans notes

theorem fillAt {m : Memory} {line w : Nat} (hn : m.wayOf line = none) (hf : m.fillWay line = some w) : m.Keeps (m.fillAt line w) :=
  ⟨m.fillAt_wf line w, fun h => (Memory.fillAt_spec h ((Memory.wayOf_eq_none h).1 hn) (Memory.fillWay_lt hf)).1⟩

/-! ### Local memory that is zeroed -/

/-- Cells and marks that a test of addresses does not pick vanish from the Glasshouse and from what lies under it. -/
theorem filter (m : Memory) (keep : Nat → Bool) :
    m.Keeps { m with main := m.main.filter fun x => keep x.1, dram := m.dram.filter fun x => keep x.1,
                     mainPois := m.mainPois.filter fun x => keep (x.1 * 16), dramPois := m.dramPois.filter fun x => keep (x.1 * 16) } where
  wf h := by
    rw [Memory.wf_iff] at h ⊢
    obtain ⟨h1, h2, h3, h4, h5, h6, h7, h8, h9⟩ := h
    exact ⟨Tab.wf_filter _ _ h1, Tab.wf_filter _ _ h2, h3, h4, h5, Tab.wf_filter _ _ h6, Tab.wf_filter _ _ h7, h8, h9⟩
  coherent h := by
    obtain ⟨⟨h1, h2, h3, h4⟩, hr, hh, ho, hc⟩ := h
    refine ⟨⟨Tab.wf_filter _ _ h1, Tab.wf_filter _ _ h2, Tab.wf_filter _ _ h3, Tab.wf_filter _ _ h4⟩, hr, hh, ho, fun k line hk => ?_⟩
    obtain ⟨c1, c2⟩ := hc k line hk
    constructor
    · intro a ha
      dsimp only
      rw [Tab.getD_filter h1, Tab.getD_filter h2, c1 a ha]
    · intro p hp
      dsimp only
      rw [Tab.getD_filter h3 fun x => keep (x * 16), Tab.getD_filter h4 fun x => keep (x * 16), c2 p hp]

theorem zeroBut (m : Memory) (a n b k : Nat) : m.Keeps (m.zeroBut a n b k) :=
  filter m fun x => decide (x < a) || decide (a + n ≤ x) || decide (b ≤ x) && decide (x < b + k)

/-! ### The remap (R161) -/

theorem closeAll (m : Memory) (c : Nat) : m.Keeps (m.closeAll c) := notes

theorem flushPergola (m : Memory) : m.Keeps m.flushPergola :=
  foldl _ (fun n (x : Nat × Nat × Bool) => evict n x.1) _

end Memory.Keeps

/-- What eviction of some ways leaves is what was there in the other ways. -/
theorem Memory.find_evictAll (ks : List (Nat × Nat × Bool)) : ∀ {m : Memory}, Coherent m → ∀ k,
    Tab.find (ks.foldl (fun m x => m.evict x.1) m).lines k = if k ∈ ks.map (·.1) then none else Tab.find m.lines k := by
  induction ks with
  | nil => intro m _ k; simp
  | cons x r ih =>
    intro m hm k
    obtain ⟨hc, -, hl⟩ := Memory.evict_spec hm x.1
    rw [List.foldl_cons, ih hc, hl]
    by_cases h1 : k = x.1 <;> by_cases h2 : k ∈ r.map (·.1) <;> simp [h1, h2]

/-- After the flush the Glasshouse holds no line of the Pergola. -/
theorem Memory.flushPergola_lines {m : Memory} (hm : Coherent m) {k line : Nat} {d : Bool}
    (h : Tab.find m.flushPergola.lines k = some (line, d)) : outerBase ≤ line * 128 := by
  rw [Memory.flushPergola, Memory.find_evictAll _ hm] at h
  split at h
  · cases h
  next hk =>
    by_contra hlt
    refine hk (List.mem_map.2 ⟨(k, line, d), List.mem_filter.2 ⟨(Tab.find_eq_some_iff hm.rising).1 h, ?_⟩, rfl⟩)
    simpa using hlt

/-- A line of the outer stacks has the same set under every placement (R157). -/
theorem Memory.setKey_outer (m n : Memory) {line : Nat} (h : outerBase ≤ line * 128) : m.setKey line = n.setKey line := by
  simp only [Memory.setKey, Memory.homeSlice, Memory.homeQuarter, if_neg (Nat.not_lt.2 h)]

theorem Memory.capacity_le (m : Memory) : m.capacity ≤ outerBase := by
  unfold Memory.capacity Memory.nlive outerBase
  omega

/-- Pages of the Pergola poisoned. -/
theorem poisonPages_wf (bad : List Nat) : ∀ {t : Tab Bool}, Tab.wf false t = true →
    Tab.wf false (bad.foldl (fun t g => markPois t (g * 256) 256 true) t) = true :=
  fun h => foldl_keeps (fun t => Tab.wf false t = true) _ (fun t g ht => markPois_wf t (g * 256) 256 true ht) bad _ h

theorem getD_poisonPages (bad : List Nat) {p : Nat} (hp : ∀ g ∈ bad, g * 256 + 256 ≤ p * 16) : ∀ {t : Tab Bool}, Tab.wf false t = true →
    Tab.getD (bad.foldl (fun t g => markPois t (g * 256) 256 true) t) p false = Tab.getD t p false := by
  induction bad with
  | nil => intro t _; rfl
  | cons g r ih =>
    intro t h
    obtain ⟨hg, hr⟩ := List.forall_mem_cons.1 hp
    rw [List.foldl_cons, ih hr (markPois_wf _ _ _ _ h), getD_markPois h, markAfter, if_neg (by omega)]

/-- `n` is `m` under a new placement: cells past the capacity are gone, and pages that could not be read are poisoned (R161). -/
structure Memory.Replaced (m : Memory) (bad : List Nat) (n : Memory) : Prop where
  lines : n.lines = m.lines
  main : n.main = m.main
  mainPois : n.mainPois = m.mainPois
  areas : n.bank = m.bank ∧ n.scratch = m.scratch ∧ n.host = m.host ∧ n.bankPois = m.bankPois ∧ n.scratchPois = m.scratchPois
  dram : n.dram = m.dram.filter fun x => decide (x.1 < n.capacity) || decide (outerBase ≤ x.1)
  dramPois : n.dramPois = bad.foldl (fun t g => markPois t (g * 256) 256 true)
    (m.dramPois.filter fun x => decide (x.1 * 16 < n.capacity) || decide (outerBase ≤ x.1 * 16))
  within : ∀ g ∈ bad, g * 256 < n.capacity

theorem Memory.Replaced.wf {m n : Memory} {bad : List Nat} (r : m.Replaced bad n) (h : m.wf = true) : n.wf = true := by
  rw [Memory.wf_iff] at h ⊢
  obtain ⟨h1, h2, h3, h4, h5, h6, h7, h8, h9⟩ := h
  obtain ⟨e3, e4, e5, e8, e9⟩ := r.areas
  rw [r.main, r.dram, e3, e4, e5, r.mainPois, r.dramPois, e8, e9]
  exact ⟨h1, Tab.wf_filter _ _ h2, h3, h4, h5, h6, poisonPages_wf bad (Tab.wf_filter _ _ h7), h8, h9⟩

theorem Memory.Replaced.coherent {m n : Memory} {bad : List Nat} (r : m.Replaced bad n) (h : Coherent m)
    (hout : ∀ k line d, Tab.find m.lines k = some (line, d) → outerBase ≤ line * 128) : Coherent n := by
  obtain ⟨⟨h1, h2, h3, h4⟩, hr, hh, ho, hc⟩ := h
  have hf := Tab.wf_filter (fun x : Nat × Bool => decide (x.1 * 16 < n.capacity) || decide (outerBase ≤ x.1 * 16)) _ h4
  refine ⟨?_, r.lines ▸ hr, fun k line d hk => ?_, r.lines ▸ ho, fun k line hk => ?_⟩
  · rw [r.main, r.dram, r.mainPois, r.dramPois]
    exact ⟨h1, Tab.wf_filter _ _ h2, h3, poisonPages_wf bad hf⟩
  · rw [r.lines] at hk
    exact (hh k line d hk).trans (Memory.setKey_outer m n (hout k line d hk))
  · rw [r.lines] at hk
    have hb := hout k line false hk
    obtain ⟨c1, c2⟩ := hc k line hk
    constructor
    · intro a ha
      have : outerBase ≤ a := by omega
      rw [r.main, r.dram, Tab.getD_filter h2 fun x => decide (x < n.capacity) || decide (outerBase ≤ x), c1 a ha]
      simp [this]
    · intro p hp
      have h16 : outerBase ≤ p * 16 := by omega
      have hcap := n.capacity_le
      have hob : outerBase % 256 = 0 := by decide
      rw [r.mainPois, r.dramPois, getD_poisonPages bad (fun g hg => by have := r.within g hg; omega) hf,
        Tab.getD_filter h4 fun x => decide (x * 16 < n.capacity) || decide (outerBase ≤ x * 16), c2 p hp]
      simp [h16]

/-- The placement changes once the Pergola's lines have been flushed (R161). -/
theorem Memory.Keeps.replaced {m n : Memory} {bad : List Nat} (r : m.flushPergola.Replaced bad n) : m.Keeps n where
  wf h := r.wf ((flushPergola m).wf h)
  coherent h := r.coherent ((flushPergola m).coherent h) fun _ _ _ hk => Memory.flushPergola_lines h hk

/-! ### Rows of the Pergola (R365, R366) -/

theorem Memory.rowPa_of_liveMap {m n : Memory} (h : n.liveMap = m.liveMap) (k row c : Nat) : n.rowPa k row c = m.rowPa k row c := by
  simp only [Memory.rowPa, Memory.nlive, Memory.livePos, h]

/-- The lines of a row of a bank. -/
def Memory.rowLines (m : Memory) (k row : Nat) : List Nat := (List.range 16).map fun j => m.rowPa k row (128 * j) / 128

/-- A part of 32 bytes of a row lies in one of the row's lines. -/
theorem Memory.rowPart_line (m : Memory) (k row : Nat) {i a : Nat} (hi : i < 64) (h1 : m.rowPart k row i ≤ a)
    (h2 : a < m.rowPart k row i + 32) : a / 128 ∈ m.rowLines k row := by
  refine List.mem_map.2 ⟨i / 4, List.mem_range.2 (by omega), ?_⟩
  simp only [Memory.rowPart, Memory.rowPa] at h1 h2 ⊢
  rw [show 128 * (i / 4) / 256 = 32 * i / 256 by omega]
  generalize (8 * row + 32 * i / 256) * m.nlive + m.livePos k = x at h1 h2 ⊢
  omega

theorem Memory.rowPart_aligned (m : Memory) (k row i : Nat) : m.rowPart k row i % 32 = 0 := by
  simp only [Memory.rowPart, Memory.rowPa]
  omega

/-- Banks and stacks that differ in the lines `ls` alone. -/
structure Memory.Rewritten (m : Memory) (ls : List Nat) (n : Memory) : Prop where
  rest : n = { m with dram := n.dram, dramPois := n.dramPois }
  cells : Tab.wf 0 m.dram = true → Tab.wf 0 n.dram = true ∧ ∀ a, a / 128 ∉ ls → Tab.getD n.dram a 0 = Tab.getD m.dram a 0
  marks : Tab.wf false m.dramPois = true →
    Tab.wf false n.dramPois = true ∧ ∀ p, p * 16 / 128 ∉ ls → Tab.getD n.dramPois p false = Tab.getD m.dramPois p false

theorem Memory.Rewritten.refl (m : Memory) (ls : List Nat) : m.Rewritten ls m := ⟨rfl, fun h => ⟨h, fun _ _ => rfl⟩, fun h => ⟨h, fun _ _ => rfl⟩⟩

/-- One element's share of a row goes from its role area into the bank. -/
def Memory.putShare (m : Memory) (a k : Nat) : Memory :=
  { m with dram := writeCells m.dram a (readCells m.bank k 32),
           dramPois := (List.range 2).foldl (fun t j => Tab.put false t (a / 16 + j) (Tab.getD m.bankPois (k / 16 + j) false)) m.dramPois }

theorem Memory.Rewritten.putShare {m n : Memory} {ls : List Nat} (h : m.Rewritten ls n) {a k : Nat} (h32 : a % 32 = 0)
    (ha : ∀ x, a ≤ x → x < a + 32 → x / 128 ∈ ls) : m.Rewritten ls (n.putShare a k) := by
  obtain ⟨hr, hc, hm⟩ := h
  refine ⟨?_, fun hw => ?_, fun hw => ?_⟩
  · rw [Memory.putShare, hr]
  · obtain ⟨w, g⟩ := hc hw
    refine ⟨writeCells_wf _ _ _ w, fun x hx => ?_⟩
    rw [Memory.putShare, getD_writeCells w, length_readCells, if_neg fun hin => hx (ha x hin.1 hin.2), g x hx]
  · obtain ⟨w, g⟩ := hm hw
    have hp : (n.putShare a k).dramPois =
        Tab.putRun false n.dramPois (a / 16) 2 (fun _ => true) fun j => Tab.getD n.bankPois (k / 16 + j) false := by
      simp [Memory.putShare, Tab.putRun]
    rw [hp]
    refine ⟨Tab.putRun_wf w _ _ _ _, fun p hpl => ?_⟩
    rw [Tab.getD_putRun w, if_neg fun hin => hpl (ha (p * 16) (by omega) (by omega)), g p hpl]

/-- The first half of a ROWPUT: the row is written, its lines still held. -/
theorem Memory.rewritten_row (m : Memory) (k row c off : Nat) (l : List (Nat × Nat)) (hl : ∀ x ∈ l, x.2 < 64) :
    ∀ n, m.Rewritten (m.rowLines k row) n →
      m.Rewritten (m.rowLines k row) (l.foldl (fun n (e, i) => n.putShare (n.rowPart k row i) (bankKey e c off)) n) := by
  induction l with
  | nil => exact fun n h => h
  | cons x r ih =>
    intro n h
    obtain ⟨hx, hr⟩ := List.forall_mem_cons.1 hl
    have hpart : n.rowPart k row x.2 = m.rowPart k row x.2 := Memory.rowPa_of_liveMap (by rw [h.rest]) ..
    refine ih hr _ (h.putShare ?_ fun y h1 h2 => ?_)
    · exact n.rowPart_aligned k row x.2
    · rw [hpart] at h1 h2
      exact m.rowPart_line k row hx h1 h2

/-- What lies under the Glasshouse has no part in which lines it drops. -/
theorem Memory.invalidate_over (m : Memory) (d : List Host.Cell) (p : Tab Bool) (line : Nat) :
    ({ m with dram := d, dramPois := p } : Memory).invalidate line = { m.invalidate line with dram := d, dramPois := p } := by
  have hw : ({ m with dram := d, dramPois := p } : Memory).wayOf line = m.wayOf line := rfl
  have hk : ({ m with dram := d, dramPois := p } : Memory).setKey line = m.setKey line := Memory.setKey_of_liveMap rfl line
  unfold Memory.invalidate
  rw [hw, hk]
  cases m.wayOf line <;> simp only [Memory.dropWay]

theorem Memory.invalidate_liveMap (m : Memory) (line : Nat) : (m.invalidate line).liveMap = m.liveMap := by
  rw [(m.invalidate_cache line)]

theorem Memory.invalidate_holds {m : Memory} (hm : Coherent m) {line l : Nat} (h : (m.invalidate line).Holds l) : m.Holds l ∧ l ≠ line := by
  unfold Memory.invalidate at h
  split at h
  next hw => exact ⟨h, by rintro rfl; exact (Memory.wayOf_eq_none hm).1 hw h⟩
  next w hw => exact (Memory.holds_dropWay hm (Memory.wayOf_some hw).2.choose_spec l).1 h

/-- Lines dropped one after the other. -/
def Memory.invalidateAll (m : Memory) (ls : List Nat) : Memory := ls.foldl Memory.invalidate m

theorem Memory.invalidateAll_over (ls : List Nat) (d : List Host.Cell) (p : Tab Bool) : ∀ m : Memory,
    ({ m with dram := d, dramPois := p } : Memory).invalidateAll ls = { m.invalidateAll ls with dram := d, dramPois := p } := by
  induction ls with
  | nil => exact fun _ => rfl
  | cons l r ih =>
    intro m
    show Memory.invalidateAll (({ m with dram := d, dramPois := p } : Memory).invalidate l) r = _
    rw [Memory.invalidate_over, ih]
    rfl

theorem Memory.invalidateAll_spec (ls : List Nat) : ∀ {m : Memory}, Coherent m →
    Coherent (m.invalidateAll ls) ∧ ∀ l, (m.invalidateAll ls).Holds l → m.Holds l ∧ l ∉ ls := by
  induction ls with
  | nil => exact fun h => ⟨h, fun l hl => ⟨hl, List.not_mem_nil⟩⟩
  | cons x r ih =>
    intro m hm
    obtain ⟨hc, hh⟩ := ih (Memory.invalidate_coherent hm x)
    refine ⟨hc, fun l hl => ?_⟩
    obtain ⟨h1, h2⟩ := hh l hl
    obtain ⟨h3, h4⟩ := Memory.invalidate_holds hm h1
    exact ⟨h3, List.not_mem_cons_of_ne_of_not_mem h4 h2⟩

theorem Memory.invalidateAll_dram (ls : List Nat) : ∀ m : Memory,
    (m.invalidateAll ls).dram = m.dram ∧ (m.invalidateAll ls).dramPois = m.dramPois := by
  induction ls with
  | nil => exact fun _ => ⟨rfl, rfl⟩
  | cons x r ih =>
    intro m
    obtain ⟨h1, h2⟩ := ih (m.invalidate x)
    have hd : (m.invalidate x).dram = m.dram ∧ (m.invalidate x).dramPois = m.dramPois := by
      unfold Memory.invalidate
      split
      · exact ⟨rfl, rfl⟩
      · exact ⟨Memory.dropWay_dram .., Memory.dropWay_dramPois ..⟩
    exact ⟨h1.trans hd.1, h2.trans hd.2⟩

theorem Memory.foldl_invalidate_row (k row : Nat) (js : List Nat) : ∀ m : Memory,
    js.foldl (fun m j => m.invalidate (m.rowPa k row (128 * j) / 128)) m =
      m.invalidateAll (js.map fun j => m.rowPa k row (128 * j) / 128) := by
  induction js with
  | nil => intro m; rw [List.map_nil, List.foldl_nil, Memory.invalidateAll, List.foldl_nil]
  | cons j r ih =>
    intro m
    rw [List.foldl_cons, ih]
    simp only [Memory.rowPa_of_liveMap (m.invalidate_liveMap _), List.map_cons]
    rfl

/-- The lines of a row are dropped, so what is written under them contradicts no clean line. -/
theorem Memory.Keeps.overRow {m n : Memory} {ls : List Nat} (h : m.Rewritten ls n) : m.Keeps (n.invalidateAll ls) where
  wf hw := by
    have hn : n.wf = true := by
      rw [Memory.wf_iff] at hw ⊢
      obtain ⟨h1, h2, h3, h4, h5, h6, h7, h8, h9⟩ := hw
      rw [h.rest]
      exact ⟨h1, (h.cells h2).1, h3, h4, h5, h6, (h.marks h7).1, h8, h9⟩
    exact foldl_keeps (fun m => m.wf = true) _ (fun m l hm => m.invalidate_wf l hm) ls n hn
  coherent hm := by
    obtain ⟨hc, hh⟩ := Memory.invalidateAll_spec ls hm
    obtain ⟨hd, hp⟩ := m.invalidateAll_dram ls
    obtain ⟨w1, g1⟩ := h.cells hm.cells.2.1
    obtain ⟨w2, g2⟩ := h.marks hm.cells.2.2.2
    rw [h.rest, Memory.invalidateAll_over]
    refine ⟨⟨hc.cells.1, w1, hc.cells.2.2.1, w2⟩, hc.rising, hc.home, hc.once, fun key line hk => ?_⟩
    have hl : line ∉ ls := (hh line ⟨key, false, hk⟩).2
    obtain ⟨c1, c2⟩ := hc.clean key line hk
    refine ⟨fun a ha => (c1 a ha).trans ?_, fun p hpl => (c2 p hpl).trans ?_⟩
    · rw [hd]; exact (g1 a (ha ▸ hl)).symm
    · rw [hp]; exact (g2 p (hpl ▸ hl)).symm

theorem zipIdx_bedElems_lt (b : Nat) : ∀ x ∈ (bedElems b).zipIdx, x.2 < 64 := fun x hx => by
  have := List.snd_lt_of_mem_zipIdx hx
  simpa [bedElems] using this

namespace Memory.Keeps

theorem banksToRow (m : Memory) (k row c off : Nat) : m.Keeps (m.banksToRow k row c off) := by
  have h := m.rewritten_row k row c off _ (zipIdx_bedElems_lt (k / 64)) m (.refl m _)
  have hr := overRow h
  have hp : ∀ j, Memory.rowPa (((bedElems (k / 64)).zipIdx).foldl
      (fun n (e, i) => n.putShare (n.rowPart k row i) (bankKey e c off)) m) k row (128 * j) = m.rowPa k row (128 * j) :=
    fun j => Memory.rowPa_of_liveMap (by rw [h.rest]) ..
  unfold Memory.banksToRow
  dsimp only
  rw [Memory.foldl_invalidate_row]
  simp only [Memory.putShare] at hr hp
  simp only [hp]
  exact hr

theorem rowToBanks (m : Memory) (k row c off : Nat) : m.Keeps (m.rowToBanks k row c off) := by
  unfold Memory.rowToBanks
  refine foldl _ (fun n x => ?_) _
  exact areas (hbank := writeCells_wf _ _ _)
    (hbankPois := foldl_keeps (fun t => Tab.wf false t = true) _ (fun _ _ ht => Tab.wf_put _ _ _ ht) _ _)

/-! ### Role areas (R140, R152) -/

theorem tileSet (m : Memory) (b c base row col v : Nat) : m.Keeps (tileSet m b c base row col v) :=
  areas (hbank := writeCells_wf _ _ _)

theorem swapRows (m : Memory) (b1 c1 base1 r1 b2 c2 base2 r2 : Nat) : m.Keeps (swapRows m b1 c1 base1 r1 b2 c2 base2 r2) :=
  foldl _ (fun n _ => (tileSet n ..).trans (tileSet ..)) _

theorem updateRow (m : Memory) (b c base row k rcp : Nat) (pivot : Nat → Nat) (umax : Nat) :
    m.Keeps (updateRow m b c base row k rcp pivot umax).1 :=
  foldl_keeps (fun x : Memory × Nat => m.Keeps x.1) _ (fun _ _ h => h.trans (tileSet ..)) _ _ (tileSet ..)

/-! ### Clocks, banks, ways -/

theorem mergeClock (m : Memory) (q : Nat) (v : List Nat) : m.Keeps (m.mergeClock q v) :=
  foldl _ (fun n j => by split; exacts [notes, refl n]) _

theorem mergeBytes (m : Memory) (q : Nat) (k : PlaceKind) (a n : Nat) : m.Keeps (m.mergeBytes q k a n) :=
  foldl _ (fun n j => by split; exacts [mergeClock .., refl n]) _

theorem stampWrite (m : Memory) (q : Nat) (k : PlaceKind) (a n : Nat) : m.Keeps (m.stampWrite q k a n) := by
  unfold Memory.stampWrite
  split
  · exact refl m
  · exact notes

theorem closeBank (m : Memory) (n p : Nat) : m.Keeps (m.closeBank n p) := notes

theorem settleBank (m : Memory) (n c : Nat) : m.Keeps (m.settleBank n c) := by
  unfold Memory.settleBank
  dsimp only
  split
  · exact closeBank ..
  · exact refl m

theorem setWaypart (m : Memory) (slice spw spasid : Nat) (taskWr clearErr : Bool) :
    m.Keeps (m.setWaypart slice spw spasid taskWr clearErr) := notes

end Memory.Keeps

end Sys2Proof.Machine
end

