-- ==== Sys2Proof/Proofs/Keeps.lean ====
section
/-! PROOFS. A state as canonical and as orderly as another: the relation that every operation of the model keeps, and its rules for the updates
of a state. -/
namespace Sys2Proof.Machine

/-- `s` is as canonical as `a`, and its Glasshouse as orderly. -/
structure State.Keeps (a s : State) : Prop where
  mem : a.mem.Keeps s.mem
  store : Tab.wf 0 a.fab.store = true → Tab.wf 0 s.fab.store = true

/-- So is the next state, if there is one. -/
def State.KeepsOut (a : State) (o : Out) : Prop := ∀ t, o = .next t → a.Keeps t
/-- So is the state, if there is one. -/
def State.KeepsOpt (a : State) (o : Option State) : Prop := ∀ t, o = some t → a.Keeps t

variable {a s t : State}

namespace State.Keeps

theorem refl (s : State) : s.Keeps s := ⟨.refl _, id⟩
theorem trans (h : a.Keeps s) (h' : s.Keeps t) : a.Keeps t := ⟨h.mem.trans h'.mem, h'.store ∘ h.store⟩

theorem memWf (h : a.Keeps s) (ha : a.memWf = true) : s.memWf = true := by
  simp only [State.memWf, Bool.and_eq_true] at ha ⊢
  exact ⟨h.mem.wf ha.1, h.store ha.2⟩

theorem next (h : a.Keeps s) : a.KeepsOut (.next s) := fun _ e => by cases e; exact h
theorem just (h : a.Keeps s) : a.KeepsOpt (some s) := fun _ e => by cases e; exact h

/-- The state that an answer brings with it. -/
theorem snd {α : Type} {p : α × State} {x : α} (h : a.Keeps p.2) (e : p = (x, t)) : a.Keeps t := by rw [e] at h; exact h
theorem snd2 {α β : Type} {p : α × β × State} {x : α} {y : β} (h : a.Keeps p.2.2) (e : p = (x, y, t)) : a.Keeps t := by
  rw [e] at h; exact h

theorem ite {c : Prop} [Decidable c] (hs : a.Keeps s) (ht : a.Keeps t) : a.Keeps (if c then s else t) := by
  split
  exacts [hs, ht]

theorem foldl {α : Type} {f : State → α → State} {l : List α} (h : a.Keeps s) (hf : ∀ s x, a.Keeps s → a.Keeps (f s x)) :
    a.Keeps (l.foldl f s) := foldl_keeps (fun s => a.Keeps s) f (fun s x h => hf s x h) l s h

/-! ### Updates -/

/-- What is neither memory nor context stores makes no difference. -/
theorem upd (h : a.Keeps s) {ag inp cur fresh cycles units busy turns fab tsk eng pow thm lnk boot ap pr pw fuse que sch err tap out}
    (e : fab.store = s.fab.store := by rfl) :
    a.Keeps { agenda := ag, inp := inp, cur := cur, fresh := fresh, cycles := cycles, units := units, busy := busy, turns := turns, fab := fab,
              tsk := tsk, mem := s.mem, eng := eng, pow := pow, thm := thm, lnk := lnk, boot := boot, apBase := ap, pcieRate := pr,
              pcieWidth := pw, fuse := fuse, que := que, sch := sch, err := err, tap := tap, out := out } :=
  ⟨h.mem, fun ha => (congrArg (Tab.wf 0) e).trans (h.store ha)⟩

theorem setFab (h : a.Keeps s) {f} (e : f.store = s.fab.store := by rfl) : a.Keeps (s.setFab f) :=
  ⟨h.mem, fun ha => (congrArg (Tab.wf 0) e).trans (h.store ha)⟩
theorem setStore (h : a.Keeps s) {f} (e : Tab.wf 0 s.fab.store = true → Tab.wf 0 f.store = true) : a.Keeps (s.setFab f) :=
  ⟨h.mem, e ∘ h.store⟩
theorem setMem (h : a.Keeps s) {m} (e : s.mem.Keeps m := by exact .notes) : a.Keeps (s.setMem m) := ⟨h.mem.trans e, h.store⟩
/-- The memory may come from another state that is as canonical. -/
theorem setMemOf (h : a.Keeps s) (h' : a.Keeps t) {m} (e : t.mem.Keeps m := by exact .notes) : a.Keeps (s.setMem m) :=
  ⟨h'.mem.trans e, h.store⟩
theorem setTsk (h : a.Keeps s) {x} : a.Keeps (s.setTsk x) := ⟨h.mem, h.store⟩
theorem setEng (h : a.Keeps s) {x} : a.Keeps (s.setEng x) := ⟨h.mem, h.store⟩
theorem setErr (h : a.Keeps s) {x} : a.Keeps (s.setErr x) := ⟨h.mem, h.store⟩
theorem setLnk (h : a.Keeps s) {x} : a.Keeps (s.setLnk x) := ⟨h.mem, h.store⟩
theorem setQue (h : a.Keeps s) {x} : a.Keeps (s.setQue x) := ⟨h.mem, h.store⟩
theorem setSch (h : a.Keeps s) {x} : a.Keeps (s.setSch x) := ⟨h.mem, h.store⟩

end State.Keeps

theorem State.KeepsOut.ite {o o' : Out} {c : Prop} [Decidable c] (h : a.KeepsOut o) (h' : a.KeepsOut o') : a.KeepsOut (if c then o else o') := by
  split
  exacts [h, h']
theorem State.KeepsOut.fault {f : Fault} : a.KeepsOut (.fault f) := fun _ e => nomatch e
theorem State.KeepsOut.refused {r : Refusal} : a.KeepsOut (.refused r) := fun _ e => nomatch e
theorem State.KeepsOpt.get {o : Option State} (h : a.KeepsOpt o) (e : o = some t) : a.Keeps t := h t e
theorem State.KeepsOpt.map {o : Option State} {f : State → State} (h : a.KeepsOpt o) (hf : ∀ s, a.Keeps s → a.Keeps (f s)) :
    a.KeepsOpt (o.map f) := by
  cases o with
  | none => exact fun _ e => nomatch e
  | some s => exact (hf s (h s rfl)).just
theorem State.KeepsOpt.mapOf {α : Type} {o : Option α} {f : α → State} (hf : ∀ x, a.Keeps (f x)) : a.KeepsOpt (o.map f) := by
  cases o with
  | none => exact fun _ e => nomatch e
  | some x => exact (hf x).just
theorem State.KeepsOpt.bind {o : Option State} {f : State → Option State} (h : a.KeepsOpt o)
    (hf : ∀ s, a.Keeps s → a.KeepsOpt (f s)) : a.KeepsOpt (o.bind f) := by
  cases o with
  | none => exact fun _ e => nomatch e
  | some s => exact hf s (h s rfl)
theorem State.KeepsOpt.getD {o : Option State} (h : a.KeepsOpt o) (hs : a.Keeps s) : a.Keeps (o.getD s) := by
  cases o with
  | none => exact hs
  | some t => exact h t rfl
theorem State.KeepsOpt.ite {o o' : Option State} {c : Prop} [Decidable c] (h : a.KeepsOpt o) (h' : a.KeepsOpt o') :
    a.KeepsOpt (if c then o else o') := by
  split
  exacts [h, h']
theorem State.KeepsOpt.none : a.KeepsOpt none := fun _ e => nomatch e

end Sys2Proof.Machine
end

