-- ==== Sys2Proof/Proofs/FrameOps.lean ====
section
-- Some hundred short proofs: checked as tasks of their own, all at once, they outgrow the memory that check.sh allows.
set_option Elab.async false
/-! PROOFS. What keeps the canonical form and the order: firing a node, and the accesses of the memory nodes and of their events. -/
namespace Sys2Proof.Machine
variable {a s t : State}

theorem State.Keeps.tick (h : a.Keeps s) : a.Keeps s.tick := h.upd
theorem State.Keeps.use (h : a.Keeps s) {k} : a.Keeps (s.use k) := h.upd
theorem State.Keeps.noteTurn (h : a.Keeps s) {space x n rank} : a.Keeps (s.noteTurn space x n rank) := h.upd
theorem State.Keeps.free (h : a.Keeps s) : a.Keeps (s.free).2 := h.upd
theorem State.Keeps.choose (h : a.Keeps s) {n} : a.Keeps (s.choose n).2 := h.upd
theorem State.Keeps.emitOut (h : a.Keeps s) {o} : a.Keeps (s.emitOut o) := h.upd
theorem State.Keeps.setCtx (h : a.Keeps s) {e c v} : a.Keeps (s.setCtx e c v) := h.setFab
theorem State.Keeps.setNodeSt (h : a.Keeps s) {aid e n v} : a.Keeps (s.setNodeSt aid e n v) := h.setFab
theorem State.Keeps.setTask (h : a.Keeps s) {tid x} : a.Keeps (s.setTask tid x) := h.setTsk
theorem State.Keeps.setThread (h : a.Keeps s) {n x} : a.Keeps (s.setThread n x) := h.setTsk
theorem State.Keeps.setAct (h : a.Keeps s) {x x1} : a.Keeps (s.setAct x x1) := h.setTsk

theorem State.Keeps.updTask (h : a.Keeps s) {tid f} : a.Keeps (s.updTask tid f) := by
  unfold State.updTask
  split
  exacts [h.setTask, h]

theorem State.Keeps.updThread (h : a.Keeps s) {n f} : a.Keeps (s.updThread n f) := by
  unfold State.updThread
  split
  exacts [h.setThread, h]

theorem State.Keeps.updAct (h : a.Keeps s) {x f} : a.Keeps (s.updAct x f) := by
  unfold State.updAct
  split
  exacts [h.setAct, h]

theorem State.Keeps.noteFired (h : a.Keeps s) {i nonNull} : a.Keeps (s.noteFired i nonNull) := h.updAct
theorem State.Keeps.trapLost (h : a.Keeps s) {n} : a.Keeps (s.trapLost n) := h.setErr

theorem State.Keeps.raiseAt (h : a.Keeps s) {aid elem node x f} : a.Keeps (s.raiseAt aid elem node x f) := by
  unfold State.raiseAt
  dsimp only
  split
  · exact h
  · split
    · exact h
    · split
      · exact h.setTsk
      · split
        exacts [h.setAct, .ite h (.ite h.setAct.trapLost h.trapLost)]

theorem State.Keeps.raise (h : a.Keeps s) {i x} : a.Keeps (s.raise i x) := .ite h h.raiseAt
theorem State.Keeps.nextSeq (h : a.Keeps s) {src} : a.Keeps (s.nextSeq src).2 := h.setFab
theorem State.Keeps.launchTok (h : a.Keeps s) {e target src b iter c n p bid} : a.Keeps (s.launchTok e target src b iter c n p bid) :=
  h.nextSeq.setFab

theorem State.Keeps.sendDest (h : a.Keeps s) {e c n i d aid b} : a.Keeps (s.sendDest e c n i d aid b) := by
  unfold State.sendDest
  dsimp only
  split
  · exact h
  · split
    exacts [h, h.launchTok]

theorem State.Keeps.sendBeat (h : a.Keeps s) {e c n r aid b} : a.Keeps (s.sendBeat e c n r aid b) :=
  .ite (.sendDest (.ite h.sendDest h)) (.ite h.sendDest h)
theorem State.Keeps.reply (h : a.Keeps s) {i r p} : a.Keeps (s.reply i r p) := h.sendBeat

theorem State.Keeps.openBindings (h : a.Keeps s) : a.Keeps s.openBindings := by
  unfold State.openBindings
  dsimp only
  refine h.foldl fun _ _ h1 => ?_
  split
  exacts [h1, .ite h1 (.ite h1.setEng h1.setEng.reply)]

theorem State.Keeps.setFlags (h : a.Keeps s) {e c fl} : a.Keeps (s.setFlags e c fl) := h.setCtx
theorem State.Keeps.clearFlags (h : a.Keeps s) {e c v} : a.Keeps (s.clearFlags e c v) := h.setCtx
theorem State.Keeps.seed (h : a.Keeps s) {e c v} : a.Keeps (s.seed e c v) := h.setCtx
theorem State.Keeps.keepSeed (h : a.Keeps s) {e c} : a.Keeps (s.keepSeed e c) := h.setFab
theorem State.Keeps.emit (h : a.Keeps s) {i r lat bs} : a.Keeps (s.emit i r lat bs) := .ite h h.setCtx
theorem State.Keeps.fireVal (h : a.Keeps s) {i opc r v x fl} : a.Keeps (s.fireVal i opc r v x fl) := h.setFlags.emit
theorem State.Keeps.fireNull (h : a.Keeps s) {i opc r} : a.Keeps (s.fireNull i opc r) := h.emit

theorem State.Keeps.fire (h : a.Keeps s) {opc r body} (hbody : ∀ x0 x1 x2 x3 s, a.Keeps s → a.Keeps (body x0 x1 x2 x3 s)) : a.KeepsOut
    (s.fire opc r body) := by
  unfold State.fire
  dsimp only
  split
  · exact h.next
  · split
    · exact h.upd.fireNull.next
    · split
      exacts [h.upd.raise.next, (hbody _ _ _ _ _ h.upd).next]

theorem State.Keeps.fireOwn (h : a.Keeps s) {opc r body} (hbody : ∀ x0 s, a.Keeps s → a.Keeps (body x0 s)) : a.KeepsOut (s.fireOwn opc r
    body) := by
  unfold State.fireOwn
  dsimp only
  split
  exacts [h.next, .ite h.upd.fireNull.next ((hbody _ _ h.upd).next)]

theorem State.Keeps.fireLanes (h : a.Keeps s) {opc r w g} : a.KeepsOut (s.fireLanes opc r w g) := h.fire fun _ _ _ _ _ h => h.fireVal
theorem State.Keeps.fireRound (h : a.Keeps s) {opc r w g} : a.KeepsOut (s.fireRound opc r w g) := h.fire fun _ _ _ _ _ h => h.fireVal
theorem State.Keeps.divider (h : a.Keeps s) {e} : a.Keeps (s.divider e) := h.setFab

theorem State.Keeps.account (h : a.Keeps s) {i k nonNull} : a.Keeps (s.account i k nonNull).2 := by
  unfold State.account
  dsimp only
  split
  · exact h
  · split
    exacts [h.setAct.raise, h.setAct]

theorem State.Keeps.fireArith (h : a.Keeps s) {opc r g} : a.KeepsOut (s.fireArith opc r g) := h.fireRound
theorem execFadd_keeps (h : a.Keeps s) {r} : a.KeepsOut (execFadd r s) := h.fireArith
theorem execFsub_keeps (h : a.Keeps s) {r} : a.KeepsOut (execFsub r s) := h.fireArith
theorem execFmul_keeps (h : a.Keeps s) {r} : a.KeepsOut (execFmul r s) := h.fireArith
theorem execFma_keeps (h : a.Keeps s) {r} : a.KeepsOut (execFma r s) := h.fireArith
theorem execFms_keeps (h : a.Keeps s) {r} : a.KeepsOut (execFms r s) := h.fireArith
theorem execFnma_keeps (h : a.Keeps s) {r} : a.KeepsOut (execFnma r s) := h.fireArith
theorem execFmin_keeps (h : a.Keeps s) {r} : a.KeepsOut (execFmin r s) := h.fireRound
theorem execFmax_keeps (h : a.Keeps s) {r} : a.KeepsOut (execFmax r s) := h.fireRound
theorem execFabs_keeps (h : a.Keeps s) {r} : a.KeepsOut (execFabs r s) := h.fireLanes
theorem execFneg_keeps (h : a.Keeps s) {r} : a.KeepsOut (execFneg r s) := h.fireLanes
theorem execFsgn_keeps (h : a.Keeps s) {r} : a.KeepsOut (execFsgn r s) := h.fireLanes
theorem execFclass_keeps (h : a.Keeps s) {r} : a.KeepsOut (execFclass r s) := h.fireLanes
theorem execFrnd_keeps (h : a.Keeps s) {r} : a.KeepsOut (execFrnd r s) := h.fireRound
theorem State.Keeps.fireDivFloat (h : a.Keeps s) {opc r g} : a.KeepsOut (s.fireDivFloat opc r g) :=
  h.fire fun _ _ _ _ _ h => h.divider.fireVal
theorem execFsqrt_keeps (h : a.Keeps s) {r} : a.KeepsOut (execFsqrt r s) := h.fireDivFloat
theorem execFdiv_keeps (h : a.Keeps s) {r} : a.KeepsOut (execFdiv r s) := h.fireDivFloat
theorem State.Keeps.fireApprox (h : a.Keeps s) {opc r pick g} : a.KeepsOut (s.fireApprox opc r pick g) := h.fireRound
theorem execFrcp_keeps (h : a.Keeps s) {r} : a.KeepsOut (execFrcp r s) := h.fireApprox
theorem execFrsq_keeps (h : a.Keeps s) {r} : a.KeepsOut (execFrsq r s) := h.fireApprox
theorem execFexp2_keeps (h : a.Keeps s) {r} : a.KeepsOut (execFexp2 r s) := h.fireApprox
theorem execFlog2_keeps (h : a.Keeps s) {r} : a.KeepsOut (execFlog2 r s) := h.fireApprox
theorem execFtanh_keeps (h : a.Keeps s) {r} : a.KeepsOut (execFtanh r s) := h.fireApprox
theorem State.Keeps.fireConv (h : a.Keeps s) {opc r i x f rm sat sr xs} : a.Keeps (s.fireConv opc r i x f rm sat sr xs) :=
  .fireVal (.ite h.setCtx h)
theorem execCvt_keeps (h : a.Keeps s) {r} : a.KeepsOut (execCvt r s) := h.fire fun _ _ _ _ _ h => h.fireConv
theorem execCvti_keeps (h : a.Keeps s) {r} : a.KeepsOut (execCvti r s) := h.fire fun _ _ _ _ _ h => h.fireConv
theorem execCvtf_keeps (h : a.Keeps s) {r} : a.KeepsOut (execCvtf r s) := h.fire fun _ _ _ _ _ h => h.fireConv
theorem execQamax_keeps (h : a.Keeps s) {r} : a.KeepsOut (execQamax r s) := h.fire fun _ _ _ _ _ h => h.fireVal
theorem execQscale_keeps (h : a.Keeps s) {r} : a.KeepsOut (execQscale r s) := h.fire fun _ _ _ _ _ h => h.fireVal
theorem execQpack_keeps (h : a.Keeps s) {r} : a.KeepsOut (execQpack r s) := h.fire fun _ _ _ _ _ h => h.fireConv
theorem execQunpack_keeps (h : a.Keeps s) {r} : a.KeepsOut (execQunpack r s) := h.fire fun _ _ _ _ _ h => h.fireConv
theorem execSrseed_keeps (h : a.Keeps s) {r} : a.KeepsOut (execSrseed r s) := h.fire fun _ _ _ _ _ h => h.seed.fireVal

theorem State.Keeps.translate (h : a.Keeps s) {port asid va write} : a.Keeps (s.translate port asid va write).2 := by
  unfold State.translate
  dsimp only
  split
  next e => exact h.choose.setMem (.snd (.translate ..) e)
  next e => exact h.choose.setMem (.snd (.translate ..) e)

theorem State.Keeps.locateGlobal (h : a.Keeps s) {port asid va size write} : a.Keeps (s.locateGlobal port asid va size write).2 := by
  unfold State.locateGlobal
  split
  · exact h
  · split
    next e => exact h.translate.snd e
    next e =>
      split
      exacts [h.translate.snd e, h.translate.snd e]

theorem State.Keeps.locate (h : a.Keeps s) {i space addr size write} : a.Keeps (s.locate i space addr size write).2 := by
  unfold State.locate
  split
  · exact h
  · split
    · exact h.locateGlobal
    · split
      exacts [h, h]

theorem State.Keeps.l1Drop (h : a.Keeps s) {tid c} : a.Keeps (s.l1Drop tid c) := h.setMem
theorem State.Keeps.l1DropTask (h : a.Keeps s) {tid} : a.Keeps (s.l1DropTask tid) := h.setMem
theorem State.Keeps.l1DropLine (h : a.Keeps s) {tid line keep} : a.Keeps (s.l1DropLine tid line keep) := h.setMem

theorem State.Keeps.l1Store (h : a.Keeps s) {tid c pa bs} : a.Keeps (s.l1Store tid c pa bs) := by
  unfold State.l1Store
  dsimp only
  split
  exacts [h.l1DropLine, h.l1DropLine.setMem]

theorem State.Keeps.l1Fill (h : a.Keeps s) {tid c line bs} : a.Keeps (s.l1Fill tid c line bs) := by
  unfold State.l1Fill
  dsimp only
  split
  · exact h.l1DropLine
  · split
    exacts [h.l1DropLine, h.l1DropLine.setMem]

theorem State.Keeps.l1Hit (h : a.Keeps s) {tid c pa n} : a.Keeps (s.l1Hit tid c pa n).2 := by
  unfold State.l1Hit
  dsimp only
  split
  exacts [h, h.setMem]

theorem State.Keeps.readAt (h : a.Keeps s) {k x n} : a.Keeps (s.readAt k x n).2.2 := by
  unfold State.readAt
  dsimp only
  split
  exacts [h.setMem (.read ..), h, h, h]

theorem State.Keeps.noteWrite (h : a.Keeps s) {k x n} : a.Keeps (s.noteWrite k x n) := h.setMem.setSch

theorem State.Keeps.storeAt (h : a.Keeps s) {k x bs pois} : a.Keeps (s.storeAt k x bs pois) := by
  refine .noteWrite ?_
  cases k with
  | global => exact h.setMem ((Memory.Keeps.write ..).trans (.unstamp ..))
  | buffer =>
    exact h.setMem (.areas (hbank := writeCells_wf _ _ _) (hbankPois := markPois_wf _ _ _ _))
  | scratch =>
    exact h.setMem (.areas (hscratch := writeCells_wf _ _ _) (hscratchPois := markPois_wf _ _ _ _))
  | domain => exact h

theorem State.Keeps.writeAt (h : a.Keeps s) {k x bs pois} : a.Keeps (s.writeAt k x bs pois) := h.storeAt.noteTurn
theorem State.Keeps.badRing (h : a.Keeps s) : a.Keeps s.badRing := h.setQue

theorem State.Keeps.sendIrq (h : a.Keeps s) {irq} : a.Keeps (s.sendIrq irq) := by
  unfold State.sendIrq
  split
  exacts [h.emitOut, h]

theorem State.Keeps.sendReq (h : a.Keeps s) {k pa size data acc asid tag marks irq} : a.Keeps (s.sendReq k pa size data acc asid tag marks
    irq) :=
  .ite h.upd h.upd.emitOut
theorem State.Keeps.dropFetches (h : a.Keeps s) {who} : a.Keeps (s.dropFetches who) := h.setLnk

theorem State.Keeps.readWindow (h : a.Keeps s) {who asid pa n} : a.Keeps (s.readWindow who asid pa n).2 := by
  unfold State.readWindow
  dsimp only
  split
  · exact h
  · split
    · split
      exacts [h, h]
    · split
      exacts [h.upd, h.sendReq.setLnk]

theorem State.Keeps.answerFetch (h : a.Keeps s) {req bs src} : a.Keeps (s.answerFetch req bs src) := h.setLnk
theorem State.Keeps.holdOp (h : a.Keeps s) {i ins} : a.Keeps (s.holdOp i ins).2 := h.upd
theorem State.Keeps.dropHeld (h : a.Keeps s) {id} : a.Keeps (s.dropHeld id) := h.setFab.dropFetches
theorem State.Keeps.setHeldOp (h : a.Keeps s) {x} : a.Keeps (s.setHeldOp x) := h.setFab
theorem State.Keeps.snapEarlier (h : a.Keeps s) {x k x1 bs p} : a.Keeps (s.snapEarlier x k x1 bs p) := h.setMem.setFab

theorem State.Keeps.readPlace (h : a.Keeps s) {who asid pl n} : a.Keeps (s.readPlace who asid pl n).2 := by
  unfold State.readPlace
  dsimp only
  split
  · exact h.readWindow
  · split
    exacts [h, h.readAt]

theorem State.Keeps.joinWork (h : a.Keeps s) {x reads} : a.Keeps (s.joinWork x reads) :=
  h.foldl fun _ _ h => .ite (State.Keeps.setMem (.ite h.l1DropTask h) (.foldl _ (fun m (b, n) => .cleanRange m b n) _))
    (.ite h.l1DropTask h)

theorem State.Keeps.endAccess (h : a.Keeps s) {x p} : a.Keeps (s.endAccess x p) := h.joinWork.setMem.reply
theorem State.Keeps.setAcc (h : a.Keeps s) {x} : a.Keeps (s.setAcc x) := h.setMem

theorem State.Keeps.fireMem (h : a.Keeps s) {opc r body} (hbody : ∀ x0 x1 x2 x3 s, a.Keeps s → a.Keeps (body x0 x1 x2 x3 s)) : a.KeepsOut
    (s.fireMem opc r body) := by
  unfold State.fireMem
  dsimp only
  split
  · exact h.next
  · split
    · split
      · exact h.upd.account.next
      · split
        · exact h.upd.account.fireNull.next
        · split
          exacts [h.upd.account.raise.next, (hbody _ _ _ _ _ h.upd.account).next]
    · split
      · exact h.upd.noteFired.next
      · split
        · exact h.upd.noteFired.fireNull.next
        · split
          exacts [h.upd.noteFired.raise.next, (hbody _ _ _ _ _ h.upd.noteFired).next]

theorem State.Keeps.notePerformed (h : a.Keeps s) {x p} : a.Keeps (s.notePerformed x p) := h.updAct
theorem State.Keeps.freeLatch (h : a.Keeps s) {i} : a.Keeps (s.freeLatch i) := .ite h.setCtx h

theorem State.Keeps.freeWaiter (h : a.Keeps s) {port} : a.Keeps (s.freeWaiter port) := by
  unfold State.freeWaiter
  split
  exacts [h, h.setAcc.freeLatch]

theorem State.Keeps.noteAcquired (h : a.Keeps s) {i} : a.Keeps (s.noteAcquired i) := h.updThread

theorem State.Keeps.acquire (h : a.Keeps s) {x} : a.Keeps (s.acquire x) := by
  unfold State.acquire
  split
  · exact h
  · refine .noteAcquired (.setMem ?_ (.foldl _ (fun m _ => ?_) _))
    · split
      exacts [h.l1DropTask, h]
    · dsimp only
      split
      exacts [.mergeBytes .., .refl m]

theorem State.Keeps.release (h : a.Keeps s) {x} : a.Keeps (s.release x) := .ite h.l1DropTask h
theorem State.Keeps.setDone (h : a.Keeps s) {x} : a.Keeps (s.setDone x) := .ite h.setAcc.acquire h.setAcc
theorem State.Keeps.dropWatch (h : a.Keeps s) {id} : a.Keeps (s.dropWatch id) := h.setMem
theorem State.Keeps.endWatch (h : a.Keeps s) {w v pois} : a.Keeps (s.endWatch w v pois) :=
  .reply (.ite h.dropWatch.acquire.joinWork.l1DropLine h.dropWatch.acquire.joinWork)
theorem State.Keeps.setWatch (h : a.Keeps s) {w} : a.Keeps (s.setWatch w) := h.setMem

theorem State.Keeps.wake (h : a.Keeps s) {x v} : a.Keeps (s.wake x v) := by
  unfold State.wake
  dsimp only
  split
  exacts [h, h.setMem]

theorem State.Keeps.elemWrite (h : a.Keeps s) {i k x bs pois} : a.Keeps (s.elemWrite i k x bs pois) :=
  .setMem (.ite h.storeAt.noteTurn.l1Store h.storeAt.noteTurn) (.stampWrite ..)

theorem State.Keeps.performStore (h : a.Keeps s) {x mask} : a.Keeps (s.performStore x mask) := by
  unfold State.performStore
  dsimp only
  split
  · split
    · refine (h.release.foldl fun _ _ h1 => ?_).setAcc.notePerformed.freeLatch.freeWaiter.wake
      split
      exacts [h1, h1.elemWrite]
    · refine (h.release.foldl fun _ _ h1 => ?_).setAcc.notePerformed.freeLatch.freeWaiter
      split
      exacts [h1, h1.elemWrite]
  · refine (h.release.foldl fun _ _ h1 => ?_).setAcc
    split
    exacts [h1, h1.elemWrite]

theorem State.Keeps.performAtomic (h : a.Keeps s) {x} : a.Keeps (s.performAtomic x) := by
  unfold State.performAtomic
  dsimp only
  split
  · exact h
  · refine .freeWaiter (.freeLatch (.notePerformed (.setAcc ?_)))
    split
    · refine .l1DropLine ?_
      split
      exacts [h.release.readAt.acquire.elemWrite, h.release.readAt.acquire]
    · split
      exacts [h.release.readAt.acquire.elemWrite, h.release.readAt.acquire]

theorem State.Keeps.isolated (h : a.Keeps s) {x} : a.Keeps (s.isolated x) := .freeWaiter (.freeLatch (.setDone (.ite h.notePerformed h)))
theorem State.Keeps.readHome (h : a.Keeps s) {x k x1 n} : a.Keeps (s.readHome x k x1 n).2.2 :=
  .snapEarlier (.ite h.readAt.l1DropLine h.readAt)
theorem State.Keeps.performRemote (h : a.Keeps s) {x k mask x1 n data} : a.Keeps (s.performRemote x k mask x1 n data) :=
  .ite (.ite h.elemWrite.setDone h.readHome.setDone) (.ite h.setDone (.ite h.free.badRing.setDone (.ite h.upd.isolated h.sendReq)))

theorem State.Keeps.performDomain (h : a.Keeps s) {x} : a.Keeps (s.performDomain x) := by
  unfold State.performDomain
  dsimp only
  split
  · split
    exacts [h.release.setAcc, h.release.setAcc.performRemote]
  · refine h.release.setAcc.foldl fun _ _ h1 => ?_
    split
    exacts [h1, h1.performRemote]

theorem State.Keeps.capTrap (h : a.Keeps s) {x} : a.Keeps (s.capTrap x) := h.setMem.freeLatch.freeWaiter.raise

theorem State.Keeps.perform (h : a.Keeps s) {x mask} : a.Keeps (s.perform x mask) := by
  unfold State.perform
  split
  · exact h
  · split
    · exact h.capTrap
    · split
      · exact h.performDomain
      · split
        · exact h.performAtomic
        · split
          exacts [h.performStore, h]

theorem State.Keeps.addAccess (h : a.Keeps s) {i ins k parts data data2 write attr} : a.Keeps (s.addAccess i ins k parts data data2 write
    attr) :=
  .ite (.perform (.ite h.upd.setMem.setCtx h.upd.setMem)) (.ite h.upd.setMem.setCtx h.upd.setMem)
theorem State.Keeps.replyPerformed (h : a.Keeps s) {i ins r p} : a.Keeps (s.replyPerformed i ins r p) := h.joinWork.reply

theorem State.Keeps.startMem (h : a.Keeps s) {i ins r x n data data2 write} : a.Keeps (s.startMem i ins r x n data data2 write) := by
  unfold State.startMem
  split
  · exact h.replyPerformed
  · split
    · exact h.holdOp
    · split
      next e1 => exact (h.locate.snd e1).raise
      next e1 => exact (h.locate.snd e1).addAccess

theorem State.Keeps.startLoad (h : a.Keeps s) {i ins r n} : a.Keeps (State.startLoad i ins r n s) := h.startMem
theorem State.Keeps.startStore (h : a.Keeps s) {i ins r n} : a.Keeps (State.startStore i ins r n s) := h.startMem
theorem State.Keeps.startAmo (h : a.Keeps s) {i ins r} : a.Keeps (State.startAmo i ins r s) := h.startMem
theorem execLd_keeps (h : a.Keeps s) {r} : a.KeepsOut (execLd r s) := h.fireMem fun _ _ _ _ _ h => h.startLoad
theorem execSt_keeps (h : a.Keeps s) {r} : a.KeepsOut (execSt r s) := h.fireMem fun _ _ _ _ _ h => h.startStore
theorem execLdv_keeps (h : a.Keeps s) {r} : a.KeepsOut (execLdv r s) := h.fireMem fun _ _ _ _ _ h => h.startLoad
theorem execStv_keeps (h : a.Keeps s) {r} : a.KeepsOut (execStv r s) := h.fireMem fun _ _ _ _ _ h => h.startStore
theorem State.Keeps.fireAmo (h : a.Keeps s) {opc ins r} : a.KeepsOut (s.fireAmo opc ins r) := h.fireMem fun _ _ _ _ _ h => h.startAmo
theorem execAmoadd_keeps (h : a.Keeps s) {r} : a.KeepsOut (execAmoadd r s) := h.fireAmo
theorem execAmofadd_keeps (h : a.Keeps s) {r} : a.KeepsOut (execAmofadd r s) := h.fireAmo
theorem execAmomin_keeps (h : a.Keeps s) {r} : a.KeepsOut (execAmomin r s) := h.fireAmo
theorem execAmomax_keeps (h : a.Keeps s) {r} : a.KeepsOut (execAmomax r s) := h.fireAmo
theorem execAmoand_keeps (h : a.Keeps s) {r} : a.KeepsOut (execAmoand r s) := h.fireAmo
theorem execAmoor_keeps (h : a.Keeps s) {r} : a.KeepsOut (execAmoor r s) := h.fireAmo
theorem execAmoxor_keeps (h : a.Keeps s) {r} : a.KeepsOut (execAmoxor r s) := h.fireAmo
theorem execAmoswp_keeps (h : a.Keeps s) {r} : a.KeepsOut (execAmoswp r s) := h.fireAmo
theorem execAmocas_keeps (h : a.Keeps s) {r} : a.KeepsOut (execAmocas r s) := h.fireAmo
theorem execWakea_keeps (h : a.Keeps s) {r} : a.KeepsOut (execWakea r s) := h.fireMem fun _ _ _ _ _ h => h.startStore

theorem State.Keeps.performPref (h : a.Keeps s) {x r} : a.Keeps (State.performPref x r s) := by
  unfold State.performPref
  refine .ite h.dropHeld (.ite h ?_)
  split
  next e =>
    have ht := h.locateGlobal.snd e
    have hr := fun p => (ht.dropHeld (id := x.id)).readAt (k := .global) (x := p) (n := 64)
    exact .ite ht (.ite (.ite ht.dropHeld ht.dropHeld.sendReq) (.ite ht (.ite (hr _).l1Fill (hr _))))
  next e => exact (h.locateGlobal.snd e).dropHeld

theorem execPref_keeps (h : a.Keeps s) {r} : a.KeepsOut (execPref r s) := by
  unfold execPref
  dsimp only
  split
  exacts [h.next, .ite h.upd.noteFired.next h.upd.noteFired.holdOp.performPref.next]

theorem State.Keeps.locateAll (h : a.Keeps s) {i asid va0 attr write x} : a.Keeps (s.locateAll i asid va0 attr write x).2 := by
  induction x generalizing s with
  | nil => exact h
  | cons y r ih =>
    unfold State.locateAll
    split
    next e => exact h.locateGlobal.snd e
    next e =>
      have he := h.locateGlobal.snd e
      split
      · exact h.locateGlobal.snd e
      · split
        next e1 => exact (ih he).snd e1
        next e1 => exact (ih he).snd e1

theorem State.Keeps.startLdb (h : a.Keeps s) {i r} : a.Keeps (State.startLdb i r s) := by
  unfold State.startLdb
  dsimp only
  split
  · exact h.raise
  · split
    · exact h.holdOp
    · split
      next e => exact (h.locateGlobal.snd e).raise
      next e =>
        have he := h.locateGlobal.snd e
        split
        · exact he.raise
        · split
          · exact he.raise
          · split
            · exact he.holdOp
            · split
              next e2 => exact (he.locateAll.snd e2).raise
              next e2 => exact (he.locateAll.snd e2).addAccess

theorem execLdb_keeps (h : a.Keeps s) {r} : a.KeepsOut (execLdb r s) := h.fireMem fun _ _ _ _ _ h => h.startLdb

theorem State.Keeps.startStb (h : a.Keeps s) {i r} : a.Keeps (State.startStb i r s) := by
  unfold State.startStb
  dsimp only
  split
  · exact h.replyPerformed
  · split
    · exact h.raise
    · split
      · exact h.holdOp
      · split
        next e1 => exact (h.locateGlobal.snd e1).raise
        next e1 =>
          have he1 := h.locateGlobal.snd e1
          split
          · exact he1.raise
          · split
            · exact he1.raise
            · split
              · exact he1.holdOp
              · split
                next e3 => exact (he1.locateAll.snd e3).raise
                next e3 => exact (he1.locateAll.snd e3).addAccess

theorem execStb_keeps (h : a.Keeps s) {r} : a.KeepsOut (execStb r s) := h.fireMem fun _ _ _ _ _ h => h.startStb

theorem execJoinf_keeps (h : a.Keeps s) {r} : a.KeepsOut (execJoinf r s) := by
  unfold execJoinf
  dsimp only
  split
  · exact h.next
  · split
    · exact h.upd.fireNull.next
    · split
      exacts [h.upd.raise.next, h.upd.emit.next]

theorem State.Keeps.startWaita (h : a.Keeps s) {i r} : a.Keeps (State.startWaita i r s) := by
  unfold State.startWaita
  dsimp only
  split
  · exact h.holdOp
  · split
    next e => exact (h.locate.snd e).raise
    next e => exact (h.locate.snd e).upd.setMem

theorem execWaita_keeps (h : a.Keeps s) {r} : a.KeepsOut (execWaita r s) := h.fireMem fun _ _ _ _ _ h => h.startWaita

theorem State.Keeps.startHeldMem (h : a.Keeps s) {x} : a.Keeps (State.startHeldMem x s) := by
  unfold State.startHeldMem
  dsimp only
  split
  exacts [h.dropHeld.startLoad, h.dropHeld.startLoad, h.dropHeld.startStore, h.dropHeld.startStore, h.dropHeld.startStore,
      h.dropHeld.startLdb, h.dropHeld.startStb, h.dropHeld.startAmo, h.dropHeld.startAmo, h.dropHeld.startAmo, h.dropHeld.startAmo,
      h.dropHeld.startAmo, h.dropHeld.startAmo, h.dropHeld.startAmo, h.dropHeld.startAmo, h.dropHeld.startAmo, h.dropHeld.startWaita,
      h.performPref, h]

theorem State.Keeps.bindPart (h : a.Keeps s) {x p n} : a.Keeps (s.bindPart x p n).2.2 := by
  unfold State.bindPart
  dsimp only
  generalize (_ && _ : Bool) = l1
  split
  · exact h.readHome
  · refine .snapEarlier ?_
    split
    next e => exact h.l1Hit.snd e
    next e =>
      have hr := ((h.l1Hit.snd e).readAt (k := .global) (x := p) (n := n)).readAt (k := .global) (x := p / 64 * 64) (n := 64)
      split
      exacts [hr, hr.l1Fill]

theorem State.Keeps.bindParts (h : a.Keeps s) {x mask} : a.Keeps (s.bindParts x mask).2 := by
  unfold State.bindParts
  refine foldl_keeps (fun x : Access × State => a.Keeps x.2) _ (fun x _ h => ?_) _ _ h
  dsimp only
  split
  exacts [h, h.bindPart]

theorem State.Keeps.finishAccess (h : a.Keeps s) {x p} : a.Keeps (s.finishAccess x p) := .endAccess (.ite h.setFlags h)

theorem State.Keeps.complete (h : a.Keeps s) {id mask ecc} : a.Keeps (s.complete id mask ecc) := by
  unfold State.complete
  dsimp only
  split
  exacts [h, .ite (.ite h h.finishAccess) (.ite h (.ite h.perform (.ite h (.ite h.capTrap (.ite h.bindParts.setAcc (.ite
      h.bindParts.setAcc.acquire.finishAccess h.bindParts.setAcc.acquire))))))]

theorem execMemoryAccessComplete_keeps (h : a.Keeps s) : a.KeepsOut (execMemoryAccessComplete s) := by
  unfold execMemoryAccessComplete
  split
  exacts [h.upd.complete.next, h.next]

theorem State.Keeps.sawWord (h : a.Keeps s) {w v pois} : a.Keeps (s.sawWord w v pois) := .ite h.endWatch h.setWatch
theorem State.Keeps.askPeer (h : a.Keeps s) {w} : a.Keeps (s.askPeer w) := .ite h.sawWord (.ite h.setLnk.dropWatch.reply h.setWatch.sendReq)

theorem State.Keeps.readWatch (h : a.Keeps s) {w} : a.Keeps (s.readWatch w) := by
  unfold State.readWatch
  dsimp only
  split
  · exact h.setWatch
  · split
    next e => exact (h.locate.snd e).dropWatch.raise
    next e => exact .ite ((h.locate.snd e).setWatch) (.ite ((h.locate.snd e).askPeer) ((h.locate.snd e).readAt.sawWord))

theorem State.Keeps.watchTurn (h : a.Keeps s) {w} : a.Keeps (s.watchTurn w) := by
  unfold State.watchTurn
  dsimp only
  split
  · split
    exacts [h.readWatch, h]
  · split
    exacts [.endWatch (.ite h.readWatch h), .ite (.endWatch (.ite h.readWatch h)) (.ite h.readWatch h)]

theorem State.Keeps.watchesEnd (h : a.Keeps s) : a.Keeps s.watchesEnd := h.foldl fun _ _ h => h.watchTurn

theorem execWaitaReread_keeps (h : a.Keeps s) : a.KeepsOut (execWaitaReread s) := by
  unfold execWaitaReread
  dsimp only
  split
  · split
    · exact h.upd.next
    · split
      exacts [.ite h.upd.setWatch.next h.upd.next, .ite h.upd.setWatch.next h.upd.next]
  · exact h.next

theorem execWaitaTimeout_keeps (h : a.Keeps s) : a.KeepsOut (execWaitaTimeout s) := by
  unfold execWaitaTimeout
  dsimp only
  split
  · split
    exacts [h.upd.next, .ite h.upd.next h.upd.setWatch.next]
  · exact h.next

theorem execGhLineFill_keeps (h : a.Keeps s) : a.KeepsOut (execGhLineFill s) := by
  unfold execGhLineFill
  dsimp only
  split
  · split
    · exact h.upd.next
    next hc =>
      split
      · exact h.upd.next
      next hw =>
        simp only [Bool.or_eq_true, not_or, Bool.not_eq_true, Option.isSome_eq_false_iff, Option.isNone_iff_eq_none] at hc
        exact State.Keeps.next (.setMem (s := { s with inp := none }) h.upd (.fillAt hc.1.2 hw))
  · exact h.next

theorem execGhWaypartWrite_keeps (h : a.Keeps s) : a.KeepsOut (execGhWaypartWrite s) := by
  unfold execGhWaypartWrite
  dsimp only
  split
  exacts [.ite h.upd.next h.upd.setMem.next, h.next]

theorem execGhDrainEnd_keeps (h : a.Keeps s) : a.KeepsOut (execGhDrainEnd s) := by
  unfold execGhDrainEnd
  split
  exacts [.ite h.upd.next (h.upd.setMem ((Memory.Keeps.foldl _ (fun m k => .evict m k) _).trans .notes)).next, h.next]

theorem execGhZeroEnd_keeps (h : a.Keeps s) : a.KeepsOut (execGhZeroEnd s) := by
  unfold execGhZeroEnd
  split
  exacts [.ite h.upd.next (State.Keeps.next (.setMem (s := { s with inp := none }) h.upd (.areas (hscratch := Tab.wf_filter _ _)
      (hscratchPois := Tab.wf_filter _ _)))), h.next]

theorem State.Keeps.invalidate (h : a.Keeps s) {p asids} : a.Keeps (s.invalidate p asids) := h.setMem

theorem execTrInvAll_keeps (h : a.Keeps s) : a.KeepsOut (execTrInvAll s) := by
  unfold execTrInvAll
  split
  exacts [h.upd.invalidate.next, h.next]

theorem execTrInvAsid_keeps (h : a.Keeps s) : a.KeepsOut (execTrInvAsid s) := by
  unfold execTrInvAsid
  split
  exacts [h.upd.invalidate.next, h.next]

theorem execTrInvPage_keeps (h : a.Keeps s) : a.KeepsOut (execTrInvPage s) := by
  unfold execTrInvPage
  split
  exacts [h.upd.invalidate.next, h.next]

theorem execPageWalk_keeps (h : a.Keeps s) : a.KeepsOut (execPageWalk s) := by
  unfold execPageWalk
  split
  exacts [h.upd.translate.next, h.next]

theorem execVectorClockAnnounce_keeps (h : a.Keeps s) : a.KeepsOut (execVectorClockAnnounce s) := by
  unfold execVectorClockAnnounce
  dsimp only
  split
  exacts [h.upd.setMem.next, h.next]

theorem execPgRemapStart_keeps (h : a.Keeps s) : a.KeepsOut (execPgRemapStart s) := by
  unfold execPgRemapStart
  split
  exacts [.ite h.upd.next (h.upd.setSch.setMem ((Memory.Keeps.closeAll ..).trans ((Memory.Keeps.flushPergola _).trans .notes))).next,
      h.next]

theorem execPgRemapDone_keeps (h : a.Keeps s) : a.KeepsOut (execPgRemapDone s) := by
  unfold execPgRemapDone
  split
  · exact .ite h.upd.next (State.Keeps.next (.setMemOf (t := { s with inp := none }) h.upd h.upd (.replaced {
      lines := rfl
      main := rfl
      mainPois := rfl
      areas := ⟨rfl, rfl, rfl, rfl, rfl⟩
      dram := rfl
      dramPois := rfl
      within := fun _ hg => of_decide_eq_true (List.mem_filter.1 hg).2 })))
  · exact h.next

theorem execBusTesterBeat_keeps (h : a.Keeps s) : a.KeepsOut (execBusTesterBeat s) := by
  unfold execBusTesterBeat
  dsimp only
  split
  exacts [.ite h.upd.next (.ite h.upd.setMem.next h.upd.setMem.next), h.next]

end Sys2Proof.Machine
end

