-- ==== Sys2Proof/Proofs/FrameFabric.lean ====
section
-- Some hundred short proofs: checked as tasks of their own, all at once, they outgrow the memory that check.sh allows.
set_option Elab.async false
/-! PROOFS. What keeps the canonical form and the order: the fabric, activations, tasks and blocks. -/
namespace Sys2Proof.Machine
variable {a s t : State}

theorem State.Keeps.countElem (h : a.Keeps s) {e uncorr} : a.Keeps (s.countElem e uncorr) := h.setFab
theorem State.Keeps.logVote (h : a.Keeps s) {aid e n l} : a.Keeps (s.logVote aid e n l) := h.setErr

theorem State.Keeps.ringBytes (h : a.Keeps s) {base size wp x} : a.Keeps (s.ringBytes base size wp x) := by
  induction x generalizing s wp with
  | nil => exact h
  | cons y r ih =>
    unfold State.ringBytes
    exact ih h.writeAt

theorem State.Keeps.tapDrop (h : a.Keeps s) {i} : a.Keeps (s.tapDrop i) := h.upd
theorem State.Keeps.tapCopy (h : a.Keeps s) {i x replay} : a.Keeps (s.tapCopy i x replay) := .ite h.tapDrop h.upd

theorem State.Keeps.tapWrite (h : a.Keeps s) : a.Keeps s.tapWrite := by
  unfold State.tapWrite
  dsimp only
  split
  exacts [h, .ite h.upd.tapDrop h.upd.ringBytes.upd]

theorem State.Keeps.drainTaps (h : a.Keeps s) : a.Keeps s.drainTaps := by
  unfold State.drainTaps
  dsimp only
  split
  exacts [h, h.choose.foldl fun _ _ h => .ite h.tapWrite h]

theorem State.Keeps.taps (h : a.Keeps s) {tid e x replay} : a.Keeps (s.taps tid e x replay) :=
  .ite h (h.foldl fun _ _ h => .ite h.tapCopy h)

theorem State.Keeps.releaseNode (h : a.Keeps s) {aid e c n} : a.Keeps (s.releaseNode aid e c n) := by
  unfold State.releaseNode
  dsimp only
  split
  · split
    · exact h
    · split
      · split
        exacts [.ite h h.setNodeSt.setCtx, .ite h h.setNodeSt.setCtx]
      · split
        exacts [h, h.setNodeSt.setCtx]
  · exact h

theorem State.Keeps.releaseReads (h : a.Keeps s) {thread} : a.Keeps (s.releaseReads thread) := by
  unfold State.releaseReads
  dsimp only
  split
  · exact h
  · refine h.foldl fun _ _ h1 => ?_
    split
    · exact h1
    · refine h1.foldl fun _ _ h2 => ?_
      split
      exacts [h2.releaseNode, h2]

theorem State.Keeps.seqTake (h : a.Keeps s) {x} : a.Keeps (s.seqTake x) := .ite h h.setFab
theorem State.Keeps.remember (h : a.Keeps s) {e aid x before} : a.Keeps (s.remember e aid x before) := h.setFab
theorem State.Keeps.rememberTok (h : a.Keeps s) {e x} : a.Keeps (s.rememberTok e x) := h.remember.setFab
theorem State.Keeps.setTree (h : a.Keeps s) {k x} : a.Keeps (s.setTree k x) := h.setEng
theorem State.Keeps.pairWait (h : a.Keeps s) {tid e aid r x} : a.Keeps (s.pairWait tid e aid r x) := h.setTree

theorem State.Keeps.takePartial (h : a.Keeps s) {tid e dir r x late} : a.KeepsOpt (s.takePartial tid e dir r x late) := by
  unfold State.takePartial
  dsimp only
  split
  · exact .none
  · split
    exacts [h.setTree.just, .ite h.setTree.just h.setTree.just]

theorem State.Keeps.matchTok (h : a.Keeps s) {tid aid e opc r x replay} : a.KeepsOpt (s.matchTok tid aid e opc r x replay) := by
  unfold State.matchTok
  split
  · exact h.just
  extract_lets c n k cfg st id y live go
  have hgo (st') : a.Keeps (go s st') :=
    have hr := .ite h h.remember
    .taps (.releaseNode (.setNodeSt (.setFab (.ite hr hr.pairWait))))
  split
  · refine .ite (hgo _).just (.just ?_)
    refine .foldl (.foldl (.foldl (hgo _) fun _ _ h => h.logVote) fun s _ h => ?_) fun _ _ h => h.raiseAt
    refine .ite h ?_
    dsimp only
    split
    exacts [h.countElem, h]
  · split
    exacts [.none, h.raiseAt.just, h.raiseAt.just, (hgo _).just]

theorem State.Keeps.recordChannel (h : a.Keeps s) {tid cut e x} : a.Keeps (s.recordChannel tid cut e x) := h.updTask

theorem State.Keeps.acceptLive (h : a.Keeps s) {tid e dir x replay} : a.KeepsOpt (s.acceptLive tid e dir x replay) := by
  unfold State.acceptLive
  dsimp only
  split
  · exact .none
  · split
    · exact h.just
    · split
      · exact h.takePartial.map fun _ h => h.seqTake.rememberTok.taps
      · split
        · exact h.seqTake.just
        · split
          exacts [h.seqTake.raiseAt.just, h.matchTok.map fun _ h => h.seqTake]

theorem State.Keeps.acceptTok (h : a.Keeps s) {e dir x replay} : a.KeepsOpt (s.acceptTok e dir x replay) := by
  unfold State.acceptTok
  dsimp only
  split
  · exact h.seqTake.just
  · split
    · exact .none
    · split
      exacts [.ite h.just (.ite h.seqTake.recordChannel.just h.acceptLive), h.acceptLive]

theorem State.Keeps.toPort (h : a.Keeps s) {e x} : a.Keeps (s.toPort e x) := by
  unfold State.toPort
  dsimp only
  split
  · exact h.seqTake
  · split
    · exact h
    · split
      · exact h.seqTake
      · split
        exacts [h.seqTake, .ite h.seqTake h.seqTake.setEng]

theorem State.Keeps.acceptChan (h : a.Keeps s) {e l} : a.KeepsOpt (s.acceptChan e l) := by
  induction l with
  | nil => exact .none
  | cons x r ih =>
    unfold State.acceptChan
    dsimp only
    split
    next t e =>
      refine State.Keeps.just (.use ?_)
      split at e
      · split at e
        · cases e
          exact h.setFab.toPort
        · cases e
      · exact h.setFab.acceptTok.get e
    next => exact ih

theorem State.Keeps.newRound (h : a.Keeps s) {e} : a.Keeps (s.newRound e) := h.foldl fun _ _ h => .ite h h.setCtx

theorem State.Keeps.takeFiring (h : a.Keeps s) {e c f} : a.Keeps (s.takeFiring e c f) := by
  unfold State.takeFiring
  dsimp only
  split
  · split
    exacts [h.setCtx, h.setCtx.setNodeSt]
  · exact h.setCtx

theorem State.Keeps.enter (h : a.Keeps s) {e dir target x} : a.Keeps (s.enter e dir target x) :=
  .ite (.toPort (.ite h h.use.setFab)) (.ite (.setFab (.ite h h.use.setFab)) (.setFab (.ite h h.use.setFab)))

theorem State.Keeps.hopFlit (h : a.Keeps s) {k} : a.Keeps (s.hopFlit k) := by
  unfold State.hopFlit
  dsimp only
  split
  exacts [h, .ite h.setFab.enter h]

theorem State.Keeps.sendCopy (h : a.Keeps s) {e c l b i early} : a.Keeps (s.sendCopy e c l b i early) := by
  unfold State.sendCopy
  dsimp only
  split
  · exact h
  · split
    · exact h
    · split
      · exact h.nextSeq.enter
      · split
        exacts [h.nextSeq.enter.setFab, h.nextSeq.enter]

theorem State.Keeps.hopLatch (h : a.Keeps s) {e c} : a.Keeps (s.hopLatch e c) := by
  unfold State.hopLatch
  split
  · exact h
  split
  · exact h
  extract_lets ts turns shared go far s1 left beats x
  have hsent : a.Keeps s1 := h.foldl fun _ _ h => h.sendCopy
  exact .ite h (.ite hsent.setCtx hsent.setCtx)

theorem execRouterHop_keeps (h : a.Keeps s) : a.KeepsOut (execRouterHop s) := by
  unfold execRouterHop
  split
  exacts [h.upd.hopLatch.next, h.upd.hopFlit.next, h.next]

theorem State.Keeps.placeVa (h : a.Keeps s) {asid va size write} : a.Keeps (s.placeVa asid va size write).2 := by
  unfold State.placeVa
  dsimp only
  split
  · exact h
  · split
    next e => exact h.setMem (.snd (.walk ..) e)
    next e => exact h.setMem (.snd (.walk ..) e)

theorem State.Keeps.readVa (h : a.Keeps s) {who asid va n} : a.Keeps (s.readVa who asid va n).2 := by
  unfold State.readVa
  split
  · exact h
  · split
    next e => exact h.placeVa.snd e
    next e => exact (h.placeVa.snd e).readPlace

theorem State.Keeps.writeVa (h : a.Keeps s) {asid va bs pois acc q} : a.Keeps (s.writeVa asid va bs pois acc q).2 := by
  unfold State.writeVa
  dsimp only
  split
  next e => exact h.placeVa.snd e
  next e =>
    have he := h.placeVa.snd e
    split
    · split
      · exact he.badRing
      · split
        exacts [he.upd, he.sendReq]
    · split
      exacts [he.writeAt.setMem (.stampWrite ..), he.writeAt]

theorem State.Keeps.addVa (h : a.Keeps s) {asid va v irq} : a.Keeps (s.addVa asid va v irq) := by
  unfold State.addVa
  dsimp only
  split
  next e => exact h.placeVa.snd e
  next e => exact .ite (.ite ((h.placeVa.snd e).badRing) (.ite ((h.placeVa.snd e).upd) ((h.placeVa.snd e).sendReq))) ((h.placeVa.snd
      e).readAt.writeAt.sendIrq)

theorem State.Keeps.loadPiece (h : a.Keeps s) {x va n} : a.Keeps (s.loadPiece x va n).2 := by
  unfold State.loadPiece
  dsimp only
  split
  · exact h
  · split
    next e => exact h.locateGlobal.snd e
    next e =>
      have he := h.locateGlobal.snd e
      split
      next e1 => exact .snapEarlier (.ite ((he.readPlace.snd e1).l1DropLine) (he.readPlace.snd
          e1))
      · exact he.readPlace

theorem State.Keeps.loadPieces (h : a.Keeps s) {x x1} : a.Keeps (s.loadPieces x x1).2 := by
  induction x1 generalizing s with
  | nil => exact h
  | cons y r ih =>
    unfold State.loadPieces
    split
    next e => exact h.loadPiece.snd e
    next e =>
      have he := h.loadPiece.snd e
      split
      next e1 => exact (ih he).snd e1
      next e1 => exact (ih he).snd e1
    next e =>
      have he := h.loadPiece.snd e
      split
      next e1 => exact (ih he).snd e1
      next e1 => exact (ih he).snd e1

theorem State.Keeps.loadOwn (h : a.Keeps s) {x va n} : a.Keeps (s.loadOwn x va n).2 := h.loadPieces
theorem State.Keeps.desc (h : a.Keeps s) {q off n} : a.Keeps (s.desc q off n).2 := h.readAt (k := .global)
theorem State.Keeps.setDesc (h : a.Keeps s) {q off n v} : a.Keeps (s.setDesc q off n v) := h.writeAt

theorem State.Keeps.irqOf (h : a.Keeps s) {l} : a.Keeps (s.irqOf l).2 := by
  unfold State.irqOf
  dsimp only
  split
  next q _ =>
    split
    exacts [h.desc (q := q) (off := 8) (n := 4), h]
  next => exact h

theorem State.Keeps.complete59 (h : a.Keeps s) {l v} : a.Keeps (s.complete59 l v) := .ite h.irqOf.sendIrq h.irqOf.addVa
theorem State.Keeps.reportTo (h : a.Keeps s) {x bs} : a.Keeps (s.reportTo x bs) := .ite h.writeAt (.ite h (.ite h.setLnk h.sendReq))

theorem State.Keeps.report (h : a.Keeps s) {l event code region} : a.Keeps (s.report l event code region) := by
  unfold State.report
  dsimp only
  split
  · exact h
  · split
    exacts [h.reportTo, h.emitOut, h]

theorem State.Keeps.queueErr (h : a.Keeps s) {q code} : a.Keeps (s.queueErr q code) := h.setDesc.setQue

theorem State.Keeps.launchFails (h : a.Keeps s) {l code} : a.Keeps (s.launchFails l code) := by
  unfold State.launchFails
  dsimp only
  split
  exacts [h.complete59.queueErr, h.complete59.report]

theorem State.Keeps.purgeFabric (h : a.Keeps s) {tid} : a.Keeps (s.purgeFabric tid) := h.setFab
theorem State.Keeps.purgeMemory (h : a.Keeps s) {tid} : a.Keeps (s.purgeMemory tid) := h.setMem
theorem State.Keeps.purgeEngines (h : a.Keeps s) {tid} : a.Keeps (s.purgeEngines tid) := h.setEng
theorem State.Keeps.purgeStreams (h : a.Keeps s) {tid} : a.Keeps (s.purgeStreams tid) := h.setLnk
theorem State.Keeps.purgeFetches (h : a.Keeps s) {tid} : a.Keeps (s.purgeFetches tid) := h.purgeStreams.setLnk
theorem State.Keeps.purge (h : a.Keeps s) {tid} : a.Keeps (s.purge tid) := h.purgeFetches.purgeEngines.purgeMemory.purgeFabric.setSch.setTsk
theorem State.Keeps.hold (h : a.Keeps s) {l placeable image} : a.Keeps (s.hold l placeable image) := h.setSch
theorem State.Keeps.holdChild (h : a.Keeps s) {thread l} : a.Keeps (s.holdChild thread l) := h.setSch
theorem State.Keeps.armReport (h : a.Keeps s) {plane f} : a.Keeps (s.armReport plane f) := h.setErr
theorem State.Keeps.removePlane (h : a.Keeps s) {num} : a.Keeps (s.removePlane num) := h.setQue.setErr
theorem State.Keeps.logMissing (h : a.Keeps s) {aid} : a.Keeps (s.logMissing aid) :=
  h.foldl fun _ _ h1 => h1.foldl fun _ _ h2 => h2.foldl fun _ _ h => h.logVote
theorem State.Keeps.freeAct (h : a.Keeps s) {aid} : a.Keeps (s.freeAct aid) := h.logMissing.setFab.setTsk

theorem State.Keeps.reap (h : a.Keeps s) {tid} : a.Keeps (s.reap tid) := by
  unfold State.reap
  refine h.foldl fun _ _ h1 => ?_
  split
  exacts [.ite h1.freeAct h1, h1]

theorem State.Keeps.allocFrames (h : a.Keeps s) {x c aid ns} : a.KeepsOpt (s.allocFrames x c aid ns) :=
  foldl_keeps (fun o => a.KeepsOpt o) _ (fun _ _ ho => ho.bind fun _ h => .ite .none (.mapOf fun _ => h.setFab)) _ _ h.just

theorem State.Keeps.undoEffects (h : a.Keeps s) {aid x} : a.Keeps (s.undoEffects aid x) := by
  unfold State.undoEffects
  dsimp only
  refine (h.foldl fun _ _ h1 => ?_).foldl fun _ _ h1 => ?_
  · split
    · exact h1.updTask
    · exact h1
  · split
    · exact h1.updTask
    · exact h1

theorem State.Keeps.discardAct (h : a.Keeps s) {aid} : a.Keeps (s.discardAct aid) := by
  unfold State.discardAct
  dsimp only
  split
  exacts [h, h.undoEffects.setFab.setMem.setEng.setAct.openBindings]

theorem State.Keeps.quiesce (h : a.Keeps s) {tid} : a.Keeps (s.quiesce tid) := by
  unfold State.quiesce
  dsimp only
  refine (h.foldl fun _ _ h1 => ?_).updTask.setFab.purgeStreams.purgeEngines.setTsk
  split
  exacts [.ite h1 h1.discardAct, h1]

theorem State.Keeps.finishTask (h : a.Keeps s) {tid x v event} : a.Keeps (s.finishTask tid x v event) :=
  .ite ((h.foldl fun _ _ h => h.logMissing).report.purge.hold) ((h.foldl fun _ _ h => h.logMissing).complete59.report.purge)

theorem State.Keeps.endTask (h : a.Keeps s) {tid v event} : a.Keeps (s.endTask tid v event) := by
  unfold State.endTask
  dsimp only
  split
  exacts [h, .ite h (.ite h.quiesce.updTask h.quiesce.finishTask)]

theorem State.Keeps.killTask (h : a.Keeps s) {tid} : a.Keeps (s.killTask tid) := by
  unfold State.killTask
  split
  exacts [h, h.endTask]

theorem State.Keeps.injectAt (h : a.Keeps s) {xs} : a.Keeps (s.injectAt xs) := h.setFab

theorem State.Keeps.startIn (h : a.Keeps s) {thread th x pl c plane block} : a.Keeps (s.startIn thread th x pl c plane block) := by
  unfold State.startIn
  dsimp only
  split
  · exact h
  · split
    · exact h
    next e1 => exact (h.allocFrames.get e1).setTsk.setThread.updTask.injectAt

theorem State.Keeps.badBranch (h : a.Keeps s) {tid plane block} : a.Keeps (s.badBranch tid plane block) := h.armReport.removePlane.endTask

theorem State.Keeps.startAct (h : a.Keeps s) {thread} : a.Keeps (s.startAct thread) := by
  unfold State.startAct
  dsimp only
  split
  · exact h
  · split
    · split
      · exact h.reap
      · split
        · exact h.reap
        · split
          · split
            exacts [h.reap.badBranch, .ite h.reap.startIn h.reap]
          · split
            exacts [h.reap.badBranch, .ite h.reap.badBranch h.reap]
    · exact h.reap

theorem execActivationStart_keeps (h : a.Keeps s) : a.KeepsOut (execActivationStart s) := by
  unfold execActivationStart
  split
  exacts [h.upd.startAct.next, h.next]

theorem State.Keeps.countArrival (h : a.Keeps s) {x} : a.Keeps (s.countArrival x) := by
  unfold State.countArrival
  dsimp only
  split
  · exact h
  · split
    exacts [h, .ite h (.ite (.ite h h.setTask) h.dropHeld.reply)]

theorem State.Keeps.barriers (h : a.Keeps s) {tid g x} : a.Keeps (State.barriers tid g x s) := by
  induction x generalizing s with
  | zero => exact h
  | succ n ih =>
    unfold State.barriers
    dsimp only
    split
    · exact h
    · split
      · exact h
      · refine ih ((h.setTask.foldl fun _ _ h1 => ?_).foldl (fun _ _ h1 => ?_))
        · split
          · exact h1.dropHeld.reply
          · exact h1
        · exact h1.countArrival

theorem State.Keeps.barrier (h : a.Keeps s) {tid g} : a.Keeps (s.barrier tid g) := h.barriers
theorem State.Keeps.arrive (h : a.Keeps s) {x r} : a.Keeps (s.arrive x r) := h.countArrival.barrier
theorem State.Keeps.joinGroup (h : a.Keeps s) {tid thread g} : a.Keeps (s.joinGroup tid thread g) := h.updTask
theorem State.Keeps.leaveGroup (h : a.Keeps s) {tid thread g} : a.Keeps (s.leaveGroup tid thread g) := h.updTask
theorem State.Keeps.leavesEnd (h : a.Keeps s) : a.Keeps s.leavesEnd := h.foldl fun _ _ h1 => h1.foldl fun _ _ h => h.updTask.barrier

theorem State.Keeps.deliverTrap (h : a.Keeps s) {thread} : a.Keeps (s.deliverTrap thread) := by
  unfold State.deliverTrap
  dsimp only
  split
  · exact h
  · split
    exacts [.ite h (.ite h.setThread h.setThread.setTsk), h]

theorem State.Keeps.takeTrap (h : a.Keeps s) {thread th aid x r} : a.Keeps (s.takeTrap thread th aid x r) := by
  unfold State.takeTrap
  dsimp only
  split
  exacts [.ite ((h.foldl fun _ _ h => h.discardAct).trapLost.setThread) ((h.foldl fun _ _ h =>
      h.discardAct).trapLost.setThread.deliverTrap), (h.foldl fun _ _ h => h.discardAct).trapLost]

theorem State.Keeps.trapTake (h : a.Keeps s) {thread} : a.Keeps (s.trapTake thread) := by
  unfold State.trapTake
  split
  · exact h
  · split
    · exact h
    · split
      · exact h
      · split
        · exact h
        · split
          · exact h
          · split
            exacts [.ite h h.takeTrap, h.takeTrap]

theorem execTrapTake_keeps (h : a.Keeps s) : a.KeepsOut (execTrapTake s) := by
  unfold execTrapTake
  split
  exacts [h.upd.trapTake.next, h.next]

theorem State.Keeps.lodgeService (h : a.Keeps s) {c} : a.Keeps (s.lodgeService c) := by
  unfold State.lodgeService
  dsimp only
  split
  · exact h
  · split
    · exact h.setTsk.killTask
    · split
      · split
        · exact h.setTsk.endTask
        · split
          · split
            exacts [h.setTsk.endTask, h.setTsk.setThread]
          · split
            exacts [h.setTsk.setThread, h.setTsk]
      · exact h.setTsk.endTask

theorem execLodgeTrapService_keeps (h : a.Keeps s) : a.KeepsOut (execLodgeTrapService s) := by
  unfold execLodgeTrapService
  split
  exacts [h.upd.lodgeService.next, h.next]

theorem State.Keeps.exitThread (h : a.Keeps s) {tid thread} : a.Keeps (s.exitThread tid thread) :=
  (h.foldl fun _ _ h => h.leaveGroup).setTsk.updTask

theorem State.Keeps.commitEffect (h : a.Keeps s) {tid thread e} : a.Keeps (s.commitEffect tid thread e) := by
  unfold State.commitEffect
  split
  exacts [h.setThread, .ite h.joinGroup h, h.leaveGroup, h.updThread, h.updTask, .ite (.ite h h.addVa) h.holdChild]

theorem State.Keeps.arriveOldest (h : a.Keeps s) {thread} : a.Keeps (s.arriveOldest thread) := by
  unfold State.arriveOldest
  split
  · exact h
  · refine h.foldl fun _ _ h1 => ?_
    split
    exacts [h1.arrive, h1]

theorem State.Keeps.commitAct (h : a.Keeps s) {thread aid th x} : a.Keeps (s.commitAct thread aid th x) := by
  unfold State.commitAct
  dsimp only
  split
  exacts [(h.setThread.setAct.foldl fun _ _ h => h.commitEffect).releaseReads.arriveOldest.exitThread, (h.setThread.setAct.foldl fun
      _ _ h => h.commitEffect).releaseReads.arriveOldest.updThread, .ite ((h.setThread.setAct.foldl fun _ _ h =>
      h.commitEffect).releaseReads.arriveOldest.endTask) ((h.setThread.setAct.foldl fun _ _ h =>
      h.commitEffect).releaseReads.arriveOldest.endTask), (h.setThread.setAct.foldl fun _ _ h =>
      h.commitEffect).releaseReads.arriveOldest]

theorem execActivationCommit_keeps (h : a.Keeps s) : a.KeepsOut (execActivationCommit s) := by
  unfold execActivationCommit
  dsimp only
  split
  · split
    · exact h.upd.next
    · split
      · exact h.upd.next
      · split
        exacts [h.upd.next, .ite h.upd.commitAct.next h.upd.next]
  · exact h.next

theorem execYieldExpiry_keeps (h : a.Keeps s) : a.KeepsOut (execYieldExpiry s) := by
  unfold execYieldExpiry
  dsimp only
  split
  · split
    · exact h.upd.next
    · split
      exacts [h.upd.next, .ite h.upd.setThread.next h.upd.next]
  · exact h.next

theorem State.Keeps.fireAcct (h : a.Keeps s) {opc r onNull body} (honNull : ∀ x0 s, a.Keeps s → a.Keeps (onNull x0 s)) (hbody : ∀ x0 x1 s,
    a.Keeps s → a.Keeps (body x0 x1 s)) : a.KeepsOut (s.fireAcct opc r onNull body) := by
  unfold State.fireAcct
  dsimp only
  split
  · exact h.next
  · split
    · split
      · exact h.upd.account.next
      · split
        · exact (honNull _ _ h.upd.account).next
        · split
          exacts [h.upd.account.raise.next, (hbody _ _ _ h.upd.account).next]
    · split
      · exact h.upd.next
      · split
        · exact (honNull _ _ h.upd).next
        · split
          exacts [h.upd.raise.next, (hbody _ _ _ h.upd).next]

theorem State.Keeps.nameBranch (h : a.Keeps s) {i b stack} : a.Keeps (s.nameBranch i b stack) := by
  unfold State.nameBranch
  dsimp only
  split
  · exact h
  · split
    exacts [h.setAct.updThread, h.setAct]

theorem State.Keeps.goBlock (h : a.Keeps s) {i addr stack} : a.Keeps (s.goBlock i addr stack) := h.nameBranch
theorem skip_keeps (h : a.Keeps s) {x} : a.Keeps (skip x s) := h
theorem execBr_keeps (h : a.Keeps s) {r} : a.KeepsOut (execBr r s) := h.fireAcct (fun _ _ h => skip_keeps h) fun _ _ _ h => h.goBlock
theorem execBri_keeps (h : a.Keeps s) {r} : a.KeepsOut (execBri r s) := h.fireAcct (fun _ _ h => skip_keeps h) fun _ _ _ h => h.goBlock
theorem execCall_keeps (h : a.Keeps s) {r} : a.KeepsOut (execCall r s) := h.fireAcct (fun _ _ h => skip_keeps h) fun _ _ _ h => h.goBlock

theorem execRet_keeps (h : a.Keeps s) {r} : a.KeepsOut (execRet r s) := by
  unfold execRet
  refine h.fireAcct (fun _ _ h1 => ?_) fun _ _ _ h1 => ?_
  · exact skip_keeps h1
  · split
    · exact h1.nameBranch
    · exact h1.goBlock

theorem execExit_keeps (h : a.Keeps s) {r} : a.KeepsOut (execExit r s) := h.fireAcct (fun _ _ h => skip_keeps h) fun _ _ _ h => h.nameBranch
theorem State.Keeps.slotKnown (h : a.Keeps s) {i} : a.Keeps (s.slotKnown i) := h.releaseReads
theorem execWrc_keeps (h : a.Keeps s) {r} : a.KeepsOut (execWrc r s) :=
  h.fireAcct (fun _ _ h => h.slotKnown) fun _ _ _ h => h.updAct.slotKnown
theorem execRdc_keeps (h : a.Keeps s) {r} : a.KeepsOut (execRdc r s) := h.fire fun _ _ _ _ _ h => h.fireVal

theorem State.Keeps.addEffect (h : a.Keeps s) {i e} : a.Keeps (s.addEffect i e) := by
  unfold State.addEffect
  split
  exacts [h, .ite h.commitEffect h.setAct]

theorem execSpawn_keeps (h : a.Keeps s) {r} : a.KeepsOut (execSpawn r s) := by
  unfold execSpawn
  dsimp only
  refine h.fire fun _ _ _ _ _ h1 => ?_
  split
  · exact h1
  · split
    exacts [h1.fireVal, h1.setTask.addEffect.fireVal]

theorem execJoin_keeps (h : a.Keeps s) {r} : a.KeepsOut (execJoin r s) := h.fire fun _ _ _ _ _ h => h.addEffect.fireVal
theorem execLeave_keeps (h : a.Keeps s) {r} : a.KeepsOut (execLeave r s) := h.fire fun _ _ _ _ _ h => h.addEffect.fireVal
theorem State.Keeps.startRead (h : a.Keeps s) {i ins perform} (hperform : ∀ x0 s, a.Keeps s → a.Keeps (perform x0 s)) : a.Keeps
    (s.startRead i ins perform) :=
  .ite (hperform _ _ h.holdOp) h.holdOp
theorem execGbar_keeps (h : a.Keeps s) {r} : a.KeepsOut (execGbar r s) := h.fire fun _ _ _ _ _ h => .ite h.holdOp.arrive h.holdOp
theorem execYield_keeps (h : a.Keeps s) {r} : a.KeepsOut (execYield r s) := h.fire fun _ _ _ _ _ h => h.addEffect
theorem execEst_keeps (h : a.Keeps s) {r} : a.KeepsOut (execEst r s) := h.fire fun _ _ _ _ _ h => h.addEffect

theorem State.Keeps.launchChild (h : a.Keeps s) {i r tid x bytes pois} : a.Keeps (s.launchChild i r tid x bytes pois) := by
  unfold State.launchChild
  dsimp only
  split
  exacts [h.fireVal, .ite h.fireVal h.addEffect.fireVal]

theorem State.Keeps.performLaunch (h : a.Keeps s) {x r} : a.Keeps (State.performLaunch x r s) := by
  unfold State.performLaunch
  dsimp only
  split
  · exact h.dropHeld
  · split
    next e1 => exact h.loadOwn.snd e1
    next e1 => exact (h.loadOwn.snd e1).dropHeld.raise
    next e1 =>
      have he1 := h.loadOwn.snd e1
      split
      next e2 => exact he1.loadOwn.snd e2
      next e2 => exact (he1.loadOwn.snd e2).dropHeld.raise
      next e2 => exact (he1.loadOwn.snd e2).dropHeld.launchChild

theorem execLaunch_keeps (h : a.Keeps s) {r} : a.KeepsOut (execLaunch r s) :=
  h.fire fun _ _ _ _ _ h1 => h1.startRead fun _ _ h => h.performLaunch

end Sys2Proof.Machine
end

