-- ==== Sys2Proof/Proofs/FrameEngines.lean ====
section
-- Some hundred short proofs: checked as tasks of their own, all at once, they outgrow the memory that check.sh allows.
set_option Elab.async false
/-! PROOFS. What keeps the canonical form and the order: registers, streams, copies, arrays, rows, queues, factors and trees. -/
namespace Sys2Proof.Machine
variable {a s t : State}

theorem State.Keeps.readClear (h : a.Keeps s) {o lo hi} : a.Keeps (s.readClear o lo hi) :=
  .ite h.setMem (.ite h.setMem (.ite h.setLnk (.ite h.setLnk (.ite h.setQue (.ite h.setSch (.ite h.setErr (.ite h.setErr (.ite h.setErr
    (.ite h.setErr (.ite h.upd h))))))))))

theorem State.Keeps.markVoteRead (h : a.Keeps s) {o} : a.Keeps (s.markVoteRead o) := .ite h.setErr h

theorem State.Keeps.readReg (h : a.Keeps s) {x o size} : a.Keeps (s.readReg x o size) := by
  unfold State.readReg
  dsimp only
  split
  · exact h
  · split
    · exact h.emitOut
    · split
      exacts [.ite h.emitOut (.ite h.emitOut.markVoteRead h.emitOut.markVoteRead.readClear), .ite h.emitOut (.ite h.emitOut.markVoteRead
          h.emitOut.markVoteRead.readClear)]

theorem State.Keeps.setPool (h : a.Keeps s) {base m} : a.Keeps (s.setPool base m) := (h.setMem (.zeroBut ..)).setSch

theorem State.Keeps.putLow (h : a.Keeps s) {o w x} : a.Keeps (s.putLow o w x) :=
  .ite h.upd (.ite h.setMem (.ite h.setMem (.ite h.setMem (.ite h.setQue (.ite h.setQue (.ite h.setQue (.ite h.setQue (.ite h.setSch
    (.ite h.setSch (.ite h.setSch (.ite h.setPool (.ite h.setPool (.ite h.setErr (.ite h.setErr (.ite h.setErr (.ite h.setErr
      (.ite h.setMem (.ite h.setEng h))))))))))))))))))

theorem State.Keeps.putLink (h : a.Keeps s) {o w} : a.Keeps (s.putLink o w) := .ite h.setLnk (.ite h.setLnk h)
theorem State.Keeps.putTap (h : a.Keeps s) {o w} : a.Keeps (s.putTap o w) :=
  .ite h.upd (.ite h.upd (.ite h.upd (.ite h.upd (.ite h.upd h))))
theorem State.Keeps.putHost (h : a.Keeps s) {o w x} : a.Keeps (s.putHost o w x) := .ite h.upd (.ite h.upd (.ite h.upd h))

theorem State.Keeps.writeReg (h : a.Keeps s) {x off size val} : a.Keeps (s.writeReg x off size val) := by
  unfold State.writeReg
  dsimp only
  split
  · exact h
  · split
    · exact h.emitOut
    · split
      · exact h
      · split
        · exact h
        · split
          exacts [h.putLow.putLink.putTap.putHost, .ite h.putHost h.putLink, .putHost (.ite h.putTap h)]

theorem execRegisterWrite_keeps (h : a.Keeps s) : a.KeepsOut (execRegisterWrite s) := by
  unfold execRegisterWrite
  split
  exacts [h.upd.writeReg.next, h.next]

theorem execBar0UnsupportedAccess_keeps (h : a.Keeps s) : a.KeepsOut (execBar0UnsupportedAccess s) := by
  unfold execBar0UnsupportedAccess
  dsimp only
  split
  exacts [.ite h.upd.next h.upd.emitOut.next, h.next]

theorem execArmRptClear_keeps (h : a.Keeps s) : a.KeepsOut (execArmRptClear s) := by
  unfold execArmRptClear
  dsimp only
  split
  exacts [.ite h.upd.next h.upd.setErr.next, h.next]

theorem State.Keeps.doneHeld (h : a.Keeps s) {x} : a.Keeps (s.doneHeld x) := h.dropHeld.freeLatch

theorem State.Keeps.startHeld (h : a.Keeps s) {i ins perform} (hperform : ∀ x0 s, a.Keeps s → a.Keeps (perform x0 s)) : a.Keeps
    (s.startHeld i ins perform) := by
  unfold State.startHeld
  dsimp only
  split
  exacts [.ite ((hperform _ _ h.holdOp).setCtx) (hperform _ _ h.holdOp), .ite h.holdOp.setCtx h.holdOp]

theorem State.Keeps.fireHeld (h : a.Keeps s) {opc ins r perform} (hperform : ∀ x0 s, a.Keeps s → a.Keeps (perform x0 s)) : a.KeepsOut
    (s.fireHeld opc ins r perform) :=
  h.fire fun _ _ _ _ _ h1 => h1.startHeld fun _ _ h => hperform _ _ h

theorem State.Keeps.setSysReg (h : a.Keeps s) {i n v} : a.KeepsOpt (s.setSysReg i n v) := by
  unfold State.setSysReg
  split
  exacts [.none, .ite h.updTask.just (.ite h.updTask.just (.ite h.updThread.just (.ite h.clearFlags.just (.ite h.seed.keepSeed.just (.ite
      h.setEng.just (.ite h.setEng.just (.ite h.setEng.just (.ite h.just (.ite h.setEng.just (.ite h.updTask.just (.ite h.updTask.just
      (.ite h.updTask.just .none))))))))))))]

theorem execSysrd_keeps (h : a.Keeps s) {r} : a.KeepsOut (execSysrd r s) := by
  unfold execSysrd
  dsimp only
  refine h.fire fun _ _ _ _ _ h1 => ?_
  split
  exacts [.fireVal (.ite h1.markVoteRead h1), h1.raise]

theorem State.Keeps.taskWaypart (h : a.Keeps s) {i n v} : a.KeepsOpt (s.taskWaypart i n v) := .ite .none (.ite h.setMem.just .none)

theorem State.Keeps.performSyswr (h : a.Keeps s) {x r} : a.Keeps (State.performSyswr x r s) := by
  unfold State.performSyswr
  dsimp only
  split
  next e =>
    split at e
    · exact (h.doneHeld.taskWaypart.get e).reply
    · exact (h.doneHeld.setSysReg.get e).reply
  next => exact h.doneHeld.raise

theorem execSyswr_keeps (h : a.Keeps s) {r} : a.KeepsOut (execSyswr r s) := h.fireHeld fun _ _ h => h.performSyswr
theorem execTrap_keeps (h : a.Keeps s) {r} : a.KeepsOut (execTrap r s) := h.fire fun _ _ _ _ _ h => h.raise
theorem execBkpt_keeps (h : a.Keeps s) {r} : a.KeepsOut (execBkpt r s) := h.fire fun _ _ _ _ _ h => h.raise
theorem State.Keeps.raiseAccess (h : a.Keeps s) {i} : a.Keeps (s.raiseAccess i) := h.free.raise
theorem execEret_keeps (h : a.Keeps s) {r} : a.KeepsOut (execEret r s) :=
  h.fireAcct (fun _ _ h => skip_keeps h) fun _ _ _ h => .ite h.nameBranch h.raiseAccess
theorem execHalt_keeps (h : a.Keeps s) {r} : a.KeepsOut (execHalt r s) := h.fireAcct (fun _ _ h => skip_keeps h) fun _ _ _ h => h.nameBranch
theorem execTime_keeps (h : a.Keeps s) {r} : a.KeepsOut (execTime r s) := h.fire fun _ _ _ _ _ h => h.fireVal
theorem State.Keeps.performTapset (h : a.Keeps s) {x r} : a.Keeps (State.performTapset x r s) :=
  .ite h.doneHeld.raiseAccess h.doneHeld.upd.reply
theorem execTapset_keeps (h : a.Keeps s) {r} : a.KeepsOut (execTapset r s) := h.fireHeld fun _ _ h => h.performTapset
theorem State.Keeps.setBinding (h : a.Keeps s) {b} : a.Keeps (s.setBinding b) := h.setEng

theorem State.Keeps.dropBinding (h : a.Keeps s) {b} : a.Keeps (s.dropBinding b) := by
  unfold State.dropBinding
  dsimp only
  split
  exacts [h.setLnk.setEng.openBindings.reply, h.setLnk.setEng.openBindings]

theorem State.Keeps.engineRead (h : a.Keeps s) {who port asid va n} : a.Keeps (s.engineRead who port asid va n).2 := by
  unfold State.engineRead
  split
  · exact h
  · split
    next e => exact h.locateGlobal.snd e
    next e => exact (h.locateGlobal.snd e).readPlace

theorem State.Keeps.granuleVa (h : a.Keeps s) {port asid b n} : a.Keeps (s.granuleVa port asid b n).2 := by
  unfold State.granuleVa
  split
  · exact h
  · split
    next e => exact h.engineRead.snd e
    next e => exact h.engineRead.snd e
    next e => exact h.engineRead.snd e

theorem State.Keeps.granulePlace (h : a.Keeps s) {port asid x b n} : a.Keeps (s.granulePlace port asid x b n).2 := by
  unfold State.granulePlace
  split
  next e => exact h.granuleVa.snd e
  next e => exact h.granuleVa.snd e
  next e =>
    have he := h.granuleVa.snd e
    split
    · exact h.granuleVa.snd e
    · split
      next e1 => exact he.locateGlobal.snd e1
      next e1 =>
        split
        exacts [he.locateGlobal.snd e1, he.locateGlobal.snd e1]

theorem State.Keeps.readScales (h : a.Keeps s) {who port asid x n x1} : a.Keeps (s.readScales who port asid x n x1).2 := by
  induction x1 generalizing s with
  | nil => exact h
  | cons y r ih =>
    unfold State.readScales
    split
    · exact h
    · split
      next e => exact h.locateGlobal.snd e
      next e =>
        have he := h.locateGlobal.snd e
        split
        · exact h.locateGlobal.snd e
        · split
          next e1 => exact he.engineRead.snd e1
          next e1 =>
            have he1 := he.engineRead.snd e1
            split
            next e2 => exact (ih he1).snd e2
            next e2 => exact (ih he1).snd e2
          next e1 =>
            have he1 := he.engineRead.snd e1
            split
            next e2 => exact (ih he1).snd e2
            next e2 => exact (ih he1).snd e2

theorem State.Keeps.granuleScales (h : a.Keeps s) {port asid x b n} : a.Keeps (s.granuleScales port asid x b n).2 := by
  unfold State.granuleScales
  split
  · exact h
  · split
    next e => exact h.granuleVa.snd e
    next e => exact h.granuleVa.snd e
    next e => exact (h.granuleVa.snd e).readScales

theorem State.Keeps.granuleFault (h : a.Keeps s) {x x1 b n} : a.Keeps (s.granuleFault x x1 b n).2 := by
  unfold State.granuleFault
  dsimp only
  split
  next e => exact h.granulePlace.snd e
  next e => exact h.granulePlace.snd e
  next e =>
    have he := h.granulePlace.snd e
    split
    next e1 => exact he.granuleScales.snd e1
    next e1 => exact he.granuleScales.snd e1

theorem State.Keeps.probeWrite (h : a.Keeps s) {i va n} : a.Keeps (s.probeWrite i va n).2 := by
  unfold State.probeWrite
  split
  next e => exact h.locateGlobal.snd e
  next e => exact h.locateGlobal.snd e

theorem State.Keeps.bind (h : a.Keeps s) {i r x d} : a.Keeps (s.bind i r x d) := by
  unfold State.bind
  dsimp only
  split
  · exact h
  · split
    · exact h
    next =>
      split
      · exact h.raise
      · split
        next e2 =>
          refine .raise (.snd ?_ e2)
          split
          exacts [h, h.probeWrite]
        next e2 =>
          refine .openBindings (.setEng (.upd (.snd ?_ e2)))
          split
          exacts [h, h.probeWrite]

theorem State.Keeps.performSbind (h : a.Keeps s) {x r} : a.Keeps (State.performSbind x r s) := by
  unfold State.performSbind
  dsimp only
  split
  next e => exact h.loadOwn.snd e
  next e => exact (h.loadOwn.snd e).dropHeld.raise
  next e =>
    have he := h.loadOwn.snd e
    split
    exacts [he.dropHeld.raise, .ite he (he.dropHeld.bind)]

theorem execSbind_keeps (h : a.Keeps s) {r} : a.KeepsOut (execSbind r s) :=
  h.fire fun _ _ _ _ _ h1 => h1.startRead fun _ _ h => h.performSbind

theorem State.Keeps.endBinding (h : a.Keeps s) {b} : a.Keeps (s.endBinding b) := by
  unfold State.endBinding
  dsimp only
  split
  · split
    · exact h
    · split
      exacts [.ite h.writeVa.setBinding.dropBinding h.writeVa.setBinding, .ite h.setBinding.dropBinding h.setBinding]
  · split
    · exact h
    · split
      exacts [.ite h.writeVa.setBinding.dropBinding h.writeVa.setBinding, .ite h.setBinding.dropBinding h.setBinding]

theorem State.Keeps.endId (h : a.Keeps s) {bid} : a.Keeps (s.endId bid) := by
  unfold State.endId
  split
  exacts [h.endBinding, h]

theorem execSrel_keeps (h : a.Keeps s) {r} : a.KeepsOut (execSrel r s) :=
  h.fire fun _ _ _ _ _ h1 => ((h1.foldl fun _ _ h => h.endId).setEng.openBindings.foldl fun _ _ h => h.endId).reply

theorem execSpos_keeps (h : a.Keeps s) {r} : a.KeepsOut (execSpos r s) := by
  unfold execSpos
  refine h.fire fun _ _ _ _ _ h1 => ?_
  split
  exacts [h1.reply, h1.reply]

theorem State.Keeps.streamSend (h : a.Keeps s) {k iter x x1 b} : a.Keeps (s.streamSend k iter x x1 b) := by
  unfold State.streamSend
  dsimp only
  split
  exacts [h, h.launchTok]

theorem State.Keeps.deliver (h : a.Keeps s) {bid x} : a.Keeps (s.deliver bid x) := by
  induction x generalizing s with
  | zero => exact h
  | succ n ih =>
    unfold State.deliver
    dsimp only
    split
    · exact h
    · split
      · split
        · split
          · exact h
          · exact ih h.setBinding.setEng
        · split
          · exact h
          · refine ih ?_
            split
            · exact h.setBinding.streamSend.streamSend
            · exact h.setBinding.streamSend
      · exact h

theorem State.Keeps.granuleReturn (h : a.Keeps s) {b pos ecc} : a.Keeps (s.granuleReturn b pos ecc) := by
  unfold State.granuleReturn
  dsimp only
  split
  · exact h
  next =>
    split
    · exact h
    · split
      next e1 => exact h.granulePlace.snd e1
      next e1 => exact h.granulePlace.snd e1
      next e1 =>
        have he1 := h.granulePlace.snd e1
        split
        next e2 => exact he1.granuleScales.snd e2
        next e2 => exact (he1.granuleScales.snd e2).readPlace
        next e2 =>
          have he2 := he1.granuleScales.snd e2
          split
          next e3 => exact (he2.readPlace.snd e3).dropFetches.setBinding
          next e3 => exact he2.readPlace.snd e3

theorem execStreamGranuleReturn_keeps (h : a.Keeps s) : a.KeepsOut (execStreamGranuleReturn s) := by
  unfold execStreamGranuleReturn
  dsimp only
  split
  · split
    exacts [h.upd.next, h.upd.granuleReturn.deliver.next]
  · exact h.next

theorem State.Keeps.granuleWrite (h : a.Keeps s) {b} : a.Keeps (s.granuleWrite b) := by
  unfold State.granuleWrite
  dsimp only
  split
  · split
    · exact h
    · split
      next e2 => exact h.granulePlace.snd e2
      next e2 => exact h.granulePlace.snd e2
      next e2 => exact .ite (.ite ((h.granulePlace.snd e2).badRing.dropFetches.setBinding) (.ite ((h.granulePlace.snd
          e2).upd.dropFetches.setBinding) ((h.granulePlace.snd e2).sendReq.dropFetches.setBinding))) (.ite (h.granulePlace.snd e2)
          (((h.granulePlace.snd e2).writeAt.setMem (.stampWrite ..)).dropFetches.setBinding))
  · exact h

theorem execStreamGranuleWrite_keeps (h : a.Keeps s) : a.KeepsOut (execStreamGranuleWrite s) := by
  unfold execStreamGranuleWrite
  dsimp only
  split
  · split
    exacts [h.upd.next, h.upd.granuleWrite.next]
  · exact h.next

theorem execStreamBindingEnd_keeps (h : a.Keeps s) : a.KeepsOut (execStreamBindingEnd s) := by
  unfold execStreamBindingEnd
  dsimp only
  split
  · split
    exacts [h.upd.next, h.upd.endBinding.next]
  · exact h.next

theorem State.Keeps.xcError (h : a.Keeps s) {tid code done} : a.Keeps (s.xcError tid code done) := h.updTask

theorem State.Keeps.streamFault (h : a.Keeps s) {b} : a.Keeps (s.streamFault b) := by
  unfold State.streamFault
  dsimp only
  split
  · exact h
  next =>
    split
    · exact h
    · split
      next e1 => exact h.granuleFault.snd e1
      next e1 =>
        have he1 := h.granuleFault.snd e1
        split
        exacts [he1.setBinding.setEng.xcError.endBinding, he1.setBinding.setEng.xcError]

theorem execStreamFault_keeps (h : a.Keeps s) : a.KeepsOut (execStreamFault s) := by
  unfold execStreamFault
  dsimp only
  split
  · split
    exacts [h.upd.next, h.upd.streamFault.next]
  · exact h.next

theorem State.Keeps.raiseStream (h : a.Keeps s) {i opc r} : a.KeepsOpt (s.raiseStream i opc r) :=
  .mapOf fun _ => h.setEng.raise
theorem State.Keeps.noteDone (h : a.Keeps s) {i lsid p} : a.Keeps (s.noteDone i lsid p) := h.updAct

theorem State.Keeps.fireWriting (h : a.Keeps s) {opc ins r perform} (hperform : ∀ x0 s, a.Keeps s → a.Keeps (perform x0 s)) : a.KeepsOut
    (s.fireWriting opc ins r perform) := by
  unfold State.fireWriting
  refine h.fireMem fun _ _ _ _ _ h1 => ?_
  split
  exacts [h1.replyPerformed, h1.startHeld fun _ _ h => hperform _ _ h]

theorem State.Keeps.raiseHeld (h : a.Keeps s) {x x1} : a.Keeps (s.raiseHeld x x1) := h.doneHeld.raise

theorem State.Keeps.copyPlace (h : a.Keeps s) {c space addr write} : a.Keeps (s.copyPlace c space addr write).2 := by
  unfold State.copyPlace
  split
  · split
    · exact h
    · split
      next e => exact h.locateGlobal.snd e
      next e => exact h.locateGlobal.snd e
  · split
    · split
      exacts [h, h]
    · split
      · dsimp only
        split
        · exact h
        · split
          · exact h
          · split
            exacts [h, h, h]
      · exact h

theorem State.Keeps.acceptCopy (h : a.Keeps s) {x r x1 d} : a.Keeps (s.acceptCopy x r x1 d) := by
  unfold State.acceptCopy
  split
  · exact h.doneHeld
  extract_lets tell c
  refine .ite h.raiseHeld (.ite h ?_)
  have hp : a.Keeps (if c.cw = 0 ∨ c.cwHost then (none, s) else s.probeWrite x.iss c.cw 8).2 := by
    split
    exacts [h, h.probeWrite]
  split
  next e => exact (hp.snd e).raiseHeld
  next e =>
    have hs := hp.snd e
    split
    · exact hs.raiseHeld
    · exact .ite hs.upd.setEng.doneHeld.noteDone hs.upd.setEng.doneHeld.noteDone.reply

theorem State.Keeps.performXcopy (h : a.Keeps s) {x r} : a.Keeps (State.performXcopy x r s) := by
  unfold State.performXcopy
  dsimp only
  split
  · exact h
  · split
    next e => exact h.loadOwn.snd e
    next e => exact (h.loadOwn.snd e).raiseHeld
    next e =>
      have he := h.loadOwn.snd e
      split
      exacts [he.raiseHeld, he.acceptCopy]

theorem execXcopy_keeps (h : a.Keeps s) {r} : a.KeepsOut (execXcopy r s) := h.fireWriting fun _ _ h => h.performXcopy
theorem State.Keeps.setCopy (h : a.Keeps s) {c} : a.Keeps (s.setCopy c) := h.setEng
theorem State.Keeps.readGranule (h : a.Keeps s) {k x} : a.Keeps (s.readGranule k x).2.2 :=
  foldl_keeps (fun y : List Byte × List Bool × State => a.Keeps y.2.2) _ (fun _ _ h => h.readAt) _ _ h
theorem State.Keeps.writeGranule (h : a.Keeps s) {k x bs ms} : a.Keeps (s.writeGranule k x bs ms) := h.foldl fun _ _ h => h.writeAt
theorem State.Keeps.hostRead (h : a.Keeps s) {x n} : a.Keeps (s.hostRead x n).2.2 := .ite h.emitOut h
theorem State.Keeps.hostWrite (h : a.Keeps s) {x bs pois} : a.Keeps (s.hostWrite x bs pois) :=
  .emitOut (h.setMem (.areas (hhost := writeCells_wf _ _ _)))
theorem State.Keeps.hostParts (h : a.Keeps s) {x bs ms} : a.Keeps (s.hostParts x bs ms) :=
  .ite (h.foldl fun _ _ h => h.hostWrite) h.hostWrite

theorem State.Keeps.failCopy (h : a.Keeps s) {c code k} : a.Keeps (s.failCopy c code k) := by
  unfold State.failCopy
  dsimp only
  split
  exacts [.ite h h.xcError.setCopy, .ite h h.xcError.setCopy]

theorem State.Keeps.copyFetch (h : a.Keeps s) {c ecc} : a.Keeps (s.copyFetch c ecc) := by
  unfold State.copyFetch
  dsimp only
  split
  · exact h
  · split
    next e => exact h.copyPlace.snd e
    next e => exact h.copyPlace.snd e
    next e => exact (h.copyPlace.snd e).hostRead.setCopy
    next e => exact .ite (.ite ((h.copyPlace.snd e).setCopy) (.ite (h.copyPlace.snd e) ((h.copyPlace.snd e).sendReq.setCopy))) (.ite
        (h.copyPlace.snd e) ((h.copyPlace.snd e).readGranule.setCopy))

theorem State.Keeps.copyStore (h : a.Keeps s) {c} : a.Keeps (s.copyStore c) := by
  unfold State.copyStore
  dsimp only
  split
  · split
    next e1 => exact h.copyPlace.snd e1
    next e1 => exact h.copyPlace.snd e1
    next e1 => exact (h.copyPlace.snd e1).hostParts.setCopy
    next e1 => exact .ite (.ite ((h.copyPlace.snd e1).badRing.setCopy) (.ite (h.copyPlace.snd e1) ((h.copyPlace.snd
        e1).sendReq.setCopy))) (.ite (h.copyPlace.snd e1) ((h.copyPlace.snd e1).writeGranule.setCopy))
  · exact h

theorem execCopyGranule_keeps (h : a.Keeps s) : a.KeepsOut (execCopyGranule s) := by
  unfold execCopyGranule
  dsimp only
  split
  · split
    exacts [h.upd.next, .ite h.upd.next (.next (.setEng (.ite h.upd.copyFetch h.upd.copyStore)))]
  · exact h.next

theorem State.Keeps.endCopy (h : a.Keeps s) {c} : a.Keeps (s.endCopy c) := by
  unfold State.endCopy
  dsimp only
  split
  exacts [h.setEng.reply, h.setEng]

theorem State.Keeps.writeCw (h : a.Keeps s) {c} : a.Keeps (s.writeCw c) :=
  .ite h.endCopy (.ite h.hostWrite.endCopy (.ite h (.ite h.writeVa.endCopy h.writeVa.setCopy)))

theorem execCopyComplete_keeps (h : a.Keeps s) : a.KeepsOut (execCopyComplete s) := by
  unfold execCopyComplete
  dsimp only
  split
  · split
    exacts [h.upd.next, .ite h.upd.next h.upd.writeCw.next]
  · exact h.next

theorem State.Keeps.copyFault (h : a.Keeps s) {c} : a.Keeps (s.copyFault c) := by
  unfold State.copyFault
  dsimp only
  split
  · exact h
  · split
    next e => exact (h.copyPlace.snd e).failCopy
    next e => exact .ite ((h.copyPlace.snd e).failCopy) (h.copyPlace.snd e)

theorem execCopyFault_keeps (h : a.Keeps s) : a.KeepsOut (execCopyFault s) := by
  unfold execCopyFault
  dsimp only
  split
  · split
    exacts [h.upd.next, .ite h.upd.copyFault.next h.upd.next]
  · exact h.next

theorem State.Keeps.nmTranslate (h : a.Keeps s) {i va write} : a.Keeps (s.nmTranslate i va write).2 := by
  unfold State.nmTranslate
  split
  · exact h
  · split
    next e => exact h.translate.snd e
    next e => exact h.translate.snd e

theorem State.Keeps.nmWrite (h : a.Keeps s) {i va n bad} : a.Keeps (s.nmWrite i va n bad).2 := by
  unfold State.nmWrite
  split
  next e => exact h.nmTranslate.snd e
  next e =>
    split
    · exact h.nmTranslate.snd e
    · split
      exacts [h.nmTranslate.snd e, h.nmTranslate.snd e]

theorem State.Keeps.nmBase (h : a.Keeps s) {i va bad} : a.Keeps (s.nmBase i va bad).2 := by
  unfold State.nmBase
  split
  next e => exact h.nmTranslate.snd e
  next e =>
    split
    exacts [h.nmTranslate.snd e, h.nmTranslate.snd e]

theorem State.Keeps.nmCheck (h : a.Keeps s) {i p base rowg} : a.Keeps (s.nmCheck i p base rowg).2 := by
  unfold State.nmCheck
  dsimp only
  split
  · exact h
  · split
    · exact h
    · split
      · exact h
      · split
        · exact h
        · split
          next e => exact h.nmBase.snd e
          next e =>
            have he := h.nmBase.snd e
            split
            · exact h.nmBase.snd e
            · split
              next e1 => exact he.nmWrite.snd e1
              next e1 =>
                have he1 := he.nmWrite.snd e1
                split
                · exact he.nmWrite.snd e1
                · split
                  next e2 => exact he1.nmWrite.snd e2
                  next e2 => exact he1.nmWrite.snd e2

theorem State.Keeps.performNmred (h : a.Keeps s) {x r} : a.Keeps (State.performNmred x r s) := by
  unfold State.performNmred
  dsimp only
  split
  · exact h
  · split
    next e => exact (h.nmCheck.snd e).raiseHeld
    next e =>
      have he := h.nmCheck.snd e
      split
      · exact h.nmCheck.snd e
      · split
        exacts [.ite (he.upd.setEng.doneHeld.noteDone) (he.upd.setEng.doneHeld.noteDone.reply),
            .ite (he.upd.setEng.doneHeld.noteDone) (he.upd.setEng.doneHeld.noteDone.reply)]

theorem execNmred_keeps (h : a.Keeps s) {r} : a.KeepsOut (execNmred r s) := h.fireWriting fun _ _ h => h.performNmred

theorem State.Keeps.nmFlag (h : a.Keeps s) {p flag} : a.Keeps (if nmFlag p = 0 then s else if nmFop p then
    (s.readAt .global flag 8).2.2.writeAt .global flag (bytesOf 8 (Sys2Proof.ofBytes (s.readAt .global flag 8).1 + nmFlagVal p))
      (s.readAt .global flag 8).2.1 else s.writeAt .global flag (bytesOf 8 (nmFlagVal p)) false) :=
  .ite h (.ite (h.readAt (k := .global)).writeAt h.writeAt)

theorem State.Keeps.endNm (h : a.Keeps s) {c} : a.Keeps (s.endNm c) := by
  have hf := fun s (h : a.Keeps s) => (State.Keeps.nmFlag h (p := c.packet.toNat) (flag := c.flag))
  unfold State.endNm
  dsimp only
  split
  exacts [(hf _ (h.foldl fun _ _ h => h.writeAt)).reply, hf _ (h.foldl fun _ _ h => h.writeAt)]

theorem execNearMemoryReduce_keeps (h : a.Keeps s) : a.KeepsOut (execNearMemoryReduce s) := by
  unfold execNearMemoryReduce
  dsimp only
  split
  · split
    exacts [h.upd.next, .ite h.upd.setEng.next (.ite h.upd.next h.upd.setEng.endNm.next)]
  · exact h.next

theorem State.Keeps.setArr (h : a.Keeps s) {k x} : a.Keeps (s.setArr k x) := h.setEng

theorem State.Keeps.onArray (h : a.Keeps s) {i p f} (hf : ∀ k x, a.Keeps (f k x)) : a.Keeps (s.onArray i p f) := by
  unfold State.onArray
  split
  · exact h.raise
  · split
    exacts [hf .., h.raise]

theorem State.Keeps.fireMatrix (h : a.Keeps s) {opc ins r p perform} (hp : ∀ x s, a.Keeps s → a.Keeps (perform x s)) :
    a.KeepsOut (s.fireMatrix opc ins r p perform) :=
  h.fire fun _ _ _ _ _ h => h.onArray fun _ _ => h.startHeld hp

theorem State.Keeps.settleDrain (h : a.Keeps s) {k c x} : a.Keeps (s.settleDrain k c x) := by
  unfold State.settleDrain
  dsimp only
  split
  exacts [h, .ite h.setArr h]

theorem State.Keeps.performMwload (h : a.Keeps s) {x r} : a.Keeps (State.performMwload x r s) := h.doneHeld.setArr
theorem execMwload_keeps (h : a.Keeps s) {r} : a.KeepsOut (execMwload r s) := h.fireMatrix fun _ _ h => h.performMwload
theorem State.Keeps.performMmac (h : a.Keeps s) {x r} : a.Keeps (State.performMmac x r s) :=
  .ite h.doneHeld.reply (.ite h h.doneHeld.setArr)
theorem execMmac_keeps (h : a.Keeps s) {r} : a.KeepsOut (execMmac r s) := h.fireMatrix fun _ _ h => h.performMmac

theorem State.Keeps.performMdrain (h : a.Keeps s) {x r} : a.Keeps (State.performMdrain x r s) := by
  unfold State.performMdrain
  dsimp only
  split
  exacts [h.doneHeld, .ite h.settleDrain h.settleDrain.doneHeld.setArr]

theorem execMdrain_keeps (h : a.Keeps s) {r} : a.KeepsOut (execMdrain r s) := h.fireMatrix fun _ _ h => h.performMdrain

theorem State.Keeps.performMacc (h : a.Keeps s) {x r} : a.Keeps (State.performMacc x r s) := by
  unfold State.performMacc
  dsimp only
  split
  exacts [h.doneHeld, h.doneHeld.setArr.reply]

theorem execMacc_keeps (h : a.Keeps s) {r} : a.KeepsOut (execMacc r s) := h.fireMatrix fun _ _ h => h.performMacc

theorem State.Keeps.performMrel (h : a.Keeps s) {x r} : a.Keeps (State.performMrel x r s) := by
  unfold State.performMrel
  dsimp only
  split
  exacts [h.doneHeld, .ite h.settleDrain h.settleDrain.doneHeld.setArr.reply]

theorem execMrel_keeps (h : a.Keeps s) {r} : a.KeepsOut (execMrel r s) := h.fireMatrix fun _ _ h => h.performMrel
theorem State.Keeps.performMchk (h : a.Keeps s) {x r} : a.Keeps (State.performMchk x r s) := .ite h.doneHeld.raise h.doneHeld.setArr.reply
theorem execMchk_keeps (h : a.Keeps s) {r} : a.KeepsOut (execMchk r s) :=
  h.fire fun _ _ _ _ _ h => h.onArray fun _ _ => .ite h.reply (h.startHeld fun _ _ h => h.performMchk)
theorem State.Keeps.endLoads (h : a.Keeps s) {k x} : a.Keeps (s.endLoads k x) := h.setArr.foldl fun _ _ h => h.reply

theorem State.Keeps.takeBus (h : a.Keeps s) {e x} : a.Keeps (s.takeBus e x) := by
  unfold State.takeBus
  dsimp only
  split
  · exact h
  · split
    · exact h
    · split
      exacts [h, h.setArr.rememberTok.endLoads]

theorem State.Keeps.settleBuses (h : a.Keeps s) {tid} : a.Keeps (s.settleBuses tid) := h.foldl fun _ _ h => h.setFab.takeBus

theorem State.Keeps.weightLoad (h : a.Keeps s) {k} : a.Keeps (s.weightLoad k) := by
  unfold State.weightLoad
  dsimp only
  split
  · exact h
  · split
    · exact h.choose
    · split
      · split
        exacts [.ite h.choose.choose ((h.choose.choose.foldl fun _ _ h => h.use).setEng.setFab.setArr), .ite h.choose.choose
            ((h.choose.choose.foldl fun _ _ h => h.use).setEng.setFab.setArr)]
      · exact h.choose

theorem execWeightTokenLoad_keeps (h : a.Keeps s) : a.KeepsOut (execWeightTokenLoad s) := by
  unfold execWeightTokenLoad
  split
  exacts [h.upd.weightLoad.next, h.next]

theorem State.Keeps.serveRow (h : a.Keeps s) {x} : a.Keeps (s.serveRow x) := h.setFab

theorem State.Keeps.rowTake (h : a.Keeps s) {k} : a.Keeps (s.rowTake k) := by
  unfold State.rowTake
  dsimp only
  split
  · exact h
  · split
    exacts [h.settleDrain, .ite h.settleDrain (.ite h.settleDrain.use.serveRow.setEng.setArr.reply
        h.settleDrain.use.serveRow.setEng.setArr)]

theorem execArrayRowTake_keeps (h : a.Keeps s) : a.KeepsOut (execArrayRowTake s) := by
  unfold execArrayRowTake
  split
  exacts [h.upd.rowTake.next, h.next]

theorem State.Keeps.keepTok (h : a.Keeps s) {aid x} : a.Keeps (s.keepTok aid x) := by
  unfold State.keepTok
  dsimp only
  split
  exacts [h, .ite h (.ite h.setAct h.updThread)]

theorem State.Keeps.keepBeat (h : a.Keeps s) {e c aid r b} : a.Keeps (s.keepBeat e c aid r b) := by
  unfold State.keepBeat
  refine h.foldl fun _ _ h1 => ?_
  split
  exacts [h1, h1.keepTok]

theorem State.Keeps.drainToken (h : a.Keeps s) {k j} : a.Keeps (s.drainToken k j) := by
  unfold State.drainToken
  extract_lets tid c
  split
  · exact h
  split
  · extract_lets n s1 parts row z v fails x1 s2 vals pay beat s3
    have hrow : a.Keeps s3 := (State.Keeps.ite h.use.countElem h.use).setArr
    split
    exacts [h, .ite h (.ite hrow.keepBeat hrow.keepBeat.setCtx)]
  · exact h

theorem execArrayDrainToken_keeps (h : a.Keeps s) : a.KeepsOut (execArrayDrainToken s) := by
  unfold execArrayDrainToken
  split
  exacts [h.upd.drainToken.next, h.next]

theorem State.Keeps.acceptFrom (h : a.Keeps s) {e d x} : a.KeepsOpt (s.acceptFrom e d x) := .ite (.ite .none h.takeBus.just) h.acceptTok

theorem State.Keeps.acceptFirst (h : a.Keeps s) {e x} : a.Keeps (s.acceptFirst e x) := by
  induction x generalizing s with
  | nil => exact h
  | cons y r ih =>
    unfold State.acceptFirst
    dsimp only
    split
    next e1 => exact (h.setFab.acceptFrom.get e1).use
    · exact ih h

theorem State.Keeps.acceptOne (h : a.Keeps s) {e} : a.Keeps (s.acceptOne e) := by
  unfold State.acceptOne
  split
  next e1 => exact h.acceptChan.get e1
  · exact h.acceptFirst

theorem execTokenAccept_keeps (h : a.Keeps s) : a.KeepsOut (execTokenAccept s) := by
  unfold execTokenAccept
  dsimp only
  split
  exacts [.ite h.upd.next h.upd.acceptOne.next, h.next]

theorem State.Keeps.rowRange (h : a.Keeps s) {x w} : a.Keeps (s.rowRange x w) := by
  unfold State.rowRange
  dsimp only
  refine .raiseHeld ?_
  split
  exacts [h, h, h.free]

theorem State.Keeps.performRow (h : a.Keeps s) {x} : a.Keeps (State.performRow x s) := by
  unfold State.performRow
  dsimp only
  split
  · exact h.doneHeld
  · split
    · exact h.rowRange
    · split
      · split
        exacts [h.rowRange, h.raiseHeld]
      · split
        exacts [(h.doneHeld.setMemOf h).noteDone, h.doneHeld.setMemOf h]

theorem execRowact_keeps (h : a.Keeps s) {r} : a.KeepsOut (execRowact r s) := h.fireHeld fun _ _ h => h.performRow
theorem execRowcon_keeps (h : a.Keeps s) {r} : a.KeepsOut (execRowcon r s) := h.fireHeld fun _ _ h => h.performRow
theorem execRowput_keeps (h : a.Keeps s) {r} : a.KeepsOut (execRowput r s) := h.fireWriting fun _ _ h => h.performRow
theorem execRowpre_keeps (h : a.Keeps s) {r} : a.KeepsOut (execRowpre r s) := h.fireHeld fun _ _ h => h.performRow

theorem State.Keeps.rowToWeights (h : a.Keeps s) {x l} : a.Keeps (s.rowToWeights x l) := by
  unfold State.rowToWeights
  dsimp only
  split
  exacts [h, h.setArr]

theorem State.Keeps.rowGo (h : a.Keeps s) {x c} : a.Keeps (s.rowGo x c).2 := by
  unfold State.rowGo
  split
  · exact h.setMem
  · exact .ite h.rowToWeights ((h.setMem (.rowToBanks ..)).foldl fun _ _ h => h.noteWrite)
  · exact (h.setMem (.banksToRow ..)).foldl fun _ _ h => h.noteWrite
  · split
    exacts [h.setMem (.closeBank ..), h]

theorem State.Keeps.undone (h : a.Keeps s) {x} : a.Keeps (s.undone x) := by
  unfold State.undone
  split
  exacts [h.updAct, h]

theorem State.Keeps.rowEffect (h : a.Keeps s) {x} : a.Keeps (s.rowEffect x) := by
  unfold State.rowEffect
  dsimp only
  split
  · exact h
  · split
    exacts [(h.setMem (.settleBank ..)).setMem.setMem.undone.raise, (h.setMem (.settleBank ..)).setMem.rowGo.setMem]

theorem execRowCommandEffect_keeps (h : a.Keeps s) : a.KeepsOut (execRowCommandEffect s) := by
  unfold execRowCommandEffect
  dsimp only
  split
  · split
    exacts [h.upd.next, h.upd.rowEffect.next]
  · exact h.next

theorem execRowCommandComplete_keeps (h : a.Keeps s) : a.KeepsOut (execRowCommandComplete s) := by
  unfold execRowCommandComplete
  dsimp only
  split
  · split
    · exact h.upd.next
    · split
      exacts [h.upd.next, .ite h.upd.next h.upd.setMem.reply.next]
  · exact h.next

theorem State.Keeps.forceClose (h : a.Keeps s) {n at_} : a.Keeps (s.forceClose n at_) := .ite h h.setMem

theorem execRowOpenTimeout_keeps (h : a.Keeps s) : a.KeepsOut (execRowOpenTimeout s) := by
  unfold execRowOpenTimeout
  split
  exacts [h.upd.forceClose.next, h.next]

theorem execRowRefresh_keeps (h : a.Keeps s) : a.KeepsOut (execRowRefresh s) := by
  unfold execRowRefresh
  split
  exacts [h.upd.forceClose.next, h.next]

theorem State.Keeps.setSlot (h : a.Keeps s) {k x} : a.Keeps (s.setSlot k x) := h.setQue

theorem State.Keeps.writeIndex (h : a.Keeps s) {q} : a.Keeps (s.writeIndex q).2 := by
  unfold State.writeIndex
  split
  exacts [h, h.desc]

theorem State.Keeps.notify (h : a.Keeps s) {q wr} : a.Keeps (s.notify q wr) := by
  unfold State.notify
  dsimp only
  split
  exacts [.ite h.setQue.setSlot.desc.desc.queueErr h.setQue.setSlot.desc.desc, .ite h.setQue.setDesc.setQue.desc.desc.queueErr
      h.setQue.setDesc.setQue.desc.desc]

theorem State.Keeps.putLoad (h : a.Keeps s) {x x1 x2} : a.Keeps (s.putLoad x x1 x2).2 := by
  induction x2 generalizing s x1 with
  | zero => exact h
  | succ n ih =>
    unfold State.putLoad
    split
    next e => exact h.loadOwn.snd e
    next e =>
      have he := h.loadOwn.snd e
      split
      next e1 => exact (ih he).snd e1
      next e1 => exact (ih he).snd e1
    next e =>
      have he := h.loadOwn.snd e
      split
      next e1 => exact (ih he).snd e1
      next e1 => exact (ih he).snd e1

theorem State.Keeps.putPacket (h : a.Keeps s) {x x1} : a.Keeps (s.putPacket x x1).2 := by
  unfold State.putPacket
  dsimp only
  split
  next e => exact h.loadOwn.snd e
  next e => exact h.loadOwn.snd e
  next e =>
    have he := h.loadOwn.snd e
    split
    next e1 => exact he.putLoad.snd e1
    next e1 => exact he.putLoad.snd e1
    next e1 => exact he.putLoad.snd e1

theorem State.Keeps.putEntries (h : a.Keeps s) {q asid ring size wr x} : a.Keeps (s.putEntries q asid ring size wr x).2 := by
  induction x generalizing s wr with
  | nil => exact h
  | cons y r ih =>
    unfold State.putEntries
    split
    next e => exact h.writeVa.snd e
    next e => exact ih (h.writeVa.snd e)

theorem State.Keeps.putDone (h : a.Keeps s) {x r status} : a.Keeps (s.putDone x r status) := .reply (.ite h.doneHeld.noteDone h.doneHeld)

theorem State.Keeps.putAt (h : a.Keeps s) {nb x r ext es} : a.Keeps (State.putAt nb x r ext es s) := by
  unfold State.putAt
  dsimp only
  split
  · exact h.writeIndex.desc.desc.desc.noteTurn.putDone
  · split
    · exact h.writeIndex.desc.desc.desc.noteTurn.putDone
    · split
      · exact .ite h.writeIndex.desc.desc.desc.noteTurn.noteTurn.putDone h.writeIndex.desc.desc.desc.setHeldOp
      · split
        · exact h.writeIndex.desc.desc.desc
        · split
          next e => exact (h.writeIndex.desc.desc.desc.noteTurn.putEntries.snd e).raiseHeld
          next e => exact (h.writeIndex.desc.desc.desc.noteTurn.putEntries.snd e).notify.putDone

theorem State.Keeps.performQput (h : a.Keeps s) {nb x r} : a.Keeps (State.performQput nb x r s) := by
  unfold State.performQput
  dsimp only
  split
  · exact h
  · split
    · exact h.putAt
    · split
      next e1 => exact (h.putPacket.snd e1).raiseHeld
      next e1 => exact h.putPacket.snd e1
      next e1 => exact (h.putPacket.snd e1).putAt

theorem execQput_keeps (h : a.Keeps s) {r} : a.KeepsOut (execQput r s) := h.fireWriting fun _ _ h => h.performQput
theorem execQputNb_keeps (h : a.Keeps s) {r} : a.KeepsOut (execQputNb r s) := h.fireWriting fun _ _ h => h.performQput

theorem State.Keeps.writeLit (h : a.Keeps s) {e c n w} : a.Keeps (s.writeLit e c n w) := by
  unfold State.writeLit
  split
  exacts [h.setStore (writeCells_wf _ _ _), h]

theorem State.Keeps.performArgw (h : a.Keeps s) {x} : a.Keeps (State.performArgw x s) := .ite h h.setHeldOp.freeLatch

theorem State.Keeps.argwArrives (h : a.Keeps s) {x} : a.Keeps (s.argwArrives x) := by
  unfold State.argwArrives
  dsimp only
  split
  · split
    · exact h
    · split
      exacts [h.dropHeld.reply, h.setTask.dropHeld.writeLit.reply]
  · exact h.dropHeld

theorem State.Keeps.argwEnd (h : a.Keeps s) : a.Keeps s.argwEnd := h.foldl fun _ _ h => h.argwArrives
theorem execArgw_keeps (h : a.Keeps s) {r} : a.KeepsOut (execArgw r s) := h.fireHeld fun _ _ h => h.performArgw
theorem State.Keeps.setBed (h : a.Keeps s) {b x} : a.Keeps (s.setBed b x) := h.setEng
theorem State.Keeps.fireFct (h : a.Keeps s) {opc ins r perform} (hperform : ∀ x0 s, a.Keeps s → a.Keeps (perform x0 s)) : a.KeepsOut
    (s.fireFct opc ins r perform) :=
  h.fire fun _ _ _ _ _ h1 => .ite (h1.startHeld fun _ _ h => hperform _ _ h) h1.raise
theorem State.Keeps.performFctb (h : a.Keeps s) {x r} : a.Keeps (State.performFctb x r s) :=
  .ite h.raiseHeld (.ite h.raiseHeld h.doneHeld.setBed.reply)
theorem execFctb_keeps (h : a.Keeps s) {r} : a.KeepsOut (execFctb r s) := h.fireFct fun _ _ h => h.performFctb
theorem State.Keeps.performFcts (h : a.Keeps s) {x r} : a.Keeps (State.performFcts x r s) :=
  .ite h.raiseHeld (.ite h (.ite h.doneHeld.reply h.doneHeld.setBed))
theorem execFcts_keeps (h : a.Keeps s) {r} : a.KeepsOut (execFcts r s) := h.fireFct fun _ _ h => h.performFcts

theorem State.Keeps.choosePivot (h : a.Keeps s) {ms b0 k} : a.Keeps (s.choosePivot ms b0 k) := by
  unfold State.choosePivot
  split
  exact .ite h.setBed (h.setBed.setMemOf h (.swapRows ..))

theorem State.Keeps.eliminate (h : a.Keeps s) {ms b0 k p} : a.Keeps (s.eliminate ms b0 k p).2 :=
  State.Keeps.foldl (.setBed (.setMem h (foldl_keeps (fun x : Memory × Nat => s.mem.Keeps x.1) _ (fun _ _ hx => foldl_keeps (fun x : Memory
    × Nat => s.mem.Keeps x.1) _ (fun _ _ hx => hx.trans (.updateRow ..)) _ _ hx) _ _ (.refl _)))) fun _ _ h => h.setBed

theorem State.Keeps.column (h : a.Keeps s) {ms b0 k} : a.Keeps (s.column ms b0 k).2 := by
  unfold State.column
  dsimp only
  split
  · exact h.choosePivot
  · split
    exacts [(h.choosePivot.setBed.setMemOf h.choosePivot (.tileSet ..)).eliminate, h.choosePivot.eliminate]

theorem State.Keeps.endSteps (h : a.Keeps s) {ms} : a.Keeps (s.endSteps ms) := by
  unfold State.endSteps
  dsimp only
  refine h.foldl fun _ _ h1 => ?_
  split
  · exact h1
  · split
    exacts [h1.setBed.reply, h1.setBed]

theorem State.Keeps.discardStep (h : a.Keeps s) {aid0 i} : a.Keeps (s.discardStep aid0 i) := by
  unfold State.discardStep
  dsimp only
  split
  · exact h
  · split
    · exact h
    · split
      exacts [h, (h.foldl fun _ _ h => h.discardAct).updThread]

theorem State.Keeps.trapSteps (h : a.Keeps s) {ms x} : a.Keeps (s.trapSteps ms x) := by
  unfold State.trapSteps
  dsimp only
  split
  exacts [h.foldl fun _ _ h => h.setBed, (h.foldl fun _ _ h => h.setBed).raise.foldl fun _ _ h => h.discardStep]

theorem State.Keeps.unserve (h : a.Keeps s) {ms} : a.Keeps (s.unserve ms) := h.foldl fun _ _ h => h.setBed

theorem State.Keeps.columnStep (h : a.Keeps s) {b} : a.Keeps (s.columnStep b) := by
  unfold State.columnStep
  dsimp only
  split
  · exact h
  · split
    · exact h.trapSteps
    · split
      · exact h.endSteps
      · split
        · exact h.foldl fun _ _ h => h.setBed
        · split
          · exact h
          · split
            exacts [h.unserve.column.trapSteps, h.unserve.column.trapSteps, .ite ((h.unserve.column.foldl fun _ _ h => h.setBed).endSteps)
                (h.unserve.column.foldl fun _ _ h => h.setBed)]

theorem execFctColumnStep_keeps (h : a.Keeps s) : a.KeepsOut (execFctColumnStep s) := by
  unfold execFctColumnStep
  split
  exacts [h.upd.columnStep.next, h.next]

theorem State.Keeps.formGroup (h : a.Keeps s) {ms} : a.Keeps (s.formGroup ms) := by
  unfold State.formGroup
  dsimp only
  refine (h.foldl fun _ _ h1 => ?_).foldl fun _ _ h1 => ?_
  · exact h1.setBed
  · split
    · exact h1.reply
    · exact h1

theorem State.Keeps.performFctn (h : a.Keeps s) {x r} : a.Keeps (State.performFctn x r s) := by
  unfold State.performFctn
  dsimp only
  split
  · exact h
  · split
    exacts [h.raiseHeld, .ite h.doneHeld.setBed.formGroup h.doneHeld.setBed]

theorem execFctn_keeps (h : a.Keeps s) {r} : a.KeepsOut (execFctn r s) := h.fireFct fun _ _ h => h.performFctn
theorem execFctr_keeps (h : a.Keeps s) {r} : a.KeepsOut (execFctr r s) :=
  h.fire fun _ _ _ _ _ h1 => .ite h1.raise (h1.foldl fun _ _ h => h.sendBeat)

theorem State.Keeps.performFctsv (h : a.Keeps s) {x r} : a.Keeps (State.performFctsv x r s) :=
  .ite h.raiseHeld (.ite h.raiseHeld (.reply (h.doneHeld.setMemOf h (.areas
    (hbank := foldl_keeps (fun t => Tab.wf 0 t = true) _ (fun t _ ht => writeCells_wf _ _ _ ht) _ _)))))

theorem execFctsv_keeps (h : a.Keeps s) {r} : a.KeepsOut (execFctsv r s) := h.fireFct fun _ _ h => h.performFctsv
theorem State.Keeps.performFcte (h : a.Keeps s) {x r} : a.Keeps (State.performFcte x r s) :=
  .ite h.raiseHeld (.ite h ((h.doneHeld.foldl fun _ _ h => h.setBed).setBed.reply))
theorem execFcte_keeps (h : a.Keeps s) {r} : a.KeepsOut (execFcte r s) := h.fireFct fun _ _ h => h.performFcte
theorem State.Keeps.performRedput (h : a.Keeps s) {x r} : a.Keeps (State.performRedput x r s) :=
  .ite h (.ite h.doneHeld.setTree h.doneHeld.setTree)

theorem execRedput_keeps (h : a.Keeps s) {r} : a.KeepsOut (execRedput r s) := by
  unfold execRedput
  split
  exacts [h.next, (h.upd.startHeld fun _ _ h => h.performRedput).next]

theorem State.Keeps.combineRound (h : a.Keeps s) {k n} : a.Keeps (s.combineRound k n) := by
  unfold State.combineRound
  dsimp only
  split
  · split
    · exact h
    · split
      · exact h
      · split
        · exact h.setTree
        · split
          exacts [h.setTree, h.setTree.launchTok]
  · exact h

theorem execReduceRoundCombine_keeps (h : a.Keeps s) : a.KeepsOut (execReduceRoundCombine s) := by
  unfold execReduceRoundCombine
  split
  exacts [h.upd.combineRound.next, h.next]

theorem State.Keeps.trimResults (h : a.Keeps s) {k} : a.Keeps (s.trimResults k) := h.setTree
theorem State.Keeps.fireWait (h : a.Keeps s) {w x} : a.Keeps (s.fireWait w x) := h.reply

theorem State.Keeps.rootResult (h : a.Keeps s) {k n} : a.Keeps (s.rootResult k n) := by
  unfold State.rootResult
  extract_lets t x
  split
  · refine .ite h ?_
    extract_lets codes s1 res now t1 t2 s2 s3
    have htree : a.Keeps s2 := State.Keeps.setTree (.ite h h.setFlags)
    have hreply : a.Keeps s3 := by
      dsimp only [s3]
      split
      exacts [htree.reply, htree]
    exact .trimResults (hreply.foldl fun _ _ h => h.fireWait)
  · exact h

theorem execReduceRootResult_keeps (h : a.Keeps s) : a.KeepsOut (execReduceRootResult s) := by
  unfold execReduceRootResult
  split
  exacts [h.upd.rootResult.next, h.next]

theorem State.Keeps.raiseLive (h : a.Keeps s) {i x} : a.Keeps (s.raiseLive i x) := by
  unfold State.raiseLive
  split
  exacts [.ite h h.raise, h]

theorem execRedwait_keeps (h : a.Keeps s) {r} : a.KeepsOut (execRedwait r s) := by
  unfold execRedwait
  dsimp only
  split
  · exact h.next
  · split
    · exact h.upd.setTree.trimResults.reply.next
    · split
      · exact h.upd.setTree.trimResults.raise.next
      · split
        · exact h.upd.setTree.raiseLive.next
        · split
          exacts [h.upd.setTree.fireWait.trimResults.next, h.upd.setTree.setTree.next]

theorem State.Keeps.abandonRound (h : a.Keeps s) {k round} : a.Keeps (s.abandonRound k round) := by
  unfold State.abandonRound
  dsimp only
  split
  exacts [(h.setTree.foldl fun _ _ h => h.raiseLive).raiseLive, h.setTree.foldl fun _ _ h => h.raiseLive]

theorem execReduceRoundAbandon_keeps (h : a.Keeps s) : a.KeepsOut (execReduceRoundAbandon s) := by
  unfold execReduceRoundAbandon
  dsimp only
  split
  · split
    exacts [.ite h.upd.next h.upd.abandonRound.next, h.upd.next]
  · exact h.next

end Sys2Proof.Machine
end

