-- ==== Sys2Proof/Proofs/FramePlanes.lean ====
section
-- Some hundred short proofs: checked as tasks of their own, all at once, they outgrow the memory that check.sh allows.
set_option Elab.async false
/-! PROOFS. What keeps the canonical form and the order: cuts, collectives, and the planes that are dropped, saved and placed. -/
namespace Sys2Proof.Machine
variable {a s t : State}

theorem State.Keeps.updCut (h : a.Keeps s) {tid f} : a.Keeps (s.updCut tid f) := h.updTask
theorem State.Keeps.unready (h : a.Keeps s) {e c n} : a.Keeps (s.unready e c n) := .ite h ((h.foldl fun _ _ h => h.setNodeSt).setCtx)

theorem State.Keeps.freezeNode (h : a.Keeps s) {tid key} : a.Keeps (s.freezeNode tid key) := by
  unfold State.freezeNode
  dsimp only
  split
  exacts [h, .ite h h.updCut.unready]

theorem State.Keeps.markEdge (h : a.Keeps s) {tid src key} : a.Keeps (s.markEdge tid src key) := h.updCut.freezeNode

theorem State.Keeps.inject (h : a.Keeps s) {tid} : a.Keeps (s.inject tid) := by
  unfold State.inject
  dsimp only
  split
  exacts [h, h.updCut.foldl fun _ _ h1 => h1.updCut.foldl fun _ _ h => h.freezeNode]

theorem State.Keeps.tryInject (h : a.Keeps s) {tid} : a.Keeps (s.tryInject tid) := by
  unfold State.tryInject
  split
  exacts [h, .ite h h.inject]

theorem State.Keeps.startCut (h : a.Keeps s) {tid} : a.Keeps (s.startCut tid) := by
  unfold State.startCut
  dsimp only
  split
  · exact h
  · refine (h.setTask.foldl fun _ _ h1 => ?_).tryInject
    refine h1.foldl fun _ _ h2 => ?_
    split
    exacts [.ite h2.unready h2, h2]

theorem execMarkerArrive_keeps (h : a.Keeps s) : a.KeepsOut (execMarkerArrive s) := by
  unfold execMarkerArrive
  dsimp only
  split
  · split
    exacts [h.upd.next, .ite h.upd.markEdge.next h.upd.next]
  · exact h.next

theorem State.Keeps.recordBeat (h : a.Keeps s) {tid e c l b} : a.Keeps (s.recordBeat tid e c l b) := by
  unfold State.recordBeat
  dsimp only
  refine h.foldl fun _ _ h1 => ?_
  split
  exacts [h1, .ite h1.launchTok h1.nextSeq.updCut]

theorem State.Keeps.injectAtLatch (h : a.Keeps s) {tid e c n} : a.Keeps (s.injectAtLatch tid e c n) :=
  (h.setFab.updCut.foldl fun _ _ h1 => h1.foldl fun _ _ h => h.recordBeat).setCtx.foldl fun _ _ h => h.markEdge

theorem execMarkerLatchInject_keeps (h : a.Keeps s) : a.KeepsOut (execMarkerLatchInject s) := by
  unfold execMarkerLatchInject
  dsimp only
  split
  · split
    · exact h.upd.next
    · split
      · exact h.upd.next
      · split
        exacts [h.upd.next, h.upd.injectAtLatch.next]
  · exact h.next

theorem State.Keeps.anyPage (h : a.Keeps s) {va len p x} (hp : ∀ x0 s, a.Keeps s → a.Keeps (p x0 s).2) : a.Keeps (s.anyPage va len p x).2
    := by
  induction x generalizing s va len with
  | zero => exact h
  | succ n ih =>
    unfold State.anyPage
    dsimp only
    split
    · exact h
    · split
      next e => exact (hp _ _ h).snd e
      next e => exact ih ((hp _ _ h).snd e)

theorem State.Keeps.rangeHas (h : a.Keeps s) {va len p} (hp : ∀ x0 s, a.Keeps s → a.Keeps (p x0 s).2) : a.Keeps (s.rangeHas va len p).2 :=
  h.anyPage fun _ _ h => hp _ _ h

theorem isDomain_keeps (h : a.Keeps s) {asid write va} : a.Keeps (isDomain asid write va s).2 := by
  unfold isDomain
  split
  · exact h
  · split
    next e => exact h.setMem (.snd (.walk ..) e)
    next e => exact h.setMem (.snd (.walk ..) e)

theorem isFault_keeps (h : a.Keeps s) {asid write va} : a.Keeps (isFault asid write va s).2 := by
  unfold isFault
  split
  next e => exact h.placeVa.snd e
  next e => exact h.placeVa.snd e

theorem State.Keeps.inWindow3 (h : a.Keeps s) {c n} : a.Keeps (s.inWindow3 c n).2 := by
  unfold State.inWindow3
  dsimp only
  split
  exacts [h, ((h.rangeHas fun _ _ h => isDomain_keeps h).rangeHas fun _ _ h => isDomain_keeps h).rangeHas fun _ _ h => isDomain_keeps h]

theorem State.Keeps.acceptColl (h : a.Keeps s) {x r d} : a.Keeps (s.acceptColl x r d) := by
  unfold State.acceptColl
  dsimp only
  split
  · exact h
  · split
    exacts [.ite h.free.doneHeld.reply h.upd.setEng.doneHeld.reply, .ite h.inWindow3.free.doneHeld.reply
        h.inWindow3.upd.setEng.doneHeld.reply]

theorem State.Keeps.performColl (h : a.Keeps s) {x r} : a.Keeps (State.performColl x r s) := by
  unfold State.performColl
  dsimp only
  split
  · exact h.doneHeld.raise
  · split
    · exact h
    · split
      next e => exact h.loadOwn.snd e
      next e => exact (h.loadOwn.snd e).doneHeld.raise
      next e =>
        have he := h.loadOwn.snd e
        split
        exacts [he.doneHeld.raise, he.acceptColl]

theorem execColl_keeps (h : a.Keeps s) {r} : a.KeepsOut (execColl r s) := h.fireHeld fun _ _ h => h.performColl
theorem State.Keeps.acquireRound (h : a.Keeps s) {i} : a.Keeps (s.acquireRound i) :=
  .noteAcquired (h.l1DropTask.setMem (.foldl _ (fun m _ => .mergeClock m ..) _))
theorem State.Keeps.fireStatus (h : a.Keeps s) {x v} : a.Keeps (s.fireStatus x v) := h.acquireRound.reply
theorem State.Keeps.setRound (h : a.Keeps s) {c} : a.Keeps (s.setRound c) := h.setEng

theorem State.Keeps.performCollw (h : a.Keeps s) {x} : a.Keeps (State.performCollw x s) := by
  unfold State.performCollw
  dsimp only
  split
  · exact h.doneHeld.fireStatus
  · split
    · exact h.doneHeld.fireStatus
    · split
      exacts [h.doneHeld.fireStatus, h.doneHeld.setRound]

theorem execCollw_keeps (h : a.Keeps s) {r} : a.KeepsOut (execCollw r s) := h.fireHeld fun _ _ h => h.performCollw

theorem State.Keeps.readRange (h : a.Keeps s) {rid asid va x} : a.Keeps (s.readRange rid asid va x).2 := by
  induction x generalizing s va with
  | zero => exact h
  | succ n ih =>
    unfold State.readRange
    split
    next e => exact h.readVa.snd e
    next e => exact ih (h.readVa.snd e)
    next e =>
      have he := h.readVa.snd e
      split
      next e1 => exact (ih he).snd e1
      next e1 => exact (ih he).snd e1

theorem State.Keeps.writeRange (h : a.Keeps s) {asid va bs x} : a.Keeps (s.writeRange asid va bs x) := by
  induction x generalizing s va bs with
  | nil => exact h
  | cons y r ih =>
    unfold State.writeRange
    exact ih h.writeVa

theorem State.Keeps.contributions (h : a.Keeps s) {x} : a.Keeps (s.contributions x).2 := by
  induction x generalizing s with
  | nil => exact h
  | cons y r ih =>
    unfold State.contributions
    split
    next e => exact ih (h.readRange.snd e)
    next e =>
      have he := h.readRange.snd e
      split
      next e1 => exact (ih he).snd e1
      next e1 => exact (ih he).snd e1

theorem State.Keeps.domainData (h : a.Keeps s) {c n remote} : a.Keeps (s.domainData c n remote).2 := by
  unfold State.domainData
  dsimp only
  split
  next e => exact h.readRange.snd e
  next e => exact h.readRange.snd e

theorem State.Keeps.roundData (h : a.Keeps s) {c n remote} : a.Keeps (s.roundData c n remote).2 := by
  unfold State.roundData
  split
  · exact h
  · split
    · exact h
    · split
      · exact h.domainData
      · split
        exacts [h, h.contributions]

theorem State.Keeps.shareFaults (h : a.Keeps s) {c n} : a.Keeps (s.shareFaults c n).2 := by
  unfold State.shareFaults
  dsimp only
  exact (h.rangeHas fun _ _ h => isFault_keeps h).rangeHas fun _ _ h => isFault_keeps h

theorem State.Keeps.endRound (h : a.Keeps s) {c status flag timeout} : a.Keeps (s.endRound c status flag timeout) :=
  .tryInject (.foldl (.dropFetches (.setRound (.ite h h.writeVa))) (fun _ _ h => .ite h.raise h.fireStatus))

theorem State.Keeps.completeRound (h : a.Keeps s) {c remote} : a.Keeps (s.completeRound c remote) := by
  unfold State.completeRound
  dsimp only
  split
  · exact h
  · split
    next e => exact h.roundData.snd e
    next e =>
      have he := h.roundData.snd e
      split
      next e1 => exact he.shareFaults.snd e1
      next e1 => exact (he.shareFaults.snd e1).setEng.writeRange.endRound

theorem execCollRoundComplete_keeps (h : a.Keeps s) : a.KeepsOut (execCollRoundComplete s) := by
  unfold execCollRoundComplete
  dsimp only
  split
  · split
    exacts [h.upd.next, h.upd.completeRound.next]
  · exact h.next

theorem State.Keeps.poisonRange (h : a.Keeps s) {asid va x} : a.Keeps (s.poisonRange asid va x) := by
  induction x generalizing s va with
  | zero => exact h
  | succ n ih =>
    unfold State.poisonRange
    dsimp only
    split
    next e => exact ih (h.placeVa.snd e)
    next e =>
      have he := h.placeVa.snd e
      split
      · exact ih he
      · exact ih (he.readAt.writeAt)

theorem State.Keeps.failRound (h : a.Keeps s) {timeout c} : a.Keeps (s.failRound timeout c) := h.poisonRange.endRound

theorem execCollRoundFail_keeps (h : a.Keeps s) : a.KeepsOut (execCollRoundFail s) := by
  unfold execCollRoundFail
  dsimp only
  split
  · split
    exacts [h.upd.next, .ite h.upd.failRound.next h.upd.next]
  · exact h.next

theorem execCollRoundTimeout_keeps (h : a.Keeps s) : a.KeepsOut (execCollRoundTimeout s) := by
  unfold execCollRoundTimeout
  dsimp only
  split
  · split
    exacts [h.upd.next, .ite h.upd.next ((h.upd.foldl fun _ _ h => h.failRound).next)]
  · exact h.next

theorem State.Keeps.zeroArea (h : a.Keeps s) {e c} : a.Keeps (s.zeroArea e c) :=
  h.setMem (.areas (hbank := Tab.wf_filter _ _) (hbankPois := Tab.wf_filter _ _))
theorem State.Keeps.l1Keep (h : a.Keeps s) {tid c old pl} : a.Keeps (s.l1Keep tid c old pl) := h.setMem
theorem State.Keeps.leaveBeds (h : a.Keeps s) {x c} : a.Keeps (s.leaveBeds x c) := h.setEng
theorem State.Keeps.clearCtx (h : a.Keeps s) {tid x c old pl} : a.Keeps (s.clearCtx tid x c old pl) := h.setFab.l1Keep.leaveBeds.setEng
theorem State.Keeps.loadImages (h : a.Keeps s) {tid x pl num c old} : a.Keeps (s.loadImages tid x pl num c old) :=
  h.foldl fun _ _ h => .setCtx (.setStore (.ite h h.zeroArea) (writeCells_wf _ _ _))

theorem State.Keeps.freeCtx (h : a.Keeps s) {x c} : a.Keeps (s.freeCtx x c) := by
  unfold State.freeCtx
  generalize List.replicate 1024 _ = zeros
  exact h.foldl fun _ _ h => State.Keeps.setFab (h.zeroArea.setStore (writeCells_wf _ _ _))

theorem State.Keeps.argLit (h : a.Keeps s) {e c n w} : a.Keeps (s.argLit e c n w) := h.setStore (writeCells_wf _ _ _)
theorem State.Keeps.applyArgs (h : a.Keeps s) {x pl c log} : a.Keeps (s.applyArgs x pl c log) :=
  (h.foldl fun _ _ h => .ite h h.argLit).foldl fun _ _ h => h.writeLit
theorem State.Keeps.stashTrees (h : a.Keeps s) {tid r} : a.Keeps (s.stashTrees tid r) := h.setEng
theorem State.Keeps.unstash (h : a.Keeps s) {tid num c} : a.Keeps (s.unstash tid num c) := h.setEng

theorem State.Keeps.dropPlane (h : a.Keeps s) {tid x pl num c old argc} : a.Keeps (s.dropPlane tid x pl num c old argc).2 := by
  unfold State.dropPlane
  dsimp only
  split
  exacts [h.clearCtx.freeCtx.armReport, h.clearCtx.setTask.loadImages.applyArgs.unstash]

theorem State.Keeps.planeDrop (h : a.Keeps s) {thread} : a.Keeps (s.planeDrop thread) := by
  unfold State.planeDrop
  split
  · exact h
  extract_lets s1
  have hr : a.Keeps s1 := h.reap
  split
  · split
    · exact hr
    refine .ite hr ?_
    split
    · exact hr.badBranch
    refine .ite hr.badBranch ?_
    split
    · exact hr
    refine .ite hr ?_
    extract_lets old s2 t2
    have hs : a.Keeps s2 := by
      dsimp only [s2]
      split
      exacts [hr.stashTrees, hr]
    split
    next e => exact hs.setTask.dropPlane.snd e
    next e => exact (hs.setTask.dropPlane.snd e).removePlane.endTask
  · exact hr

theorem execPlaneDrop_keeps (h : a.Keeps s) : a.KeepsOut (execPlaneDrop s) := by
  unfold execPlaneDrop
  split
  exacts [h.upd.planeDrop.next, h.next]

theorem State.Keeps.refire (h : a.Keeps s) {i} : a.Keeps (s.refire i) := h.updAct.setFab.setNodeSt

theorem State.Keeps.refireAll (h : a.Keeps s) {tid} : a.Keeps (s.refireAll tid) := by
  unfold State.refireAll
  dsimp only
  generalize sortBy _ _ = l
  induction l with
  | nil => exact h.setMem
  | cons x r ih => exact ih.refire

theorem State.Keeps.refireTraps (h : a.Keeps s) {tid k} : a.Keeps (s.refireTraps tid k) := by
  unfold State.refireTraps
  refine h.foldl fun _ _ h1 => ?_
  split
  · exact h1
  · split
    exacts [h1, .ite h1.setAct.refire h1]

theorem State.Keeps.emptyLatches (h : a.Keeps s) {tid x} : a.Keeps (s.emptyLatches tid x) := by
  unfold State.emptyLatches
  dsimp only
  refine h.foldl fun _ _ h1 => ?_
  split
  · exact h1
  · refine (h1.foldl fun _ _ h2 => ?_).setCtx
    split
    exacts [h2.foldl fun _ _ h => h.sendBeat, h2]

theorem State.Keeps.closeRows (h : a.Keeps s) {x} : a.Keeps (s.closeRows x) := by
  refine h.setMem (.foldl _ (fun m _ => ?_) _)
  dsimp only
  split
  · exact .refl m
  · split
    exacts [(Memory.Keeps.settleBank ..).trans (.closeBank ..), .settleBank ..]

theorem State.Keeps.ckFails (h : a.Keeps s) {tid} : a.Keeps (s.ckFails tid) := h.setSch.killTask

theorem State.Keeps.saveTask (h : a.Keeps s) {tid x k} : a.Keeps (s.saveTask tid x k) := by
  rw [State.saveTask]
  split
  · exact h.upd.ckFails
  · exact .ite h.upd.ckFails (.ite h h.upd.closeRows.settleBuses.emptyLatches.refireAll.refireTraps.writeAt.setSch.report.purge.hold)

theorem execCheckpointSave_keeps (h : a.Keeps s) : a.KeepsOut (execCheckpointSave s) := by
  unfold execCheckpointSave
  dsimp only
  split
  · split
    exacts [.ite h.upd.saveTask.next h.upd.next, h.upd.next]
  · exact h.next

theorem State.Keeps.noPlane (h : a.Keeps s) {num elem block} : a.Keeps (s.noPlane num elem block) := h.armReport

theorem State.Keeps.putBanks (h : a.Keeps s) {m img} : a.Keeps (s.putBanks m img) :=
  State.Keeps.foldl (h.setMem (.areas (hbank := (foldl_keeps (fun t => Tab.wf 0 t = true) _ (fun _ _ ht => Tab.wf_put _ _ _ ht) _ _))
    (hbankPois := (foldl_keeps (fun t => Tab.wf false t = true) _ (fun _ _ ht => Tab.wf_put _ _ _ ht) _ _)))) fun _ _ h => h.setCtx

theorem State.Keeps.putEngines (h : a.Keeps s) {m img} : a.Keeps (s.putEngines m img) := h.setEng

theorem State.Keeps.putFrames (h : a.Keeps s) {x l} : a.KeepsOpt (s.putFrames x l) := by
  induction l generalizing s with
  | nil => exact h.just
  | cons y r ih =>
    unfold State.putFrames
    split
    · exact ih h
    · exact h.allocFrames.bind fun _ h => ih h

theorem State.Keeps.putTokens (h : a.Keeps s) {m img} : a.Keeps (s.putTokens m img) := by
  unfold State.putTokens
  dsimp only
  refine h.foldl fun _ _ h1 => ?_
  refine .setFab ?_
  split
  exacts [h1, h1.nextSeq]

theorem State.Keeps.restoreRest (h : a.Keeps s) {img m} : a.KeepsOpt (s.restoreRest img m) :=
  h.updTask.putFrames.map fun _ h1 => (h1.putBanks.putEngines.setTsk.setFab.setMem.putTokens.foldl fun _ _ h => h.deliverTrap).foldl fun _
    _ h2 => h2.foldl fun _ _ h => h.releaseNode

theorem State.Keeps.setHeld (h : a.Keeps s) {x} : a.Keeps (s.setHeld x) := h.setSch
theorem State.Keeps.unhold (h : a.Keeps s) {lid} : a.Keeps (s.unhold lid) := h.setSch.dropFetches.setTsk
theorem State.Keeps.failHeld (h : a.Keeps s) {x code} : a.Keeps (s.failHeld x code) := h.unhold.launchFails

theorem State.Keeps.readSems (h : a.Keeps s) {lid l x} : a.Keeps (s.readSems lid l x).2 := by
  induction x generalizing s with
  | nil => exact h
  | cons y r ih =>
    unfold State.readSems
    split
    next e => exact h.readVa.snd e
    next e =>
      have he := h.readVa.snd e
      split
      next e1 => exact (ih he).snd e1
      next e1 => exact (ih he).snd e1
    next e =>
      have he := h.readVa.snd e
      split
      · exact h.readVa.snd e
      · split
        next e1 => exact (ih he).snd e1
        · exact ih he

theorem State.Keeps.semPass (h : a.Keeps s) {lid} : a.Keeps (s.semPass lid) := by
  unfold State.semPass
  split
  · exact h
  · split
    · exact h
    · split
      next e1 => exact .ite ((h.readSems.snd e1).failHeld) ((h.readSems.snd e1).setHeld)
      next e1 => exact (h.readSems.snd e1).setHeld
      next e1 => exact (h.readSems.snd e1).dropFetches.setHeld

theorem execSemaphoreRead_keeps (h : a.Keeps s) : a.KeepsOut (execSemaphoreRead s) := by
  unfold execSemaphoreRead
  dsimp only
  split
  · split
    exacts [h.upd.next, .ite h.upd.semPass.next h.upd.next]
  · exact h.next

theorem State.Keeps.consumeRack (h : a.Keeps s) {n} : a.Keeps (s.consumeRack n) := h.setQue
theorem State.Keeps.takeOffer (h : a.Keeps s) {k l} : a.Keeps (s.takeOffer k l) :=
  .ite h.setSlot.setDesc (.ite h.setQue.consumeRack h.setQue)

theorem execDispatchTick_keeps (h : a.Keeps s) : a.KeepsOut (execDispatchTick s) := by
  unfold execDispatchTick
  dsimp only
  split
  · split
    · exact h.upd.next
    · split
      exacts [h.upd.setSch.next, .ite h.upd.next h.upd.setSch.takeOffer.setSch.hold.semPass.next]
  · exact h.next

theorem State.Keeps.placeFails (h : a.Keeps s) {x code} : a.Keeps (s.placeFails x code) := h.failHeld

theorem State.Keeps.placeFresh (h : a.Keeps s) {x p ox oy c} : a.Keeps (s.placeFresh x p ox oy c) := by
  unfold State.placeFresh
  dsimp only
  split
  · exact h.noPlane.removePlane.placeFails
  · split
    · exact h.placeFails
    · split
      · exact h.placeFails
      · split
        next e => exact (h.setTask.setTsk.dropPlane.snd e).setTsk.removePlane.placeFails
        next e => exact ((h.setTask.setTsk.dropPlane.snd e).foldl fun _ _ h => h.setThread).unhold.updTask.report

theorem State.Keeps.redrop (h : a.Keeps s) {tid img l} (e : s.redrop tid img l = .ok t) : a.Keeps t := by
  induction l generalizing s with
  | nil => cases e; exact h
  | cons x r ih =>
    unfold State.redrop at e
    split at e
    · cases e; exact h
    · split at e
      · cases e
      · split at e
        · cases e
        next e1 => exact ih (h.dropPlane.snd e1) e

theorem State.Keeps.restore_ok (h : a.Keeps s) {img ox oy cs} (e : s.restore img ox oy cs = some (.ok t)) : a.Keeps t := by
  unfold State.restore at e
  dsimp only at e
  split at e
  · cases e
  next e1 =>
    obtain ⟨u, hu, he⟩ := Option.map_eq_some_iff.1 e
    cases he
    exact (h.setTask.redrop e1).restoreRest.get hu

theorem State.Keeps.place (h : a.Keeps s) {x} : a.KeepsOpt (s.place x) := by
  unfold State.place
  split
  · exact h.noPlane.removePlane.placeFails.just
  · split
    · exact .none
    · split
      · exact h.placeFresh.just
      next img _ =>
        cases hr : s.restore img _ _ _ with
        | none => exact .none
        | some r =>
          cases r with
          | ok t => exact (h.restore_ok hr).unhold.just
          | bad num f => exact h.setErr.removePlane.placeFails.just

theorem State.Keeps.tryPlace (h : a.Keeps s) {x} : a.KeepsOpt (s.tryPlace x) := h.place.map fun _ h1 => .ite h h1

theorem execTaskRetire_keeps (h : a.Keeps s) : a.KeepsOut (execTaskRetire s) := by
  unfold execTaskRetire
  dsimp only
  split
  · split
    · exact h.upd.next
    · split
      exacts [.ite h.upd.next h.upd.finishTask.next, .ite h.upd.endTask.next h.upd.next]
  · exact h.next

theorem State.Keeps.drainFor (h : a.Keeps s) {tid x lid limit} : a.Keeps (s.drainFor tid x lid limit) := h.setTask.setSch
theorem State.Keeps.killFor (h : a.Keeps s) {tid} : a.Keeps (s.killFor tid) := h.setSch.killTask

theorem State.Keeps.preempt (h : a.Keeps s) {tid lid prio drainToo} : a.Keeps (s.preempt tid lid prio drainToo) := by
  unfold State.preempt
  split
  · exact h
  · split
    · exact h.endTask
    · split
      exacts [h.drainFor, h.killFor, .ite (.ite h.killFor h.drainFor) (.ite h.ckFails h.startCut)]

theorem State.Keeps.tryAll (h : a.Keeps s) {block first x} : a.Keeps (s.tryAll block first x).2 := by
  induction x generalizing s block first with
  | nil => exact h
  | cons y r ih =>
    unfold State.tryAll
    split
    · exact h
    · split
      next e => exact ih (h.tryPlace.get e)
      · exact ih h

theorem State.Keeps.renew (h : a.Keeps s) : a.Keeps s.renew := h.setTsk

theorem State.Keeps.placerPass (h : a.Keeps s) : a.Keeps s.placerPass := by
  unfold State.placerPass
  dsimp only
  split
  · exact h.setSch.renew
  · refine .renew ?_
    split
    exacts [h.setSch.tryAll, .ite h.setSch.tryAll (h.setSch.tryAll.foldl fun _ _ h => h.preempt)]

theorem execPlacerPass_keeps (h : a.Keeps s) : a.KeepsOut (execPlacerPass s) := by
  unfold execPlacerPass
  dsimp only
  split
  exacts [.ite h.upd.placerPass.next h.upd.next, h.next]

theorem execDrainTimeout_keeps (h : a.Keeps s) : a.KeepsOut (execDrainTimeout s) := by
  unfold execDrainTimeout
  split
  · extract_lets s1
    have hs : a.Keeps s1 := h.upd
    split
    · exact hs.next
    split
    · extract_lets due s2
      have hset : a.Keeps s2 := hs.setTask.setSch
      refine .ite hs.next ?_
      split
      exacts [hset.next, hset.preempt.next]
    · exact hs.next
  · exact h.next

theorem execQuantumExpiry_keeps (h : a.Keeps s) : a.KeepsOut (execQuantumExpiry s) := by
  unfold execQuantumExpiry
  dsimp only
  split
  · split
    exacts [h.upd.next, .ite h.upd.setTask.next h.upd.next]
  · exact h.next

end Sys2Proof.Machine
end

