-- ==== Sys2Proof/Proofs/FrameHost.lean ====
section
-- Some hundred short proofs: checked as tasks of their own, all at once, they outgrow the memory that check.sh allows.
set_option Elab.async false
/-! PROOFS. What keeps the canonical form and the order: reset and boot, host queues, power, links and admin commands. -/
namespace Sys2Proof.Machine
variable {a s t : State}

theorem State.Keeps.packageReset (h : a.Keeps s) {f ag fresh out} :
    a.Keeps { State.resetOf f with
      agenda := ag, fresh := fresh, out := out, mem := { (State.resetOf f).mem with host := s.mem.host, hostPois := s.mem.hostPois } } where
  mem := {
    wf := fun ha => by
      obtain ⟨_, _, _, _, hhost, _⟩ := (Memory.wf_iff _).1 (h.mem.wf ha)
      exact (Memory.wf_iff _).2 ⟨rfl, rfl, rfl, rfl, hhost, rfl, rfl, rfl, rfl⟩
    coherent := fun _ => coherent_of_empty rfl ⟨rfl, rfl, rfl, rfl⟩ }
  store _ := rfl

theorem execPackageReset_keeps (h : a.Keeps s) : a.KeepsOut (execPackageReset s) := by
  unfold execPackageReset
  split
  exacts [h.packageReset.next, h.next]

theorem State.Keeps.bootFails (h : a.Keeps s) {code} : a.Keeps (s.bootFails code) := h.upd

theorem State.Keeps.bootImage (h : a.Keeps s) {img} : a.Keeps (s.bootImage img) := by
  unfold State.bootImage
  dsimp only
  split
  exacts [h.bootFails, h.upd]

theorem execBootPushGo_keeps (h : a.Keeps s) : a.KeepsOut (execBootPushGo s) := by
  unfold execBootPushGo
  split
  exacts [.ite h.upd.next (.ite h.upd.next (h.upd.readAt (k := .global)).bootImage.next), h.next]

theorem execBootSourceTimeout_keeps (h : a.Keeps s) : a.KeepsOut (execBootSourceTimeout s) := by
  unfold execBootSourceTimeout
  dsimp only
  split
  · split
    exacts [.ite h.upd.bootFails.next h.upd.next, .ite h.upd.bootFails.next h.upd.next]
  · exact h.next

theorem execBootNetworkFetchDone_keeps (h : a.Keeps s) : a.KeepsOut (execBootNetworkFetchDone s) := by
  unfold execBootNetworkFetchDone
  dsimp only
  split
  · split
    · exact h.upd.next
    · split
      exacts [.ite h.upd.setLnk.bootImage.next h.upd.next, .ite h.upd.setLnk.bootImage.next h.upd.next]
  · exact h.next

theorem execDhcpv6Timeout_keeps (h : a.Keeps s) : a.KeepsOut (execDhcpv6Timeout s) := by
  unfold execDhcpv6Timeout
  dsimp only
  split
  exacts [.ite h.upd.next h.upd.next, h.next]

theorem State.Keeps.setPhase (h : a.Keeps s) {x n} : a.Keeps (s.setPhase x n) := h.upd
theorem State.Keeps.say (h : a.Keeps s) {x msg bs} : a.Keeps (s.say x msg bs) := h.emitOut
theorem State.Keeps.spdmAt (h : a.Keeps s) {x n f} (hf : ∀ s, a.Keeps s → a.Keeps (f s)) : a.KeepsOut (s.spdmAt x n f) :=
  .ite h.next (.ite h.say.next ((hf _ h).next))

theorem execGetVersion_keeps (h : a.Keeps s) : a.KeepsOut (execGetVersion s) := by
  unfold execGetVersion
  split
  exacts [h.upd.spdmAt fun _ h => h.setPhase.say, h.next]

theorem execGetCapabilities_keeps (h : a.Keeps s) : a.KeepsOut (execGetCapabilities s) := by
  unfold execGetCapabilities
  split
  exacts [h.upd.spdmAt fun _ h => h.setPhase.say, h.next]

theorem execNegotiateAlgorithms_keeps (h : a.Keeps s) : a.KeepsOut (execNegotiateAlgorithms s) := by
  unfold execNegotiateAlgorithms
  split
  exacts [h.upd.spdmAt fun _ h => .say (.ite h.setPhase h), h.next]

theorem execGetDigests_keeps (h : a.Keeps s) : a.KeepsOut (execGetDigests s) := by
  unfold execGetDigests
  split
  exacts [h.upd.spdmAt fun _ h => h.say, h.next]

theorem execGetCertificate_keeps (h : a.Keeps s) : a.KeepsOut (execGetCertificate s) := by
  unfold execGetCertificate
  split
  exacts [h.upd.spdmAt fun _ h => h.say, h.next]

theorem execChallenge_keeps (h : a.Keeps s) : a.KeepsOut (execChallenge s) := by
  unfold execChallenge
  split
  exacts [h.upd.spdmAt fun _ h => h.say, h.next]

theorem execGetMeasurements_keeps (h : a.Keeps s) : a.KeepsOut (execGetMeasurements s) := by
  unfold execGetMeasurements
  split
  · refine h.upd.spdmAt fun _ h1 => ?_
    split
    exacts [h1.say, h1.say]
  · exact h.next

theorem execKeyExchange_keeps (h : a.Keeps s) : a.KeepsOut (execKeyExchange s) := by
  unfold execKeyExchange
  dsimp only
  split
  exacts [h.upd.spdmAt fun _ h => .ite h.say h.upd.say, h.next]

theorem execFinish_keeps (h : a.Keeps s) : a.KeepsOut (execFinish s) := by
  unfold execFinish
  dsimp only
  split
  exacts [h.upd.spdmAt fun _ h => .ite h.upd.say h.say, h.next]

theorem execEndSession_keeps (h : a.Keeps s) : a.KeepsOut (execEndSession s) := by
  unfold execEndSession
  dsimp only
  split
  exacts [h.upd.spdmAt fun _ h => .ite h.upd.say h.say, h.next]

theorem State.Keeps.bar2Put (h : a.Keeps s) {data pois x x1} : a.Keeps (s.bar2Put data pois x x1) := by
  induction x generalizing s x1 with
  | nil => exact h
  | cons y r ih =>
    unfold State.bar2Put
    refine ih ?_
    split
    · exact h.writeAt
    · exact h

theorem State.Keeps.bar2Get (h : a.Keeps s) {l} : a.Keeps (s.bar2Get l).2.2 := by
  induction l generalizing s with
  | nil => exact h
  | cons y r ih =>
    unfold State.bar2Get
    dsimp only
    refine ih ?_
    split
    exacts [h.readAt (k := .global), h.free]

theorem execBar2Write_keeps (h : a.Keeps s) : a.KeepsOut (execBar2Write s) := by
  unfold execBar2Write
  dsimp only
  split
  exacts [.ite h.upd.next (.ite h.upd.emitOut.next (.ite h.upd.next (.next (.bar2Put (.ite h.upd.emitOut h.upd))))), h.next]

theorem execBar2Read_keeps (h : a.Keeps s) : a.KeepsOut (execBar2Read s) := by
  unfold execBar2Read
  dsimp only
  split
  exacts [.ite h.upd.next (.ite h.upd.emitOut.next (.ite h.upd.next h.upd.bar2Get.emitOut.next)), h.next]

theorem State.Keeps.revoke (h : a.Keeps s) {k sig} : a.Keeps (s.revoke k sig) := .ite h.upd h

theorem execPcieLinkTrained_keeps (h : a.Keeps s) : a.KeepsOut (execPcieLinkTrained s) := by
  unfold execPcieLinkTrained
  dsimp only
  split
  exacts [.ite h.upd.next h.upd.next, h.next]

theorem State.Keeps.later (h : a.Keeps s) {e} : a.Keeps (s.later e) := h.setQue

theorem execNotifyWrite_keeps (h : a.Keeps s) : a.KeepsOut (execNotifyWrite s) := by
  unfold execNotifyWrite
  dsimp only
  split
  · split
    · exact h.upd.next
    · split
      · exact h.upd.later.next
      · refine .next (.notify ?_)
        split
        exacts [h.upd.use, h.upd]
  · exact h.next

theorem State.Keeps.mapQueue (h : a.Keeps s) {q k} : a.Keeps (s.mapQueue q k) := by
  unfold State.mapQueue
  dsimp only
  split
  exacts [h.desc, h.desc.desc.desc.desc.desc.setDesc.setQue.setSlot]

theorem State.Keeps.freeSlot (h : a.Keeps s) {k} : a.Keeps (s.freeSlot k) :=
  .ite h (.setSlot (.dropFetches (.ite h.setDesc.setDesc.setDesc.setQue h.setDesc.setDesc.setDesc)))
theorem State.Keeps.unmapSlot (h : a.Keeps s) {k} : a.Keeps (s.unmapSlot k) := .ite h.setSlot h.freeSlot

theorem execQueueMap_keeps (h : a.Keeps s) : a.KeepsOut (execQueueMap s) := by
  unfold execQueueMap
  dsimp only
  split
  exacts [.ite h.upd.next (.ite h.upd.later.next h.upd.mapQueue.next), h.next]

theorem execQueueUnmap_keeps (h : a.Keeps s) : a.KeepsOut (execQueueUnmap s) := by
  unfold execQueueUnmap
  dsimp only
  split
  exacts [.ite h.upd.later.next h.upd.unmapSlot.next, h.next]

theorem State.Keeps.ringEntry (h : a.Keeps s) {k w ring i} : a.Keeps (s.ringEntry k w ring i).2 := by
  unfold State.ringEntry
  dsimp only
  split
  exacts [h.readVa, h.hostRead]

theorem State.Keeps.ringEntries (h : a.Keeps s) {k w ring i x} : a.Keeps (s.ringEntries k w ring i x).2 := by
  induction x generalizing s i with
  | zero => exact h
  | succ n ih =>
    unfold State.ringEntries
    split
    next e =>
      have he := h.ringEntry.snd e
      split
      next e1 => exact (ih he).snd e1
      · exact ih he
    · exact h.ringEntry

theorem State.Keeps.noop (h : a.Keeps s) {asid l} : a.Keeps (s.noop asid l) := .ite h h.addVa

theorem State.Keeps.fetchHead (h : a.Keeps s) {k bad} : a.Keeps (s.fetchHead k bad) := by
  unfold State.fetchHead
  dsimp only
  split
  · exact h.desc.dropFetches
  · split
    · exact h.desc.desc.queueErr
    · split
      next e => exact h.desc.desc.ringEntry.snd e
      next e =>
        have he := h.desc.desc.ringEntry.snd e
        split
        · exact .ite he (he.dropFetches.setSlot.setDesc.noop)
        · split
          · exact h.desc.desc.ringEntry.snd e
          · split
            · exact he.dropFetches.queueErr
            · split
              next e2 => exact he.ringEntries.snd e2
              next e2 => exact (he.ringEntries.snd e2).dropFetches.setSlot
              next e2 => exact (he.ringEntries.snd e2).dropFetches.queueErr
      next e => exact (h.desc.desc.ringEntry.snd e).dropFetches.queueErr

theorem State.Keeps.fetchSlot (h : a.Keeps s) {k bad} : a.Keeps (s.fetchSlot k bad) := .ite h (.ite h.fetchHead.freeSlot h.fetchHead)

theorem execSlotFetch_keeps (h : a.Keeps s) : a.KeepsOut (execSlotFetch s) := by
  unfold execSlotFetch
  split
  exacts [h.upd.fetchSlot.next, h.next]

theorem State.Keeps.rackEntry (h : a.Keeps s) {i bs} : a.Keeps (s.rackEntry i bs) := .ite h.setQue.report h.setQue
theorem State.Keeps.rackWrite (h : a.Keeps s) {off data} : a.Keeps (s.rackWrite off data) :=
  .ite h.rackEntry (.ite h.rackEntry.rackEntry h.badRing)

theorem execRackRingWrite_keeps (h : a.Keeps s) : a.KeepsOut (execRackRingWrite s) := by
  unfold execRackRingWrite
  dsimp only
  split
  exacts [.ite h.upd.next (.ite h.upd.emitOut.next h.upd.rackWrite.emitOut.next), h.next]

theorem execRackEthernetLaunch_keeps (h : a.Keeps s) : a.KeepsOut (execRackEthernetLaunch s) := by
  unfold execRackEthernetLaunch
  dsimp only
  split
  exacts [.ite h.upd.next (.ite h.upd.setQue.setQue.next h.upd.setQue.choose.report.next), h.next]

theorem State.Keeps.rackDrop (h : a.Keeps s) {eth l} : a.Keeps (s.rackDrop eth l) := .ite h.setQue h.consumeRack

theorem execRackLaunchConsume_keeps (h : a.Keeps s) : a.KeepsOut (execRackLaunchConsume s) := by
  unfold execRackLaunchConsume
  split
  · extract_lets s1
    have hs : a.Keeps s1 := h.upd
    refine .ite hs.next ?_
    split
    · exact hs.next
    refine .ite (.ite hs.rackDrop.noop.next hs.next) ?_
    split
    exacts [hs.rackDrop.report.next, hs.setQue.next]
  · exact h.next

theorem execThermSample_keeps (h : a.Keeps s) : a.KeepsOut (execThermSample s) := by
  unfold execThermSample
  dsimp only
  split
  exacts [.ite h.upd.next h.upd.next, h.next]

theorem execBankThermalRetire_keeps (h : a.Keeps s) : a.KeepsOut (execBankThermalRetire s) := by
  unfold execBankThermalRetire
  dsimp only
  split
  exacts [.ite h.upd.next (.ite h.upd.next h.upd.setMem.next), h.next]

theorem execThermSensFailedClear_keeps (h : a.Keeps s) : a.KeepsOut (execThermSensFailedClear s) := by
  unfold execThermSensFailedClear
  dsimp only
  split
  exacts [.ite h.upd.next h.upd.next, h.next]

theorem State.Keeps.setThermLim (h : a.Keeps s) {v} : a.Keeps (s.setThermLim v) := h.upd

theorem execThermLimWrite_keeps (h : a.Keeps s) : a.KeepsOut (execThermLimWrite s) := by
  unfold execThermLimWrite
  split
  exacts [h.upd.setThermLim.next, h.next]

theorem execPowerSample_keeps (h : a.Keeps s) : a.KeepsOut (execPowerSample s) := by
  unfold execPowerSample
  dsimp only
  split
  exacts [.ite h.upd.next h.upd.choose.upd.next, h.next]

theorem State.Keeps.thermStep (h : a.Keeps s) : a.Keeps s.thermStep := .ite h.upd (.ite h.upd h)

theorem execPowerPeriod_keeps (h : a.Keeps s) : a.KeepsOut (execPowerPeriod s) := by
  unfold execPowerPeriod
  dsimp only
  split
  exacts [.ite h.upd.next h.upd.thermStep.upd.next, h.next]

theorem execPowerOverDeadline_keeps (h : a.Keeps s) : a.KeepsOut (execPowerOverDeadline s) := by
  unfold execPowerOverDeadline
  dsimp only
  split
  · split
    exacts [.ite h.upd.next h.upd.next, h.upd.next]
  · exact h.next

theorem execPwrCapWrite_keeps (h : a.Keeps s) : a.KeepsOut (execPwrCapWrite s) := by
  unfold execPwrCapWrite
  dsimp only
  split
  · split
    · exact h.upd.next
    · split
      exacts [h.upd.next, .ite h.upd.next h.upd.next, h.upd.next]
  · exact h.next

theorem execPwrWinWrite_keeps (h : a.Keeps s) : a.KeepsOut (execPwrWinWrite s) := by
  unfold execPwrWinWrite
  dsimp only
  split
  exacts [.ite h.upd.next h.upd.next, h.next]

theorem State.Keeps.setPort (h : a.Keeps s) {p x} : a.Keeps (s.setPort p x) := h.setLnk

theorem execLaneSparing_keeps (h : a.Keeps s) : a.KeepsOut (execLaneSparing s) := by
  unfold execLaneSparing
  dsimp only
  split
  · split
    exacts [.ite h.upd.setPort.next h.upd.next, h.upd.next]
  · exact h.next

theorem State.Keeps.cutReq (h : a.Keeps s) {q} : a.Keeps (s.cutReq q) := by
  unfold State.cutReq
  split
  · exact h.answerFetch
  · split
    · split
      · exact h.failCopy
      · split
        exacts [h.endCopy, h]
    · split
      · exact h.isolated
      · split
        exacts [h.dropWatch.joinWork.reply, h]

theorem State.Keeps.cutReqs (h : a.Keeps s) {port obj p} : a.Keeps (s.cutReqs port obj p) := h.setLnk.foldl fun _ _ h => h.cutReq
theorem State.Keeps.breakRounds (h : a.Keeps s) {n} : a.Keeps (s.breakRounds n) := h.setEng
theorem State.Keeps.isolatePeer (h : a.Keeps s) {n} : a.Keeps (s.isolatePeer n) := .ite h h.breakRounds.setLnk.cutReqs
theorem State.Keeps.noticeDone (h : a.Keeps s) {n} : a.Keeps (s.noticeDone n) := .ite h.isolatePeer.emitOut h
theorem State.Keeps.isolatePort (h : a.Keeps s) {p state} : a.Keeps (s.isolatePort p state) :=
  .ite h (h.setPort.setLnk.cutReqs.foldl fun _ _ h => h.noticeDone)
theorem State.Keeps.laneError (h : a.Keeps s) {p w} : a.Keeps (s.laneError p w) := .ite h.setPort.isolatePort h.setPort

theorem execLaneErrorEvent_keeps (h : a.Keeps s) : a.KeepsOut (execLaneErrorEvent s) := by
  unfold execLaneErrorEvent
  dsimp only
  split
  exacts [.ite h.upd.laneError.next h.upd.next, h.next]

theorem execPortDown_keeps (h : a.Keeps s) : a.KeepsOut (execPortDown s) := by
  unfold execPortDown
  dsimp only
  split
  exacts [.ite h.upd.isolatePort.next h.upd.next, h.next]

theorem execPortLinkUp_keeps (h : a.Keeps s) : a.KeepsOut (execPortLinkUp s) := by
  unfold execPortLinkUp
  dsimp only
  split
  exacts [.ite h.upd.setPort.next h.upd.next, h.next]

theorem State.Keeps.accessDone (h : a.Keeps s) {x q data pois} : a.Keeps (s.accessDone x q data pois) := by
  unfold State.accessDone
  extract_lets k mask x1 x2 x3 s1 s2 s3
  have hsnap : a.Keeps s1 := by
    dsimp only [s1]
    split
    exacts [h.snapEarlier, h]
  have hdone : a.Keeps s2 := hsnap.setDone.freeLatch.freeWaiter
  have hperf : a.Keeps s3 := hdone.notePerformed
  exact .ite (.ite hperf.wake hperf) hdone

theorem State.Keeps.watchDone (h : a.Keeps s) {w data pois} : a.Keeps (s.watchDone w data pois) := h.sawWord
theorem State.Keeps.copyDone (h : a.Keeps s) {c q data marks} : a.Keeps (s.copyDone c q data marks) := .ite h.setCopy (.ite h.endCopy h)

theorem State.Keeps.remoteDone (h : a.Keeps s) {id data marks} : a.Keeps (s.remoteDone id data marks) := by
  unfold State.remoteDone
  dsimp only
  split
  · exact h
  · split
    · exact h.setLnk.answerFetch.sendIrq
    · split
      · exact h.setLnk.copyDone
      · split
        · exact h.setLnk.accessDone
        · split
          exacts [h.setLnk.watchDone, h.setLnk]

theorem execRemoteCompletionReceived_keeps (h : a.Keeps s) : a.KeepsOut (execRemoteCompletionReceived s) := by
  unfold execRemoteCompletionReceived
  dsimp only
  split
  · split
    exacts [h.upd.remoteDone.noticeDone.next, h.upd.next]
  · exact h.next

theorem State.Keeps.sendWaiting (h : a.Keeps s) {q} : a.Keeps (s.sendWaiting q) := .ite h.cutReqs.noticeDone (.ite h h.setLnk.emitOut)

theorem execRemoteRequestWaitEnd_keeps (h : a.Keeps s) : a.KeepsOut (execRemoteRequestWaitEnd s) := by
  unfold execRemoteRequestWaitEnd
  dsimp only
  split
  · split
    exacts [h.upd.sendWaiting.next, h.upd.next]
  · exact h.next

theorem execRequestTimeout_keeps (h : a.Keeps s) : a.KeepsOut (execRequestTimeout s) := by
  unfold execRequestTimeout
  dsimp only
  split
  · split
    exacts [.ite h.upd.isolatePeer.next h.upd.next, h.upd.next]
  · exact h.next

theorem execErrorCompletionReceived_keeps (h : a.Keeps s) : a.KeepsOut (execErrorCompletionReceived s) := by
  unfold execErrorCompletionReceived
  dsimp only
  split
  · split
    exacts [h.upd.isolatePeer.next, h.upd.next]
  · exact h.next

theorem execDrainNoticeReceived_keeps (h : a.Keeps s) : a.KeepsOut (execDrainNoticeReceived s) := by
  unfold execDrainNoticeReceived
  dsimp only
  split
  exacts [.ite h.upd.next h.upd.setLnk.noticeDone.next, h.next]

theorem execLateCompletion_keeps (h : a.Keeps s) : a.KeepsOut (execLateCompletion s) := by
  unfold execLateCompletion
  dsimp only
  split
  exacts [.ite h.upd.setLnk.next h.upd.next, h.next]

theorem execInboundFromIsolatedPeer_keeps (h : a.Keeps s) : a.KeepsOut (execInboundFromIsolatedPeer s) := by
  unfold execInboundFromIsolatedPeer
  dsimp only
  split
  exacts [.ite h.upd.emitOut.next h.upd.next, h.next]

theorem State.Keeps.writeMarked (h : a.Keeps s) {x bs marks} : a.Keeps (s.writeMarked x bs marks) := h.foldl fun _ _ h => h.writeAt

theorem State.Keeps.inbound (h : a.Keeps s) {n r} : a.Keeps (s.inbound n r) := by
  unfold State.inbound
  dsimp only
  split
  · split
    exacts [h.emitOut, h.free.emitOut]
  · split
    · exact (h.readAt (k := .global)).emitOut
    · exact h.writeMarked.emitOut
    · refine .emitOut ?_
      split
      exacts [(h.readAt (k := .global)).writeAt, h.readAt (k := .global)]

theorem execInboundRequest_keeps (h : a.Keeps s) : a.KeepsOut (execInboundRequest s) := by
  unfold execInboundRequest
  dsimp only
  split
  exacts [.ite h.upd.next h.upd.inbound.next, h.next]

theorem execIsolatePeer_keeps (h : a.Keeps s) : a.KeepsOut (execIsolatePeer s) := by
  unfold execIsolatePeer
  dsimp only
  split
  exacts [.ite h.upd.isolatePeer.next h.upd.next, h.next]

theorem execIsolatePort_keeps (h : a.Keeps s) : a.KeepsOut (execIsolatePort s) := by
  unfold execIsolatePort
  dsimp only
  split
  exacts [.ite h.upd.isolatePort.next h.upd.next, h.next]

theorem execReturnPeer_keeps (h : a.Keeps s) : a.KeepsOut (execReturnPeer s) := by
  unfold execReturnPeer
  dsimp only
  split
  exacts [.ite h.upd.setLnk.next h.upd.next, h.next]

theorem execReturnPort_keeps (h : a.Keeps s) : a.KeepsOut (execReturnPort s) := by
  unfold execReturnPort
  dsimp only
  split
  exacts [.ite h.upd.setLnk.setPort.next h.upd.next, h.next]

theorem State.Keeps.setPeermap (h : a.Keeps s) {k v} : a.Keeps (s.setPeermap k v) := (h.foldl fun _ _ h => h.isolatePeer).setLnk

theorem execLkPeermapWrite_keeps (h : a.Keeps s) : a.KeepsOut (execLkPeermapWrite s) := by
  unfold execLkPeermapWrite
  dsimp only
  split
  exacts [.ite h.upd.setPeermap.next h.upd.next, h.next]

theorem State.Keeps.setSelf (h : a.Keeps s) {v} : a.Keeps (s.setSelf v) := .ite h.setLnk h

theorem execLkCfgWrite_keeps (h : a.Keeps s) : a.KeepsOut (execLkCfgWrite s) := by
  unfold execLkCfgWrite
  dsimp only
  split
  exacts [.ite h.upd.next h.upd.setSelf.next, h.next]

theorem execDroplogFree_keeps (h : a.Keeps s) : a.KeepsOut (execDroplogFree s) := by
  unfold execDroplogFree
  dsimp only
  split
  exacts [.ite h.upd.setLnk.next h.upd.next, h.next]

theorem State.Keeps.startDrain (h : a.Keeps s) : a.Keeps s.startDrain := .ite h.setLnk.setSch h

theorem execLkDrainStart_keeps (h : a.Keeps s) : a.KeepsOut (execLkDrainStart s) := by
  unfold execLkDrainStart
  dsimp only
  split
  exacts [.ite h.upd.next h.upd.startDrain.next, h.next]

theorem execDrainQuiesceEnd_keeps (h : a.Keeps s) : a.KeepsOut (execDrainQuiesceEnd s) := by
  unfold execDrainQuiesceEnd
  dsimp only
  split
  exacts [.ite ((h.upd.setLnk.foldl fun _ _ h1 => h1.foldl fun _ _ h => h.emitOut).next) h.upd.next, h.next]

theorem execDrainNotifyEnd_keeps (h : a.Keeps s) : a.KeepsOut (execDrainNotifyEnd s) := by
  unfold execDrainNotifyEnd
  dsimp only
  split
  exacts [.ite (((h.upd.setLnk.foldl fun _ _ h => h.isolatePeer).foldl fun _ _ h => h.isolatePort).next) h.upd.next, h.next]

theorem execDrainSafe_keeps (h : a.Keeps s) : a.KeepsOut (execDrainSafe s) := by
  unfold execDrainSafe
  dsimp only
  split
  exacts [.ite h.upd.setLnk.next h.upd.next, h.next]

theorem State.Keeps.setPfc (h : a.Keeps s) {p classes} : a.Keeps (s.setPfc p classes) := .ite h.setLnk h

theorem execEthernetPortFailover_keeps (h : a.Keeps s) : a.KeepsOut (execEthernetPortFailover s) := by
  unfold execEthernetPortFailover
  dsimp only
  split
  exacts [.ite h.upd.setLnk.next h.upd.next, h.next]

theorem State.Keeps.takeCommands (h : a.Keeps s) {x} : a.Keeps (s.takeCommands x) := by
  induction x generalizing s with
  | zero => exact h
  | succ n ih =>
    unfold State.takeCommands
    dsimp only
    exact ih h.hostRead.setQue

theorem execAdminDoorbell_keeps (h : a.Keeps s) : a.KeepsOut (execAdminDoorbell s) := by
  unfold execAdminDoorbell
  dsimp only
  split
  exacts [.ite h.upd.next (.next (.ite h.upd.setQue.takeCommands h.upd.setQue)), h.next]

theorem execAdminRingSet_keeps (h : a.Keeps s) : a.KeepsOut (execAdminRingSet s) := by
  unfold execAdminRingSet
  dsimp only
  split
  · split
    · exact h.upd.next
    · refine .next ?_
      split
      exacts [.ite h.upd.setQue.takeCommands h.upd.setQue, .ite h.upd.setQue.takeCommands h.upd.setQue]
  · exact h.next

theorem execAdminCompletion_keeps (h : a.Keeps s) : a.KeepsOut (execAdminCompletion s) := by
  unfold execAdminCompletion
  dsimp only
  split
  · split
    exacts [h.upd.next, h.upd.hostWrite.setQue.emitOut.next]
  · exact h.next

theorem State.Keeps.finishCmd (h : a.Keeps s) {via op status result} : a.Keeps (s.finishCmd via op status result) := by
  unfold State.finishCmd
  dsimp only
  split
  exacts [h.setQue, h.emitOut]

theorem execAdminUnknownOpcode_keeps (h : a.Keeps s) : a.KeepsOut (execAdminUnknownOpcode s) := by
  unfold execAdminUnknownOpcode
  dsimp only
  split
  exacts [.ite h.upd.finishCmd.next h.upd.next, h.next]

theorem State.Keeps.createQueue (h : a.Keeps s) {via d} : a.Keeps (s.createQueue via d) := by
  unfold State.createQueue
  dsimp only
  split
  · exact h.finishCmd
  · split
    exacts [h.finishCmd, .ite h h.choose.writeAt.setQue.finishCmd]

theorem execQueueCreate_keeps (h : a.Keeps s) : a.KeepsOut (execQueueCreate s) := by
  unfold execQueueCreate
  dsimp only
  split
  exacts [.ite h.upd.createQueue.next h.upd.next, h.next]

theorem State.Keeps.stopQueue (h : a.Keeps s) {q} : a.Keeps (s.stopQueue q) := by
  unfold State.stopQueue
  dsimp only
  split
  exacts [h.desc.setDesc.freeSlot, h.desc.setDesc]

theorem State.Keeps.destroyQueue (h : a.Keeps s) {via q} : a.Keeps (s.destroyQueue via q) := by
  unfold State.destroyQueue
  dsimp only
  split
  · exact h.finishCmd
  · split
    · exact h
    · split
      exacts [.ite h h.setQue.finishCmd, .ite h.stopQueue.setQue h.stopQueue.setQue.setQue.finishCmd]

theorem execQueueDestroy_keeps (h : a.Keeps s) : a.KeepsOut (execQueueDestroy s) := by
  unfold execQueueDestroy
  dsimp only
  split
  exacts [.ite h.upd.destroyQueue.next h.upd.next, h.next]

theorem State.Keeps.resetQueue (h : a.Keeps s) {via q rd} : a.Keeps (s.resetQueue via q rd) := by
  unfold State.resetQueue
  dsimp only
  split
  · exact h.finishCmd
  · split
    · exact h
    · refine .finishCmd ?_
      split
      exacts [h.setDesc.setDesc.setSlot, h.setDesc.setDesc]

theorem execQueueReset_keeps (h : a.Keeps s) : a.KeepsOut (execQueueReset s) := by
  unfold execQueueReset
  dsimp only
  split
  exacts [.ite h.upd.resetQueue.next h.upd.next, h.next]

theorem State.Keeps.resync (h : a.Keeps s) {via dest first} : a.Keeps (s.resync via dest first) := by
  unfold State.resync
  dsimp only
  refine .finishCmd ?_
  split
  exacts [h.setQue.hostWrite, h.setQue.emitOut]

theorem execResync_keeps (h : a.Keeps s) : a.KeepsOut (execResync s) := by
  unfold execResync
  dsimp only
  split
  exacts [.ite h.upd.resync.next h.upd.next, h.next]

theorem execTrayDrain_keeps (h : a.Keeps s) : a.KeepsOut (execTrayDrain s) := by
  unfold execTrayDrain
  dsimp only
  split
  exacts [.ite h.upd.next (.ite h.upd.startDrain.finishCmd.next h.upd.startDrain.next), h.next]

theorem State.Keeps.planeImage (h : a.Keeps s) {space x len} : a.Keeps (s.planeImage space x len).2 := by
  unfold State.planeImage
  split
  · exact h.hostRead
  · split
    exacts [h.readAt (k := .global), h]

theorem State.Keeps.installPlane (h : a.Keeps s) {via n space x len room} : a.Keeps (s.installPlane via n space x len room) := by
  unfold State.installPlane
  dsimp only
  split
  · exact h.finishCmd
  · split
    · exact h.finishCmd
    · split
      · exact h
      · split
        next e => exact (h.planeImage.snd e).finishCmd
        next e => exact .ite ((h.planeImage.snd e).finishCmd) (.ite ((h.planeImage.snd e).finishCmd) ((h.planeImage.snd
            e).setQue.finishCmd))

theorem execPlaneInstall_keeps (h : a.Keeps s) : a.KeepsOut (execPlaneInstall s) := by
  unfold execPlaneInstall
  dsimp only
  split
  exacts [.ite h.upd.installPlane.next h.upd.next, h.next]

theorem State.Keeps.removePlaneCmd (h : a.Keeps s) {via n} : a.Keeps (s.removePlaneCmd via n) :=
  .ite h.finishCmd (.ite h.finishCmd h.setQue.finishCmd)

theorem execPlaneRemove_keeps (h : a.Keeps s) : a.KeepsOut (execPlaneRemove s) := by
  unfold execPlaneRemove
  dsimp only
  split
  exacts [.ite h.upd.removePlaneCmd.next h.upd.next, h.next]

end Sys2Proof.Machine
end

