-- ==== Sys2Proof/Proofs/FrameStep.lean ====
section
-- Some hundred short proofs: checked as tasks of their own, all at once, they outgrow the memory that check.sh allows.
set_option Elab.async false
/-! PROOFS. What keeps the canonical form and the order: the arithmetic and steering nodes, elements and probes, address spaces,
and at last `exec` and `step`. -/
namespace Sys2Proof.Machine
variable {a s t : State}

theorem State.Keeps.fireInt (h : a.Keeps s) {opc r g} : a.KeepsOut (s.fireInt opc r g) := h.fireLanes
theorem State.Keeps.fireDivInt (h : a.Keeps s) {opc r g} : a.KeepsOut (s.fireDivInt opc r g) := h.fire fun _ _ _ _ _ h => h.divider.fireVal
theorem execAdd_keeps (h : a.Keeps s) {r} : a.KeepsOut (execAdd r s) := h.fireInt
theorem execSub_keeps (h : a.Keeps s) {r} : a.KeepsOut (execSub r s) := h.fireInt
theorem execMul_keeps (h : a.Keeps s) {r} : a.KeepsOut (execMul r s) := h.fireInt
theorem execMulh_keeps (h : a.Keeps s) {r} : a.KeepsOut (execMulh r s) := h.fireInt
theorem execMad_keeps (h : a.Keeps s) {r} : a.KeepsOut (execMad r s) := h.fireInt
theorem execDiv_keeps (h : a.Keeps s) {r} : a.KeepsOut (execDiv r s) := h.fireDivInt
theorem execRem_keeps (h : a.Keeps s) {r} : a.KeepsOut (execRem r s) := h.fireDivInt
theorem execNeg_keeps (h : a.Keeps s) {r} : a.KeepsOut (execNeg r s) := h.fireInt
theorem execAbs_keeps (h : a.Keeps s) {r} : a.KeepsOut (execAbs r s) := h.fireInt
theorem execMin_keeps (h : a.Keeps s) {r} : a.KeepsOut (execMin r s) := h.fireInt
theorem execMax_keeps (h : a.Keeps s) {r} : a.KeepsOut (execMax r s) := h.fireInt
theorem execAdds_keeps (h : a.Keeps s) {r} : a.KeepsOut (execAdds r s) := h.fireInt
theorem execSubs_keeps (h : a.Keeps s) {r} : a.KeepsOut (execSubs r s) := h.fireInt
theorem State.Keeps.fireCmp (h : a.Keeps s) {opc r x} : a.KeepsOut (s.fireCmp opc r x) := h.fireInt
theorem execCmpeq_keeps (h : a.Keeps s) {r} : a.KeepsOut (execCmpeq r s) := h.fireCmp
theorem execCmpne_keeps (h : a.Keeps s) {r} : a.KeepsOut (execCmpne r s) := h.fireCmp
theorem execCmplt_keeps (h : a.Keeps s) {r} : a.KeepsOut (execCmplt r s) := h.fireCmp
theorem execCmple_keeps (h : a.Keeps s) {r} : a.KeepsOut (execCmple r s) := h.fireCmp
theorem execCmpltn_keeps (h : a.Keeps s) {r} : a.KeepsOut (execCmpltn r s) := h.fireCmp
theorem execCmplen_keeps (h : a.Keeps s) {r} : a.KeepsOut (execCmplen r s) := h.fireCmp
theorem State.Keeps.fireFcmp (h : a.Keeps s) {opc r x} : a.KeepsOut (s.fireFcmp opc r x) := h.fireRound
theorem execFcmpeq_keeps (h : a.Keeps s) {r} : a.KeepsOut (execFcmpeq r s) := h.fireFcmp
theorem execFcmpne_keeps (h : a.Keeps s) {r} : a.KeepsOut (execFcmpne r s) := h.fireFcmp
theorem execFcmplt_keeps (h : a.Keeps s) {r} : a.KeepsOut (execFcmplt r s) := h.fireFcmp
theorem execFcmple_keeps (h : a.Keeps s) {r} : a.KeepsOut (execFcmple r s) := h.fireFcmp
theorem execFcmpun_keeps (h : a.Keeps s) {r} : a.KeepsOut (execFcmpun r s) := h.fireFcmp
theorem execPand_keeps (h : a.Keeps s) {r} : a.KeepsOut (execPand r s) := h.fireLanes
theorem execPor_keeps (h : a.Keeps s) {r} : a.KeepsOut (execPor r s) := h.fireLanes
theorem execPnot_keeps (h : a.Keeps s) {r} : a.KeepsOut (execPnot r s) := h.fireLanes
theorem State.Keeps.fireReduce (h : a.Keeps s) {opc r all} : a.KeepsOut (s.fireReduce opc r all) := h.fire fun _ _ _ _ _ h => h.fireVal
theorem execPany_keeps (h : a.Keeps s) {r} : a.KeepsOut (execPany r s) := h.fireReduce
theorem execPall_keeps (h : a.Keeps s) {r} : a.KeepsOut (execPall r s) := h.fireReduce
theorem State.Keeps.setElemErr (h : a.Keeps s) {e x} : a.Keeps (s.setElemErr e x) := h.setFab
theorem State.Keeps.countPoison (h : a.Keeps s) {n} : a.Keeps (s.countPoison n) := h.setErr
theorem State.Keeps.elemLost (h : a.Keeps s) {e tid} : a.Keeps (s.elemLost e tid) := h.setTsk
theorem State.Keeps.takeOut (h : a.Keeps s) {e} : a.Keeps (s.takeOut e) := h.setElemErr.setErr.foldl fun _ _ h => h.elemLost
theorem State.Keeps.judge (h : a.Keeps s) {e} : a.Keeps (s.judge e) := .ite h.takeOut h
theorem State.Keeps.updNodeHist (h : a.Keeps s) {e aid node f} : a.Keeps (s.updNodeHist e aid node f) := h.setNodeSt.setFab

theorem State.Keeps.poisonEntry (h : a.Keeps s) {e aid node port index} : a.Keeps (s.poisonEntry e aid node port index) := by
  unfold State.poisonEntry
  dsimp only
  split
  exacts [h, h.updNodeHist.setCtx.countPoison]

theorem State.Keeps.poisonHold (h : a.Keeps s) {e aid node port} : a.Keeps (s.poisonHold e aid node port) :=
  .ite h h.updNodeHist.countPoison

theorem State.Keeps.poisonKept (h : a.Keeps s) {e aid k} : a.Keeps (s.poisonKept e aid k) := by
  unfold State.poisonKept
  dsimp only
  split
  · exact h
  · split
    exacts [h, h.setAct.countPoison]

theorem State.Keeps.poisonFrame (h : a.Keeps s) {e aid line} : a.Keeps (s.poisonFrame e aid line) := by
  unfold State.poisonFrame
  split
  · exact h.raiseAt
  · refine h.foldl fun _ _ h1 => ?_
    split
    exacts [h1.poisonEntry, h1.poisonHold, h1.poisonKept]

theorem State.Keeps.poisonFifo (h : a.Keeps s) {e c k} : a.Keeps (s.poisonFifo e c k) := by
  unfold State.poisonFifo
  dsimp only
  split
  · exact h
  · split
    · split
      exacts [h, h.setFab.countPoison]
    · split
      · split
        · exact h
        · split
          exacts [h, h.setEng.countPoison]
      · split
        exacts [h, h.setEng.countPoison]

theorem State.Keeps.poisonLine (h : a.Keeps s) {e line} : a.Keeps (s.poisonLine e line) := by
  unfold State.poisonLine
  split
  · split
    exacts [h.poisonFrame, h]
  · split
    exacts [.countPoison (s := s.setMem _) (h.setMem (.areas (hbankPois := (foldl_keeps (fun t => Tab.wf false t = true) _ (fun _ _ ht =>
        Tab.wf_put _ _ _ ht) _ _)))), (h.choose (n := 1024)).poisonFifo, h]

theorem State.Keeps.poisonArray (h : a.Keeps s) {e c} : a.Keeps (s.poisonArray e c) := by
  unfold State.poisonArray
  dsimp only
  split
  · exact h
  · split
    · exact h
    · split
      exacts [h, h.choose.setArr]

theorem State.Keeps.poisonArrayPart (h : a.Keeps s) {e c what} : a.Keeps (s.poisonArrayPart e c what) := by
  unfold State.poisonArrayPart
  dsimp only
  split
  exacts [h, .ite h.setArr (.ite h h.setArr)]

theorem State.Keeps.redropElem (h : a.Keeps s) {e c} : a.Keeps (s.redropElem e c) := by
  unfold State.redropElem
  dsimp only
  split
  · exact h
  · split
    · exact h
    · split
      exacts [(h.setStore (writeCells_wf _ _ _)).applyArgs, h]

theorem State.Keeps.needReplay (h : a.Keeps s) {e} : a.Keeps (s.needReplay e) := h.setElemErr

theorem State.Keeps.elemEvent (h : a.Keeps s) {e what} : a.Keeps (s.elemEvent e what) := by
  unfold State.elemEvent
  dsimp only
  split
  exacts [h.countElem, h.countElem.needReplay, .ite h.countElem.needReplay h.countElem.needReplay.poisonEntry, h.countElem.raiseAt,
      h.countElem.redropElem.needReplay, h.countElem.poisonLine, h.countElem.poisonArray]

theorem State.Keeps.spareEvent (h : a.Keeps s) {bed} : a.Keeps (s.spareEvent bed) := .ite h.setFab.setFab h.setFab

theorem execElementErrorEvent_keeps (h : a.Keeps s) : a.KeepsOut (execElementErrorEvent s) := by
  unfold execElementErrorEvent
  dsimp only
  split
  exacts [.ite h.upd.elemEvent.judge.next (.ite h.upd.spareEvent.next h.upd.next), h.next]

theorem State.Keeps.backGens (h : a.Keeps s) {e} : a.Keeps (s.backGens e) := by
  unfold State.backGens
  dsimp only
  refine h.foldl fun _ _ h1 => ?_
  split
  exacts [h1.setCtx, h1]

theorem State.Keeps.rollBack (h : a.Keeps s) {e} : a.Keeps (s.rollBack e) :=
  (h.foldl fun _ _ h => h.setNodeSt).backGens.foldl fun _ _ h => h.setCtx

theorem State.Keeps.reaccept (h : a.Keeps s) {e} : a.Keeps (s.reaccept e) := by
  refine State.Keeps.setFab (h.foldl fun s _ h => ?_)
  dsimp only
  split
  exacts [.ite (h.setFab.matchTok.getD h) h.taps, h]

theorem execElementReplay_keeps (h : a.Keeps s) : a.KeepsOut (execElementReplay s) := by
  unfold execElementReplay
  dsimp only
  split
  exacts [.ite h.upd.next h.upd.setElemErr.setErr.rollBack.reaccept.next, h.next]

theorem State.Keeps.poisonLost (h : a.Keeps s) {e k} : a.Keeps (s.poisonLost e k) := .ite h.poisonLine h.poisonArrayPart

theorem execElementSparing_keeps (h : a.Keeps s) : a.KeepsOut (execElementSparing s) := by
  unfold execElementSparing
  dsimp only
  split
  exacts [.ite h.upd.next (.ite h.upd.takeOut.next ((h.upd.setFab.setElemErr.setErr.foldl fun _ _ h => h.poisonLost).next)), h.next]

theorem State.Keeps.fireMove (h : a.Keeps s) {opc r g} : a.KeepsOut (s.fireMove opc r g) := h.fire fun _ _ _ _ _ h => h.fireVal
theorem execVshuf_keeps (h : a.Keeps s) {r} : a.KeepsOut (execVshuf r s) := h.fireMove
theorem execVbcast_keeps (h : a.Keeps s) {r} : a.KeepsOut (execVbcast r s) := h.fireMove
theorem execVext_keeps (h : a.Keeps s) {r} : a.KeepsOut (execVext r s) := h.fire fun _ _ _ _ _ h => h.fireVal
theorem execVins_keeps (h : a.Keeps s) {r} : a.KeepsOut (execVins r s) := h.fireMove
theorem execVpack_keeps (h : a.Keeps s) {r} : a.KeepsOut (execVpack r s) := h.fireMove
theorem execVunpk_keeps (h : a.Keeps s) {r} : a.KeepsOut (execVunpk r s) := h.fireMove
theorem execVslide_keeps (h : a.Keeps s) {r} : a.KeepsOut (execVslide r s) := h.fireMove
theorem execVrotl_keeps (h : a.Keeps s) {r} : a.KeepsOut (execVrotl r s) := h.fireMove
theorem State.Keeps.fireTree (h : a.Keeps s) {opc r g} : a.KeepsOut (s.fireTree opc r g) := h.fire fun _ _ _ _ _ h => h.fireVal
theorem execVredadd_keeps (h : a.Keeps s) {r} : a.KeepsOut (execVredadd r s) := h.fireTree
theorem execVredmax_keeps (h : a.Keeps s) {r} : a.KeepsOut (execVredmax r s) := h.fireTree
theorem execVredmin_keeps (h : a.Keeps s) {r} : a.KeepsOut (execVredmin r s) := h.fireTree
theorem execVscan_keeps (h : a.Keeps s) {r} : a.KeepsOut (execVscan r s) := h.fire fun _ _ _ _ _ h => h.fireVal

theorem State.Keeps.orPoison (h : a.Keeps s) {i xs body} (hbody : ∀ s, a.Keeps s → a.Keeps (body s)) : a.Keeps (s.orPoison i xs body) := by
  unfold State.orPoison
  split
  exacts [h.raise, hbody _ h]

theorem execMov_keeps (h : a.Keeps s) {r} : a.KeepsOut (execMov r s) := h.fire fun _ _ _ _ _ h => h.fireVal
theorem execSteer_keeps (h : a.Keeps s) {r} : a.KeepsOut (execSteer r s) :=
  h.fireOwn fun _ _ h1 => .ite h1.fireNull (h1.orPoison fun _ h => h.setFlags.emit)
theorem execMerge_keeps (h : a.Keeps s) {r} : a.KeepsOut (execMerge r s) := h.fireOwn fun _ _ h => h.setFlags.emit
theorem execGate_keeps (h : a.Keeps s) {r} : a.KeepsOut (execGate r s) := h.fire fun _ _ _ _ _ h => h.fireVal
theorem execSink_keeps (h : a.Keeps s) {x} : a.KeepsOut (execSink x s) := h.upd.next
theorem execNullify_keeps (h : a.Keeps s) {r} : a.KeepsOut (execNullify r s) := h.fireOwn fun _ _ h1 => h1.orPoison fun _ h => h.fireNull
theorem execLite_keeps (h : a.Keeps s) {r} : a.KeepsOut (execLite r s) := h.fire fun _ _ _ _ _ h => h.fireVal
theorem execSel_keeps (h : a.Keeps s) {r} : a.KeepsOut (execSel r s) := h.fireLanes
theorem execIsnull_keeps (h : a.Keeps s) {r} : a.KeepsOut (execIsnull r s) := h.fireOwn fun _ _ h1 => h1.orPoison fun _ h => h.fireVal

theorem execVote3_keeps (h : a.Keeps s) {r} : a.KeepsOut (execVote3 r s) := by
  unfold execVote3
  split
  exacts [h.next, h.upd.emit.next]

theorem State.Keeps.fireInterval (h : a.Keeps s) {opc r g} : a.KeepsOut (s.fireInterval opc r g) :=
  h.fireOwn fun _ _ h1 => h1.orPoison fun _ h => h.emit
theorem execIshift_keeps (h : a.Keeps s) {r} : a.KeepsOut (execIshift r s) := h.fireInterval
theorem execIclip_keeps (h : a.Keeps s) {r} : a.KeepsOut (execIclip r s) := h.fireInterval
theorem execIwiden_keeps (h : a.Keeps s) {r} : a.KeepsOut (execIwiden r s) := h.fireInterval
theorem execIsplit_keeps (h : a.Keeps s) {r} : a.KeepsOut (execIsplit r s) := h.fireOwn fun _ _ h1 => h1.orPoison fun _ h => h.emit
theorem execIlo_keeps (h : a.Keeps s) {r} : a.KeepsOut (execIlo r s) := h.fire fun _ _ _ _ _ h => h.fireVal
theorem execIhi_keeps (h : a.Keeps s) {r} : a.KeepsOut (execIhi r s) := h.fire fun _ _ _ _ _ h => h.fireVal
theorem execIstamp_keeps (h : a.Keeps s) {r} : a.KeepsOut (execIstamp r s) :=
  h.fireOwn fun _ _ h1 => .ite h1.fireNull (h1.orPoison fun _ h => h.setFlags.emit)
theorem execIfront_keeps (h : a.Keeps s) {r} : a.KeepsOut (execIfront r s) := h.fireOwn fun _ _ h1 => h1.orPoison fun _ h => h.emit
theorem execAnd_keeps (h : a.Keeps s) {r} : a.KeepsOut (execAnd r s) := h.fireInt
theorem execOr_keeps (h : a.Keeps s) {r} : a.KeepsOut (execOr r s) := h.fireInt
theorem execXor_keeps (h : a.Keeps s) {r} : a.KeepsOut (execXor r s) := h.fireInt
theorem execAndn_keeps (h : a.Keeps s) {r} : a.KeepsOut (execAndn r s) := h.fireInt
theorem execNot_keeps (h : a.Keeps s) {r} : a.KeepsOut (execNot r s) := h.fireInt
theorem execShl_keeps (h : a.Keeps s) {r} : a.KeepsOut (execShl r s) := h.fireInt
theorem execShr_keeps (h : a.Keeps s) {r} : a.KeepsOut (execShr r s) := h.fireInt
theorem execSar_keeps (h : a.Keeps s) {r} : a.KeepsOut (execSar r s) := h.fireInt
theorem execRotl_keeps (h : a.Keeps s) {r} : a.KeepsOut (execRotl r s) := h.fireInt
theorem execClz_keeps (h : a.Keeps s) {r} : a.KeepsOut (execClz r s) := h.fireInt
theorem execCtz_keeps (h : a.Keeps s) {r} : a.KeepsOut (execCtz r s) := h.fireInt
theorem execPopc_keeps (h : a.Keeps s) {r} : a.KeepsOut (execPopc r s) := h.fireInt
theorem execBrev_keeps (h : a.Keeps s) {r} : a.KeepsOut (execBrev r s) := h.fireInt
theorem execBfx_keeps (h : a.Keeps s) {r} : a.KeepsOut (execBfx r s) := h.fire fun _ _ _ _ _ h => h.fireVal
theorem execBfi_keeps (h : a.Keeps s) {r} : a.KeepsOut (execBfi r s) := h.fire fun _ _ _ _ _ h => h.fireVal

theorem State.Keeps.performHeld (h : a.Keeps s) {x} : a.Keeps (State.performHeld x s) := by
  unfold State.performHeld
  split
  exacts [h.performSyswr, h.performTapset, h.performXcopy, h.performNmred, h.performRow, h.performRow, h.performRow, h.performRow,
      h.performQput, h.performQput, h.performArgw, h.performMwload, h.performMmac, h.performMdrain, h.performMacc, h.performMrel,
      h.performMchk, h.performFctb, h.performFcts, h.performFctn, h.performFctsv, h.performFcte, h.performRedput, h.performColl,
      h.performSbind, h.performLaunch, h.performCollw, .ite h.startHeldMem h]

theorem State.Keeps.performId (h : a.Keeps s) {id parts} : a.Keeps (s.performId id parts) := by
  unfold State.performId
  split
  · exact h.perform
  · split
    exacts [.ite h.performHeld h, h]

theorem execStorePerform_keeps (h : a.Keeps s) : a.KeepsOut (execStorePerform s) := by
  unfold execStorePerform
  split
  exacts [h.upd.performId.next, h.next]

theorem State.Keeps.hostStore (h : a.Keeps s) {bus bs pois} : a.Keeps (s.hostStore bus bs pois) :=
  h.setMem (.areas (hhost := writeCells_wf _ _ _))
theorem State.Keeps.placeWord (h : a.Keeps s) {w} : a.Keeps (s.placeWord w) :=
  (h.setStore (writeCells_wf _ _ _)).setTsk.setQue.upd
theorem State.Keeps.sendProbes (h : a.Keeps s) {origin u path edges} : a.Keeps (s.sendProbes origin u path edges) := h.setErr
theorem State.Keeps.noteBlocked (h : a.Keeps s) : a.Keeps s.noteBlocked := h.setErr

theorem execProbeSend_keeps (h : a.Keeps s) : a.KeepsOut (execProbeSend s) := by
  unfold execProbeSend
  dsimp only
  split
  · split
    exacts [h.upd.next, .ite h.upd.next h.upd.setErr.sendProbes.next]
  · exact h.next

theorem State.Keeps.deadlock (h : a.Keeps s) {b path} : a.Keeps (s.deadlock b path) := by
  unfold State.deadlock
  dsimp only
  split
  exacts [h.setErr.raiseAt, h.setErr.setTsk]

theorem State.Keeps.probeArrives (h : a.Keeps s) {p} : a.Keeps (s.probeArrives p) := by
  unfold State.probeArrives
  split
  exacts [h, .ite (.ite h h.deadlock) (.ite h h.sendProbes)]

theorem execProbeArrive_keeps (h : a.Keeps s) : a.KeepsOut (execProbeArrive s) := by
  unfold execProbeArrive
  dsimp only
  split
  · split
    exacts [h.upd.next, .ite h.upd.next h.upd.setErr.probeArrives.next]
  · exact h.next

theorem State.Keeps.entry (h : a.Keeps s) {x} : a.Keeps (s.entry x).2 := h.readAt (k := .global) (n := 8)
theorem State.Keeps.setEntry (h : a.Keeps s) {x x1} : a.Keeps (s.setEntry x x1) := h.writeAt

theorem State.Keeps.reachLeaf {asid va leaf i ts n} : ∀ {s table lvl tables}, a.Keeps s →
    s.reachLeaf asid va table lvl leaf tables n = some (i, ts, t) → a.Keeps t := by
  induction n with
  | zero => exact fun _ e => nomatch e
  | succ n ih =>
    intro s table lvl tables h e
    have he := h.entry (x := table + 8 * walkIndex va lvl)
    unfold State.reachLeaf at e
    dsimp only at e
    split at e
    · split at e
      · split at e
        · cases e; exact he
        · cases e
      · cases e
      · split at e
        · cases e
        · cases e; exact he
    · split at e
      · cases e
      · exact ih he e
      · split at e
        · cases e
        · split at e
          · cases e
          · split at e
            · cases e
            · generalize List.replicate _ _ = zeros at e
              exact ih (he.setQue.writeAt.setEntry) e

theorem State.Keeps.mapPages (h : a.Keeps s) {m leaf va tables l} : a.KeepsOpt (s.mapPages m leaf va tables l) := by
  induction l generalizing s va tables with
  | nil => exact h.just
  | cons y r ih =>
    unfold State.mapPages
    split
    · exact .none
    next e => exact ih (State.Keeps.reachLeaf h e).setEntry

theorem State.Keeps.grant (h : a.Keeps s) {m} : a.Keeps (s.grant m) := h.foldl fun _ _ h => h.setQue.writeAt
theorem State.Keeps.invRange (h : a.Keeps s) {asid va n} : a.Keeps (s.invRange asid va n) := h.invalidate
theorem State.Keeps.endInval (h : a.Keeps s) {v} : a.Keeps (s.endInval v) := .ite h h.setQue.finishCmd
theorem State.Keeps.startInval (h : a.Keeps s) {via op pages} : a.Keeps (s.startInval via op pages) := h.setQue.endInval

theorem State.Keeps.mapCmd (h : a.Keeps s) {via m} : a.Keeps (s.mapCmd via m) := by
  have hg : a.Keeps (if m.alloc then s.grant m else s) := by
    split
    exacts [h.grant, h]
  unfold State.mapCmd
  split
  · exact h.endInval
  split
  · exact h
  split
  · exact h.finishCmd
  split
  · exact h
  split
  · exact h.finishCmd
  split
  · exact h
  dsimp only
  split
  · exact h.finishCmd
  next e => exact (hg.mapPages.get e).invRange.startInval

theorem execMap_keeps (h : a.Keeps s) : a.KeepsOut (execMap s) := by
  unfold execMap
  dsimp only
  split
  exacts [.ite h.upd.mapCmd.next h.upd.next, h.next]

theorem State.Keeps.unmapCmd (h : a.Keeps s) {via asid va psize count} : a.Keeps (s.unmapCmd via asid va psize count) := by
  unfold State.unmapCmd
  dsimp only
  split
  · exact h.endInval
  · split
    · exact h
    · split
      · exact h.finishCmd
      · split
        · exact h.finishCmd
        · split
          exacts [h.finishCmd, (h.foldl fun _ _ h => h.setEntry).invRange.startInval]

theorem execUnmap_keeps (h : a.Keeps s) : a.KeepsOut (execUnmap s) := by
  unfold execUnmap
  dsimp only
  split
  exacts [.ite h.upd.unmapCmd.next h.upd.next, h.next]

theorem State.Keeps.createAsid (h : a.Keeps s) {via root} : a.Keeps (s.createAsid via root) := by
  unfold State.createAsid
  generalize List.replicate 65536 _ = zeros
  split
  exacts [h.finishCmd, .ite h (State.Keeps.finishCmd (State.Keeps.setMem (State.Keeps.writeAt (State.Keeps.setQue h.upd))))]

theorem execAsidCreate_keeps (h : a.Keeps s) : a.KeepsOut (execAsidCreate s) := by
  unfold execAsidCreate
  dsimp only
  split
  exacts [.ite h.upd.createAsid.next h.upd.next, h.next]

theorem State.Keeps.destroyAsid (h : a.Keeps s) {via x} : a.Keeps (s.destroyAsid via x) :=
  .ite h.finishCmd (.ite h h.setQue.invalidate.setMem.finishCmd)

theorem execAsidDestroy_keeps (h : a.Keeps s) : a.KeepsOut (execAsidDestroy s) := by
  unfold execAsidDestroy
  dsimp only
  split
  exacts [.ite h.upd.destroyAsid.next h.upd.next, h.next]

theorem State.Keeps.setGroup (h : a.Keeps s) {via g size scope asid members valid} : a.Keeps (s.setGroup via g size scope asid members
    valid) :=
  .ite h.finishCmd (.ite h.finishCmd h.setEng.finishCmd)

theorem execCollGroup_keeps (h : a.Keeps s) : a.KeepsOut (execCollGroup s) := by
  unfold execCollGroup
  dsimp only
  split
  exacts [.ite h.upd.setGroup.next h.upd.next, h.next]

theorem State.Keeps.setRegWrite (h : a.Keeps s) {off v} : a.KeepsOpt (s.setRegWrite off v) :=
  .ite h.writeReg.just (.ite h.setThermLim.just (.ite h.setSelf.just (.ite h.setPeermap.just (.ite h.setMem.just .none))))

theorem execSetReg_keeps (h : a.Keeps s) : a.KeepsOut (execSetReg s) := by
  unfold execSetReg
  dsimp only
  split
  · split
    · exact h.upd.next
    · split
      next e1 => exact (h.upd.setRegWrite.get e1).finishCmd.next
      · exact h.upd.finishCmd.next
  · exact h.next

theorem exec_keeps (h : a.Keeps s) {i} : a.KeepsOut (exec i s) := by
  unfold exec
  split
  exacts [execMov_keeps h, execSteer_keeps h, execMerge_keeps h, execGate_keeps h, execSink_keeps h, execNullify_keeps h, execLite_keeps h,
      execSel_keeps h, execIsnull_keeps h, execVote3_keeps h, execIshift_keeps h, execIclip_keeps h, execIwiden_keeps h, execIsplit_keeps
      h, execIlo_keeps h, execIhi_keeps h, execIstamp_keeps h, execIfront_keeps h, execAdd_keeps h, execSub_keeps h, execMul_keeps h,
      execMulh_keeps h, execMad_keeps h, execDiv_keeps h, execRem_keeps h, execNeg_keeps h, execAbs_keeps h, execMin_keeps h, execMax_keeps
      h, execAdds_keeps h, execSubs_keeps h, execAnd_keeps h, execOr_keeps h, execXor_keeps h, execAndn_keeps h, execNot_keeps h,
      execShl_keeps h, execShr_keeps h, execSar_keeps h, execRotl_keeps h, execClz_keeps h, execCtz_keeps h, execPopc_keeps h,
      execBfx_keeps h, execBfi_keeps h, execBrev_keeps h, execCmpeq_keeps h, execCmpne_keeps h, execCmplt_keeps h, execCmple_keeps h,
      execCmpltn_keeps h, execCmplen_keeps h, execFcmpeq_keeps h, execFcmpne_keeps h, execFcmplt_keeps h, execFcmple_keeps h,
      execFcmpun_keeps h, execPand_keeps h, execPor_keeps h, execPnot_keeps h, execPany_keeps h, execPall_keeps h, execFadd_keeps h,
      execFsub_keeps h, execFmul_keeps h, execFma_keeps h, execFms_keeps h, execFnma_keeps h, execFmin_keeps h, execFmax_keeps h,
      execFabs_keeps h, execFneg_keeps h, execFsgn_keeps h, execFclass_keeps h, execFrnd_keeps h, execFrcp_keeps h, execFrsq_keeps h,
      execFsqrt_keeps h, execFdiv_keeps h, execFexp2_keeps h, execFlog2_keeps h, execFtanh_keeps h, execCvt_keeps h, execCvti_keeps h,
      execCvtf_keeps h, execQamax_keeps h, execQscale_keeps h, execQpack_keeps h, execQunpack_keeps h, execSrseed_keeps h, execVshuf_keeps
      h, execVbcast_keeps h, execVext_keeps h, execVins_keeps h, execVredadd_keeps h, execVredmax_keeps h, execVredmin_keeps h,
      execVpack_keeps h, execVunpk_keeps h, execVscan_keeps h, execVslide_keeps h, execVrotl_keeps h, execLd_keeps h, execSt_keeps h,
      execLdv_keeps h, execStv_keeps h, execLdb_keeps h, execStb_keeps h, execPref_keeps h, execAmoadd_keeps h, execAmofadd_keeps h,
      execAmomin_keeps h, execAmomax_keeps h, execAmoand_keeps h, execAmoor_keeps h, execAmoxor_keeps h, execAmoswp_keeps h,
      execAmocas_keeps h, execJoinf_keeps h, execWaita_keeps h, execWakea_keeps h, execBr_keeps h, execBri_keeps h, execCall_keeps h,
      execRet_keeps h, execRdc_keeps h, execWrc_keeps h, execSpawn_keeps h, execExit_keeps h, execJoin_keeps h, execLeave_keeps h,
      execGbar_keeps h, execYield_keeps h, execLaunch_keeps h, execEst_keeps h, execSbind_keeps h, execSrel_keeps h, execSpos_keeps h,
      execXcopy_keeps h, execNmred_keeps h, execRowact_keeps h, execRowcon_keeps h, execRowput_keeps h, execRowpre_keeps h, execQput_keeps
      h, execQputNb_keeps h, execArgw_keeps h, execMwload_keeps h, execMmac_keeps h, execMdrain_keeps h, execMacc_keeps h, execMchk_keeps
      h, execMrel_keeps h, execFctb_keeps h, execFcts_keeps h, execFctn_keeps h, execFctr_keeps h, execFctsv_keeps h, execFcte_keeps h,
      execRedput_keeps h, execRedwait_keeps h, execColl_keeps h, execCollw_keeps h, execSysrd_keeps h, execSyswr_keeps h, execTrap_keeps h,
      execEret_keeps h, execBkpt_keeps h, execTime_keeps h, execTapset_keeps h, execHalt_keeps h, execPackageReset_keeps h,
      execBootPushGo_keeps h, execBootSourceTimeout_keeps h, execBootNetworkFetchDone_keeps h, execDhcpv6Timeout_keeps h,
      execGetVersion_keeps h, execGetCapabilities_keeps h, execNegotiateAlgorithms_keeps h, execGetDigests_keeps h,
      execGetCertificate_keeps h, execChallenge_keeps h, execGetMeasurements_keeps h, execKeyExchange_keeps h, execFinish_keeps h,
      execEndSession_keeps h, execBar0UnsupportedAccess_keeps h, execBar2Write_keeps h, execBar2Read_keeps h, execPcieLinkTrained_keeps h,
      execRegisterWrite_keeps h, execNotifyWrite_keeps h, execQueueMap_keeps h, execQueueUnmap_keeps h, execSlotFetch_keeps h,
      execRackRingWrite_keeps h, execRackEthernetLaunch_keeps h, execRackLaunchConsume_keeps h, execDispatchTick_keeps h,
      execSemaphoreRead_keeps h, execPlacerPass_keeps h, execDrainTimeout_keeps h, execQuantumExpiry_keeps h, execMarkerArrive_keeps h,
      execMarkerLatchInject_keeps h, execCheckpointSave_keeps h, execTaskRetire_keeps h, execPlaneDrop_keeps h, execTokenAccept_keeps h,
      execRouterHop_keeps h, execActivationStart_keeps h, execActivationCommit_keeps h, execTrapTake_keeps h, execLodgeTrapService_keeps h,
      execProbeSend_keeps h, execProbeArrive_keeps h, execYieldExpiry_keeps h, execElementErrorEvent_keeps h, execElementReplay_keeps h,
      execElementSparing_keeps h, execThermSample_keeps h, execBankThermalRetire_keeps h, execThermSensFailedClear_keeps h,
      execThermLimWrite_keeps h, execPowerSample_keeps h, execPowerPeriod_keeps h, execPowerOverDeadline_keeps h, execPwrCapWrite_keeps h,
      execPwrWinWrite_keeps h, execLaneErrorEvent_keeps h, execLaneSparing_keeps h, execPortDown_keeps h, execPortLinkUp_keeps h,
      execRemoteRequestWaitEnd_keeps h, execRequestTimeout_keeps h, execErrorCompletionReceived_keeps h, execDrainNoticeReceived_keeps h,
      execLateCompletion_keeps h, execInboundFromIsolatedPeer_keeps h, execInboundRequest_keeps h, execIsolatePeer_keeps h,
      execIsolatePort_keeps h, execReturnPeer_keeps h, execReturnPort_keeps h, execLkPeermapWrite_keeps h, execLkCfgWrite_keeps h,
      execDroplogFree_keeps h, execLkDrainStart_keeps h, execDrainQuiesceEnd_keeps h, execDrainNotifyEnd_keeps h, execDrainSafe_keeps h,
      execEthernetPortFailover_keeps h, execAdminDoorbell_keeps h, execAdminRingSet_keeps h, execAdminCompletion_keeps h,
      execAdminUnknownOpcode_keeps h, execQueueCreate_keeps h, execQueueDestroy_keeps h, execQueueReset_keeps h, execResync_keeps h,
      execTrayDrain_keeps h, execPlaneInstall_keeps h, execPlaneRemove_keeps h, execAsidCreate_keeps h, execAsidDestroy_keeps h,
      execMap_keeps h, execUnmap_keeps h, execCollGroup_keeps h, execSetReg_keeps h, execPgRemapStart_keeps h, execPgRemapDone_keeps h,
      execGhWaypartWrite_keeps h, execGhDrainEnd_keeps h, execGhZeroEnd_keeps h, execGhLineFill_keeps h, execTrInvAll_keeps h,
      execTrInvAsid_keeps h, execTrInvPage_keeps h, execPageWalk_keeps h, execRowCommandEffect_keeps h, execRowOpenTimeout_keeps h,
      execRowRefresh_keeps h, execBusTesterBeat_keeps h, execVectorClockAnnounce_keeps h, execStorePerform_keeps h, execWaitaReread_keeps
      h, execWaitaTimeout_keeps h, execStreamGranuleReturn_keeps h, execStreamGranuleWrite_keeps h, execStreamBindingEnd_keeps h,
      execStreamFault_keeps h, execCopyGranule_keeps h, execCopyComplete_keeps h, execCopyFault_keeps h, execNearMemoryReduce_keeps h,
      execArrayRowTake_keeps h, execArrayDrainToken_keeps h, execWeightTokenLoad_keeps h, execFctColumnStep_keeps h,
      execReduceRoundCombine_keeps h, execReduceRootResult_keeps h, execReduceRoundAbandon_keeps h, execCollRoundComplete_keeps h,
      execCollRoundFail_keeps h, execCollRoundTimeout_keeps h, execArmRptClear_keeps h, execRemoteCompletionReceived_keeps h,
      execMemoryAccessComplete_keeps h, execRowCommandComplete_keeps h]

theorem State.Keeps.retake (h : a.Keeps s) : a.Keeps s.retake := h.upd.setQue
theorem State.Keeps.nextCycle (h : a.Keeps s) : a.Keeps s.nextCycle := h.leavesEnd.watchesEnd.argwEnd.noteBlocked.tick.drainTaps.retake

theorem State.Keeps.chooseCtx (h : a.Keeps s) {e c} (e : s.chooseCtx e = some (c, t)) : a.Keeps t := by
  unfold State.chooseCtx at e
  dsimp only at e
  split at e
  · cases e
  · split at e
    · cases e; exact h
    · obtain ⟨_, _, he⟩ := Option.map_eq_some_iff.1 e
      cases he
      exact h.newRound

theorem State.Keeps.issueSlot (h : a.Keeps s) {e c f} (e : s.issueSlot e = some (c, f, t)) : a.Keeps t := by
  unfold State.issueSlot at e
  split at e
  · cases e
  · split at e
    · cases e
    next e1 =>
      split at e
      · cases e
      · cases e
        exact (State.Keeps.chooseCtx h e1).takeFiring.use.setFab.upd

/-- The state in which an element's issue slot leaves the machine. -/
def Slotted.state? : Slotted → Option State
  | .idle s | .run _ s => some s
  | .bad _ => none

theorem State.Keeps.issueAt (h : a.Keeps s) {e} : a.KeepsOpt (s.issueAt e).state? := by
  unfold State.issueAt
  split
  · exact h.just
  next hs =>
    have ht := State.Keeps.issueSlot h hs
    split
    · exact .none
    · split
      · exact .none
      · split
        · exact ht.upd.just
        · split
          next hr => exact (ht.raiseStream.get hr).upd.just
          next => exact ht.just

theorem step_keeps (h : a.Keeps s) : a.KeepsOut (step s) := by
  unfold step
  split
  · exact h.nextCycle.next
  · exact h.upd.nextCycle.next
  next e rest _ =>
    have hi := State.Keeps.issueAt (s := { s with agenda := rest }) h.upd (e := e)
    split
    next he => exact (hi _ (by rw [he]; rfl)).next
    next he => exact exec_keeps (hi _ (by rw [he]; rfl))
    next => exact .fault
  · exact exec_keeps h.upd
  · exact h.upd.readReg.next
  · exact h.upd.hostStore.next
  · exact h.upd.emitOut.next
  · exact h.upd.setPfc.next
  · exact h.upd.revoke.next

theorem State.Keeps.withFetchWord (h : a.Keeps s) {nbits w} : a.Keeps (s.withFetchWord nbits w) := h.placeWord

end Sys2Proof.Machine
end

