-- ==== Sys2Proof/Proofs/Canonical.lean ====
section
/-! PROOFS. The canonical form of memory and the order of the Glasshouse under every step (R157, R432). -/
namespace Sys2Proof.Machine

/-- Settles O58: every operation of a step keeps the canonical form and the order, by its own lemma above. -/
theorem stepsKeepMemoryCanonical : Obligations.StepsKeepMemoryCanonical := by
  intro s t h
  have hk := step_keeps (.refl s) t h
  exact ⟨hk.memWf, hk.mem.coherent⟩

end Sys2Proof.Machine
end

