-- ==== Sys2Proof/Proofs/Reset.lean ====
section
/-! PROOFS. The values after reset (R4, R22, R25, R42, R63, R65, R94, R120, R142, R164, R204, R221). -/
namespace Sys2Proof.Machine

/-- The words that the fuses have a part in: BOOT_CFG, PG_CAP and PG_BANKMAP (R48, R160). -/
def fusedWord (o : Nat) : Bool := o == 0x1000 || o == 0x4E20 || decide (0x5000 ≤ o) && decide (o < 0x5800)

theorem State.resetOf_wordLow (f : Fuses) {o : Nat} (h : fusedWord o = false) : (State.resetOf f).wordLow o = State.reset.wordLow o := by
  obtain ⟨h0, h1, h2⟩ : o ≠ 0x1000 ∧ o ≠ 0x4E20 ∧ ¬ (0x5000 ≤ o ∧ o < 0x5800) := by
    simpa [fusedWord, and_assoc] using h
  unfold State.wordLow
  rw [if_neg h0, if_neg h0]
  dsimp only
  simp only [if_neg h1, if_neg h2]
  rfl

/-- Every other word is after reset what it is for blank fuses. -/
theorem State.resetOf_mgmtWord (f : Fuses) {o : Nat} (h : fusedWord o = false) :
    (State.resetOf f).mgmtWord o = State.reset.mgmtWord o := by
  unfold State.mgmtWord
  rw [State.resetOf_wordLow f h]
  rfl

/-- So a table of such words is read off the package with blank fuses. -/
theorem State.resetOf_words (f : Fuses) {l : List (Nat × Nat)}
    (h : (l.all fun x => !fusedWord x.1 && State.reset.mgmtWord x.1 == some x.2) = true) :
    ∀ x ∈ l, (State.resetOf f).mgmtWord x.1 = some x.2 := by
  intro x hx
  obtain ⟨hf, hw⟩ := Bool.and_eq_true_iff.1 (List.all_eq_true.1 h x hx)
  rw [State.resetOf_mgmtWord f (by simpa using hf), eq_of_beq hw]

/-- Whatever the fuses hold, the settings begin within their ranges. -/
theorem State.resetOf_within (f : Fuses) : (State.resetOf f).settings.Within where
  cap := by simp [State.settings, State.resetOf, Power.reset]
  win := by simp [State.settings, State.resetOf, Power.reset]
  step := Nat.zero_le _
  retire := by simp [State.settings, State.resetOf, Thermal.reset]
  self := Nat.zero_le _
  tmo := by simp [State.settings, State.resetOf, Links.reset]
  drain := Nat.zero_le _
  quantum := by simp [State.settings, State.resetOf, Sched.reset]
  delay := by simp [State.settings, State.resetOf, Errors.reset]
  window := by simp [State.settings, State.resetOf, Errors.reset]
  boot := Nat.zero_le _
  tap h := nomatch h

theorem State.resetOf_coherent (f : Fuses) : Spec.Coherent (State.resetOf f).mem := coherent_of_empty rfl ⟨rfl, rfl, rfl, rfl⟩

/-- Settles O57: no word listed depends on the fuses, and neither do the invariants. -/
theorem resetLeaves : Obligations.ResetLeaves := by
  rintro f _ rfl
  exact ⟨State.resetOf_words f (by decide +kernel), fun _ _ => ⟨rfl, rfl, rfl, rfl⟩, fun _ => ⟨rfl, rfl, rfl, rfl⟩, rfl, rfl, rfl, rfl, rfl,
    ⟨rfl, rfl, rfl, rfl, rfl⟩, rfl, State.resetOf_memWf f, State.resetOf_coherent f, State.resetOf_within f⟩

end Sys2Proof.Machine
end

