-- ==== Sys2Proof/Proofs/Boot.lean ====
section
/-! PROOFS. Package reset, the checks of a firmware image, and the fall-back between boot sources (R4, R41, R48, R49, R50). -/
namespace Sys2Proof.Machine

/-! ### The firmware image (R48, R49) -/

theorem allZero_imgBytes_iff (img : List Byte) (off n : Nat) :
    allZero (imgBytes img off n) = true ↔ ∀ j, off ≤ j ∧ j < off + n → img.getD j 0 = 0 := by
  simp only [allZero, imgBytes, List.all_eq_true, beq_iff_eq]
  constructor
  · intro h j ⟨h1, h2⟩
    by_cases hj : j < img.length
    · refine h _ (List.mem_iff_getElem.2 ⟨j - off, ?_, ?_⟩)
      · simp; omega
      · simp [List.getElem_drop, Nat.add_sub_cancel' h1, hj]
    · exact List.getD_eq_default _ _ (by omega)
  · intro h x hx
    obtain ⟨i, hi, rfl⟩ := List.mem_iff_getElem.1 hx
    simp only [List.length_take, List.length_drop] at hi
    have := h (off + i) ⟨by omega, by omega⟩
    rw [List.getD_eq_getElem _ _ (by omega)] at this
    simpa using this

theorem imgWellFormed_iff (img : List Byte) : imgWellFormed img = true ↔
    bytesAt img 0 4 = 0x4E444657 ∧ bytesAt img 4 2 = 1 ∧ bytesAt img 6 1 ≤ 3 ∧ bytesAt img 8 4 ≠ 0 ∧ bytesAt img 8 4 % 4096 = 0 ∧
      bytesAt img 8 4 ≤ 2 ^ 26 ∧ 0x1000 + bytesAt img 8 4 ≤ img.length ∧
      ∀ j, (0x14 ≤ j ∧ j < 0x20 ∨ 0xB8 ≤ j ∧ j < 0xC0 ∨ 0x80C ≤ j ∧ j < 0x1000) → img.getD j 0 = 0 := by
  unfold imgWellFormed imgPayload imgLe
  dsimp only
  simp only [Bool.and_eq_true, beq_iff_eq, bne_iff_ne, decide_eq_true_eq, allZero_imgBytes_iff]
  constructor
  · rintro ⟨⟨⟨⟨⟨⟨⟨⟨⟨h1, h2⟩, h3⟩, h4⟩, h5⟩, h6⟩, z1⟩, z2⟩, z3⟩, h7⟩
    refine ⟨h1, h2, by omega, h4, h5, by omega, h7, ?_⟩
    rintro j (h | h | h)
    exacts [z1 j (by omega), z2 j (by omega), z3 j (by omega)]
  · rintro ⟨h1, h2, h3, h4, h5, h6, h7, z⟩
    exact ⟨⟨⟨⟨⟨⟨⟨⟨⟨h1, h2⟩, by omega⟩, h4⟩, h5⟩, by omega⟩, fun j _ => z j (by omega)⟩, fun j _ => z j (by omega)⟩,
      fun j _ => z j (by omega)⟩, h7⟩

theorem Fuses.keysOk_iff (f : Fuses) (img : List Byte) : f.keysOk img = true ↔
    f.revoked.getLsbD (bytesAt img 6 1) = false ∧ Tab.find f.slotDigests (bytesAt img 6 1) =
      some (Config.sha384 ((img.drop 0x20).take 96), Config.sha384 ((img.drop 0x80).take 56)) := by
  unfold Fuses.keysOk imgLe
  dsimp only
  cases h : Tab.find f.slotDigests (bytesAt img 6 1) with
  | none => simp
  | some x =>
    obtain ⟨d, e⟩ := x
    simp only [imgBytes, Bool.and_eq_true, Bool.not_eq_true', beq_iff_eq, Option.some.injEq, Prod.mk.injEq, and_assoc]
    exact and_congr_right fun _ => and_congr eq_comm eq_comm

/-- The checks of R48 come one after the other, and the first that fails gives the code. -/
theorem Fuses.imageFails_iff (f : Fuses) (img : List Byte) {form ecdsa lms keys : Prop} (hform : imgWellFormed img = true ↔ form)
    (hecdsa : Config.ecdsaVerifies (imgBytes img 0x20 96) (Config.sha384 (imgMessage img)) (imgBytes img 0xC0 96) = true ↔ ecdsa)
    (hlms : Config.lmsVerifies (imgBytes img 0x80 56) (imgMessage img) (imgBytes img 0x120 1772) = true ↔ lms)
    (hkeys : f.keysOk img = true ↔ keys) :
    (f.imageFails img = none ↔ form ∧ ecdsa ∧ lms ∧ keys ∧ f.svn.toNat ≤ bytesAt img 7 1) ∧
    (f.imageFails img = some 5 ↔ ¬ form) ∧ (f.imageFails img = some 1 ↔ form ∧ ¬ ecdsa) ∧
    (f.imageFails img = some 2 ↔ form ∧ ecdsa ∧ ¬ lms) ∧ (f.imageFails img = some 3 ↔ form ∧ ecdsa ∧ lms ∧ ¬ keys) ∧
    (f.imageFails img = some 4 ↔ form ∧ ecdsa ∧ lms ∧ keys ∧ bytesAt img 7 1 < f.svn.toNat) := by
  rw [← hform, ← hecdsa, ← hlms, ← hkeys, ← Nat.not_lt]
  unfold Fuses.imageFails imgLe
  split
  next h => simp_all
  next h1 =>
    split
    next h => simp_all
    next h2 =>
      split
      next h => simp_all
      next h3 =>
        split
        next h => simp_all
        next h4 => split <;> simp_all

/-! ### The course of a boot (R41, R48, R49) -/

theorem exec_packageReset (s : State) : exec .packageReset s = execPackageReset s := rfl
theorem exec_bootPushGo (s : State) : exec .bootPushGo s = execBootPushGo s := rfl
theorem exec_bootSourceTimeout (s : State) : exec .bootSourceTimeout s = execBootSourceTimeout s := rfl
theorem exec_bootNetworkFetchDone (s : State) : exec .bootNetworkFetchDone s = execBootNetworkFetchDone s := rfl
theorem exec_dhcpv6Timeout (s : State) : exec .dhcpv6Timeout s = execDhcpv6Timeout s := rfl

theorem State.passed_iff (s : State) (t n : Nat) : s.passed t n = true ↔ t + n * 5544000 ≤ s.units := decide_eq_true_iff

theorem Boot.enter_of_trying {b : Boot} (h : b.state = 1) : b.enter = b := by
  unfold Boot.enter
  rw [if_neg (by rw [h]; decide)]

theorem State.bootFails_eq (s : State) (c : Nat) : s.bootFails c = { s with boot := Spec.bootFailed s.boot c s.units } := by
  unfold State.bootFails Spec.bootFailed
  rfl

theorem State.bootImage_eq (s : State) (img : List Byte) : s.bootImage img = match s.fuse.imageFails img with
    | some c => { s with boot := Spec.bootFailed s.boot c s.units }
    | none => { s with fresh := s.fresh + 1, boot := Spec.booted s.fuse s.boot img s.fresh } := by
  unfold State.bootImage
  cases s.fuse.imageFails img with
  | none => rfl
  | some c => exact s.bootFails_eq c

theorem State.bootImage_mem (s : State) (img : List Byte) : (s.bootImage img).mem = s.mem := by
  rw [State.bootImage_eq]
  cases s.fuse.imageFails img <;> rfl

theorem State.bootImage_boot (s : State) (img : List Byte) : (s.bootImage img).boot = match s.fuse.imageFails img with
    | some c => Spec.bootFailed s.boot c s.units
    | none => Spec.booted s.fuse s.boot img s.fresh := by
  rw [State.bootImage_eq]
  cases s.fuse.imageFails img <;> rfl

/-- The file of the management link is checked, whichever Ethernet port carries it. -/
theorem execBootNetworkFetchDone_eq {s : State} {p : Nat} {addr img : List Byte} (h1 : s.boot.state = 1) (ht : s.boot.trying = true)
    (hp : s.lnk.ethFor 0 = some p) (ha : addr.length = if s.boot.dhcpV4 then 4 else 16) :
    exec .bootNetworkFetchDone { s with inp := some (.bootNetworkFetchDone addr img) } = .next (match s.fuse.imageFails img with
      | some c => { s with inp := none, lnk := Spec.addressed s.lnk p addr, boot := Spec.bootFailed s.boot c s.units }
      | none => { s with inp := none, lnk := Spec.addressed s.lnk p addr, fresh := s.fresh + 1,
                         boot := Spec.booted s.fuse s.boot img s.fresh }) := by
  rw [exec_bootNetworkFetchDone, execBootNetworkFetchDone]
  simp only [Boot.enter_of_trying h1, hp]
  rw [if_pos ⟨h1, ht, ha⟩, State.bootImage_eq]
  rfl

/-- The image that the host pushes is what memory shows from BAR2 offset 0 on. -/
theorem execBootPushGo_spec {s : State} {len : W32} (h1 : s.boot.state = 1) (ht : s.boot.trying = false) (hm : Spec.Coherent s.mem)
    {bs : List Byte} (hbs : bs = (List.range (min len.toNat (0x1000 + 2 ^ 26))).map (Spec.byteAt s.mem)) :
    ∃ u : State, exec .bootPushGo { s with inp := some (.bootPushGo len) } = .next u ∧ Spec.SameBytes s.mem u.mem ∧
      u.boot = match s.fuse.imageFails bs with
        | some c => Spec.bootFailed { s.boot with pushLen := len } c s.units
        | none => Spec.booted s.fuse { s.boot with pushLen := len } bs s.fresh := by
  obtain ⟨hr, -, hs, -⟩ := Memory.read_spec hm 0 (min len.toNat (0x1000 + 64 * 2 ^ 20))
  have hread : (s.mem.read 0 (min len.toNat (0x1000 + 64 * 2 ^ 20))).1 = bs := by rw [hr, hbs]; simp
  rw [exec_bootPushGo, execBootPushGo]
  simp only [Boot.enter_of_trying h1]
  rw [if_neg (by rw [h1]; decide), if_neg (by simp [h1, ht])]
  refine ⟨_, rfl, ?_, ?_⟩
  · rw [State.bootImage_mem]
    exact hs
  · rw [State.bootImage_boot]
    simp only [State.readAt, hread]
    rfl

/-! ### The obligation -/

/-- Settles O51: the checks of an image are taken one by one, and the ways of a boot reduce to them. -/
theorem resetAndBoot : Obligations.ResetAndBoot := by
  refine ⟨fun s => ?_, ?_, fun s len bs h1 ht hm hbs => execBootPushGo_spec h1 ht hm hbs, ?_, ?_, ?_, ?_, ?_, ?_⟩
  · rw [exec_packageReset]
    exact ⟨_, rfl, rfl, rfl, rfl, rfl, rfl, rfl, rfl, rfl, rfl, rfl, rfl, rfl, rfl, rfl, rfl, rfl, rfl, rfl⟩
  · rintro f img p k rfl rfl form ecdsa lms keys rfl rfl rfl rfl
    exact f.imageFails_iff img (imgWellFormed_iff img) Iff.rfl Iff.rfl (f.keysOk_iff img)
  · rintro s p addr img h1 ht hp ha
    refine execBootNetworkFetchDone_eq h1 ht ?_ ha
    rcases hp with ⟨rfl, h⟩ | ⟨rfl, h, h'⟩ <;> simp [Links.ethFor, *]
  · intro s img h0 h1 hst addr
    rw [exec_bootNetworkFetchDone, execBootNetworkFetchDone]
    simp [Boot.enter_of_trying hst, Links.ethFor, h0, h1]
  · intro s linkUp start h1 hstart
    refine ⟨fun hle => ?_, fun hlt => ?_, fun ht hle => ?_⟩
    · rw [exec_bootSourceTimeout, execBootSourceTimeout]
      simp only [Boot.enter_of_trying h1]
      rw [if_pos ⟨h1, (s.passed_iff _ _).2 (hstart ▸ hle)⟩, State.bootFails_eq]
    · rw [exec_bootSourceTimeout, execBootSourceTimeout]
      simp only [Boot.enter_of_trying h1]
      rw [if_neg fun h => Nat.not_le.2 hlt (hstart ▸ (s.passed_iff _ _).1 h.2)]
    · rw [exec_dhcpv6Timeout, execDhcpv6Timeout]
      simp only [Boot.enter_of_trying h1]
      rw [if_pos ⟨h1, ht, (s.passed_iff _ _).2 hle⟩]
  · intro s c h
    simp [Spec.bootFailed, h]
  · intro s k sig
    exact congrArg Host.Outcome.next (by unfold State.revoke; rfl)
  · intro s h
    simp [State.tick, Boot.enter, h]

end Sys2Proof.Machine
end

