-- ==== Sys2Proof/Proofs/HostPort.lean ====
section
/-! PROOFS. Accesses through BAR2 (R44, R47, R187). -/
namespace Sys2Proof.Machine
open Sys2Proof.Spec (byteAt markAt Coherent SameBytes Stored)

/-! ### Pieces of 16 bytes -/

theorem cut16_within (k : Nat) : ∀ (a n : Nat), ∀ p ∈ cut16 a n k, a ≤ p.1 ∧ p.1 < a + n := by
  induction k with
  | zero => exact fun _ _ _ h => absurd h List.not_mem_nil
  | succ k ih =>
    intro a n p hp
    by_cases hn : n = 0
    · simp [cut16, hn] at hp
    · rw [cut16, if_neg hn] at hp
      rcases List.mem_cons.1 hp with rfl | hp
      · exact ⟨Nat.le_refl _, Nat.lt_add_of_pos_right (Nat.pos_of_ne_zero hn)⟩
      · have := ih _ _ p hp
        omega

theorem State.backed_of_liveMap {s t : State} (h : t.mem.liveMap = s.mem.liveMap) (a : Nat) : t.backed a = s.backed a := by
  unfold State.backed Memory.capacity Memory.nlive
  rw [h]

/-! ### Reads -/

theorem State.readAt_global_spec {s : State} (hm : Coherent s.mem) (a n : Nat) :
    (s.readAt .global a n).1 = (List.range n).map (fun j => byteAt s.mem (a + j)) ∧
    SameBytes s.mem (s.readAt .global a n).2.2.mem ∧ Coherent (s.readAt .global a n).2.2.mem ∧
    (s.readAt .global a n).2.2.mem.liveMap = s.mem.liveMap ∧ (s.readAt .global a n).2.2.out = s.out := by
  obtain ⟨h1, -, h2, h3⟩ := Memory.read_spec hm a n
  exact ⟨h1, h2, h3, by rw [show (s.readAt .global a n).2.2.mem = (s.mem.read a n).2.2 from rfl, s.mem.read_cache a n], rfl⟩

/-- Where memory answers, the pieces of a read make up its bytes. -/
theorem State.bar2Get_spec (k : Nat) : ∀ {s : State} (a n : Nat), Coherent s.mem → (n = 0 ∨ n + a % 16 ≤ 16 * k) →
    (∀ x, a ≤ x → x < a + n → s.backed x = true) →
    (s.bar2Get (cut16 a n k)).1 = (List.range n).map (fun j => byteAt s.mem (a + j)) ∧
    SameBytes s.mem (s.bar2Get (cut16 a n k)).2.2.mem ∧ (s.bar2Get (cut16 a n k)).2.2.out = s.out := by
  induction k with
  | zero =>
    intro s a n hm hn hb
    obtain rfl : n = 0 := by omega
    exact ⟨rfl, sameBytes_refl _, rfl⟩
  | succ k ih =>
    intro s a n hm hn hb
    by_cases h0 : n = 0
    · subst h0
      exact ⟨rfl, sameBytes_refl _, rfl⟩
    · generalize hc : min n (16 - a % 16) = c
      obtain ⟨h1, h2, h3, h4, h5⟩ := State.readAt_global_spec hm a c
      obtain ⟨g1, g2, g3⟩ := ih (a + c) (n - c) h3 (by omega) fun x hx hx' => by
        rw [State.backed_of_liveMap h4]
        exact hb x (by omega) (by omega)
      rw [cut16, if_neg h0]
      simp only [hc, State.bar2Get, if_pos (hb a (Nat.le_refl _) (by omega))]
      refine ⟨?_, sameBytes_trans h2 g2, g3.trans h5⟩
      rw [h1, g1]
      conv_rhs => rw [show n = c + (n - c) by omega, List.range_add, List.map_append, List.map_map]
      exact congrArg _ (List.map_congr_left fun i _ => by rw [h2.1, Nat.add_assoc]; rfl)

/-! ### Writes -/

theorem State.writeAt_global_spec {s : State} (hm : Coherent s.mem) (a : Nat) {bs : List Byte} (pois : Bool) (hbs : bs ≠ []) :
    (∀ x, byteAt (s.writeAt .global a bs pois).mem x = if a ≤ x ∧ x < a + bs.length then bs.getD (x - a) 0 else byteAt s.mem x) ∧
    (∀ k, markAt (s.writeAt .global a bs pois).mem k = markAfter (markAt s.mem k) a bs.length k pois) ∧
    Coherent (s.writeAt .global a bs pois).mem ∧ (s.writeAt .global a bs pois).mem.liveMap = s.mem.liveMap ∧
    (s.writeAt .global a bs pois).out = s.out := by
  obtain ⟨h1, h2, h3⟩ := Memory.write_spec hm a bs pois
  have hs : (s.mem.write a bs pois).SameLines (s.writeAt .global a bs pois).mem := ⟨rfl, rfl, rfl, rfl, rfl, rfl⟩
  refine ⟨fun x => by rw [hs.sameBytes.1, h1], fun k => by rw [hs.sameBytes.2, h2, if_neg hbs], hs.coherent h3, ?_, rfl⟩
  rw [hs.liveMap, s.mem.write_cache a bs pois]

/-- Where memory answers, the pieces of a write store its bytes, and the parts that it covers take its poison. -/
theorem State.bar2Put_spec (data : List Byte) (pois : Bool) (k : Nat) : ∀ {s : State} (a n i : Nat), Coherent s.mem →
    (n = 0 ∨ n + a % 16 ≤ 16 * k) → i + n ≤ data.length → (∀ x, a ≤ x → x < a + n → s.backed x = true) →
    (∀ x, byteAt (s.bar2Put data pois (cut16 a n k) i).mem x =
      if a ≤ x ∧ x < a + n then data.getD (i + (x - a)) 0 else byteAt s.mem x) ∧
    (∀ p, a ≤ 16 * p → 16 * p + 16 ≤ a + n → markAt (s.bar2Put data pois (cut16 a n k) i).mem p = pois) ∧
    (∀ p, 16 * p + 16 ≤ a → markAt (s.bar2Put data pois (cut16 a n k) i).mem p = markAt s.mem p) ∧
    (s.bar2Put data pois (cut16 a n k) i).out = s.out := by
  induction k with
  | zero =>
    intro s a n i hm hn hi hb
    obtain rfl : n = 0 := by omega
    exact ⟨fun x => by rw [if_neg (by omega)]; rfl, fun p h h' => by omega, fun p _ => rfl, rfl⟩
  | succ k ih =>
    intro s a n i hm hn hi hb
    by_cases h0 : n = 0
    · subst h0
      exact ⟨fun x => by rw [if_neg (by omega)]; rfl, fun p h h' => by omega, fun p _ => rfl, rfl⟩
    · generalize hc : min n (16 - a % 16) = c
      have hlen : ((data.drop i).take c).length = c := by simp; omega
      have hne : (data.drop i).take c ≠ [] := List.ne_nil_of_length_pos (by omega)
      obtain ⟨h1, h2, h3, h4, h5⟩ := State.writeAt_global_spec hm a pois hne
      rw [hlen] at h1 h2
      rw [cut16, if_neg h0]
      simp only [hc, State.bar2Put, if_pos (hb a (Nat.le_refl _) (by omega))]
      obtain ⟨g1, g2, g3, g4⟩ := ih (a + c) (n - c) (i + c) h3 (by omega) (by omega) fun x hx hx' => by
        rw [State.backed_of_liveMap h4]
        exact hb x (by omega) (by omega)
      refine ⟨fun x => ?_, fun p hp hp' => ?_, fun p hp => ?_, g4.trans h5⟩
      · rw [g1, h1]
        by_cases hx : a ≤ x ∧ x < a + c
        · have hd : ((data.drop i).take c).getD (x - a) 0 = data.getD (i + (x - a)) 0 := by
            simp only [List.getD_eq_getElem?_getD, List.getElem?_take, List.getElem?_drop]
            rw [if_pos (by omega)]
          rw [if_neg (by omega), if_pos hx, if_pos (by omega), hd]
        · by_cases hx' : a + c ≤ x ∧ x < a + c + (n - c)
          · rw [if_pos hx', if_pos (by omega)]
            congr 1
            omega
          · rw [if_neg hx', if_neg hx, if_neg (by omega)]
      · by_cases hlt : a + c ≤ 16 * p
        · exact g2 p hlt (by omega)
        · rw [g3 p (by omega), h2, markAfter, if_pos ⟨by omega, by omega, .inr ⟨by omega, by omega⟩⟩]
      · rw [g3 p (by omega), h2, markAfter, if_neg (by omega)]

end Sys2Proof.Machine
end

