-- ==== Sys2Proof/Proofs/Registers.lean ====
section
/-! PROOFS. Reads and writes of management registers: what each agent changes, and what reads clear (R4, R45, R46, R236, R259). -/
namespace Sys2Proof.Machine

/-! ### Halves of a word (R5, R45) -/

/-- The upper half of a word, in its place. -/
theorem and_upperMask (x : Nat) : x &&& 2 ^ 32 * (2 ^ 32 - 1) = 2 ^ 32 * (x / 2 ^ 32 % 2 ^ 32) := by
  apply Nat.eq_of_testBit_eq
  intro j
  simp only [Nat.testBit_and, Nat.testBit_two_pow_mul, Nat.testBit_two_pow_sub_one, Nat.testBit_mod_two_pow, Nat.testBit_div_two_pow]
  by_cases h : 32 ≤ j
  · simp [h, Bool.and_comm, Nat.sub_add_cancel h]
  · simp [h]

/-- What a write of the lower half makes of a word. -/
theorem lowerHalf_written (st v : Nat) :
    st &&& (2 ^ 64 - 1 - (2 ^ 32 - 1) * 2 ^ 0) ||| (v * 2 ^ 0 % 2 ^ 64 &&& (2 ^ 32 - 1) * 2 ^ 0) =
      2 ^ 32 * (st / 2 ^ 32 % 2 ^ 32) + v % 2 ^ 32 := by
  rw [Nat.pow_zero, Nat.mul_one, Nat.mul_one, show (2 ^ 64 - 1 - (2 ^ 32 - 1) : Nat) = 2 ^ 32 * (2 ^ 32 - 1) by norm_num, and_upperMask, Nat.and_two_pow_sub_one_eq_mod,
    Nat.two_pow_add_eq_or_of_lt (Nat.mod_lt _ (by norm_num))]
  congr 1
  omega

/-- What a write of the upper half makes of a word. -/
theorem upperHalf_written (st v : Nat) :
    st &&& (2 ^ 64 - 1 - (2 ^ 32 - 1) * 2 ^ 32) ||| (v * 2 ^ 32 % 2 ^ 64 &&& (2 ^ 32 - 1) * 2 ^ 32) = 2 ^ 32 * (v % 2 ^ 32) + st % 2 ^ 32 := by
  rw [show (2 ^ 64 - 1 - (2 ^ 32 - 1) * 2 ^ 32 : Nat) = 2 ^ 32 - 1 by norm_num, Nat.mul_comm (2 ^ 32 - 1), and_upperMask,
    Nat.and_two_pow_sub_one_eq_mod, Nat.two_pow_add_eq_or_of_lt (Nat.mod_lt _ (by norm_num)), Nat.or_comm]
  congr 2
  omega

/-! ### Writes (R46) -/

/-- What an agent's write of a word does: `w` is the word as it would be, `x` the written bits. -/
def State.put (s : State) (a : Agent) (o w x : Nat) : State :=
  match a with
  | .lodge => (((s.putLow o w x).putLink o w).putTap o w).putHost o w x
  | .rack => if o = 0x2008 then s.putHost o w x else s.putLink o w
  | .host => (if s.fuse.debugEnable then s.putTap o w else s).putHost o w x

section
variable {s : State} {a : Agent} {o : Nat} {v : W64}

theorem exec_registerWrite (s : State) (a : Agent) (o n : Nat) (v : W64) :
    exec .registerWrite { s with inp := some (.registerWrite a o n v) } = .next ({ s with inp := none }.writeReg a o n v) := rfl

theorem bar0Ok_word (ho : o % 8 = 0) (hlt : o < 0x4000000) : bar0Ok o 8 = true := by
  simp only [bar0Ok, ho, Bool.and_eq_true, decide_eq_true_eq]
  exact ⟨⟨rfl, rfl⟩, by omega⟩

/-- An agent that comes is not cut off (R41). -/
theorem not_cut_of_comes (h : Spec.Comes s a) : ¬ (a = .rack && (s.lnk.ethFor 0).isNone) = true := by
  rw [Bool.and_eq_true, decide_eq_true_eq]
  rintro ⟨rfl, hn⟩
  exact absurd (h rfl) (by simpa using hn)

theorem State.answers_of_running (h : s.boot.state ≠ 3) (o : Nat) : s.answers o = true := by
  rw [State.answers, bne_iff_ne.2 h]
  rfl

/-- The bits that an access of `n` bytes at an offset writes within its word. -/
def regMask (off n : Nat) : Nat := (if n = 8 then 2 ^ 64 - 1 else 2 ^ 32 - 1) * 2 ^ (8 * (off % 8))
/-- Their values. -/
def regBits (off n : Nat) (v : W64) : Nat := v.toNat * 2 ^ (8 * (off % 8)) % 2 ^ 64 &&& regMask off n

theorem State.writeReg_none (hw : s.mgmtWord (o / 8 * 8) = none) {n : Nat} (hok : bar0Ok o n = true) : s.writeReg a o n v = s := by
  unfold State.writeReg
  simp only [hok, hw, Bool.not_true, Bool.false_eq_true, if_false, ite_self]

/-- A write of an agent that comes changes the bits that it names, and keeps the others. -/
theorem State.writeReg_eq (hst : s.boot.state ≠ 3) (ha : Spec.Comes s a) {n old : Nat} (hok : bar0Ok o n = true)
    (hw : s.mgmtWord (o / 8 * 8) = some old) : s.writeReg a o n v = s.put a (o / 8 * 8)
      (s.storedWord (o / 8 * 8) old &&& (2 ^ 64 - 1 - regMask o n) ||| regBits o n v) (regBits o n v) := by
  unfold State.writeReg
  rw [if_neg (not_cut_of_comes ha), if_neg (by rw [hok]; decide), if_neg (by rw [State.answers_of_running hst]; decide)]
  dsimp only
  rw [hw]
  cases a <;> rfl

/-- A write of a whole word. -/
theorem State.writeReg_word (hst : s.boot.state ≠ 3) (ha : Spec.Comes s a) (ho : o % 8 = 0) (hlt : o < 0x4000000) {old : Nat}
    (hw : s.mgmtWord o = some old) : s.writeReg a o 8 v = s.put a o v.toNat v.toNat := by
  have h8 : o / 8 * 8 = o := by omega
  have hm : regMask o 8 = 2 ^ 64 - 1 := by rw [regMask, ho]; rfl
  have hx : regBits o 8 v = v.toNat := by
    rw [regBits, hm, ho, Nat.and_two_pow_sub_one_eq_mod]
    omega
  rw [State.writeReg_eq hst ha (bar0Ok_word ho hlt) (by rwa [h8]), h8, hm, hx, Nat.sub_self, Nat.and_zero, Nat.zero_or]

/-- A word with one half written. -/
def halfWritten (st : Nat) (v : W64) (upper : Bool) : Nat :=
  if upper then 2 ^ 32 * (v.toNat % 2 ^ 32) + st % 2 ^ 32 else 2 ^ 32 * (st / 2 ^ 32 % 2 ^ 32) + v.toNat % 2 ^ 32

/-- A write of half a word leaves the other half. -/
theorem State.writeReg_half (hst : s.boot.state ≠ 3) (ha : Spec.Comes s a) (ho : o % 8 = 0) (hlt : o < 0x4000000) {old : Nat}
    (hw : s.mgmtWord o = some old) (upper : Bool) : s.writeReg a (o + 4 * upper.toNat) 4 v =
      s.put a o (halfWritten (s.storedWord o old) v upper) (regBits (o + 4 * upper.toNat) 4 v) := by
  have h8 : (o + 4 * upper.toNat) / 8 * 8 = o := by cases upper <;> simp <;> omega
  have hm : (o + 4 * upper.toNat) % 8 = 4 * upper.toNat := by cases upper <;> simp <;> omega
  have hok : bar0Ok (o + 4 * upper.toNat) 4 = true := by
    simp only [bar0Ok, Bool.and_eq_true, decide_eq_true_eq]
    cases upper <;> simp <;> omega
  rw [State.writeReg_eq hst ha hok (by rwa [h8]), h8]
  congr 1
  unfold regBits regMask
  rw [hm]
  cases upper
  exacts [lowerHalf_written _ _, upperHalf_written _ _]

/-- What a write of a word may do, whoever writes and whatever the word. -/
theorem State.writeReg_cases (hst : s.boot.state ≠ 3) (ho : o % 8 = 0) (hlt : o < 0x4000000) :
    s.writeReg a o 8 v = s ∨ s.writeReg a o 8 v = s.put a o v.toNat v.toNat := by
  by_cases ha : Spec.Comes s a
  · cases hw : s.mgmtWord o with
    | none => exact .inl (State.writeReg_none (by rwa [show o / 8 * 8 = o by omega]) (bar0Ok_word ho hlt))
    | some old => exact .inr (State.writeReg_word hst ha ho hlt hw)
  · left
    unfold State.writeReg
    obtain ⟨rfl, h⟩ : a = .rack ∧ (s.lnk.ethFor 0).isSome ≠ true := by
      simpa [Spec.Comes] using ha
    rw [if_pos (by simpa using h)]

end

/-! ### What each agent's write leaves alone -/

theorem State.putHost_other {s : State} {o w x : Nat} (h : o ≠ 0x1000 ∧ o ≠ 0x1010 ∧ o ≠ 0x2008) : s.putHost o w x = s := by
  simp only [State.putHost, if_neg h.1, if_neg h.2.1, if_neg h.2.2]

theorem State.putLink_other {s : State} {o w : Nat} (h : o ≠ 0x6348 ∧ o ≠ 0x6608) : s.putLink o w = s := by
  simp only [State.putLink, if_neg h.1, if_neg h.2]

theorem State.putTap_other {s : State} {o w : Nat} (h : o < 0x8C00 ∨ 0x8CC0 ≤ o) : s.putTap o w = s := by
  unfold State.putTap
  dsimp only
  rw [if_neg (by omega), if_neg (by omega), if_neg (by omega), if_neg (by omega), if_neg (by omega)]

theorem State.putHost_frame (s : State) (o w x : Nat) : ∃ b p, s.putHost o w x = { s with boot := b, pow := p } := by
  unfold State.putHost
  repeat' split
  exacts [⟨_, _, rfl⟩, ⟨_, _, rfl⟩, ⟨_, _, rfl⟩, ⟨_, _, rfl⟩]

theorem State.putLink_frame (s : State) (o w : Nat) : ∃ l, s.putLink o w = s.setLnk l := by
  unfold State.putLink
  repeat' split
  exacts [⟨_, rfl⟩, ⟨_, rfl⟩, ⟨_, rfl⟩]

theorem State.putTap_frame (s : State) (o w : Nat) : ∃ t, s.putTap o w = { s with tap := t } := by
  unfold State.putTap
  dsimp only
  repeat' split
  exacts [⟨_, rfl⟩, ⟨_, rfl⟩, ⟨_, rfl⟩, ⟨_, rfl⟩, ⟨_, rfl⟩, ⟨_, rfl⟩]

/-- Beside the Lodge's own fields, its writes reach those of the links, the taps, the boot and the power events alone. -/
theorem State.put_lodge_frame (s : State) (o w x : Nat) : ∃ l t b p,
    s.put .lodge o w x = { s.putLow o w x with lnk := l, tap := t, boot := b, pow := p } := by
  obtain ⟨l, hl⟩ := (s.putLow o w x).putLink_frame o w
  obtain ⟨t, ht⟩ := ((s.putLow o w x).putLink o w).putTap_frame o w
  obtain ⟨b, p, hb⟩ := (((s.putLow o w x).putLink o w).putTap o w).putHost_frame o w x
  exact ⟨l, t, b, p, by rw [State.put, hb, ht, hl]; rfl⟩

/-- The elements, as one choice of states leaves them. -/
theorem fab_ite {c : Prop} [Decidable c] {x y : State} {f : Fabric} (hx : x.fab = f) (hy : y.fab = f) : (if c then x else y).fab = f := by
  split
  exacts [hx, hy]

theorem State.putLow_fab (s : State) (o w x : Nat) : (s.putLow o w x).fab = s.fab :=
  fab_ite rfl (fab_ite rfl (fab_ite rfl (fab_ite rfl (fab_ite rfl (fab_ite rfl (fab_ite rfl (fab_ite rfl (fab_ite rfl (fab_ite rfl
    (fab_ite rfl (fab_ite rfl (fab_ite rfl (fab_ite rfl (fab_ite rfl (fab_ite rfl (fab_ite rfl (fab_ite rfl (fab_ite rfl rfl))))))))))))))))))

/-- No register write reaches the elements. -/
theorem State.put_fab (s : State) (a : Agent) (o w x : Nat) : (s.put a o w x).fab = s.fab := by
  cases a with
  | lodge =>
    obtain ⟨l, t, b, p, h⟩ := s.put_lodge_frame o w x
    rw [h]
    exact s.putLow_fab o w x
  | rack =>
    obtain ⟨b, p, h⟩ := s.putHost_frame o w x
    obtain ⟨l, hl⟩ := s.putLink_frame o w
    refine fab_ite ?_ ?_
    · rw [h]
    · rw [hl]; rfl
  | host =>
    obtain ⟨t, ht⟩ := s.putTap_frame o w
    obtain ⟨b, p, h⟩ := (if s.fuse.debugEnable then s.putTap o w else s).putHost_frame o w x
    rw [State.put, h]
    exact fab_ite (by rw [ht]) rfl

/-! ### Reads (R4, R390) -/

/-- What no read of a register changes. -/
structure State.Unread (s t : State) : Prop where
  fab : t.fab = s.fab
  tsk : t.tsk = s.tsk
  eng : t.eng = s.eng
  pow : t.pow = s.pow
  pend : t.que.pend = s.que.pend
  out : t.out = s.out

theorem State.Unread.ite {s x y : State} {c : Prop} [Decidable c] (hx : s.Unread x) (hy : s.Unread y) : s.Unread (if c then x else y) := by
  split
  exacts [hx, hy]

theorem State.Unread.same {s t : State} (fab : t.fab = s.fab := by rfl) (tsk : t.tsk = s.tsk := by rfl) (eng : t.eng = s.eng := by rfl)
    (pow : t.pow = s.pow := by rfl) (pend : t.que.pend = s.que.pend := by rfl) (out : t.out = s.out := by rfl) : s.Unread t :=
  ⟨fab, tsk, eng, pow, pend, out⟩

theorem State.readClear_unread (s : State) (o : Nat) (lo hi : Bool) : s.Unread (s.readClear o lo hi) :=
  .ite .same (.ite .same (.ite .same (.ite .same (.ite .same (.ite .same (.ite .same (.ite .same (.ite .same (.ite .same
    (.ite .same .same))))))))))

theorem State.markVoteRead_unread (s : State) (o : Nat) : s.Unread (s.markVoteRead o) := .ite .same .same

theorem State.markVoteRead_other {s : State} {o : Nat} (h : inVoteLog o = false) : s.markVoteRead o = s := by
  rw [State.markVoteRead, h]
  rfl

section
variable {s : State} {a : Agent} {o : Nat}

theorem step_regRead (s : State) (a : Agent) (o n : Nat) : step { s with agenda := .regRead a o n :: s.agenda } = .next (s.readReg a o n) := rfl

/-- A read of a whole word by an agent that comes: its bytes go out, and what it clears is cleared but for the rack controller. -/
def State.readWord (s : State) (a : Agent) (o : Nat) : State :=
  let t := (s.emitOut (.barRead (bytesOf 8 ((s.mgmtWord o).getD 0)))).markVoteRead o
  if a = .rack then t else t.readClear o true true

theorem State.readReg_word (hst : s.boot.state ≠ 3) (ha : Spec.Comes s a) (ho : o % 8 = 0) (hlt : o < 0x4000000) :
    s.readReg a o 8 = s.readWord a o := by
  unfold State.readReg
  rw [if_neg (not_cut_of_comes ha), if_neg (by rw [bar0Ok_word ho hlt]; decide)]
  have he : ∀ x, (s.emitOut x).answers o = true := fun _ => State.answers_of_running hst o
  simp only [State.answers_of_running hst, he, ho, show o / 8 * 8 = o by omega, if_true, Bool.not_true, Bool.false_eq_true, if_false]
  rfl

/-- In FAILED a read of a register that does not answer gives zeros (R48). -/
theorem State.readReg_failed (hst : s.answers o = false) (ha : Spec.Comes s a) (ho : o % 8 = 0) (hlt : o < 0x4000000) :
    s.readReg a o 8 = { s with out := s.out ++ [.barRead (List.replicate 8 0)] } := by
  unfold State.readReg
  rw [if_neg (not_cut_of_comes ha), if_neg (by rw [bar0Ok_word ho hlt]; decide)]
  have he : ∀ x, (s.emitOut x).answers o = false := fun _ => hst
  simp only [hst, he, ho, Bool.not_false, if_true, Bool.false_eq_true, if_false]
  rfl

theorem State.readWord_out (s : State) (a : Agent) (o : Nat) :
    (s.readWord a o).out = s.out ++ [.barRead (bytesOf 8 ((s.mgmtWord o).getD 0))] := by
  unfold State.readWord
  dsimp only
  split
  · exact (State.markVoteRead_unread _ o).out
  · exact (State.readClear_unread _ o true true).out.trans (State.markVoteRead_unread _ o).out

/-- A read changes no element, no task, no engine, no power setting and no pending notification. -/
theorem State.readWord_frame (s : State) (a : Agent) (o : Nat) : (s.readWord a o).fab = s.fab ∧ (s.readWord a o).tsk = s.tsk ∧
    (s.readWord a o).eng = s.eng ∧ (s.readWord a o).pow = s.pow ∧ (s.readWord a o).que.pend = s.que.pend := by
  have h1 := (s.emitOut (.barRead (bytesOf 8 ((s.mgmtWord o).getD 0)))).markVoteRead_unread o
  have h2 := ((s.emitOut (.barRead (bytesOf 8 ((s.mgmtWord o).getD 0)))).markVoteRead o).readClear_unread o true true
  unfold State.readWord
  dsimp only
  split
  · exact ⟨h1.fab, h1.tsk, h1.eng, h1.pow, h1.pend⟩
  · exact ⟨h2.fab.trans h1.fab, h2.tsk.trans h1.tsk, h2.eng.trans h1.eng, h2.pow.trans h1.pow, h2.pend.trans h1.pend⟩

end

/-- An access of another size or alignment (R45). -/
theorem bar0Ok_eq_false {off n : Nat} (h : ¬ ((n = 4 ∨ n = 8) ∧ off % n = 0 ∧ off + n ≤ 0x4000000)) : bar0Ok off n = false := by
  rw [← Bool.not_eq_true]
  simp only [bar0Ok, Bool.and_eq_true, Bool.or_eq_true, beq_iff_eq, decide_eq_true_eq]
  tauto

theorem bit_eq_testBit (x i : Nat) : bit x i = x.testBit i := by
  rw [bit, Nat.testBit_eq_decide_div_mod_eq]
  exact beq_eq_decide ..

theorem bit_toNat (v : W64) (i : Nat) : bit v.toNat i = v.getLsbD i := bit_eq_testBit ..

end Sys2Proof.Machine
end

