-- ==== Sys2Proof/Proofs/HostPortAndRegisters.lean ====
section
/-! PROOFS. The host port and the registers, put together (R4, R44 to R47, R187, R236, R259). -/
namespace Sys2Proof.Machine
open Sys2Proof.Spec (byteAt markAt Coherent SameBytes Stored)

/-! ### BAR2 -/

theorem exec_bar2Read (s : State) : exec .bar2Read s = execBar2Read s := rfl
theorem exec_bar2Write (s : State) : exec .bar2Write s = execBar2Write s := rfl
theorem exec_pcieLinkTrained (s : State) : exec .pcieLinkTrained s = execPcieLinkTrained s := rfl
theorem exec_bar0UnsupportedAccess (s : State) : exec .bar0UnsupportedAccess s = execBar0UnsupportedAccess s := rfl
theorem exec_armRptClear (s : State) : exec .armRptClear s = execArmRptClear s := rfl

/-- BAR2 refuses what reaches the hole or lies beyond it (R47, R148). -/
theorem bar2Bad_iff {a n : Nat} (hn : 0 < n) : bar2Bad a n = true ↔ ∃ x, a ≤ x ∧ x < a + n ∧ holeBase ≤ x := by
  unfold bar2Bad inHole
  simp only [Bool.or_eq_true, Bool.and_eq_true, decide_eq_true_eq]
  have hd : domainBase = 2 ^ 47 := rfl
  rw [hd]
  constructor
  · intro h
    have hh : holeBase ≤ 2 ^ 47 := by decide
    exact ⟨a + n - 1, by omega, by omega, by omega⟩
  · rintro ⟨x, h1, h2, h3⟩
    omega

section
variable {s : State} {off n a : Nat}

theorem bar2_refused (hst : s.boot.state ≠ 3) (hn : 0 < n) (ha : a = s.apBase.toNat * 2 ^ 30 + off)
    (hx : ∃ x, a ≤ x ∧ x < a + n ∧ holeBase ≤ x) :
    exec .bar2Read { s with inp := some (.bar2Read off n) } = .next { s with inp := none, out := s.out ++ [.unsupportedRequest] } ∧
    ∀ (d : List Byte) (pois : Bool), d.length = n → exec .bar2Write { s with inp := some (.bar2Write off d pois) } =
      .next { s with inp := none, out := s.out ++ [.unsupportedRequest] } := by
  subst ha
  have hb := (bar2Bad_iff hn).2 hx
  constructor
  · rw [exec_bar2Read, execBar2Read]
    dsimp only
    rw [if_neg hst, if_pos hb]
    rfl
  · rintro d pois rfl
    rw [exec_bar2Write, execBar2Write]
    dsimp only
    rw [if_neg hst, if_pos hb]
    rfl

theorem not_bar2Bad (hn : 0 < n) (h : a + n ≤ holeBase) : ¬ bar2Bad a n = true := fun hb => by
  obtain ⟨x, _, h2, h3⟩ := (bar2Bad_iff hn).1 hb
  omega

/-- No remap and no open row is in the way of any piece. -/
theorem pieces_free (h : ∀ x, a ≤ x → x < a + n → s.rowFree x = true) (k : Nat) :
    ¬ (!(cut16 a n k).all fun p => s.rowFree p.1) = true := by
  simp only [Bool.not_eq_true', Bool.not_eq_false, List.all_eq_true]
  exact fun p hp => h _ (cut16_within k a n p hp).1 (cut16_within k a n p hp).2

theorem bar2Read_spec (hst : s.boot.state ≠ 3) (hn : 0 < n) (ha : a = s.apBase.toNat * 2 ^ 30 + off) (hole : a + n ≤ holeBase)
    (h : ∀ x, a ≤ x → x < a + n → s.rowFree x = true ∧ s.backed x = true) (hm : Coherent s.mem) :
    ∃ (u : State) (p : Bool), exec .bar2Read { s with inp := some (.bar2Read off n) } = .next u ∧ SameBytes s.mem u.mem ∧
      u.out = s.out ++ [.bar2Data ((List.range n).map fun j => byteAt s.mem (a + j)) p] := by
  subst ha
  obtain ⟨h1, h2, h3⟩ := State.bar2Get_spec (n / 16 + 2) (s := { s with inp := none }) _ n hm (by omega) fun x hx hx' => (h x hx hx').2
  rw [exec_bar2Read, execBar2Read]
  dsimp only
  rw [if_neg hst, if_neg (not_bar2Bad hn hole), if_neg (pieces_free (s := { s with inp := none }) (fun x hx hx' => (h x hx hx').1) _)]
  generalize State.bar2Get _ _ = g at h1 h2 h3 ⊢
  exact ⟨g.2.2.emitOut (.bar2Data g.1 g.2.1), g.2.1, rfl, h2, by rw [State.emitOut, h3, h1]⟩

theorem bar2Write_spec (hst : s.boot.state ≠ 3) (hn : 0 < n) (ha : a = s.apBase.toNat * 2 ^ 30 + off) (hole : a + n ≤ holeBase)
    (h : ∀ x, a ≤ x → x < a + n → s.rowFree x = true ∧ s.backed x = true) (hm : Coherent s.mem) (d : List Byte) (pois : Bool)
    (hd : d.length = n) : ∃ u : State, exec .bar2Write { s with inp := some (.bar2Write off d pois) } = .next u ∧
      u.out = s.out ++ (if pois then [.poisonedTlp] else []) ∧ Stored s.mem u.mem a d ∧
      ∀ k, a ≤ 16 * k → 16 * k + 16 ≤ a + n → markAt u.mem k = pois := by
  subst ha hd
  obtain ⟨t, ht, htm, hto⟩ : ∃ t : State, t = (if pois then ({ s with inp := none } : State).emitOut .poisonedTlp else { s with inp := none }) ∧
      t.mem = s.mem ∧ t.out = s.out ++ (if pois then [.poisonedTlp] else []) := by
    refine ⟨_, rfl, ?_⟩
    cases pois <;> simp [State.emitOut]
  obtain ⟨h1, h2, -, h3⟩ := State.bar2Put_spec d pois (d.length / 16 + 2) (s := t) (s.apBase.toNat * 2 ^ 30 + off) d.length 0 (htm ▸ hm) (by omega)
    (by omega) fun x hx hx' => by
      rw [State.backed_of_liveMap (s := s) (by rw [htm])]
      exact (h x hx hx').2
  rw [exec_bar2Write, execBar2Write]
  dsimp only
  rw [if_neg hst, if_neg (not_bar2Bad hn hole), if_neg (pieces_free (s := { s with inp := none }) (fun x hx hx' => (h x hx hx').1) _), ← ht]
  refine ⟨_, rfl, h3.trans hto, fun x => ?_, h2⟩
  rw [h1, htm, Nat.zero_add]

end

/-! ### Registers one by one -/

section
variable {s : State} {v : W64}

/-- The Lodge's write of one half of a word. -/
theorem lodge_half (hst : s.boot.state ≠ 3) {o old : Nat} (ho : o % 8 = 0) (hlt : o < 0x4000000) (hw : s.mgmtWord o = some old) (upper : Bool) :
    ∃ x l t b p, exec .registerWrite { s with inp := some (.registerWrite .lodge (o + 4 * upper.toNat) 4 v) } =
      .next { ({ s with inp := none } : State).putLow o (halfWritten (({ s with inp := none } : State).storedWord o old) v upper) x with
        lnk := l, tap := t, boot := b, pow := p } := by
  rw [exec_registerWrite,
    State.writeReg_half (s := { s with inp := none }) hst (fun h => Agent.noConfusion h) ho hlt hw upper]
  obtain ⟨l, t, b, p, hf⟩ := ({ s with inp := none } : State).put_lodge_frame o
    (halfWritten (({ s with inp := none } : State).storedWord o old) v upper) (regBits (o + 4 * upper.toNat) 4 v)
  exact ⟨_, l, t, b, p, congrArg _ hf⟩

/-- The drain's limit and gap stay where KILLRUN is written (R94). -/
theorem killRun_written (hst : s.boot.state ≠ 3) : ∃ u : State,
    exec .registerWrite { s with inp := some (.registerWrite .lodge 0x7614 4 v) } = .next u ∧ u.sch.killRun.toNat = v.toNat % 2 ^ 16 ∧
      u.sch.drain = s.sch.drain ∧ u.sch.gapHi = s.sch.gapHi := by
  obtain ⟨x, l, t, b, p, h⟩ := lodge_half (s := s) (v := v) (o := 0x7610) hst rfl (by decide) rfl true
  have hd := s.sch.drain.isLt
  have hg := s.sch.gapHi.isLt
  refine ⟨_, h, ?_, BitVec.eq_of_toNat_eq ?_, BitVec.eq_of_toNat_eq ?_⟩
  · show (bv 16 (field (halfWritten (s.sch.drain.toNat + 2 ^ 16 * s.sch.gapHi.toNat + 2 ^ 32 * s.sch.killRun.toNat) v true) 47 32)).toNat = _
    simp only [bv, field, halfWritten, if_true, BitVec.toNat_ofNat]
    omega
  · show (bv 16 (halfWritten (s.sch.drain.toNat + 2 ^ 16 * s.sch.gapHi.toNat + 2 ^ 32 * s.sch.killRun.toNat) v true)).toNat = _
    simp only [bv, halfWritten, if_true, BitVec.toNat_ofNat]
    omega
  · show (bv 3 (field (halfWritten (s.sch.drain.toNat + 2 ^ 16 * s.sch.gapHi.toNat + 2 ^ 32 * s.sch.killRun.toNat) v true) 18 16)).toNat = _
    simp only [bv, field, halfWritten, if_true, BitVec.toNat_ofNat]
    omega

theorem halfWritten_testBit {st : Nat} {upper : Bool} {j : Nat} (hj : j < 64) :
    (halfWritten st v upper).testBit j = if j / 32 = upper.toNat then v.getLsbD (j % 32) else st.testBit j := by
  have hlt : ∀ x, x % 2 ^ 32 < 2 ^ 32 := fun x => Nat.mod_lt _ (by norm_num)
  cases upper <;> simp only [halfWritten, if_true, Bool.false_eq_true, if_false, Nat.testBit_two_pow_mul_add _ (hlt _), Nat.testBit_mod_two_pow,
    Nat.testBit_div_two_pow, BitVec.getLsbD]
  · by_cases h : j < 32
    · simp [h, Nat.div_eq_of_lt h, Nat.mod_eq_of_lt h]
    · have h1 : j / 32 = 1 := by omega
      simp [h, h1, show j - 32 < 32 by omega, show j - 32 + 32 = j by omega]
  · by_cases h : j < 32
    · simp [h, Nat.div_eq_of_lt h]
    · have h1 : j / 32 = 1 := by omega
      simp [h, h1, show j - 32 < 32 by omega, show j % 32 = j - 32 by omega]

/-- A half of PG_RETURN is that of the bed that PG_RETURN_BED names (R161). -/
theorem pgReturn_written (hst : s.boot.state ≠ 3) (upper : Bool) : ∃ u : State,
    exec .registerWrite { s with inp := some (.registerWrite .lodge (0x4E18 + 4 * upper.toNat) 4 v) } = .next u ∧
      u.mem.pgReturnBed = s.mem.pgReturnBed ∧ ∀ b j, j < 64 → (Tab.getD u.mem.pgReturn b 0).getLsbD j =
        if b = s.mem.pgReturnBed.toNat ∧ j / 32 = upper.toNat then v.getLsbD (j % 32) else (Tab.getD s.mem.pgReturn b 0).getLsbD j := by
  obtain ⟨x, l, t, b, p, h⟩ := lodge_half (s := s) (v := v) (o := 0x4E18) hst rfl (by decide) rfl upper
  refine ⟨_, h, rfl, fun b j hj => ?_⟩
  show (Tab.getD (Tab.set s.mem.pgReturn s.mem.pgReturnBed.toNat
    (bv 64 (halfWritten (Tab.getD s.mem.pgReturn s.mem.pgReturnBed.toNat 0).toNat v upper))) b 0).getLsbD j = _
  by_cases hb : b = s.mem.pgReturnBed.toNat
  · subst hb
    rw [Tab.getD_set_same, bv, BitVec.getLsbD_ofNat, halfWritten_testBit hj]
    simp [hj, BitVec.getLsbD]
  · rw [Tab.getD_set_other _ _ _ _ _ hb, if_neg fun h => hb h.1]

/-- The upper half of PG_RETURN_BED holds nothing. -/
theorem pgReturnBed_kept (hst : s.boot.state ≠ 3) : ∃ u : State,
    exec .registerWrite { s with inp := some (.registerWrite .lodge 0x4E14 4 v) } = .next u ∧ u.mem.pgReturnBed = s.mem.pgReturnBed ∧
      u.mem.pgReturn = s.mem.pgReturn := by
  obtain ⟨x, l, t, b, p, h⟩ := lodge_half (s := s) (v := v) (o := 0x4E10) hst rfl (by decide) rfl true
  refine ⟨_, h, BitVec.eq_of_toNat_eq ?_, rfl⟩
  show (bv 8 (halfWritten s.mem.pgReturnBed.toNat v true)).toNat = _
  have hb := s.mem.pgReturnBed.isLt
  simp only [bv, halfWritten, if_true, BitVec.toNat_ofNat]
  omega

theorem State.put_host_untapped {s : State} {o w x : Nat} (h : s.fuse.debugEnable = false ∨ o < 0x8C00 ∨ 0x8CC0 ≤ o) :
    s.put .host o w x = s.putHost o w x := by
  rcases h with h | h
  · rw [State.put, h]
    rfl
  · rw [State.put, State.putTap_other h, ite_self]

/-- QN_PEND: a written 1 clears the bit of its queue (R63). -/
theorem State.putLow_pend (s : State) {k : Nat} (hk : k < 16) (w x : Nat) : (s.putLow (0x7400 + 8 * k) w x).que.pend =
    s.que.pend &&& ~~~ (bv 1024 (x * 2 ^ (64 * k))) := by
  unfold State.putLow
  rw [if_neg (by omega), if_neg (by omega), if_neg (by omega), if_neg (by omega), if_neg (by omega), if_pos (by omega),
    show (0x7400 + 8 * k - 0x7400) / 8 = k by omega]
  rfl

theorem State.mgmtWord_pend (s : State) {k : Nat} (hk : k < 16) : s.mgmtWord (0x7400 + 8 * k) = some (wordOf s.que.pend.toNat k) := by
  unfold State.mgmtWord State.wordQueue
  dsimp only
  rw [if_neg (by omega), if_neg (by omega), if_pos (by omega), if_neg (by omega), if_neg (by omega), if_neg (by omega), if_pos (by omega),
    show (0x7400 + 8 * k - 0x7400) / 8 = k by omega]

theorem pend_bit {k j : Nat} (hj : j < 1024) :
    (bv 1024 (v.toNat * 2 ^ (64 * k))).getLsbD j = (decide (j / 64 = k) && v.getLsbD (j % 64)) := by
  rw [bv, BitVec.getLsbD_ofNat, Nat.mul_comm, Nat.testBit_two_pow_mul]
  by_cases h : j / 64 = k
  · simp [h, hj, BitVec.getLsbD, show 64 * k ≤ j by omega, show j - 64 * k = j % 64 by omega]
  · by_cases hle : 64 * k ≤ j
    · have hv : v.toNat.testBit (j - 64 * k) = false := BitVec.getLsbD_of_ge v _ (by omega)
      simp [h, hle, hv]
    · simp [h, hle]

/-- TR_ROOT of an ASID (R168). -/
theorem State.putLow_trRoot (s : State) {b : Nat} (hb : b < 256) (w x : Nat) :
    (s.putLow (0x9000 + 8 * b) w x).mem.trRoot = Tab.set s.mem.trRoot b (bit w 0, bv 32 (field w 47 16)) := by
  have hv : inVoteLog (0x9000 + 8 * b) = false := by simp [inVoteLog]; omega
  unfold State.putLow
  rw [hv]
  iterate 16 rw [if_neg (by omega)]
  rw [if_neg Bool.false_ne_true, if_pos (by omega), show (0x9000 + 8 * b - 0x9000) / 8 = b by omega]
  rfl

theorem State.mgmtWord_trRoot (s : State) {b : Nat} (hb : b < 256) : ∃ old, s.mgmtWord (0x9000 + 8 * b) = some old := by
  have hv : inVoteLog (0x9000 + 8 * b) = false := by simp [inVoteLog]; omega
  unfold State.mgmtWord State.wordHigh
  dsimp only
  rw [hv]
  iterate 8 rw [if_neg (by omega)]
  rw [if_neg Bool.false_ne_true]
  iterate 7 rw [if_neg (by omega)]
  exact ⟨_, if_pos (by omega)⟩

end

/-! ### Whole words that an agent writes -/

/-- `w` gives the state after an 8-byte write of `v` by each agent to each offset. -/
def Written (s : State) (v : W64) (w : Agent → Nat → State) : Prop :=
  ∀ a o, o % 8 = 0 → o < 0x4000000 → exec .registerWrite { s with inp := some (.registerWrite a o 8 v) } = .next (w a o)

namespace Written
variable {s : State} {v : W64} {w : Agent → Nat → State} {a : Agent} {o : Nat}

theorem eq (hw : Written s v w) (ho : o % 8 = 0) (hlt : o < 0x4000000) : w a o = ({ s with inp := none } : State).writeReg a o 8 v := by
  have h := hw a o ho hlt
  rw [exec_registerWrite] at h
  exact (Host.Outcome.next.inj h).symm

theorem word (hw : Written s v w) (hst : s.boot.state ≠ 3) (hc : Spec.Comes s a) (ho : o % 8 = 0) (hlt : o < 0x4000000) {old : Nat}
    (hm : s.mgmtWord o = some old) : w a o = ({ s with inp := none } : State).put a o v.toNat v.toNat :=
  (hw.eq ho hlt).trans (State.writeReg_word (s := { s with inp := none }) hst hc ho hlt hm)

theorem cases (hw : Written s v w) (hst : s.boot.state ≠ 3) (ho : o % 8 = 0) (hlt : o < 0x4000000) :
    w a o = { s with inp := none } ∨ w a o = ({ s with inp := none } : State).put a o v.toNat v.toNat := by
  rw [hw.eq ho hlt]
  exact State.writeReg_cases (s := { s with inp := none }) hst ho hlt

theorem comes_host : Spec.Comes s .host := fun h => Agent.noConfusion h
theorem comes_lodge : Spec.Comes s .lodge := fun h => Agent.noConfusion h

/-- The host sets the boot source and length, and clears the power events (R25, R48, R49). -/
theorem host_words (hw : Written s v w) (hst : s.boot.state ≠ 3) :
    (w .host 0x1000).boot.src = v.getLsbD 0 ∧ (w .host 0x1010).boot.pushLen.toNat = v.toNat % 2 ^ 32 ∧
    ((w .host 0x2008).pow.floor = (s.pow.floor && !v.getLsbD 40) ∧ (w .host 0x2008).pow.ovf = (s.pow.ovf && !v.getLsbD 41) ∧
      (w .host 0x2008).pow.clamp = (s.pow.clamp && !v.getLsbD 42)) := by
  rw [hw.word hst comes_host rfl (by decide) rfl, hw.word hst comes_host rfl (by decide) rfl, hw.word hst comes_host rfl (by decide) rfl,
    State.put_host_untapped (o := 0x2008) (.inr (.inl (by decide)))]
  exact ⟨bit_toNat v 0, BitVec.toNat_ofNat _ _, congrArg (fun b => s.pow.floor && !b) (bit_toNat v 40),
    congrArg (fun b => s.pow.ovf && !b) (bit_toNat v 41), congrArg (fun b => s.pow.clamp && !b) (bit_toNat v 42)⟩

/-- With the fuse's permission the host sets the taps too (R236). -/
theorem host_taps (hw : Written s v w) (hst : s.boot.state ≠ 3) (hd : s.fuse.debugEnable = true) :
    (w .host 0x8C00).tap.en = v.getLsbD 0 ∧ (w .host 0x8C08).tap.ring.toNat = v.toNat % 2 ^ 48 := by
  rw [hw.word hst comes_host rfl (by decide) rfl, hw.word hst comes_host rfl (by decide) rfl, State.put, if_pos hd, State.put, if_pos hd]
  refine ⟨?_, BitVec.toNat_ofNat _ _⟩
  show (bit v.toNat 0 && s.fuse.debugEnable) = _
  rw [hd, Bool.and_true, bit_toNat]

theorem host_other (hw : Written s v w) (hst : s.boot.state ≠ 3) (ho : o % 8 = 0) (hlt : o < 0x4000000)
    (h : o ≠ 0x1000 ∧ o ≠ 0x1010 ∧ o ≠ 0x2008 ∧ (s.fuse.debugEnable = false ∨ o < 0x8C00 ∨ 0x8CC0 ≤ o)) : w .host o = { s with inp := none } := by
  obtain ⟨h0, h1, h2, ht⟩ := h
  rcases hw.cases hst ho hlt (a := .host) with h | h
  · exact h
  · rw [h, State.put_host_untapped (s := { s with inp := none }) ht, State.putHost_other ⟨h0, h1, h2⟩]

theorem rack_other (hw : Written s v w) (hst : s.boot.state ≠ 3) (ho : o % 8 = 0) (hlt : o < 0x4000000)
    (h : o ≠ 0x2008 ∧ o ≠ 0x6348 ∧ o ≠ 0x6608) : w .rack o = { s with inp := none } := by
  obtain ⟨h0, h1, h2⟩ := h
  rcases hw.cases hst ho hlt (a := .rack) with h | h
  · exact h
  · rw [h, State.put, if_neg h0, State.putLink_other ⟨h1, h2⟩]

theorem rack_pow (hw : Written s v w) (hst : s.boot.state ≠ 3) (hc : Spec.Comes s .rack) : (w .rack 0x2008).pow = (w .host 0x2008).pow := by
  rw [hw.word hst hc rfl (by decide) rfl, hw.word hst comes_host rfl (by decide) rfl, State.put_host_untapped (.inr (.inl (by decide)))]
  rfl

theorem rack_links (hw : Written s v w) (hst : s.boot.state ≠ 3) (hc : Spec.Comes s .rack) :
    (w .rack 0x6348).lnk.tmo.toNat = min 50000 (max 10 (v.toNat % 2 ^ 16)) ∧ (w .rack 0x6608).lnk.drainTmo.toNat = v.toNat % 2 ^ 16 := by
  rw [hw.word hst hc rfl (by decide) rfl, hw.word hst hc rfl (by decide) rfl]
  refine ⟨?_, BitVec.toNat_ofNat _ _⟩
  show (bv 16 (min 50000 (max 10 (field v.toNat 15 0)))).toNat = _
  simp only [bv, field, BitVec.toNat_ofNat]
  omega

theorem lodge_tap (hw : Written s v w) (hst : s.boot.state ≠ 3) : (w .lodge 0x8C00).tap.en = (v.getLsbD 0 && s.fuse.debugEnable) := by
  rw [hw.word hst comes_lodge rfl (by decide) rfl]
  exact congrArg (· && s.fuse.debugEnable) (bit_toNat v 0)

theorem lodge_words (hw : Written s v w) (hst : s.boot.state ≠ 3) : (w .lodge 0x1100).apBase.toNat = v.toNat % 2 ^ 17 ∧
    (w .lodge 0x7000).que.qtab.toNat = v.toNat % 2 ^ 48 ∧ (w .lodge 0x7600).sch.placeEn = v.getLsbD 0 := by
  rw [hw.word hst comes_lodge rfl (by decide) rfl, hw.word hst comes_lodge rfl (by decide) rfl, hw.word hst comes_lodge rfl (by decide) rfl]
  exact ⟨BitVec.toNat_ofNat _ _, BitVec.toNat_ofNat _ _, bit_toNat v 0⟩

theorem lodge_pend (hw : Written s v w) (hst : s.boot.state ≠ 3) {k j : Nat} (hk : k < 16) (hj : j < 1024) :
    (w .lodge (0x7400 + 8 * k)).que.pend.getLsbD j = (s.que.pend.getLsbD j && !(decide (j / 64 = k) && v.getLsbD (j % 64))) := by
  obtain ⟨l, t, b, p, h⟩ := ({ s with inp := none } : State).put_lodge_frame (0x7400 + 8 * k) v.toNat v.toNat
  rw [hw.word hst comes_lodge (by omega) (by omega) (s.mgmtWord_pend hk), h, State.putLow_pend _ hk, BitVec.getLsbD_and, BitVec.getLsbD_not,
    pend_bit hj, decide_eq_true hj, Bool.true_and]

theorem lodge_trRoot (hw : Written s v w) (hst : s.boot.state ≠ 3) {b : Nat} (hb : b < 256) :
    Tab.getD (w .lodge (0x9000 + 8 * b)).mem.trRoot b (false, 0) = (v.getLsbD 0, BitVec.ofNat 32 (v.toNat / 2 ^ 16)) := by
  obtain ⟨old, hm⟩ := s.mgmtWord_trRoot hb
  obtain ⟨l, t, b', p, h⟩ := ({ s with inp := none } : State).put_lodge_frame (0x9000 + 8 * b) v.toNat v.toNat
  rw [hw.word hst comes_lodge (by omega) (by omega) hm, h, State.putLow_trRoot _ hb, Tab.getD_set_same, bit_toNat]
  refine congrArg _ (BitVec.eq_of_toNat_eq ?_)
  simp only [bv, field, BitVec.toNat_ofNat]
  omega

theorem fab (hw : Written s v w) (hst : s.boot.state ≠ 3) (a : Agent) (o : Nat) : (w a o).fab = s.fab ∨ ¬ (o % 8 = 0 ∧ o < 0x4000000) := by
  by_cases h : o % 8 = 0 ∧ o < 0x4000000
  · left
    rcases hw.cases hst h.1 h.2 (a := a) with h | h
    · rw [h]
    · rw [h]
      exact State.put_fab ..
  · exact .inr h

end Written

/-! ### Whole words that an agent reads -/

section
variable {s : State} {a : Agent} {rd : Nat → State}

theorem read_word (hst : s.boot.state ≠ 3) (hc : Spec.Comes s a)
    (hrd : ∀ o, o % 8 = 0 → o < 0x4000000 → step { s with agenda := .regRead a o 8 :: s.agenda } = .next (rd o)) {o : Nat} (ho : o % 8 = 0)
    (hlt : o < 0x4000000) : rd o = s.readWord a o := by
  have h := hrd o ho hlt
  rw [step_regRead, State.readReg_word hst hc ho hlt] at h
  exact (Host.Outcome.next.inj h).symm

/-- Reads of the host and the Lodge clear counts (R4, R42, R94, R221, R259). -/
theorem State.readWord_clears (ha : a ≠ .rack) : (s.readWord a 0x6350).lnk = { s.lnk with late := 0, dlLost := 0 } ∧
    (s.readWord a 0x8818).err.replays = 0 ∧ (s.readWord a 0x8818).err.lost = 0 ∧
    (s.readWord a 0x7628).sch = { s.sch with drains := 0, kills := 0, ckpts := 0, ckFail := 0 } ∧ (s.readWord a 0x7708).err.armCount = 0 := by
  simp only [State.readWord, if_neg ha]
  exact ⟨rfl, rfl, rfl, rfl, rfl⟩

/-- Those of the rack controller clear none (R46). -/
theorem State.readWord_rack : (s.readWord .rack 0x6350).lnk = s.lnk ∧ (s.readWord .rack 0x8818).err = s.err ∧ (s.readWord .rack 0x7628).sch = s.sch :=
  ⟨rfl, rfl, rfl⟩

end

/-! ### The obligation -/

theorem pcieLinkTrained_spec (s : State) {r w : Nat} (h1 : 1 ≤ r) (h6 : r ≤ 6) (hw : w = 16 ∨ w = 8) : ∃ u : State,
    exec .pcieLinkTrained { s with inp := some (.pcieLinkTrained r w) } = .next u ∧ u.pcieRate.toNat = r ∧ u.pcieWidth.toNat = w ∧
      u.mem = s.mem ∧ u.out = s.out := by
  rw [exec_pcieLinkTrained, execPcieLinkTrained]
  dsimp only
  rw [if_pos ⟨h1, h6, hw⟩]
  exact ⟨_, rfl, by rw [BitVec.toNat_ofNat]; omega, by rw [BitVec.toNat_ofNat]; omega, rfl, rfl⟩

theorem bar0_refused (s : State) {off n : Nat} (v : W64) {a : Agent} (hc : Spec.Comes s a) (h : bar0Ok off n = false) :
    exec .bar0UnsupportedAccess { s with inp := some (.bar0UnsupportedAccess off n) } =
      .next { s with inp := none, out := s.out ++ [.unsupportedRequest] } ∧
    exec .registerWrite { s with inp := some (.registerWrite a off n v) } =
      .next { s with inp := none, out := s.out ++ [.unsupportedRequest] } ∧
    step { s with agenda := .regRead a off n :: s.agenda } = .next { s with out := s.out ++ [.unsupportedRequest] } := by
  rw [exec_bar0UnsupportedAccess, execBar0UnsupportedAccess, exec_registerWrite, State.writeReg,
    if_neg (not_cut_of_comes (s := { s with inp := none }) hc), step_regRead, State.readReg, if_neg (not_cut_of_comes hc)]
  dsimp only
  rw [h]
  exact ⟨rfl, rfl, rfl⟩

/-- In FAILED a register other than BOOT_CFG and BOOT_STAT neither takes nor gives anything (R48). -/
theorem failed_silent (s : State) {a : Agent} {o : Nat} (v : W64) (hst : s.boot.state = 3) (hc : Spec.Comes s a) (ho : o % 8 = 0)
    (hlt : o < 0x4000000) (h0 : o ≠ 0x1000) (h1 : o ≠ 0x1008) :
    exec .registerWrite { s with inp := some (.registerWrite a o 8 v) } = .next { s with inp := none } ∧
    step { s with agenda := .regRead a o 8 :: s.agenda } = .next { s with out := s.out ++ [.barRead (List.replicate 8 0)] } := by
  have hans : s.answers o = false := by
    simp only [State.answers, hst, show o / 8 * 8 = o by omega, Bool.or_eq_false_iff, beq_eq_false_iff_ne]
    exact ⟨⟨rfl, h0⟩, h1⟩
  refine ⟨?_, by rw [step_regRead, State.readReg_failed hans hc ho hlt]⟩
  rw [exec_registerWrite, State.writeReg, if_neg (not_cut_of_comes (s := { s with inp := none }) hc), bar0Ok_word ho hlt]
  have hsilent : ({ s with inp := none } : State).answers o = false := hans
  rw [hsilent]
  rfl

/-- Settles O53: BAR2 by its pieces, the registers by the word or half that is written or read. -/
theorem hostPortAndRegisters : Obligations.HostPortAndRegisters := by
  refine ⟨fun s off n a hst hn ha => ⟨bar2_refused hst hn ha, fun hole h hm => ⟨bar2Read_spec hst hn ha hole h hm,
    bar2Write_spec hst hn ha hole h hm⟩⟩, fun s r w h1 h6 hw => pcieLinkTrained_spec s h1 h6 hw, fun s off n hst => ⟨?_, fun d pois => ?_⟩,
    fun s off n v a hc h => bar0_refused s v hc (bar0Ok_eq_false h), fun s => ⟨fun h => ?_, fun h => ?_⟩, fun s v hst w hw => ?_,
    fun s v hst => killRun_written hst, fun s v h hst => pgReturn_written hst h, fun s v hst => pgReturnBed_kept hst,
    fun s a o v hst hc ho hlt h0 h1 => failed_silent s v hst hc ho hlt h0 h1, fun s a hst hc rd hrd => ?_⟩
  · rw [exec_bar2Read, execBar2Read]
    exact if_pos hst
  · rw [exec_bar2Write, execBar2Write]
    exact if_pos hst
  · rw [exec_armRptClear, execArmRptClear]
    exact if_neg h
  · rw [exec_armRptClear, execArmRptClear]
    exact if_pos h
  · have hw : Written s v w := hw
    obtain ⟨hsrc, hlen, hpow⟩ := hw.host_words hst
    exact ⟨hsrc, hlen, hpow, hw.host_taps hst, hw.lodge_tap hst, fun o ho hlt => ⟨hw.host_other hst ho hlt, hw.rack_other hst ho hlt⟩,
      hw.rack_pow hst, hw.rack_links hst, hw.lodge_words hst, fun k hk j hj => hw.lodge_pend hst hk hj, fun b hb => hw.lodge_trRoot hst hb,
      hw.fab hst⟩
  · have word {o : Nat} (ho : o % 8 = 0) (hlt : o < 0x4000000) : rd o = s.readWord a o := read_word hst hc hrd ho hlt
    refine ⟨?_, fun ha => ?_, fun ha => ?_, fun o ho hlt => word ho hlt ▸ s.readWord_frame a o⟩
    · have hreturn : (s.mgmtWord 0x4E18).getD 0 = 0 := rfl
      have hkill : (s.mgmtWord 0x1018).getD 0 = 0 := rfl
      refine ⟨?_, ?_, ?_, ?_, ?_, ?_⟩ <;> rw [word rfl (by decide), State.readWord_out]
      · rfl
      · rw [hreturn]; rfl
      · rfl
      · rfl
      · rfl
      · rw [hkill]; rfl
    · rw [word rfl (by decide), word rfl (by decide), word rfl (by decide), word rfl (by decide)]
      exact State.readWord_clears ha
    · rw [word rfl (by decide), word rfl (by decide), word rfl (by decide), ha]
      exact State.readWord_rack

end Sys2Proof.Machine
end

