-- ==== Sys2Proof/Proofs/SettingsMeet.lean ====
section
/-! PROOFS. What the settings of a state satisfy, through every operation that leaves the settings alone. -/
namespace Sys2Proof.Machine

/-- The settings that have a range. -/
def Settings.ranged (c : Settings) :=
  (c.pow.cap, c.pow.win, c.pow.step, c.thm.resume, c.thm.retire, c.self, c.tmo, c.drain.1, c.quantum, c.delay, c.win, c.boot.state, c.tapEn,
    c.fuse.debugEnable)

theorem Settings.Within.of_ranged {c d : Settings} (h : c.Within) (e : d.ranged = c.ranged) : d.Within := by
  simp only [Settings.ranged, Prod.mk.injEq] at e
  obtain ⟨e1, e2, e3, e4, e5, e6, e7, e8, e9, e10, e11, e12, e13, e14⟩ := e
  obtain ⟨h1, h2, h3, h4, h5, h6, h7, h8, h9, h10, h11, h12⟩ := h
  exact ⟨e1 ▸ h1, e2 ▸ h2, e3 ▸ h3, e5 ▸ e4 ▸ h4, e6 ▸ h5, e7 ▸ h6, e8 ▸ h7, e9 ▸ h8, e10 ▸ h9, e11 ▸ h10, e12 ▸ h11,
    e13 ▸ e14 ▸ h12⟩

/-- The part of memory that is settings: roots, and which banks are mapped, retired and live. -/
def Memory.settings (m : Memory) := (m.trRoot, m.bankMap, m.bankTherm, m.liveMap)

/-- `n` has the settings of `m`. -/
structure Memory.Alike (m n : Memory) : Prop where
  settings : n.settings = m.settings

namespace Memory.Alike

theorem refl (m : Memory) : m.Alike m := ⟨rfl⟩
/-- A change of what is no setting. -/
theorem notes {m n : Memory} (e : n.settings = m.settings := by rfl) : m.Alike n := ⟨e⟩
theorem trans {m n k : Memory} (h : m.Alike n) (h' : n.Alike k) : m.Alike k := ⟨h'.settings.trans h.settings⟩
theorem snd {α : Type} {m n : Memory} {p : α × Memory} {x : α} (h : m.Alike p.2) (e : p = (x, n)) : m.Alike n := by rw [e] at h; exact h
theorem ofCache {m n : Memory} (h : m.CacheOnly n) : m.Alike n := ⟨by rw [h]; rfl⟩
theorem foldl {α : Type} {m : Memory} (f : Memory → α → Memory) (hf : ∀ (n : Memory) x, n.Alike (f n x)) (l : List α) :
    m.Alike (l.foldl f m) :=
    foldl_keeps (fun n => m.Alike n) f (fun n x h => h.trans (hf n x)) l m (refl m)

theorem read (m : Memory) (pa n : Nat) : m.Alike (m.read pa n).2.2 := ofCache (m.read_cache pa n)
theorem write (m : Memory) (pa : Nat) (bs : List Byte) (pois : Bool) : m.Alike (m.write pa bs pois) := ofCache (m.write_cache pa bs pois)
theorem evict (m : Memory) (key : Nat) : m.Alike (m.evict key) := ofCache (m.evict_cache key)
theorem cleanRange (m : Memory) (pa n : Nat) : m.Alike (m.cleanRange pa n) := ofCache (m.cleanRange_cache pa n)
theorem invalidate (m : Memory) (line : Nat) : m.Alike (m.invalidate line) := ofCache (m.invalidate_cache line)
theorem walk (m : Memory) (asid va : Nat) (write : Bool) : m.Alike (m.walk asid va write).2 := ofCache (m.walk_cache asid va write)

theorem translate (m : Memory) (port asid va : Nat) (write : Bool) (pick : Nat) : m.Alike (m.translate port asid va write pick).2 := by
  have hw := walk m asid va write
  unfold Memory.translate
  dsimp only
  split
  · exact refl m
  split
  next e => exact hw.snd e
  next e => exact (hw.snd e).trans notes

theorem banksToRow (m : Memory) (k row c off : Nat) : m.Alike (m.banksToRow k row c off) := by
  unfold Memory.banksToRow
  refine trans (foldl _ (fun n x => ?_) _) (foldl _ (fun n j => invalidate n _) _)
  exact notes

theorem rowToBanks (m : Memory) (k row c off : Nat) : m.Alike (m.rowToBanks k row c off) := by
  unfold Memory.rowToBanks
  exact foldl _ (fun n x => notes) _

theorem tileSet (m : Memory) (b c base row col v : Nat) : m.Alike (tileSet m b c base row col v) := notes

theorem swapRows (m : Memory) (b1 c1 base1 r1 b2 c2 base2 r2 : Nat) : m.Alike (swapRows m b1 c1 base1 r1 b2 c2 base2 r2) :=
  foldl _ (fun n _ => (tileSet n ..).trans (tileSet ..)) _

theorem updateRow (m : Memory) (b c base row k rcp : Nat) (pivot : Nat → Nat) (umax : Nat) :
    m.Alike (updateRow m b c base row k rcp pivot umax).1 :=
  foldl_keeps (fun x : Memory × Nat => m.Alike x.1) _ (fun _ _ h => h.trans (tileSet ..)) _ _ (tileSet ..)

theorem mergeClock (m : Memory) (q : Nat) (v : List Nat) : m.Alike (m.mergeClock q v) := foldl _ (fun n j => by split; exacts [notes, refl n]) _

theorem mergeBytes (m : Memory) (q : Nat) (k : PlaceKind) (a n : Nat) : m.Alike (m.mergeBytes q k a n) :=
  foldl _ (fun n j => by split; exacts [mergeClock .., refl n]) _

theorem stampWrite (m : Memory) (q : Nat) (k : PlaceKind) (a n : Nat) : m.Alike (m.stampWrite q k a n) := by
  unfold Memory.stampWrite
  split
  exacts [refl m, notes]

theorem settleBank (m : Memory) (n c : Nat) : m.Alike (m.settleBank n c) := by
  unfold Memory.settleBank
  dsimp only
  split
  exacts [notes, refl m]

theorem fillAt (m : Memory) (line w : Nat) : m.Alike (m.fillAt line w) := ofCache (m.fillAt_cache line w)

theorem flushPergola (m : Memory) : m.Alike m.flushPergola := foldl _ (fun n (x : Nat × Nat × Bool) => evict n x.1) _

end Memory.Alike

/-- The settings of `s` satisfy `P`. -/
structure State.Meets (s : State) (P : Settings → Prop) : Prop where
  holds : P s.settings

/-- So do those of the next state, if there is one. -/
def MeetsOut (P : Settings → Prop) (o : Out) : Prop := ∀ t, o = .next t → t.Meets P
/-- So do those of the state, if there is one. -/
def MeetsOpt (P : Settings → Prop) (o : Option State) : Prop := ∀ t, o = some t → t.Meets P

variable {P : Settings → Prop} {s t : State}

namespace State.Meets

theorem same (s : State) : s.Meets (· = s.settings) := ⟨rfl⟩
theorem next (h : s.Meets P) : MeetsOut P (.next s) := fun _ e => by cases e; exact h
theorem just (h : s.Meets P) : MeetsOpt P (some s) := fun _ e => by cases e; exact h

/-- The state that an answer brings with it. -/
theorem snd {α : Type} {p : α × State} {x : α} (h : p.2.Meets P) (e : p = (x, t)) : t.Meets P := by rw [e] at h; exact h

theorem ite {c : Prop} [Decidable c] (hs : s.Meets P) (ht : t.Meets P) : (if c then s else t).Meets P := by
  split
  exacts [hs, ht]

theorem foldl {α : Type} {f : State → α → State} {l : List α} (h : s.Meets P) (hf : ∀ s x, s.Meets P → (f s x).Meets P) :
    (l.foldl f s).Meets P := foldl_keeps (fun s => s.Meets P) f (fun s x h => hf s x h) l s h

/-- An update of what has no range. -/
theorem within (h : s.Meets Settings.Within) (e : t.settings.ranged = s.settings.ranged := by rfl) : t.Meets Settings.Within :=
  ⟨h.holds.of_ranged e⟩

/-- An update of what is no setting. -/
theorem upd (h : s.Meets P) (e : t.settings = s.settings := by rfl) : t.Meets P := ⟨e ▸ h.holds⟩

theorem setFab (h : s.Meets P) {f} : (s.setFab f).Meets P := h.upd
theorem setTsk (h : s.Meets P) {x} : (s.setTsk x).Meets P := h.upd
theorem setMem (h : s.Meets P) {m} (e : s.mem.Alike m := by exact .notes) : (s.setMem m).Meets P := by
  obtain ⟨h1, h2, h3, h4⟩ : m.trRoot = s.mem.trRoot ∧ m.bankMap = s.mem.bankMap ∧ m.bankTherm = s.mem.bankTherm ∧
      m.liveMap = s.mem.liveMap := by
    simpa only [Memory.settings, Prod.mk.injEq] using e.settings
  refine h.upd ?_
  simp only [State.settings, State.setMem, h1, h2, h3, h4]
/-- The memory may come from another state with the same settings. -/
theorem setMemOf (h : s.Meets P) (e : t.Meets (· = s.settings)) {m} (hm : s.mem.Alike m := by exact .notes) : (t.setMem m).Meets P := by
  have ht : t.Meets P := h.upd e.holds
  have hmem : t.mem.settings = s.mem.settings := congrArg (fun c => (c.spaces.2.2, c.banks)) e.holds
  exact ht.setMem ⟨hm.settings.trans hmem.symm⟩
theorem setEng (h : s.Meets P) {x} (e : x.collGrp = s.eng.collGrp := by rfl) : (s.setEng x).Meets P := h.upd (by
  simp only [State.settings, State.setEng, e])
theorem setErr (h : s.Meets P) {x} (e : (s.setErr x).settings = s.settings := by rfl) : (s.setErr x).Meets P := h.upd e
/-- The error records may come from another state with the same settings. -/
theorem setErrOf (h : s.Meets P) (e : t.Meets (· = s.settings)) : (s.setErr t.err).Meets P := by
  have hd : t.err.delay = s.err.delay := congrArg Settings.delay e.holds
  have hw : t.err.win = s.err.win := congrArg Settings.win e.holds
  have ht : t.err.thresh = s.err.thresh := congrArg Settings.thresh e.holds
  exact h.setErr (by simp only [State.settings, State.setErr, hd, hw, ht])
theorem setLnk (h : s.Meets P) {x} (e : (s.setLnk x).settings = s.settings := by rfl) : (s.setLnk x).Meets P := h.upd e
theorem setQue (h : s.Meets P) {x} (e : (s.setQue x).settings = s.settings := by rfl) : (s.setQue x).Meets P := h.upd e
theorem setSch (h : s.Meets P) {x} (e : (s.setSch x).settings = s.settings := by rfl) : (s.setSch x).Meets P := h.upd e

end State.Meets

namespace MeetsOut
theorem ite {o o' : Out} {c : Prop} [Decidable c] (h : MeetsOut P o) (h' : MeetsOut P o') : MeetsOut P (if c then o else o') := by
  split
  exacts [h, h']
theorem fault {f : Fault} : MeetsOut P (.fault f) := fun _ e => nomatch e
theorem refused {r : Refusal} : MeetsOut P (.refused r) := fun _ e => nomatch e
end MeetsOut

namespace MeetsOpt
theorem get {o : Option State} (h : MeetsOpt P o) (e : o = some t) : t.Meets P := h t e
theorem map {o : Option State} {f : State → State} (h : MeetsOpt P o) (hf : ∀ s, s.Meets P → (f s).Meets P) : MeetsOpt P (o.map f) := by
  cases o with
  | none => exact fun _ e => nomatch e
  | some s => exact (hf s (h s rfl)).just
theorem mapOf {α : Type} {o : Option α} {f : α → State} (hf : ∀ x, (f x).Meets P) : MeetsOpt P (o.map f) := by
  cases o with
  | none => exact fun _ e => nomatch e
  | some x => exact (hf x).just
theorem bind {o : Option State} {f : State → Option State} (h : MeetsOpt P o) (hf : ∀ s, s.Meets P → MeetsOpt P (f s)) :
    MeetsOpt P (o.bind f) := by
  cases o with
  | none => exact fun _ e => nomatch e
  | some s => exact hf s (h s rfl)
theorem getD {o : Option State} (h : MeetsOpt P o) (hs : s.Meets P) : (o.getD s).Meets P := by
  cases o with
  | none => exact hs
  | some t => exact h t rfl
theorem ite {o o' : Option State} {c : Prop} [Decidable c] (h : MeetsOpt P o) (h' : MeetsOpt P o') : MeetsOpt P (if c then o else o') := by
  split
  exacts [h, h']
theorem none : MeetsOpt P none := fun _ e => nomatch e
end MeetsOpt

end Sys2Proof.Machine
end

