-- ==== Sys2Proof/Proofs/SettingsOps.lean ====
section
-- Some hundred short proofs: checked as tasks of their own, all at once, they outgrow the memory that check.sh allows.
set_option Elab.async false
/-! PROOFS. What leaves the settings alone: firing a node, and the accesses of the memory nodes and of their events. -/
namespace Sys2Proof.Machine
variable {P : Settings → Prop} {s t : State}

theorem State.Meets.use (h : s.Meets P) {k} : (s.use k).Meets P := h.upd
theorem State.Meets.noteTurn (h : s.Meets P) {space x n rank} : (s.noteTurn space x n rank).Meets P := h.upd
theorem State.Meets.free (h : s.Meets P) : (s.free).2.Meets P := h.upd
theorem State.Meets.choose (h : s.Meets P) {n} : (s.choose n).2.Meets P := h.upd
theorem State.Meets.emitOut (h : s.Meets P) {o} : (s.emitOut o).Meets P := h.upd
theorem State.Meets.setCtx (h : s.Meets P) {e c v} : (s.setCtx e c v).Meets P := h.setFab
theorem State.Meets.setNodeSt (h : s.Meets P) {aid e n v} : (s.setNodeSt aid e n v).Meets P := h.setFab
theorem State.Meets.setTask (h : s.Meets P) {tid x} : (s.setTask tid x).Meets P := h.setTsk
theorem State.Meets.setThread (h : s.Meets P) {n x} : (s.setThread n x).Meets P := h.setTsk
theorem State.Meets.setAct (h : s.Meets P) {x x1} : (s.setAct x x1).Meets P := h.setTsk

theorem State.Meets.updTask (h : s.Meets P) {tid f} : (s.updTask tid f).Meets P := by
  unfold State.updTask
  split
  exacts [h.setTask, h]

theorem State.Meets.updThread (h : s.Meets P) {n f} : (s.updThread n f).Meets P := by
  unfold State.updThread
  split
  exacts [h.setThread, h]

theorem State.Meets.updAct (h : s.Meets P) {x f} : (s.updAct x f).Meets P := by
  unfold State.updAct
  split
  exacts [h.setAct, h]

theorem State.Meets.noteFired (h : s.Meets P) {i nonNull} : (s.noteFired i nonNull).Meets P := h.updAct
theorem State.Meets.trapLost (h : s.Meets P) {n} : (s.trapLost n).Meets P := h.setErr

theorem State.Meets.raiseAt (h : s.Meets P) {aid elem node x f} : (s.raiseAt aid elem node x f).Meets P := by
  unfold State.raiseAt
  split
  · exact h
  split
  · exact h
  split
  · exact h.setTsk
  split
  exacts [h.setAct, .ite h (.ite h.setAct.trapLost h.trapLost)]

theorem State.Meets.raise (h : s.Meets P) {i x} : (s.raise i x).Meets P := .ite h h.raiseAt
theorem State.Meets.nextSeq (h : s.Meets P) {src} : (s.nextSeq src).2.Meets P := h.setFab
theorem State.Meets.launchTok (h : s.Meets P) {e target src b iter c n port bid} :
    (s.launchTok e target src b iter c n port bid).Meets P :=
  h.nextSeq.setFab

theorem State.Meets.sendDest (h : s.Meets P) {e c n i d aid b} : (s.sendDest e c n i d aid b).Meets P := by
  unfold State.sendDest
  split
  · exact h
  split
  exacts [h, h.launchTok]

theorem State.Meets.sendBeat (h : s.Meets P) {e c n r aid b} : (s.sendBeat e c n r aid b).Meets P :=
  .ite (.sendDest (.ite h.sendDest h)) (.ite h.sendDest h)
theorem State.Meets.reply (h : s.Meets P) {i r q} : (s.reply i r q).Meets P := h.sendBeat

theorem State.Meets.openBindings (h : s.Meets P) : s.openBindings.Meets P := by
  unfold State.openBindings
  refine h.foldl fun _ _ h1 => ?_
  split
  exacts [h1, .ite h1 (.ite h1.setEng h1.setEng.reply)]

theorem State.Meets.setFlags (h : s.Meets P) {e c fl} : (s.setFlags e c fl).Meets P := h.setCtx
theorem State.Meets.clearFlags (h : s.Meets P) {e c v} : (s.clearFlags e c v).Meets P := h.setCtx
theorem State.Meets.seed (h : s.Meets P) {e c v} : (s.seed e c v).Meets P := h.setCtx
theorem State.Meets.keepSeed (h : s.Meets P) {e c} : (s.keepSeed e c).Meets P := h.setFab
theorem State.Meets.emit (h : s.Meets P) {i r lat bs} : (s.emit i r lat bs).Meets P := .ite h h.setCtx
theorem State.Meets.fireVal (h : s.Meets P) {i opc r v x fl} : (s.fireVal i opc r v x fl).Meets P := h.setFlags.emit
theorem State.Meets.fireNull (h : s.Meets P) {i opc r} : (s.fireNull i opc r).Meets P := h.emit

theorem State.Meets.fire (h : s.Meets P) {opc r body} (hbody : ∀ x0 x1 x2 x3 s, s.Meets P → (body x0 x1 x2 x3 s).Meets P) :
    MeetsOut P (s.fire opc r body) := by
  unfold State.fire
  split
  · exact h.next
  split
  · exact h.upd.fireNull.next
  split
  exacts [h.upd.raise.next, (hbody _ _ _ _ _ h.upd).next]

theorem State.Meets.fireOwn (h : s.Meets P) {opc r body} (hbody : ∀ x0 s, s.Meets P → (body x0 s).Meets P) :
    MeetsOut P (s.fireOwn opc r body) := by
  unfold State.fireOwn
  split
  exacts [h.next, .ite h.upd.fireNull.next ((hbody _ _ h.upd).next)]

theorem State.Meets.fireLanes (h : s.Meets P) {opc r w g} : MeetsOut P (s.fireLanes opc r w g) := h.fire fun _ _ _ _ _ h => h.fireVal
theorem State.Meets.fireRound (h : s.Meets P) {opc r w g} : MeetsOut P (s.fireRound opc r w g) := h.fire fun _ _ _ _ _ h => h.fireVal
theorem State.Meets.divider (h : s.Meets P) {e} : (s.divider e).Meets P := h.setFab

theorem State.Meets.account (h : s.Meets P) {i k nonNull} : (s.account i k nonNull).2.Meets P := by
  unfold State.account
  dsimp only
  split
  · exact h
  split
  exacts [h.setAct.raise, h.setAct]

theorem State.Meets.fireArith (h : s.Meets P) {opc r g} : MeetsOut P (s.fireArith opc r g) := h.fireRound
theorem State.Meets.fireDivFloat (h : s.Meets P) {opc r g} : MeetsOut P (s.fireDivFloat opc r g) :=
  h.fire fun _ _ _ _ _ h => h.divider.fireVal
theorem State.Meets.fireApprox (h : s.Meets P) {opc r pick g} : MeetsOut P (s.fireApprox opc r pick g) := h.fireRound
theorem State.Meets.fireConv (h : s.Meets P) {opc r i x f rm sat sr xs} : (s.fireConv opc r i x f rm sat sr xs).Meets P :=
  .fireVal (.ite h.setCtx h)

theorem State.Meets.translate (h : s.Meets P) {port asid va write} : (s.translate port asid va write).2.Meets P := by
  unfold State.translate
  dsimp only
  split
  next e => exact h.choose.setMem (.snd (.translate ..) e)
  next e => exact h.choose.setMem (.snd (.translate ..) e)

theorem State.Meets.locateGlobal (h : s.Meets P) {port asid va size write} : (s.locateGlobal port asid va size write).2.Meets P := by
  unfold State.locateGlobal
  split
  · exact h
  split
  next e => exact h.translate.snd e
  next e =>
    split
    exacts [h.translate.snd e, h.translate.snd e]

theorem State.Meets.locate (h : s.Meets P) {i space addr size write} : (s.locate i space addr size write).2.Meets P := by
  unfold State.locate
  split
  · exact h
  split
  · exact h.locateGlobal
  split
  exacts [h, h]

theorem State.Meets.l1DropTask (h : s.Meets P) {tid} : (s.l1DropTask tid).Meets P := h.setMem
theorem State.Meets.l1DropLine (h : s.Meets P) {tid line keep} : (s.l1DropLine tid line keep).Meets P := h.setMem

theorem State.Meets.l1Store (h : s.Meets P) {tid c pa bs} : (s.l1Store tid c pa bs).Meets P := by
  unfold State.l1Store
  dsimp only
  split
  exacts [h.l1DropLine, h.l1DropLine.setMem]

theorem State.Meets.l1Fill (h : s.Meets P) {tid c line bs} : (s.l1Fill tid c line bs).Meets P := by
  unfold State.l1Fill
  dsimp only
  split
  · exact h.l1DropLine
  split
  exacts [h.l1DropLine, h.l1DropLine.setMem]

theorem State.Meets.l1Hit (h : s.Meets P) {tid c pa n} : (s.l1Hit tid c pa n).2.Meets P := by
  unfold State.l1Hit
  dsimp only
  split
  exacts [h, h.setMem]

theorem State.Meets.readAt (h : s.Meets P) {k x n} : (s.readAt k x n).2.2.Meets P := by
  unfold State.readAt
  split
  exacts [h.setMem (.read ..), h, h, h]

theorem State.Meets.noteWrite (h : s.Meets P) {k x n} : (s.noteWrite k x n).Meets P := h.setMem.setSch

theorem State.Meets.storeAt (h : s.Meets P) {k x bs pois} : (s.storeAt k x bs pois).Meets P := by
  refine .noteWrite ?_
  cases k with
  | global => exact h.setMem ((Memory.Alike.write ..).trans .notes)
  | buffer =>
    exact h.setMem (.notes)
  | scratch =>
    exact h.setMem (.notes)
  | domain => exact h

theorem State.Meets.writeAt (h : s.Meets P) {k x bs pois} : (s.writeAt k x bs pois).Meets P := h.storeAt.noteTurn
theorem State.Meets.badRing (h : s.Meets P) : s.badRing.Meets P := h.setQue

theorem State.Meets.sendIrq (h : s.Meets P) {irq} : (s.sendIrq irq).Meets P := by
  unfold State.sendIrq
  split
  exacts [h.emitOut, h]

theorem State.Meets.sendReq (h : s.Meets P) {k pa size data acc asid tag marks irq} : (s.sendReq k pa size data acc asid tag marks irq).Meets P :=
  .ite h.upd h.upd.emitOut
theorem State.Meets.dropFetches (h : s.Meets P) {who} : (s.dropFetches who).Meets P := h.setLnk

theorem State.Meets.readWindow (h : s.Meets P) {who asid pa n} : (s.readWindow who asid pa n).2.Meets P := by
  unfold State.readWindow
  split
  · exact h
  split
  · split
    exacts [h, h]
  split
  exacts [h.upd, h.sendReq.setLnk]

theorem State.Meets.answerFetch (h : s.Meets P) {req bs src} : (s.answerFetch req bs src).Meets P := h.setLnk
theorem State.Meets.holdOp (h : s.Meets P) {i ins} : (s.holdOp i ins).2.Meets P := h.upd
theorem State.Meets.dropHeld (h : s.Meets P) {id} : (s.dropHeld id).Meets P := h.setFab.dropFetches
theorem State.Meets.setHeldOp (h : s.Meets P) {x} : (s.setHeldOp x).Meets P := h.setFab
theorem State.Meets.snapEarlier (h : s.Meets P) {x k x1 bs p} : (s.snapEarlier x k x1 bs p).Meets P := h.setMem.setFab

theorem State.Meets.readPlace (h : s.Meets P) {who asid pl n} : (s.readPlace who asid pl n).2.Meets P := by
  unfold State.readPlace
  split
  · exact h.readWindow
  split
  exacts [h, h.readAt]

theorem State.Meets.joinWork (h : s.Meets P) {x reads} : (s.joinWork x reads).Meets P :=
  h.foldl fun _ _ h => .ite (State.Meets.setMem (.ite h.l1DropTask h) (.foldl _ (fun m (b, n) => .cleanRange m b n) _))
    (.ite h.l1DropTask h)

theorem State.Meets.endAccess (h : s.Meets P) {x p} : (s.endAccess x p).Meets P := h.joinWork.setMem.reply
theorem State.Meets.setAcc (h : s.Meets P) {x} : (s.setAcc x).Meets P := h.setMem

theorem State.Meets.fireMem (h : s.Meets P) {opc r body} (hbody : ∀ x0 x1 x2 x3 s, s.Meets P → (body x0 x1 x2 x3 s).Meets P) :
    MeetsOut P (s.fireMem opc r body) := by
  unfold State.fireMem
  dsimp only
  split
  · exact h.next
  split
  · split
    · exact h.upd.account.next
    split
    · exact h.upd.account.fireNull.next
    split
    exacts [h.upd.account.raise.next, (hbody _ _ _ _ _ h.upd.account).next]
  split
  · exact h.upd.noteFired.next
  split
  · exact h.upd.noteFired.fireNull.next
  split
  exacts [h.upd.noteFired.raise.next, (hbody _ _ _ _ _ h.upd.noteFired).next]

theorem State.Meets.notePerformed (h : s.Meets P) {x p} : (s.notePerformed x p).Meets P := h.updAct
theorem State.Meets.freeLatch (h : s.Meets P) {i} : (s.freeLatch i).Meets P := .ite h.setCtx h

theorem State.Meets.freeWaiter (h : s.Meets P) {port} : (s.freeWaiter port).Meets P := by
  unfold State.freeWaiter
  split
  exacts [h, h.setAcc.freeLatch]

theorem State.Meets.noteAcquired (h : s.Meets P) {i} : (s.noteAcquired i).Meets P := h.updThread

theorem State.Meets.acquire (h : s.Meets P) {x} : (s.acquire x).Meets P := by
  unfold State.acquire
  split
  · exact h
  · refine .noteAcquired (.setMem ?_ (.foldl _ (fun m _ => ?_) _))
    · split
      exacts [h.l1DropTask, h]
    · dsimp only
      split
      exacts [.mergeBytes .., .refl m]

theorem State.Meets.release (h : s.Meets P) {x} : (s.release x).Meets P := .ite h.l1DropTask h
theorem State.Meets.setDone (h : s.Meets P) {x} : (s.setDone x).Meets P := .ite h.setAcc.acquire h.setAcc
theorem State.Meets.dropWatch (h : s.Meets P) {id} : (s.dropWatch id).Meets P := h.setMem
theorem State.Meets.endWatch (h : s.Meets P) {w v pois} : (s.endWatch w v pois).Meets P :=
  .reply (.ite h.dropWatch.acquire.joinWork.l1DropLine h.dropWatch.acquire.joinWork)
theorem State.Meets.setWatch (h : s.Meets P) {w} : (s.setWatch w).Meets P := h.setMem

theorem State.Meets.wake (h : s.Meets P) {x v} : (s.wake x v).Meets P := by
  unfold State.wake
  split
  exacts [h, h.setMem]

theorem State.Meets.elemWrite (h : s.Meets P) {i k x bs pois} : (s.elemWrite i k x bs pois).Meets P :=
  .setMem (.ite h.storeAt.noteTurn.l1Store h.storeAt.noteTurn) (.stampWrite ..)

theorem State.Meets.performStore (h : s.Meets P) {x mask} : (s.performStore x mask).Meets P := by
  unfold State.performStore
  dsimp only
  split
  · split
    · refine (h.release.foldl fun _ _ h1 => ?_).setAcc.notePerformed.freeLatch.freeWaiter.wake
      split
      exacts [h1, h1.elemWrite]
    · refine (h.release.foldl fun _ _ h1 => ?_).setAcc.notePerformed.freeLatch.freeWaiter
      split
      exacts [h1, h1.elemWrite]
  · refine (h.release.foldl fun _ _ h1 => ?_).setAcc
    split
    exacts [h1, h1.elemWrite]

theorem State.Meets.performAtomic (h : s.Meets P) {x} : (s.performAtomic x).Meets P := by
  unfold State.performAtomic
  split
  · exact h
  · refine .freeWaiter (.freeLatch (.notePerformed (.setAcc ?_)))
    split
    · refine .l1DropLine ?_
      split
      exacts [h.release.readAt.acquire.elemWrite, h.release.readAt.acquire]
    split
    exacts [h.release.readAt.acquire.elemWrite, h.release.readAt.acquire]

theorem State.Meets.isolated (h : s.Meets P) {x} : (s.isolated x).Meets P := .freeWaiter (.freeLatch (.setDone (.ite h.notePerformed h)))
theorem State.Meets.readHome (h : s.Meets P) {x k x1 n} : (s.readHome x k x1 n).2.2.Meets P :=
  .snapEarlier (.ite h.readAt.l1DropLine h.readAt)
theorem State.Meets.performRemote (h : s.Meets P) {x k mask x1 n data} : (s.performRemote x k mask x1 n data).Meets P :=
  .ite (.ite h.elemWrite.setDone h.readHome.setDone) (.ite h.setDone (.ite h.free.badRing.setDone (.ite h.upd.isolated h.sendReq)))

theorem State.Meets.performDomain (h : s.Meets P) {x} : (s.performDomain x).Meets P := by
  unfold State.performDomain
  split
  · split
    exacts [h.release.setAcc, h.release.setAcc.performRemote]
  · refine h.release.setAcc.foldl fun _ _ h1 => ?_
    split
    exacts [h1, h1.performRemote]

theorem State.Meets.capTrap (h : s.Meets P) {x} : (s.capTrap x).Meets P := h.setMem.freeLatch.freeWaiter.raise

theorem State.Meets.perform (h : s.Meets P) {x mask} : (s.perform x mask).Meets P := by
  unfold State.perform
  split
  · exact h
  split
  · exact h.capTrap
  split
  · exact h.performDomain
  split
  · exact h.performAtomic
  split
  exacts [h.performStore, h]

theorem State.Meets.addAccess (h : s.Meets P) {i ins k parts data data2 write attr} : (s.addAccess i ins k parts data data2 write attr).Meets P :=
  .ite (.perform (.ite h.upd.setMem.setCtx h.upd.setMem)) (.ite h.upd.setMem.setCtx h.upd.setMem)
theorem State.Meets.replyPerformed (h : s.Meets P) {i ins r p} : (s.replyPerformed i ins r p).Meets P := h.joinWork.reply

theorem State.Meets.startMem (h : s.Meets P) {i ins r x n data data2 write} : (s.startMem i ins r x n data data2 write).Meets P := by
  unfold State.startMem
  split
  · exact h.replyPerformed
  split
  · exact h.holdOp
  split
  next e1 => exact (h.locate.snd e1).raise
  next e1 => exact (h.locate.snd e1).addAccess

theorem State.Meets.startLoad (h : s.Meets P) {i ins r n} : (State.startLoad i ins r n s).Meets P := h.startMem
theorem State.Meets.startStore (h : s.Meets P) {i ins r n} : (State.startStore i ins r n s).Meets P := h.startMem
theorem State.Meets.startAmo (h : s.Meets P) {i ins r} : (State.startAmo i ins r s).Meets P := h.startMem
theorem State.Meets.fireAmo (h : s.Meets P) {opc ins r} : MeetsOut P (s.fireAmo opc ins r) := h.fireMem fun _ _ _ _ _ h => h.startAmo

theorem State.Meets.performPref (h : s.Meets P) {x r} : (State.performPref x r s).Meets P := by
  unfold State.performPref
  refine .ite h.dropHeld (.ite h ?_)
  split
  next e =>
    have ht := h.locateGlobal.snd e
    have hr := fun p => (ht.dropHeld (id := x.id)).readAt (k := .global) (x := p) (n := 64)
    exact .ite ht (.ite (.ite ht.dropHeld ht.dropHeld.sendReq) (.ite ht (.ite (hr _).l1Fill (hr _))))
  next e => exact (h.locateGlobal.snd e).dropHeld

theorem execPref_meets (h : s.Meets P) {r} : MeetsOut P (execPref r s) := by
  unfold execPref
  split
  exacts [h.next, .ite h.upd.noteFired.next h.upd.noteFired.holdOp.performPref.next]

theorem State.Meets.locateAll (h : s.Meets P) {i asid va0 attr write x} : (s.locateAll i asid va0 attr write x).2.Meets P := by
  induction x generalizing s with
  | nil => exact h
  | cons y r ih =>
    unfold State.locateAll
    split
    next e => exact h.locateGlobal.snd e
    next e =>
      have he := h.locateGlobal.snd e
      split
      · exact h.locateGlobal.snd e
      split
      next e1 => exact (ih he).snd e1
      next e1 => exact (ih he).snd e1

theorem State.Meets.startLdb (h : s.Meets P) {i r} : (State.startLdb i r s).Meets P := by
  unfold State.startLdb
  dsimp only
  split
  · exact h.raise
  split
  · exact h.holdOp
  split
  next e => exact (h.locateGlobal.snd e).raise
  next e =>
    have he := h.locateGlobal.snd e
    split
    · exact he.raise
    split
    · exact he.raise
    split
    · exact he.holdOp
    split
    next e2 => exact (he.locateAll.snd e2).raise
    next e2 => exact (he.locateAll.snd e2).addAccess

theorem State.Meets.startStb (h : s.Meets P) {i r} : (State.startStb i r s).Meets P := by
  unfold State.startStb
  dsimp only
  split
  · exact h.replyPerformed
  split
  · exact h.raise
  split
  · exact h.holdOp
  split
  next e1 => exact (h.locateGlobal.snd e1).raise
  next e1 =>
    have he1 := h.locateGlobal.snd e1
    split
    · exact he1.raise
    split
    · exact he1.raise
    split
    · exact he1.holdOp
    split
    next e3 => exact (he1.locateAll.snd e3).raise
    next e3 => exact (he1.locateAll.snd e3).addAccess

theorem execJoinf_meets (h : s.Meets P) {r} : MeetsOut P (execJoinf r s) := by
  unfold execJoinf
  dsimp only
  split
  · exact h.next
  split
  · exact h.upd.fireNull.next
  split
  exacts [h.upd.raise.next, h.upd.emit.next]

theorem State.Meets.startWaita (h : s.Meets P) {i r} : (State.startWaita i r s).Meets P := by
  unfold State.startWaita
  dsimp only
  split
  · exact h.holdOp
  split
  next e => exact (h.locate.snd e).raise
  next e => exact (h.locate.snd e).upd.setMem

theorem State.Meets.startHeldMem (h : s.Meets P) {x} : (State.startHeldMem x s).Meets P := by
  unfold State.startHeldMem
  split
  exacts [h.dropHeld.startLoad, h.dropHeld.startLoad, h.dropHeld.startStore, h.dropHeld.startStore, h.dropHeld.startStore,
      h.dropHeld.startLdb, h.dropHeld.startStb, h.dropHeld.startAmo, h.dropHeld.startAmo, h.dropHeld.startAmo, h.dropHeld.startAmo,
      h.dropHeld.startAmo, h.dropHeld.startAmo, h.dropHeld.startAmo, h.dropHeld.startAmo, h.dropHeld.startAmo, h.dropHeld.startWaita,
      h.performPref, h]

theorem State.Meets.bindPart (h : s.Meets P) {x p n} : (s.bindPart x p n).2.2.Meets P := by
  unfold State.bindPart
  dsimp only
  generalize (_ && _ : Bool) = l1
  split
  · exact h.readHome
  · refine .snapEarlier ?_
    split
    next e => exact h.l1Hit.snd e
    next e =>
      have hr := ((h.l1Hit.snd e).readAt (k := .global) (x := p) (n := n)).readAt (k := .global) (x := p / 64 * 64) (n := 64)
      split
      exacts [hr, hr.l1Fill]

theorem State.Meets.bindParts (h : s.Meets P) {x mask} : (s.bindParts x mask).2.Meets P := by
  unfold State.bindParts
  refine foldl_keeps (fun x : Access × State => x.2.Meets P) _ (fun x _ h => ?_) _ _ h
  dsimp only
  split
  exacts [h, h.bindPart]

theorem State.Meets.finishAccess (h : s.Meets P) {x p} : (s.finishAccess x p).Meets P := .endAccess (.ite h.setFlags h)

theorem State.Meets.complete (h : s.Meets P) {id mask ecc} : (s.complete id mask ecc).Meets P := by
  unfold State.complete
  split
  exacts [h, .ite (.ite h h.finishAccess) (.ite h (.ite h.perform (.ite h (.ite h.capTrap (.ite h.bindParts.setAcc (.ite
      h.bindParts.setAcc.acquire.finishAccess h.bindParts.setAcc.acquire))))))]

theorem execMemoryAccessComplete_meets (h : s.Meets P) : MeetsOut P (execMemoryAccessComplete s) := by
  unfold execMemoryAccessComplete
  split
  exacts [h.upd.complete.next, h.next]

theorem State.Meets.sawWord (h : s.Meets P) {w v pois} : (s.sawWord w v pois).Meets P := .ite h.endWatch h.setWatch
theorem State.Meets.askPeer (h : s.Meets P) {w} : (s.askPeer w).Meets P := .ite h.sawWord (.ite h.setLnk.dropWatch.reply h.setWatch.sendReq)

theorem State.Meets.readWatch (h : s.Meets P) {w} : (s.readWatch w).Meets P := by
  unfold State.readWatch
  dsimp only
  split
  · exact h.setWatch
  split
  next e => exact (h.locate.snd e).dropWatch.raise
  next e => exact .ite ((h.locate.snd e).setWatch) (.ite ((h.locate.snd e).askPeer) ((h.locate.snd e).readAt.sawWord))

theorem State.Meets.watchTurn (h : s.Meets P) {w} : (s.watchTurn w).Meets P := by
  unfold State.watchTurn
  dsimp only
  split
  · split
    exacts [h.readWatch, h]
  split
  exacts [.endWatch (.ite h.readWatch h), .ite (.endWatch (.ite h.readWatch h)) (.ite h.readWatch h)]

theorem State.Meets.watchesEnd (h : s.Meets P) : s.watchesEnd.Meets P := h.foldl fun _ _ h => h.watchTurn

theorem execWaitaReread_meets (h : s.Meets P) : MeetsOut P (execWaitaReread s) := by
  unfold execWaitaReread
  dsimp only
  split
  · split
    · exact h.upd.next
    split
    exacts [.ite h.upd.setWatch.next h.upd.next, .ite h.upd.setWatch.next h.upd.next]
  · exact h.next

theorem execWaitaTimeout_meets (h : s.Meets P) : MeetsOut P (execWaitaTimeout s) := by
  unfold execWaitaTimeout
  dsimp only
  split
  · split
    exacts [h.upd.next, .ite h.upd.next h.upd.setWatch.next]
  · exact h.next

theorem execGhLineFill_meets (h : s.Meets P) : MeetsOut P (execGhLineFill s) := by
  unfold execGhLineFill
  dsimp only
  split
  · split
    · exact h.upd.next
    split
    · exact h.upd.next
    · exact State.Meets.next (.setMem (s := { s with inp := none }) h.upd (.fillAt ..))
  · exact h.next

theorem execGhWaypartWrite_meets (h : s.Meets P) : MeetsOut P (execGhWaypartWrite s) := by
  unfold execGhWaypartWrite
  split
  exacts [.ite h.upd.next h.upd.setMem.next, h.next]

theorem execGhDrainEnd_meets (h : s.Meets P) : MeetsOut P (execGhDrainEnd s) := by
  unfold execGhDrainEnd
  split
  exacts [.ite h.upd.next (h.upd.setMem ((Memory.Alike.foldl _ (fun m k => .evict m k) _).trans .notes)).next, h.next]

theorem execGhZeroEnd_meets (h : s.Meets P) : MeetsOut P (execGhZeroEnd s) := by
  unfold execGhZeroEnd
  split
  exacts [.ite h.upd.next (State.Meets.next (.setMem (s := { s with inp := none }) h.upd (.notes))), h.next]

theorem State.Meets.invalidate (h : s.Meets P) {p asids} : (s.invalidate p asids).Meets P := h.setMem

theorem execTrInvAll_meets (h : s.Meets P) : MeetsOut P (execTrInvAll s) := by
  unfold execTrInvAll
  split
  exacts [h.upd.invalidate.next, h.next]

theorem execTrInvAsid_meets (h : s.Meets P) : MeetsOut P (execTrInvAsid s) := by
  unfold execTrInvAsid
  split
  exacts [h.upd.invalidate.next, h.next]

theorem execTrInvPage_meets (h : s.Meets P) : MeetsOut P (execTrInvPage s) := by
  unfold execTrInvPage
  split
  exacts [h.upd.invalidate.next, h.next]

theorem execPageWalk_meets (h : s.Meets P) : MeetsOut P (execPageWalk s) := by
  unfold execPageWalk
  split
  exacts [h.upd.translate.next, h.next]

theorem execVectorClockAnnounce_meets (h : s.Meets P) : MeetsOut P (execVectorClockAnnounce s) := by
  unfold execVectorClockAnnounce
  split
  exacts [h.upd.setMem.next, h.next]

theorem execPgRemapStart_meets (h : s.Meets Settings.Within) : MeetsOut Settings.Within (execPgRemapStart s) := by
  unfold execPgRemapStart
  split
  exacts [.ite h.upd.next (State.Meets.next h.within), h.next]

theorem execPgRemapDone_meets (h : s.Meets Settings.Within) : MeetsOut Settings.Within (execPgRemapDone s) := by
  unfold execPgRemapDone
  split
  exacts [.ite h.upd.next (State.Meets.next h.within), h.next]

theorem execBusTesterBeat_meets (h : s.Meets P) : MeetsOut P (execBusTesterBeat s) := by
  unfold execBusTesterBeat
  split
  exacts [.ite h.upd.next (.ite h.upd.setMem.next h.upd.setMem.next), h.next]

end Sys2Proof.Machine
end

