-- ==== Sys2Proof/Proofs/SettingsFabric.lean ====
section
-- Some hundred short proofs: checked as tasks of their own, all at once, they outgrow the memory that check.sh allows.
set_option Elab.async false
/-! PROOFS. What leaves the settings alone: the fabric, activations, tasks and blocks. -/
namespace Sys2Proof.Machine
variable {P : Settings → Prop} {s t : State}

theorem State.Meets.countElem (h : s.Meets P) {e uncorr} : (s.countElem e uncorr).Meets P := h.setFab
theorem State.Meets.logVote (h : s.Meets P) {aid e n l} : (s.logVote aid e n l).Meets P := h.setErr

theorem State.Meets.ringBytes (h : s.Meets P) {base size wp x} : (s.ringBytes base size wp x).Meets P := by
  induction x generalizing s wp with
  | nil => exact h
  | cons y r ih =>
    unfold State.ringBytes
    exact ih h.writeAt

theorem State.Meets.tapDrop (h : s.Meets P) {i} : (s.tapDrop i).Meets P := h.upd
theorem State.Meets.tapCopy (h : s.Meets P) {i x replay} : (s.tapCopy i x replay).Meets P := .ite h.tapDrop h.upd

theorem State.Meets.tapWrite (h : s.Meets P) : s.tapWrite.Meets P := by
  unfold State.tapWrite
  split
  · exact h
  · refine .ite h.upd.tapDrop (State.Meets.upd (State.Meets.ringBytes ?_) rfl)
    exact h.upd

theorem State.Meets.drainTaps (h : s.Meets P) : s.drainTaps.Meets P := by
  unfold State.drainTaps
  dsimp only
  split
  exacts [h, h.choose.foldl fun _ _ h => .ite h.tapWrite h]

theorem State.Meets.taps (h : s.Meets P) {tid e x replay} : (s.taps tid e x replay).Meets P :=
  .ite h (h.foldl fun _ _ h => .ite h.tapCopy h)

theorem State.Meets.releaseNode (h : s.Meets P) {aid e c n} : (s.releaseNode aid e c n).Meets P := by
  unfold State.releaseNode
  dsimp only
  split
  · split
    · exact h
    split
    · split
      exacts [.ite h h.setNodeSt.setCtx, .ite h h.setNodeSt.setCtx]
    split
    exacts [h, h.setNodeSt.setCtx]
  · exact h

theorem State.Meets.releaseReads (h : s.Meets P) {thread} : (s.releaseReads thread).Meets P := by
  unfold State.releaseReads
  dsimp only
  split
  · exact h
  · refine h.foldl fun _ _ h1 => ?_
    split
    · exact h1
    · refine h1.foldl fun _ _ h2 => ?_
      split
      exacts [h2.releaseNode, h2]

theorem State.Meets.seqTake (h : s.Meets P) {x} : (s.seqTake x).Meets P := .ite h h.setFab
theorem State.Meets.remember (h : s.Meets P) {e aid x before} : (s.remember e aid x before).Meets P := h.setFab
theorem State.Meets.rememberTok (h : s.Meets P) {e x} : (s.rememberTok e x).Meets P := h.remember.setFab
theorem State.Meets.setTree (h : s.Meets P) {k x} : (s.setTree k x).Meets P := h.setEng
theorem State.Meets.pairWait (h : s.Meets P) {tid e aid r x} : (s.pairWait tid e aid r x).Meets P := h.setTree

theorem State.Meets.takePartial (h : s.Meets P) {tid e dir r x late} : MeetsOpt P (s.takePartial tid e dir r x late) := by
  unfold State.takePartial
  dsimp only
  split
  · exact .none
  split
  exacts [h.setTree.just, .ite h.setTree.just h.setTree.just]

theorem State.Meets.matchTok (h : s.Meets P) {tid aid e opc r x replay} : MeetsOpt P (s.matchTok tid aid e opc r x replay) := by
  unfold State.matchTok
  split
  · exact h.just
  extract_lets c n k cfg st id y live go
  have hgo (st') : (go s st').Meets P :=
    have hr := .ite h h.remember
    .taps (.releaseNode (.setNodeSt (.setFab (.ite hr hr.pairWait))))
  split
  · refine .ite (hgo _).just (.just ?_)
    refine .foldl (.foldl (.foldl (hgo _) fun _ _ h => h.logVote) fun s _ h => ?_) fun _ _ h => h.raiseAt
    refine .ite h ?_
    dsimp only
    split
    exacts [h.countElem, h]
  split
  exacts [.none, h.raiseAt.just, h.raiseAt.just, (hgo _).just]

theorem State.Meets.recordChannel (h : s.Meets P) {tid cut e x} : (s.recordChannel tid cut e x).Meets P := h.updTask

theorem State.Meets.acceptLive (h : s.Meets P) {tid e dir x replay} : MeetsOpt P (s.acceptLive tid e dir x replay) := by
  unfold State.acceptLive
  dsimp only
  split
  · exact .none
  split
  · exact h.just
  split
  · exact h.takePartial.map fun _ h => h.seqTake.rememberTok.taps
  split
  · exact h.seqTake.just
  split
  exacts [h.seqTake.raiseAt.just, h.matchTok.map fun _ h => h.seqTake]

theorem State.Meets.acceptTok (h : s.Meets P) {e dir x replay} : MeetsOpt P (s.acceptTok e dir x replay) := by
  unfold State.acceptTok
  split
  · exact h.seqTake.just
  split
  · exact .none
  split
  exacts [.ite h.just (.ite h.seqTake.recordChannel.just h.acceptLive), h.acceptLive]

theorem State.Meets.toPort (h : s.Meets P) {e x} : (s.toPort e x).Meets P := by
  unfold State.toPort
  dsimp only
  split
  · exact h.seqTake
  split
  · exact h
  split
  · exact h.seqTake
  split
  exacts [h.seqTake, .ite h.seqTake h.seqTake.setEng]

theorem State.Meets.acceptChan (h : s.Meets P) {e l} : MeetsOpt P (s.acceptChan e l) := by
  induction l with
  | nil => exact .none
  | cons x r ih =>
    unfold State.acceptChan
    dsimp only
    split
    next t e =>
      refine State.Meets.just (.use ?_)
      split at e
      · split at e
        · cases e
          exact h.setFab.toPort
        · cases e
      · exact h.setFab.acceptTok.get e
    next => exact ih

theorem State.Meets.newRound (h : s.Meets P) {e} : (s.newRound e).Meets P := h.foldl fun _ _ h => .ite h h.setCtx

theorem State.Meets.takeFiring (h : s.Meets P) {e c f} : (s.takeFiring e c f).Meets P := by
  unfold State.takeFiring
  dsimp only
  split
  · split
    exacts [h.setCtx, h.setCtx.setNodeSt]
  · exact h.setCtx

theorem State.Meets.enter (h : s.Meets P) {e dir target x} : (s.enter e dir target x).Meets P :=
  .ite (.toPort (.ite h h.use.setFab)) (.ite (.setFab (.ite h h.use.setFab)) (.setFab (.ite h h.use.setFab)))

theorem State.Meets.hopFlit (h : s.Meets P) {k} : (s.hopFlit k).Meets P := by
  unfold State.hopFlit
  split
  exacts [h, .ite h.setFab.enter h]

theorem State.Meets.sendCopy (h : s.Meets P) {e c l b i early} : (s.sendCopy e c l b i early).Meets P := by
  unfold State.sendCopy
  dsimp only
  split
  · exact h
  split
  · exact h
  split
  · exact h.nextSeq.enter
  split
  exacts [h.nextSeq.enter.setFab, h.nextSeq.enter]

theorem State.Meets.hopLatch (h : s.Meets P) {e c} : (s.hopLatch e c).Meets P := by
  unfold State.hopLatch
  split
  · exact h
  split
  · exact h
  extract_lets ts turns shared go far s1 left beats x
  have hsent : s1.Meets P := h.foldl fun _ _ h => h.sendCopy
  exact .ite h (.ite hsent.setCtx hsent.setCtx)

theorem execRouterHop_meets (h : s.Meets P) : MeetsOut P (execRouterHop s) := by
  unfold execRouterHop
  split
  exacts [h.upd.hopLatch.next, h.upd.hopFlit.next, h.next]

theorem State.Meets.placeVa (h : s.Meets P) {asid va size write} : (s.placeVa asid va size write).2.Meets P := by
  unfold State.placeVa
  split
  · exact h
  split
  next e => exact h.setMem (.snd (.walk ..) e)
  next e => exact h.setMem (.snd (.walk ..) e)

theorem State.Meets.readVa (h : s.Meets P) {who asid va n} : (s.readVa who asid va n).2.Meets P := by
  unfold State.readVa
  split
  · exact h
  split
  next e => exact h.placeVa.snd e
  next e => exact (h.placeVa.snd e).readPlace

theorem State.Meets.writeVa (h : s.Meets P) {asid va bs pois acc q} : (s.writeVa asid va bs pois acc q).2.Meets P := by
  unfold State.writeVa
  split
  next e => exact h.placeVa.snd e
  next e =>
    have he := h.placeVa.snd e
    split
    · split
      · exact he.badRing
      split
      exacts [he.upd, he.sendReq]
    split
    exacts [he.writeAt.setMem (.stampWrite ..), he.writeAt]

theorem State.Meets.addVa (h : s.Meets P) {asid va v irq} : (s.addVa asid va v irq).Meets P := by
  unfold State.addVa
  dsimp only
  split
  next e => exact h.placeVa.snd e
  next e => exact .ite (.ite ((h.placeVa.snd e).badRing) (.ite ((h.placeVa.snd e).upd) ((h.placeVa.snd e).sendReq))) ((h.placeVa.snd
      e).readAt.writeAt.sendIrq)

theorem State.Meets.loadPiece (h : s.Meets P) {x va n} : (s.loadPiece x va n).2.Meets P := by
  unfold State.loadPiece
  split
  · exact h
  split
  next e => exact h.locateGlobal.snd e
  next e =>
    have he := h.locateGlobal.snd e
    split
    next e1 => exact .snapEarlier (.ite ((he.readPlace.snd e1).l1DropLine) (he.readPlace.snd
        e1))
    · exact he.readPlace

theorem State.Meets.loadPieces (h : s.Meets P) {x x1} : (s.loadPieces x x1).2.Meets P := by
  induction x1 generalizing s with
  | nil => exact h
  | cons y r ih =>
    unfold State.loadPieces
    split
    next e => exact h.loadPiece.snd e
    next e =>
      have he := h.loadPiece.snd e
      split
      next e1 => exact (ih he).snd e1
      next e1 => exact (ih he).snd e1
    next e =>
      have he := h.loadPiece.snd e
      split
      next e1 => exact (ih he).snd e1
      next e1 => exact (ih he).snd e1

theorem State.Meets.loadOwn (h : s.Meets P) {x va n} : (s.loadOwn x va n).2.Meets P := h.loadPieces
theorem State.Meets.desc (h : s.Meets P) {q off n} : (s.desc q off n).2.Meets P := h.readAt (k := .global)
theorem State.Meets.setDesc (h : s.Meets P) {q off n v} : (s.setDesc q off n v).Meets P := h.writeAt

theorem State.Meets.irqOf (h : s.Meets P) {l} : (s.irqOf l).2.Meets P := by
  unfold State.irqOf
  split
  next q _ =>
    split
    exacts [h.desc (q := q) (off := 8) (n := 4), h]
  next => exact h

theorem State.Meets.complete59 (h : s.Meets P) {l v} : (s.complete59 l v).Meets P := .ite h.irqOf.sendIrq h.irqOf.addVa
theorem State.Meets.reportTo (h : s.Meets P) {x bs} : (s.reportTo x bs).Meets P := .ite h.writeAt (.ite h (.ite h.setLnk h.sendReq))

theorem State.Meets.report (h : s.Meets P) {l event code region} : (s.report l event code region).Meets P := by
  unfold State.report
  split
  · exact h
  split
  exacts [h.reportTo, h.emitOut, h]

theorem State.Meets.queueErr (h : s.Meets P) {q code} : (s.queueErr q code).Meets P := h.setDesc.setQue

theorem State.Meets.launchFails (h : s.Meets P) {l code} : (s.launchFails l code).Meets P := by
  unfold State.launchFails
  split
  exacts [h.complete59.queueErr, h.complete59.report]

theorem State.Meets.purgeFabric (h : s.Meets P) {tid} : (s.purgeFabric tid).Meets P := h.setFab
theorem State.Meets.purgeMemory (h : s.Meets P) {tid} : (s.purgeMemory tid).Meets P := h.setMem
theorem State.Meets.purgeEngines (h : s.Meets P) {tid} : (s.purgeEngines tid).Meets P := h.setEng
theorem State.Meets.purgeStreams (h : s.Meets P) {tid} : (s.purgeStreams tid).Meets P := h.setLnk
theorem State.Meets.purgeFetches (h : s.Meets P) {tid} : (s.purgeFetches tid).Meets P := h.purgeStreams.setLnk
theorem State.Meets.purge (h : s.Meets P) {tid} : (s.purge tid).Meets P := h.purgeFetches.purgeEngines.purgeMemory.purgeFabric.setSch.setTsk
theorem State.Meets.hold (h : s.Meets P) {l placeable image} : (s.hold l placeable image).Meets P := h.setSch
theorem State.Meets.holdChild (h : s.Meets P) {thread l} : (s.holdChild thread l).Meets P := h.setSch
theorem State.Meets.armReport (h : s.Meets P) {plane f} : (s.armReport plane f).Meets P := by
  unfold State.armReport
  dsimp only
  split <;> exact h.setErr
theorem State.Meets.removePlane (h : s.Meets P) {num} : (s.removePlane num).Meets P := h.setQue.setErr
theorem State.Meets.logMissing (h : s.Meets P) {aid} : (s.logMissing aid).Meets P :=
  h.foldl fun _ _ h1 => h1.foldl fun _ _ h2 => h2.foldl fun _ _ h => h.logVote
theorem State.Meets.freeAct (h : s.Meets P) {aid} : (s.freeAct aid).Meets P := h.logMissing.setFab.setTsk

theorem State.Meets.reap (h : s.Meets P) {tid} : (s.reap tid).Meets P := by
  unfold State.reap
  refine h.foldl fun _ _ h1 => ?_
  split
  exacts [.ite h1.freeAct h1, h1]

theorem State.Meets.allocFrames (h : s.Meets P) {x c aid ns} : MeetsOpt P (s.allocFrames x c aid ns) :=
  foldl_keeps (fun o => MeetsOpt P o) _ (fun _ _ ho => ho.bind fun _ h => .ite .none (.mapOf fun _ => h.setFab)) _ _ h.just

theorem State.Meets.undoEffects (h : s.Meets P) {aid x} : (s.undoEffects aid x).Meets P := by
  unfold State.undoEffects
  refine (h.foldl fun _ _ h1 => ?_).foldl fun _ _ h1 => ?_
  · split
    · exact h1.updTask
    · exact h1
  split
  · exact h1.updTask
  · exact h1

theorem State.Meets.discardAct (h : s.Meets P) {aid} : (s.discardAct aid).Meets P := by
  unfold State.discardAct
  split
  exacts [h, h.undoEffects.setFab.setMem.setEng.setAct.openBindings]

theorem State.Meets.quiesce (h : s.Meets P) {tid} : (s.quiesce tid).Meets P := by
  unfold State.quiesce
  refine (h.foldl fun _ _ h1 => ?_).updTask.setFab.purgeStreams.purgeEngines.setTsk
  split
  exacts [.ite h1 h1.discardAct, h1]

theorem State.Meets.finishTask (h : s.Meets P) {tid x v event} : (s.finishTask tid x v event).Meets P :=
  .ite ((h.foldl fun _ _ h => h.logMissing).report.purge.hold) ((h.foldl fun _ _ h => h.logMissing).complete59.report.purge)

theorem State.Meets.endTask (h : s.Meets P) {tid v event} : (s.endTask tid v event).Meets P := by
  unfold State.endTask
  split
  exacts [h, .ite h (.ite h.quiesce.updTask h.quiesce.finishTask)]

theorem State.Meets.killTask (h : s.Meets P) {tid} : (s.killTask tid).Meets P := by
  unfold State.killTask
  split
  exacts [h, h.endTask]

theorem State.Meets.injectAt (h : s.Meets P) {xs} : (s.injectAt xs).Meets P := h.setFab

theorem State.Meets.startIn (h : s.Meets P) {thread th x pl c plane block} : (s.startIn thread th x pl c plane block).Meets P := by
  unfold State.startIn
  dsimp only
  split
  · exact h
  split
  · exact h
  next e1 => exact (h.allocFrames.get e1).setTsk.setThread.updTask.injectAt

theorem State.Meets.badBranch (h : s.Meets P) {tid plane block} : (s.badBranch tid plane block).Meets P := h.armReport.removePlane.endTask

theorem State.Meets.startAct (h : s.Meets P) {thread} : (s.startAct thread).Meets P := by
  unfold State.startAct
  dsimp only
  split
  · exact h
  split
  · split
    · exact h.reap
    split
    · exact h.reap
    split
    · split
      exacts [h.reap.badBranch, .ite h.reap.startIn h.reap]
    split
    exacts [h.reap.badBranch, .ite h.reap.badBranch h.reap]
  · exact h.reap

theorem execActivationStart_meets (h : s.Meets P) : MeetsOut P (execActivationStart s) := by
  unfold execActivationStart
  split
  exacts [h.upd.startAct.next, h.next]

theorem State.Meets.countArrival (h : s.Meets P) {x} : (s.countArrival x).Meets P := by
  unfold State.countArrival
  split
  · exact h
  split
  exacts [h, .ite h (.ite (.ite h h.setTask) h.dropHeld.reply)]

theorem State.Meets.barriers (h : s.Meets P) {tid g x} : (State.barriers tid g x s).Meets P := by
  induction x generalizing s with
  | zero => exact h
  | succ n ih =>
    unfold State.barriers
    dsimp only
    split
    · exact h
    split
    · exact h
    · refine ih ((h.setTask.foldl fun _ _ h1 => ?_).foldl (fun _ _ h1 => ?_))
      · split
        · exact h1.dropHeld.reply
        · exact h1
      · exact h1.countArrival

theorem State.Meets.barrier (h : s.Meets P) {tid g} : (s.barrier tid g).Meets P := h.barriers
theorem State.Meets.arrive (h : s.Meets P) {x r} : (s.arrive x r).Meets P := h.countArrival.barrier
theorem State.Meets.joinGroup (h : s.Meets P) {tid thread g} : (s.joinGroup tid thread g).Meets P := h.updTask
theorem State.Meets.leaveGroup (h : s.Meets P) {tid thread g} : (s.leaveGroup tid thread g).Meets P := h.updTask
theorem State.Meets.leavesEnd (h : s.Meets P) : s.leavesEnd.Meets P := h.foldl fun _ _ h1 => h1.foldl fun _ _ h => h.updTask.barrier

theorem State.Meets.deliverTrap (h : s.Meets P) {thread} : (s.deliverTrap thread).Meets P := by
  unfold State.deliverTrap
  split
  · exact h
  split
  exacts [.ite h (.ite h.setThread h.setThread.setTsk), h]

theorem State.Meets.takeTrap (h : s.Meets P) {thread th aid x r} : (s.takeTrap thread th aid x r).Meets P := by
  unfold State.takeTrap
  dsimp only
  split
  exacts [.ite ((h.foldl fun _ _ h => h.discardAct).trapLost.setThread) ((h.foldl fun _ _ h =>
      h.discardAct).trapLost.setThread.deliverTrap), (h.foldl fun _ _ h => h.discardAct).trapLost]

theorem State.Meets.trapTake (h : s.Meets P) {thread} : (s.trapTake thread).Meets P := by
  unfold State.trapTake
  split
  · exact h
  split
  · exact h
  split
  · exact h
  split
  · exact h
  split
  · exact h
  split
  exacts [.ite h h.takeTrap, h.takeTrap]

theorem execTrapTake_meets (h : s.Meets P) : MeetsOut P (execTrapTake s) := by
  unfold execTrapTake
  split
  exacts [h.upd.trapTake.next, h.next]

theorem State.Meets.lodgeService (h : s.Meets P) {c} : (s.lodgeService c).Meets P := by
  unfold State.lodgeService
  dsimp only
  split
  · exact h
  split
  · exact h.setTsk.killTask
  split
  · split
    · exact h.setTsk.endTask
    split
    · split
      exacts [h.setTsk.endTask, h.setTsk.setThread]
    split
    exacts [h.setTsk.setThread, h.setTsk]
  · exact h.setTsk.endTask

theorem execLodgeTrapService_meets (h : s.Meets P) : MeetsOut P (execLodgeTrapService s) := by
  unfold execLodgeTrapService
  split
  exacts [h.upd.lodgeService.next, h.next]

theorem State.Meets.exitThread (h : s.Meets P) {tid thread} : (s.exitThread tid thread).Meets P :=
  (h.foldl fun _ _ h => h.leaveGroup).setTsk.updTask

theorem State.Meets.commitEffect (h : s.Meets P) {tid thread e} : (s.commitEffect tid thread e).Meets P := by
  unfold State.commitEffect
  split
  exacts [h.setThread, .ite h.joinGroup h, h.leaveGroup, h.updThread, h.updTask, .ite (.ite h h.addVa) h.holdChild]

theorem State.Meets.arriveOldest (h : s.Meets P) {thread} : (s.arriveOldest thread).Meets P := by
  unfold State.arriveOldest
  split
  · exact h
  · refine h.foldl fun _ _ h1 => ?_
    split
    exacts [h1.arrive, h1]

theorem State.Meets.commitAct (h : s.Meets P) {thread aid th x} : (s.commitAct thread aid th x).Meets P := by
  unfold State.commitAct
  split
  exacts [(h.setThread.setAct.foldl fun _ _ h => h.commitEffect).releaseReads.arriveOldest.exitThread, (h.setThread.setAct.foldl fun
      _ _ h => h.commitEffect).releaseReads.arriveOldest.updThread, .ite ((h.setThread.setAct.foldl fun _ _ h =>
      h.commitEffect).releaseReads.arriveOldest.endTask) ((h.setThread.setAct.foldl fun _ _ h =>
      h.commitEffect).releaseReads.arriveOldest.endTask), (h.setThread.setAct.foldl fun _ _ h =>
      h.commitEffect).releaseReads.arriveOldest]

theorem execActivationCommit_meets (h : s.Meets P) : MeetsOut P (execActivationCommit s) := by
  unfold execActivationCommit
  dsimp only
  split
  · split
    · exact h.upd.next
    split
    · exact h.upd.next
    split
    exacts [h.upd.next, .ite h.upd.commitAct.next h.upd.next]
  · exact h.next

theorem execYieldExpiry_meets (h : s.Meets P) : MeetsOut P (execYieldExpiry s) := by
  unfold execYieldExpiry
  dsimp only
  split
  · split
    · exact h.upd.next
    split
    exacts [h.upd.next, .ite h.upd.setThread.next h.upd.next]
  · exact h.next

theorem State.Meets.fireAcct (h : s.Meets P) {opc r onNull body} (honNull : ∀ x0 s, s.Meets P → (onNull x0 s).Meets P)
    (hbody : ∀ x0 x1 s, s.Meets P → (body x0 x1 s).Meets P) :
    MeetsOut P (s.fireAcct opc r onNull body) := by
  unfold State.fireAcct
  dsimp only
  split
  · exact h.next
  split
  · split
    · exact h.upd.account.next
    split
    · exact (honNull _ _ h.upd.account).next
    split
    exacts [h.upd.account.raise.next, (hbody _ _ _ h.upd.account).next]
  split
  · exact h.upd.next
  split
  · exact (honNull _ _ h.upd).next
  split
  exacts [h.upd.raise.next, (hbody _ _ _ h.upd).next]

theorem State.Meets.nameBranch (h : s.Meets P) {i b stack} : (s.nameBranch i b stack).Meets P := by
  unfold State.nameBranch
  split
  · exact h
  split
  exacts [h.setAct.updThread, h.setAct]

theorem State.Meets.goBlock (h : s.Meets P) {i addr stack} : (s.goBlock i addr stack).Meets P := h.nameBranch
theorem skip_meets (h : s.Meets P) {x} : (skip x s).Meets P := h

theorem execRet_meets (h : s.Meets P) {r} : MeetsOut P (execRet r s) := by
  unfold execRet
  refine h.fireAcct (fun _ _ h1 => ?_) fun _ _ _ h1 => ?_
  · exact skip_meets h1
  split
  · exact h1.nameBranch
  · exact h1.goBlock

theorem State.Meets.slotKnown (h : s.Meets P) {i} : (s.slotKnown i).Meets P := h.releaseReads

theorem State.Meets.addEffect (h : s.Meets P) {i e} : (s.addEffect i e).Meets P := by
  unfold State.addEffect
  split
  exacts [h, .ite h.commitEffect h.setAct]

theorem execSpawn_meets (h : s.Meets P) {r} : MeetsOut P (execSpawn r s) := by
  unfold execSpawn
  refine h.fire fun _ _ _ _ _ h1 => ?_
  split
  · exact h1
  split
  exacts [h1.fireVal, h1.setTask.addEffect.fireVal]

theorem State.Meets.startRead (h : s.Meets P) {i ins perform} (hperform : ∀ x0 s, s.Meets P → (perform x0 s).Meets P) :
    (s.startRead i ins perform).Meets P :=
  
  .ite (hperform _ _ h.holdOp) h.holdOp

theorem State.Meets.launchChild (h : s.Meets P) {i r tid x bytes pois} : (s.launchChild i r tid x bytes pois).Meets P := by
  unfold State.launchChild
  dsimp only
  split
  exacts [h.fireVal, .ite h.fireVal h.addEffect.fireVal]

theorem State.Meets.performLaunch (h : s.Meets P) {x r} : (State.performLaunch x r s).Meets P := by
  unfold State.performLaunch
  dsimp only
  split
  · exact h.dropHeld
  split
  next e1 => exact h.loadOwn.snd e1
  next e1 => exact (h.loadOwn.snd e1).dropHeld.raise
  next e1 =>
    have he1 := h.loadOwn.snd e1
    split
    next e2 => exact he1.loadOwn.snd e2
    next e2 => exact (he1.loadOwn.snd e2).dropHeld.raise
    next e2 => exact (he1.loadOwn.snd e2).dropHeld.launchChild

end Sys2Proof.Machine
end

