-- ==== Sys2Proof/Proofs/SettingsEngines.lean ====
section
-- Some hundred short proofs: checked as tasks of their own, all at once, they outgrow the memory that check.sh allows.
set_option Elab.async false
/-! PROOFS. What leaves the settings alone: system registers, streams, copies, arrays, rows, queues, factors and trees; and the registers of
the package, whose writes keep the ranges. -/
namespace Sys2Proof.Machine
variable {P : Settings → Prop} {s t : State}

theorem State.Meets.readClear (h : s.Meets Settings.Within) {o lo hi} : (s.readClear o lo hi).Meets Settings.Within :=
  .ite h.setMem (.ite h.setMem (.ite h.within (.ite h.setLnk (.ite h.setQue (.ite h.setSch (.ite h.setErr (.ite h.setErr (.ite h.setErr
    (.ite h.setErr (.ite h.upd h))))))))))

theorem State.Meets.markVoteRead (h : s.Meets P) {o} : (s.markVoteRead o).Meets P := .ite h.setErr h

theorem State.Meets.readReg (h : s.Meets Settings.Within) {x o size} : (s.readReg x o size).Meets Settings.Within :=
  .ite h (.ite h.emitOut (.ite h.emitOut (.ite h.emitOut.markVoteRead h.emitOut.markVoteRead.readClear)))

theorem State.Meets.setQuantum (h : s.Meets Settings.Within) {q : BitVec 24} (hq : 100 ≤ q.toNat ∧ q.toNat ≤ 10000000) :
    (s.setSch { s.sch with quantum :=
  q }).Meets Settings.Within := ⟨{ h.holds with quantum := hq }⟩
theorem State.Meets.setDelay (h : s.Meets Settings.Within) {d : BitVec 20} (hd : 256 ≤ d.toNat) : (s.setErr { s.err with delay :=
  d }).Meets Settings.Within := ⟨{ h.holds with delay := hd }⟩
theorem State.Meets.setWindow (h : s.Meets Settings.Within) {w : W32} (hw : 65536 ≤ w.toNat) : (s.setErr { s.err with win :=
  w }).Meets Settings.Within := ⟨{ h.holds with window := hw }⟩
theorem State.Meets.setTmo (h : s.Meets Settings.Within) {x : BitVec 16} (hx : 10 ≤ x.toNat ∧ x.toNat ≤ 50000) : (s.setLnk { s.lnk with tmo :=
  x }).Meets Settings.Within := ⟨{ h.holds with tmo := hx }⟩

/-- A value held to a range that its width can say lies in it. -/
theorem toNat_bv_clamp {w lo hi : Nat} (hl : lo ≤ hi) (hw : hi < 2 ^ w) (x : Nat) :
    lo ≤ (bv w (min hi (max lo x))).toNat ∧ (bv w (min hi (max lo x))).toNat ≤ hi := by
  have h : min hi (max lo x) < 2 ^ w := by omega
  rw [bv, BitVec.toNat_ofNat, Nat.mod_eq_of_lt h]
  omega

theorem field_lt (x hi lo : Nat) : field x hi lo < 2 ^ (hi + 1 - lo) := Nat.mod_lt _ (Nat.two_pow_pos _)

theorem State.Meets.putLow (h : s.Meets Settings.Within) {o w x} : (s.putLow o w x).Meets Settings.Within := by
  have hwin : max 65536 (field w 31 0) < 2 ^ 32 := by have := field_lt w 31 0; omega
  refine .ite h.within (.ite h.within (.ite h.within (.ite h.within (.ite h.within (.ite h.within (.ite h.within (.ite h.within
    (.ite h.within (.ite (h.setQuantum (toNat_bv_clamp (by decide) (by decide) _)) (.ite h.within (.ite h.within (.ite h.within
      (.ite (h.setDelay (toNat_bv_clamp (by decide) (by decide) _).1) (.ite (h.setWindow ?_) (.ite h.within (.ite h.within
        (.ite h.within (.ite h.within h))))))))))))))))))
  rw [bv, BitVec.toNat_ofNat, Nat.mod_eq_of_lt hwin]
  omega

theorem State.Meets.putLink (h : s.Meets Settings.Within) {o w} : (s.putLink o w).Meets Settings.Within :=
  .ite (h.setTmo (toNat_bv_clamp (by decide) (by decide) _)) (.ite h.within h)
theorem State.Meets.putTap (h : s.Meets Settings.Within) {o w} : (s.putTap o w).Meets Settings.Within :=
  .ite ⟨{ h.holds with tap := fun he => ((Bool.and_eq_true ..).mp he).2 }⟩ (.ite h.within (.ite h.within (.ite h.within (.ite h.within h))))
theorem State.Meets.putHost (h : s.Meets Settings.Within) {o w x} : (s.putHost o w x).Meets Settings.Within :=
  .ite h.within (.ite h.within (.ite h.within h))

theorem State.Meets.writeReg (h : s.Meets Settings.Within) {x off size val} : (s.writeReg x off size val).Meets Settings.Within := by
  unfold State.writeReg
  refine .ite h (.ite h.emitOut (.ite h ?_))
  dsimp only
  split
  · exact h
  · cases x with
    | lodge => exact h.putLow.putLink.putTap.putHost
    | rack => exact .ite h.putHost h.putLink
    | host => exact .putHost (.ite h.putTap h)

theorem execRegisterWrite_meets (h : s.Meets Settings.Within) : MeetsOut Settings.Within (execRegisterWrite s) := by
  unfold execRegisterWrite
  split
  exacts [h.upd.writeReg.next, h.next]

theorem execBar0UnsupportedAccess_meets (h : s.Meets P) : MeetsOut P (execBar0UnsupportedAccess s) := by
  unfold execBar0UnsupportedAccess
  split
  exacts [.ite h.upd.next h.upd.emitOut.next, h.next]

theorem execArmRptClear_meets (h : s.Meets P) : MeetsOut P (execArmRptClear s) := by
  unfold execArmRptClear
  split
  exacts [.ite h.upd.next h.upd.setErr.next, h.next]

theorem State.Meets.doneHeld (h : s.Meets P) {x} : (s.doneHeld x).Meets P := h.dropHeld.freeLatch

theorem State.Meets.startHeld (h : s.Meets P) {i ins perform} (hperform : ∀ x0 s, s.Meets P → (perform x0 s).Meets P) :
    (s.startHeld i ins perform).Meets P := by
  unfold State.startHeld
  dsimp only
  split
  exacts [.ite ((hperform _ _ h.holdOp).setCtx) (hperform _ _ h.holdOp), .ite h.holdOp.setCtx h.holdOp]

theorem State.Meets.fireHeld (h : s.Meets P) {opc ins r perform} (hperform : ∀ x0 s, s.Meets P → (perform x0 s).Meets P) :
    MeetsOut P (s.fireHeld opc ins r perform) :=
  
  h.fire fun _ _ _ _ _ h1 => h1.startHeld fun _ _ h => hperform _ _ h

theorem State.Meets.setSysReg (h : s.Meets P) {i n v} : MeetsOpt P (s.setSysReg i n v) := by
  unfold State.setSysReg
  split
  exacts [.none, .ite h.updTask.just (.ite h.updTask.just (.ite h.updThread.just (.ite h.clearFlags.just (.ite h.seed.keepSeed.just (.ite
      h.setEng.just (.ite h.setEng.just (.ite h.setEng.just (.ite h.just (.ite h.setEng.just (.ite h.updTask.just (.ite h.updTask.just
      (.ite h.updTask.just .none))))))))))))]

theorem execSysrd_meets (h : s.Meets P) {r} : MeetsOut P (execSysrd r s) := by
  unfold execSysrd
  dsimp only
  refine h.fire fun _ _ _ _ _ h1 => ?_
  split
  exacts [.fireVal (.ite h1.markVoteRead h1), h1.raise]

theorem State.Meets.taskWaypart (h : s.Meets P) {i n v} : MeetsOpt P (s.taskWaypart i n v) := .ite .none (.ite h.setMem.just .none)

theorem State.Meets.performSyswr (h : s.Meets P) {x r} : (State.performSyswr x r s).Meets P := by
  unfold State.performSyswr
  dsimp only
  split
  next e =>
    split at e
    · exact (h.doneHeld.taskWaypart.get e).reply
    · exact (h.doneHeld.setSysReg.get e).reply
  next => exact h.doneHeld.raise

theorem State.Meets.raiseAccess (h : s.Meets P) {i} : (s.raiseAccess i).Meets P := h.free.raise
theorem State.Meets.performTapset (h : s.Meets P) {x r} : (State.performTapset x r s).Meets P :=
  .ite h.doneHeld.raiseAccess h.doneHeld.upd.reply
theorem State.Meets.setBinding (h : s.Meets P) {b} : (s.setBinding b).Meets P := h.setEng

theorem State.Meets.dropBinding (h : s.Meets P) {b} : (s.dropBinding b).Meets P := by
  unfold State.dropBinding
  split
  exacts [h.setLnk.setEng.openBindings.reply, h.setLnk.setEng.openBindings]

theorem State.Meets.engineRead (h : s.Meets P) {who port asid va n} : (s.engineRead who port asid va n).2.Meets P := by
  unfold State.engineRead
  split
  · exact h
  split
  next e => exact h.locateGlobal.snd e
  next e => exact (h.locateGlobal.snd e).readPlace

theorem State.Meets.granuleVa (h : s.Meets P) {port asid b n} : (s.granuleVa port asid b n).2.Meets P := by
  unfold State.granuleVa
  split
  · exact h
  split
  next e => exact h.engineRead.snd e
  next e => exact h.engineRead.snd e
  next e => exact h.engineRead.snd e

theorem State.Meets.granulePlace (h : s.Meets P) {port asid x b n} : (s.granulePlace port asid x b n).2.Meets P := by
  unfold State.granulePlace
  split
  next e => exact h.granuleVa.snd e
  next e => exact h.granuleVa.snd e
  next e =>
    have he := h.granuleVa.snd e
    split
    · exact h.granuleVa.snd e
    split
    next e1 => exact he.locateGlobal.snd e1
    next e1 =>
      split
      exacts [he.locateGlobal.snd e1, he.locateGlobal.snd e1]

theorem State.Meets.readScales (h : s.Meets P) {who port asid x n x1} : (s.readScales who port asid x n x1).2.Meets P := by
  induction x1 generalizing s with
  | nil => exact h
  | cons y r ih =>
    unfold State.readScales
    split
    · exact h
    split
    next e => exact h.locateGlobal.snd e
    next e =>
      have he := h.locateGlobal.snd e
      split
      · exact h.locateGlobal.snd e
      split
      next e1 => exact he.engineRead.snd e1
      next e1 =>
        have he1 := he.engineRead.snd e1
        split
        next e2 => exact (ih he1).snd e2
        next e2 => exact (ih he1).snd e2
      next e1 =>
        have he1 := he.engineRead.snd e1
        split
        next e2 => exact (ih he1).snd e2
        next e2 => exact (ih he1).snd e2

theorem State.Meets.granuleScales (h : s.Meets P) {port asid x b n} : (s.granuleScales port asid x b n).2.Meets P := by
  unfold State.granuleScales
  split
  · exact h
  split
  next e => exact h.granuleVa.snd e
  next e => exact h.granuleVa.snd e
  next e => exact (h.granuleVa.snd e).readScales

theorem State.Meets.granuleFault (h : s.Meets P) {x x1 b n} : (s.granuleFault x x1 b n).2.Meets P := by
  unfold State.granuleFault
  dsimp only
  split
  next e => exact h.granulePlace.snd e
  next e => exact h.granulePlace.snd e
  next e =>
    have he := h.granulePlace.snd e
    split
    next e1 => exact he.granuleScales.snd e1
    next e1 => exact he.granuleScales.snd e1

theorem State.Meets.probeWrite (h : s.Meets P) {i va n} : (s.probeWrite i va n).2.Meets P := by
  unfold State.probeWrite
  split
  next e => exact h.locateGlobal.snd e
  next e => exact h.locateGlobal.snd e

theorem State.Meets.bind (h : s.Meets P) {i r x d} : (s.bind i r x d).Meets P := by
  unfold State.bind
  dsimp only
  split
  · exact h
  split
  · exact h
  next =>
    split
    · exact h.raise
    split
    next e2 =>
      refine .raise (.snd ?_ e2)
      split
      exacts [h, h.probeWrite]
    next e2 =>
      refine .openBindings (.setEng (.upd (.snd ?_ e2)))
      split
      exacts [h, h.probeWrite]

theorem State.Meets.performSbind (h : s.Meets P) {x r} : (State.performSbind x r s).Meets P := by
  unfold State.performSbind
  dsimp only
  split
  next e => exact h.loadOwn.snd e
  next e => exact (h.loadOwn.snd e).dropHeld.raise
  next e =>
    have he := h.loadOwn.snd e
    split
    exacts [he.dropHeld.raise, .ite he (he.dropHeld.bind)]

theorem State.Meets.endBinding (h : s.Meets P) {b} : (s.endBinding b).Meets P := by
  unfold State.endBinding
  dsimp only
  split
  · split
    · exact h
    split
    exacts [.ite h.writeVa.setBinding.dropBinding h.writeVa.setBinding, .ite h.setBinding.dropBinding h.setBinding]
  split
  · exact h
  split
  exacts [.ite h.writeVa.setBinding.dropBinding h.writeVa.setBinding, .ite h.setBinding.dropBinding h.setBinding]

theorem State.Meets.endId (h : s.Meets P) {bid} : (s.endId bid).Meets P := by
  unfold State.endId
  split
  exacts [h.endBinding, h]

theorem execSpos_meets (h : s.Meets P) {r} : MeetsOut P (execSpos r s) := by
  unfold execSpos
  refine h.fire fun _ _ _ _ _ h1 => ?_
  split
  exacts [h1.reply, h1.reply]

theorem State.Meets.streamSend (h : s.Meets P) {k iter x x1 b} : (s.streamSend k iter x x1 b).Meets P := by
  unfold State.streamSend
  dsimp only
  split
  exacts [h, h.launchTok]

theorem State.Meets.deliver (h : s.Meets P) {bid x} : (s.deliver bid x).Meets P := by
  induction x generalizing s with
  | zero => exact h
  | succ n ih =>
    unfold State.deliver
    dsimp only
    split
    · exact h
    split
    · split
      · split
        · exact h
        · exact ih h.setBinding.setEng
      split
      · exact h
      · refine ih ?_
        split
        · exact h.setBinding.streamSend.streamSend
        · exact h.setBinding.streamSend
    · exact h

theorem State.Meets.granuleReturn (h : s.Meets P) {b pos ecc} : (s.granuleReturn b pos ecc).Meets P := by
  unfold State.granuleReturn
  dsimp only
  split
  · exact h
  next =>
    split
    · exact h
    split
    next e1 => exact h.granulePlace.snd e1
    next e1 => exact h.granulePlace.snd e1
    next e1 =>
      have he1 := h.granulePlace.snd e1
      split
      next e2 => exact he1.granuleScales.snd e2
      next e2 => exact (he1.granuleScales.snd e2).readPlace
      next e2 =>
        have he2 := he1.granuleScales.snd e2
        split
        next e3 => exact (he2.readPlace.snd e3).dropFetches.setBinding
        next e3 => exact he2.readPlace.snd e3

theorem execStreamGranuleReturn_meets (h : s.Meets P) : MeetsOut P (execStreamGranuleReturn s) := by
  unfold execStreamGranuleReturn
  dsimp only
  split
  · split
    exacts [h.upd.next, h.upd.granuleReturn.deliver.next]
  · exact h.next

theorem State.Meets.granuleWrite (h : s.Meets P) {b} : (s.granuleWrite b).Meets P := by
  unfold State.granuleWrite
  dsimp only
  split
  · split
    · exact h
    split
    next e2 => exact h.granulePlace.snd e2
    next e2 => exact h.granulePlace.snd e2
    next e2 => exact .ite (.ite ((h.granulePlace.snd e2).badRing.dropFetches.setBinding) (.ite ((h.granulePlace.snd
        e2).upd.dropFetches.setBinding) ((h.granulePlace.snd e2).sendReq.dropFetches.setBinding))) (.ite (h.granulePlace.snd e2)
        (((h.granulePlace.snd e2).writeAt.setMem (.stampWrite ..)).dropFetches.setBinding))
  · exact h

theorem execStreamGranuleWrite_meets (h : s.Meets P) : MeetsOut P (execStreamGranuleWrite s) := by
  unfold execStreamGranuleWrite
  dsimp only
  split
  · split
    exacts [h.upd.next, h.upd.granuleWrite.next]
  · exact h.next

theorem execStreamBindingEnd_meets (h : s.Meets P) : MeetsOut P (execStreamBindingEnd s) := by
  unfold execStreamBindingEnd
  dsimp only
  split
  · split
    exacts [h.upd.next, h.upd.endBinding.next]
  · exact h.next

theorem State.Meets.xcError (h : s.Meets P) {tid code done} : (s.xcError tid code done).Meets P := h.updTask

theorem State.Meets.streamFault (h : s.Meets P) {b} : (s.streamFault b).Meets P := by
  unfold State.streamFault
  dsimp only
  split
  · exact h
  next =>
    split
    · exact h
    split
    next e1 => exact h.granuleFault.snd e1
    next e1 =>
      have he1 := h.granuleFault.snd e1
      split
      exacts [he1.setBinding.setEng.xcError.endBinding, he1.setBinding.setEng.xcError]

theorem execStreamFault_meets (h : s.Meets P) : MeetsOut P (execStreamFault s) := by
  unfold execStreamFault
  dsimp only
  split
  · split
    exacts [h.upd.next, h.upd.streamFault.next]
  · exact h.next

theorem State.Meets.raiseStream (h : s.Meets P) {i opc r} : MeetsOpt P (s.raiseStream i opc r) :=
  .mapOf fun _ => h.setEng.raise
theorem State.Meets.noteDone (h : s.Meets P) {i lsid p} : (s.noteDone i lsid p).Meets P := h.updAct

theorem State.Meets.fireWriting (h : s.Meets P) {opc ins r perform} (hperform : ∀ x0 s, s.Meets P → (perform x0 s).Meets P) :
    MeetsOut P (s.fireWriting opc ins r perform) := by
  unfold State.fireWriting
  refine h.fireMem fun _ _ _ _ _ h1 => ?_
  split
  exacts [h1.replyPerformed, h1.startHeld fun _ _ h => hperform _ _ h]

theorem State.Meets.raiseHeld (h : s.Meets P) {x x1} : (s.raiseHeld x x1).Meets P := h.doneHeld.raise

theorem State.Meets.copyPlace (h : s.Meets P) {c space addr write} : (s.copyPlace c space addr write).2.Meets P := by
  unfold State.copyPlace
  split
  · split
    · exact h
    split
    next e => exact h.locateGlobal.snd e
    next e => exact h.locateGlobal.snd e
  split
  · split
    exacts [h, h]
  split
  · dsimp only
    split
    · exact h
    split
    · exact h
    split
    exacts [h, h, h]
  · exact h

theorem State.Meets.acceptCopy (h : s.Meets P) {x r x1 d} : (s.acceptCopy x r x1 d).Meets P := by
  unfold State.acceptCopy
  split
  · exact h.doneHeld
  extract_lets tell c
  refine .ite h.raiseHeld (.ite h ?_)
  have hp : (if c.cw = 0 ∨ c.cwHost then (none, s) else s.probeWrite x.iss c.cw 8).2.Meets P := by
    split
    exacts [h, h.probeWrite]
  split
  next e => exact (hp.snd e).raiseHeld
  next e =>
    have hs := hp.snd e
    split
    · exact hs.raiseHeld
    · exact .ite hs.upd.setEng.doneHeld.noteDone hs.upd.setEng.doneHeld.noteDone.reply

theorem State.Meets.performXcopy (h : s.Meets P) {x r} : (State.performXcopy x r s).Meets P := by
  unfold State.performXcopy
  dsimp only
  split
  · exact h
  split
  next e => exact h.loadOwn.snd e
  next e => exact (h.loadOwn.snd e).raiseHeld
  next e =>
    have he := h.loadOwn.snd e
    split
    exacts [he.raiseHeld, he.acceptCopy]

theorem State.Meets.setCopy (h : s.Meets P) {c} : (s.setCopy c).Meets P := h.setEng
theorem State.Meets.readGranule (h : s.Meets P) {k x} : (s.readGranule k x).2.2.Meets P :=
  foldl_keeps (fun y : List Byte × List Bool × State => y.2.2.Meets P) _ (fun _ _ h => h.readAt) _ _ h
theorem State.Meets.writeGranule (h : s.Meets P) {k x bs ms} : (s.writeGranule k x bs ms).Meets P := h.foldl fun _ _ h => h.writeAt
theorem State.Meets.hostRead (h : s.Meets P) {x n} : (s.hostRead x n).2.2.Meets P := .ite h.emitOut h
theorem State.Meets.hostWrite (h : s.Meets P) {x bs pois} : (s.hostWrite x bs pois).Meets P :=
  .emitOut (h.setMem (.notes))
theorem State.Meets.hostParts (h : s.Meets P) {x bs ms} : (s.hostParts x bs ms).Meets P :=
  .ite (h.foldl fun _ _ h => h.hostWrite) h.hostWrite

theorem State.Meets.failCopy (h : s.Meets P) {c code k} : (s.failCopy c code k).Meets P := by
  unfold State.failCopy
  split
  exacts [.ite h h.xcError.setCopy, .ite h h.xcError.setCopy]

theorem State.Meets.copyFetch (h : s.Meets P) {c ecc} : (s.copyFetch c ecc).Meets P := by
  unfold State.copyFetch
  split
  · exact h
  split
  next e => exact h.copyPlace.snd e
  next e => exact h.copyPlace.snd e
  next e => exact (h.copyPlace.snd e).hostRead.setCopy
  next e => exact .ite (.ite ((h.copyPlace.snd e).setCopy) (.ite (h.copyPlace.snd e) ((h.copyPlace.snd e).sendReq.setCopy))) (.ite
      (h.copyPlace.snd e) ((h.copyPlace.snd e).readGranule.setCopy))

theorem State.Meets.copyStore (h : s.Meets P) {c} : (s.copyStore c).Meets P := by
  unfold State.copyStore
  split
  · split
    next e1 => exact h.copyPlace.snd e1
    next e1 => exact h.copyPlace.snd e1
    next e1 => exact (h.copyPlace.snd e1).hostParts.setCopy
    next e1 => exact .ite (.ite ((h.copyPlace.snd e1).badRing.setCopy) (.ite (h.copyPlace.snd e1) ((h.copyPlace.snd
        e1).sendReq.setCopy))) (.ite (h.copyPlace.snd e1) ((h.copyPlace.snd e1).writeGranule.setCopy))
  · exact h

theorem execCopyGranule_meets (h : s.Meets P) : MeetsOut P (execCopyGranule s) := by
  unfold execCopyGranule
  dsimp only
  split
  · split
    exacts [h.upd.next, .ite h.upd.next (.next (.setEng (.ite h.upd.copyFetch h.upd.copyStore)))]
  · exact h.next

theorem State.Meets.endCopy (h : s.Meets P) {c} : (s.endCopy c).Meets P := by
  unfold State.endCopy
  split
  exacts [h.setEng.reply, h.setEng]

theorem State.Meets.writeCw (h : s.Meets P) {c} : (s.writeCw c).Meets P :=
  .ite h.endCopy (.ite h.hostWrite.endCopy (.ite h (.ite h.writeVa.endCopy h.writeVa.setCopy)))

theorem execCopyComplete_meets (h : s.Meets P) : MeetsOut P (execCopyComplete s) := by
  unfold execCopyComplete
  dsimp only
  split
  · split
    exacts [h.upd.next, .ite h.upd.next h.upd.writeCw.next]
  · exact h.next

theorem State.Meets.copyFault (h : s.Meets P) {c} : (s.copyFault c).Meets P := by
  unfold State.copyFault
  dsimp only
  split
  · exact h
  split
  next e => exact (h.copyPlace.snd e).failCopy
  next e => exact .ite ((h.copyPlace.snd e).failCopy) (h.copyPlace.snd e)

theorem execCopyFault_meets (h : s.Meets P) : MeetsOut P (execCopyFault s) := by
  unfold execCopyFault
  dsimp only
  split
  · split
    exacts [h.upd.next, .ite h.upd.copyFault.next h.upd.next]
  · exact h.next

theorem State.Meets.nmTranslate (h : s.Meets P) {i va write} : (s.nmTranslate i va write).2.Meets P := by
  unfold State.nmTranslate
  split
  · exact h
  split
  next e => exact h.translate.snd e
  next e => exact h.translate.snd e

theorem State.Meets.nmWrite (h : s.Meets P) {i va n bad} : (s.nmWrite i va n bad).2.Meets P := by
  unfold State.nmWrite
  split
  next e => exact h.nmTranslate.snd e
  next e =>
    split
    · exact h.nmTranslate.snd e
    split
    exacts [h.nmTranslate.snd e, h.nmTranslate.snd e]

theorem State.Meets.nmBase (h : s.Meets P) {i va bad} : (s.nmBase i va bad).2.Meets P := by
  unfold State.nmBase
  split
  next e => exact h.nmTranslate.snd e
  next e =>
    split
    exacts [h.nmTranslate.snd e, h.nmTranslate.snd e]

theorem State.Meets.nmCheck (h : s.Meets P) {i p base rowg} : (s.nmCheck i p base rowg).2.Meets P := by
  unfold State.nmCheck
  dsimp only
  split
  · exact h
  split
  · exact h
  split
  · exact h
  split
  · exact h
  split
  next e => exact h.nmBase.snd e
  next e =>
    have he := h.nmBase.snd e
    split
    · exact h.nmBase.snd e
    split
    next e1 => exact he.nmWrite.snd e1
    next e1 =>
      have he1 := he.nmWrite.snd e1
      split
      · exact he.nmWrite.snd e1
      split
      next e2 => exact he1.nmWrite.snd e2
      next e2 => exact he1.nmWrite.snd e2

theorem State.Meets.performNmred (h : s.Meets P) {x r} : (State.performNmred x r s).Meets P := by
  unfold State.performNmred
  dsimp only
  split
  · exact h
  split
  next e => exact (h.nmCheck.snd e).raiseHeld
  next e =>
    have he := h.nmCheck.snd e
    split
    · exact h.nmCheck.snd e
    split
    exacts [.ite (he.upd.setEng.doneHeld.noteDone) (he.upd.setEng.doneHeld.noteDone.reply),
        .ite (he.upd.setEng.doneHeld.noteDone) (he.upd.setEng.doneHeld.noteDone.reply)]

theorem State.Meets.nmFlag (h : s.Meets P) {p flag} : (if nmFlag p = 0 then s else if nmFop p then
    (s.readAt .global flag 8).2.2.writeAt .global flag (bytesOf 8 (Sys2Proof.ofBytes (s.readAt .global flag 8).1 + nmFlagVal p))
      (s.readAt .global flag 8).2.1 else s.writeAt .global flag (bytesOf 8 (nmFlagVal p)) false).Meets P :=
  .ite h (.ite (h.readAt (k := .global)).writeAt h.writeAt)

theorem State.Meets.endNm (h : s.Meets P) {c} : (s.endNm c).Meets P := by
  have hf := fun (s : State) (h : s.Meets P) => (State.Meets.nmFlag h (p := c.packet.toNat) (flag := c.flag))
  unfold State.endNm
  split
  exacts [(hf _ (h.foldl fun _ _ h => h.writeAt)).reply, hf _ (h.foldl fun _ _ h => h.writeAt)]

theorem execNearMemoryReduce_meets (h : s.Meets P) : MeetsOut P (execNearMemoryReduce s) := by
  unfold execNearMemoryReduce
  dsimp only
  split
  · split
    exacts [h.upd.next, .ite h.upd.setEng.next (.ite h.upd.next h.upd.setEng.endNm.next)]
  · exact h.next

theorem State.Meets.setArr (h : s.Meets P) {k x} : (s.setArr k x).Meets P := h.setEng

theorem State.Meets.onArray (h : s.Meets P) {i p f} (hf : ∀ k x, (f k x).Meets P) : (s.onArray i p f).Meets P := by
  unfold State.onArray
  split
  · exact h.raise
  split
  exacts [hf .., h.raise]

theorem State.Meets.fireMatrix (h : s.Meets P) {opc ins r p perform} (hp : ∀ x s, s.Meets P → (perform x s).Meets P) :
    MeetsOut P (s.fireMatrix opc ins r p perform) :=
  
  h.fire fun _ _ _ _ _ h => h.onArray fun _ _ => h.startHeld hp

theorem State.Meets.settleDrain (h : s.Meets P) {k c x} : (s.settleDrain k c x).Meets P := by
  unfold State.settleDrain
  dsimp only
  split
  exacts [h, .ite h.setArr h]

theorem State.Meets.performMwload (h : s.Meets P) {x r} : (State.performMwload x r s).Meets P := h.doneHeld.setArr
theorem State.Meets.performMmac (h : s.Meets P) {x r} : (State.performMmac x r s).Meets P :=
  .ite h.doneHeld.reply (.ite h h.doneHeld.setArr)

theorem State.Meets.performMdrain (h : s.Meets P) {x r} : (State.performMdrain x r s).Meets P := by
  unfold State.performMdrain
  split
  exacts [h.doneHeld, .ite h.settleDrain h.settleDrain.doneHeld.setArr]

theorem State.Meets.performMacc (h : s.Meets P) {x r} : (State.performMacc x r s).Meets P := by
  unfold State.performMacc
  split
  exacts [h.doneHeld, h.doneHeld.setArr.reply]

theorem State.Meets.performMrel (h : s.Meets P) {x r} : (State.performMrel x r s).Meets P := by
  unfold State.performMrel
  split
  exacts [h.doneHeld, .ite h.settleDrain h.settleDrain.doneHeld.setArr.reply]

theorem State.Meets.performMchk (h : s.Meets P) {x r} : (State.performMchk x r s).Meets P := .ite h.doneHeld.raise h.doneHeld.setArr.reply
theorem State.Meets.endLoads (h : s.Meets P) {k x} : (s.endLoads k x).Meets P := h.setArr.foldl fun _ _ h => h.reply

theorem State.Meets.takeBus (h : s.Meets P) {e x} : (s.takeBus e x).Meets P := by
  unfold State.takeBus
  split
  · exact h
  split
  · exact h
  split
  exacts [h, h.setArr.rememberTok.endLoads]

theorem State.Meets.settleBuses (h : s.Meets P) {tid} : (s.settleBuses tid).Meets P := h.foldl fun _ _ h => h.setFab.takeBus

theorem State.Meets.weightLoad (h : s.Meets P) {k} : (s.weightLoad k).Meets P := by
  unfold State.weightLoad
  dsimp only
  split
  · exact h
  split
  · exact h.choose
  split
  · split
    exacts [.ite h.choose.choose ((h.choose.choose.foldl fun _ _ h => h.use).setEng.setFab.setArr), .ite h.choose.choose
        ((h.choose.choose.foldl fun _ _ h => h.use).setEng.setFab.setArr)]
  · exact h.choose

theorem execWeightTokenLoad_meets (h : s.Meets P) : MeetsOut P (execWeightTokenLoad s) := by
  unfold execWeightTokenLoad
  split
  exacts [h.upd.weightLoad.next, h.next]

theorem State.Meets.serveRow (h : s.Meets P) {x} : (s.serveRow x).Meets P := h.setFab

theorem State.Meets.rowTake (h : s.Meets P) {k} : (s.rowTake k).Meets P := by
  unfold State.rowTake
  dsimp only
  split
  · exact h
  split
  exacts [h.settleDrain, .ite h.settleDrain (.ite h.settleDrain.use.serveRow.setEng.setArr.reply
      h.settleDrain.use.serveRow.setEng.setArr)]

theorem execArrayRowTake_meets (h : s.Meets P) : MeetsOut P (execArrayRowTake s) := by
  unfold execArrayRowTake
  split
  exacts [h.upd.rowTake.next, h.next]

theorem State.Meets.keepTok (h : s.Meets P) {aid x} : (s.keepTok aid x).Meets P := by
  unfold State.keepTok
  split
  exacts [h, .ite h (.ite h.setAct h.updThread)]

theorem State.Meets.keepBeat (h : s.Meets P) {e c aid r b} : (s.keepBeat e c aid r b).Meets P := by
  unfold State.keepBeat
  refine h.foldl fun _ _ h1 => ?_
  split
  exacts [h1, h1.keepTok]

theorem State.Meets.drainToken (h : s.Meets P) {k j} : (s.drainToken k j).Meets P := by
  unfold State.drainToken
  extract_lets tid c
  split
  · exact h
  split
  · extract_lets n s1 parts row z v fails x1 s2 vals pay beat s3
    have hrow : s3.Meets P := (State.Meets.ite h.use.countElem h.use).setArr
    split
    exacts [h, .ite h (.ite hrow.keepBeat hrow.keepBeat.setCtx)]
  · exact h

theorem execArrayDrainToken_meets (h : s.Meets P) : MeetsOut P (execArrayDrainToken s) := by
  unfold execArrayDrainToken
  split
  exacts [h.upd.drainToken.next, h.next]

theorem State.Meets.acceptFrom (h : s.Meets P) {e d x} : MeetsOpt P (s.acceptFrom e d x) := .ite (.ite .none h.takeBus.just) h.acceptTok

theorem State.Meets.acceptFirst (h : s.Meets P) {e x} : (s.acceptFirst e x).Meets P := by
  induction x generalizing s with
  | nil => exact h
  | cons y r ih =>
    unfold State.acceptFirst
    dsimp only
    split
    next e1 => exact (h.setFab.acceptFrom.get e1).use
    · exact ih h

theorem State.Meets.acceptOne (h : s.Meets P) {e} : (s.acceptOne e).Meets P := by
  unfold State.acceptOne
  split
  next e1 => exact h.acceptChan.get e1
  · exact h.acceptFirst

theorem execTokenAccept_meets (h : s.Meets P) : MeetsOut P (execTokenAccept s) := by
  unfold execTokenAccept
  split
  exacts [.ite h.upd.next h.upd.acceptOne.next, h.next]

theorem State.Meets.rowRange (h : s.Meets P) {x w} : (s.rowRange x w).Meets P := by
  unfold State.rowRange
  refine .raiseHeld ?_
  split
  exacts [h, h, h.free]

theorem State.Meets.performRow (h : s.Meets P) {x} : (State.performRow x s).Meets P := by
  unfold State.performRow
  dsimp only
  split
  · exact h.doneHeld
  split
  · exact h.rowRange
  split
  · split
    exacts [h.rowRange, h.raiseHeld]
  split
  exacts [(h.setMemOf (State.Meets.same s).doneHeld).noteDone, h.setMemOf (State.Meets.same s).doneHeld]

theorem State.Meets.rowToWeights (h : s.Meets P) {x l} : (s.rowToWeights x l).Meets P := by
  unfold State.rowToWeights
  dsimp only
  split
  exacts [h, h.setArr]

theorem State.Meets.rowGo (h : s.Meets P) {x c} : (s.rowGo x c).2.Meets P := by
  unfold State.rowGo
  split
  · exact h.setMem
  · exact .ite h.rowToWeights ((h.setMem (.rowToBanks ..)).foldl fun _ _ h => h.noteWrite)
  · exact (h.setMem (.banksToRow ..)).foldl fun _ _ h => h.noteWrite
  split
  exacts [h.setMem, h]

theorem State.Meets.undone (h : s.Meets P) {x} : (s.undone x).Meets P := by
  unfold State.undone
  split
  exacts [h.updAct, h]

theorem State.Meets.rowEffect (h : s.Meets P) {x} : (s.rowEffect x).Meets P := by
  unfold State.rowEffect
  dsimp only
  split
  · exact h
  split
  exacts [(h.setMem (.settleBank ..)).setMem.setMem.undone.raise, (h.setMem (.settleBank ..)).setMem.rowGo.setMem]

theorem execRowCommandEffect_meets (h : s.Meets P) : MeetsOut P (execRowCommandEffect s) := by
  unfold execRowCommandEffect
  dsimp only
  split
  · split
    exacts [h.upd.next, h.upd.rowEffect.next]
  · exact h.next

theorem execRowCommandComplete_meets (h : s.Meets P) : MeetsOut P (execRowCommandComplete s) := by
  unfold execRowCommandComplete
  dsimp only
  split
  · split
    · exact h.upd.next
    split
    exacts [h.upd.next, .ite h.upd.next h.upd.setMem.reply.next]
  · exact h.next

theorem State.Meets.forceClose (h : s.Meets P) {n at_} : (s.forceClose n at_).Meets P := .ite h h.setMem

theorem execRowOpenTimeout_meets (h : s.Meets P) : MeetsOut P (execRowOpenTimeout s) := by
  unfold execRowOpenTimeout
  split
  exacts [h.upd.forceClose.next, h.next]

theorem execRowRefresh_meets (h : s.Meets P) : MeetsOut P (execRowRefresh s) := by
  unfold execRowRefresh
  split
  exacts [h.upd.forceClose.next, h.next]

theorem State.Meets.setSlot (h : s.Meets P) {k x} : (s.setSlot k x).Meets P := h.setQue

theorem State.Meets.writeIndex (h : s.Meets P) {q} : (s.writeIndex q).2.Meets P := by
  unfold State.writeIndex
  split
  exacts [h, h.desc]

theorem State.Meets.notify (h : s.Meets P) {q wr} : (s.notify q wr).Meets P := by
  unfold State.notify
  dsimp only
  split
  exacts [.ite h.setQue.setSlot.desc.desc.queueErr h.setQue.setSlot.desc.desc, .ite h.setQue.setDesc.setQue.desc.desc.queueErr
      h.setQue.setDesc.setQue.desc.desc]

theorem State.Meets.putLoad (h : s.Meets P) {x x1 x2} : (s.putLoad x x1 x2).2.Meets P := by
  induction x2 generalizing s x1 with
  | zero => exact h
  | succ n ih =>
    unfold State.putLoad
    split
    next e => exact h.loadOwn.snd e
    next e =>
      have he := h.loadOwn.snd e
      split
      next e1 => exact (ih he).snd e1
      next e1 => exact (ih he).snd e1
    next e =>
      have he := h.loadOwn.snd e
      split
      next e1 => exact (ih he).snd e1
      next e1 => exact (ih he).snd e1

theorem State.Meets.putPacket (h : s.Meets P) {x x1} : (s.putPacket x x1).2.Meets P := by
  unfold State.putPacket
  dsimp only
  split
  next e => exact h.loadOwn.snd e
  next e => exact h.loadOwn.snd e
  next e =>
    have he := h.loadOwn.snd e
    split
    next e1 => exact he.putLoad.snd e1
    next e1 => exact he.putLoad.snd e1
    next e1 => exact he.putLoad.snd e1

theorem State.Meets.putEntries (h : s.Meets P) {q asid ring size wr x} : (s.putEntries q asid ring size wr x).2.Meets P := by
  induction x generalizing s wr with
  | nil => exact h
  | cons y r ih =>
    unfold State.putEntries
    split
    next e => exact h.writeVa.snd e
    next e => exact ih (h.writeVa.snd e)

theorem State.Meets.putDone (h : s.Meets P) {x r status} : (s.putDone x r status).Meets P := .reply (.ite h.doneHeld.noteDone h.doneHeld)

theorem State.Meets.putAt (h : s.Meets P) {nb x r ext es} : (State.putAt nb x r ext es s).Meets P := by
  unfold State.putAt
  dsimp only
  split
  · exact h.writeIndex.desc.desc.desc.noteTurn.putDone
  split
  · exact h.writeIndex.desc.desc.desc.noteTurn.putDone
  split
  · exact .ite h.writeIndex.desc.desc.desc.noteTurn.noteTurn.putDone h.writeIndex.desc.desc.desc.setHeldOp
  split
  · exact h.writeIndex.desc.desc.desc
  split
  next e => exact (h.writeIndex.desc.desc.desc.noteTurn.putEntries.snd e).raiseHeld
  next e => exact (h.writeIndex.desc.desc.desc.noteTurn.putEntries.snd e).notify.putDone

theorem State.Meets.performQput (h : s.Meets P) {nb x r} : (State.performQput nb x r s).Meets P := by
  unfold State.performQput
  dsimp only
  split
  · exact h
  split
  · exact h.putAt
  split
  next e1 => exact (h.putPacket.snd e1).raiseHeld
  next e1 => exact h.putPacket.snd e1
  next e1 => exact (h.putPacket.snd e1).putAt

theorem State.Meets.writeLit (h : s.Meets P) {e c n w} : (s.writeLit e c n w).Meets P := by
  unfold State.writeLit
  split
  exacts [h.setFab, h]

theorem State.Meets.performArgw (h : s.Meets P) {x} : (State.performArgw x s).Meets P := .ite h h.setHeldOp.freeLatch

theorem State.Meets.argwArrives (h : s.Meets P) {x} : (s.argwArrives x).Meets P := by
  unfold State.argwArrives
  dsimp only
  split
  · split
    · exact h
    split
    exacts [h.dropHeld.reply, h.setTask.dropHeld.writeLit.reply]
  · exact h.dropHeld

theorem State.Meets.argwEnd (h : s.Meets P) : s.argwEnd.Meets P := h.foldl fun _ _ h => h.argwArrives
theorem State.Meets.setBed (h : s.Meets P) {b x} : (s.setBed b x).Meets P := h.setEng
theorem State.Meets.fireFct (h : s.Meets P) {opc ins r perform} (hperform : ∀ x0 s, s.Meets P → (perform x0 s).Meets P) :
    MeetsOut P (s.fireFct opc ins r perform) :=
  
  h.fire fun _ _ _ _ _ h1 => .ite (h1.startHeld fun _ _ h => hperform _ _ h) h1.raise
theorem State.Meets.performFctb (h : s.Meets P) {x r} : (State.performFctb x r s).Meets P :=
  .ite h.raiseHeld (.ite h.raiseHeld h.doneHeld.setBed.reply)
theorem State.Meets.performFcts (h : s.Meets P) {x r} : (State.performFcts x r s).Meets P :=
  .ite h.raiseHeld (.ite h (.ite h.doneHeld.reply h.doneHeld.setBed))

theorem State.Meets.choosePivot (h : s.Meets P) {ms b0 k} : (s.choosePivot ms b0 k).Meets P := by
  unfold State.choosePivot
  split
  exact .ite h.setBed (h.setMemOf (State.Meets.same s).setBed (.swapRows ..))

theorem State.Meets.eliminate (h : s.Meets P) {ms b0 k p} : (s.eliminate ms b0 k p).2.Meets P :=
  State.Meets.foldl (.setBed (.setMem h (foldl_keeps (fun x : Memory × Nat => s.mem.Alike x.1) _ (fun _ _ hx => foldl_keeps (fun x : Memory
    × Nat => s.mem.Alike x.1) _ (fun _ _ hx => hx.trans (.updateRow ..)) _ _ hx) _ _ (.refl _)))) fun _ _ h => h.setBed

theorem State.Meets.column (h : s.Meets P) {ms b0 k} : (s.column ms b0 k).2.Meets P := by
  unfold State.column
  dsimp only
  split
  · exact h.choosePivot
  split
  exacts [(h.choosePivot.setMemOf (State.Meets.same _).setBed (.tileSet ..)).eliminate, h.choosePivot.eliminate]

theorem State.Meets.endSteps (h : s.Meets P) {ms} : (s.endSteps ms).Meets P := by
  unfold State.endSteps
  dsimp only
  refine h.foldl fun _ _ h1 => ?_
  split
  · exact h1
  split
  exacts [h1.setBed.reply, h1.setBed]

theorem State.Meets.discardStep (h : s.Meets P) {aid0 i} : (s.discardStep aid0 i).Meets P := by
  unfold State.discardStep
  split
  · exact h
  split
  · exact h
  split
  exacts [h, (h.foldl fun _ _ h => h.discardAct).updThread]

theorem State.Meets.trapSteps (h : s.Meets P) {ms x} : (s.trapSteps ms x).Meets P := by
  unfold State.trapSteps
  dsimp only
  split
  exacts [h.foldl fun _ _ h => h.setBed, (h.foldl fun _ _ h => h.setBed).raise.foldl fun _ _ h => h.discardStep]

theorem State.Meets.unserve (h : s.Meets P) {ms} : (s.unserve ms).Meets P := h.foldl fun _ _ h => h.setBed

theorem State.Meets.columnStep (h : s.Meets P) {b} : (s.columnStep b).Meets P := by
  unfold State.columnStep
  dsimp only
  split
  · exact h
  split
  · exact h.trapSteps
  split
  · exact h.endSteps
  split
  · exact h.foldl fun _ _ h => h.setBed
  split
  · exact h
  split
  exacts [h.unserve.column.trapSteps, h.unserve.column.trapSteps, .ite ((h.unserve.column.foldl fun _ _ h => h.setBed).endSteps)
      (h.unserve.column.foldl fun _ _ h => h.setBed)]

theorem execFctColumnStep_meets (h : s.Meets P) : MeetsOut P (execFctColumnStep s) := by
  unfold execFctColumnStep
  split
  exacts [h.upd.columnStep.next, h.next]

theorem State.Meets.formGroup (h : s.Meets P) {ms} : (s.formGroup ms).Meets P := by
  unfold State.formGroup
  refine (h.foldl fun _ _ h1 => ?_).foldl fun _ _ h1 => ?_
  · exact h1.setBed
  split
  · exact h1.reply
  · exact h1

theorem State.Meets.performFctn (h : s.Meets P) {x r} : (State.performFctn x r s).Meets P := by
  unfold State.performFctn
  dsimp only
  split
  · exact h
  split
  exacts [h.raiseHeld, .ite h.doneHeld.setBed.formGroup h.doneHeld.setBed]

theorem State.Meets.performFctsv (h : s.Meets P) {x r} : (State.performFctsv x r s).Meets P :=
  .ite h.raiseHeld (.ite h.raiseHeld (.reply (h.setMemOf (State.Meets.same s).doneHeld)))

theorem State.Meets.performFcte (h : s.Meets P) {x r} : (State.performFcte x r s).Meets P :=
  .ite h.raiseHeld (.ite h ((h.doneHeld.foldl fun _ _ h => h.setBed).setBed.reply))
theorem State.Meets.performRedput (h : s.Meets P) {x r} : (State.performRedput x r s).Meets P :=
  .ite h (.ite h.doneHeld.setTree h.doneHeld.setTree)

theorem execRedput_meets (h : s.Meets P) {r} : MeetsOut P (execRedput r s) := by
  unfold execRedput
  split
  exacts [h.next, (h.upd.startHeld fun _ _ h => h.performRedput).next]

theorem State.Meets.combineRound (h : s.Meets P) {k n} : (s.combineRound k n).Meets P := by
  unfold State.combineRound
  dsimp only
  split
  · split
    · exact h
    split
    · exact h
    split
    · exact h.setTree
    split
    exacts [h.setTree, h.setTree.launchTok]
  · exact h

theorem execReduceRoundCombine_meets (h : s.Meets P) : MeetsOut P (execReduceRoundCombine s) := by
  unfold execReduceRoundCombine
  split
  exacts [h.upd.combineRound.next, h.next]

theorem State.Meets.trimResults (h : s.Meets P) {k} : (s.trimResults k).Meets P := h.setTree
theorem State.Meets.fireWait (h : s.Meets P) {w x} : (s.fireWait w x).Meets P := h.reply

theorem State.Meets.rootResult (h : s.Meets P) {k n} : (s.rootResult k n).Meets P := by
  unfold State.rootResult
  extract_lets t x
  split
  · refine .ite h ?_
    extract_lets codes s1 res now t1 t2 s2 s3
    have htree : s2.Meets P := State.Meets.setTree (.ite h h.setFlags)
    have hreply : s3.Meets P := by
      dsimp only [s3]
      split
      exacts [htree.reply, htree]
    exact .trimResults (hreply.foldl fun _ _ h => h.fireWait)
  · exact h

theorem execReduceRootResult_meets (h : s.Meets P) : MeetsOut P (execReduceRootResult s) := by
  unfold execReduceRootResult
  split
  exacts [h.upd.rootResult.next, h.next]

theorem State.Meets.raiseLive (h : s.Meets P) {i x} : (s.raiseLive i x).Meets P := by
  unfold State.raiseLive
  split
  exacts [.ite h h.raise, h]

theorem execRedwait_meets (h : s.Meets P) {r} : MeetsOut P (execRedwait r s) := by
  unfold execRedwait
  dsimp only
  split
  · exact h.next
  split
  · exact h.upd.setTree.trimResults.reply.next
  split
  · exact h.upd.setTree.trimResults.raise.next
  split
  · exact h.upd.setTree.raiseLive.next
  split
  exacts [h.upd.setTree.fireWait.trimResults.next, h.upd.setTree.setTree.next]

theorem State.Meets.abandonRound (h : s.Meets P) {k round} : (s.abandonRound k round).Meets P := by
  unfold State.abandonRound
  dsimp only
  split
  exacts [(h.setTree.foldl fun _ _ h => h.raiseLive).raiseLive, h.setTree.foldl fun _ _ h => h.raiseLive]

theorem execReduceRoundAbandon_meets (h : s.Meets P) : MeetsOut P (execReduceRoundAbandon s) := by
  unfold execReduceRoundAbandon
  dsimp only
  split
  · split
    exacts [.ite h.upd.next h.upd.abandonRound.next, h.upd.next]
  · exact h.next

end Sys2Proof.Machine
end

