-- ==== Sys2Proof/Proofs/SettingsPlanes.lean ====
section
-- Some hundred short proofs: checked as tasks of their own, all at once, they outgrow the memory that check.sh allows.
set_option Elab.async false
/-! PROOFS. What leaves the settings alone: cuts, collectives, and the planes that are dropped, saved and placed. -/
namespace Sys2Proof.Machine
variable {P : Settings → Prop} {s t : State}

theorem State.Meets.updCut (h : s.Meets P) {tid f} : (s.updCut tid f).Meets P := h.updTask
theorem State.Meets.unready (h : s.Meets P) {e c n} : (s.unready e c n).Meets P := .ite h ((h.foldl fun _ _ h => h.setNodeSt).setCtx)

theorem State.Meets.freezeNode (h : s.Meets P) {tid key} : (s.freezeNode tid key).Meets P := by
  unfold State.freezeNode
  split
  exacts [h, .ite h h.updCut.unready]

theorem State.Meets.markEdge (h : s.Meets P) {tid src key} : (s.markEdge tid src key).Meets P := h.updCut.freezeNode

theorem State.Meets.inject (h : s.Meets P) {tid} : (s.inject tid).Meets P := by
  unfold State.inject
  split
  exacts [h, h.updCut.foldl fun _ _ h1 => h1.updCut.foldl fun _ _ h => h.freezeNode]

theorem State.Meets.tryInject (h : s.Meets P) {tid} : (s.tryInject tid).Meets P := by
  unfold State.tryInject
  split
  exacts [h, .ite h h.inject]

theorem State.Meets.startCut (h : s.Meets P) {tid} : (s.startCut tid).Meets P := by
  unfold State.startCut
  split
  · exact h
  · refine (h.setTask.foldl fun _ _ h1 => ?_).tryInject
    refine h1.foldl fun _ _ h2 => ?_
    split
    exacts [.ite h2.unready h2, h2]

theorem execMarkerArrive_meets (h : s.Meets P) : MeetsOut P (execMarkerArrive s) := by
  unfold execMarkerArrive
  dsimp only
  split
  · split
    exacts [h.upd.next, .ite h.upd.markEdge.next h.upd.next]
  · exact h.next

theorem State.Meets.recordBeat (h : s.Meets P) {tid e c l b} : (s.recordBeat tid e c l b).Meets P := by
  unfold State.recordBeat
  dsimp only
  refine h.foldl fun _ _ h1 => ?_
  split
  exacts [h1, .ite h1.launchTok h1.nextSeq.updCut]

theorem State.Meets.injectAtLatch (h : s.Meets P) {tid e c n} : (s.injectAtLatch tid e c n).Meets P :=
  (h.setFab.updCut.foldl fun _ _ h1 => h1.foldl fun _ _ h => h.recordBeat).setCtx.foldl fun _ _ h => h.markEdge

theorem execMarkerLatchInject_meets (h : s.Meets P) : MeetsOut P (execMarkerLatchInject s) := by
  unfold execMarkerLatchInject
  dsimp only
  split
  · split
    · exact h.upd.next
    split
    · exact h.upd.next
    split
    exacts [h.upd.next, h.upd.injectAtLatch.next]
  · exact h.next

theorem State.Meets.anyPage (h : s.Meets P) {va len p x} (hp : ∀ x0 s, s.Meets P → (p x0 s).2.Meets P) : (s.anyPage va len p x).2.Meets P
    := by
  induction x generalizing s va len with
  | zero => exact h
  | succ n ih =>
    unfold State.anyPage
    dsimp only
    split
    · exact h
    split
    next e => exact (hp _ _ h).snd e
    next e => exact ih ((hp _ _ h).snd e)

theorem State.Meets.rangeHas (h : s.Meets P) {va len p} (hp : ∀ x0 s, s.Meets P → (p x0 s).2.Meets P) : (s.rangeHas va len p).2.Meets P :=
  h.anyPage fun _ _ h => hp _ _ h

theorem isDomain_meets (h : s.Meets P) {asid write va} : (isDomain asid write va s).2.Meets P := by
  unfold isDomain
  split
  · exact h
  split
  next e => exact h.setMem (.snd (.walk ..) e)
  next e => exact h.setMem (.snd (.walk ..) e)

theorem isFault_meets (h : s.Meets P) {asid write va} : (isFault asid write va s).2.Meets P := by
  unfold isFault
  split
  next e => exact h.placeVa.snd e
  next e => exact h.placeVa.snd e

theorem State.Meets.inWindow3 (h : s.Meets P) {c n} : (s.inWindow3 c n).2.Meets P := by
  unfold State.inWindow3
  split
  exacts [h, ((h.rangeHas fun _ _ h => isDomain_meets h).rangeHas fun _ _ h => isDomain_meets h).rangeHas fun _ _ h => isDomain_meets h]

theorem State.Meets.acceptColl (h : s.Meets P) {x r d} : (s.acceptColl x r d).Meets P := by
  unfold State.acceptColl
  dsimp only
  split
  · exact h
  split
  exacts [.ite h.free.doneHeld.reply h.upd.setEng.doneHeld.reply, .ite h.inWindow3.free.doneHeld.reply
      h.inWindow3.upd.setEng.doneHeld.reply]

theorem State.Meets.performColl (h : s.Meets P) {x r} : (State.performColl x r s).Meets P := by
  unfold State.performColl
  dsimp only
  split
  · exact h.doneHeld.raise
  split
  · exact h
  split
  next e => exact h.loadOwn.snd e
  next e => exact (h.loadOwn.snd e).doneHeld.raise
  next e =>
    have he := h.loadOwn.snd e
    split
    exacts [he.doneHeld.raise, he.acceptColl]

theorem State.Meets.acquireRound (h : s.Meets P) {i} : (s.acquireRound i).Meets P :=
  .noteAcquired (h.l1DropTask.setMem (.foldl _ (fun m _ => .mergeClock m ..) _))
theorem State.Meets.fireStatus (h : s.Meets P) {x v} : (s.fireStatus x v).Meets P := h.acquireRound.reply
theorem State.Meets.setRound (h : s.Meets P) {c} : (s.setRound c).Meets P := h.setEng

theorem State.Meets.performCollw (h : s.Meets P) {x} : (State.performCollw x s).Meets P := by
  unfold State.performCollw
  dsimp only
  split
  · exact h.doneHeld.fireStatus
  split
  · exact h.doneHeld.fireStatus
  split
  exacts [h.doneHeld.fireStatus, h.doneHeld.setRound]

theorem State.Meets.readRange (h : s.Meets P) {rid asid va x} : (s.readRange rid asid va x).2.Meets P := by
  induction x generalizing s va with
  | zero => exact h
  | succ n ih =>
    unfold State.readRange
    split
    next e => exact h.readVa.snd e
    next e => exact ih (h.readVa.snd e)
    next e =>
      have he := h.readVa.snd e
      split
      next e1 => exact (ih he).snd e1
      next e1 => exact (ih he).snd e1

theorem State.Meets.writeRange (h : s.Meets P) {asid va bs x} : (s.writeRange asid va bs x).Meets P := by
  induction x generalizing s va bs with
  | nil => exact h
  | cons y r ih =>
    unfold State.writeRange
    exact ih h.writeVa

theorem State.Meets.contributions (h : s.Meets P) {x} : (s.contributions x).2.Meets P := by
  induction x generalizing s with
  | nil => exact h
  | cons y r ih =>
    unfold State.contributions
    split
    next e => exact ih (h.readRange.snd e)
    next e =>
      have he := h.readRange.snd e
      split
      next e1 => exact (ih he).snd e1
      next e1 => exact (ih he).snd e1

theorem State.Meets.domainData (h : s.Meets P) {c n remote} : (s.domainData c n remote).2.Meets P := by
  unfold State.domainData
  split
  next e => exact h.readRange.snd e
  next e => exact h.readRange.snd e

theorem State.Meets.roundData (h : s.Meets P) {c n remote} : (s.roundData c n remote).2.Meets P := by
  unfold State.roundData
  split
  · exact h
  split
  · exact h
  split
  · exact h.domainData
  split
  exacts [h, h.contributions]

theorem State.Meets.shareFaults (h : s.Meets P) {c n} : (s.shareFaults c n).2.Meets P := by
  unfold State.shareFaults
  exact (h.rangeHas fun _ _ h => isFault_meets h).rangeHas fun _ _ h => isFault_meets h

theorem State.Meets.endRound (h : s.Meets P) {c status flag timeout} : (s.endRound c status flag timeout).Meets P :=
  .tryInject (.foldl (.dropFetches (.setRound (.ite h h.writeVa))) (fun _ _ h => .ite h.raise h.fireStatus))

theorem State.Meets.completeRound (h : s.Meets P) {c remote} : (s.completeRound c remote).Meets P := by
  unfold State.completeRound
  dsimp only
  split
  · exact h
  split
  next e => exact h.roundData.snd e
  next e =>
    have he := h.roundData.snd e
    split
    next e1 => exact he.shareFaults.snd e1
    next e1 => exact (he.shareFaults.snd e1).setEng.writeRange.endRound

theorem execCollRoundComplete_meets (h : s.Meets P) : MeetsOut P (execCollRoundComplete s) := by
  unfold execCollRoundComplete
  dsimp only
  split
  · split
    exacts [h.upd.next, h.upd.completeRound.next]
  · exact h.next

theorem State.Meets.poisonRange (h : s.Meets P) {asid va x} : (s.poisonRange asid va x).Meets P := by
  induction x generalizing s va with
  | zero => exact h
  | succ n ih =>
    unfold State.poisonRange
    dsimp only
    split
    next e => exact ih (h.placeVa.snd e)
    next e =>
      have he := h.placeVa.snd e
      split
      · exact ih he
      · exact ih (he.readAt.writeAt)

theorem State.Meets.failRound (h : s.Meets P) {timeout c} : (s.failRound timeout c).Meets P := h.poisonRange.endRound

theorem execCollRoundFail_meets (h : s.Meets P) : MeetsOut P (execCollRoundFail s) := by
  unfold execCollRoundFail
  dsimp only
  split
  · split
    exacts [h.upd.next, .ite h.upd.failRound.next h.upd.next]
  · exact h.next

theorem execCollRoundTimeout_meets (h : s.Meets P) : MeetsOut P (execCollRoundTimeout s) := by
  unfold execCollRoundTimeout
  dsimp only
  split
  · split
    exacts [h.upd.next, .ite h.upd.next ((h.upd.foldl fun _ _ h => h.failRound).next)]
  · exact h.next

theorem State.Meets.zeroArea (h : s.Meets P) {e c} : (s.zeroArea e c).Meets P :=
  h.setMem
theorem State.Meets.l1Keep (h : s.Meets P) {tid c old pl} : (s.l1Keep tid c old pl).Meets P := h.setMem
theorem State.Meets.leaveBeds (h : s.Meets P) {x c} : (s.leaveBeds x c).Meets P := h.setEng
theorem State.Meets.clearCtx (h : s.Meets P) {tid x c old pl} : (s.clearCtx tid x c old pl).Meets P := h.setFab.l1Keep.leaveBeds.setEng
theorem State.Meets.loadImages (h : s.Meets P) {tid x pl num c old} : (s.loadImages tid x pl num c old).Meets P :=
  h.foldl fun _ _ h => .setCtx (.setFab (.ite h h.zeroArea))

theorem State.Meets.freeCtx (h : s.Meets P) {x c} : (s.freeCtx x c).Meets P := by
  unfold State.freeCtx
  generalize List.replicate 1024 _ = zeros
  exact h.foldl fun _ _ h => State.Meets.setFab h.zeroArea.setFab

theorem State.Meets.argLit (h : s.Meets P) {e c n w} : (s.argLit e c n w).Meets P := h.setFab
theorem State.Meets.applyArgs (h : s.Meets P) {x pl c log} : (s.applyArgs x pl c log).Meets P :=
  (h.foldl fun _ _ h => .ite h h.argLit).foldl fun _ _ h => h.writeLit
theorem State.Meets.stashTrees (h : s.Meets P) {tid r} : (s.stashTrees tid r).Meets P := h.setEng
theorem State.Meets.unstash (h : s.Meets P) {tid num c} : (s.unstash tid num c).Meets P := h.setEng

theorem State.Meets.dropPlane (h : s.Meets P) {tid x pl num c old argc} : (s.dropPlane tid x pl num c old argc).2.Meets P := by
  unfold State.dropPlane
  dsimp only
  split
  exacts [h.clearCtx.freeCtx.armReport, h.clearCtx.setTask.loadImages.applyArgs.unstash]

theorem State.Meets.planeDrop (h : s.Meets P) {thread} : (s.planeDrop thread).Meets P := by
  unfold State.planeDrop
  split
  · exact h
  extract_lets s1
  have hr : s1.Meets P := h.reap
  split
  · split
    · exact hr
    refine .ite hr ?_
    split
    · exact hr.badBranch
    refine .ite hr.badBranch ?_
    split
    · exact hr
    refine .ite hr ?_
    extract_lets old s2 t2
    have hs : s2.Meets P := by
      dsimp only [s2]
      split
      exacts [hr.stashTrees, hr]
    split
    next e => exact hs.setTask.dropPlane.snd e
    next e => exact (hs.setTask.dropPlane.snd e).removePlane.endTask
  · exact hr

theorem execPlaneDrop_meets (h : s.Meets P) : MeetsOut P (execPlaneDrop s) := by
  unfold execPlaneDrop
  split
  exacts [h.upd.planeDrop.next, h.next]

theorem State.Meets.refire (h : s.Meets P) {i} : (s.refire i).Meets P := h.updAct.setFab.setNodeSt

theorem State.Meets.refireAll (h : s.Meets P) {tid} : (s.refireAll tid).Meets P := by
  unfold State.refireAll
  dsimp only
  generalize sortBy _ _ = l
  induction l with
  | nil => exact h.setMem
  | cons x r ih => exact ih.refire

theorem State.Meets.refireTraps (h : s.Meets P) {tid k} : (s.refireTraps tid k).Meets P := by
  unfold State.refireTraps
  refine h.foldl fun _ _ h1 => ?_
  split
  · exact h1
  split
  exacts [h1, .ite h1.setAct.refire h1]

theorem State.Meets.emptyLatches (h : s.Meets P) {tid x} : (s.emptyLatches tid x).Meets P := by
  unfold State.emptyLatches
  dsimp only
  refine h.foldl fun _ _ h1 => ?_
  split
  · exact h1
  · refine (h1.foldl fun _ _ h2 => ?_).setCtx
    split
    exacts [h2.foldl fun _ _ h => h.sendBeat, h2]

theorem State.Meets.closeRows (h : s.Meets P) {x} : (s.closeRows x).Meets P := by
  refine h.setMem (.foldl _ (fun m _ => ?_) _)
  dsimp only
  split
  · exact .refl m
  split
  exacts [(Memory.Alike.settleBank ..).trans .notes, .settleBank ..]

theorem State.Meets.ckFails (h : s.Meets P) {tid} : (s.ckFails tid).Meets P := h.setSch.killTask

theorem State.Meets.saveTask (h : s.Meets P) {tid x k} : (s.saveTask tid x k).Meets P := by
  rw [State.saveTask]
  have h1 : State.Meets { s with fresh := s.fresh + 1 } P := h.upd
  generalize ({ s with fresh := s.fresh + 1 } : State) = s1 at h1 ⊢
  split
  · exact h1.ckFails
  · refine .ite h1.ckFails (.ite h (.hold (.purge (.report (.setSch ?_ (by simp only [State.settings, State.setSch]))))))
    exact h1.closeRows.settleBuses.emptyLatches.refireAll.refireTraps.writeAt

theorem execCheckpointSave_meets (h : s.Meets P) : MeetsOut P (execCheckpointSave s) := by
  unfold execCheckpointSave
  dsimp only
  split
  · split
    exacts [.ite h.upd.saveTask.next h.upd.next, h.upd.next]
  · exact h.next

theorem State.Meets.noPlane (h : s.Meets P) {num elem block} : (s.noPlane num elem block).Meets P := h.armReport

theorem State.Meets.putBanks (h : s.Meets P) {m img} : (s.putBanks m img).Meets P :=
  State.Meets.foldl (h.setMem) fun _ _ h => h.setCtx

theorem State.Meets.putEngines (h : s.Meets P) {m img} : (s.putEngines m img).Meets P := h.setEng

theorem State.Meets.putFrames (h : s.Meets P) {x l} : MeetsOpt P (s.putFrames x l) := by
  induction l generalizing s with
  | nil => exact h.just
  | cons y r ih =>
    unfold State.putFrames
    split
    · exact ih h
    · exact h.allocFrames.bind fun _ h => ih h

theorem State.Meets.putTokens (h : s.Meets P) {m img} : (s.putTokens m img).Meets P := by
  unfold State.putTokens
  dsimp only
  refine h.foldl fun _ _ h1 => ?_
  refine .setFab ?_
  split
  exacts [h1, h1.nextSeq]

theorem State.Meets.restoreRest (h : s.Meets P) {img m} : MeetsOpt P (s.restoreRest img m) :=
  h.updTask.putFrames.map fun _ h1 => (h1.putBanks.putEngines.setTsk.setFab.setMem.putTokens.foldl fun _ _ h => h.deliverTrap).foldl fun _
    _ h2 => h2.foldl fun _ _ h => h.releaseNode

theorem State.Meets.setHeld (h : s.Meets P) {x} : (s.setHeld x).Meets P := h.setSch
theorem State.Meets.unhold (h : s.Meets P) {lid} : (s.unhold lid).Meets P := h.setSch.dropFetches.setTsk
theorem State.Meets.failHeld (h : s.Meets P) {x code} : (s.failHeld x code).Meets P := h.unhold.launchFails

theorem State.Meets.readSems (h : s.Meets P) {lid l x} : (s.readSems lid l x).2.Meets P := by
  induction x generalizing s with
  | nil => exact h
  | cons y r ih =>
    unfold State.readSems
    split
    next e => exact h.readVa.snd e
    next e =>
      have he := h.readVa.snd e
      split
      next e1 => exact (ih he).snd e1
      next e1 => exact (ih he).snd e1
    next e =>
      have he := h.readVa.snd e
      split
      · exact h.readVa.snd e
      split
      next e1 => exact (ih he).snd e1
      · exact ih he

theorem State.Meets.semPass (h : s.Meets P) {lid} : (s.semPass lid).Meets P := by
  unfold State.semPass
  split
  · exact h
  split
  · exact h
  split
  next e1 => exact .ite ((h.readSems.snd e1).failHeld) ((h.readSems.snd e1).setHeld)
  next e1 => exact (h.readSems.snd e1).setHeld
  next e1 => exact (h.readSems.snd e1).dropFetches.setHeld

theorem execSemaphoreRead_meets (h : s.Meets P) : MeetsOut P (execSemaphoreRead s) := by
  unfold execSemaphoreRead
  dsimp only
  split
  · split
    exacts [h.upd.next, .ite h.upd.semPass.next h.upd.next]
  · exact h.next

theorem State.Meets.consumeRack (h : s.Meets P) {n} : (s.consumeRack n).Meets P := h.setQue
theorem State.Meets.takeOffer (h : s.Meets P) {k l} : (s.takeOffer k l).Meets P :=
  .ite h.setSlot.setDesc (.ite h.setQue.consumeRack h.setQue)

theorem execDispatchTick_meets (h : s.Meets P) : MeetsOut P (execDispatchTick s) := by
  unfold execDispatchTick
  dsimp only
  split
  · split
    · exact h.upd.next
    split
    exacts [h.upd.setSch.next, .ite h.upd.next h.upd.setSch.takeOffer.setSch.hold.semPass.next]
  · exact h.next

theorem State.Meets.placeFails (h : s.Meets P) {x code} : (s.placeFails x code).Meets P := h.failHeld

theorem State.Meets.placeFresh (h : s.Meets P) {x p ox oy c} : (s.placeFresh x p ox oy c).Meets P := by
  unfold State.placeFresh
  dsimp only
  split
  · exact h.noPlane.removePlane.placeFails
  split
  · exact h.placeFails
  split
  · exact h.placeFails
  split
  next e => exact (h.setTask.setTsk.dropPlane.snd e).setTsk.removePlane.placeFails
  next e => exact ((h.setTask.setTsk.dropPlane.snd e).foldl fun _ _ h => h.setThread).unhold.updTask.report

/-- The state that a restoration leaves, whether it has succeeded or not. -/
def Redropped.state : Redropped → State
  | .ok s | .bad _ s => s

theorem State.Meets.redrop (h : s.Meets P) {tid img l} : (s.redrop tid img l).state.Meets P := by
  induction l generalizing s with
  | nil => exact h
  | cons x r ih =>
    unfold State.redrop
    split
    · exact h
    split
    · exact h.noPlane
    split
    next e => exact h.dropPlane.snd e
    next e => exact ih (h.dropPlane.snd e)

theorem State.Meets.restore (h : s.Meets P) {img ox oy cs r} (e : s.restore img ox oy cs = some r) : r.state.Meets P := by
  unfold State.restore at e
  dsimp only at e
  split at e
  next e1 => cases e; exact e1 ▸ h.setTask.redrop
  next e1 =>
    obtain ⟨u, hu, he⟩ := Option.map_eq_some_iff.1 e
    cases he
    exact State.Meets.restoreRest (e1 ▸ h.setTask.redrop : State.Meets (Redropped.ok _).state P) u hu

theorem State.Meets.place (h : s.Meets P) {x} : MeetsOpt P (s.place x) := by
  unfold State.place
  split
  · exact h.noPlane.removePlane.placeFails.just
  split
  · exact .none
  split
  · exact h.placeFresh.just
  next img _ =>
    cases hr : s.restore img _ _ _ with
    | none => exact .none
    | some r =>
      cases r with
      | ok t => exact (h.restore hr : t.Meets P).unhold.just
      | bad num f => exact (h.setErrOf ((State.Meets.same s).restore hr : f.Meets _)).removePlane.placeFails.just

theorem State.Meets.tryPlace (h : s.Meets P) {x} : MeetsOpt P (s.tryPlace x) := h.place.map fun _ h1 => .ite h h1

theorem execTaskRetire_meets (h : s.Meets P) : MeetsOut P (execTaskRetire s) := by
  unfold execTaskRetire
  dsimp only
  split
  · split
    · exact h.upd.next
    split
    exacts [.ite h.upd.next h.upd.finishTask.next, .ite h.upd.endTask.next h.upd.next]
  · exact h.next

theorem State.Meets.drainFor (h : s.Meets P) {tid x lid limit} : (s.drainFor tid x lid limit).Meets P := h.setTask.setSch
theorem State.Meets.killFor (h : s.Meets P) {tid} : (s.killFor tid).Meets P := h.setSch.killTask

theorem State.Meets.preempt (h : s.Meets P) {tid lid prio drainToo} : (s.preempt tid lid prio drainToo).Meets P := by
  unfold State.preempt
  split
  · exact h
  split
  · exact h.endTask
  split
  exacts [h.drainFor, h.killFor, .ite (.ite h.killFor h.drainFor) (.ite h.ckFails h.startCut)]

theorem State.Meets.tryAll (h : s.Meets P) {block first x} : (s.tryAll block first x).2.Meets P := by
  induction x generalizing s block first with
  | nil => exact h
  | cons y r ih =>
    unfold State.tryAll
    split
    · exact h
    split
    next e => exact ih (h.tryPlace.get e)
    · exact ih h

theorem State.Meets.renew (h : s.Meets P) : s.renew.Meets P := h.setTsk

theorem State.Meets.placerPass (h : s.Meets P) : s.placerPass.Meets P := by
  unfold State.placerPass
  dsimp only
  split
  · exact h.setSch.renew
  · refine .renew ?_
    split
    exacts [h.setSch.tryAll, .ite h.setSch.tryAll (h.setSch.tryAll.foldl fun _ _ h => h.preempt)]

theorem execPlacerPass_meets (h : s.Meets P) : MeetsOut P (execPlacerPass s) := by
  unfold execPlacerPass
  split
  exacts [.ite h.upd.placerPass.next h.upd.next, h.next]

theorem execDrainTimeout_meets (h : s.Meets P) : MeetsOut P (execDrainTimeout s) := by
  unfold execDrainTimeout
  split
  · extract_lets s1
    have hs : s1.Meets P := h.upd
    split
    · exact hs.next
    split
    · extract_lets due s2
      have hset : s2.Meets P := hs.setTask.setSch
      refine .ite hs.next ?_
      split
      exacts [hset.next, hset.preempt.next]
    · exact hs.next
  · exact h.next

theorem execQuantumExpiry_meets (h : s.Meets P) : MeetsOut P (execQuantumExpiry s) := by
  unfold execQuantumExpiry
  dsimp only
  split
  · split
    exacts [h.upd.next, .ite h.upd.setTask.next h.upd.next]
  · exact h.next

end Sys2Proof.Machine
end

