-- ==== Sys2Proof/Proofs/SettingsNodes.lean ====
section
-- Some hundred short proofs: checked as tasks of their own, all at once, they outgrow the memory that check.sh allows.
set_option Elab.async false
/-! PROOFS. No instruction of a program changes a setting: elements, every node form, and the issue slot. -/
namespace Sys2Proof.Machine
variable {P : Settings → Prop} {s t : State}

theorem State.Meets.fireInt (h : s.Meets P) {opc r g} : MeetsOut P (s.fireInt opc r g) := h.fireLanes
theorem State.Meets.fireDivInt (h : s.Meets P) {opc r g} : MeetsOut P (s.fireDivInt opc r g) := h.fire fun _ _ _ _ _ h => h.divider.fireVal
theorem State.Meets.fireCmp (h : s.Meets P) {opc r x} : MeetsOut P (s.fireCmp opc r x) := h.fireInt
theorem State.Meets.fireFcmp (h : s.Meets P) {opc r x} : MeetsOut P (s.fireFcmp opc r x) := h.fireRound
theorem State.Meets.fireReduce (h : s.Meets P) {opc r all} : MeetsOut P (s.fireReduce opc r all) := h.fire fun _ _ _ _ _ h => h.fireVal
theorem State.Meets.setElemErr (h : s.Meets P) {e x} : (s.setElemErr e x).Meets P := h.setFab
theorem State.Meets.countPoison (h : s.Meets P) {n} : (s.countPoison n).Meets P := h.setErr
theorem State.Meets.elemLost (h : s.Meets P) {e tid} : (s.elemLost e tid).Meets P := h.setTsk
theorem State.Meets.takeOut (h : s.Meets P) {e} : (s.takeOut e).Meets P := h.setElemErr.setErr.foldl fun _ _ h => h.elemLost
theorem State.Meets.judge (h : s.Meets P) {e} : (s.judge e).Meets P := .ite h.takeOut h
theorem State.Meets.updNodeHist (h : s.Meets P) {e aid node f} : (s.updNodeHist e aid node f).Meets P := h.setNodeSt.setFab

theorem State.Meets.poisonEntry (h : s.Meets P) {e aid node port index} : (s.poisonEntry e aid node port index).Meets P := by
  unfold State.poisonEntry
  split
  exacts [h, h.updNodeHist.setCtx.countPoison]

theorem State.Meets.poisonHold (h : s.Meets P) {e aid node port} : (s.poisonHold e aid node port).Meets P :=
  .ite h h.updNodeHist.countPoison

theorem State.Meets.poisonKept (h : s.Meets P) {e aid k} : (s.poisonKept e aid k).Meets P := by
  unfold State.poisonKept
  dsimp only
  split
  · exact h
  split
  exacts [h, h.setAct.countPoison]

theorem State.Meets.poisonFrame (h : s.Meets P) {e aid line} : (s.poisonFrame e aid line).Meets P := by
  unfold State.poisonFrame
  split
  · exact h.raiseAt
  · refine h.foldl fun _ _ h1 => ?_
    split
    exacts [h1.poisonEntry, h1.poisonHold, h1.poisonKept]

theorem State.Meets.poisonFifo (h : s.Meets P) {e c k} : (s.poisonFifo e c k).Meets P := by
  unfold State.poisonFifo
  dsimp only
  split
  · exact h
  split
  · split
    exacts [h, h.setFab.countPoison]
  split
  · split
    · exact h
    split
    exacts [h, h.setEng.countPoison]
  split
  exacts [h, h.setEng.countPoison]

theorem State.Meets.poisonLine (h : s.Meets P) {e line} : (s.poisonLine e line).Meets P := by
  unfold State.poisonLine
  split
  · split
    exacts [h.poisonFrame, h]
  split
  exacts [.countPoison (s := s.setMem _) (h.setMem (.notes)), (h.choose (n := 1024)).poisonFifo, h]

theorem State.Meets.poisonArray (h : s.Meets P) {e c} : (s.poisonArray e c).Meets P := by
  unfold State.poisonArray
  dsimp only
  split
  · exact h
  split
  · exact h
  split
  exacts [h, h.choose.setArr]

theorem State.Meets.poisonArrayPart (h : s.Meets P) {e c what} : (s.poisonArrayPart e c what).Meets P := by
  unfold State.poisonArrayPart
  split
  exacts [h, .ite h.setArr (.ite h h.setArr)]

theorem State.Meets.redropElem (h : s.Meets P) {e c} : (s.redropElem e c).Meets P := by
  unfold State.redropElem
  split
  · exact h
  split
  · exact h
  split
  exacts [(h.setFab).applyArgs, h]

theorem State.Meets.needReplay (h : s.Meets P) {e} : (s.needReplay e).Meets P := h.setElemErr

theorem State.Meets.elemEvent (h : s.Meets P) {e what} : (s.elemEvent e what).Meets P := by
  unfold State.elemEvent
  split
  exacts [h.countElem, h.countElem.needReplay, .ite h.countElem.needReplay h.countElem.needReplay.poisonEntry, h.countElem.raiseAt,
      h.countElem.redropElem.needReplay, h.countElem.poisonLine, h.countElem.poisonArray]

theorem State.Meets.spareEvent (h : s.Meets P) {bed} : (s.spareEvent bed).Meets P := .ite h.setFab.setFab h.setFab

theorem execElementErrorEvent_meets (h : s.Meets P) : MeetsOut P (execElementErrorEvent s) := by
  unfold execElementErrorEvent
  split
  exacts [.ite h.upd.elemEvent.judge.next (.ite h.upd.spareEvent.next h.upd.next), h.next]

theorem State.Meets.backGens (h : s.Meets P) {e} : (s.backGens e).Meets P := by
  unfold State.backGens
  refine h.foldl fun _ _ h1 => ?_
  split
  exacts [h1.setCtx, h1]

theorem State.Meets.rollBack (h : s.Meets P) {e} : (s.rollBack e).Meets P :=
  (h.foldl fun _ _ h => h.setNodeSt).backGens.foldl fun _ _ h => h.setCtx

theorem State.Meets.reaccept (h : s.Meets P) {e} : (s.reaccept e).Meets P := by
  refine State.Meets.setFab (h.foldl fun s _ h => ?_)
  split
  exacts [.ite (h.setFab.matchTok.getD h) h.taps, h]

theorem execElementReplay_meets (h : s.Meets P) : MeetsOut P (execElementReplay s) := by
  unfold execElementReplay
  split
  exacts [.ite h.upd.next h.upd.setElemErr.setErr.rollBack.reaccept.next, h.next]

theorem State.Meets.poisonLost (h : s.Meets P) {e k} : (s.poisonLost e k).Meets P := .ite h.poisonLine h.poisonArrayPart

theorem execElementSparing_meets (h : s.Meets P) : MeetsOut P (execElementSparing s) := by
  unfold execElementSparing
  split
  exacts [.ite h.upd.next (.ite h.upd.takeOut.next ((h.upd.setFab.setElemErr.setErr.foldl fun _ _ h => h.poisonLost).next)), h.next]

theorem State.Meets.fireMove (h : s.Meets P) {opc r g} : MeetsOut P (s.fireMove opc r g) := h.fire fun _ _ _ _ _ h => h.fireVal
theorem State.Meets.fireTree (h : s.Meets P) {opc r g} : MeetsOut P (s.fireTree opc r g) := h.fire fun _ _ _ _ _ h => h.fireVal

theorem State.Meets.orPoison (h : s.Meets P) {i xs body} (hbody : ∀ s, s.Meets P → (body s).Meets P) : (s.orPoison i xs body).Meets P := by
  unfold State.orPoison
  split
  exacts [h.raise, hbody _ h]

theorem execVote3_meets (h : s.Meets P) {r} : MeetsOut P (execVote3 r s) := by
  unfold execVote3
  split
  exacts [h.next, h.upd.emit.next]

theorem State.Meets.fireInterval (h : s.Meets P) {opc r g} : MeetsOut P (s.fireInterval opc r g) :=
  h.fireOwn fun _ _ h1 => h1.orPoison fun _ h => h.emit

/-- A firing of whatever node form leaves the settings alone. -/
theorem exec_node_meets (h : s.Meets P) {i : Instr} (hi : i.node?.isSome = true) : MeetsOut P (exec i s) := by
  unfold exec
  cases i with
  | mov r | gate r | lite r | ilo r | ihi r | bfx r | bfi r | qamax r | qscale r | vext r | vscan r | rdc r | time r =>
    exact h.fire fun _ _ _ _ _ h => h.fireVal
  | steer r | istamp r => exact h.fireOwn fun _ _ h1 => .ite h1.fireNull (h1.orPoison fun _ h => h.setFlags.emit)
  | merge r => exact h.fireOwn fun _ _ h => h.setFlags.emit
  | sink r => exact h.upd.next
  | nullify r => exact h.fireOwn fun _ _ h1 => h1.orPoison fun _ h => h.fireNull
  | sel r | pand r | por r | pnot r | fabs r | fneg r | fsgn r | fclass r => exact h.fireLanes
  | isnull r => exact h.fireOwn fun _ _ h1 => h1.orPoison fun _ h => h.fireVal
  | vote3 r => exact execVote3_meets h
  | ishift r | iclip r | iwiden r => exact h.fireInterval
  | isplit r | ifront r => exact h.fireOwn fun _ _ h1 => h1.orPoison fun _ h => h.emit
  | add r | sub r | mul r | mulh r | mad r | neg r | abs r | min r | max r | adds r | subs r | and r | or r | xor r | andn r | not r | shl r | shr r
  | sar r | rotl r | clz r | ctz r | popc r | brev r => exact h.fireInt
  | div r | rem r => exact h.fireDivInt
  | cmpeq r | cmpne r | cmplt r | cmple r | cmpltn r | cmplen r => exact h.fireCmp
  | fcmpeq r | fcmpne r | fcmplt r | fcmple r | fcmpun r => exact h.fireFcmp
  | pany r | pall r => exact h.fireReduce
  | fadd r | fsub r | fmul r | fma r | fms r | fnma r => exact h.fireArith
  | fmin r | fmax r | frnd r => exact h.fireRound
  | frcp r | frsq r | fexp2 r | flog2 r | ftanh r => exact h.fireApprox
  | fsqrt r | fdiv r => exact h.fireDivFloat
  | cvt r | cvti r | cvtf r | qpack r | qunpack r => exact h.fire fun _ _ _ _ _ h => h.fireConv
  | srseed r => exact h.fire fun _ _ _ _ _ h => h.seed.fireVal
  | vshuf r | vbcast r | vins r | vpack r | vunpk r | vslide r | vrotl r => exact h.fireMove
  | vredadd r | vredmax r | vredmin r => exact h.fireTree
  | ld r | ldv r => exact h.fireMem fun _ _ _ _ _ h => h.startLoad
  | st r | stv r | wakea r => exact h.fireMem fun _ _ _ _ _ h => h.startStore
  | ldb r => exact h.fireMem fun _ _ _ _ _ h => h.startLdb
  | stb r => exact h.fireMem fun _ _ _ _ _ h => h.startStb
  | pref r => exact execPref_meets h
  | amoadd r | amofadd r | amomin r | amomax r | amoand r | amoor r | amoxor r | amoswp r | amocas r => exact h.fireAmo
  | joinf r => exact execJoinf_meets h
  | waita r => exact h.fireMem fun _ _ _ _ _ h => h.startWaita
  | br r | bri r | call r => exact h.fireAcct (fun _ _ h => skip_meets h) fun _ _ _ h => h.goBlock
  | ret r => exact execRet_meets h
  | wrc r => exact h.fireAcct (fun _ _ h => h.slotKnown) fun _ _ _ h => h.updAct.slotKnown
  | spawn r => exact execSpawn_meets h
  | exit r | halt r => exact h.fireAcct (fun _ _ h => skip_meets h) fun _ _ _ h => h.nameBranch
  | join r | leave r => exact h.fire fun _ _ _ _ _ h => h.addEffect.fireVal
  | gbar r => exact h.fire fun _ _ _ _ _ h => .ite h.holdOp.arrive h.holdOp
  | yield r | est r => exact h.fire fun _ _ _ _ _ h => h.addEffect
  | launch r => exact h.fire fun _ _ _ _ _ h1 => h1.startRead fun _ _ h => h.performLaunch
  | sbind r => exact h.fire fun _ _ _ _ _ h1 => h1.startRead fun _ _ h => h.performSbind
  | srel r => exact h.fire fun _ _ _ _ _ h1 => ((h1.foldl fun _ _ h => h.endId).setEng.openBindings.foldl fun _ _ h => h.endId).reply
  | spos r => exact execSpos_meets h
  | xcopy r => exact h.fireWriting fun _ _ h => h.performXcopy
  | nmred r => exact h.fireWriting fun _ _ h => h.performNmred
  | rowact r | rowcon r | rowpre r => exact h.fireHeld fun _ _ h => h.performRow
  | rowput r => exact h.fireWriting fun _ _ h => h.performRow
  | qput r | qputNb r => exact h.fireWriting fun _ _ h => h.performQput
  | argw r => exact h.fireHeld fun _ _ h => h.performArgw
  | mwload r => exact h.fireMatrix fun _ _ h => h.performMwload
  | mmac r => exact h.fireMatrix fun _ _ h => h.performMmac
  | mdrain r => exact h.fireMatrix fun _ _ h => h.performMdrain
  | macc r => exact h.fireMatrix fun _ _ h => h.performMacc
  | mchk r => exact h.fire fun _ _ _ _ _ h => h.onArray fun _ _ => .ite h.reply (h.startHeld fun _ _ h => h.performMchk)
  | mrel r => exact h.fireMatrix fun _ _ h => h.performMrel
  | fctb r => exact h.fireFct fun _ _ h => h.performFctb
  | fcts r => exact h.fireFct fun _ _ h => h.performFcts
  | fctn r => exact h.fireFct fun _ _ h => h.performFctn
  | fctr r => exact h.fire fun _ _ _ _ _ h1 => .ite h1.raise (h1.foldl fun _ _ h => h.sendBeat)
  | fctsv r => exact h.fireFct fun _ _ h => h.performFctsv
  | fcte r => exact h.fireFct fun _ _ h => h.performFcte
  | redput r => exact execRedput_meets h
  | redwait r => exact execRedwait_meets h
  | coll r => exact h.fireHeld fun _ _ h => h.performColl
  | collw r => exact h.fireHeld fun _ _ h => h.performCollw
  | sysrd r => exact execSysrd_meets h
  | syswr r => exact h.fireHeld fun _ _ h => h.performSyswr
  | trap r | bkpt r => exact h.fire fun _ _ _ _ _ h => h.raise
  | eret r => exact h.fireAcct (fun _ _ h => skip_meets h) fun _ _ _ h => .ite h.nameBranch h.raiseAccess
  | tapset r => exact h.fireHeld fun _ _ h => h.performTapset
  | _ => cases hi

theorem State.Meets.chooseCtx (h : s.Meets P) {e c} (e : s.chooseCtx e = some (c, t)) : t.Meets P := by
  unfold State.chooseCtx at e
  dsimp only at e
  split at e
  · cases e
  · split at e
    · cases e; exact h
    · obtain ⟨_, _, he⟩ := Option.map_eq_some_iff.1 e
      cases he
      exact h.newRound

theorem State.Meets.issueSlot (h : s.Meets P) {e c f} (hs : s.issueSlot e = some (c, f, t)) : t.Meets P := by
  unfold State.issueSlot at hs
  split at hs
  · cases hs
  · split at hs
    · cases hs
    next hc =>
      split at hs
      · cases hs
      · cases hs
        exact ((State.Meets.chooseCtx h hc).takeFiring.use (k := busyIssue e)).upd

theorem State.Meets.issueAt (h : s.Meets P) {e} : MeetsOpt P (s.issueAt e).state? := by
  unfold State.issueAt
  split
  · exact h.just
  next hs =>
    have ht := State.Meets.issueSlot h hs
    split
    · exact .none
    split
    · exact .none
    split
    · exact ht.upd.just
    split
    next hr => exact (ht.raiseStream.get hr).upd.just
    next => exact ht.just

theorem State.issueAt_runs_node {e : Nat} {i : Instr} (h : s.issueAt e = .run i t) : i.node?.isSome = true := by
  unfold State.issueAt at h
  split at h
  · cases h
  · split at h
    · cases h
    · split at h
      · cases h
      next hn =>
        split at h
        · cases h
        · split at h
          · cases h
          · cases h
            rw [hn, Option.isSome_some]

/-- An issue slot, whatever it does, leaves the settings alone. -/
theorem step_issue_meets (h : s.Meets P) {e : Nat} {rest : List Stim} (ha : s.agenda = .issue e :: rest) : MeetsOut P (step s) := by
  have hi := State.Meets.issueAt (s := { s with agenda := rest }) h.upd (e := e)
  unfold step
  rw [ha]
  dsimp only
  split
  next hs => exact (hi _ (by rw [hs]; rfl)).next
  next hs => exact exec_node_meets (hi _ (by rw [hs]; rfl)) (State.issueAt_runs_node hs)
  · exact .fault

/-- Settles O60: what a firing and an issue slot keep holds of the property "these are the settings of `s`". -/
theorem programsChangeNoSetting : Obligations.ProgramsChangeNoSetting := by
  unfold Obligations.ProgramsChangeNoSetting
  exact ⟨fun _ s t hi ht => (exec_node_meets (.same s) hi t ht).holds, fun s t _ _ ha ht => (step_issue_meets (.same s) ha t ht).holds⟩

end Sys2Proof.Machine
end

