-- ==== Sys2Proof/Proofs/SettingsHost.lean ====
section
-- Some hundred short proofs: checked as tasks of their own, all at once, they outgrow the memory that check.sh allows.
set_option Elab.async false
/-! PROOFS. The settings keep their ranges: reset and boot, host queues, power, links and admin commands. -/
namespace Sys2Proof.Machine
variable {s t : State}

/-! ### Parts of the state in which few settings have a range -/

theorem State.Meets.anyMem (h : s.Meets Settings.Within) {m} : (s.setMem m).Meets Settings.Within := h.within
theorem State.Meets.anyQue (h : s.Meets Settings.Within) {x} : (s.setQue x).Meets Settings.Within := h.within
theorem State.Meets.anyEng (h : s.Meets Settings.Within) {x} : (s.setEng x).Meets Settings.Within := h.within
theorem State.Meets.anyLnk (h : s.Meets Settings.Within) {l : Links} (e : l.self = s.lnk.self ∧ l.tmo = s.lnk.tmo ∧ l.drain = s.lnk.drain) :
    (s.setLnk l).Meets Settings.Within := by
  obtain ⟨hs, ht, hd⟩ := e
  refine h.within ?_
  simp only [Settings.ranged, State.settings, State.setLnk, hs, ht, hd]

/-! ### Reset and boot -/

theorem execPackageReset_meets (h : s.Meets Settings.Within) : MeetsOut Settings.Within (execPackageReset s) := by
  unfold execPackageReset
  split
  exacts [(State.Meets.mk (State.resetOf_within s.fuse)).within.next, h.next]

theorem State.Meets.setBoot (h : s.Meets Settings.Within) {b : Boot} (hb : b.state.toNat ≤ 3) : State.Meets { s with boot := b } Settings.Within :=
  ⟨{ h.holds with boot := hb }⟩

theorem State.Meets.bootEnter (h : s.Meets Settings.Within) : State.Meets { s with boot := s.boot.enter } Settings.Within := by
  refine h.setBoot ?_
  unfold Boot.enter
  split
  exacts [(by decide : (1 : BitVec 3).toNat ≤ 3), h.holds.boot]

theorem State.Meets.bootFails (h : s.Meets Settings.Within) {code} : (s.bootFails code).Meets Settings.Within := by
  refine h.setBoot ?_
  split
  exacts [(by decide : (3 : BitVec 3).toNat ≤ 3), (by decide : (1 : BitVec 3).toNat ≤ 3)]

theorem State.Meets.bootImage (h : s.Meets Settings.Within) {img} : (s.bootImage img).Meets Settings.Within := by
  unfold State.bootImage
  split
  exacts [h.bootFails, ⟨{ h.holds with boot := (by decide : (2 : BitVec 3).toNat ≤ 3) }⟩]

theorem execBootPushGo_meets (h : s.Meets Settings.Within) : MeetsOut Settings.Within (execBootPushGo s) := by
  unfold execBootPushGo
  split
  · have he : State.Meets { s with inp := none, boot := s.boot.enter } Settings.Within := State.Meets.bootEnter (s := { s with inp := none }) h.upd
    exact .ite he.next (.ite (he.within).next (State.Meets.readAt (k := .global) he.within).bootImage.next)
  · exact h.next

theorem execBootSourceTimeout_meets (h : s.Meets Settings.Within) : MeetsOut Settings.Within (execBootSourceTimeout s) := by
  unfold execBootSourceTimeout
  split
  · have he : State.Meets { s with inp := none, boot := s.boot.enter } Settings.Within := State.Meets.bootEnter (s := { s with inp := none }) h.upd
    exact .ite he.bootFails.next he.next
  · exact h.next

theorem execBootNetworkFetchDone_meets (h : s.Meets Settings.Within) : MeetsOut Settings.Within (execBootNetworkFetchDone s) := by
  unfold execBootNetworkFetchDone
  split
  · have he : State.Meets { s with inp := none, boot := s.boot.enter } Settings.Within := State.Meets.bootEnter (s := { s with inp := none }) h.upd
    dsimp only
    split
    · exact he.next
    · exact .ite he.setLnk.bootImage.next he.next
  · exact h.next

theorem execDhcpv6Timeout_meets (h : s.Meets Settings.Within) : MeetsOut Settings.Within (execDhcpv6Timeout s) := by
  unfold execDhcpv6Timeout
  split
  · have he : State.Meets { s with inp := none, boot := s.boot.enter } Settings.Within := State.Meets.bootEnter (s := { s with inp := none }) h.upd
    exact .ite he.within.next he.next
  · exact h.next

/-! ### SPDM, the host port and the link to the host -/

theorem State.Meets.setPhase (h : s.Meets Settings.Within) {x n} : (s.setPhase x n).Meets Settings.Within := h.within
theorem State.Meets.say (h : s.Meets Settings.Within) {x msg bs} : (s.say x msg bs).Meets Settings.Within := h.emitOut
theorem State.Meets.spdmAt (h : s.Meets Settings.Within) {x n f} (hf : ∀ s, s.Meets Settings.Within → (f s).Meets Settings.Within) :
    MeetsOut Settings.Within (s.spdmAt x n f) :=
  
  .ite h.next (.ite h.say.next ((hf _ h).next))

theorem execGetVersion_meets (h : s.Meets Settings.Within) : MeetsOut Settings.Within (execGetVersion s) := by
  unfold execGetVersion
  split
  exacts [h.upd.spdmAt fun _ h => h.setPhase.say, h.next]

theorem execGetCapabilities_meets (h : s.Meets Settings.Within) : MeetsOut Settings.Within (execGetCapabilities s) := by
  unfold execGetCapabilities
  split
  exacts [h.upd.spdmAt fun _ h => h.setPhase.say, h.next]

theorem execNegotiateAlgorithms_meets (h : s.Meets Settings.Within) : MeetsOut Settings.Within (execNegotiateAlgorithms s) := by
  unfold execNegotiateAlgorithms
  split
  exacts [h.upd.spdmAt fun _ h => .say (.ite h.setPhase h), h.next]

theorem execGetDigests_meets (h : s.Meets Settings.Within) : MeetsOut Settings.Within (execGetDigests s) := by
  unfold execGetDigests
  split
  exacts [h.upd.spdmAt fun _ h => h.say, h.next]

theorem execGetCertificate_meets (h : s.Meets Settings.Within) : MeetsOut Settings.Within (execGetCertificate s) := by
  unfold execGetCertificate
  split
  exacts [h.upd.spdmAt fun _ h => h.say, h.next]

theorem execChallenge_meets (h : s.Meets Settings.Within) : MeetsOut Settings.Within (execChallenge s) := by
  unfold execChallenge
  split
  exacts [h.upd.spdmAt fun _ h => h.say, h.next]

theorem execGetMeasurements_meets (h : s.Meets Settings.Within) : MeetsOut Settings.Within (execGetMeasurements s) := by
  unfold execGetMeasurements
  split
  · refine h.upd.spdmAt fun _ h1 => ?_
    split
    exacts [h1.say, h1.say]
  · exact h.next

theorem execKeyExchange_meets (h : s.Meets Settings.Within) : MeetsOut Settings.Within (execKeyExchange s) := by
  unfold execKeyExchange
  split
  exacts [h.upd.spdmAt fun _ h => .ite h.say h.within.say, h.next]

theorem execFinish_meets (h : s.Meets Settings.Within) : MeetsOut Settings.Within (execFinish s) := by
  unfold execFinish
  split
  exacts [h.upd.spdmAt fun _ h => .ite h.within.say h.say, h.next]

theorem execEndSession_meets (h : s.Meets Settings.Within) : MeetsOut Settings.Within (execEndSession s) := by
  unfold execEndSession
  split
  exacts [h.upd.spdmAt fun _ h => .ite h.within.say h.say, h.next]

theorem State.Meets.bar2Put (h : s.Meets Settings.Within) {data pois x x1} : (s.bar2Put data pois x x1).Meets Settings.Within := by
  induction x generalizing s x1 with
  | nil => exact h
  | cons y r ih =>
    unfold State.bar2Put
    refine ih ?_
    split
    · exact h.writeAt
    · exact h

theorem State.Meets.bar2Get (h : s.Meets Settings.Within) {l} : (s.bar2Get l).2.2.Meets Settings.Within := by
  induction l generalizing s with
  | nil => exact h
  | cons y r ih =>
    unfold State.bar2Get
    dsimp only
    refine ih ?_
    split
    exacts [h.readAt (k := .global), h.free]

theorem execBar2Write_meets (h : s.Meets Settings.Within) : MeetsOut Settings.Within (execBar2Write s) := by
  unfold execBar2Write
  split
  exacts [.ite h.upd.next (.ite h.upd.emitOut.next (.ite h.upd.next (.next (.bar2Put (.ite h.upd.emitOut h.upd))))), h.next]

theorem execBar2Read_meets (h : s.Meets Settings.Within) : MeetsOut Settings.Within (execBar2Read s) := by
  unfold execBar2Read
  split
  exacts [.ite h.upd.next (.ite h.upd.emitOut.next (.ite h.upd.next h.upd.bar2Get.emitOut.next)), h.next]

theorem State.Meets.revoke (h : s.Meets Settings.Within) {k sig} : (s.revoke k sig).Meets Settings.Within := .ite h.within h

theorem execPcieLinkTrained_meets (h : s.Meets Settings.Within) : MeetsOut Settings.Within (execPcieLinkTrained s) := by
  unfold execPcieLinkTrained
  split
  exacts [.ite h.within.next h.upd.next, h.next]

theorem State.Meets.later (h : s.Meets Settings.Within) {e} : (s.later e).Meets Settings.Within := h.setQue

theorem execNotifyWrite_meets (h : s.Meets Settings.Within) : MeetsOut Settings.Within (execNotifyWrite s) := by
  unfold execNotifyWrite
  dsimp only
  split
  · split
    · exact h.upd.next
    split
    · exact h.upd.later.next
    · refine .next (.notify ?_)
      split
      exacts [h.upd.use, h.upd]
  · exact h.next

theorem State.Meets.mapQueue (h : s.Meets Settings.Within) {q k} : (s.mapQueue q k).Meets Settings.Within := by
  unfold State.mapQueue
  dsimp only
  split
  · exact h.desc
  · refine .setSlot (.setQue ?_ (by simp only [State.settings, State.setQue]))
    exact h.desc.desc.desc.desc.desc.setDesc

theorem State.Meets.freeSlot (h : s.Meets Settings.Within) {k} : (s.freeSlot k).Meets Settings.Within :=
  have hd := h.setDesc.setDesc.setDesc
  .ite h (.setSlot (.dropFetches (.ite (.setQue hd (by simp only [State.settings, State.setQue])) hd)))
theorem State.Meets.unmapSlot (h : s.Meets Settings.Within) {k} : (s.unmapSlot k).Meets Settings.Within := .ite h.setSlot h.freeSlot

theorem execQueueMap_meets (h : s.Meets Settings.Within) : MeetsOut Settings.Within (execQueueMap s) := by
  unfold execQueueMap
  split
  exacts [.ite h.upd.next (.ite h.upd.later.next h.upd.mapQueue.next), h.next]

theorem execQueueUnmap_meets (h : s.Meets Settings.Within) : MeetsOut Settings.Within (execQueueUnmap s) := by
  unfold execQueueUnmap
  split
  exacts [.ite h.upd.later.next h.upd.unmapSlot.next, h.next]

theorem State.Meets.ringEntry (h : s.Meets Settings.Within) {k w ring i} : (s.ringEntry k w ring i).2.Meets Settings.Within := by
  unfold State.ringEntry
  split
  exacts [h.readVa, h.hostRead]

theorem State.Meets.ringEntries (h : s.Meets Settings.Within) {k w ring i x} : (s.ringEntries k w ring i x).2.Meets Settings.Within := by
  induction x generalizing s i with
  | zero => exact h
  | succ n ih =>
    unfold State.ringEntries
    split
    next e =>
      have he := h.ringEntry.snd e
      split
      next e1 => exact (ih he).snd e1
      · exact ih he
    · exact h.ringEntry

theorem State.Meets.noop (h : s.Meets Settings.Within) {asid l} : (s.noop asid l).Meets Settings.Within := .ite h h.addVa

theorem State.Meets.fetchHead (h : s.Meets Settings.Within) {k bad} : (s.fetchHead k bad).Meets Settings.Within := by
  unfold State.fetchHead
  dsimp only
  split
  · exact h.desc.dropFetches
  split
  · exact h.desc.desc.queueErr
  split
  next e => exact h.desc.desc.ringEntry.snd e
  next e =>
    have he := h.desc.desc.ringEntry.snd e
    split
    · exact .ite he (he.dropFetches.setSlot.setDesc.noop)
    split
    · exact h.desc.desc.ringEntry.snd e
    split
    · exact he.dropFetches.queueErr
    split
    next e2 => exact he.ringEntries.snd e2
    next e2 => exact (he.ringEntries.snd e2).dropFetches.setSlot
    next e2 => exact (he.ringEntries.snd e2).dropFetches.queueErr
  next e => exact (h.desc.desc.ringEntry.snd e).dropFetches.queueErr

theorem State.Meets.fetchSlot (h : s.Meets Settings.Within) {k bad} : (s.fetchSlot k bad).Meets Settings.Within :=
  .ite h (.ite h.fetchHead.freeSlot h.fetchHead)

theorem execSlotFetch_meets (h : s.Meets Settings.Within) : MeetsOut Settings.Within (execSlotFetch s) := by
  unfold execSlotFetch
  split
  exacts [h.upd.fetchSlot.next, h.next]

theorem State.Meets.rackEntry (h : s.Meets Settings.Within) {i bs} : (s.rackEntry i bs).Meets Settings.Within := .ite h.setQue.report h.setQue
theorem State.Meets.rackWrite (h : s.Meets Settings.Within) {off data} : (s.rackWrite off data).Meets Settings.Within :=
  .ite h.rackEntry (.ite h.rackEntry.rackEntry h.badRing)

theorem execRackRingWrite_meets (h : s.Meets Settings.Within) : MeetsOut Settings.Within (execRackRingWrite s) := by
  unfold execRackRingWrite
  split
  exacts [.ite h.upd.next (.ite h.upd.emitOut.next h.upd.rackWrite.emitOut.next), h.next]

theorem execRackEthernetLaunch_meets (h : s.Meets Settings.Within) : MeetsOut Settings.Within (execRackEthernetLaunch s) := by
  unfold execRackEthernetLaunch
  dsimp only
  split
  exacts [.ite h.upd.next (.ite h.upd.setQue.setQue.next h.upd.setQue.choose.report.next), h.next]

theorem State.Meets.rackDrop (h : s.Meets Settings.Within) {eth l} : (s.rackDrop eth l).Meets Settings.Within := .ite h.setQue h.consumeRack

theorem execRackLaunchConsume_meets (h : s.Meets Settings.Within) : MeetsOut Settings.Within (execRackLaunchConsume s) := by
  unfold execRackLaunchConsume
  split
  · extract_lets s1
    have hs : s1.Meets Settings.Within := h.upd
    refine .ite hs.next ?_
    split
    · exact hs.next
    refine .ite (.ite hs.rackDrop.noop.next hs.next) ?_
    split
    · exact hs.rackDrop.report.next
    · exact (hs.setQue (by split <;> rfl)).next
  · exact h.next

/-! ### Heat and power -/

theorem State.Meets.setThm (h : s.Meets Settings.Within) {t : Thermal} (ht : min 255 (t.resume.toNat + 5) ≤ t.retire.toNat) :
    State.Meets { s with thm := t } Settings.Within := ⟨{ h.holds with retire := ht }⟩

theorem execThermSample_meets (h : s.Meets Settings.Within) : MeetsOut Settings.Within (execThermSample s) := by
  unfold execThermSample
  split
  · refine .ite h.upd.next (State.Meets.next (State.Meets.setThm (s := { s with inp := none }) h.upd ?_))
    dsimp only [Thermal.latch]
    exact h.holds.retire
  · exact h.next

theorem execBankThermalRetire_meets (h : s.Meets Settings.Within) : MeetsOut Settings.Within (execBankThermalRetire s) := by
  unfold execBankThermalRetire
  split
  exacts [.ite h.upd.next (.ite h.upd.next (State.Meets.next h.within)), h.next]

theorem execThermSensFailedClear_meets (h : s.Meets Settings.Within) : MeetsOut Settings.Within (execThermSensFailedClear s) := by
  unfold execThermSensFailedClear
  split
  · refine .ite (State.Meets.next (State.Meets.setThm (s := { s with inp := none }) h.upd ?_)) h.upd.next
    dsimp only [Thermal.clearFailed]
    split
    exacts [h.holds.retire, h.holds.retire]
  · exact h.next

theorem State.Meets.setThermLim (h : s.Meets Settings.Within) {v} : (s.setThermLim v).Meets Settings.Within := by
  have hr := field_lt v 15 8
  refine h.setThm ?_
  simp only [Thermal.latch, BitVec.toNat_ofNat]
  omega

theorem execThermLimWrite_meets (h : s.Meets Settings.Within) : MeetsOut Settings.Within (execThermLimWrite s) := by
  unfold execThermLimWrite
  split
  exacts [h.upd.setThermLim.next, h.next]

/-- The power settings lie in their ranges (R24, R25). -/
structure Power.Within (p : Power) : Prop where
  cap : 1500 ≤ p.cap.toNat ∧ p.cap.toNat ≤ 4000
  win : 100 ≤ p.win.toNat ∧ p.win.toNat ≤ 1000000
  step : p.step.toNat ≤ 6

theorem State.Meets.pow (h : s.Meets Settings.Within) : s.pow.Within := ⟨h.holds.cap, h.holds.win, h.holds.step⟩
theorem State.Meets.setPow (h : s.Meets Settings.Within) {p : Power} (hp : p.Within) : State.Meets { s with pow := p } Settings.Within :=
  ⟨{ h.holds with cap := hp.cap, win := hp.win, step := hp.step }⟩

theorem Power.Within.takeCap {p : Power} (h : p.Within) (w : W32) : (p.takeCap w).Within :=
  { h with cap := toNat_bv_clamp (by decide) (by decide) _ }

theorem Power.Within.sample {p : Power} (h : p.Within) (watts now : Nat) (up : Bool) : (p.sample watts now up).Within := by
  obtain ⟨hc, hw, hs⟩ := foldl_keeps Power.Within Power.takeCap (fun _ w hp => hp.takeCap w) (p.capPcie ++ p.capEth) p h
  exact ⟨hc, hw, hs⟩

theorem Power.Within.act {p : Power} (h : p.Within) : p.act.Within := by
  obtain ⟨hc, hw, hs⟩ := h
  unfold Power.act
  dsimp only
  split
  · exact ⟨hc, hw, Nat.le_refl _⟩
  split
  · exact ⟨hc, hw, hs⟩
  split
  next hup => exact ⟨hc, hw, by bv_omega⟩
  split
  · exact ⟨hc, hw, hs⟩
  split
  · exact ⟨hc, hw, hs⟩
  split
  next hdown => exact ⟨hc, hw, by bv_omega⟩
  · exact ⟨hc, hw, hs⟩

theorem execPowerSample_meets (h : s.Meets Settings.Within) : MeetsOut Settings.Within (execPowerSample s) := by
  unfold execPowerSample
  split
  · exact .ite h.upd.next ((State.Meets.setPow (s := (State.choose { s with inp := none } 2).2) h.upd.choose (h.pow.sample ..)).next)
  · exact h.next

theorem State.Meets.thermStep (h : s.Meets Settings.Within) : s.thermStep.Meets Settings.Within := .ite h.within (.ite h.within h)

theorem execPowerPeriod_meets (h : s.Meets Settings.Within) : MeetsOut Settings.Within (execPowerPeriod s) := by
  unfold execPowerPeriod
  split
  · have ht : (State.thermStep { s with inp := none }).Meets Settings.Within := .thermStep h.upd
    obtain ⟨hc, hw, hs⟩ := ht.pow.act
    refine .ite h.upd.next (State.Meets.next (ht.setPow ?_))
    exact ⟨hc, hw, hs⟩
  · exact h.next

theorem execPowerOverDeadline_meets (h : s.Meets Settings.Within) : MeetsOut Settings.Within (execPowerOverDeadline s) := by
  unfold execPowerOverDeadline
  dsimp only
  split
  · split
    exacts [.ite (State.Meets.next h.within) h.upd.next, h.upd.next]
  · exact h.next

theorem execPwrCapWrite_meets (h : s.Meets Settings.Within) : MeetsOut Settings.Within (execPwrCapWrite s) := by
  unfold execPwrCapWrite
  dsimp only
  split
  · split
    · exact h.upd.next
    split
    exacts [State.Meets.next h.within, .ite h.upd.next (State.Meets.next h.within), h.upd.next]
  · exact h.next

theorem execPwrWinWrite_meets (h : s.Meets Settings.Within) : MeetsOut Settings.Within (execPwrWinWrite s) := by
  unfold execPwrWinWrite
  split
  · exact .ite h.upd.next (State.Meets.next (State.Meets.setPow (s := { s with inp := none }) h.upd
      { h.pow with win := toNat_bv_clamp (by decide) (by decide) _ }))
  · exact h.next

theorem State.Meets.setPort (h : s.Meets Settings.Within) {p x} : (s.setPort p x).Meets Settings.Within := h.within

theorem execLaneSparing_meets (h : s.Meets Settings.Within) : MeetsOut Settings.Within (execLaneSparing s) := by
  unfold execLaneSparing
  dsimp only
  split
  · split
    exacts [.ite h.upd.setPort.next h.upd.next, h.upd.next]
  · exact h.next

theorem State.Meets.cutReq (h : s.Meets Settings.Within) {q} : (s.cutReq q).Meets Settings.Within := by
  unfold State.cutReq
  split
  · exact h.answerFetch
  split
  · split
    · exact h.failCopy
    split
    exacts [h.endCopy, h]
  split
  · exact h.isolated
  split
  exacts [h.dropWatch.joinWork.reply, h]

theorem State.Meets.cutReqs (h : s.Meets Settings.Within) {port obj p} : (s.cutReqs port obj p).Meets Settings.Within := by
  have hl := foldl_keeps (fun l : Links => l.self = s.lnk.self ∧ l.tmo = s.lnk.tmo ∧ l.drain = s.lnk.drain)
    (fun l q => l.logDrop port obj q.asid q.pa q.kind) (fun _ _ h => h) (s.lnk.reqs.filter p) s.lnk ⟨rfl, rfl, rfl⟩
  exact State.Meets.foldl (h.anyLnk hl) fun _ _ h => h.cutReq
theorem Links.openDrop_ranged (l : Links) (port : Bool) (obj : Nat) :
    (l.openDrop port obj).self = l.self ∧ (l.openDrop port obj).tmo = l.tmo ∧ (l.openDrop port obj).drain = l.drain := by
  unfold Links.openDrop
  split <;> exact ⟨rfl, rfl, rfl⟩
theorem State.Meets.openDrop (h : s.Meets Settings.Within) {port obj} {l : Links} 
    (e : l = { s.lnk.openDrop port obj with peerIso := l.peerIso, noticed := l.noticed }) : (s.setLnk l).Meets Settings.Within := by
  rw [e]
  exact h.anyLnk (s.lnk.openDrop_ranged port obj)
theorem State.Meets.breakRounds (h : s.Meets Settings.Within) {n} : (s.breakRounds n).Meets Settings.Within := h.setEng
theorem State.Meets.isolatePeer (h : s.Meets Settings.Within) {n} : (s.isolatePeer n).Meets Settings.Within :=
  .ite h (h.breakRounds.openDrop rfl).cutReqs
theorem State.Meets.noticeDone (h : s.Meets Settings.Within) {n} : (s.noticeDone n).Meets Settings.Within := .ite h.isolatePeer.emitOut h
theorem State.Meets.isolatePort (h : s.Meets Settings.Within) {p state} : (s.isolatePort p state).Meets Settings.Within :=
  .ite h ((h.setPort.openDrop rfl).cutReqs.foldl fun _ _ h => h.noticeDone)
theorem State.Meets.laneError (h : s.Meets Settings.Within) {p w} : (s.laneError p w).Meets Settings.Within := .ite h.setPort.isolatePort h.setPort

theorem execLaneErrorEvent_meets (h : s.Meets Settings.Within) : MeetsOut Settings.Within (execLaneErrorEvent s) := by
  unfold execLaneErrorEvent
  split
  exacts [.ite h.upd.laneError.next h.upd.next, h.next]

theorem execPortDown_meets (h : s.Meets Settings.Within) : MeetsOut Settings.Within (execPortDown s) := by
  unfold execPortDown
  split
  exacts [.ite h.upd.isolatePort.next h.upd.next, h.next]

theorem execPortLinkUp_meets (h : s.Meets Settings.Within) : MeetsOut Settings.Within (execPortLinkUp s) := by
  unfold execPortLinkUp
  split
  exacts [.ite h.upd.setPort.next h.upd.next, h.next]

theorem State.Meets.accessDone (h : s.Meets Settings.Within) {x q data pois} : (s.accessDone x q data pois).Meets Settings.Within := by
  unfold State.accessDone
  extract_lets k mask x1 x2 x3 s1 s2 s3
  have hsnap : s1.Meets Settings.Within := by
    dsimp only [s1]
    split
    exacts [h.snapEarlier, h]
  have hdone : s2.Meets Settings.Within := hsnap.setDone.freeLatch.freeWaiter
  have hperf : s3.Meets Settings.Within := hdone.notePerformed
  exact .ite (.ite hperf.wake hperf) hdone

theorem State.Meets.watchDone (h : s.Meets Settings.Within) {w data pois} : (s.watchDone w data pois).Meets Settings.Within := h.sawWord
theorem State.Meets.copyDone (h : s.Meets Settings.Within) {c q data marks} : (s.copyDone c q data marks).Meets Settings.Within :=
  .ite h.setCopy (.ite h.endCopy h)

theorem State.Meets.remoteDone (h : s.Meets Settings.Within) {id data marks} : (s.remoteDone id data marks).Meets Settings.Within := by
  unfold State.remoteDone
  dsimp only
  split
  · exact h
  split
  · exact h.setLnk.answerFetch.sendIrq
  split
  · exact h.setLnk.copyDone
  split
  · exact h.setLnk.accessDone
  split
  exacts [h.setLnk.watchDone, h.setLnk]

theorem execRemoteCompletionReceived_meets (h : s.Meets Settings.Within) : MeetsOut Settings.Within (execRemoteCompletionReceived s) := by
  unfold execRemoteCompletionReceived
  dsimp only
  split
  · split
    exacts [h.upd.remoteDone.noticeDone.next, h.upd.next]
  · exact h.next

theorem State.Meets.sendWaiting (h : s.Meets Settings.Within) {q} : (s.sendWaiting q).Meets Settings.Within :=
  .ite h.cutReqs.noticeDone (.ite h h.setLnk.emitOut)

theorem execRemoteRequestWaitEnd_meets (h : s.Meets Settings.Within) : MeetsOut Settings.Within (execRemoteRequestWaitEnd s) := by
  unfold execRemoteRequestWaitEnd
  dsimp only
  split
  · split
    exacts [h.upd.sendWaiting.next, h.upd.next]
  · exact h.next

theorem execRequestTimeout_meets (h : s.Meets Settings.Within) : MeetsOut Settings.Within (execRequestTimeout s) := by
  unfold execRequestTimeout
  dsimp only
  split
  · split
    exacts [.ite h.upd.isolatePeer.next h.upd.next, h.upd.next]
  · exact h.next

theorem execErrorCompletionReceived_meets (h : s.Meets Settings.Within) : MeetsOut Settings.Within (execErrorCompletionReceived s) := by
  unfold execErrorCompletionReceived
  dsimp only
  split
  · split
    exacts [h.upd.isolatePeer.next, h.upd.next]
  · exact h.next

theorem execDrainNoticeReceived_meets (h : s.Meets Settings.Within) : MeetsOut Settings.Within (execDrainNoticeReceived s) := by
  unfold execDrainNoticeReceived
  split
  exacts [.ite h.upd.next h.upd.setLnk.noticeDone.next, h.next]

theorem execLateCompletion_meets (h : s.Meets Settings.Within) : MeetsOut Settings.Within (execLateCompletion s) := by
  unfold execLateCompletion
  split
  exacts [.ite h.upd.setLnk.next h.upd.next, h.next]

theorem execInboundFromIsolatedPeer_meets (h : s.Meets Settings.Within) : MeetsOut Settings.Within (execInboundFromIsolatedPeer s) := by
  unfold execInboundFromIsolatedPeer
  split
  exacts [.ite h.upd.emitOut.next h.upd.next, h.next]

theorem State.Meets.writeMarked (h : s.Meets Settings.Within) {x bs marks} : (s.writeMarked x bs marks).Meets Settings.Within :=
  h.foldl fun _ _ h => h.writeAt

theorem State.Meets.inbound (h : s.Meets Settings.Within) {n r} : (s.inbound n r).Meets Settings.Within := by
  unfold State.inbound
  dsimp only
  split
  · split
    exacts [h.emitOut, h.free.emitOut]
  split
  · exact (h.readAt (k := .global)).emitOut
  · exact h.writeMarked.emitOut
  · refine .emitOut ?_
    split
    exacts [(h.readAt (k := .global)).writeAt, h.readAt (k := .global)]

theorem execInboundRequest_meets (h : s.Meets Settings.Within) : MeetsOut Settings.Within (execInboundRequest s) := by
  unfold execInboundRequest
  split
  exacts [.ite h.upd.next h.upd.inbound.next, h.next]

theorem execIsolatePeer_meets (h : s.Meets Settings.Within) : MeetsOut Settings.Within (execIsolatePeer s) := by
  unfold execIsolatePeer
  split
  exacts [.ite h.upd.isolatePeer.next h.upd.next, h.next]

theorem execIsolatePort_meets (h : s.Meets Settings.Within) : MeetsOut Settings.Within (execIsolatePort s) := by
  unfold execIsolatePort
  split
  exacts [.ite h.upd.isolatePort.next h.upd.next, h.next]

theorem execReturnPeer_meets (h : s.Meets Settings.Within) : MeetsOut Settings.Within (execReturnPeer s) := by
  unfold execReturnPeer
  split
  exacts [.ite (State.Meets.next h.within) h.upd.next, h.next]

theorem execReturnPort_meets (h : s.Meets Settings.Within) : MeetsOut Settings.Within (execReturnPort s) := by
  unfold execReturnPort
  split
  exacts [.ite h.upd.setLnk.setPort.next h.upd.next, h.next]

theorem State.Meets.setPeermap (h : s.Meets Settings.Within) {k v} : (s.setPeermap k v).Meets Settings.Within := by
  unfold State.setPeermap
  exact State.Meets.anyLnk (h.foldl fun _ _ h => h.isolatePeer) ⟨rfl, rfl, rfl⟩

theorem execLkPeermapWrite_meets (h : s.Meets Settings.Within) : MeetsOut Settings.Within (execLkPeermapWrite s) := by
  unfold execLkPeermapWrite
  split
  exacts [.ite h.upd.setPeermap.next h.upd.next, h.next]

theorem State.Meets.setSelf (h : s.Meets Settings.Within) {v} : (s.setSelf v).Meets Settings.Within := by
  unfold State.setSelf
  split
  next hv =>
    refine ⟨{ h.holds with self := ?_ }⟩
    exact Nat.le_trans (Nat.mod_le _ _) hv
  · exact h

theorem execLkCfgWrite_meets (h : s.Meets Settings.Within) : MeetsOut Settings.Within (execLkCfgWrite s) := by
  unfold execLkCfgWrite
  split
  exacts [.ite h.upd.next h.upd.setSelf.next, h.next]

theorem execDroplogFree_meets (h : s.Meets Settings.Within) : MeetsOut Settings.Within (execDroplogFree s) := by
  unfold execDroplogFree
  split
  exacts [.ite h.upd.setLnk.next h.upd.next, h.next]

theorem State.Meets.drainTo (h : s.Meets Settings.Within) {d : BitVec 3} {n : Nat} (hd : d.toNat ≤ 4) :
    (s.setLnk { s.lnk with drain := d, drainAt := n }).Meets Settings.Within := ⟨{ h.holds with drain := hd }⟩
theorem State.Meets.startDrain (h : s.Meets Settings.Within) : s.startDrain.Meets Settings.Within :=
  .ite (State.Meets.within (s := s.setLnk _) (h.drainTo (d := 1) (by decide))) h

theorem execLkDrainStart_meets (h : s.Meets Settings.Within) : MeetsOut Settings.Within (execLkDrainStart s) := by
  unfold execLkDrainStart
  split
  exacts [.ite h.upd.next h.upd.startDrain.next, h.next]

theorem execDrainQuiesceEnd_meets (h : s.Meets Settings.Within) : MeetsOut Settings.Within (execDrainQuiesceEnd s) := by
  unfold execDrainQuiesceEnd
  split
  exacts [.ite (((h.upd.drainTo (by decide)).foldl fun _ _ h1 => h1.foldl fun _ _ h => h.emitOut).next) h.upd.next, h.next]

theorem execDrainNotifyEnd_meets (h : s.Meets Settings.Within) : MeetsOut Settings.Within (execDrainNotifyEnd s) := by
  unfold execDrainNotifyEnd
  split
  exacts [.ite ((((h.upd.drainTo (by decide)).foldl fun _ _ h => h.isolatePeer).foldl fun _ _ h => h.isolatePort).next) h.upd.next, h.next]

theorem execDrainSafe_meets (h : s.Meets Settings.Within) : MeetsOut Settings.Within (execDrainSafe s) := by
  unfold execDrainSafe
  split
  exacts [.ite (h.upd.drainTo (by decide)).next h.upd.next, h.next]

theorem State.Meets.setPfc (h : s.Meets Settings.Within) {p classes} : (s.setPfc p classes).Meets Settings.Within := .ite h.setLnk h

theorem execEthernetPortFailover_meets (h : s.Meets Settings.Within) : MeetsOut Settings.Within (execEthernetPortFailover s) := by
  unfold execEthernetPortFailover
  split
  exacts [.ite (State.Meets.next h.within) h.upd.next, h.next]

theorem State.Meets.takeCommands (h : s.Meets Settings.Within) {x} : (s.takeCommands x).Meets Settings.Within := by
  induction x generalizing s with
  | zero => exact h
  | succ n ih =>
    unfold State.takeCommands
    dsimp only
    exact ih h.hostRead.anyQue

theorem execAdminDoorbell_meets (h : s.Meets Settings.Within) : MeetsOut Settings.Within (execAdminDoorbell s) := by
  unfold execAdminDoorbell
  split
  exacts [.ite h.upd.next (.next (.ite h.upd.anyQue.takeCommands h.upd.anyQue)), h.next]

theorem execAdminRingSet_meets (h : s.Meets Settings.Within) : MeetsOut Settings.Within (execAdminRingSet s) := by
  unfold execAdminRingSet
  dsimp only
  split
  · split
    · exact h.upd.next
    · refine .next ?_
      split
      exacts [.ite h.upd.anyQue.takeCommands h.upd.anyQue, .ite h.upd.anyQue.takeCommands h.upd.anyQue]
  · exact h.next

theorem execAdminCompletion_meets (h : s.Meets Settings.Within) : MeetsOut Settings.Within (execAdminCompletion s) := by
  unfold execAdminCompletion
  dsimp only
  split
  · split
    exacts [h.upd.next, h.upd.hostWrite.anyQue.emitOut.next]
  · exact h.next

theorem State.Meets.finishCmd (h : s.Meets Settings.Within) {via op status result} : (s.finishCmd via op status result).Meets Settings.Within := by
  unfold State.finishCmd
  split
  exacts [h.anyQue, h.emitOut]

theorem execAdminUnknownOpcode_meets (h : s.Meets Settings.Within) : MeetsOut Settings.Within (execAdminUnknownOpcode s) := by
  unfold execAdminUnknownOpcode
  split
  exacts [.ite h.upd.finishCmd.next h.upd.next, h.next]

theorem State.Meets.createQueue (h : s.Meets Settings.Within) {via d} : (s.createQueue via d).Meets Settings.Within := by
  unfold State.createQueue
  dsimp only
  split
  · exact h.finishCmd
  split
  exacts [h.finishCmd, .ite h h.choose.writeAt.anyQue.finishCmd]

theorem execQueueCreate_meets (h : s.Meets Settings.Within) : MeetsOut Settings.Within (execQueueCreate s) := by
  unfold execQueueCreate
  split
  exacts [.ite h.upd.createQueue.next h.upd.next, h.next]

theorem State.Meets.stopQueue (h : s.Meets Settings.Within) {q} : (s.stopQueue q).Meets Settings.Within := by
  unfold State.stopQueue
  dsimp only
  split
  exacts [h.desc.setDesc.freeSlot, h.desc.setDesc]

theorem State.Meets.destroyQueue (h : s.Meets Settings.Within) {via q} : (s.destroyQueue via q).Meets Settings.Within := by
  unfold State.destroyQueue
  split
  · exact h.finishCmd
  split
  · exact h
  split
  exacts [.ite h h.anyQue.finishCmd, .ite h.stopQueue.anyQue h.stopQueue.anyQue.anyQue.finishCmd]

theorem execQueueDestroy_meets (h : s.Meets Settings.Within) : MeetsOut Settings.Within (execQueueDestroy s) := by
  unfold execQueueDestroy
  split
  exacts [.ite h.upd.destroyQueue.next h.upd.next, h.next]

theorem State.Meets.resetQueue (h : s.Meets Settings.Within) {via q rd} : (s.resetQueue via q rd).Meets Settings.Within := by
  unfold State.resetQueue
  split
  · exact h.finishCmd
  split
  · exact h
  · refine .finishCmd ?_
    split
    exacts [h.setDesc.setDesc.setSlot, h.setDesc.setDesc]

theorem execQueueReset_meets (h : s.Meets Settings.Within) : MeetsOut Settings.Within (execQueueReset s) := by
  unfold execQueueReset
  split
  exacts [.ite h.upd.resetQueue.next h.upd.next, h.next]

theorem State.Meets.resync (h : s.Meets Settings.Within) {via dest first} : (s.resync via dest first).Meets Settings.Within := by
  unfold State.resync
  refine .finishCmd ?_
  split
  exacts [h.anyQue.hostWrite, h.anyQue.emitOut]

theorem execResync_meets (h : s.Meets Settings.Within) : MeetsOut Settings.Within (execResync s) := by
  unfold execResync
  split
  exacts [.ite h.upd.resync.next h.upd.next, h.next]

theorem execTrayDrain_meets (h : s.Meets Settings.Within) : MeetsOut Settings.Within (execTrayDrain s) := by
  unfold execTrayDrain
  split
  exacts [.ite h.upd.next (.ite h.upd.startDrain.finishCmd.next h.upd.startDrain.next), h.next]

theorem State.Meets.planeImage (h : s.Meets Settings.Within) {space x len} : (s.planeImage space x len).2.Meets Settings.Within := by
  unfold State.planeImage
  split
  · exact h.hostRead
  split
  exacts [h.readAt (k := .global), h]

theorem State.Meets.installPlane (h : s.Meets Settings.Within) {via n space x len room} :
    (s.installPlane via n space x len room).Meets Settings.Within := by
  unfold State.installPlane
  split
  · exact h.finishCmd
  split
  · exact h.finishCmd
  split
  · exact h
  split
  next e => exact (h.planeImage.snd e).finishCmd
  next e => exact .ite ((h.planeImage.snd e).finishCmd) (.ite ((h.planeImage.snd e).finishCmd) ((h.planeImage.snd
      e).anyQue.finishCmd))

theorem execPlaneInstall_meets (h : s.Meets Settings.Within) : MeetsOut Settings.Within (execPlaneInstall s) := by
  unfold execPlaneInstall
  split
  exacts [.ite h.upd.installPlane.next h.upd.next, h.next]

theorem State.Meets.removePlaneCmd (h : s.Meets Settings.Within) {via n} : (s.removePlaneCmd via n).Meets Settings.Within :=
  .ite h.finishCmd (.ite h.finishCmd h.anyQue.finishCmd)

theorem execPlaneRemove_meets (h : s.Meets Settings.Within) : MeetsOut Settings.Within (execPlaneRemove s) := by
  unfold execPlaneRemove
  split
  exacts [.ite h.upd.removePlaneCmd.next h.upd.next, h.next]

end Sys2Proof.Machine
end

