-- ==== Sys2Proof/Proofs/SettingsStep.lean ====
section
-- Some hundred short proofs: checked as tasks of their own, all at once, they outgrow the memory that check.sh allows.
set_option Elab.async false
/-! PROOFS. Every step keeps the settings within their ranges: held operations, probes, address spaces, and at last `exec` and `step`. -/
namespace Sys2Proof.Machine
variable {P : Settings → Prop} {s t : State}

theorem State.Meets.performHeld (h : s.Meets P) {x} : (State.performHeld x s).Meets P := by
  unfold State.performHeld
  split
  exacts [h.performSyswr, h.performTapset, h.performXcopy, h.performNmred, h.performRow, h.performRow, h.performRow, h.performRow,
      h.performQput, h.performQput, h.performArgw, h.performMwload, h.performMmac, h.performMdrain, h.performMacc, h.performMrel,
      h.performMchk, h.performFctb, h.performFcts, h.performFctn, h.performFctsv, h.performFcte, h.performRedput, h.performColl,
      h.performSbind, h.performLaunch, h.performCollw, .ite h.startHeldMem h]

theorem State.Meets.performId (h : s.Meets P) {id parts} : (s.performId id parts).Meets P := by
  unfold State.performId
  split
  · exact h.perform
  split
  exacts [.ite h.performHeld h, h]

theorem execStorePerform_meets (h : s.Meets P) : MeetsOut P (execStorePerform s) := by
  unfold execStorePerform
  split
  exacts [h.upd.performId.next, h.next]

theorem State.Meets.hostStore (h : s.Meets P) {bus bs pois} : (s.hostStore bus bs pois).Meets P :=
  h.setMem (.notes)
theorem State.Meets.sendProbes (h : s.Meets P) {origin u path edges} : (s.sendProbes origin u path edges).Meets P := h.setErr
theorem State.Meets.noteBlocked (h : s.Meets P) : s.noteBlocked.Meets P := h.setErr

theorem execProbeSend_meets (h : s.Meets P) : MeetsOut P (execProbeSend s) := by
  unfold execProbeSend
  dsimp only
  split
  · split
    exacts [h.upd.next, .ite h.upd.next h.upd.setErr.sendProbes.next]
  · exact h.next

theorem State.Meets.deadlock (h : s.Meets P) {b path} : (s.deadlock b path).Meets P := by
  unfold State.deadlock
  split
  exacts [h.setErr.raiseAt, h.setErr.setTsk]

theorem State.Meets.probeArrives (h : s.Meets P) {p} : (s.probeArrives p).Meets P := by
  unfold State.probeArrives
  split
  exacts [h, .ite (.ite h h.deadlock) (.ite h h.sendProbes)]

theorem execProbeArrive_meets (h : s.Meets P) : MeetsOut P (execProbeArrive s) := by
  unfold execProbeArrive
  dsimp only
  split
  · split
    exacts [h.upd.next, .ite h.upd.next h.upd.setErr.probeArrives.next]
  · exact h.next

theorem State.Meets.entry (h : s.Meets Settings.Within) {x} : (s.entry x).2.Meets Settings.Within := h.readAt (k := .global) (n := 8)
theorem State.Meets.setEntry (h : s.Meets Settings.Within) {x x1} : (s.setEntry x x1).Meets Settings.Within := h.writeAt

theorem State.Meets.reachLeaf {asid va leaf i ts n} : ∀ {s : State} {table lvl tables}, s.Meets Settings.Within →
    s.reachLeaf asid va table lvl leaf tables n = some (i, ts, t) → t.Meets Settings.Within := by
  induction n with
  | zero => exact fun _ e => nomatch e
  | succ n ih =>
    intro s table lvl tables h e
    have he := h.entry (x := table + 8 * walkIndex va lvl)
    unfold State.reachLeaf at e
    dsimp only at e
    split at e
    · split at e
      · split at e
        · cases e; exact he
        · cases e
      · cases e
      · split at e
        · cases e
        · cases e; exact he
    · split at e
      · cases e
      · exact ih he e
      · split at e
        · cases e
        · split at e
          · cases e
          · split at e
            · cases e
            · generalize List.replicate _ _ = zeros at e
              exact ih (he.anyQue.writeAt.setEntry) e

theorem State.Meets.mapPages (h : s.Meets Settings.Within) {m leaf va tables l} : MeetsOpt Settings.Within (s.mapPages m leaf va tables l) := by
  induction l generalizing s va tables with
  | nil => exact h.just
  | cons y r ih =>
    unfold State.mapPages
    split
    · exact .none
    next e => exact ih (State.Meets.reachLeaf h e).setEntry

theorem State.Meets.grant (h : s.Meets Settings.Within) {m} : (s.grant m).Meets Settings.Within := h.foldl fun _ _ h => h.anyQue.writeAt
theorem State.Meets.invRange (h : s.Meets Settings.Within) {asid va n} : (s.invRange asid va n).Meets Settings.Within := h.invalidate
theorem State.Meets.endInval (h : s.Meets Settings.Within) {v} : (s.endInval v).Meets Settings.Within := .ite h h.anyQue.finishCmd
theorem State.Meets.startInval (h : s.Meets Settings.Within) {via op pages} : (s.startInval via op pages).Meets Settings.Within := h.anyQue.endInval

theorem State.Meets.mapCmd (h : s.Meets Settings.Within) {via m} : (s.mapCmd via m).Meets Settings.Within := by
  have hg : (if m.alloc then s.grant m else s).Meets Settings.Within := by
    split
    exacts [h.grant, h]
  unfold State.mapCmd
  split
  · exact h.endInval
  split
  · exact h
  split
  · exact h.finishCmd
  split
  · exact h
  split
  · exact h.finishCmd
  split
  · exact h
  dsimp only
  split
  · exact h.finishCmd
  next e => exact (hg.mapPages.get e).invRange.startInval

theorem execMap_meets (h : s.Meets Settings.Within) : MeetsOut Settings.Within (execMap s) := by
  unfold execMap
  split
  exacts [.ite h.upd.mapCmd.next h.upd.next, h.next]

theorem State.Meets.unmapCmd (h : s.Meets Settings.Within) {via asid va psize count} :
    (s.unmapCmd via asid va psize count).Meets Settings.Within := by
  unfold State.unmapCmd
  split
  · exact h.endInval
  split
  · exact h
  split
  · exact h.finishCmd
  split
  · exact h.finishCmd
  split
  exacts [h.finishCmd, (h.foldl fun _ _ h => h.setEntry).invRange.startInval]

theorem execUnmap_meets (h : s.Meets Settings.Within) : MeetsOut Settings.Within (execUnmap s) := by
  unfold execUnmap
  split
  exacts [.ite h.upd.unmapCmd.next h.upd.next, h.next]

theorem State.Meets.createAsid (h : s.Meets Settings.Within) {via root} : (s.createAsid via root).Meets Settings.Within := by
  unfold State.createAsid
  generalize List.replicate 65536 _ = zeros
  split
  exacts [h.finishCmd, .ite h (State.Meets.finishCmd (State.Meets.anyMem (State.Meets.writeAt (State.Meets.anyQue h.upd))))]

theorem execAsidCreate_meets (h : s.Meets Settings.Within) : MeetsOut Settings.Within (execAsidCreate s) := by
  unfold execAsidCreate
  split
  exacts [.ite h.upd.createAsid.next h.upd.next, h.next]

theorem State.Meets.destroyAsid (h : s.Meets Settings.Within) {via x} : (s.destroyAsid via x).Meets Settings.Within :=
  .ite h.finishCmd (.ite h h.anyQue.invalidate.anyMem.finishCmd)

theorem execAsidDestroy_meets (h : s.Meets Settings.Within) : MeetsOut Settings.Within (execAsidDestroy s) := by
  unfold execAsidDestroy
  split
  exacts [.ite h.upd.destroyAsid.next h.upd.next, h.next]

theorem State.Meets.setGroup (h : s.Meets Settings.Within) {via g size scope asid members valid} :
    (s.setGroup via g size scope asid members valid).Meets Settings.Within :=
  
  .ite h.finishCmd (.ite h.finishCmd h.anyEng.finishCmd)

theorem execCollGroup_meets (h : s.Meets Settings.Within) : MeetsOut Settings.Within (execCollGroup s) := by
  unfold execCollGroup
  split
  exacts [.ite h.upd.setGroup.next h.upd.next, h.next]

theorem State.Meets.setRegWrite (h : s.Meets Settings.Within) {off v} : MeetsOpt Settings.Within (s.setRegWrite off v) :=
  .ite h.writeReg.just (.ite h.setThermLim.just (.ite h.setSelf.just (.ite h.setPeermap.just (.ite h.anyMem.just .none))))

theorem execSetReg_meets (h : s.Meets Settings.Within) : MeetsOut Settings.Within (execSetReg s) := by
  unfold execSetReg
  dsimp only
  split
  · split
    · exact h.upd.next
    split
    next e1 => exact (h.upd.setRegWrite.get e1).finishCmd.next
    · exact h.upd.finishCmd.next
  · exact h.next

/-- Every instruction and every step of the package keeps the settings within their ranges. -/
theorem exec_meets (h : s.Meets Settings.Within) {i : Instr} : MeetsOut Settings.Within (exec i s) := by
  by_cases hn : i.node?.isSome = true
  · exact exec_node_meets h hn
  unfold exec
  cases i with
  | packageReset => exact execPackageReset_meets h
  | bootPushGo => exact execBootPushGo_meets h
  | bootSourceTimeout => exact execBootSourceTimeout_meets h
  | bootNetworkFetchDone => exact execBootNetworkFetchDone_meets h
  | dhcpv6Timeout => exact execDhcpv6Timeout_meets h
  | getVersion => exact execGetVersion_meets h
  | getCapabilities => exact execGetCapabilities_meets h
  | negotiateAlgorithms => exact execNegotiateAlgorithms_meets h
  | getDigests => exact execGetDigests_meets h
  | getCertificate => exact execGetCertificate_meets h
  | challenge => exact execChallenge_meets h
  | getMeasurements => exact execGetMeasurements_meets h
  | keyExchange => exact execKeyExchange_meets h
  | finish => exact execFinish_meets h
  | endSession => exact execEndSession_meets h
  | bar0UnsupportedAccess => exact execBar0UnsupportedAccess_meets h
  | bar2Write => exact execBar2Write_meets h
  | bar2Read => exact execBar2Read_meets h
  | pcieLinkTrained => exact execPcieLinkTrained_meets h
  | registerWrite => exact execRegisterWrite_meets h
  | notifyWrite => exact execNotifyWrite_meets h
  | queueMap => exact execQueueMap_meets h
  | queueUnmap => exact execQueueUnmap_meets h
  | slotFetch => exact execSlotFetch_meets h
  | rackRingWrite => exact execRackRingWrite_meets h
  | rackEthernetLaunch => exact execRackEthernetLaunch_meets h
  | rackLaunchConsume => exact execRackLaunchConsume_meets h
  | dispatchTick => exact execDispatchTick_meets h
  | semaphoreRead => exact execSemaphoreRead_meets h
  | placerPass => exact execPlacerPass_meets h
  | drainTimeout => exact execDrainTimeout_meets h
  | quantumExpiry => exact execQuantumExpiry_meets h
  | markerArrive => exact execMarkerArrive_meets h
  | markerLatchInject => exact execMarkerLatchInject_meets h
  | checkpointSave => exact execCheckpointSave_meets h
  | taskRetire => exact execTaskRetire_meets h
  | planeDrop => exact execPlaneDrop_meets h
  | tokenAccept => exact execTokenAccept_meets h
  | routerHop => exact execRouterHop_meets h
  | activationStart => exact execActivationStart_meets h
  | activationCommit => exact execActivationCommit_meets h
  | trapTake => exact execTrapTake_meets h
  | lodgeTrapService => exact execLodgeTrapService_meets h
  | probeSend => exact execProbeSend_meets h
  | probeArrive => exact execProbeArrive_meets h
  | yieldExpiry => exact execYieldExpiry_meets h
  | elementErrorEvent => exact execElementErrorEvent_meets h
  | elementReplay => exact execElementReplay_meets h
  | elementSparing => exact execElementSparing_meets h
  | thermSample => exact execThermSample_meets h
  | bankThermalRetire => exact execBankThermalRetire_meets h
  | thermSensFailedClear => exact execThermSensFailedClear_meets h
  | thermLimWrite => exact execThermLimWrite_meets h
  | powerSample => exact execPowerSample_meets h
  | powerPeriod => exact execPowerPeriod_meets h
  | powerOverDeadline => exact execPowerOverDeadline_meets h
  | pwrCapWrite => exact execPwrCapWrite_meets h
  | pwrWinWrite => exact execPwrWinWrite_meets h
  | laneErrorEvent => exact execLaneErrorEvent_meets h
  | laneSparing => exact execLaneSparing_meets h
  | portDown => exact execPortDown_meets h
  | portLinkUp => exact execPortLinkUp_meets h
  | remoteRequestWaitEnd => exact execRemoteRequestWaitEnd_meets h
  | requestTimeout => exact execRequestTimeout_meets h
  | errorCompletionReceived => exact execErrorCompletionReceived_meets h
  | drainNoticeReceived => exact execDrainNoticeReceived_meets h
  | lateCompletion => exact execLateCompletion_meets h
  | inboundFromIsolatedPeer => exact execInboundFromIsolatedPeer_meets h
  | inboundRequest => exact execInboundRequest_meets h
  | isolatePeer => exact execIsolatePeer_meets h
  | isolatePort => exact execIsolatePort_meets h
  | returnPeer => exact execReturnPeer_meets h
  | returnPort => exact execReturnPort_meets h
  | lkPeermapWrite => exact execLkPeermapWrite_meets h
  | lkCfgWrite => exact execLkCfgWrite_meets h
  | droplogFree => exact execDroplogFree_meets h
  | lkDrainStart => exact execLkDrainStart_meets h
  | drainQuiesceEnd => exact execDrainQuiesceEnd_meets h
  | drainNotifyEnd => exact execDrainNotifyEnd_meets h
  | drainSafe => exact execDrainSafe_meets h
  | ethernetPortFailover => exact execEthernetPortFailover_meets h
  | adminDoorbell => exact execAdminDoorbell_meets h
  | adminRingSet => exact execAdminRingSet_meets h
  | adminCompletion => exact execAdminCompletion_meets h
  | adminUnknownOpcode => exact execAdminUnknownOpcode_meets h
  | queueCreate => exact execQueueCreate_meets h
  | queueDestroy => exact execQueueDestroy_meets h
  | queueReset => exact execQueueReset_meets h
  | resync => exact execResync_meets h
  | trayDrain => exact execTrayDrain_meets h
  | planeInstall => exact execPlaneInstall_meets h
  | planeRemove => exact execPlaneRemove_meets h
  | asidCreate => exact execAsidCreate_meets h
  | asidDestroy => exact execAsidDestroy_meets h
  | map => exact execMap_meets h
  | unmap => exact execUnmap_meets h
  | collGroup => exact execCollGroup_meets h
  | setReg => exact execSetReg_meets h
  | pgRemapStart => exact execPgRemapStart_meets h
  | pgRemapDone => exact execPgRemapDone_meets h
  | ghWaypartWrite => exact execGhWaypartWrite_meets h
  | ghDrainEnd => exact execGhDrainEnd_meets h
  | ghZeroEnd => exact execGhZeroEnd_meets h
  | ghLineFill => exact execGhLineFill_meets h
  | trInvAll => exact execTrInvAll_meets h
  | trInvAsid => exact execTrInvAsid_meets h
  | trInvPage => exact execTrInvPage_meets h
  | pageWalk => exact execPageWalk_meets h
  | rowCommandEffect => exact execRowCommandEffect_meets h
  | rowOpenTimeout => exact execRowOpenTimeout_meets h
  | rowRefresh => exact execRowRefresh_meets h
  | busTesterBeat => exact execBusTesterBeat_meets h
  | vectorClockAnnounce => exact execVectorClockAnnounce_meets h
  | storePerform => exact execStorePerform_meets h
  | waitaReread => exact execWaitaReread_meets h
  | waitaTimeout => exact execWaitaTimeout_meets h
  | streamGranuleReturn => exact execStreamGranuleReturn_meets h
  | streamGranuleWrite => exact execStreamGranuleWrite_meets h
  | streamBindingEnd => exact execStreamBindingEnd_meets h
  | streamFault => exact execStreamFault_meets h
  | copyGranule => exact execCopyGranule_meets h
  | copyComplete => exact execCopyComplete_meets h
  | copyFault => exact execCopyFault_meets h
  | nearMemoryReduce => exact execNearMemoryReduce_meets h
  | arrayRowTake => exact execArrayRowTake_meets h
  | arrayDrainToken => exact execArrayDrainToken_meets h
  | weightTokenLoad => exact execWeightTokenLoad_meets h
  | fctColumnStep => exact execFctColumnStep_meets h
  | reduceRoundCombine => exact execReduceRoundCombine_meets h
  | reduceRootResult => exact execReduceRootResult_meets h
  | reduceRoundAbandon => exact execReduceRoundAbandon_meets h
  | collRoundComplete => exact execCollRoundComplete_meets h
  | collRoundFail => exact execCollRoundFail_meets h
  | collRoundTimeout => exact execCollRoundTimeout_meets h
  | armRptClear => exact execArmRptClear_meets h
  | remoteCompletionReceived => exact execRemoteCompletionReceived_meets h
  | memoryAccessComplete => exact execMemoryAccessComplete_meets h
  | rowCommandComplete => exact execRowCommandComplete_meets h
  | _ => exact absurd rfl hn

theorem State.Meets.retake (h : s.Meets Settings.Within) : s.retake.Meets Settings.Within := h.upd.anyQue
/-- A cycle starts the boot of a package that is in state 0. -/
theorem State.Meets.tick (h : s.Meets Settings.Within) : s.tick.Meets Settings.Within := h.bootEnter.within

theorem State.Meets.nextCycle (h : s.Meets Settings.Within) : s.nextCycle.Meets Settings.Within :=
  h.leavesEnd.watchesEnd.argwEnd.noteBlocked.tick.drainTaps.retake

theorem step_meets (h : s.Meets Settings.Within) : MeetsOut Settings.Within (step s) := by
  cases ha : s.agenda with
  | nil => simpa only [step, ha] using h.nextCycle.next
  | cons x rest =>
    cases x with
    | issue e => exact step_issue_meets h ha
    | cycle => simpa only [step, ha] using (h.upd (t := { s with agenda := rest })).nextCycle.next
    | event e => simpa only [step, ha] using exec_meets h.upd
    | regRead a off n => simpa only [step, ha] using (h.upd (t := { s with agenda := rest })).readReg.next
    | hostStore bus bs p => simpa only [step, ha] using (h.upd (t := { s with agenda := rest })).hostStore.next
    | poisonedBar0 n => simpa only [step, ha] using (h.upd (t := { s with agenda := rest })).emitOut.next
    | pfc p classes => simpa only [step, ha] using (h.upd (t := { s with agenda := rest })).setPfc.next
    | revoke k sig => simpa only [step, ha] using (h.upd (t := { s with agenda := rest })).revoke.next

/-- Settles O59: each instruction and each other entry of the agenda keeps every setting within its range. -/
theorem stepsKeepSettingsWithin : Obligations.StepsKeepSettingsWithin := by
  unfold Obligations.StepsKeepSettingsWithin
  exact fun s t h ht => (step_meets (s := s) ⟨h⟩ t ht).holds

end Sys2Proof.Machine
end

