-- ==== Sys2Proof/Proofs/Thermal.lean ====
section
/-! PROOFS. Thermal samples and retirement (R16 to R22). -/
namespace Sys2Proof

theorem Tab.find_map {α β : Type} {f : Nat × α → Nat × β} {g : Nat → α → β} (hf : ∀ k v, f (k, v) = (k, g k v))
    (t : Tab α) (k : Nat) :
    Tab.find (t.map f) k = (Tab.find t k).map (g k) := by
  induction t with
  | nil => rfl
  | cons x r ih => obtain ⟨j, v⟩ := x; grind [Tab.find]

theorem Tab.find_range_map {α : Type} (f : Nat → α) {n k : Nat} (h : k < n) : Tab.find ((List.range n).map fun i => (i, f i)) k = some (f k) := by
  have hr : Tab.Rising ((List.range n).map fun i => (i, f i)) := List.pairwise_map.2 List.pairwise_lt_range
  rw [Tab.find_eq_some_iff hr]
  exact List.mem_map.2 ⟨k, List.mem_range.2 h, rfl⟩

namespace Machine

/-! ### The hottest of some readings -/

theorem foldl_max_eq {m : Int} {f : Option Int → Int → Option Int} (hf : ∀ x, f none x = some x)
    (hs : ∀ y x, f (some y) x = some (if y < x then x else y)) : ∀ (xs : List Int) (o : Option Int),
    (∀ x ∈ xs, x ≤ m) → (∀ y, o = some y → y ≤ m) → m ∈ xs ∨ o = some m → xs.foldl f o = some m
  | [], _, _, _, h => h.resolve_left List.not_mem_nil
  | x :: r, o, hx, ho, h => by
    obtain ⟨hxm, hr⟩ := List.forall_mem_cons.1 hx
    rw [List.foldl_cons]
    refine foldl_max_eq hf hs r _ hr ?_ ?_
    all_goals cases o <;> grind

theorem maxInt_eq {xs : List Int} {m : Int} (hm : m ∈ xs) (h : ∀ x ∈ xs, x ≤ m) : maxInt xs = some m :=
  foldl_max_eq (fun _ => rfl) (fun _ _ => rfl) xs none h (fun _ e => nomatch e) (.inl hm)

/-! ### What a sensor reports (R18) -/

/-- The readings of the neighbours of a sensor that are not failed. -/
def soundNear (sens : Tab Sensor) (i : Nat) : List Int :=
  ((sensorNeighbours i).filter fun k => !(Tab.getD sens k .reset).failed).map fun k => (Tab.getD sens k .reset).raw

theorem mem_soundNear {sens : Tab Sensor} {i : Nat} {r : Int} : r ∈ soundNear sens i ↔
    ∃ k ∈ sensorNeighbours i, (Tab.getD sens k .reset).failed = false ∧ (Tab.getD sens k .reset).raw = r := by
  simp [soundNear, and_assoc]

theorem reported_sound {sens : Tab Sensor} {i : Nat} (h : (Tab.getD sens i .reset).failed = false) :
    reported sens i = (Tab.getD sens i .reset).raw := by
  simp [reported, h]

theorem reported_failed {sens : Tab Sensor} {i : Nat} (h : (Tab.getD sens i .reset).failed = true) :
    reported sens i = ((maxInt (soundNear sens i)).map (· + 80)).getD 2000 := by
  simp only [reported, h, soundNear, Bool.not_true, Bool.false_eq_true, if_false]
  split
  next e => rw [e]; rfl
  next e => rw [e]; rfl

theorem reported_hottest {sens : Tab Sensor} {i k : Nat} (h : (Tab.getD sens i .reset).failed = true) (hk : k ∈ sensorNeighbours i)
    (hs : (Tab.getD sens k .reset).failed = false)
    (hmax : ∀ j ∈ sensorNeighbours i, (Tab.getD sens j .reset).failed = false → (Tab.getD sens j .reset).raw ≤ (Tab.getD sens k .reset).raw) :
    reported sens i = (Tab.getD sens k .reset).raw + 80 := by
  rw [reported_failed h, maxInt_eq (mem_soundNear.2 ⟨k, hk, hs, rfl⟩)]
  · rfl
  intro r hr
  obtain ⟨j, hj, hf, rfl⟩ := mem_soundNear.1 hr
  exact hmax j hj hf

theorem reported_alone {sens : Tab Sensor} {i : Nat} (h : (Tab.getD sens i .reset).failed = true)
    (hn : ∀ k ∈ sensorNeighbours i, (Tab.getD sens k .reset).failed = true) : reported sens i = 2000 := by
  have he : soundNear sens i = [] := List.eq_nil_iff_forall_not_mem.2 fun r hr => by
    obtain ⟨k, hk, hf, _⟩ := mem_soundNear.1 hr
    rw [hn k hk] at hf
    cases hf
  rw [reported_failed h, he]
  rfl

theorem find_retemp (sens : Tab Sensor) (k : Nat) :
    Tab.find (retemp sens) k = (Tab.find sens k).map fun x => { x with temp := BitVec.ofInt 16 (reported sens k) } := by
  unfold retemp
  rw [Tab.find_map (g := fun i (x : Sensor) => { x with temp := BitVec.ofInt 16 (reported sens i) })]
  exact fun _ _ => rfl

theorem find_reports (t : Thermal) (sens : Tab Sensor) (k : Nat) :
    Tab.find (t.reports sens) k = (Tab.find (retemp sens) k).map fun x =>
      { x with hot := if (t.retire.toNat : Int) * 16 ≤ x.temp.toInt then min 100 (x.hot + 1) else 0 } := by
  unfold Thermal.reports
  rw [Tab.find_map (g := fun _ (x : Sensor) =>
    { x with hot := if (t.retire.toNat : Int) * 16 ≤ x.temp.toInt then min 100 (x.hot + 1) else 0 })]
  exact fun _ _ => rfl

theorem retemp_keeps (sens : Tab Sensor) (k : Nat) : (Tab.getD (retemp sens) k .reset).failed = (Tab.getD sens k .reset).failed ∧
    (Tab.getD (retemp sens) k .reset).raw = (Tab.getD sens k .reset).raw := by
  unfold Tab.getD
  rw [find_retemp]
  cases Tab.find sens k <;> exact ⟨rfl, rfl⟩

theorem reports_keeps (t : Thermal) (sens : Tab Sensor) (k : Nat) :
    (Tab.getD (t.reports sens) k .reset).failed = (Tab.getD sens k .reset).failed ∧
    (Tab.getD (t.reports sens) k .reset).raw = (Tab.getD sens k .reset).raw := by
  unfold Tab.getD
  rw [find_reports, find_retemp]
  cases Tab.find sens k <;> exact ⟨rfl, rfl⟩

theorem reports_of_find {t : Thermal} {sens : Tab Sensor} {k : Nat} {x : Sensor} (h : Tab.find sens k = some x) :
    (Tab.getD (t.reports sens) k .reset).temp = BitVec.ofInt 16 (reported sens k) ∧
    (Tab.getD (t.reports sens) k .reset).cand = x.cand ∧ (Tab.getD (t.reports sens) k .reset).candN = x.candN := by
  unfold Tab.getD
  rw [find_reports, find_retemp, h]
  exact ⟨rfl, rfl, rfl⟩

/-- What the reports of a table of sensors are, in terms of that table itself. -/
structure Reports (sens : Tab Sensor) (i : Nat) : Prop where
  sound : (Tab.getD sens i .reset).failed = false → (Tab.getD sens i .reset).temp = BitVec.ofInt 16 (Tab.getD sens i .reset).raw
  hottest : ∀ k, (Tab.getD sens i .reset).failed = true → k ∈ sensorNeighbours i → (Tab.getD sens k .reset).failed = false →
    (∀ j ∈ sensorNeighbours i, (Tab.getD sens j .reset).failed = false → (Tab.getD sens j .reset).raw ≤ (Tab.getD sens k .reset).raw) →
    (Tab.getD sens i .reset).temp = BitVec.ofInt 16 ((Tab.getD sens k .reset).raw + 80)
  alone : (Tab.getD sens i .reset).failed = true → (∀ k ∈ sensorNeighbours i, (Tab.getD sens k .reset).failed = true) →
    (Tab.getD sens i .reset).temp = BitVec.ofInt 16 (125 * 16)

theorem reports_report {t : Thermal} {sens : Tab Sensor} {i : Nat} {x : Sensor} (h : Tab.find sens i = some x) : Reports (t.reports sens) i := by
  have hf := fun k => (reports_keeps t sens k).1
  have hr := fun k => (reports_keeps t sens k).2
  have ht := (reports_of_find (t := t) h).1
  constructor
  · intro h1
    rw [ht, hr, reported_sound (by rwa [← hf])]
  · intro k h1 hk h2 hmax
    simp only [hf, hr] at h1 h2 hmax ⊢
    rw [ht, reported_hottest h1 hk h2 hmax]
  · intro h1 hall
    simp only [hf] at h1 hall
    rw [ht, reported_alone h1 hall]
    rfl

/-! ### The judgement of a sample (R16, R17) -/

/-- What a sample makes of one sensor before the reports follow. -/
def Thermal.judged (t : Thermal) (readings : List (Nat × Int)) (outOf : List Nat) (i : Nat) : Sensor :=
  let x := { Tab.getD t.sens i .reset with raw := Spec.readingOf t readings i }
  if i ∈ outOf then { x with failed := true, cand := false, candN := 0 }
  else if x.failed then { x with cand := false, candN := 0 }
  else if candidate x.raw ((Spec.judges t i).map (Spec.readingOf t readings)) then
    if x.candN = 3 then { x with failed := true, cand := true, candN := 0 } else { x with cand := true, candN := x.candN + 1 }
  else { x with cand := false, candN := 0 }

theorem readingOf_eq (t : Thermal) (readings : List (Nat × Int)) :
    Spec.readingOf t readings = fun i => ((readings.find? fun x => x.1 == i).map (·.2)).getD (Tab.getD t.sens i .reset).raw := by
  funext i
  unfold Spec.readingOf
  cases readings.find? fun x => x.1 == i <;> rfl

theorem Thermal.judge_eq (t : Thermal) (readings : List (Nat × Int)) (outOf : List Nat) :
    t.judge readings outOf = (List.range 1792).map fun i => (i, t.judged readings outOf i) := by
  unfold Thermal.judge Thermal.judged
  rw [readingOf_eq]
  refine List.map_congr_left fun i _ => ?_
  simp only [apply_ite (Prod.mk i)]
  rfl

theorem Thermal.find_judge (t : Thermal) (readings : List (Nat × Int)) (outOf : List Nat) {i : Nat} (h : i < 1792) :
    Tab.find (t.judge readings outOf) i = some (t.judged readings outOf i) := by
  rw [t.judge_eq, Tab.find_range_map _ h]

section
variable {t : Thermal} {readings : List (Nat × Int)} {outOf : List Nat} {i : Nat}

theorem Thermal.judged_raw : (t.judged readings outOf i).raw = Spec.readingOf t readings i := by
  unfold Thermal.judged
  grind

theorem Thermal.judged_outOf (h : i ∈ outOf) : (t.judged readings outOf i).failed = true := by
  simp [Thermal.judged, h]

theorem Thermal.judged_failed (h : (Tab.getD t.sens i .reset).failed = true) : (t.judged readings outOf i).failed = true := by
  unfold Thermal.judged
  grind

theorem Thermal.judged_near (ho : i ∉ outOf) (hf : (Tab.getD t.sens i .reset).failed = false)
    (hc : candidate (Spec.readingOf t readings i) ((Spec.judges t i).map (Spec.readingOf t readings)) = false) :
    (t.judged readings outOf i).failed = false ∧ (t.judged readings outOf i).cand = false ∧ (t.judged readings outOf i).candN = 0 := by
  simp [Thermal.judged, ho, hf, hc]

theorem Thermal.judged_far (ho : i ∉ outOf) (hf : (Tab.getD t.sens i .reset).failed = false)
    (hc : candidate (Spec.readingOf t readings i) ((Spec.judges t i).map (Spec.readingOf t readings)) = true)
    (hn : (Tab.getD t.sens i .reset).candN ≠ 3) : (t.judged readings outOf i).failed = false ∧ (t.judged readings outOf i).cand = true ∧
      (t.judged readings outOf i).candN = (Tab.getD t.sens i .reset).candN + 1 := by
  simp [Thermal.judged, ho, hf, hc, hn]

theorem Thermal.judged_fourth (ho : i ∉ outOf) (hf : (Tab.getD t.sens i .reset).failed = false)
    (hc : candidate (Spec.readingOf t readings i) ((Spec.judges t i).map (Spec.readingOf t readings)) = true)
    (hn : (Tab.getD t.sens i .reset).candN = 3) : (t.judged readings outOf i).failed = true := by
  simp [Thermal.judged, ho, hf, hc, hn]

end

/-! ### The events (R16 to R22) -/

/-- The thermal state after a sample. -/
def Thermal.sampled (t : Thermal) (readings : List (Nat × Int)) (outOf : List Nat) (outer : List (Nat × Int)) (now : Nat) : Thermal :=
  ({ t with sens := t.reports (t.judge readings outOf)
            outer := outer.foldl (fun o (k, r) => if k < 8 then Tab.set o k (BitVec.ofInt 16 r) else o) t.outer
            sampleAt := now } : Thermal).latch

theorem Thermal.sampled_keeps (t : Thermal) (readings : List (Nat × Int)) (outOf : List Nat) (outer : List (Nat × Int)) (now : Nat) :
    (t.sampled readings outOf outer now).sens = t.reports (t.judge readings outOf) ∧
      (t.sampled readings outOf outer now).sampleAt = now ∧ (t.sampled readings outOf outer now).retire = t.retire ∧
      (t.sampled readings outOf outer now).trip = t.trip := by
  simp only [Thermal.sampled, Thermal.latch, and_self]

theorem State.not_early {s : State} {t n : Nat} (h : t + n * 5544000 ≤ s.units) : ¬ (!s.passed t n) = true := by
  rw [(s.passed_iff t n).2 h]
  decide

theorem State.early {s : State} {t n : Nat} (h : s.units < t + n * 5544000) : (!s.passed t n) = true := by
  rw [Bool.not_eq_true', Bool.eq_false_iff]
  exact fun hp => Nat.not_le.2 h ((s.passed_iff t n).1 hp)

theorem exec_thermSample (s : State) (readings : List (Nat × Int)) (outOf : List Nat) (outer : List (Nat × Int))
    (h : s.thm.sampleAt + 100 * 5544000 ≤ s.units) :
    exec .thermSample { s with inp := some (.thermSample readings outOf outer) } = 
      .next { s with inp := none, thm := s.thm.sampled readings outOf outer s.units } := if_neg (State.not_early h)

theorem exec_thermSample_early (s : State) (readings : List (Nat × Int)) (outOf : List Nat) (outer : List (Nat × Int))
    (h : s.units < s.thm.sampleAt + 100 * 5544000) :
    exec .thermSample { s with inp := some (.thermSample readings outOf outer) } = .next { s with inp := none } := if_pos (State.early h)

/-- A report that reaches TRIP, by whatever cause, trips. -/
theorem trips_latch {s u : State} {t : Thermal} (hu : u.thm = t.latch) (ht : t.tripped = s.thm.tripped) : Spec.Trips s u := by
  simp only [Spec.Trips, hu, Thermal.latch, ht, Bool.or_eq_true, List.any_eq_true, decide_eq_true_eq]
  rfl

theorem exec_thermSensFailedClear (s : State) (i : Nat) (hi : i < 1792) (hb : s.boot.state ≠ 3) :
    exec .thermSensFailedClear { s with inp := some (.thermSensFailedClear i) } = .next { s with inp := none, thm := s.thm.clearFailed i } :=
  if_pos ⟨hi, hb⟩

/-- The sensors after a FAILED mark is cleared. -/
def Thermal.cleared (t : Thermal) (i : Nat) : Tab Sensor :=
  Tab.set t.sens i { Tab.getD t.sens i .reset with failed := false, cand := false, candN := 0 }

theorem Thermal.clearFailed_failed {t : Thermal} {i : Nat} (h : (Tab.getD t.sens i .reset).failed = true) :
    t.clearFailed i = ({ t with sens := retemp (t.cleared i) } : Thermal).latch := by
  simp [Thermal.clearFailed, Thermal.cleared, h]

theorem Thermal.clearFailed_sound {t : Thermal} {i : Nat} (h : (Tab.getD t.sens i .reset).failed = false) : t.clearFailed i = t := by
  simp [Thermal.clearFailed, h]

theorem Thermal.getD_cleared_same (t : Thermal) (i : Nat) : Tab.getD (retemp (t.cleared i)) i .reset =
    { Tab.getD t.sens i .reset with failed := false, cand := false, candN := 0, temp := BitVec.ofInt 16 (Tab.getD t.sens i .reset).raw } := by
  have hs : Tab.getD (t.cleared i) i .reset = { Tab.getD t.sens i .reset with failed := false, cand := false, candN := 0 } :=
    Tab.getD_set_same ..
  have hr := reported_sound (sens := t.cleared i) (i := i) (by rw [hs])
  rw [hs] at hr
  rw [Tab.getD, find_retemp, hr, Thermal.cleared, Tab.find_set_same]
  rfl

theorem Thermal.getD_cleared_other (t : Thermal) {i k : Nat} (h : k ≠ i) :
    (Tab.getD (retemp (t.cleared i)) k .reset).failed = (Tab.getD t.sens k .reset).failed ∧
    (Tab.getD (retemp (t.cleared i)) k .reset).raw = (Tab.getD t.sens k .reset).raw := by
  obtain ⟨hf, hr⟩ := retemp_keeps (t.cleared i) k
  rw [hf, hr, Thermal.cleared, Tab.getD_set_other _ _ _ _ _ h]
  exact ⟨rfl, rfl⟩

/-- What THERM_LIM_WRITE leaves of the limits (R22). -/
def Thermal.limited (t : Thermal) (v : Nat) : Thermal :=
  ({ t with retire := BitVec.ofNat 8 (min 255 (max (field v 7 0) (field v 15 8 + 5))), resume := BitVec.ofNat 8 (field v 15 8)
            trip := BitVec.ofNat 8 (field v 23 16) } : Thermal).latch

theorem Thermal.limited_retire (t : Thermal) {v : Nat} (h : v / 2 ^ 8 % 2 ^ 8 ≤ 250) :
    (t.limited v).retire.toNat = max (v % 2 ^ 8) (v / 2 ^ 8 % 2 ^ 8 + 5) := by
  simp only [Thermal.limited, Thermal.latch, field, BitVec.toNat_ofNat, Nat.pow_zero, Nat.div_one]
  omega

theorem exec_thermLimWrite (s : State) (v : W32) : exec .thermLimWrite { s with inp := some (.thermLimWrite v) } =
    .next { s with inp := none, thm := s.thm.limited v.toNat } := rfl

/-- The banks of a sensor's bed and layer are retired once it has reported RETIRE for 100 samples, and not before (R20, R22). -/
theorem exec_bankThermalRetire (s : State) (i : Nat) (hi : i < 1792) (hl : 3 ≤ i % 448 / 64) :
    (100 ≤ (Tab.getD s.thm.sens i .reset).hot → ∀ bits, bits = BitVec.ofNat 64 (0xFFFF * 2 ^ (16 * (i % 448 / 64 - 3))) →
      Tab.getD s.mem.bankTherm (i / 448 * 64 + i % 64) 0 &&& bits ≠ bits →
      exec .bankThermalRetire { s with inp := some (.bankThermalRetire i) } = .next { s with
        inp := none
        thm := { s.thm with lodgeIrq := s.thm.lodgeIrq ++ [i] }
        mem := { s.mem with
          bankMap := Tab.set s.mem.bankMap (i / 448 * 64 + i % 64) (Tab.getD s.mem.bankMap (i / 448 * 64 + i % 64) 0 ||| bits)
          bankTherm := Tab.set s.mem.bankTherm (i / 448 * 64 + i % 64) (Tab.getD s.mem.bankTherm (i / 448 * 64 + i % 64) 0 ||| bits) } }) ∧
    ((Tab.getD s.thm.sens i .reset).hot < 100 →
      exec .bankThermalRetire { s with inp := some (.bankThermalRetire i) } = .next { s with inp := none }) := by
  constructor
  · rintro hh bits rfl hb
    have hc : ¬ (1792 ≤ i ∨ i % quarterSensors / 64 < 3 ∨ (Tab.getD s.thm.sens i .reset).hot < 100) := by
      unfold quarterSensors
      omega
    exact (if_neg hc).trans (if_neg hb)
  · intro hh
    exact if_pos (.inr (.inr hh))

end Machine
end Sys2Proof
end

