-- ==== Sys2Proof/Proofs/HeatAndPower.lean ====
section
/-! PROOFS. Power capping (R21, R23 to R25), and the obligation on heat and power. -/
namespace Sys2Proof.Machine

/-! ### Caps and windows (R25) -/

theorem foldl_takeCap_keeps (ws : List W32) (p : Power) :
    ws.foldl Power.takeCap p = { p with cap := (ws.foldl Power.takeCap p).cap, clamp := (ws.foldl Power.takeCap p).clamp } := by
  induction ws generalizing p with
  | nil => rfl
  | cons w r ih =>
    rw [List.foldl_cons, ih]
    rfl

theorem foldl_takeCap_last (ws : List W32) (v : W32) (p : Power) :
    ((ws ++ [v]).foldl Power.takeCap p).cap.toNat = min 4000 (max 1500 (v.toNat % 2 ^ 16)) := by
  rw [List.foldl_append]
  show (BitVec.ofNat 16 (min 4000 (max 1500 (v.toNat / 2 ^ 0 % 2 ^ 16)))).toNat = _
  rw [BitVec.toNat_ofNat, Nat.pow_zero, Nat.div_one]
  omega

theorem foldl_takeCap_clamp (ws : List W32) (p : Power) : (ws.foldl Power.takeCap p).clamp = true ↔
    p.clamp = true ∨ ∃ v ∈ ws, v.toNat % 2 ^ 16 < 1500 ∨ 4000 < v.toNat % 2 ^ 16 := by
  induction ws generalizing p with
  | nil => simp
  | cons w r ih =>
    rw [List.foldl_cons, ih]
    simp [Power.takeCap, field, or_assoc]

theorem exec_pwrCapWrite_host (s : State) (v : W32) (h : s.boot.state ≠ 3) : exec .pwrCapWrite { s with inp := some (.pwrCapWrite .host v) } =
    .next { s with inp := none, pow := { s.pow with capPcie := s.pow.capPcie ++ [v] } } := if_neg h

theorem exec_pwrCapWrite_rack (s : State) (v : W32) (h : s.boot.state ≠ 3) : exec .pwrCapWrite { s with inp := some (.pwrCapWrite .rack v) } =
    .next { s with
      inp := none
      pow := { s.pow with capEth := if (s.lnk.ethFor 0).isSome then s.pow.capEth ++ [v] else s.pow.capEth } } := by
  refine (if_neg h).trans ?_
  cases s.lnk.ethFor 0
  · exact if_pos rfl
  · exact if_neg Bool.false_ne_true

theorem exec_pwrWinWrite (s : State) (v : W32) (h : s.boot.state ≠ 3) : exec .pwrWinWrite { s with inp := some (.pwrWinWrite v) } =
    .next { s with
      inp := none
      pow := { s.pow with
        win := BitVec.ofNat 20 (min 1000000 (max 100 (field v.toNat 19 0))), samples := s.pow.samples.take 1, avg := s.pow.inst
        clamp := s.pow.clamp || decide (field v.toNat 19 0 < 100) || decide (1000000 < field v.toNat 19 0) } } := if_neg h

/-! ### Samples and their mean (R23) -/

/-- A mean rounded down or up, of at most `n * 65535` over `n`. -/
theorem mean_bounds {sum n r : Nat} (hn : 0 < n) (hr : r ≤ n - 1) :
    (sum + r) / n * n ≤ sum + (n - 1) ∧ sum ≤ (sum + r) / n * n + (n - 1) ∧ (sum ≤ n * 65535 → (sum + r) / n < 65536) := by
  have hd := Nat.div_add_mod' (sum + r) n
  have hm := Nat.mod_lt (sum + r) hn
  refine ⟨by omega, by omega, fun hs => ?_⟩
  rw [Nat.div_lt_iff_lt_mul hn]
  omega

section
variable (p : Power) (watts now : Nat) (up : Bool)

/-- The power state once the pending caps are in force. -/
def Power.capped : Power := (p.capPcie ++ p.capEth).foldl Power.takeCap p

theorem Power.capped_win : p.capped.win = p.win := by rw [Power.capped, foldl_takeCap_keeps]
theorem Power.capped_samples : p.capped.samples = p.samples := by rw [Power.capped, foldl_takeCap_keeps]

theorem Power.sample_samples (hw : watts < 65536) :
    (p.sample watts now up).samples = (watts :: p.samples).take ((p.win.toNat + 9) / 10) := by
  show (min watts 65535 :: p.capped.samples).take p.capped.span = _
  rw [Power.span, p.capped_win, p.capped_samples, Nat.min_eq_left (by omega)]

theorem Power.sample_inst (hw : watts < 65536) : (p.sample watts now up).inst.toNat = watts := by
  show (BitVec.ofNat 16 (min watts 65535)).toNat = watts
  rw [BitVec.toNat_ofNat]
  omega

theorem Power.sample_cap : (p.sample watts now up).cap = p.capped.cap := rfl
theorem Power.sample_clamp : (p.sample watts now up).clamp = p.capped.clamp := rfl

theorem Power.sample_overSince (hw : watts < 65536) : (p.sample watts now up).overSince = none ↔ watts ≤ p.capped.cap.toNat := by
  have hm : min watts 65535 = watts := Nat.min_eq_left (by omega)
  show (if min watts 65535 ≤ p.capped.cap.toNat then none else if !(p.capPcie ++ p.capEth).isEmpty then some now
    else some (p.capped.overSince.getD now)) = none ↔ _
  rw [hm]
  split
  · simp [*]
  · split <;> simp [*]

theorem Power.sample_avg (hw : watts < 65536) (hwin : 1 ≤ p.win.toNat) (hall : ∀ w ∈ p.samples, w < 65536) :
    ∀ ss, ss = (p.sample watts now up).samples → (p.sample watts now up).avg.toNat * ss.length ≤ ss.sum + (ss.length - 1) ∧
      ss.sum ≤ (p.sample watts now up).avg.toNat * ss.length + (ss.length - 1) := by
  intro ss hss
  have hs := hss.trans (p.sample_samples watts now up hw)
  have hn : 0 < ss.length := by
    rw [hs, List.length_take, List.length_cons]
    omega
  have hsum : ss.sum ≤ ss.length * 65535 := List.sum_le_card_nsmul ss 65535 fun w h => by
    rw [hs] at h
    rcases List.mem_cons.1 (List.mem_of_mem_take h) with rfl | h
    · omega
    · exact Nat.le_of_lt_succ (hall w h)
  have ha : (p.sample watts now up).avg = BitVec.ofNat 16 ((ss.sum + if up then ss.length - 1 else 0) / ss.length) := by
    subst hss
    exact congrArg (BitVec.ofNat 16) (if_neg (Nat.ne_of_gt hn))
  obtain ⟨h1, h2, h3⟩ := mean_bounds (sum := ss.sum) (r := if up then ss.length - 1 else 0) hn (by split <;> omega)
  rw [ha, BitVec.toNat_ofNat, Nat.mod_eq_of_lt (h3 hsum)]
  exact ⟨h1, h2⟩

end

theorem exec_powerSample (s : State) (watts : Nat) (h : s.pow.sampleAt + 10 * 5544000 ≤ s.units) : ∃ up : Bool,
    exec .powerSample { s with inp := some (.powerSample watts) } =
      .next { s with inp := none, fresh := s.fresh + 1, pow := s.pow.sample watts s.units up } :=
  ⟨_, if_neg (State.not_early h)⟩

theorem exec_powerSample_early (s : State) (watts : Nat) (h : s.units < s.pow.sampleAt + 10 * 5544000) :
    exec .powerSample { s with inp := some (.powerSample watts) } = .next { s with inp := none } :=
  if_pos (State.early h)

/-! ### Periods (R21, R24) -/

/-- Power as THERM follows the fabric sensors. -/
def State.thermPow (s : State) : Power :=
  if s.thm.tripped then { s.pow with therm := true }
  else if fabricSensors.all fun i => (Tab.getD s.thm.sens i .reset).report ≤ ((s.thm.trip.toNat : Int) - 10) * 16 then { s.pow with therm := false }
  else s.pow

theorem State.thermStep_eq (s : State) : s.thermStep = { s with thm := { s.thm with tripped := false }, pow := s.thermPow } := by
  unfold State.thermStep State.thermPow
  split
  · rfl
  next h =>
    have ht : s.thm = { s.thm with tripped := false } := by rw [← Bool.eq_false_iff.2 h]
    dsimp only
    split
    · rw [← ht]
    · rw [← ht]

theorem exec_powerPeriod (s : State) (h : s.pow.periodAt + 100 * 5544000 ≤ s.units) :
    exec .powerPeriod { s with inp := some .powerPeriod } =
      .next { s with inp := none, thm := { s.thm with tripped := false }, pow := { s.thermPow.act with periodAt := s.units } } := by
  refine (if_neg (State.not_early h)).trans ?_
  rw [State.thermStep_eq]
  rfl

theorem exec_powerPeriod_early (s : State) (h : s.units < s.pow.periodAt + 100 * 5544000) :
    exec .powerPeriod { s with inp := some .powerPeriod } = .next { s with inp := none } :=
  if_pos (State.early h)

section
variable {p : Power}

theorem Power.act_therm (h : p.therm = true) : p.act = { p with step := 6 } := if_pos h

theorem Power.act_over (ht : p.therm = false) (ho : p.cap.toNat < p.inst.toNat) :
    (p.throttle.toNat < 7 → p.act = { p with throttle := p.throttle + 1 }) ∧
    (p.throttle = 7 → p.step.toNat < 6 → p.act = { p with step := p.step + 1, throttle := 4 }) ∧
    (p.throttle = 7 → 6 ≤ p.step.toNat → p.act = { p with floor := true }) := by
  refine ⟨fun h => ?_, fun h7 h => ?_, fun h7 h => ?_⟩
  · simp [Power.act, ht, ho, h]
  · simp [Power.act, ht, ho, h7, h]
  · simp [Power.act, ht, ho, h7, Nat.not_lt.2 h]

theorem Power.act_under (ht : p.therm = false) (ho : p.inst.toNat ≤ p.cap.toNat) :
    (100 * p.avg.toNat ≤ 95 * p.cap.toNat → 0 < p.throttle.toNat → p.act = { p with throttle := p.throttle - 1 }) ∧
    (10 * p.avg.toNat ≤ 9 * p.cap.toNat → p.throttle = 0 → 0 < p.step.toNat → p.act = { p with step := p.step - 1 }) ∧
    (95 * p.cap.toNat < 100 * p.avg.toNat → p.act = p) := by
  refine ⟨fun ha h => ?_, fun ha h0 h => ?_, fun ha => ?_⟩
  · simp [Power.act, ht, Nat.not_lt.2 ho, ha, h]
  · simp [Power.act, ht, Nat.not_lt.2 ho, ha, h0, h]
  · have h9 : ¬ 10 * p.avg.toNat ≤ 9 * p.cap.toNat := by omega
    simp [Power.act, ht, Nat.not_lt.2 ho, Nat.not_le.2 ha, h9]

end

theorem exec_powerOverDeadline (s : State) {t : Nat} (h : s.pow.overSince = some t) :
    exec .powerOverDeadline { s with inp := some .powerOverDeadline } = .next
      (if t + 1000 * 5544000 ≤ s.units then { s with inp := none, pow := { s.pow with ovf := true } } else { s with inp := none }) := by
  by_cases hp : t + 1000 * 5544000 ≤ s.units
  · rw [if_pos hp]
    simp only [exec, execPowerOverDeadline, h]
    exact if_pos ((State.passed_iff ..).2 hp)
  · rw [if_neg hp]
    simp only [exec, execPowerOverDeadline, h]
    exact if_neg fun hn => hp ((State.passed_iff ..).1 hn)

/-! ### The obligation -/

/-- Settles O46: each form's next state is named once above, and its parts are read off. -/
theorem heatAndPowerEvents : Obligations.HeatAndPowerEvents := by
  unfold Obligations.HeatAndPowerEvents
  refine ⟨?sample, ?early, ?retire, ?clear, ?cleared, ?limits, ?cap, ?window, ?power, ?powerEarly, ?period, ?trip,
    ?periodEarly, ?noExcess, ?excess⟩
  case sample =>
    intro s readings outOf outer h
    obtain ⟨hsens, hat, hretire, htrip⟩ := s.thm.sampled_keeps readings outOf outer s.units
    refine ⟨_, exec_thermSample s readings outOf outer h, rfl, rfl, hat, hretire, ?_, htrip, trips_latch rfl rfl⟩
    simp only [hsens]
    rintro i hi x y rfl hy
    have hfind := s.thm.find_judge readings outOf hi
    have hjudge : Tab.getD (s.thm.judge readings outOf) i .reset = s.thm.judged readings outOf i := by rw [Tab.getD, hfind, Option.getD_some]
    obtain ⟨hsound, hhottest, halone⟩ := reports_report (t := s.thm) hfind
    obtain ⟨hfailed, hraw⟩ := reports_keeps s.thm (s.thm.judge readings outOf) i
    obtain ⟨_, hcand, hcandN⟩ := reports_of_find (t := s.thm) hfind
    rw [hjudge] at hfailed hraw
    rw [← hy] at hsound hfailed hraw hcand hcandN hhottest halone
    rw [Thermal.judged_raw] at hraw
    refine ⟨hraw, fun ho => hfailed.trans (Thermal.judged_outOf ho), fun _ hf => hfailed.trans (Thermal.judged_failed hf), ?_,
      hsound, hhottest, halone⟩
    rintro ho hf c rfl
    rw [hraw, hfailed, hcand, hcandN]
    exact ⟨Thermal.judged_near ho hf, Thermal.judged_far ho hf, Thermal.judged_fourth ho hf⟩
  case retire =>
    rintro s i bits bed hi hl rfl rfl
    obtain ⟨hot, cold⟩ := exec_bankThermalRetire s i hi hl
    exact ⟨fun hh hb => ⟨_, hot hh _ rfl hb, Tab.getD_set_same .., rfl, Tab.getD_set_same .., rfl⟩, cold⟩
  case clear =>
    rintro s i x hi hb rfl hf
    refine ⟨_, exec_thermSensFailedClear s i hi hb, ?_⟩
    rw [Thermal.clearFailed_failed hf]
    exact ⟨s.thm.getD_cleared_same i, fun k hk => s.thm.getD_cleared_other hk, rfl, rfl, trips_latch rfl rfl⟩
  case cleared =>
    intro s i hi hb hf
    rw [exec_thermSensFailedClear s i hi hb, Thermal.clearFailed_sound hf]
  case limits =>
    intro s v
    refine ⟨_, exec_thermLimWrite s v, ?_, ?_, fun hr => ?_, rfl, rfl, trips_latch rfl rfl⟩
    · exact Nat.mod_mod _ _
    · exact Nat.mod_mod _ _
    · exact s.thm.limited_retire hr
  case cap =>
    intro s a v hb ha
    cases a with
    | lodge => exact absurd rfl ha
    | host => exact ⟨_, exec_pwrCapWrite_host s v hb, rfl, rfl, fun _ => ⟨rfl, rfl⟩, fun e => nomatch e⟩
    | rack => exact ⟨_, exec_pwrCapWrite_rack s v hb, rfl, rfl, fun e => (nomatch e), fun _ => ⟨rfl, rfl⟩⟩
  case window =>
    intro s v hb
    refine ⟨_, exec_pwrWinWrite s v hb, ?_, rfl, rfl, ?_, rfl⟩
    · simp only [field, Nat.pow_zero, Nat.div_one, BitVec.toNat_ofNat]
      omega
    · simp [field, Bool.or_assoc, Bool.decide_or]
  case power =>
    intro s watts ht hw hwin
    obtain ⟨up, h⟩ := exec_powerSample s watts ht
    refine ⟨_, h, Power.sample_inst _ _ _ _ hw, rfl, rfl, rfl, Power.sample_samples _ _ _ _ hw,
      fun hall => Power.sample_avg _ _ _ _ hw hwin hall _ rfl, fun v ws hv => ?_, fun hp he => ?_, foldl_takeCap_clamp _ _,
      Power.sample_overSince _ _ _ _ hw⟩
    · show s.pow.capped.cap.toNat = _
      rw [Power.capped, hv, foldl_takeCap_last]
    · show s.pow.capped.cap = _
      rw [Power.capped, hp, he]
      rfl
  case period =>
    intro s p ht h1 h2 h3
    have hp : p = s.thermPow := by
      unfold State.thermPow
      split
      next hT => exact h1 hT
      next hT =>
        have hF := Bool.eq_false_iff.2 hT
        split
        next hc => exact h2 hF fun i hi => of_decide_eq_true (List.all_eq_true.1 hc i hi)
        next hc =>
          obtain ⟨i, hi, hlt⟩ := List.all_eq_false.1 (Bool.eq_false_iff.2 hc)
          exact h3 hF ⟨i, hi, Int.not_le.1 fun hle => hlt (decide_eq_true hle)⟩
    subst hp
    exact ⟨_, exec_powerPeriod s ht, Power.act_therm, Power.act_over, Power.act_under⟩
  case trip =>
    intro s hT ht
    have hp : s.thermPow.therm = true := by
      rw [State.thermPow, if_pos hT]
    refine ⟨_, exec_powerPeriod s ht, ?_, ?_⟩
    · show s.thermPow.act.therm = true
      rw [Power.act_therm hp]
      exact hp
    · show s.thermPow.act.step = 6
      rw [Power.act_therm hp]
  case early => exact exec_thermSample_early
  case powerEarly => exact exec_powerSample_early
  case periodEarly => exact exec_powerPeriod_early
  case noExcess =>
    intro s h
    simp only [exec, execPowerOverDeadline, h]
  case excess =>
    intro s t h
    rw [exec_powerOverDeadline s h]
    exact ⟨fun ht => by rw [if_pos ht], fun ht => by rw [if_neg (Nat.not_le.2 ht)]⟩

end Sys2Proof.Machine
end

