-- ==== Sys2Proof/Proofs/IssueSlot.lean ====
section
/-! PROOFS. The issue slot of an element (R83, R115, R223). -/
namespace Sys2Proof.Machine

/-! ### Which firing can issue -/

theorem usesDivider_iff (opc : Nat) : usesDivider opc = true ↔ opc ∈ [0x25, 0x26, 0x62, 0x63] := by
  simp [usesDivider, or_assoc]

/-- A busy divider keeps the firing of a node back. -/
def State.awaitsDivider (s : State) (e c n : Nat) : Bool :=
  match s.recAt e c n with
  | some (opc, _) => usesDivider opc && decide (s.cycles < Tab.getD s.fab.divBusy e 0)
  | none => false

theorem State.awaitsDivider_iff (s : State) (e c n : Nat) : s.awaitsDivider e c n = false ↔
    ∀ opc r, s.recAt e c n = some (opc, r) → opc ∈ [0x25, 0x26, 0x62, 0x63] → Tab.getD s.fab.divBusy e 0 ≤ s.cycles := by
  unfold State.awaitsDivider
  cases s.recAt e c n with
  | none => exact ⟨fun _ _ _ h => (nomatch h), fun _ => rfl⟩
  | some x =>
    obtain ⟨opc, r⟩ := x
    dsimp only
    rw [Bool.and_eq_false_imp, usesDivider_iff, decide_eq_false_iff_not, Nat.not_lt]
    exact ⟨fun h _ _ he => by cases he; exact h, fun h => h opc r rfl⟩

theorem State.issuable_eq (s : State) (e c : Nat) : s.issuable e c = (s.ctx e c).ready.head?.bind fun f =>
    if (s.ctx e c).holds s.cycles || s.awaitsDivider e c f.node || decide (s.cycles ≤ f.since) then none else some f := by
  cases h : (s.ctx e c).ready with
  | nil => simp only [State.issuable, h, List.head?_nil, Option.bind_none]
  | cons f r => cases hr : s.recAt e c f.node <;> simp only [State.issuable, State.awaitsDivider, h, hr, List.head?_cons, Option.bind_some]

theorem State.issuable_iff {s : State} {e c : Nat} {f : Firing} : s.issuable e c = some f ↔ Spec.CanIssue s e c f := by
  rw [State.issuable_eq, Spec.CanIssue, ← s.awaitsDivider_iff, Option.bind_eq_some_iff]
  constructor
  · rintro ⟨g, hg, hc⟩
    split at hc
    · cases hc
    next hn =>
      cases hc
      simp only [Bool.or_eq_true, decide_eq_true_eq, not_or, Bool.not_eq_true, Nat.not_le] at hn
      obtain ⟨⟨hh, hd⟩, hs⟩ := hn
      exact ⟨hg, hh, hs, hd⟩
  · rintro ⟨hg, hh, hs, hd⟩
    exact ⟨f, hg, by rw [hh, hd, decide_eq_false (Nat.not_le.2 hs)]; rfl⟩

theorem State.issuable_none {s : State} {e c : Nat} (h : ∀ g, ¬ Spec.CanIssue s e c g) : s.issuable e c = none :=
  Option.eq_none_iff_forall_ne_some.2 fun g hg => h g (State.issuable_iff.1 hg)

/-! ### Whose turn it is (R83) -/

/-- The first context in turn that `q` picks among those that can issue. -/
def State.firstInTurn (s : State) (e : Nat) (q : Nat → Bool) : Option Nat :=
  (s.turn e).find? fun c => (s.issuable e c).isSome && q c

theorem State.firstInTurn_some {s : State} {e k c : Nat} {f : Firing} {q : Nat → Bool} (hk : k < 4) (hc : c = Spec.inTurn s e k)
    (hf : Spec.CanIssue s e c f) (hq : q c = true) (h : ∀ j < k, ∀ g, Spec.CanIssue s e (Spec.inTurn s e j) g → q (Spec.inTurn s e j) = false) :
    s.firstInTurn e q = some c := by
  show ((List.range 4).map (Spec.inTurn s e)).find? _ = some c
  rw [List.find?_map, Option.map_eq_some_iff]
  refine ⟨k, List.find?_range_eq_some.2 ⟨?_, List.mem_range.2 hk, fun j hj => ?_⟩, hc.symm⟩
  · simp [← hc, State.issuable_iff.2 hf, hq]
  · show (!((s.issuable e (Spec.inTurn s e j)).isSome && q (Spec.inTurn s e j))) = true
    cases hi : s.issuable e (Spec.inTurn s e j) with
    | none => rfl
    | some g => rw [h j hj g (State.issuable_iff.1 hi)]; rfl

theorem State.firstInTurn_none {s : State} {e : Nat} {q : Nat → Bool}
    (h : ∀ j < 4, ∀ g, Spec.CanIssue s e (Spec.inTurn s e j) g → q (Spec.inTurn s e j) = false) : s.firstInTurn e q = none := by
  refine List.find?_eq_none.2 fun c hc => ?_
  obtain ⟨j, hj, rfl⟩ := List.mem_map.1 hc
  show ¬ ((s.issuable e (Spec.inTurn s e j)).isSome && q (Spec.inTurn s e j)) = true
  cases hi : s.issuable e (Spec.inTurn s e j) with
  | none => exact Bool.false_ne_true
  | some g => rw [h j (List.mem_range.1 hj) g (State.issuable_iff.1 hi)]; exact Bool.false_ne_true

/-- The first in turn with credit, or else the first that can issue, in a new round. -/
theorem State.chooseCtx_eq (s : State) (e : Nat) : s.chooseCtx e =
    ((s.firstInTurn e fun c => decide (0 < (s.ctx e c).credit)).map fun c => (c, s)).or
      ((s.firstInTurn e fun _ => true).map fun c => (c, s.newRound e)) := by
  have hall : s.firstInTurn e (fun _ => true) = ((s.turn e).filter fun c => (s.issuable e c).isSome).head? := by
    simp [State.firstInTurn, List.head?_filter]
  have hcredit : s.firstInTurn e (fun c => decide (0 < (s.ctx e c).credit)) =
      ((s.turn e).filter fun c => (s.issuable e c).isSome).find? fun c => decide (0 < (s.ctx e c).credit) := by
    simp [State.firstInTurn, List.find?_filter]
  rw [hall, hcredit, State.chooseCtx]
  cases (s.turn e).filter fun c => (s.issuable e c).isSome with
  | nil => rfl
  | cons a l =>
    dsimp only [List.isEmpty_cons]
    cases (a :: l).find? fun c => decide (0 < (s.ctx e c).credit) <;> rfl

theorem State.chooseCtx_credit {s : State} {e k c : Nat} {f : Firing} (hk : k < 4) (hc : c = Spec.inTurn s e k) (hf : Spec.CanIssue s e c f)
    (hcr : 0 < (s.ctx e c).credit)
    (h : ∀ j < k, ∀ g, Spec.CanIssue s e (Spec.inTurn s e j) g → (s.ctx e (Spec.inTurn s e j)).credit = 0) : s.chooseCtx e = some (c, s) := by
  rw [s.chooseCtx_eq, State.firstInTurn_some hk hc hf (decide_eq_true hcr) fun j hj g hg => by simp [h j hj g hg]]
  rfl

theorem State.chooseCtx_round {s : State} {e k c : Nat} {f : Firing} (hk : k < 4) (hc : c = Spec.inTurn s e k) (hf : Spec.CanIssue s e c f)
    (h0 : ∀ j < 4, ∀ g, Spec.CanIssue s e (Spec.inTurn s e j) g → (s.ctx e (Spec.inTurn s e j)).credit = 0)
    (h : ∀ j < k, ∀ g, ¬ Spec.CanIssue s e (Spec.inTurn s e j) g) : s.chooseCtx e = some (c, s.newRound e) := by
  rw [s.chooseCtx_eq, State.firstInTurn_none fun j hj g hg => by simp [h0 j hj g hg],
    State.firstInTurn_some hk hc hf rfl fun j hj g hg => absurd hg (h j hj g)]
  rfl

theorem State.chooseCtx_none {s : State} {e : Nat} (h : ∀ c < 4, ∀ g, ¬ Spec.CanIssue s e c g) : s.chooseCtx e = none := by
  have hn := fun q => State.firstInTurn_none (s := s) (e := e) (q := q) fun j _ g hg => absurd hg (h _ (Nat.mod_lt _ (by decide)) g)
  rw [s.chooseCtx_eq, hn, hn]
  rfl

/-! ### A new round (R83) -/

/-- One context's part in a new round. -/
def State.refill (s : State) (e c : Nat) : State :=
  if (s.ctx e c).ready.isEmpty then s
  else s.setCtx e c { s.ctx e c with credit := 1 + (((s.ctx e c).owner.bind s.task?).map (·.prio)).getD 0 }

theorem State.newRound_eq (s : State) (e : Nat) : s.newRound e = (List.range 4).foldl (fun s c => s.refill e c) s := rfl

/-- `t` differs from `s` in contexts only. -/
def State.CtxOnly (s t : State) : Prop := ∃ ctxs, t = s.setFab { s.fab with ctxs := ctxs }

theorem State.CtxOnly.canIssue {s t : State} (h : s.CtxOnly t) {e c : Nat} {f : Firing} (hr : (t.ctx e c).ready = (s.ctx e c).ready)
    (ho : (t.ctx e c).holds s.cycles = (s.ctx e c).holds s.cycles) (hf : Spec.CanIssue s e c f) : Spec.CanIssue t e c f := by
  have hrec : t.recAt e c f.node = s.recAt e c f.node := by
    obtain ⟨ctxs, rfl⟩ := h
    simp only [State.recAt, State.instrAt, State.storeBytes, State.setFab]
  have hcyc : t.cycles = s.cycles ∧ t.fab.divBusy = s.fab.divBusy := by
    obtain ⟨ctxs, rfl⟩ := h
    exact ⟨rfl, rfl⟩
  rw [Spec.CanIssue, hr, hrec, hcyc.1, hcyc.2, ho]
  exact hf

theorem State.refill_ctxOnly {s t : State} (h : s.CtxOnly t) (e c : Nat) : s.CtxOnly (t.refill e c) := by
  obtain ⟨ctxs, rfl⟩ := h
  unfold State.refill
  split
  · exact ⟨ctxs, rfl⟩
  · exact ⟨_, rfl⟩

theorem State.newRound_ctxOnly (s : State) (e : Nat) : s.CtxOnly (s.newRound e) :=
  foldl_keeps s.CtxOnly (fun s c => s.refill e c) (fun _ c h => State.refill_ctxOnly h e c) (List.range 4) s ⟨s.fab.ctxs, rfl⟩

theorem ctxKey_inj {e c d : Nat} (h : c ≠ d) : ctxKey e c ≠ ctxKey e d := by
  unfold ctxKey
  omega

theorem State.refill_ctx_other (s : State) {e c d : Nat} (h : c ≠ d) : (s.refill e d).ctx e c = s.ctx e c := by
  unfold State.refill
  split
  · rfl
  · exact State.ctx_setCtx_other _ _ _ _ _ _ (ctxKey_inj h)

theorem State.foldl_refill_ctx_other {e c : Nat} (l : List Nat) (hc : c ∉ l) (s : State) :
    (l.foldl (fun s d => s.refill e d) s).ctx e c = s.ctx e c := by
  induction l generalizing s with
  | nil => rfl
  | cons d r ih =>
    obtain ⟨hd, hr⟩ := not_or.1 (fun h => hc (List.mem_cons.2 h))
    rw [List.foldl_cons, ih hr, s.refill_ctx_other hd]

theorem State.newRound_ctx {s : State} {e c : Nat} (hc : c < 4) (hr : (s.ctx e c).ready ≠ []) : (s.newRound e).ctx e c =
    { s.ctx e c with credit := 1 + (((s.ctx e c).owner.bind s.task?).map (·.prio)).getD 0 } := by
  obtain ⟨l, m, hlm⟩ := List.append_of_mem (List.mem_range.2 hc)
  have hnd : (l ++ c :: m).Nodup := hlm ▸ List.nodup_range
  obtain ⟨_, hm, hdis⟩ := List.nodup_append.1 hnd
  have hcl : c ∉ l := fun h => hdis c h c List.mem_cons_self rfl
  obtain ⟨hcm, _⟩ := List.nodup_cons.1 hm
  rw [s.newRound_eq, hlm, List.foldl_append, List.foldl_cons, State.foldl_refill_ctx_other m hcm]
  have hctx := State.foldl_refill_ctx_other (e := e) l hcl s
  obtain ⟨ctxs, ht⟩ := foldl_keeps s.CtxOnly (fun s c => s.refill e c) (fun _ c h => State.refill_ctxOnly h e c) l s ⟨s.fab.ctxs, rfl⟩
  generalize l.foldl (fun s c => s.refill e c) s = t at hctx ht
  rw [State.refill, hctx, if_neg (by simpa using hr), State.ctx_setCtx_same, ht]
  rfl

/-! ### The firing taken -/

/-- The context once its oldest firing is taken out. -/
def CtxSt.taken (x : CtxSt) : CtxSt := { x with ready := x.ready.drop 1, credit := x.credit - 1 }.fill

theorem CtxSt.taken_ready {x : CtxSt} (h : x.ready ≠ []) : x.taken.ready = x.ready.tail ++ x.waiting.take (17 - x.ready.length) := by
  have hl := List.length_pos_iff.2 h
  show x.ready.drop 1 ++ x.waiting.take (16 - (x.ready.drop 1).length) = _
  rw [List.drop_one, List.length_tail]
  congr 2
  omega

theorem State.takeFiring_eq (s : State) (e c : Nat) (f : Firing) : ∃ nodes, s.takeFiring e c f =
    (s.setCtx e c (s.ctx e c).taken).setFab { (s.setCtx e c (s.ctx e c).taken).fab with nodes := nodes } := by
  unfold State.takeFiring
  dsimp only
  split
  · split
    · exact ⟨s.fab.nodes, rfl⟩
    · exact ⟨_, rfl⟩
  · exact ⟨s.fab.nodes, rfl⟩

/-- The state in which the body of a firing runs. -/
def State.issued (s : State) (e c : Nat) (f : Firing) : State :=
  let t := (s.takeFiring e c f).use (busyIssue e)
  let g := { f with again := Spec.Found s e f }
  let u := t.setFab { t.fab with
    lastServed := Tab.set t.fab.lastServed e c
    issued := if g.again then t.fab.issued else Tab.set t.fab.issued e (Tab.getD t.fab.issued e [] ++ [(t.fab.accepted, g)]) }
  { u with cur := some { elem := e, ctx := c, f := g } }

/-- What the issue of a firing changes. -/
theorem State.issued_eq (s : State) (e c : Nat) (f : Firing) : ∃ nodes issued, s.issued e c f = { s with
    fab := { s.fab with ctxs := Tab.set s.fab.ctxs (ctxKey e c) (s.ctx e c).taken, nodes := nodes, lastServed := Tab.set s.fab.lastServed e c
                        issued := issued }
    busy := busyIssue e :: s.busy
    cur := some { elem := e, ctx := c, f := { f with again := Spec.Found s e f } } } := by
  obtain ⟨nodes, h⟩ := s.takeFiring_eq e c f
  unfold State.issued
  rw [h]
  exact ⟨nodes, _, rfl⟩

theorem State.issueSlot_some {s s' : State} {e c : Nat} {f : Firing} (hs : Spec.SlotFree s e) (hc : s.chooseCtx e = some (c, s'))
    (hi : s'.issuable e c = some f) : s.issueSlot e = some (c, { f with again := Spec.Found s' e f }, s'.issued e c f) := by
  obtain ⟨hb, hr, hv, ht⟩ := hs
  have hfree : (s.isBusy (busyIssue e) || s.replaying e || s.withheld || s.serves e) = false := by
    have hw : s.withheld = false := by
      unfold State.withheld
      rw [ht]
      rfl
    have hbusy : s.isBusy (busyIssue e) = false := by
      rw [State.isBusy, List.contains_eq_mem]
      exact decide_eq_false hb
    rw [hbusy, hr, hw, hv]
    rfl
  have hissued : ((s'.takeFiring e c f).use (busyIssue e)).fab.issued = s'.fab.issued := by
    obtain ⟨nodes, h⟩ := s'.takeFiring_eq e c f
    rw [h]
    rfl
  unfold State.issueSlot
  rw [hfree, if_neg Bool.false_ne_true, hc]
  dsimp only
  rw [hi]
  simp only [State.issued, Spec.Found, hissued]

theorem State.issueSlot_none {s : State} {e : Nat} (h : busyIssue e ∈ s.busy ∨ s.replaying e = true ∨ s.serves e = true ∨
    ∀ c < 4, ∀ g, ¬ Spec.CanIssue s e c g) : s.issueSlot e = none := by
  unfold State.issueSlot
  split
  · rfl
  next hfree =>
    simp only [Bool.or_eq_true, not_or, Bool.not_eq_true] at hfree
    obtain ⟨⟨⟨hb, hr⟩, _⟩, hv⟩ := hfree
    rcases h with h | h | h | h
    · rw [State.isBusy, List.contains_eq_mem, decide_eq_false_iff_not] at hb
      exact absurd h hb
    · rw [h] at hr; cases hr
    · rw [h] at hv; cases hv
    · rw [State.chooseCtx_none h]

/-! ### The instruction that runs -/

theorem step_issue (s : State) (e : Nat) : step { s with agenda := .issue e :: s.agenda } =
    match s.issueAt e with
    | .idle t => .next t
    | .run i t => exec i t
    | .bad f => .fault f := rfl

theorem State.instrAt_eq (s : State) (e c n : Nat) : s.instrAt e c n = decode (Spec.recordBytes s e c n) := rfl

theorem State.raiseStream_none {s : State} (h : s.eng.faults = []) (i : Issue) (opc : Nat) (r : NodeRec) : s.raiseStream i opc r = none := by
  rw [State.raiseStream, h]
  rfl

/-- What the obligation says of the state in which a firing runs, whichever it names as the one at hand. -/
structure IssuesFrom (s : State) (e c credit : Nat) (t : State) : Prop where
  ready : (t.ctx e c).ready = (s.ctx e c).ready.tail ++ (s.ctx e c).waiting.take (17 - (s.ctx e c).ready.length)
  credit : (t.ctx e c).credit = credit
  last : Tab.getD t.fab.lastServed e 3 = c
  busy : busyIssue e ∈ t.busy
  store : t.fab.store = s.fab.store
  rest : t.agenda = s.agenda ∧ t.mem = s.mem ∧ t.tsk = s.tsk ∧ t.eng = s.eng ∧ t.que = s.que ∧ t.out = s.out ∧ t.settings = s.settings

section
variable {s s' : State} {e c credit : Nat} {f : Firing}

theorem State.issued_issuesFrom (hctxs : s.CtxOnly s') (hne : (s.ctx e c).ready ≠ []) (hready : (s'.ctx e c).ready = (s.ctx e c).ready)
    (hwait : (s'.ctx e c).waiting = (s.ctx e c).waiting) (hcredit : (s'.ctx e c).credit - 1 = credit) (x : Option Issue) :
    IssuesFrom s e c credit { s'.issued e c f with cur := x } := by
  obtain ⟨nodes, issued, ht⟩ := s'.issued_eq e c f
  have hctx : ({ s'.issued e c f with cur := x } : State).ctx e c = (s'.ctx e c).taken := by
    rw [ht]
    exact Tab.getD_set_same ..
  obtain ⟨ctxs, rfl⟩ := hctxs
  refine ⟨?_, ?_, ?_, ?_, ?_, ?_⟩
  · rw [hctx, CtxSt.taken_ready (hready ▸ hne), hready, hwait]
  · rw [hctx]
    exact hcredit
  · rw [ht]
    exact Tab.getD_set_same ..
  · rw [ht]
    exact List.mem_cons_self
  · rw [ht]
    rfl
  · rw [ht]
    exact ⟨rfl, rfl, rfl, rfl, rfl, rfl, rfl⟩

theorem State.issued_instrAt (hctxs : s.CtxOnly s') :
    (s'.issued e c f).instrAt e c f.node = decode (Spec.recordBytes s e c f.node) := by
  obtain ⟨nodes, issued, ht⟩ := s'.issued_eq e c f
  obtain ⟨ctxs, rfl⟩ := hctxs
  rw [ht]
  rfl

variable (hs : Spec.SlotFree s e) (hc : s.chooseCtx e = some (c, s')) (hi : s'.issuable e c = some f) (hctxs : s.CtxOnly s')
include hs hc hi hctxs

theorem State.issueAt_bad {x : DecodeError} (hd : decode (Spec.recordBytes s e c f.node) = .error x) :
    s.issueAt e = .bad (.undecodableRecord e c f.node) := by
  unfold State.issueAt
  rw [State.issueSlot_some hs hc hi]
  dsimp only
  rw [State.issued_instrAt hctxs, hd]

theorem State.issueAt_ok {ins : Instr} {opc : Nat} {r : NodeRec} (hd : decode (Spec.recordBytes s e c f.node) = .ok ins)
    (hn : ins.node? = some (opc, r)) (hf : s.eng.faults = []) : s.issueAt e =
      if Spec.Found s e f && decide (0x90 ≤ opc) then .idle { s'.issued e c f with cur := none } else .run ins (s'.issued e c f) := by
  have hfound : Spec.Found s' e f = Spec.Found s e f := by
    obtain ⟨ctxs, rfl⟩ := hctxs
    rfl
  have hfaults : (s'.issued e c f).eng.faults = [] := by
    obtain ⟨nodes, issued, ht⟩ := s'.issued_eq e c f
    obtain ⟨ctxs, rfl⟩ := hctxs
    rw [ht]
    exact hf
  unfold State.issueAt
  rw [State.issueSlot_some hs hc hi]
  dsimp only
  rw [State.issued_instrAt hctxs, hd]
  dsimp only
  rw [hn]
  dsimp only
  rw [State.raiseStream_none hfaults, hfound]

theorem State.issues (hne : (s.ctx e c).ready ≠ []) (hready : (s'.ctx e c).ready = (s.ctx e c).ready)
    (hwait : (s'.ctx e c).waiting = (s.ctx e c).waiting) (hcredit : (s'.ctx e c).credit - 1 = credit) : Spec.Issues s e c f credit := by
  intro ins opc r hd hn hf
  have hat := State.issueAt_ok hs hc hi hctxs hd hn hf
  have hfrom := State.issued_issuesFrom (f := f) hctxs hne hready hwait hcredit
  rw [step_issue, hat]
  cases Spec.Found s e f && decide (0x90 ≤ opc) with
  | true =>
    obtain ⟨h1, h2, h3, h4, h5, h6⟩ := hfrom none
    exact ⟨{ s'.issued e c f with cur := none }, (fun h => nomatch h), fun _ => ⟨rfl, rfl⟩, h1, h2, h3, h4, h5, h6⟩
  | false =>
    have hcur : (s'.issued e c f).cur = some { elem := e, ctx := c, f := { f with again := Spec.Found s e f } } := by
      obtain ⟨ctxs, rfl⟩ := hctxs
      rfl
    obtain ⟨h1, h2, h3, h4, h5, h6⟩ := hfrom (s'.issued e c f).cur
    exact ⟨s'.issued e c f, fun _ => ⟨rfl, hcur⟩, (fun h => nomatch h), h1, h2, h3, h4, h5, h6⟩

end

/-- The slot goes to the first context in turn that has credit (R83). -/
theorem issues_credit {s : State} {e k c : Nat} {f : Firing} (hk : k < 4) (hc : c = Spec.inTurn s e k) (hs : Spec.SlotFree s e)
    (hf : Spec.CanIssue s e c f) (hcr : 0 < (s.ctx e c).credit)
    (h : ∀ j < k, ∀ g, Spec.CanIssue s e (Spec.inTurn s e j) g → (s.ctx e (Spec.inTurn s e j)).credit = 0) :
    Spec.Issues s e c f ((s.ctx e c).credit - 1) ∧ ∀ x, decode (Spec.recordBytes s e c f.node) = .error x →
      step { s with agenda := .issue e :: s.agenda } = .fault (.undecodableRecord e c f.node) := by
  have hch := State.chooseCtx_credit hk hc hf hcr h
  have hi := State.issuable_iff.2 hf
  have hctxs : s.CtxOnly s := ⟨s.fab.ctxs, rfl⟩
  have hne : (s.ctx e c).ready ≠ [] := fun h0 => by rw [Spec.CanIssue, h0] at hf; exact nomatch hf.1
  exact ⟨State.issues hs hch hi hctxs hne rfl rfl rfl, fun x hx => by rw [step_issue, State.issueAt_bad hs hch hi hctxs hx]⟩

/-- Where none has credit, it goes to the first that can issue, at the start of a round (R83). -/
theorem issues_round {s : State} {e k c : Nat} {f : Firing} (hk : k < 4) (hc : c = Spec.inTurn s e k) (hs : Spec.SlotFree s e)
    (hf : Spec.CanIssue s e c f)
    (h0 : ∀ j < 4, ∀ g, Spec.CanIssue s e (Spec.inTurn s e j) g → (s.ctx e (Spec.inTurn s e j)).credit = 0)
    (h : ∀ j < k, ∀ g, ¬ Spec.CanIssue s e (Spec.inTurn s e j) g) {tid : Nat} {t : Task} (ho : (s.ctx e c).owner = some tid)
    (ht : s.task? tid = some t) : Spec.Issues s e c f t.prio := by
  have hne : (s.ctx e c).ready ≠ [] := fun h0 => by rw [Spec.CanIssue, h0] at hf; exact nomatch hf.1
  have hc4 : c < 4 := hc ▸ Nat.mod_lt _ (by decide)
  have hctx := State.newRound_ctx hc4 hne
  have hctxs := s.newRound_ctxOnly e
  have hi : (s.newRound e).issuable e c = some f := by
    rw [State.issuable_iff]
    exact hctxs.canIssue (by rw [hctx]) (by rw [hctx]; rfl) hf
  refine State.issues hs (State.chooseCtx_round hk hc hf h0 h) hi hctxs hne (by rw [hctx]) (by rw [hctx]) ?_
  rw [hctx, ho]
  show 1 + ((s.task? tid).map (·.prio)).getD 0 - 1 = t.prio
  rw [ht, Option.map_some, Option.getD_some, Nat.add_sub_cancel_left]

/-- A slot that is withheld, used or serves, or finds nothing to issue, passes (R24, R115, R124, R141). -/
theorem step_issue_passes (s : State) (e : Nat) (h : busyIssue e ∈ s.busy ∨ s.replaying e = true ∨ s.serves e = true ∨
    ∀ c < 4, ∀ g, ¬ Spec.CanIssue s e c g) : step { s with agenda := .issue e :: s.agenda } = .next s := by
  rw [step_issue, State.issueAt, State.issueSlot_none h]

end Sys2Proof.Machine
end

