-- ==== Sys2Proof/Proofs/StepAgenda.lean ====
section
/-! PROOFS. What a step does for each entry of the agenda, and what the free choice of records that leave the taps decides. -/
namespace Sys2Proof.Machine

/-! ### A first instruction -/

/-- Every opcode stands for a node form or for nothing, but QPUT's depends on FMT besides (R351); 64 at a time, each evaluation short. -/
theorem ofOpcode_nodes (r : NodeRec) : ∀ k < 4,
    ((List.range' (64 * k) 64).all fun opc => opc == 0xC9 || (Instr.ofOpcode opc r).all fun i => i.node?.isSome) = true
  | 0, _ => rfl
  | 1, _ => rfl
  | 2, _ => rfl
  | 3, _ => rfl
  | _ + 4, h => absurd h (by omega)

theorem ofOpcode_isNode {opc : Nat} {r : NodeRec} {i : Instr} (h : Instr.ofOpcode opc r = some i) (ho : opc < 256) : i.node?.isSome = true := by
  have hx := List.all_eq_true.1 (ofOpcode_nodes r (opc / 64) (by omega)) opc (List.mem_range'_1.2 (by omega))
  rw [h, Bool.or_eq_true, beq_iff_eq] at hx
  rcases hx with rfl | hx
  · replace h : (if r.fmt = 1#3 then Instr.qputNb r else .qput r) = i := Option.some.inj h
    rw [← h]
    split <;> rfl
  · exact hx

theorem decode_isNode {bs : List Byte} {i : Instr} (h : decode bs = .ok i) : i.node?.isSome = true := by
  unfold decode at h
  split at h
  · cases h
  unfold decodeRecord at h
  split at h
  · cases h
  split at h
  · cases h
  split at h
  · split at h
    · cases h
    · split at h
      · split at h
        next ho =>
          cases h
          exact ofOpcode_isNode ho (Nat.mod_lt _ (by decide))
        · cases h
      · cases h
  · cases h

/-- The state whose issue slot the first instruction is, without the slot on its agenda. -/
def fetchState (w : Nat) : State := { State.reset.withFetchWord 96 w with agenda := [] }

theorem fetchState_record (w : Nat) : Spec.recordBytes (fetchState w) 0 0 0 = bytesOf 12 (w % 2 ^ 96) :=
  readCells_writeCells [] 0 (bytesOf 12 (w % 2 ^ 96)) rfl

theorem fetchState_credit (w c : Nat) : ((fetchState w).ctx 0 c).credit = 0 := by
  show (Tab.getD [(0, { CtxSt.new with owner := some 0, armed := true, ready := [fetchFiring] })] (ctxKey 0 c) CtxSt.new).credit = 0
  cases c with
  | zero => rfl
  | succ c =>
    rw [Tab.getD, Tab.find, if_neg (by unfold ctxKey; omega)]
    split <;> rfl

theorem fetchState_canIssue (w : Nat) : Spec.CanIssue (fetchState w) 0 0 fetchFiring :=
  ⟨rfl, rfl, Nat.one_pos, fun _ _ _ _ => Nat.zero_le _⟩

theorem step_fetchWord {w : Nat} {ins : Instr} (h : decodeTableWord 96 w = some ins) :
    ∃ t : State, step (State.reset.withFetchWord 96 w) = exec ins t ∧ ∃ i, t.cur = some i ∧ i.elem = 0 ∧ i.ctx = 0 ∧ i.f.node = 0 := by
  have hd : decode (Spec.recordBytes (fetchState w) 0 0 0) = .ok ins := by
    rw [fetchState_record]
    cases hx : decode (bytesOf 12 (w % 2 ^ 96)) with
    | ok i => rw [decodeTableWord, hx] at h; cases h; rfl
    | error x => rw [decodeTableWord, hx] at h; cases h
  obtain ⟨⟨opc, r⟩, hn⟩ := Option.isSome_iff_exists.1 (decode_isNode hd)
  have hs : Spec.SlotFree (fetchState w) 0 := ⟨List.not_mem_nil, rfl, rfl, rfl⟩
  have hturn : 0 = Spec.inTurn (fetchState w) 0 0 := by
    show 0 = (Tab.getD (α := Nat) [] 0 3 + 1 + 0) % 4
    rfl
  obtain ⟨t, hrun, _⟩ := issues_round (s := fetchState w) (e := 0) (k := 0) (c := 0) (f := fetchFiring) (by decide) hturn hs
    (fetchState_canIssue w) (fun j _ _ _ => fetchState_credit w _) (fun j hj => absurd hj (Nat.not_lt_zero j)) (tid := 0)
    (t := fetchTask) rfl rfl ins opc r hd hn rfl
  obtain ⟨hstep, hcur⟩ := hrun rfl
  exact ⟨t, hstep, _, hcur, rfl, rfl, rfl⟩

/-! ### What the host does -/

theorem step_hostStore (s : State) (a : Nat) (bs : List Byte) (p : Bool) (h : Tab.wf 0 s.mem.host = true) : ∃ u : State,
    step { s with agenda := .hostStore a bs p :: s.agenda } = .next u ∧ u.out = s.out ∧ u.fab = s.fab ∧ u.tsk = s.tsk ∧
      u.mem.hostPois = markPois s.mem.hostPois a bs.length p ∧
      ∀ x, Tab.getD u.mem.host x 0 = if a ≤ x ∧ x < a + bs.length then bs.getD (x - a) 0 else Tab.getD s.mem.host x 0 :=
  ⟨s.hostStore a bs p, rfl, rfl, rfl, rfl, rfl, fun x => getD_writeCells h a x bs⟩

theorem step_pfc (s : State) {p : Nat} (c : BitVec 8) (hb : s.boot.state = 2) (hp : p < 2) :
    step { s with agenda := .pfc p c :: s.agenda } = .next { s with lnk := { s.lnk with pfc := Tab.set s.lnk.pfc p c } } :=
  congrArg Host.Outcome.next (if_pos ⟨hp, hb⟩)

/-! ### A cycle at whose end nothing takes effect -/

section
variable {s : State} (h : Spec.EndsQuiet s)
include h

theorem State.leavesEnd_quiet : s.leavesEnd = s := by
  obtain ⟨hl, _, _⟩ := h
  unfold State.leavesEnd
  generalize s.tsk.tasks = l at hl
  induction l with
  | nil => rfl
  | cons x l ih =>
    have hx : x.2.groups.filter (fun g => !g.2.leaving.isEmpty) = [] :=
      List.filter_eq_nil_iff.2 fun g hg => by simp [hl x List.mem_cons_self g hg]
    rw [List.foldl_cons]
    dsimp only
    rw [hx]
    exact ih fun y hy => hl y (List.mem_cons_of_mem _ hy)

theorem State.watchesEnd_quiet : s.watchesEnd = s := by
  obtain ⟨_, hw, _⟩ := h
  have hnone : s.mem.watches.filter (fun w => w.due || w.expired || w.woken.isSome) = [] := List.filter_eq_nil_iff.2 fun w hm => by
    obtain ⟨h1, h2, h3⟩ := hw w hm
    simp [h1, h2, h3]
  rw [State.watchesEnd, hnone]
  rfl

theorem State.argwEnd_quiet : s.argwEnd = s := by
  obtain ⟨_, _, hd⟩ := h
  have hnone : s.fab.held.filter (fun h => h.done.isSome) = [] := List.filter_eq_nil_iff.2 fun x hm => by simp [hd x hm]
  rw [State.argwEnd, hnone]
  rfl

end

/-! ### The records that leave the taps between two cycles (R235) -/

theorem State.drainTaps_none {s : State} (h : Config.freeChoice s.fresh = 0) : ∃ fresh, s.drainTaps = { s with fresh := fresh } := by
  unfold State.drainTaps
  split
  · exact ⟨s.fresh, rfl⟩
  · have hn : (s.choose (s.tap.buf.length + 1)).1 = 0 := by
      show Config.freeChoice s.fresh % _ = 0
      rw [h, Nat.zero_mod]
    exact ⟨s.fresh + 1, by dsimp only; rw [hn]; rfl⟩

theorem State.nextCycle_quiet {s : State} (h : Spec.EndsQuiet s) : s.nextCycle = s.noteBlocked.tick.drainTaps.retake := by
  unfold State.nextCycle
  rw [State.leavesEnd_quiet h, State.watchesEnd_quiet h, State.argwEnd_quiet h]

/-- A write of the package's own agents has been noted in this cycle, so that what follows cannot take it back. -/
def State.Wrote (s : State) : Prop := s.turns ≠ []

theorem State.writeAt_wrote (s : State) (k : PlaceKind) (a : Nat) (bs : List Byte) (pois : Bool) : (s.writeAt k a bs pois).Wrote :=
  List.cons_ne_nil _ _

theorem State.ringBytes_wrote (base size : Nat) (bs : List Byte) : ∀ (s : State) (wp : Nat), s.Wrote → (s.ringBytes base size wp bs).Wrote := by
  induction bs with
  | nil => exact fun _ _ h => h
  | cons b r ih => exact fun s wp _ => ih _ _ (s.writeAt_wrote _ _ _ _)

theorem State.ringBytes_cons_wrote (s : State) (base size wp : Nat) (b : Byte) (bs : List Byte) : (s.ringBytes base size wp (b :: bs)).Wrote :=
  State.ringBytes_wrote base size bs _ _ (State.writeAt_wrote _ _ _ _ _)

theorem State.tapWrite_wrote {s : State} (h : s.Wrote) : s.tapWrite.Wrote := by
  unfold State.tapWrite
  split
  · exact h
  · dsimp only
    split
    · exact h
    · exact State.ringBytes_wrote (s := { s with tap := _ }) _ _ _ _ h

/-- The ring takes the oldest buffered copy. -/
structure State.Takes (s : State) : Prop where
  buf : ∃ i b bs rest, s.tap.buf = (i, b :: bs) :: rest
  room : ¬ s.tap.size.toNat ≤ (s.tap.wp - s.tap.rp).toNat
  ready : s.tapReady = true

theorem State.tapWrite_takes {s : State} (h : s.Takes) : s.tapWrite.Wrote := by
  obtain ⟨⟨i, b, bs, rest, hb⟩, hroom, _⟩ := h
  unfold State.tapWrite State.Wrote
  simp only [hb, if_neg hroom]
  exact State.ringBytes_cons_wrote { s with tap := { s.tap with buf := rest } } s.tap.ring.toNat s.tap.size.toNat s.tap.wp.toNat b bs

theorem State.drainTaps_takes {s : State} (h : s.Takes) {m : Nat} (hm : Config.freeChoice s.fresh % (s.tap.buf.length + 1) = m + 1) :
    s.drainTaps.Wrote := by
  have hne : s.tap.buf.isEmpty = false := by
    obtain ⟨⟨i, b, bs, rest, hb⟩, _⟩ := h
    rw [hb]
    rfl
  have hfirst : ({ s with fresh := s.fresh + 1 } : State).tapWrite.Wrote := State.tapWrite_takes ⟨h.buf, h.room, h.ready⟩
  have hready : ({ s with fresh := s.fresh + 1 } : State).tapReady = true := h.ready
  unfold State.drainTaps State.choose
  rw [hne, if_neg Bool.false_ne_true]
  dsimp only
  rw [hm, List.range_succ_eq_map, List.foldl_cons, if_pos hready]
  refine foldl_keeps State.Wrote _ (fun u _ hu => ?_) _ _ hfirst
  split
  exacts [State.tapWrite_wrote hu, hu]

/-- A package with `m + 1` records in the taps' buffers, the `n`-th free choice next. -/
def tapState (n m : Nat) : State :=
  { State.reset with fresh := n, tap := { Taps.reset with size := 8, buf := List.replicate (m + 1) (0, [0]) } }

theorem tapState_takes (n m : Nat) : (tapState n m).noteBlocked.tick.Takes :=
  ⟨⟨0, 0, [], List.replicate m (0, [0]), rfl⟩, (by decide : ¬ (8 : W32).toNat ≤ ((0 : W64) - 0).toNat), rfl⟩

theorem tapState_quiet (n m : Nat) : Spec.EndsQuiet (tapState n m) :=
  ⟨fun _ h => (nomatch h), fun _ h => (nomatch h), fun _ h => (nomatch h)⟩

/-- In a package whose free choice lets a record leave, a write is noted as the cycle passes. -/
theorem tapState_wrote {n m : Nat} (h : Config.freeChoice n = m + 1) : (tapState n m).nextCycle.Wrote := by
  rw [State.nextCycle_quiet (tapState_quiet n m)]
  refine State.drainTaps_takes (tapState_takes n m) (m := m) ?_
  show Config.freeChoice n % ((List.replicate (m + 1) (0, [0])).length + 1) = m + 1
  rw [h, List.length_replicate, Nat.mod_eq_of_lt (Nat.lt_succ_self _)]

/-! ### The obligation on the step -/

theorem step_cycle_quiet {s : State} (h : Spec.EndsQuiet s) (hz : ∀ n, Config.freeChoice n = 0) : ∃ (t : State) (n : Nat) (counts : Tab Nat),
    step { s with agenda := .cycle :: s.agenda } = .next t ∧ (s.agenda = [] → step s = .next t) ∧
      n ≤ s.tap.buf.length ∧ t.tap.buf = s.tap.buf.drop n ∧ t.cycles = s.cycles + 1 ∧
      t.units = s.units + 27720 / (12 - s.pow.step.toNat) ∧ t.busy = [] ∧ t.turns = [] ∧
      t.boot = (if s.boot.state = 0 then { s.boot with state := 1, trying := s.boot.src } else s.boot) ∧
      t.agenda = (s.que.late.map Stim.event) ++ s.agenda ∧ t.que = { s.que with late := [] } ∧
      t.err = { s.err with blockedFor := counts } ∧
      t.fab = s.fab ∧ t.tsk = s.tsk ∧ t.eng = s.eng ∧ t.out = s.out ∧ t.lnk = s.lnk ∧ t.sch = s.sch ∧ (n = 0 → t.mem = s.mem) := by
  obtain ⟨fresh, hd⟩ := State.drainTaps_none (s := s.noteBlocked.tick) (hz _)
  have hc : s.nextCycle = ({ s.noteBlocked.tick with fresh := fresh } : State).retake := by rw [State.nextCycle_quiet h, hd]
  refine ⟨s.nextCycle, 0, s.noteBlocked.err.blockedFor, rfl, fun ha => by simp only [step, ha], ?_⟩
  rw [hc]
  exact ⟨Nat.zero_le _, rfl, rfl, rfl, rfl, rfl, rfl, rfl, rfl, rfl, rfl, rfl, rfl, rfl, rfl, rfl, fun _ => rfl⟩

/-- O56 is not settled: it says that a quiet cycle leaves `turns` empty, which is so exactly where no record leaves the taps in it, for a
record that reaches the ring is a write that `turns` notes (R235, R348). How many leave is a free choice without a body, so neither O56
nor its negation can be proved. Everything else that it says holds. -/
theorem stepRunsTheDecodedInstruction_iff : Obligations.StepRunsTheDecodedInstruction ↔ ∀ n, Config.freeChoice n = 0 := by
  unfold Obligations.StepRunsTheDecodedInstruction
  constructor
  · rintro ⟨_, _, _, hcycle, _⟩ n
    cases hn : Config.freeChoice n with
    | zero => rfl
    | succ m =>
      obtain ⟨t, _, _, hstep, _, _, _, _, _, _, hturns, _⟩ := hcycle (tapState n m) (tapState_quiet n m)
      cases hstep
      exact absurd hturns (tapState_wrote hn)
  · intro hz
    refine ⟨fun s e k c f hk hc hs hf => ⟨issues_credit hk hc hs hf, fun h0 h tid t ho ht => issues_round hk hc hs hf h0 h ho ht⟩,
      step_issue_passes, fun _ _ => rfl, fun _ h => step_cycle_quiet h hz, step_hostStore, fun _ _ => rfl,
      fun s p c hb hp => step_pfc s c hb hp, fun w ins _ h => step_fetchWord h⟩

end Sys2Proof.Machine
end

