-- ==== Sys2Proof/Proofs/Identity.lean ====
section
/-! PROOFS. SPDM: when the responder answers, and what it answers to each request (R41, R48, R50, R51). -/
namespace Sys2Proof.Machine

/-! ### The order of requests (R48, R51) -/

theorem exec_getVersion (s : State) : exec .getVersion s = execGetVersion s := rfl
theorem exec_getCapabilities (s : State) : exec .getCapabilities s = execGetCapabilities s := rfl
theorem exec_negotiateAlgorithms (s : State) : exec .negotiateAlgorithms s = execNegotiateAlgorithms s := rfl
theorem exec_getDigests (s : State) : exec .getDigests s = execGetDigests s := rfl
theorem exec_getCertificate (s : State) : exec .getCertificate s = execGetCertificate s := rfl
theorem exec_challenge (s : State) : exec .challenge s = execChallenge s := rfl
theorem exec_getMeasurements (s : State) : exec .getMeasurements s = execGetMeasurements s := rfl
theorem exec_keyExchange (s : State) : exec .keyExchange s = execKeyExchange s := rfl
theorem exec_finish (s : State) : exec .finish s = execFinish s := rfl
theorem exec_endSession (s : State) : exec .endSession s = execEndSession s := rfl

theorem State.spdmUp_iff (s : State) (t : Transport) : s.spdmUp t = true ↔ Spec.Reached s t := by
  simp [State.spdmUp, Spec.Reached]

section
variable {s : State} {t : Transport} {n : Nat}

/-- A responder that is not reached says nothing. -/
theorem State.spdmAt_silent (h : ¬ Spec.Reached s t) (n : Nat) (f : State → State) : s.spdmAt t n f = .next s :=
  if_pos (by rw [Bool.eq_false_iff.2 (mt (s.spdmUp_iff t).1 h)]; rfl)

/-- A request before its time is an ERROR. -/
theorem State.spdmAt_early (h : Spec.Reached s t) (hn : s.boot.phase t < n) (f : State → State) :
    s.spdmAt t n f = .next (Spec.answered s t "ERROR" []) := by
  rw [State.spdmAt, (s.spdmUp_iff t).2 h, if_neg (by simp), if_pos hn]
  rfl

/-- A request in its time is answered. -/
theorem State.spdmAt_served (h : Spec.Reached s t) (hn : n ≤ s.boot.phase t) (f : State → State) :
    ({ s with inp := none } : State).spdmAt t n f = .next (f { s with inp := none }) := by
  rw [State.spdmAt, (State.spdmUp_iff { s with inp := none } t).2 h, if_neg (by simp), if_neg (Nat.not_lt.2 hn)]

end

/-- Every request is answered at the phase that `Spec.requests` gives it. -/
theorem exec_request (s : State) {t : Transport} {a b : Bool} {n : List Byte} {k : Nat} {e : Event × Nat}
    (he : e ∈ Spec.requests t a b n k) :
    ∃ f, exec e.1.instr { s with inp := some e.1 } = ({ s with inp := none } : State).spdmAt t e.2 f := by
  simp only [Spec.requests, List.mem_cons, List.not_mem_nil, or_false] at he
  obtain rfl | rfl | rfl | rfl | rfl | rfl | rfl | rfl | rfl | rfl := he
  all_goals exact Exists.intro (p := fun f => _ = State.spdmAt _ t _ f) (fun s => _) rfl

theorem State.phase_setPhase_same (s : State) (t : Transport) (n : Nat) : (s.setPhase t n).boot.phase t = n := by
  have h : (s.boot.spdm.filter fun x => x.1 != t).find? (fun x => x.1 == t) = none := by simp
  simp [State.setPhase, Boot.phase, List.find?_append, h]

theorem State.phase_setPhase_other (s : State) {t x : Transport} (n : Nat) (h : x ≠ t) :
    (s.setPhase t n).boot.phase x = s.boot.phase x := by
  have hx : (fun y : Transport × Nat => decide ((y.1 != t) = true ∧ (y.1 == x) = true)) = fun y => y.1 == x := funext fun y => by
    by_cases hy : y.1 = x <;> simp [hy, h]
  have hf : (s.boot.spdm.filter fun y => y.1 != t).find? (fun y => y.1 == x) = s.boot.spdm.find? fun y => y.1 == x := by
    rw [List.find?_filter, hx]
  simp [State.setPhase, Boot.phase, List.find?_append, hf, Ne.symm h]

/-! ### What is measured (R51) -/

/-- The fuse map of measurement 4. -/
theorem Fuses.bytes_eq (f : Fuses) : f.bytes = bytesOf 1 f.revoked.toNat ++
    (List.range 256).flatMap (fun j => bytesOf 8 (Tab.getD f.badBanks j 0).toNat) ++ bytesOf 1 f.debugEnable.toNat := by
  rw [Fuses.bytes]
  cases f.debugEnable <;> rfl

theorem State.measurements_eq (s : State) (k : Nat) :
    s.measurements k = if k ≤ 5 ∨ k = 0xFF then some (Spec.measured s k) else none := by
  have h5 : s.measurement 5 = some (bytesOf 1 s.tap.en.toNat ++ bytesOf 1 s.lnk.self.toNat) := by
    rw [State.measurement]
    cases s.tap.en <;> rfl
  have h4 : s.measurement 4 = some (bytesOf 1 s.fuse.revoked.toNat ++
      (List.range 256).flatMap (fun j => bytesOf 8 (Tab.getD s.fuse.badBanks j 0).toNat) ++ bytesOf 1 s.fuse.debugEnable.toNat) :=
    congrArg some s.fuse.bytes_eq
  unfold State.measurements Spec.measured
  match k with
  | 0 | 1 | 2 | 3 => rfl
  | 4 => exact h4
  | 5 => exact h5
  | k + 6 =>
    by_cases hk : k + 6 = 255
    · rw [hk]
      show some ([0, 1, 2, 3, 4].flatMap _) = _
      simp only [List.flatMap_cons, Nat.reduceAdd, h4, h5]
      rfl
    · rw [if_neg (by omega), if_neg hk, if_neg (by omega)]
      rfl

/-! ### Answers (R50, R51) -/

section
variable {s : State} {t : Transport} {sid : Nat}

/-- GET_VERSION begins a connection anew: the sessions stand. -/
theorem exec_getVersion_eq (hr : Spec.Reached s t) : exec .getVersion { s with inp := some (.getVersion t) } =
    .next (Spec.answered (({ s with inp := none } : State).setPhase t 1) t "VERSION" [0x13]) := by
  rw [exec_getVersion, execGetVersion]
  dsimp only
  rw [State.spdmAt_served hr (Nat.zero_le _)]
  rfl

theorem exec_getCapabilities_eq (hr : Spec.Reached s t) (hp : 1 ≤ s.boot.phase t) :
    exec .getCapabilities { s with inp := some (.getCapabilities t) } =
      .next (Spec.answered (({ s with inp := none } : State).setPhase t 2) t "CAPABILITIES" []) := by
  rw [exec_getCapabilities, execGetCapabilities]
  dsimp only
  rw [State.spdmAt_served hr hp]
  rfl

/-- A connection takes ECDSA P-384 with SHA-384 and nothing else. -/
theorem exec_negotiateAlgorithms_spec (hr : Spec.Reached s t) (hp : 2 ≤ s.boot.phase t) (a b : Bool) : ∃ u : State,
    exec .negotiateAlgorithms { s with inp := some (.negotiateAlgorithms t a b) } =
      .next (Spec.answered u t "ALGORITHMS" [if a then 1 else 0, if b then 1 else 0]) ∧
    u.boot.phase t = if a && b then 3 else s.boot.phase t := by
  rw [exec_negotiateAlgorithms, execNegotiateAlgorithms]
  dsimp only
  rw [State.spdmAt_served hr hp]
  refine ⟨if a && b then ({ s with inp := none } : State).setPhase t 3 else { s with inp := none }, ?_, ?_⟩
  · cases a <;> cases b <;> rfl
  · split
    · exact State.phase_setPhase_same _ t 3
    · rfl

theorem exec_getDigests_eq (hr : Spec.Reached s t) (hp : 3 ≤ s.boot.phase t) : exec .getDigests { s with inp := some (.getDigests t) } =
    .next (Spec.answered { s with inp := none } t "DIGESTS" (Config.sha384 (Spec.chain s))) := by
  rw [exec_getDigests, execGetDigests]
  dsimp only
  rw [State.spdmAt_served hr hp]
  rfl

theorem exec_getCertificate_eq (hr : Spec.Reached s t) (hp : 3 ≤ s.boot.phase t) :
    exec .getCertificate { s with inp := some (.getCertificate t) } =
      .next (Spec.answered { s with inp := none } t "CERTIFICATE" (Spec.chain s)) := by
  rw [exec_getCertificate, execGetCertificate]
  dsimp only
  rw [State.spdmAt_served hr hp]
  rfl

theorem exec_challenge_eq (hr : Spec.Reached s t) (hp : 3 ≤ s.boot.phase t) (n : List Byte) :
    exec .challenge { s with inp := some (.challenge t n) } =
      .next (Spec.answered { s with inp := none } t "CHALLENGE_AUTH" (Config.aliasSign s.boot.firmware n)) := by
  rw [exec_challenge, execChallenge]
  dsimp only
  rw [State.spdmAt_served hr hp]
  rfl

theorem exec_getMeasurements_eq (hr : Spec.Reached s t) (hp : 3 ≤ s.boot.phase t) (k : Nat) :
    exec .getMeasurements { s with inp := some (.getMeasurements t k) } = .next (if k ≤ 5 ∨ k = 0xFF then
      Spec.answered { s with inp := none } t "MEASUREMENTS" (Spec.measured s k ++ Config.aliasSign s.boot.firmware (Spec.measured s k))
    else Spec.answered { s with inp := none } t "ERROR" []) := by
  rw [exec_getMeasurements, execGetMeasurements]
  dsimp only
  rw [State.spdmAt_served hr hp, State.measurements_eq]
  by_cases h : k ≤ 5 ∨ k = 0xFF
  · rw [if_pos h, if_pos h]
    rfl
  · rw [if_neg h, if_neg h]
    rfl

/-- No more than four sessions are open, and none has a pre-shared key. -/
theorem exec_keyExchange_refused (hr : Spec.Reached s t) (hp : 3 ≤ s.boot.phase t) {psk : Bool} (h : psk = true ∨ 4 ≤ s.boot.sessions.length) :
    exec .keyExchange { s with inp := some (.keyExchange t psk) } = .next (Spec.answered { s with inp := none } t "ERROR" []) := by
  rw [exec_keyExchange, execKeyExchange]
  dsimp only
  rw [State.spdmAt_served hr hp, if_pos (by simpa using h)]
  rfl

theorem exec_keyExchange_opens (hr : Spec.Reached s t) (hp : 3 ≤ s.boot.phase t) (h : s.boot.sessions.length < 4) :
    exec .keyExchange { s with inp := some (.keyExchange t false) } = .next (Spec.answered
      { s with inp := none, fresh := s.fresh + 1,
               boot := { s.boot with sessions := s.boot.sessions ++ [{ sid := s.fresh, t := t, finished := false }] } }
      t "KEY_EXCHANGE_RSP" (bytesOf 4 s.fresh ++ Config.aliasSign s.boot.firmware (bytesOf 4 s.fresh))) := by
  rw [exec_keyExchange, execKeyExchange]
  dsimp only
  rw [State.spdmAt_served hr hp, if_neg (by simpa using h)]
  rfl

/-- FINISH answers for a session of its transport whose handshake is under way. -/
theorem exec_finish_open (hr : Spec.Reached s t) (hp : 3 ≤ s.boot.phase t)
    (h : ∃ x ∈ s.boot.sessions, x.sid = sid ∧ x.t = t ∧ x.finished = false) : ∃ u : State,
    exec .finish { s with inp := some (.finish t sid) } = .next (Spec.answered u t "FINISH_RSP" []) ∧
    u.boot.sessions = s.boot.sessions.map fun x => if x.sid = sid then { x with finished := true } else x := by
  rw [exec_finish, execFinish]
  dsimp only
  rw [State.spdmAt_served hr hp, if_pos (by simpa [and_assoc] using h)]
  exact ⟨_, rfl, rfl⟩

theorem exec_finish_other (hr : Spec.Reached s t) (hp : 3 ≤ s.boot.phase t)
    (h : ∀ x ∈ s.boot.sessions, ¬ (x.sid = sid ∧ x.t = t ∧ x.finished = false)) :
    exec .finish { s with inp := some (.finish t sid) } = .next (Spec.answered { s with inp := none } t "ERROR" []) := by
  rw [exec_finish, execFinish]
  dsimp only
  rw [State.spdmAt_served hr hp, if_neg (by simpa [and_assoc] using h)]
  rfl

/-- END_SESSION ends a session of its transport whose handshake is complete. -/
theorem exec_endSession_open (hr : Spec.Reached s t) (hp : 3 ≤ s.boot.phase t)
    (h : ∃ x ∈ s.boot.sessions, x.sid = sid ∧ x.t = t ∧ x.finished = true) : ∃ u : State,
    exec .endSession { s with inp := some (.endSession t sid) } = .next (Spec.answered u t "END_SESSION_ACK" []) ∧
    ∀ x, x ∈ u.boot.sessions ↔ x ∈ s.boot.sessions ∧ x.sid ≠ sid := by
  rw [exec_endSession, execEndSession]
  dsimp only
  rw [State.spdmAt_served hr hp, if_pos (by simpa [and_assoc] using h)]
  exact ⟨_, rfl, by simp⟩

theorem exec_endSession_other (hr : Spec.Reached s t) (hp : 3 ≤ s.boot.phase t)
    (h : ∀ x ∈ s.boot.sessions, ¬ (x.sid = sid ∧ x.t = t ∧ x.finished = true)) :
    exec .endSession { s with inp := some (.endSession t sid) } = .next (Spec.answered { s with inp := none } t "ERROR" []) := by
  rw [exec_endSession, execEndSession]
  dsimp only
  rw [State.spdmAt_served hr hp, if_neg (by simpa [and_assoc] using h)]
  rfl

end

/-! ### The obligation -/

/-- Settles O52: a request is answered by the phase of its transport's connection, and each answer is that of R50 and R51. -/
theorem identityMessages : Obligations.IdentityMessages := by
  refine ⟨fun s t a b n k e he => ?_,
    fun s t hr => ⟨_, exec_getVersion_eq hr, State.phase_setPhase_same _ t 1, fun x hx => State.phase_setPhase_other _ 1 hx, rfl, rfl⟩,
    fun s t hr hp => ⟨_, exec_getCapabilities_eq hr hp, State.phase_setPhase_same _ t 2, fun x hx => State.phase_setPhase_other _ 2 hx⟩,
    fun s t a b hr hp => exec_negotiateAlgorithms_spec hr hp a b,
    fun s t hr hp => ⟨exec_getDigests_eq hr hp, exec_getCertificate_eq hr hp, exec_challenge_eq hr hp,
      fun k bs hbs => hbs ▸ exec_getMeasurements_eq hr hp k, fun psk => exec_keyExchange_refused hr hp, exec_keyExchange_opens hr hp,
      fun sid => exec_finish_open hr hp, fun sid => exec_finish_other hr hp, fun sid => exec_endSession_open hr hp,
      fun sid => exec_endSession_other hr hp⟩⟩
  obtain ⟨f, hf⟩ := exec_request s he
  exact ⟨fun hr => hf.trans (State.spdmAt_silent (s := { s with inp := none }) hr _ f),
    fun hr hn => hf.trans (State.spdmAt_early (s := { s with inp := none }) hr hn f)⟩

end Sys2Proof.Machine
end

