-- ==== Sys2Proof/Proofs/AdminQueue.lean ====
section
/-! PROOFS. The admin ring: commands taken, completions written, RESYNC's summary and TRAY_DRAIN (R64, R65, R68). -/
namespace Sys2Proof.Machine
open Sys2Proof.Spec (poisonReports commandAt)

/-! ### Commands served and ended (R64) -/

theorem exec_adminDoorbell (s : State) : exec .adminDoorbell s = execAdminDoorbell s := rfl
theorem exec_adminRingSet (s : State) : exec .adminRingSet s = execAdminRingSet s := rfl
theorem exec_adminCompletion (s : State) : exec .adminCompletion s = execAdminCompletion s := rfl
theorem exec_adminUnknownOpcode (s : State) : exec .adminUnknownOpcode s = execAdminUnknownOpcode s := rfl
theorem exec_resync (s : State) : exec .resync s = execResync s := rfl
theorem exec_trayDrain (s : State) : exec .trayDrain s = execTrayDrain s := rfl

/-- A command that `Spec.Asked` describes is served. -/
theorem State.served_of_asked {s : State} {via : Via} {op : Nat} (h : Spec.Asked s via op) :
    ({ s with inp := none } : State).served via op = true := by
  obtain ⟨hb, hring, heth⟩ := h
  unfold State.served
  rw [Bool.and_eq_true]
  refine ⟨by simpa using hb, ?_⟩
  cases via with
  | ring k =>
    obtain ⟨t, ht, hn, hop⟩ := hring k rfl
    simp only [List.any_eq_true, Bool.and_eq_true, beq_iff_eq]
    exact ⟨t, ht, hn, hop⟩
  | eth tag => exact heth tag rfl

/-- The model's end of a command is the spec's. -/
theorem State.finishCmd_eq (s : State) (via : Via) (op status result : Nat) :
    s.finishCmd via op status result = Spec.ended s via op status result := by
  cases via <;> rfl

/-! ### The rings (R65) -/

section
variable (s : State)

/-- The place of the `j`-th command that waits in the ring. -/
def State.ringPlace (j : Nat) : Nat :=
  s.que.admqBase.toNat + 64 * ((s.que.admRd + BitVec.ofNat 32 j).toNat % Spec.ringEntries s.que.admqLog.toNat)
/-- The command at that place, under its number. -/
def State.ringCommand (j : Nat) : Taken :=
  { num := (s.que.admRd + BitVec.ofNat 32 j).toNat, bytes := commandAt s.mem (s.ringPlace j) }

theorem poisonReports_append (m : Memory) (as bs : List Nat) : poisonReports m (as ++ bs) = poisonReports m as ++ poisonReports m bs := by
  simp [poisonReports]

/-- The command at RDIDX is taken: reported where it reads poisoned, and counted. -/
def State.takeOne : State :=
  { s with out := s.out ++ poisonReports s.mem [s.ringPlace 0],
           que := { s.que with taken := s.que.taken ++ [s.ringCommand 0], admRd := s.que.admRd + 1 } }

theorem State.takeCommands_succ (n : Nat) : s.takeCommands (n + 1) = s.takeOne.takeCommands n := by
  rw [State.takeCommands, State.takeOne, State.ringCommand, State.ringPlace, commandAt, poisonReports, List.filter_singleton]
  simp only [BitVec.ofNat_eq_ofNat, BitVec.add_zero]
  cases h : anyPois s.mem.hostPois (s.que.admqBase.toNat + 64 * (s.que.admRd.toNat % Spec.ringEntries s.que.admqLog.toNat)) 64
  all_goals
    have h' : anyPois s.mem.hostPois (s.que.admqBase.toNat + 64 * (s.que.admRd.toNat % ringSize s.que.admqLog.toNat)) 64 = _ := h
    simp only [State.hostRead, h']
    simp
    rfl

theorem State.takeOne_place (j : Nat) : s.takeOne.ringPlace j = s.ringPlace (j + 1) := by
  have h : s.que.admRd + 1 + BitVec.ofNat 32 j = s.que.admRd + BitVec.ofNat 32 (j + 1) := by
    rw [Nat.add_comm j 1, BitVec.ofNat_add, BitVec.add_assoc]
    rfl
  rw [State.ringPlace, State.ringPlace, ← h]
  rfl

theorem State.takeOne_command (j : Nat) : s.takeOne.ringCommand j = s.ringCommand (j + 1) := by
  have h : s.que.admRd + 1 + BitVec.ofNat 32 j = s.que.admRd + BitVec.ofNat 32 (j + 1) := by
    rw [Nat.add_comm j 1, BitVec.ofNat_add, BitVec.add_assoc]
    rfl
  rw [State.ringCommand, State.ringCommand, s.takeOne_place, ← h]
  rfl

/-- What taking `n` commands does: each is reported where it reads poisoned, and joins those taken. -/
theorem State.takeCommands_eq (n : Nat) : s.takeCommands n =
    { s with out := s.out ++ poisonReports s.mem ((List.range n).map s.ringPlace),
             que := { s.que with taken := s.que.taken ++ (List.range n).map s.ringCommand,
                                 admRd := s.que.admRd + BitVec.ofNat 32 n } } := by
  induction n generalizing s with
  | zero => simp [State.takeCommands, poisonReports]
  | succ n ih =>
    have hp : s.takeOne.ringPlace = s.ringPlace ∘ Nat.succ := funext s.takeOne_place
    have hc : s.takeOne.ringCommand = s.ringCommand ∘ Nat.succ := funext s.takeOne_command
    have hr : s.takeOne.que.admRd + BitVec.ofNat 32 n = s.que.admRd + BitVec.ofNat 32 (n + 1) := by
      rw [Nat.add_comm n 1, BitVec.ofNat_add, ← BitVec.add_assoc]
      rfl
    rw [s.takeCommands_succ, ih, hr, hp, hc, List.range_succ_eq_map, List.map_cons, List.map_cons, List.map_map, List.map_map]
    simp only [State.takeOne, List.append_assoc, ← poisonReports_append, List.cons_append, List.nil_append]

end

section
variable {s : State}

theorem adminDoorbell_takes {wr : W32} (hb : s.boot.state ≠ 3) (hn : (wr - s.que.admRd).toNat < 2 ^ 31) :
    exec .adminDoorbell { s with inp := some (.adminDoorbell wr) } = .next
      { s with inp := none, out := s.out ++ poisonReports s.mem ((List.range (wr - s.que.admRd).toNat).map s.ringPlace),
               que := { s.que with admWr := wr, admRd := wr
                                   taken := s.que.taken ++ (List.range (wr - s.que.admRd).toNat).map s.ringCommand } } := by
  rw [exec_adminDoorbell, execAdminDoorbell]
  dsimp only
  rw [if_neg hb, if_pos hn, State.takeCommands_eq]
  have h : s.que.admRd + BitVec.ofNat 32 (wr - s.que.admRd).toNat = wr := by
    rw [BitVec.ofNat_toNat, BitVec.setWidth_eq]
    bv_omega
  exact congrArg (fun x : W32 => (.next { s with
    inp := none, out := s.out ++ poisonReports s.mem ((List.range (wr - s.que.admRd).toNat).map s.ringPlace)
    que := { s.que with admWr := wr, admRd := x
                        taken := s.que.taken ++ (List.range (wr - s.que.admRd).toNat).map s.ringCommand } } : Out)) h

theorem adminDoorbell_behind {wr : W32} (hb : s.boot.state ≠ 3) (hn : 2 ^ 31 ≤ (wr - s.que.admRd).toNat) :
    exec .adminDoorbell { s with inp := some (.adminDoorbell wr) } =
      .next { s with inp := none, que := { s.que with admWr := wr } } := by
  rw [exec_adminDoorbell, execAdminDoorbell]
  dsimp only
  rw [if_neg hb, if_neg (Nat.not_lt.2 hn)]
  rfl

theorem Queues.adminBusy_iff (q : Queues) : q.adminBusy = true ↔ q.taken ≠ [] ∨ q.completions ≠ [] ∨ q.admWr ≠ q.admRd := by
  simp [Queues.adminBusy, or_assoc]

/-- QS_ADMQ or QS_ADMC written with nothing under way: the indices are 0, and the fields those of the value. -/
def Queues.setRing (q : Queues) (c : Bool) (v : Nat) : Queues :=
  let q := { q with admRd := 0, admCwr := 0 }
  if c then { q with admcBase := BitVec.ofNat 48 v, admcLog := BitVec.ofNat 4 (field v 51 48), admcVec := BitVec.ofNat 11 (field v 62 52) }
  else { q with admqBase := BitVec.ofNat 48 v, admqLog := BitVec.ofNat 4 (field v 51 48) }

theorem adminRingSet_busy {c : Bool} {v : W64} (h : s.que.taken ≠ [] ∨ s.que.completions ≠ [] ∨ s.que.admWr ≠ s.que.admRd) :
    exec .adminRingSet { s with inp := some (.adminRingSet c v) } = .next { s with inp := none } := by
  rw [exec_adminRingSet, execAdminRingSet]
  dsimp only
  rw [if_pos (by rw [(Queues.adminBusy_iff _).2 h, Bool.or_true])]

theorem adminRingSet_resets {c : Bool} {v : W64} (hb : s.boot.state ≠ 3) (ht : s.que.taken = []) (hc : s.que.completions = [])
    (hw : s.que.admWr = s.que.admRd) : exec .adminRingSet { s with inp := some (.adminRingSet c v) } =
      .next (let t : State := { s with inp := none, que := s.que.setRing c v.toNat }
        if s.que.admWr.toNat < 2 ^ 31 then t.takeCommands s.que.admWr.toNat else t) := by
  have hi : ¬ (s.que.adminBusy = true) := by simp [Queues.adminBusy_iff, ht, hc, hw]
  rw [exec_adminRingSet, execAdminRingSet]
  dsimp only
  rw [if_neg (by simpa using ⟨hb, by simpa using hi⟩)]
  cases c <;> rfl

/-- From RDIDX 0 the commands stand in the ring by their own numbers. -/
theorem State.ring_from_zero {s : State} (h : s.que.admRd = 0) {n : Nat} (hn : n ≤ 2 ^ 31) :
    (List.range n).map s.ringPlace =
      ((List.range n).map fun j => s.que.admqBase.toNat + 64 * (j % Spec.ringEntries s.que.admqLog.toNat)) ∧
    (List.range n).map s.ringCommand = (List.range n).map fun j =>
      { num := j, bytes := commandAt s.mem (s.que.admqBase.toNat + 64 * (j % Spec.ringEntries s.que.admqLog.toNat)) } := by
  have hnum : ∀ j ∈ List.range n, (s.que.admRd + BitVec.ofNat 32 j).toNat = j := fun j hj => by
    rw [h, BitVec.ofNat_eq_ofNat, BitVec.zero_add, BitVec.toNat_ofNat, Nat.mod_eq_of_lt]
    have := List.mem_range.1 hj
    omega
  refine ⟨List.map_congr_left fun j hj => ?_, List.map_congr_left fun j hj => ?_⟩
  · rw [State.ringPlace, hnum j hj]
  · rw [State.ringCommand, State.ringPlace, hnum j hj]

/-- What the reset leaves alone, and the fields of the ring that it sets. -/
theorem Queues.setRing_fields (q : Queues) (c : Bool) (v : W64) :
    (q.setRing c v.toNat).admRd = 0 ∧ (q.setRing c v.toNat).admCwr = 0 ∧ (q.setRing c v.toNat).taken = q.taken ∧
    (c = false → (q.setRing c v.toNat).admqBase.toNat = v.toNat % 2 ^ 48 ∧ (q.setRing c v.toNat).admqLog.toNat = v.toNat / 2 ^ 48 % 16 ∧
      (q.setRing c v.toNat).admcBase = q.admcBase ∧ (q.setRing c v.toNat).admcLog = q.admcLog ∧
      (q.setRing c v.toNat).admcVec = q.admcVec) ∧
    (c = true → (q.setRing c v.toNat).admcBase.toNat = v.toNat % 2 ^ 48 ∧ (q.setRing c v.toNat).admcLog.toNat = v.toNat / 2 ^ 48 % 16 ∧
      (q.setRing c v.toNat).admcVec.toNat = v.toNat / 2 ^ 52 % 2 ^ 11 ∧ (q.setRing c v.toNat).admqBase = q.admqBase ∧
      (q.setRing c v.toNat).admqLog = q.admqLog) := by
  cases c
  · simp [Queues.setRing, field]
  · simp [Queues.setRing, field]

/-! ### Completions (R65) -/

/-- A completion carries its phase in byte 5. -/
theorem getD_withPhase {bs : List Byte} (h : bs.length = 16) (p : Byte) (i : Nat) :
    (bs.take 5 ++ [p] ++ bs.drop 6).getD i 0 = if i = 5 then p else bs.getD i 0 := by
  have h5 : (bs.take 5).length = 5 := by simp [h]
  simp only [List.getD_eq_getElem?_getD]
  rcases Nat.lt_trichotomy i 5 with hi | rfl | hi
  · rw [if_neg (by omega), List.append_assoc, List.getElem?_append_left (by omega), List.getElem?_take_of_lt hi]
  · simp [h5]
  · rw [if_neg (by omega), List.getElem?_append_right (by simp [h]; omega), List.getElem?_drop]
    congr 2
    simp [h]
    omega

theorem phase_byte (k : Nat) : bytesOf 1 (1 - k % 2) = [if k % 2 = 0 then 1 else 0] := by
  rcases Nat.mod_two_eq_zero_or_one k with h | h <;> rw [h] <;> rfl

theorem adminCompletion_writes {bs : List Byte} {rest : List (List Byte)} {n at_ : Nat} (hc : s.que.completions = bs :: rest)
    (hl : bs.length = 16) (hn : n = Spec.ringEntries s.que.admcLog.toNat)
    (ha : at_ = s.que.admcBase.toNat + 16 * (s.que.admCwr.toNat % n)) (hw : Tab.wf 0 s.mem.host = true) :
    ∃ u : State, exec .adminCompletion { s with inp := some .adminCompletion } = .next u ∧ u.que.completions = rest ∧
      u.que.admCwr = s.que.admCwr + 1 ∧ (∀ x, Tab.getD u.mem.host x 0 = if at_ ≤ x ∧ x < at_ + 16 then
        (if x = at_ + 5 then (if s.que.admCwr.toNat / n % 2 = 0 then 1 else 0) else bs.getD (x - at_) 0) else Tab.getD s.mem.host x 0) ∧
      ∃ bs', u.out = s.out ++ [.hostWrite at_ bs' false, .msix s.que.admcVec.toNat] := by
  subst hn ha
  rw [exec_adminCompletion, execAdminCompletion]
  dsimp only
  rw [hc]
  refine ⟨_, rfl, rfl, rfl, fun x => ?_, _, List.append_assoc ..⟩
  refine (getD_writeCells hw _ x _).trans ?_
  have hp := phase_byte (s.que.admCwr.toNat / ringSize s.que.admcLog.toNat)
  rw [hp, getD_withPhase hl]
  have h16 : (bs.take 5 ++ [if s.que.admCwr.toNat / ringSize s.que.admcLog.toNat % 2 = 0 then (1 : Byte) else 0] ++ bs.drop 6).length = 16 := by
    simp [hl]
  rw [h16]
  have hi : ringSize s.que.admcLog.toNat = Spec.ringEntries s.que.admcLog.toNat := rfl
  rw [hi]
  split
  · congr 1
    exact propext ⟨fun h => by omega, fun h => by omega⟩
  · rfl

theorem adminUnknownOpcode_ends {via : Via} {op : Byte} (h : Spec.Asked s via op.toNat) (ho : op.toNat = 0 ∨ 13 < op.toNat) :
    exec .adminUnknownOpcode { s with inp := some (.adminUnknownOpcode via op) } =
      .next (Spec.ended { s with inp := none } via op.toNat 1 0) := by
  have hop : (op == 0 || decide (13 < op.toNat)) = true := by
    rw [Bool.or_eq_true, beq_iff_eq, decide_eq_true_eq]
    exact ho.imp_left fun h => BitVec.eq_of_toNat_eq h
  rw [exec_adminUnknownOpcode, execAdminUnknownOpcode]
  dsimp only
  rw [State.served_of_asked h, hop, Bool.and_self, if_pos rfl, State.finishCmd_eq]

/-! ### RESYNC (R68) -/

theorem length_bytesOf (n : Nat) : ∀ x, (bytesOf n x).length = n := by
  induction n with
  | zero => exact fun _ => rfl
  | succ n ih => exact fun x => congrArg Nat.succ (ih _)

theorem length_padTo (n : Nat) (bs : List Byte) : (padTo n bs).length = n := by simp [padTo]

theorem length_freeSection (off n : Nat) (fields : List Nat) : (freeSection off n fields).length = n := length_padTo ..

/-- Entries of one width, one after the other. -/
theorem length_flatMap_width {α : Type} {f : α → List Byte} {w : Nat} (hf : ∀ x, (f x).length = w) (l : List α) :
    (l.flatMap f).length = w * l.length := by
  simp [List.length_flatMap, hf, Nat.mul_comm]

/-- A field of the `k`-th entry, found in the whole. -/
theorem take_drop_flatMap {f : Nat → List Byte} {w : Nat} (hf : ∀ k, (f k).length = w) {n k : Nat} (hk : k < n) (o m : Nat)
    (ho : o + m ≤ w) (rest : List Byte) :
    (((List.range n).flatMap f ++ rest).drop (w * k + o)).take m = ((f k).drop o).take m := by
  have hr : List.range n = List.range k ++ k :: (List.range (n - k - 1)).map (k + 1 + ·) := by
    conv_lhs => rw [show n = k + 1 + (n - k - 1) by omega, List.range_add, List.range_succ, List.append_assoc]
    rfl
  rw [hr, List.flatMap_append, List.append_assoc, List.flatMap_cons, ← List.drop_drop]
  have hl : ((List.range k).flatMap f).length = w * k := by rw [length_flatMap_width hf, List.length_range]
  rw [List.drop_left' hl, List.append_assoc, List.drop_append_of_le_length (by rw [hf]; omega),
    List.take_append_of_le_length (by rw [List.length_drop, hf]; omega)]

/-- What RESYNC says of slot `k` (R68). -/
def State.slotSummary (s : State) (k : Nat) : List Byte :=
  bytesOf 8 ((s.mgmtWord (0x7100 + 8 * k)).getD 0) ++ bytesOf 4 (s.slot k).rd.toNat ++ bytesOf 1 (s.slot k).code.toNat ++ bytesOf 3 0

theorem eleven_sections (a b c d e f g h i j k : List Byte) : a ++ b ++ c ++ d ++ e ++ f ++ g ++ h ++ i ++ j ++ k =
    a ++ b ++ (c ++ (d ++ e ++ f ++ (g ++ (h ++ i ++ j ++ k)))) := by
  simp only [List.append_assoc]

/-- The summary as its slots and its bank map, between sections of fixed length. -/
theorem State.summary_split (s : State) (first : Nat) : ∃ header tasks tail : List Byte,
    s.summary first = header ++ ((List.range 64).flatMap s.slotSummary ++ (tasks ++
      ((List.range 256).flatMap (fun b => bytesOf 8 (Tab.getD s.mem.bankMap b 0).toNat) ++ tail))) ∧
    header.length = 256 ∧ tasks.length = 2368 ∧ tail.length = 2496 := by
  refine ⟨_, _, _, eleven_sections .., ?_, ?_, ?_⟩ <;>
    simp only [List.length_append, List.length_replicate, length_freeSection, length_padTo]

/-- RESYNC's summary: its length, its slots and its bank map. -/
theorem State.summary_spec (s : State) (first : Nat) : (s.summary first).length = 8192 ∧
    (∀ b < 256, ((s.summary first).drop (0xE40 + 8 * b)).take 8 = bytesOf 8 (Tab.getD s.mem.bankMap b 0).toNat) ∧
    ∀ k < 64, ((s.summary first).drop (0x108 + 16 * k)).take 8 =
      bytesOf 4 (s.slot k).rd.toNat ++ bytesOf 1 (s.slot k).code.toNat ++ [0, 0, 0] := by
  have hs : ∀ k, (s.slotSummary k).length = 16 := fun k => by simp [State.slotSummary, length_bytesOf]
  have hb : ∀ b, (bytesOf 8 (Tab.getD s.mem.bankMap b 0).toNat).length = 8 := fun b => length_bytesOf ..
  obtain ⟨header, tasks, tail, h, hh, ht, hl⟩ := s.summary_split first
  rw [h]
  refine ⟨?_, fun b hlt => ?_, fun k hlt => ?_⟩
  · rw [List.length_append, List.length_append, List.length_append, List.length_append, length_flatMap_width hs,
      length_flatMap_width hb, hh, ht, hl, List.length_range, List.length_range]
  · rw [← List.append_assoc, ← List.append_assoc, show 0xE40 + 8 * b = 0xE40 + (8 * b + 0) by rfl, ← List.drop_drop,
      List.drop_left' (by simp [hh, ht, length_flatMap_width hs]), take_drop_flatMap hb hlt 0 8 (by omega), List.drop_zero,
      List.take_of_length_le (by rw [hb])]
  · rw [show 0x108 + 16 * k = 256 + (16 * k + 8) by omega, ← List.drop_drop, List.drop_left' hh,
      take_drop_flatMap hs hlt 8 8 (by omega)]
    rfl

/-- The summary `bs` is sent, and GEN counts it. -/
def State.summarySent (s : State) (via : Via) (dest : Nat) (bs : List Byte) : State :=
  match via with
  | .ring _ => { s with inp := none, que := { s.que with gen := s.que.gen + 1 },
                        mem := { s.mem with host := writeCells s.mem.host dest bs, hostPois := markPois s.mem.hostPois dest 8192 false },
                        out := s.out ++ [.hostWrite dest bs false] }
  | .eth _ => { s with inp := none, que := { s.que with gen := s.que.gen + 1 }, out := s.out ++ [.adminReply bs] }

theorem resync_answers {via : Via} {dest first : Nat} (h : Spec.Asked s via 4) : ∃ bs : List Byte, bs.length = 8192 ∧
    (∀ b < 256, (bs.drop (0xE40 + 8 * b)).take 8 = bytesOf 8 (Tab.getD s.mem.bankMap b 0).toNat) ∧
    (∀ k < 64, (bs.drop (0x108 + 16 * k)).take 8 =
      bytesOf 4 (Tab.getD s.que.slots k .reset).rd.toNat ++ bytesOf 1 (Tab.getD s.que.slots k .reset).code.toNat ++ [0, 0, 0]) ∧
    exec .resync { s with inp := some (.resync via dest first) } =
      .next (Spec.ended (s.summarySent via dest bs) via 4 0 ((s.que.gen + 1).toNat + 2 ^ 32 * (s.tsk.tasks.length % 65536))) := by
  obtain ⟨hlen, hbank, hslot⟩ := State.summary_spec { s with inp := none, que := { s.que with gen := s.que.gen + 1 } } first
  refine ⟨_, hlen, hbank, hslot, ?_⟩
  rw [exec_resync, execResync]
  dsimp only
  rw [if_pos (State.served_of_asked h)]
  unfold State.resync
  rw [State.finishCmd_eq]
  cases via with
  | ring k =>
    rw [State.summarySent, ← hlen]
    rfl
  | eth tag => rfl

/-! ### TRAY_DRAIN (R39, R64) -/

theorem State.startDrain_started {s : State} (h : s.lnk.drain ≠ 0) : s.startDrain = s := if_neg h

/-- TRAY_DRAIN that is served starts the drain, and completes where it is at SAFE. -/
theorem trayDrain_served {via : Via} (h : Spec.Asked s via 5) : exec .trayDrain { s with inp := some (.trayDrain via) } =
    .next (let t := ({ s with inp := none } : State).startDrain
      if t.lnk.drain = 4 then Spec.ended t via 5 0 0 else t) := by
  rw [exec_trayDrain, execTrayDrain]
  dsimp only
  rw [if_neg (by rw [State.served_of_asked h]; decide), State.finishCmd_eq]
  exact (apply_ite _ _ _ _).symm

theorem trayDrain_done {via : Via} (h : Spec.Asked s via 5) (hd : s.lnk.drain = 4) :
    exec .trayDrain { s with inp := some (.trayDrain via) } = .next (Spec.ended { s with inp := none } via 5 0 0) := by
  rw [trayDrain_served h, State.startDrain_started (s := { s with inp := none }) (by rw [hd]; decide)]
  exact congrArg _ (if_pos hd)

theorem trayDrain_starts {via : Via} (h : Spec.Asked s via 5) (hd : s.lnk.drain = 0) :
    exec .trayDrain { s with inp := some (.trayDrain via) } =
      .next { s with inp := none, lnk := { s.lnk with drain := 1, drainAt := s.units }, sch := { s.sch with placeEn := false } } := by
  have hs : ({ s with inp := none } : State).startDrain =
      { s with inp := none, lnk := { s.lnk with drain := 1, drainAt := s.units }, sch := { s.sch with placeEn := false } } := if_pos hd
  rw [trayDrain_served h, hs]
  exact congrArg _ (if_neg (by dsimp only; decide))

theorem trayDrain_waits {via : Via} (h : Spec.Asked s via 5) (h0 : s.lnk.drain ≠ 0) (h4 : s.lnk.drain ≠ 4) :
    exec .trayDrain { s with inp := some (.trayDrain via) } = .next { s with inp := none } := by
  rw [trayDrain_served h, State.startDrain_started (s := { s with inp := none }) h0]
  exact congrArg _ (if_neg h4)

end

/-- Settles O48: each command of the ring, and each of the two that need no more than the ring, by the lemma of its case. -/
theorem adminQueue : Obligations.AdminQueue := by
  unfold Obligations.AdminQueue
  refine ⟨fun s wr n hb hn => ?_, fun s c v hb => ⟨adminRingSet_busy, fun ht hc hw => ?_⟩,
    fun s bs rest n at_ => adminCompletion_writes, fun s via op => adminUnknownOpcode_ends, fun s via dest first h => ?_,
    fun s via h => ⟨trayDrain_done h, trayDrain_starts h, trayDrain_waits h⟩⟩
  · subst hn
    exact ⟨adminDoorbell_takes hb, adminDoorbell_behind hb⟩
  · obtain ⟨hrd, hcwr, htk, hq, hcq⟩ := s.que.setRing_fields c v
    refine ⟨_, adminRingSet_resets hb ht hc hw, ?_⟩
    by_cases hlt : s.que.admWr.toNat < 2 ^ 31
    · obtain ⟨hplace, hcommand⟩ :=
        State.ring_from_zero (s := { s with inp := none, que := s.que.setRing c v.toNat }) hrd (Nat.le_of_lt hlt)
      rw [if_pos hlt, State.takeCommands_eq, hplace, hcommand]
      refine ⟨hcwr, rfl, fun _ => ⟨?_, ?_, rfl⟩, fun h => absurd hlt (Nat.not_lt.2 h), hq, hcq⟩
      · simp [hrd]
      · simp [htk, ht]
    · rw [if_neg hlt]
      exact ⟨hcwr, rfl, fun h => absurd h hlt, fun _ => ⟨hrd, htk.trans ht⟩, hq, hcq⟩
  · obtain ⟨bs, hlen, hbank, hslot, hexec⟩ := resync_answers (dest := dest) (first := first) h
    refine ⟨bs, hlen, hbank, hslot, ?_⟩
    rintro v rfl
    cases via <;> exact hexec

end Sys2Proof.Machine
end

