-- ==== Sys2Proof/Proofs/Descriptors.lean ====
section
/-! PROOFS. Queue descriptors and slots: what a read of a descriptor's field shows, what a write of one leaves, and what mapping moves
(R52 to R54). -/
namespace Sys2Proof.Machine
open Sys2Proof.Spec (byteAt markAt Coherent SameBytes Stored descWord)

/-! ### Numbers as bytes -/

theorem ofBytes_bytesOf (n : Nat) : ∀ v, ofBytes (bytesOf n v) = v % 256 ^ n := by
  induction n with
  | zero => exact fun v => (Nat.mod_one v).symm
  | succ n ih =>
    intro v
    rw [bytesOf, ofBytes, ih, Nat.pow_succ', Nat.mod_mul, BitVec.toNat_ofNat]

theorem ofBytes_bytesOf_lt {n v : Nat} (h : v < 256 ^ n) : ofBytes (bytesOf n v) = v := by
  rw [ofBytes_bytesOf, Nat.mod_eq_of_lt h]

theorem ofBytes_lt (bs : List Byte) : ofBytes bs < 256 ^ bs.length := by
  induction bs with
  | nil => exact Nat.one_pos
  | cons b r ih =>
    have := b.isLt
    rw [ofBytes, List.length_cons, Nat.pow_succ']
    omega

theorem bytesOf_ne_nil {n : Nat} (hn : 0 < n) (v : Nat) : bytesOf n v ≠ [] := by
  intro h
  have := length_bytesOf n v
  simp [h] at this
  omega

theorem map_getD_range (bs : List Byte) : (List.range bs.length).map (fun j => bs.getD j 0) = bs := by
  apply List.ext_getElem (by simp)
  intro i h _
  simp at h
  simp [h]

/-! ### What a field of a descriptor shows -/

section
variable {s t : State} {q off n v : Nat}

theorem descWord_lt (s : State) (q off n : Nat) : descWord s q off n < 256 ^ n := by
  have := ofBytes_lt ((List.range n).map fun j => byteAt s.mem (s.descAddr q + off + j))
  rwa [List.length_map, List.length_range] at this

/-- A field shows the same wherever memory shows the same bytes in its place. -/
theorem descWord_congr (hq : t.que.qtab = s.que.qtab)
    (h : ∀ j < n, byteAt t.mem (s.descAddr q + off + j) = byteAt s.mem (s.descAddr q + off + j)) :
    descWord t q off n = descWord s q off n := by
  have ha : t.descAddr q = s.descAddr q := by rw [State.descAddr, State.descAddr, hq]
  rw [descWord, descWord, ha]
  exact congrArg _ (List.map_congr_left fun j hj => h j (List.mem_range.1 hj))

theorem descWord_of_mem (hq : t.que.qtab = s.que.qtab) (h : t.mem = s.mem) : descWord t q off n = descWord s q off n :=
  descWord_congr hq fun _ _ => by rw [h]

theorem descWord_of_sameBytes (hq : t.que.qtab = s.que.qtab) (h : SameBytes s.mem t.mem) : descWord t q off n = descWord s q off n :=
  descWord_congr hq fun _ _ => h.1 _

/-- The field that was stored shows its value. -/
theorem descWord_stored (hq : t.que.qtab = s.que.qtab) (h : Stored s.mem t.mem (s.descAddr q + off) (bytesOf n v)) (hv : v < 256 ^ n) :
    descWord t q off n = v := by
  have ha : t.descAddr q = s.descAddr q := by rw [State.descAddr, State.descAddr, hq]
  have hl := length_bytesOf n v
  have hb : ((List.range n).map fun j => byteAt t.mem (s.descAddr q + off + j)) = bytesOf n v := by
    conv_rhs => rw [← map_getD_range (bytesOf n v), hl]
    refine List.map_congr_left fun j hj => ?_
    have := List.mem_range.1 hj
    rw [h, if_pos (by omega), Nat.add_sub_cancel_left]
  rw [descWord, ha, hb, ofBytes_bytesOf_lt hv]

/-! ### Reads and writes of a descriptor -/

@[simp] theorem State.desc_que (s : State) (q off n : Nat) : (s.desc q off n).2.que = s.que := rfl
@[simp] theorem State.desc_tsk (s : State) (q off n : Nat) : (s.desc q off n).2.tsk = s.tsk := rfl
@[simp] theorem State.setDesc_que (s : State) (q off n v : Nat) : (s.setDesc q off n v).que = s.que := rfl
@[simp] theorem State.setDesc_tsk (s : State) (q off n v : Nat) : (s.setDesc q off n v).tsk = s.tsk := rfl
@[simp] theorem State.setDesc_busy (s : State) (q off n v : Nat) : (s.setDesc q off n v).busy = s.busy := rfl

theorem State.descAddr_setDesc (s : State) (q off n v p : Nat) : (s.setDesc q off n v).descAddr p = s.descAddr p := by
  rw [State.descAddr, State.setDesc_que, State.descAddr]
theorem State.descAddr_desc (s : State) (q off n p : Nat) : (s.desc q off n).2.descAddr p = s.descAddr p := by
  rw [State.descAddr, State.desc_que, State.descAddr]

/-- A read of a field shows it, and leaves what memory shows. -/
theorem State.desc_spec (hm : Coherent s.mem) (q off n : Nat) : (s.desc q off n).1 = descWord s q off n ∧
    Coherent (s.desc q off n).2.mem ∧ SameBytes s.mem (s.desc q off n).2.mem := by
  obtain ⟨hbytes, hsame, hcoh, -, -⟩ := State.readAt_global_spec hm (s.descAddr q + off) n
  exact ⟨congrArg ofBytes hbytes, hcoh, hsame⟩

theorem State.desc_value (hm : Coherent s.mem) : (s.desc q off n).1 = descWord s q off n := (State.desc_spec hm q off n).1
theorem State.desc_coherent (hm : Coherent s.mem) : Coherent (s.desc q off n).2.mem := (State.desc_spec hm q off n).2.1
theorem State.desc_sameBytes (hm : Coherent s.mem) : SameBytes s.mem (s.desc q off n).2.mem := (State.desc_spec hm q off n).2.2
theorem descWord_desc (hm : Coherent s.mem) {q' off' n' : Nat} : descWord (s.desc q' off' n').2 q off n = descWord s q off n :=
  descWord_of_sameBytes (s.desc_que q' off' n' ▸ rfl) (State.desc_sameBytes hm)

/-- A write of a field stores its bytes. -/
theorem State.setDesc_spec (hm : Coherent s.mem) (q off v : Nat) (hn : 0 < n) : Coherent (s.setDesc q off n v).mem ∧
    Stored s.mem (s.setDesc q off n v).mem (s.descAddr q + off) (bytesOf n v) := by
  obtain ⟨hbytes, -, hcoh, -, -⟩ := State.writeAt_global_spec hm (s.descAddr q + off) false (bytesOf_ne_nil hn v)
  exact ⟨hcoh, hbytes⟩

theorem State.setDesc_coherent (hm : Coherent s.mem) (hn : 0 < n) : Coherent (s.setDesc q off n v).mem :=
  (State.setDesc_spec hm q off v hn).1

theorem byteAt_setDesc (hm : Coherent s.mem) (hn : 0 < n) {a : Nat} (ha : a < s.descAddr q + off ∨ s.descAddr q + off + n ≤ a) :
    byteAt (s.setDesc q off n v).mem a = byteAt s.mem a := by
  rw [(State.setDesc_spec hm q off v hn).2, length_bytesOf, if_neg (by omega)]

theorem descWord_setDesc_same (hm : Coherent s.mem) (hn : 0 < n) (hv : v < 256 ^ n) : descWord (s.setDesc q off n v) q off n = v :=
  descWord_stored (s.setDesc_que q off n v ▸ rfl) (State.setDesc_spec hm q off v hn).2 hv

theorem descWord_setDesc_other (hm : Coherent s.mem) (hn : 0 < n) {off' n' : Nat} (h : off' + n' ≤ off ∨ off + n ≤ off') :
    descWord (s.setDesc q off n v) q off' n' = descWord s q off' n' :=
  descWord_congr (s.setDesc_que q off n v ▸ rfl) fun j hj => byteAt_setDesc hm hn (by omega)

end

/-! ### Slots (R54) -/

section
variable {s : State}

theorem State.slot_of_slots {t : State} (h : t.que.slots = s.que.slots) (k : Nat) : t.slot k = s.slot k := by
  rw [State.slot, h, State.slot]
theorem State.queueSlot_of_slots {t : State} (h : t.que.slots = s.que.slots) (q : Nat) : t.queueSlot q = s.queueSlot q := by
  rw [State.queueSlot, h, State.queueSlot]

theorem State.slot_setSlot (s : State) (k j : Nat) (x : Slot) : (s.setSlot k x).slot j = if j = k then x else s.slot j := by
  rw [State.slot, State.setSlot, State.setQue_que, Tab.getD, Tab.find_set]
  split <;> rfl

theorem State.slot_setSlot_same (s : State) (k : Nat) (x : Slot) : (s.setSlot k x).slot k = x := by rw [State.slot_setSlot, if_pos rfl]
theorem State.slot_setSlot_other (s : State) {k j : Nat} (x : Slot) (h : j ≠ k) : (s.setSlot k x).slot j = s.slot j := by
  rw [State.slot_setSlot, if_neg h]

/-- The slot that a queue is mapped to is valid and names the queue. -/
theorem State.slot_of_queueSlot {q k : Nat} (hr : s.que.slots.Rising) (h : s.queueSlot q = some k) :
    (s.slot k).valid = true ∧ (s.slot k).qid.toNat = q := by
  rw [State.queueSlot, Option.map_eq_some_iff] at h
  obtain ⟨⟨j, x⟩, hf, rfl⟩ := h
  have hx : s.slot j = x := by rw [State.slot, Tab.getD, (Tab.find_eq_some_iff hr).2 (List.mem_of_find?_eq_some hf)]; rfl
  have hp := List.find?_some hf
  rw [Bool.and_eq_true, beq_iff_eq] at hp
  rw [hx]
  exact hp

/-- The descriptor of the queue in slot `k` takes the slot's indices back, and no longer names a slot. -/
def State.indicesBack (s : State) (k : Nat) : State :=
  ((s.setDesc (s.slot k).qid.toNat 20 4 (s.slot k).notify.toNat).setDesc (s.slot k).qid.toNat 16 4 (s.slot k).rd.toNat).setDesc
    (s.slot k).qid.toNat 25 1 0xFF

@[simp] theorem State.indicesBack_que (s : State) (k : Nat) : (s.indicesBack k).que = s.que := by simp [State.indicesBack]
@[simp] theorem State.indicesBack_tsk (s : State) (k : Nat) : (s.indicesBack k).tsk = s.tsk := by simp [State.indicesBack]
@[simp] theorem State.indicesBack_busy (s : State) (k : Nat) : (s.indicesBack k).busy = s.busy := by simp [State.indicesBack]

theorem W32.lt_bytes (w : W32) : w.toNat < 256 ^ 4 := w.isLt

theorem descWord_indicesBack (hm : Coherent s.mem) {k q : Nat} (hq : (s.slot k).qid.toNat = q) :
    descWord (s.indicesBack k) q 20 4 = (s.slot k).notify.toNat ∧ descWord (s.indicesBack k) q 16 4 = (s.slot k).rd.toNat ∧
    descWord (s.indicesBack k) q 25 1 = 0xFF ∧ ∀ off n, off + n ≤ 16 → descWord (s.indicesBack k) q off n = descWord s q off n := by
  have hm1 : Coherent (s.setDesc q 20 4 (s.slot k).notify.toNat).mem := State.setDesc_coherent hm (by decide)
  have hm2 : Coherent ((s.setDesc q 20 4 (s.slot k).notify.toNat).setDesc q 16 4 (s.slot k).rd.toNat).mem :=
    State.setDesc_coherent hm1 (by decide)
  rw [State.indicesBack, hq]
  refine ⟨?_, ?_, descWord_setDesc_same hm2 (by decide) (by decide), fun off n h => ?_⟩
  · rw [descWord_setDesc_other hm2 (by decide) (by decide), descWord_setDesc_other hm1 (by decide) (by decide),
      descWord_setDesc_same hm (by decide) (W32.lt_bytes _)]
  · rw [descWord_setDesc_other hm2 (by decide) (by decide), descWord_setDesc_same hm1 (by decide) (W32.lt_bytes _)]
  · rw [descWord_setDesc_other hm2 (by decide) (by omega), descWord_setDesc_other hm1 (by decide) (by omega),
      descWord_setDesc_other hm (by decide) (by omega)]

/-- PEND is set where the slot had a notify in this cycle. -/
def State.pendNotify (s : State) (k : Nat) : State :=
  if s.isBusy (busyNotify k) then s.setQue { s.que with pend := s.que.pend ||| BitVec.ofNat 1024 (2 ^ (s.slot k).qid.toNat) } else s

theorem State.pendNotify_mem (s : State) (k : Nat) : (s.pendNotify k).mem = s.mem := by
  unfold State.pendNotify
  split <;> rfl
theorem State.pendNotify_tsk (s : State) (k : Nat) : (s.pendNotify k).tsk = s.tsk := by
  unfold State.pendNotify
  split <;> rfl
theorem State.pendNotify_que (s : State) (k : Nat) : (s.pendNotify k).que = { s.que with
    pend := if s.isBusy (busyNotify k) then s.que.pend ||| BitVec.ofNat 1024 (2 ^ (s.slot k).qid.toNat) else s.que.pend } := by
  unfold State.pendNotify
  split <;> rfl

theorem State.freeSlot_eq {k : Nat} (hv : (s.slot k).valid = true) :
    s.freeSlot k = (((s.indicesBack k).pendNotify k).dropFetches (.slot k)).setSlot k .reset := by
  have hs : (s.indicesBack k).slot k = s.slot k := by rw [State.slot, s.indicesBack_que, State.slot]
  unfold State.freeSlot State.pendNotify
  dsimp only
  rw [hv, if_neg (by decide), hs]
  rfl

/-- A slot becomes free: it is empty and the others stay; its queue's descriptor has its indices back; PEND is set for a notify of this cycle. -/
theorem State.freeSlot_que {k : Nat} (hv : (s.slot k).valid = true) : (s.freeSlot k).que = { s.que with
    slots := Tab.set s.que.slots k .reset
    pend := if s.isBusy (busyNotify k) then s.que.pend ||| BitVec.ofNat 1024 (2 ^ (s.slot k).qid.toNat) else s.que.pend } := by
  have hs : (s.indicesBack k).slot k = s.slot k := by rw [State.slot, s.indicesBack_que, State.slot]
  have hb : (s.indicesBack k).isBusy (busyNotify k) = s.isBusy (busyNotify k) := by
    rw [State.isBusy, s.indicesBack_busy, State.isBusy]
  have hq : (((s.indicesBack k).pendNotify k).dropFetches (.slot k)).que = ((s.indicesBack k).pendNotify k).que := rfl
  rw [State.freeSlot_eq hv, State.setSlot, State.setQue_que, hq, State.pendNotify_que, s.indicesBack_que, hs, hb]

theorem State.freeSlot_tsk (s : State) (k : Nat) : (s.freeSlot k).tsk = s.tsk := by
  cases hv : (s.slot k).valid
  · unfold State.freeSlot
    dsimp only
    rw [hv, if_pos (by decide)]
  · rw [State.freeSlot_eq hv, State.setSlot, State.setQue_tsk]
    exact (State.pendNotify_tsk ..).trans (s.indicesBack_tsk k)

theorem State.freeSlot_mem {k : Nat} (hv : (s.slot k).valid = true) : (s.freeSlot k).mem = (s.indicesBack k).mem := by
  rw [State.freeSlot_eq hv, State.setSlot, State.setQue_mem]
  exact State.pendNotify_mem ..

theorem State.freeSlot_slot {k : Nat} (hv : (s.slot k).valid = true) (j : Nat) :
    (s.freeSlot k).slot j = if j = k then .reset else s.slot j := by
  rw [State.slot, State.freeSlot_que hv, Tab.getD, Tab.find_set]
  split <;> rfl

theorem descWord_freeSlot {k : Nat} (hv : (s.slot k).valid = true) (q off n : Nat) :
    descWord (s.freeSlot k) q off n = descWord (s.indicesBack k) q off n := by
  refine descWord_of_mem ?_ (State.freeSlot_mem hv)
  rw [State.freeSlot_que hv, s.indicesBack_que]

end

end Sys2Proof.Machine
end

