-- ==== Sys2Proof/Proofs/QueueCommands.lean ====
section
/-! PROOFS. QUEUE_CREATE, QUEUE_DESTROY and QUEUE_RESET (R52, R55, R67). -/
namespace Sys2Proof.Machine
open Sys2Proof.Spec (byteAt Coherent SameBytes Stored descWord Asked ended)

theorem exec_queueCreate (s : State) : exec .queueCreate s = execQueueCreate s := rfl
theorem exec_queueDestroy (s : State) : exec .queueDestroy s = execQueueDestroy s := rfl
theorem exec_queueReset (s : State) : exec .queueReset s = execQueueReset s := rfl

section
variable {s : State} {via : Via} {q : Nat}

/-! ### Commands that are served -/

theorem queueCreate_served {d : QueueArgs} (h : Asked s via 1) :
    exec .queueCreate { s with inp := some (.queueCreate via d) } = .next (({ s with inp := none } : State).createQueue via d) := by
  rw [exec_queueCreate, execQueueCreate]
  dsimp only
  rw [if_pos (State.served_of_asked h)]

theorem queueDestroy_served (h : Asked s via 2) :
    exec .queueDestroy { s with inp := some (.queueDestroy via q) } = .next (({ s with inp := none } : State).destroyQueue via q) := by
  rw [exec_queueDestroy, execQueueDestroy]
  dsimp only
  rw [if_pos (State.served_of_asked h)]

theorem queueReset_served {rd : W32} (h : Asked s via 3) :
    exec .queueReset { s with inp := some (.queueReset via q rd) } = .next (({ s with inp := none } : State).resetQueue via q rd) := by
  rw [exec_queueReset, execQueueReset]
  dsimp only
  rw [if_pos (State.served_of_asked h)]

/-! ### QUEUE_CREATE (R52) -/

theorem State.asidOk_iff (s : State) (a : Nat) : s.asidOk a = true ↔ Spec.Exists s a := by
  simp [State.asidOk, Spec.Exists, and_assoc]

/-- The operands of QUEUE_CREATE that R52 accepts. -/
theorem State.queueArgsOk_iff (s : State) (d : QueueArgs) : s.queueArgsOk d = true ↔
    d.ring.toNat % 128 = 0 ∧ 4 ≤ d.log2sz ∧ d.log2sz ≤ 16 ∧ Spec.Exists s d.asid ∧ d.vec < 2048 ∧ d.reserved = false := by
  simp [State.queueArgsOk, State.asidOk_iff, and_assoc]

theorem State.createQueue_bad {d : QueueArgs} (h : s.queueArgsOk d = false) : s.createQueue via d = ended s via 1 2 0xFFFF := by
  rw [State.createQueue, h, State.finishCmd_eq]
  rfl

/-- The queues that are not created. -/
def State.freeQueues (s : State) : List Nat := (List.range 1024).filter fun q => !s.que.created.contains q

theorem State.mem_freeQueues (s : State) (q : Nat) : q ∈ s.freeQueues ↔ q < 1024 ∧ q ∉ s.que.created := by
  simp [State.freeQueues]

theorem State.createQueue_full {d : QueueArgs} (h : s.queueArgsOk d = true) (hf : s.freeQueues = []) :
    s.createQueue via d = ended s via 1 3 0xFFFF := by
  rw [State.freeQueues] at hf
  unfold State.createQueue
  dsimp only
  rw [h, hf, if_neg (by decide)]
  exact State.finishCmd_eq ..

theorem nth_mem {xs : List Nat} {k : Nat} (h : k < xs.length) : nth xs k ∈ xs := by
  rw [nth, List.getElem?_eq_getElem h]
  exact List.getElem_mem h

/-- The queue that QUEUE_CREATE takes, where one is free. -/
def State.chosenQueue (s : State) : Nat := nth s.freeQueues (Config.freeChoice s.fresh % s.freeQueues.length)

theorem State.chosenQueue_mem (h : s.freeQueues ≠ []) : s.chosenQueue ∈ s.freeQueues :=
  nth_mem (Nat.mod_lt _ (List.length_pos_iff.2 h))

/-- The state in which the chosen queue's descriptor stands. -/
def State.described (s : State) (d : QueueArgs) : State :=
  ({ s with fresh := s.fresh + 1 } : State).writeAt .global (s.descAddr s.chosenQueue) d.bytes false

theorem State.createQueue_eq {d : QueueArgs} (h : s.queueArgsOk d = true) (hf : s.freeQueues ≠ []) :
    s.createQueue via d = if s.descReady s.chosenQueue = true then
        ended ((s.described d).setQue { s.que with created := s.que.created ++ [s.chosenQueue] }) via 1 0 s.chosenQueue
      else s := by
  have hc : s.choose s.freeQueues.length = (Config.freeChoice s.fresh % s.freeQueues.length, { s with fresh := s.fresh + 1 }) := rfl
  have hd : ({ s with fresh := s.fresh + 1 } : State).descReady s.chosenQueue = s.descReady s.chosenQueue := rfl
  unfold State.createQueue
  dsimp only
  rw [h, if_neg (by decide), ← State.freeQueues]
  split
  next hnil => exact absurd hnil hf
  next =>
    rw [hc]
    dsimp only
    rw [← State.chosenQueue, hd, State.finishCmd_eq]
    cases s.descReady s.chosenQueue <;> rfl

theorem b2n_eq (b : Bool) : b2n b = b.toNat := by cases b <;> rfl

/-- A new descriptor's bytes (R52). -/
theorem QueueArgs.bytes_eq (d : QueueArgs) : d.bytes = bytesOf 8 d.ring.toNat
    ++ bytesOf 8 (d.log2sz + 2 ^ 5 * d.loc.toNat + 2 ^ 6 * d.prioMax.toNat + 2 ^ 9 * d.asid + 2 ^ 17 * d.vec + 2 ^ 28 * d.en.toNat)
    ++ List.replicate 9 0 ++ [0xFF] ++ List.replicate 38 0 := by
  rw [QueueArgs.bytes, b2n_eq, b2n_eq, List.append_assoc (_ ++ bytesOf 8 _)]
  rfl

theorem State.described_stored (hm : Coherent s.mem) (d : QueueArgs) :
    Stored s.mem (s.described d).mem (s.descAddr s.chosenQueue) d.bytes := by
  have hne : d.bytes ≠ [] := by simp [QueueArgs.bytes]
  exact (State.writeAt_global_spec (s := { s with fresh := s.fresh + 1 }) hm _ false hne).1

/-- A good command on a free queue fills the queue's descriptor, once the queue table can be written. -/
theorem queueCreate_takes {d : QueueArgs} (ha : Asked s via 1) (hok : s.queueArgsOk d = true) (hfree : ∃ q < 1024, q ∉ s.que.created)
    (hm : Coherent s.mem) : ∃ q, q < 1024 ∧ q ∉ s.que.created ∧
      (s.descReady q = false → exec .queueCreate { s with inp := some (.queueCreate via d) } = .next (Spec.quiet s)) ∧
      (s.descReady q = true → ∃ u : State, exec .queueCreate { s with inp := some (.queueCreate via d) } = .next (ended u via 1 0 q) ∧
        u.que = { s.que with created := s.que.created ++ [q] } ∧ Stored s.mem u.mem (s.descAddr q) d.bytes) := by
  obtain ⟨q, hlt, hnot⟩ := hfree
  have hne : ({ s with inp := none } : State).freeQueues ≠ [] := List.ne_nil_of_mem ((State.mem_freeQueues _ q).2 ⟨hlt, hnot⟩)
  obtain ⟨hclt, hcnot⟩ := (State.mem_freeQueues _ _).1 (State.chosenQueue_mem hne)
  have hstored := State.described_stored (s := { s with inp := none }) hm d
  rw [queueCreate_served ha, State.createQueue_eq (s := { s with inp := none }) hok hne]
  generalize ({ s with inp := none } : State).described d = t at *
  generalize ({ s with inp := none } : State).chosenQueue = p at *
  have hready : ({ s with inp := none } : State).descReady p = s.descReady p := rfl
  refine ⟨p, hclt, hcnot, fun hr => ?_, fun hr => ⟨t.setQue { s.que with created := s.que.created ++ [p] }, ?_, rfl, hstored⟩⟩
  · rw [hready, hr, if_neg (by decide), Spec.quiet]
  · rw [hready, hr, if_pos rfl]

theorem queueCreate_full {d : QueueArgs} (ha : Asked s via 1) (hok : s.queueArgsOk d = true) (hall : ∀ q < 1024, q ∈ s.que.created) :
    exec .queueCreate { s with inp := some (.queueCreate via d) } = .next (ended { s with inp := none } via 1 3 0xFFFF) := by
  have hnone : ({ s with inp := none } : State).freeQueues = [] := List.eq_nil_iff_forall_not_mem.2 fun q hq =>
    ((State.mem_freeQueues _ q).1 hq).2 (hall q ((State.mem_freeQueues _ q).1 hq).1)
  rw [queueCreate_served ha, State.createQueue_full (s := { s with inp := none }) hok hnone]

/-! ### QUEUE_DESTROY (R67) -/

theorem State.queueInUse_iff (s : State) (q : Nat) : s.queueInUse q = true ↔ Spec.Launched s q := by
  simp only [State.queueInUse, Spec.Launched, List.any_eq_true]
  refine exists_congr fun x => and_congr_right fun _ => ?_
  cases x.2.launch.src <;> simp

/-- EN of a queue's descriptor is cleared. -/
def State.clearEn (s : State) (q : Nat) : State :=
  (s.desc q 8 4).2.setDesc q 8 4 (if qdEn (s.desc q 8 4).1 then (s.desc q 8 4).1 - 2 ^ 28 else (s.desc q 8 4).1)

@[simp] theorem State.clearEn_que (s : State) (q : Nat) : (s.clearEn q).que = s.que := by simp [State.clearEn]
@[simp] theorem State.clearEn_tsk (s : State) (q : Nat) : (s.clearEn q).tsk = s.tsk := by simp [State.clearEn]

theorem withoutEn {w : Nat} (h : w < 256 ^ 4) : (if qdEn w then w - 2 ^ 28 else w) = w % 2 ^ 28 + w / 2 ^ 29 * 2 ^ 29 := by
  simp only [qdEn, bit, beq_iff_eq]
  split <;> omega

theorem State.clearEn_spec (hm : Coherent s.mem) (q : Nat) : Coherent (s.clearEn q).mem ∧
    descWord (s.clearEn q) q 8 4 = descWord s q 8 4 % 2 ^ 28 + descWord s q 8 4 / 2 ^ 29 * 2 ^ 29 := by
  have hlt := descWord_lt s q 8 4
  rw [State.clearEn, State.desc_value hm, withoutEn hlt]
  exact ⟨State.setDesc_coherent (State.desc_coherent hm) (by decide),
    descWord_setDesc_same (State.desc_coherent hm) (by decide) (by omega)⟩

theorem State.stopQueue_eq (s : State) (q : Nat) : s.stopQueue q = match s.queueSlot q with
    | some k => (s.clearEn q).freeSlot k
    | none => s.clearEn q := by
  have h : (s.clearEn q).queueSlot q = s.queueSlot q := by rw [State.queueSlot, s.clearEn_que, State.queueSlot]
  rw [← h]
  rfl

/-- A queue that stops keeps its settings but for EN, and leaves its slot. -/
theorem State.stopQueue_spec (hm : Coherent s.mem) (hr : s.que.slots.Rising) (q : Nat) :
    descWord (s.stopQueue q) q 8 4 = descWord s q 8 4 % 2 ^ 28 + descWord s q 8 4 / 2 ^ 29 * 2 ^ 29 ∧
    (∀ k, s.queueSlot q = some k → (s.stopQueue q).slot k = .reset) ∧ (s.stopQueue q).tsk = s.tsk ∧
    ∃ slots pend, (s.stopQueue q).que = { s.que with slots := slots, pend := pend } := by
  obtain ⟨hc, hw⟩ := State.clearEn_spec hm q
  rw [State.stopQueue_eq]
  cases hk : s.queueSlot q with
  | none =>
    dsimp only
    exact ⟨hw, fun k h => absurd h (Option.some_ne_none k).symm, s.clearEn_tsk q, s.que.slots, s.que.pend, s.clearEn_que q⟩
  | some k =>
    obtain ⟨hv, hq⟩ := State.slot_of_queueSlot hr hk
    have hs : (s.clearEn q).slot k = s.slot k := by rw [State.slot, s.clearEn_que, State.slot]
    rw [← hs] at hv hq
    obtain ⟨-, -, -, hother⟩ := descWord_indicesBack hc hq
    have hque : ∃ slots pend, ((s.clearEn q).freeSlot k).que = { s.que with slots := slots, pend := pend } :=
      ⟨_, _, (State.freeSlot_que hv).trans (by rw [s.clearEn_que])⟩
    dsimp only
    refine ⟨?_, fun j hj => ?_, ?_, hque⟩
    · rw [descWord_freeSlot hv, hother 8 4 (by decide), hw]
    · rw [← Option.some.inj hj, State.freeSlot_slot hv, if_pos rfl]
    · rw [State.freeSlot_tsk, s.clearEn_tsk]

/-- A queue that is gone is neither created nor dying. -/
def State.queueGone (s : State) (q : Nat) : State :=
  s.setQue { s.que with created := s.que.created.filter fun p => p != q, dying := s.que.dying.filter fun p => p != q }

theorem State.mem_queueGone (s : State) (q p : Nat) : p ∈ (s.queueGone q).que.created ↔ p ∈ s.que.created ∧ p ≠ q := by
  simp [State.queueGone]

theorem State.destroyQueue_bad (h : q ∉ s.que.created) : s.destroyQueue via q = ended s via 2 2 0 := by
  have hc : s.que.created.contains q = false := by simpa using h
  unfold State.destroyQueue
  rw [hc, State.finishCmd_eq]
  rfl

theorem State.destroyQueue_blocked (h : q ∈ s.que.created) (hr : s.descReady q = false) : s.destroyQueue via q = s := by
  have hc : s.que.created.contains q = true := by simpa using h
  unfold State.destroyQueue
  rw [hc, hr, if_neg (by decide)]
  rfl

/-- The queue stops, and is one of those that end. -/
def State.queueDies (s : State) (q : Nat) : State := (s.stopQueue q).setQue { (s.stopQueue q).que with dying := s.que.dying ++ [q] }

theorem State.destroyQueue_eq (h : q ∈ s.que.created) (hr : s.descReady q = true) : s.destroyQueue via q =
    (let t := if q ∈ s.que.dying then s else s.queueDies q
     if t.queueInUse q = true then t else ended (t.queueGone q) via 2 0 0) := by
  have hc : s.que.created.contains q = true := by simpa using h
  unfold State.destroyQueue
  rw [hc, hr, if_neg (by decide), if_neg (by decide)]
  simp only [List.contains_iff_mem, State.finishCmd_eq]
  rfl

theorem State.queueDies_spec (hm : Coherent s.mem) (hr : s.que.slots.Rising) (q : Nat) :
    descWord (s.queueDies q) q 8 4 = descWord s q 8 4 % 2 ^ 28 + descWord s q 8 4 / 2 ^ 29 * 2 ^ 29 ∧
    (∀ k, s.queueSlot q = some k → (s.queueDies q).slot k = .reset) ∧ (s.queueDies q).tsk = s.tsk ∧
    (s.queueDies q).que.dying = s.que.dying ++ [q] ∧ (s.queueDies q).que.created = s.que.created ∧
    (s.queueDies q).que.completions = s.que.completions := by
  obtain ⟨hword, hslot, htsk, slots, pend, hque⟩ := State.stopQueue_spec hm hr q
  rw [State.queueDies]
  generalize s.stopQueue q = t at *
  refine ⟨(descWord_of_mem rfl rfl).trans hword, fun k hk => (State.slot_of_slots rfl k).trans (hslot k hk), htsk, rfl, ?_, ?_⟩
  all_goals rw [State.setQue_que, hque]

theorem queueDestroy_stops (ha : Asked s via 2) (hq : q ∈ s.que.created) (hd : q ∉ s.que.dying) (hr : s.descReady q = true)
    (hm : Coherent s.mem) (hs : s.que.slots.Rising) : ∃ u : State,
      (Spec.Launched s q → exec .queueDestroy { s with inp := some (.queueDestroy via q) } = .next u ∧ u.que.dying = s.que.dying ++ [q] ∧
        u.que.created = s.que.created ∧ u.que.completions = s.que.completions) ∧
      (¬ Spec.Launched s q → exec .queueDestroy { s with inp := some (.queueDestroy via q) } = .next (ended u via 2 0 0) ∧
        ∀ p, p ∈ u.que.created ↔ p ∈ s.que.created ∧ p ≠ q) ∧
      descWord u q 8 4 = descWord s q 8 4 % 2 ^ 28 + descWord s q 8 4 / 2 ^ 29 * 2 ^ 29 ∧
      (∀ k, s.queueSlot q = some k → u.slot k = .reset) ∧ u.tsk = s.tsk := by
  obtain ⟨hword, hslot, htsk, hdying, hcreated, hcompl⟩ := State.queueDies_spec (s := { s with inp := none }) hm hs q
  rw [queueDestroy_served ha, State.destroyQueue_eq (s := { s with inp := none }) hq hr]
  dsimp only
  rw [if_neg hd]
  generalize ({ s with inp := none } : State).queueDies q = t at *
  have hin : t.queueInUse q = true ↔ Spec.Launched s q := by rw [State.queueInUse_iff, Spec.Launched, htsk, Spec.Launched]
  by_cases hl : Spec.Launched s q
  · refine ⟨t, fun _ => ⟨?_, hdying, hcreated, hcompl⟩, fun h => absurd hl h, hword, hslot, htsk⟩
    rw [if_pos (hin.2 hl)]
  · refine ⟨t.queueGone q, fun h => absurd h hl, fun _ => ⟨?_, fun p => ?_⟩, (descWord_of_mem rfl rfl).trans hword,
      fun k hk => (State.slot_of_slots rfl k).trans (hslot k hk), htsk⟩
    · rw [if_neg (mt hin.1 hl)]
    · rw [State.mem_queueGone, hcreated]

theorem queueDestroy_dying (ha : Asked s via 2) (hq : q ∈ s.que.created) (hd : q ∈ s.que.dying) (hr : s.descReady q = true) :
    (Spec.Launched s q → exec .queueDestroy { s with inp := some (.queueDestroy via q) } = .next { s with inp := none }) ∧
    (¬ Spec.Launched s q → ∃ u : State, exec .queueDestroy { s with inp := some (.queueDestroy via q) } = .next (ended u via 2 0 0) ∧
      (∀ p, p ∈ u.que.created ↔ p ∈ s.que.created ∧ p ≠ q) ∧ u.mem = s.mem) := by
  have hin : ({ s with inp := none } : State).queueInUse q = true ↔ Spec.Launched s q := State.queueInUse_iff _ q
  rw [queueDestroy_served ha, State.destroyQueue_eq (s := { s with inp := none }) hq hr]
  dsimp only
  rw [if_pos hd]
  refine ⟨fun hl => ?_, fun hl => ⟨({ s with inp := none } : State).queueGone q, ?_, State.mem_queueGone _ q, rfl⟩⟩
  · rw [if_pos (hin.2 hl)]
  · rw [if_neg (mt hin.1 hl)]

/-! ### QUEUE_RESET (R55) -/

theorem State.resetQueue_bad {rd : W32} (h : q ∉ s.que.created) : s.resetQueue via q rd = ended s via 3 2 0 := by
  have hc : s.que.created.contains q = false := by simpa using h
  unfold State.resetQueue
  rw [hc]
  exact State.finishCmd_eq ..

theorem State.resetQueue_blocked {rd : W32} (h : q ∈ s.que.created) (hr : s.descReady q = false) : s.resetQueue via q rd = s := by
  have hc : s.que.created.contains q = true := by simpa using h
  unfold State.resetQueue
  rw [hc, hr, if_neg (by decide)]
  rfl

/-- ERR is clear and RDIDX set in a queue's descriptor. -/
def State.descReset (s : State) (q : Nat) (rd : W32) : State := (s.setDesc q 24 1 0).setDesc q 16 4 rd.toNat

@[simp] theorem State.descReset_que (s : State) (q : Nat) (rd : W32) : (s.descReset q rd).que = s.que := by simp [State.descReset]

theorem State.descReset_spec (hm : Coherent s.mem) (q : Nat) (rd : W32) :
    descWord (s.descReset q rd) q 24 1 = 0 ∧ descWord (s.descReset q rd) q 16 4 = rd.toNat ∧
    ∀ a, a < s.descAddr q + 16 ∨ s.descAddr q + 20 ≤ a → a ≠ s.descAddr q + 24 →
      byteAt (s.descReset q rd).mem a = byteAt s.mem a := by
  have hm1 : Coherent (s.setDesc q 24 1 0).mem := State.setDesc_coherent hm (by decide)
  have ha : (s.setDesc q 24 1 0).descAddr q = s.descAddr q := s.descAddr_setDesc ..
  refine ⟨?_, descWord_setDesc_same hm1 (by decide) (W32.lt_bytes rd), fun a h h' => ?_⟩
  · rw [State.descReset, descWord_setDesc_other hm1 (by decide) (by decide), descWord_setDesc_same hm (by decide) (by decide)]
  · rw [State.descReset, byteAt_setDesc hm1 (by decide) (by omega), byteAt_setDesc hm (by decide) (by omega)]

/-- The slot of a queue takes the reset too. -/
def State.slotReset (s : State) (q : Nat) (rd : W32) : State :=
  match s.queueSlot q with
  | some k => s.setSlot k { s.slot k with err := false, code := 0, rd := rd, offer := none }
  | none => s

theorem State.slotReset_mem (s : State) (q : Nat) (rd : W32) : (s.slotReset q rd).mem = s.mem := by
  unfold State.slotReset
  split <;> rfl
theorem State.slotReset_qtab (s : State) (q : Nat) (rd : W32) : (s.slotReset q rd).que.qtab = s.que.qtab := by
  unfold State.slotReset
  split <;> rfl
theorem State.slotReset_slot {k : Nat} (rd : W32) (h : s.queueSlot q = some k) :
    (s.slotReset q rd).slot k = { s.slot k with err := false, code := 0, rd := rd, offer := none } := by
  rw [State.slotReset, h, State.slot_setSlot_same]
theorem State.slotReset_others {k : Nat} (rd : W32) (h : s.queueSlot q ≠ some k) : (s.slotReset q rd).slot k = s.slot k := by
  unfold State.slotReset
  split
  next j hj => exact State.slot_setSlot_other _ _ fun hk => h (hk ▸ hj)
  next => rfl

theorem queueReset_resets {rd : W32} (ha : Asked s via 3) (hq : q ∈ s.que.created) (hr : s.descReady q = true) (hm : Coherent s.mem) :
    ∃ u : State, exec .queueReset { s with inp := some (.queueReset via q rd) } = .next (ended u via 3 0 0) ∧
      descWord u q 24 1 = 0 ∧ descWord u q 16 4 = rd.toNat ∧
      (∀ a, a < s.descAddr q + 16 ∨ s.descAddr q + 20 ≤ a → a ≠ s.descAddr q + 24 → byteAt u.mem a = byteAt s.mem a) ∧
      (∀ k, s.queueSlot q = some k → u.slot k = { s.slot k with err := false, code := 0, rd := rd, offer := none }) ∧
      ∀ k, s.queueSlot q ≠ some k → u.slot k = s.slot k := by
  have hc : ({ s with inp := none } : State).que.created.contains q = true := by simpa using hq
  have hr' : ({ s with inp := none } : State).descReady q = true := hr
  obtain ⟨herr, hrd, hbytes⟩ := State.descReset_spec (s := { s with inp := none }) hm q rd
  generalize hd : ({ s with inp := none } : State).descReset q rd = d at herr hrd hbytes
  have hque : d.que = s.que := hd ▸ State.descReset_que _ q rd
  have hslot : ∀ k, d.slot k = s.slot k := State.slot_of_slots (by rw [hque])
  have hqs : d.queueSlot q = s.queueSlot q := State.queueSlot_of_slots (by rw [hque]) q
  have hword : ∀ off n, descWord (d.slotReset q rd) q off n = descWord d q off n := fun off n =>
    descWord_of_mem (d.slotReset_qtab q rd) (d.slotReset_mem q rd)
  refine ⟨d.slotReset q rd, ?_, (hword 24 1).trans herr, (hword 16 4).trans hrd, fun a h h' => ?_, fun k hk => ?_, fun k hk => ?_⟩
  · rw [queueReset_served ha, ← hd]
    unfold State.resetQueue
    rw [hc, hr', if_neg (by decide), if_neg (by decide), State.finishCmd_eq]
    rfl
  · rw [d.slotReset_mem]
    exact hbytes a h h'
  · rw [State.slotReset_slot rd (hqs.trans hk), hslot]
  · rw [State.slotReset_others rd (by rwa [hqs]), hslot]

end

end Sys2Proof.Machine
end

