-- ==== Sys2Proof/Proofs/PlaneCommands.lean ====
section
/-! PROOFS. PLANE_INSTALL and PLANE_REMOVE (R66), and the commands on queues and planes together. -/
namespace Sys2Proof.Machine
open Sys2Proof.Spec (byteAt markAt Coherent SameBytes Stored Asked ended)

theorem exec_planeInstall (s : State) : exec .planeInstall s = execPlaneInstall s := rfl
theorem exec_planeRemove (s : State) : exec .planeRemove s = execPlaneRemove s := rfl

section
variable {s : State} {via : Via} {n space a len : Nat} {room : Bool}

theorem planeInstall_served (h : Asked s via 6) : exec .planeInstall { s with inp := some (.planeInstall via n space a len room) } =
    .next (({ s with inp := none } : State).installPlane via n space a len room) := by
  rw [exec_planeInstall, execPlaneInstall]
  dsimp only
  rw [if_pos (State.served_of_asked h)]

theorem planeRemove_served (h : Asked s via 7) : exec .planeRemove { s with inp := some (.planeRemove via n) } =
    .next (({ s with inp := none } : State).removePlaneCmd via n) := by
  rw [exec_planeRemove, execPlaneRemove]
  dsimp only
  rw [if_pos (State.served_of_asked h)]

theorem State.planeResident_iff (s : State) (n : Nat) : s.planeResident n = true ↔ Spec.Resides s n := by
  simp [State.planeResident, Spec.Resides]

theorem State.not_resident (h : ¬ Spec.Resides s n) : s.planeResident n = false :=
  Bool.eq_false_iff.2 (mt (s.planeResident_iff n).1 h)

/-! ### PLANE_INSTALL -/

theorem State.installPlane_number (h : 65536 ≤ n) : s.installPlane via n space a len room = ended s via 6 2 0 := by
  rw [State.installPlane, if_pos h, State.finishCmd_eq]

theorem State.installPlane_resident (hn : n < 65536) (h : Spec.Resides s n) :
    s.installPlane via n space a len room = ended s via 6 4 0 := by
  rw [State.installPlane, if_neg (Nat.not_le.2 hn), (s.planeResident_iff n).2 h, if_pos rfl, State.finishCmd_eq]

/-- Where memory is in the way, the command waits. -/
theorem State.installPlane_blocked (hn : n < 65536) (h : ¬ Spec.Resides s n) (hs : space = 1) (ha : a + len ≤ holeBase)
    (hr : s.rangeFree a len = false) : s.installPlane via n space a len room = s := by
  rw [State.installPlane, if_neg (Nat.not_le.2 hn), State.not_resident h, if_neg (by decide), if_pos ⟨hs, ha, by rw [hr]; rfl⟩]

/-- What PLANE_INSTALL does with an image that it has read, if it has. -/
def State.installImage (s : State) (via : Via) (n : Nat) (room : Bool) (img : Option (List Byte)) : State :=
  match img with
  | none => ended s via 6 2 0
  | some bs =>
    if !planeOk bs then ended s via 6 2 0
    else if !room || decide (2 ^ 32 < s.orangery n + 1024 * ((planeOf bs).w * (planeOf bs).h)) then ended s via 6 3 0
    else ended (s.setQue { s.que with planes := Tab.set s.que.planes n (planeOf bs) }) via 6 0 0

theorem State.installPlane_reads (hn : n < 65536) (h : ¬ Spec.Resides s n)
    (hw : space = 1 → a + len ≤ holeBase → s.rangeFree a len = true) :
    s.installPlane via n space a len room = (s.planeImage space a len).2.installImage via n room (s.planeImage space a len).1 := by
  have hb : ¬ (space = 1 ∧ a + len ≤ holeBase ∧ (!s.rangeFree a len) = true) := fun ⟨h1, h2, h3⟩ => by
    rw [hw h1 h2] at h3
    exact absurd h3 (by decide)
  rw [State.installPlane, if_neg (Nat.not_le.2 hn), State.not_resident h, if_neg (by decide), if_neg hb]
  unfold State.installImage
  obtain ⟨img, t⟩ := s.planeImage space a len
  cases img with
  | none => exact State.finishCmd_eq ..
  | some bs => simp only [State.finishCmd_eq]

theorem State.planeImage_host (s : State) (a len : Nat) : s.planeImage 0 a len =
    (if anyPois s.mem.hostPois a len then none else some (readCells s.mem.host a len),
      if anyPois s.mem.hostPois a len then s.emitOut .poisonedTlp else s) := rfl

theorem State.planeImage_nowhere (h : 1 < space ∨ space = 1 ∧ holeBase < a + len) : s.planeImage space a len = (none, s) := by
  rw [State.planeImage, if_neg (by omega), if_neg (by omega)]

/-- An image in device memory, where no part of it is poisoned. -/
theorem State.planeImage_device (hm : Coherent s.mem) (hp : ∀ k, markAt s.mem k = false) (ha : a + len ≤ holeBase) :
    (s.planeImage 1 a len).1 = some ((List.range len).map fun j => byteAt s.mem (a + j)) ∧
    SameBytes s.mem (s.planeImage 1 a len).2.mem ∧ (s.planeImage 1 a len).2.que = s.que := by
  obtain ⟨hbytes, hpois, hsame, -⟩ := Memory.read_spec hm a len
  have hclean : (s.mem.read a len).2.1 = false := by
    rw [Bool.eq_false_iff, Ne, hpois]
    rintro ⟨-, k, -, -, hk⟩
    rw [hp k] at hk
    exact absurd hk (by decide)
  have hi : s.planeImage 1 a len =
      (if (s.mem.read a len).2.1 then none else some (s.mem.read a len).1, s.setMem (s.mem.read a len).2.2) := by
    rw [State.planeImage, if_neg (by decide), if_pos ⟨rfl, ha⟩]
    rfl
  rw [hi, hclean, hbytes]
  exact ⟨rfl, hsame, rfl⟩

theorem planeOf_append (bs : List Byte) : (planeOf bs).common ++ (planeOf bs).images = bs := by
  simp only [planeOf, List.take_append_drop]

theorem State.installImage_bad {bs : List Byte} (h : planeOk bs = false) : s.installImage via n room (some bs) = ended s via 6 2 0 := by
  rw [State.installImage, h]
  rfl

theorem State.roomFor_iff (s : State) (n : Nat) (bs : List Byte) (room : Bool) :
    (!room || decide (2 ^ 32 < s.orangery n + 1024 * ((planeOf bs).w * (planeOf bs).h))) = true ↔ room = false ∨ ¬ Spec.Fits s n bs := by
  rw [Bool.or_eq_true, decide_eq_true_eq, Spec.Fits, State.orangery, Nat.not_le, Bool.not_eq_true']

theorem State.installImage_full {bs : List Byte} (h : planeOk bs = true) (hr : room = false ∨ ¬ Spec.Fits s n bs) :
    s.installImage via n room (some bs) = ended s via 6 3 0 := by
  rw [State.installImage, h, (s.roomFor_iff n bs room).2 hr]
  rfl

theorem State.installImage_good {bs : List Byte} (h : planeOk bs = true) (hr : room = true) (hf : Spec.Fits s n bs) :
    s.installImage via n room (some bs) =
      ended (s.setQue { s.que with planes := Tab.set s.que.planes n (planeOf bs) }) via 6 0 0 := by
  have hroom : ¬ (!room || decide (2 ^ 32 < s.orangery n + 1024 * ((planeOf bs).w * (planeOf bs).h))) = true := by
    rw [State.roomFor_iff, hr]
    exact fun h => h.elim (by decide) (absurd hf)
  rw [State.installImage, h, if_neg hroom]
  rfl

theorem Tab.find_set_planeOf {planes : Tab Plane} {bs : List Byte} {p : Plane} (h : Tab.find (Tab.set planes n (planeOf bs)) n = some p) :
    p.common ++ p.images = bs := by
  rw [Tab.find_set_same, Option.some.injEq] at h
  rw [← h, planeOf_append]

/-- PLANE_INSTALL from host memory, whose read comes back poisoned. -/
theorem planeInstall_hostPoisoned (ha : Asked s via 6) (hn : n < 65536) (h : ¬ Spec.Resides s n)
    (hp : anyPois s.mem.hostPois a len = true) :
    exec .planeInstall { s with inp := some (.planeInstall via n 0 a len room) } =
      .next (ended { s with inp := none, out := s.out ++ [.poisonedTlp] } via 6 2 0) := by
  have hp' : anyPois ({ s with inp := none } : State).mem.hostPois a len = true := hp
  rw [planeInstall_served ha, State.installPlane_reads (s := { s with inp := none }) hn h (fun h => absurd h (by decide)),
    State.planeImage_host, hp', if_pos rfl, if_pos rfl]
  rfl

/-- PLANE_INSTALL from host memory goes by the image that it reads. -/
theorem planeInstall_host (ha : Asked s via 6) (hn : n < 65536) (h : ¬ Spec.Resides s n) (hp : anyPois s.mem.hostPois a len = false) :
    exec .planeInstall { s with inp := some (.planeInstall via n 0 a len room) } =
      .next (({ s with inp := none } : State).installImage via n room (some (readCells s.mem.host a len))) := by
  have hp' : anyPois ({ s with inp := none } : State).mem.hostPois a len = false := hp
  rw [planeInstall_served ha, State.installPlane_reads (s := { s with inp := none }) hn h (fun h => absurd h (by decide)),
    State.planeImage_host, hp', if_neg (by decide), if_neg (by decide)]

theorem planeInstall_hostGood {bs : List Byte} (ha : Asked s via 6) (hn : n < 65536) (h : ¬ Spec.Resides s n)
    (hp : anyPois s.mem.hostPois a len = false) (hbs : bs = readCells s.mem.host a len) (hok : planeOk bs = true) (hr : room = true)
    (hf : Spec.Fits s n bs) : ∃ u : State,
      exec .planeInstall { s with inp := some (.planeInstall via n 0 a len room) } = .next (ended u via 6 0 0) ∧
      u.mem = s.mem ∧ (∀ p, Tab.find u.que.planes n = some p → p.common ++ p.images = bs) ∧ (Tab.find u.que.planes n).isSome = true ∧
      ∀ k, k ≠ n → Tab.find u.que.planes k = Tab.find s.que.planes k := by
  subst hbs
  rw [planeInstall_host ha hn h hp, State.installImage_good (s := { s with inp := none }) hok hr hf]
  refine ⟨_, rfl, rfl, fun p => Tab.find_set_planeOf, ?_, fun k hk => Tab.find_set_other _ _ _ _ hk⟩
  exact (congrArg Option.isSome (Tab.find_set_same ..)).trans Option.isSome_some

/-- PLANE_INSTALL from where there is no memory. -/
theorem planeInstall_nowhere (ha : Asked s via 6) (hn : n < 65536) (h : ¬ Spec.Resides s n)
    (hs : 1 < space ∨ space = 1 ∧ holeBase < a + len) : exec .planeInstall { s with inp := some (.planeInstall via n space a len room) } =
      .next (ended { s with inp := none } via 6 2 0) := by
  rw [planeInstall_served ha, State.installPlane_reads (s := { s with inp := none }) hn h (fun h1 h2 => absurd h2 (by omega)),
    State.planeImage_nowhere hs]
  rfl

theorem planeInstall_deviceGood {bs : List Byte} (ha : Asked s via 6) (hn : n < 65536) (h : ¬ Spec.Resides s n)
    (hlen : a + len ≤ holeBase) (hfree : s.rangeFree a len = true) (hm : Coherent s.mem) (hp : ∀ k, markAt s.mem k = false)
    (hbs : bs = (List.range len).map fun j => byteAt s.mem (a + j)) (hok : planeOk bs = true) (hr : room = true)
    (hf : Spec.Fits s n bs) : ∃ u : State,
      exec .planeInstall { s with inp := some (.planeInstall via n 1 a len room) } = .next (ended u via 6 0 0) ∧
      SameBytes s.mem u.mem ∧ ∀ p, Tab.find u.que.planes n = some p → p.common ++ p.images = bs := by
  subst hbs
  obtain ⟨himg, hsame, hque⟩ := State.planeImage_device (s := { s with inp := none }) hm hp hlen
  rw [planeInstall_served ha, State.installPlane_reads (s := { s with inp := none }) hn h (fun _ _ => hfree), himg]
  generalize (({ s with inp := none } : State).planeImage 1 a len).2 = t at *
  have hf' : Spec.Fits t n ((List.range len).map fun j => byteAt s.mem (a + j)) := by rwa [Spec.Fits, hque]
  exact ⟨_, congrArg _ (State.installImage_good hok hr hf'), hsame, fun p => Tab.find_set_planeOf⟩

/-! ### PLANE_REMOVE -/

theorem State.removePlaneCmd_resident (h : Spec.Resides s n) : s.removePlaneCmd via n = ended s via 7 4 0 := by
  rw [State.removePlaneCmd, (s.planeResident_iff n).2 h, if_pos rfl, State.finishCmd_eq]

theorem State.removePlaneCmd_none (h : ¬ Spec.Resides s n) (hp : Tab.find s.que.planes n = none) :
    s.removePlaneCmd via n = ended s via 7 2 0 := by
  rw [State.removePlaneCmd, State.not_resident h, if_neg (by decide), State.plane?, hp, if_pos Option.isNone_none, State.finishCmd_eq]

theorem State.removePlaneCmd_some (h : ¬ Spec.Resides s n) (hp : (Tab.find s.que.planes n).isSome = true) :
    s.removePlaneCmd via n = ended (s.setQue { s.que with planes := Tab.erase s.que.planes n }) via 7 0 0 := by
  have hn : ¬ ((Tab.find s.que.planes n).isNone = true) := by rw [← Option.not_isSome, hp]; decide
  rw [State.removePlaneCmd, State.not_resident h, if_neg (by decide), State.plane?, if_neg hn, State.finishCmd_eq]

theorem planeRemove_removes (ha : Asked s via 7) (h : ¬ Spec.Resides s n) (hp : (Tab.find s.que.planes n).isSome = true)
    (hw : s.que.planes.Rising) : ∃ u : State,
      exec .planeRemove { s with inp := some (.planeRemove via n) } = .next (ended u via 7 0 0) ∧ u.mem = s.mem ∧
      Tab.find u.que.planes n = none ∧ ∀ k, k ≠ n → Tab.find u.que.planes k = Tab.find s.que.planes k := by
  rw [planeRemove_served ha, State.removePlaneCmd_some (s := { s with inp := none }) h hp]
  exact ⟨_, rfl, rfl, (Tab.find_erase hw n n).trans (if_pos rfl), fun k hk => (Tab.find_erase hw n k).trans (if_neg hk)⟩

end

/-- Settles O49: each command by the lemmas of its own section, read through `Spec.Asked` and `Spec.ended`. -/
theorem queueAndPlaneCommands : Obligations.QueueAndPlaneCommands := by
  unfold Obligations.QueueAndPlaneCommands
  refine ⟨fun s via d good ha hgood => ?_, fun s via q ha => ⟨fun hq => ?_, fun hq hr => ?_, queueDestroy_stops ha, queueDestroy_dying ha⟩,
    fun s via q rd ha => ⟨fun hq => ?_, fun hq hr => ?_, queueReset_resets ha⟩,
    fun s via n space a len room ha => ⟨fun hn => ?_, fun hn h => ?_, fun hn h hs hp => ?_, fun hn h hs hp bs hbs => ?_,
      planeInstall_nowhere ha, fun hn h hs hlen hfree => ?_, fun hn h hs hlen hfree hm hp hok hr hf => ?_⟩,
    fun s via n ha => ⟨fun h => ?_, fun h hp => ?_, planeRemove_removes ha⟩⟩
  · subst hgood
    simp only [← State.queueArgsOk_iff, ← QueueArgs.bytes_eq]
    refine ⟨fun hbad => ?_, queueCreate_full ha, queueCreate_takes ha⟩
    rw [queueCreate_served ha, State.createQueue_bad (s := { s with inp := none }) (Bool.eq_false_iff.2 hbad)]
  · rw [queueDestroy_served ha, State.destroyQueue_bad (s := { s with inp := none }) hq]
  · rw [queueDestroy_served ha, State.destroyQueue_blocked (s := { s with inp := none }) hq hr, Spec.quiet]
  · rw [queueReset_served ha, State.resetQueue_bad (s := { s with inp := none }) hq]
  · rw [queueReset_served ha, State.resetQueue_blocked (s := { s with inp := none }) hq hr, Spec.quiet]
  · rw [planeInstall_served ha, State.installPlane_number hn]
  · rw [planeInstall_served ha, State.installPlane_resident (s := { s with inp := none }) hn h]
  · rw [hs, planeInstall_hostPoisoned ha hn h hp]
  · subst hs hbs
    refine ⟨fun hbad => ?_, fun hok hfull => ?_, planeInstall_hostGood ha hn h hp rfl⟩
    · rw [planeInstall_host ha hn h hp]
      exact congrArg _ (State.installImage_bad hbad)
    · rw [planeInstall_host ha hn h hp]
      exact congrArg _ (State.installImage_full (s := { s with inp := none }) hok hfull)
  · rw [planeInstall_served ha, State.installPlane_blocked (s := { s with inp := none }) hn h hs hlen hfree, Spec.quiet]
  · subst hs
    exact planeInstall_deviceGood ha hn h hlen hfree hm hp rfl hok hr hf
  · rw [planeRemove_served ha, State.removePlaneCmd_resident (s := { s with inp := none }) h]
  · rw [planeRemove_served ha, State.removePlaneCmd_none (s := { s with inp := none }) h hp]

end Sys2Proof.Machine
end

