-- ==== Sys2Proof/Proofs/AddressSpaces.lean ====
section
/-! PROOFS. Invalidations and their end, ASID_CREATE and ASID_DESTROY (R67, R170). -/
namespace Sys2Proof.Machine
open Sys2Proof.Spec (byteAt Coherent SameBytes Stored Asked ended NoTlb InvEnds EndsAtDone DoneWhen)

theorem exec_asidCreate (s : State) : exec .asidCreate s = execAsidCreate s := rfl
theorem exec_asidDestroy (s : State) : exec .asidDestroy s = execAsidDestroy s := rfl

section
variable {s t : State} {via : Via} {op : Nat}

/-! ### Writes of local memory beside what they store -/

theorem State.writeAt_global_trRoot (s : State) (a : Nat) (bs : List Byte) (pois : Bool) :
    (s.writeAt .global a bs pois).mem.trRoot = s.mem.trRoot := by
  rw [show (s.writeAt .global a bs pois).mem.trRoot = (s.mem.write a bs pois).trRoot from rfl, s.mem.write_cache a bs pois]
theorem State.writeAt_global_que (s : State) (a : Nat) (bs : List Byte) (pois : Bool) :
    (s.writeAt .global a bs pois).que = s.que := rfl

theorem Memory.sameLines_trRoot (m : Memory) (r : Tab (Bool × W32)) : m.SameLines { m with trRoot := r } := ⟨rfl, rfl, rfl, rfl, rfl, rfl⟩

/-! ### Invalidations (R170) -/

theorem State.invalidate_sameLines (s : State) (p : Tlb → Bool) (asids : Nat → Bool) :
    s.mem.SameLines (s.invalidate p asids).mem := ⟨rfl, rfl, rfl, rfl, rfl, rfl⟩

theorem State.invalidate_byteAt (s : State) (p : Tlb → Bool) (asids : Nat → Bool) (a : Nat) :
    byteAt (s.invalidate p asids).mem a = byteAt s.mem a := (s.invalidate_sameLines p asids).sameBytes.1 a

/-- A translation that is cached after an invalidation is not one that it named. -/
theorem State.not_named_of_invalidate {p : Tlb → Bool} {asids : Nat → Bool} {x : Nat × List Tlb} {e : Tlb}
    (hx : x ∈ (s.invalidate p asids).mem.tlb) (he : e ∈ x.2) : p e = false := by
  obtain ⟨⟨k, c⟩, -, rfl⟩ := List.mem_map.1 hx
  simpa using (List.mem_filter.1 he).2

theorem State.invRange_noTlb (s : State) (asid va n : Nat) : NoTlb (s.invRange asid va n).mem asid va n := by
  rintro x hx e he ⟨ha, h1, h2⟩
  have := State.not_named_of_invalidate hx he
  simp [meets, ha, h1, h2] at this

/-- DONE of an invalidation is what `Spec.InvEnds` says. -/
theorem State.invDone_iff (s : State) (n : Nat) : s.invDone n = true ↔ InvEnds s n := by
  have h : ∀ x : Access, (x.todo = 0 ∨ n ≤ x.id) ↔ (x.id < n → x.todo = 0) := fun x => by omega
  simp [State.invDone, InvEnds, h, and_assoc]

theorem State.wordHigh_trInv (s : State) : s.wordHigh 0x9800 = some (2 ^ 10 * b2n s.trDone) := rfl

/-- Where the mark of the latest invalidation is `n`, TR_INV reads DONE by what was there before `n`. -/
theorem State.doneWhen_of_mark {n : Nat} (h : s.mem.trMark = n) : DoneWhen s n := by
  rw [DoneWhen, State.wordHigh_trInv, State.trDone, h]
  refine congrArg some ?_
  by_cases hd : InvEnds s n
  · rw [(s.invDone_iff n).2 hd]
    exact (if_pos hd).symm
  · rw [Bool.eq_false_iff.2 (mt (s.invDone_iff n).1 hd)]
    exact (if_neg hd).symm

/-! ### The end of a MAP or UNMAP (R67) -/

/-- The command that waits is of the kind asked for, and ends with its own invalidation. -/
theorem State.inval_of_some {v : Inval} (h : s.inval? via op = some v) : v.via = via ∧ v.op = op := by
  have := List.find?_some h
  simpa using this

theorem State.endInval_waits {v : Inval} (h : ¬ InvEnds s v.mark) : s.endInval v = s := by
  rw [State.endInval, Bool.eq_false_iff.2 (mt (s.invDone_iff _).1 h)]
  rfl

/-- The state in which a command that has invalidated ends. -/
def State.invalOver (s : State) (v : Inval) : State :=
  s.setQue { s.que with invals := s.que.invals.filter fun w => w.via != v.via || w.op != v.op
                        alloc := s.que.alloc.filter fun x => !v.pages.contains (x.1, x.2.2) }

theorem State.endInval_ends {v : Inval} (h : InvEnds s v.mark) : s.endInval v = ended (s.invalOver v) v.via v.op 0 0 := by
  rw [State.endInval, (s.invDone_iff _).2 h, if_neg (by decide), State.finishCmd_eq]
  rfl

/-- With no command of a kind waiting, the one that starts is the one that is taken away. -/
theorem State.filter_invals (h : s.inval? via op = none) (v : Inval) (hv : v.via = via) (ho : v.op = op) :
    (s.que.invals ++ [v]).filter (fun w => w.via != via || w.op != op) = s.que.invals := by
  have hkeep : s.que.invals.filter (fun w => w.via != via || w.op != op) = s.que.invals := List.filter_eq_self.2 fun w hw => by
    have := List.find?_eq_none.1 h w hw
    simp only [Bool.and_eq_true, beq_iff_eq, not_and] at this
    simp only [Bool.or_eq_true, bne_iff_ne]
    exact Decidable.not_or_of_imp this
  rw [List.filter_append, hkeep]
  simp [hv, ho]

/-- A command that invalidates ends at once where nothing is under way, and else waits. -/
theorem State.startInval_spec (hi : s.inval? via op = none) (hm : s.mem.trMark = s.fresh) (pages : List (Nat × Nat)) :
    ∃ u : State, EndsAtDone u (s.startInval via op pages) via op s.que.invals ∧ u.mem = s.mem ∧ DoneWhen u u.fresh ∧
      (InvEnds u u.fresh → u.que.alloc = s.que.alloc.filter fun x => !pages.contains (x.1, x.2.2)) ∧
      (¬ InvEnds u u.fresh → u.que.alloc = s.que.alloc ∧ ∀ v ∈ u.que.invals, v ∉ s.que.invals → v.pages = pages) := by
  generalize hv : ({ via := via, op := op, mark := s.mem.trMark, pages := pages } : Inval) = v
  have hvia : v.via = via := hv ▸ rfl
  have hop : v.op = op := hv ▸ rfl
  have hmark : v.mark = s.fresh := hv ▸ hm
  have hpages : v.pages = pages := hv ▸ rfl
  have hs : s.startInval via op pages = (s.setQue { s.que with invals := s.que.invals ++ [v] }).endInval v := hv ▸ rfl
  rw [hs]
  by_cases hd : InvEnds s s.fresh
  · refine ⟨(s.setQue { s.que with invals := s.que.invals ++ [v] }).invalOver v, ⟨fun _ => ⟨?_, ?_⟩, fun h => absurd hd h⟩, rfl,
      State.doneWhen_of_mark hm, fun _ => hpages ▸ rfl, fun h => absurd hd h⟩
    · rw [State.endInval_ends (by rw [hmark]; exact hd), hvia, hop]
    · subst hvia hop
      exact State.filter_invals hi v rfl rfl
  · refine ⟨s.setQue { s.que with invals := s.que.invals ++ [v] }, ⟨fun h => absurd h hd, fun _ => ⟨?_, v, rfl, hvia, hop, hmark⟩⟩, rfl,
      State.doneWhen_of_mark hm, fun h => absurd h hd, fun _ => ⟨rfl, fun w hw hn => ?_⟩⟩
    · exact State.endInval_waits (by rw [hmark]; exact hd)
    · rcases List.mem_append.1 hw with hw | hw
      · exact absurd hw hn
      · rw [List.mem_singleton.1 hw, hpages]

/-! ### ASID_CREATE -/

theorem asidCreate_served {root : Nat} (h : Asked s via 8) : exec .asidCreate { s with inp := some (.asidCreate via root) } =
    .next (({ s with inp := none } : State).createAsid via root) := by
  rw [exec_asidCreate, execAsidCreate]
  dsimp only
  rw [if_pos (State.served_of_asked h)]

/-- The ASIDs that ASID_CREATE may give. -/
def State.freeAsids (s : State) : List Nat := (List.range 256).filter fun a => a != 0 && !s.asidOk a

theorem State.mem_freeAsids (s : State) (a : Nat) : a ∈ s.freeAsids ↔ 1 ≤ a ∧ a ≤ 255 ∧ ¬ Spec.Exists s a := by
  simp only [State.freeAsids, List.mem_filter, List.mem_range, Bool.and_eq_true, bne_iff_ne, Bool.not_eq_true', ← Bool.not_eq_true,
    State.asidOk_iff]
  constructor
  · rintro ⟨h1, h2, h3⟩
    exact ⟨by omega, by omega, h3⟩
  · rintro ⟨h1, h2, h3⟩
    exact ⟨by omega, by omega, h3⟩

theorem State.createAsid_full {root : Nat} (h : s.freeAsids = []) : s.createAsid via root = ended s via 8 3 0xFFFF := by
  rw [State.freeAsids] at h
  unfold State.createAsid
  rw [h]
  exact State.finishCmd_eq ..

/-- The ASID that ASID_CREATE gives. -/
def State.chosenAsid (s : State) : Nat := nth s.freeAsids (Config.freeChoice s.fresh % s.freeAsids.length)

theorem State.chosenAsid_mem (h : s.freeAsids ≠ []) : s.chosenAsid ∈ s.freeAsids :=
  nth_mem (Nat.mod_lt _ (List.length_pos_iff.2 h))

/-- The table of the chosen ASID stands, empty. -/
def State.emptyTable (s : State) (root : Nat) : State :=
  (({ s with fresh := s.fresh + 1 } : State).setQue { s.que with tables := Tab.set s.que.tables root (65536, s.chosenAsid) }).writeAt
    .global root (List.replicate 65536 0) false

/-- The chosen ASID exists from now on. -/
def State.asidStands (s : State) (root : Nat) : State :=
  (s.emptyTable root).setMem { (s.emptyTable root).mem with
    trRoot := Tab.set (s.emptyTable root).mem.trRoot s.chosenAsid (true, BitVec.ofNat 32 (root / 65536)) }

theorem State.createAsid_eq {root : Nat} (h : s.freeAsids ≠ []) (hroot : root % 65536 = 0) (hfree : s.freeRange root 65536 = true) :
    s.createAsid via root = if s.rangeFree root 65536 = true then ended (s.asidStands root) via 8 0 s.chosenAsid else s := by
  have hc : s.choose s.freeAsids.length = (Config.freeChoice s.fresh % s.freeAsids.length, { s with fresh := s.fresh + 1 }) := rfl
  unfold State.createAsid
  rw [← State.freeAsids, hfree]
  split
  next hnil => exact absurd hnil h
  next =>
    rw [hc]
    cases hr : s.rangeFree root 65536
    · exact (if_pos (.inr (.inr rfl))).trans (if_neg (by decide)).symm
    · rw [if_neg (by simp [hroot]), if_pos rfl]
      exact State.finishCmd_eq ..

theorem State.emptyTable_stored (hm : Coherent s.mem) (root : Nat) :
    Stored s.mem (s.emptyTable root).mem root (List.replicate 65536 0) := by
  have hne : List.replicate 65536 (0 : Byte) ≠ [] := List.ne_nil_of_length_pos (by rw [List.length_replicate]; decide)
  exact (State.writeAt_global_spec (s := ({ s with fresh := s.fresh + 1 } : State).setQue _) hm root false hne).1

theorem State.asidStands_stored (hm : Coherent s.mem) (root : Nat) :
    Stored s.mem (s.asidStands root).mem root (List.replicate 65536 0) := fun x => by
  rw [State.asidStands, State.setMem_mem, (Memory.sameLines_trRoot ..).sameBytes.1, State.emptyTable_stored hm root x]

theorem State.asidStands_trRoot (s : State) (root b : Nat) : Tab.getD (s.asidStands root).mem.trRoot b (false, 0) =
    if b = s.chosenAsid then (true, BitVec.ofNat 32 (root / 65536)) else Tab.getD s.mem.trRoot b (false, 0) := by
  have hroot : (s.emptyTable root).mem.trRoot = s.mem.trRoot := State.writeAt_global_trRoot ..
  rw [State.asidStands, State.setMem_mem, hroot, Tab.getD, Tab.find_set]
  split <;> rfl

theorem asidCreate_creates {root : Nat} (ha : Asked s via 8) (hex : ∃ a, 1 ≤ a ∧ a ≤ 255 ∧ ¬ Spec.Exists s a) (hroot : root % 65536 = 0)
    (hfree : s.freeRange root 65536 = true) (hr : s.rangeFree root 65536 = true) (hm : Coherent s.mem) :
    ∃ (u : State) (a : Nat), 1 ≤ a ∧ a ≤ 255 ∧ ¬ Spec.Exists s a ∧
      exec .asidCreate { s with inp := some (.asidCreate via root) } = .next (ended u via 8 0 a) ∧
      Stored s.mem u.mem root (List.replicate 65536 0) ∧
      Tab.getD u.mem.trRoot a (false, 0) = (true, BitVec.ofNat 32 (root / 65536)) ∧
      ∀ b, b ≠ a → Tab.getD u.mem.trRoot b (false, 0) = Tab.getD s.mem.trRoot b (false, 0) := by
  obtain ⟨a, hfa⟩ := hex
  have hne : ({ s with inp := none } : State).freeAsids ≠ [] := List.ne_nil_of_mem ((State.mem_freeAsids _ a).2 hfa)
  have hroots := State.asidStands_trRoot { s with inp := none } root
  have hstored := State.asidStands_stored (s := { s with inp := none }) hm root
  obtain ⟨h1, h2, h3⟩ := (State.mem_freeAsids _ _).1 (State.chosenAsid_mem hne)
  rw [asidCreate_served ha, State.createAsid_eq (s := { s with inp := none }) hne hroot hfree,
    if_pos (show ({ s with inp := none } : State).rangeFree root 65536 = true from hr)]
  generalize ({ s with inp := none } : State).chosenAsid = c at *
  generalize ({ s with inp := none } : State).asidStands root = u at *
  exact ⟨u, c, h1, h2, h3, rfl, hstored, (hroots c).trans (if_pos rfl), fun b hb => (hroots b).trans (if_neg hb)⟩

/-! ### ASID_DESTROY -/

theorem asidDestroy_served {a : Nat} (h : Asked s via 9) : exec .asidDestroy { s with inp := some (.asidDestroy via a) } =
    .next (({ s with inp := none } : State).destroyAsid via a) := by
  rw [exec_asidDestroy, execAsidDestroy]
  dsimp only
  rw [if_pos (State.served_of_asked h)]

theorem State.destroyAsid_bad {a : Nat} (h : ¬ Spec.Exists s a) : s.destroyAsid via a = ended s via 9 2 0 := by
  rw [State.destroyAsid, Bool.eq_false_iff.2 (mt (s.asidOk_iff a).1 h)]
  exact State.finishCmd_eq ..

/-- A task of the ASID is resident, or a command of an outer stack runs for it. -/
def State.asidInUse (s : State) (a : Nat) : Bool :=
  (s.tsk.tasks.any fun x => x.2.asid == a) || s.eng.nmQueue.any fun q => q.2.any fun c => c.asid == a

theorem State.asidInUse_iff (s : State) (a : Nat) :
    s.asidInUse a = true ↔ (∃ x ∈ s.tsk.tasks, x.2.asid = a) ∨ ∃ q ∈ s.eng.nmQueue, ∃ c ∈ q.2, c.asid = a := by
  simp only [State.asidInUse, Bool.or_eq_true, List.any_eq_true, beq_iff_eq]

/-- The pages and tables of the ASID are free, and nothing of it is cached or valid. -/
def State.asidGone (s : State) (a : Nat) : State :=
  let t := (s.setQue { s.que with alloc := s.que.alloc.filter fun x => x.2.2 != a
                                  tables := s.que.tables.filter fun x => x.2.2 != a }).invalidate (fun t => t.asid == a) fun b => b == a
  t.setMem { t.mem with trRoot := Tab.set t.mem.trRoot a (false, (Tab.getD t.mem.trRoot a (false, 0)).2) }

theorem State.destroyAsid_eq {a : Nat} (h : Spec.Exists s a) :
    s.destroyAsid via a = if s.asidInUse a = true then s else ended (s.asidGone a) via 9 0 0 := by
  rw [State.destroyAsid, (s.asidOk_iff a).2 h, if_neg (by decide)]
  simp only [State.finishCmd_eq]
  rfl

theorem State.asidGone_spec (s : State) (a : Nat) :
    Tab.getD (s.asidGone a).mem.trRoot a (false, 0) = (false, (Tab.getD s.mem.trRoot a (false, 0)).2) ∧
    (∀ x ∈ (s.asidGone a).mem.tlb, ∀ t ∈ x.2, t.asid ≠ a) ∧ (∀ x ∈ (s.asidGone a).que.alloc, x.2.2 ≠ a) ∧
    (∀ x ∈ (s.asidGone a).que.tables, x.2.2 ≠ a) ∧
    (∀ b, b ≠ a → Tab.getD (s.asidGone a).mem.trRoot b (false, 0) = Tab.getD s.mem.trRoot b (false, 0)) ∧
    ∀ x, byteAt (s.asidGone a).mem x = byteAt s.mem x := by
  have hsame : s.mem.SameLines (s.asidGone a).mem := ⟨rfl, rfl, rfl, rfl, rfl, rfl⟩
  refine ⟨Tab.getD_set_same .., fun x hx t ht => ?_, fun x hx => ?_, fun x hx => ?_, fun b hb => Tab.getD_set_other _ _ _ _ _ hb, hsame.sameBytes.1⟩
  · have h := State.not_named_of_invalidate (s := s.setQue _) (p := fun t => t.asid == a) (asids := fun b => b == a) hx ht
    simpa using h
  · simpa using (List.mem_filter.1 hx).2
  · simpa using (List.mem_filter.1 hx).2

theorem asidDestroy_destroys {a : Nat} (ha : Asked s via 9) (he : Spec.Exists s a) (ht : ∀ x ∈ s.tsk.tasks, x.2.asid ≠ a)
    (hn : ∀ q ∈ s.eng.nmQueue, ∀ c ∈ q.2, c.asid ≠ a) : ∃ u : State,
      exec .asidDestroy { s with inp := some (.asidDestroy via a) } = .next (ended u via 9 0 0) ∧
      Tab.getD u.mem.trRoot a (false, 0) = (false, (Tab.getD s.mem.trRoot a (false, 0)).2) ∧
      (∀ x ∈ u.mem.tlb, ∀ t ∈ x.2, t.asid ≠ a) ∧ (∀ x ∈ u.que.alloc, x.2.2 ≠ a) ∧ (∀ x ∈ u.que.tables, x.2.2 ≠ a) ∧
      (∀ b, b ≠ a → Tab.getD u.mem.trRoot b (false, 0) = Tab.getD s.mem.trRoot b (false, 0)) ∧
      ∀ x, byteAt u.mem x = byteAt s.mem x := by
  have hidle : ¬ ({ s with inp := none } : State).asidInUse a = true := by
    rw [State.asidInUse_iff]
    rintro (⟨x, hx, h⟩ | ⟨q, hq, c, hc, h⟩)
    exacts [ht x hx h, hn q hq c hc h]
  have hgone := State.asidGone_spec { s with inp := none } a
  rw [asidDestroy_served ha, State.destroyAsid_eq (s := { s with inp := none }) he, if_neg hidle]
  exact ⟨_, rfl, hgone⟩

end

end Sys2Proof.Machine
end

