-- ==== Sys2Proof/Proofs/MapCommands.lean ====
section
/-! PROOFS. MAP and UNMAP of a page (R67, R168, R170). -/
namespace Sys2Proof.Machine
open Sys2Proof.Spec (byteAt Coherent SameBytes Stored Asked ended NoTlb InvEnds EndsAtDone DoneWhen MapReady)

theorem exec_map (s : State) : exec .map s = execMap s := rfl
theorem exec_unmap (s : State) : exec .unmap s = execUnmap s := rfl

section
variable {s t u : State} {via : Via} {m : MapArgs}

/-! ### Reads of table entries -/

/-- `t` is `s` after reads of local memory. -/
def State.ReadsTo (s t : State) : Prop :=
  ∃ n, s.mem.CacheOnly n ∧ (Coherent s.mem → SameBytes s.mem n ∧ Coherent n) ∧ t = s.setMem n

theorem State.ReadsTo.refl (s : State) : s.ReadsTo s := ⟨s.mem, rfl, fun h => ⟨sameBytes_refl _, h⟩, rfl⟩
theorem State.ReadsTo.trans (h : s.ReadsTo t) (h' : t.ReadsTo u) : s.ReadsTo u := by
  obtain ⟨m, hc, hb, rfl⟩ := h
  obtain ⟨n, hc', hb', rfl⟩ := h'
  exact ⟨n, hc.trans hc', fun hm => ⟨sameBytes_trans (hb hm).1 (hb' (hb hm).2).1, (hb' (hb hm).2).2⟩, rfl⟩

theorem State.ReadsTo.que (h : s.ReadsTo t) : t.que = s.que := by
  obtain ⟨n, -, -, rfl⟩ := h
  rfl
theorem State.ReadsTo.trRoot (h : s.ReadsTo t) : t.mem.trRoot = s.mem.trRoot := by
  obtain ⟨n, hc, -, rfl⟩ := h
  rw [State.setMem_mem, hc]
theorem State.ReadsTo.coherent (h : s.ReadsTo t) (hm : Coherent s.mem) : Coherent t.mem := by
  obtain ⟨n, -, hb, rfl⟩ := h
  exact (hb hm).2
theorem State.ReadsTo.byteAt (h : s.ReadsTo t) (hm : Coherent s.mem) (a : Nat) : byteAt t.mem a = byteAt s.mem a := by
  obtain ⟨n, -, hb, rfl⟩ := h
  exact (hb hm).1.1 a

theorem State.entry_reads (s : State) (a : Nat) : s.ReadsTo (s.entry a).2 :=
  ⟨(s.mem.read a 8).2.2, s.mem.read_cache a 8, fun hm => (Memory.read_spec hm a 8).2.2, rfl⟩

/-- Without tables to enter, the way to a leaf only reads. -/
theorem State.reachLeaf_reads (n : Nat) : ∀ {s t : State} {asid va table lvl leaf at_ : Nat} {ts : List Nat},
    s.reachLeaf asid va table lvl leaf [] n = some (at_, ts, t) → s.ReadsTo t := by
  induction n with
  | zero => exact fun h => nomatch h
  | succ n ih =>
    intro s t asid va table lvl leaf at_ ts h
    have hr := s.entry_reads (table + 8 * walkIndex va lvl)
    unfold State.reachLeaf at h
    dsimp only at h
    generalize s.entry (table + 8 * walkIndex va lvl) = e at h hr
    obtain ⟨x, s'⟩ := e
    dsimp only at h hr
    split at h
    · split at h
      · split at h
        · cases h
          exact hr
        · cases h
      · cases h
      · split at h
        · cases h
        · cases h
          exact hr
    · split at h
      · cases h
      · exact hr.trans (ih h)
      · split at h <;> cases h

/-! ### The operands of MAP -/

theorem map_served (h : Asked s via 10) : exec .map { s with inp := some (.map via m) } =
    .next (({ s with inp := none } : State).mapCmd via m) := by
  rw [exec_map, execMap]
  dsimp only
  rw [if_pos (State.served_of_asked h)]

theorem leafLevel_of {size leaf : Nat} (h : leaf = 1 ∧ size = 2 ^ 30 ∨ leaf = 2 ∧ size = 2 ^ 21 ∨ leaf = 3 ∧ size = 2 ^ 16) :
    leafLevel size = some leaf ∧ 0 < size := by
  obtain ⟨rfl, rfl⟩ | ⟨rfl, rfl⟩ | ⟨rfl, rfl⟩ := h <;> decide

/-- What R67 and R168 ask of the operands, for a page size that there is. -/
theorem State.mapOk_iff {leaf : Nat} (hl : leafLevel m.psize = some leaf) : s.mapOk m = true ↔
    Spec.Exists s m.asid ∧ m.va % m.psize = 0 ∧ m.va + m.count * m.psize ≤ 2 ^ 52 ∧ m.fmta ≠ 15 ∧
    (m.geom = 0 ∨ 7 ≤ m.fmta.toNat ∧ m.fmta.toNat ≤ 10) ∧
    (m.alloc = true ∨ m.pa % m.psize = 0 ∧ ∀ i < m.count, s.nameable (m.pa + i * m.psize) m.psize = true) ∧
    ∀ i < m.count, s.mappedAt (m.va + i * m.psize) (s.tableRoot m.asid) 0 leaf 4 = false := by
  rw [State.mapOk, hl]
  simp only [Bool.and_eq_true, Bool.or_eq_true, beq_iff_eq, bne_iff_ne, decide_eq_true_eq, List.all_eq_true, List.mem_range,
    Bool.not_eq_true', State.asidOk_iff, and_assoc]

theorem State.mapOk_noLeaf (h : leafLevel m.psize = none) : s.mapOk m = false := by rw [State.mapOk, h]

theorem leafLevel_none {size : Nat} (h : size ≠ 2 ^ 16 ∧ size ≠ 2 ^ 21 ∧ size ≠ 2 ^ 30) : leafLevel size = none := by
  rw [leafLevel, if_neg h.2.2, if_neg h.2.1, if_neg h.1]

theorem State.not_nameable (s : State) {pa size : Nat} (h1 : pa < domainBase) (h2 : holeBase < pa + size) : s.nameable pa size = false := by
  have hcap := s.mem.capacity_le
  have hbase : outerBase < holeBase := by decide
  rw [State.nameable, Bool.eq_false_iff]
  simp only [Bool.or_eq_true, Bool.and_eq_true, decide_eq_true_eq, ne_eq, not_or, not_and]
  omega

/-- Operands that R67 refuses. -/
theorem State.mapOk_bad (h : m.psize ≠ 2 ^ 16 ∧ m.psize ≠ 2 ^ 21 ∧ m.psize ≠ 2 ^ 30 ∨ m.va % m.psize ≠ 0 ∨ m.fmta = 15 ∨
      m.geom ≠ 0 ∧ (m.fmta.toNat < 7 ∨ 10 < m.fmta.toNat) ∨ ¬ Spec.Exists s m.asid ∨
      m.alloc = false ∧ 0 < m.count ∧ (m.pa % m.psize ≠ 0 ∨ m.pa < domainBase ∧ holeBase < m.pa + m.psize) ∨
      ∃ i < m.count, ∃ leaf, leafLevel m.psize = some leaf ∧ s.mappedAt (m.va + i * m.psize) (s.tableRoot m.asid) 0 leaf 4 = true) :
    s.mapOk m = false := by
  cases hl : leafLevel m.psize with
  | none => exact State.mapOk_noLeaf hl
  | some leaf =>
    rw [Bool.eq_false_iff, Ne, State.mapOk_iff hl]
    rintro ⟨hex, hva, -, hfmta, hgeom, hpa, hmapped⟩
    rcases h with h | h | h | ⟨h, h'⟩ | h | ⟨halloc, hcount, h⟩ | ⟨i, hi, leaf', hl', h⟩
    · rw [leafLevel_none h] at hl
      cases hl
    · exact h hva
    · exact hfmta h
    · exact hgeom.elim h fun ⟨h7, h10⟩ => by omega
    · exact h hex
    · rw [halloc] at hpa
      obtain ⟨hal, hname⟩ := hpa.resolve_left (by decide)
      have h0 := hname 0 hcount
      rw [Nat.zero_mul, Nat.add_zero] at h0
      rcases h with h | ⟨h1, h2⟩
      · exact h hal
      · exact absurd h0 (by rw [s.not_nameable h1 h2]; decide)
    · rw [hl'] at hl
      cases hl
      rw [hmapped i hi] at h
      exact Bool.noConfusion h

/-- A remap or an open row is in the way of a MAP (R161, R163). -/
theorem State.mapBlocked_iff (s : State) (m : MapArgs) :
    (!s.tablesFree m.asid m.va m.psize m.count || !(m.tables.all fun t => s.rangeFree t 65536)
      || m.alloc && !(m.pages.take m.count).all fun p => s.rangeFree p m.psize) = true ↔ ¬ MapReady s m := by
  rw [Spec.MapReady, ← List.all_eq_true (p := fun t => s.rangeFree t 65536), ← List.all_eq_true (p := fun p => s.rangeFree p m.psize)]
  cases s.tablesFree m.asid m.va m.psize m.count <;> cases m.tables.all fun t => s.rangeFree t 65536 <;> cases m.alloc <;>
    cases (m.pages.take m.count).all fun p => s.rangeFree p m.psize <;> decide

theorem State.mapCmd_again {v : Inval} (h : s.inval? via 10 = some v) : s.mapCmd via m = s.endInval v := by
  unfold State.mapCmd
  rw [h]

theorem State.mapCmd_blocked (hi : s.inval? via 10 = none) (h : ¬ MapReady s m) : s.mapCmd via m = s := by
  unfold State.mapCmd
  rw [hi]
  exact if_pos ((s.mapBlocked_iff m).2 h)

theorem State.mapCmd_bad (hi : s.inval? via 10 = none) (h : MapReady s m) (hbad : s.mapOk m = false) :
    s.mapCmd via m = ended s via 10 2 0 := by
  unfold State.mapCmd
  rw [hi, hbad]
  exact (if_neg (fun hb => (s.mapBlocked_iff m).1 hb h)).trans (State.finishCmd_eq ..)

theorem State.mapCmd_fewPages {leaf : Nat} (hi : s.inval? via 10 = none) (h : MapReady s m) (hok : s.mapOk m = true)
    (hl : leafLevel m.psize = some leaf) (ha : m.alloc = true) (hp : m.pages.length < m.count) :
    s.mapCmd via m = ended s via 10 3 0 := by
  unfold State.mapCmd
  rw [hi, hok, hl]
  refine (if_neg (fun hb => (s.mapBlocked_iff m).1 hb h)).trans ?_
  rw [if_neg (by decide)]
  exact (if_pos (by rw [ha, decide_eq_true hp]; rfl)).trans (State.finishCmd_eq ..)

/-! ### MAP of a page -/

/-- The page that a MAP of one page enters, and the state in which its page stands ready. -/
def MapArgs.Gives (m : MapArgs) (s : State) (pa : Nat) (s1 : State) : Prop :=
  (m.alloc = false → pa = m.pa ∧ m.pa % m.psize = 0 ∧ s.nameable m.pa m.psize = true ∧ s1 = s) ∧
  (m.alloc = true → m.pages = [pa] ∧ pa % m.psize = 0 ∧ s.freeRange pa m.psize = true ∧ m.from_.holds pa = true ∧ s1 = s.grant m)

theorem State.grant_one {pa : Nat} (hc : m.count = 1) (hp : m.pages = [pa]) : s.grant m =
    (s.setQue { s.que with alloc := Tab.set s.que.alloc pa (m.psize, m.asid) }).writeAt .global pa (List.replicate m.psize 0) false := by
  rw [State.grant, hc, hp]
  rfl

/-- A page that ALLOC takes holds zeros; nothing else is touched. -/
theorem MapArgs.Gives.spec {pa : Nat} {s1 : State} (h : m.Gives s pa s1) (hc : m.count = 1) (hsize : 0 < m.psize) (hm : Coherent s.mem) :
    Coherent s1.mem ∧ s1.mem.trRoot = s.mem.trRoot ∧ s1.que.invals = s.que.invals ∧
    ∀ a, byteAt s1.mem a = if m.alloc = true ∧ pa ≤ a ∧ a < pa + m.psize then 0 else byteAt s.mem a := by
  obtain ⟨hno, hyes⟩ := h
  cases ha : m.alloc
  · obtain ⟨-, -, -, rfl⟩ := hno ha
    exact ⟨hm, rfl, rfl, fun a => (if_neg (by simp)).symm⟩
  · obtain ⟨hp, -, -, -, rfl⟩ := hyes ha
    have hne : List.replicate m.psize (0 : Byte) ≠ [] := List.ne_nil_of_length_pos (by rwa [List.length_replicate])
    obtain ⟨hb, -, hcoh, -, -⟩ := State.writeAt_global_spec
      (s := s.setQue { s.que with alloc := Tab.set s.que.alloc pa (m.psize, m.asid) }) hm pa false hne
    rw [State.grant_one hc hp]
    refine ⟨hcoh, State.writeAt_global_trRoot .., rfl, fun a => ?_⟩
    rw [hb, List.length_replicate]
    simp only [true_and]
    split
    next h => exact List.getD_replicate _ (by omega)
    next => rfl

theorem leafEntry_eq (m : MapArgs) (pa : Nat) :
    leafEntry m pa = 3 + 4 * m.w.toNat + 24 * m.ad.toNat + pa + 2 ^ 48 * m.fmta.toNat + 2 ^ 52 * m.geom.toNat := by
  rw [leafEntry, b2n_eq, b2n_eq]

theorem State.setEntry_spec (hm : Coherent s.mem) (a x : Nat) : Coherent (s.setEntry a x).mem ∧
    Stored s.mem (s.setEntry a x).mem a (bytesOf 8 x) := by
  obtain ⟨hb, -, hcoh, -, -⟩ := State.writeAt_global_spec hm a false (bytesOf_ne_nil (n := 8) (by decide) x)
  exact ⟨hcoh, hb⟩

/-- The leaf of the page is entered where the way to it leads, and its range invalidated: the command starts to wait. -/
theorem State.mapCmd_page {leaf pa at_ : Nat} {s1 s2 : State} {ts : List Nat} (hi : s.inval? via 10 = none) (h : MapReady s m)
    (hok : s.mapOk m = true) (hl : leafLevel m.psize = some leaf) (hc : m.count = 1) (ht : m.tables = []) (hg : m.Gives s pa s1)
    (hr : s1.reachLeaf m.asid m.va (s1.tableRoot m.asid) 0 leaf [] 4 = some (at_, ts, s2)) :
    s.mapCmd via m = ((s2.setEntry at_ (leafEntry m pa)).invRange m.asid m.va m.psize).startInval via 10 [] := by
  have hfew : ¬ ((m.alloc && decide (m.pages.length < m.count)) = true) := fun hb => by
    obtain ⟨ha, hlt⟩ := Bool.and_eq_true_iff.1 hb
    rw [(hg.2 ha).1, hc] at hlt
    exact absurd hlt (by simp)
  have hbad : ¬ ((m.alloc && !(s.freeRanges m.psize (m.pages.take m.count) && (m.pages.take m.count).all m.from_.holds)) = true) :=
    fun hb => by
      obtain ⟨ha, hno⟩ := Bool.and_eq_true_iff.1 hb
      obtain ⟨hp, hal, hf, hh, -⟩ := hg.2 ha
      rw [hp, hc] at hno
      simp [State.freeRanges, hal, hf, hh] at hno
  have hs1 : (if m.alloc then s.grant m else s) = s1 := by
    cases ha : m.alloc
    · exact (hg.1 ha).2.2.2.symm
    · exact (hg.2 ha).2.2.2.2.symm
  have hpas : (if m.alloc then m.pages.take m.count else (List.range m.count).map fun i => m.pa + i * m.psize) = [pa] := by
    rw [hc]
    cases ha : m.alloc
    · rw [if_neg (by decide), (hg.1 ha).1]
      simp
    · rw [if_pos rfl, (hg.2 ha).1]
      rfl
  have hpages : s1.mapPages m leaf m.va m.tables [pa] = some (s2.setEntry at_ (leafEntry m pa)) := by
    rw [State.mapPages, ht, hr]
    rfl
  unfold State.mapCmd
  rw [hi, hok, hl]
  refine (if_neg (fun hb => (s.mapBlocked_iff m).1 hb h)).trans ?_
  rw [if_neg (by decide)]
  dsimp only
  rw [if_neg hfew, if_neg hbad, hs1, hpas, hpages, hc, Nat.one_mul]

/-- The operands of a MAP of one page that is free to enter are good. -/
theorem State.mapOk_page {leaf pa : Nat} {s1 : State} (hl : leafLevel m.psize = some leaf) (hc : m.count = 1) (hg : m.Gives s pa s1)
    (he : Spec.Exists s m.asid) (hva : m.va % m.psize = 0) (hle : m.va + m.psize ≤ 2 ^ 52) (hf : m.fmta ≠ 15)
    (hgeom : m.geom = 0 ∨ 7 ≤ m.fmta.toNat ∧ m.fmta.toNat ≤ 10) (hm : s.mappedAt m.va (s.tableRoot m.asid) 0 leaf 4 = false) :
    s.mapOk m = true := by
  have hzero : ∀ {i x : Nat}, i < m.count → x + i * m.psize = x := fun {i x} hi => by
    rw [show i = 0 by omega, Nat.zero_mul, Nat.add_zero]
  rw [State.mapOk_iff hl, hc, Nat.one_mul, ← hc]
  refine ⟨he, hva, hle, hf, hgeom, ?_, fun i hi => by rwa [hzero hi]⟩
  cases ha : m.alloc
  · obtain ⟨-, hal, hname, -⟩ := hg.1 ha
    exact .inr ⟨hal, fun i hi => by rwa [hzero hi]⟩
  · exact .inl rfl

theorem map_page {leaf pa at_ : Nat} {s1 s2 : State} {ts : List Nat} (ha : Asked s via 10) (hi : s.inval? via 10 = none) (h : MapReady s m)
    (hc : m.count = 1) (ht : m.tables = [])
    (hleaf : leaf = 1 ∧ m.psize = 2 ^ 30 ∨ leaf = 2 ∧ m.psize = 2 ^ 21 ∨ leaf = 3 ∧ m.psize = 2 ^ 16)
    (hok : ({ s with inp := none } : State).mapOk m = true) (hg : m.Gives { s with inp := none } pa s1)
    (hr : s1.reachLeaf m.asid m.va (s1.tableRoot m.asid) 0 leaf [] 4 = some (at_, ts, s2)) (hm : Coherent s.mem) :
    ∃ u t : State, exec .map { s with inp := some (.map via m) } = .next t ∧ EndsAtDone u t via 10 s.que.invals ∧
      NoTlb u.mem m.asid m.va m.psize ∧ DoneWhen u u.fresh ∧ u.mem.trRoot = s.mem.trRoot ∧
      ∀ a, byteAt u.mem a = if at_ ≤ a ∧ a < at_ + 8 then
          (bytesOf 8 (3 + 4 * m.w.toNat + 24 * m.ad.toNat + pa + 2 ^ 48 * m.fmta.toNat + 2 ^ 52 * m.geom.toNat)).getD (a - at_) 0
        else if m.alloc = true ∧ pa ≤ a ∧ a < pa + m.psize then 0 else byteAt s.mem a := by
  obtain ⟨hl, hsize⟩ := leafLevel_of hleaf
  obtain ⟨hcoh1, hroot1, hinv1, hbyte1⟩ := hg.spec (s := { s with inp := none }) hc hsize hm
  have hreads := State.reachLeaf_reads 4 hr
  obtain ⟨hcoh3, hbyte3⟩ := State.setEntry_spec (hreads.coherent hcoh1) at_ (leafEntry m pa)
  have hroot3 : (s2.setEntry at_ (leafEntry m pa)).mem.trRoot = s.mem.trRoot :=
    (State.writeAt_global_trRoot ..).trans (hreads.trRoot.trans hroot1)
  have hinv3 : (s2.setEntry at_ (leafEntry m pa)).que.invals = s.que.invals :=
    (congrArg Queues.invals hreads.que).trans hinv1
  rw [map_served ha, State.mapCmd_page (s := { s with inp := none }) hi h hok hl hc ht hg hr]
  generalize s2.setEntry at_ (leafEntry m pa) = s3 at *
  have hi4 : (s3.invRange m.asid m.va m.psize).inval? via 10 = none := by
    rw [State.inval?, show (s3.invRange m.asid m.va m.psize).que.invals = s.que.invals from hinv3]
    exact hi
  obtain ⟨u, hends, hmem, hdone, -, -⟩ := State.startInval_spec hi4 rfl []
  refine ⟨u, _, rfl, ?_, ?_, hdone, ?_, fun a => ?_⟩
  · rwa [show (s3.invRange m.asid m.va m.psize).que.invals = s.que.invals from hinv3] at hends
  · rw [hmem]
    exact s3.invRange_noTlb _ _ _
  · rw [hmem]
    exact hroot3
  · rw [hmem, State.invRange, State.invalidate_byteAt, hbyte3, length_bytesOf, hreads.byteAt hcoh1, hbyte1, leafEntry_eq]

/-! ### UNMAP -/

theorem unmap_served {asid va psize count : Nat} (h : Asked s via 11) :
    exec .unmap { s with inp := some (.unmap via asid va psize count) } =
      .next (({ s with inp := none } : State).unmapCmd via asid va psize count) := by
  rw [exec_unmap, execUnmap]
  dsimp only
  rw [if_pos (State.served_of_asked h)]

theorem State.unmapCmd_blocked {asid va psize count : Nat} (hi : s.inval? via 11 = none)
    (h : s.tablesFree asid va psize count = false) : s.unmapCmd via asid va psize count = s := by
  unfold State.unmapCmd
  rw [hi, h]
  rfl

/-- UNMAP of one page goes by the leaf that the walk finds. -/
theorem State.unmapCmd_page {asid va psize leaf : Nat} (hi : s.inval? via 11 = none) (h : s.tablesFree asid va psize 1 = true)
    (hl : leafLevel psize = some leaf) (he : Spec.Exists s asid) (hva : va % psize = 0) (hle : va + psize ≤ 2 ^ 52) :
    s.unmapCmd via asid va psize 1 = match s.leafAt va (s.tableRoot asid) 0 leaf 4 with
      | none => ended s via 11 2 0
      | some (at_, pa) => ((s.setEntry at_ 0).invRange asid va psize).startInval via 11 [(pa, asid)] := by
  have hgood : ¬ ((!s.asidOk asid || va % psize != 0 || decide (2 ^ 52 < va + 1 * psize)) = true) := by
    rw [(s.asidOk_iff asid).2 he]
    simpa [hva] using hle
  unfold State.unmapCmd
  rw [hi, h, hl]
  dsimp only
  rw [if_neg (by decide), if_neg hgood, State.leaves]
  cases s.leafAt va (s.tableRoot asid) 0 leaf 4 with
  | none => exact State.finishCmd_eq ..
  | some x =>
    rw [Nat.one_mul]
    rfl

theorem State.unmapCmd_again {asid va psize count : Nat} {v : Inval} (h : s.inval? via 11 = some v) :
    s.unmapCmd via asid va psize count = s.endInval v := by
  unfold State.unmapCmd
  rw [h]

/-- A MAP or UNMAP whose invalidation is under way is offered again: it ends once DONE is set. -/
theorem inval_again {op : Nat} {v : Inval} {e : Event} {i : Instr} (ha : Asked s via op) (hi : s.inval? via op = some v)
    (h : op = 10 ∧ i = .map ∧ (∃ m, e = .map via m) ∨ op = 11 ∧ i = .unmap ∧ ∃ asid va psize count, e = .unmap via asid va psize count) :
    exec i { s with inp := some e } = .next (({ s with inp := none } : State).endInval v) := by
  obtain ⟨rfl, rfl, m, rfl⟩ | ⟨rfl, rfl, asid, va, psize, count, rfl⟩ := h
  · rw [map_served ha, State.mapCmd_again (s := { s with inp := none }) hi]
  · rw [unmap_served ha, State.unmapCmd_again (s := { s with inp := none }) hi]

theorem bytesOf_eight_zero : bytesOf 8 0 = List.replicate 8 0 := rfl

theorem unmap_page {asid va psize leaf at_ pa : Nat} (ha : Asked s via 11) (hi : s.inval? via 11 = none)
    (h : s.tablesFree asid va psize 1 = true) (hl : leafLevel psize = some leaf) (he : Spec.Exists s asid) (hva : va % psize = 0)
    (hle : va + psize ≤ 2 ^ 52) (hleaf : ({ s with inp := none } : State).leafAt va (s.tableRoot asid) 0 leaf 4 = some (at_, pa))
    (hm : Coherent s.mem) :
    ∃ u t : State, exec .unmap { s with inp := some (.unmap via asid va psize 1) } = .next t ∧ EndsAtDone u t via 11 s.que.invals ∧
      Stored s.mem u.mem at_ (List.replicate 8 0) ∧ NoTlb u.mem asid va psize ∧ DoneWhen u u.fresh ∧
      (InvEnds u u.fresh → u.que.alloc = s.que.alloc.filter fun x => !(x.1 == pa && x.2.2 == asid)) ∧
      (¬ InvEnds u u.fresh → u.que.alloc = s.que.alloc ∧ ∀ v ∈ u.que.invals, v ∉ s.que.invals → v.pages = [(pa, asid)]) := by
  obtain ⟨-, hbyte⟩ := State.setEntry_spec (s := { s with inp := none }) hm at_ 0
  have hque : (({ s with inp := none } : State).setEntry at_ 0).que = s.que := rfl
  have hleaf' : ({ s with inp := none } : State).leafAt va (({ s with inp := none } : State).tableRoot asid) 0 leaf 4 = some (at_, pa) := hleaf
  rw [unmap_served ha, State.unmapCmd_page (s := { s with inp := none }) hi h hl he hva hle, hleaf']
  dsimp only
  generalize ({ s with inp := none } : State).setEntry at_ 0 = s1 at *
  have hque2 : (s1.invRange asid va psize).que = s.que := hque
  have hi2 : (s1.invRange asid va psize).inval? via 11 = none := by
    rw [State.inval?, hque2]
    exact hi
  obtain ⟨u, hends, hmem, hdone, hfreed, hwaits⟩ := State.startInval_spec hi2 rfl [(pa, asid)]
  rw [hque2] at hends hfreed hwaits
  refine ⟨u, _, rfl, hends, fun x => ?_, ?_, hdone, fun hd => ?_, hwaits⟩
  · rw [hmem, State.invRange, State.invalidate_byteAt, hbyte, bytesOf_eight_zero]
  · rw [hmem]
    exact s1.invRange_noTlb _ _ _
  · rw [hfreed hd]
    refine List.filter_congr fun x _ => congrArg _ ?_
    rw [Bool.eq_iff_iff]
    simp

end

end Sys2Proof.Machine
end

