-- ==== Sys2Proof/Proofs/AddressSpaceCommands.lean ====
section
/-! PROOFS. COLL_GROUP and SET_REG (R67, R385), and the commands on address spaces together. -/
namespace Sys2Proof.Machine
open Sys2Proof.Spec (Asked ended)

theorem exec_collGroup (s : State) : exec .collGroup s = execCollGroup s := rfl
theorem exec_setReg (s : State) : exec .setReg s = execSetReg s := rfl

section
variable {s : State} {via : Via}

/-! ### COLL_GROUP (R385) -/

theorem collGroup_served {g size scope asid : Nat} {mem : BitVec 192} {valid : Bool} (h : Asked s via 12) :
    exec .collGroup { s with inp := some (.collGroup via g size scope asid mem valid) } =
      .next (({ s with inp := none } : State).setGroup via g size scope asid mem valid) := by
  rw [exec_collGroup, execCollGroup]
  dsimp only
  rw [if_pos (State.served_of_asked h)]

/-- The operands of COLL_GROUP that R385 accepts. -/
def GroupGood (s : State) (size scope asid : Nat) : Prop :=
  (scope = 3 ∧ 1 ≤ size ∧ size ≤ 1024 ∨ scope = 4 ∧ 1 ≤ size ∧ size ≤ 144) ∧ Spec.Exists s asid

theorem State.groupBad_iff (s : State) {g : Nat} (size scope asid : Nat) (hg : g < 64) :
    (decide (64 ≤ g) || !(decide (1 ≤ size) && (scope == 3 && decide (size ≤ 1024) || scope == 4 && decide (size ≤ 144))) ||
      !s.asidOk asid) = true ↔ ¬ GroupGood s size scope asid := by
  rw [GroupGood, ← State.asidOk_iff, decide_eq_false (Nat.not_le.2 hg)]
  cases s.asidOk asid <;> simp
  omega

theorem State.setGroup_bad {g size scope asid : Nat} {mem : BitVec 192} {valid : Bool} (hg : g < 64)
    (h : ¬ GroupGood s size scope asid) : s.setGroup via g size scope asid mem valid = ended s via 12 2 0 :=
  (if_pos ((s.groupBad_iff size scope asid hg).2 h)).trans (State.finishCmd_eq ..)

theorem State.setGroup_busy {g size scope asid : Nat} {mem : BitVec 192} {valid : Bool} (hg : g < 64)
    (h : GroupGood s size scope asid) (hr : ∃ r ∈ s.eng.rounds, r.g = g ∧ r.status = none) :
    s.setGroup via g size scope asid mem valid = ended s via 12 4 0 := by
  refine (if_neg (mt (s.groupBad_iff size scope asid hg).1 (not_not.2 h))).trans ?_
  exact (if_pos (by simpa using hr)).trans (State.finishCmd_eq ..)

/-- The descriptor that COLL_GROUP enters. -/
def newGroup (size scope asid : Nat) (mem : BitVec 192) (valid : Bool) : CollGrp :=
  { size := BitVec.ofNat 11 size, scope := BitVec.ofNat 3 scope, asid := BitVec.ofNat 8 asid, valid := valid,
    members := mem &&& BitVec.ofNat 192 (2 ^ 144 - 1) }

theorem State.setGroup_sets {g size scope asid : Nat} {mem : BitVec 192} {valid : Bool} (hg : g < 64)
    (h : GroupGood s size scope asid) (hr : ∀ r ∈ s.eng.rounds, r.g = g → r.status ≠ none) :
    s.setGroup via g size scope asid mem valid =
      ended (s.setEng { s.eng with collGrp := Tab.set s.eng.collGrp g (newGroup size scope asid mem valid) }) via 12 0 0 := by
  have hidle : ¬ ((s.eng.rounds.any fun r => r.g == g && r.status.isNone) = true) := by
    simp only [List.any_eq_true, Bool.and_eq_true, beq_iff_eq, Option.isNone_iff_eq_none]
    rintro ⟨r, hr', hrg, hs⟩
    exact hr r hr' hrg hs
  refine (if_neg (mt (s.groupBad_iff size scope asid hg).1 (not_not.2 h))).trans ?_
  exact (if_neg hidle).trans (State.finishCmd_eq ..)

theorem newGroup_spec {size scope asid : Nat} (mem : BitVec 192) (valid : Bool) (h : GroupGood s size scope asid) :
    (newGroup size scope asid mem valid).size.toNat = size ∧ (newGroup size scope asid mem valid).scope.toNat = scope ∧
    (newGroup size scope asid mem valid).asid.toNat = asid ∧
    ∀ n < 144, (newGroup size scope asid mem valid).members.getLsbD n = mem.getLsbD n := by
  obtain ⟨hfit, -, hasid, -⟩ := h
  refine ⟨?_, ?_, ?_, fun n hn => ?_⟩
  · exact (BitVec.toNat_ofNat ..).trans (Nat.mod_eq_of_lt (by omega))
  · exact (BitVec.toNat_ofNat ..).trans (Nat.mod_eq_of_lt (by omega))
  · exact (BitVec.toNat_ofNat ..).trans (Nat.mod_eq_of_lt (by omega))
  · rw [newGroup, BitVec.getLsbD_and, BitVec.getLsbD_ofNat, Nat.testBit_two_pow_sub_one]
    simp [hn, show n < 192 by omega]

theorem collGroup_sets {g size scope asid : Nat} {mem : BitVec 192} {valid : Bool} (ha : Asked s via 12) (hg : g < 64)
    (h : GroupGood s size scope asid) (hr : ∀ r ∈ s.eng.rounds, r.g = g → r.status ≠ none) : ∃ u : State,
      exec .collGroup { s with inp := some (.collGroup via g size scope asid mem valid) } = .next (ended u via 12 0 0) ∧
      u.mem = s.mem ∧ (Tab.getD u.eng.collGrp g .reset).size.toNat = size ∧ (Tab.getD u.eng.collGrp g .reset).scope.toNat = scope ∧
      (Tab.getD u.eng.collGrp g .reset).asid.toNat = asid ∧ (Tab.getD u.eng.collGrp g .reset).valid = valid ∧
      (∀ n < 144, (Tab.getD u.eng.collGrp g .reset).members.getLsbD n = mem.getLsbD n) ∧
      ∀ k, k ≠ g → Tab.getD u.eng.collGrp k .reset = Tab.getD s.eng.collGrp k .reset := by
  obtain ⟨hsize, hscope, hasid, hmem⟩ := newGroup_spec mem valid h
  rw [collGroup_served ha, State.setGroup_sets (s := { s with inp := none }) hg h hr]
  refine ⟨_, rfl, rfl, ?_⟩
  rw [State.setEng_eng, Tab.getD_set_same]
  exact ⟨hsize, hscope, hasid, rfl, hmem, fun k hk => Tab.getD_set_other _ _ _ _ _ hk⟩

/-! ### SET_REG: which offsets -/

theorem setReg_served {off : Nat} {v : W64} (h : Asked s via 13) : exec .setReg { s with inp := some (.setReg via off v) } =
    match ({ s with inp := none } : State).setRegWrite off v with
    | some t => .next (ended t via 13 0 0)
    | none => .next (ended { s with inp := none } via 13 3 0) := by
  rw [exec_setReg, execSetReg]
  dsimp only
  rw [if_neg (by rw [State.served_of_asked h]; decide)]
  cases ({ s with inp := none } : State).setRegWrite off v with
  | none => exact congrArg _ (State.finishCmd_eq ..)
  | some t => exact congrArg _ (State.finishCmd_eq ..)

/-- A register with behaviour of its own, or a word of LK_PEERMAP or GH_WAYPART. -/
def ownRegister (off : Nat) : Prop :=
  off = 0x2100 ∨ off = 0x6000 ∨ 0x6300 ≤ off ∧ off < 0x6318 ∧ off % 8 = 0 ∨ 0xA000 ≤ off ∧ off < 0xA200 ∧ off % 8 = 0

theorem setRegOffset_iff (off : Nat) : Spec.setRegOffset off = true ↔ off ∈ plainSetRegs ∨ ownRegister off := by
  have hlist : [0x7600, 0x7608, 0x7610, 0x7618, 0x7620, 0x7508, 0x7510, 0x6348, 0x6608, 0x8800, 0x8808, 0x8810, 0x4E30, 0x2100, 0x6000] =
    plainSetRegs ++ [0x2100, 0x6000] := rfl
  rw [Spec.setRegOffset, hlist, ownRegister]
  simp only [Bool.or_eq_true, Bool.and_eq_true, decide_eq_true_eq, List.contains_iff_mem, List.mem_append,
    List.mem_cons, List.not_mem_nil, or_false, beq_iff_eq]
  tauto

theorem State.setRegWrite_none {off : Nat} {v : W64} (h : Spec.setRegOffset off = false) : s.setRegWrite off v = none := by
  rw [Bool.eq_false_iff, Ne, setRegOffset_iff, ownRegister] at h
  push Not at h
  obtain ⟨h0, h1, h2, h3, h4⟩ := h
  rw [State.setRegWrite, if_neg (by simpa using h0), if_neg h1, if_neg h2, if_neg fun ⟨x, y, z⟩ => h3 x y z,
    if_neg fun ⟨x, y, z⟩ => h4 x y z]

theorem State.setRegWrite_plain {off : Nat} {v : W64} (h : off ∈ plainSetRegs) :
    s.setRegWrite off v = some (s.writeReg .lodge off 8 v) := if_pos (by simpa using h)

/-! ### SET_REG: registers without behaviour of their own -/

theorem State.mgmtWord_plain {off : Nat} (h : off ∈ plainSetRegs) : ∃ old, s.mgmtWord off = some old := by
  simp only [plainSetRegs, List.mem_cons, List.not_mem_nil, or_false] at h
  obtain rfl | rfl | rfl | rfl | rfl | rfl | rfl | rfl | rfl | rfl | rfl | rfl | rfl := h
  all_goals exact ⟨_, rfl⟩

theorem plainSetRegs_word {off : Nat} (h : off ∈ plainSetRegs) : off % 8 = 0 ∧ off < 0x4000000 := by
  have hall : ∀ o ∈ plainSetRegs, o % 8 = 0 ∧ o < 0x4000000 := by decide
  exact hall off h

theorem State.setRegWrite_put {off : Nat} {v : W64} (hst : s.boot.state ≠ 3) (h : off ∈ plainSetRegs) :
    s.setRegWrite off v = some (s.put .lodge off v.toNat v.toNat) := by
  obtain ⟨old, hw⟩ := s.mgmtWord_plain h
  obtain ⟨h8, hlt⟩ := plainSetRegs_word h
  rw [State.setRegWrite_plain h, State.writeReg_word hst Written.comes_lodge h8 hlt hw]

/-- These registers lie beside the tasks, the engines, the fabric and the boot. -/
theorem State.put_plain_frame {off : Nat} (h : off ∈ plainSetRegs) (w x : Nat) : (s.put .lodge off w x).tsk = s.tsk ∧
    (s.put .lodge off w x).eng = s.eng ∧ (s.put .lodge off w x).fab = s.fab ∧ (s.put .lodge off w x).boot = s.boot := by
  simp only [plainSetRegs, List.mem_cons, List.not_mem_nil, or_false] at h
  obtain rfl | rfl | rfl | rfl | rfl | rfl | rfl | rfl | rfl | rfl | rfl | rfl | rfl := h
  all_goals exact ⟨rfl, rfl, rfl, rfl⟩

/-- A field that takes a clamped value which fits it. -/
theorem toNat_bv {w x : Nat} (h : x < 2 ^ w) : (bv w x).toNat = x := (BitVec.toNat_ofNat ..).trans (Nat.mod_eq_of_lt h)

/-- What each of the scheduler's registers takes from a word. -/
theorem State.put_scheduler (s : State) (v : W64) :
    (s.put .lodge 0x7600 v.toNat v.toNat).sch.placeEn = v.getLsbD 0 ∧
    (s.put .lodge 0x7608 v.toNat v.toNat).sch.quantum.toNat = min 10000000 (max 100 (v.toNat % 2 ^ 24)) ∧
    ((s.put .lodge 0x7610 v.toNat v.toNat).sch.drain.toNat = v.toNat % 2 ^ 16 ∧
      (s.put .lodge 0x7610 v.toNat v.toNat).sch.gapHi.toNat = v.toNat / 2 ^ 16 % 8 ∧
      (s.put .lodge 0x7610 v.toNat v.toNat).sch.killRun.toNat = v.toNat / 2 ^ 32 % 2 ^ 16) ∧
    (s.put .lodge 0x7618 v.toNat v.toNat).sch.saveBase.toNat = v.toNat % 2 ^ 48 ∧
    (s.put .lodge 0x7620 v.toNat v.toNat).sch.saveMib.toNat = v.toNat % 2 ^ 32 := by
  refine ⟨bit_toNat v 0, ?_, ⟨BitVec.toNat_ofNat .., ?_, ?_⟩, BitVec.toNat_ofNat .., BitVec.toNat_ofNat ..⟩
  · exact (toNat_bv (w := 24) (x := min 10000000 (max 100 (field v.toNat 23 0))) (by omega)).trans (by simp [field])
  · exact (toNat_bv (w := 3) (field_lt v.toNat 18 16)).trans rfl
  · exact (toNat_bv (w := 16) (field_lt v.toNat 47 32)).trans rfl

/-- What each register of the queues, the links, the errors and the volatile banks takes from a word. -/
theorem State.put_others (s : State) (v : W64) :
    ((s.put .lodge 0x7508 v.toNat v.toNat).que.repAddr.toNat = v.toNat % 2 ^ 48 ∧
      (s.put .lodge 0x7508 v.toNat v.toNat).que.repPeer.toNat = v.toNat / 2 ^ 48 % 2 ^ 8) ∧
    (s.put .lodge 0x7510 v.toNat v.toNat).que.rackPrioMax.toNat = v.toNat % 8 ∧
    (s.put .lodge 0x6348 v.toNat v.toNat).lnk.tmo.toNat = min 50000 (max 10 (v.toNat % 2 ^ 16)) ∧
    (s.put .lodge 0x6608 v.toNat v.toNat).lnk.drainTmo.toNat = v.toNat % 2 ^ 16 ∧
    (s.put .lodge 0x8800 v.toNat v.toNat).err.delay.toNat = min 1048575 (max 256 (v.toNat % 2 ^ 20)) ∧
    (s.put .lodge 0x8808 v.toNat v.toNat).err.win.toNat = max 65536 (v.toNat % 2 ^ 32) ∧
    (s.put .lodge 0x8810 v.toNat v.toNat).err.thresh.toNat = v.toNat % 16 ∧
    ((s.put .lodge 0x4E30 v.toNat v.toNat).mem.vbEn = v.getLsbD 0 ∧
      (s.put .lodge 0x4E30 v.toNat v.toNat).mem.vbIdle.toNat = v.toNat / 2 ^ 8 % 2 ^ 8) := by
  have hwin := field_lt v.toNat 31 0
  refine ⟨⟨BitVec.toNat_ofNat .., ?_⟩, BitVec.toNat_ofNat .., ?_, BitVec.toNat_ofNat .., ?_, ?_, BitVec.toNat_ofNat .., bit_toNat v 0, ?_⟩
  · exact (toNat_bv (w := 8) (field_lt v.toNat 55 48)).trans rfl
  · exact (toNat_bv (w := 16) (x := min 50000 (max 10 (field v.toNat 15 0))) (by omega)).trans (by simp [field])
  · exact (toNat_bv (w := 20) (x := min 1048575 (max 256 (field v.toNat 19 0))) (by omega)).trans (by simp [field])
  · exact (toNat_bv (w := 32) (x := max 65536 (field v.toNat 31 0)) (by omega)).trans (by simp [field])
  · exact (toNat_bv (w := 8) (field_lt v.toNat 15 8)).trans rfl

/-! ### SET_REG: registers with behaviour of their own -/

theorem State.setThermLim_spec (s : State) (v : Nat) : (s.setThermLim v).thm.resume.toNat = v / 2 ^ 8 % 2 ^ 8 ∧
    (v / 2 ^ 8 % 2 ^ 8 ≤ 250 → (s.setThermLim v).thm.retire.toNat = max (v % 2 ^ 8) (v / 2 ^ 8 % 2 ^ 8 + 5)) := by
  refine ⟨(BitVec.toNat_ofNat ..).trans (Nat.mod_eq_of_lt (field_lt v 15 8)), fun h => ?_⟩
  show (BitVec.ofNat 8 (min 255 (max (field v 7 0) (field v 15 8 + 5)))).toNat = _
  simp only [BitVec.toNat_ofNat, field]
  omega

theorem State.setSelf_spec {v : Nat} (h : v % 2 ^ 8 ≤ 143) : (s.setSelf v).lnk.self.toNat = v % 2 ^ 8 := by
  have hf : field v 7 0 = v % 2 ^ 8 := by simp [field]
  rw [State.setSelf, hf, if_pos h]
  exact (BitVec.toNat_ofNat ..).trans (Nat.mod_eq_of_lt (by omega))

/-- A word of 64 bits set within a number. -/
theorem testBit_setWord (x k n : Nat) {v : Nat} (hv : v < 2 ^ 64) :
    (x % 2 ^ (64 * k) + v * 2 ^ (64 * k) + x / 2 ^ (64 * (k + 1)) * 2 ^ (64 * (k + 1))).testBit n =
      if n / 64 = k then v.testBit (n % 64) else x.testBit n := by
  have hlow : x % 2 ^ (64 * k) < 2 ^ (64 * k) := Nat.mod_lt _ (Nat.two_pow_pos _)
  have hword : 2 ^ (64 * k) * v + x % 2 ^ (64 * k) < 2 ^ (64 * (k + 1)) := by
    rw [Nat.mul_add, Nat.pow_add, Nat.mul_one]
    calc 2 ^ (64 * k) * v + x % 2 ^ (64 * k) < 2 ^ (64 * k) * v + 2 ^ (64 * k) := by omega
      _ = 2 ^ (64 * k) * (v + 1) := by rw [Nat.mul_add, Nat.mul_one]
      _ ≤ 2 ^ (64 * k) * 2 ^ 64 := Nat.mul_le_mul_left _ hv
  rw [Nat.mul_comm v, Nat.mul_comm (x / _), Nat.add_comm (x % _), Nat.add_comm, Nat.testBit_two_pow_mul_add _ hword,
    Nat.testBit_two_pow_mul_add _ hlow, Nat.testBit_mod_two_pow, Nat.testBit_div_two_pow]
  split
  next h1 =>
    split
    next h2 => rw [if_neg (by omega), decide_eq_true h2, Bool.true_and]
    next h2 => rw [if_pos (by omega), show n - 64 * k = n % 64 by omega]
  next h1 => rw [if_neg (by omega), Nat.sub_add_cancel (by omega)]

theorem State.setPeermap_spec (s : State) (k n : Nat) (v : W64) (hn : n < 144) : (s.setPeermap k v.toNat).lnk.peerMap.getLsbD n =
    if n / 64 = k then v.getLsbD (n % 64) else s.lnk.peerMap.getLsbD n := by
  refine (BitVec.getLsbD_ofNat 192 _ n).trans ?_
  rw [Nat.mod_eq_of_lt v.isLt, Nat.testBit_mod_two_pow, decide_eq_true hn, decide_eq_true (show n < 192 by omega), Bool.true_and,
    Bool.true_and, testBit_setWord _ _ _ v.isLt]
  rfl

/-- A slice takes a new partition: at once where it is the old one, and else by a transition (R159). -/
def WayPart.takes (p : WayPart) (spw spasid : Nat) (taskWr : Bool) : WayPart :=
  let q := { p with taskWr := taskWr, spw1 := BitVec.ofNat 5 spw, spasid1 := BitVec.ofNat 8 spasid }
  if spw = p.spw.toNat ∧ spasid = p.spasid.toNat then q else { q with phase := 1, wbcnt := 0 }

theorem WayPart.takes_spec (p : WayPart) {spw spasid : Nat} (taskWr : Bool) (hs : spw ≤ 16) (ha : spasid < 256) :
    (p.takes spw spasid taskWr).spw1.toNat = spw ∧ (p.takes spw spasid taskWr).spasid1.toNat = spasid ∧
    (p.takes spw spasid taskWr).taskWr = taskWr := by
  have h5 : (BitVec.ofNat 5 spw).toNat = spw := (BitVec.toNat_ofNat ..).trans (Nat.mod_eq_of_lt (by omega))
  have h8 : (BitVec.ofNat 8 spasid).toNat = spasid := (BitVec.toNat_ofNat ..).trans (Nat.mod_eq_of_lt ha)
  unfold WayPart.takes
  dsimp only
  split <;> exact ⟨h5, h8, rfl⟩

theorem Memory.setWaypart_spec (m : Memory) (k : Nat) {spw spasid : Nat} (taskWr clearErr : Bool) (hp : (m.wp k).phase = 0)
    (hs : spw ≤ 16) (ha : spasid < 256) : ((m.setWaypart k spw spasid taskWr clearErr).wp k).spw1.toNat = spw ∧
      ((m.setWaypart k spw spasid taskWr clearErr).wp k).spasid1.toNat = spasid ∧
      ((m.setWaypart k spw spasid taskWr clearErr).wp k).taskWr = taskWr := by
  rw [Memory.setWaypart, Memory.wp, Tab.getD_set_same]
  cases clearErr
  all_goals
    dsimp only
    rw [if_neg (by simpa [hp] using hs)]
    exact WayPart.takes_spec _ taskWr hs ha

theorem State.setRegWrite_peermap {off : Nat} {v : W64} (h : 0x6300 ≤ off) (h' : off < 0x6318) (h8 : off % 8 = 0) :
    s.setRegWrite off v = some (s.setPeermap ((off - 0x6300) / 8) v.toNat) := by
  have hp : ¬ (plainSetRegs.contains off = true) := by
    simp only [plainSetRegs, List.contains_iff_mem, List.mem_cons, List.not_mem_nil, or_false]
    omega
  rw [State.setRegWrite, if_neg hp, if_neg (by omega), if_neg (by omega), if_pos ⟨h, h', h8⟩]

theorem State.setRegWrite_waypart {off : Nat} {v : W64} (h : 0xA000 ≤ off) (h' : off < 0xA200) (h8 : off % 8 = 0) :
    s.setRegWrite off v = some (s.setMem (s.mem.setWaypart ((off - 0xA000) / 8) (field v.toNat 4 0) (field v.toNat 12 5)
      (bit v.toNat 13) (bit v.toNat 16))) := by
  have hp : ¬ (plainSetRegs.contains off = true) := by
    simp only [plainSetRegs, List.contains_iff_mem, List.mem_cons, List.not_mem_nil, or_false]
    omega
  rw [State.setRegWrite, if_neg hp, if_neg (by omega), if_neg (by omega), if_neg (by omega), if_pos ⟨h, h', h8⟩]

/-- An offset that SET_REG accepts is written; beside LK_PEERMAP, no task, engine, element or boot sees it. -/
theorem State.setRegWrite_some {off : Nat} (v : W64) (hst : s.boot.state ≠ 3) (h : Spec.setRegOffset off = true) :
    ∃ u, s.setRegWrite off v = some u ∧
      (off < 0x6300 ∨ 0x6318 ≤ off → u.tsk = s.tsk ∧ u.eng = s.eng ∧ u.fab = s.fab ∧ u.boot = s.boot) := by
  rcases (setRegOffset_iff off).1 h with h | rfl | rfl | ⟨h1, h2, h8⟩ | ⟨h1, h2, h8⟩
  · exact ⟨_, State.setRegWrite_put hst h, fun _ => State.put_plain_frame h _ _⟩
  · exact ⟨_, rfl, fun _ => ⟨rfl, rfl, rfl, rfl⟩⟩
  · refine ⟨_, rfl, fun _ => ?_⟩
    unfold State.setSelf
    split <;> exact ⟨rfl, rfl, rfl, rfl⟩
  · exact ⟨_, State.setRegWrite_peermap h1 h2 h8, fun h => absurd h (by omega)⟩
  · exact ⟨_, State.setRegWrite_waypart h1 h2 h8, fun _ => ⟨rfl, rfl, rfl, rfl⟩⟩

theorem State.setRegWrite_eq {off c : Nat} {u : State} {v : W64} (hst : s.boot.state ≠ 3) (hu : s.setRegWrite off v = some u) (ho : off = c)
    (hc : c ∈ plainSetRegs) : s.put .lodge c v.toNat v.toNat = u := by
  rw [ho, State.setRegWrite_put hst hc] at hu
  exact Option.some.inj hu

/-- What SET_REG leaves in a register, by the offset. -/
def RegisterSet (s u : State) (off : Nat) (v : W64) : Prop :=
  (off = 0x2100 → u.thm.resume.toNat = v.toNat / 2 ^ 8 % 2 ^ 8 ∧
    (v.toNat / 2 ^ 8 % 2 ^ 8 ≤ 250 → u.thm.retire.toNat = max (v.toNat % 2 ^ 8) (v.toNat / 2 ^ 8 % 2 ^ 8 + 5))) ∧
  (off = 0x6000 → v.toNat % 2 ^ 8 ≤ 143 → u.lnk.self.toNat = v.toNat % 2 ^ 8) ∧
  (∀ k < 3, off = 0x6300 + 8 * k → ∀ n < 144, u.lnk.peerMap.getLsbD n =
    if n / 64 = k then v.getLsbD (n % 64) else s.lnk.peerMap.getLsbD n) ∧
  (∀ k < 64, off = 0xA000 + 8 * k → (s.mem.wp k).phase = 0 → v.toNat % 32 ≤ 16 → (u.mem.wp k).spw1.toNat = v.toNat % 32 ∧
    (u.mem.wp k).spasid1.toNat = v.toNat / 32 % 256 ∧ (u.mem.wp k).taskWr = v.getLsbD 13)

theorem State.setRegWrite_own {off : Nat} {u : State} {v : W64} (hu : s.setRegWrite off v = some u) : RegisterSet s u off v := by
  refine ⟨?_, ?_, fun k hk => ?_, fun k hk => ?_⟩
  · rintro rfl
    cases hu
    exact s.setThermLim_spec v.toNat
  · rintro rfl hv
    cases hu
    exact State.setSelf_spec hv
  · rintro rfl n hn
    rw [State.setRegWrite_peermap (by omega) (by omega) (by omega), show (0x6300 + 8 * k - 0x6300) / 8 = k by omega] at hu
    cases hu
    exact s.setPeermap_spec k n v hn
  · rintro rfl hp hs
    rw [State.setRegWrite_waypart (by omega) (by omega) (by omega), show (0xA000 + 8 * k - 0xA000) / 8 = k by omega] at hu
    cases hu
    have hspw : field v.toNat 4 0 = v.toNat % 32 := by simp [field]
    rw [← hspw] at hs ⊢
    obtain ⟨hw, ha, ht⟩ := s.mem.setWaypart_spec k (bit v.toNat 13) (bit v.toNat 16) hp hs (field_lt v.toNat 12 5)
    exact ⟨hw, ha, ht.trans (bit_toNat v 13)⟩

end

/-- Settles O50: each command by the lemmas of its own section, read through `Spec.Asked` and `Spec.ended`. -/
theorem addressSpaceCommands : Obligations.AddressSpaceCommands := by
  unfold Obligations.AddressSpaceCommands
  refine ⟨fun s via root ha => ⟨fun hall => ?_, fun hex hroot hfree hr => ?_, asidCreate_creates ha⟩,
    fun s via a ha => ⟨fun he => ?_, fun he hin => ?_, asidDestroy_destroys ha⟩, fun s via m ha hi h => ?_,
    fun s via op v e i ha hi hcmd => ?_, fun s via m ha hi hready => ⟨fun hbad => ?_, ?_, ?_⟩,
    fun s via asid va psize leaf ha hi => ⟨fun h => ?_, fun h hleaf he hva hle => ⟨fun hnone => ?_, fun at_ pa hsome hm => ?_⟩⟩,
    fun s via g size scope asid mem valid good ha hg hgood => ?_, fun s via off v ha => ⟨fun h => ?_, fun h => ?_⟩⟩
  · have hnone : ({ s with inp := none } : State).freeAsids = [] := List.eq_nil_iff_forall_not_mem.2 fun a hmem => by
      obtain ⟨h1, h2, h3⟩ := (State.mem_freeAsids _ a).1 hmem
      exact h3 (hall a h1 h2)
    rw [asidCreate_served ha, State.createAsid_full hnone]
  · obtain ⟨a, hfa⟩ := hex
    have hne : ({ s with inp := none } : State).freeAsids ≠ [] := List.ne_nil_of_mem ((State.mem_freeAsids _ a).2 hfa)
    rw [asidCreate_served ha, State.createAsid_eq (s := { s with inp := none }) hne hroot hfree, Spec.quiet]
    exact congrArg _ (if_neg (by rw [show ({ s with inp := none } : State).rangeFree root 65536 = false from hr]; decide))
  · rw [asidDestroy_served ha, State.destroyAsid_bad (s := { s with inp := none }) he]
  · rw [asidDestroy_served ha, State.destroyAsid_eq (s := { s with inp := none }) he]
    exact congrArg _ (if_pos ((State.asidInUse_iff _ a).2 hin))
  · rw [map_served ha, State.mapCmd_blocked (s := { s with inp := none }) hi h, Spec.quiet]
  · obtain ⟨hvia, hop⟩ := State.inval_of_some hi
    rw [inval_again ha hi hcmd]
    refine ⟨fun hd => ?_, fun hd => ?_⟩
    · rw [State.endInval_waits (s := { s with inp := none }) hd, Spec.quiet]
    · rw [State.endInval_ends (s := { s with inp := none }) hd, State.invalOver, hvia, hop]
      rfl
  · rw [map_served ha, State.mapCmd_bad (s := { s with inp := none }) hi hready (State.mapOk_bad (s := { s with inp := none }) hbad)]
  · intro leaf pa at_ s1 s2 ts hc ht hleaf he hva hle hfmta hgeom hmapped hno hyes hreach hm
    have hg : m.Gives { s with inp := none } pa s1 := ⟨hno, hyes⟩
    exact map_page ha hi hready hc ht hleaf
      (State.mapOk_page (leafLevel_of hleaf).1 hc hg he hva hle hfmta hgeom hmapped) hg hreach hm
  · intro leaf hleaf he hva hle hfmta hgeom halloc hp hmapped
    have hl := (leafLevel_of hleaf).1
    have hok := (State.mapOk_iff (s := { s with inp := none }) hl).2 ⟨he, hva, hle, hfmta, hgeom, .inl halloc, hmapped⟩
    rw [map_served ha, State.mapCmd_fewPages (s := { s with inp := none }) hi hready hok hl halloc hp]
  · rw [unmap_served ha, State.unmapCmd_blocked (s := { s with inp := none }) hi h, Spec.quiet]
  · rw [unmap_served ha, State.unmapCmd_page (s := { s with inp := none }) hi h (leafLevel_of hleaf).1 he hva hle,
      show ({ s with inp := none } : State).leafAt va (({ s with inp := none } : State).tableRoot asid) 0 leaf 4 = none from hnone]
  · exact unmap_page ha hi h (leafLevel_of hleaf).1 he hva hle hsome hm
  · subst hgood
    refine ⟨fun hbad => ?_, fun hok hr => ?_, collGroup_sets ha hg⟩
    · rw [collGroup_served ha, State.setGroup_bad (s := { s with inp := none }) hg hbad]
    · rw [collGroup_served ha, State.setGroup_busy (s := { s with inp := none }) hg hok hr]
  · rw [setReg_served ha, State.setRegWrite_none h]
  · have hst := ha.1
    obtain ⟨u, hu, hframe⟩ := State.setRegWrite_some (s := { s with inp := none }) v hst h
    have heq := fun c ho hc => State.setRegWrite_eq (s := { s with inp := none }) (c := c) hst hu ho hc
    obtain ⟨htherm, hself, hpeer, hway⟩ := State.setRegWrite_own hu
    obtain ⟨hplace, hquantum, hpolicy, hbase, hmib⟩ := State.put_scheduler { s with inp := none } v
    obtain ⟨hrep, hrack, htmo, hdrain, hprobe, hwin, hthresh, hvb⟩ := State.put_others { s with inp := none } v
    refine ⟨u, ?_, hframe, fun ho => heq _ ho (by decide) ▸ hplace, fun ho => heq _ ho (by decide) ▸ hquantum,
      fun ho => heq _ ho (by decide) ▸ hpolicy, fun ho => heq _ ho (by decide) ▸ hbase, fun ho => heq _ ho (by decide) ▸ hmib,
      fun ho => heq _ ho (by decide) ▸ hrep, fun ho => heq _ ho (by decide) ▸ hrack, fun ho => heq _ ho (by decide) ▸ htmo,
      fun ho => heq _ ho (by decide) ▸ hdrain, fun ho => heq _ ho (by decide) ▸ hprobe, fun ho => heq _ ho (by decide) ▸ hwin,
      fun ho => heq _ ho (by decide) ▸ hthresh, fun ho => heq _ ho (by decide) ▸ hvb, htherm, hself, hpeer, hway⟩
    rw [setReg_served ha, hu]

end Sys2Proof.Machine
end

