-- ==== Sys2Proof/Proofs/SlotMaps.lean ====
section
/-! PROOFS. Notifies, and the mapping of queues to slots (R53, R54, R55). -/
namespace Sys2Proof.Machine
open Sys2Proof.Spec (byteAt Coherent SameBytes descWord)

theorem exec_notifyWrite (s : State) : exec .notifyWrite s = execNotifyWrite s := rfl
theorem exec_queueMap (s : State) : exec .queueMap s = execQueueMap s := rfl
theorem exec_queueUnmap (s : State) : exec .queueUnmap s = execQueueUnmap s := rfl

section
variable {s : State} {q k : Nat} {wr : W32}

/-! ### PEND -/

theorem pend_set (p : BitVec 1024) {q j : Nat} (hj : j < 1024) :
    (p ||| BitVec.ofNat 1024 (2 ^ q)).getLsbD j = (p.getLsbD j || decide (j = q)) := by
  rw [BitVec.getLsbD_or, BitVec.getLsbD_ofNat, decide_eq_true hj, Bool.true_and, Nat.testBit_two_pow]
  simp only [eq_comm]

theorem pend_clear (p : BitVec 1024) {q j : Nat} (hj : j < 1024) :
    (p &&& ~~~ BitVec.ofNat 1024 (2 ^ q)).getLsbD j = (p.getLsbD j && decide (j ≠ q)) := by
  rw [BitVec.getLsbD_and, BitVec.getLsbD_not, BitVec.getLsbD_ofNat, decide_eq_true hj, Bool.true_and, Bool.true_and, Nat.testBit_two_pow]
  simp only [eq_comm, decide_not]

/-! ### An error of a queue (R55) -/

/-- A slot with the error code of the queue that is mapped to it. -/
def Slot.erring (x : Slot) (q code : Nat) : Slot :=
  if x.valid && x.qid.toNat == q then { x with err := true, code := BitVec.ofNat 8 code } else x

theorem State.queueErr_slot (s : State) (q code k : Nat) : (s.queueErr q code).slot k = (s.slot k).erring q code := by
  rw [State.slot, State.queueErr, State.setQue_que]
  dsimp only
  rw [Tab.getD, Tab.find_map (g := fun _ x => Slot.erring x q code) (fun _ _ => rfl), State.setDesc_que, State.slot, Tab.getD]
  cases Tab.find s.que.slots k <;> rfl

theorem State.queueErr_que (s : State) (q code : Nat) : (s.queueErr q code).que = { s.que with
    slots := s.que.slots.map fun (k, x) => (k, x.erring q code) } := rfl
theorem State.queueErr_mem (s : State) (q code : Nat) : (s.queueErr q code).mem = (s.setDesc q 24 1 code).mem := rfl

theorem Slot.erring_other {x : Slot} {code : Nat} (h : ¬ (x.valid = true ∧ x.qid.toNat = q)) : x.erring q code = x :=
  if_neg (by simpa using h)

theorem Slot.erring_same {x : Slot} {code : Nat} (hv : x.valid = true) (hq : x.qid.toNat = q) :
    x.erring q code = { x with err := true, code := BitVec.ofNat 8 code } := if_pos (by rw [hv, hq, beq_self_eq_true]; rfl)

theorem Slot.erring_leaving (x : Slot) (q code : Nat) : (x.erring q code).leaving = x.leaving := by
  unfold Slot.erring
  split <;> rfl

theorem Slot.erring_indices (x : Slot) (q code : Nat) : (x.erring q code).notify = x.notify ∧ (x.erring q code).rd = x.rd := by
  unfold Slot.erring
  split <;> exact ⟨rfl, rfl⟩

/-- A queue that is mapped to no slot has its error in its descriptor alone. -/
theorem State.queueErr_unmapped {code : Nat} (h : s.queueSlot q = none) : (s.queueErr q code).que = s.que := by
  have hs : (s.que.slots.map fun (k, x) => (k, x.erring q code)) = s.que.slots := by
    rw [State.queueSlot, Option.map_eq_none_iff, List.find?_eq_none] at h
    refine (List.map_congr_left fun x hx => ?_).trans (List.map_id _)
    have := h x hx
    exact congrArg (Prod.mk x.1) (Slot.erring_other (by simpa using this))
  rw [State.queueErr_que, hs]

theorem descWord_queueErr (hm : Coherent s.mem) {code off n : Nat} (h : off + n ≤ 24 ∨ 25 ≤ off) :
    descWord (s.queueErr q code) q off n = descWord s q off n :=
  (descWord_of_mem (s := s.setDesc q 24 1 code) rfl (s.queueErr_mem q code)).trans (descWord_setDesc_other hm (by decide) h)

theorem descWord_queueErr_code (hm : Coherent s.mem) {code : Nat} (h : code < 256) : descWord (s.queueErr q code) q 24 1 = code :=
  (descWord_of_mem (s := s.setDesc q 24 1 code) rfl (s.queueErr_mem q code)).trans (descWord_setDesc_same hm (by decide) h)

/-! ### Notify (R53) -/

/-- WR is at the device: in the queue's slot, or as SHADOW with PEND. -/
def State.wrTaken (s : State) (q : Nat) (wr : W32) : State :=
  let t := s.setQue { s.que with wr := Tab.set s.que.wr q wr }
  match s.queueSlot q with
  | some k => t.setSlot k { s.slot k with notify := wr }
  | none =>
    let t := t.setDesc q 20 4 wr.toNat
    t.setQue { t.que with pend := t.que.pend ||| BitVec.ofNat 1024 (2 ^ q) }

/-- The queue's RDIDX and settings are read. -/
def State.indexRead (s : State) (q : Nat) : State := ((s.desc q 16 4).2.desc q 8 4).2

theorem State.indexRead_que (s : State) (q : Nat) : (s.indexRead q).que = s.que := by simp [State.indexRead]
theorem State.indexRead_coherent (hm : Coherent s.mem) (q : Nat) : Coherent (s.indexRead q).mem :=
  State.desc_coherent (State.desc_coherent hm)
theorem State.indexRead_sameBytes (hm : Coherent s.mem) (q : Nat) : SameBytes s.mem (s.indexRead q).mem :=
  sameBytes_trans (State.desc_sameBytes hm) (State.desc_sameBytes (State.desc_coherent hm))

/-- The entries between RDIDX and WR are more than the ring holds. -/
def Overfull (s : State) (q : Nat) (wr : W32) : Prop :=
  2 ^ (descWord s q 8 4 % 32) < (wr.toNat + 2 ^ 32 - descWord s q 16 4) % 2 ^ 32

theorem qdLog_eq (w : Nat) : qdLog w = w % 32 := by simp [qdLog, field]

theorem State.notify_eq (hm : Coherent (s.wrTaken q wr).mem) :
    (Overfull (s.wrTaken q wr) q wr → s.notify q wr.toNat = ((s.wrTaken q wr).indexRead q).queueErr q 7) ∧
    (¬ Overfull (s.wrTaken q wr) q wr → s.notify q wr.toNat = (s.wrTaken q wr).indexRead q) := by
  have hlog : qdLog (((s.wrTaken q wr).desc q 16 4).2.desc q 8 4).1 = descWord (s.wrTaken q wr) q 8 4 % 32 := by
    rw [State.desc_value (State.desc_coherent hm), descWord_desc hm, qdLog_eq]
  have h : s.notify q wr.toNat =
      if 2 ^ qdLog (((s.wrTaken q wr).desc q 16 4).2.desc q 8 4).1 <
          (wr.toNat + 2 ^ 32 - ((s.wrTaken q wr).desc q 16 4).1) % 2 ^ 32 then
        ((s.wrTaken q wr).indexRead q).queueErr q 7
      else (s.wrTaken q wr).indexRead q := by
    unfold State.notify State.wrTaken
    dsimp only
    rw [Nat.mod_eq_of_lt wr.isLt, BitVec.ofNat_toNat, BitVec.setWidth_eq]
    rfl
  rw [h, hlog, State.desc_value hm]
  exact ⟨fun ho => if_pos ho, fun ho => if_neg ho⟩

/-- Where a queue is mapped, WR reaches its slot and nothing else. -/
theorem State.wrTaken_mapped (h : s.queueSlot q = some k) : (s.wrTaken q wr).mem = s.mem ∧
    (s.wrTaken q wr).que = { s.que with wr := Tab.set s.que.wr q wr
                                        slots := Tab.set s.que.slots k { s.slot k with notify := wr } } := by
  rw [State.wrTaken, h]
  exact ⟨rfl, rfl⟩

/-- Where it is not, WR becomes SHADOW, and PEND is set. -/
theorem State.wrTaken_unmapped (h : s.queueSlot q = none) : (s.wrTaken q wr).mem = (s.setDesc q 20 4 wr.toNat).mem ∧
    (s.wrTaken q wr).que = { s.que with wr := Tab.set s.que.wr q wr
                                        pend := s.que.pend ||| BitVec.ofNat 1024 (2 ^ q) } := by
  rw [State.wrTaken, h]
  exact ⟨rfl, rfl⟩

theorem State.wrTaken_qtab (s : State) (q : Nat) (wr : W32) : (s.wrTaken q wr).que.qtab = s.que.qtab := by
  cases h : s.queueSlot q with
  | none => rw [(State.wrTaken_unmapped h).2]
  | some k => rw [(State.wrTaken_mapped h).2]

theorem State.wrTaken_coherent (hm : Coherent s.mem) (q : Nat) (wr : W32) : Coherent (s.wrTaken q wr).mem := by
  cases h : s.queueSlot q with
  | none =>
    rw [(State.wrTaken_unmapped h).1]
    exact State.setDesc_coherent hm (by decide)
  | some k => rwa [(State.wrTaken_mapped h).1]

/-- Beside SHADOW of a queue that is not mapped, memory stays. -/
theorem State.wrTaken_byteAt (hm : Coherent s.mem) {a : Nat}
    (ha : (s.queueSlot q).isSome = true ∨ a < s.descAddr q + 20 ∨ s.descAddr q + 24 ≤ a) :
    byteAt (s.wrTaken q wr).mem a = byteAt s.mem a := by
  cases h : s.queueSlot q with
  | none =>
    rw [h] at ha
    rw [(State.wrTaken_unmapped h).1, byteAt_setDesc hm (by decide) (by simpa using ha)]
  | some k => rw [(State.wrTaken_mapped h).1]

theorem descWord_wrTaken (hm : Coherent s.mem) {off n : Nat} (h : off + n ≤ 20 ∨ 24 ≤ off) :
    descWord (s.wrTaken q wr) q off n = descWord s q off n :=
  descWord_congr (s.wrTaken_qtab q wr) fun j hj => State.wrTaken_byteAt hm (.inr (by omega))

theorem overfull_wrTaken (hm : Coherent s.mem) : Overfull (s.wrTaken q wr) q wr ↔ Overfull s q wr := by
  rw [Overfull, descWord_wrTaken hm (by decide), descWord_wrTaken hm (by decide), Overfull]

/-- What a notify does to the slots, to PEND, to the descriptor and to the rest of memory. -/
theorem State.notify_spec (hm : Coherent s.mem) (hr : s.que.slots.Rising) (q : Nat) (wr : W32) :
    (∀ k, s.queueSlot q = some k → ((s.notify q wr.toNat).slot k).notify = wr ∧ ((s.notify q wr.toNat).slot k).rd = (s.slot k).rd ∧
      (s.notify q wr.toNat).que.pend = s.que.pend) ∧
    (s.queueSlot q = none → descWord (s.notify q wr.toNat) q 20 4 = wr.toNat ∧ (s.notify q wr.toNat).que.slots = s.que.slots ∧
      (s.notify q wr.toNat).que.pend = s.que.pend ||| BitVec.ofNat 1024 (2 ^ q)) ∧
    (Overfull s q wr → descWord (s.notify q wr.toNat) q 24 1 = 7 ∧
      ∀ k, s.queueSlot q = some k → ((s.notify q wr.toNat).slot k).err = true ∧ ((s.notify q wr.toNat).slot k).code = 7) ∧
    (¬ Overfull s q wr → ∀ a, (s.queueSlot q).isSome = true ∨ a < s.descAddr q + 20 ∨ s.descAddr q + 24 ≤ a →
      byteAt (s.notify q wr.toNat).mem a = byteAt s.mem a) := by
  have hc := State.wrTaken_coherent hm q wr
  have hi := State.indexRead_coherent hc q
  obtain ⟨hover, hfits⟩ := State.notify_eq hc
  rw [overfull_wrTaken hm] at hover hfits
  have hslot : ∀ k, s.queueSlot q = some k → (((s.wrTaken q wr).indexRead q).slot k) = { s.slot k with notify := wr } := fun k hk => by
    rw [State.slot, State.indexRead_que, (State.wrTaken_mapped hk).2]
    exact Tab.getD_set_same ..
  have hword : ∀ off n, descWord ((s.wrTaken q wr).indexRead q) q off n = descWord (s.wrTaken q wr) q off n := fun off n =>
    descWord_of_sameBytes (by rw [State.indexRead_que]) (State.indexRead_sameBytes hc q)
  have hshadow : s.queueSlot q = none → descWord ((s.wrTaken q wr).indexRead q) q 20 4 = wr.toNat := fun hn => by
    rw [hword, descWord_of_mem (s := s.setDesc q 20 4 wr.toNat) (by rw [State.wrTaken_qtab, State.setDesc_que]) (State.wrTaken_unmapped hn).1,
      descWord_setDesc_same hm (by decide) (W32.lt_bytes wr)]
  have hnone : s.queueSlot q = none → ((s.wrTaken q wr).indexRead q).queueSlot q = none := fun hn => by
    rw [State.queueSlot_of_slots (s := s) (by rw [State.indexRead_que, (State.wrTaken_unmapped hn).2]), hn]
  by_cases ho : Overfull s q wr
  · rw [hover ho]
    refine ⟨fun k hk => ⟨?_, ?_, ?_⟩, fun hn => ⟨?_, ?_, ?_⟩, fun _ => ⟨descWord_queueErr_code hi (by decide), fun k hk => ?_⟩,
      fun h => absurd ho h⟩
    · rw [State.queueErr_slot, (Slot.erring_indices ..).1, hslot k hk]
    · rw [State.queueErr_slot, (Slot.erring_indices ..).2, hslot k hk]
    · rw [State.queueErr_que, State.indexRead_que, (State.wrTaken_mapped hk).2]
    · rw [descWord_queueErr hi (by decide), hshadow hn]
    · rw [State.queueErr_unmapped (hnone hn), State.indexRead_que, (State.wrTaken_unmapped hn).2]
    · rw [State.queueErr_que, State.indexRead_que, (State.wrTaken_unmapped hn).2]
    · obtain ⟨hv, hq⟩ := State.slot_of_queueSlot hr hk
      rw [State.queueErr_slot, hslot k hk, Slot.erring_same (x := { s.slot k with notify := wr }) hv hq]
      exact ⟨rfl, rfl⟩
  · rw [hfits ho]
    refine ⟨fun k hk => ⟨?_, ?_, ?_⟩, fun hn => ⟨hshadow hn, ?_, ?_⟩, fun h => absurd h ho, fun _ a ha => ?_⟩
    · rw [hslot k hk]
    · rw [hslot k hk]
    · rw [State.indexRead_que, (State.wrTaken_mapped hk).2]
    · rw [State.indexRead_que, (State.wrTaken_unmapped hn).2]
    · rw [State.indexRead_que, (State.wrTaken_unmapped hn).2]
    · rw [(State.indexRead_sameBytes hc q).1, State.wrTaken_byteAt hm ha]

/-- NOTIFY_WRITE takes the mark of its cycle, then notifies. -/
theorem notifyWrite_notifies (hq : q < 1024) (hb : s.boot.state ≠ 3) (hr : s.descReady q = true) :
    ∃ t : State, exec .notifyWrite { s with inp := some (.notifyWrite q wr) } = .next (t.notify q wr.toNat) ∧ t.mem = s.mem ∧
      t.que = s.que := by
  rw [exec_notifyWrite, execNotifyWrite]
  dsimp only
  rw [if_neg (by simpa using ⟨hq, hb⟩), if_neg (by rw [show ({ s with inp := none } : State).descReady q = true from hr]; decide)]
  refine ⟨_, rfl, ?_, ?_⟩ <;> split <;> rfl

theorem notifyWrite_waits (hq : q < 1024) (hb : s.boot.state ≠ 3) (hr : s.descReady q = false) :
    exec .notifyWrite { s with inp := some (.notifyWrite q wr) } =
      .next { s with inp := none, que := { s.que with late := s.que.late ++ [.notifyWrite q wr] } } := by
  rw [exec_notifyWrite, execNotifyWrite]
  dsimp only
  rw [if_neg (by simpa using ⟨hq, hb⟩), if_pos (by rw [show ({ s with inp := none } : State).descReady q = false from hr]; rfl)]
  rfl

theorem notifyWrite_spec (hq : q < 1024) (hb : s.boot.state ≠ 3) (hm : Coherent s.mem) (hs : s.que.slots.Rising)
    (hr : s.descReady q = true) : ∃ u : State, exec .notifyWrite { s with inp := some (.notifyWrite q wr) } = .next u ∧
      (∀ k, s.queueSlot q = some k → (u.slot k).notify = wr ∧ (u.slot k).rd = (s.slot k).rd ∧ u.que.pend = s.que.pend) ∧
      (s.queueSlot q = none → descWord u q 20 4 = wr.toNat ∧ u.que.slots = s.que.slots ∧
        ∀ j < 1024, u.que.pend.getLsbD j = (s.que.pend.getLsbD j || decide (j = q))) ∧
      (2 ^ (descWord s q 8 4 % 32) < (wr.toNat + 2 ^ 32 - descWord s q 16 4) % 2 ^ 32 → descWord u q 24 1 = 7 ∧
        ∀ k, s.queueSlot q = some k → (u.slot k).err = true ∧ (u.slot k).code = 7) ∧
      ((wr.toNat + 2 ^ 32 - descWord s q 16 4) % 2 ^ 32 ≤ 2 ^ (descWord s q 8 4 % 32) →
        ∀ a, (s.queueSlot q).isSome = true ∨ a < s.descAddr q + 20 ∨ s.descAddr q + 24 ≤ a → byteAt u.mem a = byteAt s.mem a) := by
  obtain ⟨t, hexec, hmem, hque⟩ := notifyWrite_notifies (wr := wr) hq hb hr
  obtain ⟨hmapped, hunmapped, hover, hfits⟩ := State.notify_spec (s := t) (by rwa [hmem]) (by rwa [hque]) q wr
  have hqs : t.queueSlot q = s.queueSlot q := State.queueSlot_of_slots (by rw [hque]) q
  have hslot : ∀ k, t.slot k = s.slot k := State.slot_of_slots (by rw [hque])
  have hwords : ∀ off n, descWord t q off n = descWord s q off n := fun off n => descWord_of_mem (by rw [hque]) hmem
  have haddr : t.descAddr q = s.descAddr q := by rw [State.descAddr, hque, State.descAddr]
  rw [hqs] at hmapped hunmapped hover hfits
  rw [Overfull, hwords, hwords] at hover hfits
  simp only [hslot, hque] at hmapped
  rw [haddr, hmem, Nat.not_lt] at hfits
  refine ⟨_, hexec, hmapped, fun hn => ?_, hover, hfits⟩
  obtain ⟨hshadow, hslots, hpend⟩ := hunmapped hn
  exact ⟨hshadow, hslots.trans (by rw [hque]), fun j hj => by rw [hpend, hque, pend_set _ hj]⟩

/-! ### QUEUE_MAP (R54) -/

theorem queueMap_waits (hq : q < 1024) (hk : k < 64) (hr : s.descReady q = false) :
    exec .queueMap { s with inp := some (.queueMap q k) } =
      .next { s with inp := none, que := { s.que with late := s.que.late ++ [.queueMap q k] } } := by
  rw [exec_queueMap, execQueueMap]
  dsimp only
  rw [if_neg (by omega), if_pos (by rw [show ({ s with inp := none } : State).descReady q = false from hr]; rfl)]
  rfl

theorem queueMap_maps (hq : q < 1024) (hk : k < 64) (hr : s.descReady q = true) :
    exec .queueMap { s with inp := some (.queueMap q k) } = .next (({ s with inp := none } : State).mapQueue q k) := by
  rw [exec_queueMap, execQueueMap]
  dsimp only
  rw [if_neg (by omega), if_neg (by rw [show ({ s with inp := none } : State).descReady q = true from hr]; decide)]

/-- A queue's SLOT, settings, indices and error are read. -/
def State.descRead (s : State) (q : Nat) : State :=
  (((((s.desc q 25 1).2.desc q 8 4).2.desc q 16 4).2.desc q 20 4).2.desc q 24 1).2

theorem State.descRead_que (s : State) (q : Nat) : (s.descRead q).que = s.que := by simp [State.descRead]
theorem State.descRead_coherent (hm : Coherent s.mem) (q : Nat) : Coherent (s.descRead q).mem := by
  unfold State.descRead
  iterate 5 apply State.desc_coherent
  exact hm

/-- The slot of a queue that is mapped from its descriptor. -/
def mappedSlot (s : State) (q : Nat) : Slot :=
  { qid := BitVec.ofNat 10 q, valid := true, prioMax := BitVec.ofNat 3 (descWord s q 8 4 / 2 ^ 6 % 8),
    err := descWord s q 24 1 != 0, code := BitVec.ofNat 8 (descWord s q 24 1),
    notify := BitVec.ofNat 32 (descWord s q 20 4), rd := BitVec.ofNat 32 (descWord s q 16 4), offer := none }

/-- The descriptor names the slot, and PEND is clear. -/
def State.slotNamed (s : State) (q k : Nat) : State :=
  (s.setDesc q 25 1 k).setQue { (s.setDesc q 25 1 k).que with
    pend := (s.setDesc q 25 1 k).que.pend &&& ~~~ (BitVec.ofNat 1024 (2 ^ q)) }

theorem State.slotNamed_mem (s : State) (q k : Nat) : (s.slotNamed q k).mem = (s.setDesc q 25 1 k).mem := by
  rw [State.slotNamed, State.setQue_mem]
theorem State.slotNamed_que (s : State) (q k : Nat) : (s.slotNamed q k).que = { s.que with
    pend := s.que.pend &&& ~~~ (BitVec.ofNat 1024 (2 ^ q)) } := by
  rw [State.slotNamed, State.setQue_que, State.setDesc_que]
theorem State.setSlot_mem (s : State) (k : Nat) (x : Slot) : (s.setSlot k x).mem = s.mem := by rw [State.setSlot, State.setQue_mem]
theorem State.setSlot_pend (s : State) (k : Nat) (x : Slot) : (s.setSlot k x).que.pend = s.que.pend := by
  rw [State.setSlot, State.setQue_que]
theorem State.setSlot_qtab (s : State) (k : Nat) (x : Slot) : (s.setSlot k x).que.qtab = s.que.qtab := by
  rw [State.setSlot, State.setQue_que]

theorem State.mapQueue_eq (hm : Coherent s.mem) (hfree : (s.slot k).valid = false) (hs : descWord s q 25 1 = 0xFF) :
    s.mapQueue q k = ((s.descRead q).slotNamed q k).setSlot k (mappedSlot s q) := by
  have h1 := State.desc_coherent (q := q) (off := 25) (n := 1) hm
  have h2 := State.desc_coherent (q := q) (off := 8) (n := 4) h1
  have h3 := State.desc_coherent (q := q) (off := 16) (n := 4) h2
  have h4 := State.desc_coherent (q := q) (off := 20) (n := 4) h3
  have hslot : (s.desc q 25 1).2.slot k = s.slot k := State.slot_of_slots (by rw [State.desc_que]) k
  have hprio : ∀ w, qdPrio w = w / 2 ^ 6 % 8 := fun w => by simp [qdPrio, field]
  unfold State.mapQueue mappedSlot
  dsimp only
  rw [State.desc_value hm, hs, hslot, hfree, if_neg (by decide), State.desc_value h1, descWord_desc hm, State.desc_value h2,
    descWord_desc h1, descWord_desc hm, State.desc_value h3, descWord_desc h2, descWord_desc h1, descWord_desc hm, State.desc_value h4,
    descWord_desc h3, descWord_desc h2, descWord_desc h1, descWord_desc hm, hprio, State.slotNamed, State.descRead]

theorem queueMap_spec (hq : q < 1024) (hk : k < 64) (hfree : (s.slot k).valid = false) (hm : Coherent s.mem)
    (hs : descWord s q 25 1 = 0xFF) (hr : s.descReady q = true) : ∃ u : State,
      exec .queueMap { s with inp := some (.queueMap q k) } = .next u ∧ u.slot k = mappedSlot s q ∧ descWord u q 25 1 = k ∧
      (∀ j < 1024, u.que.pend.getLsbD j = (s.que.pend.getLsbD j && decide (j ≠ q))) ∧ ∀ j, j ≠ k → u.slot j = s.slot j := by
  rw [queueMap_maps hq hk hr, State.mapQueue_eq (s := { s with inp := none }) hm hfree hs]
  have hc := State.descRead_coherent (s := { s with inp := none }) hm q
  have hque := State.descRead_que { s with inp := none } q
  generalize ({ s with inp := none } : State).descRead q = t at *
  refine ⟨_, rfl, State.slot_setSlot_same .., ?_, fun j hj => ?_, fun j hj => ?_⟩
  · rw [descWord_of_mem (s := t.setDesc q 25 1 k) (by rw [State.setSlot_qtab, State.slotNamed_que, State.setDesc_que])
      (by rw [State.setSlot_mem, State.slotNamed_mem]), descWord_setDesc_same hc (by decide) (by omega)]
  · rw [State.setSlot_pend, State.slotNamed_que, hque, pend_clear _ hj]
  · rw [State.slot_setSlot_other _ _ hj]
    exact State.slot_of_slots (by rw [State.slotNamed_que, hque]) j

/-! ### QUEUE_UNMAP (R54) -/

theorem queueUnmap_waits (hv : (s.slot k).valid = true) (hr : s.descReady (s.slot k).qid.toNat = false) :
    exec .queueUnmap { s with inp := some (.queueUnmap k) } =
      .next { s with inp := none, que := { s.que with late := s.que.late ++ [.queueUnmap k] } } := by
  have hv' : (({ s with inp := none } : State).slot k).valid = true := hv
  have hr' : ({ s with inp := none } : State).descReady (({ s with inp := none } : State).slot k).qid.toNat = false := hr
  rw [exec_queueUnmap, execQueueUnmap]
  dsimp only
  rw [hv', hr', if_pos (by decide)]
  rfl

theorem queueUnmap_unmaps (hr : s.descReady (s.slot k).qid.toNat = true) :
    exec .queueUnmap { s with inp := some (.queueUnmap k) } = .next (({ s with inp := none } : State).unmapSlot k) := by
  have hr' : ({ s with inp := none } : State).descReady (({ s with inp := none } : State).slot k).qid.toNat = true := hr
  rw [exec_queueUnmap, execQueueUnmap]
  dsimp only
  rw [hr', if_neg (by simp)]

theorem queueUnmap_fetching (hv : (s.slot k).valid = true) (hr : s.descReady (s.slot k).qid.toNat = true) (hf : s.slotFetching k = true) :
    exec .queueUnmap { s with inp := some (.queueUnmap k) } = .next ((Spec.quiet s).setSlot k { s.slot k with leaving := true }) := by
  have hv' : (({ s with inp := none } : State).slot k).valid = true := hv
  have hf' : ({ s with inp := none } : State).slotFetching k = true := hf
  rw [queueUnmap_unmaps hr, State.unmapSlot, hv', hf', if_pos (by decide)]
  rfl

theorem queueUnmap_spec (hv : (s.slot k).valid = true) (hq : q = (s.slot k).qid.toNat) (hm : Coherent s.mem) (hr : s.descReady q = true)
    (hf : s.slotFetching k = false) : ∃ u : State, exec .queueUnmap { s with inp := some (.queueUnmap k) } = .next u ∧
      u.slot k = .reset ∧ descWord u q 20 4 = (s.slot k).notify.toNat ∧ descWord u q 16 4 = (s.slot k).rd.toNat ∧
      descWord u q 25 1 = 0xFF ∧ (s.busy.contains (busyNotify k) = false → u.que.pend = s.que.pend) ∧
      (s.busy.contains (busyNotify k) = true → u.que.pend.getLsbD q = true) ∧ ∀ j, j ≠ k → u.slot j = s.slot j := by
  subst hq
  have hv' : (({ s with inp := none } : State).slot k).valid = true := hv
  have hf' : ({ s with inp := none } : State).slotFetching k = false := hf
  obtain ⟨hnotify, hrd, hslot, -⟩ := descWord_indicesBack (s := { s with inp := none }) hm (k := k) rfl
  have hque := State.freeSlot_que hv'
  have hwords := fun off n => descWord_freeSlot hv' (s.slot k).qid.toNat off n
  have hslots := State.freeSlot_slot hv'
  rw [queueUnmap_unmaps hr, State.unmapSlot, hf', if_neg (by simp)]
  generalize ({ s with inp := none } : State).freeSlot k = u at *
  refine ⟨u, rfl, (hslots k).trans (if_pos rfl), (hwords 20 4).trans hnotify, (hwords 16 4).trans hrd, (hwords 25 1).trans hslot,
    fun hb => ?_, fun hb => ?_, fun j hj => (hslots j).trans (if_neg hj)⟩
  · rw [hque]
    exact if_neg (by rw [State.isBusy, hb]; decide)
  · rw [hque]
    have hset := pend_set s.que.pend (q := (s.slot k).qid.toNat) (j := (s.slot k).qid.toNat) (s.slot k).qid.isLt
    refine (congrArg (BitVec.getLsbD · _) (if_pos hb)).trans (hset.trans ?_)
    simp

end

end Sys2Proof.Machine
end

