-- ==== Sys2Proof/Proofs/SlotFetch.lean ====
section
/-! PROOFS. What a slot does with its head entry (R54 to R57). -/
namespace Sys2Proof.Machine
open Sys2Proof.Spec (Coherent descWord)

theorem exec_slotFetch (s : State) (k : Nat) (bad : Bool) :
    exec .slotFetch { s with inp := some (.slotFetch k bad) } = .next (({ s with inp := none } : State).fetchSlot k bad) := rfl

section
variable {s s1 s2 s3 : State} {k q w ring : Nat} {x : Slot}

/-! ### Reads of a ring leave the queues -/

theorem State.sendReq_que (s : State) (k : ReqKind) (pa size : Nat) (data : List Byte) (acc : Option Nat) (asid tag : Nat)
    (marks : List Bool) (irq : Option Nat) : (s.sendReq k pa size data acc asid tag marks irq).que = s.que := by
  unfold State.sendReq
  dsimp only
  split <;> rfl

theorem State.placeVa_que (s : State) (asid va n : Nat) (write : Bool) : (s.placeVa asid va n write).2.que = s.que := by
  unfold State.placeVa
  split
  · rfl
  · split <;> rfl

theorem State.readWindow_que (s : State) (who : Reader) (asid pa n : Nat) : (s.readWindow who asid pa n).2.que = s.que := by
  unfold State.readWindow
  split
  · rfl
  · split
    · split <;> rfl
    · split
      · rfl
      · exact State.sendReq_que ..

theorem State.readPlace_que (s : State) (who : Reader) (asid : Nat) (pl : Place) (n : Nat) :
    (s.readPlace who asid pl n).2.que = s.que := by
  obtain ⟨m, -, h⟩ := s.readAt_frame pl.kind pl.addr n
  unfold State.readPlace
  split
  · exact State.readWindow_que ..
  · split
    · rfl
    · generalize s.readAt pl.kind pl.addr n = p at h
      obtain ⟨bs, b, t⟩ := p
      have ht : t = s.setMem m := h
      rw [ht]
      rfl

theorem State.readVa_que (s : State) (who : Reader) (asid va n : Nat) : (s.readVa who asid va n).2.que = s.que := by
  have h := s.placeVa_que asid va n false
  unfold State.readVa
  generalize s.placeVa asid va n false = p at h
  obtain ⟨pl | t, u⟩ := p
  all_goals
    dsimp only at h ⊢
    split
  · rfl
  · exact h
  · rfl
  · exact (State.readPlace_que ..).trans h

theorem State.ringEntry_que (s : State) (k w ring i : Nat) : (s.ringEntry k w ring i).2.que = s.que := by
  unfold State.ringEntry State.hostRead
  dsimp only
  split
  · exact State.readVa_que ..
  · split <;> rfl

theorem State.ringEntries_que (k w ring n : Nat) : ∀ (s : State) (i : Nat), (s.ringEntries k w ring i n).2.que = s.que := by
  induction n with
  | zero => exact fun _ _ => rfl
  | succ n ih =>
    intro s i
    have h := s.ringEntry_que k w ring i
    unfold State.ringEntries
    generalize s.ringEntry k w ring i = e at h
    obtain ⟨y, t⟩ := e
    have hrec := ih t ((i + 1) % 2 ^ 32)
    split
    next heq =>
      cases heq
      split
      next heq => exact (congrArg (fun p : Rd × State => p.2.que) heq).symm.trans (hrec.trans h)
      next => exact hrec.trans h
    next => exact h

/-! ### The head entry -/

/-- The packet whose head entry a slot has read. -/
def headLaunch (k q : Nat) (bs : List Byte) : Launch := { bytes := bs, src := .slot k q, prio := 0 }

/-- What a slot does with a head entry that it has read whole and unpoisoned. -/
def State.takeHead (s : State) (k w ring : Nat) (x : Slot) (bs : List Byte) : State :=
  let q := x.qid.toNat
  let head := headLaunch k q bs
  if head.kind = 2 then
    if !s.mayAdvance q || head.compl != 0 && !s.mayWriteVa (qdAsid w) head.compl 8 then s else
    (((s.dropFetches (.slot k)).setSlot k { s.slot k with rd := x.rd + 1 }).setDesc q 16 4 (x.rd + 1).toNat).noop (qdAsid w) head
  else if head.kind = 1 ∧ head.extOk ∧ (x.notify - x.rd).toNat < 1 + head.ext then s
  else
    match s.checkLaunch head (some (qdAsid w)) with
    | some code => (s.dropFetches (.slot k)).queueErr q code
    | none =>
      match s.ringEntries k w ring (x.rd + 1).toNat head.ext with
      | (.waits, s) => s
      | (.ok more none, s) =>
        let s := s.dropFetches (.slot k)
        s.setSlot k { s.slot k with offer := some { head with bytes := bs ++ more, prio := min head.prioField x.prioMax.toNat } }
      | (_, s) => (s.dropFetches (.slot k)).queueErr q 8

/-- A slot with an entry to fetch and no error, offer or word that it leaves; its queue is enabled and its descriptor read. -/
structure Fetches (s s1 s2 : State) (k q w ring : Nat) (x : Slot) : Prop where
  slot : x = s.slot k
  queue : q = x.qid.toNat
  valid : x.valid = true
  good : x.err = false
  stays : x.leaving = false
  ready : s.descReady q = true
  free : x.offer = none
  more : x.notify ≠ x.rd
  settings : s.desc q 8 4 = (w, s1)
  enabled : w.testBit 28 = true
  base : s1.desc q 0 8 = (ring, s2)

theorem Fetches.que (h : Fetches s s1 s2 k q w ring x) : s2.que = s.que := by
  have h1 := s.desc_que q 8 4
  have h2 := s1.desc_que q 0 8
  rw [h.settings] at h1
  rw [h.base] at h2
  exact h2.trans h1

/-- A slot that fetches goes by the entry that it reads. -/
theorem Fetches.fetchHead (h : Fetches s s1 s2 k q w ring x) (bad : Bool) : s.fetchHead k bad =
    if bad then s2.queueErr q 8 else
    match s2.ringEntry k w ring x.rd.toNat with
    | (.waits, t) => t
    | (.ok bs none, t) => t.takeHead k w ring x bs
    | (_, t) => (t.dropFetches (.slot k)).queueErr q 8 := by
  obtain ⟨rfl, rfl, hv, he, -, -, ho, hn, hset, hen, hbase⟩ := h
  have hpend : ((s.slot k).notify - (s.slot k).rd).toNat ≠ 0 := fun h0 => hn (by bv_omega)
  have hskip : ¬ ((!(s.slot k).valid || (s.slot k).err || (s.slot k).offer.isSome || !qdEn w ||
      ((s.slot k).notify - (s.slot k).rd).toNat == 0) = true) := by
    rw [hv, he, ho, qdEn, bit_eq_testBit, hen]
    simpa using hpend
  unfold State.fetchHead
  dsimp only
  rw [hset]
  dsimp only
  rw [if_neg hskip, hbase]
  rfl

theorem State.fetchSlot_stays {bad : Bool} (hr : s.descReady (s.slot k).qid.toNat = true)
    (hl : ((s.fetchHead k bad).slot k).leaving = false) : s.fetchSlot k bad = s.fetchHead k bad := by
  rw [State.fetchSlot, hr]
  dsimp only
  rw [if_neg (by simp), hl]
  rfl

/-- What a slot that fetches comes to is what `fetchHead` does, where it leaves the slot in its place. -/
theorem Fetches.fetchSlot {bad : Bool} {u : State} (h : Fetches s s1 s2 k q w ring x) (hu : s.fetchHead k bad = u)
    (hl : (u.slot k).leaving = false) : s.fetchSlot k bad = u := by
  have hr := h.ready
  rw [h.queue, h.slot] at hr
  rw [State.fetchSlot_stays hr (by rwa [hu]), hu]

theorem State.queueErr_leaving {code : Nat} : ((s.queueErr q code).slot k).leaving = (s.slot k).leaving := by
  rw [State.queueErr_slot, Slot.erring_leaving]

theorem State.dropFetches_slot (s : State) (who : Reader) (k : Nat) : (s.dropFetches who).slot k = s.slot k := rfl

/-- Wherever the queues are as they were, the slot stays. -/
theorem Fetches.slot_eq (h : Fetches s s1 s2 k q w ring x) {t : State} (ht : t.que = s.que) : t.slot k = x := by
  rw [State.slot_of_slots (s := s) (by rw [ht]), h.slot]

theorem Fetches.leaving (h : Fetches s s1 s2 k q w ring x) {t : State} (ht : t.que = s.que) : (t.slot k).leaving = false := by
  rw [h.slot_eq ht, h.stays]

/-! ### The cases of R55 to R57 -/

theorem Fetches.bad (h : Fetches s s1 s2 k q w ring x) : s.fetchSlot k true = s2.queueErr q 8 :=
  h.fetchSlot (h.fetchHead true) (by rw [State.queueErr_leaving, h.leaving h.que])

theorem Fetches.waits (h : Fetches s s1 s2 k q w ring x) (hr : s2.ringEntry k w ring x.rd.toNat = (.waits, s3)) :
    s.fetchSlot k false = s3 := by
  have hq := s2.ringEntry_que k w ring x.rd.toNat
  rw [hr] at hq
  refine h.fetchSlot ?_ (h.leaving (hq.trans h.que))
  rw [h.fetchHead, hr]
  rfl

theorem Fetches.refused {y : Rd} (h : Fetches s s1 s2 k q w ring x) (hr : s2.ringEntry k w ring x.rd.toNat = (y, s3))
    (hy : (∃ t, y = .fault t) ∨ ∃ bs src, y = .ok bs (some src)) :
    s.fetchSlot k false = (s3.dropFetches (.slot k)).queueErr q 8 := by
  have hq := s2.ringEntry_que k w ring x.rd.toNat
  rw [hr] at hq
  refine h.fetchSlot ?_ ?_
  · rw [h.fetchHead, hr]
    obtain ⟨t, rfl⟩ | ⟨bs, src, rfl⟩ := hy <;> rfl
  · rw [State.queueErr_leaving, State.dropFetches_slot, h.leaving (hq.trans h.que)]

/-- A head entry that was read is what the slot goes by. -/
theorem Fetches.reads {bs : List Byte} {u : State} (h : Fetches s s1 s2 k q w ring x)
    (hr : s2.ringEntry k w ring x.rd.toNat = (.ok bs none, s3)) (hu : s3.takeHead k w ring x bs = u) (hl : (u.slot k).leaving = false) :
    s.fetchSlot k false = u := by
  refine h.fetchSlot ?_ hl
  rw [h.fetchHead, hr]
  exact hu

/-! ### What is done with the entry -/

theorem extOk_iff (l : Launch) : l.extOk = true ↔ l.argc ≤ 64 ∧ l.ext = if l.argc ≤ 8 then 0 else if l.argc ≤ 40 then 1 else 2 := by
  rw [Launch.extOk, Bool.and_eq_true, decide_eq_true_eq, beq_iff_eq, extFor]

theorem qdAsid_eq (w : Nat) : qdAsid w = w / 2 ^ 9 % 256 := rfl

variable {bs : List Byte}

/-- A packet that has not all been notified waits. -/
theorem State.takeHead_part (h1 : (headLaunch k x.qid.toNat bs).kind = 1) (he : (headLaunch k x.qid.toNat bs).extOk = true)
    (hn : (x.notify - x.rd).toNat < 1 + (headLaunch k x.qid.toNat bs).ext) : s.takeHead k w ring x bs = s := by
  unfold State.takeHead
  dsimp only
  rw [if_neg (by rw [h1]; decide), if_pos ⟨h1, he, hn⟩]

/-- A whole packet is checked. -/
theorem State.takeHead_whole (h2 : (headLaunch k x.qid.toNat bs).kind ≠ 2)
    (hn : ¬ ((headLaunch k x.qid.toNat bs).kind = 1 ∧ (headLaunch k x.qid.toNat bs).extOk = true ∧
      (x.notify - x.rd).toNat < 1 + (headLaunch k x.qid.toNat bs).ext)) :
    s.takeHead k w ring x bs =
      match s.checkLaunch (headLaunch k x.qid.toNat bs) (some (qdAsid w)) with
      | some code => (s.dropFetches (.slot k)).queueErr x.qid.toNat code
      | none =>
        match s.ringEntries k w ring (x.rd + 1).toNat (headLaunch k x.qid.toNat bs).ext with
        | (.waits, s) => s
        | (.ok more none, s) =>
          (s.dropFetches (.slot k)).setSlot k { (s.dropFetches (.slot k)).slot k with
            offer := some { headLaunch k x.qid.toNat bs with
              bytes := bs ++ more
              prio := min (headLaunch k x.qid.toNat bs).prioField x.prioMax.toNat } }
        | (_, s) => (s.dropFetches (.slot k)).queueErr x.qid.toNat 8 := by
  unfold State.takeHead
  dsimp only
  rw [if_neg h2, if_neg hn]

/-- A no-operation entry without a completion word moves RD and RDIDX once they may be moved. -/
theorem State.takeHead_noop (h2 : (headLaunch k x.qid.toNat bs).kind = 2) (hc : (headLaunch k x.qid.toNat bs).compl = 0) :
    s.takeHead k w ring x bs =
      if s.mayAdvance x.qid.toNat then
        ((s.dropFetches (.slot k)).setSlot k { s.slot k with rd := x.rd + 1 }).setDesc x.qid.toNat 16 4 (x.rd + 1).toNat
      else s := by
  unfold State.takeHead State.noop
  dsimp only
  rw [if_pos h2, if_pos hc, hc]
  cases s.mayAdvance x.qid.toNat <;> rfl

section
variable (h : Fetches s s1 s2 k q w ring x) (hr : s2.ringEntry k w ring x.rd.toNat = (.ok bs none, s3))
include h hr

theorem Fetches.read_que : s3.que = s.que := by
  have hq := s2.ringEntry_que k w ring x.rd.toNat
  rw [hr] at hq
  exact hq.trans h.que

theorem Fetches.waits_rest (h1 : (headLaunch k q bs).kind = 1) (he : (headLaunch k q bs).extOk = true)
    (hn : (x.notify - x.rd).toNat < 1 + (headLaunch k q bs).ext) : s.fetchSlot k false = s3 := by
  have hq := h.queue
  subst hq
  exact h.reads hr (State.takeHead_part h1 he hn) (h.leaving (h.read_que hr))

theorem Fetches.noop_waits (h2 : (headLaunch k q bs).kind = 2) (hc : (headLaunch k q bs).compl = 0) (ha : s3.mayAdvance q = false) :
    s.fetchSlot k false = s3 := by
  have hq := h.queue
  subst hq
  exact h.reads hr (by rw [State.takeHead_noop h2 hc, ha]; rfl) (h.leaving (h.read_que hr))

theorem Fetches.noop_moves (h2 : (headLaunch k q bs).kind = 2) (hc : (headLaunch k q bs).compl = 0) (ha : s3.mayAdvance q = true) :
    (s.fetchSlot k false).slot k = { x with rd := x.rd + 1 } ∧
      (Coherent s3.mem → descWord (s.fetchSlot k false) q 16 4 = (x.rd + 1).toNat) := by
  have hq := h.queue
  subst hq
  have hx := h.slot_eq (h.read_que hr)
  have hslot : ∀ t : State, ((t.setSlot k { x with rd := x.rd + 1 }).setDesc x.qid.toNat 16 4 (x.rd + 1).toNat).slot k =
      { x with rd := x.rd + 1 } := fun t => by
    rw [State.slot_of_slots (s := t.setSlot k { x with rd := x.rd + 1 }) (by rw [State.setDesc_que]), State.slot_setSlot_same]
  have hf := h.reads hr (by rw [State.takeHead_noop h2 hc, ha, if_pos rfl, hx]) (by rw [hslot]; exact h.stays)
  rw [hf]
  refine ⟨hslot _, fun hm => descWord_setDesc_same ?_ (by decide) (W32.lt_bytes _)⟩
  rw [State.setSlot_mem]
  exact hm

section
variable (h2 : (headLaunch k q bs).kind ≠ 2)
  (hn : ¬ ((headLaunch k q bs).kind = 1 ∧ (headLaunch k q bs).extOk = true ∧ (x.notify - x.rd).toNat < 1 + (headLaunch k q bs).ext))
include h2 hn

theorem Fetches.rejects {c : Nat} (hc : s3.checkLaunch (headLaunch k q bs) (some (qdAsid w)) = some c) :
    s.fetchSlot k false = (s3.dropFetches (.slot k)).queueErr q c := by
  have hq := h.queue
  subst hq
  refine h.reads hr (by rw [State.takeHead_whole h2 hn, hc]) ?_
  rw [State.queueErr_leaving, State.dropFetches_slot, h.leaving (h.read_que hr)]

variable (hc : s3.checkLaunch (headLaunch k q bs) (some (qdAsid w)) = none)
include hc

theorem Fetches.waits_more {s4 : State} (hm : s3.ringEntries k w ring (x.rd + 1).toNat (headLaunch k q bs).ext = (.waits, s4)) :
    s.fetchSlot k false = s4 := by
  have hq := h.queue
  subst hq
  have hq4 := State.ringEntries_que k w ring (headLaunch k x.qid.toNat bs).ext s3 (x.rd + 1).toNat
  rw [hm] at hq4
  exact h.reads hr (by rw [State.takeHead_whole h2 hn, hc, hm]) (h.leaving (hq4.trans (h.read_que hr)))

theorem Fetches.offers {s4 : State} {more : List Byte}
    (hm : s3.ringEntries k w ring (x.rd + 1).toNat (headLaunch k q bs).ext = (.ok more none, s4)) :
    (s.fetchSlot k false).mem = s4.mem ∧ (s.fetchSlot k false).slot k = { x with
      offer := some { bytes := bs ++ more, src := .slot k q, prio := min (headLaunch k q bs).prioField x.prioMax.toNat } } := by
  have hq := h.queue
  subst hq
  have hq4 := State.ringEntries_que k w ring (headLaunch k x.qid.toNat bs).ext s3 (x.rd + 1).toNat
  rw [hm] at hq4
  have hx := h.slot_eq (hq4.trans (h.read_que hr))
  have hu : s3.takeHead k w ring x bs = (s4.dropFetches (.slot k)).setSlot k { x with
      offer := some { bytes := bs ++ more, src := .slot k x.qid.toNat, prio := min (headLaunch k x.qid.toNat bs).prioField x.prioMax.toNat } } := by
    rw [State.takeHead_whole h2 hn, hc, hm]
    dsimp only
    rw [State.dropFetches_slot, hx]
    rfl
  have hf := h.reads hr hu (by rw [State.slot_setSlot_same]; exact h.stays)
  rw [hf]
  exact ⟨State.setSlot_mem .., State.slot_setSlot_same ..⟩

end
end

/-! ### A slot that is left (R54) -/

theorem State.dropFetches_slotFetching (s : State) (k : Nat) : (s.dropFetches (.slot k)).slotFetching k = false := by
  unfold State.slotFetching State.dropFetches
  rw [State.setLnk_lnk]
  simp

/-- An unmapped slot whose packet has come is free. -/
theorem State.fetchSlot_leaves (hv : (s.slot k).valid = true) (hr : s.descReady (s.slot k).qid.toNat = true)
    (hl : (s.slot k).leaving = true) (ho : (s.slot k).offer ≠ none) : (s.fetchSlot k false).slot k = .reset := by
  have hd := s.desc_que (s.slot k).qid.toNat 8 4
  have hhead : s.fetchHead k false = (s.desc (s.slot k).qid.toNat 8 4).2.dropFetches (.slot k) := by
    unfold State.fetchHead
    dsimp only
    rw [if_pos (by simp [Option.isSome_iff_ne_none.mpr ho])]
  generalize (s.desc (s.slot k).qid.toNat 8 4).2 = t at hd hhead
  have ht : (t.dropFetches (.slot k)).slot k = s.slot k := by
    rw [State.dropFetches_slot]
    exact State.slot_of_slots (by rw [hd]) k
  unfold State.fetchSlot
  dsimp only
  rw [hr, if_neg (by simp), hhead, ht, hl, State.dropFetches_slotFetching, if_pos (by decide),
    State.freeSlot_slot (by rw [ht]; exact hv), if_pos rfl]

end

end Sys2Proof.Machine
end

