-- ==== Sys2Proof/Proofs/QueueEvents.lean ====
section
/-! PROOFS. The rack scheduler's rings (R60, R61), and O37 as a whole. -/
namespace Sys2Proof.Machine
open Sys2Proof.Spec (Coherent descWord)

section
variable {s : State}

theorem exec_rackRingWrite (s : State) : exec .rackRingWrite s = execRackRingWrite s := rfl
theorem exec_rackEthernetLaunch (s : State) : exec .rackEthernetLaunch s = execRackEthernetLaunch s := rfl
theorem exec_rackLaunchConsume (s : State) : exec .rackLaunchConsume s = execRackLaunchConsume s := rfl

/-! ### A report leaves the rings -/

theorem State.reportTo_que (s : State) (a : Nat) (bs : List Byte) : (s.reportTo a bs).que = s.que := by
  unfold State.reportTo
  dsimp only
  split
  · exact State.writeAt_global_que ..
  · split
    · rfl
    · split
      · rfl
      · exact State.sendReq_que ..

theorem State.report_que (s : State) (l : Launch) (event code : Nat) (region : Option (Nat × Nat × Nat)) :
    (s.report l event code region).que = s.que := by
  unfold State.report
  dsimp only
  split
  · rfl
  · split
    · exact State.reportTo_que ..
    · rfl
    · rfl

/-! ### The launch window (R60) -/

variable {peer off : Nat} {data : List Byte}

theorem rackRingWrite_turnsAway (hb : s.boot.state ≠ 3) (ht : s.lnk.turnsAway peer = true) :
    exec .rackRingWrite { s with inp := some (.rackRingWrite peer off data) } =
      .next { s with inp := none, out := s.out ++ [.ualinkError peer] } := by
  rw [exec_rackRingWrite, execRackRingWrite]
  dsimp only
  rw [if_neg hb, if_pos ht]
  rfl

/-- One entry of the window is what `rackEntry` makes of it. -/
theorem rackRingWrite_entry (hb : s.boot.state ≠ 3) (ht : s.lnk.turnsAway peer = false) (hl : data.length = 128) (ha : off % 128 = 0)
    (hin : off + 128 ≤ 0x8000) : exec .rackRingWrite { s with inp := some (.rackRingWrite peer off data) } =
      .next ((({ s with inp := none } : State).rackEntry (off / 128) data).emitOut (.ualinkReply peer [] [])) := by
  rw [exec_rackRingWrite, execRackRingWrite]
  dsimp only
  rw [if_neg hb, if_neg (by rw [ht]; decide), State.rackWrite, if_pos ⟨by rw [hl]; exact hin, hl, ha⟩]

theorem rackWritten_set (p : BitVec 256) {i j : Nat} (hj : j < 256) :
    (p ||| BitVec.ofNat 256 (2 ^ i)).getLsbD j = (p.getLsbD j || decide (j = i)) := by
  rw [BitVec.getLsbD_or, BitVec.getLsbD_ofNat, Nat.testBit_two_pow, decide_eq_true hj, Bool.true_and]
  simp only [eq_comm]

theorem rackEntry_free {i : Nat} (hf : s.que.rackWritten.getLsbD i = false) :
    s.rackEntry i data = s.setQue { s.que with
      rackWritten := s.que.rackWritten ||| BitVec.ofNat 256 (2 ^ i)
      rackRing := writeCells s.que.rackRing (128 * i) data } := by
  rw [State.rackEntry, if_neg (by rw [hf]; decide)]

/-- An entry that is written already is dropped: its place keeps what it held, and the drop is counted. -/
theorem rackEntry_full {i : Nat} (hf : s.que.rackWritten.getLsbD i = true) : (s.rackEntry i data).que = { s.que with
    rackDrops := BitVec.ofNat 16 (satTo 16 (s.que.rackDrops.toNat + 1)) } := by
  rw [State.rackEntry, if_pos hf, State.report_que]
  rfl

theorem satTo_count (n : BitVec 16) : (BitVec.ofNat 16 (satTo 16 (n.toNat + 1))).toNat = min 0xFFFF (n.toNat + 1) := by
  rw [BitVec.toNat_ofNat, satTo]
  have := n.isLt
  omega

section
variable (hb : s.boot.state ≠ 3) (ht : s.lnk.turnsAway peer = false) (hl : data.length = 128) (ha : off % 128 = 0)
  (hin : off + 128 ≤ 0x8000)
include hb ht hl ha hin

theorem rackRingWrite_written (hw : Tab.wf 0 s.que.rackRing = true) (hf : s.que.rackWritten.getLsbD (off / 128) = false) :
    ∃ u : State, exec .rackRingWrite { s with inp := some (.rackRingWrite peer off data) } = .next u ∧
      (∀ j < 256, u.que.rackWritten.getLsbD j = (s.que.rackWritten.getLsbD j || decide (j = off / 128))) ∧
      (∀ a, Tab.getD u.que.rackRing a 0 = if off ≤ a ∧ a < off + 128 then data.getD (a - off) 0 else Tab.getD s.que.rackRing a 0) ∧
      u.out = s.out ++ [.ualinkReply peer [] []] := by
  have hoff : 128 * (off / 128) = off := by omega
  refine ⟨_, rackRingWrite_entry hb ht hl ha hin, ?_⟩
  rw [rackEntry_free (s := { s with inp := none }) hf]
  refine ⟨fun j hj => rackWritten_set _ hj, fun a => ?_, rfl⟩
  have hcell := getD_writeCells hw off a data
  rw [hl] at hcell
  exact (congrArg (fun o => Tab.getD (writeCells s.que.rackRing o data) a 0) hoff).trans hcell

theorem rackRingWrite_dropped (hf : s.que.rackWritten.getLsbD (off / 128) = true) :
    ∃ u : State, exec .rackRingWrite { s with inp := some (.rackRingWrite peer off data) } = .next u ∧
      u.que.rackRing = s.que.rackRing ∧ u.que.rackWritten = s.que.rackWritten ∧
      u.que.rackDrops.toNat = min 0xFFFF (s.que.rackDrops.toNat + 1) := by
  refine ⟨_, rackRingWrite_entry hb ht hl ha hin, ?_⟩
  have hq := rackEntry_full (s := { s with inp := none }) (data := data) hf
  generalize ({ s with inp := none } : State).rackEntry (off / 128) data = t at hq
  change t.que.rackRing = _ ∧ t.que.rackWritten = _ ∧ t.que.rackDrops.toNat = _
  rw [hq]
  exact ⟨rfl, rfl, satTo_count _⟩

end

/-! ### The Ethernet ring (R61) -/

variable {msg : List Byte}

theorem rackEthernetLaunch_silent (h : s.boot.state = 3 ∨ s.lnk.ethFor 0 = none) :
    exec .rackEthernetLaunch { s with inp := some (.rackEthernetLaunch msg) } = .next { s with inp := none } := by
  rw [exec_rackEthernetLaunch, execRackEthernetLaunch]
  dsimp only
  rw [if_pos h]

theorem rackEthernetLaunch_enters (hb : s.boot.state ≠ 3) (he : s.lnk.ethFor 0 ≠ none) (hl : msg.length = 128 * (1 + bytesAt msg 10 1)) :
    exec .rackEthernetLaunch { s with inp := some (.rackEthernetLaunch msg) } = .next { s with
      inp := none
      que := { s.que with
        ethSeq := s.que.ethSeq + 1
        ethRing := s.que.ethRing ++ [(s.que.ethSeq, msg)] } } := by
  rw [exec_rackEthernetLaunch, execRackEthernetLaunch]
  dsimp only
  rw [if_neg (by rintro (h | h); exacts [hb h, he h]), if_pos hl]
  rfl

/-! ### The head launch (R61) -/

variable {eth : Bool} {l : Launch}

/-- A head launch that does nothing else than launch goes by its checks. -/
theorem rackLaunchConsume_head (ho : (if eth then s.que.ethOffer else s.que.rackOffer) = none) (hh : s.rackHead eth = some l)
    (hk : l.kind ≠ 2) : exec .rackLaunchConsume { s with inp := some (.rackLaunchConsume eth) } =
      match s.checkLaunch l none with
      | some code => .next ((({ s with inp := none } : State).rackDrop eth l).report l evRejected code none)
      | none => .next (({ s with inp := none } : State).setQue
          (if eth then { s.que with ethOffer := some l } else { s.que with rackOffer := some l })) := by
  have hhead : ({ s with inp := none } : State).rackHead eth = some l := hh
  rw [exec_rackLaunchConsume, execRackLaunchConsume]
  dsimp only
  rw [ho, if_neg (by decide), hhead]
  dsimp only
  rw [if_neg hk]
  rfl

theorem rackLaunchConsume_rejects (ho : (if eth then s.que.ethOffer else s.que.rackOffer) = none) (hh : s.rackHead eth = some l)
    (hk : l.kind ≠ 2) {c : Nat} (hc : s.checkLaunch l none = some c) :
    exec .rackLaunchConsume { s with inp := some (.rackLaunchConsume eth) } =
      .next ((({ s with inp := none } : State).rackDrop eth l).report l 5 c none) := by
  rw [rackLaunchConsume_head ho hh hk, hc]
  rfl

theorem rackLaunchConsume_offers (ho : (if eth then s.que.ethOffer else s.que.rackOffer) = none) (hh : s.rackHead eth = some l)
    (hk : l.kind ≠ 2) (hc : s.checkLaunch l none = none) :
    exec .rackLaunchConsume { s with inp := some (.rackLaunchConsume eth) } = .next { s with
      inp := none
      que := if eth then { s.que with ethOffer := some l } else { s.que with rackOffer := some l } } := by
  rw [rackLaunchConsume_head ho hh hk, hc]
  rfl

end

/-- Settles O37: a clause for each event of the queues, from what a notify, a map, a slot and a rack ring come to. -/
theorem queueEvents : Obligations.QueueEvents := by
  unfold Obligations.QueueEvents
  refine ⟨?notify, ?map, ?unmap, ?fetch, ?turned, ?ring, ?silent, ?ethernet, ?consume⟩
  case notify =>
    intro s q wr hq hb hm hs
    exact ⟨fun hr => notifyWrite_waits hq hb hr, fun hr => notifyWrite_spec hq hb hm hs hr⟩
  case map =>
    intro s q k hq hk hfree hm hd
    exact ⟨fun hr => queueMap_waits hq hk hr, fun hr => queueMap_spec hq hk hfree hm hd hr⟩
  case unmap =>
    intro s k q hv hq hm
    refine ⟨fun hr => ?_, fun hr hf => ?_, fun hr hl ho => ?_, fun hr hf => queueUnmap_spec hv hq hm hr hf⟩
    · exact queueUnmap_waits hv (hq ▸ hr)
    · exact queueUnmap_fetching hv (hq ▸ hr) hf
    · exact ⟨_, exec_slotFetch s k false, State.fetchSlot_leaves (s := { s with inp := none }) hv (hq ▸ hr) hl ho⟩
  case fetch =>
    intro s s1 s2 k q w ring x hx hq hv he hl hr ho hn hset hen hbase
    have h : Fetches { s with inp := none } s1 s2 k q w ring x := ⟨hx, hq, hv, he, hl, hr, ho, hn, hset, hen, hbase⟩
    refine ⟨?_, fun y s3 hread => ⟨?_, ?_⟩, ?_⟩
    · rw [exec_slotFetch, h.bad]
    · rintro rfl
      rw [exec_slotFetch, h.waits hread]
    · intro hy
      rw [exec_slotFetch, h.refused hread hy]
    rintro bs s3 l hread rfl
    refine ⟨fun h2 hn => ?_, fun h1 hargc hext hn => ?_, fun h2 hc ha => ?_, fun h2 hc ha => ?_⟩
    · replace hn : ¬ ((headLaunch k q bs).kind = 1 ∧ (headLaunch k q bs).extOk = true ∧
          (x.notify - x.rd).toNat < 1 + (headLaunch k q bs).ext) := by
        rw [extOk_iff]
        rintro ⟨h1, ⟨hargc, hext⟩, hlt⟩
        exact hn ⟨h1, hargc, hext, hlt⟩
      refine ⟨fun c hc => ?_, fun hc s4 hm => ?_, fun hc more s4 hm => ?_⟩
      · rw [exec_slotFetch, h.rejects hread h2 hn hc]
      · rw [exec_slotFetch, h.waits_more hread h2 hn hc hm]
      · exact ⟨_, exec_slotFetch s k false, h.offers hread h2 hn hc hm⟩
    · rw [exec_slotFetch, h.waits_rest hread h1 ((extOk_iff _).mpr ⟨hargc, hext⟩) hn]
    · rw [exec_slotFetch, h.noop_waits hread h2 hc ha]
    · exact ⟨_, exec_slotFetch s k false, h.noop_moves hread h2 hc ha⟩
  case turned => exact fun s peer off data hb ht => rackRingWrite_turnsAway hb ht
  case ring =>
    intro s peer off data hb ht hl ha hin hw
    exact ⟨fun hf => rackRingWrite_written hb ht hl ha hin hw hf, fun hf => rackRingWrite_dropped hb ht hl ha hin hf⟩
  case silent => exact fun s msg h => rackEthernetLaunch_silent h
  case ethernet => exact fun s msg hb he hl => rackEthernetLaunch_enters hb he hl
  case consume =>
    intro s eth l ho hh hk
    exact ⟨fun c hc => rackLaunchConsume_rejects ho hh hk hc, fun hc => rackLaunchConsume_offers ho hh hk hc⟩

end Sys2Proof.Machine
end

