-- ==== Sys2Proof/Proofs/Dispatcher.lean ====
section
/-! PROOFS. What a tick of the dispatcher does to the launches held before it (R71, R72): O43 fails. -/
namespace Sys2Proof.Machine

section
variable {s : State} {lid k : Nat} {x h : HeldLaunch} {l : Launch}

/-! ### A pass over semaphores, and the launches beside its own -/

theorem mem_setHeld (hx : x.lid ≠ h.lid) : x ∈ (s.setHeld h).sch.held ↔ x ∈ s.sch.held := by
  rw [State.setHeld, State.setSch_sch, List.mem_map]
  constructor
  · rintro ⟨y, hy, heq⟩
    split at heq
    next => exact absurd (congrArg HeldLaunch.lid heq).symm hx
    next => exact heq ▸ hy
  · exact fun hm => ⟨x, hm, if_neg hx⟩

theorem State.held?_spec (hh : s.held? lid = some h) : h ∈ s.sch.held ∧ h.lid = lid :=
  ⟨List.mem_of_find?_eq_some hh, by simpa using List.find?_some hh⟩

/-- A pass over a launch without semaphores leaves the other launches. -/
theorem mem_semPass (hx : x.lid ≠ lid) (hn : ∀ h ∈ s.sch.held, h.lid = lid → h.launch.nsem = 0) :
    x ∈ (s.semPass lid).sch.held ↔ x ∈ s.sch.held := by
  unfold State.semPass
  split
  next => rfl
  next h hh =>
    obtain ⟨hm, rfl⟩ := State.held?_spec hh
    split
    next => rfl
    next =>
      rw [hn h hm rfl, List.range_zero, State.readSems]
      exact mem_setHeld hx

/-! ### A launch enters the dispatcher -/

/-- What a tick makes of the launch that it takes from source `k`, before its semaphores are read. -/
def State.entered (s : State) (k : Nat) (l : Launch) : State :=
  let s := (s.setSch { s.sch with lastTick := s.units }).takeOffer k l
  (s.setSch { s.sch with lastSource := k }).hold l false none

theorem exec_dispatchTick (s : State) : exec .dispatchTick s = execDispatchTick s := rfl

/-- A tick that is due, and whose source may give its launch up, takes it. -/
theorem dispatchTick_enters (ht : s.sch.lastTick + 554400 ≤ s.units) (hn : s.nextSource = some (k, l)) (hm : s.mayTakeOffer k = true) :
    exec .dispatchTick { s with inp := some .dispatchTick } =
      .next ((({ s with inp := none } : State).entered k l).semPass
        ((({ s with inp := none } : State).setSch { s.sch with lastTick := s.units }).takeOffer k l).sch.nextLid) := by
  have hn' : ({ s with inp := none } : State).nextSource = some (k, l) := hn
  have hm' : ({ s with inp := none } : State).mayTakeOffer k = true := hm
  have ht' : ¬ s.units < s.sch.lastTick + unitsPerUs / 10 := Nat.not_lt.mpr ht
  rw [exec_dispatchTick, execDispatchTick]
  dsimp only
  rw [if_neg ht', hn']
  dsimp only
  rw [hm', if_neg (by decide)]
  rfl

/-- The write of a descriptor makes every held launch read its semaphores again. -/
theorem State.setDesc_sch (s : State) (q off n v : Nat) : (s.setDesc q off n v).sch = { s.sch with
    held := s.sch.held.map fun h => { h with dirty := true } } := rfl

/-- So a tick that takes a slot's launch does, with its write of RDIDX. -/
theorem State.takeOffer_sch (hk : k < 64) : (s.takeOffer k l).sch = { s.sch with
    held := s.sch.held.map fun h => { h with dirty := true } } := by
  rw [State.takeOffer, if_pos hk]
  rfl

theorem mem_entered (hk : k < 64) (hx : x ∈ (s.entered k l).sch.held) :
    (∃ y ∈ s.sch.held, x = { y with dirty := true }) ∨ x.lid = s.sch.nextLid ∧ x.launch = l := by
  unfold State.entered State.hold at hx
  dsimp only at hx
  rw [State.setSch_sch, State.setSch_sch, State.takeOffer_sch hk, List.mem_append, List.mem_map, List.mem_singleton] at hx
  obtain ⟨y, hy, rfl⟩ | rfl := hx
  · exact .inl ⟨y, hy, rfl⟩
  · exact .inr ⟨rfl, rfl⟩

end

/-! ### A launch that is held while a slot's launch is taken -/

/-- A child launch that waits for a semaphore to reach 1, and has read it since the last write. -/
def waitingChild : HeldLaunch where
  lid := 0
  launch :=
    { bytes := [1, 0, 0, 0, 0, 0, 0, 0, 1, 0, 0, 1] ++ List.replicate 28 0 ++ [1]
      src := .child 0
      prio := 0 }
  placeable := none
  lastRead := 0
  dirty := false
  image := none
  entered := (0, 0)

/-- A packet of KIND 1 with one thread and no semaphores, of queue 0 in slot 0. -/
def slotLaunch : Launch := { bytes := [1, 0, 0, 0, 0, 0, 0, 0, 1], src := .slot 0 0, prio := 0 }

/-- The package 100 ns after reset, with the child launch in the dispatcher and the packet offered. -/
def tickDue : State := { State.reset with
  units := 554400
  que := { Queues.reset with slots := [(0, { Slot.reset with
    valid := true
    notify := 1
    offer := some slotLaunch })] }
  sch := { Sched.reset with
    held := [waitingChild]
    nextLid := 1 } }

theorem tickDue_takes : tickDue.nextSource = some (0, slotLaunch) := by decide
theorem tickDue_advances : tickDue.mayAdvance (tickDue.slot 0).qid.toNat = true := by decide

/-- The tick leaves no launch with the child's record in the dispatcher: its write of RDIDX has set the child's `dirty`. -/
theorem tickDue_marks : ∃ t : State, exec .dispatchTick { tickDue with inp := some .dispatchTick } = .next t ∧ waitingChild ∉ t.sch.held := by
  refine ⟨_, dispatchTick_enters (by decide) tickDue_takes (by decide), ?_⟩
  rw [State.takeOffer_sch (by decide), mem_semPass (by decide)]
  · intro hm
    obtain ⟨y, -, hy⟩ | ⟨hl, -⟩ := mem_entered (by decide) hm
    · exact absurd (congrArg HeldLaunch.dirty hy) Bool.false_ne_true
    · exact absurd hl (by decide)
  · intro h hm hl
    obtain ⟨y, hy, rfl⟩ | ⟨-, hh⟩ := mem_entered (by decide) hm
    · cases List.mem_singleton.mp hy
      exact absurd hl (by decide)
    · rw [hh]
      decide

/-- Refutes O43: where a tick takes a slot's launch, it writes RDIDX in the queue's descriptor, and that write makes the launches held
already read their semaphores again; the statement has them held as they were. -/
theorem not_schedulerEvents : ¬ Obligations.SchedulerEvents := by
  unfold Obligations.SchedulerEvents
  rintro ⟨-, hdispatch, -⟩
  obtain ⟨-, hentered⟩ := hdispatch tickDue 0 slotLaunch (by decide) tickDue_takes
  obtain ⟨u, h, hexec, hheld, hlid, hlaunch, -⟩ := hentered fun _ => tickDue_advances
  obtain ⟨t, ht, hchild⟩ := tickDue_marks
  rw [ht] at hexec
  cases hexec
  refine hchild ((mem_semPass ?_ ?_).mpr ?_)
  · rw [hlid]
    decide
  · intro y hy hyl
    rw [hheld, List.mem_append, List.mem_singleton] at hy
    obtain hy | rfl := hy
    · cases List.mem_singleton.mp hy
      exact absurd (hyl.trans hlid) (by decide)
    · rw [hlaunch]
      decide
  · rw [hheld]
    exact List.mem_append_left _ (List.mem_singleton.mpr rfl)

end Sys2Proof.Machine
end
